-- ==== Sys2Proof/Word.lean ====
section
/-! DEFINITION. The word types of the BRD-64A model and their plainest arithmetic. -/

namespace Sys2Proof

/-- One byte, the smallest addressable unit of every memory (09, "Addresses"). -/
abbrev Byte := BitVec 8

/-- A 32-bit word: a Signal box counter, or the bits of a W32 (IEEE 754 binary32) value. -/
abbrev W32 := BitVec 32

/-- A 64-bit word: a device address, a register, a CRC-64. -/
abbrev W64 := BitVec 64

/-- One Timetable command, 64 bytes (08, "Commands"). -/
abbrev CmdWord := BitVec 512

/-- A sparse table by number: an unlisted key holds the default that its reader names. -/
abbrev Tab (α : Type) := List (Nat × α)

end Sys2Proof
end

