-- ==== Sys2Proof/Syntax.lean ====
section
/-! DEFINITION. The commands of the BRD-64A block: one constructor of `Instr` for each row of the table of operations
and events, with the operands the outside world gives it. A row that reports a physical event (a timer, a sensor, a
detected error) carries the measured quantity, and its meaning compares that quantity with the manual's limit. -/

namespace Sys2Proof.Machine

open Sys2Proof

/-- The job kinds an image header may name (R246). -/
inductive JobKind where
  | distil
  | serve
  | undefined
  deriving DecidableEq, Repr

/-- One stream of a core: its slot, the bytes of its command array, and the indices in the stream table at which its
step body and its epilogue begin (R244, R641). -/
structure StreamDecl where
  slot : Nat
  code : List Byte
  bodyAt : Nat
  epilogueAt : Nat
  deriving DecidableEq, Repr

/-- One core of a Timetable: its streams and its 16-byte counter declarations. -/
structure CoreDecl where
  core : Nat
  streams : List StreamDecl
  counters : List (Nat × Nat)
  deriving DecidableEq, Repr

/-- One channel of the barrier table. -/
structure ChannelDecl where
  chan : Nat
  scope : Nat
  voteSrc : Nat
  cores : List Nat
  packages : List Nat
  deriving DecidableEq, Repr

/-- What the Timetable declares of a tensor: its class (04), its layout (09), its rows and columns. -/
structure TensorDecl where
  tensor : Nat
  cls : Nat
  layout : Nat
  rows : Nat
  cols : Nat
  /-- An N8 tensor with a channel scale, and the bytes, as a device address of the Timetable, in which its elements lie
  (R94). -/
  channel : Bool
  addr : Nat
  bytes : Nat
  deriving DecidableEq, Repr

/-- The commands of one depth of a serving Timetable: the Timetable dies of its Junctions and the Yard offsets of its
acceptance records and of its results. -/
structure ServeGroup where
  depth : Nat
  dies : List Nat
  reqOff : Nat
  outOff : Nat
  deriving DecidableEq, Repr

/-- What a serving Timetable says of its pairing (12): layers and key-value widths of the teacher and the student, the
bytes and parameters of R420, the round counter, and where rounds are planned (DESIGN CHOICE, log entry 50). -/
structure ServePlan where
  layersT : Nat
  layersS : Nat
  widthT : Nat
  widthS : Nat
  draftBytes : Nat
  passBytes : Nat
  unembedBytes : Nat
  params : Nat
  roundCore : Nat
  roundCtr : Nat
  groups : List ServeGroup
  planDie : Nat
  planOff : Nat
  deriving DecidableEq, Repr

/-- A Timetable image, parsed into the sections of 08 "The Timetable". The manual gives the sections' contents and not
their byte layout, so the loaded image stands here as a record (DESIGN CHOICE, log entry 12); the command arrays, whose
layout the manual gives, stand as bytes (R6). -/
structure Image where
  partNumber : List Byte
  stepping : Byte
  kind : JobKind
  nCores : Nat
  headerDefined : Bool
  sectionsInBounds : Bool
  scaleTable : Nat
  scaleEntries : Nat
  updRecord : Nat
  red : Nat
  updDescs : List Nat
  wgradDescs : List Nat
  tensors : List TensorDecl
  logitRows : List (Nat × Nat × Nat)
  packages : List Nat
  cores : List CoreDecl
  channels : List ChannelDecl
  serving : Option ServePlan
  deriving DecidableEq, Repr

/-- What one package puts into the arm barrier (R366, R380, R559): its Points epoch, its two designations, its ring size,
the CRC-64s of its ring and shadow tables, the W that it has restored, and whether its own ring checks passed. -/
structure ArmView where
  epoch : Nat
  terminus : Nat
  deputy : Nat
  ringSize : Nat
  ringCrc : Nat
  shadowCrc : Nat
  restored : Option Nat
  ready : Bool
  deriving DecidableEq, Repr

/-- Cycles in which an array froze while a tile ran (R63, R67): with a dry lane, with a blocked drain, with both,
and with the clock stopped by a throttle or by parking; and the causes in the last frozen cycle. The timing of its
neighbours decides them. -/
structure Freeze where
  dry : Nat
  drain : Nat
  both : Nat
  clock : Nat
  lastDry : Bool
  lastDrain : Bool
  deriving DecidableEq, Repr

/-- A frame of a Linam port: its control byte and its 256-byte flit as a number, bit 0 first (10, "Frames and groups"). -/
structure Frame where
  ctl : Byte
  flit : Nat
  deriving DecidableEq, Repr

/-- A message between packages: the 2,048 bits of the header flit, the data bytes, and the end-to-end CRC of the
trailer flit (10, "Messages"). -/
structure Message where
  header : Nat
  data : List Byte
  crc : Nat
  deriving DecidableEq, Repr

/-- Where a frame of the Object Dictionary protocol arrived (15). -/
inductive OdPath where
  | mailbox (port : Nat)
  | todp (addr : Nat) (udpPort : Nat)
  deriving DecidableEq, Repr

/-- What a DDR5 channel finds on its module (R291, R292): its size, its rank count and its highest rated rate; size 0 where
no module is fitted. -/
structure Dimm where
  gib : Nat
  ranks : Nat
  rate : Nat
  deriving DecidableEq, Repr

/-- What the control dies show at a reset (R38 to R40): the dies whose self-test fails, those that report nothing, and those
whose management island does not answer; and whether both flash copies of the protection entries fail their tags (17,
"Ownership"). -/
structure DieReport where
  failing : List Nat
  silent : List Nat
  mute : List Nat
  untagged : Bool := false
  deriving DecidableEq, Repr

/-- A line of an array that fails the power-on self-test (R83): a physical row, or a column. -/
structure FailedLine where
  core : Nat
  array : Nat
  column : Bool
  line : Nat
  deriving DecidableEq, Repr

/-- The thing whose supply a monitor watches (18): a main rail, or the regulator of an island. -/
inductive Supply where
  | rail (n : Nat)
  | regulator (island : Nat)
  deriving DecidableEq, Repr

end Sys2Proof.Machine

namespace Sys2Proof

open Machine

/-- The commands, one constructor per row of the table. -/
inductive Instr where
  -- Timetable commands: the sequencer of `core` issues the chosen stream's next command when it is of the row's kind
  | sync (core : Nat)
  | tileOutputStat (core : Nat) (fz : Freeze)
  | tileInputStat (core : Nat) (fz : Freeze)
  | tileElementwise (core : Nat) (fz : Freeze)
  | move (core : Nat)
  | moveTranspose (core : Nat)
  | moveRequant (core : Nat)
  | moveSpill (core : Nat)
  | moveFill (core : Nat)
  | rowNormForward (core : Nat)
  | rowNormBackward (core : Nat)
  | rowAttentionStatistics (core : Nat)
  | rowAttentionBackward (core : Nat)
  | rowDropout (core : Nat)
  | rowRowsum (core : Nat)
  | rowHiddenGradientSum (core : Nat)
  | rowGainAccumulation (core : Nat)
  | jctDistilStats (core : Nat)
  | jctDistilEmit (core : Nat)
  | jctHintStats (core : Nat)
  | jctHintEmit (core : Nat)
  | jctDraft (core : Nat)
  | jctVerify (core : Nat)
  | jctResidual (core : Nat)
  | jctSlotGrant (die waited : Nat)
  | jctPartialMerge (die row : Nat)
  | jctGradEmit (die row : Nat)
  | lossSpikeDetect
  | barrier (core : Nat)
  | notify (core : Nat)
  | rebase (core : Nat)
  | stepEnd (core : Nat)
  | streamEnd (core : Nat)
  | place (core : Nat)
  -- Signal boxes and the Interlocking
  | counterSignal (core : Nat)
  | sbSet (core : Nat) (value : W64)
  | syncHangReport (core slot heldMs : Nat)
  | syncHang (core slot heldMs : Nat)
  | barArrive (port : Nat)
  | barRelease (chan elapsedNs : Nat)
  | barrierTokenDeadline (port chan elapsedNs : Nat)
  | barrierTimeout (chan elapsedMs : Nat)
  -- Roundhouse and checkpoints
  | roundhouseNormPass (bucket : Nat) (before after : List (BitVec 64))
  | updateComplete (stopUs : Nat)
  | copyPass (stopUs : Nat)
  | ckptCodingComplete
  | roundhouseDetectedError (edge group : Nat)
  | updDigest (value : Nat)
  -- Reduction
  | bucketFilled (bucket : Nat)
  | accum (port : Nat)
  | exchangeComplete
  | redShadowDeadline (bucket elapsedUs : Nat)
  | redHardTimeout (bucket elapsedMs : Nat)
  | ringSubst (port : Nat)
  -- Linam link
  | moveWrite (port : Nat)
  | writeAck (port : Nat)
  | linkMessageForward (port vc : Nat)
  | jobFault (port : Nat)
  | mgmt (port : Nat)
  | linkGroupReceive (port : Nat) (lanes : List (List Frame)) (fecOk : Bool)
  | linkAckDeadline (port elapsedNs : Nat)
  | laneLockLoss (port lane : Nat)
  | laneSerWindow (port lane : Nat) (ratio : W32)
  | laneSub (port : Nat)
  | laneSubTimeout (port elapsedNs : Nat)
  | portTrainingStart (port : Nat) (txGood rxGood : Nat) (skews : List Nat)
  | portHandshake (port peer peerPort epoch : Nat) (credits : List Nat)
  | portTrainingTimeout (port elapsedMs : Nat)
  | portTrainingRetry (port elapsedMs : Nat)
  | linkPortReset (value : Nat)
  | pointsCommit (value : Nat)
  -- Host interface
  | queueDoorbell (port function : Nat) (offset size value : Nat)
  | completionDoorbell (port function : Nat) (offset size value : Nat)
  | counterDoorbell (port function : Nat) (offset size value : Nat)
  | dCopy (queue : Nat)
  | dInline (queue : Nat)
  | dFence (queue : Nat)
  | dFlush (queue : Nat)
  | dServe (queue : Nat)
  | qReset (queue : Nat)
  | ctxReset (platform : Nat)
  | epochArm (platform : Nat) (value : Nat)
  | apertureRead (port offset size : Nat)
  | apertureWrite (port offset : Nat) (data : List Byte)
  | mbxGo (port : Nat)
  | registerWrite (port function bar : Nat) (offset size value : Nat)
  | cxlMemRead (port offset size : Nat)
  | cxlMemWrite (port offset : Nat) (data : List Byte)
  | hdmDecoderCommit (port base size ways : Nat)
  | dataLinkDown (port : Nat)
  | dataLinkUp (port rate width : Nat) (flit cxl : Bool)
  | linkDownHold (port elapsedMs : Nat)
  | portHotReset (port : Nat)
  | packageWarmReset (dies : DieReport)
  | flrPhysical (port : Nat)
  | flrVirtual (port vf : Nat)
  | vfEnableClear (port numVfs : Nat)
  -- Platforms
  | pcArm (platform : Nat) (peers : List ArmView)
  | pcSuspend (platform : Nat)
  | suspendComplete (platform : Nat)
  | pcResume (platform : Nat)
  | pcReset (platform : Nat)
  | pcDisarm (platform : Nat)
  -- Object Dictionary and field network
  | odRead (path : OdPath) (frame : List Byte)
  | odWrite (path : OdPath) (frame : List Byte)
  | domainSegmentWrite (path : OdPath) (frame : List Byte)
  | discover (addr udpPort : Nat) (frame : List Byte)
  | mctp (path : OdPath) (frame : List Byte)
  | secured (path : OdPath) (frame : List Byte)
  | spdmChallenge (path : OdPath) (request : List Byte)
  | spdmGetMeasurements (path : OdPath) (request : List Byte)
  | spdmKeyExchange (path : OdPath) (request : List Byte)
  | rw2Write (path : OdPath) (frame : List Byte)
  | authCancel (path : OdPath) (frame : List Byte)
  | stagedChangeExpiry (elapsedS : Nat)
  | keyEnrol (path : OdPath) (frame : List Byte)
  | ownershipRelease (path : OdPath) (frame : List Byte)
  | debugUnlock (path : OdPath) (frame : List Byte)
  | fwUpdate (path : OdPath) (frame : List Byte)
  | ttLoad (value : Nat)
  | ttLoadComplete (img : Image)
  | ckptRequest (value : Nat)
  | ckptDrained (value : Nat)
  | ckptRestore (value : Nat)
  | ckptServeNow (value : Nat)
  | buddyPkg (value : Nat) (peerFeed : Nat)
  | buddySend (value : Nat)
  | statsLatchNow (value : Nat)
  | stickyLogClear (value : Nat)
  | feValidClear (value : Nat)
  | packageMode (value : Nat)
  | powerProfile (value : Nat)
  | powerStateRun
  | powerStateDoze
  | powerStateStandby
  | packageResetWarm (dies : DieReport)
  | packageResetCold (dies : DieReport)
  | statsBoundary
  -- Serving
  | roundBoundary (roundUs : Nat)
  | summaryComplete (request : Nat)
  -- Detected errors, islands, control dies
  | arrayDetectedError (core array cell : Nat) (row col out : Nat)
  | turntableDetectedError (die block : Nat) (again : Bool)
  | islandLimitCheck (a b : Nat) (clockA clockB supplyA supplyB : Nat) (tempA tempB : Int)
  | islandResume (island elapsedUs : Nat) (fast slow supplyDiff tempDiff : Nat)
  | islandParkLimit (island elapsedMs : Nat)
  | linamParkDeadline (island elapsedNs : Nat)
  | controlWatchdog (elapsedMs : Nat) (dies : DieReport)
  | controlMemory (dies : DieReport)
  | controlDieReportTimeout (elapsedMs : Nat)
  -- Power, start-up and thermal
  | vauxRise (millivolts : Nat) (dies : DieReport)
  | packageReady (dimms : List Dimm) (hbmFailed : List (Nat × Nat)) (lines : List FailedLine)
  | mainRailStartTimeout (elapsedMs : Nat)
  | vinPgoodDrop (elapsedNs : Nat) (dies : DieReport)
  | powerSample (watts1ms watts1us : Nat)
  | supplyWarning (supply : Supply) (millivolts : Nat)
  | supplyRecovery (supply : Supply) (millivolts elapsedUs : Nat)
  | thermalSample (island : Nat) (celsius : Int)
  | thermalExit (island : Nat) (celsius : Int) (elapsedUs : Nat)
  | thermalTripHoldoff (elapsedS : Nat)
  | railBelowReset (supply : Supply) (millivolts : Nat) (dies : DieReport)
  | idleEntry (island elapsedNs : Nat)
  | idleExit (island : Nat)
  -- Field network
  | plcaTransmit
  | beaconLoss (elapsedUs : Nat)
  | plcaCollision
  | fnSettingApply
  | fnPortStart (duplicate : Bool)
  | perstDeassert (port : Nat)
  | vinPgoodAssert (vin vddq vio : Nat)
  | beaconReturn
  | plcaBeacon
  | neighbourDiscovery (frame : List Byte)
  | msixUnmask (port vector : Nat)
  deriving DecidableEq, Repr

end Sys2Proof
end

