-- ==== Sys2Proof/Decode.lean ====
section
/-! DEFINITION. The commands that a table word spells. -/

namespace Sys2Proof

/-- The command that `nbits` bits of value `w` spell by the table of operations and events. The table gives bits to
no row (a command arrives as a pin event, a register write or an engine's own event), so no word spells a command. -/
def decodeTableWord (_nbits _w : Nat) : Option Instr := none

end Sys2Proof
end

