-- ==== Sys2Proof/Config.lean ====
section
/-! DEFINITION. What an implementation or the part at hand fixes and the manual leaves open: opaque constants, so that
a claim holds whatever they are. -/

namespace Sys2Proof.Config

open Sys2Proof

/-- `SERIAL_NUMBER`, 12 characters (R631). -/
opaque serialNumber : BitVec 96
/-- `FN_MAC_ADDR`, 6 bytes (R631). -/
opaque macAddr : BitVec 48
/-- `IDENTITY_CERTS`, the certificate chain (R631). -/
opaque identityCerts : List Byte
/-- `FIRMWARE_VERSION` of the running image (R631). -/
opaque firmwareVersion : BitVec 32
/-- `LAND_MAP`, 11,880 records of 8 bytes: their groups and indices are used; the manual gives the records' form and order and not where the
groups lie (R619). -/
opaque landMap : Nat → BitVec 64

/-- HBM channel within its stack, and DRAM row, of a 4 KiB granule: fixed by the Depot and hidden (R297). -/
opaque hbmChannel : Nat → BitVec 5
opaque hbmRow : Nat → BitVec 32

/-- Granules of 4 KiB that one DRAM row holds; the manual does not give the row's size (R286, R289). -/
opaque hbmRowGranules : Nat
/-- SHA-256 of the Twimas firmware-signing key in the boot ROM, and of the boot ROM itself (R582, R586). -/
opaque romKeyHash : BitVec 256
opaque romHash : BitVec 256
/-- The image in each flash device of a part as it leaves the factory (17, "Firmware and identity"). -/
opaque factoryImage : Nat → List Byte
/-- The answer to a neighbour-discovery frame, which IPv6 and not the manual lays out (R529). -/
opaque neighbourAnswer : List Byte → List Byte

/-- Free values: the n-th value that the machine draws where the manual states no value. -/
opaque freeByte : Nat → Byte
opaque freeWord : Nat → BitVec 32
opaque freeNonce : Nat → BitVec 64

/-- The winner of a serving race all of whose keys are NaN, which the manual does not name, and the logit that goes with it: by
seed, draw kind and position, the inputs on which R171 lets a token depend. -/
opaque raceToken : Nat → Nat → Nat → BitVec 20
opaque raceLogit : Nat → Nat → Nat → BitVec 32

/-- Which of the W32 values within 2 units in the last place of the exact value an element-wise function returns (R79):
−1 to 2 units from the exact value cut toward zero, by function code and operand. -/
opaque ulpOffset : Nat → BitVec 32 → Fin 4
/-- What GELU_TANH (5) and SILU (6) return at −∞: the manual states no value there. -/
opaque funcAtNegInf : Nat → BitVec 32

/-- Validity of a signature by key, message and signature bytes (the algorithms are named and not described). -/
opaque signatureValid : BitVec 256 → List Byte → List Byte → Bool
/-- The part's signature over a message (SPDM responses). -/
opaque deviceSign : List Byte → List Byte
/-- Key agreement and session protection of SPDM, outside the manual. -/
opaque spdmSecret : List Byte → Nat → BitVec 256
opaque securedOpen : BitVec 256 → List Byte → Option (List Byte)
opaque securedSeal : BitVec 256 → List Byte → List Byte

end Sys2Proof.Config
end

