-- ==== Sys2Proof/Machine/Bits.lean ====
section
/-! DEFINITION. Bit fields, byte order (R6) and tables: the helpers every other file uses. -/

namespace Sys2Proof.Machine

open Sys2Proof

/-- Bits [lo + len - 1 : lo] of a number. -/
def bitsOf (w lo len : Nat) : Nat := (w >>> lo) % 2 ^ len

/-- Bit n of a number. -/
def bitOf (w n : Nat) : Bool := w.testBit n

/-- `w` with bits [lo + len - 1 : lo] replaced by `v`. -/
def setBits (w lo len v : Nat) : Nat :=
  w - (bitsOf w lo len) * 2 ^ lo + (v % 2 ^ len) * 2 ^ lo

/-- The `n` low bytes of a number, least-significant byte first (R6). -/
def leBytes : Nat → Nat → List Byte
  | 0, _ => []
  | n + 1, v => BitVec.ofNat 8 v :: leBytes n (v / 256)

/-- The number that bytes hold, least-significant byte first (R6). -/
def leNat : List Byte → Nat
  | [] => 0
  | b :: bs => b.toNat + 256 * leNat bs

/-- The number that bytes hold, most-significant byte first (the byte order of R7 for hashes). -/
def beNat (bs : List Byte) : Nat := leNat bs.reverse

/-- The `n` low bytes of a number, most-significant byte first (R7). -/
def beBytes (n v : Nat) : List Byte := (leBytes n v).reverse

/-- The value a sparse table holds at a key, or the default. -/
def tabGet {α : Type} (d : α) : Tab α → Nat → α
  | [], _ => d
  | (k, v) :: t, i => if k = i then v else tabGet d t i

/-- The value a sparse table holds at a key, if it lists the key. -/
def tabFind {α : Type} : Tab α → Nat → Option α
  | [], _ => none
  | (k, v) :: t, i => if k = i then some v else tabFind t i

/-- A sparse table with the value at a key replaced; keys stay in rising order. -/
def tabSet {α : Type} : Tab α → Nat → α → Tab α
  | [], i, x => [(i, x)]
  | (k, v) :: t, i, x =>
    if k = i then (i, x) :: t
    else if i < k then (i, x) :: (k, v) :: t
    else (k, v) :: tabSet t i x

/-- A sparse table without a key. -/
def tabErase {α : Type} (t : Tab α) (i : Nat) : Tab α := t.filter fun p => p.1 != i

/-- A sparse table with the value at a key changed by a function. -/
def tabMod {α : Type} (d : α) (t : Tab α) (i : Nat) (f : α → α) : Tab α :=
  tabSet t i (f (tabGet d t i))

/-- ceil(a / b). -/
def ceilDiv (a b : Nat) : Nat := (a + b - 1) / b

/-- `a` rounded up to a multiple of `b`. -/
def roundUp (a b : Nat) : Nat := ceilDiv a b * b

/-- The numbers from `lo` on, `n` of them. -/
def fromTo (lo n : Nat) : List Nat := (List.range n).map (lo + ·)

/-- The element of a list at a position, or the default. -/
def listGet {α : Type} (d : α) : List α → Nat → α
  | [], _ => d
  | x :: _, 0 => x
  | _ :: xs, n + 1 => listGet d xs n

/-- A list cut into pieces of `n` elements; the fuel bounds the number of pieces. -/
def chunks {α : Type} (n : Nat) : Nat → List α → List (List α)
  | 0, _ => []
  | _, [] => []
  | f + 1, xs => xs.take n :: chunks n f (xs.drop n)

/-- Two's-complement reading of the low `n` bits. -/
def signedOf (w n : Nat) : Int :=
  let v := w % 2 ^ n
  if v < 2 ^ (n - 1) then (v : Int) else (v : Int) - (2 ^ n : Nat)

/-- Two's-complement writing in `n` bits. -/
def unsignedOf (i : Int) (n : Nat) : Nat := (i % ((2 ^ n : Nat) : Int)).toNat

end Sys2Proof.Machine
end

