-- ==== Sys2Proof/Machine/Fp.lean ====
section
/-! DEFINITION. Exact values and IEEE 754 rounding (R106 to R109): every W32, B16, H16 and binary64
operation of the device computes exactly on `Num` and rounds once here. -/

namespace Sys2Proof.Machine

open Sys2Proof

/-- An exact value: a NaN, an infinity, or ±m × 2^e (a zero keeps its sign). -/
inductive Num where
  | nan
  | inf (neg : Bool)
  | fin (neg : Bool) (m : Nat) (e : Int)
  deriving DecidableEq, Repr

/-- A binary interchange layout: exponent-field bits and fraction bits (04, "Element and scale encodings"). -/
structure Ieee where
  eb : Nat
  fb : Nat
  deriving DecidableEq, Repr

def Ieee.bias (f : Ieee) : Nat := 2 ^ (f.eb - 1) - 1
def Ieee.emin (f : Ieee) : Int := 1 - (f.bias : Int)
def Ieee.width (f : Ieee) : Nat := 1 + f.eb + f.fb

def fmtW32 : Ieee := ⟨8, 23⟩
def fmtB16 : Ieee := ⟨8, 7⟩
def fmtH16 : Ieee := ⟨5, 10⟩
def fmtB64 : Ieee := ⟨11, 52⟩

/-- The rounding modes of 04, "Conversion and rounding"; `sr u` carries the 16-bit fraction of R108. -/
inductive Rounding where
  | rne
  | rtz
  | sr (u : Nat)
  deriving DecidableEq, Repr

/-- The magnitude m × 2^e on the grid of multiples of 2^q: the count of quanta (R107, R108). -/
def quantise (r : Rounding) (m : Nat) (e q : Int) : Nat :=
  if q ≤ e then m <<< (e - q).toNat
  else
    let s := (q - e).toNat
    let lo := m >>> s
    let rem := m - (lo <<< s)
    if rem = 0 then lo
    else match r with
      | .rtz => lo
      | .rne =>
        let half := 1 <<< (s - 1)
        if rem > half || (rem = half && lo % 2 = 1) then lo + 1 else lo
      | .sr u =>
        let t16 := (rem <<< 16) >>> s
        if t16 + u ≥ 65536 then lo + 1 else lo

/-- floor(log2 (m × 2^e)) for m > 0. -/
def expOf (m : Nat) (e : Int) : Int := (m.log2 : Int) + e

/-- The quantum's exponent for a magnitude in a layout with `fb` fraction bits and least exponent `emin`. -/
def quantumOf (fb : Nat) (emin : Int) (m : Nat) (e : Int) : Int :=
  (if m = 0 then emin else max (expOf m e) emin) - (fb : Int)

/-- What a conversion did to a finite value (R109, R110, R112). -/
structure Conv where
  bits : Nat
  overflow : Bool
  saturated : Bool
  vanished : Bool
  deriving DecidableEq, Repr

/-- The canonical NaN of a layout (R106). -/
def Ieee.nan (f : Ieee) : Nat := (2 ^ f.eb - 1) <<< f.fb ||| (1 <<< (f.fb - 1))

def Ieee.infBits (f : Ieee) (neg : Bool) : Nat :=
  (if neg then 1 <<< (f.eb + f.fb) else 0) ||| ((2 ^ f.eb - 1) <<< f.fb)

/-- An exact value in a layout, rounded once (R107 to R109, R111, R112). -/
def Ieee.conv (f : Ieee) (r : Rounding) : Num → Conv
  | .nan => ⟨f.nan, false, false, false⟩
  | .inf neg => ⟨f.infBits neg, false, false, false⟩
  | .fin neg m e =>
    let sgn := if neg then 1 <<< (f.eb + f.fb) else 0
    let q := quantumOf f.fb f.emin m e
    let k := quantise r m e q
    -- the exponent step may carry into the next binade; k < 2^(fb+2)
    let ef := (q + (f.fb : Int) - f.emin).toNat
    let body := if k = 0 then 0 else (ef <<< f.fb) + k
    let maxFin := ((2 ^ f.eb - 1) <<< f.fb) - 1
    if body > maxFin then
      match r with
      | .rtz => ⟨sgn ||| maxFin, true, false, false⟩
      | _ => ⟨f.infBits neg, true, false, false⟩
    else ⟨sgn ||| body, false, false, m != 0 && k = 0⟩

/-- The exact value of a bit pattern. -/
def Ieee.dec (f : Ieee) (w : Nat) : Num :=
  let neg := bitOf w (f.eb + f.fb)
  let ef := bitsOf w f.fb f.eb
  let ff := bitsOf w 0 f.fb
  if ef = 2 ^ f.eb - 1 then (if ff = 0 then .inf neg else .nan)
  else if ef = 0 then .fin neg ff (f.emin - f.fb)
  else .fin neg (2 ^ f.fb + ff) ((ef : Int) - f.bias - f.fb)

/-! ### Exact arithmetic -/

/-- ±m × 2^e as an integer count of 2^q, for q ≤ e. -/
def scaled (neg : Bool) (m : Nat) (e q : Int) : Int :=
  let v : Int := ((m <<< (e - q).toNat : Nat) : Int)
  if neg then -v else v

def Num.ofInt (i : Int) (e : Int) : Num := .fin (i < 0) i.natAbs e

def Num.neg : Num → Num
  | .nan => .nan
  | .inf n => .inf (!n)
  | .fin n m e => .fin (!n) m e

/-- Exact sum, IEEE 754 signed zeros under round-to-nearest. -/
def Num.add : Num → Num → Num
  | .nan, _ => .nan
  | _, .nan => .nan
  | .inf a, .inf b => if a = b then .inf a else .nan
  | .inf a, _ => .inf a
  | _, .inf b => .inf b
  | .fin na ma ea, .fin nb mb eb =>
    let q := min ea eb
    let i := scaled na ma ea q + scaled nb mb eb q
    if i = 0 then
      (if ma = 0 && mb = 0 then .fin (na && nb) 0 q else .fin false 0 q)
    else Num.ofInt i q

def Num.mul : Num → Num → Num
  | .nan, _ => .nan
  | _, .nan => .nan
  | .inf a, .inf b => .inf (a != b)
  | .inf a, .fin n m _ => if m = 0 then .nan else .inf (a != n)
  | .fin n m _, .inf b => if m = 0 then .nan else .inf (n != b)
  | .fin na ma ea, .fin nb mb eb => .fin (na != nb) (ma * mb) (ea + eb)

/-- A quotient correct to far below every layout's half unit: the last bit is a sticky bit. -/
def Num.div : Num → Num → Num
  | .nan, _ => .nan
  | _, .nan => .nan
  | .inf _, .inf _ => .nan
  | .inf a, .fin n _ _ => .inf (a != n)
  | .fin n _ _, .inf b => .fin (n != b) 0 0
  | .fin na ma ea, .fin nb mb eb =>
    if mb = 0 then (if ma = 0 then .nan else .inf (na != nb))
    else if ma = 0 then .fin (na != nb) 0 0
    else
      let k := mb.log2 + 70
      let n := ma <<< k
      let q := n / mb
      let st := if q * mb = n then 0 else 1
      .fin (na != nb) (2 * q + st) (ea - eb - (k : Int) - 1)

/-- floor of the square root by bits: structural recursion on the bit number. -/
def isqrtBits (n : Nat) : Nat → Nat → Nat
  | 0, r => r
  | b + 1, r =>
    let t := r + 2 ^ b
    isqrtBits n b (if t * t ≤ n then t else r)

def isqrt (n : Nat) : Nat := isqrtBits n (n.log2 / 2 + 1) 0

def Num.sqrt : Num → Num
  | .nan => .nan
  | .inf n => if n then .nan else .inf false
  | .fin n m e =>
    if m = 0 then .fin n 0 0
    else if n then .nan
    else
      let k := 140 + (if (e % 2) = 0 then 0 else 1)
      let v := m <<< k
      let r := isqrt v
      let st := if r * r = v then 0 else 1
      .fin false (2 * r + st) ((e - (k : Int)) / 2 - 1)

/-- Multiplication by a power of two, exact. -/
def Num.scale (x : Num) (k : Int) : Num :=
  match x with
  | .fin n m e => .fin n m (e + k)
  | y => y

def Num.isNan : Num → Bool
  | .nan => true
  | _ => false

def Num.isFin : Num → Bool
  | .fin .. => true
  | _ => false

def Num.isZero : Num → Bool
  | .fin _ m _ => m = 0
  | _ => false

def Num.isNeg : Num → Bool
  | .nan => false
  | .inf n => n
  | .fin n _ _ => n

def Num.abs : Num → Num
  | .nan => .nan
  | .inf _ => .inf false
  | .fin _ m e => .fin false m e

/-- a < b as real numbers (infinities included), −0 below +0 (R106); false with a NaN. -/
def Num.lt : Num → Num → Bool
  | .nan, _ => false
  | _, .nan => false
  | .inf a, .inf b => a && !b
  | .inf a, .fin .. => a
  | .fin .., .inf b => !b
  | .fin na ma ea, .fin nb mb eb =>
    let q := min ea eb
    let x := scaled na ma ea q
    let y := scaled nb mb eb q
    if x = 0 && y = 0 then na && !nb else x < y

/-- The larger value, −0 below +0; NaN if either is NaN (R106). -/
def Num.max (a b : Num) : Num :=
  if a.isNan || b.isNan then .nan else if a.lt b then b else a

/-- The smaller value, −0 below +0; NaN if either is NaN (R106). -/
def Num.min (a b : Num) : Num :=
  if a.isNan || b.isNan then .nan else if b.lt a then b else a

/-! ### W32 operations: each one rounding, RNE (R106) -/

def ofW (w : W32) : Num := fmtW32.dec w.toNat
def toW (x : Num) : W32 := BitVec.ofNat 32 (fmtW32.conv .rne x).bits

/-- The canonical NaN of W32. -/
def nanW : W32 := 0x7FC00000#32
def oneW : W32 := 0x3F800000#32
def negInfW : W32 := 0xFF800000#32

def fadd (a b : W32) : W32 := toW ((ofW a).add (ofW b))
def fsub (a b : W32) : W32 := toW ((ofW a).add (ofW b).neg)
def fmul (a b : W32) : W32 := toW ((ofW a).mul (ofW b))
def ffma (a b c : W32) : W32 := toW (((ofW a).mul (ofW b)).add (ofW c))
def fdiv (a b : W32) : W32 := toW ((ofW a).div (ofW b))
def fsqrt (a : W32) : W32 := toW (ofW a).sqrt
def fneg (a : W32) : W32 := toW (ofW a).neg
def fmax (a b : W32) : W32 := toW ((ofW a).max (ofW b))
def fgt (a b : W32) : Bool := (ofW b).lt (ofW a) && !((ofW a).isZero && (ofW b).isZero)
def fge (a b : W32) : Bool := !(ofW a).isNan && !(ofW b).isNan && !(fgt b a)
def fofNat (n : Nat) : W32 := toW (.fin false n 0)
def fisFin (a : W32) : Bool := (ofW a).isFin
def fisNan (a : W32) : Bool := (ofW a).isNan

/-- B16 widened exactly to W32 (R132). -/
def widenB16 (b : BitVec 16) : W32 := toW (fmtB16.dec b.toNat)

/-- W32 converted to B16 with RNE. -/
def toB16 (w : W32) : BitVec 16 := BitVec.ofNat 16 (fmtB16.conv .rne (ofW w)).bits

/-! ### binary64 (R217, R218, R220) -/

def ofD (w : W64) : Num := fmtB64.dec w.toNat
def toD (x : Num) : W64 := BitVec.ofNat 64 (fmtB64.conv .rne x).bits
def dadd (a b : W64) : W64 := toD ((ofD a).add (ofD b))
def dmul (a b : W64) : W64 := toD ((ofD a).mul (ofD b))

end Sys2Proof.Machine
end

