-- ==== Sys2Proof/Machine/Formats.lean ====
section
/-! DEFINITION. Element formats and their conversions (R92, R93, R95, R107 to R112) and the counter-based generator
(R113 to R115). A format is named by its `PARALLEL_FMT` code: 0 F4, 1 E8, 2 F8, 3 N4, 4 N8, 5 B16, 6 W32, 7 H16. -/

namespace Sys2Proof.Machine

open Sys2Proof

/-- Bits of an element (04, "Element and scale layouts"). -/
def fmtBits : Nat → Nat
  | 0 => 4 | 1 => 8 | 2 => 8 | 3 => 4 | 4 => 8 | 5 => 16 | 6 => 32 | _ => 16

/-- Fraction bits f. -/
def fmtF : Nat → Nat
  | 0 => 1 | 1 => 2 | 2 => 3 | 3 => 2 | 4 => 6 | 5 => 7 | 6 => 23 | _ => 10

/-- Magnitude width w. -/
def fmtW : Nat → Nat
  | 0 => 2 | 1 => 3 | 2 => 4 | 3 => 4 | 4 => 8 | 5 => 8 | 6 => 24 | _ => 11

/-- Digits per element of a serial format (R53). -/
def fmtDigits : Nat → Nat
  | 0 => 1 | 1 => 2 | 2 => 2 | 3 => 2 | 4 => 4 | 5 => 4 | _ => 12

/-- The format carries an E8M0 scale (R94). -/
def fmtScaled (f : Nat) : Bool := f < 5

/-- The format that an `OUT_FMT` code names (03, `ARRAY_CTL`; 04, scale-table entry for code 6). -/
def outFmt : Nat → Nat
  | 0 => 6 | 1 => 5 | 2 => 2 | 3 => 1 | 4 => 0 | 5 => 4 | _ => 3

/-- Bytes of `n` packed elements (R93). -/
def fmtBytes (f n : Nat) : Nat := ceilDiv (n * fmtBits f) 8

/-- A decoded element: sign, significand M and exponent E of the value ±M × 2^(E − f) (R92). -/
inductive Elem where
  | fin (neg : Bool) (m : Nat) (e : Int)
  | inf (neg : Bool)
  | nan
  deriving DecidableEq, Repr

def Elem.zero : Elem := .fin false 0 0

def Elem.isZero : Elem → Bool
  | .fin _ m _ => m = 0
  | _ => false

def Elem.isFin : Elem → Bool
  | .fin .. => true
  | _ => false

/-- A floating element with `eb` exponent bits and `fb` fraction bits: M and E, a subnormal at E = 1 − bias. -/
def floatElem (eb fb code : Nat) : Elem :=
  let bias : Int := ((2 ^ (eb - 1) - 1 : Nat) : Int)
  let ef := bitsOf code fb eb
  let ff := bitsOf code 0 fb
  let neg := bitOf code (eb + fb)
  if ef = 0 then .fin neg ff (1 - bias) else .fin neg (2 ^ fb + ff) ((ef : Int) - bias)

/-- The element that a code of a format stands for (R92). -/
def decodeElem (f code : Nat) : Elem :=
  match f with
  | 0 => floatElem 2 1 code
  | 1 => if bitsOf code 2 5 = 31 then (if bitsOf code 0 2 = 0 then .inf (bitOf code 7) else .nan) else floatElem 5 2 code
  | 2 => if bitsOf code 0 7 = 127 then .nan else floatElem 4 3 code
  | 3 => let i := signedOf code 4; .fin (i < 0) i.natAbs 0
  | 4 => let i := signedOf code 8; .fin (i < 0) i.natAbs 0
  | 5 => if bitsOf code 7 8 = 255 then (if bitsOf code 0 7 = 0 then .inf (bitOf code 15) else .nan) else floatElem 8 7 code
  | 6 => if bitsOf code 23 8 = 255 then (if bitsOf code 0 23 = 0 then .inf (bitOf code 31) else .nan) else floatElem 8 23 code
  | _ => if bitsOf code 10 5 = 31 then (if bitsOf code 0 10 = 0 then .inf (bitOf code 15) else .nan) else floatElem 5 10 code

/-- The exact value of an element of a format under the scale exponent σ. -/
def Elem.value (f : Nat) (sigma : Int) : Elem → Num
  | .fin n m e => .fin n m (e - (fmtF f : Int) + sigma)
  | .inf n => .inf n
  | .nan => .nan

/-- The exponent of an E8M0 byte; 0xFF is a NaN scale (R92, R104). -/
def scaleOf (b : Byte) : Option Int := if b = 0xFF#8 then none else some ((b.toNat : Int) - 127)

/-- The E8M0 byte of an exponent from −127 to 127. -/
def scaleByte (sigma : Int) : Byte := BitVec.ofNat 8 (sigma + 127).toNat

/-- Emax of a scaled format (R119). -/
def fmtEmax : Nat → Int
  | 0 => 2 | 1 => 15 | 2 => 8 | _ => 0

/-! ### Conversion to an element (R107 to R112) -/

/-- A finite magnitude on the grid of a small float: `maxBody` is the code of the largest finite value. -/
def convSmall (eb fb maxBody : Nat) (keepSign : Bool) (r : Rounding) (neg : Bool) (m : Nat) (e : Int) : Conv :=
  let emin : Int := 2 - ((2 ^ (eb - 1) : Nat) : Int)
  let q := quantumOf fb emin m e
  let k := quantise r m e q
  let ef := (q + (fb : Int) - emin).toNat
  let body := if k = 0 then 0 else (ef <<< fb) + k
  let sgn := if neg && (keepSign || k != 0) then 1 <<< (eb + fb) else 0
  if body > maxBody then ⟨sgn + maxBody, false, true, false⟩
  else ⟨sgn + body, false, false, m != 0 && k = 0⟩

/-- A finite magnitude as a signed integer of `bits` bits with `fb` fraction bits. -/
def convInt (bits fb : Nat) (r : Rounding) (neg : Bool) (m : Nat) (e : Int) : Conv :=
  let k := quantise r m e (-(fb : Int))
  let top := if neg then 2 ^ (bits - 1) else 2 ^ (bits - 1) - 1
  let k' := Nat.min k top
  ⟨if neg then (2 ^ bits - k') % 2 ^ bits else k', false, top < k, m != 0 && k = 0⟩

/-- An exact value converted to an element of a format; for a scaled format the value is already divided by 2^σ, and a
non-finite value, which R111 turns into a NaN block, converts to the code 0. -/
def convElem (f : Nat) (r : Rounding) (x : Num) : Conv :=
  match f, x with
  | 5, _ => fmtB16.conv r x
  | 6, _ => fmtW32.conv r x
  | 0, .fin n m e => convSmall 2 1 7 false r n m e
  | 1, .fin n m e => convSmall 5 2 123 true r n m e
  | 2, .fin n m e => convSmall 4 3 126 true r n m e
  | 3, .fin n m e => convInt 4 2 r n m e
  | 4, .fin n m e => convInt 8 6 r n m e
  | _, _ => ⟨0, false, false, false⟩

/-! ### Counts of conversions and alignments (R127)

A tally is keyed by class × 32 + format × 4 + kind: 0 overflowed, 1 vanished, 2 saturated, 3 non-finite. -/

abbrev Tally := Tab Nat

def tallyKey (cls f kind : Nat) : Nat := 32 * cls + 4 * f + kind

/-- Add `n` to a count; a count of nothing is not listed. -/
def Tally.add (t : Tally) (cls f kind n : Nat) : Tally :=
  if n = 0 then t else tabMod 0 t (tallyKey cls f kind) (· + n)

def Tally.join (t u : Tally) : Tally := u.foldl (fun t e => tabMod 0 t e.1 (· + e.2)) t

def countIf {α : Type} (p : α → Bool) (l : List α) : Nat := (l.filter p).length

/-- What a list of conversions to a format counts. -/
def Tally.convs (t : Tally) (cls f : Nat) (cs : List Conv) : Tally :=
  ((t.add cls f 0 (countIf (·.overflow) cs)).add cls f 1 (countIf (·.vanished) cs)).add cls f 2 (countIf (·.saturated) cs)

/-- One block of a scaled format under the exponent σ: its scale byte and its codes (R111). -/
def convBlock (f : Nat) (sigma : Int) (xs : List (Num × Rounding)) : Byte × List Conv :=
  if xs.all fun x => x.1.isFin then (scaleByte sigma, xs.map fun x => convElem f x.2 (x.1.scale (-sigma)))
  else (0xFF#8, xs.map fun _ => ⟨0, false, false, false⟩)

/-- floor(log2 |x|) of a finite non-zero value. -/
def Num.log2 : Num → Int
  | .fin _ m e => expOf m e
  | _ => 0

/-- The largest finite magnitude of a list of values, or zero. -/
def finiteMax (xs : List Num) : Num :=
  xs.foldl (fun a x => if x.isFin && a.lt x.abs then x.abs else a) (.fin false 0 0)

/-! ### Philox4x32-10 (R113, R114) -/

def philoxRound (k0 k1 : Nat) (c : Nat × Nat × Nat × Nat) : Nat × Nat × Nat × Nat :=
  let p0 := 0xD2511F53 * c.1
  let p1 := 0xCD9E8D57 * c.2.2.1
  ((p1 / 2 ^ 32) ^^^ c.2.1 ^^^ k0, p1 % 2 ^ 32, (p0 / 2 ^ 32) ^^^ c.2.2.2 ^^^ k1, p0 % 2 ^ 32)

def philoxRounds : Nat → Nat → Nat → Nat × Nat × Nat × Nat → Nat × Nat × Nat × Nat
  | 0, _, _, c => c
  | n + 1, k0, k1, c =>
    philoxRounds n ((k0 + 0x9E3779B9) % 2 ^ 32) ((k1 + 0xBB67AE85) % 2 ^ 32) (philoxRound k0 k1 c)

/-- The four words of one call. -/
def philox (k0 k1 : Nat) (c : Nat × Nat × Nat × Nat) : List Nat :=
  let r := philoxRounds 10 k0 k1 c
  [r.1, r.2.1, r.2.2.1, r.2.2.2]

/-- The key and the fixed counter fields of a draw (04, "Generator counter"). -/
structure DrawKey where
  seed : Nat
  purpose : Nat
  tensor : Nat
  step : Nat
  micro : Nat
  deriving DecidableEq, Repr

/-- The words of the call that serves element indices 8 × `call` to 8 × `call` + 7. -/
def DrawKey.words (d : DrawKey) (call : Nat) : List Nat :=
  philox (bitsOf d.seed 0 32) (bitsOf d.seed 32 32)
    (call % 2 ^ 32, bitsOf call 32 16 + (d.micro % 2 ^ 16) * 2 ^ 16, d.step % 2 ^ 32,
      bitsOf d.step 32 12 + (d.purpose % 16) * 2 ^ 12 + (d.tensor % 2 ^ 16) * 2 ^ 16)

/-- The 16-bit fraction of an element index (R114). -/
def DrawKey.fraction (d : DrawKey) (i : Nat) : Nat :=
  bitsOf (listGet 0 (d.words (i / 8)) (i % 8 / 2)) (16 * (i % 2)) 16

/-- The rounding of an element: mode 0 `RNE`, 1 `RTZ`, 2 `SR` with the element's fraction. -/
def roundingOf (mode : Nat) (d : DrawKey) (i : Nat) : Rounding :=
  match mode with
  | 0 => .rne
  | 1 => .rtz
  | _ => .sr (d.fraction i)

/-! ### Packed elements in memory -/

/-- The code at element offset `i` of packed elements whose bytes a function gives. -/
def codeAt (f : Nat) (byte : Nat → Byte) (i : Nat) : Nat :=
  match fmtBits f with
  | 4 => bitsOf (byte (i / 2)).toNat (4 * (i % 2)) 4
  | 8 => (byte i).toNat
  | 16 => leNat [byte (2 * i), byte (2 * i + 1)]
  | _ => leNat [byte (4 * i), byte (4 * i + 1), byte (4 * i + 2), byte (4 * i + 3)]

/-- The bytes that writing a code at element offset `i` changes, as (offset, new byte); a nibble keeps its neighbour (R93). -/
def codeBytes (f : Nat) (byte : Nat → Byte) (i code : Nat) : List (Nat × Byte) :=
  match fmtBits f with
  | 4 => [(i / 2, BitVec.ofNat 8 (setBits (byte (i / 2)).toNat (4 * (i % 2)) 4 code))]
  | 8 => [(i, BitVec.ofNat 8 code)]
  | 16 => [(2 * i, BitVec.ofNat 8 code), (2 * i + 1, BitVec.ofNat 8 (code / 256))]
  | _ => (List.range 4).map fun k => (4 * i + k, BitVec.ofNat 8 (code / 256 ^ k))

end Sys2Proof.Machine
end

