-- ==== Sys2Proof/Machine/Special.lean ====
section
/-! DEFINITION. EXP and LN of the Junction and the row unit (R141, R142), and the element-wise functions of the
epilogue (R78, R79). -/

namespace Sys2Proof.Machine

open Sys2Proof

/-! ### EXP (R141) -/

/-- `TAB[j]`: the binary32 nearest to 2^(j/64). -/
def expTab : List W32 :=
  [0x3F800000#32, 0x3F8164D2#32, 0x3F82CD87#32, 0x3F843A29#32, 0x3F85AAC3#32, 0x3F871F62#32, 0x3F88980F#32, 0x3F8A14D5#32] ++
  [0x3F8B95C2#32, 0x3F8D1ADF#32, 0x3F8EA43A#32, 0x3F9031DC#32, 0x3F91C3D3#32, 0x3F935A2B#32, 0x3F94F4F0#32, 0x3F96942D#32] ++
  [0x3F9837F0#32, 0x3F99E046#32, 0x3F9B8D3A#32, 0x3F9D3EDA#32, 0x3F9EF532#32, 0x3FA0B051#32, 0x3FA27043#32, 0x3FA43516#32] ++
  [0x3FA5FED7#32, 0x3FA7CD94#32, 0x3FA9A15B#32, 0x3FAB7A3A#32, 0x3FAD583F#32, 0x3FAF3B79#32, 0x3FB123F6#32, 0x3FB311C4#32] ++
  [0x3FB504F3#32, 0x3FB6FD92#32, 0x3FB8FBAF#32, 0x3FBAFF5B#32, 0x3FBD08A4#32, 0x3FBF179A#32, 0x3FC12C4D#32, 0x3FC346CD#32] ++
  [0x3FC5672A#32, 0x3FC78D75#32, 0x3FC9B9BE#32, 0x3FCBEC15#32, 0x3FCE248C#32, 0x3FD06334#32, 0x3FD2A81E#32, 0x3FD4F35B#32] ++
  [0x3FD744FD#32, 0x3FD99D16#32, 0x3FDBFBB8#32, 0x3FDE60F5#32, 0x3FE0CCDF#32, 0x3FE33F89#32, 0x3FE5B907#32, 0x3FE8396A#32] ++
  [0x3FEAC0C7#32, 0x3FED4F30#32, 0x3FEFE4BA#32, 0x3FF28177#32, 0x3FF5257D#32, 0x3FF7D0DF#32, 0x3FFA83B3#32, 0x3FFD3E0C#32]

def expC64 : W32 := 0x42B8AA3B#32
def expLHi : W32 := 0x3C318000#32
def expLLo : W32 := 0xB65E8083#32
def expC3 : W32 := 0x3E2AAAAB#32
def halfW : W32 := 0x3F000000#32
def negOneOhFour : W32 := 0xC2D00000#32

/-- The integer nearest to a finite value, ties to even. -/
def Num.nearest : Num → Int
  | .fin n m e => let k : Int := (quantise .rne m e 0 : Nat); if n then -k else k
  | _ => 0

/-- EXP(x) for x ≤ 0, step by step as R141 gives it. -/
def fexp (x : W32) : W32 :=
  if fisNan x then nanW
  else if fgt negOneOhFour x then 0
  else
    let n := (ofW (fmul x expC64)).nearest
    let nw := toW (Num.ofInt n 0)
    let r := ffma (fneg nw) expLHi x
    let r := ffma (fneg nw) expLLo r
    let j := (n % 64).toNat
    let k := (n - (j : Int)) / 64
    let t := ffma r expC3 halfW
    let t := ffma t r oneW
    let t := fmul t r
    let tj := listGet 0 expTab j
    let y := ffma tj t tj
    toW ((ofW y).scale k)

/-! ### LN and exp to 160 fraction bits -/

/-- Fraction bits of the fixed-point numbers below. -/
def fixBits : Nat := 160

/-- 2 × Σ z^(2k+1) / (2k+1), the logarithm of (1 + z) / (1 − z), over `n` terms: `p` is z^(2k+1). -/
def atanhSum (z2 : Nat) : Nat → Nat → Nat → Nat
  | 0, _, _ => 0
  | n + 1, k, p => 2 * p / (2 * k + 1) + atanhSum z2 n (k + 1) ((p * z2) >>> fixBits)

/-- ln of the ratio a / b for a ≥ b > 0 with a ≤ 2 b, in fixed point. -/
def lnRatio (a b : Nat) : Nat :=
  let z := ((a - b) <<< fixBits) / (a + b)
  atanhSum ((z * z) >>> fixBits) 60 0 z

def ln2Fix : Nat := lnRatio 2 1

/-- ln x of a positive finite value, within 2^−150. -/
def lnNum (m : Nat) (e : Int) : Num :=
  let l := m.log2
  Num.ofInt (((lnRatio m (1 <<< l) : Nat) : Int) + ((l : Int) + e) * (ln2Fix : Int)) (-(fixBits : Int))

/-- LN(x): the binary32 value nearest to ln x (R142). -/
def fln (x : W32) : W32 :=
  match ofW x with
  | .nan => nanW
  | .inf n => if n then nanW else 0x7F800000#32
  | .fin n m e => if m = 0 then negInfW else if n then nanW else toW (lnNum m e)

/-- Σ r^k / k! over `n` terms from `t` on, in fixed point, for 0 ≤ r < 1. -/
def expSum (r : Nat) : Nat → Nat → Nat → Nat
  | 0, _, _ => 0
  | n + 1, k, t => t + expSum r n (k + 1) (((t * r) >>> fixBits) / k)

/-- e^x of a finite value, to about 150 significant bits; the exponent is held between −2,000 and 2,000 binades. -/
def expNum : Num → Num
  | .nan => .nan
  | .inf n => if n then .fin false 0 0 else .inf false
  | .fin n m e =>
    let big := m != 0 && 11 < expOf m e
    let v : Int := if big then 0 else scaled n (quantise .rtz m e (-(fixBits : Int))) (-(fixBits : Int)) (-(fixBits : Int))
    let q : Int := if big then (if n then -2000 else 2000) else v / (ln2Fix : Int)
    let r := if big then 0 else (v - q * (ln2Fix : Int)).toNat
    .fin false (expSum r 45 1 (1 <<< fixBits)) (q - (fixBits : Int))

/-! ### Element-wise functions (R78, R79) -/

/-- The sigmoid quotient a / (1 + e^(−y)). -/
def sigQuot (a y : Num) : Num := a.div ((Num.fin false 1 0).add (expNum y.neg))

/-- √(2/π) to 40 decimal digits (PRESUMED, log entry 30). -/
def sqrtTwoOverPi : Num := (Num.fin false 7978845608028653558798921198687637369517 0).div (.fin false (10 ^ 40) 0)

/-- The argument 2 √(2/π) (a + 0.044715 a³) of the tanh approximation of GELU. -/
def geluArg (a : Num) : Num :=
  let c := (Num.fin false 44715 0).div (.fin false (10 ^ 6) 0)
  ((a.add (c.mul (a.mul (a.mul a)))).mul sqrtTwoOverPi).scale 1

/-- A value of an element-wise function: at a finite non-zero operand, one of the W32 values within 2 ulp of the exact
value, the same one on every part (R79); at −∞ the manual states none. -/
def approx (code : Nat) (x : W32) (exact : Num → Num) : W32 :=
  match ofW x with
  | .nan => nanW
  | .inf n => if n then Config.funcAtNegInf code else x
  | .fin n m e =>
    if m = 0 then x
    else
      let lo := (fmtW32.conv .rtz (exact (.fin n m e))).bits
      let mag : Int := (bitsOf lo 0 31 : Nat)
      let v : Int := mag + ((Config.ulpOffset code x).val : Int) - 1
      BitVec.ofNat 32 (v.toNat + (if n then 2 ^ 31 else 0))

def fgelu (a : W32) : W32 := approx 5 a fun x => sigQuot x (geluArg x)
def fsilu (a : W32) : W32 := approx 6 a fun x => sigQuot x x

/-- RELU: max(a, +0) (R106). -/
def frelu (a : W32) : W32 := fmax a 0

/-! ### Sums in a fixed order -/

/-- One level of a pairwise tree: value 2m is added to value 2m + 1. -/
def pairSum : List W32 → List W32
  | a :: b :: t => fadd a b :: pairSum t
  | l => l

/-- A pairwise tree of `n` levels over 2^n values (SUM64 is 6 levels; ROWSUM 7). -/
def treeSum : Nat → List W32 → W32
  | 0, l => listGet 0 l 0
  | n + 1, l => treeSum n (pairSum l)

def sum64 (l : List W32) : W32 := treeSum 6 l

/-- Lane l of ROWSUM: the products x × y at positions l, l + 128, … folded by fma from +0 (R191). -/
def laneFma (xs ys : List W32) : List W32 :=
  (List.range 128).map fun l =>
    (List.range (ceilDiv (xs.length - l) 128)).foldl (fun a t =>
      ffma (listGet 0 xs (l + 128 * t)) (listGet 0 ys (l + 128 * t)) a) 0

/-- ROWSUM of products (R191). -/
def rowDot (xs ys : List W32) : W32 := treeSum 7 (laneFma xs ys)

/-- ROWSUM of values (R191). -/
def rowSum (xs : List W32) : W32 :=
  treeSum 7 ((List.range 128).map fun l =>
    (List.range (ceilDiv (xs.length - l) 128)).foldl (fun a t => fadd a (listGet 0 xs (l + 128 * t))) 0)

end Sys2Proof.Machine
end

