-- ==== Sys2Proof/Machine/OdTable.lean ====
section
/-! DEFINITION. The Object Dictionary's entries as the chapters' entry tables list them (15, "Object Dictionary"):
key, type, access code, default and persistence class of every entry. A key is index × 256 + subindex. -/

namespace Sys2Proof.Machine

open Sys2Proof

/-- Object Dictionary value types (15, "Types"). -/
inductive OdType where
  | bool | u8 | u16 | s16 | u32 | f32 | u64 | octets | str | domain
  deriving DecidableEq, Repr

/-- Object Dictionary access codes (15, "Access codes"). -/
inductive OdAccess where
  | const | ro | rw | rwp | wo | w1c | rw2
  deriving DecidableEq, Repr

/-- Persistence classes (15, "Persistence classes"). -/
inductive OdKeep where
  | volatile | warm | persistent
  deriving DecidableEq, Repr

/-- One row of an entry table: the indices and subindices it covers, its type and length in bytes, its access code,
its default as a little-endian number and its persistence class. -/
structure OdRow where
  ixLo : Nat
  ixHi : Nat
  subLo : Nat
  subHi : Nat
  ty : OdType
  len : Nat
  acc : OdAccess
  dflt : Nat
  keep : OdKeep
  deriving DecidableEq, Repr

/-- The row covers the key. -/
def OdRow.covers (r : OdRow) (key : Nat) : Bool :=
  let ix := key / 256
  let sub := key % 256
  r.ixLo ≤ ix && ix ≤ r.ixHi && r.subLo ≤ sub && sub ≤ r.subHi

/-! ### Keys by the spec's names -/

namespace Od

-- chapter 00
abbrev PART_NUMBER : Nat := 0x100001
abbrev STEPPING : Nat := 0x100002
abbrev FIRMWARE_VERSION : Nat := 0x100003
-- chapter 02
abbrev LDIE_PHYS : Nat := 0x710001
abbrev LCORE_SLOTS : Nat := 0x710101
abbrev DARK_DIE_PHYS : Nat := 0x710201
abbrev DARK_DIE_RETIRED : Nat := 0x710205
abbrev ACTIVE_CONTROL_DIE : Nat := 0x710301
abbrev ISLAND_RATIO_LIMIT : Nat := 0x220001
abbrev ISLAND_SUPPLY_LIMIT : Nat := 0x220002
abbrev ISLAND_TEMP_LIMIT : Nat := 0x220003
abbrev ISLAND_PARK_LIMIT : Nat := 0x220004
abbrev ISLAND_PARKED_NOW : Nat := 0x220005
abbrev ISLAND_LAST_PARKED : Nat := 0x220006
abbrev ISLAND_PARK_EVENTS : Nat := 0xA20001
-- chapter 03
abbrev ARRAYS_SPARE_ROWS_USED : Nat := 0x711001
abbrev ARRAYS_SPARE_COLS_USED : Nat := 0x711002
abbrev ARRAYS_REPAIR_EXHAUSTED : Nat := 0x711003
abbrev ARRAY_ACTIVE_CYCLES : Nat := 0xA30001
abbrev ARRAY_FREEZE_CYCLES : Nat := 0xA30002
abbrev ARRAY_FREEZE_DRY_CYCLES : Nat := 0xA30003
abbrev ARRAY_FREEZE_DRAIN_CYCLES : Nat := 0xA30004
abbrev ARRAY_THROTTLE_CYCLES : Nat := 0xA30005
abbrev TILE_REPLAYS : Nat := 0xA30006
abbrev TILE_REPLAY_FAILURES : Nat := 0xA30007
-- chapter 04
abbrev NUM_COUNT : Nat := 0xA50001
abbrev NUM_NONFINITE_STEPS : Nat := 0xA50801
abbrev JOB_SEED : Nat := 0x500001
abbrev JOB_STEP : Nat := 0x500002
abbrev SCALE_TABLE_ENTRIES : Nat := 0x500003
abbrev AMAX_WINDOW_DEFAULT : Nat := 0x500101
abbrev SCALE_MARGIN_DEFAULT : Nat := 0x500102
abbrev VANISH_LIMIT : Nat := 0x500103
abbrev VANISH_LIMIT_MULTIWORD : Nat := 0x500104
-- chapter 05
abbrev JCT_VOCAB_MAX : Nat := 0x510001
abbrev JCT_ROWS_MAX : Nat := 0x510002
abbrev JCT_SLOTS : Nat := 0x510003
abbrev JCT_HINT_TAPS_MAX : Nat := 0x510004
abbrev JCT_EXP_ULP : Nat := 0x510005
abbrev ACCEPT_DEPTH_MAX : Nat := 0x610001
abbrev JCT_ROWS_FINISHED : Nat := 0xA60001
abbrev JCT_NONFINITE_ROWS : Nat := 0xA60002
abbrev JCT_TAIL_CLAMPS : Nat := 0xA60003
abbrev JCT_SLOT_WAIT_CYCLES : Nat := 0xA60004
abbrev ACCEPT_DRAFTED : Nat := 0xA61001
abbrev ACCEPT_ACCEPTED : Nat := 0xA61002
abbrev ACCEPT_BONUS : Nat := 0xA61003
abbrev ACCEPT_RESIDUALS : Nat := 0xA61004
abbrev ACCEPT_RESIDUAL_EMPTY : Nat := 0xA61005
-- chapter 06
abbrev SIDING_RAW_BYTES : Nat := 0xA70001
abbrev SIDING_STORED_BYTES : Nat := 0xA70002
abbrev SIDING_RAW_GROUPS : Nat := 0xA70003
abbrev SIDING_FILL_ERRORS : Nat := 0xA70004
abbrev TT_BLOCKS : Nat := 0xA70005
abbrev TT_REPLAYS : Nat := 0xA70006
-- chapter 07
abbrev UPDATE_COUNT : Nat := 0x520001
abbrev SKIP_RUN : Nat := 0x520002
abbrev SKIP_LIMIT : Nat := 0x520003
abbrev SPIKE_ACTION : Nat := 0x520004
abbrev SPIKE_K : Nat := 0x520005
abbrev SPIKE_ALPHA : Nat := 0x520006
abbrev SPIKE_WARMUP : Nat := 0x520007
abbrev SPIKE_MEAN : Nat := 0x520008
abbrev SPIKE_SD : Nat := 0x520009
abbrev LAST_STEP_LOSS : Nat := 0x52000A
abbrev LAST_SPIKE_STEP : Nat := 0x52000B
abbrev LAST_GRAD_NORM : Nat := 0x52000C
abbrev LAST_CLIP_FACTOR : Nat := 0x52000D
abbrev UPD_DIGEST : Nat := 0x52000E
abbrev UPD_APPLIED : Nat := 0xA80001
abbrev UPD_SKIPPED : Nat := 0xA80002
abbrev UPD_CLIPPED : Nat := 0xA80003
abbrev LOSS_SPIKES : Nat := 0xA80004
abbrev UPD_REPLAYS : Nat := 0xA80005
-- chapter 08
abbrev TT_IMAGE_ADDR : Nat := 0x214001
abbrev TT_IMAGE_BYTES : Nat := 0x214002
abbrev TT_IMAGE_SHA256 : Nat := 0x214003
abbrev TT_LOAD : Nat := 0x214004
abbrev TT_LOAD_STATE : Nat := 0x214005
abbrev TT_REFUSE_CAUSE : Nat := 0x214006
abbrev JOB_STEPS : Nat := 0x214007
abbrev TEACHER_BASE : Nat := 0x214008
abbrev TEACHER_BYTES : Nat := 0x214009
abbrev TEACHER_SHA256 : Nat := 0x21400A
abbrev ARM_REFUSE_CAUSE : Nat := 0x21400B
abbrev SYNC_HANG_REPORT : Nat := 0x240001
abbrev SYNC_HANG_FAULT : Nat := 0x240002
abbrev JOB_TAINTED : Nat := 0x240003
abbrev BARRIER_TIMEOUT : Nat := 0x340001
abbrev BARRIER_TOKEN_DEADLINE : Nat := 0x340002
abbrev INTERLOCK_DEPTH : Nat := 0x340003
abbrev INTERLOCK_DEPTH_MAX : Nat := 0x340004
abbrev SYNC_SIGNALS : Nat := 0xA90001
abbrev SYNC_WAIT_CYCLES : Nat := 0xA90002
abbrev SYNC_REBASES : Nat := 0xA90003
abbrev SYNC_DOORBELL_DROPS : Nat := 0xA90004
abbrev SYNC_HANG_REPORTS : Nat := 0xA90005
abbrev BARRIERS_COMPLETED : Nat := 0xA90006
abbrev BARRIER_MAX_NS : Nat := 0xA90007
-- chapter 09
abbrev HBM_RAW_BYTES : Nat := 0x400001
abbrev HBM_VISIBLE_BYTES : Nat := 0x400002
abbrev HBM_ROWS_RETIRED : Nat := 0x400003
abbrev HBM_CHANNELS_RETIRED : Nat := 0x400004
abbrev HBM_RETIRE_PENDING : Nat := 0x400005
abbrev HBM_RETIRE_EXHAUSTED : Nat := 0x400006
abbrev DDR5_TIER_STATE : Nat := 0x401001
abbrev DDR5_MODULE_GIB : Nat := 0x401002
abbrev DDR5_RATE : Nat := 0x401003
abbrev DDR5_RATE_LIMIT : Nat := 0x401004
abbrev DDR5_RESERVE_BASE : Nat := 0x401005
abbrev DDR5_RESERVE_SIZE : Nat := 0x401006
abbrev CXL_WIN_BASE_HP0 : Nat := 0x402001
abbrev CXL_WIN_SIZE_HP0 : Nat := 0x402002
abbrev CXL_WIN_BASE_HP1 : Nat := 0x402003
abbrev CXL_WIN_SIZE_HP1 : Nat := 0x402004
abbrev ALLPATHS_FLUSH_MAX_NS : Nat := 0x403001
abbrev LINK_DOWN_HOLD_MS : Nat := 0x403002
abbrev HBM_CORRECTED : Nat := 0xAA0001
abbrev DDR5_CORRECTED : Nat := 0xAA0002
abbrev HOST_READ_BYTES : Nat := 0xAA0003
abbrev HOST_WRITE_BYTES : Nat := 0xAA0004
abbrev ALLPATHS_RECORDS : Nat := 0xAA0005
abbrev EPOCH_STOPS : Nat := 0xAA0006
abbrev CXL_PROTECTED_WRITES : Nat := 0xAA0007
-- chapter 10
abbrev POD_PACKAGE_ID : Nat := 0x300001
abbrev POD_SIZE : Nat := 0x300002
abbrev TERMINUS_PKG : Nat := 0x300003
abbrev DEPUTY_PKG : Nat := 0x300004
abbrev POINTS_EPOCH : Nat := 0x300005
abbrev LANE_SER_LIMIT : Nat := 0x300006
abbrev LINK_ACK_DEADLINE : Nat := 0x300007
abbrev LINK_REPLAY_LIMIT : Nat := 0x300008
abbrev POINTS_TABLE : Nat := 0x301001
abbrev TREE_PARENT_MASK : Nat := 0x301002
abbrev TREE_CHILD_MASK : Nat := 0x301003
abbrev RING_NEXT_MASK : Nat := 0x301004
abbrev RING_PREV_MASK : Nat := 0x301005
abbrev POINTS_COMMIT : Nat := 0x301006
abbrev LP_MEDIUM : Nat := 0x301007
abbrev LP_STATE : Nat := 0x310001
abbrev LP_TX_LANE_MAP : Nat := 0x310002
abbrev LP_RX_LANE_MAP : Nat := 0x310003
abbrev LP_PEER : Nat := 0x310004
abbrev LP_EXPECTED_PEER : Nat := 0x310005
abbrev LP_ENABLE : Nat := 0x310006
abbrev LP_FAILED_LANES : Nat := 0x310007
abbrev LINK_FEC_CORRECTED : Nat := 0xAB0001
abbrev LINK_FEC_UNCORRECTABLE : Nat := 0xAB0002
abbrev LINK_REPLAYS : Nat := 0xAB0003
abbrev LINK_LANE_SUBS : Nat := 0xAB0004
abbrev LINK_STALE_DROPS : Nat := 0xAB0005
abbrev LINK_TX_BYTES : Nat := 0xAB0006
abbrev LINK_RX_BYTES : Nat := 0xAB0007
-- chapter 11
abbrev RED_RING_SIZE : Nat := 0x350001
abbrev RED_RING_POS : Nat := 0x350002
abbrev RED_SHADOW_OF : Nat := 0x350003
abbrev RED_SHADOW_DEADLINE : Nat := 0x350004
abbrev RED_HARD_TIMEOUT : Nat := 0x350005
abbrev RED_STRIPE_BYTES : Nat := 0x350006
abbrev RED_RING_TABLE : Nat := 0x351001
abbrev RED_SHADOW_TABLE : Nat := 0x351002
abbrev RED_DIGEST_LOG : Nat := 0x352001
abbrev RED_EXCHANGES : Nat := 0x352002
abbrev RED_BYTES_SENT : Nat := 0xAC0001
abbrev RED_MIRROR_BYTES : Nat := 0xAC0002
abbrev RED_BYTES_ADMITTED : Nat := 0xAC0003
abbrev RED_DISCARDED : Nat := 0xAC0004
abbrev RED_SUBSTITUTIONS : Nat := 0xAC0005
abbrev RED_DEADLINE_MISSES : Nat := 0xAC0006
abbrev RED_STRAY_SUBST : Nat := 0xAC0007
abbrev RED_HOLD_CYCLES : Nat := 0xAC0008
-- chapter 12
abbrev SERVE_REQ_ENTRIES : Nat := 0x600001
abbrev SERVE_REQ_LIVE : Nat := 0x600002
abbrev SERVE_REQ_PER_CONTEXT : Nat := 0x600003
abbrev SERVE_CTX_MAX : Nat := 0x600004
abbrev SERVE_CHUNK_TOKENS : Nat := 0x600005
abbrev SERVE_CHUNK_MAX_WAIT : Nat := 0x600006
abbrev SERVE_STREAM_RATE : Nat := 0x600007
abbrev SERVE_FW_BASE : Nat := 0x600008
abbrev SERVE_FW_BYTES : Nat := 0x600009
abbrev KV_POOL_BASE : Nat := 0x601001
abbrev KV_POOL_PAGES : Nat := 0x601002
abbrev KV_SCALE_BASE : Nat := 0x601003
abbrev KV_FMT_TEACHER : Nat := 0x601004
abbrev KV_FMT_STUDENT : Nat := 0x601005
abbrev KV_PAGES_FREE : Nat := 0x601006
abbrev KV_PAGES_SHARED : Nat := 0x601007
abbrev SUMMARY_BASE : Nat := 0x602001
abbrev SUMMARY_SIZE : Nat := 0x602002
abbrev PREFIX_MAX : Nat := 0x603001
abbrev PREFIX_LIVE : Nat := 0x603002
abbrev ADAPTER_GENS_MAX : Nat := 0x604001
abbrev ADAPTER_GENS_LIVE : Nat := 0x604002
abbrev SERVE_ROUNDS : Nat := 0xAD0001
abbrev SERVE_TOKENS : Nat := 0xAD0002
abbrev SERVE_ADMITTED : Nat := 0xAD0003
abbrev SERVE_TIME_HOLDS : Nat := 0xAD0004
abbrev SERVE_CHUNKS : Nat := 0xAD0005
abbrev SERVE_FORCED_CHUNKS : Nat := 0xAD0006
abbrev SERVE_CANCELLED : Nat := 0xAD0007
abbrev SERVE_LOSSY_SUMMARIES : Nat := 0xAD0008
abbrev SERVE_ROUND_MAX_US : Nat := 0xAD0009
-- chapter 13
abbrev PACKAGE_MODE : Nat := 0x210001
abbrev PLATFORMS_ARMED : Nat := 0x210002
abbrev SERVICE_PLATFORM : Nat := 0x210003
abbrev SHARE_WEIGHT : Nat := 0x211001
abbrev RESERVED_CORES : Nat := 0x212001
abbrev RESET_QUIESCE_MAX_MS : Nat := 0x213001
abbrev ARM_MAX_MS : Nat := 0x213002
abbrev SHARE_PREEMPTIONS : Nat := 0xAE0001
abbrev PLATFORM_SUSPENDS : Nat := 0xAE0002
abbrev PLATFORM_RESETS : Nat := 0xAE0003
abbrev PLATFORM_FAULTS : Nat := 0xAE0004
abbrev RESERVED_IDLE_CYCLES : Nat := 0xAE0005
-- chapter 14
abbrev HP0_LINK : Nat := 0x110001
abbrev HP1_LINK : Nat := 0x110002
abbrev HP_CXL_ENABLE : Nat := 0x110003
abbrev HP_VF_MAX : Nat := 0x110004
abbrev HP_VECTORS_PER_FUNCTION : Nat := 0x110005
abbrev HP_READY_MAX_S : Nat := 0x110006
abbrev DOORBELLS_ACCEPTED : Nat := 0xAF0001
abbrev DOORBELLS_DROPPED : Nat := 0xAF0002
abbrev DESCRIPTORS_COMPLETED : Nat := 0xAF0003
abbrev RECORDS_HELD : Nat := 0xAF0004
abbrev MSIX_SENT : Nat := 0xAF0005
-- chapter 15
abbrev MBX_PRIV_ENABLE : Nat := 0x801001
abbrev STATS_PERIOD_MS : Nat := 0xA00001
abbrev STATS_PERIOD_INDEX : Nat := 0xA00002
abbrev STATS_LATCH_NOW : Nat := 0xA00003
abbrev STATS_SATURATED : Nat := 0xA00004
abbrev SERIAL_NUMBER : Nat := 0x100004
abbrev VENDOR_NAME : Nat := 0x100005
abbrev FN_MAC_ADDR : Nat := 0x101001
abbrev FN_ENABLE : Nat := 0x101002
abbrev FN_PLCA_NODE_ID : Nat := 0x101003
abbrev FN_PLCA_NODE_COUNT : Nat := 0x101004
abbrev FN_PLCA_TO_TIMER : Nat := 0x101005
abbrev FN_STATE : Nat := 0x101006
abbrev FN_LINK_LOCAL : Nat := 0x101007
abbrev TODP_UDP_PORT : Nat := 0x102001
abbrev TODP_SEGMENT_MAX : Nat := 0x102002
abbrev TODP_DOMAIN_MAX : Nat := 0x102003
abbrev MBX_SERVED : Nat := 0x103001
abbrev FN_FRAMES_TX : Nat := 0xA00101
abbrev FN_FRAMES_RX : Nat := 0xA00102
abbrev FN_PLCA_COLLISIONS : Nat := 0xA00103
abbrev FN_BEACON_LOSSES : Nat := 0xA00104
abbrev TODP_REQUESTS : Nat := 0xA00105
abbrev TODP_REFUSED : Nat := 0xA00106
abbrev TODP_DUPLICATES : Nat := 0xA00107
-- chapter 16
abbrev FE_VALID : Nat := 0x901001
abbrev FE_CAUSE : Nat := 0x901002
abbrev FE_ISLAND : Nat := 0x901003
abbrev FE_PLATFORM : Nat := 0x901004
abbrev FE_CORE : Nat := 0x901005
abbrev FE_SLOT : Nat := 0x901006
abbrev FE_CMD_INDEX : Nat := 0x901007
abbrev FE_DETAIL : Nat := 0x901008
abbrev FE_STEP : Nat := 0x901009
abbrev FE_TIME_MS : Nat := 0x90100A
abbrev RISK_INDEX : Nat := 0x700001
abbrev RISK_THRESHOLD : Nat := 0x700002
abbrev RISK_DECAY : Nat := 0x700003
abbrev RISK_ABOVE : Nat := 0x700004
abbrev FEED_ID : Nat := 0x701001
abbrev BUDDY_PKG : Nat := 0x702001
abbrev BUDDY_STATE : Nat := 0x702002
abbrev BUDDY_COLOCATED : Nat := 0x702003
abbrev BUDDY_HELD_FOR : Nat := 0x702004
abbrev BUDDY_SEND : Nat := 0x702005
abbrev CKPT_REQUEST : Nat := 0x720001
abbrev CKPT_DRAINED : Nat := 0x720002
abbrev CKPT_RESTORE : Nat := 0x720003
abbrev CKPT_SERVE_NOW : Nat := 0x720004
abbrev CKPT_STATE : Nat := 0x720005
abbrev CKPT_LAST_STEP : Nat := 0x720006
abbrev CKPT_LAST_STOP_US : Nat := 0x720007
abbrev CKPT_MANIFEST_ADDR : Nat := 0x720008
abbrev CKPT_DELTA_DIRTY_PCT : Nat := 0x720009
abbrev CKPT_DELTA_MIN_MIB : Nat := 0x72000A
abbrev CKPT_DELTA_CHAIN_MAX : Nat := 0x72000B
abbrev CKPT_INTERVAL_STEPS : Nat := 0x72000C
abbrev CKPT_INTERVAL_RISK_STEPS : Nat := 0x72000D
abbrev DEPOT_SPARE_DIES_LEFT : Nat := 0x730001
abbrev DEPOT_SPARE_CORES_LEFT : Nat := 0x730002
abbrev DEPOT_PENDING : Nat := 0x730003
abbrev DEPOT_EXHAUSTED : Nat := 0x730004
abbrev DEPOT_WEAR_LIMIT : Nat := 0x730005
abbrev STICKY_LOG : Nat := 0x900001
abbrev CKPT_TAKEN : Nat := 0xA40001
abbrev CKPT_COPY_PASSES : Nat := 0xA40002
abbrev CKPT_DEFERRED : Nat := 0xA40003
abbrev JOB_FAULTS : Nat := 0xA40004
abbrev RISK_POINTS : Nat := 0xA40005
-- chapter 17
abbrev AUTH_CANCEL : Nat := 0x800001
abbrev OWNER_KEY : Nat := 0x810001
abbrev OPERATOR_KEY : Nat := 0x810002
abbrev OWNERSHIP_RELEASE : Nat := 0x810003
abbrev PARTITION_HP0 : Nat := 0x820001
abbrev PARTITION_HP1 : Nat := 0x820101
abbrev PARTITION_ENFORCE : Nat := 0x821001
abbrev BUDDY_OVERRIDE : Nat := 0x830001
abbrev SPARE_POLICY : Nat := 0x831001
abbrev DEBUG_UNLOCK : Nat := 0x840001
abbrev FW_SVN_FLOOR : Nat := 0x850001
abbrev FW_UPDATE : Nat := 0x104001
abbrev FW_UPDATE_STATE : Nat := 0x104002
abbrev OWNERSHIP_STATE : Nat := 0x105001
abbrev AUTH_NONCE : Nat := 0x105002
abbrev STAGED_TARGET : Nat := 0x105003
abbrev STAGED_NONCE : Nat := 0x105004
abbrev STAGED_REMAINING_S : Nat := 0x105005
abbrev IDENTITY_CERTS : Nat := 0x106001
abbrev AUTH_FAILED_COUNT : Nat := 0xA01001
abbrev AUTH_STAGED_EXPIRED : Nat := 0xA01002
-- chapter 18
abbrev POWER_PROFILE : Nat := 0x200001
abbrev PACKAGE_POWER_W : Nat := 0x200002
abbrev POWER_STATE : Nat := 0x200003
abbrev POWER_STATE_REQ : Nat := 0x200004
abbrev AUTO_RUN : Nat := 0x200005
abbrev UMBER_CORES_NOW : Nat := 0x200006
abbrev VIN_MAIN_WARN_MV : Nat := 0x201001
abbrev VIN_MAIN_RESET_MV : Nat := 0x201002
abbrev UMBER_RECOVERY_US : Nat := 0x201003
abbrev THERMAL_WARN_C : Nat := 0x202001
abbrev THERMAL_TRIP_C : Nat := 0x202002
abbrev TEMP_MAX_NOW_C : Nat := 0x202003
abbrev PACKAGE_RESET : Nat := 0x230001
abbrev LINK_PORT_RESET : Nat := 0x230002
abbrev SUPPLY_WARNINGS : Nat := 0xA02001
abbrev UMBER_SUPPLY_ENTRIES : Nat := 0xA02002
abbrev UMBER_THERMAL_ENTRIES : Nat := 0xA02003
abbrev UMBER_CORE_US : Nat := 0xA02004
abbrev POWER_THROTTLE_US : Nat := 0xA02005
-- chapter 19
abbrev LAND_MAP : Nat := 0x107001

end Od

/-! ### The rows, chapter by chapter -/

def odRows00 : List OdRow := [
  ⟨0x1000, 0x1000, 1, 1, .str, 7, .const, 0x4134362d445242, .persistent⟩,  -- PART_NUMBER
  ⟨0x1000, 0x1000, 2, 2, .u8, 1, .const, 0x43, .persistent⟩,  -- STEPPING
  ⟨0x1000, 0x1000, 3, 3, .u32, 4, .ro, 0x0, .volatile⟩  -- FIRMWARE_VERSION
  ]

def odRows02 : List OdRow := [
  ⟨0x7100, 0x7100, 1, 48, .u8, 1, .ro, 0x0, .persistent⟩,  -- LDIE_PHYS
  ⟨0x7101, 0x7101, 1, 48, .u32, 4, .ro, 0x2c688, .persistent⟩,  -- LCORE_SLOTS
  ⟨0x7102, 0x7102, 1, 4, .u8, 1, .ro, 0x0, .persistent⟩,  -- DARK_DIE_PHYS
  ⟨0x7102, 0x7102, 5, 5, .u8, 1, .ro, 0x0, .persistent⟩,  -- DARK_DIE_RETIRED
  ⟨0x7103, 0x7103, 1, 1, .u8, 1, .ro, 0x0, .persistent⟩,  -- ACTIVE_CONTROL_DIE
  ⟨0x2200, 0x2200, 1, 1, .f32, 4, .const, 0x40800000, .persistent⟩,  -- ISLAND_RATIO_LIMIT
  ⟨0x2200, 0x2200, 2, 2, .u16, 2, .const, 0x96, .persistent⟩,  -- ISLAND_SUPPLY_LIMIT
  ⟨0x2200, 0x2200, 3, 3, .u8, 1, .const, 0x23, .persistent⟩,  -- ISLAND_TEMP_LIMIT
  ⟨0x2200, 0x2200, 4, 4, .u32, 4, .rwp, 0x64, .persistent⟩,  -- ISLAND_PARK_LIMIT
  ⟨0x2200, 0x2200, 5, 5, .u16, 2, .ro, 0x0, .volatile⟩,  -- ISLAND_PARKED_NOW
  ⟨0x2200, 0x2200, 6, 6, .u16, 2, .ro, 0xffff, .volatile⟩,  -- ISLAND_LAST_PARKED
  ⟨0xA200, 0xA200, 1, 1, .u32, 4, .ro, 0x0, .volatile⟩  -- ISLAND_PARK_EVENTS
  ]

def odRows03 : List OdRow := [
  ⟨0x7110, 0x7110, 1, 1, .u16, 2, .ro, 0x0, .persistent⟩,  -- ARRAYS_SPARE_ROWS_USED
  ⟨0x7110, 0x7110, 2, 2, .u16, 2, .ro, 0x0, .persistent⟩,  -- ARRAYS_SPARE_COLS_USED
  ⟨0x7110, 0x7110, 3, 3, .u16, 2, .ro, 0x0, .persistent⟩,  -- ARRAYS_REPAIR_EXHAUSTED
  ⟨0xA300, 0xA300, 1, 1, .u64, 8, .ro, 0x0, .volatile⟩,  -- ARRAY_ACTIVE_CYCLES
  ⟨0xA300, 0xA300, 2, 2, .u64, 8, .ro, 0x0, .volatile⟩,  -- ARRAY_FREEZE_CYCLES
  ⟨0xA300, 0xA300, 3, 3, .u64, 8, .ro, 0x0, .volatile⟩,  -- ARRAY_FREEZE_DRY_CYCLES
  ⟨0xA300, 0xA300, 4, 4, .u64, 8, .ro, 0x0, .volatile⟩,  -- ARRAY_FREEZE_DRAIN_CYCLES
  ⟨0xA300, 0xA300, 5, 5, .u64, 8, .ro, 0x0, .volatile⟩,  -- ARRAY_THROTTLE_CYCLES
  ⟨0xA300, 0xA300, 6, 6, .u32, 4, .ro, 0x0, .volatile⟩,  -- TILE_REPLAYS
  ⟨0xA300, 0xA300, 7, 7, .u32, 4, .ro, 0x0, .volatile⟩  -- TILE_REPLAY_FAILURES
  ]

def odRows04 : List OdRow := [
  ⟨0xA500, 0xA507, 1, 32, .u64, 8, .ro, 0x0, .volatile⟩,  -- NUM_COUNT
  ⟨0xA508, 0xA508, 1, 1, .u32, 4, .ro, 0x0, .volatile⟩,  -- NUM_NONFINITE_STEPS
  ⟨0x5000, 0x5000, 1, 1, .u64, 8, .rw, 0x0, .volatile⟩,  -- JOB_SEED
  ⟨0x5000, 0x5000, 2, 2, .u64, 8, .ro, 0x0, .volatile⟩,  -- JOB_STEP
  ⟨0x5000, 0x5000, 3, 3, .u16, 2, .ro, 0x0, .volatile⟩,  -- SCALE_TABLE_ENTRIES
  ⟨0x5001, 0x5001, 1, 1, .u8, 1, .rw, 0x10, .warm⟩,  -- AMAX_WINDOW_DEFAULT
  ⟨0x5001, 0x5001, 2, 2, .u8, 1, .rw, 0x0, .warm⟩,  -- SCALE_MARGIN_DEFAULT
  ⟨0x5001, 0x5001, 3, 3, .u8, 1, .const, 0xf, .persistent⟩,  -- VANISH_LIMIT
  ⟨0x5001, 0x5001, 4, 4, .u8, 1, .const, 0x2f, .persistent⟩  -- VANISH_LIMIT_MULTIWORD
  ]

def odRows05 : List OdRow := [
  ⟨0x5100, 0x5100, 1, 1, .u32, 4, .const, 0x100000, .persistent⟩,  -- JCT_VOCAB_MAX
  ⟨0x5100, 0x5100, 2, 2, .u16, 2, .const, 0x1000, .persistent⟩,  -- JCT_ROWS_MAX
  ⟨0x5100, 0x5100, 3, 3, .u8, 1, .const, 0x4, .persistent⟩,  -- JCT_SLOTS
  ⟨0x5100, 0x5100, 4, 4, .u8, 1, .const, 0x8, .persistent⟩,  -- JCT_HINT_TAPS_MAX
  ⟨0x5100, 0x5100, 5, 5, .u8, 1, .const, 0x2, .persistent⟩,  -- JCT_EXP_ULP
  ⟨0x6100, 0x6100, 1, 1, .u8, 1, .const, 0xf, .persistent⟩,  -- ACCEPT_DEPTH_MAX
  ⟨0xA600, 0xA600, 1, 1, .u64, 8, .ro, 0x0, .volatile⟩,  -- JCT_ROWS_FINISHED
  ⟨0xA600, 0xA600, 2, 2, .u32, 4, .ro, 0x0, .volatile⟩,  -- JCT_NONFINITE_ROWS
  ⟨0xA600, 0xA600, 3, 3, .u32, 4, .ro, 0x0, .volatile⟩,  -- JCT_TAIL_CLAMPS
  ⟨0xA600, 0xA600, 4, 4, .u64, 8, .ro, 0x0, .volatile⟩,  -- JCT_SLOT_WAIT_CYCLES
  ⟨0xA610, 0xA610, 1, 1, .u64, 8, .ro, 0x0, .volatile⟩,  -- ACCEPT_DRAFTED
  ⟨0xA610, 0xA610, 2, 2, .u64, 8, .ro, 0x0, .volatile⟩,  -- ACCEPT_ACCEPTED
  ⟨0xA610, 0xA610, 3, 3, .u64, 8, .ro, 0x0, .volatile⟩,  -- ACCEPT_BONUS
  ⟨0xA610, 0xA610, 4, 4, .u64, 8, .ro, 0x0, .volatile⟩,  -- ACCEPT_RESIDUALS
  ⟨0xA610, 0xA610, 5, 5, .u32, 4, .ro, 0x0, .volatile⟩  -- ACCEPT_RESIDUAL_EMPTY
  ]

def odRows06 : List OdRow := [
  ⟨0xA700, 0xA700, 1, 1, .u64, 8, .ro, 0x0, .volatile⟩,  -- SIDING_RAW_BYTES
  ⟨0xA700, 0xA700, 2, 2, .u64, 8, .ro, 0x0, .volatile⟩,  -- SIDING_STORED_BYTES
  ⟨0xA700, 0xA700, 3, 3, .u32, 4, .ro, 0x0, .volatile⟩,  -- SIDING_RAW_GROUPS
  ⟨0xA700, 0xA700, 4, 4, .u32, 4, .ro, 0x0, .volatile⟩,  -- SIDING_FILL_ERRORS
  ⟨0xA700, 0xA700, 5, 5, .u64, 8, .ro, 0x0, .volatile⟩,  -- TT_BLOCKS
  ⟨0xA700, 0xA700, 6, 6, .u32, 4, .ro, 0x0, .volatile⟩  -- TT_REPLAYS
  ]

def odRows07a : List OdRow := [
  ⟨0x5200, 0x5200, 1, 1, .u64, 8, .ro, 0x0, .volatile⟩,  -- UPDATE_COUNT
  ⟨0x5200, 0x5200, 2, 2, .u16, 2, .ro, 0x0, .volatile⟩,  -- SKIP_RUN
  ⟨0x5200, 0x5200, 3, 3, .u16, 2, .rw, 0x10, .warm⟩,  -- SKIP_LIMIT
  ⟨0x5200, 0x5200, 4, 4, .u8, 1, .rw, 0x0, .warm⟩,  -- SPIKE_ACTION
  ⟨0x5200, 0x5200, 5, 5, .f32, 4, .rw, 0x40c00000, .warm⟩,  -- SPIKE_K
  ⟨0x5200, 0x5200, 6, 6, .f32, 4, .rw, 0x3c23d70a, .warm⟩,  -- SPIKE_ALPHA
  ⟨0x5200, 0x5200, 7, 7, .u32, 4, .rw, 0xc8, .warm⟩,  -- SPIKE_WARMUP
  ⟨0x5200, 0x5200, 8, 8, .f32, 4, .ro, 0x0, .volatile⟩,  -- SPIKE_MEAN
  ⟨0x5200, 0x5200, 9, 9, .f32, 4, .ro, 0x0, .volatile⟩,  -- SPIKE_SD
  ⟨0x5200, 0x5200, 10, 10, .f32, 4, .ro, 0x0, .volatile⟩,  -- LAST_STEP_LOSS
  ⟨0x5200, 0x5200, 11, 11, .u64, 8, .ro, 0x0, .volatile⟩,  -- LAST_SPIKE_STEP
  ⟨0x5200, 0x5200, 12, 12, .f32, 4, .ro, 0x0, .volatile⟩,  -- LAST_GRAD_NORM
  ⟨0x5200, 0x5200, 13, 13, .f32, 4, .ro, 0x3f800000, .volatile⟩,  -- LAST_CLIP_FACTOR
  ⟨0x5200, 0x5200, 14, 14, .u8, 1, .wo, 0x0, .volatile⟩,  -- UPD_DIGEST
  ⟨0xA800, 0xA800, 1, 1, .u32, 4, .ro, 0x0, .volatile⟩,  -- UPD_APPLIED
  ⟨0xA800, 0xA800, 2, 2, .u32, 4, .ro, 0x0, .volatile⟩  -- UPD_SKIPPED
  ]

def odRows07b : List OdRow := [
  ⟨0xA800, 0xA800, 3, 3, .u32, 4, .ro, 0x0, .volatile⟩,  -- UPD_CLIPPED
  ⟨0xA800, 0xA800, 4, 4, .u32, 4, .ro, 0x0, .volatile⟩,  -- LOSS_SPIKES
  ⟨0xA800, 0xA800, 5, 5, .u32, 4, .ro, 0x0, .volatile⟩  -- UPD_REPLAYS
  ]

def odRows08a : List OdRow := [
  ⟨0x2140, 0x2140, 1, 1, .u64, 8, .rw, 0x0, .volatile⟩,  -- TT_IMAGE_ADDR
  ⟨0x2140, 0x2140, 2, 2, .u64, 8, .rw, 0x0, .volatile⟩,  -- TT_IMAGE_BYTES
  ⟨0x2140, 0x2140, 3, 3, .octets, 32, .ro, 0x0, .volatile⟩,  -- TT_IMAGE_SHA256
  ⟨0x2140, 0x2140, 4, 4, .u8, 1, .wo, 0x0, .volatile⟩,  -- TT_LOAD
  ⟨0x2140, 0x2140, 5, 5, .u8, 1, .ro, 0x0, .volatile⟩,  -- TT_LOAD_STATE
  ⟨0x2140, 0x2140, 6, 6, .u16, 2, .ro, 0x0, .volatile⟩,  -- TT_REFUSE_CAUSE
  ⟨0x2140, 0x2140, 7, 7, .u64, 8, .rw, 0x0, .volatile⟩,  -- JOB_STEPS
  ⟨0x2140, 0x2140, 8, 8, .u64, 8, .rw, 0x0, .volatile⟩,  -- TEACHER_BASE
  ⟨0x2140, 0x2140, 9, 9, .u64, 8, .rw, 0x0, .volatile⟩,  -- TEACHER_BYTES
  ⟨0x2140, 0x2140, 10, 10, .octets, 32, .rw, 0x0, .volatile⟩,  -- TEACHER_SHA256
  ⟨0x2140, 0x2140, 11, 11, .u16, 2, .ro, 0x0, .volatile⟩,  -- ARM_REFUSE_CAUSE
  ⟨0x2400, 0x2400, 1, 1, .u32, 4, .rwp, 0x3e8, .persistent⟩,  -- SYNC_HANG_REPORT
  ⟨0x2400, 0x2400, 2, 2, .u32, 4, .rwp, 0x0, .persistent⟩,  -- SYNC_HANG_FAULT
  ⟨0x2400, 0x2400, 3, 3, .bool, 1, .ro, 0x0, .volatile⟩,  -- JOB_TAINTED
  ⟨0x3400, 0x3400, 1, 1, .u32, 4, .rwp, 0x7530, .persistent⟩,  -- BARRIER_TIMEOUT
  ⟨0x3400, 0x3400, 2, 2, .u32, 4, .const, 0x1388, .persistent⟩  -- BARRIER_TOKEN_DEADLINE
  ]

def odRows08b : List OdRow := [
  ⟨0x3400, 0x3400, 3, 3, .u8, 1, .ro, 0x0, .volatile⟩,  -- INTERLOCK_DEPTH
  ⟨0x3400, 0x3400, 4, 4, .u8, 1, .const, 0x7, .persistent⟩,  -- INTERLOCK_DEPTH_MAX
  ⟨0xA900, 0xA900, 1, 1, .u64, 8, .ro, 0x0, .volatile⟩,  -- SYNC_SIGNALS
  ⟨0xA900, 0xA900, 2, 2, .u64, 8, .ro, 0x0, .volatile⟩,  -- SYNC_WAIT_CYCLES
  ⟨0xA900, 0xA900, 3, 3, .u32, 4, .ro, 0x0, .volatile⟩,  -- SYNC_REBASES
  ⟨0xA900, 0xA900, 4, 4, .u32, 4, .ro, 0x0, .volatile⟩,  -- SYNC_DOORBELL_DROPS
  ⟨0xA900, 0xA900, 5, 5, .u32, 4, .ro, 0x0, .volatile⟩,  -- SYNC_HANG_REPORTS
  ⟨0xA900, 0xA900, 6, 6, .u64, 8, .ro, 0x0, .volatile⟩,  -- BARRIERS_COMPLETED
  ⟨0xA900, 0xA900, 7, 7, .u32, 4, .ro, 0x0, .volatile⟩  -- BARRIER_MAX_NS
  ]

def odRows09a : List OdRow := [
  ⟨0x4000, 0x4000, 1, 1, .u64, 8, .const, 0x10000000000, .persistent⟩,  -- HBM_RAW_BYTES
  ⟨0x4000, 0x4000, 2, 2, .u64, 8, .const, 0xf000000000, .persistent⟩,  -- HBM_VISIBLE_BYTES
  ⟨0x4000, 0x4000, 3, 3, .u32, 4, .ro, 0x0, .persistent⟩,  -- HBM_ROWS_RETIRED
  ⟨0x4000, 0x4000, 4, 4, .u8, 1, .ro, 0x0, .persistent⟩,  -- HBM_CHANNELS_RETIRED
  ⟨0x4000, 0x4000, 5, 5, .u16, 2, .ro, 0x0, .persistent⟩,  -- HBM_RETIRE_PENDING
  ⟨0x4000, 0x4000, 6, 6, .bool, 1, .ro, 0x0, .persistent⟩,  -- HBM_RETIRE_EXHAUSTED
  ⟨0x4010, 0x4010, 1, 1, .u8, 1, .ro, 0x0, .volatile⟩,  -- DDR5_TIER_STATE
  ⟨0x4010, 0x4010, 2, 2, .u16, 2, .ro, 0x0, .volatile⟩,  -- DDR5_MODULE_GIB
  ⟨0x4010, 0x4010, 3, 3, .u16, 2, .ro, 0x0, .volatile⟩,  -- DDR5_RATE
  ⟨0x4010, 0x4010, 4, 4, .u16, 2, .rwp, 0x1900, .persistent⟩,  -- DDR5_RATE_LIMIT
  ⟨0x4010, 0x4010, 5, 5, .u64, 8, .rwp, 0x0, .persistent⟩,  -- DDR5_RESERVE_BASE
  ⟨0x4010, 0x4010, 6, 6, .u64, 8, .rwp, 0x0, .persistent⟩,  -- DDR5_RESERVE_SIZE
  ⟨0x4020, 0x4020, 1, 1, .u64, 8, .rwp, 0x0, .warm⟩,  -- CXL_WIN_BASE_HP0
  ⟨0x4020, 0x4020, 2, 2, .u64, 8, .rwp, 0x0, .warm⟩,  -- CXL_WIN_SIZE_HP0
  ⟨0x4020, 0x4020, 3, 3, .u64, 8, .rwp, 0x0, .warm⟩,  -- CXL_WIN_BASE_HP1
  ⟨0x4020, 0x4020, 4, 4, .u64, 8, .rwp, 0x0, .warm⟩  -- CXL_WIN_SIZE_HP1
  ]

def odRows09b : List OdRow := [
  ⟨0x4030, 0x4030, 1, 1, .u16, 2, .const, 0x7d0, .persistent⟩,  -- ALLPATHS_FLUSH_MAX_NS
  ⟨0x4030, 0x4030, 2, 2, .u8, 1, .const, 0xa, .persistent⟩,  -- LINK_DOWN_HOLD_MS
  ⟨0xAA00, 0xAA00, 1, 1, .u64, 8, .ro, 0x0, .volatile⟩,  -- HBM_CORRECTED
  ⟨0xAA00, 0xAA00, 2, 2, .u64, 8, .ro, 0x0, .volatile⟩,  -- DDR5_CORRECTED
  ⟨0xAA00, 0xAA00, 3, 3, .u64, 8, .ro, 0x0, .volatile⟩,  -- HOST_READ_BYTES
  ⟨0xAA00, 0xAA00, 4, 4, .u64, 8, .ro, 0x0, .volatile⟩,  -- HOST_WRITE_BYTES
  ⟨0xAA00, 0xAA00, 5, 5, .u32, 4, .ro, 0x0, .volatile⟩,  -- ALLPATHS_RECORDS
  ⟨0xAA00, 0xAA00, 6, 6, .u32, 4, .ro, 0x0, .volatile⟩,  -- EPOCH_STOPS
  ⟨0xAA00, 0xAA00, 7, 7, .u32, 4, .ro, 0x0, .volatile⟩  -- CXL_PROTECTED_WRITES
  ]

def odRows10a : List OdRow := [
  ⟨0x3000, 0x3000, 1, 1, .u16, 2, .rwp, 0xffff, .persistent⟩,  -- POD_PACKAGE_ID
  ⟨0x3000, 0x3000, 2, 2, .u16, 2, .rwp, 0x1, .persistent⟩,  -- POD_SIZE
  ⟨0x3000, 0x3000, 3, 3, .u16, 2, .rwp, 0xffff, .warm⟩,  -- TERMINUS_PKG
  ⟨0x3000, 0x3000, 4, 4, .u16, 2, .rwp, 0xffff, .warm⟩,  -- DEPUTY_PKG
  ⟨0x3000, 0x3000, 5, 5, .u32, 4, .ro, 0x0, .warm⟩,  -- POINTS_EPOCH
  ⟨0x3000, 0x3000, 6, 6, .f32, 4, .rwp, 0x3a83126f, .persistent⟩,  -- LANE_SER_LIMIT
  ⟨0x3000, 0x3000, 7, 7, .u16, 2, .const, 0x7d0, .persistent⟩,  -- LINK_ACK_DEADLINE
  ⟨0x3000, 0x3000, 8, 8, .u8, 1, .const, 0x8, .persistent⟩,  -- LINK_REPLAY_LIMIT
  ⟨0x3010, 0x3010, 1, 1, .domain, 4096, .rwp, 0x0, .warm⟩,  -- POINTS_TABLE
  ⟨0x3010, 0x3010, 2, 2, .u16, 2, .rwp, 0x0, .warm⟩,  -- TREE_PARENT_MASK
  ⟨0x3010, 0x3010, 3, 3, .u16, 2, .rwp, 0x0, .warm⟩,  -- TREE_CHILD_MASK
  ⟨0x3010, 0x3010, 4, 4, .u16, 2, .rwp, 0x0, .warm⟩,  -- RING_NEXT_MASK
  ⟨0x3010, 0x3010, 5, 5, .u16, 2, .rwp, 0x0, .warm⟩,  -- RING_PREV_MASK
  ⟨0x3010, 0x3010, 6, 6, .u32, 4, .wo, 0x0, .warm⟩,  -- POINTS_COMMIT
  ⟨0x3010, 0x3010, 7, 7, .u16, 2, .rwp, 0x0, .persistent⟩,  -- LP_MEDIUM
  ⟨0x3100, 0x310F, 1, 1, .u8, 1, .ro, 0x0, .volatile⟩  -- LP_STATE
  ]

def odRows10b : List OdRow := [
  ⟨0x3100, 0x310F, 2, 2, .u32, 4, .ro, 0x76543210, .volatile⟩,  -- LP_TX_LANE_MAP
  ⟨0x3100, 0x310F, 3, 3, .u32, 4, .ro, 0x76543210, .volatile⟩,  -- LP_RX_LANE_MAP
  ⟨0x3100, 0x310F, 4, 4, .u32, 4, .ro, 0xffffffff, .volatile⟩,  -- LP_PEER
  ⟨0x3100, 0x310F, 5, 5, .u32, 4, .rwp, 0xffffffff, .warm⟩,  -- LP_EXPECTED_PEER
  ⟨0x3100, 0x310F, 6, 6, .bool, 1, .rwp, 0x1, .persistent⟩,  -- LP_ENABLE
  ⟨0x3100, 0x310F, 7, 7, .u32, 4, .ro, 0x0, .persistent⟩,  -- LP_FAILED_LANES
  ⟨0xAB00, 0xAB00, 1, 1, .u64, 8, .ro, 0x0, .volatile⟩,  -- LINK_FEC_CORRECTED
  ⟨0xAB00, 0xAB00, 2, 2, .u64, 8, .ro, 0x0, .volatile⟩,  -- LINK_FEC_UNCORRECTABLE
  ⟨0xAB00, 0xAB00, 3, 3, .u32, 4, .ro, 0x0, .volatile⟩,  -- LINK_REPLAYS
  ⟨0xAB00, 0xAB00, 4, 4, .u32, 4, .ro, 0x0, .volatile⟩,  -- LINK_LANE_SUBS
  ⟨0xAB00, 0xAB00, 5, 5, .u32, 4, .ro, 0x0, .volatile⟩,  -- LINK_STALE_DROPS
  ⟨0xAB00, 0xAB00, 6, 6, .u64, 8, .ro, 0x0, .volatile⟩,  -- LINK_TX_BYTES
  ⟨0xAB00, 0xAB00, 7, 7, .u64, 8, .ro, 0x0, .volatile⟩  -- LINK_RX_BYTES
  ]

def odRows11a : List OdRow := [
  ⟨0x3500, 0x3500, 1, 1, .u16, 2, .rwp, 0x1, .warm⟩,  -- RED_RING_SIZE
  ⟨0x3500, 0x3500, 2, 2, .u16, 2, .rwp, 0x0, .warm⟩,  -- RED_RING_POS
  ⟨0x3500, 0x3500, 3, 3, .u16, 2, .rwp, 0xffff, .warm⟩,  -- RED_SHADOW_OF
  ⟨0x3500, 0x3500, 4, 4, .u32, 4, .rwp, 0x1388, .persistent⟩,  -- RED_SHADOW_DEADLINE
  ⟨0x3500, 0x3500, 5, 5, .u32, 4, .rwp, 0x4e20, .persistent⟩,  -- RED_HARD_TIMEOUT
  ⟨0x3500, 0x3500, 6, 6, .u32, 4, .const, 0x100000, .persistent⟩,  -- RED_STRIPE_BYTES
  ⟨0x3510, 0x3510, 1, 1, .domain, 2048, .rwp, 0x0, .warm⟩,  -- RED_RING_TABLE
  ⟨0x3510, 0x3510, 2, 2, .domain, 2048, .rwp, 2 ^ 16384 - 1, .warm⟩,  -- RED_SHADOW_TABLE
  ⟨0x3520, 0x3520, 1, 1, .domain, 4096, .ro, 0x0, .volatile⟩,  -- RED_DIGEST_LOG
  ⟨0x3520, 0x3520, 2, 2, .u64, 8, .ro, 0x0, .volatile⟩,  -- RED_EXCHANGES
  ⟨0xAC00, 0xAC00, 1, 1, .u64, 8, .ro, 0x0, .volatile⟩,  -- RED_BYTES_SENT
  ⟨0xAC00, 0xAC00, 2, 2, .u64, 8, .ro, 0x0, .volatile⟩,  -- RED_MIRROR_BYTES
  ⟨0xAC00, 0xAC00, 3, 3, .u64, 8, .ro, 0x0, .volatile⟩,  -- RED_BYTES_ADMITTED
  ⟨0xAC00, 0xAC00, 4, 4, .u32, 4, .ro, 0x0, .volatile⟩,  -- RED_DISCARDED
  ⟨0xAC00, 0xAC00, 5, 5, .u32, 4, .ro, 0x0, .volatile⟩,  -- RED_SUBSTITUTIONS
  ⟨0xAC00, 0xAC00, 6, 6, .u32, 4, .ro, 0x0, .volatile⟩  -- RED_DEADLINE_MISSES
  ]

def odRows11b : List OdRow := [
  ⟨0xAC00, 0xAC00, 7, 7, .u32, 4, .ro, 0x0, .volatile⟩,  -- RED_STRAY_SUBST
  ⟨0xAC00, 0xAC00, 8, 8, .u64, 8, .ro, 0x0, .volatile⟩  -- RED_HOLD_CYCLES
  ]

def odRows12a : List OdRow := [
  ⟨0x6000, 0x6000, 1, 1, .u16, 2, .const, 0x4000, .persistent⟩,  -- SERVE_REQ_ENTRIES
  ⟨0x6000, 0x6000, 2, 2, .u16, 2, .ro, 0x0, .volatile⟩,  -- SERVE_REQ_LIVE
  ⟨0x6000, 0x6000, 3, 3, .u16, 2, .rwp, 0x4000, .warm⟩,  -- SERVE_REQ_PER_CONTEXT
  ⟨0x6000, 0x6000, 4, 4, .u32, 4, .rwp, 0x20000, .warm⟩,  -- SERVE_CTX_MAX
  ⟨0x6000, 0x6000, 5, 5, .u16, 2, .rw, 0x200, .warm⟩,  -- SERVE_CHUNK_TOKENS
  ⟨0x6000, 0x6000, 6, 6, .u8, 1, .rw, 0x8, .warm⟩,  -- SERVE_CHUNK_MAX_WAIT
  ⟨0x6000, 0x6000, 7, 7, .f32, 4, .rwp, 0x41fe872b, .warm⟩,  -- SERVE_STREAM_RATE
  ⟨0x6000, 0x6000, 8, 8, .u64, 8, .rwp, 0x0, .warm⟩,  -- SERVE_FW_BASE
  ⟨0x6000, 0x6000, 9, 9, .u64, 8, .rwp, 0x0, .warm⟩,  -- SERVE_FW_BYTES
  ⟨0x6010, 0x6010, 1, 1, .u64, 8, .rwp, 0x0, .warm⟩,  -- KV_POOL_BASE
  ⟨0x6010, 0x6010, 2, 2, .u32, 4, .rwp, 0x0, .warm⟩,  -- KV_POOL_PAGES
  ⟨0x6010, 0x6010, 3, 3, .u64, 8, .rwp, 0x0, .warm⟩,  -- KV_SCALE_BASE
  ⟨0x6010, 0x6010, 4, 4, .u8, 1, .rwp, 0x0, .warm⟩,  -- KV_FMT_TEACHER
  ⟨0x6010, 0x6010, 5, 5, .u8, 1, .rwp, 0x0, .warm⟩,  -- KV_FMT_STUDENT
  ⟨0x6010, 0x6010, 6, 6, .u32, 4, .ro, 0x0, .volatile⟩,  -- KV_PAGES_FREE
  ⟨0x6010, 0x6010, 7, 7, .u32, 4, .ro, 0x0, .volatile⟩  -- KV_PAGES_SHARED
  ]

def odRows12b : List OdRow := [
  ⟨0x6020, 0x6020, 1, 1, .u64, 8, .rwp, 0x0, .warm⟩,  -- SUMMARY_BASE
  ⟨0x6020, 0x6020, 2, 2, .u64, 8, .rwp, 0x0, .warm⟩,  -- SUMMARY_SIZE
  ⟨0x6030, 0x6030, 1, 1, .u16, 2, .const, 0x1000, .persistent⟩,  -- PREFIX_MAX
  ⟨0x6030, 0x6030, 2, 2, .u16, 2, .ro, 0x0, .volatile⟩,  -- PREFIX_LIVE
  ⟨0x6040, 0x6040, 1, 1, .u8, 1, .const, 0x10, .persistent⟩,  -- ADAPTER_GENS_MAX
  ⟨0x6040, 0x6040, 2, 2, .u16, 2, .ro, 0x0, .volatile⟩,  -- ADAPTER_GENS_LIVE
  ⟨0xAD00, 0xAD00, 1, 1, .u64, 8, .ro, 0x0, .volatile⟩,  -- SERVE_ROUNDS
  ⟨0xAD00, 0xAD00, 2, 2, .u64, 8, .ro, 0x0, .volatile⟩,  -- SERVE_TOKENS
  ⟨0xAD00, 0xAD00, 3, 3, .u32, 4, .ro, 0x0, .volatile⟩,  -- SERVE_ADMITTED
  ⟨0xAD00, 0xAD00, 4, 4, .u32, 4, .ro, 0x0, .volatile⟩,  -- SERVE_TIME_HOLDS
  ⟨0xAD00, 0xAD00, 5, 5, .u32, 4, .ro, 0x0, .volatile⟩,  -- SERVE_CHUNKS
  ⟨0xAD00, 0xAD00, 6, 6, .u32, 4, .ro, 0x0, .volatile⟩,  -- SERVE_FORCED_CHUNKS
  ⟨0xAD00, 0xAD00, 7, 7, .u32, 4, .ro, 0x0, .volatile⟩,  -- SERVE_CANCELLED
  ⟨0xAD00, 0xAD00, 8, 8, .u32, 4, .ro, 0x0, .volatile⟩,  -- SERVE_LOSSY_SUMMARIES
  ⟨0xAD00, 0xAD00, 9, 9, .u32, 4, .ro, 0x0, .volatile⟩  -- SERVE_ROUND_MAX_US
  ]

def odRows13 : List OdRow := [
  ⟨0x2100, 0x2100, 1, 1, .u8, 1, .rwp, 0x0, .persistent⟩,  -- PACKAGE_MODE
  ⟨0x2100, 0x2100, 2, 2, .u16, 2, .ro, 0x0, .volatile⟩,  -- PLATFORMS_ARMED
  ⟨0x2100, 0x2100, 3, 3, .u16, 2, .ro, 0xffff, .volatile⟩,  -- SERVICE_PLATFORM
  ⟨0x2110, 0x2110, 1, 16, .u16, 2, .rwp, 0x1, .warm⟩,  -- SHARE_WEIGHT
  ⟨0x2120, 0x2120, 1, 3, .domain, 36, .rwp, 0x0, .warm⟩,  -- RESERVED_CORES
  ⟨0x2130, 0x2130, 1, 1, .u16, 2, .const, 0xa, .persistent⟩,  -- RESET_QUIESCE_MAX_MS
  ⟨0x2130, 0x2130, 2, 2, .u16, 2, .const, 0x1, .persistent⟩,  -- ARM_MAX_MS
  ⟨0xAE00, 0xAE00, 1, 1, .u64, 8, .ro, 0x0, .volatile⟩,  -- SHARE_PREEMPTIONS
  ⟨0xAE00, 0xAE00, 2, 2, .u32, 4, .ro, 0x0, .volatile⟩,  -- PLATFORM_SUSPENDS
  ⟨0xAE00, 0xAE00, 3, 3, .u32, 4, .ro, 0x0, .volatile⟩,  -- PLATFORM_RESETS
  ⟨0xAE00, 0xAE00, 4, 4, .u32, 4, .ro, 0x0, .volatile⟩,  -- PLATFORM_FAULTS
  ⟨0xAE00, 0xAE00, 5, 5, .u64, 8, .ro, 0x0, .volatile⟩  -- RESERVED_IDLE_CYCLES
  ]

def odRows14 : List OdRow := [
  ⟨0x1100, 0x1100, 1, 1, .u32, 4, .ro, 0x0, .volatile⟩,  -- HP0_LINK
  ⟨0x1100, 0x1100, 2, 2, .u32, 4, .ro, 0x0, .volatile⟩,  -- HP1_LINK
  ⟨0x1100, 0x1100, 3, 3, .u8, 1, .rwp, 0x3, .persistent⟩,  -- HP_CXL_ENABLE
  ⟨0x1100, 0x1100, 4, 4, .u8, 1, .const, 0x3f, .persistent⟩,  -- HP_VF_MAX
  ⟨0x1100, 0x1100, 5, 5, .u8, 1, .const, 0x20, .persistent⟩,  -- HP_VECTORS_PER_FUNCTION
  ⟨0x1100, 0x1100, 6, 6, .u8, 1, .const, 0x5a, .persistent⟩,  -- HP_READY_MAX_S
  ⟨0xAF00, 0xAF00, 1, 1, .u64, 8, .ro, 0x0, .volatile⟩,  -- DOORBELLS_ACCEPTED
  ⟨0xAF00, 0xAF00, 2, 2, .u32, 4, .ro, 0x0, .volatile⟩,  -- DOORBELLS_DROPPED
  ⟨0xAF00, 0xAF00, 3, 3, .u64, 8, .ro, 0x0, .volatile⟩,  -- DESCRIPTORS_COMPLETED
  ⟨0xAF00, 0xAF00, 4, 4, .u32, 4, .ro, 0x0, .volatile⟩,  -- RECORDS_HELD
  ⟨0xAF00, 0xAF00, 5, 5, .u64, 8, .ro, 0x0, .volatile⟩  -- MSIX_SENT
  ]

def odRows15a : List OdRow := [
  ⟨0x8010, 0x8010, 1, 1, .bool, 1, .rw2, 0x1, .persistent⟩,  -- MBX_PRIV_ENABLE
  ⟨0xA000, 0xA000, 1, 1, .u32, 4, .rw, 0x3e8, .warm⟩,  -- STATS_PERIOD_MS
  ⟨0xA000, 0xA000, 2, 2, .u64, 8, .ro, 0x0, .volatile⟩,  -- STATS_PERIOD_INDEX
  ⟨0xA000, 0xA000, 3, 3, .u8, 1, .wo, 0x0, .volatile⟩,  -- STATS_LATCH_NOW
  ⟨0xA000, 0xA000, 4, 4, .bool, 1, .ro, 0x0, .volatile⟩,  -- STATS_SATURATED
  ⟨0x1000, 0x1000, 4, 4, .str, 12, .const, 0x0, .persistent⟩,  -- SERIAL_NUMBER
  ⟨0x1000, 0x1000, 5, 5, .str, 6, .const, 0x73616d697754, .persistent⟩,  -- VENDOR_NAME
  ⟨0x1010, 0x1010, 1, 1, .octets, 6, .const, 0x0, .persistent⟩,  -- FN_MAC_ADDR
  ⟨0x1010, 0x1010, 2, 2, .bool, 1, .rwp, 0x1, .persistent⟩,  -- FN_ENABLE
  ⟨0x1010, 0x1010, 3, 3, .u8, 1, .rwp, 0xff, .persistent⟩,  -- FN_PLCA_NODE_ID
  ⟨0x1010, 0x1010, 4, 4, .u8, 1, .rwp, 0x8, .persistent⟩,  -- FN_PLCA_NODE_COUNT
  ⟨0x1010, 0x1010, 5, 5, .u8, 1, .rwp, 0x20, .persistent⟩,  -- FN_PLCA_TO_TIMER
  ⟨0x1010, 0x1010, 6, 6, .u8, 1, .ro, 0x0, .volatile⟩,  -- FN_STATE
  ⟨0x1010, 0x1010, 7, 7, .octets, 16, .ro, 0x0, .volatile⟩,  -- FN_LINK_LOCAL
  ⟨0x1020, 0x1020, 1, 1, .u16, 2, .rwp, 0xb0d0, .persistent⟩,  -- TODP_UDP_PORT
  ⟨0x1020, 0x1020, 2, 2, .u16, 2, .const, 0x400, .persistent⟩  -- TODP_SEGMENT_MAX
  ]

def odRows15b : List OdRow := [
  ⟨0x1020, 0x1020, 3, 3, .u32, 4, .const, 0x1000000, .persistent⟩,  -- TODP_DOMAIN_MAX
  ⟨0x1030, 0x1030, 1, 1, .u64, 8, .ro, 0x0, .volatile⟩,  -- MBX_SERVED
  ⟨0xA001, 0xA001, 1, 1, .u64, 8, .ro, 0x0, .volatile⟩,  -- FN_FRAMES_TX
  ⟨0xA001, 0xA001, 2, 2, .u64, 8, .ro, 0x0, .volatile⟩,  -- FN_FRAMES_RX
  ⟨0xA001, 0xA001, 3, 3, .u32, 4, .ro, 0x0, .volatile⟩,  -- FN_PLCA_COLLISIONS
  ⟨0xA001, 0xA001, 4, 4, .u32, 4, .ro, 0x0, .volatile⟩,  -- FN_BEACON_LOSSES
  ⟨0xA001, 0xA001, 5, 5, .u64, 8, .ro, 0x0, .volatile⟩,  -- TODP_REQUESTS
  ⟨0xA001, 0xA001, 6, 6, .u32, 4, .ro, 0x0, .volatile⟩,  -- TODP_REFUSED
  ⟨0xA001, 0xA001, 7, 7, .u32, 4, .ro, 0x0, .volatile⟩  -- TODP_DUPLICATES
  ]

def odRows16a : List OdRow := [
  ⟨0x9010, 0x9010, 1, 1, .bool, 1, .w1c, 0x0, .persistent⟩,  -- FE_VALID
  ⟨0x9010, 0x9010, 2, 2, .u16, 2, .ro, 0x0, .persistent⟩,  -- FE_CAUSE
  ⟨0x9010, 0x9010, 3, 3, .u16, 2, .ro, 0xffff, .persistent⟩,  -- FE_ISLAND
  ⟨0x9010, 0x9010, 4, 4, .u16, 2, .ro, 0xffff, .persistent⟩,  -- FE_PLATFORM
  ⟨0x9010, 0x9010, 5, 5, .u16, 2, .ro, 0xffff, .persistent⟩,  -- FE_CORE
  ⟨0x9010, 0x9010, 6, 6, .u8, 1, .ro, 0xff, .persistent⟩,  -- FE_SLOT
  ⟨0x9010, 0x9010, 7, 7, .u32, 4, .ro, 0x0, .persistent⟩,  -- FE_CMD_INDEX
  ⟨0x9010, 0x9010, 8, 8, .u64, 8, .ro, 0x0, .persistent⟩,  -- FE_DETAIL
  ⟨0x9010, 0x9010, 9, 9, .u64, 8, .ro, 0x0, .persistent⟩,  -- FE_STEP
  ⟨0x9010, 0x9010, 10, 10, .u64, 8, .ro, 0x0, .persistent⟩,  -- FE_TIME_MS
  ⟨0x7000, 0x7000, 1, 1, .u16, 2, .ro, 0x0, .volatile⟩,  -- RISK_INDEX
  ⟨0x7000, 0x7000, 2, 2, .u16, 2, .rwp, 0x190, .persistent⟩,  -- RISK_THRESHOLD
  ⟨0x7000, 0x7000, 3, 3, .u16, 2, .rwp, 0xfff1, .persistent⟩,  -- RISK_DECAY
  ⟨0x7000, 0x7000, 4, 4, .bool, 1, .ro, 0x0, .volatile⟩,  -- RISK_ABOVE
  ⟨0x7010, 0x7010, 1, 1, .octets, 8, .rwp, 0x0, .persistent⟩,  -- FEED_ID
  ⟨0x7020, 0x7020, 1, 1, .u16, 2, .rwp, 0xffff, .warm⟩  -- BUDDY_PKG
  ]

def odRows16b : List OdRow := [
  ⟨0x7020, 0x7020, 2, 2, .u8, 1, .ro, 0x0, .volatile⟩,  -- BUDDY_STATE
  ⟨0x7020, 0x7020, 3, 3, .bool, 1, .ro, 0x0, .warm⟩,  -- BUDDY_COLOCATED
  ⟨0x7020, 0x7020, 4, 4, .u16, 2, .ro, 0xffff, .volatile⟩,  -- BUDDY_HELD_FOR
  ⟨0x7020, 0x7020, 5, 5, .u16, 2, .wo, 0x0, .volatile⟩,  -- BUDDY_SEND
  ⟨0x7200, 0x7200, 1, 1, .u64, 8, .wo, 0x0, .volatile⟩,  -- CKPT_REQUEST
  ⟨0x7200, 0x7200, 2, 2, .u64, 8, .wo, 0x0, .volatile⟩,  -- CKPT_DRAINED
  ⟨0x7200, 0x7200, 3, 3, .u64, 8, .wo, 0x0, .volatile⟩,  -- CKPT_RESTORE
  ⟨0x7200, 0x7200, 4, 4, .u8, 1, .wo, 0x0, .volatile⟩,  -- CKPT_SERVE_NOW
  ⟨0x7200, 0x7200, 5, 5, .u8, 1, .ro, 0x0, .volatile⟩,  -- CKPT_STATE
  ⟨0x7200, 0x7200, 6, 6, .u64, 8, .ro, 0x0, .volatile⟩,  -- CKPT_LAST_STEP
  ⟨0x7200, 0x7200, 7, 7, .u32, 4, .ro, 0x0, .volatile⟩,  -- CKPT_LAST_STOP_US
  ⟨0x7200, 0x7200, 8, 8, .u64, 8, .ro, 0x0, .volatile⟩,  -- CKPT_MANIFEST_ADDR
  ⟨0x7200, 0x7200, 9, 9, .u8, 1, .rwp, 0x19, .warm⟩,  -- CKPT_DELTA_DIRTY_PCT
  ⟨0x7200, 0x7200, 10, 10, .u16, 2, .rwp, 0x10, .warm⟩,  -- CKPT_DELTA_MIN_MIB
  ⟨0x7200, 0x7200, 11, 11, .u8, 1, .rwp, 0x8, .warm⟩,  -- CKPT_DELTA_CHAIN_MAX
  ⟨0x7200, 0x7200, 12, 12, .u32, 4, .rwp, 0xc8, .persistent⟩  -- CKPT_INTERVAL_STEPS
  ]

def odRows16c : List OdRow := [
  ⟨0x7200, 0x7200, 13, 13, .u32, 4, .rwp, 0x19, .persistent⟩,  -- CKPT_INTERVAL_RISK_STEPS
  ⟨0x7300, 0x7300, 1, 1, .u8, 1, .ro, 0x4, .persistent⟩,  -- DEPOT_SPARE_DIES_LEFT
  ⟨0x7300, 0x7300, 2, 2, .u8, 1, .ro, 0x30, .persistent⟩,  -- DEPOT_SPARE_CORES_LEFT
  ⟨0x7300, 0x7300, 3, 3, .u16, 2, .ro, 0x0, .persistent⟩,  -- DEPOT_PENDING
  ⟨0x7300, 0x7300, 4, 4, .bool, 1, .ro, 0x0, .persistent⟩,  -- DEPOT_EXHAUSTED
  ⟨0x7300, 0x7300, 5, 5, .u8, 1, .rwp, 0x8, .persistent⟩,  -- DEPOT_WEAR_LIMIT
  ⟨0x9000, 0x9000, 1, 1, .octets, 32, .w1c, 0x0, .persistent⟩,  -- STICKY_LOG
  ⟨0xA400, 0xA400, 1, 1, .u32, 4, .ro, 0x0, .volatile⟩,  -- CKPT_TAKEN
  ⟨0xA400, 0xA400, 2, 2, .u32, 4, .ro, 0x0, .volatile⟩,  -- CKPT_COPY_PASSES
  ⟨0xA400, 0xA400, 3, 3, .u32, 4, .ro, 0x0, .volatile⟩,  -- CKPT_DEFERRED
  ⟨0xA400, 0xA400, 4, 4, .u32, 4, .ro, 0x0, .volatile⟩,  -- JOB_FAULTS
  ⟨0xA400, 0xA400, 5, 5, .u32, 4, .ro, 0x0, .volatile⟩  -- RISK_POINTS
  ]

def odRows17a : List OdRow := [
  ⟨0x8000, 0x8000, 1, 1, .u8, 1, .rw2, 0x0, .volatile⟩,  -- AUTH_CANCEL
  ⟨0x8100, 0x8100, 1, 1, .octets, 32, .rw2, 0x0, .persistent⟩,  -- OWNER_KEY
  ⟨0x8100, 0x8100, 2, 2, .octets, 32, .rw2, 0x0, .persistent⟩,  -- OPERATOR_KEY
  ⟨0x8100, 0x8100, 3, 3, .u8, 1, .rw2, 0x0, .volatile⟩,  -- OWNERSHIP_RELEASE
  ⟨0x8200, 0x8200, 1, 63, .octets, 16, .rw2, 0x0, .persistent⟩,  -- PARTITION_HP0
  ⟨0x8201, 0x8201, 1, 63, .octets, 16, .rw2, 0x0, .persistent⟩,  -- PARTITION_HP1
  ⟨0x8210, 0x8210, 1, 1, .bool, 1, .rw2, 0x0, .persistent⟩,  -- PARTITION_ENFORCE
  ⟨0x8300, 0x8300, 1, 1, .octets, 16, .rw2, 2 ^ 128 - 1, .persistent⟩,  -- BUDDY_OVERRIDE
  ⟨0x8310, 0x8310, 1, 1, .u8, 1, .rw2, 0x3, .persistent⟩,  -- SPARE_POLICY
  ⟨0x8400, 0x8400, 1, 1, .u8, 1, .rw2, 0x0, .volatile⟩,  -- DEBUG_UNLOCK
  ⟨0x8500, 0x8500, 1, 1, .u16, 2, .rw2, 0x0, .persistent⟩,  -- FW_SVN_FLOOR
  ⟨0x1040, 0x1040, 1, 1, .domain, 0, .rwp, 0x0, .volatile⟩,  -- FW_UPDATE
  ⟨0x1040, 0x1040, 2, 2, .u8, 1, .ro, 0x0, .volatile⟩,  -- FW_UPDATE_STATE
  ⟨0x1050, 0x1050, 1, 1, .u8, 1, .ro, 0x0, .persistent⟩,  -- OWNERSHIP_STATE
  ⟨0x1050, 0x1050, 2, 2, .u64, 8, .ro, 0x0, .volatile⟩,  -- AUTH_NONCE
  ⟨0x1050, 0x1050, 3, 3, .u32, 4, .ro, 0x0, .volatile⟩  -- STAGED_TARGET
  ]

def odRows17b : List OdRow := [
  ⟨0x1050, 0x1050, 4, 4, .u64, 8, .ro, 0x0, .volatile⟩,  -- STAGED_NONCE
  ⟨0x1050, 0x1050, 5, 5, .u16, 2, .ro, 0x0, .volatile⟩,  -- STAGED_REMAINING_S
  ⟨0x1060, 0x1060, 1, 1, .domain, 0, .const, 0x0, .persistent⟩,  -- IDENTITY_CERTS
  ⟨0xA010, 0xA010, 1, 1, .u32, 4, .ro, 0x0, .volatile⟩,  -- AUTH_FAILED_COUNT
  ⟨0xA010, 0xA010, 2, 2, .u32, 4, .ro, 0x0, .volatile⟩  -- AUTH_STAGED_EXPIRED
  ]

def odRows18a : List OdRow := [
  ⟨0x2000, 0x2000, 1, 1, .u8, 1, .rwp, 0x0, .persistent⟩,  -- POWER_PROFILE
  ⟨0x2000, 0x2000, 2, 2, .u16, 2, .ro, 0x0, .volatile⟩,  -- PACKAGE_POWER_W
  ⟨0x2000, 0x2000, 3, 3, .u8, 1, .ro, 0x0, .volatile⟩,  -- POWER_STATE
  ⟨0x2000, 0x2000, 4, 4, .u8, 1, .wo, 0x0, .volatile⟩,  -- POWER_STATE_REQ
  ⟨0x2000, 0x2000, 5, 5, .bool, 1, .rwp, 0x1, .persistent⟩,  -- AUTO_RUN
  ⟨0x2000, 0x2000, 6, 6, .u16, 2, .ro, 0x0, .volatile⟩,  -- UMBER_CORES_NOW
  ⟨0x2010, 0x2010, 1, 1, .u16, 2, .const, 0x15e0, .persistent⟩,  -- VIN_MAIN_WARN_MV
  ⟨0x2010, 0x2010, 2, 2, .u16, 2, .const, 0x1450, .persistent⟩,  -- VIN_MAIN_RESET_MV
  ⟨0x2010, 0x2010, 3, 3, .u16, 2, .const, 0x32, .persistent⟩,  -- UMBER_RECOVERY_US
  ⟨0x2020, 0x2020, 1, 1, .u8, 1, .const, 0x64, .persistent⟩,  -- THERMAL_WARN_C
  ⟨0x2020, 0x2020, 2, 2, .u8, 1, .const, 0x73, .persistent⟩,  -- THERMAL_TRIP_C
  ⟨0x2020, 0x2020, 3, 3, .s16, 2, .ro, 0x0, .volatile⟩,  -- TEMP_MAX_NOW_C
  ⟨0x2300, 0x2300, 1, 1, .u8, 1, .wo, 0x0, .volatile⟩,  -- PACKAGE_RESET
  ⟨0x2300, 0x2300, 2, 2, .u16, 2, .wo, 0x0, .volatile⟩,  -- LINK_PORT_RESET
  ⟨0xA020, 0xA020, 1, 1, .u32, 4, .ro, 0x0, .volatile⟩,  -- SUPPLY_WARNINGS
  ⟨0xA020, 0xA020, 2, 2, .u32, 4, .ro, 0x0, .volatile⟩  -- UMBER_SUPPLY_ENTRIES
  ]

def odRows18b : List OdRow := [
  ⟨0xA020, 0xA020, 3, 3, .u32, 4, .ro, 0x0, .volatile⟩,  -- UMBER_THERMAL_ENTRIES
  ⟨0xA020, 0xA020, 4, 4, .u64, 8, .ro, 0x0, .volatile⟩,  -- UMBER_CORE_US
  ⟨0xA020, 0xA020, 5, 5, .u64, 8, .ro, 0x0, .volatile⟩  -- POWER_THROTTLE_US
  ]

def odRows19 : List OdRow := [
  ⟨0x1070, 0x1070, 1, 1, .domain, 95040, .const, 0x0, .persistent⟩  -- LAND_MAP
  ]

/-- Every row of every entry table. -/
def odTable : List OdRow :=
  odRows00 ++
  odRows02 ++
  odRows03 ++
  odRows04 ++
  odRows05 ++
  odRows06 ++
  odRows07a ++
  odRows07b ++
  odRows08a ++
  odRows08b ++
  odRows09a ++
  odRows09b ++
  odRows10a ++
  odRows10b ++
  odRows11a ++
  odRows11b ++
  odRows12a ++
  odRows12b ++
  odRows13 ++
  odRows14 ++
  odRows15a ++
  odRows15b ++
  odRows16a ++
  odRows16b ++
  odRows16c ++
  odRows17a ++
  odRows17b ++
  odRows18a ++
  odRows18b ++
  odRows19

/-- The row that describes a key, if the Object Dictionary has the entry. -/
def odRow (key : Nat) : Option OdRow := odTable.find? fun r => r.covers key

/-- The physical die of logical die `l` on a new part: the n-th of MD0 to MD51 without MD6, MD19, MD32 and MD45 (R30). -/
def newPartDie (l : Nat) : Nat :=
  listGet 0 ((List.range 52).filter fun n => !(n % 13 = 6)) l

/-- The default of an entry (0 where the table shows none: the part-specific values stand in Config). -/
def odDefault (key : Nat) : Nat :=
  if key / 256 = 0x7100 then newPartDie (key % 256 - 1)
  else if 0x710201 ≤ key && key ≤ 0x710204 then 6 + 13 * (key % 256 - 1)
  else match odRow key with
    | some r => r.dflt
    | none => 0

/-- The length of an entry's value in bytes. -/
def odLen (key : Nat) : Nat :=
  match odRow key with
  | some r => r.len
  | none => 0

end Sys2Proof.Machine
end

