-- ==== Sys2Proof/Machine/State.lean ====
section
/-! DEFINITION. The state of the block: every register, buffer, queue, counter, mode and pin that the manual gives it,
as plain data. A sparse table (`Tab`) lists only the keys that differ from the default its reader names. -/

namespace Sys2Proof.Machine

open Sys2Proof

/-! ### Signal boxes (08) -/

/-- A signal on its way to a counter of a core (R253, R261), the Platform that sent it (R271), and the core of this package
from which it comes, if one sent it. -/
structure Signal where
  ctr : Nat
  n : Nat
  platform : Nat
  src : Option Nat
  deriving DecidableEq, Repr

/-- A command chosen to issue, with what its stream was when it issued: its Platform and Timetable core, its step, its
index, the order in which the stream became ready, and its placement (R639). -/
structure Issue where
  core : Nat
  slot : Nat
  w : CmdWord
  platform : Nat := 0
  tcore : Nat := 0
  step : Nat := 0
  cmd : Nat := 0
  seq : Nat := 0
  placed : Option CmdWord := none
  deriving DecidableEq, Repr

/-- A resident stream of a core's Signal box (08, "Counters and their operations"; `SB_STREAM_STATUS`, `SB_STREAM_POS`). -/
structure Stream where
  platform : Nat
  /-- Timetable core whose commands the stream runs (R269, R451), and the slot that the stream table gives it there. -/
  tcore : Nat
  tslot : Nat
  /-- `STATE`: 0 `EMPTY`, 1 `READY`, 2 `WAITING`, 3 `BLOCKED`, 4 `FAULTED`, 5 `ENDED`, 6 `PREEMPTED`. -/
  state : Nat
  waitCtr : Nat
  waitConsume : Bool
  waitT : Nat
  hang : Bool
  /-- The bases W_k that are not 0. -/
  bases : Tab Nat
  /-- Index of the next command to issue. -/
  cmd : Nat
  step : Nat
  /-- The `PLACE` command that directly precedes the next command, if one does (R639). -/
  placed : Option CmdWord
  /-- Order in which the streams of the core became ready (R455). -/
  readySeq : Nat
  /-- The wait of the next command has been satisfied (and, for a consume wait, its amount taken). -/
  released : Bool
  deriving DecidableEq, Repr

/-- A logit or hidden value that waits in a Junction's input buffer: the format in which it arrived (5 B16, 6 W32) and
its W32 value (R132, R135); `bad` where its parity shows an error (R163; DESIGN CHOICE, log entry 55). -/
structure JctIn where
  platform : Nat
  /-- 0 teacher, 1 student. -/
  stream : Nat
  row : Nat
  col : Nat
  fmt : Nat
  value : W32
  bad : Bool := false
  deriving DecidableEq, Repr

/-- A detected error that the next tile over a cell meets, and how many of its outputs have left the epilogue by then
(R84 to R88, R638). -/
structure CellError where
  cell : Nat
  row : Nat
  col : Nat
  out : Nat
  deriving DecidableEq, Repr

/-- A chained output: its format, its columns, and its elements row by row, each with its scale byte. -/
structure ChainOut where
  platform : Nat
  fmt : Nat
  cols : Nat
  elems : List (Nat × Byte)
  deriving DecidableEq, Repr

/-- One array of a core: its last `ARRAY_CTL`, its `ARRAY_STATUS`, and the errors counted at its cells. -/
structure ArrayState where
  ctl : Nat
  status : Nat
  armed : List CellError
  cellErrors : Tab Nat
  /-- The carry store: W32 values by bank × 32,768 + column × 256 + entry (03). -/
  carry : Tab Nat
  /-- Outputs of the preceding array that wait in the west queues (`OUT_ROUTE` `CHAIN`), oldest first. -/
  chain : List ChainOut
  /-- A tile for the Junction that has not delivered all its outputs, and the outputs that the drain still holds, oldest
  first (R67, R135). -/
  running : Option Issue
  drain : List JctIn
  /-- What the current tile commits at its completion (R90): its counts, as `Tally` lists them, and its amax (W32 bits). -/
  counts : Tab Nat
  peak : Nat
  spareRows : Nat
  spareCols : Nat
  deriving DecidableEq, Repr

/-- One logical core: its Signal box, its sequencer and its arrays. -/
structure CoreState where
  ctr : Tab Nat
  streams : Tab Stream
  /-- Slot that issued last (R259). -/
  lastSlot : Nat
  /-- Platform that issued last, by engine (R454). -/
  lastPlat : Tab Nat
  /-- Virtual time by engine × 16 + share class (R456). -/
  vtime : Tab Nat
  /-- Commands issued to the core's arrays, move engine and row unit and not yet started, oldest first (R250). -/
  queue : List Issue
  /-- Remote signals on their way, oldest first (R261). -/
  sig : List Signal
  readySeq : Nat
  arrays : Tab ArrayState
  quarantined : Bool
  deriving DecidableEq, Repr

/-! ### The Interlocking (08) -/

/-- A core's arrival at a barrier that has not been released (R275, R276). -/
structure Arrival where
  core : Nat
  slot : Nat
  platform : Nat
  n : Nat
  payload : Nat
  postEn : Bool
  postCtr : Nat
  postN : Nat
  resultOff : Nat
  atMs : Nat
  deriving DecidableEq, Repr

/-- An arrival token gathered from a child port (R275). -/
structure Token where
  port : Nat
  n : Nat
  payload : Nat
  deriving DecidableEq, Repr

/-- A barrier channel: arrivals counted per core, the arrivals and tokens held, the barriers released, and the
releases due. -/
structure Channel where
  counts : Tab Nat
  arrivals : List Arrival
  tokens : List Token
  /-- Barriers whose token this package has sent upward. -/
  sentUp : Nat
  released : Nat
  /-- A barrier complete at the root and not yet released: its n and its OR. -/
  due : List (Nat × Nat)
  deriving DecidableEq, Repr

/-! ### Commands on their way (08, 10) -/

/-- A `MOVE` to another package that waits for its acknowledgements (R352). -/
structure MoveOp where
  it : Issue
  /-- Destination package and message identifier of each message not yet acknowledged. -/
  waiting : List (Nat × Nat)
  deriving DecidableEq, Repr

/-! ### Platforms, queues and host ports (13, 14) -/

/-- One entry of a Platform's grant table as captured at its arm (R448). -/
structure Grant where
  base : Nat
  size : Nat
  read : Bool
  write : Bool
  image : Bool
  deriving DecidableEq, Repr

/-- One Platform: `PLATFORM_CFG`, `PLATFORM_STATUS`, the context registers, and what its arm bound. -/
structure Platform where
  /-- The RW fields of `PLATFORM_CFG`, at their bit places. -/
  cfg : Nat
  /-- `PC_STATE`. -/
  st : Nat
  armError : Nat
  armedTime : Nat
  waitOthers : Nat
  waitLatency : Nat
  overtaken : Nat
  epoch : Nat
  epochStopped : Bool
  doorbellRefused : Bool
  recordDropped : Bool
  /-- `FC_CAUSE`, `FC_CORE`, `FC_SLOT`, `FC_CMD_INDEX` as one word. -/
  fc : Nat
  image : Option Image
  seed : Nat
  steps : Nat
  grants : List Grant
  coreMap : List Nat
  /-- Counter mapping: Timetable core × 48 + counter to logical core × 48 + counter (R269). -/
  ctrMap : Tab Nat
  suspending : Bool
  /-- A disarm that waits for the next serving boundary (R468). -/
  disarming : Bool
  tainted : Bool
  /-- Scale-table entries captured at the arm (R635): tensor identifier to address and to bytes 0 to 15. -/
  scales : Tab (Nat × Nat)
  deriving DecidableEq, Repr

/-- A completion record that waits for its turn or for ring space, with what follows it (R304, R496, R498). -/
structure HeldRecord where
  kind : Nat
  scope : Nat
  lossy : Bool
  model : Nat
  status : Nat
  index : Nat
  tag : Nat
  value : Nat
  adapter : Nat
  irq : Bool
  vector : Nat
  sigEn : Bool
  sigCore : Nat
  sigCtr : Nat
  sigN : Nat
  /-- `NT_CTR` of a `NOTIFY`, as the core and counter whose value the record takes when it is written (R268). -/
  valCtr : Option (Nat × Nat)
  /-- The record of a `D_SERVE` whose body Stationmaster has not yet accepted or refused. -/
  wait : Bool
  /-- A `NOTIFY`'s own signal, fired once its record is written: core, slot and header (R251). -/
  post : Option (Nat × Nat × CmdWord)
  deriving DecidableEq, Repr

/-- One hardware queue: its queue block, the next slot to start, and its held records. -/
structure Queue where
  descBase : Nat
  cplBase : Nat
  slotsLog2 : Nat
  cplLog2 : Nat
  enable : Bool
  head : Nat
  /-- Slots of `D_SERVE` descriptors started and not yet completed. -/
  busy : Nat
  stopped : Bool
  stopCode : Nat
  tail : Nat
  cplTail : Nat
  cplHead : Nat
  /-- Slot count of the last completed descriptor (`EPOCH_RESUMED`, R324). -/
  lastDone : Nat
  held : List HeldRecord
  deriving DecidableEq, Repr

/-- One function's MSI-X bits, and one port's functions, links, windows and mailbox. -/
structure HostPort where
  linkUp : Bool
  cxl : Bool
  /-- CXL may be negotiated: `HP_CXL_ENABLE` as of the port's last reset (R477). -/
  cxlOn : Bool
  /-- Configuration requests are answered with Retry Status (R503, R504). -/
  retry : Bool
  perst : Bool
  downHeld : Bool
  numVfs : Nat
  apEnable : Bool
  apBase : Nat
  hdmBase : Nat
  hdmSize : Nat
  hdmCommitted : Bool
  hdmError : Bool
  /-- Unmasked vectors and pending vectors of the port's pool (R501); none is unmasked at reset (PRESUMED, log entry 56). -/
  unmasked : List Nat
  pend : List Nat
  mbxCtrl : Nat
  mbxRequest : List Byte
  mbxResponse : List Byte
  /-- The request that is being served while `MBX_BUSY` is 1 (R534). -/
  mbxServing : Option (List Byte)
  /-- Host-memory bytes written and held while the link is down, oldest first, each with the Platform whose work wrote
  them (R320, R308). -/
  heldWrites : List (Nat × Nat × List Byte)
  /-- Vectors held while the link is down. -/
  heldMsix : List Nat
  /-- Read-ahead granules: context × 2^58 + granule number, with the 64 bytes read (R305). -/
  readAhead : List (Nat × Nat × List Byte)
  deriving DecidableEq, Repr

/-- What the block sends to a host: the outside world's view of interrupts, messages and answers. -/
inductive HostOut where
  | msix (port vector : Nat)
  | drs (port : Nat)
  | frs (port : Nat) (function : Nat)
  | aer (port : Nat)
  | readData (port : Nat) (data : List Byte)
  | mctp (path : OdPath) (data : List Byte)
  | todp (path : OdPath) (data : List Byte)
  | fn (data : List Byte)
  | beacon (nodes : Nat)
  deriving DecidableEq, Repr

/-! ### Linam ports (10) -/

/-- A group held in the retry buffer: its sequence number and its sixteen frames. -/
structure TxGroup where
  seq : Nat
  frames : List Frame
  deriving DecidableEq, Repr

/-- One virtual channel of a port: the sender's and the receiver's credit counts, the flits of the message in
progress, and the whole messages not yet taken. -/
structure LinkVc where
  limit : Nat
  sent : Nat
  returned : Nat
  lastFreed8 : Nat
  /-- Flits that have arrived, and of them those that have been freed. -/
  arrived : Nat
  freed : Nat
  partFlits : List Frame
  /-- Flits of the first message of the outbox already sent. -/
  txPos : Nat
  inbox : List Message
  outbox : List Message
  deriving DecidableEq, Repr

/-- One Linam port (`LP_STATE`, lane maps, peer and failed lanes stand in the Object Dictionary). -/
structure LinkPort where
  txSeq : Nat
  rxNext : Nat
  nakTx : Bool
  retryBuf : List TxGroup
  replays : Nat
  vcs : Tab LinkVc
  /-- Receive-direction substitution in progress (R333, R334): the logical lane and that replays are not counted. -/
  rxSub : Option Nat
  rxSpareUsed : Bool
  txSpareUsed : Bool
  /-- Replays that a substitution causes are not counted until an acknowledgement arrives. -/
  txSub : Bool
  /-- VC of VC1 to VC3 that took a frame last (R344). -/
  lastVc : Nat
  /-- Skews of the nine receive lanes as the last training measured them, in frames (R331). -/
  skews : List Nat
  /-- What the nine transmit lanes carried of the group sent last (R331, R332). -/
  txLanes : List (List Frame)
  deriving DecidableEq, Repr

/-! ### Junctions (05) -/

/-- A row's partial: the twelve W32 fields and the flags of its row state, the leader of its race (key, index and value),
the value captured at the draft token, and its candidates (index, z_t, z_s). -/
structure JctPart where
  words : List W32
  flags : Nat
  race : Option (W32 × Nat × W32)
  cap : Option W32
  cands : List (Nat × W32 × W32)
  deriving DecidableEq, Repr

/-- A Junction command in a command slot, or waiting for one (R160, R161). -/
structure JctCmd where
  platform : Nat
  core : Nat
  tcore : Nat
  slot : Nat
  w : CmdWord
  /-- Order of issue on the die. -/
  seq : Nat
  /-- Names the command on every participating die: function, pass, retained area and ordinal. -/
  key : Nat
  /-- Index j of this Junction among the participants. -/
  j : Nat
  /-- The parameter block as read when the command started. -/
  param : Nat
  /-- Slices folded, by row. -/
  next : Tab Nat
  rows : Tab JctPart
  /-- At a home: partials merged, and the running state, by row. -/
  merged : Tab Nat
  home : Tab JctPart
  emitted : List Nat
  /-- Entries beyond the vocabulary that the command has dropped: stream, row and column (R134). -/
  dropped : List (Nat × Nat × Nat)
  deriving DecidableEq, Repr

/-- What a home broadcasts of a finished row (R144), with the results that later commands of its retained area use. -/
structure JctStats where
  words : List W32
  flags : Nat
  race : Option (W32 × Nat × W32)
  cap : Option W32
  /-- The candidate set K with its p_c, and TAILR (R152, R153). -/
  cands : List (Nat × W32)
  tail : W32
  /-- `IGNORE` and `MASKED` of the row's label at its home. -/
  ignore : Bool
  masked : Bool
  /-- What an EMIT command must have in common with the command that finished the row (R149). -/
  terms : List Nat
  deriving DecidableEq, Repr

/-- The losses of one DISTIL STATS command, by row, in issue order (R145): the loss, and whether the row counts. -/
structure LossGroup where
  key : Nat
  rows : Nat
  losses : Tab (W32 × Bool)
  deriving DecidableEq, Repr

/-- The Junction, Turntable and Siding of a logical die. -/
structure DieState where
  /-- Command slots 0 to 3 in use. -/
  slots : Tab JctCmd
  /-- `JCT_CTL` last loaded into each command slot. -/
  slotCtl : Tab Nat
  /-- Commands waiting for a slot, oldest first. -/
  waiting : List JctCmd
  inbox : List JctIn
  /-- Finished rows' statistics: (Platform × 2^25 + retained-area offset) × 4096 + row. -/
  bcast : Tab JctStats
  /-- Commands issued: (Platform × 2^64 + `JCT_CTL`) × 2^32 + retained-area offset. -/
  issued : Tab Nat
  seq : Nat
  lastCore : Nat
  lastPlat : Nat
  vtime : Tab Nat
  /-- Last `TT_CTL` and `SIDING_CTL`, and detected errors that the next blocks of the Turntable meet (R183). -/
  ttCtl : Nat
  sidingCtl : Nat
  ttErrors : List (Nat × Bool)
  /-- Yard ranges that hold a Junction's retained rows or its taps' hidden states: Platform, offset, bytes (R15, R18). -/
  areas : List (Nat × Nat × Nat)
  deriving DecidableEq, Repr

/-! ### Reduction engine (11) -/

/-- The exchange in progress. -/
structure Exchange where
  active : Bool
  step : Nat
  /-- Buckets filled. -/
  filled : List Nat
  /-- Stripes admitted in the reduce phase and in the gather phase. -/
  admittedReduce : List Nat
  admittedGather : List Nat
  /-- Ports whose VC1 head has been admitted and is held until its bucket fills (R376). -/
  holding : List Nat
  /-- Stripes whose partial stands in the sum image, stripes with their final value, and buckets staged and normed. -/
  partials : List Nat
  finals : List Nat
  staged : List Nat
  normed : List Nat
  /-- Messages sent and not acknowledged: destination package and message identifier. -/
  unacked : List (Nat × Nat)
  /-- Stripes whose reduce-phase send, and whose gather-phase send, has been made. -/
  sentReduce : List Nat
  sentGather : List Nat
  /-- The predecessor has been replaced by its shadow (R386). -/
  substituted : Bool
  /-- First bucket this shadow sends, once asked (R386). -/
  substFrom : Option Nat
  /-- Buckets whose deadline has expired (R389), and whether the package only waited. -/
  missed : List Nat
  waited : Bool
  dgTx : Nat
  dgRx : Nat
  complete : Bool
  deriving DecidableEq, Repr

/-! ### Job, update and checkpoints (07, 16) -/

/-- What the armed Distil job binds and the state of its window. -/
structure Job where
  active : Bool
  faulted : Bool
  seed : Nat
  steps : Nat
  teacherBase : Nat
  teacherBytes : Nat
  restoredW : Option Nat
  /-- The arm barrier has been sent and waits for the other packages. -/
  started : Bool
  /-- Loss sum and unmasked rows of the step (R145), in micro-batch order. -/
  lossSum : W32
  lossRows : Nat
  /-- The detectors of the window (R221, R222). -/
  nonfinite : Bool
  spike : Bool
  /-- Last step counted in `NUM_NONFINITE_STEPS`. -/
  nonfStep : Option Nat
  /-- DISTIL STATS commands whose losses are not yet summed, in issue order (R145). -/
  lossQueue : List LossGroup
  /-- Amaxes not yet entered into their histories, by step × 65,536 + tensor identifier: the largest finite magnitude, and
  the conversions that it covers (R120). -/
  amax : Tab (Nat × Nat)
  /-- Loss-spike statistics μ, σ² and n (R221). -/
  spikeMean : W32
  spikeVar : W32
  spikeN : Nat
  /-- Block partials of N2, by tensor × 2^20 + block; N2 itself (binary64 bits). -/
  partials : Tab Nat
  n2 : W64
  /-- Packages of the chain before this one, as the last norm pass brought their partials (R218). -/
  chainPos : Nat
  /-- Finished weight-gradient blocks of a window-ending step whose buffer lies in HBM, as their tiles wrote them in the Yard (R200,
  R201): by tensor × 2^20 + block, the W32 values by their index in the block. -/
  grads : Tab (Tab Nat)
  /-- Groups of 16 elements that the update in progress has recomputed (R237), by the address of their first master ÷ 64. -/
  redone : List Nat
  /-- 0 no update in progress, 1 an applied update in progress, 2 one that has ended and waits for a copy pass (R545). -/
  update : Nat
  /-- The OR of the vote's payloads. -/
  voteOr : Nat
  updNonfinite : Bool
  /-- The last window-ending step whose update has been decided: applied or skipped (R20). -/
  decided : Option Nat
  /-- Step of the last applied update that has completed. -/
  lastUpdate : Option Nat
  /-- Student layers of the next step are held (R20, R547). -/
  studentHeld : Bool
  deriving DecidableEq, Repr

/-- One area of the checkpoint reserve that holds a snapshot: its W, whether it is a serving snapshot, and the length of
the chain of deltas that ends here. -/
structure CkptSlot where
  valid : Bool
  w : Nat
  serve : Bool
  chain : Nat
  deriving DecidableEq, Repr

/-- Checkpoint state (16). -/
structure Ckpt where
  /-- Bytes of one area of the reserve. -/
  area : Nat
  a : CkptSlot
  b : CkptSlot
  buddy : CkptSlot
  /-- The next snapshot goes to slot B. -/
  next : Bool
  /-- A snapshot of the running job stands in the other slot, so that a delta has a base (R548). -/
  hasBase : Bool
  request : Option Nat
  /-- A request taken by a copy pass after the update (R545). -/
  copy : Option Nat
  /-- The fused snapshot in progress. -/
  snapshot : Option Nat
  /-- Dirty blocks of each tensor at the snapshot that waits for coding, by tensor identifier. -/
  dirty : Tab (List Nat)
  /-- W of the snapshot that waits for coding. -/
  coding : Option Nat
  undrained : Option Nat
  serveNow : Bool
  deriving DecidableEq, Repr

/-! ### Serving (12) -/

/-- One adapter generation: its model, identifier and number, its image, the queue that hears of its release, and
whether it is current (R436 to R439). -/
structure AdapterGen where
  student : Bool
  id : Nat
  gen : Nat
  addr : Nat
  bytes : Nat
  queue : Nat
  platform : Nat
  current : Bool
  deriving DecidableEq, Repr

/-- One prefix (R432 to R435): its tokens, its positions prefilled, its page-table slots and its pins. -/
structure PrefixEnt where
  platform : Nat
  fn : Nat
  handle : Nat
  queue : Nat
  seq : Nat
  tokens : List Nat
  kv : Nat
  admitted : Bool
  ready : Bool
  removed : Bool
  adapterT : Nat
  adapterS : Nat
  genT : Nat
  genS : Nat
  pages : List Nat
  slots : List Nat
  waited : Nat
  /-- Positions of its chunks, from `SERVE_CHUNK_TOKENS` when its prefill was cut (R442). -/
  chunk : Nat := 512
  deriving DecidableEq, Repr

/-- One live request: the fields of its request-table entry (12), and its prompt, token log and stop set, which the
serving firmware area keeps (R407). -/
structure Request where
  entry : Nat
  /-- `ENT_STATE`: 1 `QUEUED`, 2 `PREFILL`, 3 `ACTIVE`, 4 `PAUSING`, 5 `PAUSED`. -/
  state : Nat
  greedy : Bool
  includeStop : Bool
  lossy : Bool
  depth : Nat
  fn : Nat
  platform : Nat
  tag : Nat
  seed : Nat
  pfx : Nat
  tau : Nat
  len : Nat
  kvT : Nat
  kvS : Nat
  maxNew : Nat
  delivered : Nat
  adapterT : Nat
  adapterS : Nat
  genT : Nat
  genS : Nat
  target : Nat
  outQueue : Nat
  admitRound : Nat
  outAddr : Nat
  prompt : List Nat
  log : List Nat
  stopTokens : List Nat
  stopSeqs : List (List Nat)
  /-- Order of submission or resumption, and the boundary's number. -/
  seq : Nat
  born : Nat
  /-- Pages reserved, the page-table slots, and the allocation in the serving firmware area. -/
  pages : List Nat
  slots : List Nat
  fw : Nat
  /-- Rounds without a chunk (R425). -/
  waited : Nat
  /-- Its context is suspended or stopped (R440, R465). -/
  away : Bool
  /-- End reason, once ended. -/
  ended : Option Nat
  /-- An uncorrected error has met it (R416). -/
  failed : Bool
  /-- A `RESUME` has queued it again (R431). -/
  resumed : Bool
  /-- Its summary: address, bytes, lossy (R428 to R431). -/
  summary : Option (Nat × Nat × Bool)
  /-- The prefix that it holds since its admission, by the prefix's order (R429, R435). -/
  held : Option Nat := none
  /-- Positions of its chunks, from `SERVE_CHUNK_TOKENS` when its prefill was cut (R442). -/
  chunk : Nat := 512
  deriving DecidableEq, Repr

/-- A conversation of the round: its request entry, its group and its place there. -/
structure PlanRow where
  entry : Nat
  group : Nat
  conv : Nat
  deriving DecidableEq, Repr

/-- A prefill chunk of the round: of a request's entry or of a prefix (by its order), its first position and length. -/
structure PlanChunk where
  pfx : Bool
  key : Nat
  start : Nat
  n : Nat
  deriving DecidableEq, Repr

/-- A request record that waits for the next boundary: its queue, Platform, slot count and body. -/
structure ServeRecord where
  queue : Nat
  platform : Nat
  n : Nat
  body : Nat
  deriving DecidableEq, Repr

/-- What Stationmaster keeps. -/
structure Serving where
  requests : List Request
  prefixes : List PrefixEnt
  gens : List AdapterGen
  /-- Last generation number, by model × 1,024 + identifier. -/
  lastGen : Tab Nat
  records : List ServeRecord
  plan : List PlanRow
  chunks : List PlanChunk
  kmax : Nat
  round : Nat
  seq : Nat
  deriving DecidableEq, Repr

/-! ### Islands, power and resets (02, 18) -/

/-- One clock island: whether it is parked and for which quantities (1 clock ratio, 2 supply, 4 temperature); its last
temperature report; whether a sensor warning holds it in Umber; and whether it is idle. -/
structure Island where
  parked : Bool
  cause : Nat
  celsius : Option Int
  umberThermal : Bool
  idle : Bool
  deriving DecidableEq, Repr

/-- The pins and the power of the package (18), and its control dies (02). -/
structure Power where
  vaux : Bool
  mainEn : Bool
  vinGood : Bool
  /-- The package is Ready. -/
  ready : Bool
  doze : Bool
  /-- 60 s have not passed since a thermal trip (R599). -/
  trip : Bool
  /-- Rails and regulators that fell below warning and whose recovery is not complete (R593, R595). -/
  low : List Supply
  /-- Frozen slots of the sustained limit in sixteenths (R591). -/
  throttle : Nat
  /-- Microseconds of a fast freeze still to run (R591). -/
  fast : Nat
  /-- Power samples since the last step of the sustained limit. -/
  samples : Nat
  /-- A package warm reset in progress, held while both PERST# are asserted (R503, R604). -/
  warm : Bool
  /-- 0 no control die has booted, 1 the firmware runs, 2 the boot-ROM responder of R583 answers. -/
  boot : Nat
  /-- The active control die has not reported since the reset began (R39). -/
  awaiting : Bool
  /-- Flash device that supplied the running image, and the images that `FW_UPDATE` has programmed (R582, R584). -/
  running : Nat
  flash : Tab (List Byte)
  /-- The DDR5 modules at the last training. -/
  dimms : List Dimm
  /-- What the control dies showed at the last reset, and those that the Depot has retired (R38 to R40). -/
  report : DieReport
  retiredControl : List Nat
  /-- The standby control die's management island is powered (R39). -/
  standbyOn : Bool
  /-- The control die whose management island runs the boot-ROM responder (R40, R583). -/
  responder : Option Nat
  /-- `DDR5_RATE_LIMIT` at the last cold or package warm reset (R292, R327). -/
  ddr5Limit : Nat
  deriving DecidableEq, Repr

/-! ### The Depot (02, 03, 16) -/

/-- A repair, retirement or substitution recorded and awaiting a reset. -/
inductive Repair where
  | sramRow (island row : Nat)
  | hbmRow (stack channel row : Nat)
  | hbmChannel (stack channel : Nat)
  | arrayRow (core array row : Nat)
  | arrayCol (core array col : Nat)
  | coreSlot (core : Nat)
  | matrixDie (die : Nat)
  | router (die : Nat)
  deriving DecidableEq, Repr

/-- What the Depot has recorded and applied. -/
structure Depot where
  pending : List Repair
  applied : List Repair
  /-- Measured slowdown of wear counters in percent: by logical core, and by 512 + logical die (R563). -/
  wear : Tab Nat
  /-- Logical dies that stay quarantined for want of a spare (R564). -/
  quarantinedDies : List Nat
  /-- HBM contents were lost to an applied retirement and no Timetable has been loaded since (R287, R539; DEDUCED, log entry 80). -/
  reload : Bool
  /-- Corrected errors of HBM and SRAM rows since the last reset (R287; DESIGN CHOICE, log entry 55). -/
  corrected : List (Repair × Nat)
  /-- Logical dies whose fabric router the routes avoid (R34). -/
  avoid : List Nat
  /-- The package is marked for replacement (R40, R289, R564). -/
  replace : Bool
  deriving DecidableEq, Repr

/-! ### Protection and the Object Dictionary's paths (15, 17) -/

/-- A staged two-party change (R575): its entry, value and staging signer, the nonce that was signed, and the
milliseconds before it expires. -/
structure StagedChange where
  index : Nat
  sub : Nat
  value : List Byte
  signer : Nat
  nonce : Nat
  ms : Nat
  deriving DecidableEq, Repr

/-- An SPDM session: its path, the party whose key its requester proved (0 none, 1 Owner, 2 Operator), its secret. -/
structure Session where
  path : OdPath
  signer : Nat
  secret : BitVec 256
  deriving DecidableEq, Repr

/-- A response kept for a source address (R532). -/
structure Kept where
  addr : Nat
  xid : Nat
  response : List Byte
  atMs : Nat
  deriving DecidableEq, Repr

/-- The DOMAIN value staged on a path (0 and 1 the mailboxes, 2 TODP) and the entry it is for (R519). -/
structure Segments where
  path : Nat
  key : Nat
  data : List Byte
  deriving DecidableEq, Repr

structure Security where
  staged : Option StagedChange
  /-- Highest debug level since the last cold reset (measurement 5). -/
  debugMax : Nat
  sessions : List Session
  segments : List Segments
  kept : List Kept
  /-- MCTP packets received and not yet part of a complete SPDM request (R531). -/
  mctp : List (OdPath × List Byte)
  deriving DecidableEq, Repr

/-- A frame that waits for a transmit opportunity; `settles` marks the response after whose sending field-network
settings may take effect (R525, R528). -/
structure FnFrame where
  out : HostOut
  settles : Bool
  deriving DecidableEq, Repr

/-- The field-network port: what waits to be sent, attempts at the first frame (R527), and the settings in force (R528). -/
structure FieldNet where
  queue : List FnFrame
  attempts : Nat
  settled : Bool
  enable : Bool
  nodeId : Nat
  nodeCount : Nat
  toTimer : Nat
  udpPort : Nat
  deriving DecidableEq, Repr

/-! ### Stops -/

/-- Faults. The manual stops no command with a machine fault: every error it names changes the state (a status, a
sticky bit, a faulted job), so the type has no constructor that a meaning raises. -/
inductive Fault where
  /-- Raised by nobody; it keeps the type inhabited. Safe. -/
  | unused
  deriving DecidableEq, Repr

/-- Refusals: commands that cannot reach the hardware. -/
inductive Refusal where
  /-- Raised by an arm of `exec` whose command has no meaning yet. Safe. -/
  | notModelled (mnemonic : String)
  /-- Raised by `exec` for an operand that no such command can carry (a core above 287, a port above 15): the
  hardware has no wire for it. Safe. -/
  | illFormed (operand : String)
  deriving DecidableEq, Repr

/-! ### The state -/

/-- The state of the block. -/
structure State where
  /-- Commands that wait, first in, first out. -/
  pending : List Instr
  /-- The model's own counter of free values drawn (DESIGN CHOICE, log entry 2). -/
  fresh : Nat
  /-- Management-island time since the last cold reset, ms. -/
  timeMs : Nat
  /-- Object Dictionary values that differ from their defaults, by key. -/
  od : Tab Nat
  /-- Running counts of the latched entries, by key (R522). -/
  stats : Tab Nat
  /-- HBM, DDR5, core stores and Yards: bytes by device address. -/
  mem : List Host.Cell
  /-- Host memory: bytes by host bus address. -/
  hostMem : List Host.Cell
  /-- Host bus addresses, and bytes from them, whose reads the host completes with an error (R310; DESIGN CHOICE, log entry 55). -/
  hostBad : List (Nat × Nat)
  /-- ECC words with an uncorrected error, by their first byte's device address (R630; DESIGN CHOICE, log entry 55). -/
  eccBad : List Nat
  cores : Tab CoreState
  channels : Tab Channel
  moves : List MoveOp
  plats : Tab Platform
  queues : Tab Queue
  ports : Tab HostPort
  hostOut : List HostOut
  links : Tab LinkPort
  /-- Message identifiers used, by destination package × 4 + VC (R354). -/
  msgIds : Tab Nat
  /-- The committed Points table (R367). -/
  points : Nat
  loaded : Option Image
  /-- The image address and bytes of the load that runs (R246, R249). -/
  loading : Option (Nat × Nat)
  red : Exchange
  job : Job
  ckpt : Ckpt
  serving : Serving
  islands : Tab Island
  power : Power
  depot : Depot
  security : Security
  fieldNet : FieldNet
  dies : Tab DieState
  deriving DecidableEq, Repr

/-! ### Defaults of sparse tables -/

def Stream.empty : Stream :=
  { platform := 0, tcore := 0, tslot := 0, state := 0, waitCtr := 0, waitConsume := false, waitT := 0, hang := false,
    bases := [], cmd := 0, step := 0, placed := none, readySeq := 0, released := false }

def ArrayState.empty : ArrayState :=
  { ctl := 0, status := 0, armed := [], cellErrors := [], carry := [], chain := [], running := none,
    drain := [], counts := [], peak := 0, spareRows := 0, spareCols := 0 }

def CoreState.empty : CoreState :=
  { ctr := [], streams := [], lastSlot := 7, lastPlat := [], vtime := [], queue := [], sig := [], readySeq := 0, arrays := [],
    quarantined := false }

def Channel.empty : Channel :=
  { counts := [], arrivals := [], tokens := [], sentUp := 0, released := 0, due := [] }

def Platform.empty : Platform :=
  { cfg := 0, st := 0, armError := 0, armedTime := 0, waitOthers := 0, waitLatency := 0, overtaken := 0, epoch := 0,
    epochStopped := false, doorbellRefused := false, recordDropped := false, fc := 0, image := none, seed := 0,
    steps := 0, grants := [], coreMap := [], ctrMap := [], suspending := false, disarming := false,
    tainted := false, scales := [] }

def Queue.empty : Queue :=
  { descBase := 0, cplBase := 0, slotsLog2 := 0, cplLog2 := 0, enable := false, head := 0, busy := 0, stopped := false,
    stopCode := 0, tail := 0, cplTail := 0, cplHead := 0, lastDone := 0xFFFFFFFF, held := [] }

def HostPort.empty : HostPort :=
  { linkUp := false, cxl := false, cxlOn := true, retry := true, perst := true, downHeld := false, numVfs := 0, apEnable := false,
    apBase := 0, hdmBase := 0, hdmSize := 0, hdmCommitted := false, hdmError := false, unmasked := [], pend := [],
    mbxCtrl := 0, mbxRequest := [], mbxResponse := [], mbxServing := none, heldWrites := [], heldMsix := [],
    readAhead := [] }

def LinkVc.empty : LinkVc :=
  { limit := 0, sent := 0, returned := 0, lastFreed8 := 0, arrived := 0, freed := 0, partFlits := [], txPos := 0, inbox := [], outbox := [] }

def LinkPort.empty : LinkPort :=
  { txSeq := 0, rxNext := 0, nakTx := false, retryBuf := [], replays := 0, vcs := [], rxSub := none,
    rxSpareUsed := false, txSpareUsed := false, txSub := false, lastVc := 3, skews := [], txLanes := [] }

def Exchange.empty : Exchange :=
  { active := false, step := 0, filled := [], admittedReduce := [], admittedGather := [], holding := [], partials := [],
    finals := [], staged := [], normed := [], unacked := [], sentReduce := [], sentGather := [], substituted := false,
    substFrom := none, missed := [], waited := false, dgTx := 0, dgRx := 0, complete := false }

def Job.empty : Job :=
  { active := false, faulted := false, seed := 0, steps := 0, teacherBase := 0, teacherBytes := 0, restoredW := none,
    started := false, lossSum := 0, lossRows := 0, nonfinite := false, spike := false, nonfStep := none, lossQueue := [],
    amax := [], spikeMean := 0, spikeVar := 0,
    spikeN := 0, partials := [], n2 := 0, chainPos := 0, update := 0, voteOr := 0, updNonfinite := false,
    grads := [], redone := [], decided := none, lastUpdate := none, studentHeld := false }

def CkptSlot.empty : CkptSlot := { valid := false, w := 0, serve := false, chain := 0 }

def Ckpt.empty : Ckpt :=
  { area := 0, a := .empty, b := .empty, buddy := .empty, next := false, hasBase := false, request := none, copy := none,
    snapshot := none, dirty := [], coding := none, undrained := none, serveNow := false }

def Serving.empty : Serving :=
  { requests := [], prefixes := [], gens := [], lastGen := [], records := [], plan := [], chunks := [], kmax := 0,
    round := 0, seq := 0 }

def Island.empty : Island :=
  { parked := false, cause := 0, celsius := none, umberThermal := false, idle := false }

/-- Every control die passes its self-test, reports and answers. -/
def DieReport.clean : DieReport := { failing := [], silent := [], mute := [] }

/-- No rail present: PERST# asserted by the board's pull, everything else inactive. -/
def Power.off : Power :=
  { vaux := false, mainEn := false, vinGood := false, ready := false, doze := false, trip := false, low := [],
    throttle := 0, fast := 0, samples := 0, warm := false, boot := 0, awaiting := false, running := 0, flash := [], dimms := [],
    report := .clean, retiredControl := [], standbyOn := false, responder := none, ddr5Limit := 0 }

def Depot.empty : Depot :=
  { pending := [], applied := [], wear := [], quarantinedDies := [], reload := false, corrected := [], avoid := [], replace := false }

def Security.empty : Security :=
  { staged := none, debugMax := 0, sessions := [], segments := [], kept := [], mctp := [] }

/-- The port held at high impedance, with the settings' defaults. -/
def FieldNet.off : FieldNet :=
  { queue := [], attempts := 0, settled := true, enable := false, nodeId := 0xFF, nodeCount := 8, toTimer := 32, udpPort := 45264 }

def DieState.empty : DieState :=
  { slots := [], slotCtl := [], waiting := [], inbox := [], bcast := [], issued := [], seq := 0, lastCore := 287, lastPlat := 1023,
    vtime := [], ttCtl := 0, sidingCtl := 0, ttErrors := [], areas := [] }

def JctPart.empty : JctPart := { words := [], flags := 0, race := none, cap := none, cands := [] }

def ChainOut.empty : ChainOut := { platform := 0, fmt := 0, cols := 0, elems := [] }

/-- The statistics of a row that nothing has finished. -/
def JctStats.empty : JctStats :=
  { words := [], flags := 0, race := none, cap := none, cands := [], tail := 0, ignore := false, masked := false, terms := [] }

/-- The machine right after reset: Off, with no rail present, every register at its reset value, every memory with
nothing listed and no command waiting. -/
def State.reset : State :=
  { pending := [], fresh := 0, timeMs := 0, od := [], stats := [], mem := [], hostMem := [], hostBad := [], eccBad := [], cores := [],
    channels := [], moves := [], plats := [], queues := [], ports := [], hostOut := [], links := [], msgIds := [],
    points := 0, loaded := none, loading := none, red := .empty, job := .empty, ckpt := .empty, serving := .empty, islands := [], power := .off,
    depot := .empty, security := .empty, fieldNet := .off, dies := [] }

end Sys2Proof.Machine
end

