-- ==== Sys2Proof/Machine/JctMath.lean ====
section
/-! DEFINITION. The arithmetic of the Junction (R134 to R168): the online pass, merging, finishing, emission, races and
acceptance draws. Every line is one W32 operation with RNE (R137). -/

namespace Sys2Proof.Machine

open Sys2Proof

/-! ### Row states (05, "Row state") -/

/-- The start of a row: maxima at −∞, sums at +0. -/
def rowStart : List W32 := [negInfW, 0, 0, negInfW, 0, negInfW, 0, 0, 0, 0, 0, 0]

/-- A COS or MSE tap row starts with its sums at +0. -/
def tapStart : List W32 := List.replicate 12 0

def wd (l : List W32) (i : Nat) : W32 := listGet 0 l i
def setWd (l : List W32) (i : Nat) (x : W32) : List W32 := l.set i x

/-- The 64 bytes of a row state. -/
def rowBytes (words : List W32) (flags : Nat) : List Byte :=
  ((words ++ List.replicate 12 0).take 12).flatMap (fun (w : W32) => leBytes 4 w.toNat) ++ leBytes 16 flags

/-- The neutral element of a sum of W32 values. -/
def negZeroW : W32 := 0x80000000#32

/-- 64 values of which the missing ones take no part in a sum (R134; DEDUCED, log entry 23). -/
def pad64 (l : List W32) : List W32 := l ++ List.replicate (64 - l.length) negZeroW

def sumSlice (l : List W32) : W32 := sum64 (pad64 l)

/-- MAX64 over the entries of a slice. -/
def maxSlice : List W32 → W32
  | [] => negInfW
  | x :: xs => xs.foldl fmax x

/-- One step of a running maximum and normaliser: the new maximum, the factor f, the terms e and the new sum. -/
def foldSoft (m s : W32) (xs : List W32) : W32 × W32 × List W32 × W32 :=
  let nm := fmax m (maxSlice xs)
  let f := fexp (fsub m nm)
  let e := xs.map fun x => fexp (fsub x nm)
  (nm, f, e, ffma s f (sumSlice e))

/-- The teacher pair and `UKL` folded over one slice. -/
def foldTeacher (w a b : List W32) (kl : List W32) : List W32 :=
  let r := foldSoft (wd w 0) (wd w 1) a
  let kl' := if kl.isEmpty then wd w 2 else
    ffma (wd w 2) r.2.1 (sumSlice ((r.2.2.1.zip (a.zip b)).map fun q => fmul q.1 (fsub q.2.1 q.2.2)))
  setWd (setWd (setWd w 0 r.1) 1 r.2.2.2) 2 kl'

/-- The student pair at T. -/
def foldStudent (w b : List W32) : List W32 :=
  let r := foldSoft (wd w 3) (wd w 4) b
  setWd (setWd w 3 r.1) 4 r.2.2.2

/-- The student pair at 1. -/
def foldHard (w zs : List W32) : List W32 :=
  let r := foldSoft (wd w 5) (wd w 6) zs
  setWd (setWd w 5 r.1) 6 r.2.2.2

/-! ### Races (R165) -/

/-- The order of a race: larger keys first, −0 below +0 (DEDUCED, log entry 24). -/
def beats (x y : W32) : Bool := (ofW y).lt (ofW x)

/-- The leader after one more entry: the larger key, on equal keys the lower index; a NaN key takes no part. -/
def raceStep (r : Option (W32 × Nat × W32)) (e : W32 × Nat × W32) : Option (W32 × Nat × W32) :=
  if fisNan e.1 then r
  else match r with
    | none => some e
    | some l => if beats e.1 l.1 || (!beats l.1 e.1 && e.2.1 < l.2.1) then some e else r

/-- Two leaders merged. -/
def raceJoin (a b : Option (W32 × Nat × W32)) : Option (W32 × Nat × W32) :=
  match b with
  | none => a
  | some e => raceStep a e

/-! ### Draws (R164) -/

/-- Draw m of a kind at a position: purpose 4 `SAMPLE` for kinds 0 to 2, 3 `ACCEPT` for kind 3. -/
def serveDraw (seed kind pos m : Nat) : Nat :=
  let d : DrawKey := { seed := seed, purpose := if kind = 3 then 3 else 4, tensor := kind, step := pos, micro := 0 }
  listGet 0 (d.words (m / 4)) (m % 4)

/-- u of a draw: an odd multiple of 2^−24. -/
def drawU (w : Nat) : W32 := toW (.fin false (2 * (w / 2 ^ 9) + 1) (-24))

/-- The Gumbel value of a draw. -/
def gumbel (w : Nat) : W32 := fneg (fln (fneg (fln (drawU w))))

/-! ### Candidates of sparse targets (R151) -/

/-- Insert a candidate by falling a, then rising index; NaN keys last. -/
def candInsert (invT : W32) (c : Nat × W32 × W32) : List (Nat × W32 × W32) → List (Nat × W32 × W32)
  | [] => [c]
  | d :: ds =>
    let a := fmul c.2.1 invT
    let b := fmul d.2.1 invT
    if beats a b || (!beats b a && c.1 < d.1) then c :: d :: ds else d :: candInsert invT c ds

def candJoin (invT : W32) (k : Nat) (xs ys : List (Nat × W32 × W32)) : List (Nat × W32 × W32) :=
  (ys.foldl (fun l c => candInsert invT c l) xs).take k

/-! ### Merging across dies (R143) -/

def mergePair (w v : List W32) (i : Nat) : W32 × W32 × W32 × W32 :=
  let m := fmax (wd w i) (wd v i)
  let fa := fexp (fsub (wd w i) m)
  let fb := fexp (fsub (wd v i) m)
  (m, ffma (wd w (i + 1)) fa (fmul (wd v (i + 1)) fb), fa, fb)

/-- A partial merged into the running state; `soft` tells a softmax row from a hint tap, whose sums are added. -/
def mergePart (soft : Bool) (invT : W32) (k : Nat) (a b : JctPart) : JctPart :=
  let w := a.words
  let v := b.words
  let words := if soft then
      let t := mergePair w v 0
      let s := mergePair w v 3
      let h := mergePair w v 5
      let ukl := ffma (wd w 2) t.2.2.1 (fmul (wd v 2) t.2.2.2)
      [t.1, t.2.1, ukl, s.1, s.2.1, h.1, h.2.1, if bitOf b.flags 0 then wd v 7 else wd w 7, 0, 0, 0, 0]
    else [fadd (wd w 0) (wd v 0), fadd (wd w 1) (wd v 1), fadd (wd w 2) (wd v 2)] ++ List.replicate 9 0
  { words := words
    flags := a.flags ||| b.flags
    race := raceJoin a.race b.race
    cap := if b.cap.isSome then b.cap else a.cap
    cands := if k = 0 then [] else candJoin invT k a.cands b.cands }

/-! ### Finishing a row -/

/-- The constants of a command, formed once at its start. -/
structure JctConst where
  invT : W32
  cklL : W32
  cklG : W32
  cce : W32
  deriving DecidableEq, Repr

def jctConst (T alpha : W32) : JctConst :=
  { invT := fdiv oneW T, cklL := fmul (fmul alpha T) T, cklG := fmul alpha T, cce := fsub oneW alpha }

/-- The label word of a row: label, `IGNORE`, `MASKED`. -/
def lblLabel (l : Nat) : Nat := bitsOf l 0 20
def lblIgnore (l : Nat) : Bool := bitOf l 20
def lblMasked (l : Nat) : Bool := bitOf l 21

/-- LOSS, KL and CE of a row whose soft term is `kl` (R138, R143, R158). -/
def rowLoss (k : JctConst) (w : List W32) (flags label : Nat) (kl hint : W32) : W32 × W32 × W32 :=
  if lblMasked label then (0, 0, 0)
  else if bitOf flags 1 then (nanW, nanW, nanW)
  else
    let lh := fadd (wd w 5) (fln (wd w 6))
    let ce := if lblIgnore label then 0 else fsub lh (wd w 7)
    let t4 := fmul k.cce ce
    (fadd (ffma k.cklL kl t4) hint, kl, ce)

/-- KL of a dense row. -/
def denseKl (w : List W32) : W32 :=
  let lt := fadd (wd w 0) (fln (wd w 1))
  let ls := fadd (wd w 3) (fln (wd w 4))
  let t1 := fmul (wd w 2) (fdiv oneW (wd w 1))
  fmax 0 (fadd (fsub t1 lt) ls)

/-- 2^−126, which stands for a zero probability (R152). -/
def tinyW : W32 := 0x00800000#32

/-- One term of the sparse KL, and whether q was replaced. -/
def klTerm (p q : W32) : W32 × Bool :=
  if (ofW p).isZero then (0, false)
  else
    let z := (ofW q).isZero
    (fmul p (fsub (fln p) (fln (if z then tinyW else q))), z)

/-- The sparse finish (R152): KL, TAILR, the members of K with their p_c, and the replacements made. -/
def sparseKl (k : JctConst) (w : List W32) (cands : List (Nat × W32 × W32)) : W32 × W32 × List (Nat × W32) × Nat :=
  let rt := fdiv oneW (wd w 1)
  let rs := fdiv oneW (wd w 4)
  let cs := cands.foldl (fun l c =>
    (l.takeWhile fun d => d.1 < c.1) ++ c :: (l.dropWhile fun d => d.1 < c.1)) ([] : List (Nat × W32 × W32))
  let pq := cs.map fun c =>
    (c.1, fmul (fexp (fsub (fmul c.2.1 k.invT) (wd w 0))) rt, fmul (fexp (fsub (fmul c.2.2 k.invT) (wd w 3))) rs)
  let pk := pq.foldl (fun a c => fadd a c.2.1) 0
  let qk := pq.foldl (fun a c => fadd a c.2.2) 0
  let pt := fmax 0 (fsub oneW pk)
  let qt := fmax 0 (fsub oneW qk)
  let terms := (pq.map fun c => klTerm c.2.1 c.2.2) ++ [klTerm pt qt]
  let kl := terms.foldl (fun a t => fadd a t.1) 0
  let tail := if (ofW pt).isZero then 0 else fdiv pt (if (ofW qt).isZero then tinyW else qt)
  (fmax 0 kl, tail, pq.map fun c => (c.1, c.2.1), countIf (·.2) terms)

/-! ### Emission (R144, R153) -/

/-- One gradient entry at index i, before its B16 conversion, as g × G; `zt` is unused in sparse mode. -/
def gradEntry (k : JctConst) (b : JctStats) (label i : Nat) (sparse : Bool) (G zt zs : W32) : W32 :=
  let q := fmul (fexp (fsub (fmul zs k.invT) (wd b.words 3))) (fdiv oneW (wd b.words 4))
  let h := fmul (fexp (fsub zs (wd b.words 5))) (fdiv oneW (wd b.words 6))
  let d := if lblIgnore label then 0 else if i = lblLabel label then fsub h oneW else h
  let u := fmul k.cce d
  let target := if sparse then
      (match b.cands.find? (·.1 = i) with
       | some c => c.2
       | none => fmul q b.tail)
    else fmul (fexp (fsub (fmul zt k.invT) (wd b.words 0))) (fdiv oneW (wd b.words 1))
  fmul (ffma k.cklG (fsub q target) u) G

/-- The B16 entry that a row emits: +0 for a masked row, NaN for a non-finite one (R138, R158). An infinity of a row whose
inputs are finite came of an overflow and is counted as one (R127, R159). -/
def emitB16 (flags label : Nat) (x : W32) : Conv :=
  if lblMasked label then ⟨0, false, false, false⟩
  else if bitOf flags 1 then ⟨0x7FC0, false, false, false⟩
  else
    let r := fmtB16.conv .rne (ofW x)
    if (ofW x) matches .inf _ then { r with overflow := true } else r

/-- The MSE gradient of an entry (R155). -/
def mseEntry (beta H G s t : W32) : W32 := fmul (fmul (fdiv (fadd beta beta) H) (fsub s t)) G

def cosNorm (w : List W32) : W32 := fmul (fsqrt (wd w 1)) (fsqrt (wd w 2))

/-- The COS gradient of an entry (R156): words are A_st, A_ss, A_tt. -/
def cosEntry (w : List W32) (beta G s t : W32) : W32 :=
  let nn := cosNorm w
  if (ofW nn).isZero then 0
  else
    let cs := fdiv (wd w 0) nn
    fmul (fmul beta (fsub (fdiv (fmul cs s) (wd w 1)) (fdiv t nn))) G

/-- A tap's loss (R155, R156). -/
def tapLoss (cos : Bool) (beta H : W32) (w : List W32) : W32 :=
  if cos then
    let nn := cosNorm w
    if (ofW nn).isZero then beta else fmul beta (fsub oneW (fdiv (wd w 0) nn))
  else fdiv (fmul beta (wd w 0)) H

end Sys2Proof.Machine
end

