-- ==== Sys2Proof/Machine/Ops.lean ====
section
/-! DEFINITION. The operations every family shares: outcomes, memory, Object Dictionary values, counts, the sticky log,
first-error capture, interrupts and messages. -/

namespace Sys2Proof.Machine

open Sys2Proof

/-- What a meaning answers: a state, a fault or a refusal. -/
abbrev Out := Host.Outcome State Fault Refusal

/-- The effect of a command whose operand lies in its range; a command the hardware has no wire for is refused. -/
def within (ok : Bool) (operand : String) (s' : State) : Out :=
  if ok then .next s' else .refused (.illFormed operand)

/-! ### Memory -/

/-- What a byte of memory that nothing has written reads as (DESIGN CHOICE, log entry 4). -/
def unwritten : Byte := 0

/-- The byte at an address. -/
def memGet : List Host.Cell → Nat → Byte
  | [], _ => unwritten
  | (k, b) :: m, a => if k = a then b else memGet m a

/-- The memory with one byte replaced, in canonical form: addresses rising, nothing listed that reads as unwritten. -/
def memPut : List Host.Cell → Nat → Byte → List Host.Cell
  | [], a, x => if x = unwritten then [] else [(a, x)]
  | (k, b) :: m, a, x =>
    if k = a then (if x = unwritten then m else (a, x) :: m)
    else if a < k then (if x = unwritten then (k, b) :: m else (a, x) :: (k, b) :: m)
    else (k, b) :: memPut m a x

/-- The canonical form, for the entries at addresses `lo` and above. -/
def memOkFrom : Nat → List Host.Cell → Bool
  | _, [] => true
  | lo, (k, b) :: m => lo ≤ k && b != unwritten && memOkFrom (k + 1) m

/-- Memory is in canonical form. -/
def Memory.wf (m : List Host.Cell) : Bool := memOkFrom 0 m

/-- `n` bytes from an address upward. -/
def memBytes (m : List Host.Cell) (a : Nat) : Nat → List Byte
  | 0 => []
  | n + 1 => memGet m a :: memBytes m (a + 1) n

/-- Bytes written from an address upward. -/
def memPutAll : List Host.Cell → Nat → List Byte → List Host.Cell
  | m, _, [] => m
  | m, a, b :: bs => memPutAll (memPut m a b) (a + 1) bs

/-- A little-endian number of `n` bytes (R6). -/
def memNat (m : List Host.Cell) (a n : Nat) : Nat := leNat (memBytes m a n)

/-! ### ECC words (R630) -/

/-- First byte and length of the ECC word that holds an address: 8 bytes on a die, 32 in HBM, 64 in DDR5. -/
def eccLen (a : Nat) : Nat :=
  if a / 2 ^ 56 = 2 then 8 else if a / 2 ^ 56 = 1 then 64 else 32

def eccWord (a : Nat) : Nat := a / eccLen a * eccLen a

/-- The ECC words that `n` bytes at `a` touch and whose check bits show an error. -/
def badIn (bad : List Nat) (a n : Nat) : List Nat :=
  bad.filter fun w => w < a + n && a < w + eccLen w

/-- The ECC words that `n` bytes at `a` touch in part and whose check bits show an error: the read-merge-write of
R630 meets them. -/
def badPartly (bad : List Nat) (a n : Nat) : List Nat :=
  (badIn bad a n).filter fun w => w < a || a + n < w + eccLen w

/-- A write of `n` bytes at `a` makes the ECC words it covers whole readable again (R630). -/
def eccHeal (bad : List Nat) (a n : Nat) : List Nat :=
  bad.filter fun w => !(a ≤ w && w + eccLen w ≤ a + n)

/-- Device memory written from an address upward. -/
def State.put (s : State) (a : Nat) (bs : List Byte) : State :=
  { s with mem := memPutAll s.mem a bs, eccBad := eccHeal s.eccBad a bs.length }

/-! ### Object Dictionary values -/

/-- A word built from (low bit, length, value) fields. -/
def fields (l : List (Nat × Nat × Nat)) : Nat :=
  l.foldl (fun w f => w + (f.2.2 % 2 ^ f.2.1) * 2 ^ f.1) 0

/-- The link-local address of a MAC address (R529), both with the byte sent first lowest: fe80::/64, then the modified
EUI-64 of the MAC, whose universal/local bit is inverted and between whose halves FF FE stands. -/
def linkLocalOf (mac : Nat) : Nat :=
  fields [(0, 8, 0xFE), (8, 8, 0x80), (64, 24, mac ^^^ 2), (88, 8, 0xFF), (96, 8, 0xFE), (104, 24, mac >>> 24)]

/-- The default of an entry on this part: the table's, or the part-specific value of R631. -/
def partDefault (key : Nat) : Nat :=
  if key = Od.SERIAL_NUMBER then Config.serialNumber.toNat
  else if key = Od.FN_MAC_ADDR then Config.macAddr.toNat
  else if key = Od.FN_LINK_LOCAL then linkLocalOf Config.macAddr.toNat
  else if key = Od.FIRMWARE_VERSION then Config.firmwareVersion.toNat
  else if key = Od.AUTH_NONCE then (Config.freeNonce 0).toNat
  else odDefault key

/-- The value of an entry. -/
def State.odv (s : State) (key : Nat) : Nat :=
  match tabFind s.od key with
  | some v => v
  | none => partDefault key

/-- An entry given a value. -/
def State.setOd (s : State) (key v : Nat) : State := { s with od := tabSet s.od key v }

/-- A latched entry's running count (R522). -/
def State.count (s : State) (key n : Nat) : State := { s with stats := tabMod 0 s.stats key (· + n) }

/-- Sources of the risk index that no entry counts: repairs recorded, and parkings for temperature (16, "Risk index"). -/
def riskRepairs : Nat := 1
def riskThermal : Nat := 2

/-- A running maximum of a latched entry. -/
def State.countMax (s : State) (key n : Nat) : State := { s with stats := tabMod 0 s.stats key (Nat.max · n) }

/-! ### Interrupts (R501, R502) -/

def State.port (s : State) (p : Nat) : HostPort := tabGet .empty s.ports p
def State.setPort (s : State) (p : Nat) (h : HostPort) : State := { s with ports := tabSet s.ports p h }

/-- A message to the outside of the block. -/
def State.emit (s : State) (o : HostOut) : State := { s with hostOut := s.hostOut ++ [o] }

/-- Raise a pool vector of a port: a masked one sets its pending bit; one bound for a link that is down is held
while the hold of R320 runs and dropped after it (R322, R501). -/
def State.raise (s : State) (p v : Nat) : State :=
  let h := s.port p
  if !h.unmasked.contains v then
    (if h.pend.contains v then s else s.setPort p { h with pend := h.pend ++ [v] })
  else if h.linkUp then (s.emit (.msix p v)).count Od.MSIX_SENT 1
  else if h.downHeld || h.retry then s
  else s.setPort p { h with heldMsix := h.heldMsix ++ [v] }

/-! ### Platforms (13, 14) -/

def State.plat (s : State) (p : Nat) : Platform := tabGet .empty s.plats p
def State.setPlat (s : State) (p : Nat) (x : Platform) : State := { s with plats := tabSet s.plats p x }

/-- Fields of `PLATFORM_CFG`. -/
def Platform.service (x : Platform) : Bool := bitOf x.cfg 2
def Platform.share (x : Platform) : Nat := bitsOf x.cfg 4 4
def Platform.lat (x : Platform) : Nat := bitsOf x.cfg 8 2
def Platform.fn (x : Platform) : Nat := bitsOf x.cfg 10 7
def Platform.port (x : Platform) : Nat := x.fn / 64
def Platform.vf (x : Platform) : Nat := x.fn % 64
def Platform.queueBase (x : Platform) : Nat := bitsOf x.cfg 32 12
def Platform.queueCount (x : Platform) : Nat := bitsOf x.cfg 44 13
def Platform.barChannels (x : Platform) : Nat := bitsOf x.cfg 64 16
def Platform.nCores (x : Platform) : Nat := bitsOf x.cfg 80 9
def Platform.mapAddr (x : Platform) : Nat := bitsOf x.cfg 128 64
def Platform.grantAddr (x : Platform) : Nat := bitsOf x.cfg 192 64
def Platform.nGrants (x : Platform) : Nat := bitsOf x.cfg 256 5

/-- Armed or suspended. -/
def Platform.held (x : Platform) : Bool := x.st = 1 || x.st = 2

/-- The package is in Serve mode (R444). -/
def State.serveMode (s : State) : Bool := s.odv Od.PACKAGE_MODE = 1

/-- A Distil job is armed. -/
def State.jobArmed (s : State) : Bool := s.job.active

/-- A Distil job or a Serve context is armed (suspended contexts included). -/
def State.anyArmed (s : State) : Bool := s.job.active || s.plats.any fun e => e.2.held

/-- Raise the error vector of a Platform's function (R502). -/
def State.raiseErr (s : State) (p : Nat) : State :=
  let x := s.plat p
  s.raise x.port (32 * x.vf)

/-! ### The sticky log and first-error capture (16) -/

/-- Set a bit of `STICKY_LOG`; a change from 0 to 1 raises the error vector of each physical function (R502, R540). -/
def State.sticky (s : State) (n : Nat) : State :=
  let v := s.odv Od.STICKY_LOG
  if bitOf v n then s
  else ((s.setOd Od.STICKY_LOG (v + 2 ^ n)).raise 0 0).raise 1 0

/-- An event for first-error capture (R541). -/
structure Event where
  cause : Nat
  island : Nat := 0xFFFF
  platform : Nat := 0xFFFF
  core : Nat := 0xFFFF
  slot : Nat := 0xFF
  cmd : Nat := 0
  detail : Nat := 0
  deriving DecidableEq, Repr

/-- First-error capture holds the first event since it was last cleared (R541). -/
def State.capture (s : State) (e : Event) : State :=
  if s.odv Od.FE_VALID = 1 then s
  else
    ((((((((((s.setOd Od.FE_VALID 1).setOd Od.FE_CAUSE e.cause).setOd Od.FE_ISLAND e.island).setOd
      Od.FE_PLATFORM e.platform).setOd Od.FE_CORE e.core).setOd Od.FE_SLOT e.slot).setOd
      Od.FE_CMD_INDEX e.cmd).setOd Od.FE_DETAIL e.detail).setOd Od.FE_STEP (s.odv Od.JOB_STEP)).setOd
      Od.FE_TIME_MS s.timeMs)

/-! ### Messages between packages (10) -/

def Message.kind (m : Message) : Nat := bitsOf m.header 0 8
def Message.vc (m : Message) : Nat := bitsOf m.header 8 2
def Message.dst (m : Message) : Nat := bitsOf m.header 16 10
def Message.src (m : Message) : Nat := bitsOf m.header 32 10
def Message.ttl (m : Message) : Nat := bitsOf m.header 44 4
def Message.epoch (m : Message) : Nat := bitsOf m.header 64 32
def Message.bytes (m : Message) : Nat := bitsOf m.header 96 32
def Message.dstAddr (m : Message) : Nat := bitsOf m.header 128 64
def Message.localAddr (m : Message) : Nat := bitsOf m.header 192 64
def Message.msgId (m : Message) : Nat := bitsOf m.header 256 32
def Message.ackMsg (m : Message) : Nat := bitsOf m.header 448 32
def Message.lcOp (m : Message) : Nat := bitsOf m.header 512 8

/-- The VC that carries a message kind (10, "Virtual channels and credits"). -/
def vcOfKind (k : Nat) : Nat :=
  if k = 2 then 1 else if k = 1 then 2 else if k = 7 then 3 else 0

def State.link (s : State) (p : Nat) : LinkPort := tabGet .empty s.links p
def State.setLink (s : State) (p : Nat) (l : LinkPort) : State := { s with links := tabSet s.links p l }

/-- The port's `LP_STATE` reads `ACTIVE`. -/
def State.linkActive (s : State) (p : Nat) : Bool := s.odv (Od.LP_STATE + 256 * p) = 3

def LinkPort.vc (l : LinkPort) (v : Nat) : LinkVc := tabGet .empty l.vcs v

/-- Queue a message on a VC of a port. -/
def State.sendOn (s : State) (p v : Nat) (m : Message) : State :=
  let l := s.link p
  s.setLink p { l with vcs := tabMod .empty l.vcs v fun c => { c with outbox := c.outbox ++ [m] } }

/-- The ports whose bits a mask sets. -/
def maskPorts (mask : Nat) : List Nat := (List.range 16).filter fun p => bitOf mask p

/-- The package's own ID. -/
def State.pkg (s : State) : Nat := s.odv Od.POD_PACKAGE_ID

/-- The entry of the committed Points for a package. -/
def State.pointsEntry (s : State) (d : Nat) : Nat := bitsOf s.points (32 * d) 32

/-- The port by which a message with identifier `k` leaves, among the `ACTIVE` ports of a mask (R360). -/
def State.choosePort (s : State) (mask k : Nat) : Option Nat :=
  let ps := (maskPorts mask).filter s.linkActive
  if ps.isEmpty then none else some (listGet 0 ps (k % ps.length))

/-- The next message identifier toward a package on a VC (`H_MSG_ID`). -/
def State.nextMsgId (s : State) (d v : Nat) : Nat := tabGet 0 s.msgIds (4 * d + v)

/-- Send a message of a kind toward a package through a mask of ports; `more` are its header fields beyond the
common ones. With no `ACTIVE` port in the mask nothing is sent. -/
def State.sendVia (s : State) (mask kind d : Nat) (more : List (Nat × Nat × Nat)) (data : List Byte) (crc : Nat) : State :=
  let v := vcOfKind kind
  let k := s.nextMsgId d v
  let h := fields ([(0, 8, kind), (8, 2, v), (16, 10, d), (32, 10, s.pkg), (44, 4, 15),
    (64, 32, s.odv Od.POINTS_EPOCH), (96, 32, data.length), (256, 32, k)] ++ more)
  match s.choosePort mask k with
  | none => s
  | some p =>
    { s with msgIds := tabSet s.msgIds (4 * d + v) ((k + 1) % 2 ^ 32) }.sendOn p v { header := h, data := data, crc := crc }

/-- Send a message toward a package by the committed Points (R360). -/
def State.sendTo (s : State) (kind d : Nat) (more : List (Nat × Nat × Nat)) (data : List Byte) (crc : Nat) : State :=
  s.sendVia (bitsOf (s.pointsEntry d) 0 16) kind d more data crc

/-- The port toward the parent in the Interlocking tree, if the package has an `ACTIVE` one (R365). -/
def State.upPort (s : State) : Option Nat :=
  ((maskPorts (s.odv Od.TREE_PARENT_MASK)).filter s.linkActive).head?

/-- The package at the other end of a port. -/
def State.peer (s : State) (p : Nat) : Nat := bitsOf (s.odv (Od.LP_PEER + 256 * p)) 0 16

/-- The lowest-numbered `ACTIVE` port toward each child package (R365). -/
def State.downPorts (s : State) : List Nat :=
  let ps := (maskPorts (s.odv Od.TREE_CHILD_MASK)).filter s.linkActive
  ps.filter fun p => !(ps.any fun q => q < p && s.peer q = s.peer p)

/-- Send a one-flit message over one hop of the tree. -/
def State.sendHop (s : State) (p kind : Nat) (more : List (Nat × Nat × Nat)) : State :=
  s.sendVia (2 ^ p) kind (s.peer p) more [] 0

/-- `JOB_FAULT` of R536: upward to the Terminus, from there down to every package of the job. -/
def State.sendJobFault (s : State) (origin cause : Nat) : State :=
  let body := [(512, 8, 3), (520, 10, origin), (544, 16, cause)]
  match s.upPort with
  | some p => s.sendHop p 6 body
  | none => s.downPorts.foldl (fun s p => s.sendHop p 6 body) s

/-! ### Cores and streams -/

def State.core (s : State) (c : Nat) : CoreState := tabGet .empty s.cores c
def State.setCore (s : State) (c : Nat) (x : CoreState) : State := { s with cores := tabSet s.cores c x }
def State.stream (s : State) (c i : Nat) : Stream := tabGet .empty (s.core c).streams i
def State.setStream (s : State) (c i : Nat) (x : Stream) : State :=
  s.setCore c { s.core c with streams := tabSet (s.core c).streams i x }

/-- Every core changed by a function. -/
def State.mapCores (s : State) (f : CoreState → CoreState) : State :=
  { s with cores := s.cores.map fun e => (e.1, f e.2) }

/-- Every stream of a Platform put into a state (4 when the Platform faulted, 6 when it is suspended). -/
def State.markStreams (s : State) (p st : Nat) : State :=
  s.mapCores fun c => { c with streams := c.streams.map fun e =>
    if e.2.platform = p then (e.1, { e.2 with state := st, waitCtr := 0, waitConsume := false, waitT := 0 }) else e }

/-- The streams of a Platform leave their slots. -/
def State.dropStreams (s : State) (p : Nat) : State :=
  s.mapCores fun c => { c with streams := c.streams.filter fun e => e.2.platform != p }

/-- The declaration of a counter of a Timetable core (08, "Counter declaration"). -/
def Image.ctrDecl (img : Image) (tcore k : Nat) : Option Nat :=
  match img.cores.find? (·.core = tcore) with
  | some c => tabFind c.counters k
  | none => none

def Image.shared (img : Image) (tcore k : Nat) : Bool :=
  match img.ctrDecl tcore k with
  | some d => bitOf d 59
  | none => false

/-- The counters that a Platform owns return to zero; shared ones keep their values (R271, R471). In Distil mode the
job owns every counter. -/
def State.zeroCounters (s : State) (p : Nat) : State :=
  let x := s.plat p
  match x.image with
  | none => s
  | some img =>
    if img.kind = .distil then s.mapCores fun c => { c with ctr := [] }
    else x.ctrMap.foldl (fun s e =>
      if img.shared (e.1 / 48) (e.1 % 48) then s
      else s.setCore (e.2 / 48) { s.core (e.2 / 48) with ctr := tabErase (s.core (e.2 / 48)).ctr (e.2 % 48) }) s

/-- A Platform's commands on their way are abandoned: they leave their queues, their signals do not fire, its barrier channels
start anew and its Junction slots are released (R271, R275, R471), with what its Junctions and arrays hold for it. -/
def State.abandon (s : State) (p : Nat) : State :=
  { s with
    moves := s.moves.filter fun o => o.it.platform != p
    dies := s.dies.map fun e => (e.1, { e.2 with
      slots := e.2.slots.filter fun x => x.2.platform != p
      waiting := e.2.waiting.filter fun x => x.platform != p
      inbox := e.2.inbox.filter fun x => x.platform != p
      bcast := e.2.bcast.filter fun x => x.1 / 2 ^ 37 != p
      issued := e.2.issued.filter fun x => x.1 / 2 ^ 96 != p
      areas := e.2.areas.filter fun x => x.1 != p })
    cores := s.cores.map fun e => (e.1, { e.2 with
      queue := e.2.queue.filter fun it => it.platform != p
      sig := e.2.sig.filter fun g => g.platform != p
      arrays := e.2.arrays.map fun a => (a.1, { a.2 with
        chain := a.2.chain.filter fun x => x.platform != p
        drain := a.2.drain.filter fun x => x.platform != p
        running := a.2.running.filter fun it => it.platform != p }) })
    channels := s.channels.filter fun e => s.serveMode && !bitOf (s.plat p).barChannels e.1 }

/-- The virtual times of share classes of which no Platform is armed are cleared, on every engine (R457). -/
def State.clearVtime (s : State) : State :=
  let live := fun q => s.plats.any fun e => e.2.held && e.2.share = q
  let s := s.mapCores fun c => { c with vtime := c.vtime.filter fun e => live (e.1 % 16) }
  { s with dies := s.dies.map fun e => (e.1, { e.2 with vtime := e.2.vtime.filter fun v => live v.1 }) }

/-- A Serve Platform faults (R270, R470): other Platforms continue. A `SERVICE` Platform that faults is no longer the armed one. -/
def State.faultPlatform (s : State) (p cause tcore slot cmd : Nat) : State :=
  let x := s.plat p
  if x.st = 3 || x.st = 0 then s
  else
    let s := (((s.markStreams p 4).zeroCounters p).abandon p).setPlat p
      { x with st := 3, suspending := false, fc := fields [(0, 16, cause), (16, 9, tcore), (25, 3, slot), (32, 24, cmd)] }
    let s := if s.odv Od.SERVICE_PLATFORM = p then s.setOd Od.SERVICE_PLATFORM 0xFFFF else s
    (((s.clearVtime.count Od.PLATFORM_FAULTS 1).count Od.JOB_FAULTS 1).sticky 12).raiseErr p

/-- The Distil job faults on this package (R270, R271, R538): every stream of it stops. `peer` tells that another
package reported the fault, so that nothing is sent back to where the fault came from. -/
def State.faultJobAs (s : State) (e : Event) (peer : Bool) : State :=
  if !s.job.active then s
  else
    let s := s.capture e
    let x := s.plat 0
    let s := (((s.markStreams 0 4).zeroCounters 0).abandon 0).setPlat 0
      { x with st := 3, fc := fields [(0, 16, e.cause), (16, 9, e.core), (25, 3, e.slot), (32, 24, e.cmd)] }
    let s := { s with
      job := { s.job with active := false, faulted := true, started := false, update := 0, studentHeld := false }
      red := { s.red with active := false }
      ckpt := { s.ckpt with snapshot := none, request := none, copy := none } }
    let s := ((s.count Od.JOB_FAULTS 1).sticky 12).raiseErr 0
    if peer then s else s.sendJobFault s.pkg e.cause

def State.faultJob (s : State) (e : Event) : State := s.faultJobAs e false

/-- A fault of the job or context that owns a Platform (R270): the event is captured, and the Distil job or the one
Serve context faults. -/
def State.faultOwner (s : State) (p tcore : Nat) (e : Event) : State :=
  if s.serveMode then
    (s.capture { e with platform := p }).faultPlatform p e.cause tcore e.slot e.cmd
  else s.faultJob { e with platform := 0 }

/-- A stream faults (R270). -/
def State.faultStream (s : State) (c i cause : Nat) : State :=
  let t := s.stream c i
  let s := s.setStream c i { t with state := 4, waitCtr := 0, waitConsume := false, waitT := 0 }
  s.faultOwner t.platform t.tcore { cause := cause, core := c, slot := i, cmd := t.cmd }

/-! ### Islands (02, 18) -/

def State.island (s : State) (i : Nat) : Island := tabGet .empty s.islands i
def State.setIsland (s : State) (i : Nat) (x : Island) : State := { s with islands := tabSet s.islands i x }

/-- A core island is in Umber: VIN_MAIN, its regulator or its sensor holds it there (R592, R593). -/
def State.inUmber (s : State) (c : Nat) : Bool :=
  s.power.low.contains (.rail 0) || s.power.low.contains (.regulator c) || (s.island c).umberThermal

/-- A core's clock in MHz: its profile's, or the floor in Umber (18, "Profiles"; R592). -/
def State.coreMHz (s : State) (c : Nat) : Nat :=
  if s.inUmber c then 1000 else match s.odv Od.POWER_PROFILE with
    | 0 => 4000
    | 1 => 3400
    | _ => 2600

/-- The islands of a logical core's work are running: its own, its die's Yard and its die's fabric (R46, R49). -/
def State.coreRuns (s : State) (c : Nat) : Bool :=
  !(s.island c).parked && !(s.island (0x2000 + c / 6)).parked && !(s.island (0x3000 + c / 6)).parked

/-- The main rails are up and the package is out of Doze. -/
def State.mainUp (s : State) : Bool := s.power.mainEn && s.power.vinGood && !s.power.doze && !s.power.warm

/-! ### Cause codes (16, "Fault causes") -/

def causeCmdRefused : Nat := 0x0101
def causeWaitRange : Nat := 0x0102
def causeBarrierMember : Nat := 0x0103
def causeBarrierTimeout : Nat := 0x0104
def causeBarrierLink : Nat := 0x0105
def causeHang : Nat := 0x0106
def causeSram : Nat := 0x0201
def causeHbm : Nat := 0x0202
def causeDdr5 : Nat := 0x0203
def causeSidingEcc : Nat := 0x0204
def causeReplayFail : Nat := 0x0301
def causeNotReplayable : Nat := 0x0302
def causeQuarantined : Nat := 0x0303
def causeTtReplay : Nat := 0x0304
def causeLabelRange : Nat := 0x0305
def causeJctUncorrected : Nat := 0x0306
def causeUpdStale : Nat := 0x0401
def causeUpdRange : Nat := 0x0402
def causeUpdSkipLimit : Nat := 0x0403
def causeUpdNonfinite : Nat := 0x0404
def causeUpdReplay : Nat := 0x0405
def causeLinkProtocol : Nat := 0x0501
def causeLinkCrc : Nat := 0x0502
def causeLinkProtected : Nat := 0x0503
def causeAccumForm : Nat := 0x0504
def causeLinkRoute : Nat := 0x0505
def causeRedTimeout : Nat := 0x0506
def causePeerFault : Nat := 0x0507
def causeDstInvalid : Nat := 0x0508
def causeParkLimit : Nat := 0x0601
def causeWatchdog : Nat := 0x0602
def causeControlMemory : Nat := 0x0603
def causeTeacherHash : Nat := 0x0604
def causeRestore : Nat := 0x0605
def causeParked : Nat := 0x0606

/-- The Platform whose channel it is: the Distil job, or the armed Platform to which it is allocated (R282). -/
def State.chanOwner (s : State) (ch : Nat) : Option Nat :=
  if s.job.active then some 0
  else (s.plats.find? fun e => e.2.held && bitOf e.2.barChannels ch).map (·.1)

end Sys2Proof.Machine
end

