-- ==== Sys2Proof/Machine/Sequencer.lean ====
section
/-! DEFINITION. Command words, the Signal box (R243 to R265) and the choice of the next command (R259, R454 to R461):
counters, waits, signals, mapping, and what a core's sequencer issues. -/

namespace Sys2Proof.Machine

open Sys2Proof

/-! ### The command header (08, "Command header") -/

def cmdBits (w : CmdWord) (lo len : Nat) : Nat := bitsOf w.toNat lo len
def cmdBit (w : CmdWord) (n : Nat) : Bool := bitOf w.toNat n
def opcodeOf (w : CmdWord) : Nat := cmdBits w 0 8
def preEn (w : CmdWord) : Bool := cmdBit w 8
def preConsume (w : CmdWord) : Bool := cmdBit w 9
def postEn (w : CmdWord) : Bool := cmdBit w 10
def preCtr (w : CmdWord) : Nat := cmdBits w 12 6
def postCtr (w : CmdWord) : Nat := cmdBits w 18 6
def postCore (w : CmdWord) : Nat := cmdBits w 24 9
def postN (w : CmdWord) : Nat := cmdBits w 33 15
def preT (w : CmdWord) : Nat := cmdBits w 96 32

/-- What a command word asks for: one kind for each row of Timetable commands, and the reserved encodings of each
opcode group. -/
inductive CmdKind where
  | sync | tileOut | tileIn | tileElem | tileReserved
  | moveCopy | moveTranspose | moveRequant | moveSpill | moveFill | moveReserved
  | rowNormF | rowNormB | rowAttS | rowAttB | rowDrop | rowSum | rowHid | rowGain | rowReserved
  | jctDistilS | jctDistilE | jctHintS | jctHintE | jctDraft | jctVerify | jctResidual | jctReserved
  | barrier | notify | rebase | stepEnd | streamEnd | place | reserved
  deriving DecidableEq, Repr

/-- The fields of the payload's control words. -/
def arrayCtl (w : CmdWord) : Nat := cmdBits w 128 64
def ttCtl (w : CmdWord) : Nat := cmdBits w 416 32
def sidingCtl (w : CmdWord) : Nat := cmdBits w 448 32
def rowOp (w : CmdWord) : Nat := cmdBits w 128 8
def jctCtl (w : CmdWord) : Nat := cmdBits w 128 64

def tileKind (w : CmdWord) : CmdKind :=
  match bitsOf (arrayCtl w) 0 2 with
  | 0 => .tileOut
  | 1 => .tileIn
  | 2 => .tileElem
  | _ => .tileReserved

def moveKind (w : CmdWord) : CmdKind :=
  match bitsOf (ttCtl w) 0 2, bitsOf (sidingCtl w) 0 2 with
  | 0, 0 => .moveCopy
  | 1, 0 => .moveTranspose
  | 2, 0 => .moveRequant
  | 0, 1 => .moveSpill
  | 0, 2 => .moveFill
  | _, _ => .moveReserved

def rowKind (w : CmdWord) : CmdKind :=
  match rowOp w with
  | 1 => .rowNormF
  | 2 => .rowNormB
  | 3 => .rowAttS
  | 4 => .rowAttB
  | 5 => .rowDrop
  | 6 => .rowSum
  | 7 => .rowHid
  | 8 => .rowGain
  | _ => .rowReserved

def jctKind (w : CmdWord) : CmdKind :=
  match bitsOf (jctCtl w) 0 2, bitsOf (jctCtl w) 2 2 with
  | 0, 0 => .jctDistilS
  | 0, 1 => .jctDistilE
  | 1, 0 => .jctHintS
  | 1, 1 => .jctHintE
  | 2, 0 => .jctDraft
  | 3, 0 => .jctVerify
  | 3, 2 => .jctResidual
  | _, _ => .jctReserved

def kindOf (w : CmdWord) : CmdKind :=
  match opcodeOf w with
  | 0 => .sync
  | 1 => tileKind w
  | 2 => moveKind w
  | 3 => rowKind w
  | 4 => jctKind w
  | 5 => .barrier
  | 6 => .notify
  | 7 => .rebase
  | 8 => .stepEnd
  | 9 => .streamEnd
  | 10 => .place
  | _ => .reserved

/-- The engine a command occupies: arrays 0 to 3, 4 the move engine, 5 the row unit, 6 the Junction, 7 none. -/
def engineOf (w : CmdWord) : Nat :=
  match opcodeOf w with
  | 1 => cmdBits w 192 2
  | 2 => 4
  | 3 => 5
  | 4 => 6
  | _ => 7

/-! ### Streams and their command arrays -/

def Image.stream (img : Image) (tcore slot : Nat) : Option StreamDecl :=
  match img.cores.find? (·.core = tcore) with
  | some c => c.streams.find? (·.slot = slot)
  | none => none

/-- The commands that bytes hold: 64 bytes each, every field least-significant byte first (R6; 08, "Commands"). -/
def commandsIn (code : List Byte) : List CmdWord :=
  (chunks 64 (code.length / 64) code).map fun b => BitVec.ofNat 512 (leNat b)

/-- A stream's commands in index order, and their division (R641). -/
def StreamDecl.cmds (d : StreamDecl) : List CmdWord := commandsIn d.code
def StreamDecl.prologue (d : StreamDecl) : List CmdWord := d.cmds.take d.bodyAt
def StreamDecl.body (d : StreamDecl) : List CmdWord := (d.cmds.take d.epilogueAt).drop d.bodyAt
def StreamDecl.epilogue (d : StreamDecl) : List CmdWord := d.cmds.drop d.epilogueAt

/-- The next command of a stream (R250). -/
def State.nextCmd (s : State) (c i : Nat) : Option CmdWord :=
  let t := s.stream c i
  match (s.plat t.platform).image with
  | none => none
  | some img =>
    match img.stream t.tcore t.tslot with
    | none => none
    | some d => (d.cmds.drop t.cmd).head?

/-- The counter of a logical core onto which counter `k` of a Timetable core is mapped (R269); in Distil mode the same
counter of the same core (R487). -/
def State.mapCtr (s : State) (p tcore k : Nat) : Option (Nat × Nat) :=
  let x := s.plat p
  match x.image with
  | none => none
  | some img =>
    match img.ctrDecl tcore k with
    | none => none
    | some _ =>
      if img.kind = .distil then some (tcore, k)
      else match tabFind x.ctrMap (48 * tcore + k) with
        | some v => some (v / 48, v % 48)
        | none => none

def ctrDeclared (img : Image) (tcore k : Nat) : Bool := k < 48 && (img.ctrDecl tcore k).isSome

/-- The header obeys R646 and no reserved bit is set (R10). -/
def headerOk (img : Image) (tcore : Nat) (w : CmdWord) : Bool :=
  !cmdBit w 11 && cmdBits w 48 48 = 0 &&
  (if preEn w then
     ctrDeclared img tcore (preCtr w) && (!preConsume w || (1 ≤ preT w && preT w < 2 ^ 31))
   else !preConsume w && preCtr w = 0 && preT w = 0) &&
  (if postEn w then
     let pc := if postCore w = 511 then tcore else postCore w
     (postCore w < 288 || postCore w = 511) && ctrDeclared img pc (postCtr w) && postN w != 0
   else postCtr w = 0 && postCore w = 0 && postN w = 0)

def State.headerOkAt (s : State) (c i : Nat) (w : CmdWord) : Bool :=
  let t := s.stream c i
  match (s.plat t.platform).image with
  | none => false
  | some img => headerOk img t.tcore w && (!postEn w ||
      (s.mapCtr t.platform (if postCore w = 511 then t.tcore else postCore w) (postCtr w)).isSome)

/-! ### Counters (R253 to R257) -/

def State.ctr (s : State) (c k : Nat) : Nat := tabGet 0 (s.core c).ctr k
def State.setCtr (s : State) (c k v : Nat) : State :=
  s.setCore c { s.core c with ctr := tabSet (s.core c).ctr k v }

/-- Serial-number comparison: C_k has reached T (R254, R256). -/
def reached (c t : Nat) : Bool := (c + 2 ^ 32 - t) % 2 ^ 32 < 2 ^ 31

/-- The raw threshold exceeds the counter by more than 2^31 (R255). -/
def outOfRange (c t : Nat) : Bool := c + 2 ^ 31 < t

/-- A class with nothing queued at an engine takes the larger of its own virtual time and the least among the classes
with queued work (R456). -/
def liftVtime (x : CoreState) (share eng : Nat) (others : List Nat) : CoreState :=
  match others with
  | [] => x
  | o :: os =>
    let vt := fun q => tabGet 0 x.vtime (16 * eng + q)
    let least := os.foldl (fun m q => Nat.min m (vt q)) (vt o)
    { x with vtime := tabSet x.vtime (16 * eng + share) (Nat.max (vt share) least) }

/-! ### Engine queues (R250) -/

/-- Entries of an engine's queue; a command keeps its entry until it completes (DESIGN CHOICE, log entry 15). -/
def engineEntries (e : Nat) : Nat := if e < 4 then 4 else if e = 4 then 16 else 8

/-- Commands issued to an engine of a core and not yet started, oldest first. -/
def CoreState.queuedOn (x : CoreState) (e : Nat) : List Issue := x.queue.filter fun it => engineOf it.w = e

/-- An array still drains a tile into the Junction. -/
def CoreState.draining (x : CoreState) (e : Nat) : Bool := e < 4 && (tabGet .empty x.arrays e).running.isSome

/-- Entries of an engine's queue in use: commands not started, a tile that still drains, moves on their way. -/
def State.entriesUsed (s : State) (c e : Nat) : Nat :=
  ((s.core c).queuedOn e).length + (if (s.core c).draining e then 1 else 0) +
  (if e = 4 then (s.moves.filter (·.it.core = c)).length else 0)

def State.engineFull (s : State) (c e : Nat) : Bool := e < 6 && engineEntries e ≤ s.entriesUsed c e

/-- The engine of a stream's next command. -/
def State.nextEngine (s : State) (c i : Nat) : Nat :=
  match s.nextCmd c i with
  | some w => engineOf w
  | none => 7

/-- A stream that may issue: ready, with a free entry at the engine of its next command (R250, R259). -/
def State.mayGo (s : State) (c i : Nat) : Bool := (s.stream c i).state = 1 && !s.engineFull c (s.nextEngine c i)

/-- Ready streams of a core whose next command targets an engine. -/
def State.readyOn (s : State) (c eng : Nat) : List Nat :=
  ((s.core c).streams.filter fun e => e.2.state = 1 &&
    (match s.nextCmd c e.1 with
     | some w => engineOf w = eng
     | none => false)).map (·.1)

/-- What waits for an engine of a core, as Platforms and the order in which their commands were ready: the commands in its
queue, and those of the streams ready to issue to it. -/
def State.waitersOn (s : State) (c eng : Nat) : List (Nat × Nat) :=
  (((s.core c).queuedOn eng).map fun it => (it.platform, it.seq)) ++
  ((s.readyOn c eng).map fun i => ((s.stream c i).platform, (s.stream c i).readySeq))

/-- A stream becomes ready to issue its next command; `prev` is the engine of the command it has just issued, if any. -/
def State.makeReady (s : State) (c i : Nat) (prev : Option Nat) : State :=
  let t := s.stream c i
  let eng := s.nextEngine c i
  let queued := (s.waitersOn c eng).map fun q => (s.plat q.1).share
  let share := (s.plat t.platform).share
  let x := s.core c
  let x := if s.serveMode && prev != some eng && eng < 6 && !queued.contains share then liftVtime x share eng queued else x
  let t' := { t with
    state := 1
    waitCtr := 0
    waitConsume := false
    waitT := 0
    readySeq := x.readySeq
    released := true }
  s.setCore c { x with readySeq := x.readySeq + 1, streams := tabSet x.streams i t' }

/-- Waiting streams of a core on a counter. -/
def State.waiters (s : State) (c k : Nat) (consume : Bool) : List Nat :=
  ((s.core c).streams.filter fun e => e.2.state = 2 && e.2.waitCtr = k && e.2.waitConsume = consume).map (·.1)

/-- The range check of every wait held on a counter (R255). -/
def State.checkRange (s : State) (c k : Nat) : State :=
  (s.waiters c k false ++ s.waiters c k true).foldl (fun s i =>
    if (s.stream c i).state = 2 && outOfRange (s.ctr c k) (s.stream c i).waitT then s.faultStream c i causeWaitRange
    else s) s

/-- Insertion by key, ascending; equal keys keep their order. -/
def insertBy (key : Nat → Nat) (x : Nat) : List Nat → List Nat
  | [] => [x]
  | y :: ys => if key x < key y then x :: y :: ys else y :: insertBy key x ys

def sortBy (key : Nat → Nat) : List Nat → List Nat
  | [] => []
  | x :: xs => insertBy key x (sortBy key xs)

/-- A counter has changed: the range check, then every satisfied threshold waiter is released, then consume waiters one
at a time in ascending Platform and slot, each tested again (R255, R257). -/
def State.settle (s : State) (c k : Nat) : State :=
  let s := s.checkRange c k
  let s := (s.waiters c k false).foldl (fun s i =>
    if (s.stream c i).state = 2 && reached (s.ctr c k) (s.stream c i).waitT then s.makeReady c i none else s) s
  let order := sortBy (fun i => 8 * (s.stream c i).platform + i) (s.waiters c k true)
  order.foldl (fun s i =>
    let t := s.stream c i
    if t.state = 2 && reached (s.ctr c k) t.waitT then
      ((s.setCtr c k ((s.ctr c k + 2 ^ 32 - t.waitT) % 2 ^ 32)).makeReady c i none).checkRange c k
    else s) s

/-- A signal adds `n` to a counter modulo 2^32 (R253). -/
def State.signal (s : State) (c k n : Nat) : State :=
  ((s.setCtr c k ((s.ctr c k + n) % 2 ^ 32)).count Od.SYNC_SIGNALS 1).settle c k

/-- Suspended, or being suspended (R462). -/
def Platform.away (x : Platform) : Bool := x.suspending || x.st = 2

/-- A stream reaches its next command: the wait of its header is tested at once (R254 to R256, R259). A stream of a
Platform that is suspended meanwhile stops there (R462). -/
def State.reach (s : State) (c i : Nat) (prev : Option Nat) : State :=
  let t := s.stream c i
  if (s.plat t.platform).away then s.setStream c i { t with state := 6 }
  else match s.nextCmd c i with
  | none => s.makeReady c i prev
  | some w =>
    if !preEn w || !s.headerOkAt c i w then s.makeReady c i prev
    else match s.mapCtr t.platform t.tcore (preCtr w) with
      | none => s.makeReady c i prev
      | some (_, k) =>
        let T := if preConsume w then preT w else (tabGet 0 t.bases (preCtr w) + preT w) % 2 ^ 32
        let v := s.ctr c k
        if outOfRange v T then s.faultStream c i causeWaitRange
        else if reached v T then
          (if preConsume w then
             ((s.setCtr c k ((v + 2 ^ 32 - T) % 2 ^ 32)).makeReady c i prev).checkRange c k
           else s.makeReady c i prev)
        else s.setStream c i { t with state := 2, waitCtr := k, waitConsume := preConsume w, waitT := T, hang := false }

/-- The stream goes on to the command after the one it has issued. -/
def State.advance (s : State) (c i : Nat) (eng : Nat) : State :=
  let t := s.stream c i
  if t.state = 4 then s
  else (s.setStream c i { t with cmd := t.cmd + 1, placed := none, hang := false, released := false }).reach c i (some eng)

/-- A signal on its way to another core's box, behind every earlier one (R261). -/
def State.queueSignal (s : State) (c : Nat) (g : Signal) : State :=
  s.setCore c { s.core c with sig := (s.core c).sig ++ [g] }

/-- The signal of a completed command (R251): to a counter of its own core at once, to another core's box behind every
earlier signal on its way there (R261). -/
def State.post (s : State) (p tcore : Nat) (c : Nat) (w : CmdWord) : State :=
  if !postEn w then s
  else match s.mapCtr p (if postCore w = 511 then tcore else postCore w) (postCtr w) with
    | none => s
    | some (c', k) =>
      if c' = c then s.signal c k (postN w)
      else s.queueSignal c' { ctr := k, n := postN w, platform := p, src := some c }

/-- Signals that a Signal box and the crossing before it hold: 64 queued, and 8 words of the crossing (R42, R261). -/
def signalRoom : Nat := 72

/-- A core whose signal has no room at its target's box is held (R261). -/
def State.signalHeld (s : State) (c : Nat) : Bool :=
  s.cores.any fun e => (e.2.sig.drop signalRoom).any fun g => g.src = some c

/-! ### Choosing the next command -/

/-- A core reserved for a latency class starts only commands of that class (R460). -/
def State.mayIssue (s : State) (c lat : Nat) : Bool :=
  match ([1, 2, 3].filter fun n => bitOf (s.odv (Od.RESERVED_CORES + (n - 1))) c) with
  | [] => true
  | n :: _ => lat = n

/-- Distil mode: the ready stream that follows the one that issued last, in ascending slot order (R259). -/
def State.pickDistil (s : State) (c : Nat) : Option Nat :=
  let x := s.core c
  ((List.range 8).map fun j => (x.lastSlot + 1 + j) % 8).find? fun i => s.mayGo c i

/-- The rank of R454 among the ready streams at an engine: smaller issues first. -/
def State.rank (s : State) (c eng i : Nat) : Nat :=
  let t := s.stream c i
  let x := s.plat t.platform
  let vt := if eng < 6 then tabGet 0 (s.core c).vtime (16 * eng + x.share) else 0
  let after := (t.platform + 1024 - (tabGet 1023 (s.core c).lastPlat eng + 1)) % 1024
  ((((3 - x.lat) * 2 ^ 80 + vt) * 16 + x.share) * 1024 + after) * 8 + i

/-- Serve mode: the stream that R454 chooses among those ready at an engine. -/
def State.pickServe (s : State) (c eng : Nat) : Option Nat :=
  let cand := (s.readyOn c eng).filter fun i => s.mayGo c i && s.mayIssue c (s.plat (s.stream c i).platform).lat
  (sortBy (s.rank c eng) cand).head?

/-- The next command of a stream as it would issue. -/
def State.issueOf (s : State) (c i : Nat) (w : CmdWord) : Issue :=
  let t := s.stream c i
  { core := c, slot := i, w := w, platform := t.platform, tcore := t.tcore, step := t.step, cmd := t.cmd, seq := t.readySeq,
    placed := t.placed }

/-- The islands of a core's work run, and no signal of the core waits for room (R46, R49, R261). -/
def State.coreActs (s : State) (c : Nat) : Bool := s.coreRuns c && !s.signalHeld c

/-- The command of one of `kinds` that the core's sequencer issues next, if the command it chooses is of such a kind. -/
def State.issue (s : State) (c : Nat) (kinds : List CmdKind) : Option Issue :=
  let take := fun (o : Option Nat) => match o with
    | none => none
    | some i => match s.nextCmd c i with
      | none => none
      | some w => if kinds.contains (kindOf w) then some (s.issueOf c i w) else none
  if !s.coreActs c then none
  else if s.serveMode then
    ((List.range 8).filterMap fun e => take (s.pickServe c e)).head?
  else take (s.pickDistil c)

/-- Units of 0.5 ns that `cycles` core cycles last at a core's clock (R469). -/
def State.halfNs (s : State) (c cycles : Nat) : Nat := cycles * 2000 / s.coreMHz c

/-- A command issues (R259, R454): its slot, and in Serve mode its Platform, has issued last. -/
def State.issued (s : State) (it : Issue) : State :=
  let x := s.core it.core
  let x := { x with lastSlot := it.slot }
  s.setCore it.core (if s.serveMode then { x with lastPlat := tabSet x.lastPlat (engineOf it.w) it.platform } else x)

/-- A command starts at an engine (R455, R456, R469): in Serve mode its class is charged, the overtaken are counted, and the
wait of the other Platforms' commands accrues. `cost` is the cost of R456, `cycles` the time the engine runs. -/
def State.start (s : State) (it : Issue) (cost cycles : Nat) : State :=
  if !s.serveMode then s
  else
    let c := it.core
    let e := engineOf it.w
    let pl := s.plat it.platform
    let x := s.core c
    let w := s.odv (Od.SHARE_WEIGHT + pl.share)
    let others := (s.waitersOn c e).filter fun q => q.1 != it.platform
    let s := s.setCore c { x with vtime := tabMod 0 x.vtime (16 * e + pl.share) (· + cost * 65536 / w) }
    let passed := others.filter fun q => (s.plat q.1).lat < pl.lat && q.2 < it.seq
    let s := if passed.isEmpty then s else s.count Od.SHARE_PREEMPTIONS 1
    let s := passed.foldl (fun s q => s.setPlat q.1 { s.plat q.1 with overtaken := (s.plat q.1).overtaken + 1 }) s
    let d := s.halfNs c cycles
    others.foldl (fun s q =>
      let y := s.plat q.1
      s.setPlat q.1 { y with
        waitOthers := y.waitOthers + d
        waitLatency := if y.lat < pl.lat then y.waitLatency + d else y.waitLatency }) s

/-- The stream of a command faults (R270), with the command's index. -/
def State.faultIssue (s : State) (it : Issue) (cause : Nat) : State :=
  let t := s.stream it.core it.slot
  let s := s.setStream it.core it.slot { t with state := 4, waitCtr := 0, waitConsume := false, waitT := 0 }
  s.faultOwner it.platform it.tcore { cause := cause, core := it.core, slot := it.slot, cmd := it.cmd }

/-- The command is refused at issue (R252). -/
def State.refuse (s : State) (it : Issue) : State := s.faultIssue it causeCmdRefused

/-- The stream of the command has faulted: nothing follows the command (R271). -/
def State.halted (s : State) (it : Issue) : Bool := (s.stream it.core it.slot).state = 4

/-! ### Completion, and the ends of jobs (R251, R260) -/

/-- Every stream of a Platform has left its slot and every command of it has completed (R260). -/
def State.finished (s : State) (p : Nat) : Bool :=
  (s.cores.all fun e => (e.2.streams.all fun t => t.2.platform != p || t.2.state = 5) && (e.2.queue.all fun it => it.platform != p) &&
    e.2.arrays.all fun a => match a.2.running with
      | some it => it.platform != p
      | none => true) &&
  (s.moves.all fun o => o.it.platform != p) &&
  (s.dies.all fun e => (e.2.slots.all fun x => x.2.platform != p) && e.2.waiting.all fun x => x.platform != p) &&
  (s.channels.all fun e => e.2.arrivals.all fun a => a.platform != p)

/-- The Distil job ends when it has finished: Platform 0 returns to `DISARMED` (R247). -/
def State.endJob (s : State) : State :=
  if s.job.active && s.finished 0 then
    let s := (s.dropStreams 0).setPlat 0 { s.plat 0 with st := 0, tainted := false }
    { s with job := { s.job with active := false, started := false } }.setOd Od.JOB_TAINTED 0
  else s

/-- A command that an engine has completed (R251): it signals, and the Distil job ends with its last command (R260). -/
def State.finish (s : State) (it : Issue) : State :=
  if s.halted it then s else (s.post it.platform it.tcore it.core it.w).endJob

/-- A command that runs on no engine has completed: it signals, and its stream goes on. -/
def State.complete (s : State) (it : Issue) : State :=
  if (s.stream it.core it.slot).state != 1 then s
  else (s.post it.platform it.tcore it.core it.w).advance it.core it.slot (engineOf it.w)

/-! ### The rows of the Timetable's commands -/

/-- The command that issues obeys R646 and its operands are not refused. -/
def State.accepts (s : State) (ok : State → Issue → Bool) (it : Issue) : Bool := s.headerOkAt it.core it.slot it.w && ok s it

/-- The effect of a command row that runs on no engine: nothing when the sequencer's next command is of another kind; a
refusal when its header breaks R646 or its operands are refused; otherwise its effect. -/
def State.runKind (s : State) (c : Nat) (kinds : List CmdKind) (ok : State → Issue → Bool) (run : State → Issue → State) : State :=
  match s.issue c kinds with
  | none => s
  | some it => if s.accepts ok it then run (s.issued it) it else s.refuse it

/-- The queued command that an engine starts next: the highest latency class first, then queue order (R455). -/
def State.headOf (s : State) (c e : Nat) : Option Issue :=
  ((s.core c).queuedOn e).foldl (fun b it => match b with
    | none => some it
    | some h => if (s.plat h.platform).lat < (s.plat it.platform).lat then some it else b) none

/-- The command of one of `kinds` that leaves an engine's queue now: the head of its engine's queue, if it can start. -/
def State.queuedStart (s : State) (c : Nat) (kinds : List CmdKind) (can : State → Issue → Bool) : Option Issue :=
  ((List.range 6).filterMap fun e =>
    if (s.core c).draining e then none
    else match s.headOf c e with
      | some it => if kinds.contains (kindOf it.w) && can s it then some it else none
      | none => none).head?

/-- A command leaves its engine's queue, or enters it. -/
def State.unqueue (s : State) (it : Issue) : State :=
  s.setCore it.core { s.core it.core with queue := (s.core it.core).queue.filter (· != it) }
def State.enqueue (s : State) (it : Issue) : State :=
  s.setCore it.core { s.core it.core with queue := (s.core it.core).queue ++ [it] }

/-- A command leaves its stream for its engine's queue; the stream goes on to its next command. -/
def State.leave (s : State) (it : Issue) : State := (s.issued it).advance it.core it.slot (engineOf it.w)

/-- The engine of a command is idle: nothing waits in its queue, and it drains no tile. -/
def State.engineIdle (s : State) (it : Issue) : Bool :=
  ((s.core it.core).queuedOn (engineOf it.w)).isEmpty && !(s.core it.core).draining (engineOf it.w)

/-- The effect of a command row that runs on an engine (R250, R455): the head of an engine's queue starts once it can;
otherwise the sequencer's next command issues, and starts at once where its engine is idle and it can. -/
def State.runEngine (s : State) (c : Nat) (kinds : List CmdKind) (ok can : State → Issue → Bool) (run : State → Issue → State) :
    State :=
  if !s.coreActs c then s
  else match s.queuedStart c kinds can with
    | some it => run (s.unqueue it) it
    | none =>
      match s.issue c kinds with
      | none => s
      | some it =>
        if !s.accepts ok it then s.refuse it
        else if s.engineIdle it && can s it then
          (if (s.leave it).halted it then s.leave it else run (s.leave it) it)
        else (s.leave it).enqueue it

end Sys2Proof.Machine
end

