-- ==== Sys2Proof/Machine/Records.lean ====
section
/-! DEFINITION. Host memory writes, completion records and what follows a record (R268, R496 to R502). -/

namespace Sys2Proof.Machine

open Sys2Proof

/-- Bytes written to host memory through a port by the work of a Platform: held while the link is down; once the hold has
ended, those of the port's own contexts are dropped, and those of the other port's stay held (R320 to R322, R326). -/
def State.hostPut (s : State) (owner p a : Nat) (bs : List Byte) : State :=
  let h := s.port p
  if h.linkUp then
    { s with hostMem := memPutAll s.hostMem a bs }.count Od.HOST_WRITE_BYTES bs.length
  else if h.downHeld && (s.plat owner).port = p then s
  else s.setPort p { h with heldWrites := h.heldWrites ++ [(owner, a, bs)] }

/-- Host-memory writes of a Platform's work that no link has acknowledged (R308). -/
def State.unflushed (s : State) (p : Nat) : Bool :=
  (s.port 0).heldWrites.any (·.1 = p) || (s.port 1).heldWrites.any (·.1 = p)

/-! ### Queues -/

def State.queue (s : State) (q : Nat) : Queue := tabGet .empty s.queues q
def State.setQueue (s : State) (q : Nat) (x : Queue) : State := { s with queues := tabSet s.queues q x }

/-- The Platform to which a hardware queue belongs (R449: the ranges of armed and suspended Platforms are disjoint). -/
def State.owner (s : State) (q : Nat) : Option Nat :=
  (s.plats.find? fun e => e.2.held && e.2.queueBase ≤ q && q < e.2.queueBase + e.2.queueCount).map (·.1)

/-- Records of a completion ring. -/
def Queue.ring (x : Queue) : Nat := 2 ^ x.cplLog2

/-- The ring holds as many unread records as it has places (R498). -/
def Queue.full (x : Queue) : Bool := x.cplTail = (x.cplHead + x.ring) % 2 ^ 32

/-- The 256 bits of a completion record (14, "Completion record"). -/
def recordBits (r : HeldRecord) (n ringSize epoch platform value : Nat) : Nat :=
  fields [(0, 8, r.kind), (8, 1, (n / ringSize + 1) % 2), (9, 1, r.scope), (10, 1, if r.lossy then 1 else 0),
    (11, 1, r.model), (16, 8, r.status), (32, 32, r.index), (64, 64, r.tag), (128, 32, value), (160, 16, epoch),
    (176, 10, platform), (192, 10, r.adapter)]

/-- A queue stops (R491, R495): the error vector of its function is raised (R502). -/
def State.stopQueue (s : State) (q code : Nat) : State :=
  let x := s.queue q
  if x.stopped then s
  else
    let s := s.setQueue q { x with stopped := true, stopCode := code }
    match s.owner q with
    | some p => s.raiseErr p
    | none => s

/-- Write a record to its place (R497) and let what waits for it follow: the counter signal, the interrupt, and the
`NOTIFY`'s own signal (R268, R496, R501). -/
def State.writeRecord (s : State) (q p : Nat) (r : HeldRecord) : State :=
  let x := s.queue q
  let pl := s.plat p
  let value := match r.valCtr with
    | some (c, k) => s.ctr c k
    | none => r.value
  let bits := recordBits r x.cplTail x.ring pl.epoch p value
  let s := s.hostPut p pl.port (bitsOf x.cplBase 0 56 + 32 * (x.cplTail % x.ring)) (leBytes 32 bits)
  let s := s.setQueue q { x with cplTail := (x.cplTail + 1) % 2 ^ 32 }
  let s := if r.kind = 1 then s.count Od.DESCRIPTORS_COMPLETED 1 else s
  let s := if r.scope = 1 then s.count Od.ALLPATHS_RECORDS 1 else s
  let s := if r.sigEn then
      (match s.mapCtr p r.sigCore r.sigCtr with
       | some (c, k) => s.signal c k r.sigN
       | none => s)
    else s
  let s := if r.irq then s.raise pl.port r.vector else s
  match r.post with
  | none => s
  | some (c, i, w) =>
    let t := s.stream c i
    if t.platform = p && (t.state = 1 || t.state = 3) then (s.post p t.tcore c w).advance c i 7 else s

/-- The next record to write and those that stay: a descriptor's record waits for those of earlier descriptors (R304). -/
def pickHeld (blocked : Bool) : List HeldRecord → Option (HeldRecord × List HeldRecord)
  | [] => none
  | r :: rest =>
    if r.wait || (blocked && r.kind = 1) then (pickHeld true rest).map fun x => (x.1, r :: x.2) else some (r, rest)

/-- The held record that the ring takes next, and the rest. -/
def Queue.nextHeld (x : Queue) : Option (HeldRecord × List HeldRecord) :=
  if x.full then none else pickHeld false x.held

/-- A record of a Platform waits: while the link of its port is down (R320); while its context is stopped, unless it is
the record of the re-arm (R324, R325); one with the all-paths scope until the context's writes are acknowledged on both
ports (R314). -/
def State.recordWaits (s : State) (p : Nat) (r : HeldRecord) : Bool :=
  !(s.port (s.plat p).port).linkUp || ((s.plat p).epochStopped && r.kind != 4) || (r.scope = 1 && s.unflushed p)

/-- One held record written while the ring has space and the record may be written. -/
def State.drainOne (s : State) (q p : Nat) : State :=
  match (s.queue q).nextHeld with
  | none => s
  | some r => if s.recordWaits p r.1 then s else (s.setQueue q { s.queue q with held := r.2 }).writeRecord q p r.1

/-- Held records are written in their original order while the ring has space (R498). -/
def State.drain (s : State) (q p n : Nat) : State := (List.range n).foldl (fun (s : State) _ => s.drainOne q p) s

/-- Records held for the queues of every Platform are written as far as they may be. -/
def State.drainAll (s : State) : State :=
  s.queues.foldl (fun s e => match s.owner e.1 with
    | some p => s.drain e.1 p e.2.held.length
    | none => s) s

/-- Hand a record to a queue's ring. A `NOTIFY` or `SERVE` record for a queue that is not enabled is discarded
(R499); one that finds the ring full is held and counted (R498); what a stopped context completes before its re-arm has no
record (R322), except a `NOTIFY`, which waits (R325; DESIGN CHOICE, log entry 94). -/
def State.pushRecord (s : State) (q p : Nat) (r : HeldRecord) : State :=
  let x := s.queue q
  if !x.enable && (r.kind = 2 || r.kind = 3) then
    let pl := s.plat p
    let s' := s.setPlat p { pl with recordDropped := true }
    if pl.recordDropped then s else s'.raiseErr p
  else if (s.plat p).epochStopped && r.kind != 2 && r.kind != 4 then s
  else
    let s := if x.full then s.count Od.RECORDS_HELD 1 else s
    (s.setQueue q { x with held := x.held ++ [r] }).drain q p (x.held.length + 1)

/-- A record with nothing after it. -/
def HeldRecord.plain (kind status index tag value : Nat) : HeldRecord :=
  { kind := kind, scope := 0, lossy := false, model := 0, status := status, index := index, tag := tag,
    value := value, adapter := 0, irq := false, vector := 0, sigEn := false, sigCore := 0, sigCtr := 0, sigN := 0,
    valCtr := none, wait := false, post := none }

/-- `RECORD_HELD` of a Platform's context page. -/
def State.recordHeld (s : State) (p : Nat) : Bool :=
  s.queues.any fun e => s.owner e.1 = some p && e.2.full && e.2.held.any fun r => !r.wait

end Sys2Proof.Machine
end

