-- ==== Sys2Proof/Machine/Operands.lean ====
section
/-! DEFINITION. Operand forms: die-local and device addresses, their checks and their protection (R294 to R298, R303,
R450, R467), reads and writes by engines, and uncorrected errors (R285, R290, R293, R630). -/

namespace Sys2Proof.Machine

open Sys2Proof

/-! ### Die-local and device addresses (09, "Addresses") -/

def GiB : Nat := 2 ^ 30
def coreStoreBytes : Nat := 0xC00000
def yardBytes : Nat := 0x1800000
def hbmBytes : Nat := 0xF000000000

def dlView (a : Nat) : Nat := bitsOf a 28 4
def dlCore (a : Nat) : Nat := bitsOf a 25 3
def dlOff (a : Nat) : Nat := bitsOf a 0 25

/-- Bytes from a die-local address to the end of its store, for a defined address. -/
def dlSpan (a : Nat) : Option Nat :=
  if dlView a = 8 then (if dlCore a = 0 && dlOff a < yardBytes then some (yardBytes - dlOff a) else none)
  else if dlView a < 4 then (if dlCore a < 6 && dlOff a < coreStoreBytes then some (coreStoreBytes - dlOff a) else none)
  else none

/-- The device address of a die-local address of a logical die. -/
def onDie (die dl : Nat) : Nat := 2 * 2 ^ 56 + die * 2 ^ 40 + dl

/-- A Yard offset of a logical die as a device address. -/
def yardAddr (die off : Nat) : Nat := onDie die (0x80000000 + off)

def regionOf (a : Nat) : Nat := a / 2 ^ 56
def dieOf (a : Nat) : Nat := bitsOf a 40 6

/-- Bytes of the installed DDR5 tier while it is active (R291). -/
def State.ddr5Bytes (s : State) : Nat :=
  if s.odv Od.DDR5_TIER_STATE = 1 then 16 * s.odv Od.DDR5_MODULE_GIB * GiB else 0

/-- Bytes from a device address of region 0x00, 0x01 or 0x02 to the end of its tier, for a defined address (R295). -/
def State.span (s : State) (a : Nat) : Option Nat :=
  match regionOf a with
  | 0 => if a < hbmBytes then some (hbmBytes - a) else none
  | 1 => let o := a - 2 ^ 56; if o < s.ddr5Bytes then some (s.ddr5Bytes - o) else none
  | 2 => if bitsOf a 46 10 = 0 && bitsOf a 32 8 = 0 && dieOf a < 48 then dlSpan (bitsOf a 0 32) else none
  | _ => none

/-- The `n` bytes at a device address lie within one tier. -/
def State.inTier (s : State) (a n : Nat) : Bool :=
  match s.span a with
  | some m => n ≤ m
  | none => false

/-- The `n` bytes at a die-local address lie within one natural view. -/
def dlIn (dl n : Nat) : Bool :=
  match dlSpan dl with
  | some m => n ≤ m && (dlView dl = 0 || dlView dl = 8)
  | none => false

/-- A Yard offset field: bits [31:25] zero and `n` bytes within the Yard. -/
def yardIn (off n : Nat) : Bool := off + n ≤ yardBytes

/-- Two non-empty ranges share a byte. -/
def overlap (a n b m : Nat) : Bool := 0 < n && 0 < m && a < b + m && b < a + n

/-! ### Protected ranges -/

/-- The checkpoint reserve (R294). -/
def State.inReserve (s : State) (a n : Nat) : Bool :=
  overlap a n (2 ^ 56 + s.odv Od.DDR5_RESERVE_BASE) (s.odv Od.DDR5_RESERVE_SIZE)

/-- A teacher image of the armed job (R303), or a model image granted to an armed or suspended Platform (R467). -/
def State.inImage (s : State) (a n : Nat) : Bool :=
  (s.job.active && overlap a n s.job.teacherBase s.job.teacherBytes) ||
  s.plats.any fun e => e.2.held && e.2.grants.any fun g => g.image && overlap a n g.base g.size

/-- The areas that serving holds (R449, R485): firmware area, KV pool, scale pages, summary area. -/
def State.servingAreas (s : State) : List (Nat × Nat) :=
  [(s.odv Od.SERVE_FW_BASE, s.odv Od.SERVE_FW_BYTES),
   (s.odv Od.KV_POOL_BASE, 65536 * s.odv Od.KV_POOL_PAGES),
   (s.odv Od.KV_SCALE_BASE, 2048 * s.odv Od.KV_POOL_PAGES),
   (s.odv Od.SUMMARY_BASE, s.odv Od.SUMMARY_SIZE)]

def State.inServing (s : State) (a n : Nat) : Bool :=
  s.servingAreas.any fun r => overlap a n r.1 r.2

/-- The logical die of a Timetable die: itself in Distil mode; in Serve mode the die on which the core map places its
cores (R451, R453). -/
def State.logicalDie (s : State) (p tdie : Nat) : Nat :=
  let x := s.plat p
  if s.serveMode then listGet 0 x.coreMap (6 * tdie) / 6 else tdie

/-- Yard ranges whose contents stay on the package's dies (R15 to R18): the rows that the loaded image and each armed
Platform's image declare as logit rows, and the retained areas and taps of the Junctions' commands. A range counts from its
command's start until its Platform's end (DESIGN CHOICE, log entry 93). -/
def State.confined (s : State) : List (Nat × Nat) :=
  let rows := fun (place : Nat → Nat) (img : Option Image) => match img with
    | none => []
    | some i => i.logitRows.map fun l => (yardAddr (place l.1) l.2.1, l.2.2)
  (if s.job.active then [] else rows id s.loaded) ++
  (s.plats.flatMap fun e => if e.2.held || (e.1 = 0 && s.job.active) then rows (s.logicalDie e.1) e.2.image else []) ++
  s.dies.flatMap fun e => e.2.areas.map fun a => (yardAddr e.1 a.2.1, a.2.2)

/-- One of the `n` bytes at an address lies in a confined range. -/
def State.inConfined (s : State) (a n : Nat) : Bool := s.confined.any fun r => overlap a n r.1 r.2

/-- A Platform's grants permit an access to the `n` bytes at a device address (R450). -/
def Platform.granted (x : Platform) (a n : Nat) (write : Bool) : Bool :=
  x.vf = 0 || x.grants.any fun g => (if write then g.write else g.read) && g.base ≤ a && a + n ≤ g.base + g.size

/-! ### Uncorrected errors -/

/-- The island that holds a byte: a core store or a Yard, an HBM stack's or a DDR5 channel's controller. -/
def islandOf (a : Nat) : Nat :=
  match regionOf a with
  | 0 => 0x5000 + a / 4096 % 16
  | 1 => 0x6000 + a / 4096 % 16
  | _ => if dlView (bitsOf a 0 32) = 8 then 0x2000 + dieOf a else 6 * dieOf a + dlCore a

/-- Record a repair for the next reset, once (R84, R287, 16 "Spare capacity"). -/
def State.record (s : State) (r : Repair) : State :=
  if s.depot.pending.contains r then s
  else
    let s := { s with depot := { s.depot with pending := s.depot.pending ++ [r] } }.count riskRepairs 1
    match r with
    | .hbmRow .. => s.setOd Od.HBM_RETIRE_PENDING (s.odv Od.HBM_RETIRE_PENDING + 1)
    | .hbmChannel .. => s.setOd Od.HBM_RETIRE_PENDING (s.odv Od.HBM_RETIRE_PENDING + 1)
    | _ => s.setOd Od.DEPOT_PENDING (s.odv Od.DEPOT_PENDING + 1)

/-- Rows of one HBM channel recorded in this reset period. -/
def Depot.rowsOf (d : Depot) (stack ch : Nat) : Nat :=
  (d.pending.filter fun r => match r with
    | .hbmRow s c _ => s = stack && c = ch
    | _ => false).length

/-- An HBM row recorded for retirement, and its channel with the third row of one reset period (R287). -/
def State.recordHbm (s : State) (st ch row : Nat) : State :=
  let s := s.record (.hbmRow st ch row)
  if s.depot.rowsOf st ch ≥ 3 then s.record (.hbmChannel st ch) else s

/-- An uncorrected error in an ECC word: the sticky bit, the retirement or repair it calls for, and the event for
first-error capture. -/
def State.uncorrected (s : State) (w : Nat) : State × Event :=
  match regionOf w with
  | 0 =>
    let g := w / 4096
    let st := g % 16
    let ch := (Config.hbmChannel g).toNat
    let row := (Config.hbmRow g).toNat
    ((s.sticky 14).recordHbm st ch row, { cause := causeHbm, island := islandOf w, detail := 32 * st + ch + row * 2 ^ 16 })
  | 1 => (s.sticky 15, { cause := causeDdr5, island := islandOf w, detail := w / 4096 % 16 })
  | _ =>
    let s := (s.sticky 13).record (.sramRow (islandOf w) (dlOff w / 128))
    let s := if dlView (bitsOf w 0 32) = 8 then s.record (.matrixDie (dieOf w)) else s
    (s, { cause := causeSram, island := islandOf w })

/-- An uncorrected error that an engine of the Distil job reads for no command of a stream (a Roundhouse, the reduction engine,
the checkpoint coder) faults the job; after its end the error is captured (R290, R293, R541). -/
def State.faultRead (s : State) (w : Nat) : State :=
  let r := s.uncorrected w
  if s.job.active then r.1.faultJob { r.2 with platform := 0 } else r.1.capture r.2

/-- The error in a word faults the job or context of the command that read it (R285, R290, R293). -/
def State.readError (s : State) (it : Issue) (w : Nat) : State :=
  let r := s.uncorrected w
  let s := r.1.setStream it.core it.slot { r.1.stream it.core it.slot with state := 4 }
  s.faultOwner it.platform it.tcore { r.2 with core := it.core, slot := it.slot, cmd := it.cmd }

/-- The page of the KV pool, with its scale page, that holds an address in Serve mode. -/
def State.kvPage (s : State) (a : Nat) : Option Nat :=
  let n := s.odv Od.KV_POOL_PAGES
  let page := fun (base size : Nat) => if base ≤ a && a < base + size * n then some ((a - base) / size) else none
  if !s.serveMode then none else (page (s.odv Od.KV_POOL_BASE) 65536).or (page (s.odv Od.KV_SCALE_BASE) 2048)

/-- An uncorrected error in a KV page ends every request that holds the page, and the context continues (R416). The
erroneous bytes are passed to nobody (R537): free values stand in the word. -/
def State.kvError (s : State) (w page : Nat) : State :=
  let r := s.uncorrected w
  let s := r.1.capture r.2
  let hit := fun (q : Request) => if q.slots.contains page || q.pages.contains page then { q with failed := true } else q
  { s with
    serving := { s.serving with requests := s.serving.requests.map hit }
    mem := memPutAll s.mem w ((fromTo s.fresh (eccLen w)).map Config.freeByte)
    fresh := s.fresh + eccLen w }

/-- The words of a list that no KV page holds, and the state after the errors in the others. -/
def State.kvErrors (s : State) : List Nat → State × List Nat
  | [] => (s, [])
  | w :: ws =>
    match s.kvPage w with
    | some n => (s.kvError w n).kvErrors ws
    | none => let r := s.kvErrors ws; (r.1, w :: r.2)

/-- Run an effect of a command unless one of the ranges it reads, or writes in part of an ECC word, shows an
uncorrected error, which faults its owner instead (R630), or in a KV page ends the requests that hold it. -/
def State.reading (s : State) (it : Issue) (reads writes : List (Nat × Nat)) (k : State → State) : State :=
  let bad := (reads.map fun r => badIn s.eccBad r.1 r.2).flatten ++ (writes.map fun r => badPartly s.eccBad r.1 r.2).flatten
  let r := s.kvErrors bad
  match r.2 with
  | w :: _ => r.1.readError it w
  | [] => k r.1

/-! ### The operands of a Timetable command -/

/-- The logical die on which a core lies. -/
def dieOfCore (c : Nat) : Nat := c / 6

/-- The core of a logical die that a die-local address of a command names: in Serve mode core index c of the Timetable
die is the logical core that the map gives it (DEDUCED from R453; log entry 21). -/
def State.placeDl (s : State) (p tdie dl : Nat) : Nat :=
  if s.serveMode && dlView dl < 4 then
    let lc := listGet 0 (s.plat p).coreMap (6 * tdie + dlCore dl) % 6
    dl - dlCore dl * 2 ^ 25 + lc * 2 ^ 25
  else dl

/-- A die-local operand of a command of `it`'s stream as a device address. -/
def State.dlAddr (s : State) (it : Issue) (dl : Nat) : Nat :=
  onDie (dieOfCore it.core) (s.placeDl it.platform (it.tcore / 6) dl)

/-- A device address of a command: a region 0x02 address names a Timetable die (R453). -/
def State.devAddr (s : State) (it : Issue) (a : Nat) : Nat :=
  if regionOf a = 2 then onDie (s.logicalDie it.platform (dieOf a)) (s.placeDl it.platform (dieOf a) (bitsOf a 0 32)) else a

/-- The Platform of the stream of an issue. -/
def State.issuer (s : State) (it : Issue) : Platform := s.plat it.platform

/-- A die-local operand of `n` bytes may be read (or written) by the command (R295, R450). -/
def State.dlOk (s : State) (it : Issue) (dl n : Nat) (write : Bool) : Bool :=
  dlIn dl n && (s.issuer it).granted (s.dlAddr it dl) n write &&
  !(write && s.inImage (s.dlAddr it dl) n)

/-- Bytes at a device address of region 0x00, 0x01 or 0x02. -/
def State.load (s : State) (a n : Nat) : List Byte := memBytes s.mem a n

/-- A 32-bit Yard word. -/
def State.yardWord (s : State) (die off : Nat) : Nat := leNat (s.load (yardAddr die off) 4)

end Sys2Proof.Machine
end

