-- ==== Sys2Proof/Machine/Scaling.lean ====
section
/-! DEFINITION. The scale table and delayed scaling (R118 to R125, R634, R635), and the conversion of a run of values
to an output format (R111, R118, R123). -/

namespace Sys2Proof.Machine

open Sys2Proof

/-- A device address that a Timetable names lies in an N8 tensor with a channel scale: one scale byte for each row along the
dimension other than K (R94). -/
def State.channelAt (s : State) (p a : Nat) : Bool :=
  match (s.plat p).image with
  | none => false
  | some img => img.tensors.any fun d => d.channel && d.addr ≤ a && a < d.addr + d.bytes

/-- Distinct entries. -/
def distinct : List Nat → Bool
  | [] => true
  | x :: xs => !xs.contains x && distinct xs

/-- Bytes of a scale-table entry (04, "Delayed scaling"). -/
def scaleEntryBytes : Nat := 272

/-- Bytes 0 to 15 of a scale-table entry pass R634. -/
def scaleEntryOk (w : Nat) : Bool :=
  !bitOf w 27 && !bitOf w 31 && bitsOf w 61 3 = 0 && bitsOf w 120 8 = 0 &&
  bitsOf w 24 3 != 5 && bitsOf w 24 3 != 6 && bitsOf w 28 3 != 7 &&
  bitsOf w 16 7 ≤ 64 && bitsOf w 54 7 ≤ 64 && bitsOf w 32 8 != 0x80 && bitsOf w 40 8 != 0x80 &&
  (bitsOf w 64 8 ≤ 63 || 192 ≤ bitsOf w 64 8)

/-- The entries that an image declares: address and bytes 0 to 15 of each. -/
def State.scaleHeads (s : State) (img : Image) : List (Nat × Nat) :=
  (List.range img.scaleEntries).map fun k =>
    let a := img.scaleTable + scaleEntryBytes * k
    (a, memNat s.mem a 16)

/-- The whole table passes R634: no two entries carry one tensor identifier. -/
def State.scaleTableOk (s : State) (img : Image) : Bool :=
  let es := s.scaleHeads img
  es.all (fun e => scaleEntryOk e.2) && distinct (es.map fun e => bitsOf e.2 0 16)

/-- The entries captured at an arm, by tensor identifier (R635). -/
def State.captureScales (s : State) (img : Image) : Tab (Nat × Nat) :=
  (s.scaleHeads img).foldl (fun t e => tabSet t (bitsOf e.2 0 16) e) []

/-! ### Fields of an entry (04, "Scale-table entry") -/

def seWindow (w : Nat) : Nat := bitsOf w 16 7
def seBlockCurrent (w : Nat) : Bool := bitOf w 23
def seMargin (w : Nat) : Nat := bitsOf w 24 3
def seFmt (w : Nat) : Nat := bitsOf w 28 3
def seInitExp (w : Nat) : Int := signedOf (bitsOf w 32 8) 8
def seCurExp (w : Nat) : Int := signedOf (bitsOf w 40 8) 8
def seHead (w : Nat) : Nat := bitsOf w 48 6
def seFilled (w : Nat) : Nat := bitsOf w 54 7
def seLrExp (w : Nat) : Int := signedOf (bitsOf w 64 8) 8

/-- The entry of a tensor that a Platform's arm captured: its address and its RW fields (R635). -/
def State.scaleEntry (s : State) (p tid : Nat) : Option (Nat × Nat) := tabFind (s.plat p).scales tid

/-- The RO fields of an entry as memory holds them. -/
def State.scaleRo (s : State) (addr : Nat) : Nat := memNat s.mem addr 16

/-- Headroom in binades of an entry (`MARGIN`). -/
def State.margin (s : State) (w : Nat) : Int :=
  ((if seMargin w = 7 then s.odv Od.SCALE_MARGIN_DEFAULT else seMargin w : Nat) : Int)

def clampSigma (x : Int) : Int := max (-127) (min 127 x)

/-- H of R119: the largest of the last min(`FILLED`, window) history slots, `HEAD` and downward modulo 64. -/
def State.histMax (s : State) (addr w ro : Nat) : Num :=
  let win := if seWindow w = 0 then s.odv Od.AMAX_WINDOW_DEFAULT else seWindow w
  finiteMax ((List.range (Nat.min (seFilled ro) win)).map fun k =>
    fmtW32.dec (memNat s.mem (addr + 16 + 4 * ((seHead ro + 64 - k) % 64)) 4))

/-- σ that the history gives (R119); nothing while `FILLED` or H is zero (R122). -/
def State.histSigma (s : State) (addr w : Nat) : Option Int :=
  let ro := s.scaleRo addr
  let h := s.histMax addr w ro
  if seFilled ro = 0 || h.isZero then none
  else some (clampSigma (h.log2 - fmtEmax (outFmt (seFmt w)) + s.margin w))

/-- Write the RO fields of an entry (R635). -/
def State.writeRo (s : State) (addr ro : Nat) : State :=
  let old := s.scaleRo addr
  let new := setBits (setBits old 40 21 (bitsOf ro 40 21)) 72 48 (bitsOf ro 72 48)
  s.put addr (leBytes 16 new)

/-- `CUR_EXP` takes the σ that the history now gives. -/
def State.refreshSigma (s : State) (addr w : Nat) : State :=
  match s.histSigma addr w with
  | none => s
  | some e => s.writeRo addr (setBits (s.scaleRo addr) 40 8 (unsignedOf e 8))

/-- One amax entered into the history of an entry (R120); in `BLOCK_CURRENT` mode the history is for statistics only (R123). -/
def State.enterHistory (s : State) (addr w step value : Nat) : State :=
  let ro := s.scaleRo addr
  let slot := if seFilled ro = 0 then 0 else (seHead ro + 1) % 64
  let s := s.put (addr + 16 + 4 * slot) (leBytes 4 value)
  let ro := setBits (setBits (setBits ro 48 6 slot) 54 7 (Nat.min 64 (seFilled ro + 1))) 72 48 step
  let s := s.writeRo addr ro
  if seBlockCurrent w then s else s.refreshSigma addr w

/-- An amax is kept by its step and its tensor until it enters the history. -/
def amaxKey (step tid : Nat) : Nat := step * 65536 + tid

/-- The amax of a tensor in a step, if one is kept, enters its history (R120). -/
def State.enterOne (s : State) (step tid : Nat) : State :=
  match tabFind s.job.amax (amaxKey step tid) with
  | none => s
  | some (v, _) =>
    let s := { s with job := { s.job with amax := tabErase s.job.amax (amaxKey step tid) } }
    match s.scaleEntry 0 tid with
    | none => s
    | some (addr, w) => s.enterHistory addr w step v

/-- The amaxes of a tensor in earlier steps enter the history before any conversion of it in this one (R120). -/
def State.enterAmax (s : State) (step tid : Nat) : State :=
  s.job.amax.foldl (fun s e => if e.1 % 65536 = tid && e.1 / 65536 < step then s.enterOne (e.1 / 65536) tid else s) s

/-- Every amax of a step before `step` enters its history. -/
def State.enterAllAmax (s : State) (step : Nat) : State :=
  s.job.amax.foldl (fun s e => if e.1 / 65536 < step then s.enterOne (e.1 / 65536) (e.1 % 65536) else s) s

def acOut (c : Nat) : Nat := bitsOf c 12 3
def acTensor (c : Nat) : Nat := bitsOf c 48 16

/-- A command converts values to a tensor: tiles, unless their outputs stay W32 (R75), Turntable moves and coded spills. -/
def convertsTo (w : CmdWord) (tid : Nat) : Bool :=
  match kindOf w with
  | .tileOut | .tileIn | .tileElem => acOut (arrayCtl w) != 0 && acTensor (arrayCtl w) = tid
  | .moveRequant => bitsOf (ttCtl w) 10 16 = tid
  | .moveSpill => bitsOf (sidingCtl w) 2 2 = 2 && bitsOf (sidingCtl w) 5 16 = tid
  | _ => false

/-- Conversions of a tensor in a step of the job: those of its step bodies, and in the first step those of the prologues
(DESIGN CHOICE, log entry 97); a restored job starts at its step body (R265). -/
def State.conversions (s : State) (step tid : Nat) : Nat :=
  let count := fun (l : List CmdWord) => (l.filter fun w => convertsTo w tid).length
  match (s.plat 0).image with
  | none => 0
  | some img => img.cores.foldl (fun n c => c.streams.foldl (fun n d =>
      n + count d.body + if step = 0 then count d.prologue else 0) n) 0

/-- A command's conversions of a tensor: their amax merges by maximum (R80, R120), and with the tensor's last conversion of
the step it enters the history. Serve mode records none (R124). -/
def State.recordAmax (s : State) (step tid : Nat) (x : Num) : State :=
  if s.serveMode then s
  else
    let old := tabGet (0, 0) s.job.amax (amaxKey step tid)
    let new := (toW ((fmtW32.dec old.1).max x)).toNat
    let s := { s with job := { s.job with amax := tabSet s.job.amax (amaxKey step tid) (new, old.2 + 1) } }
    if s.conversions step tid = old.2 + 1 then s.enterOne step tid else s

/-- The first σ of every entry of a Distil arm (R122): the history's, or `INIT_EXP` where it is empty. -/
def State.initScales (s : State) (p : Nat) : State :=
  (s.plat p).scales.foldl (fun s e =>
    let addr := e.2.1
    let w := e.2.2
    if seFilled w = 0 then s.writeRo addr (setBits (s.scaleRo addr) 40 8 (bitsOf w 32 8)) else s.refreshSigma addr w) s

/-- σ in force for a tensor in `DELAYED` mode. -/
def State.sigma (s : State) (p tid : Nat) : Int :=
  match s.scaleEntry p tid with
  | none => 0
  | some (addr, _) => seCurExp (s.scaleRo addr)

/-! ### Converting a run of output elements -/

/-- One output element: its element offset, the offset of its block's scale byte, its exact value and its rounding. -/
structure OutElem where
  off : Nat
  soff : Nat
  x : Num
  r : Rounding
  deriving DecidableEq, Repr

/-- What a conversion writes and counts. -/
structure OutRun where
  codes : List (Nat × Nat)
  /-- How many codes come before each block. -/
  starts : List Nat
  scales : List (Nat × Byte)
  tally : Tally
  deriving DecidableEq, Repr

/-- How the blocks of an output take their scale. -/
structure ScaleMode where
  blockCurrent : Bool
  margin : Int
  sigma : Int
  deriving DecidableEq, Repr

/-- The first occurrences of a list of numbers. -/
def dedup (l : List Nat) : List Nat := l.foldl (fun a x => if a.contains x then a else a ++ [x]) []

/-- σ of one block: its own in `BLOCK_CURRENT` mode (R123), a block of zeros taking the byte 0x00; else the tensor's. A σ of its
own is clamped to −127 to 127, the values that a scale byte holds, as R119 clamps the tensor's (DESIGN CHOICE, log entry 100). -/
def ScaleMode.of (m : ScaleMode) (f : Nat) (xs : List Num) : Int :=
  if m.blockCurrent then
    let a := finiteMax xs
    if a.isZero then -127 else clampSigma (a.log2 - fmtEmax f + m.margin)
  else m.sigma

/-- Convert output elements to a format, block by block (R111, R112, R123); `cls` is the class that counts them. -/
def convRun (cls f : Nat) (m : ScaleMode) (es : List OutElem) : OutRun :=
  if fmtScaled f then
    (dedup (es.map (·.soff))).foldl (fun o so =>
      let blk := es.filter (·.soff = so)
      let r := convBlock f (m.of f (blk.map (·.x))) (blk.map fun e => (e.x, e.r))
      { starts := o.starts ++ [o.codes.length]
        codes := o.codes ++ (blk.zip r.2).map fun q => (q.1.off, q.2.bits)
        scales := o.scales ++ [(so, r.1)]
        tally := o.tally.convs cls f r.2 }) { codes := [], starts := [], scales := [], tally := [] }
  else
    let cs := es.map fun e => (e.off, convElem f e.r e.x)
    { codes := cs.map fun c => (c.1, c.2.bits)
      starts := []
      scales := []
      tally := Tally.convs [] cls f (cs.map (·.2)) }

/-- The first `n` codes of a run, with the scales of the blocks that they begin. -/
def OutRun.cut (o : OutRun) (n : Nat) : OutRun :=
  { o with codes := o.codes.take n, scales := ((o.scales.zip o.starts).filter fun q => q.2 < n).map (·.1) }

/-- The scale mode of a tensor whose conversion finds its entry. -/
def State.scaleMode (s : State) (p tid : Nat) : ScaleMode :=
  match s.scaleEntry p tid with
  | none => { blockCurrent := false, margin := 0, sigma := 0 }
  | some (_, w) => { blockCurrent := seBlockCurrent w, margin := s.margin w, sigma := s.sigma p tid }

/-- A converting unit finds an entry for the tensor in its output format (R118). -/
def State.entryFor (s : State) (p tid outCode : Nat) : Bool :=
  match s.scaleEntry p tid with
  | some (_, w) => seFmt w = outCode
  | none => false

/-- A non-finite value of a gradient class sets the window's detector (R221) and counts its step once, in the statistics period
in which its first such value is committed, also where the step goes on into the next period (DESIGN CHOICE, log entry 100). -/
def State.gradNonfinite (s : State) : State :=
  if !s.job.active then s
  else
    let step := s.odv Od.JOB_STEP
    let s' := { s with job := { s.job with nonfinite := true, nonfStep := some step } }
    if s.job.nonfStep = some step then s' else s'.count Od.NUM_NONFINITE_STEPS 1

/-- Counts enter the statistics (R127, R128). -/
def State.commit (s : State) (t : Tally) : State :=
  t.foldl (fun s e =>
    let cls := e.1 / 32
    let s := s.count (Od.NUM_COUNT + 256 * cls + e.1 % 32) e.2
    if e.1 % 4 = 3 && (cls = 4 || cls = 5) then s.gradNonfinite else s) s

/-- The half bytes, counted from address 0, that a code of a packed array lies in. -/
def codeSpan (f a i : Nat) : List Nat := fromTo (2 * a + fmtBits f * i / 4) (fmtBits f / 4)

/-- Every half byte of an ECC word is among those written, so that the write leaves its check bits right (R630). -/
def eccCovered (w : Nat) (written : List Nat) : Bool := (fromTo (2 * w) (2 * eccLen w)).all written.contains

/-- Write packed codes from a device address (R93). -/
def State.putCodes (s : State) (f a : Nat) (codes : List (Nat × Nat)) : State :=
  let s' := codes.foldl (fun s c =>
    (codeBytes f (fun i => memGet s.mem (a + i)) c.1 c.2).foldl (fun s b =>
      { s with mem := memPut s.mem (a + b.1) b.2 }) s) s
  { s' with eccBad := s'.eccBad.filter fun w => !(eccCovered w (codes.flatMap fun c => codeSpan f a c.1)) }

/-- Write scale bytes from a device address. -/
def State.putScales (s : State) (a : Nat) (scales : List (Nat × Byte)) : State :=
  let s' := scales.foldl (fun s c => { s with mem := memPut s.mem (a + c.1) c.2 }) s
  { s' with eccBad := s'.eccBad.filter fun w => !(eccCovered w (scales.flatMap fun c => [2 * (a + c.1), 2 * (a + c.1) + 1])) }

end Sys2Proof.Machine
end

