-- ==== Sys2Proof/Machine/JctFold.lean ====
section
/-! DEFINITION. The Junction at work (R133 to R173): shares, input buffers and the arrays that feed them, the fold of slices
into row states, and the completion of commands. -/

namespace Sys2Proof.Machine

open Sys2Proof

def State.die (s : State) (d : Nat) : DieState := tabGet .empty s.dies d
def State.setDie (s : State) (d : Nat) (x : DieState) : State := { s with dies := tabSet s.dies d x }

/-! ### Fields of `JCT_CTL` and of the parameter block (05) -/

def jcFn (c : Nat) : Nat := bitsOf c 0 2
def jcPass (c : Nat) : Nat := bitsOf c 2 2
def jcRetain (c : Nat) : Bool := bitOf c 4
def jcSparse (c : Nat) : Nat := bitsOf c 5 2
def jcGreedy (c : Nat) : Bool := bitOf c 7
def jcTaps (c : Nat) : Nat := bitsOf c 8 4
def jcTFmt (c : Nat) : Nat := if bitOf c 12 then 5 else 6
def jcSFmt (c : Nat) : Nat := if bitOf c 13 then 5 else 6
def jcRows (c : Nat) : Nat := bitsOf c 16 13
def jcVocab (c : Nat) : Nat := bitsOf c 32 20 + 1
def jcDies (c : Nat) : Nat := bitsOf c 52 6 + 1
def jcDepth (c : Nat) : Nat := bitsOf c 58 4

/-- k of sparse targets: 64 or 256. -/
def jcK (c : Nat) : Nat := if jcSparse c = 1 then 64 else if jcSparse c = 2 then 256 else 0

def jpT (p : Nat) : W32 := BitVec.ofNat 32 (bitsOf p 0 32)
def jpAlpha (p : Nat) : W32 := BitVec.ofNat 32 (bitsOf p 32 32)
def jpLabel (p : Nat) : Nat := bitsOf p 64 32
def jpOutRows (p : Nat) : Nat := bitsOf p 96 32
def jpOutGrad (p : Nat) : Nat := bitsOf p 128 32
def jpRetOff (p : Nat) : Nat := bitsOf p 160 32
def jpRetBytes (p : Nat) : Nat := bitsOf p 192 32
def jpHint (p : Nat) : Nat := bitsOf p 224 32
def jpReq (p : Nat) : Nat := bitsOf p 256 32

def JctCmd.ctl (c : JctCmd) : Nat := jctCtl c.w

/-- The share of Junction j: its first entry and the entry after its last (R133, R134). -/
def jctShare (V D j : Nat) : Nat × Nat :=
  let n := ceilDiv V 128
  (Nat.min V (128 * (j * n / D)), Nat.min V (128 * ((j + 1) * n / D)))

def JctCmd.lo (c : JctCmd) : Nat := (jctShare (jcVocab c.ctl) (jcDies c.ctl) c.j).1
def JctCmd.len (c : JctCmd) : Nat :=
  let r := jctShare (jcVocab c.ctl) (jcDies c.ctl) c.j
  r.2 - r.1
def JctCmd.slices (c : JctCmd) : Nat := ceilDiv c.len 64

/-- A softmax row: every function but HINT. -/
def jcSoft (c : Nat) : Bool := jcFn c != 1

/-- Rows of one conversation of a VERIFY or RESIDUAL command. -/
def jcConv (c : Nat) : Nat := jcDepth c + 1

/-- A COS tap, as its tap table entry on this die says. -/
def State.tapEntry (s : State) (die : Nat) (param t : Nat) : Nat := leNat (s.load (yardAddr die (jpHint param + 16 * t)) 16)

def State.jctCos (s : State) (die : Nat) (c : JctCmd) : Bool := bitOf (s.tapEntry die c.param (jcTaps c.ctl)) 96
def State.jctBeta (s : State) (die : Nat) (c : JctCmd) : W32 :=
  BitVec.ofNat 32 (bitsOf (s.tapEntry die c.param (jcTaps c.ctl)) 64 32)

/-- The label word of a row and the gradient scale (05, "Label buffer"). -/
def State.label (s : State) (die : Nat) (c : JctCmd) (row : Nat) : Nat := s.yardWord die (jpLabel c.param + 16 + 4 * row)
def State.gradScale (s : State) (die : Nat) (c : JctCmd) : W32 := BitVec.ofNat 32 (s.yardWord die (jpLabel c.param))

/-- A die-local address of a Junction command's parameter block as a device address. -/
def State.jctAddr (s : State) (die : Nat) (c : JctCmd) (dl : Nat) : Nat := onDie die (s.placeDl c.platform (c.tcore / 6) dl)

/-- The home of a row (R143, R166). -/
def JctCmd.home_of (c : JctCmd) (row : Nat) : Nat :=
  if jcFn c.ctl = 3 then row / jcConv c.ctl % jcDies c.ctl else row % jcDies c.ctl

/-- A row whose slices the command consumes (R167: a RESIDUAL command has no student tiles of row k). -/
def JctCmd.consumes (c : JctCmd) (row : Nat) : Bool :=
  !(jcFn c.ctl = 3 && jcPass c.ctl = 2 && row % jcConv c.ctl = jcDepth c.ctl)

def statKey (platform retOff row : Nat) : Nat := (platform * 2 ^ 25 + retOff) * 4096 + row

/-- The broadcast statistics of a row that this Junction holds. -/
def State.jctStat (s : State) (die : Nat) (c : JctCmd) (row : Nat) : Option JctStats :=
  tabFind (s.die die).bcast (statKey c.platform (jpRetOff c.param) row)

/-! ### The retained area (R147, R148, R154, R173; its layout is DESIGN CHOICE, log entry 31) -/

/-- Where the command keeps a row's slices, offsets from `RETAIN_OFF`: the teacher entries, or in sparse mode the candidate
list, and the student entries. -/
def retainAt (ctl len row : Nat) : Nat × Nat :=
  let bt := fmtBits (jcTFmt ctl) / 8
  let bs := fmtBits (jcSFmt ctl) / 8
  let base := 64 * jcRows ctl
  if jcFn ctl = 3 then
    let r := row / jcConv ctl * jcDepth ctl + row % jcConv ctl
    (base + r * len * bt, 0)
  else if jcSparse ctl != 0 then
    let a := base + row * (12 * jcK ctl + len * bs)
    (a, a + 12 * jcK ctl)
  else
    let a := base + row * len * (bt + bs)
    (a, a + len * bt)

/-- Where a row's kept slices begin, from `RETAIN_OFF`; the row states come first. -/
def JctCmd.retainRow (c : JctCmd) (row : Nat) : Nat := (retainAt c.ctl c.len row).1

/-- Bytes of retained area that a command needs on a Junction whose share is `len` entries (R148, R154, R173). -/
def retainNeed (ctl len : Nat) : Nat :=
  let bt := fmtBits (jcTFmt ctl) / 8
  let bs := fmtBits (jcSFmt ctl) / 8
  let rows := jcRows ctl
  if !jcRetain ctl then rows * 64
  else if jcFn ctl = 3 then rows * 64 + rows / jcConv ctl * jcDepth ctl * len * bt
  else if jcSparse ctl != 0 then rows * (64 + len * bs + 12 * jcK ctl)
  else rows * (64 + len * (bt + bs))

/-- The bits in which a W32 value that arrived in a format is stored: a B16 value widened exactly narrows exactly. -/
def narrowBits (f : Nat) (x : W32) : Nat := if f = 5 then x.toNat / 2 ^ 16 else x.toNat

/-- A retained entry read back. -/
def State.retained (s : State) (die : Nat) (c : JctCmd) (off f i : Nat) : W32 :=
  let n := fmtBits f / 8
  let b := leNat (s.load (yardAddr die (jpRetOff c.param + off + n * i)) n)
  if f = 5 then widenB16 (BitVec.ofNat 16 b) else BitVec.ofNat 32 b

/-! ### Input buffers (R132, R135) -/

/-- Take the oldest value of an entry from an input buffer. -/
def takeOne (p st row col : Nat) : List JctIn → Option (JctIn × List JctIn)
  | [] => none
  | x :: xs =>
    if x.platform = p && x.stream = st && x.row = row && x.col = col then some (x, xs)
    else match takeOne p st row col xs with
      | some r => some (r.1, x :: r.2)
      | none => none

/-- Take `n` entries from `col` on, or nothing while one is missing. -/
def takeRun (p st row : Nat) : Nat → Nat → List JctIn → Option (List JctIn × List JctIn)
  | 0, _, l => some ([], l)
  | n + 1, col, l =>
    match takeOne p st row col l with
    | none => none
    | some r => match takeRun p st row n (col + 1) r.2 with
      | none => none
      | some q => some (r.1 :: q.1, q.2)

/-- Bytes that wait in the input buffer of a stream. -/
def inboxBytes (l : List JctIn) (st : Nat) : Nat :=
  (l.filter (·.stream = st)).foldl (fun n x => n + fmtBits x.fmt / 8) 0

/-- Bytes of an input buffer (R135). -/
def inboxLimit : Nat := 262144

/-- The function that a row's stream of a command reads: teacher entries, student entries. -/
def needsTeacher (ctl : Nat) : Bool :=
  match jcFn ctl, jcPass ctl with
  | 0, 0 => true
  | 0, 1 => jcSparse ctl = 0
  | 3, 0 => true
  | 3, 2 => !jcRetain ctl
  | _, _ => false

def needsStudent (ctl : Nat) : Bool :=
  match jcFn ctl, jcPass ctl with
  | 3, 0 => false
  | _, _ => true

/-- Non-finite inputs counted in class `LOGIT`, in the format in which they arrived (R159). -/
def countInputs (l : List JctIn) : Tally :=
  l.foldl (fun t x => if fisFin x.value then t else t.add 6 x.fmt 3 1) []

/-- The slice pair (or single slice) `i` of a row, taken from the buffers. Values that arrived in another format than the
command's are folded as they came, and retained cut to the command's format: the manual states only that they arrive in it
(DESIGN CHOICE, log entry 101). -/
def State.takeSlice (s : State) (die : Nat) (c : JctCmd) (row i : Nat) : Option (List JctIn × List JctIn × State) :=
  let col := c.lo + 64 * i
  let n := Nat.min 64 (c.len - 64 * i)
  let d := s.die die
  let t := if needsTeacher c.ctl then takeRun c.platform 0 row n col d.inbox else some ([], d.inbox)
  match t with
  | none => none
  | some (ts, rest) =>
    let u := if needsStudent c.ctl then takeRun c.platform 1 row n col rest else some ([], rest)
    match u with
    | none => none
    | some (ss, rest) =>
      some (ts, ss, (s.setDie die { d with inbox := rest }).commit (countInputs (ts ++ ss)))

/-- Store W32 values in a format in the Yard, from an offset. -/
def State.putVals (s : State) (die off f : Nat) (xs : List W32) : State :=
  s.put (yardAddr die off) (xs.flatMap fun (x : W32) => leBytes (fmtBits f / 8) (narrowBits f x))

/-! ### The fold of one slice -/

/-- B16 gradient entries written from entry `i` of a row on, with their counts (R159). -/
def State.putGrad (s : State) (die : Nat) (c : JctCmd) (row i : Nat) (cs : List Conv) : State :=
  let a := s.jctAddr die c (jpOutGrad c.param) + 2 * (row * c.len + i)
  (s.put a (cs.flatMap fun x => leBytes 2 x.bits)).commit (Tally.convs [] 4 5 cs)

/-- Teacher hidden values of a tap from entry `i` of a row on. -/
def State.hidden (s : State) (die : Nat) (c : JctCmd) (row i n : Nat) : List W32 :=
  let off := bitsOf (s.tapEntry die c.param (jcTaps c.ctl)) 0 32
  (List.range n).map fun k =>
    widenB16 (BitVec.ofNat 16 (leNat (s.load (yardAddr die (off + 2 * (row * c.len + i + k))) 2)))

/-- The position that a serving row decides (R164 to R166). -/
def State.rowPos (s : State) (homeDie : Nat) (c : JctCmd) (row : Nat) : Nat × Nat :=
  let conv := if jcFn c.ctl = 2 then row else row / jcConv c.ctl
  let rec_ := leNat (s.load (yardAddr homeDie (jpReq c.param + 256 * conv)) 16)
  (bitsOf rec_ 0 64, bitsOf rec_ 64 44 + (if jcFn c.ctl = 2 then jcDepth c.ctl else row % jcConv c.ctl))

/-- Draft record i of a conversation: token, qx, MS and RS (05, "Acceptance record"). -/
def State.draftRec (s : State) (homeDie : Nat) (c : JctCmd) (conv i : Nat) : Nat :=
  leNat (s.load (yardAddr homeDie (jpReq c.param + 256 * conv + 16 + 16 * i)) 16)

/-- The logical die of Junction j of a command. -/
def State.jctDie (s : State) (c : JctCmd) (j : Nat) : Nat := s.logicalDie c.platform j

/-- The verification result of a conversation, at its home. -/
def State.resultAddr (s : State) (homeDie : Nat) (c : JctCmd) (conv : Nat) : Nat :=
  s.jctAddr homeDie c (jpOutRows c.param) + 8 * conv

/-- The row of a conversation that a RESIDUAL command acts on: the pending row, if the result is pending (R167). -/
def State.pendingRow (s : State) (homeDie : Nat) (c : JctCmd) (conv : Nat) : Option Nat :=
  let r := leNat (s.load (s.resultAddr homeDie c conv) 8)
  if bitOf r 4 then some (conv * jcConv c.ctl + bitsOf r 0 4) else none

/-- A candidate as the retained area holds it: its index, z_t and z_s (R151, R154). -/
def candBytes (c : Nat × W32 × W32) : List Byte := leBytes 4 c.1 ++ leBytes 4 c.2.1.toNat ++ leBytes 4 c.2.2.toNat

/-- A slice kept in the retained area (R147, R154, R173). -/
def State.keep (s : State) (die : Nat) (c : JctCmd) (row at_ : Nat) (zt zs : List W32) : State :=
  let r := retainAt c.ctl c.len row
  let f := jcTFmt c.ctl
  let g := jcSFmt c.ctl
  let off := jpRetOff c.param
  let s := if jcSparse c.ctl = 0 then s.putVals die (off + r.1 + at_ * (fmtBits f / 8)) f zt else s
  s.putVals die (off + r.2 + at_ * (fmtBits g / 8)) g zs

/-- Fold one slice into a row's partial (R135 and the pseudocode of "The online pass"; R151, R155, R156, R165 to R167). -/
def State.foldRow (s : State) (die : Nat) (c : JctCmd) (row i : Nat) (ts ss : List JctIn) : State × JctPart :=
  let ctl := c.ctl
  let k := jctConst (jpT c.param) (jpAlpha c.param)
  let old := tabGet { JctPart.empty with words := if jcSoft ctl then rowStart else tapStart } c.rows row
  let zt := ts.map (·.value)
  let zs := ss.map (·.value)
  let a := zt.map fun x => fmul x k.invT
  let b := zs.map fun x => fmul x k.invT
  let n := Nat.max zt.length zs.length
  let at_ := 64 * i
  let col := c.lo + at_
  let off := jpRetOff c.param
  let bad := (zt ++ zs).any fun x => !fisFin x
  let fl := if bad then old.flags ||| 2 else old.flags
  match jcFn ctl, jcPass ctl with
  | 0, 0 =>
    let w := foldHard (foldStudent (foldTeacher old.words a b (if jcSparse ctl = 0 then b else [])) b) zs
    let lab := lblLabel (s.label die c row)
    let seen := col ≤ lab && lab < col + n
    let w := if seen then setWd w 7 (listGet 0 zs (lab - col)) else w
    let cands := if jcSparse ctl = 0 then [] else
      candJoin k.invT (jcK ctl) old.cands (((fromTo col n).zip (zt.zip zs)))
    let s := if jcRetain ctl then
        let st := s.keep die c row at_ zt zs
        if jcSparse ctl = 0 then st else st.put (yardAddr die (off + c.retainRow row)) (cands.flatMap candBytes)
      else s
    (s, { old with words := w, flags := if seen then fl ||| 1 else fl, cands := cands })
  | 1, _ =>
    let t := s.hidden die c row at_ n
    let fl := if t.any (fun x => !fisFin x) then fl ||| 2 else fl
    let s := s.commit (t.foldl (fun l x => if fisFin x then l else Tally.add l 6 5 3 1) [])
    if s.jctCos die c then
      let add := fun (w : List W32) (j : Nat) (xs ys : List W32) =>
        setWd w j (fadd (wd w j) (sumSlice ((xs.zip ys).map fun q => fmul q.1 q.2)))
      let w := add (add (add old.words 0 zs t) 1 zs zs) 2 t t
      let s := if jcRetain ctl then s.keep die c row at_ [] zs else s
      (s, { old with words := w, flags := fl })
    else
      let d := (zs.zip t).map fun q => fsub q.1 q.2
      let w := setWd old.words 0 (fadd (wd old.words 0) (sumSlice (d.map fun x => fmul x x)))
      let H := fofNat (jcVocab ctl)
      let lab := s.label die c row
      let cs := (zs.zip t).map fun q =>
        let x := mseEntry (s.jctBeta die c) H (s.gradScale die c) q.1 q.2
        emitB16 (if fisFin q.1 && fisFin q.2 then 0 else fl) lab x
      (s.putGrad die c row at_ cs, { old with words := w, flags := fl })
  | 2, _ =>
    let w := foldStudent old.words b
    let pos := s.rowPos (s.jctDie c (c.home_of row)) c row
    let race := ((fromTo col n).zip b).foldl (fun r e =>
      let g := if jcGreedy ctl then e.2 else fadd e.2 (gumbel (serveDraw pos.1 0 pos.2 e.1))
      raceStep r (g, e.1, e.2)) old.race
    (if jcRetain ctl then s.keep die c row at_ [] zs else s, { old with words := w, flags := fl, race := race })
  | 3, 0 =>
    let w := foldTeacher old.words a [] []
    let hd := s.jctDie c (c.home_of row)
    let pos := s.rowPos hd c row
    let race := ((fromTo col n).zip a).foldl (fun r e =>
      let g := if jcGreedy ctl then e.2 else fadd e.2 (gumbel (serveDraw pos.1 2 pos.2 e.1))
      raceStep r (g, e.1, e.2)) old.race
    let i' := row % jcConv ctl
    let tok := bitsOf (s.draftRec hd c (row / jcConv ctl) i') 0 20
    let cap := if i' < jcDepth ctl && col ≤ tok && tok < col + n then some (listGet 0 a (tok - col)) else old.cap
    let s := if jcRetain ctl && i' < jcDepth ctl then s.keep die c row at_ zt [] else s
    (s, { old with words := w, flags := fl, race := race, cap := cap })
  | 3, _ =>
    let hd := s.jctDie c (c.home_of row)
    let conv := row / jcConv ctl
    if s.pendingRow hd c conv != some row then (s, old)
    else
      let pos := s.rowPos hd c row
      let dr := s.draftRec hd c conv (row % jcConv ctl)
      let msd : W32 := BitVec.ofNat 32 (bitsOf dr 64 32)
      let rsd : W32 := BitVec.ofNat 32 (bitsOf dr 96 32)
      let st := (s.jctStat die c row).getD { JctStats.empty with words := rowStart }
      let rt := fdiv oneW (wd st.words 1)
      let a' := if jcRetain ctl then
          (List.range n).map fun j => fmul (s.retained die c (retainAt ctl c.len row).1 (jcTFmt ctl) (at_ + j)) k.invT
        else a
      let fl := if a'.any fun x => !fisFin x then fl ||| 2 else fl
      let race := ((fromTo col n).zip (a'.zip b)).foldl (fun r e =>
        let p := fmul (fexp (fsub e.2.1 (wd st.words 0))) rt
        let q := fmul (fexp (fsub e.2.2 msd)) rsd
        let x := fsub p q
        if fgt x 0 then raceStep r (fadd (fln x) (gumbel (serveDraw pos.1 1 pos.2 e.1)), e.1, x) else r) old.race
      (s, { old with flags := fl, race := race })
  | _, _ => (s, old)

/-- A command of a slot replaced. -/
def State.setJct (s : State) (die slot : Nat) (c : JctCmd) : State :=
  let d := s.die die
  s.setDie die { d with slots := tabSet d.slots slot c }

/-- The words of a row state that a detected, uncorrected Yard error spoils (R163). -/
def State.rowBad (s : State) (die : Nat) (c : JctCmd) (row : Nat) : Bool :=
  !(badIn s.eccBad (yardAddr die (jpRetOff c.param + 64 * row)) 64).isEmpty ||
  (jcFn c.ctl = 3 && jcPass c.ctl = 2 && jcRetain c.ctl &&
    !(badIn s.eccBad (yardAddr die (jpRetOff c.param + c.retainRow row)) (c.len * (fmtBits (jcTFmt c.ctl) / 8))).isEmpty)

/-- Values taken from the input buffers of which one shows a parity error (R163). -/
def parityBad (l : List JctIn) : Bool := l.any (·.bad)

/-- The job or context of a command faults on a parity error of its inputs, or on an uncorrected error of its row states or
retained rows (R163). -/
def State.jctSpoiled (s : State) (die : Nat) (c : JctCmd) : State :=
  s.faultOwner c.platform c.tcore { cause := causeJctUncorrected, island := 0x1000 + die, core := c.core, slot := c.slot }

/-- What a command reads for a row beside row states and retained rows: its label word with the gradient scale, the entry of
its tap and the tap's hidden values, or the acceptance record. -/
def State.jctReads (s : State) (die : Nat) (c : JctCmd) (row : Nat) : List (Nat × Nat) :=
  let p := c.param
  let label := [(yardAddr die (jpLabel p), 4), (yardAddr die (jpLabel p + 16 + 4 * row), 4)]
  match jcFn c.ctl with
  | 0 => label
  | 1 => label ++ [(yardAddr die (jpHint p + 16 * jcTaps c.ctl), 16),
      (yardAddr die (bitsOf (s.tapEntry die p (jcTaps c.ctl)) 0 32 + 2 * row * c.len), 2 * c.len)]
  | 2 => [(yardAddr (s.jctDie c (c.home_of row)) (jpReq p + 256 * row), 16)]
  | _ => [(yardAddr (s.jctDie c (c.home_of row)) (jpReq p + 256 * (row / jcConv c.ctl)), 16 * jcConv c.ctl),
      (s.resultAddr (s.jctDie c (c.home_of row)) c (row / jcConv c.ctl), if jcPass c.ctl = 2 then 8 else 0)]

/-- Run an effect of a Junction command unless a range that it reads shows an uncorrected error, which faults the owner (R285). -/
def State.jctReading (s : State) (c : JctCmd) (reads : List (Nat × Nat)) (k : State → State) : State :=
  match (reads.map fun r => badIn s.eccBad r.1 r.2).flatten with
  | [] => k s
  | w :: _ =>
    let r := s.uncorrected w
    r.1.faultOwner c.platform c.tcore { r.2 with core := c.core, slot := c.slot }

/-- The rows that a command may consume now: a RESIDUAL command waits for the verdict on their conversation, which stands once all
its rows are finished, so that its token does not depend on which comes first (R167, R171). -/
def State.jctOpen (s : State) (die : Nat) (c : JctCmd) (row : Nat) : Bool :=
  !(jcFn c.ctl = 3 && jcPass c.ctl = 2) ||
  (fromTo (row / jcConv c.ctl * jcConv c.ctl) (jcConv c.ctl)).all fun r => (s.jctStat die c r).isSome

/-- Fold the slices of one row that have arrived, in ascending order; `fuel` bounds the slices. -/
def State.foldSlices (s : State) (die slot row : Nat) : Nat → State
  | 0 => s
  | f + 1 =>
    match tabFind (s.die die).slots slot with
    | none => s
    | some c =>
      let i := tabGet 0 c.next row
      if c.slices ≤ i || !c.consumes row || !s.jctOpen die c row then s
      else match s.takeSlice die c row i with
        | none => s
        | some (ts, ss, s1) =>
          if s1.rowBad die c row || parityBad (ts ++ ss) then s1.jctSpoiled die c
          else s1.jctReading c (s1.jctReads die c row) fun s1 =>
            let r := s1.foldRow die c row i ts ss
            let s2 := r.1.put (yardAddr die (jpRetOff c.param + 64 * row)) (rowBytes r.2.words r.2.flags)
            let c' := { c with next := tabSet c.next row (i + 1), rows := tabSet c.rows row r.2 }
            (s2.setJct die slot c').foldSlices die slot row f

/-- A command whose slices fold as they arrive: all but the EMIT passes, which take them at their row's emission. -/
def JctCmd.folds (c : JctCmd) : Bool := jcPass c.ctl != 1

/-- Slots of a die in the order in which their commands were issued. -/
def State.jctOrder (s : State) (die : Nat) : List Nat :=
  let d := s.die die
  sortBy (fun k => match tabFind d.slots k with
    | some c => c.seq
    | none => 0) (d.slots.map (·.1))

/-! ### Entries beyond the vocabulary (R134) -/

/-- Indices beyond the vocabulary in the last tile, for the Junction that owns it. -/
def JctCmd.pads (c : JctCmd) : List Nat :=
  let V := jcVocab c.ctl
  if c.lo + c.len = V && 0 < c.len then fromTo V (roundUp V 128 - V) else []

/-- The entries of a row beyond the vocabulary that a command still drops, by stream, row and index. -/
def JctCmd.padsOf (c : JctCmd) (row : Nat) : List (Nat × Nat × Nat) :=
  (if needsTeacher c.ctl then c.pads.map fun k => (0, row, k) else []) ++
  (if needsStudent c.ctl then c.pads.map fun k => (1, row, k) else [])

/-- A command drops an entry that has arrived for it, once. -/
def State.dropPad (s : State) (die slot : Nat) (e : Nat × Nat × Nat) : State :=
  match tabFind (s.die die).slots slot with
  | none => s
  | some c =>
    if c.dropped.contains e then s
    else match takeOne c.platform e.1 e.2.1 e.2.2 (s.die die).inbox with
      | none => s
      | some (_, rest) =>
        (s.setDie die { s.die die with inbox := rest }).setJct die slot { c with dropped := c.dropped ++ [e] }

/-- The entries of a command's rows beyond the vocabulary that have arrived take part in nothing. -/
def State.dropPads (s : State) (die slot : Nat) (c : JctCmd) : State :=
  if c.pads.isEmpty then s
  else (List.range (jcRows c.ctl)).foldl (fun s row =>
    if c.consumes row then (c.padsOf row).foldl (fun s e => s.dropPad die slot e) s else s) s

/-- The islands of a Junction's work are running (R46, R49). -/
def State.jctRuns (s : State) (die : Nat) : Bool :=
  !(s.island (0x1000 + die)).parked && !(s.island (0x2000 + die)).parked && !(s.island (0x3000 + die)).parked

/-- Fold everything that has arrived at a die. An entry feeds the command, among those that fold and still lack it, that was
issued first: the manual names no link from a tile to a command (DESIGN CHOICE, log entry 101). -/
def State.jctFold (s : State) (die : Nat) : State :=
  if !s.jctRuns die then s
  else (s.jctOrder die).foldl (fun s k =>
    match tabFind (s.die die).slots k with
    | none => s
    | some c =>
      let s := if c.folds then (List.range (jcRows c.ctl)).foldl (fun s r => s.foldSlices die k r c.slices) s else s
      s.dropPads die k c) s

/-! ### Arrays that drain into the Junction (R67, R132, R135) -/

def State.array (s : State) (c a : Nat) : ArrayState := tabGet .empty (s.core c).arrays a
def State.setArray (s : State) (c a : Nat) (x : ArrayState) : State :=
  s.setCore c { s.core c with arrays := tabSet (s.core c).arrays a x }

/-- A tile whose last output has been written completes (R87, R90): its counts and its amax are committed, `TILE_SEQ` counts it,
and it signals. An output that stays W32 converts nothing and has no amax (R75, R120). -/
def State.tileEnd (s : State) (it : Issue) : State :=
  let a := engineOf it.w
  let x := s.array it.core a
  let c := arrayCtl it.w
  let s := s.commit x.counts
  let s := if acOut c = 0 then s else s.recordAmax it.step (acTensor c) (fmtW32.dec x.peak)
  let s := s.setArray it.core a { x with
    status := setBits x.status 16 16 ((bitsOf x.status 16 16 + 1) % 65536), running := none, drain := [], counts := [], peak := 0 }
  s.finish it

/-- What of a drain enters the input buffers, in its order, until an output finds its stream's buffer full: those that enter and
those that stay, with `t` and `u` bytes waiting in the two buffers. -/
def drainInto (t u : Nat) : List JctIn → List JctIn × List JctIn
  | [] => ([], [])
  | x :: xs =>
    let n := fmtBits x.fmt / 8
    if inboxLimit < (if x.stream = 0 then t else u) + n then ([], x :: xs)
    else
      let r := if x.stream = 0 then drainInto (t + n) u xs else drainInto t (u + n) xs
      (x :: r.1, r.2)

/-- An array that drains a tile into its die's Junction goes on: it delivers what the buffers take and stays frozen on the rest
(R67); after the last output the tile completes. -/
def State.feedArray (s : State) (c a : Nat) : State :=
  let x := s.array c a
  match x.running with
  | none => s
  | some it =>
    if !s.coreRuns c then s
    else
      let d := s.die (dieOfCore c)
      let r := drainInto (inboxBytes d.inbox 0) (inboxBytes d.inbox 1) x.drain
      let s := (s.setDie (dieOfCore c) { d with inbox := d.inbox ++ r.1 }).setArray c a { x with drain := r.2 }
      if r.2.isEmpty then s.tileEnd it else s

/-- Every array of a die delivers what it can, in ascending core and array. -/
def State.feedDie (s : State) (die : Nat) : State :=
  (fromTo (6 * die) 6).foldl (fun s c => (List.range 4).foldl (fun s a => s.feedArray c a) s) s

/-- Outputs that the arrays of a die still hold for its Junction. -/
def State.drainLeft (s : State) (die : Nat) : Nat :=
  (fromTo (6 * die) 6).foldl (fun n c => (List.range 4).foldl (fun n a => n + (s.array c a).drain.length) n) 0

/-- Fold and deliver by turns until nothing more enters. -/
def State.jctPump (s : State) (die : Nat) : Nat → State
  | 0 => s.jctFold die
  | f + 1 =>
    let s := s.jctFold die
    let s' := s.feedDie die
    if s'.drainLeft die = s.drainLeft die then s' else s'.jctPump die f

/-! ### Completion -/

/-- The command has consumed its slices, its rows are finished, and it has emitted what it must. -/
def State.jctDone (s : State) (die : Nat) (c : JctCmd) : Bool :=
  let rows := List.range (jcRows c.ctl)
  let folded := !c.folds || rows.all fun r => !c.consumes r || c.slices ≤ tabGet 0 c.next r
  let finished := match jcFn c.ctl, jcPass c.ctl with
    | 3, 2 => (List.range (jcRows c.ctl / jcConv c.ctl)).all fun v =>
        (s.pendingRow (s.jctDie c (v % jcDies c.ctl)) c v).isNone
    | _, 1 => true
    | _, _ => rows.all fun r => (s.jctStat die c r).isSome
  let emits := jcPass c.ctl = 1 || (jcPass c.ctl = 0 && jcRetain c.ctl && (jcFn c.ctl = 0 || (jcFn c.ctl = 1 && s.jctCos die c)))
  folded && finished && (!emits || rows.all fun r => c.emitted.contains r)

/-- Completed commands leave their slots and signal (R160, R251); the last may end the Distil job (R260). -/
def State.jctFinish (s : State) (die : Nat) : State :=
  (s.jctOrder die).foldl (fun s k =>
    match tabFind (s.die die).slots k with
    | none => s
    | some c =>
      if s.jctDone die c then
        let d := s.die die
        let s := s.setDie die { d with slots := tabErase d.slots k }
        if (s.stream c.core c.slot).state = 4 then s else (s.post c.platform c.tcore c.core c.w).endJob
      else s) s

/-- Commands that are complete anywhere leave their slots. -/
def State.jctFinishAll (s : State) : State := (s.dies.map (·.1)).foldl (fun s d => s.jctFinish d) s

/-- What has arrived at a die is folded, what waits at its arrays enters, and complete commands leave their slots. -/
def State.jctSettle (s : State) (die : Nat) : State := (s.jctPump die (s.drainLeft die + 1)).jctFinishAll

end Sys2Proof.Machine
end

