-- ==== Sys2Proof/Machine/Steps.lean ====
section
/-! DEFINITION. Steps of the Distil job (R244, R372). -/

namespace Sys2Proof.Machine

open Sys2Proof

/-- The steps at which the resident streams of a Platform stand. -/
def State.streamSteps (s : State) (p : Nat) : List Nat :=
  (s.cores.map fun e => (e.2.streams.filter fun t => t.2.platform = p && t.2.state != 5).map fun t => t.2.step).flatten

/-- `JOB_STEP` follows the slowest stream of the Distil job (R372), and the amaxes of the step that ends enter their
histories (R120, R121). -/
def State.followStep (s : State) : State :=
  match s.streamSteps 0 with
  | [] => s
  | n :: ns =>
    let m := ns.foldl Nat.min n
    if s.odv Od.JOB_STEP < m then (s.setOd Od.JOB_STEP m).enterAllAmax m else s

end Sys2Proof.Machine
end

