-- ==== Sys2Proof/Machine/Wgrad.lean ====
section
/-! DEFINITION. Weight-gradient and update descriptors, their blocks and maps (06, `WGRAD_DESC`; 07, `UPD_DESC`; R197,
R204, R205, R369). -/

namespace Sys2Proof.Machine

open Sys2Proof

/-! ### `WGRAD_DESC` -/

def wgTensor (w : Nat) : Nat := bitsOf w 0 16
def wgMode (w : Nat) : Nat := bitsOf w 16 2
def wgRows (w : Nat) : Nat := bitsOf w 32 32
def wgCols (w : Nat) : Nat := bitsOf w 64 32
def wgMapOff (w : Nat) : Nat := bitsOf w 96 32
def wgBuf (w : Nat) : Nat := bitsOf w 128 64

/-- Blocks of a weight tensor: 128 × 128 values each; a tensor with `WG_ROWS` 1 takes one for each 16,384 values. -/
def wgBlocks (w : Nat) : Nat :=
  if wgRows w = 1 then ceilDiv (wgCols w) 16384 else ceilDiv (wgRows w) 128 * ceilDiv (wgCols w) 128

def Image.wgrad (img : Image) (id : Nat) : Option Nat := img.wgradDescs.find? fun w => wgTensor w = id

/-- The map bit that decides block n; the map is read in the Yard of logical die 0 (DEDUCED, log entry 41). -/
def State.mapBit (s : State) (w n : Nat) : Bool :=
  bitOf (memGet s.mem (yardAddr 0 (wgMapOff w) + n / 8)).toNat (n % 8)

/-- Block n is trained (06, "Maps"). -/
def State.trained (s : State) (w n : Nat) : Bool :=
  match wgMode w with
  | 0 => true
  | 1 => false
  | 2 => s.mapBit w (n / ceilDiv (wgCols w) 128)
  | _ => s.mapBit w n

/-- The trained blocks of a tensor, in ascending n. -/
def State.trainedBlocks (s : State) (w : Nat) : List Nat := (List.range (wgBlocks w)).filter (s.trained w)

/-- Row-major position of value `i` of block n in the logical tensor (R115, R197). -/
def wgIndex (w n i : Nat) : Nat :=
  if wgRows w = 1 then 16384 * n + i
  else
    let nbc := ceilDiv (wgCols w) 128
    (128 * (n / nbc) + i / 128) * wgCols w + 128 * (n % nbc) + i % 128

/-! ### `UPD_DESC` -/

def udTensor (u : Nat) : Nat := bitsOf u 0 16
def udOpt (u : Nat) : Nat := bitsOf u 16 2
def udGroup (u : Nat) : Nat := bitsOf u 22 4
def udMaster (u : Nat) : Nat := bitsOf u 64 64
def udM (u : Nat) : Nat := bitsOf u 128 64
def udV (u : Nat) : Nat := bitsOf u 192 64
def udWc (u : Nat) : Nat := bitsOf u 256 64
def udGrad (u : Nat) : Nat := bitsOf u 320 64
def udBlk (u : Nat) : Nat := bitsOf u 384 64
def udStatus (u : Nat) : Nat := bitsOf u 448 64

/-- One update descriptor holds only defined encodings, beside a `WGRAD_DESC` of its tensor (07, `UPD_DESC`; R10, R215). -/
def Image.updOk (img : Image) (u : Nat) : Bool :=
  u < 2 ^ 512 && udOpt u < 2 && bitsOf u 26 38 = 0 && (img.wgrad (udTensor u)).isSome &&
  (if udOpt u = 0 then !bitOf u 18 else !bitOf u 19 && udV u = 0)

/-- One weight-gradient descriptor holds only defined encodings, and has an update descriptor unless it is frozen (06,
`WGRAD_DESC`; R10, R197, R215). -/
def Image.wgradOk (img : Image) (w : Nat) : Bool :=
  w < 2 ^ 224 && bitsOf w 19 13 = 0 && (wgRows w != 1 || wgMode w < 2) &&
  (wgMode w = 1 || img.updDescs.any fun u => udTensor u = wgTensor w)

/-- The reduction descriptor, where there is one, holds only values that its table defines (11, `RED_DESC`). -/
def Image.redOk (img : Image) : Bool :=
  let r := img.red
  let n := if bitsOf r 128 16 = 0 then 65536 else bitsOf r 128 16
  r = 0 ||
    (r < 2 ^ 176 && !bitOf r 151 && !bitOf r 159 && 4 ≤ bitsOf r 144 7 && bitsOf r 144 7 ≤ 64 &&
     1 ≤ bitsOf r 152 7 && bitsOf r 152 7 ≤ 64 && bitsOf r 160 16 = ceilDiv n (bitsOf r 144 7) &&
     bitsOf r 0 64 % 2 ^ 20 = 0 && bitsOf r 64 64 % 2 ^ 20 = 0 && bitsOf r 0 64 / 2 ^ 56 = 0 && bitsOf r 64 64 / 2 ^ 56 = 0)

/-- The descriptors of the Timetable header. -/
def Image.descsOk (img : Image) : Bool :=
  img.updDescs.all img.updOk && img.wgradDescs.all img.wgradOk && img.redOk

/-- The update descriptors with their weight-gradient descriptors, in ascending tensor identifier. -/
def Image.updates (img : Image) : List (Nat × Nat) :=
  let us := img.updDescs.filterMap fun u => match img.wgrad (udTensor u) with
    | some w => some (u, w)
    | none => none
  us.foldl (fun l x => (l.filter fun y => udTensor y.1 ≤ udTensor x.1) ++ x :: l.filter fun y => udTensor x.1 < udTensor y.1) []

/-! ### `RED_DESC` -/

def rdImage (r : Nat) : Nat := bitsOf r 0 64
def rdSum (r : Nat) : Nat := bitsOf r 64 64
def rdStripes (r : Nat) : Nat := if bitsOf r 128 16 = 0 then 65536 else bitsOf r 128 16
def rdPerBucket (r : Nat) : Nat := bitsOf r 144 7
def rdInterval (r : Nat) : Nat := bitsOf r 152 7
def rdBuckets (r : Nat) : Nat := bitsOf r 160 16

/-- A step that ends an accumulation window (R372). -/
def endsWindow (r step : Nat) : Bool := rdInterval r != 0 && (step + 1) % rdInterval r = 0

/-- Stripes of a bucket (R371). -/
def bucketStripes (r b : Nat) : List Nat :=
  (fromTo (b * rdPerBucket r) (rdPerBucket r)).filter (· < rdStripes r)

def stripeBucket (r j : Nat) : Nat := j / rdPerBucket r
def stripeBytes : Nat := 1048576

/-- The ranges that the Roundhouse and the reduction engine write for an image: masters, moments, copies, block and status
records, the gradient image and its sums. -/
def Image.engineWrites (img : Image) : List (Nat × Nat) :=
  (img.updates.flatMap fun x =>
    let n := wgBlocks x.2
    [(udMaster x.1, 65536 * n), (udM x.1, 65536 * n), (udV x.1, if udOpt x.1 = 0 then 65536 * n else 0), (udWc x.1, 32768 * n),
     (udBlk x.1, 64 * n), (udStatus x.1, 64)]) ++
  (if img.red = 0 then []
   else [(rdImage img.red, stripeBytes * rdStripes img.red), (rdSum img.red, stripeBytes * rdStripes img.red)])

/-! ### The checkpoint reserve (16, "The reserve") -/

/-- Area k of the reserve: 0 slot A, 1 slot B, 2 the drain area, 3 the buddy slot. -/
def State.ckptBase (s : State) (k : Nat) : Nat := 2 ^ 56 + s.odv Od.DDR5_RESERVE_BASE + k * s.ckpt.area

/-- A slot's manifest and auxiliary state lie in the area's last GiB (DESIGN CHOICE, log entry 45). -/
def State.slotManifest (s : State) (k : Nat) : Nat := s.ckptBase k + s.ckpt.area - GiB
def State.slotAux (s : State) (k : Nat) : Nat := s.slotManifest k + 2 ^ 24

/-- A slot without a manifest holds no checkpoint. -/
def State.clearManifest (s : State) (k : Nat) : State := s.put (s.slotManifest k) (List.replicate 512 0)

/-- The image whose descriptors the Distil job runs under. -/
def State.jobImage (s : State) : Option Image := if s.job.active then (s.plat 0).image else none

/-- The staged gradient blocks of an image: tensor descriptors, block, index among the trained blocks, and the address of
its 32 KiB (R369). -/
def State.gradBlocks (s : State) (img : Image) : List (Nat × Nat × Nat × Nat × Nat) :=
  img.updates.flatMap fun (x : Nat × Nat) =>
    let bs := s.trainedBlocks x.2
    ((List.range bs.length).zip bs).map fun q => (x.1, x.2, q.2, q.1, udGrad x.1 + 32768 * q.1)

end Sys2Proof.Machine
end

