-- ==== Sys2Proof/Machine/Arrays.lean ====
section
/-! DEFINITION. The matrix arrays (03): operands, alignment (R96 to R99), exact block sums and folds (R55, R56, R100,
R101, R104, R105), the epilogue (R78 to R81), output conversion and routing, replays (R84 to R90, R638). -/

namespace Sys2Proof.Machine

open Sys2Proof

/-! ### Fields of `ARRAY_CTL` and of the `TILE` payload -/

def acMode (c : Nat) : Nat := bitsOf c 0 2
def acFeedWest (c : Nat) : Bool := bitOf c 2
def acFeedNorth (c : Nat) : Bool := bitOf c 3
def acSerial (c : Nat) : Nat := bitsOf c 4 4
def acParallel (c : Nat) : Nat := bitsOf c 8 4
def acRound (c : Nat) : Nat := bitsOf c 15 2
def acCont (c : Nat) : Bool := bitOf c 17
def acMulti (c : Nat) : Bool := bitOf c 18
def acComplex (c : Nat) : Bool := bitOf c 19
def acEpi (c : Nat) : Nat := bitsOf c 20 3
def acSide (c : Nat) : Bool := bitOf c 23
def acRoute (c : Nat) : Nat := bitsOf c 30 2
def acLayout (c : Nat) : Nat := bitsOf c 38 2

def tM (w : CmdWord) : Nat := cmdBits w 208 16
def tN (w : CmdWord) : Nat := cmdBits w 224 16
def tK (w : CmdWord) : Nat := cmdBits w 240 16
def tBatch (w : CmdWord) : Nat := cmdBits w 256 16
def tWest (w : CmdWord) : Nat := cmdBits w 272 32
def tNorth (w : CmdWord) : Nat := cmdBits w 304 32
def tOut (w : CmdWord) : Nat := cmdBits w 336 32
def tCarry (w : CmdWord) : Nat := cmdBits w 368 32
def tWestScale (w : CmdWord) : Nat := cmdBits w 400 32
def tNorthScale (w : CmdWord) : Nat := cmdBits w 432 32
def tSide (w : CmdWord) : Nat := cmdBits w 464 32

/-- Formats of the west and north operands (R637, `SERIAL_SIDE`). -/
def westFmt (c : Nat) : Nat := if acSide c then acParallel c else acSerial c
def northFmt (c : Nat) : Nat := if acSide c then acSerial c else acParallel c

/-- Components of an element: 2 in complex mode (R77). -/
def comps (c : Nat) : Nat := if acComplex c then 2 else 1

/-- Z_s and Z_p (04, "Alignment constants"). -/
def zS (c : Nat) : Nat := if acMulti c then 47 else 15
def zP (c : Nat) : Nat := if acMulti c && acParallel c = 6 then 33 else 11

/-- Multi-word pass count P (R76), with the four real passes of complex mode (R77). -/
def passP (c : Nat) : Nat := (if acMulti c && acParallel c = 6 then 3 else 1) * (if acComplex c then 4 else 1)

/-! ### Folds and durations (R68, R70, R72) -/

def bandOf (x : Nat) : Nat := if x ≤ 32 then 32 else 64

/-- `FOLD_KIND`, band height, band width and passes over all batch members. -/
def foldOf (m n batch : Nat) : Nat × Nat × Nat × Nat :=
  if m ≤ 64 && n ≤ 64 && 2 ≤ batch then
    let h := bandOf m
    let w := bandOf n
    (3, h, w, ceilDiv batch ((128 / h) * (128 / w)))
  else if m ≤ 64 && 64 < n then
    let h := bandOf m
    (1, h, 128, ceilDiv n (128 * 128 / h) * batch)
  else if n ≤ 64 && 64 < m then
    let w := bandOf n
    (2, 128, w, ceilDiv m (128 * 128 / w) * batch)
  else (0, 128, 128, ceilDiv m 128 * ceilDiv n 128 * batch)

def bandCode (x : Nat) : Nat := if x = 32 then 0 else if x = 64 then 1 else 2

/-- The fold of a tile: output-stationary tiles alone are folded (R61, R70). `ARRAY_CTL` shows the other tiles, for which the manual
states no band, with fold `NONE` and bands of 128 × 128 (DESIGN CHOICE, log entry 102). -/
def tileFold (w : CmdWord) : Nat × Nat × Nat × Nat :=
  if acMode (arrayCtl w) = 0 then foldOf (tM w) (tN w) (tBatch w) else (0, 128, 128, 0)

/-- `ARRAY_CTL` as loaded: the sequencer computes bits [37:32] (R68). -/
def loadedCtl (w : CmdWord) : Nat :=
  let f := tileFold w
  setBits (arrayCtl w) 32 6 (f.1 + 4 * bandCode f.2.1 + 16 * bandCode f.2.2.1)

/-- The isolated duration (R72). -/
def tileCycles (w : CmdWord) : Nat :=
  let c := arrayCtl w
  let d := fmtDigits (acSerial c)
  match acMode c with
  | 0 => (if acFeedWest c && acFeedNorth c then 4 else 8) + 254 + (tileFold w).2.2.2 * roundUp (tK w) 32 * d * passP c + 137
  | 1 => (if acFeedWest c then 4 else 8) + 128 + tBatch w * ceilDiv (tK w) 128 * tN w * d * passP c + 257 + tN w + 6
  | _ => (if acFeedWest c then 4 else 8) + ceilDiv (tM w * tN w * tBatch w) 128 + 6

/-- Times the feeders present a component in one pass over its K-block: once per slice of a W32 parallel operand (R76), and in
complex mode in two of the four real passes (R77). -/
def presentations (c : Nat) : Nat := (if acMulti c && acParallel c = 6 then 3 else 1) * comps c

/-- Times a west component and a north component are delivered: at each presentation in each pass that needs it (R70, R99). -/
def deliveries (w : CmdWord) : Nat × Nat :=
  let m := tM w
  let n := tN w
  let p := presentations (arrayCtl w)
  match tileFold w with
  | (1, h, _, _) => (p * ceilDiv n (128 * 128 / h), p)
  | (2, _, v, _) => (p, p * ceilDiv m (128 * 128 / v))
  | (3, _, _, _) => (p, p)
  | _ => if acMode (arrayCtl w) = 0 then (p * ceilDiv n 128, p * ceilDiv m 128) else (p, p)

/-! ### Layouts (R64, R298, R299; DEDUCED, log entry 32) -/

/-- Lines that a band of `steps` steps takes when skewed for `d` digits (0: natural). -/
def bandLines (steps d : Nat) : Nat := steps + (if d = 0 then 0 else ceilDiv 128 d - 1)

/-- Element offset of lane p, step t in a lined layout. -/
def linedOff (steps d p t : Nat) : Nat :=
  (p / 128 * bandLines steps d + t + (if d = 0 then 0 else p % 128 / d)) * 128 + p % 128

/-- Elements of a lined layout. -/
def linedLen (lanes steps d : Nat) : Nat := ceilDiv lanes 128 * bandLines steps d * 128

/-- Scale byte offsets of the two lined layouts (09, "Tensor layouts"). -/
def laneScale (steps p t : Nat) : Nat := (p / 128 * steps + t) * 4 + p % 128 / 32
def stepScale (steps p t : Nat) : Nat := (p / 128 * (roundUp steps 32 / 32) + t / 32) * 128 + p % 128

/-- An operand stream of a tile: where it lies, and whether K runs along its steps or its lanes. -/
structure Operand where
  fmt : Nat
  addr : Nat
  saddr : Nat
  lanes : Nat
  steps : Nat
  kStep : Bool
  skew : Nat
  comps : Nat
  /-- One scale byte for each index of the dimension other than K (R94). -/
  channel : Bool
  /-- The rows and columns of an element-wise x, whose scales lie row by row. -/
  whole : Option (Nat × Nat)
  /-- The chained outputs it takes instead of memory, one for each batch member (R636). -/
  chain : List ChainOut
  deriving DecidableEq, Repr

def Operand.stepLines (o : Operand) : Nat := if o.kStep then roundUp o.steps 32 else o.steps

/-- Bytes of one batch member's elements and scales, and their strides (R636). -/
def Operand.bytes (o : Operand) : Nat := fmtBytes o.fmt (o.comps * linedLen o.lanes o.stepLines o.skew)
def Operand.scaleBytes (o : Operand) : Nat :=
  if !fmtScaled o.fmt then 0
  else match o.whole with
    | some (r, c) => if o.channel then r else r * ceilDiv c 32
    | none =>
      if o.channel then (if o.kStep then o.lanes else o.steps)
      else if o.kStep then ceilDiv o.lanes 128 * (o.stepLines / 32) * 128 else ceilDiv o.lanes 128 * o.steps * 4

/-- The chained output of member b. -/
def Operand.chained (o : Operand) (b : Nat) : ChainOut := listGet ChainOut.empty o.chain b

/-- Element (lane p, step t) of a chained output with its scale byte. -/
def ChainOut.at (ch : ChainOut) (p t : Nat) : Nat × Byte := if ch.cols ≤ p then (0, 0x7F#8) else listGet (0, 0x7F#8) ch.elems (t * ch.cols + p)

/-- Component c of the element at lane p, step t of member b. A chained element carries its scale in its exponent. -/
def Operand.elem (o : Operand) (mem : List Host.Cell) (b p t c : Nat) : Elem :=
  if !o.chain.isEmpty then
    let e := (o.chained b).at p t
    match (if fmtScaled o.fmt then scaleOf e.2 else none), decodeElem o.fmt e.1 with
    | some g, .fin n m ex => .fin n m (ex + g)
    | _, x => x
  else
    let base := o.addr + b * roundUp o.bytes 64
    decodeElem o.fmt (codeAt o.fmt (fun i => memGet mem (base + i)) (o.comps * linedOff o.stepLines o.skew p t + c))

/-- The scale exponent of the K-block at lane p, step t of member b. A chained block has a NaN scale where one of its elements came
from a block with one (R104). -/
def Operand.scale (o : Operand) (mem : List Host.Cell) (b p t : Nat) : Option Int :=
  if !fmtScaled o.fmt then some 0
  else if !o.chain.isEmpty then
    let run := fun x => fromTo (x / 32 * 32) 32
    let es := if o.kStep then (run t).map ((o.chained b).at p) else (run p).map fun q => (o.chained b).at q t
    if es.any fun e => (scaleOf e.2).isNone then none else some 0
  else
    let base := o.saddr + b * roundUp o.scaleBytes 64
    scaleOf (memGet mem (base + match o.whole with
      | some (_, c) => if o.channel then (t * 128 + p) / c else (t * 128 + p) / c * ceilDiv c 32 + (t * 128 + p) % c / 32
      | none =>
        if o.channel then (if o.kStep then p else t)
        else if o.kStep then stepScale o.steps p t else laneScale o.steps p t))

/-! ### Alignment of a K-block (R96 to R99, R104) -/

/-- One aligned K-block of a lane: a non-finite element or scale makes it bad; otherwise its integers by component, and
its part of the combined exponent, if it contributes. -/
structure Block where
  bad : Bool
  ints : List (List Int)
  exp : Option Int
  deriving DecidableEq, Repr

/-- Largest E among non-zero finite elements. -/
def blockMax (es : List Elem) : Option Int :=
  es.foldl (fun a e => match e with
    | .fin _ m x => if m = 0 then a else (match a with
      | none => some x
      | some y => some (max x y))
    | _ => a) none

/-- The integer a feeder delivers for an element, or 0 when it is flushed (R97, R98). -/
def alignElem (serial : Bool) (f zs zp : Nat) (top : Int) : Elem → Int
  | .fin n m e =>
    if (zs : Int) < top - e then 0
    else
      let v : Int := if serial then ((m <<< (zs - (top - e).toNat) : Nat) : Int)
        else ((quantise .rne m (e - top + (zp : Int) - (fmtW f : Int)) 0 : Nat) : Int)
      if n then -v else v
  | _ => 0

/-- Align a block; answers it with its vanished elements and its non-finite events. -/
def alignBlock (serial : Bool) (f zs zp : Nat) (sc : Option Int) (els : List (List Elem)) : Block × Nat × Nat :=
  let flat := els.flatten
  let nonf := countIf (fun e => !e.isFin) flat + (if sc.isNone then 1 else 0)
  match blockMax flat with
  | none => ({ bad := nonf != 0, ints := [], exp := none }, 0, nonf)
  | some top =>
    let ints := els.map fun c => c.map (alignElem serial f zs zp top)
    let gone := countIf (fun (q : Elem × Int) => q.1.isFin && !q.1.isZero && q.2 = 0) (flat.zip ints.flatten)
    let g := sc.getD 0
    let e : Int := if serial then top - (zs : Int) - (fmtF f : Int) + g
      else top - (zp : Int) + (fmtW f : Int) - (fmtF f : Int) + g
    ({ bad := nonf != 0, ints := ints, exp := some e }, gone, nonf)

/-- The aligned K-blocks of one lane vector of K elements: `get k c` and `sc k` give its elements and scales. -/
def alignLane (serial : Bool) (f zs zp K nc : Nat) (get : Nat → Nat → Elem) (sc : Nat → Option Int) :
    List (Block × Nat × Nat) :=
  (List.range (ceilDiv K 32)).map fun kb =>
    let n := Nat.min 32 (K - 32 * kb)
    alignBlock serial f zs zp (sc (32 * kb)) ((List.range n).map fun i => (List.range nc).map fun c => get (32 * kb + i) c)

/-- What the feeders count for a side (R99, R104): vanished elements at each delivery, non-finite ones once. -/
def laneTally (cls f reps : Nat) (ls : List (List (Block × Nat × Nat))) : Tally :=
  let all := ls.flatten
  (Tally.add [] cls f 1 (reps * all.foldl (fun n b => n + b.2.1) 0)).add cls f 3 (all.foldl (fun n b => n + b.2.2) 0)

/-! ### Folds (R55, R56, R100, R101, R104, R105) -/

def dotInts (xs ys : List Int) : Int := ((xs.zip ys).map fun q => q.1 * q.2).foldl (· + ·) 0

def compOf (b : Block) (c : Nat) : List Int := b.ints.map fun l => listGet 0 l c

/-- The exact block sums of the accumulators: one real, or the real and the imaginary one (R77). -/
def blockSums (nc : Nat) (a b : Block) : List Int :=
  if nc = 1 then [dotInts (compOf a 0) (compOf b 0)]
  else [dotInts (compOf a 0) (compOf b 0) - dotInts (compOf a 1) (compOf b 1),
    dotInts (compOf a 0) (compOf b 1) + dotInts (compOf a 1) (compOf b 0)]

/-- One fold of a block sum into a binary32 accumulator, and whether it overflowed. -/
def foldAcc (acc : W32) (bad : Bool) (e : Option Int) (sum : Int) : W32 × Bool :=
  if bad || fisNan acc then (nanW, false)
  else match e with
    | none => (acc, false)
    | some e =>
      if sum = 0 then (acc, false)
      else
        let r := fmtW32.conv .rne ((ofW acc).add (Num.ofInt sum e))
        (BitVec.ofNat 32 r.bits, r.overflow)

/-- Fold the blocks of one output in ascending K; answers the accumulators and the overflows. -/
def foldBlocks (nc : Nat) (start : List W32) (as bs : List Block) : List W32 × Nat :=
  (as.zip bs).foldl (fun st q =>
    let e := match q.1.exp, q.2.exp with
      | some x, some y => some (x + y)
      | _, _ => none
    let r := (st.1.zip (if e.isSome then blockSums nc q.1 q.2 else List.replicate nc 0)).map fun z =>
      foldAcc z.1 (q.1.bad || q.2.bad) e z.2
    (r.map (·.1), st.2 + countIf (·.2) r)) (start, 0)

/-! ### The epilogue (R78) -/

/-- The epilogue operation on a result with its side operands. -/
def epilogue (op : Nat) (a z s b : W32) : W32 :=
  match op with
  | 1 => ffma a s b
  | 2 => fadd a z
  | 3 => fmul a z
  | 4 => frelu a
  | 5 => fgelu a
  | 6 => fsilu a
  | _ => if fisNan a then nanW else a

/-! ### A tile -/

/-- A `TILE` with its placement (R639, R640). -/
structure Tile where
  w : CmdWord
  platform : Nat
  core : Nat
  place : Option CmdWord
  deriving DecidableEq, Repr

def Tile.ctl (t : Tile) : Nat := arrayCtl t.w
def Tile.pl (t : Tile) (lo len : Nat) : Nat :=
  match t.place with
  | some p => cmdBits p lo len
  | none => 0

/-- The class of the output tensor, and the classes of the operands (R639). -/
def Tile.outClass (t : Tile) : Nat := acTensor t.ctl / 8192
def Tile.westClass (t : Tile) : Nat := if t.place.isSome then t.pl 131 3 else t.outClass
def Tile.northClass (t : Tile) : Nat := if t.place.isSome then t.pl 134 3 else t.outClass

/-- Columns of the result matrix, components counted apart. -/
def Tile.cols (t : Tile) : Nat := tN t.w * comps t.ctl

def Issue.tile (it : Issue) : Tile :=
  { w := it.w, platform := it.platform, core := it.core, place := it.placed }

/-- Skew of a side: the digits of the serial operand's format in `PRESKEW` (R64). -/
def sideSkew (c : Nat) (pre : Bool) : Nat := if pre then fmtDigits (acSerial c) else 0

/-- The chained outputs that the west queue of a tile's array holds for its Platform, one for each member, where the tile names no
west address (R636, R637; DESIGN CHOICE, log entry 102). -/
def State.chainIn (s : State) (t : Tile) : List ChainOut :=
  if tWest t.w = 0 && !acFeedWest t.ctl then
    ((s.array t.core (cmdBits t.w 192 2)).chain.filter (·.platform = t.platform)).take (tBatch t.w)
  else []

/-- A queue without the first `n` outputs of a Platform. -/
def dropChain (p : Nat) : Nat → List ChainOut → List ChainOut
  | _, [] => []
  | 0, l => l
  | n + 1, x :: xs => if x.platform = p then dropChain p n xs else x :: dropChain p (n + 1) xs

/-- A chained tile starts once its west queue holds an output for each of its members. -/
def State.tileCan (s : State) (it : Issue) : Bool :=
  (s.chainIn it.tile).isEmpty || (s.chainIn it.tile).length = tBatch it.w

/-- The west and north operands (R637). A chained operand is aligned in the format of the chained output, whatever `SERIAL_FMT` or
`PARALLEL_FMT` say: R54 states no check of the two (DESIGN CHOICE, log entry 102). -/
def State.westOp (s : State) (it : Issue) : Operand :=
  let t := it.tile
  let c := t.ctl
  let ch := s.chainIn t
  let fmt := match ch.head? with
    | some x => x.fmt
    | none => westFmt c
  { fmt := fmt
    addr := s.dlAddr it (tWest t.w)
    saddr := s.dlAddr it (tWestScale t.w)
    lanes := if acMode c = 1 then tK t.w else if acMode c = 2 then 128 else tM t.w
    steps := if acMode c = 1 then tN t.w else if acMode c = 2 then ceilDiv (t.cols * tM t.w) 128 else tK t.w
    kStep := acMode c = 0
    skew := sideSkew c (acFeedWest c)
    comps := if acMode c = 2 then 1 else comps c
    channel := fmt = 4 && s.channelAt t.platform (s.dlAddr it (tWest t.w))
    whole := if acMode c = 2 then some (tM t.w, t.cols) else none
    chain := ch }

def State.northOp (s : State) (it : Issue) : Operand :=
  let t := it.tile
  let c := t.ctl
  { fmt := northFmt c
    addr := s.dlAddr it (tNorth t.w)
    saddr := s.dlAddr it (tNorthScale t.w)
    lanes := if acMode c = 1 then tM t.w else tN t.w
    steps := tK t.w
    kStep := true
    skew := sideSkew c (acMode c = 0 && acFeedNorth c)
    comps := comps c
    channel := northFmt c = 4 && s.channelAt t.platform (s.dlAddr it (tNorth t.w))
    whole := none
    chain := [] }

/-! ### Outputs -/

/-- The skew of `OUT_LAYOUT`: natural, or the layout of R64 for d = 1, 2, 4. -/
def outSkew (c : Nat) : Nat := match acLayout c with
  | 0 => 0 | 1 => 1 | 2 => 2 | _ => 4

/-- The layout that the Timetable declares for a tensor: 0 `LINED_K_LANE`, 1 `LINED_K_STEP`, 2 `ROW_MAJOR`; an undeclared
tensor is lined along its lanes. -/
def Image.layoutOf (img : Image) (tid : Nat) : Nat :=
  match img.tensors.find? (·.tensor = tid) with
  | some d => d.layout
  | none => 0

def State.outLayout (s : State) (t : Tile) : Nat :=
  match (s.plat t.platform).image with
  | some img => img.layoutOf (acTensor t.ctl)
  | none => 0

/-- Element and scale offsets of an output, and the elements and scale bytes of a member. -/
structure OutLayout where
  off : Nat
  soff : Nat
  len : Nat
  slen : Nat
  deriving DecidableEq, Repr

/-- Where output (i, j) of a member with `rows` rows and `cols` columns lies. In every mode its column is the lane and its row the
step, and each component of a complex output takes a lane of its own, though a complex operand has its two components in one lane:
the manual states neither (DESIGN CHOICE, log entry 102). An element-wise tile runs over its elements in row-major order, 128 to a
line (DEDUCED, log entry 33). -/
def outLayoutAt (mode layout d rows cols i j : Nat) : OutLayout :=
  let e := i * cols + j
  let n := ceilDiv (rows * cols) 128
  if mode = 2 then
    { off := linedOff n d (e % 128) (e / 128)
      soff := i * ceilDiv cols 32 + j / 32
      len := linedLen 128 n d
      slen := rows * ceilDiv cols 32 }
  else if layout = 2 then
    { off := if d = 0 then e else linedOff n d (e % 128) (e / 128)
      soff := i * ceilDiv cols 32 + j / 32
      len := if d = 0 then rows * cols else linedLen 128 n d
      slen := rows * ceilDiv cols 32 }
  else if layout = 1 then
    { off := linedOff (roundUp rows 32) d j i
      soff := stepScale rows j i
      len := linedLen cols (roundUp rows 32) d
      slen := ceilDiv cols 128 * (roundUp rows 32 / 32) * 128 }
  else
    { off := linedOff rows d j i
      soff := laneScale rows j i
      len := linedLen cols rows d
      slen := ceilDiv cols 128 * rows * 4 }

/-- The padding of a member: the element offsets that hold zero elements and the scale offsets that hold 0x00 (R299). -/
def outPads (mode layout d rows cols : Nat) : List Nat × List Nat :=
  if mode = 2 then
    let n := ceilDiv (rows * cols) 128
    ((fromTo (rows * cols) (128 * n - rows * cols)).map fun e => linedOff n d (e % 128) (e / 128), [])
  else if layout = 2 then ([], [])
  else
    let lines := if layout = 1 then roundUp rows 32 else rows
    let steps := List.range lines
    let lanes := fromTo cols (roundUp cols 128 - cols)
    let offs := (steps.flatMap fun t => lanes.map fun p => linedOff lines d p t) ++
      (fromTo rows (lines - rows)).flatMap fun t => (List.range cols).map fun p => linedOff lines d p t
    let soffs := if layout = 1 then (steps.filter fun t => t % 32 = 0).flatMap fun t => lanes.map fun p => stepScale rows p t
      else steps.flatMap fun t => (lanes.filter fun p => p % 32 = 0).map fun p => laneScale rows p t
    (offs, soffs)

/-- The layout of a tile's outputs. -/
def State.outAt (s : State) (t : Tile) (i j : Nat) : OutLayout :=
  outLayoutAt (acMode t.ctl) (s.outLayout t) (outSkew t.ctl) (tM t.w) t.cols i j

/-- Bytes of one member's output in a format, and of its scales. -/
def State.outBytes (s : State) (t : Tile) (f : Nat) : Nat := fmtBytes f (s.outAt t 0 0).len

/-- Format of the side input z (R78). -/
def sideFmt (c : Nat) : Nat := if acOut c = 1 then 5 else 6

/-- A W32 or B16 value of an array of member stride rounded to 64 bytes (R636). -/
def readVal (mem : List Host.Cell) (f base i : Nat) : W32 :=
  let n := fmtBits f / 8
  let b := leNat (memBytes mem (base + n * i) n)
  if f = 5 then widenB16 (BitVec.ofNat 16 b) else BitVec.ofNat 32 b

/-- The position of z: each output's own, or in `ELEMENTWISE` mode that of x (R78). -/
def State.sidePos (s : State) (t : Tile) (i j : Nat) : Nat :=
  let c := t.ctl
  if acMode c = 2 then (outLayoutAt 2 2 (sideSkew c (acFeedWest c)) (tM t.w) t.cols i j).off else (s.outAt t i j).off

def State.sideLen (s : State) (t : Tile) : Nat :=
  let c := t.ctl
  if acMode c = 2 then (outLayoutAt 2 2 (sideSkew c (acFeedWest c)) (tM t.w) t.cols 0 0).len else (s.outAt t 0 0).len

/-- What a tile computes: a matrix of W32 values by member, the accumulators of its last member, and what it counts. -/
structure TileVals where
  vals : List (List (List W32))
  accs : List (List W32)
  tally : Tally
  deriving DecidableEq, Repr

/-- The carry-in value of an output: W32 in the natural lines of the layout declared for `OUT_TENSOR_ID`, whatever `OUT_LAYOUT` the
earlier tile wrote with, which R75 leaves open (DESIGN CHOICE, log entry 102). -/
def State.carryIn (s : State) (it : Issue) (t : Tile) (b i j : Nat) : W32 :=
  let l := outLayoutAt (acMode t.ctl) (s.outLayout t) 0 (tM t.w) t.cols i j
  readVal s.mem 6 (s.dlAddr it (tCarry t.w) + b * roundUp (4 * l.len) 64) l.off

/-- Cut a list of component pairs into one list of columns. -/
def interleave (l : List (List W32)) : List W32 := l.flatten

/-- The products of member b before the epilogue: rows of columns (R55 to R62, R76, R77). -/
def State.products (s : State) (it : Issue) (t : Tile) (b : Nat) : TileVals :=
  let c := t.ctl
  let K := tK t.w
  let nc := comps c
  let wo := s.westOp it
  let no := s.northOp it
  let rep := deliveries t.w
  let ws := !acSide c
  let is := acMode c = 1
  -- lanes whose index is the output's row, and lanes whose index is its column
  let lanes := fun (o : Operand) (serial : Bool) (n : Nat) => (List.range n).map fun p =>
    alignLane serial o.fmt (zS c) (zP c) K nc (fun k q => o.elem s.mem b p k q) (fun k => o.scale s.mem b p k)
  let rows := if is then lanes no false (tM t.w) else lanes wo ws (tM t.w)
  let cols := if is then (List.range (tN t.w)).map fun n =>
      alignLane true wo.fmt (zS c) (zP c) K nc (fun k q => wo.elem s.mem b k n q) (fun k => wo.scale s.mem b k n)
    else lanes no (!ws) (tN t.w)
  let tal := if is then
      (laneTally t.northClass no.fmt 1 rows).join (laneTally t.westClass wo.fmt 1 cols)
    else (laneTally t.westClass wo.fmt rep.1 rows).join (laneTally t.northClass no.fmt rep.2 cols)
  let start := fun (i j : Nat) => if acCont c then (List.range nc).map fun q => s.carryIn it t b i (nc * j + q)
    else List.replicate nc (0 : W32)
  let res := (List.range (tM t.w)).map fun i => (List.range (tN t.w)).map fun j =>
    foldBlocks nc (start i j) ((listGet [] rows i).map (·.1)) ((listGet [] cols j).map (·.1))
  let above := (res.flatten).foldl (fun n r => n + r.2) 0
  let carried := if acCont c then
      ((List.range (tM t.w)).map fun i => countIf (fun j => !fisFin (s.carryIn it t b i j)) (List.range t.cols)).foldl (· + ·) 0
    else 0
  let accs := res.map fun r => interleave (r.map (·.1))
  { vals := [accs], accs := accs
    tally := (tal.add t.outClass 6 0 above).add t.outClass 6 3 carried }

/-- An element widened to W32 (element-wise x), with what it counts. -/
def widenElem (cls f : Nat) (sc : Option Int) (e : Elem) : W32 × Tally :=
  match sc with
  | none => (nanW, [])
  | some g =>
    if !e.isFin then (toW (e.value f g), Tally.add [] cls f 3 1)
    else
      let r := fmtW32.conv .rne (e.value f g)
      (BitVec.ofNat 32 r.bits, Tally.convs [] cls 6 [r])

/-- x of an element-wise tile: rows of columns of member b. -/
def State.elementwise (s : State) (it : Issue) (t : Tile) (b : Nat) : TileVals :=
  let wo := s.westOp it
  let at_ := fun i j => ((i * t.cols + j) % 128, (i * t.cols + j) / 128)
  let scale := fun i j => wo.scale s.mem b (at_ i j).1 (at_ i j).2
  let xs := (List.range (tM t.w)).map fun i => (List.range t.cols).map fun j =>
    widenElem t.westClass wo.fmt (scale i j) (wo.elem s.mem b (at_ i j).1 (at_ i j).2 0)
  let nanBlocks := ((List.range (tM t.w)).map fun i =>
    countIf (fun j => (wo.channel → j = 0) && j % 32 = 0 && (scale i j).isNone) (List.range t.cols)).foldl (· + ·) 0
  { vals := [xs.map fun r => r.map (·.1)], accs := []
    tally := (xs.flatten.foldl (fun (u : Tally) (x : W32 × Tally) => u.join x.2) ([] : Tally)).add t.westClass wo.fmt 3 nanBlocks }

/-- The epilogue over one member's results (R78), with the overflows it makes and the non-finite side inputs it reads. -/
def State.epilogueOn (s : State) (it : Issue) (t : Tile) (b : Nat) (v : TileVals) : TileVals :=
  let c := t.ctl
  let op := acEpi c
  let sf := sideFmt c
  let side := s.dlAddr it (tSide t.w)
  let z := fun i j => if op = 2 || op = 3 then readVal s.mem sf (side + b * roundUp (fmtBytes sf (s.sideLen t)) 64) (s.sidePos t i j) else 0
  let sv := fun j => if op = 1 then readVal s.mem 6 side (j / comps c) else 0
  let bv := fun j => if op = 1 then readVal s.mem 6 side (tN t.w + j / comps c) else 0
  let m := listGet [] v.vals 0
  let ix := (List.range m.length).zip m
  let out := ix.map fun r => ((List.range r.2.length).zip r.2).map fun q => epilogue op q.2 (z r.1 q.1) (sv q.1) (bv q.1)
  let above := (ix.map fun r => countIf (fun (q : Nat × W32) =>
      (ofW (epilogue op q.2 (z r.1 q.1) (sv q.1) (bv q.1)) matches .inf _) &&
      fisFin q.2 && fisFin (z r.1 q.1) && fisFin (sv q.1) && fisFin (bv q.1)) ((List.range r.2.length).zip r.2)).foldl (· + ·) 0
  let zbad := (ix.map fun r => countIf (fun j => !fisFin (z r.1 j)) (List.range r.2.length)).foldl (· + ·) 0
  let sbad := if op = 1 && b = 0 then
      countIf (fun j => !fisFin (readVal s.mem 6 side j)) (List.range (2 * tN t.w)) else 0
  { vals := [out], accs := v.accs
    tally := ((v.tally.add t.outClass 6 0 above).add t.outClass sf 3 zbad).add t.outClass 6 3 sbad }

/-- Every member of a tile through the epilogue. -/
def State.tileVals (s : State) (it : Issue) (t : Tile) : TileVals :=
  (List.range (tBatch t.w)).foldl (fun acc b =>
    let v := if acMode t.ctl = 2 then s.elementwise it t b else s.products it t b
    let e := s.epilogueOn it t b v
    { vals := acc.vals ++ e.vals, accs := e.accs, tally := acc.tally.join e.tally }) { vals := [], accs := [], tally := [] }

/-- The draw key of an output's stochastic rounding (R116), in the step of its stream (R21). -/
def State.arrayDraw (s : State) (it : Issue) : DrawKey :=
  { seed := (s.plat it.platform).seed, purpose := 0, tensor := acTensor it.tile.ctl, step := it.step, micro := it.tile.pl 144 16 }

/-- Row and column of output (i, j) of member b in the logical tensor (R640). -/
def Tile.row (t : Tile) (b i : Nat) : Nat := t.pl 192 32 + b * t.pl 288 32 + i
def Tile.col (t : Tile) (j : Nat) : Nat := t.pl 224 32 + j / comps t.ctl
def Tile.index (t : Tile) (b i j : Nat) : Nat := t.row b i * t.pl 256 32 + t.col j

/-- The converted outputs of one member (R80, R81, R111, R118). Both components of a complex output have its one element index
and take the same random fraction; the manual gives the second no index (DESIGN CHOICE, log entry 100). -/
def State.convMember (s : State) (it : Issue) (b : Nat) (m : List (List W32)) : OutRun :=
  let t := it.tile
  let f := outFmt (acOut t.ctl)
  let d := s.arrayDraw it
  let es := (((List.range m.length).zip m).map fun r => ((List.range r.2.length).zip r.2).map fun q =>
    let l := s.outAt t r.1 q.1
    { off := l.off, soff := l.soff, x := ofW q.2, r := roundingOf (acRound t.ctl) d (t.index b r.1 q.1) : OutElem }).flatten
  convRun t.outClass f (s.scaleMode t.platform (acTensor t.ctl)) es

/-! ### Checks at issue (R54, R60, R61, R66, R69, R118, R637, R639) -/

/-- Ranges that a tile reads, as device addresses and bytes. -/
def State.tileReads (s : State) (it : Issue) : List (Nat × Nat) :=
  let t := it.tile
  let c := t.ctl
  let wo := s.westOp it
  let no := s.northOp it
  let n := tBatch t.w
  let whole := fun b => (n - 1) * roundUp b 64 + b
  (if wo.chain.isEmpty then [(wo.addr, whole wo.bytes), (wo.saddr, whole wo.scaleBytes)] else []) ++
  (if acMode c = 2 then [] else [(no.addr, whole no.bytes)]) ++
  (if acMode c = 2 || !fmtScaled no.fmt then [] else [(no.saddr, whole no.scaleBytes)]) ++
  (if acCont c then
    [(s.dlAddr it (tCarry t.w), whole (4 * (outLayoutAt (acMode c) (s.outLayout t) 0 (tM t.w) t.cols 0 0).len))] else []) ++
  (match acEpi c with
   | 1 => [(s.dlAddr it (tSide t.w), 8 * tN t.w)]
   | 2 => [(s.dlAddr it (tSide t.w), whole (fmtBytes (sideFmt c) (s.sideLen t)))]
   | 3 => [(s.dlAddr it (tSide t.w), whole (fmtBytes (sideFmt c) (s.sideLen t)))]
   | _ => [])

/-- Ranges that a tile writes. -/
def State.tileWrites (s : State) (it : Issue) : List (Nat × Nat) :=
  let t := it.tile
  let f := outFmt (acOut t.ctl)
  let n := tBatch t.w
  let whole := fun b => (n - 1) * roundUp b 64 + b
  if acRoute t.ctl != 0 then []
  else [(s.dlAddr it (tOut t.w), whole (s.outBytes t f))] ++
    (if fmtScaled f then [(s.dlAddr it (t.pl 160 32), whole (s.outAt t 0 0).slen)] else [])

/-- The fields of `ARRAY_CTL` and the sizes are defined ones. -/
def tileFields (w : CmdWord) : Bool :=
  let c := arrayCtl w
  let a := cmdBits w 192 2
  let w32 := acSerial c = 6 || acParallel c = 6
  acMode c != 3 && acSerial c ≤ 6 && acParallel c ≤ 7 && acOut c ≤ 5 && acRound c != 3 && acEpi c != 7 && acRoute c != 3 &&
  bitsOf c 40 8 = 0 && cmdBits w 194 14 = 0 && zeroTail w &&
  1 ≤ tM w && 1 ≤ tN w && 1 ≤ tK w && 1 ≤ tBatch w &&
  (a = 0 || (!acMulti c && !acComplex c && !w32)) && (!w32 || acMulti c) &&
  (acMode c != 1 || (!acSide c && tN w ≤ 256 && tM w ≤ 128)) &&
  (acMode c != 0 ||
    ((tileFold w).1 != 1 || acFeedNorth c) && ((tileFold w).1 != 2 || acFeedWest c) &&
    ((tileFold w).1 != 3 || (acFeedWest c && acFeedNorth c)))
where
  /-- Bits [511:496] are reserved. -/
  zeroTail (w : CmdWord) : Bool := w.toNat >>> 496 = 0

/-- Addresses that the tile does not use are zero (R637). -/
def tileAddrs (t : Tile) : Bool :=
  let w := t.w
  let c := t.ctl
  (acMode c != 2 || (tNorth w = 0 && tNorthScale w = 0 && tK w = 1 && !acCont c)) &&
  (acCont c || tCarry w = 0) && ([1, 2, 3].contains (acEpi c) || tSide w = 0) &&
  (fmtScaled (westFmt c) || tWestScale w = 0) && (fmtScaled (northFmt c) || tNorthScale w = 0) &&
  (acRoute c = 0 || tOut w = 0)

/-- The tile is a weight-gradient tile of a declared tensor (R197). -/
def State.wgradTile (s : State) (t : Tile) : Bool :=
  match (s.plat t.platform).image with
  | none => false
  | some img => t.outClass = 5 && (img.wgrad (2 * 8192 + acTensor t.ctl % 8192)).isSome

/-- What needs a placement has one (R639), and `PL_STREAM` and `PL_OUT_SCALE` were checked with it. -/
def State.tilePlaced (s : State) (t : Tile) : Bool :=
  t.place.isSome ||
  !(acRound t.ctl = 2 || acRoute t.ctl = 2 || fmtScaled (outFmt (acOut t.ctl)) || s.wgradTile t)

/-- The die-local operands of a tile with their bytes: natural views, granted, and `PRESKEW` sides in core store. -/
def State.tileOperands (s : State) (it : Issue) : Bool :=
  let t := it.tile
  let c := t.ctl
  let wo := s.westOp it
  let no := s.northOp it
  let n := tBatch t.w
  let whole := fun b => (n - 1) * roundUp b 64 + b
  let rd := fun dl b => s.dlOk it dl (whole b) false
  (!wo.chain.isEmpty || (rd (tWest t.w) wo.bytes && (!acFeedWest c || dlView (tWest t.w) = 0))) &&
  (!wo.chain.isEmpty || !fmtScaled wo.fmt || rd (tWestScale t.w) wo.scaleBytes) &&
  (acMode c = 2 || (rd (tNorth t.w) no.bytes && (acMode c = 1 || !acFeedNorth c || dlView (tNorth t.w) = 0))) &&
  (acMode c = 2 || !fmtScaled no.fmt || rd (tNorthScale t.w) no.scaleBytes) &&
  (!acCont c || rd (tCarry t.w) (4 * (outLayoutAt (acMode c) (s.outLayout t) 0 (tM t.w) t.cols 0 0).len)) &&
  (match acEpi c with
   | 1 => s.dlOk it (tSide t.w) (8 * tN t.w) false
   | 2 => rd (tSide t.w) (fmtBytes (sideFmt c) (s.sideLen t))
   | 3 => rd (tSide t.w) (fmtBytes (sideFmt c) (s.sideLen t))
   | _ => true) &&
  (acRoute c != 0 || s.dlOk it (tOut t.w) (whole (s.outBytes t (outFmt (acOut c)))) true) &&
  (acRoute c != 0 || !fmtScaled (outFmt (acOut c)) || s.dlOk it (t.pl 160 32) (whole (s.outAt t 0 0).slen) true)

/-- A `BLOCK_CURRENT` tensor whose blocks do not run along N (R123). -/
def State.blocksOff (s : State) (t : Tile) : Bool :=
  (s.scaleMode t.platform (acTensor t.ctl)).blockCurrent && acMode t.ctl != 2 && s.outLayout t = 1

/-- The tile may issue (R252). -/
def State.tileOk (s : State) (it : Issue) : Bool :=
  let t := it.tile
  let c := t.ctl
  tileFields t.w && tileAddrs t && s.tilePlaced t && s.tileOperands it &&
  (acRoute c != 2 || acOut c ≤ 1) &&
  (!fmtScaled (outFmt (acOut c)) || (s.entryFor t.platform (acTensor c) (acOut c) && !s.blocksOff t))

/-! ### Detected errors (R84, R86 to R90) -/

/-- Platforms with a resident stream on a core (R50). -/
def State.workOn (s : State) (c : Nat) : List Nat :=
  dedup (((s.core c).streams.filter fun e => e.2.state != 5 && e.2.state != 0).map fun e => e.2.platform)

/-- The jobs and contexts with work on a core fault. -/
def State.faultCore (s : State) (c cause : Nat) : State :=
  (s.workOn c).foldl (fun s p => s.faultOwner p 0 { cause := cause, island := c, core := c }) s

/-- A core is quarantined: what works on it faults (R84). -/
def State.quarantine (s : State) (c : Nat) : State :=
  if (s.core c).quarantined then s
  else (s.setCore c { s.core c with quarantined := true }).faultCore c causeQuarantined

/-- The tile can be replayed (R86) after an error before which `out` of its outputs left the epilogue. -/
def State.replayable (s : State) (t : Tile) (out : Nat) : Bool := (acRoute t.ctl = 0 || out = 0) && (s.chainIn t).isEmpty

/-- The fate of a tile whose array meets the detected errors that wait for it (R88): how often it is replayed, and where it is
abandoned, the cause and the outputs that it wrote before. -/
def tileFate (errors : List CellError) (replayable : Nat → Bool) : Nat × Option (Nat × Nat) :=
  match errors with
  | [] => (0, none)
  | e :: rest =>
    if !replayable e.out then (0, some (causeNotReplayable, e.out))
    else match rest with
      | [] => (1, none)
      | f :: _ => (1, some (causeReplayFail, Nat.max e.out f.out))

/-! ### Running a tile -/

/-- A tile's outputs in its output format, by member. -/
def State.tileRuns (s : State) (it : Issue) (v : TileVals) : List OutRun :=
  ((List.range v.vals.length).zip v.vals).map fun q => s.convMember it q.1 q.2

/-- A member's outputs written to store, with the padding of its layout (R299) unless the tile was abandoned. -/
def State.storeRun (s : State) (it : Issue) (pads : Bool) (b : Nat) (r : OutRun) : State :=
  let t := it.tile
  let f := outFmt (acOut t.ctl)
  let z := if pads then outPads (acMode t.ctl) (s.outLayout t) (outSkew t.ctl) (tM t.w) t.cols else ([], [])
  let sz := if fmtScaled f then z.2.map fun o => (o, (0 : Byte)) else []
  let s' := s.putCodes f (s.dlAddr it (tOut t.w) + b * roundUp (s.outBytes t f) 64) (r.codes ++ z.1.map fun o => (o, 0))
  s'.putScales (s.dlAddr it (t.pl 160 32) + b * roundUp (s.outAt t 0 0).slen 64) (r.scales ++ sz)

def State.storeRuns (s : State) (it : Issue) (pads : Bool) (runs : List OutRun) : State :=
  ((List.range runs.length).zip runs).foldl (fun s r => s.storeRun it pads r.1 r.2) s

/-- The outputs of a tile as the next array's west queue takes them (`CHAIN`). -/
def State.chainOuts (s : State) (it : Issue) (runs : List OutRun) : List ChainOut :=
  let t := it.tile
  runs.map fun r =>
    { platform := t.platform, fmt := outFmt (acOut t.ctl), cols := t.cols
      elems := ((List.range (tM t.w)).map fun i => (List.range t.cols).map fun j =>
        let l := s.outAt t i j
        (tabGet 0 r.codes l.off, tabGet 0x7F#8 r.scales l.soff)).flatten }

/-- The outputs of a tile as the Junction takes them, each with its stream, row and index (R132, R640). -/
def State.jctOuts (s : State) (it : Issue) (vals : List (List (List W32))) : List JctIn :=
  let t := it.tile
  let c := t.ctl
  let f := outFmt (acOut c)
  (((List.range vals.length).zip vals).map fun bm => (((List.range bm.2.length).zip bm.2).map fun r =>
    ((List.range r.2.length).zip r.2).map fun q =>
      let v := (convElem f (roundingOf (acRound c) (s.arrayDraw it) (t.index bm.1 r.1 q.1)) (ofW q.2)).bits
      { platform := t.platform, stream := t.pl 130 1, row := t.row bm.1 r.1, col := t.col q.1, fmt := f
        value := if f = 5 then widenB16 (BitVec.ofNat 16 v) else BitVec.ofNat 32 v : JctIn }).flatten).flatten

/-- The carry store after an input-stationary tile: the running values of its last member, in the bank that the tile's parity of
`TILE_SEQ` names (DESIGN CHOICE, log entry 99). -/
def ArrayState.carried (x : ArrayState) (accs : List (List W32)) : Tab Nat :=
  let bank := bitsOf x.status 16 1
  ((List.range accs.length).zip accs).foldl (fun m r =>
    ((List.range (Nat.min 256 r.2.length)).zip r.2).foldl (fun m q => tabSet m (bank * 32768 + r.1 * 256 + q.1) q.2.toNat) m) x.carry

/-- `ARRAY_CTL`, `ARRAY_STATUS` and the cycle counts of a tile that has met its errors (R67, R68, R91). -/
def State.tileCounts (s : State) (it : Issue) (fz : Freeze) (replays : Nat) : State :=
  let a := cmdBits it.w 192 2
  let x := s.array it.core a
  let st := fields [(2, 1, if fz.lastDry then 1 else 0), (3, 1, if fz.lastDrain then 1 else 0),
    (5, 1, if (s.chainIn it.tile).isEmpty then 1 else 0), (8, 2, x.spareRows), (10, 2, x.spareCols), (16, 16, bitsOf x.status 16 16)]
  let s := s.setArray it.core a { x with ctl := loadedCtl it.w, status := st, armed := [] }
  ((((((s.count Od.ARRAY_ACTIVE_CYCLES (tileCycles it.w * (1 + replays))).count
    Od.ARRAY_FREEZE_CYCLES (fz.dry + fz.drain + fz.both)).count Od.ARRAY_FREEZE_DRY_CYCLES (fz.dry + fz.both)).count
    Od.ARRAY_FREEZE_DRAIN_CYCLES (fz.drain + fz.both)).count Od.ARRAY_THROTTLE_CYCLES fz.clock).count
    Od.TILE_REPLAYS replays)

/-- The block of a tensor in which value (r, c) of its gradient falls, and its index there (R197). -/
def gradPlace (w r c : Nat) : Nat × Nat :=
  if wgRows w = 1 then (c / 16384, c % 16384)
  else (r / 128 * ceilDiv (wgCols w) 128 + c / 128, 128 * (r % 128) + c % 128)

/-- A weight-gradient tile of a step that ends a window, of a tensor whose buffer lies in HBM: its block, which stands in the Yard, is
not written back there (R200, R201), and its values are kept for the bucket. -/
def State.keepGrads (s : State) (it : Issue) (vals : List (List (List W32))) : State :=
  let t := it.tile
  match s.jobImage with
  | none => s
  | some img => match img.wgrad (2 * 8192 + acTensor t.ctl % 8192) with
    | none => s
    | some w =>
      if t.outClass != 5 || regionOf (wgBuf w) != 0 || !endsWindow img.red it.step then s
      else
        let outs := ((List.range vals.length).zip vals).flatMap fun bm => ((List.range bm.2.length).zip bm.2).flatMap fun r =>
          ((List.range r.2.length).zip r.2).map fun q => (gradPlace w (t.row bm.1 r.1) (t.col q.1), q.2.toNat)
        { s with job := { s.job with grads := outs.foldl (fun g e =>
            tabMod [] g (wgTensor w * 2 ^ 20 + e.1.1) fun m => tabSet m e.1.2 e.2) s.job.grads } }

/-- The outputs of a tile on their route (R86, R132). A tile for store or for the next array completes with them; one for the
Junction once its last output has entered an input buffer (R87, R135). -/
def State.routeTile (s : State) (it : Issue) (runs : List OutRun) (vals : List (List (List W32))) : State :=
  match acRoute it.tile.ctl with
  | 0 => ((s.storeRuns it true runs).keepGrads it vals).tileEnd it
  | 1 =>
    let a := (cmdBits it.w 192 2 + 1) % 4
    let x := s.array it.core a
    (s.setArray it.core a { x with chain := x.chain ++ s.chainOuts it runs }).tileEnd it
  | _ =>
    let a := cmdBits it.w 192 2
    (s.setArray it.core a { s.array it.core a with drain := s.jctOuts it vals, running := some it }).jctSettle (dieOfCore it.core)

/-- A tile's results: what it will commit waits at its array (R80, R90), the west queue gives up what it took, and the outputs take
their route. -/
def State.tileEffect (s : State) (it : Issue) : State :=
  let t := it.tile
  let c := t.ctl
  let s := if fmtScaled (outFmt (acOut c)) && !s.serveMode then s.enterAmax it.step (acTensor c) else s
  let v := s.tileVals it t
  let runs := s.tileRuns it v
  let a := cmdBits t.w 192 2
  let x := s.array t.core a
  let s' := s.setArray t.core a { x with
    chain := dropChain t.platform (s.chainIn t).length x.chain
    carry := if acMode c = 1 then x.carried v.accs else x.carry
    counts := runs.foldl (fun (a : Tally) (r : OutRun) => a.join r.tally) v.tally
    peak := (toW (finiteMax (v.vals.flatten.flatten.map ofW))).toNat }
  s'.routeTile it runs v.vals

/-- The first `n` outputs of a tile that is abandoned after them (R638). -/
def State.tilePart (s : State) (it : Issue) (n : Nat) : State :=
  if acRoute it.tile.ctl != 0 || n = 0 then s
  else
    let runs := s.tileRuns it (s.tileVals it it.tile)
    let cut := runs.foldl (fun (a : List OutRun × Nat) r => (a.1 ++ [r.cut a.2], a.2 - r.codes.length)) ([], n)
    s.storeRuns it false cut.1

/-- Run a tile: replay it or abandon it where its array detects errors (R88, R638), else carry it out. A chained tile that names a
west scale address breaks R637 and is refused. -/
def State.runTile (fz : Freeze) (s : State) (it : Issue) : State :=
  if !(s.chainIn it.tile).isEmpty && tWestScale it.w != 0 then s.refuse it
  else
    let fate := tileFate (s.array it.core (cmdBits it.w 192 2)).armed (s.replayable it.tile)
    let s1 := s.start it (tileCycles it.w) (tileCycles it.w * (1 + fate.1))
    s1.reading it (s1.tileReads it) (s1.tileWrites it) fun s1 =>
      match fate.2 with
      | none => (s1.tileCounts it fz fate.1).tileEffect it
      | some (cause, n) =>
        let s1 := (s1.tilePart it n).tileCounts it fz fate.1
        (if fate.1 = 1 then s1.count Od.TILE_REPLAY_FAILURES 1 else s1).faultIssue it cause

/-- The shape of every TILE row. -/
def State.tileRow (fz : Freeze) (s : State) (c : Nat) (kinds : List CmdKind) : Out :=
  within (c < 288) "core" <| s.runEngine c kinds (fun s it => s.tileOk it) (fun s it => s.tileCan it) (State.runTile fz)

/-- TILE in output-stationary mode (R53 to R59, R70); a reserved mode is refused here (R10, R252). -/
def execTileOutputStat (c : Nat) (fz : Freeze) (s : State) : Out := s.tileRow fz c [.tileOut, .tileReserved]

/-- TILE in input-stationary mode (R60 to R62). -/
def execTileInputStat (c : Nat) (fz : Freeze) (s : State) : Out := s.tileRow fz c [.tileIn]

/-- TILE in element-wise mode (R78, R637). -/
def execTileElementwise (c : Nat) (fz : Freeze) (s : State) : Out := s.tileRow fz c [.tileElem]

/-- Physical rows (or columns) of an array in use: the first 128 of its 130 that no repair has disabled (R82). -/
def mappedLines (disabled : Nat → Bool) : List Nat := ((List.range 130).filter fun r => !disabled r).take 128

/-- A physical cell of an array onto which a logical cell is mapped (R82). -/
def State.cellMapped (s : State) (c a row col : Nat) : Bool :=
  (mappedLines fun r => s.depot.applied.contains (.arrayRow c a r)).contains row &&
  (mappedLines fun r => s.depot.applied.contains (.arrayCol c a r)).contains col

/-- A tile that drains into the Junction meets a detected error (R86, R88): it is replayed once if none of its outputs has left
yet, and abandoned otherwise. `STATE` 3 of the stored status tells that it is in its replay. -/
def State.drainError (s : State) (c a : Nat) (it : Issue) : State :=
  let x := s.array c a
  let left := x.drain.length = tM it.w * it.tile.cols * tBatch it.w && bitOf x.status 5
  let stop := fun (s : State) cause => (s.setArray c a { x with running := none, drain := [], counts := [], peak := 0 }).faultIssue it cause
  if !left then stop s causeNotReplayable
  else if bitsOf x.status 0 2 = 3 then stop (s.count Od.TILE_REPLAY_FAILURES 1) causeReplayFail
  else (s.setArray c a { x with status := setBits x.status 0 2 3 }).count Od.TILE_REPLAYS 1

/-- The error counts at its cell, and the tile of the array meets it (R84, R88): the one that drains now, or the next, after `out`
of its outputs. -/
def State.meetError (s : State) (c a cell row col out : Nat) : State :=
  let x := s.array c a
  let n := tabGet 0 x.cellErrors cell + 1
  match x.running with
  | some it => (s.setArray c a { x with cellErrors := tabSet x.cellErrors cell n }).drainError c a it
  | none =>
    let e : CellError := { cell := cell, row := row, col := col, out := out }
    s.setArray c a { x with cellErrors := tabSet x.cellErrors cell n, armed := x.armed ++ [e] }

/-- The repair that the second error at a cell calls for: a spare row if one is free, otherwise a spare column; beyond both, the
core's substitution (R84, R85). -/
def State.repairCell (s : State) (c a row col : Nat) : State :=
  let x := s.array c a
  let pend := s.depot.pending
  let rows := countIf (fun r => match r with | .arrayRow c' a' _ => c' = c && a' = a | _ => false) pend
  let cols := countIf (fun r => match r with | .arrayCol c' a' _ => c' = c && a' = a | _ => false) pend
  if x.spareRows + rows < 2 then s.record (.arrayRow c a row)
  else if x.spareCols + cols < 2 then s.record (.arrayCol c a col)
  else (s.record (.coreSlot c)).setOd Od.ARRAYS_REPAIR_EXHAUSTED (s.odv Od.ARRAYS_REPAIR_EXHAUSTED + 1)

/-- A detected error at a physical cell of an array (R84): `ARRAY_CELL_ERROR` is set, and a tile meets it (R88). The second at one
cell quarantines the core and records a repair. A spare or disabled cell, onto which no logical cell is mapped, runs no pass and
detects nothing (R82). -/
def execArrayDetectedError (c a cell row col out : Nat) (s : State) : Out :=
  within (c < 288 && a < 4 && row < 130 && col < 130 && cell = 130 * row + col) "core, array or cell" <|
    if !s.cellMapped c a row col then s
    else
      let second := tabGet 0 (s.array c a).cellErrors cell = 1
      let s := (s.meetError c a cell row col out).sticky 6
      if second then (s.quarantine c).repairCell c a row col else s

end Sys2Proof.Machine
end

