-- ==== Sys2Proof/Machine/Digest.lean ====
section
/-! DEFINITION. The checks the manual names by their standards: CRC-64/ECMA-182 (R231), CRC-32C (R339) and SHA-256
(R19, R246). -/

namespace Sys2Proof.Machine

open Sys2Proof

/-! ### CRC-64/ECMA-182: no reflection, initial value 0, no final XOR (R231) -/

def crc64Poly : Nat := 0x42F0E1EBA9EA3693

/-- One bit of the register's shift. -/
def crc64Bit (c : Nat) : Nat :=
  let d := (c <<< 1) % 2 ^ 64
  if c.testBit 63 then d ^^^ crc64Poly else d

def crc64Byte (c : Nat) (b : Byte) : Nat :=
  let x := c ^^^ (b.toNat <<< 56)
  crc64Bit (crc64Bit (crc64Bit (crc64Bit (crc64Bit (crc64Bit (crc64Bit (crc64Bit x)))))))

/-- The CRC of bytes that follow others whose CRC is `c`. -/
def crc64From (c : Nat) (bs : List Byte) : Nat := bs.foldl crc64Byte c

def crc64 (bs : List Byte) : Nat := crc64From 0 bs

/-! ### CRC-32C: reflected input and output, initial value and final XOR all ones (R339) -/

def crc32Bit (c : Nat) : Nat := if c.testBit 0 then (c >>> 1) ^^^ 0x82F63B78 else c >>> 1

def crc32Byte (c : Nat) (b : Byte) : Nat :=
  let x := c ^^^ b.toNat
  crc32Bit (crc32Bit (crc32Bit (crc32Bit (crc32Bit (crc32Bit (crc32Bit (crc32Bit x)))))))

def crc32c (bs : List Byte) : Nat := (bs.foldl crc32Byte 0xFFFFFFFF) ^^^ 0xFFFFFFFF

/-! ### SHA-256 -/

/-- The 64 round constants, 16 to a number, the first one lowest. -/
def shaConsts : List Nat :=
  [0xC19BF1749BDC06A780DEB1FE72BE5D74550C7DC3243185BE12835B01D807AA98AB1C5ED5923F82A459F111F13956C25BE9B5DBA5B5C0FBCF71374491428A2F98,
   0x1429296706CA6351D5A79147C6E00BF3BF597FC7B00327C8A831C66D983E515276F988DA5CB0A9DC4A7484AA2DE92C6F240CA1CC0FC19DC6EFBE4786E49B69C1,
   0x106AA070F40E3585D6990624D192E819C76C51A3C24B8B70A81A664BA2BFE8A192722C8581C2C92E766A0ABB650A735453380D134D2C6DFC2E1B213827B70A85,
   0xC67178F2BEF9A3F7A4506CEB90BEFFFA8CC7020884C8781478A5636F748F82EE682E6FF35B9CCA4F4ED8AA4A391C0CB334B0BCB52748774C1E376C0819A4C116]

def shaConst (t : Nat) : Nat := bitsOf (listGet 0 shaConsts (t / 16)) (32 * (t % 16)) 32

/-- A 32-bit word turned right, as the low half of the doubled word shifted. -/
def turn32 (x n : Nat) : Nat := ((x * (2 ^ 32 + 1)) >>> n) % 2 ^ 32

/-- The message schedule as a window of the last 16 words, the oldest first: the window one word on. -/
def shaSlide (win : List Nat) : List Nat :=
  let old := listGet 0 win 1
  let new := listGet 0 win 14
  let mixOld := turn32 old 7 ^^^ turn32 old 18 ^^^ (old >>> 3)
  let mixNew := turn32 new 17 ^^^ turn32 new 19 ^^^ (new >>> 10)
  win.drop 1 ++ [(listGet 0 win 0 + mixOld + listGet 0 win 9 + mixNew) % 2 ^ 32]

/-- The two registers of a compression, four words each with the newest first: the words that begin with `a` and those
that begin with `e`. -/
structure ShaPair where
  left : List Nat
  right : List Nat

/-- One round: with round constant plus schedule word `kw`, a new word enters each register and its oldest leaves. -/
def ShaPair.push (r : ShaPair) (kw : Nat) : ShaPair :=
  match r.left, r.right with
  | [p, q, u, last], [x, y, z, tail] =>
    let pick := z ^^^ (x &&& (y ^^^ z))
    let most := (p &&& q) ||| (u &&& (p ||| q))
    let t := tail + kw + pick + (turn32 x 6 ^^^ turn32 x 11 ^^^ turn32 x 25)
    { left := [(t + most + (turn32 p 2 ^^^ turn32 p 13 ^^^ turn32 p 22)) % 2 ^ 32, p, q, u]
      right := [(t + last) % 2 ^ 32, x, y, z] }
  | _, _ => r

/-- The rounds from round `t` on, `n` of them, with the schedule's window at round `t`. -/
def shaRounds : Nat → Nat → List Nat → ShaPair → ShaPair
  | 0, _, _, r => r
  | n + 1, t, win, r => shaRounds n (t + 1) (shaSlide win) (r.push (shaConst t + listGet 0 win 0))

def addWords (xs ys : List Nat) : List Nat := List.zipWith (fun x y => (x + y) % 2 ^ 32) xs ys

/-- A 64-byte block folded into the registers. -/
def ShaPair.fold (r : ShaPair) (block : List Byte) : ShaPair :=
  let v := shaRounds 64 0 ((chunks 4 16 block).map beNat) r
  { left := addWords r.left v.left, right := addWords r.right v.right }

def ShaPair.start : ShaPair :=
  { left := [0x6A09E667, 0xBB67AE85, 0x3C6EF372, 0xA54FF53A]
    right := [0x510E527F, 0x9B05688C, 0x1F83D9AB, 0x5BE0CD19] }

/-- The message with its one bit, its zeros and its length in bits. -/
def shaMessage (bs : List Byte) : List Byte :=
  bs ++ [0x80#8] ++ List.replicate ((119 - bs.length % 64) % 64) 0#8 ++ beBytes 8 (8 * bs.length)

/-- SHA-256, 32 bytes in the order of its standard (R7). -/
def sha256 (bs : List Byte) : List Byte :=
  let m := shaMessage bs
  let r := (chunks 64 (m.length / 64) m).foldl ShaPair.fold ShaPair.start
  (r.left ++ r.right).flatMap (beBytes 4)

end Sys2Proof.Machine
end

