-- ==== Sys2Proof/Machine/Moves.lean ====
section
/-! DEFINITION. MOVE (R295 to R303, R642 to R645): plain and skewed copies, moves to another package (R351, R352), the
Turntable (R181 to R183) and the Siding (R185 to R190). -/

namespace Sys2Proof.Machine

open Sys2Proof

/-! ### Fields of the payload (08, "Commands") -/

def mvSrc (w : CmdWord) : Nat := cmdBits w 128 64
def mvDst (w : CmdWord) : Nat := cmdBits w 192 64
def mvRows (w : CmdWord) : Nat := cmdBits w 256 32
def mvCols (w : CmdWord) : Nat := cmdBits w 288 32
def mvFmt (w : CmdWord) : Nat := cmdBits w 320 4
def mvSigEn (w : CmdWord) : Bool := cmdBit w 480
def mvSigCore (w : CmdWord) : Nat := cmdBits w 481 9
def mvSigCtr (w : CmdWord) : Nat := cmdBits w 490 6
def mvSigN (w : CmdWord) : Nat := cmdBits w 496 15

def ttMode (w : CmdWord) : Nat := bitsOf (ttCtl w) 0 2
def ttDst (w : CmdWord) : Nat := bitsOf (ttCtl w) 6 3
def ttTensor (w : CmdWord) : Nat := bitsOf (ttCtl w) 10 16
def sdDir (w : CmdWord) : Nat := bitsOf (sidingCtl w) 0 2
def sdFmt (w : CmdWord) : Nat := bitsOf (sidingCtl w) 2 2
def sdTensor (w : CmdWord) : Nat := bitsOf (sidingCtl w) 5 16

/-- A device address names another package (R351). -/
def isRemote (a : Nat) : Bool := regionOf a = 5

/-- The destination package, and the device address there, of a region 0x05 address (R351). -/
def remotePkg (a : Nat) : Nat := bitsOf a 46 10
def remoteAddr (a : Nat) : Nat :=
  match bitsOf a 43 3 with
  | 0 => bitsOf a 0 43
  | 1 => 2 ^ 56 + bitsOf a 0 43
  | _ => 2 ^ 57 + bitsOf a 32 6 * 2 ^ 40 + bitsOf a 0 32

/-- d of a skewed core-store view, or 0 (R298). -/
def skewOf (a : Nat) : Nat :=
  if regionOf a != 2 then 0 else match dlView (bitsOf a 0 32) with
    | 1 => 1 | 2 => 2 | 3 => 4 | _ => 0

/-- The natural view of the store that an address names. -/
def naturalOf (a : Nat) : Nat := if skewOf a = 0 then a else a - dlView (bitsOf a 0 32) * 2 ^ 28

/-! ### Geometry (R185 to R188, R298, R645; DEDUCED, log entries 34, 35) -/

/-- Groups of a `LOSSLESS` slot, and its reserved bytes (R186). -/
def sdGroups (w : CmdWord) : Nat := ceilDiv (mvRows w * mvCols w) 2048
/-- Bytes of an `F8_BLOCK` slot: its codes row after row, then from the next multiple of 64 its scales. -/
def sdScaleOff (w : CmdWord) : Nat := roundUp (mvRows w * mvCols w) 64
def sdScales (w : CmdWord) : Nat := mvRows w * ceilDiv (mvCols w) 32

/-- Bytes that a Siding slot holds contiguously; 0 for `RAW`, whose rows lie at their stride. -/
def slotBytes (w : CmdWord) : Nat :=
  match sdFmt w with
  | 1 => 4104 * sdGroups w
  | 2 => sdScaleOff w + sdScales w
  | _ => 0

/-- Source rows: their number, bytes and stride. -/
structure Rows where
  n : Nat
  bytes : Nat
  stride : Nat
  deriving DecidableEq, Repr

def strideOf (stride bytes : Nat) : Nat := if stride = 0 then bytes else stride

def srcRows (w : CmdWord) : Rows :=
  let b := fmtBytes (mvFmt w) (mvCols w)
  if sdDir w = 2 && sdFmt w != 0 then ⟨1, slotBytes w, slotBytes w⟩
  else ⟨mvRows w, b, strideOf (cmdBits w 352 32) b⟩

def dstRows (w : CmdWord) : Rows :=
  let st := cmdBits w 384 32
  let b := fmtBytes (mvFmt w) (mvCols w)
  let d := skewOf (mvDst w)
  if ttMode w = 1 then let b := fmtBytes (mvFmt w) (mvRows w); ⟨mvCols w, b, strideOf st b⟩
  else if ttMode w = 2 then let b := fmtBytes (outFmt (ttDst w)) (mvRows w); ⟨mvCols w, b, strideOf st b⟩
  else if sdDir w = 1 && sdFmt w != 0 then ⟨1, slotBytes w, slotBytes w⟩
  else if d = 0 then ⟨mvRows w, b, strideOf st b⟩
  else ⟨mvRows w + ceilDiv 128 d - 1, b, st⟩

/-- Bytes from the first byte of the first row to the last byte of the last. -/
def Rows.span (r : Rows) : Nat := (r.n - 1) * r.stride + r.bytes

/-- The (address, length) of each row. -/
def Rows.at (r : Rows) (a : Nat) : List (Nat × Nat) := (List.range r.n).map fun i => (a + i * r.stride, r.bytes)

/-- The scale array of a Turntable operand in a scaled format follows its rows, from the next multiple of 64 bytes. -/
def Rows.scaleAt (r : Rows) (a : Nat) : Nat := a + roundUp (r.n * r.stride) 64

/-- Scale bytes of a source row, where it has a channel scale and where it has block scales (R94). -/
def rowScales (w : CmdWord) (channel : Bool) : Nat := if channel then 1 else ceilDiv (mvCols w) 32

/-- The source has a scale array that the Turntable reads, and the destination one that it writes. -/
def ttSrcScales (w : CmdWord) (channel : Bool) : Nat :=
  if ttMode w != 0 && fmtScaled (mvFmt w) then mvRows w * rowScales w channel else 0
def ttDstScales (w : CmdWord) (channel : Bool) : Nat :=
  if ttMode w = 1 then ttSrcScales w channel else if ttMode w = 2 then mvCols w * ceilDiv (mvRows w) 32 else 0

/-- Bytes that a scale array at the end of an operand's rows takes, from the first row on. -/
def Rows.scaledSpan (r : Rows) (scales : Nat) : Nat := if scales = 0 then r.span else Nat.max r.span (r.scaleAt 0 + scales)

/-! ### Refusals -/

/-- `TT_CTL` and `SIDING_CTL` (R10, R54, R185, R642). -/
def moveCtlOk (w : CmdWord) : Bool :=
  let t := ttCtl w
  let d := sidingCtl w
  !bitOf t 9 && bitsOf t 26 6 = 0 && bitsOf d 21 11 = 0 && (t = 0 || d = 0) &&
  (match ttMode w with
   | 0 => t = 0
   | 1 => bitsOf t 2 4 = mvFmt w && ttDst w = 0 && ttTensor w = 0
   | 2 => bitsOf t 2 4 = mvFmt w && 2 ≤ ttDst w && ttDst w ≤ 6
   | _ => false) &&
  (match sdDir w with
   | 0 => d = 0
   | 3 => false
   | _ => (mvFmt w = 5 || (mvFmt w = 6 && sdFmt w = 0)) && sdFmt w != 3 && (bitOf d 4 = (mvFmt w = 6)) &&
      (sdFmt w = 2 || sdTensor w = 0))

/-- The remote signal's fields (R352). -/
def moveSigOk (w : CmdWord) : Bool :=
  if isRemote (mvDst w) && mvSigEn w then mvSigCore w < 288 && mvSigCtr w < 48 && mvSigN w != 0
  else cmdBits w 480 31 = 0

/-- Fields of the payload alone: reserved bits, counts, strides (R645), views (R298), and H16 as the source of a converting
move only (R95). -/
def moveFieldsOk (w : CmdWord) : Bool :=
  let raw := fmtBytes (mvFmt w) (mvCols w)
  let st := cmdBits w 352 32
  mvFmt w < 8 && (mvFmt w != 7 || ttMode w = 2) && cmdBits w 324 28 = 0 && !cmdBit w 511 && mvRows w != 0 && mvCols w != 0 && moveCtlOk w && moveSigOk w &&
  (st = 0 || raw ≤ st) && (cmdBits w 384 32 = 0 || (if sdDir w = 0 then (dstRows w).bytes else raw) ≤ cmdBits w 384 32) &&
  skewOf (mvSrc w) = 0 && regionOf (mvSrc w) < 4 &&
  (regionOf (mvDst w) < 4 || isRemote (mvDst w)) &&
  (skewOf (mvDst w) = 0 || (ttMode w = 0 && sdDir w = 0 && cmdBits w 384 32 != 0)) &&
  (!isRemote (mvDst w) || (bitsOf (mvDst w) 43 3 < 3 && skewOf (remoteAddr (mvDst w)) = 0 && ttMode w = 0 && sdDir w = 0 &&
    (bitsOf (mvDst w) 43 3 != 2 || bitsOf (mvDst w) 38 5 = 0)))

/-- Source and destination as the stores they name. -/
def State.mvFrom (s : State) (it : Issue) : Nat := s.devAddr it (mvSrc it.w)
def State.mvTo (s : State) (it : Issue) : Nat := s.devAddr it (naturalOf (mvDst it.w))

/-- The `n` bytes at an address of the command lie within one tier, or within the host's space (R295, R296). -/
def State.moveRange (s : State) (a n : Nat) : Bool :=
  if regionOf a = 3 then bitsOf a 0 56 + n ≤ 2 ^ 56 else s.inTier a n

/-- The source of a move has a channel scale (R94). -/
def State.srcChannel (s : State) (it : Issue) : Bool := mvFmt it.w = 4 && s.channelAt it.platform (mvSrc it.w)

/-- Ranges that a move reads and writes in device memory. -/
def State.moveReads (s : State) (it : Issue) : List (Nat × Nat) :=
  if regionOf (mvSrc it.w) = 3 then []
  else
    let a := s.mvFrom it
    let r := srcRows it.w
    let n := ttSrcScales it.w (s.srcChannel it)
    r.at a ++ (if n = 0 then [] else [(r.scaleAt a, n)])

def State.moveWrites (s : State) (it : Issue) : List (Nat × Nat) :=
  if regionOf (mvDst it.w) = 3 || isRemote (mvDst it.w) then []
  else
    let a := s.mvTo it
    let r := dstRows it.w
    let n := ttDstScales it.w (s.srcChannel it)
    r.at a ++ (if n = 0 then [] else [(r.scaleAt a, n)])

/-- Two lists of ranges share a byte. -/
def rangesMeet (l m : List (Nat × Nat)) : Bool := l.any fun a => m.any fun b => overlap a.1 a.2 b.1 b.2

/-- Source and destination share a byte (R302); host rows are compared as host bus addresses. -/
def State.moveOverlap (s : State) (it : Issue) : Bool :=
  if regionOf (mvSrc it.w) = 3 && regionOf (mvDst it.w) = 3 then
    rangesMeet ((srcRows it.w).at (mvSrc it.w)) ((dstRows it.w).at (mvDst it.w))
  else rangesMeet (s.moveReads it) (s.moveWrites it)

/-- A place of the issuing die, or HBM (R643). -/
def nearTt (die a : Nat) : Bool := regionOf a = 0 || (regionOf a = 2 && dieOf a = die)

/-- A source in confined rows stays in the Yard and core stores of its die (R15, R16, R18). -/
def State.moveLogits (s : State) (it : Issue) : Bool :=
  let inside := regionOf (mvDst it.w) = 2 && dieOf (s.mvTo it) = dieOf (s.mvFrom it)
  inside || !((s.moveReads it).any fun r => s.inConfined r.1 r.2)

/-- The scale-table entry of a converting move (R118, R187). -/
def State.moveEntryOk (s : State) (it : Issue) : Bool :=
  let p := it.platform
  if ttMode it.w = 2 then s.entryFor p (ttTensor it.w) (ttDst it.w)
  else if sdDir it.w = 1 && sdFmt it.w = 2 then
    s.entryFor p (sdTensor it.w) 2 && (s.scaleMode p (sdTensor it.w)).blockCurrent
  else true

/-- A move that issue does not refuse. -/
def State.moveOk (s : State) (it : Issue) : Bool :=
  let w := it.w
  let die := dieOfCore it.core
  let pl := s.issuer it
  let far := isRemote (mvDst w)
  moveFieldsOk w &&
  s.moveRange (s.mvFrom it) ((srcRows w).scaledSpan (ttSrcScales w (s.srcChannel it))) &&
  (if far then pl.vf = 0 && bitOf (s.pointsEntry (remotePkg (mvDst w))) 21
   else s.moveRange (s.mvTo it) ((dstRows w).scaledSpan (ttDstScales w (s.srcChannel it)))) &&
  (ttMode w = 0 || (nearTt die (s.mvFrom it) && nearTt die (s.mvTo it))) &&
  (sdDir w != 1 || (regionOf (mvSrc w) = 2 && dieOf (s.mvFrom it) = die && regionOf (mvDst w) = 0)) &&
  (sdDir w != 2 || (regionOf (mvSrc w) = 0 && regionOf (mvDst w) = 2 && dieOf (s.mvTo it) = die)) &&
  (far || !s.moveOverlap it) && s.moveLogits it && s.moveEntryOk it &&
  (s.moveReads it).all (fun r => pl.granted r.1 r.2 false && !s.inReserve r.1 r.2) &&
  (s.moveWrites it).all fun r => pl.granted r.1 r.2 true && !s.inReserve r.1 r.2 && !s.inImage r.1 r.2

/-! ### Reading and writing rows -/

/-- Row `r` of the source, of device or host memory. A host read that the host completes with an error gives bytes that
the manual does not state: free values. -/
def State.moveRow (s : State) (it : Issue) (r : Nat) : List Byte :=
  let w := it.w
  let x := srcRows w
  if regionOf (mvSrc w) = 3 then
    let a := bitsOf (mvSrc w) 0 56 + r * x.stride
    if s.hostBad.any fun b => overlap b.1 b.2 a x.bytes then (fromTo (s.fresh + r * x.bytes) x.bytes).map Config.freeByte
    else memBytes s.hostMem a x.bytes
  else s.load (s.mvFrom it + r * x.stride) x.bytes

/-- The code of element (r, c) of the source. -/
def State.moveCode (s : State) (it : Issue) (r c : Nat) : Nat :=
  let row := s.moveRow it r
  codeAt (mvFmt it.w) (fun i => listGet 0 row i) c

/-- Bytes written at an address of the destination's region. -/
def State.putAt (s : State) (owner port : Nat) (host : Bool) (a : Nat) (bs : List Byte) : State :=
  if host then s.hostPut owner port (bitsOf a 0 56) bs else s.put a bs

/-- The last byte of a row of an odd number of 4-bit elements keeps the other nibble (R93). -/
def keepNibble (f n : Nat) (old : Byte) (row : List Byte) : List Byte :=
  if fmtBits f = 4 && n % 2 = 1 then
    row.dropLast ++ [BitVec.ofNat 8 ((listGet 0 row (row.length - 1)).toNat % 16 + old.toNat / 16 * 16)]
  else row

/-- Write one natural row. -/
def State.putRow (s : State) (it : Issue) (r : Nat) (row : List Byte) : State :=
  let w := it.w
  let host := regionOf (mvDst w) = 3
  let a := (if host then mvDst w else s.mvTo it) + r * (dstRows w).stride
  let last := a + row.length - 1
  let old := if host then memGet s.hostMem (bitsOf last 0 56) else memGet s.mem last
  s.putAt it.platform (s.issuer it).port host a (keepNibble (mvFmt w) (mvCols w) old row)

/-- A plain copy, row after row. -/
def State.copyRows (s : State) (it : Issue) : State :=
  ((List.range (mvRows it.w)).map fun r => (r, s.moveRow it r)).foldl (fun s q => s.putRow it q.1 q.2) s

/-- A copy through a skewed view: element p of row t goes to line t + floor(p mod 128 ÷ d) (R298). -/
def State.copySkewed (s : State) (it : Issue) : State :=
  let w := it.w
  let d := skewOf (mvDst w)
  let st := (dstRows w).stride
  (List.range (mvRows w)).foldl (fun s' t =>
    (List.range (mvCols w)).foldl (fun s' p =>
      s'.putCodes (mvFmt w) (s.mvTo it + (t + p % 128 / d) * st) [(p, s.moveCode it t p)]) s') s

/-! ### A move that has ended -/

/-- Cost of a move: its bytes ÷ 64, rounded up (R456); its cycles are taken equal (DEDUCED, log entry 90). -/
def moveCost (w : CmdWord) : Nat := ceilDiv ((srcRows w).n * (srcRows w).bytes) 64

/-- Host bytes read by a move are counted. -/
def State.countHostRead (s : State) (it : Issue) : State :=
  if regionOf (mvSrc it.w) = 3 then
    let n := (srcRows it.w).n * (srcRows it.w).bytes
    { s with fresh := s.fresh + n }.count Od.HOST_READ_BYTES n
  else s

/-- A step of the student that must wait: the update of a window that ended before it is not decided, or is decided and not
complete (R20, R547). -/
def State.stepHeld (s : State) (img : Image) (step : Nat) : Bool :=
  let n := rdInterval img.red
  let last := step / n * n - 1
  let first := match s.job.restoredW with
    | some w => w + 1
    | none => 0
  n != 0 && n ≤ step && first ≤ last && ((match s.job.decided with
    | some d => d < last
    | none => true) || (s.job.studentHeld && s.red.step < step))

/-- The move reads a working copy that the update of an earlier step has not released (R20, R547). -/
def State.copyHeld (s : State) (it : Issue) : Bool :=
  match s.jobImage with
  | none => false
  | some img => s.stepHeld img it.step && img.updates.any fun (x : Nat × Nat) =>
      overlap (mvSrc it.w) ((srcRows it.w).n * (srcRows it.w).stride) (udWc x.1) (32768 * wgBlocks x.2)

/-- A parked island lies where one of the `n` bytes at a device address is stored, or on the way from the die of the
command to it: the memory's controller and its edge fabric, or a die's Yard or core and its fabric (R49). -/
def State.rangeParked (s : State) (a n : Nat) : Bool :=
  let granule := fun i => 0 < n && (i + 16 - a / 4096 % 16) % 16 ≤ (a + n - 1) / 4096 - a / 4096
  s.islands.any fun e => e.2.parked && match regionOf a with
    | 2 => e.1 = islandOf a || e.1 = 0x3000 + dieOf a
    | r => (e.1 / 4096 = 5 + r && granule (e.1 % 4096)) ||
        (e.1 / 4096 = 4 && (granule (2 * (e.1 % 4096)) || granule (2 * (e.1 % 4096) + 1)))

/-- The islands of a host port run, and its link is up (R49, R320). -/
def State.hostPathUp (s : State) (port : Nat) : Bool :=
  (s.port port).linkUp && !(s.island (0x9000 + port)).parked && !(s.island (0xA000 + port)).parked

/-- The move may start: the ports and islands that it needs carry traffic (R49, R320), a port leads to its destination
package, and its source is released (R20). -/
def State.moveCan (s : State) (it : Issue) : Bool :=
  ((regionOf (mvSrc it.w) != 3 && regionOf (mvDst it.w) != 3) || s.hostPathUp (s.issuer it).port) &&
  !((s.moveReads it ++ s.moveWrites it).any fun r => s.rangeParked r.1 r.2) &&
  (!isRemote (mvDst it.w) || (s.choosePort (bitsOf (s.pointsEntry (remotePkg (mvDst it.w))) 0 16) 0).isSome) && !s.copyHeld it

/-- Pieces of at most 1,048,576 bytes of a row that starts at an address. -/
def linkPieces (a : Nat) (row : List Byte) : List (Nat × List Byte) :=
  let ps := chunks 1048576 (row.length / 1048576 + 1) row
  ((List.range ps.length).zip ps).map fun q => (a + 1048576 * q.1, q.2)

/-- The messages of a move to another package (R352): destination address and bytes. A message names bytes, so an odd 4-bit row sends
its whole last byte, whose other nibble the destination takes too (R93; DEDUCED, log entry 109). -/
def State.moveMessages (s : State) (it : Issue) : List (Nat × List Byte) :=
  let w := it.w
  ((List.range (mvRows w)).map fun r =>
    linkPieces (remoteAddr (mvDst w) + r * (dstRows w).stride) (s.moveRow it r)).flatten

/-- Send one `MOVE_WRITE`; answers the state and its message identifier. -/
def State.sendMoveWrite (s : State) (d a : Nat) (bs : List Byte) (sig : List (Nat × Nat × Nat)) : State × Nat :=
  (s.sendTo 1 d ([(128, 64, a)] ++ sig) bs (crc64 bs), s.nextMsgId d (vcOfKind 1))

/-- A move to another package is sent and waits for its acknowledgements. -/
def State.sendMove (s : State) (it : Issue) : State :=
  let w := it.w
  let d := remotePkg (mvDst w)
  let ms := s.moveMessages it
  let sig := if mvSigEn w then [(312, 1, 1), (313, 9, mvSigCore w), (322, 6, mvSigCtr w), (328, 15, mvSigN w)] else []
  let r := ((List.range ms.length).zip ms).foldl (fun acc q =>
    let r := acc.1.sendMoveWrite d q.2.1 q.2.2 (if q.1 + 1 = ms.length then sig else [])
    (r.1, acc.2 ++ [(d, r.2)])) (s, [])
  { r.1 with moves := r.1.moves ++ [{ it := it, waiting := r.2 }] }

/-- A plain MOVE. -/
def State.runMove (s : State) (it : Issue) : State :=
  let w := it.w
  let n := moveCost w
  (s.start it n n).reading it (s.moveReads it) (s.moveWrites it) fun s1 =>
    if isRemote (mvDst w) then (s1.countHostRead it).sendMove it
    else
      let s2 := if skewOf (mvDst w) = 0 then s1.copyRows it else s1.copySkewed it
      (s2.countHostRead it).finish it

/-- The shape of every MOVE row: a command of one kind starts at the move engine, or issues to it. -/
def State.moveEngine (s : State) (c : Nat) (kinds : List CmdKind) (run : State → Issue → State) : State :=
  s.runEngine c kinds State.moveOk State.moveCan run

/-- MOVE with `TT_MODE` and `SD_DIR` both `NONE`; a reserved mode is refused here (R10, R252). -/
def execMove (c : Nat) (s : State) : Out :=
  within (c < 288) "core" <| s.moveEngine c [.moveCopy, .moveReserved] State.runMove

/-! ### The Turntable (R181 to R183) -/

/-- Blocks of 128 × 128 elements of a move. -/
def ttBlocks (w : CmdWord) : Nat := ceilDiv (mvRows w) 128 * ceilDiv (mvCols w) 128

/-- TRANSPOSE permutes the element and scale codes of the source (R181). -/
def State.ttTranspose (s : State) (it : Issue) : State :=
  let w := it.w
  let f := mvFmt w
  let dst := s.mvTo it
  let st := (dstRows w).stride
  let s' := (List.range (mvCols w)).foldl (fun s' c =>
    (List.range (mvRows w)).foldl (fun s' r => s'.putCodes f (dst + c * st) [(r, s.moveCode it r c)]) s') s
  if ttSrcScales w (s.srcChannel it) = 0 then s'
  else
    let nb := rowScales w (s.srcChannel it)
    let from' := (srcRows w).scaleAt (s.mvFrom it)
    (List.range (mvRows w)).foldl (fun s' r =>
      (List.range nb).foldl (fun s' b =>
        s'.put ((dstRows w).scaleAt dst + b * mvRows w + r) [memGet s.mem (from' + r * nb + b)]) s') s'

/-- The exact value of element (r, c) of the source with its scale. -/
def State.moveValue (s : State) (it : Issue) (r c : Nat) : Num :=
  let w := it.w
  let f := mvFmt w
  let sc := if fmtScaled f then
      scaleOf (memGet s.mem ((srcRows w).scaleAt (s.mvFrom it) +
        if s.srcChannel it then r else r * ceilDiv (mvCols w) 32 + c / 32))
    else some 0
  match sc with
  | none => .nan
  | some g => (decodeElem f (s.moveCode it r c)).value f g

/-- Non-finite elements of the source, and NaN-scaled blocks once each (R104). -/
def State.moveNonfinite (s : State) (it : Issue) : Nat :=
  let w := it.w
  let f := mvFmt w
  let nb := rowScales w (s.srcChannel it)
  let base := (srcRows w).scaleAt (s.mvFrom it)
  let els := ((List.range (mvRows w)).map fun r =>
    countIf (fun c => !(decodeElem f (s.moveCode it r c)).isFin) (List.range (mvCols w))).foldl (· + ·) 0
  let blks := if fmtScaled f then countIf (fun k => (scaleOf (memGet s.mem (base + k))).isNone) (List.range (mvRows w * nb)) else 0
  els + blks

/-- REQUANT converts the transposed tensor with RNE, in blocks along its rows (R182). -/
def State.ttRequant (s : State) (it : Issue) : State :=
  let w := it.w
  let tid := ttTensor w
  let p := it.platform
  let s := if s.serveMode then s else s.enterAmax it.step tid
  let f := outFmt (ttDst w)
  let m := s.scaleMode p tid
  let cls := tid / 8192
  let rows := (List.range (mvCols w)).map fun k => (List.range (mvRows w)).map fun r => s.moveValue it r k
  let nb := ceilDiv (mvRows w) 32
  let runs := rows.map fun row => convRun cls f m (((List.range row.length).zip row).map fun q =>
    { off := q.1, soff := q.1 / 32, x := q.2, r := .rne : OutElem })
  let dst := s.mvTo it
  let x := dstRows w
  let s1 := ((List.range runs.length).zip runs).foldl (fun (s : State) q =>
    (s.putCodes f (dst + q.1 * x.stride) q.2.codes).putScales (x.scaleAt dst + q.1 * nb) q.2.scales) s
  let tal := (runs.foldl (fun (t : Tally) (r : OutRun) => t.join r.tally) []).add cls (mvFmt w) 3 (s.moveNonfinite it)
  (s1.commit tal).recordAmax it.step tid (finiteMax rows.flatten)

/-- The detected errors that wait in blocks of the move: each replays its block (R183). -/
def State.ttMet (s : State) (it : Issue) : List (Nat × Bool) :=
  (s.die (dieOfCore it.core)).ttErrors.filter fun e => e.1 < ttBlocks it.w

/-- `TT_CTL` as loaded, and the replays that the move's blocks meet. -/
def State.loadTt (s : State) (it : Issue) : State :=
  let x := s.die (dieOfCore it.core)
  (s.setDie (dieOfCore it.core) { x with ttCtl := ttCtl it.w, ttErrors := x.ttErrors.filter fun e => ttBlocks it.w ≤ e.1 }).count
    Od.TT_REPLAYS (s.ttMet it).length

/-- A move through the Turntable: each detected error in a block of it replays that block once, and a second one in the
same block faults the job (R183). -/
def State.runTurntable (eff : State → Issue → State) (s : State) (it : Issue) : State :=
  let n := moveCost it.w
  (s.start it n n).reading it (s.moveReads it) (s.moveWrites it) fun s1 =>
    let s2 := s1.loadTt it
    if (s1.ttMet it).any (·.2) then s2.faultIssue it causeTtReplay
    else ((eff s2 it).count Od.TT_BLOCKS (ttBlocks it.w)).finish it

/-- MOVE with `TT_MODE` `TRANSPOSE`. -/
def execMoveTranspose (c : Nat) (s : State) : Out :=
  within (c < 288) "core" <| s.moveEngine c [.moveTranspose] (State.runTurntable State.ttTranspose)

/-- MOVE with `TT_MODE` `REQUANT`. -/
def execMoveRequant (c : Nat) (s : State) : Out :=
  within (c < 288) "core" <| s.moveEngine c [.moveRequant] (State.runTurntable State.ttRequant)

/-- A detected error waits in a block of the die's next Turntable move; `again` tells that the block's replay meets one
too (R183). -/
def execTurntableDetectedError (die block : Nat) (again : Bool) (s : State) : Out :=
  within (die < 48) "die" <|
    let x := s.die die
    let old := x.ttErrors.any fun e => e.1 = block
    s.setDie die { x with
      ttErrors := x.ttErrors.filter (fun e => e.1 != block) ++ [(block, again || old)] }

/-! ### The Siding (R185 to R190) -/

/-- One `LOSSLESS` group of 2,048 B16 codes as its slot holds it, and whether it is raw (R186). -/
def packGroup (xs : List Nat) : List Byte × Bool :=
  let exps := (xs.map fun x => bitsOf x 7 8).filter (· != 0)
  let b := exps.foldl Nat.min 255
  let b := if exps.isEmpty then 0 else b
  if exps.all fun e => e ≤ b + 14 && e != 255 then
    let head := [1#8, BitVec.ofNat 8 b] ++ List.replicate 6 0
    let low := xs.map fun x => BitVec.ofNat 8 (bitsOf x 0 7 + 128 * bitsOf x 15 1)
    let code := fun x => if bitsOf x 7 8 = 0 then 0 else bitsOf x 7 8 + 1 - b
    let nib := (chunks 2 1024 (xs.map code)).map fun p => BitVec.ofNat 8 (listGet 0 p 0 + 16 * listGet 0 p 1)
    (head ++ low ++ nib, false)
  else (([0#8, BitVec.ofNat 8 b] ++ List.replicate 6 0) ++ (xs.map (leBytes 2)).flatten, true)

/-- The 2,048 codes of the group at the head of slot bytes, and the bytes after it. -/
def unpackGroup (bs : List Byte) : List Nat × List Byte :=
  let b := (listGet 0 bs 1).toNat
  let d := bs.drop 8
  if listGet 0 bs 0 = 1#8 then
    let nib := d.drop 2048
    let xs := (List.range 2048).map fun i =>
      let low := (listGet 0 d i).toNat
      let c := bitsOf (listGet 0 nib (i / 2)).toNat (4 * (i % 2)) 4
      low % 128 + (if c = 0 then 0 else b + c - 1) * 128 + low / 128 * 32768
    (xs, d.drop 3072)
  else ((List.range 2048).map fun i => leNat ((d.drop (2 * i)).take 2), d.drop 4096)

/-- The groups of a slot, one after another. -/
def unpackGroups : Nat → List Byte → List Nat
  | 0, _ => []
  | n + 1, bs => let g := unpackGroup bs; g.1 ++ unpackGroups n g.2

/-- The B16 codes of the source in row-major order. -/
def State.sourceCodes (s : State) (it : Issue) : List Nat :=
  ((List.range (mvRows it.w)).map fun r => (List.range (mvCols it.w)).map fun c => s.moveCode it r c).flatten

/-- A `LOSSLESS` spill: groups back to back; the last is filled up with +0. -/
def State.spillLossless (s : State) (it : Issue) : State × Nat :=
  let g := sdGroups it.w
  let xs := s.sourceCodes it
  let xs := xs ++ List.replicate (2048 * g - xs.length) 0
  let packed := (chunks 2048 g xs).map packGroup
  let bs := (packed.map (·.1)).flatten
  ((s.put (s.mvTo it) bs).count Od.SIDING_RAW_GROUPS (countIf (·.2) packed), bs.length)

/-- An `F8_BLOCK` spill under a `BLOCK_CURRENT` entry (R187). -/
def State.spillF8 (s : State) (it : Issue) : State × Nat :=
  let w := it.w
  let tid := sdTensor w
  let p := it.platform
  let cls := tid / 8192
  let nb := ceilDiv (mvCols w) 32
  let xs := s.sourceCodes it
  let s := if s.serveMode then s else s.enterAmax it.step tid
  let vals := xs.map fun x => fmtB16.dec x
  let o := convRun cls 2 (s.scaleMode p tid) (((List.range vals.length).zip vals).map fun q =>
    { off := q.1, soff := q.1 / mvCols w * nb + q.1 % mvCols w / 32, x := q.2, r := .rne : OutElem })
  let a := s.mvTo it
  let s := (s.putCodes 2 a o.codes).putScales (a + sdScaleOff w) o.scales
  let tal := o.tally.add cls 5 3 (countIf (fun (v : Num) => !v.isFin) vals)
  ((s.commit tal).recordAmax it.step tid (finiteMax vals), mvRows w * mvCols w + sdScales w)

/-- `SIDING_CTL` as loaded. -/
def State.loadSiding (s : State) (it : Issue) : State :=
  s.setDie (dieOfCore it.core) { s.die (dieOfCore it.core) with sidingCtl := sidingCtl it.w }

/-- The slot written in the format of the spill, and its bytes. -/
def State.spillSlot (s : State) (it : Issue) : State × Nat :=
  match sdFmt it.w with
  | 1 => s.spillLossless it
  | 2 => s.spillF8 it
  | _ => (s.copyRows it, (srcRows it.w).n * (srcRows it.w).bytes)

/-- A spill: `SIDING_RAW_BYTES` counts what is presented, `SIDING_STORED_BYTES` what the slot receives. -/
def State.runSpill (s : State) (it : Issue) : State :=
  let w := it.w
  let n := moveCost w
  let raw := (srcRows w).n * (srcRows w).bytes
  (s.start it n n).reading it (s.moveReads it) (s.moveWrites it) fun s1 =>
    let r := (s1.loadSiding it).spillSlot it
    ((r.1.count Od.SIDING_RAW_BYTES raw).count Od.SIDING_STORED_BYTES r.2).finish it

/-- MOVE with `SD_DIR` `SPILL`. -/
def execMoveSpill (c : Nat) (s : State) : Out :=
  within (c < 288) "core" <| s.moveEngine c [.moveSpill] State.runSpill

/-- One element of an `F8_BLOCK` fill as B16, with what it counts (R188). -/
def fillElem (sc : Option Int) (code : Nat) : Conv × Bool :=
  match sc with
  | none => (⟨0x7FC0, false, false, false⟩, true)
  | some g =>
    let e := decodeElem 2 code
    (fmtB16.conv .rne (e.value 2 g), !e.isFin)

/-- An `F8_BLOCK` fill: elements in row-major order, and its counts. -/
def State.fillF8 (s : State) (it : Issue) : List Nat × Tally :=
  let w := it.w
  let a := s.mvFrom it
  let nb := ceilDiv (mvCols w) 32
  let cls := sdTensor w / 8192
  let es := (List.range (mvRows w * mvCols w)).map fun i =>
    fillElem (scaleOf (memGet s.mem (a + sdScaleOff w + i / mvCols w * nb + i % mvCols w / 32))) (memGet s.mem (a + i)).toNat
  (es.map (·.1.bits), (Tally.convs [] cls 5 (es.map (·.1))).add cls 5 3 (countIf (·.2) es))

/-- Write B16 codes to the destination rows of a fill. -/
def State.putFill (s : State) (it : Issue) (xs : List Nat) : State :=
  let w := it.w
  let rows := chunks (mvCols w) (mvRows w) xs
  ((List.range rows.length).zip rows).foldl (fun s q => s.putRow it q.1 ((q.2.map (leBytes 2)).flatten)) s

/-- The rows written from the slot in its format. -/
def State.fillSlot (s : State) (it : Issue) : State :=
  match sdFmt it.w with
  | 1 => s.putFill it (unpackGroups (sdGroups it.w) (s.load (s.mvFrom it) (slotBytes it.w)))
  | 2 => let r := s.fillF8 it; (s.putFill it r.1).commit r.2
  | _ => s.copyRows it

/-- A fill. An uncorrected error in its slot faults the job with `SIDING_FILL_ECC` (R190). -/
def State.runFill (s : State) (it : Issue) : State :=
  let w := it.w
  let n := moveCost w
  let s1 := s.start it n n
  match ((s1.moveReads it).map fun r => badIn s1.eccBad r.1 r.2).flatten with
  | e :: _ =>
    let u := s1.uncorrected e
    let s2 := (u.1.setStream it.core it.slot { u.1.stream it.core it.slot with state := 4 }).count Od.SIDING_FILL_ERRORS 1
    s2.faultOwner it.platform it.tcore { u.2 with cause := causeSidingEcc, core := it.core, slot := it.slot, cmd := it.cmd }
  | [] =>
    s1.reading it [] (s1.moveWrites it) fun s1 =>
      ((s1.loadSiding it).fillSlot it).finish it

/-- MOVE with `SD_DIR` `FILL`. -/
def execMoveFill (c : Nat) (s : State) : Out :=
  within (c < 288) "core" <| s.moveEngine c [.moveFill] State.runFill

end Sys2Proof.Machine
end

