-- ==== Sys2Proof/Machine/Ring.lean ====
section
/-! DEFINITION. The reduction ring as this package sees it: its place and its neighbours (R373, R383), the stripes of the
messages it receives, the sources from which it admits them, and the messages that a port holds (R376, R377, R386). -/

namespace Sys2Proof.Machine

open Sys2Proof

/-! ### The ring -/

def State.ringSize (s : State) : Nat := s.odv Od.RED_RING_SIZE

/-- This package is a shadow. -/
def State.isShadow (s : State) : Bool := s.odv Od.RED_RING_POS = 0xFFFF

/-- The position this package computes: its own, or the one it shadows. -/
def State.ringPos (s : State) : Nat := if s.isShadow then s.odv Od.RED_SHADOW_OF else s.odv Od.RED_RING_POS

def State.ringPkg (s : State) (q : Nat) : Nat := bitsOf (s.odv Od.RED_RING_TABLE) (16 * q) 16
def State.shadowPkg (s : State) (q : Nat) : Nat := bitsOf (s.odv Od.RED_SHADOW_TABLE) (16 * q) 16
def State.succPos (s : State) : Nat := (s.ringPos + 1) % s.ringSize
def State.predPos (s : State) : Nat := (s.ringPos + s.ringSize - 1) % s.ringSize

/-- The reduction descriptor of the running job. -/
def State.redDesc (s : State) : Nat :=
  match s.jobImage with
  | some img => img.red
  | none => 0

/-! ### Stripe messages -/

/-- The stripe of a message of the exchange, if it is one. -/
def State.stripeOf (s : State) (m : Message) : Option Nat :=
  let r := s.redDesc
  let a := if bitsOf m.header 288 8 = 1 then m.localAddr else m.dstAddr
  if s.job.active && rdImage r ≤ a && m.bytes = stripeBytes && (a - rdImage r) % stripeBytes = 0 &&
      (a - rdImage r) / stripeBytes < rdStripes r then some ((a - rdImage r) / stripeBytes)
  else none

/-- The sources from which this package admits: its predecessor, or that position's shadow once it is substituted (R386);
a shadow admits from both (DEDUCED, log entry 42). -/
def State.admitted (s : State) : List Nat :=
  let p := s.predPos
  if s.isShadow then [s.ringPkg p, s.shadowPkg p]
  else if s.red.substituted then [s.shadowPkg p] else [s.ringPkg p]

/-- The head message of a port's VC1 would be admitted now (R377). -/
def State.admits (s : State) (m : Message) (j : Nat) : Bool :=
  let gather := bitsOf m.header 288 8 = 0
  s.admitted.contains m.src &&
  !(if gather then s.red.admittedGather else s.red.admittedReduce).contains j

/-- The message may go to the adders: no update of the last exchange still reads the image, and its bucket is filled (R376). -/
def State.bucketOpen (s : State) (j : Nat) : Bool := s.job.update = 0 && s.red.filled.contains (stripeBucket s.redDesc j)

/-- A message of VC1 that waits in the receive buffer of its port until its bucket is filled (R376): the one at the front once it
is admitted, any other that would be. -/
def State.waitsAt (s : State) (p : Nat) (front : Bool) (m : Message) : Bool :=
  m.kind = 2 && m.dst = s.pkg && m.epoch = s.odv Od.POINTS_EPOCH &&
  match s.stripeOf m with
  | some j => ((front && s.red.holding.contains p) || s.admits m j) && !s.bucketOpen j
  | none => false

/-- The message whose header flit has arrived and whose other flits have not. -/
def LinkVc.begun (c : LinkVc) : Option Message :=
  c.partFlits.head?.map fun h => { header := h.flit, data := [], crc := 0 }

/-- The messages of a VC with the flits of each that have arrived, oldest first. -/
def LinkVc.arrivals (c : LinkVc) : List (Message × Nat) :=
  (c.inbox.map fun m => (m, 2 + ceilDiv m.data.length 256)) ++
  match c.begun with
  | some m => [(m, c.partFlits.length)]
  | none => []

end Sys2Proof.Machine
end

