-- ==== Sys2Proof/Machine/Linam.lean ====
section
/-! DEFINITION. Linam ports (10): training, groups, credits and retry, lane substitution, messages at their destination and
on their way, and the Points. -/

namespace Sys2Proof.Machine

open Sys2Proof

def linkOk (p : Nat) : Bool := p < 16

def lpKey (k p : Nat) : Nat := k + 256 * p

/-- The port's island is parked. -/
def State.portParked (s : State) (p : Nat) : Bool := (s.island (0x7000 + p)).parked

/-! ### Ports that fail (R338) -/

/-- The committed Points, or the masks beside them, name a port. -/
def State.portNamed (s : State) (p : Nat) : Bool :=
  ((List.range 1024).any fun d => bitOf (s.pointsEntry d) 21 && bitOf (s.pointsEntry d) p) ||
  [Od.TREE_PARENT_MASK, Od.TREE_CHILD_MASK, Od.RING_NEXT_MASK, Od.RING_PREV_MASK].any fun k => bitOf (s.odv k) p

/-- Every job and context whose Points name a port faults with `LINK_PROTOCOL` (R51, R338). -/
def State.faultPort (s : State) (p : Nat) : State :=
  let e : Event := { cause := causeLinkProtocol, island := 0x7000 + p, detail := p }
  let s := s.capture e
  if !s.portNamed p then s
  else if s.serveMode then
    (s.plats.filter fun q => q.2.held).foldl (fun s q => s.faultPlatform q.1 causeLinkProtocol 0x1FF 7 0) s
  else s.faultJob { e with platform := 0 }

/-- `BUDDY_STATE` reads `LOST` once every port that leads to the buddy has failed, which is all that the package can see of its
buddy's failure (R566; DESIGN CHOICE, log entry 59). -/
def State.buddyLost (s : State) (p : Nat) : State :=
  let mask := bitsOf (s.pointsEntry (s.odv Od.BUDDY_PKG)) 0 16
  if s.odv Od.BUDDY_PKG < 1024 && bitOf mask p && (maskPorts mask).all fun q => s.odv (lpKey Od.LP_STATE q) = 5 then
    s.setOd Od.BUDDY_STATE 3
  else s

/-- A port leaves `ACTIVE` for another state, or is reset (R338): what it held is lost, and it retrains. -/
def State.portLost (s : State) (p st : Nat) : State :=
  (((s.setLink p .empty).setOd (lpKey Od.LP_STATE p) st).buddyLost p).faultPort p

/-! ### Flits and groups -/

/-- Kinds that carry data flits and a trailer flit. -/
def kindHasData (k : Nat) : Bool := k = 1 || k = 2 || k = 7

/-- The flits of a message, as frames without their trailer nibbles (10, "Messages"). -/
def Message.flits (m : Message) : List Frame :=
  let v := vcOfKind m.kind
  let ctl := fun k => BitVec.ofNat 8 (k * 16 + v * 64)
  let head : Frame := { ctl := ctl 1, flit := m.header }
  if kindHasData m.kind then
    head :: ((chunks 256 (m.data.length / 256 + 1) m.data).map fun d => { ctl := ctl 2, flit := leNat d : Frame }) ++
      [{ ctl := ctl 3, flit := m.crc }]
  else [head]

/-- A VC may send a flit (R342). -/
def LinkVc.ready (c : LinkVc) : Bool := !c.outbox.isEmpty && c.sent - c.returned < c.limit

/-- The next flit of a VC, and the VC after sending it (R344). -/
def LinkVc.take (c : LinkVc) : Frame × LinkVc :=
  match c.outbox with
  | [] => ({ ctl := 0, flit := 0 }, c)
  | m :: rest =>
    let fs := m.flits
    let f := listGet { ctl := 0, flit := 0 } fs c.txPos
    if c.txPos + 1 < fs.length then (f, { c with sent := c.sent + 1, txPos := c.txPos + 1 })
    else (f, { c with sent := c.sent + 1, txPos := 0, outbox := rest })

/-- The VC that takes the next frame: VC0 first, then VC1 to VC3 in rotation (R344). -/
def LinkPort.nextVc (l : LinkPort) : Option Nat :=
  if (l.vc 0).ready then some 0
  else ((List.range 3).map fun j => (l.lastVc + j) % 3 + 1).find? fun v => (l.vc v).ready

/-- One frame of a port: a flit, or idle. -/
def LinkPort.frame (l : LinkPort) : Frame × LinkPort :=
  match l.nextVc with
  | none => ({ ctl := 0, flit := 0 }, l)
  | some v =>
    let r := (l.vc v).take
    (r.1, { l with vcs := tabSet l.vcs v r.2, lastVc := if v = 0 then l.lastVc else v })

/-- `n` frames of a port. -/
def LinkPort.frames (l : LinkPort) : Nat → List Frame × LinkPort
  | 0 => ([], l)
  | n + 1 =>
    let r := l.frame
    let t := r.2.frames n
    (r.1 :: t.1, t.2)

/-- The trailer spread over the sixteen control bytes, nibble j in frame j. -/
def withTrailer (fs : List Frame) (tr : Nat) : List Frame :=
  ((List.range fs.length).zip fs).map fun q =>
    { q.2 with ctl := BitVec.ofNat 8 (q.2.ctl.toNat / 16 * 16 + bitsOf tr (4 * q.1) 4) }

def trailerOf (fs : List Frame) : Nat :=
  ((List.range fs.length).zip fs).foldl (fun n q => n + q.2.ctl.toNat % 16 * 2 ^ (4 * q.1)) 0

/-- The CRC-32C of a group, the CRC's own nibbles taken as zero (R339). -/
def groupCrc (fs : List Frame) : Nat :=
  crc32c ((withTrailer fs (trailerOf fs % 2 ^ 32)).flatMap fun (f : Frame) => f.ctl :: leBytes 256 f.flit)

/-- The trailer fields before the CRC: own sequence, last sequence accepted, NAK, and freed flits of one VC. -/
def trailerBits (seq ack nak freed8 : Nat) : Nat := fields [(0, 10, seq), (10, 10, ack), (20, 1, nak), (21, 9, freed8)]

/-- A group complete with its trailer. -/
def sealGroup (fs : List Frame) (tr : Nat) : List Frame :=
  let g := withTrailer fs tr
  withTrailer g (tr + groupCrc g * 2 ^ 32)

/-! ### Receive buffers (R343, R376) -/

/-- A message waits in its crossing while an island that holds its destination, or the core that it signals, is parked (R46). -/
def State.writeOpen (s : State) (m : Message) : Bool :=
  !s.rangeParked m.dstAddr m.data.length &&
  !(bitOf m.header 312 && (s.island (bitsOf m.header 313 9)).parked)

/-- A message that cannot leave the port island yet: a stripe whose bucket is not filled (R376), a write that a parked island
stops (R46), or a message for another package while no port of its route is ACTIVE. -/
def State.stuck (s : State) (p v : Nat) (front : Bool) (m : Message) : Bool :=
  if m.epoch != s.odv Od.POINTS_EPOCH then false
  else if m.dst != s.pkg then
    bitOf (s.pointsEntry m.dst) 21 && (s.choosePort (bitsOf (s.pointsEntry m.dst) 0 16) m.msgId).isNone
  else if v = 1 then s.waitsAt p front m
  else v = 2 && m.kind = 1 && !s.writeOpen m

/-- Flits of a VC that wait in its receive buffer: those of the first message that is stuck and of all behind it. -/
def State.waitingFlits (s : State) (p v : Nat) : Nat :=
  let ms := ((s.link p).vc v).arrivals
  let held := ((List.range ms.length).zip ms).dropWhile fun q => !s.stuck p v (q.1 = 0) q.2.1
  held.foldl (fun n q => n + q.2.2) 0

/-- The flits that a port has freed (R343): every flit leaves the port island as it arrives (DEDUCED, log entry 38), but for those
that wait. -/
def State.freeFlits (s : State) (p : Nat) : State :=
  let l := s.link p
  s.setLink p { l with vcs := l.vcs.map fun q => (q.1, { q.2 with freed := Nat.max q.2.freed (q.2.arrived - s.waitingFlits p q.1) }) }

/-! ### Frames on their lanes (R331, R332) -/

/-- The logical lane that a map gives a physical lane. -/
def laneOf (map phys : Nat) : Option Nat := (List.range 8).find? fun l => bitsOf map (4 * l) 4 = phys

def idleFrame : Frame := { ctl := 0, flit := 0 }

/-- A group on the nine physical lanes: frame i on logical lane i mod 8, and idle codewords on the spare. -/
def spread (map : Nat) (fs : List Frame) : List (List Frame) :=
  (List.range 9).map fun q => match laneOf map q with
    | some l => [listGet idleFrame fs l, listGet idleFrame fs (l + 8)]
    | none => [idleFrame, idleFrame]

/-- The group that nine lanes bring: on a lane of skew k its frames begin k frames into what the lane brings. -/
def deskew (map : Nat) (skews : List Nat) (lanes : List (List Frame)) : List Frame :=
  (List.range 16).map fun i =>
    let q := bitsOf map (4 * (i % 8)) 4
    listGet idleFrame (listGet [] lanes q) (listGet 0 skews q + i / 8)

/-- A group goes out on the lanes of the port's transmit map. -/
def State.onLanes (s : State) (p : Nat) (l : LinkPort) (g : TxGroup) : LinkPort :=
  { l with txLanes := spread (s.odv (lpKey Od.LP_TX_LANE_MAP p)) g.frames }

/-- The port sends its next group, unless its retry buffer holds 128 groups or its island is parked (R341, R345). -/
def State.sendGroup (s : State) (p : Nat) : State :=
  if 128 ≤ (s.link p).retryBuf.length || s.portParked p then s
  else
    let s := s.freeFlits p
    let l := s.link p
    let r := l.frames 16
    let v := l.txSeq % 4
    let tr := trailerBits l.txSeq ((l.rxNext + 1023) % 1024) (if l.nakTx then 1 else 0) ((l.vc v).freed / 8 % 512)
    let g : TxGroup := { seq := l.txSeq, frames := sealGroup r.1 tr }
    let l' := { r.2 with txSeq := (l.txSeq + 1) % 1024, retryBuf := l.retryBuf ++ [g] }
    (s.setLink p (s.onLanes p l' g)).count Od.LINK_TX_BYTES 4096

/-! ### Replay (R346 to R348) -/

/-- A replayed group: its sequence number, control kinds and flits are kept, and the rest of its trailer is formed anew
(R346). -/
def LinkPort.resend (l : LinkPort) (g : TxGroup) : TxGroup :=
  let tr := trailerBits g.seq ((l.rxNext + 1023) % 1024) (if l.nakTx then 1 else 0) ((l.vc (g.seq % 4)).freed / 8 % 512)
  { g with frames := sealGroup g.frames tr }

/-- Every group that the retry buffer holds goes out again, oldest first. -/
def State.resendAll (s : State) (p : Nat) (l : LinkPort) : State :=
  let s := (s.setLink p l).freeFlits p
  let l := s.link p
  let gs := l.retryBuf.map l.resend
  s.setLink p (gs.foldl (fun l g => s.onLanes p l g) { l with retryBuf := gs })

/-- Replay from the oldest group not acknowledged. The eighth replay without an acknowledgement fails the port; replays
that a substitution causes are not counted (R334, R348). -/
def State.replay (s : State) (p : Nat) : State :=
  let l := s.link p
  if l.retryBuf.isEmpty then s
  else if l.txSub then s.resendAll p l
  else if s.odv Od.LINK_REPLAY_LIMIT ≤ l.replays then s.portLost p 5
  else (s.resendAll p { l with replays := l.replays + 1 }).count Od.LINK_REPLAYS 1

/-- Groups that an acknowledgement covers leave the retry buffer (R345). -/
def LinkPort.acked (l : LinkPort) (ack : Nat) : LinkPort :=
  match l.retryBuf with
  | [] => l
  | g :: _ =>
    let n := (ack + 1024 + 1 - g.seq) % 1024
    if n = 0 || l.retryBuf.length < n then l
    else { l with retryBuf := l.retryBuf.drop n, replays := 0, txSub := false }

/-- An accepted group that follows a VC's flits: the message they complete, if they do. -/
def messageOf (fs : List Frame) : Option Message :=
  match fs with
  | [] => none
  | h :: rest =>
    let k := bitsOf h.flit 0 8
    let n := bitsOf h.flit 96 32
    let v := bitsOf h.ctl.toNat 6 2
    if !(1 ≤ k && k ≤ 7) || bitsOf h.flit 8 2 != vcOfKind k || v != vcOfKind k || bitsOf h.ctl.toNat 4 2 != 1 then none
    else if kindHasData k then
      let data := (rest.dropLast.flatMap fun (f : Frame) => leBytes 256 f.flit).take n
      some { header := h.flit, data := data, crc := bitsOf (listGet h rest (rest.length - 1)).flit 0 64 }
    else some { header := h.flit, data := [], crc := 0 }

/-- The flits gathered of a VC end a message: a header of a kind without data, or a trailer flit. -/
def messageEnds (fs : List Frame) : Bool :=
  match fs with
  | [] => false
  | h :: _ =>
    !kindHasData (bitsOf h.flit 0 8) || (fs.any fun f => bitsOf f.ctl.toNat 4 2 = 3)

/-- `LINK_CTL` operations that the manual defines: `LANE_SUB`, `RING_SUBST` and `JOB_FAULT`. -/
def Message.known (m : Message) : Bool := m.kind != 6 || (1 ≤ m.lcOp && m.lcOp ≤ 3)

/-- One received flit of a VC; a message it completes waits to be taken; one whose header is malformed is dropped. -/
def LinkVc.receive (c : LinkVc) (f : Frame) : LinkVc :=
  let fs := c.partFlits ++ [f]
  let c := { c with arrived := c.arrived + 1 }
  if messageEnds fs then
    match messageOf fs with
    | some m => { c with partFlits := [], inbox := if m.known then c.inbox ++ [m] else c.inbox }
    | none => { c with partFlits := [] }
  else { c with partFlits := fs }

/-- The flits of an accepted group, in frame order. -/
def LinkPort.receive (l : LinkPort) (fs : List Frame) : LinkPort :=
  fs.foldl (fun l f =>
    if bitsOf f.ctl.toNat 4 2 = 0 then l
    else { l with vcs := tabMod .empty l.vcs (bitsOf f.ctl.toNat 6 2) fun c => c.receive f }) l

/-- Credits that a trailer returns (R343). -/
def LinkPort.credit (l : LinkPort) (v freed8 : Nat) : LinkPort :=
  { l with vcs := tabMod .empty l.vcs v fun c =>
      { c with returned := c.returned + (freed8 + 512 - c.lastFreed8) % 512 * 8, lastFreed8 := freed8 } }

/-- The port after it has accepted a group: its sequence, its acknowledgement, its credits and its flits. -/
def LinkPort.accept (l : LinkPort) (fs : List Frame) : LinkPort :=
  let tr := trailerOf fs
  let l := { l with rxNext := (l.rxNext + 1) % 1024, nakTx := false, rxSub := none }.acked (bitsOf tr 10 10)
  (l.credit (bitsOf tr 0 10 % 4) (bitsOf tr 21 9)).receive fs

/-- An accepted group asks for a replay: its NAK is set, and its acknowledgement covers nothing that is held. -/
def LinkPort.again (l : LinkPort) (fs : List Frame) : Bool :=
  let oldest := l.retryBuf.head?.map (·.seq)
  bitOf (trailerOf fs) 20 && oldest.isSome && (l.accept fs).retryBuf.head?.map (·.seq) = oldest

/-- A group is accepted: its FEC decodes, its CRC is right and it is the next in sequence (R340). -/
def LinkPort.accepts (l : LinkPort) (fs : List Frame) (fecOk : Bool) : Bool :=
  let tr := trailerOf fs
  fecOk && bitsOf tr 32 32 = groupCrc fs && bitsOf tr 0 10 = l.rxNext

/-- A group arrives on the nine lanes (R331, R340, R343, R345, R347): accepted, with its acknowledgement, credits and flits
taken, or discarded; the port sends its next group in the other direction. -/
def execLinkGroupReceive (p : Nat) (lanes : List (List Frame)) (fecOk : Bool) (s : State) : Out :=
  within (linkOk p && lanes.length = 9) "port or lanes" <|
    if !s.linkActive p || s.portParked p then s
    else
      let l := s.link p
      let fs := deskew (s.odv (lpKey Od.LP_RX_LANE_MAP p)) l.skews lanes
      let s := if fecOk then s else s.count Od.LINK_FEC_UNCORRECTABLE 1
      if !l.accepts fs fecOk then (s.setLink p { l with nakTx := true }).sendGroup p
      else
        let s := (s.setLink p (l.accept fs)).count Od.LINK_RX_BYTES 4096
        let s := if l.again fs then s.replay p else s
        if s.linkActive p then s.sendGroup p else s

/-- The ack deadline of the oldest group has passed (R347); a substitution suspends it (R334), and parking stops it. -/
def execLinkAckDeadline (p elapsedNs : Nat) (s : State) : Out :=
  within (linkOk p) "port" <|
    if s.linkActive p && !s.portParked p && (s.link p).rxSub.isNone && !(s.link p).txSub && s.odv Od.LINK_ACK_DEADLINE ≤ elapsedNs then s.replay p
    else s

/-! ### Lane substitution (R333 to R335) -/

/-- The spare of a direction: the lowest good lane that the map does not use. -/
def spareOf (map failed : Nat) : Option Nat := (List.range 9).find? fun q => (laneOf map q).isNone && !bitOf failed q

/-- A set bit. -/
def withBit (w n : Nat) : Nat := if bitOf w n then w else w + 2 ^ n

/-- A mapped receive lane fails: substitution onto the spare (R333), or `FAILED` when the direction has none left
(R334). -/
def State.substitute (s : State) (p lane : Nat) : State :=
  let map := s.odv (lpKey Od.LP_RX_LANE_MAP p)
  let failed := s.odv (lpKey Od.LP_FAILED_LANES p)
  match (if s.linkActive p then laneOf map lane else none) with
  | none => s
  | some ll =>
    let l := s.link p
    match (if l.rxSpareUsed then none else spareOf map (failed / 65536)) with
    | none => s.portLost p 5
    | some q =>
      let s := s.setOd (lpKey Od.LP_RX_LANE_MAP p) (setBits map (4 * ll) 4 q)
      let s := s.setOd (lpKey Od.LP_FAILED_LANES p) (withBit failed (16 + lane))
      let s := (s.setLink p { l with rxSub := some ll, rxSpareUsed := true }).count Od.LINK_LANE_SUBS 1
      (s.sticky 18).sendHop p 6 [(512, 8, 1), (520, 4, ll), (524, 4, q)]

/-- A lane loses codeword lock. -/
def execLaneLockLoss (p lane : Nat) (s : State) : Out :=
  within (linkOk p && lane < 9) "port or lane" <| s.substitute p lane

/-- The pre-FEC symbol error ratio of a lane over 1 ms. -/
def execLaneSerWindow (p lane : Nat) (ratio : W32) (s : State) : Out :=
  within (linkOk p && lane < 9) "port or lane" <|
    if fgt ratio (BitVec.ofNat 32 (s.odv Od.LANE_SER_LIMIT)) then s.substitute p lane else s

/-- No group accepted within 2.5 µs of a substitution (R334), unless parking stops the port (R49). -/
def execLaneSubTimeout (p elapsedNs : Nat) (s : State) : Out :=
  within (linkOk p) "port" <|
    if s.linkActive p && !s.portParked p && (s.link p).rxSub.isSome && 2500 < elapsedNs then s.portLost p 5 else s

/-! ### Taking messages -/

/-- The oldest message of a VC of a port. -/
def State.inHead (s : State) (p v : Nat) : Option Message :=
  if s.linkActive p && !s.portParked p then ((s.link p).vc v).inbox.head? else none

/-- That message taken. -/
def State.dropHead (s : State) (p v : Nat) : State :=
  let l := s.link p
  s.setLink p { l with vcs := tabMod .empty l.vcs v fun c => { c with inbox := c.inbox.drop 1 } }

/-- The oldest message of a VC, where it is for this package and passes `mine`: discarded when its epoch is stale (R364),
else taken by `k`. -/
def State.takeMessage (s : State) (p v : Nat) (mine : Message → Bool) (k : State → Message → State) : State :=
  match s.inHead p v with
  | none => s
  | some m =>
    if !mine m || m.dst != s.pkg then s
    else
      let s := s.dropHead p v
      if m.epoch != s.odv Od.POINTS_EPOCH then s.count Od.LINK_STALE_DROPS 1 else k s m

/-- A fault that a message brings on its owner: the Distil job; in Serve mode, where no message names a context, the
lowest armed Platform of a physical function (DEDUCED, log entry 39). -/
def State.faultMessage (s : State) (e : Event) : State :=
  if s.serveMode then
    match s.plats.find? fun q => q.2.held && q.2.vf = 0 with
    | some q => s.faultOwner q.1 0 e
    | none => s.capture e
  else if s.job.active then s.faultJob { e with platform := 0 }
  else s.capture e

/-- A write that messages may not make (R15, R294, R303, R353). -/
def State.linkProtected (s : State) (a n : Nat) : Bool :=
  s.inReserve a n || s.inImage a n || s.inConfined a n

/-- `WRITE_ACK` returned to the source of a message. -/
def State.ackMessage (s : State) (m : Message) : State := s.sendTo 3 m.src [(448, 32, m.msgId)] [] 0

/-- The remote signal of a message (R352). -/
def State.messageSignal (s : State) (m : Message) : State :=
  let c := bitsOf m.header 313 9
  let k := bitsOf m.header 322 6
  if bitOf m.header 312 && c < 288 && k < 48 then s.signal c k (bitsOf m.header 328 15) else s

/-- `MOVE_WRITE` at its destination (R350, R352, R353, R644). On a CRC mismatch the bytes it names are undefined: free
values. -/
def execMoveWrite (p : Nat) (s : State) : Out :=
  within (linkOk p) "port" <| s.takeMessage p 2 (fun m => m.kind = 1 && s.writeOpen m) fun s m =>
    let a := m.dstAddr
    let n := m.data.length
    let e := fun cause : Nat => { cause := cause, island := 0x7000 + p, detail := p : Event }
    if 2 < regionOf a || !s.inTier a n || skewOf a != 0 then s.faultMessage (e causeDstInvalid)
    else if s.linkProtected a n then s.faultMessage (e causeLinkProtected)
    else match badPartly s.eccBad a n with
      | w :: _ => let r := s.uncorrected w; r.1.faultMessage r.2
      | [] =>
        if crc64 m.data != m.crc then
          ({ s with fresh := s.fresh + n }.put a ((fromTo s.fresh n).map Config.freeByte)).faultMessage (e causeLinkCrc)
        else ((s.put a m.data).messageSignal m).ackMessage m

/-- `WRITE_ACK` at the source: the reduction's outstanding messages first (DEDUCED, log entry 40), then the moves'. -/
def execWriteAck (p : Nat) (s : State) : Out :=
  within (linkOk p) "port" <| s.takeMessage p 0 (fun m => m.kind = 3) fun s m =>
    let k := (m.src, m.ackMsg)
    if s.red.unacked.contains k then { s with red := { s.red with unacked := s.red.unacked.erase k } }
    else match s.moves.find? fun o => o.waiting.contains k with
      | none => s
      | some o =>
        let o' := { o with waiting := o.waiting.erase k }
        if o'.waiting.isEmpty then { s with moves := s.moves.erase o }.finish o.it
        else { s with moves := s.moves.map fun q => if q = o then o' else q }

/-- A message for another package is moved on (R360, R361, R363, R364). -/
def execLinkMessageForward (p v : Nat) (s : State) : Out :=
  within (linkOk p && v < 4) "port or VC" <|
    match s.inHead p v with
    | none => s
    | some m =>
      if m.dst = s.pkg then s
      else if m.epoch != s.odv Od.POINTS_EPOCH then (s.dropHead p v).count Od.LINK_STALE_DROPS 1
      else
        let e := s.pointsEntry m.dst
        if !bitOf e 21 || m.ttl ≤ 1 || (bitOf (s.odv Od.TREE_PARENT_MASK) p && bitOf e 20) then
          (s.dropHead p v).faultMessage { cause := causeLinkRoute, island := 0x7000 + p, detail := p }
        else match s.choosePort (bitsOf e 0 16) m.msgId with
          | none => s
          | some q => (s.dropHead p v).sendOn q v { m with header := setBits m.header 44 4 (m.ttl - 1) }

/-- `JOB_FAULT` (R536): passed upward to the Terminus, and from a parent or from the Terminus downward to every child;
the job faults with `JOB_PEER_FAULT` unless it has already faulted here. -/
def execJobFault (p : Nat) (s : State) : Out :=
  within (linkOk p) "port" <| s.takeMessage p 0 (fun m => m.kind = 6 && m.lcOp = 3) fun s m =>
    let body := [(512, 8, 3), (520, 10, bitsOf m.header 520 10), (544, 16, bitsOf m.header 544 16)]
    let s := s.faultJobAs { cause := causePeerFault, platform := 0, detail := bitsOf m.header 520 10 } true
    let down := fun (s : State) => s.downPorts.foldl (fun s q => s.sendHop q 6 body) s
    if bitOf (s.odv Od.TREE_PARENT_MASK) p then down s
    else match s.upPort with
      | some q => s.sendHop q 6 body
      | none => down s

/-- `LANE_SUB` at the transmitter (R333, R335): the logical lane moves to the spare, and the port replays. -/
def execLaneSub (p : Nat) (s : State) : Out :=
  within (linkOk p) "port" <| s.takeMessage p 0 (fun m => m.kind = 6 && m.lcOp = 1) fun s m =>
    let ll := bitsOf m.header 520 4
    let q := bitsOf m.header 524 4
    let map := s.odv (lpKey Od.LP_TX_LANE_MAP p)
    let l := s.link p
    if 8 ≤ ll || 9 ≤ q then s
    else
      let s := s.setOd (lpKey Od.LP_TX_LANE_MAP p) (setBits map (4 * ll) 4 q)
      let s := s.setOd (lpKey Od.LP_FAILED_LANES p) (withBit (s.odv (lpKey Od.LP_FAILED_LANES p)) (bitsOf map (4 * ll) 4))
      (s.resendAll p { l with txSpareUsed := true, txSub := true }).sticky 18

/-! ### Training and port states (R335 to R337) -/

/-- The lane map of eight good lanes, lowest-numbered first. -/
def laneMap (good : List Nat) : Nat := ((List.range 8).zip good).foldl (fun w q => w + q.2 * 16 ^ q.1) 0

/-- Lanes that trained and are not recorded as failed. -/
def goodLanes (trained failed : Nat) : List Nat := (List.range 9).filter fun q => bitOf trained q && !bitOf failed q

/-- A port leaves electrical idle and trains (R335, R337): with eight good lanes in each direction it is `TRAINING` with
its lane maps chosen, else it stays `DOWN`. The skews of the nine receive lanes are measured (R331). -/
def execPortTrainingStart (p txGood rxGood : Nat) (skews : List Nat) (s : State) : Out :=
  within (linkOk p && skews.length = 9) "port or skews" <|
    if !s.mainUp || s.portParked p || s.odv (lpKey Od.LP_ENABLE p) = 0 || s.linkActive p then s
    else
      let failed := s.odv (lpKey Od.LP_FAILED_LANES p)
      let tx := goodLanes txGood (failed % 65536)
      let rx := goodLanes rxGood (failed / 65536)
      if tx.length < 8 || rx.length < 8 then s.setOd (lpKey Od.LP_STATE p) 1
      else
        (((s.setLink p { s.link p with skews := skews }).setOd (lpKey Od.LP_TX_LANE_MAP p) (laneMap tx)).setOd
          (lpKey Od.LP_RX_LANE_MAP p) (laneMap rx)).setOd (lpKey Od.LP_STATE p) 2

/-- Not `ACTIVE` within 1 s of the start of training (R336). -/
def execPortTrainingTimeout (p elapsedMs : Nat) (s : State) : Out :=
  within (linkOk p) "port" <|
    if s.odv (lpKey Od.LP_STATE p) = 2 && 1000 ≤ elapsedMs then s.setOd (lpKey Od.LP_STATE p) 1 else s

/-- A `DOWN` port retries every 5 s while it is enabled (R336). -/
def execPortTrainingRetry (p elapsedMs : Nat) (s : State) : Out :=
  within (linkOk p) "port" <|
    if s.mainUp && !s.portParked p && s.odv (lpKey Od.LP_STATE p) = 1 && s.odv (lpKey Od.LP_ENABLE p) = 1 && 5000 ≤ elapsedMs then
      (s.setLink p .empty).setOd (lpKey Od.LP_STATE p) 2
    else s

/-- Ports reset by a write of `LINK_PORT_RESET` (R338): each faults what its Points serve, and retrains. -/
def State.resetPorts (s : State) (mask : Nat) : State :=
  ((maskPorts mask).filter fun p => s.odv (lpKey Od.LP_STATE p) != 0).foldl (fun s p => s.portLost p 1) s

def execLinkPortReset (value : Nat) (s : State) : Out := within (value < 65536) "value" <| s.resetPorts value

/-! ### The Points (R360 to R367) -/

/-- One staged entry satisfies R362. -/
def State.routeOk (s : State) (d e : Nat) : Bool :=
  let ports := bitsOf e 0 16
  let parent := s.odv Od.TREE_PARENT_MASK
  let child := s.odv Od.TREE_CHILD_MASK
  bitsOf e 22 10 = 0 && (!bitOf e 21 ||
    ((if bitOf e 20 then (ports &&& parent) = ports
      else (ports &&& child) = ports ||
        (bitsOf e 16 4 = 1 && (maskPorts ports).all fun p => bitOf child p || s.peer p = d)) &&
     (d != s.odv Od.TERMINUS_PKG || bitsOf e 16 4 ≤ 7)))

def State.stagedOk (s : State) : Bool :=
  (List.range 1024).all fun d => s.routeOk d (bitsOf (s.odv Od.POINTS_TABLE) (32 * d) 32)

/-- A write of `POINTS_COMMIT` that is not refused (R362, R367): an epoch other than the current one commits the staged
table. -/
def State.commitOk (s : State) : Bool := !s.anyArmed && s.stagedOk

def State.commitPoints (s : State) (epoch : Nat) : State :=
  if epoch = s.odv Od.POINTS_EPOCH then s
  else { s with points := s.odv Od.POINTS_TABLE }.setOd Od.POINTS_EPOCH epoch

def execPointsCommit (value : Nat) (s : State) : Out :=
  within (value < 2 ^ 32) "value" <| if s.commitOk then s.commitPoints value else s

end Sys2Proof.Machine
end

