-- ==== Sys2Proof/Machine/Streams.lean ====
section
/-! DEFINITION. The Timetable commands that run on no engine, barriers apart, and the events of Signal boxes (08). -/

namespace Sys2Proof.Machine

open Sys2Proof

/-- The payload bits from `lo` up are zero (R9, R10). -/
def zeroFrom (w : CmdWord) (lo : Nat) : Bool := w.toNat >>> lo = 0

/-- A core number is 0 to 287. -/
def coreOk (c : Nat) : Bool := c < 288

/-! ### SYNC, PLACE, REBASE -/

/-- SYNC performs only its wait and its signal (R251). A command with a reserved opcode is refused here (R10, R252). -/
def execSync (c : Nat) (s : State) : Out :=
  within (coreOk c) "core" <| s.runKind c [.sync, .reserved]
    (fun _ it => kindOf it.w = .sync && zeroFrom it.w 128)
    (fun s it => s.complete it)

/-- `OUT_FMT` codes that carry a scale: F8, E8, F4 and N8 (03, `ARRAY_CTL`; 04). -/
def outFmtScaled (f : Nat) : Bool := 2 ≤ f && f ≤ 5

/-- The command after a `PLACE` is one it may place (R639). -/
def placeOk (s : State) (it : Issue) : Bool :=
  let next := match (s.plat it.platform).image with
    | none => none
    | some img => match img.stream it.tcore (s.stream it.core it.slot).tslot with
      | none => none
      | some d => (d.cmds.drop (it.cmd + 1)).head?
  cmdBits it.w 137 7 = 0 && zeroFrom it.w 320 && cmdBits it.w 256 32 != 0 &&
  match next with
  | none => false
  | some n =>
    if opcodeOf n = 1 then
      cmdBits n 192 2 = cmdBits it.w 128 2 &&
      (!cmdBit it.w 130 || bitsOf (arrayCtl n) 30 2 = 2) &&
      (cmdBits it.w 160 32 = 0 || outFmtScaled (bitsOf (arrayCtl n) 12 3))
    else if opcodeOf n = 3 then cmdBits it.w 128 3 = 0 && cmdBits it.w 160 32 = 0
    else false

/-- PLACE supplies the placement of the command that directly follows it (R639). -/
def execPlace (c : Nat) (s : State) : Out :=
  within (coreOk c) "core" <| s.runKind c [.place] placeOk fun s it =>
    let s := s.complete it
    let t := s.stream it.core it.slot
    if t.state = 4 then s else s.setStream it.core it.slot { t with placed := some it.w }

/-- A stream of the image waits on counter `k`. -/
def waitsOn (d : StreamDecl) (k : Nat) : Bool := d.cmds.any fun w => preEn w && preCtr w = k

/-- The Timetable counter of a stream's core that is mapped onto counter `m` of the logical core (R269). -/
def State.namesCtr (s : State) (t : Stream) (m : Nat) : Option Nat :=
  (List.range 48).find? fun k => (s.mapCtr t.platform t.tcore k).map (·.2) = some m

/-- A resident stream's Timetable counter behind counter `m`, where the stream waits on it. -/
def State.waitsCtr (s : State) (t : Stream) (m : Nat) : Option Nat :=
  if t.state = 5 then none
  else match s.namesCtr t m, (s.plat t.platform).image with
    | some k, some img => (match img.stream t.tcore t.tslot with
      | some d => if waitsOn d k then some k else none
      | none => none)
    | _, _ => none

/-- 2^30 taken from the base of a stream's Timetable counter `k`, and from the effective threshold that the stream holds on
logical counter `m` (R262). -/
def Stream.rebased (t : Stream) (k m : Nat) : Stream :=
  { t with
    bases := tabSet t.bases k (tabGet 0 t.bases k - 2 ^ 30)
    waitT := if t.state = 2 && t.waitCtr = m then (t.waitT + 2 ^ 32 - 2 ^ 30) % 2 ^ 32 else t.waitT }

/-- REBASE on counter `m` of a core (R262): it subtracts 2^30 from the counter, the bases and the held thresholds when the
counter and the base of every stream that waits on it have reached 2^30. A `CD_SHARED` counter counts the streams of every
Platform of its share set, so that no wait changes (R263). -/
def State.rebase (s : State) (c m : Nat) : State :=
  let x := s.core c
  if 2 ^ 30 ≤ s.ctr c m && x.streams.all fun e => match s.waitsCtr e.2 m with
      | some k => 2 ^ 30 ≤ tabGet 0 e.2.bases k
      | none => true then
    let s := s.setCore c { x with streams := x.streams.map fun e => match s.waitsCtr e.2 m with
      | some k => (e.1, e.2.rebased k m)
      | none => e }
    ((s.setCtr c m (s.ctr c m - 2 ^ 30)).count Od.SYNC_REBASES 1).settle c m
  else s

/-- REBASE issues, takes effect under R262, and signals in the cycle after issue. -/
def execRebase (c : Nat) (s : State) : Out :=
  within (coreOk c) "core" <| s.runKind c [.rebase]
    (fun s it => zeroFrom it.w 134 && (s.mapCtr it.platform it.tcore (cmdBits it.w 128 6)).isSome)
    (fun s it => match s.mapCtr it.platform it.tcore (cmdBits it.w 128 6) with
      | some (_, m) => (s.rebase it.core m).complete it
      | none => s.complete it)

/-! ### STEP_END and STREAM_END -/

/-- The bases of a stream advanced by the strides of its core's counters (R258). -/
def advanceBases (img : Image) (tcore : Nat) (bases : Tab Nat) : Tab Nat :=
  match img.cores.find? (·.core = tcore) with
  | none => bases
  | some d => d.counters.foldl (fun b e =>
      let stride := bitsOf e.2 32 25
      if stride = 0 then b else tabSet b e.1 ((tabGet 0 b e.1 + stride) % 2 ^ 32)) bases

/-- A stream steps (R258): its step and its bases advance and it returns to the first command of its body, or after the
last step of a job of limited length goes on to its epilogue. A job faults before a step whose number would reach 2^44
(R117; the cause code is a DESIGN CHOICE, log entry 95). -/
def State.stepOn (s : State) (it : Issue) (img : Image) (d : StreamDecl) : State :=
  let t := s.stream it.core it.slot
  let pl := s.plat t.platform
  let last := pl.steps != 0 && pl.steps ≤ t.step + 1
  if !last && !s.serveMode && 2 ^ 44 ≤ t.step + 1 then s.faultIssue it causeCmdRefused else
  let t' := { t with
    step := t.step + 1
    bases := if last then t.bases else advanceBases img t.tcore t.bases
    cmd := if last then t.cmd + 1 else d.bodyAt
    placed := none
    released := false }
  (s.setStream it.core it.slot t').reach it.core it.slot none

/-- STEP_END (R258): before the last step the bases advance and the stream returns to its step body; at the last step
it goes on to its epilogue. `JOB_STEP` follows (R372). -/
def execStepEnd (c : Nat) (s : State) : Out :=
  within (coreOk c) "core" <| s.runKind c [.stepEnd]
    (fun _ it => !postEn it.w && zeroFrom it.w 128)
    (fun s it =>
      match (s.plat it.platform).image with
      | none => s
      | some img => match img.stream it.tcore (s.stream it.core it.slot).tslot with
        | none => s
        | some d =>
          let s' := s.stepOn it img d
          if s'.serveMode then s' else s'.followStep)

/-- STREAM_END (R260): the stream leaves its slot, and the Distil job ends with its last stream. -/
def execStreamEnd (c : Nat) (s : State) : Out :=
  within (coreOk c) "core" <| s.runKind c [.streamEnd]
    (fun _ it => !postEn it.w && zeroFrom it.w 128)
    (fun s it =>
      let t := s.stream it.core it.slot
      (s.setStream it.core it.slot { t with state := 5, waitCtr := 0, waitConsume := false, waitT := 0, hang := false }).endJob)

/-! ### Signals from elsewhere -/

/-- The oldest signal on its way to a core's Signal box is added to its counter (R253, R261); a parked core's crossing accepts
none (R46). -/
def execCounterSignal (c : Nat) (s : State) : Out :=
  within (coreOk c) "core" <|
    if (s.island c).parked then s else match (s.core c).sig with
    | [] => s
    | g :: rest => (s.setCore c { s.core c with sig := rest }).signal c g.ctr g.n

/-- The Platforms that own a counter of a logical core: the Distil job, or the armed Platforms that map it. -/
def State.ctrOwners (s : State) (c k : Nat) : List Nat :=
  if s.job.active then [0]
  else (s.plats.filter fun e => e.2.held && e.2.ctrMap.any fun m => m.2 = 48 * c + k).map (·.1)

/-- A privileged set through `SB_SET` (R273): the value is replaced, the held waits are tested, the sticky bit is set
and the owner is tainted. A write that names a reserved counter or sets a reserved bit is ignored (R8). -/
def execSbSet (c : Nat) (value : W64) (s : State) : Out :=
  within (coreOk c) "core" <|
    let v := value.toNat
    let k := bitsOf v 0 6
    if 48 ≤ k then s
    else
      let owners := s.ctrOwners c k
      let s := owners.foldl (fun (s : State) p => s.setPlat p { s.plat p with tainted := true }) s
      let s := if s.job.active then s.setOd Od.JOB_TAINTED 1 else s
      ((s.setCtr c k (bitsOf v 32 32)).settle c k).sticky 7

/-- A stream is held at a `NOTIFY` whose record waits (R325, R498). -/
def State.atNotify (s : State) (c i : Nat) : Bool :=
  (s.stream c i).state = 3 && s.queues.any fun e => e.2.held.any fun r => match r.post with
    | some q => q.1 = c && q.2.1 = i
    | none => false

/-- A wait, of a counter or at a `NOTIFY`, held longer than `SYNC_HANG_REPORT` is reported (R272, R325): `HANG`, the count
and the error vector. -/
def execSyncHangReport (c i heldMs : Nat) (s : State) : Out :=
  within (coreOk c && i < 8) "core or slot" <|
    let t := s.stream c i
    if (t.state = 2 || s.atNotify c i) && !t.hang && s.odv Od.SYNC_HANG_REPORT < heldMs then
      ((s.setStream c i { t with hang := true }).count Od.SYNC_HANG_REPORTS 1).raiseErr t.platform
    else s

/-- A wait held longer than a non-zero `SYNC_HANG_FAULT` faults the stream (R270). -/
def execSyncHang (c i heldMs : Nat) (s : State) : Out :=
  within (coreOk c && i < 8) "core or slot" <|
    let lim := s.odv Od.SYNC_HANG_FAULT
    if (s.stream c i).state = 2 && lim != 0 && lim < heldMs then s.faultStream c i causeHang else s

/-! ### NOTIFY -/

/-- A pool vector belongs to the Platform's function (R500). -/
def Platform.ownsVector (x : Platform) (v : Nat) : Bool := 32 * x.vf ≤ v && v < 32 * x.vf + 32

def notifyOk (s : State) (it : Issue) : Bool :=
  let pl := s.plat it.platform
  cmdBits it.w 153 7 = 0 && zeroFrom it.w 198 &&
  cmdBits it.w 128 12 < pl.queueCount &&
  (!cmdBit it.w 141 || pl.ownsVector (cmdBits it.w 142 11)) &&
  (s.mapCtr it.platform it.tcore (cmdBits it.w 192 6)).isSome

/-- The hardware queue that `NT_QUEUE` names. -/
def State.notifyQueue (s : State) (it : Issue) : Nat :=
  (s.plat it.platform).queueBase + cmdBits it.w 128 12

/-- The record of a NOTIFY: its tag, its counter, its scope and its vector; its own signal follows it. -/
def State.notifyRecord (s : State) (it : Issue) : HeldRecord :=
  { HeldRecord.plain 2 0 0 (cmdBits it.w 160 32) 0 with
    scope := cmdBits it.w 140 1
    irq := cmdBit it.w 141
    vector := cmdBits it.w 142 11
    valCtr := s.mapCtr it.platform it.tcore (cmdBits it.w 192 6)
    post := some (it.core, it.slot, it.w) }

/-- NOTIFY writes a completion record with the counter's value and can raise a vector (R268); one whose record must wait,
for ring space, its port, its context's re-arm or its scope, is held and its stream is descheduled (R320, R325, R498). -/
def execNotify (c : Nat) (s : State) : Out :=
  within (coreOk c) "core" <| s.runKind c [.notify] notifyOk fun s it =>
    let t := s.stream it.core it.slot
    let q := s.notifyQueue it
    if !(s.queue q).enable then (s.pushRecord q it.platform (s.notifyRecord it)).complete it
    else (s.setStream it.core it.slot { t with state := 3 }).pushRecord q it.platform (s.notifyRecord it)

end Sys2Proof.Machine
end

