-- ==== Sys2Proof/Machine/Barriers.lean ====
section
/-! DEFINITION. Barriers at this package (R223, R275 to R282): arrivals, the package's node in the Interlocking tree, and
releases. -/

namespace Sys2Proof.Machine

open Sys2Proof

def State.channel (s : State) (ch : Nat) : Channel := tabGet .empty s.channels ch
def State.setChannel (s : State) (ch : Nat) (x : Channel) : State := { s with channels := tabSet s.channels ch x }

/-- The declaration of a channel that the core's Platform uses. -/
def State.chanDecl (s : State) (p ch : Nat) : Option ChannelDecl :=
  match (s.plat p).image with
  | none => none
  | some img => img.channels.find? (·.chan = ch)

/-- The vote payload of a package (R223, R544): bit 0 the detectors, bit 1 a checkpoint request for this step, bit 2 a
coded image not yet confirmed drained. -/
def State.voteBits (s : State) : Nat :=
  (if s.job.nonfinite || s.job.spike then 1 else 0) +
  (if s.red.active && s.ckpt.request = some s.red.step then 2 else 0) +
  (if s.ckpt.undrained.isSome then 4 else 0)

/-- The vote of the step can be formed: the step ends no accumulation window, or its exchange is complete and every bucket
has been read back, so that N2 stands (R221, R223). -/
def State.voteReady (s : State) : Bool :=
  match s.jobImage with
  | none => true
  | some img => !endsWindow img.red (s.odv Od.JOB_STEP) || (s.red.complete && rdBuckets img.red ≤ s.red.normed.length)

/-- Child ports, one for each child package, below which a participating package lies (R275, R365). -/
def State.childPorts (s : State) (d : ChannelDecl) : List Nat :=
  let ps := maskPorts (s.odv Od.TREE_CHILD_MASK)
  (ps.filter fun p => !(ps.any fun q => q < p && s.peer q = s.peer p)).filter fun q => d.packages.any fun k =>
    k != s.pkg && bitOf (s.pointsEntry k) 21 && !bitOf (s.pointsEntry k) 20 &&
    ps.any fun r => s.peer r = s.peer q && bitOf (s.pointsEntry k) r

/-- The packages' part of a barrier is in hand: every local core's n-th arrival, every child's token, and for a vote the
package's own bits. -/
def State.gathered (s : State) (ch n : Nat) (d : ChannelDecl) : Bool :=
  let x := s.channel ch
  let kids := if d.scope = 0 then [] else s.childPorts d
  d.cores.all (fun c => x.arrivals.any fun a => a.n = n && a.core = c) &&
  (kids.all fun q => x.tokens.any fun t => t.n = n % 2 ^ 24 && s.peer t.port = s.peer q) &&
  (d.voteSrc != 1 || s.voteReady)

/-- The OR that a package hands on: its cores' payloads, bits 2 to 0 of them its own in a vote (R276), and its children's. -/
def State.gatherPayload (s : State) (ch n : Nat) (d : ChannelDecl) : Nat :=
  let x := s.channel ch
  let own := ((x.arrivals.filter (·.n = n)).map (·.payload)).foldl (· ||| ·) 0
  let own := if d.voteSrc = 1 then own / 8 * 8 + s.voteBits else own
  ((x.tokens.filter (·.n = n % 2 ^ 24)).map (·.payload)).foldl (· ||| ·) own

/-- Gather the n-th barrier of a channel at this package's node: once it is gathered, the token goes upward on an `ACTIVE`
port of the parent mask, or the barrier completes where that mask is empty (R275, R365). -/
def State.gather (s : State) (p ch n : Nat) : State :=
  match s.chanDecl p ch with
  | none => s
  | some d =>
    let x := s.channel ch
    if n ≤ x.sentUp || !s.gathered ch n d then s
    else
      let pay := s.gatherPayload ch n d
      if d.scope = 0 || s.odv Od.TREE_PARENT_MASK = 0 then
        s.setChannel ch { x with sentUp := n, due := x.due ++ [(n, pay)] }
      else match s.upPort with
        | none => s
        | some q => (s.setChannel ch { x with sentUp := n }).sendHop q 4 [(356, 4, ch), (360, 2, d.scope), (362, 8, pay), (370, 24, n)]

/-- What a barrier of this package's node waits for has changed: each channel's next barrier is gathered. -/
def State.regather (s : State) : State :=
  (List.range 16).foldl (fun s ch => match s.chanOwner ch with
    | none => s
    | some p => s.gather p ch ((s.channel ch).sentUp + 1)) s

/-- The handshake on VC0 (R337): `ACTIVE` with both sequences at 0 and the peer's buffers as credits, or `MISCABLED`. A barrier
that waited for this port goes on (R275). A port whose lanes this training has not measured completes no handshake. -/
def execPortHandshake (p peer peerPort epoch : Nat) (credits : List Nat) (s : State) : Out :=
  within (linkOk p && peer < 65536 && peerPort < 16 && epoch < 2 ^ 32 && credits.length = 4) "port or handshake" <|
    if s.odv (lpKey Od.LP_STATE p) != 2 || s.portParked p || (s.link p).skews.length != 9 then s
    else
      let who := peer + peerPort * 65536
      let want := s.odv (lpKey Od.LP_EXPECTED_PEER p)
      let s := s.setOd (lpKey Od.LP_PEER p) who
      if want != 0xFFFFFFFF && want != who then s.setOd (lpKey Od.LP_STATE p) 4
      else
        let vcs := ((List.range 4).zip credits).map fun q => (q.1, { LinkVc.empty with limit := q.2 })
        let spare := fun k => (spareOf (s.odv (lpKey k p)) (if k = Od.LP_TX_LANE_MAP then
          s.odv (lpKey Od.LP_FAILED_LANES p) % 65536 else s.odv (lpKey Od.LP_FAILED_LANES p) / 65536)).isNone
        let l := { LinkPort.empty with vcs := vcs, skews := (s.link p).skews, rxSpareUsed := spare Od.LP_RX_LANE_MAP, txSpareUsed := spare Od.LP_TX_LANE_MAP }
        (((s.setLink p l).setOd (lpKey Od.LP_STATE p) 3).regather).sendGroup p

/-- A BARRIER's fields lie in their ranges (R276: `POST_CORE` is 511). -/
def barrierOk (_ : State) (it : Issue) : Bool :=
  !cmdBit it.w 135 && zeroFrom it.w 176 && cmdBits it.w 132 2 != 3 &&
  (!postEn it.w || postCore it.w = 511) && yardIn (cmdBits it.w 144 32) 4

/-- The channel declares the command's core, scope and vote source, and in Serve mode it is the context's own (R277). -/
def State.barrierMember (s : State) (it : Issue) : Bool :=
  let ch := cmdBits it.w 128 4
  let scope := cmdBits it.w 132 2
  (match s.chanDecl it.platform ch with
   | none => false
   | some d => d.cores.contains it.tcore && d.scope = scope && d.voteSrc = (if cmdBit it.w 134 then 1 else 0)) &&
  !(s.serveMode && (scope != 0 || !bitOf (s.plat it.platform).barChannels ch))

/-- The core's n-th arrival on its channel: its payload joins the barrier's, and the stream goes on (R275, R277). -/
def State.arrive (s : State) (it : Issue) : State :=
  let ch := cmdBits it.w 128 4
  let x := s.channel ch
  let n := tabGet 0 x.counts it.tcore + 1
  let a : Arrival := {
    core := it.tcore
    slot := it.slot
    platform := it.platform
    n := n
    payload := cmdBits it.w 136 8
    postEn := postEn it.w
    postCtr := postCtr it.w
    postN := postN it.w
    resultOff := cmdBits it.w 144 32
    atMs := s.timeMs }
  let s := s.setChannel ch { x with counts := tabSet x.counts it.tcore n, arrivals := x.arrivals ++ [a] }
  (s.gather it.platform ch n).advance it.core it.slot 7

/-- BARRIER records the core's n-th arrival on its channel and holds no engine (R275, R277). A core, a scope or a vote
source that the channel does not declare faults the stream. -/
def execBarrier (c : Nat) (s : State) : Out :=
  within (coreOk c) "core" <| s.runKind c [.barrier] barrierOk fun s it =>
    if s.barrierMember it then s.arrive it else s.faultIssue it causeBarrierMember

/-- The core of a Platform's Timetable core (R451). -/
def State.logicalCore (s : State) (p tcore : Nat) : Nat :=
  if s.serveMode then listGet 0 (s.plat p).coreMap tcore else tcore

/-- What each participating core receives at a release (R276): its counter's signal and its result word. -/
def State.releaseAt (s : State) (a : Arrival) (n pay : Nat) : State :=
  let c := s.logicalCore a.platform a.core
  let word := pay % 256 + (n % 2 ^ 24) * 256
  let s := s.put (yardAddr (dieOfCore c) a.resultOff) (leBytes 4 word)
  if a.postEn then
    (match s.mapCtr a.platform a.core a.postCtr with
     | some (c', k) => s.signal c' k a.postN
     | none => s)
  else s

/-- The release of the n-th barrier of a channel at this package: every arrival is served, the release goes down the
tree, and the barrier is counted (R276). -/
def State.releaseBarrier (s : State) (p ch n pay elapsedNs : Nat) : State :=
  let x := s.channel ch
  let here := x.arrivals.filter (·.n = n)
  let s := s.setChannel ch { x with
    arrivals := x.arrivals.filter (·.n != n), tokens := x.tokens.filter (·.n != n % 2 ^ 24), released := n }
  let s := match s.chanDecl p ch with
    | none => s
    | some d => if d.scope = 0 then s else
      s.downPorts.foldl (fun s q => if !((s.childPorts d).any fun r => s.peer r = s.peer q) then s else
        s.sendHop q 5 [(356, 4, ch), (360, 2, d.scope), (362, 8, pay), (370, 24, n)]) s
  let s := here.foldl (fun s a => s.releaseAt a n pay) s
  ((s.count Od.BARRIERS_COMPLETED 1).countMax Od.BARRIER_MAX_NS elapsedNs).endJob

/-- A token of a channel is on the port's way and not acknowledged: in its VC0 queue, or in its retry buffer. -/
def State.tokenOut (s : State) (p ch : Nat) : Bool :=
  let l := s.link p
  let tok := fun h => (bitsOf h 0 8 = 4 || bitsOf h 0 8 = 5) && bitsOf h 356 4 = ch
  (l.vc 0).outbox.any (fun m => tok m.header) ||
  l.retryBuf.any fun g => g.frames.any fun f => bitsOf f.ctl.toNat 4 2 = 1 && tok f.flit

/-- A token not acknowledged within `BARRIER_TOKEN_DEADLINE` fails the link protocol, so that its port enters `FAILED`
(R348), and faults the job with `SYNC_BARRIER_LINK` (R279); where a parked port island is the cause, R51 applies in its
place. -/
def execBarrierTokenDeadline (port ch elapsedNs : Nat) (s : State) : Out :=
  within (port < 16 && ch < 16) "port or channel" <|
    if s.tokenOut port ch && s.odv Od.BARRIER_TOKEN_DEADLINE < elapsedNs && !(s.island (0x7000 + port)).parked then
      (((s.setLink port .empty).setOd (Od.LP_STATE + 256 * port) 5).faultJob
        { cause := causeBarrierLink, platform := 0, detail := port }).faultPort port
    else s

/-- An arrival not released within `BARRIER_TIMEOUT` faults the job (R280), or in Serve mode the context. -/
def execBarrierTimeout (ch elapsedMs : Nat) (s : State) : Out :=
  within (ch < 16) "channel" <|
    match (s.channel ch).arrivals with
    | [] => s
    | a :: _ =>
      if s.odv Od.BARRIER_TIMEOUT < elapsedMs then
        s.faultOwner a.platform a.core { cause := causeBarrierTimeout, core := s.logicalCore a.platform a.core, slot := a.slot }
      else s

end Sys2Proof.Machine
end

