-- ==== Sys2Proof/Machine/Reduction.lean ====
section
/-! DEFINITION. The gradient reduction (11): buckets, stripes round the ring, the remote-accumulate adders (R355 to R359),
shadows and substitution, and digests. -/

namespace Sys2Proof.Machine

open Sys2Proof

/-! ### The ring -/

/-- Start, owner and last gather position of a stripe (R373). -/
def stripeStart (R j : Nat) : Nat := j % R
def stripeOwner (R j : Nat) : Nat := (j % R + R - 1) % R
def stripeLast (R j : Nat) : Nat := (j % R + R - 2) % R

def State.gradAddr (s : State) (j : Nat) : Nat := rdImage s.redDesc + stripeBytes * j
def State.sumAddr (s : State) (j : Nat) : Nat := rdSum s.redDesc + stripeBytes * j

/-- The `WEIGHT_GRAD` identifier of a stripe's first tensor (R197, R375). -/
def State.stripeTensor (s : State) (j : Nat) : Nat :=
  match s.jobImage with
  | none => 5 * 8192
  | some img =>
    let a := s.gradAddr j
    let cand := (s.gradBlocks img).filter fun b => b.2.2.2.2 ≤ a
    5 * 8192 + udTensor (cand.foldl (fun (best : Nat × Nat) b => if best.2 ≤ b.2.2.2.2 then (b.1, b.2.2.2.2) else best) (0, 0)).1 % 8192

/-! ### Digests (R391) -/

/-- The digest of a stripe's bytes in a phase: 0 reduce, 1 gather, 0xFF result. -/
def stripeDigest (step j phase : Nat) (bs : List Byte) : Nat :=
  crc64From (crc64 (leBytes 8 step ++ leBytes 4 j ++ leBytes 1 phase ++ leBytes 3 0)) bs

/-! ### Sending (R373, R375, R384) -/

/-- Where the bytes of a stripe message stand: the sum image for a partial, else the gradient image. -/
def State.stripeSource (s : State) (gather : Bool) (j : Nat) : Nat :=
  if !gather && stripeStart s.ringSize j != s.ringPos then s.sumAddr j else s.gradAddr j

/-- Send one stripe message to the successor, and its mirror copy to the successor's shadow. A primary sends through
`RING_NEXT_MASK`; a substituting shadow sends by the Points. -/
def State.sendStripe (s : State) (gather : Bool) (j : Nat) : State :=
  let R := s.ringSize
  let bs := s.load (s.stripeSource gather j) stripeBytes
  let next := s.succPos
  let dst := if gather || stripeOwner R j = next then s.gradAddr j else s.sumAddr j
  let body := [(128, 64, dst), (192, 64, if gather then 0 else s.gradAddr j), (288, 8, if gather then 0 else 1),
    (296, 16, s.stripeTensor j)]
  let crc := crc64 bs
  let d := s.ringPkg next
  let k := (d, s.nextMsgId d 1)
  let s := if s.isShadow then s.sendTo 2 d body bs crc else s.sendVia (s.odv Od.RING_NEXT_MASK) 2 d body bs crc
  let r := s.red
  let s := { s with red := { r with
    unacked := r.unacked ++ [k]
    dgTx := r.dgTx ^^^ stripeDigest r.step j (if gather then 1 else 0) bs
    sentReduce := if gather then r.sentReduce else j :: r.sentReduce
    sentGather := if gather then j :: r.sentGather else r.sentGather } }.count Od.RED_BYTES_SENT stripeBytes
  let m := s.shadowPkg next
  if m = 0xFFFF then s
  else
    let k' := (m, s.nextMsgId m 1)
    let s := s.sendTo 2 m body bs crc
    { s with red := { s.red with unacked := s.red.unacked ++ [k'] } }.count Od.RED_MIRROR_BYTES stripeBytes

/-- A primary sends; a shadow sends from the bucket on at which it was asked to substitute (R384, R386). -/
def State.maySend (s : State) (j : Nat) : Bool :=
  !s.isShadow || match s.red.substFrom with
    | some b => b ≤ stripeBucket s.redDesc j
    | none => false

/-- The stripe can be sent in the reduce phase, or in the gather phase, from here. -/
def State.hasReduce (s : State) (j : Nat) : Bool :=
  let R := s.ringSize
  stripeOwner R j != s.ringPos &&
  (if stripeStart R j = s.ringPos then s.red.filled.contains (stripeBucket s.redDesc j) else s.red.partials.contains j)

def State.hasGather (s : State) (j : Nat) : Bool := stripeLast s.ringSize j != s.ringPos && s.red.finals.contains j

/-- A stripe read for a message: an uncorrected error faults the job (R290). -/
def State.sendRead (s : State) (gather : Bool) (j : Nat) : State :=
  match badIn s.eccBad (s.stripeSource gather j) stripeBytes with
  | w :: _ => s.faultRead w
  | [] => s.sendStripe gather j

/-- Send what a stripe allows and has not been sent. -/
def State.pumpStripe (s : State) (j : Nat) : State :=
  if s.ringSize ≤ 1 || !s.maySend j || !s.job.active then s
  else
    let s := if s.hasReduce j && !s.red.sentReduce.contains j then s.sendRead false j else s
    if s.job.active && s.hasGather j && !s.red.sentGather.contains j then s.sendRead true j else s

def State.pump (s : State) (js : List Nat) : State := js.foldl State.pumpStripe s

/-! ### Filling buckets (R370, R371) -/

/-- Where a finished block stands: in the Yard as its tiles left it, where the buffer lies in HBM (R201; DEDUCED, log entry 104),
else in the buffer. -/
def State.staged (s : State) (w n : Nat) : Option (Tab Nat) := tabFind s.job.grads (wgTensor w * 2 ^ 20 + n)

/-- Value `i` of finished block n, the k-th of the tensor's buffer. -/
def State.gradValue (s : State) (w n k i : Nat) : Nat :=
  match s.staged w n with
  | some t => tabGet 0 t i
  | none => memNat s.mem (wgBuf w + 65536 * k + 4 * i) 4

/-- Convert one finished block into the gradient image (R370). -/
def State.convertBlock (s : State) (w n k dst : Nat) : State :=
  let vals := (List.range 16384).map fun i => ofW (BitVec.ofNat 32 (s.gradValue w n k i))
  let cs := vals.map fun x => fmtB16.conv .rne x
  let t := (Tally.convs [] 5 5 cs).add 5 5 3 (countIf (fun (x : Num) => !x.isFin) vals)
  (s.put dst (cs.flatMap fun (c : Conv) => leBytes 2 c.bits)).commit t

/-- Buckets whose every stripe is final are staged for the Roundhouse (R378). -/
def State.stage (s : State) : State :=
  let r := s.redDesc
  let ready := (List.range (rdBuckets r)).filter fun b =>
    s.red.filled.contains b && (bucketStripes r b).all fun j => s.red.finals.contains j
  { s with red := { s.red with staged := ready } }

/-- The window that is to be exchanged is open: a job runs, its step ends a window, and the bucket follows those filled. -/
def State.mayFill (s : State) (b : Nat) : Bool :=
  let r := s.redDesc
  s.job.active && b < rdBuckets r && s.job.update = 0 &&
  (if s.red.active then !s.red.complete && b = s.red.filled.length else b = 0 && endsWindow r (s.odv Od.JOB_STEP))

/-- The bucket's gradients converted into the image, its gaps zero, and its stripes set going. -/
def State.fillBucket (s : State) (b lo : Nat) (js : List Nat) (blks : List (Nat × Nat × Nat × Nat × Nat)) : State :=
  let s : State := if s.red.active then s else { s with red := { s.red with active := true, step := s.odv Od.JOB_STEP } }
  let used := fun (a : Nat) => blks.any fun q => q.2.2.2.2 ≤ a && a < q.2.2.2.2 + 32768
  let s := blks.foldl (fun (s : State) q => s.convertBlock q.2.1 q.2.2.1 q.2.2.2.1 q.2.2.2.2) s
  let s := (List.range (32 * js.length)).foldl (fun (s : State) i =>
    if used (lo + 32768 * i) then s else s.put (lo + 32768 * i) (List.replicate 32768 0)) s
  let s : State := { s with red := { s.red with filled := s.red.filled ++ [b] } }
  let s := if s.ringSize = 1 then { s with red := { s.red with finals := s.red.finals ++ js } } else s
  s.stage.pump js

/-- BUCKET_FILLED: the last of the blocks that cover a bucket has been converted (R370, R371), and its exchange begins. An
uncorrected error in a block faults the job. -/
def execBucketFilled (b : Nat) (s : State) : Out :=
  within (b < 65536) "bucket" <|
    if !s.mayFill b then s
    else match s.jobImage with
      | none => s
      | some img =>
        let r := s.redDesc
        let lo := rdImage r + b * rdPerBucket r * stripeBytes
        let n := (bucketStripes r b).length * stripeBytes
        let blks := (s.gradBlocks img).filter fun q => lo ≤ q.2.2.2.2 && q.2.2.2.2 < lo + n
        let bad := blks.map fun q =>
          if (s.staged q.2.1 q.2.2.1).isSome then [] else badIn s.eccBad (wgBuf q.2.1 + 65536 * q.2.2.2.1) 65536
        match bad.flatten with
        | e :: _ => s.faultRead e
        | [] => s.fillBucket b lo (bucketStripes r b) blks

/-! ### The adders (R355 to R357) -/

/-- One element: x unchanged, or the B16 of the binary32 sum of x and y. Answers the code, and what is counted. -/
def addElem (add : Bool) (x y : Nat) : Conv × Bool :=
  if add then
    let w := fadd (widenB16 (BitVec.ofNat 16 x)) (widenB16 (BitVec.ofNat 16 y))
    let bad := !(fmtB16.dec x).isFin || !(fmtB16.dec y).isFin
    if !bad && !fisFin w then (⟨(toB16 w).toNat, true, false, false⟩, false)
    else (fmtB16.conv .rne (ofW w), bad)
  else (⟨x, false, false, false⟩, !(fmtB16.dec x).isFin)

/-- The adders' effect of an `ACCUM` message. -/
def State.applyAccum (s : State) (m : Message) : State :=
  let add := bitsOf m.header 288 8 = 1
  let n := m.data.length
  let ys := s.load m.localAddr n
  let xs := m.data
  let es := (List.range (n / 2)).map fun i =>
    let at' := fun (l : List Byte) => leNat ((l.drop (2 * i)).take 2)
    addElem add (at' xs) (if add then at' ys else 0)
  let cls := bitsOf m.header 296 16 / 8192
  let t := (Tally.convs [] cls 5 (es.map (·.1))).add cls 5 3 (countIf (·.2) es)
  (s.put m.dstAddr (es.flatMap fun (e : Conv × Bool) => leBytes 2 e.1.bits)).commit t

/-- Form of an `ACCUM` message (R355). -/
def accumFormOk (m : Message) : Bool :=
  let op := bitsOf m.header 288 8
  let d := m.dstAddr
  let l := m.localAddr
  let n := m.bytes
  op ≤ 1 && d % 4096 = 0 && n % 4096 = 0 && n = m.data.length &&
  (op = 0 || (l % 4096 = 0 && regionOf d = regionOf l && d % 65536 = l % 65536)) && regionOf d ≤ 1

/-- A stripe message taken by the adders: its digest, its phase and what it allows to be sent on. -/
def State.takeStripe (s : State) (m : Message) (j : Nat) : State :=
  let gather := bitsOf m.header 288 8 = 0
  let R := s.ringSize
  let s := s.applyAccum m
  let final := gather || stripeOwner R j = s.ringPos
  let r := s.red
  let s := { s with red := { r with
    dgRx := r.dgRx ^^^ stripeDigest r.step j (if gather then 1 else 0) m.data
    partials := if final then r.partials else j :: r.partials
    finals := if final then j :: r.finals else r.finals } }.count Od.RED_BYTES_ADMITTED stripeBytes
  (s.ackMessage m).stage.pumpStripe j

/-- An uncorrected error in the local operand faults the job. -/
def State.accumEcc (s : State) (m : Message) : Option Nat :=
  (if bitsOf m.header 288 8 = 1 then badIn s.eccBad m.localAddr m.data.length else []).head?

/-- The message at the front of a port's VC1 is admitted. -/
def State.admitAt (s : State) (p : Nat) (m : Message) (j : Nat) : State :=
  let gather := bitsOf m.header 288 8 = 0
  { s with red := { s.red with
    holding := p :: s.red.holding
    admittedReduce := if gather then s.red.admittedReduce else j :: s.red.admittedReduce
    admittedGather := if gather then j :: s.red.admittedGather else s.red.admittedGather } }

/-- Admission is decided when the header arrives (R377); an admitted message waits at the head until its bucket is filled
here (R376). -/
def State.decideStripe (s : State) (p : Nat) (m : Message) (j : Nat) : State :=
  if s.red.holding.contains p then s
  else if s.admits m j then s.admitAt p m j
  else ((s.dropHead p 1).count Od.RED_DISCARDED 1).ackMessage m

/-- The adders' pass over a message taken from its port: a CRC mismatch leaves the bytes that the message names undefined
(R350), an uncorrected local operand faults, and else the sum is written. -/
def State.finishAccum (s : State) (p : Nat) (m : Message) (j : Option Nat) : State :=
  let n := m.data.length
  if crc64 m.data != m.crc then
    ({ s with fresh := s.fresh + n }.put m.dstAddr ((fromTo s.fresh n).map Config.freeByte)).faultMessage
      { cause := causeLinkCrc, island := 0x7000 + p, detail := p }
  else match s.accumEcc m with
    | some w => let u := s.uncorrected w; u.1.faultMessage u.2
    | none => match j with
      | some j => s.takeStripe m j
      | none => (s.applyAccum m).ackMessage m

/-- The header flit of the message that VC1 of a port is receiving: it is admitted, if it is to be, before the rest arrives (R377). -/
def State.admitHeader (s : State) (p : Nat) : State :=
  match (if s.linkActive p && !s.portParked p then ((s.link p).vc 1).begun else none) with
  | none => s
  | some m =>
    if m.kind != 2 || m.dst != s.pkg || m.epoch != s.odv Od.POINTS_EPOCH || s.job.update != 0 || s.red.holding.contains p then s
    else match s.stripeOf m with
      | some j => if s.admits m j then s.admitAt p m j else s
      | none => s

/-- A held message leaves the front of its port's VC1. -/
def State.unhold (s : State) (p : Nat) : State :=
  { s with red := { s.red with holding := s.red.holding.filter (· != p) } }.dropHead p 1

/-- ACCUM: the oldest message of VC1 of a port at its destination. A stripe that arrives while the update of the last
exchange runs belongs to the next one, and waits for it (R376, R378). -/
def execAccum (p : Nat) (s : State) : Out :=
  within (linkOk p) "port" <|
    match s.inHead p 1 with
    | none => s.admitHeader p
    | some m =>
      let e := fun cause : Nat => { cause := cause, island := 0x7000 + p, detail := p : Event }
      let n := m.data.length
      if m.dst != s.pkg then s
      else if m.epoch != s.odv Od.POINTS_EPOCH then (s.dropHead p 1).count Od.LINK_STALE_DROPS 1
      else if !accumFormOk m then (s.dropHead p 1).faultMessage (e causeAccumForm)
      else if !s.inTier m.dstAddr n || (bitsOf m.header 288 8 = 1 && !s.inTier m.localAddr n) then
        (s.dropHead p 1).faultMessage (e causeDstInvalid)
      else if s.inImage m.dstAddr n || s.inReserve m.dstAddr n then (s.dropHead p 1).faultMessage (e causeLinkProtected)
      else match s.stripeOf m with
        | none =>
          let s := s.dropHead p 1
          if s.job.active then s.finishAccum p m none else (s.count Od.RED_DISCARDED 1).ackMessage m
        | some j =>
          let s' := s.decideStripe p m j
          if s.job.update != 0 then s
          else if !s'.red.holding.contains p then s'
          else if !s'.bucketOpen j then s'
          else
            (s'.unhold p).finishAccum p m (some j)

/-! ### Completion (R378, R391, R392) -/

/-- Every stripe is final and every message acknowledged. -/
def State.exchangeDone (s : State) : Bool :=
  s.red.active && !s.red.complete && s.red.unacked.isEmpty && s.red.filled.length = rdBuckets s.redDesc &&
  (List.range (rdStripes s.redDesc)).all fun j => s.red.finals.contains j

/-- The digest record of the exchange. -/
def State.digestRecord (s : State) : Nat :=
  let r := s.red
  let result := (List.range (rdStripes s.redDesc)).foldl (fun x j =>
    x ^^^ stripeDigest r.step j 0xFF (s.load (s.gradAddr j) stripeBytes)) 0
  let pos := if s.isShadow then 0x8000 + s.ringPos else s.ringPos
  let bit := fun (b : Bool) => if b then 1 else 0
  fields [(0, 64, r.step), (64, 64, r.dgTx), (128, 64, r.dgRx), (192, 64, result), (256, 16, pos),
    (272, 1, bit r.substituted), (273, 1, bit (r.substFrom.isSome && !(r.sentReduce.isEmpty && r.sentGather.isEmpty))),
    (274, 1, bit r.waited)]

/-- EXCHANGE_COMPLETE (R378, R392): the digest record is written; an uncorrected error in a final stripe that it reads faults the
job (R290). -/
def execExchangeComplete (s : State) : Out :=
  within true "" <|
    if !s.exchangeDone then s
    else match badIn s.eccBad (s.gradAddr 0) (stripeBytes * rdStripes s.redDesc) with
    | w :: _ => s.faultRead w
    | [] =>
      let k := s.red.step / rdInterval s.redDesc % 64
      let s := s.setOd Od.RED_DIGEST_LOG (setBits (s.odv Od.RED_DIGEST_LOG) (512 * k) 512 s.digestRecord)
      let s := s.setOd Od.RED_EXCHANGES (s.odv Od.RED_EXCHANGES + 1)
      { s with red := { s.red with complete := true } }.regather

/-! ### Deadlines and shadows (R385 to R390) -/

/-- The reduce messages of a bucket that this position expects from its predecessor. -/
def State.expected (s : State) (b : Nat) : List Nat :=
  (bucketStripes s.redDesc b).filter fun j => stripeStart s.ringSize j != s.ringPos

/-- The deadline of a bucket runs (R385) and is not met. -/
def State.deadlineRuns (s : State) (b : Nat) : Bool :=
  let all := fun k => (s.expected k).all fun j => s.red.admittedReduce.contains j
  s.red.active && 1 < s.ringSize && !s.isShadow && s.red.filled.contains b && (b = 0 || all (b - 1)) && !all b

/-- The shadow deadline of a bucket expires (R386, R389). -/
def execRedShadowDeadline (b elapsedUs : Nat) (s : State) : Out :=
  within (b < 65536) "bucket" <|
    if !s.deadlineRuns b || elapsedUs < s.odv Od.RED_SHADOW_DEADLINE || s.red.missed.contains b then s
    else
      let m := s.shadowPkg s.predPos
      let s := { s with red := { s.red with missed := b :: s.red.missed } }
      if m = 0xFFFF then { s with red := { s.red with waited := true } }.count Od.RED_DEADLINE_MISSES 1
      else if s.red.substituted then s
      else
        let s := s.sendTo 6 m [(512, 8, 2), (528, 16, s.predPos), (544, 64, s.red.step), (608, 16, b)] [] 0
        { s with red := { s.red with substituted := true } }.count Od.RED_SUBSTITUTIONS 1

/-- The hard timeout of a bucket expires (R389). -/
def execRedHardTimeout (b elapsedMs : Nat) (s : State) : Out :=
  within (b < 65536) "bucket" <|
    if s.deadlineRuns b && s.odv Od.RED_HARD_TIMEOUT ≤ elapsedMs then
      s.faultJob { cause := causeRedTimeout, platform := 0, detail := s.predPos + b * 2 ^ 16 }
    else s

/-- RING_SUBST at a shadow (R386, R388). -/
def execRingSubst (p : Nat) (s : State) : Out :=
  within (linkOk p) "port" <| s.takeMessage p 0 (fun m => m.kind = 6 && m.lcOp = 2) fun s m =>
    let pos := bitsOf m.header 528 16
    let b := bitsOf m.header 608 16
    if !s.isShadow || s.odv Od.RED_SHADOW_OF != pos || !s.red.active || s.red.step != bitsOf m.header 544 64 then
      s.count Od.RED_STRAY_SUBST 1
    else
      let s := { s with red := { s.red with substFrom := some b } }
      s.pump ((List.range (rdStripes s.redDesc)).filter fun j => b ≤ stripeBucket s.redDesc j)

end Sys2Proof.Machine
end

