-- ==== Sys2Proof/Machine/Roundhouse.lean ====
section
/-! DEFINITION. The Roundhouse (07): the gradient norm, the detectors, the update record, the optimisers, digests and
change counts. -/

namespace Sys2Proof.Machine

open Sys2Proof

/-! ### The update record (R216) -/

/-- The 1,088 bytes of the update record of an image. -/
def State.updRec (s : State) (img : Image) : Nat := memNat s.mem img.updRecord 1088

def urStep (r : Nat) : Nat := bitsOf r 0 44
def urMul (r : Nat) : W32 := BitVec.ofNat 32 (bitsOf r 64 32)
def urClip (r : Nat) : W32 := BitVec.ofNat 32 (bitsOf r 96 32)

/-- Hyperparameter group g of the record. -/
def urGroup (r g : Nat) : Nat := bitsOf r (512 + 512 * g) 512

def hpLr (h : Nat) : W32 := BitVec.ofNat 32 (bitsOf h 0 32)
def hpB1 (h : Nat) : W32 := BitVec.ofNat 32 (bitsOf h 32 32)
def hpB2 (h : Nat) : W32 := BitVec.ofNat 32 (bitsOf h 64 32)
def hpEps (h : Nat) : W32 := BitVec.ofNat 32 (bitsOf h 96 32)
def hpWd (h : Nat) : W32 := BitVec.ofNat 32 (bitsOf h 128 32)

/-- Finite and positive. -/
def posW (x : W32) : Bool := fisFin x && fgt x 0
/-- Finite and not below zero. -/
def nonNegW (x : W32) : Bool := fisFin x && fge x 0

/-- The fields of its group that an update descriptor uses lie in their ranges. -/
def groupOk (u h : Nat) : Bool :=
  let adam := udOpt u = 0
  nonNegW (hpLr h) && nonNegW (hpB1 h) && fgt oneW (hpB1 h) &&
  nonNegW (hpB2 h) && (if adam then fgt oneW (hpB2 h) else fge oneW (hpB2 h)) &&
  (!adam || posW (hpEps h)) && (!bitOf u 20 || nonNegW (hpWd h))

/-- The cause with which the record is refused for the step that ends the window, if it is. -/
def recordError (r step : Nat) (us : List Nat) : Option Nat :=
  if urStep r != step then some causeUpdStale
  else if bitsOf r 44 20 != 0 || bitsOf r 128 384 != 0 ||
      ((List.range 16).any fun g => bitsOf (urGroup r g) 160 352 != 0) ||
      !posW (urMul r) || !(urClip r = 0 || posW (urClip r)) ||
      us.any (fun u => !groupOk u (urGroup r (udGroup u))) then some causeUpdRange
  else none

/-! ### The gradient norm and the clip factor (R217 to R220) -/

/-- The partial of one norm block (R217, R218): from +0, the squares of g1 in layout order. -/
def blockPartial (gm : W32) (gs : List Nat) : W64 :=
  gs.foldl (fun (a : W64) (g : Nat) =>
    let x := ofW (fmul (widenB16 (BitVec.ofNat 16 g)) gm)
    toD ((ofD a).add (x.mul x))) 0

/-- The staged B16 values of a block. -/
def State.stagedBlock (s : State) (a : Nat) : List Nat := (List.range 16384).map fun i => memNat s.mem (a + 2 * i) 2

/-- The package partial (R218, steps 2 and 3): tensor partials in ascending identifier, each of its block partials in ascending n. -/
def State.packagePartial (s : State) (img : Image) : W64 :=
  let tensor := fun (x : Nat × Nat) =>
    (s.trainedBlocks x.2).foldl (fun (a : W64) n => dadd a (BitVec.ofNat 64 (tabGet 0 s.job.partials (udTensor x.1 * 2 ^ 20 + n)))) 0
  img.updates.foldl (fun (a : W64) x => dadd a (tensor x)) 0

/-- N2 (R218, step 4): from +0, the package partials in ascending chain position. `before` and `after` are those of the packages of
the chain before and after this one, as the Linam link brings them (DESIGN CHOICE, log entry 43). -/
def State.sumSquares (s : State) (img : Image) (before after : List W64) : W64 :=
  (before ++ s.packagePartial img :: after).foldl dadd 0

/-- sqrt(N2) in binary64. -/
def rootN2 (n2 : W64) : W64 := toD (ofD n2).sqrt

/-- K (R220). -/
def clipFactor (clip : W32) (n2 : W64) : W32 :=
  let c := ofW clip
  let r := ofD (rootN2 n2)
  if c.isZero || !(ofD n2).isFin || !c.lt r then oneW
  else toW (ofD (toD (c.div r)))

/-- The block partials of a staged bucket are formed, and the non-finite values read are counted (R127); with the last of them N2 is, and a non-finite N2 sets the
detector (R221). An uncorrected error in the staged gradient faults the job (R238). -/
def State.normBucket (s : State) (b : Nat) (before after : List W64) : State :=
  match s.jobImage with
  | none => s
  | some img =>
    if !s.red.active || !s.red.staged.contains b || s.red.normed.contains b then s
    else
      let r := s.redDesc
      let lo := rdImage r + b * rdPerBucket r * stripeBytes
      let n := (bucketStripes r b).length * stripeBytes
      match badIn s.eccBad lo n ++ badIn s.eccBad img.updRecord 1088 with
      | w :: _ => s.faultRead w
      | [] =>
        let gm := urMul (s.updRec img)
        let blks := (s.gradBlocks img).filter fun q => lo ≤ q.2.2.2.2 && q.2.2.2.2 < lo + n
        let ps := blks.foldl (fun (t : Tab Nat) q =>
          tabSet t (udTensor q.1 * 2 ^ 20 + q.2.2.1) (blockPartial gm (s.stagedBlock q.2.2.2.2)).toNat) s.job.partials
        let odd := blks.foldl (fun k q => k + countIf (fun g => !(fmtB16.dec g).isFin) (s.stagedBlock q.2.2.2.2)) 0
        let s : State := { s with red := { s.red with normed := b :: s.red.normed }, job := { s.job with partials := ps } }
        let s := s.commit (Tally.add [] 5 5 3 odd)
        if s.red.normed.length < rdBuckets r then s
        else
          let n2 := s.sumSquares img before after
          { s with job := { s.job with n2 := n2, chainPos := before.length, nonfinite := s.job.nonfinite || !(ofD n2).isFin } }

/-- The Roundhouse that updates the element whose W32 master lies at a device address (R212): that of the edge die of the granule's
logical stack or channel (R297). No result depends on it (R214). -/
def roundhouseOf (master : Nat) : Nat := (islandOf master - (0x5000 + regionOf master * 0x1000)) / 2

/-- The islands of the Roundhouses and of the memory controllers run: a parked one delays the pass or the update and never changes
it (R239). -/
def State.roundhousesRun (s : State) : Bool :=
  !s.islands.any fun e => e.2.parked && (e.1 / 4096 = 5 || e.1 / 4096 = 6 || e.1 / 4096 = 8)

/-- The read-back of a staged bucket; with the last of them N2 stands, for which the vote waits (R223). -/
def execRoundhouseNormPass (b : Nat) (before after : List W64) (s : State) : Out :=
  within (b < 65536) "bucket" <| if s.roundhousesRun then (s.normBucket b before after).regather else s

/-! ### The loss-spike detector (R221, R222) -/

/-- The loss-spike detector of one step. -/
def execLossSpikeDetect (s : State) : Out :=
  within true "" <|
    if !s.job.active then s
    else
      let j := s.job
      let ls := fdiv j.lossSum (fofNat j.lossRows)
      let none' := !fisFin ls || j.lossRows = 0
      let s := { s with job := { j with lossSum := 0, lossRows := 0 } }.setOd Od.LAST_STEP_LOSS ls.toNat
      if none' then s
      else
        let show' := fun (s : State) => (s.setOd Od.SPIKE_MEAN s.job.spikeMean.toNat).setOd Od.SPIKE_SD (fsqrt s.job.spikeVar).toNat
        if j.spikeN = 0 then show' { s with job := { s.job with spikeMean := ls, spikeVar := 0, spikeN := 1 } }
        else
          let a : W32 := BitVec.ofNat 32 (s.odv Od.SPIKE_ALPHA)
          let sd := fsqrt j.spikeVar
          let th := ffma (BitVec.ofNat 32 (s.odv Od.SPIKE_K)) sd j.spikeMean
          if s.odv Od.SPIKE_WARMUP ≤ j.spikeN && fgt ls th then
            let s := (s.count Od.LOSS_SPIKES 1).setOd Od.LAST_SPIKE_STEP (s.odv Od.JOB_STEP)
            if s.odv Od.SPIKE_ACTION = 1 then { s with job := { s.job with spike := true } } else s
          else
            let d := fsub ls j.spikeMean
            let mu := ffma a d j.spikeMean
            let v := ffma (fmul a d) d j.spikeVar
            let v := fmul v (fsub oneW a)
            show' { s with job := { s.job with
              spikeMean := mu, spikeVar := v, spikeN := Nat.min (j.spikeN + 1) (2 ^ 32 - 1) } }

/-! ### The optimisers (R126, R226) -/

/-- x^t in binary64, from the most significant bit of t down. -/
def powBits (x : W64) (t : Nat) : Nat → W64 → W64
  | 0, p => p
  | n + 1, p =>
    let p := dmul p p
    powBits x t n (if bitOf t n then dmul p x else p)

def powD (x : W32) (t : Nat) : W64 := powBits (toD (ofW x)) t (t.log2 + 1) (toD (.fin false 1 0))

/-- W32 of 1 / (1 − P). -/
def biasRecip (p : W64) : W32 :=
  let one := Num.fin false 1 0
  toW (ofD (toD (one.div (ofD (toD (one.add (ofD p).neg))))))

/-- The constants of one tensor's update. -/
structure UpdConst where
  gm : W32
  k : W32
  b1 : W32
  b2 : W32
  ob1 : W32
  ob2 : W32
  rc1 : W32
  rc2 : W32
  eps : W32
  dk : W32
  nlr : W32
  x : Int
  adam : Bool
  nesterov : Bool
  deriving DecidableEq, Repr

def updConst (r u t : Nat) (k : W32) (x : Int) : UpdConst :=
  let h := urGroup r (udGroup u)
  let corr := bitOf u 19
  { gm := urMul r
    k := k
    b1 := hpB1 h
    b2 := hpB2 h
    ob1 := fsub oneW (hpB1 h)
    ob2 := fsub oneW (hpB2 h)
    rc1 := if corr then biasRecip (powD (hpB1 h) t) else oneW
    rc2 := if corr then biasRecip (powD (hpB2 h) t) else oneW
    eps := hpEps h
    dk := if bitOf u 20 then ffma (fneg (hpLr h)) (hpWd h) oneW else oneW
    nlr := fneg (hpLr h)
    x := x
    adam := udOpt u = 0
    nesterov := bitOf u 18 }

/-- What one element's update reads or writes: master, first and second moment (or momentum buffer), working copy. -/
structure UpdElem where
  w : W32
  m : W32
  v : W32
  wc : Nat
  deriving DecidableEq, Repr

/-- Multiplication of the update term by 2^X, and what it counts (R126). -/
def lrScale (x : Int) (u : W32) : Conv := fmtW32.conv .rne ((ofW u).scale x)

/-- One element of an `ADAMW` tensor. -/
def adamStep (c : UpdConst) (g : W32) (e : UpdElem) : UpdElem × Conv :=
  let g := fmul (fmul g c.gm) c.k
  let m := ffma c.b1 e.m (fmul c.ob1 g)
  let v := ffma c.b2 e.v (fmul c.ob2 (fmul g g))
  let dn := fadd (fsqrt (fmul v c.rc2)) c.eps
  let u := lrScale c.x (fdiv (fmul m c.rc1) dn)
  let w := ffma c.nlr (BitVec.ofNat 32 u.bits) (fmul e.w c.dk)
  ({ e with w := w, m := m, v := v }, u)

/-- One element of an `SGD_MOM` tensor. -/
def sgdStep (c : UpdConst) (g : W32) (e : UpdElem) : UpdElem × Conv :=
  let g := fmul (fmul g c.gm) c.k
  let b := ffma c.b1 e.m (fmul c.ob2 g)
  let d := if c.nesterov then ffma c.b1 b g else b
  let d := lrScale c.x d
  let w := ffma c.nlr (BitVec.ofNat 32 d.bits) (fmul e.w c.dk)
  ({ e with w := w, m := b }, d)

/-! ### Blocks -/

/-- Value `i` of block n is an element of the tensor, not padding. -/
def wgInside (w n i : Nat) : Bool :=
  if wgRows w = 1 then 16384 * n + i < wgCols w
  else
    let nbc := ceilDiv (wgCols w) 128
    128 * (n / nbc) + i / 128 < wgRows w && 128 * (n % nbc) + i % 128 < wgCols w

/-- The working copy of an element (R229, R230). -/
def wcConv (seed step u w n i : Nat) (x : W32) : Conv :=
  let d : DrawKey := { seed := seed, purpose := 1, tensor := udTensor u, step := step, micro := 0 }
  fmtB16.conv (if bitOf u 21 then .sr (d.fraction (wgIndex w n i)) else .rne) (ofW x)

/-- The elements of a block as memory holds them. -/
def State.block (s : State) (u n : Nat) : List UpdElem :=
  let word := fun a i => BitVec.ofNat 32 (memNat s.mem (a + 65536 * n + 4 * i) 4)
  (List.range 16384).map fun i =>
    { w := word (udMaster u) i, m := word (udM u) i, v := if udOpt u = 0 then word (udV u) i else 0,
      wc := memNat s.mem (udWc u + 32768 * n + 2 * i) 2 }

def State.putBlock (s : State) (u n : Nat) (es : List UpdElem) : State :=
  let s := s.put (udMaster u + 65536 * n) (es.flatMap fun (e : UpdElem) => leBytes 4 e.w.toNat)
  let s := s.put (udM u + 65536 * n) (es.flatMap fun (e : UpdElem) => leBytes 4 e.m.toNat)
  let s := if udOpt u = 0 then s.put (udV u + 65536 * n) (es.flatMap fun (e : UpdElem) => leBytes 4 e.v.toNat) else s
  s.put (udWc u + 32768 * n) (es.flatMap fun (e : UpdElem) => leBytes 2 e.wc)

/-! ### Digests and change counts (R231 to R236) -/

def blkRecord (u n : Nat) : Nat := udBlk u + 64 * n
def brValid (r : Nat) : Bool := bitOf r 256
def brDirty (r : Nat) : Bool := bitOf r 257
def brChanged (r : Nat) : Bool := bitOf r 258

/-- The CRC fields of a block record, from the block's arrays in memory. -/
def State.blockCrcs (s : State) (u n : Nat) : List (Nat × Nat × Nat) :=
  let crc := fun a len => crc64 (s.load (a + len * n) len)
  [(0, 64, crc (udMaster u) 65536), (64, 64, crc (udM u) 65536),
   (128, 64, if udOpt u = 0 then crc (udV u) 65536 else 0), (192, 64, crc (udWc u) 32768), (256, 1, 1)]

/-- Write a block record: its CRCs, and the flags given. -/
def State.putRecord (s : State) (u n : Nat) (dirty changed : Bool) : State :=
  let bit := fun (b : Bool) => if b then 1 else 0
  s.put (blkRecord u n) (leBytes 64 (fields (s.blockCrcs u n ++ [(257, 1, bit dirty), (258, 1, bit changed)])))

/-- x^(8n) times a residue modulo the CRC's polynomial: n zero bytes follow. -/
def crcShift (c : Nat) : Nat → Nat
  | 0 => c
  | n + 1 => crcShift (crc64Byte c 0) n

/-- CRC(A ‖ B) from CRC(A), CRC(B) and the bytes of B (R233). -/
def crcJoin (a b len : Nat) : Nat := crcShift a len ^^^ b

/-- Write a tensor's status record from its block records (R233, R234). -/
def State.putStatus (s : State) (u w step elems : Nat) : State :=
  let rs := (List.range (wgBlocks w)).map fun n => memNat s.mem (blkRecord u n) 64
  let crc := fun lo len => rs.foldl (fun c r => crcJoin c (bitsOf r lo 64) len) 0
  s.put (udStatus u) (leBytes 64 (fields [(0, 64, crc 0 65536), (64, 64, crc 64 65536),
    (128, 64, if udOpt u = 0 then crc 128 65536 else 0), (192, 64, crc 192 32768),
    (256, 32, countIf brDirty rs), (288, 32, countIf brChanged rs), (320, 64, elems), (384, 44, step)]))

/-- ST_CHANGED_ELEMS as the status record holds it. -/
def State.changedElems (s : State) (u : Nat) : Nat := bitsOf (memNat s.mem (udStatus u) 64) 320 64

/-- A DIGEST pass (R235): every block's CRCs are formed again, its flags kept, and every status record written. -/
def State.digestPass (s : State) (img : Image) (step : Nat) : State :=
  img.updates.foldl (fun (s : State) x =>
    let s := (List.range (wgBlocks x.2)).foldl (fun (s : State) n =>
      let r := memNat s.mem (blkRecord x.1 n) 64
      s.putRecord x.1 n (brDirty r) (brChanged r)) s
    s.putStatus x.1 x.2 step (s.changedElems x.1)) s

/-- A step is running: the job's streams have not all ended. -/
def State.stepRunning (s : State) : Bool := s.job.active && (s.job.update != 0 || !(s.streamSteps 0).isEmpty)

/-- The ECC words of the records and arrays that a DIGEST pass reads and that show an error (R238). -/
def State.digestErrors (s : State) (img : Image) : List Nat :=
  img.updates.flatMap fun x =>
    let n := wgBlocks x.2
    let b := fun a len => badIn s.eccBad a len
    b (udMaster x.1) (65536 * n) ++ b (udM x.1) (65536 * n) ++ (if udOpt x.1 = 0 then b (udV x.1) (65536 * n) else []) ++
    b (udWc x.1) (32768 * n) ++ b (udBlk x.1) (64 * n) ++ b (udStatus x.1) 64

/-- UPD_DIGEST: a write of 1 that is not refused (R235); the descriptors are those of the loaded Timetable. An uncorrected error
that the pass meets faults (R238). -/
def execUpdDigest (v : Nat) (s : State) : Out :=
  within (v < 256) "value" <|
    match s.loaded with
    | some img =>
      if v != 1 || s.stepRunning then s
      else match s.digestErrors img with
        | w :: _ => s.faultRead w
        | [] => s.digestPass img (s.odv Od.JOB_STEP)
    | none => s

/-! ### The update (R224 to R229, R232) -/

/-- What an element's update counts beside its conversions (R127, R228): each of its moments and its master that becomes non-finite
where what it is formed of is finite, and the non-finite values it reads. -/
def updCounts (e e' : UpdElem) (g : W32) (lr : Conv) : Nat × Nat :=
  let lost := fun (xs : List W32) (y : W32) => if xs.all fisFin && !fisFin y then 1 else 0
  (lost [g, e.m] e'.m + lost [g, e.v] e'.v + lost [e.w, BitVec.ofNat 32 lr.bits] e'.w,
   countIf (fun x => !fisFin x) [e.w, e.m, e.v])

/-- One block updated: new elements, what is counted, and the number of masters whose bits changed. -/
def updBlock (c : UpdConst) (seed step u w n : Nat) (gs : List Nat) (es : List UpdElem) : List UpdElem × Tally × Nat :=
  let ix := List.range es.length
  let rs := (ix.zip (gs.zip es)).map fun q =>
    if wgInside w n q.1 then
      let g := widenB16 (BitVec.ofNat 16 q.2.1)
      let r := if c.adam then adamStep c g q.2.2 else sgdStep c g q.2.2
      let wc := wcConv seed step u w n q.1 r.1.w
      ({ r.1 with wc := wc.bits }, some (r.2, wc, updCounts q.2.2 r.1 g r.2))
    else (q.2.2, none)
  let out := rs.map (·.1)
  let live := rs.filterMap (·.2)
  let t := Tally.convs (Tally.convs [] 2 6 (live.map (·.1))) 2 5 (live.map (·.2.1))
  let t := (t.add 2 6 0 ((live.map (·.2.2.1)).foldl (· + ·) 0)).add 2 6 3 ((live.map (·.2.2.2)).foldl (· + ·) 0)
  (out, t, countIf (fun (p : UpdElem × UpdElem) => p.1.w != p.2.w) (es.zip out))

/-- One trained block read, updated and written, with its record. -/
def State.updateBlock (s : State) (c : UpdConst) (step u w n addr : Nat) : State × Nat :=
  let es := s.block u n
  let r := updBlock c s.job.seed step u w n (s.stagedBlock addr) es
  let old := memNat s.mem (blkRecord u n) 64
  let changed := 0 < r.2.2
  let s := (s.putBlock u n r.1).putRecord u n (brDirty old || changed) changed
  let bad := r.1.any fun e => !fisFin e.w || !fisFin e.m || !fisFin e.v
  ({ s with job := { s.job with updNonfinite := s.job.updNonfinite || bad } }.commit r.2.1, r.2.2)

/-- The learning-rate exponent of a tensor (R126). -/
def State.lrExp (s : State) (tid : Nat) : Int :=
  match s.scaleEntry 0 tid with
  | some (_, w) => seLrExp w
  | none => 0

/-- Every trained block of one tensor that `sel` chooses. -/
def State.updateTensor (s : State) (sel : Nat → Nat → Bool) (r t step : Nat) (k : W32) (u w : Nat) : State × Nat :=
  let c := updConst r u t k (s.lrExp (udTensor u))
  let bs := s.trainedBlocks w
  ((List.range bs.length).zip bs).foldl (fun (acc : State × Nat) q =>
    if sel u q.2 then
      let x := acc.1.updateBlock c step u w q.2 (udGrad u + 32768 * q.1)
      (x.1, acc.2 + x.2)
    else acc) (s, 0)

/-- Untrained blocks whose record is not valid are read and recorded in the same pass (R232). -/
def State.recordRest (s : State) (u w : Nat) : State :=
  ((List.range (wgBlocks w)).filter fun n => !s.trained w n && !brValid (memNat s.mem (blkRecord u n) 64)).foldl
    (fun (s : State) n =>
      let r := memNat s.mem (blkRecord u n) 64
      s.putRecord u n (brDirty r) (brChanged r)) s

/-- The ECC words that the update reads of a block and that show an error (R238). -/
def State.blockErrors (s : State) (u n : Nat) (grad : Option Nat) : List Nat :=
  let b := fun a len => badIn s.eccBad a len
  b (udMaster u + 65536 * n) 65536 ++ b (udM u + 65536 * n) 65536 ++
  (if udOpt u = 0 then b (udV u + 65536 * n) 65536 else []) ++ b (blkRecord u n) 64 ++
  match grad with
  | some a => b a 32768
  | none => b (udWc u + 32768 * n) 32768

/-- The error that an update meets first, if it meets one: in a trained block, or in an untrained one, whose record is read and, where
it is not valid, whose arrays. -/
def State.updateErrors (s : State) (img : Image) : List Nat :=
  ((s.gradBlocks img).flatMap fun q => s.blockErrors q.1 q.2.2.1 (some q.2.2.2.2)) ++
  img.updates.flatMap fun x =>
    ((List.range (wgBlocks x.2)).filter fun n => !s.trained x.2 n).flatMap fun n =>
      if brValid (memNat s.mem (blkRecord x.1 n) 64) then badIn s.eccBad (blkRecord x.1 n) 64 else s.blockErrors x.1 n none

/-- The update proper, over the trained blocks that `sel` chooses: the masters, moments and working copies. -/
def State.updateAll (s : State) (sel : Nat → Nat → Bool) (img : Image) (r step : Nat) (k : W32) : State × List Nat :=
  let t := s.odv Od.UPDATE_COUNT + 1
  img.updates.foldl (fun (acc : State × List Nat) x =>
    let y := acc.1.updateTensor sel r t step k x.1 x.2
    (y.1, acc.2 ++ [y.2])) (s, [])

/-- The records of the blocks not written, and every status record. -/
def State.recordAll (s : State) (img : Image) (step : Nat) (elems : List Nat) : State :=
  (img.updates.zip elems).foldl (fun (s : State) q =>
    (s.recordRest q.1.1 q.1.2).putStatus q.1.1 q.1.2 step q.2) s

/-- The window restarts (R202): its detectors, partials and exchange are cleared. -/
def State.newWindow (s : State) : State :=
  { s with red := Exchange.empty, job := { s.job with nonfinite := false, spike := false, partials := [], n2 := 0, grads := [] } }

/-- A pending checkpoint request moves to the next step that ends a window (R544). -/
def State.deferRequest (s : State) : State :=
  match s.ckpt.request with
  | none => s
  | some w => { s with ckpt := { s.ckpt with request := some (w + rdInterval s.redDesc) } }.count Od.CKPT_DEFERRED 1

/-- The pending request is for the step that ends the window. -/
def State.requestDue (s : State) : Bool := s.ckpt.request = some s.red.step

/-- A skipped update (R224, R225, R544). -/
def State.skipUpdate (s : State) : State :=
  let step := s.red.step
  let s := if s.requestDue then s.deferRequest else s
  let run := s.odv Od.SKIP_RUN + 1
  let s := (s.setOd Od.SKIP_RUN run).count Od.UPD_SKIPPED 1
  let s := s.setOd Od.LAST_GRAD_NORM (toW (ofD (rootN2 s.job.n2))).toNat
  let limit := s.odv Od.SKIP_LIMIT
  let s := s.newWindow
  let s := { s with job := { s.job with decided := some step } }
  if limit != 0 && run = limit then s.faultJob { cause := causeUpdSkipLimit, platform := 0, detail := step % 2 ^ 16 } else s

/-- The fused snapshot begins: its slot is invalid until it ends (R544, R546). -/
def State.beginSnapshot (s : State) (step : Nat) : State :=
  let c := s.ckpt
  let c := { c with request := if c.request = some step then none else c.request, snapshot := some step }
  let k := if c.next then 1 else 0
  { s with ckpt := if c.next then { c with b := .empty } else { c with a := .empty } }.clearManifest k

/-- An update that meets an error: which blocks had been written is open, a free choice (DESIGN CHOICE, log entry 44). -/
def State.updateCut (s : State) (img : Image) (r step : Nat) (k : W32) (w : Nat) : State :=
  let hit := ((s.gradBlocks img).filter fun q => !(s.blockErrors q.1 q.2.2.1 (some q.2.2.2.2)).isEmpty).map fun q => (q.1, q.2.2.1)
  let chosen := fun u n => bitOf (Config.freeByte (s.fresh + udTensor u * 2 ^ 20 + n)).toNat 0 && !hit.contains (u, n)
  let s := (s.updateAll chosen img r step k).1
  let s := { s with fresh := s.fresh + 2 ^ 36 }
  s.faultRead w

/-- Every block updated and recorded; what the update leaves, and the checkpoint that it takes or defers. -/
def State.updateWhole (s : State) (img : Image) (r step : Nat) (k : W32) : State :=
  let n2 := s.job.n2
  let y := s.updateAll (fun _ _ => true) img r step k
  let s := y.1.recordAll img step y.2
  let s := (s.count Od.UPD_APPLIED 1).setOd Od.UPDATE_COUNT (s.odv Od.UPDATE_COUNT + 1)
  let s := if fgt oneW k then s.count Od.UPD_CLIPPED 1 else s
  let s := (s.setOd Od.LAST_GRAD_NORM (toW (ofD (rootN2 n2))).toNat).setOd Od.LAST_CLIP_FACTOR k.toNat
  let s := { s with job := { s.job with
    update := 1, decided := some step, studentHeld := true, nonfinite := false, spike := false, partials := [], n2 := 0
    grads := [], redone := [] } }
  if bitOf s.job.voteOr 1 && !bitOf s.job.voteOr 2 then s.beginSnapshot step
  else if !s.requestDue then s
  else if bitOf s.job.voteOr 2 || s.ckpt.undrained.isSome then s.deferRequest
  else { s with ckpt := { s.ckpt with request := none, copy := some step } }

/-- An applied update (R225, R226, R232, R234, R238, R544). -/
def State.applyUpdate (s : State) (img : Image) : State :=
  let step := s.red.step
  let r := s.updRec img
  let k := clipFactor (urClip r) s.job.n2
  let s := s.setOd Od.SKIP_RUN 0
  let s := { s with job := { s.job with updNonfinite := false } }
  match s.updateErrors img with
  | w :: _ => s.updateCut img r step k w
  | [] => s.updateWhole img r step k

/-- Run an update unless its record, which is read first whether the vote skips it or not, faults the job (R216). -/
def State.withRecord (s : State) (img : Image) (k : State → State) : State :=
  match badIn s.eccBad img.updRecord 1088 with
  | w :: _ => s.faultRead w
  | [] =>
    match recordError (s.updRec img) s.red.step img.updDescs with
    | some c => s.faultJob { cause := c, platform := 0 }
    | none => k s

/-- The OR of a vote decides on the update of a window whose exchange is complete and whose N2 stands (R223). -/
def State.decideUpdate (s : State) (pay : Nat) : State :=
  let s := { s with job := { s.job with voteOr := pay } }
  match s.jobImage with
  | none => s
  | some img =>
    if !s.red.complete || s.red.normed.length < rdBuckets s.redDesc || s.job.update != 0 then s
    else s.withRecord img fun s => if bitOf pay 0 then s.skipUpdate else s.applyUpdate img

/-- A group of 16 elements that an update writes, by the address of its first master ÷ 64. -/
def State.updateGroup (s : State) (img : Image) (group : Nat) : Bool :=
  (s.gradBlocks img).any fun q => udMaster q.1 + 65536 * q.2.2.1 ≤ 64 * group && 64 * group < udMaster q.1 + 65536 * (q.2.2.1 + 1)

/-- ROUNDHOUSE_DETECTED_ERROR (R237) at the Roundhouse whose element it is (R212): the group is recomputed once; a second error in
it faults the job. -/
def execRoundhouseDetectedError (edge group : Nat) (s : State) : Out :=
  within (edge < 8) "edge die" <|
    match s.jobImage with
    | none => s
    | some img =>
      if s.job.update != 1 || roundhouseOf (64 * group) != edge || !s.updateGroup img group then s
      else if s.job.redone.contains group then
        s.faultJob { cause := causeUpdReplay, island := 0x8000 + edge, platform := 0, detail := group % 2 ^ 16 }
      else { s with job := { s.job with redone := group :: s.job.redone } }.count Od.UPD_REPLAYS 1

end Sys2Proof.Machine
end

