-- ==== Sys2Proof/Machine/Interlocking.lean ====
section
/-! DEFINITION. Barrier tokens between packages and the release of barriers (R275, R276, R365). -/

namespace Sys2Proof.Machine

open Sys2Proof

/-- The message is a barrier token of a kind. -/
def Message.token (k : Nat) (m : Message) : Bool := m.kind = k

def tokChan (m : Message) : Nat := bitsOf m.header 356 4
def tokPay (m : Message) : Nat := bitsOf m.header 362 8
def tokN (m : Message) : Nat := bitsOf m.header 370 24

/-- The oldest message on VC0 of a port is an arrival token (R275): it is held at this package's node, and the barrier it
belongs to is gathered. A node that takes no part in the channel hands the token on (DESIGN CHOICE, log entry 96). -/
def execBarArrive (p : Nat) (s : State) : Out :=
  within (linkOk p) "port" <| s.takeMessage p 0 (Message.token 4) fun s m =>
    let ch := tokChan m
    let x := s.channel ch
    match s.chanOwner ch with
    | none => match s.upPort with
      | some u => s.sendHop u 4 [(356, 4, ch), (360, 2, bitsOf m.header 360 2), (362, 8, tokPay m), (370, 24, tokN m)]
      | none => s
    | some q =>
      let s := s.setChannel ch { x with tokens := x.tokens ++ [{ port := p, n := tokN m, payload := tokPay m : Token }] }
      s.gather q ch (x.sentUp + 1)

/-- The Roundhouses receive the OR of a vote, and the update is applied or skipped (R223, R276). -/
def State.takeVote (s : State) (p ch pay : Nat) : State :=
  match s.chanDecl p ch with
  | some d => if d.voteSrc = 1 && s.job.active then s.decideUpdate pay else s
  | none => s

/-- The release of a barrier here, with what its vote decides. -/
def State.release (s : State) (p ch n pay elapsedNs : Nat) : State :=
  (s.takeVote p ch pay).releaseBarrier p ch n pay elapsedNs

/-- The port whose VC0 holds a release of a channel in front. -/
def State.releasePort (s : State) (ch : Nat) : Option (Nat × Message) :=
  (List.range 16).findSome? fun p => match s.inHead p 0 with
    | some m => if m.kind = 5 && tokChan m = ch && m.dst = s.pkg then some (p, m) else none
    | none => none

/-- A barrier of a channel is released (R276): one that is complete at its root here, or one whose release has arrived
from the parent. `elapsedNs` is the time from its last arrival. -/
def execBarRelease (ch elapsedNs : Nat) (s : State) : Out :=
  within (ch < 16) "channel" <|
    match (s.channel ch).due, s.chanOwner ch with
    | d :: rest, some p =>
      (s.setChannel ch { s.channel ch with due := rest }).release p ch d.1 d.2 elapsedNs
    | _, o =>
      match s.releasePort ch with
      | none => s
      | some (q, m) =>
        let s := s.dropHead q 0
        if m.epoch != s.odv Od.POINTS_EPOCH then s.count Od.LINK_STALE_DROPS 1
        else match o with
          | none => s.downPorts.foldl (fun s r =>
              s.sendHop r 5 [(356, 4, ch), (360, 2, bitsOf m.header 360 2), (362, 8, tokPay m), (370, 24, tokN m)]) s
          | some p =>
            let n := (s.channel ch).released + 1
            if n % 2 ^ 24 = tokN m then s.release p ch n (tokPay m) elapsedNs else s

end Sys2Proof.Machine
end

