-- ==== Sys2Proof/Machine/HostPath.lean ====
section
/-! DEFINITION. Doorbells, descriptors, the aperture and the CXL.mem window (09, 14). -/

namespace Sys2Proof.Machine

open Sys2Proof

/-! ### Doorbells (R490 to R493) -/

def portOk (p : Nat) : Bool := p < 2

/-- A function's pages of a Platform respond (R481). -/
def State.responds (s : State) (port vf p : Nat) : Bool :=
  p < 1024 && (vf = 0 || ((s.plat p).fn = 64 * port + vf && (s.plat p).st != 0))

/-- `DOORBELL_REFUSED` is set, and its change from 0 to 1 raises the error vector (R502). -/
def State.refuseDoorbell (s : State) (p : Nat) : State :=
  let x := s.plat p
  if x.doorbellRefused then s else (s.setPlat p { x with doorbellRefused := true }).raiseErr p

/-- A doorbell dropped under R490. -/
def State.dropDoorbell (s : State) (port vf p : Nat) : State :=
  let s := s.count Od.DOORBELLS_DROPPED 1
  if s.responds port vf p then s.refuseDoorbell p else s

/-- A doorbell dropped under R267. -/
def State.dropSignal (s : State) (p : Nat) : State := (s.count Od.SYNC_DOORBELL_DROPS 1).refuseDoorbell p

/-- A doorbell write whose form R490 accepts and whose Platform takes doorbells reaches `k`, with the Platform; a
stopped context (R323) or a faulted one (R470) drops it under R267. -/
def State.doorbell (s : State) (port vf offset size value reg resLo resLen : Nat) (k : State → Nat → State) : State :=
  let p := offset / 4096
  if s.responds port vf p && (s.plat p).epochStopped then s.dropSignal p
  else if size != 8 || offset % 4096 != reg || bitsOf value resLo resLen != 0 || !s.responds port vf p then
    s.dropDoorbell port vf p
  else if (s.plat p).st = 3 then s.dropSignal p
  else k s p

/-- A queue doorbell sets `Q_TAIL`, or stops the queue with `BAD_TAIL` (R491). -/
def execQueueDoorbell (port vf offset size value : Nat) (s : State) : Out :=
  within (portOk port && vf < 64) "port or function" <|
    s.doorbell port vf offset size value 0 12 20 fun s p =>
      let x := s.plat p
      let n := bitsOf value 0 12
      let q := x.queueBase + n
      let u := s.queue q
      if x.queueCount ≤ n || !u.enable then s.dropDoorbell port vf p
      else
        let tail := bitsOf value 32 32
        let ahead := (tail + 2 ^ 32 - u.head) % 2 ^ 32
        if 2 ^ u.slotsLog2 < ahead || ahead < (u.tail + 2 ^ 32 - u.head) % 2 ^ 32 then s.stopQueue q 5
        else (s.setQueue q { u with tail := tail }).count Od.DOORBELLS_ACCEPTED 1

/-- A completion doorbell sets `Q_CPL_HEAD`, and held records follow into the freed places (R492, R498). -/
def execCompletionDoorbell (port vf offset size value : Nat) (s : State) : Out :=
  within (portOk port && vf < 64) "port or function" <|
    s.doorbell port vf offset size value 8 12 20 fun s p =>
      let x := s.plat p
      let n := bitsOf value 0 12
      let q := x.queueBase + n
      let u := s.queue q
      let head := bitsOf value 32 32
      if x.queueCount ≤ n || !u.enable ||
          (u.cplTail + 2 ^ 32 - u.cplHead) % 2 ^ 32 < (head + 2 ^ 32 - u.cplHead) % 2 ^ 32 then
        s.dropDoorbell port vf p
      else ((s.setQueue q { u with cplHead := head }).count Od.DOORBELLS_ACCEPTED 1).drain q p (u.held.length + 1)

/-- The counter of a Timetable core is declared `CD_HOST_IN` in the Platform's image. -/
def State.hostIn (s : State) (p tcore k : Nat) : Bool :=
  match (s.plat p).image with
  | none => false
  | some img => match img.ctrDecl tcore k with
    | none => false
    | some d => bitOf d 58

/-- A counter doorbell signals a host-input counter of the context (R266, R267, R493). -/
def execCounterDoorbell (port vf offset size value : Nat) (s : State) : Out :=
  within (portOk port && vf < 64) "port or function" <|
    s.doorbell port vf offset size value 16 31 33 fun s p =>
      let tc := bitsOf value 0 9
      let k := bitsOf value 9 6
      let n := bitsOf value 16 15
      if n = 0 || bitOf value 15 then s.dropDoorbell port vf p
      else match (if (s.plat p).held && s.hostIn p tc k then s.mapCtr p tc k else none) with
        | none => s.dropSignal p
        | some (c, k') => (s.signal c k' n).count Od.DOORBELLS_ACCEPTED 1

/-! ### Descriptors (14, "Descriptors") -/

/-- A descriptor as read from its ring: its first slot count, its bits and its slots. -/
structure Desc where
  n : Nat
  w : Nat
  slots : Nat
  deriving DecidableEq, Repr

def Desc.kind (d : Desc) : Nat := bitsOf d.w 0 8
def Desc.scope (d : Desc) : Nat := bitsOf d.w 9 1
def Desc.irq (d : Desc) : Bool := bitOf d.w 10
def Desc.sigEn (d : Desc) : Bool := bitOf d.w 11
def Desc.vector (d : Desc) : Nat := bitsOf d.w 16 11
def Desc.sigCore (d : Desc) : Nat := bitsOf d.w 32 9
def Desc.sigCtr (d : Desc) : Nat := bitsOf d.w 41 6
def Desc.sigN (d : Desc) : Nat := bitsOf d.w 48 15
def Desc.tag (d : Desc) : Nat := bitsOf d.w 64 64
def Desc.src (d : Desc) : Nat := bitsOf d.w 128 64
def Desc.dst (d : Desc) : Nat := bitsOf d.w 192 64
def Desc.len (d : Desc) : Nat := bitsOf d.w 256 32 + 1
def Desc.payload (d : Desc) : List Byte := leBytes 192 (bitsOf d.w 512 1536)

/-- Slot `n` of a queue's descriptor ring, read from host memory (R494). -/
def State.slot (s : State) (u : Queue) (n : Nat) : Nat :=
  memNat s.hostMem (bitsOf u.descBase 0 56 + 64 * (n % 2 ^ u.slotsLog2)) 64

/-- The next descriptor of a queue that may start: its Platform armed and neither suspended nor stopped, the queue
enabled and running, its slots below `Q_TAIL`, and its port's link up (R320, R462, R491, R494, R495). -/
def State.nextDesc (s : State) (q : Nat) : Option (Nat × Desc) :=
  match s.owner q with
  | none => none
  | some p =>
    let x := s.plat p
    let u := s.queue q
    let at0 := (u.head + u.busy) % 2 ^ 32
    let avail := (u.tail + 2 ^ 32 - at0) % 2 ^ 32
    if x.st != 1 || x.suspending || x.epochStopped || !u.enable || u.stopped || avail = 0 || !(s.port x.port).linkUp then none
    else
      let w0 := s.slot u at0
      if bitOf w0 8 then
        (if avail < 4 then none
         else
           let at' := fun j => s.slot u ((at0 + j) % 2 ^ 32)
           some (p, { n := at0, slots := 4, w := w0 + at' 1 * 2 ^ 512 + at' 2 * 2 ^ 1024 + at' 3 * 2 ^ 1536 }))
      else some (p, { n := at0, w := w0, slots := 1 })

/-- The table of required fields, the ranges of the signal and the vector, and reserved bits (R10, R495). -/
def descOk (s : State) (p : Nat) (d : Desc) : Bool :=
  let x := s.plat p
  bitsOf d.w 12 4 = 0 && bitsOf d.w 27 5 = 0 && !bitOf d.w 47 && !bitOf d.w 63 && bitsOf d.w 288 224 = 0 &&
  (if d.irq then x.ownsVector d.vector else d.vector = 0) &&
  (if d.sigEn then d.sigN != 0 && s.hostIn p d.sigCore d.sigCtr && (s.mapCtr p d.sigCore d.sigCtr).isSome
   else d.sigCore = 0 && d.sigCtr = 0 && d.sigN = 0) &&
  let ext := d.slots = 4
  match d.kind with
  | 1 => !ext
  | 2 => ext && d.src = 0 && d.len ≤ 192 && (d.payload.drop d.len).all (· = 0)
  | 3 => !ext && d.src = 0 && d.dst = 0 && d.len = 1
  | 4 => !ext && d.src = 0 && d.dst = 0 && d.len = 1 && d.scope = 1
  | 5 => ext && d.src = 0 && d.dst = 0 && d.len = 1
  | _ => false

/-- The later of two slot counts of a ring, counted modulo 2^32. -/
def laterSlot (old n : Nat) : Nat := if (n + 2 ^ 32 - old) % 2 ^ 32 < 2 ^ 31 then n else old

/-- The descriptor has completed with a status: `Q_HEAD` passes its slots and its record goes to the ring (R304). -/
def State.finishDesc (s : State) (q p : Nat) (d : Desc) (status : Nat) (plain : Bool) : State :=
  let u := s.queue q
  let s := s.setQueue q { u with head := (u.head + d.slots) % 2 ^ 32, lastDone := laterSlot u.lastDone d.n }
  let r := { HeldRecord.plain 1 status d.n d.tag 0 with scope := d.scope }
  s.pushRecord q p (if plain then r else { r with
    irq := d.irq, vector := d.vector, sigEn := d.sigEn, sigCore := d.sigCore, sigCtr := d.sigCtr, sigN := d.sigN })

/-- A descriptor that fails: its record, and where the status stops the queue, the stop (R495). -/
def State.failDesc (s : State) (q p : Nat) (d : Desc) (status : Nat) : State :=
  let s := s.finishDesc q p d status (status = 4)
  if status = 2 then s else s.stopQueue q status

/-- The next descriptor of a queue, where it is of a kind: refused as `BAD_DESCRIPTOR`, or run. -/
def State.runDesc (s : State) (q : Nat) (kinds : Nat → Bool) (run : State → Nat → Desc → State) : State :=
  match s.nextDesc q with
  | none => s
  | some (p, d) =>
    if !kinds d.kind then s
    else
      let s := s.count Od.HOST_READ_BYTES (64 * d.slots)
      if descOk s p d then run s p d else s.failDesc q p d 4

/-- Where a device address of a descriptor leads: device memory, or host memory through a port. -/
inductive Place where
  | device
  | host (port addr : Nat)
  deriving DecidableEq, Repr

/-- The `n` bytes at a device address of a descriptor: their place, or the status that refuses them (R295, R296, R311,
R351, R450). Confined rows are not read by a descriptor (DEDUCED from R15 and R18, log entry 81). -/
def State.descPlace (s : State) (p a n : Nat) (write : Bool) : Place ⊕ Nat :=
  let x := s.plat p
  match regionOf a with
  | 3 => if bitsOf a 0 56 + n ≤ 2 ^ 56 then .inl (.host x.port (bitsOf a 0 56)) else .inr 1
  | 4 =>
    if 2 ^ 55 < bitsOf a 0 55 + n then .inr 1
    else if x.vf != 0 then .inr 2
    else .inl (.host (bitsOf a 55 1) (bitsOf a 0 55))
  | _ =>
    if !s.inTier a n || !(regionOf a != 2 || dlView (bitsOf a 0 32) = 0 || dlView (bitsOf a 0 32) = 8) then .inr 1
    else if !x.granted a n write then .inr 2
    else if !write && s.inConfined a n then .inr 2
    else if write && (s.inImage a n || (s.inReserve a n && s.anyArmed)) then .inr 2
    else .inl .device

/-- An uncorrected error that a descriptor reads faults the context it belongs to (R290, R293, R537). -/
def State.descEcc (s : State) (p w : Nat) : State :=
  let r := s.uncorrected w
  r.1.faultOwner p 0 r.2

/-- Bytes read from host memory by a descriptor of a context: each granule once, from the context's read-ahead or from
the host as a free choice decides (R305), filling the read-ahead. -/
def State.hostFetch (s : State) (p port a n : Nat) : State × List Byte :=
  let h := s.port port
  let g0 := a / 64
  let cnt := (a + n + 63) / 64 - g0
  let one := fun (acc : List Byte × List (Nat × Nat × List Byte)) (j : Nat) =>
    let g := g0 + j
    let live := memBytes s.hostMem (64 * g) 64
    let old := (h.readAhead.find? fun e => e.1 = p && e.2.1 = g).map (·.2.2)
    match old with
    | some bs => if bitOf (Config.freeByte (s.fresh + j)).toNat 0 then (acc.1 ++ bs, acc.2) else (acc.1 ++ live, acc.2)
    | none => (acc.1 ++ live, acc.2 ++ [(p, g, live)])
  let r := (List.range cnt).foldl one ([], h.readAhead)
  let s := ({ s with fresh := s.fresh + cnt }.setPort port { h with readAhead := r.2 }).count Od.HOST_READ_BYTES n
  (s, (r.1.drop (a - 64 * g0)).take n)

/-- Source and destination of one region share a byte (R302); regions 0x03 and 0x04 compare host bus addresses. -/
def copyOverlap (src dst n : Nat) (ps pd : Place) : Bool :=
  match ps, pd with
  | .host _ a, .host _ b => overlap a n b n
  | .device, .device => overlap src n dst n
  | _, _ => false

/-- The ports that a copy needs are up (R320). -/
def State.placeUp (s : State) (pl : Place) : Bool :=
  match pl with
  | .device => true
  | .host port _ => (s.port port).linkUp

/-- D_COPY (R302, R303, R305, R310, R311). A descriptor of a reserved kind is refused here. -/
def execDCopy (q : Nat) (s : State) : Out :=
  within (q < 4096) "queue" <| s.runDesc q (fun k => k = 1 || k = 0 || 5 < k) fun s p d =>
    match s.descPlace p d.src d.len false, s.descPlace p d.dst d.len true with
    | .inr e, .inr f => s.failDesc q p d (Nat.min e f)
    | .inr e, _ => s.failDesc q p d e
    | _, .inr e => s.failDesc q p d e
    | .inl ps, .inl pd =>
      if copyOverlap d.src d.dst d.len ps pd then s.failDesc q p d 1
      else if !s.placeUp ps || !s.placeUp pd then s
      else
        let go := fun (s : State) (bs : List Byte) =>
          match pd with
          | .host port a => (s.hostPut p port a bs).finishDesc q p d 0 false
          | .device =>
            match badPartly s.eccBad d.dst d.len with
            | w :: _ => s.descEcc p w
            | [] => (s.put d.dst bs).finishDesc q p d 0 false
        match ps with
        | .host port a =>
          if s.hostBad.any fun r => overlap r.1 r.2 a d.len then s.failDesc q p d 3
          else
            let r := s.hostFetch p port a d.len
            go r.1 r.2
        | .device =>
          match badIn s.eccBad d.src d.len with
          | w :: _ => s.descEcc p w
          | [] => go s (s.load d.src d.len)

/-- D_INLINE writes its payload in one pass (R309). -/
def execDInline (q : Nat) (s : State) : Out :=
  within (q < 4096) "queue" <| s.runDesc q (· = 2) fun s p d =>
    let bs := d.payload.take d.len
    match s.descPlace p d.dst d.len true with
    | .inr e => s.failDesc q p d e
    | .inl (.host port a) =>
      if (s.port port).linkUp then (s.hostPut p port a bs).finishDesc q p d 0 false else s
    | .inl .device =>
      match badPartly s.eccBad d.dst d.len with
      | w :: _ => s.descEcc p w
      | [] => (s.put d.dst bs).finishDesc q p d 0 false

/-- D_FENCE: every earlier descriptor of the queue has completed; the context's read-ahead is invalidated on both
ports (R307). -/
def execDFence (q : Nat) (s : State) : Out :=
  within (q < 4096) "queue" <| s.runDesc q (· = 3) fun s p d =>
    let inv := fun (s : State) port =>
      s.setPort port { s.port port with readAhead := (s.port port).readAhead.filter fun e => e.1 != p }
    if (s.queue q).busy != 0 then s else (inv (inv s 0) 1).finishDesc q p d 0 false

/-- D_FLUSH completes once every earlier write of its context is acknowledged on both ports (R308). -/
def execDFlush (q : Nat) (s : State) : Out :=
  within (q < 4096) "queue" <| s.runDesc q (· = 4) fun s p d =>
    if s.unflushed p then s else s.finishDesc q p d 0 false

/-- Clear a queue as Q_RESET leaves it: its records are discarded and its indices are 0 (R489). -/
def Queue.cleared (x : Queue) : Queue :=
  { x with enable := false, stopped := false, stopCode := 0, head := 0, busy := 0, tail := 0, cplTail := 0, cplHead := 0,
           lastDone := 0xFFFFFFFF, held := [] }

/-- A stream whose `NOTIFY` was held for a queue goes on without its signal once the record is discarded. -/
def State.releaseHeld (s : State) (q : Nat) : State :=
  (s.queue q).held.foldl (fun s r => match r.post with
    | none => s
    | some (c, i, _) => if (s.stream c i).state = 3 then s.advance c i 7 else s) s

/-- The request records of a queue lose it: they are decided as before, and their completion records are discarded
(R489; DEDUCED, log entry 112). The number 4096 is no hardware queue. -/
def State.orphanRecords (s : State) (q : Nat) : State :=
  { s with serving := { s.serving with records := s.serving.records.map fun r => if r.queue = q then { r with queue := 4096 } else r } }

/-- Q_RESET (R489). -/
def execQReset (q : Nat) (s : State) : Out :=
  within (q < 4096) "queue" <|
    let s := (s.releaseHeld q).orphanRecords q
    s.setQueue q (s.queue q).cleared

/-! ### The aperture (R484, R485) -/

/-- `AP_BASE` names region 0x00, 0x01 or 0x02, and in region 0x02 view 0x0 or 0x8 (R484). -/
def apBaseOk (base : Nat) : Bool :=
  let a := base * 2 ^ 24
  match regionOf a with
  | 0 => true
  | 1 => true
  | 2 => dlView (bitsOf a 0 32) = 0 || dlView (bitsOf a 0 32) = 8
  | _ => false

/-- Bytes that a host register window reads: zero beyond the tier and in confined rows (R17, R18, R484). -/
def State.windowBytes (s : State) (a n : Nat) : List Byte :=
  (fromTo a n).map fun b => if !s.inTier b 1 || s.inConfined b 1 then 0 else memGet s.mem b

/-- The words with an uncorrected error that a window read of `n` bytes reads beyond the confined rows, which read as zero
and set no error (R17). -/
def State.windowBad (s : State) (a n : Nat) : List Nat :=
  (badIn s.eccBad a n).filter fun w => (fromTo a n).any fun b => w ≤ b && b < w + eccLen w && !s.inConfined b 1

/-- An aperture read. Bytes of a word with an uncorrected error are never passed on (R537): the manual states no value
for them, so free values stand in their place. -/
def execApertureRead (port offset size : Nat) (s : State) : Out :=
  within (portOk port && offset + size ≤ 2 ^ 24) "port or offset" <|
    let h := s.port port
    if !h.apEnable then s.emit (.readData port (List.replicate size 0))
    else
      let a := h.apBase * 2 ^ 24 + offset
      match s.windowBad a size with
      | [] => s.emit (.readData port (s.windowBytes a size))
      | w :: _ =>
        let r := s.uncorrected w
        let s := r.1.capture r.2
        { s with fresh := s.fresh + size }.emit (.readData port ((List.range size).map fun i =>
          if s.inConfined (a + i) 1 then 0 else Config.freeByte (s.fresh + i)))

/-- The bytes of a write that lie within their tier; the rest is ignored (R484). -/
def State.putInTier (s : State) (a : Nat) (data : List Byte) : State :=
  if s.inTier a data.length then s.put a data
  else ((fromTo a data.length).zip data).foldl (fun (s : State) b => if s.inTier b.1 1 then s.put b.1 [b.2] else s) s

/-- An aperture write: discarded in a protected range, with the sticky bit (R485); ignored while the aperture is closed
and beyond the tier (R484). -/
def execApertureWrite (port offset : Nat) (data : List Byte) (s : State) : Out :=
  within (portOk port && offset + data.length ≤ 2 ^ 24) "port or offset" <|
    let h := s.port port
    let n := data.length
    let a := h.apBase * 2 ^ 24 + offset
    if !h.apEnable then s
    else if s.inImage a n || s.inReserve a n ||
        (s.inServing a n && s.plats.any fun e => e.2.held && s.serveMode) then s.sticky 10
    else match badPartly s.eccBad a n with
      | w :: _ => let r := s.uncorrected w; r.1.capture r.2
      | [] => s.putInTier a data

/-! ### The CXL.mem window (R315 to R318, R478, R479) -/

def winBaseKey (port : Nat) : Nat := if port = 0 then Od.CXL_WIN_BASE_HP0 else Od.CXL_WIN_BASE_HP1
def winSizeKey (port : Nat) : Nat := if port = 0 then Od.CXL_WIN_SIZE_HP0 else Od.CXL_WIN_SIZE_HP1

/-- The window of a port carries accesses: CXL runs, and a decoder is committed with the window's size (R477, R478). -/
def State.windowOpen (s : State) (port : Nat) : Bool :=
  let h := s.port port
  h.linkUp && h.cxl && h.hdmCommitted && !h.hdmError

/-- A host CXL.mem read; one that meets an uncorrected error returns all ones and reports it (R479). -/
def execCxlMemRead (port offset size : Nat) (s : State) : Out :=
  within (portOk port) "port" <|
    if !s.windowOpen port || s.odv (winSizeKey port) < offset + size then s
    else
      let a := s.odv (winBaseKey port) + offset
      match badIn s.eccBad a size with
      | [] => s.emit (.readData port (s.load a size))
      | w :: _ =>
        let r := s.uncorrected w
        ((((r.1.capture r.2).sticky 9).emit (.aer port)).raise port 0).emit (.readData port (List.replicate size 0xFF))

/-- A host CXL.mem write completes in an edge-die write buffer, where every later read sees it (R317); one into a
protected range, or into the checkpoint reserve, which only checkpoint and buddy transfers write (R294), is completed and
discarded (R318; DESIGN CHOICE for the reserve, log entry 93). -/
def execCxlMemWrite (port offset : Nat) (data : List Byte) (s : State) : Out :=
  within (portOk port) "port" <|
    let n := data.length
    if !s.windowOpen port || s.odv (winSizeKey port) < offset + n then s
    else
      let a := s.odv (winBaseKey port) + offset
      if s.inImage a n || s.inReserve a n then (s.count Od.CXL_PROTECTED_WRITES 1).sticky 8
      else match badPartly s.eccBad a n with
        | w :: _ => let r := s.uncorrected w; r.1.capture r.2
        | [] => s.put a data

/-- The host commits the HDM decoder of a port (R478). -/
def execHdmDecoderCommit (port base size ways : Nat) (s : State) : Out :=
  within (portOk port) "port" <|
    let good := ways = 1 && size = s.odv (winSizeKey port)
    s.setPort port { s.port port with hdmBase := base, hdmSize := size, hdmCommitted := good, hdmError := !good }

end Sys2Proof.Machine
end

