-- ==== Sys2Proof/Machine/Platforms.lean ====
section
/-! DEFINITION. Platforms: arming, suspension, resets and disarms (R247, R248, R446 to R474), function-level and port
resets, links and epochs (R319 to R326, R504 to R506), interrupt masks and plain register writes (14). -/

namespace Sys2Proof.Machine

open Sys2Proof

/-! ### Context resets (R471, R472) -/

/-- The live requests of a context that is reset end with `END_FAULT` at the next boundary, and nothing further is written for them
(R440); its undecided request records are gone (R471). -/
def State.dropRequests (s : State) (p : Nat) : State :=
  let drop := fun (r : Request) =>
    if r.platform = p then { r with ended := some 6, away := false, failed := false, delivered := r.log.length } else r
  { s with serving := { s.serving with
    requests := s.serving.requests.map drop
    records := s.serving.records.filter (·.platform != p) } }

/-- What a context reset and a disarm do: streams stop, issued commands are abandoned, owned counters return to zero,
queues are emptied, Junction slots and barrier channels are freed, and `PC_STATE` becomes `DISARMED` with the
configuration kept (R471). -/
def State.quiesce (s : State) (p : Nat) : State :=
  let s := s.dropRequests p
  let x := s.plat p
  let qs := fromTo x.queueBase x.queueCount
  let s := ((s.zeroCounters p).abandon p).dropStreams p
  let emptied := s.queues.map fun e => if qs.contains e.1 then (e.1, e.2.cleared) else e
  let kept := s.channels.filter fun e => s.chanOwner e.1 != some p
  let s := { s with queues := emptied, channels := kept }
  let s := if p = 0 && s.job.active then
      { s with job := { s.job with active := false, started := false }, red := { s.red with active := false } }.setOd Od.JOB_TAINTED 0
    else s
  let s := s.setPlat p { x with
    st := 0, suspending := false, image := none, grants := [], coreMap := [], ctrMap := [], disarming := false, tainted := false, scales := []
    doorbellRefused := false, recordDropped := false, epochStopped := false, fc := 0 }
  let s := if s.odv Od.SERVICE_PLATFORM = p then s.setOd Od.SERVICE_PLATFORM 0xFFFF else s
  s.clearVtime

/-- The queue blocks of a Platform no longer armed, and its epoch, at their reset values (R608). -/
def State.clearQueues (s : State) (p : Nat) : State :=
  let x := s.plat p
  let qs := fromTo x.queueBase x.queueCount
  { s with queues := s.queues.filter fun e => !(qs.contains e.1 && (s.owner e.1).isNone) }.setPlat p { x with epoch := 0 }

/-- A context reset: as above, counted (R471, R608). -/
def State.resetCtx (s : State) (p : Nat) : State :=
  if (s.plat p).st = 0 then s else ((s.quiesce p).clearQueues p).count Od.PLATFORM_RESETS 1

/-- Every Platform of a set of functions reset. -/
def State.resetAll (s : State) (f : Platform → Bool) : State :=
  (s.plats.filter fun e => f e.2).foldl (fun s e => (s.resetCtx e.1).clearQueues e.1) s

/-- The interrupt masks of virtual functions at their reset values (R501, R608). -/
def HostPort.maskVfs (h : HostPort) (f : Nat → Bool) : HostPort :=
  { h with unmasked := h.unmasked.filter (fun v => !f (v / 32)), pend := h.pend.filter (fun v => !f (v / 32)) }

/-- `PC_RESET` (R471). -/
def execPcReset (p : Nat) (s : State) : Out := within (p < 1024) "platform" <| s.resetCtx p

/-- `CTX_RESET` through the context page (R471, R481). -/
def execCtxReset (p : Nat) (s : State) : Out := within (p < 1024) "platform" <| s.resetCtx p

/-- A function-level reset of a virtual function: R471 on every Platform of it (R472); in Standby it has no effect (R607). -/
def execFlrVirtual (port vf : Nat) (s : State) : Out :=
  within (portOk port && 1 ≤ vf && vf < 64) "port or function" <|
    if !s.power.mainEn then s else
    let s := s.resetAll fun x => x.fn = 64 * port + vf
    s.setPort port ((s.port port).maskVfs (· = vf))

/-- A function's registers at their reset values: windows closed, interrupts masked, the mailbox's request abandoned
(R505, R534). -/
def HostPort.functionsReset (h : HostPort) : HostPort :=
  { h with numVfs := 0, apEnable := false, apBase := 0, unmasked := [], pend := [], mbxCtrl := 0, mbxServing := none }

/-- A function-level reset of the physical function (R505); in Standby it has no effect (R607). -/
def execFlrPhysical (port : Nat) (s : State) : Out :=
  within (portOk port) "port" <|
    if !s.power.mainEn then s else
    let s := s.resetAll fun x => x.port = port
    (s.setPort port (s.port port).functionsReset).emit (.frs port 0)

/-- Clearing VF Enable, or lowering NumVFs, resets each virtual function removed (R505). -/
def execVfEnableClear (port n : Nat) (s : State) : Out :=
  within (portOk port && n < 64) "port or count" <|
    let s := s.resetAll fun x => x.port = port && n < x.vf
    s.setPort port { (s.port port).maskVfs (n < ·) with numVfs := n }

/-! ### Links and epochs (R319 to R326, R504) -/

/-- R321 on every context of a port: each stops at its next descriptor boundary, its epoch increments and
`EPOCH_STOPPED` is set; what was held for the port is dropped (R322), and the stop's own interrupt is held until the
link is up (R502). -/
def State.stopEpochs (s : State) (port : Nat) : State :=
  let mine := s.plats.filter fun e => e.2.st != 0 && e.2.port = port && !e.2.epochStopped
  let s := s.setPort port { s.port port with
    heldWrites := (s.port port).heldWrites.filter fun w => (s.plat w.1).port != port
    heldMsix := []
    downHeld := true }
  let s := { s with queues := s.queues.map fun e =>
    if (s.owner e.1).any fun p => (s.plat p).port = port then
      (e.1, { e.2 with held := e.2.held.filter fun r => r.kind = 2 || r.wait })
    else e }
  mine.foldl (fun s e =>
    let x := s.plat e.1
    let s := (s.setPlat e.1 { x with epoch := (x.epoch + 1) % 2 ^ 16, epochStopped := true }).count Od.EPOCH_STOPS 1
    let h := s.port port
    s.setPort port { h with heldMsix := h.heldMsix ++ [32 * x.vf] }) s

def linkKey (port : Nat) : Nat := if port = 0 then Od.HP0_LINK else Od.HP1_LINK

/-- A port's data link layer goes down: traffic bound for it is held (R320). -/
def execDataLinkDown (port : Nat) (s : State) : Out :=
  within (portOk port) "port" <|
    (s.setPort port { s.port port with linkUp := false }).setOd (linkKey port) 0

/-- The data link layer comes up (R320): held writes go out in their original order, then held interrupts. `rate` is
the rate code, `partner` whether the link partner offers CXL (R477). -/
def execDataLinkUp (port rate width : Nat) (flit partner : Bool) (s : State) : Out :=
  within (portOk port && 1 ≤ rate && rate ≤ 6 && [1, 2, 4, 8, 16].contains width) "port, rate or width" <|
    let h := s.port port
    let cxl := partner && h.cxlOn
    let ready := s.power.ready
    let s := s.setPort port { h with
      linkUp := true, downHeld := false, cxl := cxl, heldWrites := [], heldMsix := [], retry := h.retry && !ready }
    let s := s.setOd (linkKey port) (rate + 16 * width + (if flit then 512 else 0) + (if cxl then 1024 else 0))
    let s := h.heldWrites.foldl (fun s w => s.hostPut w.1 port w.2.1 w.2.2) s
    (h.heldMsix.foldl (fun s v => s.raise port v) s).drainAll

/-- After 10 ms down, R321 applies to the port's contexts. -/
def execLinkDownHold (port elapsedMs : Nat) (s : State) : Out :=
  within (portOk port) "port" <|
    let h := s.port port
    if !h.linkUp && !h.downHeld && s.odv Od.LINK_DOWN_HOLD_MS ≤ elapsedMs then s.stopEpochs port else s

/-- A hot reset, or one PERST# alone, resets the port's functions and applies R321 to its contexts (R504); in Standby it has no effect
(R607). -/
def execPortHotReset (port : Nat) (s : State) : Out :=
  within (portOk port) "port" <|
    if !s.power.mainEn then s else
    let s := s.stopEpochs port
    let h := (s.port port).functionsReset
    (s.setPort port { h with linkUp := false, retry := true, cxlOn := bitOf (s.odv Od.HP_CXL_ENABLE) port, hdmCommitted := false, hdmError := false }).setOd (linkKey port) 0

/-- The streams of a Platform begin to issue: each tests the wait of its next command (R464); an amount that a
released consume wait has taken is not taken again. -/
def State.startStreams (s : State) (p : Nat) : State :=
  let mine := (s.cores.map fun e => (e.2.streams.filter fun t => t.2.platform = p && t.2.state = 6).map fun t => (e.1, t.1)).flatten
  mine.foldl (fun s k =>
    let t := s.stream k.1 k.2
    if t.state != 6 then s
    else
      let taken := match s.nextCmd k.1 k.2 with
        | some w => t.released && preConsume w
        | none => false
      if taken then s.makeReady k.1 k.2 none else s.reach k.1 k.2 none) s

/-- A write of the current epoch re-arms a stopped context: each of its queues writes `EPOCH_RESUMED` with the index of
the last descriptor it completed, and resumes (R323, R324), and so does a Platform whose suspension ended while it was stopped
(R474). -/
def execEpochArm (p value : Nat) (s : State) : Out :=
  within (p < 1024) "platform" <|
    let x := s.plat p
    if !x.epochStopped || value != x.epoch then s
    else
      let s := s.setPlat p { x with epochStopped := false }
      let s := (fromTo x.queueBase x.queueCount).foldl (fun s q =>
        let u := s.queue q
        if u.enable then s.pushRecord q p (HeldRecord.plain 4 0 u.lastDone 0 0) else s) s |>.drainAll
      if x.st = 1 && !x.suspending then s.startStreams p else s

/-- Unmasking a vector whose pending bit is set sends one message for it (R501). -/
def execMsixUnmask (port v : Nat) (s : State) : Out :=
  within (portOk port && v < 2048) "port or vector" <|
    let h := s.port port
    if h.unmasked.contains v then s
    else
      let s := s.setPort port { h with unmasked := v :: h.unmasked, pend := h.pend.filter (· != v) }
      if h.pend.contains v then s.raise port v else s

/-! ### Arming (R247, R248, R446 to R452, R539, R542, R634) -/

/-- The core map in memory: one U16 logical core per Timetable core (R448). -/
def State.readMap (s : State) (x : Platform) : List Nat :=
  (List.range x.nCores).map fun k => memNat s.mem (x.mapAddr + 2 * k) 2

def State.readGrants (s : State) (x : Platform) : List (Grant × Nat) :=
  (List.range x.nGrants).map fun g =>
    let w := memNat s.mem (x.grantAddr + 16 * g) 16
    ({ base := bitsOf w 0 64, size := bitsOf w 64 40, read := bitOf w 104, write := bitOf w 105, image := bitOf w 106 },
      bitsOf w 107 21)

/-- R451: distinct logical cores; the cores of one Timetable die on one logical die, distinct Timetable dies on
distinct logical dies. -/
def mapOk (m : List Nat) : Bool :=
  let ix := (List.range m.length).zip m
  distinct m && m.all (· < 288) &&
  ix.all fun a => ix.all fun b => (a.1 / 6 = b.1 / 6) = (a.2 / 6 = b.2 / 6)

/-- Counters of a logical core in use by armed and suspended Platforms. -/
def State.usedCtrs (s : State) (c : Nat) : List Nat :=
  (s.plats.filter fun e => e.2.held).foldl (fun l e =>
    l ++ (e.2.ctrMap.filterMap fun m => if m.2 / 48 = c then some (m.2 % 48) else none)) []

/-- A share set belongs to one function: no armed Platform of another function in the same share class shares one of the
counters that the image shares (R269; DESIGN CHOICE, log entry 92). -/
def State.shareClash (s : State) (x : Platform) (img : Image) : Bool :=
  img.cores.any fun d => d.counters.any fun e => bitOf e.2 59 && s.plats.any fun o =>
    o.2.held && o.2.share = x.share && o.2.fn != x.fn && (match o.2.image with
      | some i => i.shared d.core e.1
      | none => false)

/-- The counter of a logical core that a share set already uses for a shared Timetable counter (R269). -/
def State.sharedCtr (s : State) (x : Platform) (key : Nat) : Option Nat :=
  ((s.plats.filter fun e => e.2.held && e.2.share = x.share && e.2.fn = x.fn).filterMap fun e =>
    match e.2.image, tabFind e.2.ctrMap key with
    | some img, some v => if img.shared (key / 48) (key % 48) then some v else none
    | _, _ => none).head?

/-- Map the counters that an image declares onto free counters of the mapped cores (R269): the lowest free one each. -/
def State.mapCounters (s : State) (x : Platform) (img : Image) (m : List Nat) : Option (Tab Nat) :=
  img.cores.foldl (fun acc d =>
    d.counters.foldl (fun acc e =>
      match acc with
      | none => none
      | some t =>
        let c := listGet 0 m d.core
        let key := 48 * d.core + e.1
        match (if bitOf e.2 59 then s.sharedCtr x key else none) with
        | some v => if v / 48 = c then some (tabSet t key v) else none
        | none =>
          let used := s.usedCtrs c ++ t.filterMap fun q => if q.2 / 48 = c then some (q.2 % 48) else none
          match (List.range 48).find? fun k => !used.contains k with
          | none => none
          | some k => some (tabSet t key (48 * c + k))) acc) (some [])

/-- The Signal box slots of a core that no resident stream holds. -/
def State.freeSlots (s : State) (c : Nat) : List Nat :=
  (List.range 8).filter fun i => (s.stream c i).state = 0 || (s.stream c i).state = 5

/-- The slots that streams take among the free ones: its Timetable slot where it is free, else the lowest free one
(DESIGN CHOICE, log entry 74). -/
def assignSlots (free : List Nat) : List Nat → List Nat
  | [] => []
  | t :: ts =>
    match (if free.contains t then some t else free.head?) with
    | none => []
    | some i => i :: assignSlots (free.filter (· != i)) ts

/-- Each core has a free slot for each stream that an image places on it: at most 8 are resident (R452). -/
def State.slotsFree (s : State) (img : Image) (m : List Nat) : Bool :=
  img.cores.all fun d => d.streams.length ≤ (s.freeSlots (listGet 0 m d.core)).length

/-- The streams of an image made resident at their first command (R244, R265): at the step body of the restored step
for a restored job, else at the prologue. -/
def State.loadStreams (s : State) (p : Nat) (img : Image) (m : Nat → Nat) (step : Option Nat) : State :=
  img.cores.foldl (fun s d =>
    (d.streams.zip (assignSlots (s.freeSlots (m d.core)) (d.streams.map (·.slot)))).foldl (fun s t =>
      let start := match step with
        | some n => (t.1.bodyAt, n)
        | none => (0, 0)
      (s.setStream (m d.core) t.2 { Stream.empty with
        platform := p, tcore := d.core, tslot := t.1.slot, state := 6, cmd := start.1, step := start.2 })) s) s

/-- Every declared counter takes its `CD_INIT` value; the waits that other Platforms of a share set hold on it are tested
(R255 to R257, R269). -/
def State.initCounters (s : State) (p : Nat) (img : Image) : State :=
  img.cores.foldl (fun s d => d.counters.foldl (fun s e =>
    match s.mapCtr p d.core e.1 with
    | some (c, k) => (s.setCtr c k (bitsOf e.2 0 32)).settle c k
    | none => s) s) s

/-- The `n` bytes lie in the serving firmware area (R407, R448). -/
def State.inFirmwareArea (s : State) (a n : Nat) : Bool :=
  s.odv Od.SERVE_FW_BASE ≤ a && a + n ≤ s.odv Od.SERVE_FW_BASE + s.odv Od.SERVE_FW_BYTES

/-! ### Partitions (17, R580) -/

/-- The partition of a virtual function. -/
def State.partition (s : State) (fn : Nat) : Nat := s.odv (Od.PARTITION_HP0 + 256 * (fn / 64) + fn % 64 - 1)

def ptBase (w : Nat) : Nat := bitsOf w 0 64
def ptSize (w : Nat) : Nat := bitsOf w 64 40
def ptEnable (w : Nat) : Bool := bitOf w 118

/-- The virtual functions, as function numbers. -/
def virtualFns : List Nat := (List.range 128).filter fun f => f % 64 != 0

/-- The enforced partitions refuse an arm of a virtual-function Platform. -/
def State.partitionRefuses (s : State) (p : Nat) (grants : List Grant) : Bool :=
  let x := s.plat p
  let w := s.partition x.fn
  let armed := (s.plats.filter fun e => e.1 != p && e.2.held && e.2.fn = x.fn).length
  s.odv Od.PARTITION_ENFORCE = 1 && x.vf != 0 &&
  (!ptEnable w || bitsOf w 108 10 < armed + 1 || !bitOf w (104 + x.lat) ||
   grants.any fun g =>
     if regionOf g.base = 2 then !bitOf w 119
     else
       !(ptBase w ≤ g.base && g.base + g.size ≤ ptBase w + ptSize w) &&
       !(g.image && virtualFns.all fun f => f = x.fn || !ptEnable (s.partition f) ||
          !overlap g.base g.size (ptBase (s.partition f)) (ptSize (s.partition f))))

/-- The result of an arm's checks: `PC_ARM_ERROR`, or nothing. -/
def State.armError (s : State) (p : Nat) : Option Nat :=
  let x := s.plat p
  let others := s.plats.filter fun e => e.1 != p && e.2.held
  let grants := s.readGrants x
  let m := s.readMap x
  match s.loaded with
  | none => some 7
  | some img =>
    if !s.serveMode || img.kind != .serve || !s.scaleTableOk img then some 7
    else if 4095 < x.queueBase + x.queueCount - 1 || (x.vf != 0 && 128 < x.queueCount) ||
        others.any fun e => overlap x.queueBase x.queueCount e.2.queueBase e.2.queueCount then some 1
    else if 16 < x.nGrants || (0 < x.nGrants && !s.inFirmwareArea x.grantAddr (16 * x.nGrants)) || grants.any (fun g =>
        g.2 != 0 || g.1.base % 65536 != 0 || g.1.size % 65536 != 0 || g.1.size = 0 || (g.1.image && g.1.write) ||
        !(regionOf g.1.base ≤ 2 && s.inTier g.1.base g.1.size) ||
        s.inReserve g.1.base g.1.size || s.inServing g.1.base g.1.size ||
        (g.1.write && others.any fun e => e.2.fn != x.fn && e.2.grants.any fun o =>
          overlap g.1.base g.1.size o.base o.size)) || s.partitionRefuses p (grants.map (·.1)) then some 2
    else if x.nCores = 0 || 288 < x.nCores || !s.inFirmwareArea x.mapAddr (2 * x.nCores) || !mapOk m ||
        !(img.cores.all fun d => d.core < x.nCores) || !s.slotsFree img m || (s.mapCounters x img m).isNone || s.shareClash x img ||
        m.any (fun c => (s.core c).quarantined) then some 3
    else if others.any fun e => (e.2.barChannels &&& x.barChannels) != 0 then some 4
    else if m.any fun c => !s.mayIssue c x.lat then some 5
    else if x.service && (x.vf != 0 || s.odv Od.SERVICE_PLATFORM != 0xFFFF) then some 6
    else none

/-- A Serve Platform armed (R248, R449): the image, seed and step count are bound, streams and counters loaded. -/
def State.armServe (s : State) (p : Nat) : State :=
  let x := s.plat p
  match s.loaded with
  | none => s
  | some img =>
    let m := s.readMap x
    let cm := (s.mapCounters x img m).getD []
    let s := (s.abandon p).setPlat p { x with
      st := 1, armError := 0, armedTime := 0, waitOthers := 0, waitLatency := 0, overtaken := 0, fc := 0
      image := some img, seed := s.odv Od.JOB_SEED, steps := s.odv Od.JOB_STEPS
      grants := (s.readGrants x).map (·.1), coreMap := m, ctrMap := cm, suspending := false, disarming := false, tainted := false
      scales := s.captureScales img
      doorbellRefused := false, recordDropped := false }
    let s := if x.service then s.setOd Od.SERVICE_PLATFORM p else s
    let s := (s.loadStreams p img (fun k => listGet 0 m k) none).initCounters p img
    s.startStreams p

/-! ### Arming a Distil job (R247) -/

/-- Bytes of masters and moments that the update descriptors name (16, "The reserve"). -/
def Image.stateBytes (img : Image) : Nat :=
  img.updDescs.foldl (fun n u =>
    match img.wgrad (bitsOf u 0 16) with
    | some w => n + wgBlocks w * 65536 * (if bitsOf u 16 2 = 0 then 3 else 2)
    | none => n) 0

/-- One area of the reserve: ceil(S ÷ 1 GiB) + 1 GiB (R542). -/
def reserveArea (bytes : Nat) : Nat := (ceilDiv bytes GiB + 1) * GiB

/-- Entry `q` of a table of U16 package IDs. -/
def State.tableId (s : State) (key q : Nat) : Nat := bitsOf (s.odv key) (16 * q) 16

/-- The ring and shadow tables and the ring ports are ready (R380). -/
def State.ringReady (s : State) : Bool :=
  let r := s.odv Od.RED_RING_SIZE
  let pos := if s.odv Od.RED_RING_POS = 0xFFFF then s.odv Od.RED_SHADOW_OF else s.odv Od.RED_RING_POS
  let next := s.odv Od.RING_NEXT_MASK
  let prev := s.odv Od.RING_PREV_MASK
  let valid := fun d => bitOf (s.pointsEntry d) 21
  (maskPorts next).all (fun p => s.linkActive p && s.peer p = s.tableId Od.RED_RING_TABLE ((pos + 1) % r)) &&
  (maskPorts prev).all (fun p => s.linkActive p && s.peer p = s.tableId Od.RED_RING_TABLE ((pos + r - 1) % r)) &&
  (next &&& prev) = 0 &&
  (List.range r).all (fun q => valid (s.tableId Od.RED_RING_TABLE q)) &&
  (List.range 1024).all fun q =>
    s.tableId Od.RED_SHADOW_TABLE q = 0xFFFF || valid (s.tableId Od.RED_SHADOW_TABLE q)

/-- A quarantined core, a substitution that waits for a reset, or HBM not yet reloaded forbids a Distil arm (R539). -/
def State.distilBlocked (s : State) : Bool :=
  s.cores.any (fun e => e.2.quarantined) || !s.depot.quarantinedDies.isEmpty || s.depot.reload ||
  s.depot.pending.any fun r => match r with
    | .coreSlot _ => true
    | .matrixDie _ => true
    | .router _ => true
    | _ => false

/-- What this package puts into the arm barrier: the tables' CRC-64s are over their 2,048 bytes as stored (R366, R380,
R559). -/
def State.armView (s : State) : ArmView :=
  { epoch := s.odv Od.POINTS_EPOCH, terminus := s.odv Od.TERMINUS_PKG, deputy := s.odv Od.DEPUTY_PKG
    ringSize := s.odv Od.RED_RING_SIZE, ringCrc := crc64 (leBytes 2048 (s.odv Od.RED_RING_TABLE))
    shadowCrc := crc64 (leBytes 2048 (s.odv Od.RED_SHADOW_TABLE)), restored := s.job.restoredW, ready := s.ringReady }

/-- The arm barrier of a pod finds a difference, or designations that R366 forbids. -/
def State.armDiffers (s : State) (peers : List ArmView) : Bool :=
  1 < s.odv Od.POD_SIZE &&
    (s.odv Od.TERMINUS_PKG = s.odv Od.DEPUTY_PKG ||
     peers.any fun v => { v with ready := true } != { s.armView with ready := true })

/-- The first check that an arm of the Distil job fails: `ARM_REFUSE_CAUSE`. A teacher range that an engine of the image
writes is refused with the range's cause (R13, R19; DESIGN CHOICE, log entry 105). `peers` are the arm-barrier values of the
other packages of the job; a package whose ring is not ready refuses the arm on every package (R380). -/
def State.armRefusal (s : State) (peers : List ArmView) : Option Nat :=
  match s.loaded with
  | none => some 1
  | some img =>
    let n := s.odv Od.TEACHER_BYTES
    if img.kind != .distil then some 1
    else if regionOf (s.odv Od.TEACHER_BASE) != 0 || s.odv Od.TEACHER_BASE % 65536 != 0 || n = 0 ||
        !s.inTier (s.odv Od.TEACHER_BASE) n || img.engineWrites.any (fun r => overlap r.1 r.2 (s.odv Od.TEACHER_BASE) n) then some 2
    else if s.distilBlocked then some 3
    else if s.odv Od.JOB_STEPS = 0 then some 6
    else if s.odv Od.DDR5_TIER_STATE != 1 || !s.ringReady || peers.any (fun v => !v.ready) then some 7
    else if s.odv Od.DDR5_RESERVE_SIZE < 4 * reserveArea img.stateBytes then some 5
    else if !s.scaleTableOk img then some 8
    else if s.armDiffers peers then some 4
    else none

/-- The Distil job armed (R247): the loaded image, the seed, the step count and the teacher are bound; the streams
start at the first step, or at the restored one (R265); the digest log is cleared (R392). The job starts once the
teacher's hash has been checked (R19): it faults where a step number has reached 2^44 (R117; DESIGN CHOICE, log entry 95), and on an
uncorrected error in the teacher (R290). -/
def State.armDistil (s : State) (img : Image) : State :=
  let x := s.plat 0
  let restored := s.job.restoredW
  let s := if restored.isSome then s else
    (((s.setOd Od.JOB_STEP 0).setOd Od.UPDATE_COUNT 0).setOd Od.SKIP_RUN 0).setOd Od.JOB_TAINTED 0
  let j := if restored.isSome then s.job else Job.empty
  let s := (s.abandon 0).mapCores fun c => { c with ctr := [], streams := [], queue := [], sig := [], lastSlot := 7 }
  let s := { s with
    channels := []
    moves := []
    red := Exchange.empty
    ckpt := { s.ckpt with area := reserveArea img.stateBytes, hasBase := false, request := none, copy := none, snapshot := none }
    job := { j with
      active := true, faulted := false, started := true, seed := s.odv Od.JOB_SEED, steps := s.odv Od.JOB_STEPS
      teacherBase := s.odv Od.TEACHER_BASE, teacherBytes := s.odv Od.TEACHER_BYTES, restoredW := none, update := 0
      grads := [], redone := [], decided := none, studentHeld := false } }
  let s := s.setPlat 0 { x with
    st := 1, armError := 0, armedTime := 0, waitOthers := 0, waitLatency := 0, overtaken := 0, fc := 0
    image := some img, seed := s.odv Od.JOB_SEED, steps := s.odv Od.JOB_STEPS, scales := s.captureScales img
    coreMap := [], grants := [], ctrMap := [] }
  let s := ((s.setOd Od.RED_DIGEST_LOG 0).setOd Od.RED_EXCHANGES 0).initScales 0
  let s := s.setOd Od.ARM_REFUSE_CAUSE 0
  if 2 ^ 44 ≤ s.odv Od.JOB_STEP then s.faultJob { cause := causeCmdRefused, platform := 0 }
  else if let w :: _ := badIn s.eccBad s.job.teacherBase s.job.teacherBytes then s.faultRead w
  else if leNat (sha256 (s.load s.job.teacherBase s.job.teacherBytes)) != s.odv Od.TEACHER_SHA256 then
    s.faultJob { cause := causeTeacherHash, platform := 0 }
  else
    ((s.loadStreams 0 img id (if restored.isSome then some (s.odv Od.JOB_STEP) else none)).initCounters 0 img).startStreams 0

/-- A Serve arm that the scale table refuses sets `ARM_REFUSE_CAUSE` 8 too (R634). -/
def State.scaleCause (s : State) : State :=
  match s.loaded with
  | none => s
  | some img => if img.kind = .serve && !s.scaleTableOk img then s.setOd Od.ARM_REFUSE_CAUSE 8 else s

/-- `PC_ARM` (R247, R445, R449): an arm of a disarmed Platform is checked and carried out, or refused with its cause; in Doze it
is refused (R598). -/
def execPcArm (p : Nat) (peers : List ArmView) (s : State) : Out :=
  within (p < 1024) "platform" <|
    let x := s.plat p
    if x.st != 0 then s
    else if s.power.doze then s.setPlat p { x with armError := 7 }
    else if s.serveMode then
      match s.armError p with
      | some e => (s.setPlat p { x with armError := e }).scaleCause
      | none => s.armServe p
    else if p != 0 || s.job.active then s.setPlat p { x with armError := 7 }
    else match s.armRefusal peers, s.loaded with
      | none, some img => s.armDistil img
      | some c, _ => (s.setPlat p { x with armError := 7 }).setOd Od.ARM_REFUSE_CAUSE c
      | none, none => s

/-! ### Suspension and disarming (R462 to R468) -/

/-- `PC_SUSPEND` of an armed Serve Platform: its streams stop issuing and its queues start nothing (R462, R466). -/
def execPcSuspend (p : Nat) (s : State) : Out :=
  within (p < 1024) "platform" <|
    let x := s.plat p
    if !s.serveMode || x.st != 1 || x.suspending then s
    else (s.mapCores fun c => { c with streams := c.streams.map fun e =>
        if e.2.platform = p && (e.2.state = 1 || e.2.state = 2) then
          (e.1, { e.2 with state := 6, waitCtr := 0, waitConsume := false, waitT := 0 }) else e }).setPlat p
      { x with suspending := true }

/-- No command that a Platform has issued is still in an engine queue, on the move path or draining from an array. A Junction
command stays in its slot (R162), and a BARRIER at its channel: both can wait for commands that the suspension holds back
(DEDUCED, log entry 106). -/
def State.quiet (s : State) (p : Nat) : Bool :=
  (s.moves.all fun o => o.it.platform != p) &&
  s.cores.all fun e => (e.2.queue.all fun it => it.platform != p) &&
    e.2.arrays.all fun a => a.2.running.all fun it => it.platform != p

/-- The last issued command of a suspending Platform has completed: it is `SUSPENDED` (R462). -/
def execSuspendComplete (p : Nat) (s : State) : Out :=
  within (p < 1024) "platform" <|
    let x := s.plat p
    if x.st = 1 && x.suspending && s.quiet p then
      (s.setPlat p { x with st := 2, suspending := false }).count Od.PLATFORM_SUSPENDS 1
    else s

/-- `PC_RESUME` of a suspended Platform (R464, R466); where its epoch has stopped too, its streams wait for the re-arm (R474). -/
def execPcResume (p : Nat) (s : State) : Out :=
  within (p < 1024) "platform" <|
    let x := s.plat p
    if x.st != 2 then s
    else
      let s := s.setPlat p { x with st := 1 }
      if x.epochStopped then s else s.startStreams p

/-- `PC_DISARM` (R468, R471): the `SERVICE` Platform with live requests is disarmed at the next boundary. -/
def execPcDisarm (p : Nat) (s : State) : Out :=
  within (p < 1024) "platform" <|
    let x := s.plat p
    if x.st = 0 then s
    else if x.service && x.held && s.odv Od.SERVE_REQ_LIVE != 0 then s.setPlat p { x with disarming := true }
    else s.quiesce p

/-! ### Plain register writes (R447, R483, R488) -/

/-- The RW bits of `PLATFORM_CFG`. -/
def cfgMask : Nat :=
  fields [(2, 1, 1), (4, 4, 15), (8, 2, 3), (10, 7, 127), (32, 12, 0xFFF), (44, 13, 0x1FFF), (64, 16, 0xFFFF),
    (80, 9, 0x1FF), (128, 64, 2 ^ 64 - 1), (192, 64, 2 ^ 64 - 1), (256, 5, 31)]

/-- A 64-bit word with the written bytes of a 4- or 8-byte access replaced (R483). -/
def mergeWord (old offset size value : Nat) : Nat := setBits old (8 * (offset % 8)) (8 * size) value

/-- A write to word `w` (0, 8, …) of a Platform's `PLATFORM_CFG`: only while it is `DISARMED` (R447). -/
def State.writeCfg (s : State) (p offset size value : Nat) : State :=
  let x := s.plat p
  let w := offset / 8 * 8
  if x.st != 0 then s
  else
    let old := bitsOf x.cfg (8 * w) 64
    let new := mergeWord old offset size value &&& bitsOf cfgMask (8 * w) 64
    s.setPlat p { x with cfg := setBits x.cfg (8 * w) 64 new }

/-- A ring's base and size lie in their ranges (R488). -/
def ringOk (base log2 : Nat) : Bool := regionOf base = 3 && base % 4096 = 0 && 6 ≤ log2 && log2 ≤ 16

/-- A write to word `w` of a queue block (R488). -/
def State.writeQueue (s : State) (q offset size value : Nat) : State :=
  let u := s.queue q
  match offset / 8 * 8 with
  | 0 => if u.enable then s else s.setQueue q { u with descBase := mergeWord u.descBase offset size value }
  | 8 => if u.enable then s else s.setQueue q { u with cplBase := mergeWord u.cplBase offset size value }
  | 16 =>
    let old := fields [(0, 5, u.slotsLog2), (8, 5, u.cplLog2), (16, 1, if u.enable then 1 else 0)]
    let v := mergeWord old offset size value
    let u := if u.enable then u else { u with slotsLog2 := bitsOf v 0 5, cplLog2 := bitsOf v 8 5 }
    let on := bitOf v 16 && (u.enable || (ringOk u.descBase u.slotsLog2 && ringOk u.cplBase u.cplLog2))
    s.setQueue q { u with enable := on }
  | _ => s

/-- The aperture register (R484): a base that names no permitted range leaves `AP_ENABLE` reading 0. -/
def State.writeAp (s : State) (port offset size value : Nat) : State :=
  let h := s.port port
  let v := mergeWord ((if h.apEnable then 1 else 0) + h.apBase * 2 ^ 24) offset size value
  let base := bitsOf v 24 40
  s.setPort port { h with apBase := base, apEnable := bitOf v 0 && apBaseOk base }

/-- The W1C bits of a context page's status word. -/
def State.writeStatus (s : State) (p offset size value : Nat) : State :=
  let x := s.plat p
  let v := mergeWord 0 offset size value
  s.setPlat p { x with doorbellRefused := x.doorbellRefused && !bitOf v 1, recordDropped := x.recordDropped && !bitOf v 6 }

/-- The mailbox: `MBX_REQUEST`, and the RW and W1C fields of its control word (15, "The mailbox"). -/
def State.writeMailbox (s : State) (port offset size value : Nat) : State :=
  let h := s.port port
  if offset / 8 = 0 then
    let old := h.mbxCtrl &&& 0x1F8
    let v := mergeWord old offset size value
    let done := if offset = 0 && bitOf value 2 then 0 else h.mbxCtrl &&& 4
    s.setPort port { h with mbxCtrl := (v &&& 0x1F8) + done }
  else if 0x100 ≤ offset && offset + size ≤ 0x514 then
    let o := offset - 0x100
    let req := h.mbxRequest ++ List.replicate (o + size - h.mbxRequest.length) 0
    s.setPort port { h with mbxRequest := req.take o ++ leBytes size value ++ req.drop (o + size) }
  else s

/-- A context page: its status word and its first 128 queue blocks. -/
def State.writePage (s : State) (p o size value : Nat) : State :=
  let x := s.plat p
  if o / 8 = 1 then s.writeStatus p o size value
  else if 0x800 ≤ o && o < 0x2800 then
    let n := (o - 0x800) / 64
    if n < x.queueCount then s.writeQueue (x.queueBase + n) (o % 64) size value else s
  else s

/-- A register write of a function to a BAR (R481, R483): accesses that are not 4 or 8 bytes and naturally aligned,
reserved offsets and read-only fields are ignored; fields with a behaviour of their own are rows of their own. -/
def execRegisterWrite (port vf bar offset size value : Nat) (s : State) : Out :=
  within (portOk port && vf < 64) "port or function" <|
    if !((size = 4 || size = 8) && offset % size = 0) then s
    else if vf = 0 && bar = 0 then
      if offset / 8 = 8 then s.writeAp port offset size value
      else if 0x10000 ≤ offset && offset < 0x20000 then s.writeMailbox port (offset - 0x10000) size value
      else if 0x400000 ≤ offset && offset < 0x420000 && offset % 128 < 64 then
        s.writeCfg ((offset - 0x400000) / 128) (offset % 128) size value
      else if 0x500000 ≤ offset && offset < 0x540000 then
        s.writeQueue ((offset - 0x500000) / 64) (offset % 64) size value
      else s
    else if (vf = 0 && bar = 4) || (vf != 0 && bar = 0) then
      let p := offset / 65536
      if s.responds port vf p then s.writePage p (offset % 65536) size value else s
    else s

end Sys2Proof.Machine
end

