-- ==== Sys2Proof/Machine/Checkpoint.lean ====
section
/-! DEFINITION. Checkpoints, buddies and restores, statistics periods, the risk index and the logs (15, 16). -/

namespace Sys2Proof.Machine

open Sys2Proof

/-! ### Statuses of an Object Dictionary write (15, "Statuses") -/

def stOk : Nat := 0
def stNoEntry : Nat := 1
def stType : Nat := 2
def stDenied : Nat := 3
def stReadOnly : Nat := 4
def stRange : Nat := 5
def stBusy : Nat := 6
def stLength : Nat := 7
def stStaged : Nat := 8
def stAuthFailed : Nat := 9
def stSegment : Nat := 10
def stReserved : Nat := 11
def stAtReset : Nat := 12
def stUnavailable : Nat := 13
def stBadFrame : Nat := 14

/-- What a write answers: its status and the state; a refused write changes nothing (R514). -/
abbrev Wrote := Nat × State

def State.refused (s : State) (st : Nat) : Wrote := (st, s)

/-! ### A snapshot (R545, R546) -/

/-- The descriptors of the job, or of the loaded Timetable where no job runs. -/
def State.ckptImage (s : State) : Option Image :=
  match (s.plat 0).image with
  | some img => some img
  | none => s.loaded

/-- The arrays of a tensor: masters, then moments. -/
def udArrays (u : Nat) : List Nat := if udOpt u = 0 then [udMaster u, udM u, udV u] else [udMaster u, udM u]

def udBytes (u w : Nat) : Nat := (udArrays u).length * (65536 * wgBlocks w)

/-- The update descriptors with the offset of each tensor's state in a slot: ascending identifiers, each with its
masters and then its moments (DESIGN CHOICE, log entry 45). -/
def Image.slotOffsets (img : Image) : List (Nat × Nat × Nat) :=
  (img.updates.foldl (fun (acc : List (Nat × Nat × Nat) × Nat) x =>
    (acc.1 ++ [(x.1, x.2, acc.2)], acc.2 + udBytes x.1 x.2)) ([], 0)).1

/-- Copy the state of every tensor into slot k. -/
def State.copyState (s : State) (img : Image) (k : Nat) : State :=
  img.slotOffsets.foldl (fun (s : State) x =>
    let n := 65536 * wgBlocks x.2.1
    let as := udArrays x.1
    ((List.range as.length).zip as).foldl (fun (s : State) a =>
      s.put (s.ckptBase k + x.2.2 + n * a.1) (s.load a.2 n)) s) s

/-- The ECC words of the homes, of the block records and of the status records that show an error (R238, R290, R293). -/
def State.homeErrors (s : State) (img : Image) : List Nat :=
  img.slotOffsets.flatMap fun x =>
    let n := wgBlocks x.2.1
    ((udArrays x.1).flatMap fun a => badIn s.eccBad a (65536 * n)) ++ badIn s.eccBad (udBlk x.1) (64 * n) ++
    badIn s.eccBad (udStatus x.1) 64

/-- The CRC fields of a tensor's status record. -/
def State.statusCrcs (s : State) (u : Nat) : List Nat :=
  let r := memNat s.mem (udStatus u) 64
  (List.range 4).map fun j => bitsOf r (64 * j) 64

/-- The scale-table entries of an image, whole, with the RW values in force (R125, R635). -/
def State.scaleBytes (s : State) (img : Image) : List Byte :=
  (List.range img.scaleEntries).flatMap fun k =>
    let a := img.scaleTable + scaleEntryBytes * k
    let ro := s.scaleRo a
    let head := match (s.plat 0).scales.find? fun e => e.2.1 = a with
      | some e => setBits (setBits e.2.2 40 21 (bitsOf ro 40 21)) 72 48 (bitsOf ro 72 48)
      | none => ro
    leBytes 16 head ++ s.load (a + 16) (scaleEntryBytes - 16)

/-- The auxiliary state (16, "Auxiliary state"); its layout is the model's (DESIGN CHOICE, log entry 45). The amaxes of steps up to
W stand in the histories that it holds, so that a restored job converts with the same scales (R125). -/
def State.auxBytes (s : State) (img : Image) (w : Nat) : List Byte :=
  leBytes 8 (w + 1) ++ leBytes 8 (s.odv Od.JOB_SEED) ++ leBytes 8 (s.odv Od.UPDATE_COUNT) ++ leBytes 8 (s.odv Od.SKIP_RUN) ++
  leBytes 4 s.job.spikeMean.toNat ++ leBytes 4 s.job.spikeVar.toNat ++ leBytes 8 s.job.spikeN ++
  leBytes 4 (s.odv Od.LAST_GRAD_NORM) ++ leBytes 4 (s.odv Od.LAST_CLIP_FACTOR) ++ leBytes 8 (s.odv Od.LAST_STEP_LOSS) ++
  leBytes 8 (s.odv Od.LAST_SPIKE_STEP) ++ leBytes 8 (s.odv Od.JOB_TAINTED) ++ (s.enterAllAmax (w + 1)).scaleBytes img ++
  img.updates.flatMap fun (x : Nat × Nat) => (s.statusCrcs x.1).flatMap (leBytes 8)

/-- Bytes of the auxiliary state before the scale table. -/
def auxHead : Nat := 80

/-- One tensor entry of a manifest. -/
structure MfEntry where
  tensor : Nat
  delta : Bool
  bytes : Nat
  addr : Nat
  crcs : List Nat
  crc : Nat
  deriving DecidableEq, Repr

def MfEntry.toBytes (e : MfEntry) : List Byte :=
  leBytes 2 e.tensor ++ leBytes 1 (if e.delta then 1 else 0) ++ List.replicate 5 0 ++ leBytes 8 e.bytes ++ leBytes 8 e.addr ++
  e.crcs.flatMap (leBytes 8) ++ leBytes 8 e.crc

def mfNoBase : Nat := 2 ^ 64 - 1

/-- A manifest (16, "Manifest"): its header, its CRC and its tensor entries. `MF_TAINTED` tells that the job, or a context of a
serving snapshot, is tainted (R274). `MF_CHAIN_POS` is the position that the last norm pass gave (DESIGN CHOICE, log entry 43). -/
def State.manifest (s : State) (w base : Nat) (serve : Bool) (aux : List Byte) (es : List MfEntry) : List Byte :=
  let bit := fun (b : Bool) => if b then 1 else 0
  let pos := if s.isShadow then 0x8000 + s.ringPos else s.ringPos
  let head := leBytes 504 (fields [(0, 8, 1), (8, 8, s.odv Od.STEPPING), (16, 1, bit (s.odv Od.JOB_TAINTED != 0 || s.plats.any fun e => e.2.held && e.2.tainted)), (17, 1, bit serve),
    (32, 64, w), (96, 64, base), (160, 64, s.odv Od.JOB_SEED), (224, 256, s.odv Od.TEACHER_SHA256),
    (480, 16, s.ringSize), (496, 16, pos), (512, 8, if serve then 0 else s.job.chainPos), (520, 16, es.length), (536, 64, aux.length), (600, 64, crc64 aux)])
  head ++ leBytes 8 (crc64 head) ++ es.flatMap MfEntry.toBytes

/-- The entries of a slot's own manifest: every tensor stands there whole. -/
def State.fullEntries (s : State) (img : Image) (k : Nat) : List MfEntry :=
  img.slotOffsets.map fun x =>
    let a := s.ckptBase k + x.2.2
    let n := udBytes x.1 x.2.1
    { tensor := udTensor x.1, delta := false, bytes := n, addr := a, crcs := s.statusCrcs x.1, crc := crc64 (s.load a n) }

/-- Blocks with `BR_DIRTY` set. -/
def State.dirtyBlocks (s : State) (u w : Nat) : List Nat :=
  (List.range (wgBlocks w)).filter fun n => brDirty (memNat s.mem (blkRecord u n) 64)

/-- Every `BR_DIRTY` of a tensor is cleared and `ST_DIRTY_BLOCKS` is 0 (R236). -/
def State.clearDirty (s : State) (u w : Nat) : State :=
  let s := (List.range (wgBlocks w)).foldl (fun (s : State) n =>
    let a := blkRecord u n
    s.put a (leBytes 64 (setBits (memNat s.mem a 64) 257 1 0))) s
  s.put (udStatus u) (leBytes 64 (setBits (memNat s.mem (udStatus u) 64) 256 32 0))

/-! ### Buddies (R555 to R557) -/

/-- One `MGMT` message of a transfer (its body is the model's: operation and offset, DESIGN CHOICE, log entry 45). -/
def State.sendMgmt (s : State) (d op off : Nat) (bs : List Byte) : State :=
  s.sendTo 7 d [(512, 8, op), (576, 64, off)] bs (crc64 bs)

/-- The bytes of a range sent in messages of at most 1 MiB. -/
def State.sendRange (s : State) (d base off n : Nat) : State :=
  (List.range (ceilDiv n 1048576)).foldl (fun (s : State) j =>
    let o := off + 1048576 * j
    s.sendMgmt d 1 o (s.load (base + o) (Nat.min 1048576 (off + n - o)))) s

/-- Header fields of a manifest at an address. -/
def State.mfAt (s : State) (a : Nat) : Nat := memNat s.mem a 512

def mfTensors (h : Nat) : Nat := bitsOf h 520 16
def mfAuxBytes (h : Nat) : Nat := bitsOf h 536 64

def mfBytes (h : Nat) : Nat := 512 + 64 * mfTensors h

/-- The tensor entries after a header. -/
def State.mfEntries (s : State) (a : Nat) : List Nat :=
  (List.range (mfTensors (s.mfAt a))).map fun j => memNat s.mem (a + 512 + 64 * j) 64

def meTensor (e : Nat) : Nat := bitsOf e 0 16
def meBytes (e : Nat) : Nat := bitsOf e 64 64
def meCrc (e j : Nat) : Nat := bitsOf e (192 + 64 * j) 64

/-- The ECC words of slot k's state, auxiliary state and manifest that show an error. -/
def State.slotErrors (s : State) (k : Nat) : List Nat :=
  let a := s.slotManifest k
  let n := (s.mfEntries a).foldl (fun t e => t + meBytes e) 0
  badIn s.eccBad (s.ckptBase k) n ++ badIn s.eccBad a (mfBytes (s.mfAt a)) ++ badIn s.eccBad (s.slotAux k) (mfAuxBytes (s.mfAt a))

/-- Send slot k: its state, its auxiliary state and, last, its manifest (R556). An uncorrected error in it faults the job, and
nothing is sent (R293, R537). -/
def State.sendSlot (s : State) (d k : Nat) : State :=
  match s.slotErrors k with
  | w :: _ => s.faultRead w
  | [] =>
    let base := s.ckptBase k
    let a := s.slotManifest k
    let h := s.mfAt a
    let n := (s.mfEntries a).foldl (fun t e => t + meBytes e) 0
    let s := s.sendRange d base 0 n
    let s := s.sendRange d base (s.slotAux k - base) (mfAuxBytes h)
    s.sendMgmt d 2 (a - base) (s.load a (mfBytes h))

/-- A valid snapshot goes to the buddy. -/
def State.buddyTransfer (s : State) (k : Nat) : State :=
  let d := s.odv Od.BUDDY_PKG
  if d = 0xFFFF then s else (s.sendSlot d k).setOd Od.BUDDY_STATE 1

/-- The header, the auxiliary state and every tensor of slot k check. -/
def State.slotChecks (s : State) (k : Nat) : Bool :=
  let a := s.slotManifest k
  let h := s.mfAt a
  let es := s.mfEntries a
  let sizes := es.map meBytes
  let total := sizes.foldl (· + ·) 0
  let ends := (List.range es.length).map fun j => (sizes.take j).foldl (· + ·) 0
  bitsOf h 0 8 = 1 && bitsOf h 4032 64 = crc64 (s.load a 504) &&
  mfAuxBytes h ≤ GiB && bitsOf h 600 64 = crc64 (s.load (s.slotAux k) (mfAuxBytes h)) &&
  total ≤ s.ckpt.area &&
  (ends.zip es).all fun q => bitsOf q.2 448 64 = crc64 (s.load (s.ckptBase k + q.1) (meBytes q.2))

/-- `MGMT` (R556): a buddy's copy arrives piece by piece, and its manifest last; an acknowledgement reports that the
copy is valid. -/
def execMgmt (p : Nat) (s : State) : Out :=
  within (linkOk p) "port" <| s.takeMessage p 3 (fun m => m.kind = 7) fun s m =>
    let op := m.lcOp
    let a := s.ckptBase 3 + bitsOf m.header 576 64
    let fits := s.ckpt.area != 0 && bitsOf m.header 576 64 + m.data.length ≤ s.ckpt.area && s.inTier a m.data.length
    if op = 3 then (if m.src = s.odv Od.BUDDY_PKG then s.setOd Od.BUDDY_STATE 2 else s)
    else if (op = 1 || op = 2) && fits && crc64 m.data = m.crc then
      let s := { s with ckpt := { s.ckpt with buddy := .empty } }.put a m.data
      if op = 2 && s.slotChecks 3 then
        let h := s.mfAt (s.slotManifest 3)
        let s := { s with ckpt := { s.ckpt with buddy := { valid := true, w := bitsOf h 32 64, serve := bitOf h 17, chain := 0 } } }
        (s.setOd Od.BUDDY_HELD_FOR m.src).sendMgmt m.src 3 0 []
      else s
    else { s with ckpt := { s.ckpt with buddy := .empty } }

/-- A write of `BUDDY_PKG`, with the feed that the buddy reports over VC3 (R555, R567). -/
def State.setBuddy (s : State) (v peerFeed : Nat) : Wrote :=
  if s.job.active then s.refused stBusy
  else if v = 0xFFFF then (stOk, (s.setOd Od.BUDDY_PKG v).setOd Od.BUDDY_STATE 0)
  else if 1024 ≤ v || v = s.pkg then s.refused stRange
  else
    let mine := s.odv Od.FEED_ID
    let waived := (List.range 8).any fun j => bitsOf (s.odv Od.BUDDY_OVERRIDE) (16 * j) 16 = v
    if mine = 0 || peerFeed = 0 then
      (stOk, (((s.setOd Od.BUDDY_PKG v).setOd Od.BUDDY_STATE 0).setOd Od.BUDDY_COLOCATED 1).sticky 20)
    else if mine = peerFeed && !waived then s.refused stDenied
    else (stOk, ((s.setOd Od.BUDDY_PKG v).setOd Od.BUDDY_STATE 0).setOd Od.BUDDY_COLOCATED 0)

def execBuddyPkg (v peerFeed : Nat) (s : State) : Out :=
  within (v < 65536 && peerFeed < 2 ^ 64) "value" <| (s.setBuddy v peerFeed).2

/-- A write of `BUDDY_SEND` (R557). -/
def State.buddySend (s : State) (v : Nat) : Wrote :=
  if !s.ckpt.buddy.valid then s.refused stUnavailable
  else if 1024 ≤ v then s.refused stRange
  else (stOk, s.sendSlot v 3)

def execBuddySend (v : Nat) (s : State) : Out := within (v < 65536) "value" <| (s.buddySend v).2

/-! ### The end of an update (R228, R546, R547) -/

/-- A snapshot of step w into the next slot: state, auxiliary state and manifest; `BR_DIRTY` is cleared and then the slot
is valid. An uncorrected error in a home faults the job. -/
def State.takeSnapshot (s : State) (img : Image) (w stopUs : Nat) : State :=
  match s.homeErrors img with
  | e :: _ => s.faultRead e
  | [] =>
    let k := if s.ckpt.next then 1 else 0
    let s := s.copyState img k
    let aux := s.auxBytes img w
    let s := s.put (s.slotAux k) aux
    let s := s.put (s.slotManifest k) (s.manifest w mfNoBase false aux (s.fullEntries img k))
    let dirty := img.updates.map fun x => (udTensor x.1, s.dirtyBlocks x.1 x.2)
    let s := img.updates.foldl (fun (s : State) x => s.clearDirty x.1 x.2) s
    let c := s.ckpt
    let slot : CkptSlot := { valid := true, w := w, serve := false, chain := 0 }
    let c := if c.next then { c with b := slot } else { c with a := slot }
    let s := { s with ckpt := { c with next := !c.next, snapshot := none, copy := none, dirty := dirty, coding := some w, undrained := some w } }
    let s := ((s.setOd Od.CKPT_LAST_STEP w).setOd Od.CKPT_LAST_STOP_US stopUs).count Od.CKPT_TAKEN 1
    s.buddyTransfer k

/-- The update has ended: the student layers of the next step are released. -/
def State.endUpdate (s : State) : State :=
  { s with red := Exchange.empty, job := { s.job with update := 0, studentHeld := false, lastUpdate := some s.red.step } }

/-- UPDATE_COMPLETE: a non-finite master or moment faults the job (R228); else a fused snapshot ends with the update, and
a copy pass follows it before anything is released. -/
def execUpdateComplete (stopUs : Nat) (s : State) : Out :=
  within (stopUs < 2 ^ 32) "time" <|
    if s.job.update != 1 || !s.roundhousesRun then s
    else if s.job.updNonfinite then s.faultJob { cause := causeUpdNonfinite, platform := 0 }
    else match s.jobImage, s.ckpt.snapshot with
      | none, _ => s
      | some img, some w =>
        let s := s.takeSnapshot img w stopUs
        if s.job.active then s.endUpdate else s
      | some _, none => if s.ckpt.copy.isSome then { s with job := { s.job with update := 2 } } else s.endUpdate

/-- COPY_PASS (R545): it starts when the update completes, and releases the student layers once the slot is valid. -/
def execCopyPass (stopUs : Nat) (s : State) : Out :=
  within (stopUs < 2 ^ 32) "time" <|
    match s.jobImage, s.ckpt.copy with
    | some img, some w =>
      if s.job.update != 2 || !s.roundhousesRun then s
      else
        let k := if s.ckpt.next then 1 else 0
        let s := s.clearManifest k
        let s := (s.takeSnapshot img w stopUs).count Od.CKPT_COPY_PASSES 1
        if s.job.active then s.endUpdate else s
    | _, _ => s

/-! ### Requests (R543 to R545) -/

/-- A write of `CKPT_REQUEST`. -/
def State.requestCkpt (s : State) (w : Nat) : Wrote :=
  let r := s.redDesc
  let c := s.ckpt
  let done := match s.job.lastUpdate with
    | some n => w ≤ n
    | none => false
  if !s.job.active || !endsWindow r w || (s.job.steps != 0 && s.job.steps ≤ w) || done then s.refused stRange
  else if c.request.isSome || c.copy.isSome then s.refused stBusy
  else if s.job.update != 0 && w = s.red.step then
    if c.snapshot = some w then (stOk, s)
    else if c.undrained.isSome then
      (stOk, { s with ckpt := { c with request := some (w + rdInterval r) } }.count Od.CKPT_DEFERRED 1)
    else if s.job.update = 1 then (stOk, { s with ckpt := { c with copy := some w } })
    else s.refused stRange
  else if s.job.decided.any (w ≤ ·) then
    (stOk, { s with ckpt := { c with request := some (w + rdInterval r) } }.count Od.CKPT_DEFERRED 1)
  else (stOk, { s with ckpt := { c with request := some w } })

def execCkptRequest (w : Nat) (s : State) : Out := within (w < 2 ^ 64) "value" <| (s.requestCkpt w).2

/-- A write of `CKPT_DRAINED` (R552): the W of the image that waits to be drained. -/
def State.drainCkpt (s : State) (w : Nat) : Wrote :=
  if s.ckpt.undrained = some w && s.ckpt.coding.isNone then
    (stOk, { s with ckpt := { s.ckpt with undrained := none } })
  else s.refused stRange

def execCkptDrained (w : Nat) (s : State) : Out := within (w < 2 ^ 64) "value" <| (s.drainCkpt w).2

/-- `CKPT_STATE`; `RESTORING` is never seen, since a restore is one step here. -/
def State.ckptState (s : State) : Nat :=
  let c := s.ckpt
  if c.snapshot.isSome || s.job.update = 2 then 2
  else if c.coding.isSome then 3
  else if c.undrained.isSome then 4
  else if c.request.isSome || c.copy.isSome then 1
  else 0

/-! ### Coding (R548 to R550) -/

/-- One byte plane: the bitmap of its non-zero granules, and those granules. -/
def codePlane (bs : List Byte) : List Byte :=
  let gs := chunks 64 256 bs
  let live := gs.map fun g => g.any (· != 0)
  let bits := ((List.range 256).zip live).foldl (fun n q => if q.2 then n + 2 ^ q.1 else n) 0
  leBytes 32 bits ++ (gs.filter fun g => g.any (· != 0)).flatten

/-- Byte k of each W32 element. -/
def plane (k : Nat) (bs : List Byte) : List Byte := (chunks 4 (bs.length / 4) bs).map fun e => listGet 0 e k

/-- One block coded against its base. -/
def codeBlock (x y : List Byte) : List Byte :=
  let d := (x.zip y).map fun q => q.1 ^^^ q.2
  (List.range 4).flatMap fun k => codePlane (plane k d)

/-- A `DELTA` tensor: the bitmap of its dirty blocks, then each dirty block's arrays. -/
def State.codeTensor (s : State) (k kb off u w : Nat) (dirty : List Nat) : List Byte :=
  let nb := wgBlocks w
  let bits := dirty.foldl (fun n j => n + 2 ^ j) 0
  let at' := fun k a n => s.load (s.ckptBase k + off + 65536 * nb * a + 65536 * n) 65536
  leBytes (8 * ceilDiv nb 64) bits ++
  dirty.flatMap fun n => (List.range (udArrays u).length).flatMap fun a => codeBlock (at' k a n) (at' kb a n)

/-- The method of a tensor is `DELTA` (R548), given that a valid base exists. -/
def State.codesDelta (s : State) (base : CkptSlot) (w : Nat) (dirty : List Nat) : Bool :=
  s.odv Od.CKPT_DELTA_MIN_MIB * 2 ^ 20 ≤ 65536 * wgBlocks w && base.chain < s.odv Od.CKPT_DELTA_CHAIN_MAX &&
  dirty.length * 100 ≤ s.odv Od.CKPT_DELTA_DIRTY_PCT * wgBlocks w

/-- The coder's state, the entries coded so far and the next free offset of the drain area. -/
structure Coding where
  s : State
  es : List MfEntry
  off : Nat

/-- One tensor coded: `DELTA` into the drain area, or left in its slot (R549). -/
def Coding.code (a : Coding) (c : Ckpt) (base : CkptSlot) (has : Bool) (k : Nat) (es : List Nat) (x : Nat × Nat × Nat) : Coding :=
  let s := a.s
  let tid := udTensor x.1
  let dirty := tabGet [] c.dirty tid
  let old := (es.find? fun e => meTensor e = tid).getD 0
  let crcs := (List.range 4).map (meCrc old)
  if has && s.codesDelta base x.2.1 dirty then
    let bs := s.codeTensor k (1 - k) x.2.2 x.1 x.2.1 dirty
    let at' := s.ckptBase 2 + a.off
    let e : MfEntry := { tensor := tid, delta := true, bytes := bs.length, addr := at', crcs := crcs, crc := crc64 bs }
    { s := s.put at' bs, es := a.es ++ [e], off := roundUp (a.off + bs.length) 64 }
  else
    let e : MfEntry := {
      tensor := tid
      delta := false
      bytes := meBytes old
      addr := s.ckptBase k + x.2.2
      crcs := crcs
      crc := bitsOf old 448 64 }
    { a with es := a.es ++ [e] }

/-- The image of `W` coded into the drain area and its manifest written (R548 to R550). -/
def State.finishCoding (s : State) (w : Nat) (img : Image) : State :=
  let c := s.ckpt
  -- the slot last written, and the other
  let k := if c.next then 0 else 1
  let base := if c.next then c.b else c.a
  let has := c.hasBase && base.valid && !base.serve
  let es := s.mfEntries (s.slotManifest k)
  let r := img.slotOffsets.foldl (fun acc x => acc.code c base has k es x) { s := s, es := [], off := roundUp (512 + 64 * es.length) 65536 : Coding }
  let es := r.es
  let s := r.s
  let any := es.any (·.delta)
  let aux := s.load (s.slotAux k) (mfAuxBytes (s.mfAt (s.slotManifest k)))
  let s := s.put (s.ckptBase 2) (s.manifest w (if any then base.w else mfNoBase) false aux es)
  let slot : CkptSlot := { valid := true, w := w, serve := false, chain := if any then base.chain + 1 else 0 }
  let c := s.ckpt
  let c := if c.next then { c with a := slot } else { c with b := slot }
  { s with ckpt := { c with coding := none, hasBase := s.job.active } }.setOd Od.CKPT_MANIFEST_ADDR (s.ckptBase 2)

/-- The ECC words that the coder reads and that show an error: the last slot's, and the base's. -/
def State.codeErrors (s : State) : List Nat :=
  let c := s.ckpt
  let k := if c.next then 0 else 1
  s.slotErrors k ++ if c.hasBase then s.slotErrors (1 - k) else []

/-- The coder has finished the image of the last snapshot: coded tensors and the manifest stand in the drain area. An
uncorrected error that it met faults the job, and there is no image to drain (R293; DESIGN CHOICE, log entry 45). -/
def execCkptCodingComplete (s : State) : Out :=
  within true "" <|
    match s.ckpt.coding, s.ckptImage with
    | some w, some img =>
      (match s.codeErrors with
       | e :: _ => ({ s with ckpt := { s.ckpt with coding := none, undrained := none } } : State).faultRead e
       | [] => s.finishCoding w img)
    | _, _ => s

/-! ### Restores (R558, R125, R240) -/

/-- A slot that a restore may load: its manifest names W. -/
def State.restoreSlot (s : State) (w : Nat) : Option Nat :=
  [0, 1, 3].find? fun k =>
    let h := s.mfAt (s.slotManifest k)
    bitsOf h 0 8 = 1 && bitsOf h 32 64 = w && !bitOf h 17 && (k != 3 || s.ckpt.buddy.valid)

/-- The checks of a restore from slot k under an image. -/
def State.restoreChecks (s : State) (img : Image) (k : Nat) : Bool :=
  let a := s.slotManifest k
  let h := s.mfAt a
  let es := s.mfEntries a
  bitsOf h 4032 64 = crc64 (s.load a 504) &&
  mfAuxBytes h = auxHead + scaleEntryBytes * img.scaleEntries + 32 * img.updates.length &&
  bitsOf h 600 64 = crc64 (s.load (s.slotAux k) (mfAuxBytes h)) &&
  bitsOf h 8 8 = s.odv Od.STEPPING && bitsOf h 224 256 = s.odv Od.TEACHER_SHA256 &&
  (badIn s.eccBad (s.ckptBase k) s.ckpt.area).isEmpty &&
  img.slotOffsets.all fun x => match es.find? fun e => meTensor e = udTensor x.1 with
    | none => false
    | some e =>
      let n := 65536 * wgBlocks x.2.1
      let as := (List.range (udArrays x.1).length)
      as.all (fun j => crc64 (s.load (s.ckptBase k + x.2.2 + n * j) n) = meCrc e j) && (as.length = 3 || meCrc e 2 = 0)

/-- Masters and moments copied to their homes. -/
def State.copyHome (s : State) (img : Image) (k : Nat) : State :=
  img.slotOffsets.foldl (fun (s : State) x =>
    let n := 65536 * wgBlocks x.2.1
    let as := udArrays x.1
    ((List.range as.length).zip as).foldl (fun (s : State) a =>
      s.put a.2 (s.load (s.ckptBase k + x.2.2 + n * a.1) n)) s) s

/-- The auxiliary state loaded. -/
def State.loadAux (s : State) (img : Image) (k w : Nat) : State :=
  let a := s.slotAux k
  let n := fun o b => memNat s.mem (a + o) b
  let s := [(Od.JOB_STEP, 0, 8), (Od.JOB_SEED, 8, 8), (Od.UPDATE_COUNT, 16, 8), (Od.SKIP_RUN, 24, 2), (Od.LAST_GRAD_NORM, 48, 4),
      (Od.LAST_CLIP_FACTOR, 52, 4), (Od.LAST_STEP_LOSS, 56, 4), (Od.LAST_SPIKE_STEP, 64, 8), (Od.JOB_TAINTED, 72, 1),
      (Od.SPIKE_MEAN, 32, 4)].foldl (fun (s : State) x => s.setOd x.1 (n x.2.1 x.2.2)) s
  let var : W32 := BitVec.ofNat 32 (n 36 4)
  let s := s.setOd Od.SPIKE_SD (fsqrt var).toNat
  let s := { s with job := { Job.empty with
    spikeMean := BitVec.ofNat 32 (n 32 4), spikeVar := var, spikeN := n 40 8, restoredW := some w, lastUpdate := some w } }
  s.put img.scaleTable (s.load (a + auxHead) (scaleEntryBytes * img.scaleEntries))

/-- The working copies formed again with W as the step (R229, R230). -/
def State.regenerate (s : State) (img : Image) (w : Nat) : State :=
  let seed := s.odv Od.JOB_SEED
  img.updates.foldl (fun (s : State) x =>
    (List.range (wgBlocks x.2)).foldl (fun (s : State) n =>
      let es := s.block x.1 n
      let cs := ((List.range es.length).zip es).map fun q =>
        if wgInside x.2 n q.1 then wcConv seed w x.1 x.2 n q.1 q.2.w else ⟨q.2.wc, false, false, false⟩
      (s.put (udWc x.1 + 32768 * n) (cs.flatMap fun (c : Conv) => leBytes 2 c.bits)).commit (Tally.convs [] 2 5 cs)) s) s

/-- A write of `CKPT_RESTORE`. The digest log is cleared at every restore (R392). -/
def State.restoreCkpt (s : State) (w : Nat) : Wrote :=
  if s.anyArmed then s.refused stBusy
  else match s.loaded with
    | none => s.refused stUnavailable
    | some img =>
      let s := { s with ckpt := { s.ckpt with area := reserveArea img.stateBytes } }
      match (s.restoreSlot w).filter (s.restoreChecks img) with
      | none => (stOk, (s.sticky 21).capture { cause := causeRestore })
      | some k =>
        let s := (s.copyHome img k).loadAux img k w
        let s := ((s.regenerate img w).digestPass img w).setOd Od.RED_DIGEST_LOG 0
        (stOk, { s with ckpt := { s.ckpt with hasBase := false, request := none, copy := none, snapshot := none, coding := none, undrained := none } })

/-- A write of `CKPT_SERVE_NOW` (R561): a serving snapshot is written at the next boundary. -/
def State.serveCkpt (s : State) (v : Nat) : Wrote :=
  if v = 1 then (stOk, { s with ckpt := { s.ckpt with serveNow := true } }) else s.refused stRange

def execCkptServeNow (v : Nat) (s : State) : Out := within (v < 256) "value" <| (s.serveCkpt v).2

/-! ### The risk index (16, "Risk index"; R553) -/

/-- Points of the period that ends. -/
def State.riskPoints (s : State) : Nat :=
  let n := fun k => tabGet 0 s.stats k
  let ports := fun k => (List.range 16).foldl (fun t p => t + n (k + 256 * p)) 0
  Nat.min 50 ((n Od.HBM_CORRECTED + n Od.DDR5_CORRECTED) / 16) + Nat.min 50 (ports Od.LINK_FEC_CORRECTED / 1000000) +
  Nat.min 100 (5 * ports Od.LINK_FEC_UNCORRECTABLE) + 100 * ports Od.LINK_LANE_SUBS +
  Nat.min 200 (40 * n Od.UMBER_SUPPLY_ENTRIES) + Nat.min 200 (40 * (n riskThermal + n Od.UMBER_THERMAL_ENTRIES)) +
  Nat.min 100 (20 * (n Od.RED_DEADLINE_MISSES + n Od.RED_SUBSTITUTIONS)) + 50 * n riskRepairs

/-- The index at a boundary, and its crossings of the threshold. -/
def State.updateRisk (s : State) (points : Nat) : State :=
  let r := s.odv Od.RISK_INDEX * s.odv Od.RISK_DECAY / 65536 + points
  let r := Nat.min 1000 r
  let r := if s.odv Od.BUDDY_COLOCATED = 1 then Nat.max r 300 else r
  let th := s.odv Od.RISK_THRESHOLD
  let s := s.setOd Od.RISK_INDEX r
  if th ≤ r then
    (if s.odv Od.RISK_ABOVE = 1 then s
     else
       let seen := bitOf (s.odv Od.STICKY_LOG) 19
       let s := (s.setOd Od.RISK_ABOVE 1).sticky 19
       if seen then (s.raise 0 0).raise 1 0 else s)
  else if r + 100 < th then s.setOd Od.RISK_ABOVE 0
  else s

/-! ### Statistics periods (R522 to R524) -/

/-- A latched entry. -/
def latched (key : Nat) : Bool := 0xA00100 ≤ key && key < 0xB00000

/-- A statistics boundary: every latched entry takes its count and restarts. -/
def State.boundary (s : State) : State :=
  let points := s.riskPoints
  let counts := (s.stats.filter fun e => latched e.1) ++ [(Od.RISK_POINTS, points)]
  let above := counts.any fun e => 2 ^ (8 * odLen e.1) ≤ e.2
  let s := { s with od := s.od.filter fun e => !latched e.1, stats := [] }
  let s := counts.foldl (fun (s : State) e => if e.2 = 0 then s else s.setOd e.1 (Nat.min e.2 (2 ^ (8 * odLen e.1) - 1))) s
  let s := s.setOd Od.STATS_SATURATED (if above then 1 else 0)
  (s.setOd Od.STATS_PERIOD_INDEX (s.odv Od.STATS_PERIOD_INDEX + 1)).updateRisk points

/-- The management island runs its firmware: statistics, the sticky log and first-error capture are its own. -/
def State.islandRuns (s : State) : Bool := s.power.vaux && s.power.boot = 1

def execStatsBoundary (s : State) : Out := within true "" <| if s.islandRuns then s.boundary else s

/-- A write of `STATS_LATCH_NOW`. -/
def State.latchNow (s : State) (v : Nat) : Wrote := if v = 1 then (stOk, s.boundary) else s.refused stRange

def execStatsLatchNow (v : Nat) (s : State) : Out := within (v < 256) "value" <| if s.islandRuns then (s.latchNow v).2 else s

/-! ### Clearing the logs (R540, R541) -/

/-- A write of `STICKY_LOG`: ones clear. -/
def State.clearSticky (s : State) (v : Nat) : State :=
  let old := s.odv Od.STICKY_LOG
  s.setOd Od.STICKY_LOG (old - (old &&& v))

def execStickyLogClear (v : Nat) (s : State) : Out := within (v < 2 ^ 256) "value" <| if s.islandRuns then s.clearSticky v else s

/-- A write of 1 to `FE_VALID` clears every capture field. -/
def State.clearCapture (s : State) : State := { s with od := s.od.filter fun e => e.1 / 256 != 0x9010 }

def execFeValidClear (v : Nat) (s : State) : Out := within (v < 2) "value" <| if s.islandRuns && v = 1 then s.clearCapture else s

end Sys2Proof.Machine
end

