-- ==== Sys2Proof/Machine/Depot.lean ====
section
/-! DEFINITION. The Depot: what it applies at a reset and at a main-domain start (R28 to R34, R83 to R85, R286 to R289,
R563, R564, R581; 16, "Spares and the Depot"). -/

namespace Sys2Proof.Machine

open Sys2Proof

/-! ### Spare units -/

/-- Core slots of a logical die as on a new part: P6 is free (R30). -/
def newSlots : Nat := 0x2C688

def State.spareSlotFree (s : State) (die : Nat) : Bool := s.odv (Od.LCORE_SLOTS + die) = newSlots

/-- The hardware beneath a logical core is new: its repairs, error counts and wear are those of the unit replaced. -/
def State.freshCore (s : State) (c : Nat) : State :=
  let mine := fun (r : Repair) => match r with
    | .sramRow i _ => i = c
    | .arrayRow c' _ _ => c' = c
    | .arrayCol c' _ _ => c' = c
    | _ => false
  let d := s.depot
  let s := s.setCore c { s.core c with arrays := [], quarantined := false }
  { s with depot := { d with applied := d.applied.filter (fun r => !mine r), wear := tabErase d.wear c } }

/-- P6 takes the place of a core's slot, if it is free. -/
def State.substituteCore (s : State) (c : Nat) : Option State :=
  let die := c / 6
  if s.spareSlotFree die then
    let s := s.setOd (Od.LCORE_SLOTS + die) (setBits newSlots (3 * (c % 6)) 3 6)
    some ((s.setOd Od.DEPOT_SPARE_CORES_LEFT (s.odv Od.DEPOT_SPARE_CORES_LEFT - 1)).freshCore c)
  else none

/-- The dark dies: physical number and whether retired. -/
def State.darkDies (s : State) : List (Nat × Bool) :=
  (List.range 4).map fun d => (s.odv (Od.DARK_DIE_PHYS + d), bitOf (s.odv Od.DARK_DIE_RETIRED) d)

/-- A dark die placed in ascending order of its physical number. -/
def placeDark (x : Nat × Bool) : List (Nat × Bool) → List (Nat × Bool)
  | [] => [x]
  | y :: ys => if x.1 < y.1 then x :: y :: ys else y :: placeDark x ys

/-- `DARK_DIE_PHYS` and `DARK_DIE_RETIRED` written (R32). -/
def State.setDark (s : State) (l : List (Nat × Bool)) : State :=
  let s := ((List.range l.length).zip l).foldl (fun (s : State) e => s.setOd (Od.DARK_DIE_PHYS + e.1) e.2.1) s
  s.setOd Od.DARK_DIE_RETIRED (((List.range l.length).zip l).foldl (fun w e => if e.2.2 then w + 2 ^ e.1 else w) 0)

/-- The dark die that comes into use: the free one of the lowest physical number (DESIGN CHOICE, log entry 60). -/
def State.freeDark (s : State) : Option Nat :=
  if !bitOf (s.odv Od.SPARE_POLICY) 1 then none
  else (List.range 4).find? fun d => !bitOf (s.odv Od.DARK_DIE_RETIRED) d

/-- A spare matrix die takes the place of a logical die's, if the policy and the spares allow it (R32, R581). -/
def State.substituteDie (s : State) (die : Nat) : Option State :=
  match s.freeDark with
  | none => none
  | some d =>
    let dark := s.darkDies
    let old := s.odv (Od.LDIE_PHYS + die)
    let used := listGet (0, false) dark d
    let rest := dark.filter fun x => x.1 != used.1
    let s := (s.setOd (Od.LDIE_PHYS + die) used.1).setDark (placeDark (old, true) rest)
    let s := if s.spareSlotFree die then s
      else s.setOd Od.DEPOT_SPARE_CORES_LEFT (s.odv Od.DEPOT_SPARE_CORES_LEFT + 1)
    let s := (s.setOd (Od.LCORE_SLOTS + die) newSlots).setOd Od.DEPOT_SPARE_DIES_LEFT (s.odv Od.DEPOT_SPARE_DIES_LEFT - 1)
    let s := (List.range 6).foldl (fun (s : State) c => s.freshCore (6 * die + c)) s
    let dp := s.depot
    some { s with depot := { dp with
      applied := dp.applied.filter (fun r => match r with
        | .sramRow i _ => i != 0x2000 + die
        | _ => true)
      wear := tabErase dp.wear (512 + die)
      quarantinedDies := dp.quarantinedDies.filter (· != die) } }

/-- No spare is free: the units stay quarantined, the substitution stays recorded, and the package is marked for replacement
(R564). -/
def State.exhausted (s : State) (r : Repair) (cores : List Nat) (dies : List Nat) : State :=
  let s := ((s.setOd Od.DEPOT_EXHAUSTED 1).sticky 17).setOd Od.DEPOT_PENDING (s.odv Od.DEPOT_PENDING + 1)
  let s := cores.foldl (fun (s : State) c => s.setCore c { s.core c with quarantined := true }) s
  { s with depot := { s.depot with quarantinedDies := s.depot.quarantinedDies ++ dies, pending := s.depot.pending ++ [r], replace := true } }

/-- A logical die needs another matrix die. -/
def State.needDie (s : State) (die : Nat) : State :=
  match s.substituteDie die with
  | some s => s
  | none => s.exhausted (.matrixDie die) (fromTo (6 * die) 6) [die]

/-- A core needs another slot; a second core of one die needs another die. -/
def State.needCore (s : State) (c : Nat) : State :=
  match s.substituteCore c with
  | some s => s
  | none => match s.substituteDie (c / 6) with
    | some s => s
    | none => s.exhausted (.coreSlot c) [c] []

/-! ### Repairs -/

def State.applied (s : State) (r : Repair) : State :=
  { s with depot := { s.depot with applied := s.depot.applied ++ [r] } }

/-- Spare SRAM rows in use in the macro of a row: 1,024 rows of 128 bytes. -/
def State.macroRows (s : State) (island row : Nat) : Nat :=
  (s.depot.applied.filter fun r => match r with
    | .sramRow i q => i = island && q / 1024 = row / 1024
    | _ => false).length

/-- Rows of an HBM channel already retired. -/
def State.channelRows (s : State) (stack ch : Nat) : Nat :=
  (s.depot.applied.filter fun r => match r with
    | .hbmRow st c _ => st = stack && c = ch
    | _ => false).length

/-- Granules of a channel's reserve that row retirement may take: 32,768 less 1,024 for each channel retired. -/
def State.reserveGranules (s : State) : Nat := 32768 - 1024 * s.odv Od.HBM_CHANNELS_RETIRED

/-- The package is marked for replacement (R40, R289, R564). -/
def State.markReplace (s : State) : State := { s with depot := { s.depot with replace := true } }

def State.hbmExhausted (s : State) : State := ((s.setOd Od.HBM_RETIRE_EXHAUSTED 1).sticky 16).markReplace

/-- An array's spare rows and columns in use, counted over the package. -/
def State.setSpares (s : State) (c a rows cols : Nat) : State :=
  let x := tabGet ArrayState.empty (s.core c).arrays a
  let bump := fun (s : State) (key old new : Nat) => if old = 0 && new != 0 then s.setOd key (s.odv key + 1) else s
  let s := bump (bump s Od.ARRAYS_SPARE_ROWS_USED x.spareRows rows) Od.ARRAYS_SPARE_COLS_USED x.spareCols cols
  s.setCore c { s.core c with arrays := tabSet (s.core c).arrays a { x with
    spareRows := rows, spareCols := cols, status := setBits (setBits x.status 8 2 rows) 10 2 cols } }

/-- One recorded repair, retirement or substitution brought into use. -/
def State.applyRepair (s : State) (r : Repair) : State :=
  match r with
  | .hbmRow st ch _ =>
    if (s.channelRows st ch + 1) * Config.hbmRowGranules ≤ s.reserveGranules then
      (s.applied r).setOd Od.HBM_ROWS_RETIRED (s.odv Od.HBM_ROWS_RETIRED + 1)
    else s.hbmExhausted
  | .hbmChannel _ _ =>
    if s.odv Od.HBM_CHANNELS_RETIRED < 4 then
      (s.applied r).setOd Od.HBM_CHANNELS_RETIRED (s.odv Od.HBM_CHANNELS_RETIRED + 1)
    else s.hbmExhausted
  | .sramRow island row =>
    if s.macroRows island row < 4 then s.applied r
    else if island / 4096 = 0 then s.needCore island
    else s.needDie (island % 4096)
  | .arrayRow c a _ =>
    let x := tabGet ArrayState.empty (s.core c).arrays a
    (s.applied r).setSpares c a (x.spareRows + 1) x.spareCols
  | .arrayCol c a _ =>
    let x := tabGet ArrayState.empty (s.core c).arrays a
    (s.applied r).setSpares c a x.spareRows (x.spareCols + 1)
  | .coreSlot c => s.needCore c
  | .matrixDie d => s.needDie d
  | .router _ => s.applied r

/-- A line of an array that fails the power-on self-test is left out of the array's map (R83), or its core replaced where the
array has no spare (R85). -/
def State.applySelfTest (s : State) (x : FailedLine) : State :=
  let r : Repair := if x.column then .arrayCol x.core x.array x.line else .arrayRow x.core x.array x.line
  let a := tabGet ArrayState.empty (s.core x.core).arrays x.array
  if s.depot.applied.contains r then s
  else if (if x.column then a.spareCols else a.spareRows) < 2 then s.applyRepair r
  else s.needCore x.core

/-- Order of use (16, "Spare capacity and its use"). -/
def Repair.order (r : Repair) : Nat :=
  match r with
  | .hbmChannel .. => 0
  | .hbmRow .. => 1
  | .sramRow .. => 2
  | .arrayRow .. => 3
  | .arrayCol .. => 3
  | .coreSlot .. => 4
  | .matrixDie .. => 5
  | .router .. => 6

/-- Substitution on wear, if the policy permits it and a spare is free (R563). -/
def State.applyWear (s : State) : State :=
  if !bitOf (s.odv Od.SPARE_POLICY) 0 then s
  else
    s.depot.wear.foldl (fun (s : State) e =>
      if e.2 ≤ s.odv Od.DEPOT_WEAR_LIMIT then s
      else match (if e.1 < 512 then s.substituteCore e.1 else s.substituteDie (e.1 - 512)) with
        | some s => s
        | none => s) s

def Repair.isHbm (r : Repair) : Bool :=
  match r with
  | .hbmRow .. => true
  | .hbmChannel .. => true
  | _ => false

/-- The rows whose corrected errors of this reset period reach their trigger are recorded: 16 of an HBM row, 2 of an SRAM row
(R287; 16, "Spare capacity and its use"). -/
def State.recordCorrected (s : State) : State :=
  s.depot.corrected.foldl (fun (s : State) e => match e.1 with
    | .hbmRow st ch row => if 16 ≤ e.2 then s.recordHbm st ch row else s
    | .sramRow i row => if 2 ≤ e.2 then s.record (.sramRow i row) else s
    | _ => s) s

/-- The routers that the Depot has retired (R34). -/
def Depot.retiredRouters (d : Depot) : List Nat := d.applied.filterMap fun r => match r with
  | .router die => some die
  | _ => none

/-- The Depot acts: everything recorded is applied in order, and quarantines end but for want of a spare. HBM contents are
lost where a retirement is applied (R287), and the fabric's routes avoid the retired routers until the next reset (R34). -/
def State.depotActs (s : State) : State :=
  let s := s.recordCorrected
  let todo := s.depot.pending
  let hbm := s.depot.applied.countP Repair.isHbm
  let s := s.mapCores fun c => { c with quarantined := false }
  let s := { s with depot := { s.depot with pending := [], quarantinedDies := [] } }
  let s := ((s.setOd Od.DEPOT_PENDING 0).setOd Od.HBM_RETIRE_PENDING 0).setOd Od.ARRAYS_REPAIR_EXHAUSTED 0
  let s := (List.range 7).foldl (fun (s : State) k =>
    (todo.filter fun r => r.order = k).foldl (fun (s : State) r => s.applyRepair r) s) s
  let s := s.applyWear
  let lost : Bool := s.depot.applied.countP Repair.isHbm != hbm
  { s with
    depot := { s.depot with reload := lost, corrected := [], avoid := s.depot.retiredRouters }
    mem := if lost then s.mem.filter (fun (c : Host.Cell) => c.1 / 2 ^ 56 != 0) else s.mem
    eccBad := if lost then s.eccBad.filter (fun w => w / 2 ^ 56 != 0) else s.eccBad }

end Sys2Proof.Machine
end

