-- ==== Sys2Proof/Machine/Serving.lean ====
section
/-! DEFINITION. Stationmaster (12): request records, KV pages, stop conditions, admission, chunks, pauses, prefixes and
adapter generations. -/

namespace Sys2Proof.Machine

open Sys2Proof

/-! ### Request bodies (12, "Requests"; R403, R405) -/

def rqOp (b : Nat) : Nat := bitsOf b 0 8
def rqDepth (b : Nat) : Nat := bitsOf b 16 4
def rqTag (b : Nat) : Nat := bitsOf b 64 64
def rqPrefix (b : Nat) : Nat := bitsOf b 192 64
def rqAddr (b : Nat) : Nat := bitsOf b 256 64
def rqLen (b : Nat) : Nat := bitsOf b 320 32
def rqMaxNew (b : Nat) : Nat := bitsOf b 352 32
def rqOut (b : Nat) : Nat := bitsOf b 384 64
def rqStop (b : Nat) : Nat := bitsOf b 448 64
def rqQueue (b : Nat) : Nat := bitsOf b 512 12
def rqTarget (b : Nat) : Nat := bitsOf b 528 16
def rqAdT (b : Nat) : Nat := bitsOf b 544 10
def rqAdS (b : Nat) : Nat := bitsOf b 554 10

/-- The bits of a body that an operation reads. -/
def rqMask (op : Nat) : Nat :=
  let f := fun (l : List (Nat × Nat)) => fields (l.map fun x => (x.1, x.2, 2 ^ x.2 - 1))
  match op with
  | 1 => f [(0, 10), (16, 4), (32, 492), (528, 36)]
  | 2 => f [(0, 8), (64, 64)]
  | 3 => f [(0, 8), (64, 64)]
  | 4 => f [(0, 8), (64, 64)]
  | 5 => f [(0, 8), (192, 64), (256, 96), (512, 12), (544, 20)]
  | 6 => f [(0, 8), (192, 64)]
  | 7 => f [(0, 8), (256, 96), (512, 12), (544, 20)]
  | 8 => f [(0, 8), (544, 20)]
  | _ => 0

/-- 0.0625 and 64 as W32. -/
def tauOk (t : W32) : Bool := fge t 0x3D800000#32 && fge 0x42800000#32 t

/-- The form of a body. -/
def rqFormOk (queues b : Nat) : Bool :=
  let op := rqOp b
  let one := (rqAdT b = 0) != (rqAdS b = 0)
  1 ≤ op && op ≤ 8 && (b &&& rqMask op) = b &&
  match op with
  | 1 => rqMaxNew b != 0 && rqLen b != 0 && rqQueue b < queues && (bitOf b 8 || tauOk (BitVec.ofNat 32 (bitsOf b 32 32)))
  | 5 => rqPrefix b != 0 && rqLen b != 0 && rqQueue b < queues
  | 6 => rqPrefix b != 0
  | 7 => one && rqLen b != 0 && rqQueue b < queues
  | 8 => one
  | _ => true

/-- A range that a body names lies in the context's grants (R403). -/
def State.rqRange (s : State) (p a n : Nat) (write : Bool) : Bool :=
  match s.descPlace p a n write with
  | .inl _ => true
  | .inr _ => false

def State.rqRangesOk (s : State) (p b : Nat) : Bool :=
  match rqOp b with
  | 1 => s.rqRange p (rqAddr b) (4 * rqLen b) false && s.rqRange p (rqOut b) (4 * rqMaxNew b) true &&
      (rqStop b = 0 || s.rqRange p (rqStop b) 676 false)
  | 5 => s.rqRange p (rqAddr b) (4 * rqLen b) false
  | 7 => s.rqRange p (rqAddr b) (rqLen b) false
  | _ => true

/-- Serving refusals 0x20 to 0x2C. -/
def svBadField : Nat := 0x20
def svAddr : Nat := 0x21
def svTagInUse : Nat := 0x22
def svUnknownTag : Nat := 0x23
def svTableFull : Nat := 0x24
def svTooLong : Nat := 0x25
def svTarget : Nat := 0x26
def svPrefixUnknown : Nat := 0x27
def svPrefixExists : Nat := 0x28
def svPrefixStale : Nat := 0x29
def svAdapterUnknown : Nat := 0x2A
def svSummaryFull : Nat := 0x2B
def svNotPaused : Nat := 0x2C

/-- D_SERVE: a body that breaks its form or its grants is refused at once; another waits for the next boundary, and its
record with it (R401, R403, R404, R445). -/
def execDServe (q : Nat) (s : State) : Out :=
  within (q < 4096) "queue" <| s.runDesc q (· = 5) fun s p d =>
    let b := bitsOf d.w 512 1536
    if !s.serveMode || !rqFormOk (s.plat p).queueCount b then s.finishDesc q p d svBadField false
    else if !s.rqRangesOk p b then s.finishDesc q p d svAddr false
    else
      let u := s.queue q
      let r := { HeldRecord.plain 1 0 d.n d.tag 0 with
        scope := d.scope
        irq := d.irq
        vector := d.vector
        sigEn := d.sigEn
        sigCore := d.sigCore
        sigCtr := d.sigCtr
        sigN := d.sigN
        wait := true }
      let s := s.setQueue q { u with busy := u.busy + d.slots, held := u.held ++ [r] }
      { s with serving := { s.serving with records := s.serving.records ++ [{ queue := q, platform := p, n := d.n, body := b }] } }

/-- The record of a request record, decided: it completes with a status; a stopped context's has no record (R322), nor has one
whose queue was reset (R489). -/
def State.decide (s : State) (r : ServeRecord) (status : Nat) : State :=
  if 4096 ≤ r.queue then s else
  let u := s.queue r.queue
  let mine := fun (h : HeldRecord) => h.wait && h.index = r.n
  let held := if (s.plat r.platform).epochStopped then u.held.filter (fun h => !mine h)
    else u.held.map fun h => if mine h then { h with wait := false, status := status } else h
  (s.setQueue r.queue { u with head := (u.head + 4) % 2 ^ 32, busy := u.busy - 4, lastDone := laterSlot u.lastDone r.n, held := held }).drain
    r.queue r.platform (held.length + 1)

/-! ### Geometry and pages (12, "KV pages") -/

/-- Positions of a page. -/
def pagePos (fmt w : Nat) : Nat := 65536 / (if fmt = 0 then 2 * w else 4 * w)

def State.posT (s : State) (sp : ServePlan) : Nat := pagePos (s.odv Od.KV_FMT_TEACHER) sp.widthT
def State.posS (s : State) (sp : ServePlan) : Nat := pagePos (s.odv Od.KV_FMT_STUDENT) sp.widthS

/-- KV bytes per position of a model. -/
def kvPerPos (fmt w layers : Nat) : Nat :=
  let per := if fmt = 0 then 65536 + 2048 else 65536
  per * layers / pagePos fmt w

/-- Page-table slots of a model for a length: layers, and pages per layer. -/
def slotCount (layers pos len : Nat) : Nat := layers * ceilDiv len pos

/-- Positions that a prefill covers: the prompt, and after a restore the committed tokens (R562). -/
def Request.filled (r : Request) : Nat := r.prompt.length + r.log.length

/-- Largest length of a request. -/
def Request.largest (r : Request) : Nat := r.prompt.length + r.maxNew + r.depth

/-- Teacher and student layers for which a request holds pages: a request of depth 0 has no teacher KV (R423). -/
def Request.layers (r : Request) (sp : ServePlan) : Nat × Nat := (if r.depth = 0 then 0 else sp.layersT, sp.layersS)

def Serving.pagesUsed (v : Serving) : List Nat :=
  v.requests.flatMap (·.pages) ++ v.prefixes.flatMap (·.pages)

/-- Free pages of the pool, lowest first. -/
def State.freePages (s : State) : List Nat :=
  let used := s.serving.pagesUsed
  (List.range (s.odv Od.KV_POOL_PAGES)).filter fun n => !used.contains n

def State.pageAddr (s : State) (n : Nat) : Nat := s.odv Od.KV_POOL_BASE + 65536 * n
def State.scaleAddr (s : State) (n : Nat) : Nat := s.odv Od.KV_SCALE_BASE + 2048 * n

/-- Bytes that a request needs of the serving firmware area: its page table and its token log (R419). -/
def fwNeed (slots maxNew depth : Nat) : Nat := roundUp (4 * slots + 4 * (maxNew + depth + 1)) 64

/-- The request table lies at the start of the serving firmware area (DESIGN CHOICE, log entry 51). -/
def tableBytes : Nat := 16384 * 256

def State.entryAddr (s : State) (e : Nat) : Nat := s.odv Od.SERVE_FW_BASE + 256 * e

/-- The stop set of each entry follows the table, 704 bytes apart (R407; DESIGN CHOICE, log entry 51). -/
def State.stopAddr (s : State) (e : Nat) : Nat := s.odv Od.SERVE_FW_BASE + tableBytes + 704 * e

/-- Bytes at the start of the area before its page tables and token logs. -/
def fixedBytes : Nat := tableBytes + 16384 * 704

/-- Lowest free place for `n` bytes among allocations in an area. -/
def place (lo hi n : Nat) (used : List (Nat × Nat)) : Option Nat :=
  let cands := lo :: used.map fun u => roundUp (u.1 + u.2) 64
  let good := cands.filter fun a => lo ≤ a && a + n ≤ hi && !used.any fun u => overlap a n u.1 u.2
  match good with
  | [] => none
  | a :: rest => some (rest.foldl Nat.min a)

def State.fwPlace (s : State) (n : Nat) : Option Nat :=
  let lo := s.odv Od.SERVE_FW_BASE + fixedBytes
  place lo (s.odv Od.SERVE_FW_BASE + s.odv Od.SERVE_FW_BYTES) n
    ((s.serving.requests.filter fun r => r.fw != 0).map fun r => (r.fw, fwNeed r.slots.length r.maxNew r.depth))

/-! ### The request table in memory (R407) -/

/-- A request-table entry. -/
def Request.bits (r : Request) : Nat :=
  let b := fun (x : Bool) => if x then 1 else 0
  fields [(0, 3, r.state), (3, 1, b r.greedy), (4, 1, b r.includeStop), (5, 1, b r.lossy), (8, 4, r.depth), (16, 7, r.fn),
    (32, 10, r.platform), (64, 64, r.tag), (128, 64, r.seed), (192, 64, r.pfx), (256, 32, r.tau), (288, 32, r.len),
    (320, 32, r.kvT), (352, 32, r.kvS), (384, 32, r.prompt.length), (416, 32, r.maxNew), (448, 32, r.log.length),
    (480, 32, r.delivered), (512, 10, r.adapterT), (522, 10, r.adapterS), (544, 32, r.genT), (576, 32, r.genS),
    (608, 32, r.pages.length), (640, 16, r.target), (672, 64, r.fw), (736, 64, r.fw + 4 * r.slots.length),
    (800, 12, r.outQueue), (816, 48, r.admitRound), (864, 64, r.outAddr)]

/-- The bytes of a stop set (12, "Stop set"). -/
def Request.stopBytes (r : Request) : List Byte :=
  leBytes 4 (r.stopTokens.length + 256 * r.stopSeqs.length) ++
  ((List.range 32).flatMap fun i => leBytes 4 (listGet 0 r.stopTokens i)) ++
  (List.range 8).flatMap fun q =>
    let ts := listGet [] r.stopSeqs q
    leBytes 4 ts.length ++ (List.range 16).flatMap fun i => leBytes 4 (listGet 0 ts i)

/-- The entry, the stop set, the token log and the page-table slots that hold written pages. -/
def State.writeEntry (s : State) (r : Request) : State :=
  let s := (s.put (s.entryAddr r.entry) (leBytes 256 r.bits)).put (s.stopAddr r.entry) r.stopBytes
  if r.fw = 0 then s else s.put (r.fw + 4 * r.slots.length) (r.log.flatMap (leBytes 4))

/-- Page-table slots of pages that hold a position below the bounds (R411). -/
def State.fillSlots (s : State) (sp : ServePlan) (r : Request) (boundT boundS : Nat) : State :=
  let ly := r.layers sp
  let perT := ceilDiv r.largest (s.posT sp)
  let perS := ceilDiv r.largest (s.posS sp)
  let nT := ly.1 * perT
  ((List.range r.slots.length).zip r.slots).foldl (fun (s : State) q =>
    let live := if q.1 < nT then q.1 % perT * s.posT sp < boundT else (q.1 - nT) % perS * s.posS sp < boundS
    if live then s.put (r.fw + 4 * q.1) (leBytes 4 q.2) else s) s

def State.setRequest (s : State) (r : Request) : State :=
  { s with serving := { s.serving with requests := s.serving.requests.map fun x => if x.entry = r.entry then r else x } }

/-- Every live request changed by a function. -/
def State.mapRequests (s : State) (f : Request → Request) : State :=
  { s with serving := { s.serving with requests := s.serving.requests.map f } }

/-! ### Completions and tokens (R408, R418) -/

/-- A completion record of a request. -/
def State.serveRecord (s : State) (r : Request) (status : Nat) : State :=
  let x := s.plat r.platform
  s.pushRecord (x.queueBase + r.outQueue) r.platform
    { HeldRecord.plain 3 status 0 r.tag r.delivered with lossy := r.lossy }

/-- U32 words written by Stationmaster at an address of a context. -/
def State.deliverWords (s : State) (p a : Nat) (ws : List Nat) : State :=
  let bs := ws.flatMap (leBytes 4)
  match s.descPlace p a bs.length true with
  | .inl .device => s.put a bs
  | .inl (.host port h) => s.hostPut p port h bs
  | .inr _ => s

/-- The longest run of trailing tokens that is a proper prefix of a stop sequence. -/
def withheld (log : List Nat) (seqs : List (List Nat)) : Nat :=
  (List.range 16).foldl (fun best k =>
    if k ≤ log.length && seqs.any (fun q => k < q.length && q.take k = log.drop (log.length - k)) then Nat.max best k else best) 0

/-- Tokens of a request that may be delivered. -/
def Request.deliverable (r : Request) : Nat :=
  let n := r.log.length
  if r.includeStop then n
  else match r.ended with
    | some 1 => n - 1
    | some 2 =>
      match r.stopSeqs.find? fun q => q.length ≤ n && q = r.log.drop (n - q.length) with
      | some q => n - q.length
      | none => n
    | some 3 => n
    | _ => n - withheld r.log r.stopSeqs

/-- The tokens not yet delivered are written (R408). -/
def State.deliver (s : State) (r : Request) : State :=
  let n := Nat.max r.delivered r.deliverable
  let s := s.deliverWords r.platform (r.outAddr + 4 * r.delivered) ((r.log.take n).drop r.delivered)
  s.setRequest { r with delivered := n }

/-! ### Stop conditions (R417) -/

/-- A token appended to a request that has not ended, and the condition it meets. -/
def Request.append (r : Request) (tok : Nat) : Request :=
  if r.ended.isSome then r
  else
    let log := r.log ++ [tok]
    let n := log.length
    let e := if r.stopTokens.contains tok then some 1
      else if r.stopSeqs.any (fun q => q != [] && q.length ≤ n && q = log.drop (n - q.length)) then some 2
      else if r.maxNew ≤ n then some 3
      else none
    { r with log := log, ended := e }

/-! ### Verdicts (R412 to R414) -/

/-- The Yard die of a conversation of a group: the home of conversation c is Junction c mod D (R166). -/
def State.groupDie (s : State) (p : Nat) (g : ServeGroup) (c : Nat) : Nat :=
  s.logicalDie p (listGet 0 g.dies (c % g.dies.length))

def State.resultWord (s : State) (p : Nat) (g : ServeGroup) (c : Nat) : Nat :=
  memNat s.mem (yardAddr (s.groupDie p g c) (g.outOff + 8 * c)) 8

/-- Token of draft record i. -/
def State.draftToken (s : State) (p : Nat) (g : ServeGroup) (c i : Nat) : Nat :=
  bitsOf (memNat s.mem (yardAddr (s.groupDie p g c) (g.reqOff + 256 * c + 16 + 16 * i)) 4) 0 20

def ServePlan.group (sp : ServePlan) (i : Nat) : ServeGroup :=
  listGet { depth := 0, dies := [], reqOff := 0, outOff := 0 } sp.groups i

/-- Every result of the round is final: none awaits a residual sample. -/
def State.roundDone (s : State) (p : Nat) (sp : ServePlan) : Bool :=
  s.serving.plan.all fun r =>
    let g := sp.group r.group
    g.depth = 0 || !bitOf (s.resultWord p g r.conv) 4

/-- Step 1 and step 2 for one conversation; a request that an uncorrected error has met takes nothing of the round (R416). -/
def State.applyVerdict (s : State) (p : Nat) (sp : ServePlan) (row : PlanRow) : State :=
  match s.serving.requests.find? fun r => r.entry = row.entry && r.state = 3 && !r.failed with
  | none => s
  | some r =>
    let g := sp.group row.group
    let l := r.len
    let n0 := r.log.length
    let r' : Request :=
      if r.depth = 0 then
        let toks := (List.range s.serving.kmax).map (s.draftToken p g row.conv)
        { toks.foldl Request.append r with len := l + s.serving.kmax, kvS := l + s.serving.kmax - 1 }
      else
        let w := s.resultWord p g row.conv
        let a := bitsOf w 0 4
        if bitOf w 6 then { r with ended := some 5 }
        else
          let toks := (List.range a).map (s.draftToken p g row.conv) ++ [bitsOf w 8 20]
          { toks.foldl Request.append r with
            len := l + a + 1
            kvT := l + a
            kvS := if a < r.depth then l + a else l + r.depth - 1 }
    (s.setRequest r').count Od.SERVE_TOKENS (r'.log.length - n0)

/-- The prefix that a request holds, its handle released or not (R429, R435). -/
def State.heldPrefix (s : State) (r : Request) : Option PrefixEnt :=
  r.held.bind fun q => s.serving.prefixes.find? fun x => x.seq = q

/-- A request that has not ended holds a prefix. -/
def State.prefixHeld (s : State) (x : PrefixEnt) : Bool :=
  s.serving.requests.any fun r => (r.ended.isNone || r.away) && r.held = some x.seq

/-- A chunk of the round has run (R426, R432). -/
def State.applyChunk (s : State) (c : PlanChunk) : State :=
  if c.pfx then
    match s.serving.prefixes.find? fun x => x.seq = c.key && (!x.removed || s.prefixHeld x) with
    | none => s
    | some x =>
      let done := x.tokens.length ≤ c.start + c.n
      let x' := { x with kv := c.start + c.n, ready := done }
      let s := { s with serving := { s.serving with prefixes := s.serving.prefixes.map fun (y : PrefixEnt) => if y.seq = x.seq then x' else y } }
      if done then
        s.pushRecord ((s.plat x.platform).queueBase + x.queue) x.platform (HeldRecord.plain 3 0x12 0 x.handle 0)
      else s
  else
    match s.serving.requests.find? fun r => r.entry = c.key && r.state = 2 && !r.failed with
    | none => s
    | some r =>
      let kv := c.start + c.n
      let t := if r.depth = 0 then 0 else kv
      let r := { r with kvS := kv, kvT := t }
      if r.filled ≤ kv + 1 then
        let r := { r with state := 3, len := r.filled }
        let s := s.setRequest r
        if r.log.isEmpty then s else s.serveRecord r 0x11
      else s.setRequest r

/-! ### Estimates (R420, R422, R424) -/

/-- F4 peak of the profile in operations per µs (18, "Profiles"): 151.0, 128.35 and 98.15 POPS. -/
def State.peakPerUs (s : State) : Nat :=
  match s.odv Od.POWER_PROFILE with
  | 0 => 151000000000
  | 1 => 128350000000
  | _ => 98150000000

/-- A load: bytes moved, operations of the arrays, and requests. -/
structure Load where
  bytes : Nat
  ops : Nat
  n : Nat
  deriving DecidableEq, Repr

def kOf (rs : List Request) : Nat := Nat.max 1 (rs.foldl (fun m r => Nat.max m r.depth) 0)

/-- Bytes of the distinct adapter generations that requests pin. -/
def State.adapterBytes (s : State) (pins : List (Bool × Nat × Nat)) : Nat :=
  (s.serving.gens.filter fun g => pins.contains (g.student, g.id, g.gen)).foldl (fun t g => t + g.bytes) 0

def Request.pins (r : Request) : List (Bool × Nat × Nat) :=
  (if r.adapterT = 0 then [] else [(false, r.adapterT, r.genT)]) ++ (if r.adapterS = 0 then [] else [(true, r.adapterS, r.genS)])

def PrefixEnt.pins (r : PrefixEnt) : List (Bool × Nat × Nat) :=
  (if r.adapterT = 0 then [] else [(false, r.adapterT, r.genT)]) ++ (if r.adapterS = 0 then [] else [(true, r.adapterS, r.genS)])

/-- The estimate of R420 for a set of requests, with further positions of prefill chunks. -/
def State.load' (s : State) (sp : ServePlan) (rs : List Request) (extra : Nat) : Load :=
  let k := kOf rs
  let sB := kvPerPos (s.odv Od.KV_FMT_STUDENT) sp.widthS sp.layersS
  let tB := kvPerPos (s.odv Od.KV_FMT_TEACHER) sp.widthT sp.layersT
  let one := fun (r : Request) => r.largest * (if r.depth = 0 then k * sB else r.depth * sB + tB)
  let pos := rs.foldl (fun t r => if r.depth = 0 then t else t + r.depth + 1) 0
  { bytes := k * sp.draftBytes + sp.passBytes + sp.unembedBytes + s.adapterBytes (rs.flatMap (·.pins)) +
      rs.foldl (fun t r => t + one r) 0
    ops := (pos + extra) * 2 * sp.params
    n := rs.length }

/-- `SERVE_STREAM_RATE` in bytes per µs as a fraction: numerator over 2^149. -/
def State.streamRate (s : State) : Nat :=
  match fmtW32.dec (s.odv Od.SERVE_STREAM_RATE) with
  | .fin _ m e => 1000000 * m * 2 ^ (e + 149).toNat
  | _ => 0

/-- T of R420 does not exceed a target in µs. -/
def State.meets (s : State) (l : Load) (target : Nat) : Bool :=
  let x := 100 * target - (200 + 6 * l.n)
  200 + 6 * l.n ≤ 100 * target &&
  l.bytes * 100 * 2 ^ 149 ≤ x * s.streamRate && l.ops * 100 ≤ x * s.peakPerUs

/-- Tc stays within Tm. -/
def State.fits (s : State) (l : Load) : Bool := l.ops * s.streamRate ≤ l.bytes * 2 ^ 149 * s.peakPerUs

/-- Requests that take part in the rounds. -/
def Serving.active (v : Serving) : List Request :=
  v.requests.filter fun r => (r.state = 2 || r.state = 3) && !r.away && r.ended.isNone

/-- The smallest target of a set, 0 for none. -/
def leastTarget (rs : List Request) : Nat :=
  rs.foldl (fun m r => if r.target = 0 then m else if m = 0 then r.target else Nat.min m r.target) 0

/-! ### Applying request records (step 4 of R401) -/

/-- The current generation of an adapter: 0 for adapter 0. -/
def State.currentGen (s : State) (student : Bool) (id : Nat) : Option Nat :=
  if id = 0 then some 0
  else (s.serving.gens.find? fun g => g.student = student && g.id = id && g.current).map (·.gen)

/-- Bytes read once from a context's address (R406); a host read that the host fails gives free values, and an uncorrected
error faults the context (R290). -/
def State.readWords (s : State) (p a n : Nat) : State × List Byte :=
  match s.descPlace p a n false with
  | .inl (.host port h) =>
    if s.hostBad.any fun r => overlap r.1 r.2 h n then
      ({ s with fresh := s.fresh + n }, (fromTo s.fresh n).map Config.freeByte)
    else s.hostFetch p port h n
  | _ =>
    match badIn s.eccBad a n with
    | w :: _ => (s.descEcc p w, s.load a n)
    | [] => (s, s.load a n)

def wordsOf (bs : List Byte) : List Nat := (chunks 4 (bs.length / 4) bs).map leNat

/-- The stop set at an address (12, "Stop set"): a count beyond its range, a length beyond 16 or a non-zero reserved or
unused field makes it malformed. -/
def parseStops (bs : List Byte) : Option (List Nat × List (List Nat)) :=
  let b := fun i => (listGet 0 bs i).toNat
  let w := fun i => leNat ((bs.drop i).take 4)
  let nt := b 0
  let ns := b 1
  let toks := (List.range 32).map fun i => w (4 + 4 * i)
  let lens := (List.range ns).map fun q => w (132 + 68 * q)
  if 32 < nt || 8 < ns || b 2 != 0 || b 3 != 0 || (toks.drop nt).any (· != 0) || lens.any (fun l => l = 0 || 16 < l) then none
  else some (toks.take nt, (List.range ns).map fun q => (List.range (listGet 0 lens q)).map fun i => w (136 + 68 * q + 4 * i))

/-- The stop set of a `SUBMIT`: its tokens and its sequences, none for a malformed one. -/
abbrev Stops := Option (List Nat × List (List Nat))

/-- Lowest free request-table entry. -/
def State.freeEntry (s : State) : Option Nat :=
  if 16384 ≤ s.serving.requests.length then none
  else (List.range 16384).find? fun e => !s.serving.requests.any fun r => r.entry = e

/-- The live request of a context with a tag. -/
def State.tagged (s : State) (p tag : Nat) : Option Request :=
  s.serving.requests.find? fun r => r.platform = p && r.tag = tag && r.ended.isNone

/-- A prefix of a function. -/
def State.prefixOf (s : State) (fn handle : Nat) : Option PrefixEnt :=
  s.serving.prefixes.find? fun x => x.fn = fn && x.handle = handle && !x.removed

/-- A request that nothing else keeps out could never be held (R422). -/
def State.neverFits (s : State) (sp : ServePlan) (r : Request) : Bool :=
  let ly := r.layers sp
  let n := slotCount ly.1 (s.posT sp) r.largest + slotCount ly.2 (s.posS sp) r.largest
  s.odv Od.KV_POOL_PAGES < n || s.odv Od.SERVE_FW_BYTES < fixedBytes + fwNeed n r.maxNew r.depth

/-- The request that a `SUBMIT` describes. -/
def newRequest (p fn entry seq born : Nat) (b : Nat) (prompt : List Nat) (stops : List Nat × List (List Nat)) : Request :=
  { entry := entry, state := 1, greedy := bitOf b 8, includeStop := bitOf b 9, lossy := false, depth := rqDepth b, fn := fn,
    platform := p, tag := rqTag b, seed := bitsOf b 128 64, pfx := rqPrefix b, tau := bitsOf b 32 32, len := 0, kvT := 0,
    kvS := 0, maxNew := rqMaxNew b, delivered := 0, adapterT := rqAdT b, adapterS := rqAdS b, genT := 0, genS := 0,
    target := rqTarget b, outQueue := rqQueue b, admitRound := 0, outAddr := rqOut b, prompt := prompt, log := [],
    stopTokens := stops.1, stopSeqs := stops.2, seq := seq, born := born, pages := [], slots := [], fw := 0, waited := 0,
    away := false, ended := none, failed := false, resumed := false, summary := none }

/-- `SUBMIT` (R404, R405, R422, R434). -/
def State.applySubmit (s : State) (sp : ServePlan) (rec : ServeRecord) : State :=
  let p := rec.platform
  let b := rec.body
  let fn := (s.plat p).fn
  let mine := s.serving.requests.filter fun r => r.platform = p
  let pre := if rqPrefix b = 0 then none else s.prefixOf fn (rqPrefix b)
  let head := match pre with
    | some x => x.tokens
    | none => []
  if (s.tagged p (rqTag b)).isSome then s.decide rec svTagInUse
  else match s.freeEntry with
    | none => s.decide rec svTableFull
    | some e =>
      if s.odv Od.SERVE_REQ_PER_CONTEXT ≤ mine.length then s.decide rec svTableFull
      else if s.odv Od.SERVE_CTX_MAX < head.length + rqLen b + rqMaxNew b + rqDepth b then s.decide rec svTooLong
      else if rqPrefix b != 0 && pre.isNone then s.decide rec svPrefixUnknown
      else match s.currentGen false (rqAdT b), s.currentGen true (rqAdS b) with
        | some gT, some gS =>
          let stale := match pre with
            | some x => !(x.adapterT = rqAdT b && x.adapterS = rqAdS b && x.genT = gT && x.genS = gS)
            | none => false
          if stale then s.decide rec svPrefixStale
          else
            let t := s.readWords p (rqAddr b) (4 * rqLen b)
            let u : State × List Byte := if rqStop b = 0 then (t.1, []) else t.1.readWords p (rqStop b) 676
            let st : Stops := if rqStop b = 0 then some ([], []) else parseStops u.2
            let s := u.1
            match st with
            | none => s.decide rec svBadField
            | some stops =>
              let r := newRequest p fn e s.serving.seq s.serving.round b (head ++ wordsOf t.2) stops
              let alone := { r with genT := gT, genS := gS }
              if s.neverFits sp r then s.decide rec svTooLong
              else if r.target != 0 && !s.meets (s.load' sp [alone] 0) r.target then s.decide rec svTarget
              else
                let v := s.serving
                let s := { s with serving := { v with requests := v.requests ++ [r], seq := v.seq + 1 } }
                (s.writeEntry r).decide rec 0
        | _, _ => s.decide rec svAdapterUnknown

/-- A request ends in this boundary with a reason; a completion is written. -/
def State.endRequest (s : State) (r : Request) (reason : Nat) : State :=
  (s.setRequest { r with ended := some reason }).serveRecord r reason

/-- `CANCEL` (R427). -/
def State.applyCancel (s : State) (rec : ServeRecord) : State :=
  match s.tagged rec.platform (rqTag rec.body) with
  | none => s.decide rec svUnknownTag
  | some r => ((s.endRequest r 4).count Od.SERVE_CANCELLED 1).decide rec 0

/-- Bytes of a summary of `len` positions of one model: F8 pages unchanged, B16 pages as F8 but for the last 256 positions
(R430). -/
def summaryBytes (fmt w layers len shared : Nat) : Nat :=
  let n := len - shared
  if fmt = 0 then layers * (ceilDiv len (pagePos fmt w) - shared / pagePos fmt w) * (65536 + 2048)
  else
    let b16 := Nat.min 256 n
    let old := n - b16
    layers * (b16 * 4 * w + old * 2 * w + old * (w / 32) + ceilDiv old 32 * w)

/-- The positions that a request's prefix keeps in shared whole pages of a model. -/
def State.sharedPos (s : State) (r : Request) (pos : Nat) : Nat :=
  match s.heldPrefix r with
  | some x => x.tokens.length / pos * pos
  | none => 0

/-- Size of a request's summary, and whether it is lossy: some position older than the last 256 of a B16 model. -/
def State.summarySize (s : State) (sp : ServePlan) (r : Request) : Nat × Bool :=
  let fT := s.odv Od.KV_FMT_TEACHER
  let fS := s.odv Od.KV_FMT_STUDENT
  let shT := s.sharedPos r (s.posT sp)
  let shS := s.sharedPos r (s.posS sp)
  let n := (if r.depth = 0 then 0 else summaryBytes fT sp.widthT sp.layersT r.kvT shT) +
    summaryBytes fS sp.widthS sp.layersS r.kvS shS + 4 * r.log.length
  (n, (r.depth != 0 && fT = 1 && 256 < r.kvT - shT) || (fS = 1 && 256 < r.kvS - shS))

/-- `PAUSE` (R428, R429). -/
def State.applyPause (s : State) (sp : ServePlan) (rec : ServeRecord) : State :=
  match s.tagged rec.platform (rqTag rec.body) with
  | none => s.decide rec svUnknownTag
  | some r =>
    if r.state = 4 || r.state = 5 then s.decide rec 0
    else if r.state = 1 then ((s.setRequest { r with state := 5 }).serveRecord r 0x10).decide rec 0
    else
      let z := s.summarySize sp r
      let used := s.serving.requests.filterMap fun x => x.summary.map fun y => (y.1, y.2.1)
      match (if s.odv Od.SUMMARY_SIZE = 0 then none else
          place (s.odv Od.SUMMARY_BASE) (s.odv Od.SUMMARY_BASE + s.odv Od.SUMMARY_SIZE) z.1 used) with
      | none => s.decide rec svSummaryFull
      | some a => (s.setRequest { r with state := 4, summary := some (a, z.1, z.2) }).decide rec 0

/-- `RESUME` (R431). -/
def State.applyResume (s : State) (rec : ServeRecord) : State :=
  match s.tagged rec.platform (rqTag rec.body) with
  | none => s.decide rec svUnknownTag
  | some r =>
    if r.state != 5 then s.decide rec svNotPaused
    else
      let v := s.serving
      let s := { s with serving := { v with seq := v.seq + 1 } }
      (s.setRequest { r with state := 1, seq := v.seq, born := v.round, resumed := true }).decide rec 0

/-- `PREFIX_CREATE` (R432); prefixes held are those that have their handle. -/
def State.applyPrefixCreate (s : State) (rec : ServeRecord) : State :=
  let p := rec.platform
  let b := rec.body
  let fn := (s.plat p).fn
  if (s.prefixOf fn (rqPrefix b)).isSome then s.decide rec svPrefixExists
  else if s.odv Od.PREFIX_MAX ≤ (s.serving.prefixes.filter fun x => !x.removed).length then s.decide rec svTableFull
  else match s.currentGen false (rqAdT b), s.currentGen true (rqAdS b) with
    | some gT, some gS =>
      let t := s.readWords p (rqAddr b) (4 * rqLen b)
      let s := t.1
      let v := s.serving
      let x : PrefixEnt := {
        platform := p
        fn := fn
        handle := rqPrefix b
        queue := rqQueue b
        seq := v.seq
        tokens := wordsOf t.2
        kv := 0
        admitted := false
        ready := false
        removed := false
        adapterT := rqAdT b
        adapterS := rqAdS b
        genT := gT
        genS := gS
        pages := []
        slots := []
        waited := 0 }
      { s with serving := { v with prefixes := v.prefixes ++ [x], seq := v.seq + 1 } }.decide rec 0
    | _, _ => s.decide rec svAdapterUnknown

/-- `PREFIX_RELEASE` (R435). -/
def State.applyPrefixRelease (s : State) (rec : ServeRecord) : State :=
  match s.prefixOf (s.plat rec.platform).fn (rqPrefix rec.body) with
  | none => s.decide rec svPrefixUnknown
  | some x =>
    { s with serving := { s.serving with prefixes := s.serving.prefixes.map fun (y : PrefixEnt) => if y.seq = x.seq then { y with removed := true } else y } }.decide rec 0

/-- `ADAPTER_PUBLISH` (R436); its image is read once (R406). -/
def State.applyPublish (s : State) (rec : ServeRecord) : State :=
  let b := rec.body
  let s := (s.readWords rec.platform (rqAddr b) (rqLen b)).1
  let stu := rqAdT b = 0
  let id := if stu then rqAdS b else rqAdT b
  let v := s.serving
  let key := (if stu then 1024 else 0) + id
  let n := tabGet 0 v.lastGen key + 1
  let g : AdapterGen := {
    student := stu
    id := id
    gen := n
    addr := rqAddr b
    bytes := rqLen b
    queue := rqQueue b
    platform := rec.platform
    current := true }
  let gens := v.gens.map fun (x : AdapterGen) => if x.student = stu && x.id = id then { x with current := false } else x
  { s with serving := { v with gens := gens ++ [g], lastGen := tabSet v.lastGen key n } }.decide rec 0

/-- `ADAPTER_REMOVE` (R439). -/
def State.applyRemove (s : State) (rec : ServeRecord) : State :=
  let b := rec.body
  let stu := rqAdT b = 0
  let id := if stu then rqAdS b else rqAdT b
  let v := s.serving
  if v.gens.any fun x => x.student = stu && x.id = id && x.current then
    { s with serving := { v with gens := v.gens.map fun (x : AdapterGen) =>
        if x.student = stu && x.id = id then { x with current := false } else x } }.decide rec 0
  else s.decide rec svAdapterUnknown

/-- One request record applied at a boundary; one whose descriptor a context's reset has discarded is not, and one
whose queue alone was reset completes (R489). -/
def State.applyRecord (s : State) (sp : ServePlan) (rec : ServeRecord) : State :=
  if rec.queue < 4096 && !((s.queue rec.queue).held.any fun h => h.wait && h.index = rec.n) then s
  else match rqOp rec.body with
    | 1 => s.applySubmit sp rec
    | 2 => s.applyCancel rec
    | 3 => s.applyPause sp rec
    | 4 => s.applyResume rec
    | 5 => s.applyPrefixCreate rec
    | 6 => s.applyPrefixRelease rec
    | 7 => s.applyPublish rec
    | _ => s.applyRemove rec

/-! ### Summaries (R429 to R431) -/

/-- Layers of a request's page table: (teacher?, layer, its slots). -/
def State.layerSlots (s : State) (sp : ServePlan) (r : Request) : List (Bool × List Nat) :=
  let ly := r.layers sp
  let perT := ceilDiv r.largest (s.posT sp)
  let perS := ceilDiv r.largest (s.posS sp)
  (List.range ly.1).map (fun i => (true, (r.slots.drop (perT * i)).take perT)) ++
  (List.range ly.2).map fun i => (false, (r.slots.drop (ly.1 * perT + perS * i)).take perS)

/-- What a model's KV of one layer is: format, width, positions per page, KV length, first position of its own. -/
structure LayerGeo where
  fmt : Nat
  w : Nat
  pos : Nat
  len : Nat
  sh : Nat
  deriving DecidableEq, Repr

def State.layerGeo (s : State) (sp : ServePlan) (r : Request) (teacher : Bool) : LayerGeo :=
  let f := s.odv (if teacher then Od.KV_FMT_TEACHER else Od.KV_FMT_STUDENT)
  let w := if teacher then sp.widthT else sp.widthS
  let pos := pagePos f w
  { fmt := f, w := w, pos := pos, len := if teacher then r.kvT else r.kvS, sh := s.sharedPos r pos }

/-- Address of K (half 0) or V (half 1) of a position in a B16 page. -/
def State.b16Addr (s : State) (g : LayerGeo) (slots : List Nat) (half q : Nat) : Nat :=
  s.pageAddr (listGet 0 slots (q / g.pos)) + 32768 * half + 2 * g.w * (q % g.pos)

def State.b16Row (s : State) (g : LayerGeo) (slots : List Nat) (half q : Nat) : List Num :=
  (List.range g.w).map fun i => fmtB16.dec (memNat s.mem (s.b16Addr g slots half q + 2 * i) 2)

/-- A block of values as F8 under its own scale (R123): the scale byte and the codes. -/
def f8Block (xs : List Num) : Byte × List Nat :=
  let m : ScaleMode := { blockCurrent := true, margin := 0, sigma := 0 }
  let r := convBlock 2 (m.of 2 xs) (xs.map fun x => (x, Rounding.rne))
  (r.1, r.2.map (·.bits))

/-- Old positions of one layer in F8: K codes and scales by position, then V codes by position and its scales by blocks of
32 positions. -/
def State.lossyOld (s : State) (g : LayerGeo) (slots : List Nat) (lo n : Nat) : List Byte :=
  let ks := (fromTo lo n).map (s.b16Row g slots 0)
  let vs := (fromTo lo n).map (s.b16Row g slots 1)
  let kb := ks.map fun row => (chunks 32 (g.w / 32) row).map f8Block
  let groups := chunks 32 (ceilDiv n 32) vs
  let vb := groups.map fun rows => (List.range g.w).map fun i => f8Block (rows.map fun row => listGet .nan row i)
  let kCodes := kb.flatMap fun row => row.flatMap fun b => b.2.map (BitVec.ofNat 8)
  let kScales := kb.flatMap fun row => row.map (·.1)
  let vCodes := (groups.zip vb).flatMap fun q => (List.range q.1.length).flatMap fun j => q.2.map fun b => BitVec.ofNat 8 (listGet 0 b.2 j)
  let vScales := vb.flatMap fun row => row.map (·.1)
  kCodes ++ kScales ++ vCodes ++ vScales

/-- The summary of one layer. -/
def State.layerSummary (s : State) (g : LayerGeo) (slots : List Nat) : List Byte :=
  if g.fmt = 0 then
    (((slots.take (ceilDiv g.len g.pos)).drop (g.sh / g.pos)).flatMap fun n => s.load (s.pageAddr n) 65536 ++ s.load (s.scaleAddr n) 2048)
  else
    let n := g.len - g.sh
    let b16 := Nat.min 256 n
    let tail := fromTo (g.len - b16) b16
    s.lossyOld g slots g.sh (n - b16) ++
    tail.flatMap fun q => s.load (s.b16Addr g slots 0 q) (2 * g.w) ++ s.load (s.b16Addr g slots 1 q) (2 * g.w)

/-- Bytes of one layer's summary. -/
def LayerGeo.bytes (g : LayerGeo) : Nat := summaryBytes g.fmt g.w 1 g.len g.sh

/-- One value of a B16 page from an F8 code and its scale byte, widened exactly. -/
def widenF8 (code scale : Byte) : Nat :=
  match scaleOf scale with
  | none => 0x7FC0
  | some e => (fmtB16.conv .rne ((decodeElem 2 code.toNat).value 2 e)).bits

/-- Reload one layer from its summary bytes. -/
def State.reloadLayer (s : State) (g : LayerGeo) (slots : List Nat) (bs : List Byte) : State :=
  if g.fmt = 0 then
    ((chunks 67584 (bs.length / 67584) bs).zip (slots.drop (g.sh / g.pos))).foldl (fun (s : State) q =>
      (s.put (s.pageAddr q.2) (q.1.take 65536)).put (s.scaleAddr q.2) (q.1.drop 65536)) s
  else
    let n := g.len - g.sh
    let b16 := Nat.min 256 n
    let old := n - b16
    let at' := fun i => listGet 0 bs i
    let kS := old * g.w
    let vC := kS + old * (g.w / 32)
    let vS := vC + old * g.w
    let base := vS + ceilDiv old 32 * g.w
    let s := (List.range old).foldl (fun (s : State) j =>
      let k := (List.range g.w).flatMap fun i => leBytes 2 (widenF8 (at' (j * g.w + i)) (at' (kS + j * (g.w / 32) + i / 32)))
      let v := (List.range g.w).flatMap fun i => leBytes 2 (widenF8 (at' (vC + j * g.w + i)) (at' (vS + j / 32 * g.w + i)))
      (s.put (s.b16Addr g slots 0 (g.sh + j)) k).put (s.b16Addr g slots 1 (g.sh + j)) v) s
    (List.range b16).foldl (fun (s : State) j =>
      let row := (bs.drop (base + 4 * g.w * j)).take (4 * g.w)
      (s.put (s.b16Addr g slots 0 (g.sh + old + j)) (row.take (2 * g.w))).put (s.b16Addr g slots 1 (g.sh + old + j)) (row.drop (2 * g.w))) s

/-- The serving plan of the `SERVICE` Platform. -/
def State.servePlan (s : State) : Option ServePlan :=
  match (s.plat (s.odv Od.SERVICE_PLATFORM)).image with
  | some img => img.serving
  | none => none

/-- SUMMARY_COMPLETE: the copy of a pausing request has ended; its pages return to the pool (R429, R430). -/
def execSummaryComplete (e : Nat) (s : State) : Out :=
  within (e < 16384) "request" <|
    match s.serving.requests.find? fun r => r.entry = e && r.state = 4 && r.ended.isNone, s.servePlan with
    | some r, some sp =>
      match r.summary with
      | none => s
      | some (a, _, lossy) =>
        match (r.pages.flatMap fun n => badIn s.eccBad (s.pageAddr n) 65536 ++ badIn s.eccBad (s.scaleAddr n) 2048) with
        | w :: _ =>
          let u := s.uncorrected w
          (u.1.capture u.2).setRequest { r with failed := true, state := 3, summary := none }
        | [] =>
          let bs := (s.layerSlots sp r).flatMap fun q => s.layerSummary (s.layerGeo sp r q.1) q.2
          let s := s.put a (bs ++ r.log.flatMap (leBytes 4))
          let r' := { r with state := 5, pages := [], slots := [], fw := 0 }
          let s := if lossy then s.count Od.SERVE_LOSSY_SUMMARIES 1 else s
          let s := (s.setRequest r').writeEntry r'
          if r.away then s else s.serveRecord r' 0x10
    | _, _ => s

/-- A resumed request's pages reloaded. -/
def State.reload (s : State) (sp : ServePlan) (r : Request) (a : Nat) : State :=
  ((s.layerSlots sp r).foldl (fun (acc : State × Nat) q =>
    let g := s.layerGeo sp r q.1
    let n := g.bytes
    (acc.1.reloadLayer g q.2 (acc.1.load acc.2 n), acc.2 + n)) (s, a)).1

/-! ### Releases (step 5 of R401) -/

/-- Ended requests leave the table with their pages, summaries and pins; one whose context is away stays until it is
heard. -/
def State.releaseEnded (s : State) : State :=
  let gone := s.serving.requests.filter fun r => r.ended.isSome && !r.away
  let s := gone.foldl (fun (s : State) r => s.put (s.entryAddr r.entry) (List.replicate 256 0)) s
  { s with serving := { s.serving with requests := s.serving.requests.filter fun r => r.ended.isNone || r.away } }

/-- Pages of released prefixes return when no request holds them (R435). -/
def State.releasePrefixes (s : State) : State :=
  { s with serving := { s.serving with prefixes := s.serving.prefixes.filter fun x => !x.removed || s.prefixHeld x } }

/-- Generations that are neither current nor pinned are freed and reported (R438). -/
def State.freeGens (s : State) : State :=
  let v := s.serving
  let pins := (v.requests.filter fun r => r.genT != 0 || r.genS != 0).flatMap (·.pins) ++
    (v.prefixes.filter fun x => !x.removed).flatMap (·.pins)
  let dead := v.gens.filter fun g => !g.current && !pins.contains (g.student, g.id, g.gen)
  let s := { s with serving := { v with gens := v.gens.filter fun g => !dead.contains g } }
  dead.foldl (fun (s : State) g =>
    s.pushRecord ((s.plat g.platform).queueBase + g.queue) g.platform
      { HeldRecord.plain 3 0x13 0 0 g.gen with model := if g.student then 1 else 0, adapter := g.id }) s

/-! ### Admission (R419 to R421, R433, R459) -/

/-- The pages, table place and pins with which a request may be admitted now; `none` where it cannot be. The flag tells
that the round-time condition alone held it back. -/
structure Admit where
  own : List Nat
  slots : List Nat
  fw : Nat
  genT : Nat
  genS : Nat
  deriving DecidableEq, Repr

/-- Page-table slots of a request: the prefix's whole pages first in each layer, its own after them. -/
def State.buildSlots (s : State) (sp : ServePlan) (r : Request) (pre : Option PrefixEnt) (free : List Nat) : List Nat × List Nat :=
  let ly := r.layers sp
  let row := fun (acc : List Nat × List Nat) (per pos preBase : Nat) =>
    -- (slots, own pages) so far
    let sh : List Nat := match pre with
      | some x => (x.slots.drop preBase).take (x.tokens.length / pos)
      | none => []
    let need := per - sh.length
    let own := (free.drop acc.2.length).take need
    (acc.1 ++ sh ++ own, acc.2 ++ own)
  let perT := ceilDiv r.largest (s.posT sp)
  let perS := ceilDiv r.largest (s.posS sp)
  let pT := match pre with
    | some x => ceilDiv x.tokens.length (s.posT sp)
    | none => 0
  let pS := match pre with
    | some x => ceilDiv x.tokens.length (s.posS sp)
    | none => 0
  let t := (List.range ly.1).foldl (fun acc i => row acc perT (s.posT sp) (pT * i)) ([], [])
  (List.range ly.2).foldl (fun acc i => row acc perS (s.posS sp) (sp.layersT * pT + pS * i)) t

def State.distinctGens (s : State) (student : Bool) (more : List (Bool × Nat × Nat)) : Nat :=
  let pins := (s.serving.requests.filter fun r => r.genT != 0 || r.genS != 0).flatMap (·.pins) ++ more
  (dedup ((pins.filter fun x => x.1 = student).map fun x => x.2.1 * 2 ^ 32 + x.2.2)).length

/-- The prefix that a queued request holds or names, when it is ready. -/
def State.readyPrefix (s : State) (r : Request) : Option PrefixEnt :=
  if r.pfx = 0 then none
  else (match r.held with
    | some _ => s.heldPrefix r
    | none => s.prefixOf r.fn r.pfx).filter (·.ready)

/-- R419 without the round-time condition. -/
def State.roomFor (s : State) (sp : ServePlan) (r : Request) : Option Admit :=
  let pre := s.readyPrefix r
  let resumed := r.genT != 0 || r.genS != 0 || r.summary.isSome
  let gT := if resumed then some r.genT else s.currentGen false r.adapterT
  let gS := if resumed then some r.genS else s.currentGen true r.adapterS
  if r.pfx != 0 && pre.isNone then none
  else match gT, gS with
    | some gT, some gS =>
      let x := s.buildSlots sp r pre s.freePages
      let ly := r.layers sp
      let want := slotCount ly.1 (s.posT sp) r.largest + slotCount ly.2 (s.posS sp) r.largest
      let pins := { r with genT := gT, genS := gS }.pins
      if x.1.length < want || s.odv Od.ADAPTER_GENS_MAX < s.distinctGens false pins ||
          s.odv Od.ADAPTER_GENS_MAX < s.distinctGens true pins then none
      else (s.fwPlace (fwNeed want r.maxNew r.depth)).map fun fw =>
        { own := x.2, slots := x.1, fw := fw, genT := gT, genS := gS : Admit }
    | _, _ => none

/-- R420. -/
def State.timeFor (s : State) (sp : ServePlan) (r : Request) (a : Admit) : Bool :=
  let rs := s.serving.active ++ [{ r with genT := a.genT, genS := a.genS }]
  let t := leastTarget rs
  t = 0 || s.meets (s.load' sp rs 0) t

/-- The partial last page of each layer of a prefix is copied into the request's own page (R433). -/
def State.copyPartial (s : State) (sp : ServePlan) (r : Request) (pre : PrefixEnt) : State :=
  let ly := r.layers sp
  let copy := fun (s : State) (pos src dst : Nat) =>
    if pre.tokens.length % pos = 0 then s
    else
      let a := listGet 0 pre.slots src
      let b := listGet 0 r.slots dst
      (s.put (s.pageAddr b) (s.load (s.pageAddr a) 65536)).put (s.scaleAddr b) (s.load (s.scaleAddr a) 2048)
  let n := pre.tokens.length
  let pT := s.posT sp
  let pS := s.posS sp
  let s := (List.range ly.1).foldl (fun (s : State) i =>
    copy s pT (ceilDiv n pT * i + n / pT) (ceilDiv r.largest pT * i + n / pT)) s
  (List.range ly.2).foldl (fun (s : State) i =>
    copy s pS (sp.layersT * ceilDiv n pT + ceilDiv n pS * i + n / pS) (ly.1 * ceilDiv r.largest pT + ceilDiv r.largest pS * i + n / pS)) s

/-- A request admitted (R411, R426, R431, R433, R437). -/
def State.takeIn (s : State) (sp : ServePlan) (r : Request) (a : Admit) : State :=
  let pre := s.readyPrefix r
  let again := r.kvS != 0 || r.len != 0
  let got := if again then r.kvS else match pre with
    | some x => x.tokens.length
    | none => 0
  let r1 := { r with
    pages := a.own
    slots := a.slots
    fw := a.fw
    genT := a.genT
    genS := a.genS
    held := pre.map (·.seq)
    chunk := s.odv Od.SERVE_CHUNK_TOKENS
    admitRound := s.serving.round
    waited := 0
    resumed := false
    kvS := got
    kvT := if r.depth = 0 then 0 else if again then r.kvT else got
    state := if again && r.len != 0 then 3 else if r.filled ≤ got + 1 then 3 else 2
    len := if again then r.len else if r.filled ≤ got + 1 then r.filled else 0 }
  let s := s.count Od.SERVE_ADMITTED 1
  let s := match pre, again with
    | some x, false => s.copyPartial sp r1 x
    | _, _ => s
  match r.summary with
  | none =>
    let s := (s.setRequest r1).writeEntry r1
    let back : Bool := if r.log.isEmpty then r.resumed else r1.state = 3
    if back then s.serveRecord r1 0x11 else s
  | some (addr, _, lossy) =>
    let r2 := { r1 with lossy := r1.lossy || lossy, summary := none }
    let s := (s.reload sp r1 addr).setRequest r2
    (s.writeEntry r2).serveRecord r2 0x11

/-- The oldest queued request of a context. -/
def oldestOf (rs : List Request) (p : Nat) : Option Request :=
  (rs.filter fun r => r.platform = p).foldl (fun (b : Option Request) r => match b with
    | none => some r
    | some x => if r.seq < x.seq then some r else b) none

/-- Positions reserved by live requests of a share class. -/
def State.sharePositions (s : State) (q : Nat) : Nat :=
  ((s.serving.requests.filter fun r => !r.slots.isEmpty && (s.plat r.platform).share = q).map Request.largest).foldl (· + ·) 0

/-- The admission order of R459 between two contexts' oldest requests. -/
def State.before (s : State) (a b : Request) : Bool :=
  let x := s.plat a.platform
  let y := s.plat b.platform
  let wx := s.odv (Od.SHARE_WEIGHT + x.share)
  let wy := s.odv (Od.SHARE_WEIGHT + y.share)
  let px := s.sharePositions x.share * wy
  let py := s.sharePositions y.share * wx
  if x.lat != y.lat then y.lat < x.lat
  else if px != py then px < py
  else if x.share != y.share then x.share < y.share
  else if a.born != b.born then a.born < b.born
  else a.platform < b.platform

/-- Step 6 (R419 to R421, R459): contexts in `out` are out of consideration. Answers whether R420 held a request back. -/
def State.admitAll (s : State) (sp : ServePlan) (out : List Nat) (held : Bool) : Nat → State × Bool
  | 0 => (s, held)
  | f + 1 =>
    let queued := s.serving.requests.filter fun r => r.state = 1 && !r.away && r.ended.isNone && !out.contains r.platform
    let heads := (dedup (queued.map (·.platform))).filterMap (oldestOf queued)
    match heads with
    | [] => (s, held)
    | h :: rest =>
      let r := rest.foldl (fun a b => if s.before b a then b else a) h
      if r.pfx != 0 && r.held.isNone && (s.prefixOf r.fn r.pfx).isNone then (s.endRequest r svPrefixUnknown).admitAll sp out held f
      else if r.summary.isNone && (s.currentGen false r.adapterT).isNone || r.summary.isNone && (s.currentGen true r.adapterS).isNone then
        (s.endRequest r svAdapterUnknown).admitAll sp out held f
      else match s.roomFor sp r with
        | none => s.admitAll sp (r.platform :: out) held f
        | some a =>
          if s.timeFor sp r a then (s.takeIn sp r a).admitAll sp out held f
          else s.admitAll sp (r.platform :: out) true f

/-- Prefixes take their pages as they become free, in order of creation. -/
def State.admitPrefixes (s : State) (sp : ServePlan) : State :=
  (s.serving.prefixes.filter fun x => !x.admitted && (!x.removed || s.prefixHeld x)).foldl (fun (s : State) x =>
    let n := slotCount sp.layersT (s.posT sp) x.tokens.length + slotCount sp.layersS (s.posS sp) x.tokens.length
    let own := s.freePages.take n
    if own.length < n then s
    else { s with serving := { s.serving with prefixes := s.serving.prefixes.map fun (y : PrefixEnt) =>
      if y.seq = x.seq then { y with admitted := true, pages := own, slots := own, chunk := s.odv Od.SERVE_CHUNK_TOKENS } else y } }) s

/-! ### Chunks and the plan (steps 7 and 8; R399, R412, R413, R423 to R425) -/

/-- A prefill in progress: its order, the chunks it still needs, and its waiting rounds. -/
structure Filling where
  seq : Nat
  chunks : List PlanChunk
  waited : Nat
  deriving DecidableEq, Repr

/-- The chunks of `n` positions from `start`, in ascending order, the last one shorter (R423). -/
def cutChunks (pfx : Bool) (key size start n : Nat) : List PlanChunk :=
  (List.range (ceilDiv n size)).map fun i =>
    { pfx := pfx, key := key, start := start + size * i, n := Nat.min size (n - size * i) }

def State.fillings (s : State) : List Filling :=
  let rs := s.serving.requests.filterMap fun r =>
    if r.state = 2 && !r.away && r.ended.isNone then
      some { seq := r.seq, waited := r.waited, chunks := cutChunks false r.entry r.chunk r.kvS (r.filled - 1 - r.kvS) : Filling }
    else none
  let ps := s.serving.prefixes.filterMap fun x =>
    if x.admitted && !x.ready && (!x.removed || s.prefixHeld x) then
      some { seq := x.seq, waited := x.waited, chunks := cutChunks true x.seq x.chunk x.kv (x.tokens.length - x.kv) : Filling }
    else none
  (rs ++ ps).foldl (fun (l : List Filling) x => (l.filter fun y => y.seq ≤ x.seq) ++ x :: l.filter fun y => x.seq < y.seq) []

/-- The chunks picked so far, those forced among them, and whether a chunk has been turned away. -/
structure Picked where
  chunks : List PlanChunk
  forced : List PlanChunk
  full : Bool
  deriving DecidableEq, Repr

/-- Positions of the chunks picked, and one more chunk. -/
def Picked.positions (a : Picked) (c : PlanChunk) : Nat := (a.chunks.map (·.n)).foldl (· + ·) c.n

/-- The chunks of the next round, in queue order: they are added while the round's Tc stays within its Tm (R424); a prefill
that has waited too long and got none gets one (R425). -/
def State.pickChunks (s : State) (sp : ServePlan) (rs : List Request) (fs : List Filling) : Picked :=
  fs.foldl (fun (a : Picked) x =>
    let b := x.chunks.foldl (fun (b : Picked) c =>
      if b.full then b
      else if s.fits (s.load' sp rs (b.positions c)) then { b with chunks := b.chunks ++ [c] }
      else { b with full := true }) a
    if b.chunks.length = a.chunks.length && s.odv Od.SERVE_CHUNK_MAX_WAIT ≤ x.waited then
      { b with chunks := b.chunks ++ x.chunks.take 1, forced := b.forced ++ x.chunks.take 1 }
    else b) { chunks := [], forced := [], full := false }

/-- The rows of the next round: requests of one depth in the group of that depth, numbered in order of submission. -/
def State.planRows (s : State) (sp : ServePlan) : List PlanRow :=
  let act := s.serving.requests.filter fun r => r.state = 3 && !r.away && r.ended.isNone
  ((List.range sp.groups.length).zip sp.groups).flatMap fun q =>
    let mine := act.filter fun r => r.depth = q.2.depth
    ((List.range mine.length).zip mine).map fun m => { entry := m.2.entry, group := q.1, conv := m.1 }

/-- The words of the round plan in the Yard (DESIGN CHOICE, log entry 50): counts, then the rows and the chunks. The commands of a greedy
request carry T = 1.0 (R648). -/
def State.planWords (s : State) : List Nat :=
  let v := s.serving
  [v.plan.length, v.chunks.length, v.kmax] ++
  (v.plan.flatMap fun row => match v.requests.find? fun r => r.entry = row.entry with
    | none => []
    | some r => [r.entry, row.group, row.conv, r.depth, r.len, if r.kvS + 2 = r.len then 1 else 0, if r.greedy then 0x3F800000 else r.tau, (r.prompt ++ r.log).getLastD 0]) ++
  v.chunks.flatMap fun c => [if c.pfx then 1 else 0, c.key, c.start, c.n]

/-- Acceptance record of a conversation (05): its key and the position of its first drafted token. -/
def State.prepare (s : State) (p : Nat) (sp : ServePlan) (row : PlanRow) : State :=
  match s.serving.requests.find? fun r => r.entry = row.entry with
  | none => s
  | some r =>
    let g := sp.group row.group
    let a := yardAddr (s.groupDie p g row.conv) (g.reqOff + 256 * row.conv)
    let s := s.put a (leBytes 16 (fields [(0, 64, r.seed), (64, 44, r.len)]))
    s.fillSlots sp r (if r.depth = 0 then 0 else r.len + r.depth) (r.len + (Nat.max 1 (if r.depth = 0 then s.serving.kmax else r.depth)) - 1)

/-- Steps 7 and 8: the next round is planned, and its counter signalled when it has work. -/
def State.planRound (s : State) (p : Nat) (sp : ServePlan) : State :=
  let rows := s.planRows sp
  let act := s.serving.active
  let c := s.pickChunks sp (act.filter fun r => r.state = 3) s.fillings
  let v := s.serving
  let ran := fun (pfx : Bool) (key : Nat) => c.chunks.any fun x => x.pfx = pfx && x.key = key
  let v := { v with
    plan := rows
    chunks := c.chunks
    kmax := kOf (act.filter fun r => r.state = 3)
    requests := v.requests.map fun r => if r.state = 2 then { r with waited := if ran false r.entry then 0 else r.waited + 1 } else r
    prefixes := v.prefixes.map fun x => if x.admitted && !x.ready then { x with waited := if ran true x.seq then 0 else x.waited + 1 } else x }
  let s := ({ s with serving := v }.count Od.SERVE_CHUNKS c.chunks.length).count Od.SERVE_FORCED_CHUNKS c.forced.length
  let s := rows.foldl (fun (s : State) row => s.prepare p sp row) s
  let s := c.chunks.foldl (fun (s : State) x => match s.serving.requests.find? fun r => !x.pfx && r.entry = x.key with
    | none => s
    | some r => s.fillSlots sp r (if r.depth = 0 then 0 else x.start + x.n) (x.start + x.n)) s
  if rows.isEmpty && c.chunks.isEmpty then s
  else
    let s := s.put (yardAddr (s.logicalDie p sp.planDie) sp.planOff) (s.planWords.flatMap (leBytes 4))
    match s.mapCtr p sp.roundCore sp.roundCtr with
    | some (k, n) => s.signal k n 1
    | none => s

/-! ### Contexts that stop, suspend or leave (R440, R465) -/

/-- The request's context answers: armed, neither suspended nor stopped. -/
def State.contextUp (s : State) (p : Nat) : Bool :=
  let x := s.plat p
  x.st = 1 && !x.suspending && !x.epochStopped

/-- The `SERVICE` Platform performs boundaries: armed and not suspended (R465). A stop of its port's epoch halts no boundary
(R326). -/
def State.serviceUp (s : State) (p : Nat) : Bool := (s.plat p).st = 1 && !(s.plat p).suspending

/-- Requests of contexts that were reset or have faulted end without a word; those of suspended or stopped contexts leave
the rounds, and rejoin with their tokens written again and a fresh completion. -/
def State.followContexts (s : State) : State :=
  s.serving.requests.foldl (fun (s : State) r =>
    if !(s.plat r.platform).held then s.setRequest { r with ended := some 6, away := false, delivered := r.log.length }
    else if !s.contextUp r.platform then s.setRequest { r with away := true }
    else if r.away then
      let r := { r with away := false, delivered := 0 }
      let s := (s.setRequest r).deliver r
      match s.serving.requests.find? fun x => x.entry = r.entry with
      | some r => s.serveRecord r (match r.ended with
          | some e => e
          | none => if r.state = 5 then 0x10 else 0)
      | none => s
    else s) s

/-- Uncorrected errors in the request table, a page table or a token log (R416). -/
def State.tableErrors (s : State) : State :=
  let live := s.serving.requests
  match live.flatMap fun r => badIn s.eccBad (s.entryAddr r.entry) 256 with
  | w :: _ =>
    let u := s.uncorrected w
    let s := u.1.capture u.2
    (s.plats.filter fun e => e.2.held).foldl (fun (s : State) e => s.faultPlatform e.1 causeHbm 0 0 0) s
  | [] =>
    live.foldl (fun (s : State) r =>
      match (if r.fw = 0 then [] else badIn s.eccBad r.fw (fwNeed r.slots.length r.maxNew r.depth)) with
      | w :: _ => let u := s.uncorrected w; (u.1.capture u.2).setRequest { r with failed := true }
      | [] => s) s

/-! ### The boundary (R401) -/

/-- Step 3: tokens and completions of the requests that gained tokens or ended. -/
def State.deliverAll (s : State) (old : List Request) : State :=
  s.serving.requests.foldl (fun (s : State) r =>
    let was := (old.find? fun x => x.entry = r.entry).map fun x => (x.log.length, x.ended)
    if r.away || was = some (r.log.length, r.ended) || r.ended = some 6 && !r.failed then s
    else
      let s := s.deliver r
      match s.serving.requests.find? fun x => x.entry = r.entry with
      | none => s
      | some r => s.serveRecord r (match r.ended with
          | some e => e
          | none => 0)) s

/-- The counts of the serving entries. -/
def State.serveCounts (s : State) : State :=
  let v := s.serving
  let live := v.requests.filter fun r => r.ended.isNone
  let shared := (v.prefixes.flatMap (·.pages)).length
  let gens := s.distinctGens false [] + 256 * s.distinctGens true []
  ((((s.setOd Od.SERVE_REQ_LIVE live.length).setOd Od.KV_PAGES_FREE s.freePages.length).setOd Od.KV_PAGES_SHARED shared).setOd
    Od.PREFIX_LIVE (v.prefixes.filter fun x => !x.removed).length).setOd Od.ADAPTER_GENS_LIVE gens

/-- A disarm of the `SERVICE` Platform waits for the boundary (R468): live requests end, and it is disarmed. -/
def State.serviceLeaves (s : State) (p : Nat) : State :=
  let s := s.serving.requests.foldl (fun (s : State) r =>
    if r.ended.isSome then s else if r.away then s.setRequest { r with ended := some 6 } else s.endRequest r 6) s
  let s := s.mapRequests fun r => { r with away := false }
  (s.releaseEnded.releasePrefixes.serveCounts).quiesce p

/-! ### Serving snapshots (R561, R562) -/

/-- Lists of numbers as bytes: a count and 8-byte words. -/
def putList (l : List Nat) : List Byte := leBytes 8 l.length ++ l.flatMap (leBytes 8)

def Request.save (r : Request) : List Nat :=
  let b := fun (x : Bool) => if x then 1 else 0
  [r.state, b r.greedy, b r.includeStop, b r.lossy, r.depth, r.fn, r.platform, r.tag, r.seed, r.pfx, r.tau, r.maxNew,
    r.delivered, r.adapterT, r.adapterS, r.genT, r.genS, r.target, r.outQueue, r.outAddr, r.entry,
    match r.held with
    | some q => q + 1
    | none => 0]

/-- The bytes of a serving snapshot: the round, requests, prefixes, adapter generations, queues and counters. -/
def State.serveBytes (s : State) : List Byte :=
  let v := s.serving
  let b := fun (x : Bool) => if x then 1 else 0
  let live := v.requests.filter fun r => r.ended.isNone
  let owners := dedup (live.map (·.platform))
  leBytes 8 live.length ++ (live.flatMap fun (r : Request) => putList r.save ++ putList r.prompt ++ putList r.log ++ putList r.stopTokens ++
    leBytes 8 r.stopSeqs.length ++ r.stopSeqs.flatMap putList) ++
  leBytes 8 v.prefixes.length ++ (v.prefixes.flatMap fun (x : PrefixEnt) => putList [x.platform, x.fn, x.handle, x.queue, x.adapterT, x.adapterS, x.genT, x.genS, x.seq, b x.removed] ++ putList x.tokens) ++
  leBytes 8 v.gens.length ++ (v.gens.flatMap fun (g : AdapterGen) => putList [if g.student then 1 else 0, g.id, g.gen, g.addr, g.bytes, g.queue, g.platform, if g.current then 1 else 0]) ++
  leBytes 8 owners.length ++ (owners.flatMap fun p =>
    let x := s.plat p
    putList ([p, x.epoch, if x.tainted then 1 else 0] ++ (fromTo x.queueBase x.queueCount).flatMap fun q => let u := s.queue q; [u.head, u.tail, u.cplTail, u.cplHead])) ++
  putList ((s.plat (s.odv Od.SERVICE_PLATFORM)).ctrMap.flatMap fun e => [e.1, s.ctr (e.2 / 48) (e.2 % 48)])

/-- A serving snapshot into the next slot, named by the round (DESIGN CHOICE, log entry 45); no round starts until it is written. -/
def State.serveSnapshot (s : State) : State :=
  if !s.ckpt.serveNow then s
  else
    let area := s.odv Od.DDR5_RESERVE_SIZE / 4
    let s := { s with ckpt := { s.ckpt with area := area, serveNow := false } }
    let aux := s.serveBytes
    if s.odv Od.DDR5_TIER_STATE != 1 || area < GiB || GiB < aux.length + 2 ^ 24 then s
    else
      let k := if s.ckpt.next then 1 else 0
      let w := s.serving.round
      let s := s.put (s.slotAux k) aux
      let s := s.put (s.slotManifest k) (s.manifest w mfNoBase true aux [])
      let slot : CkptSlot := { valid := true, w := w, serve := true, chain := 0 }
      let c := s.ckpt
      let c := if c.next then { c with b := slot } else { c with a := slot }
      ({ s with ckpt := { c with next := !c.next } }.setOd Od.CKPT_LAST_STEP w).count Od.CKPT_TAKEN 1

/-- Steps 1 to 5 of R401: verdicts and chunks, deliveries, the records received since the last boundary, releases. -/
def State.boundaryResults (s : State) (p : Nat) (sp : ServePlan) : State :=
  let v := s.serving
  let s := { s with serving := { v with records := [] } }.tableErrors
  let old := s.serving.requests
  let s := v.plan.foldl (fun (s : State) row => s.applyVerdict p sp row) s
  let s := v.chunks.foldl State.applyChunk s
  let s := (s.mapRequests fun r => if r.failed && r.ended.isNone then { r with ended := some 6 } else r).followContexts
  let s := s.deliverAll old
  let s := v.records.foldl (fun (s : State) r => s.applyRecord sp r) s
  s.releaseEnded.releasePrefixes.freeGens.serveSnapshot

/-- Steps 6 to 8 of R401: admissions, and the next round planned and written to the request table. -/
def State.boundaryPlan (s : State) (p : Nat) (sp : ServePlan) : State :=
  let a := (s.admitPrefixes sp).admitAll sp [] false (s.serving.requests.length + 1024)
  let s := if a.2 then a.1.count Od.SERVE_TIME_HOLDS 1 else a.1
  let s := s.releaseEnded.planRound p sp
  let s := s.serving.requests.foldl (fun (s : State) r => s.writeEntry r) s
  { s with serving := { s.serving with round := s.serving.round + 1 } }

/-- The round boundary (R401, R408, R417, R468, R561). It needs the serving Platform armed and running, and the results
of the round final. -/
def execRoundBoundary (roundUs : Nat) (s : State) : Out :=
  within (roundUs < 2 ^ 32) "time" <|
    let p := s.odv Od.SERVICE_PLATFORM
    match s.servePlan with
    | none => s
    | some sp =>
      if !s.serveMode || !s.serviceUp p || !s.roundDone p sp then s
      else
        let ran := !s.serving.plan.isEmpty || !s.serving.chunks.isEmpty
        let s := s.boundaryResults p sp
        if (s.plat p).disarming then s.serviceLeaves p
        else
          let s := s.boundaryPlan p sp
          (if ran then (s.count Od.SERVE_ROUNDS 1).countMax Od.SERVE_ROUND_MAX_US roundUs else s).serveCounts

/-! ### Restoring a serving snapshot (R562) -/

/-- Read a list of numbers and the bytes after it. -/
def getList (bs : List Byte) : List Nat × List Byte :=
  let n := leNat (bs.take 8)
  ((chunks 8 n ((bs.drop 8).take (8 * n))).map leNat, bs.drop (8 + 8 * n))

/-- Read `n` things. -/
def getMany {α : Type} (f : List Byte → α × List Byte) : Nat → List Byte → List α × List Byte
  | 0, bs => ([], bs)
  | n + 1, bs =>
    let x := f bs
    let r := getMany f n x.2
    (x.1 :: r.1, r.2)

def getCounted {α : Type} (f : List Byte → α × List Byte) (bs : List Byte) : List α × List Byte :=
  getMany f (leNat (bs.take 8)) (bs.drop 8)

/-- A live request restored: `QUEUED` with its lengths, to be prefilled over its prompt and committed tokens; a paused one
stays `PAUSED` without a summary. -/
def getRequest (seq : Nat) (bs : List Byte) : Request × List Byte :=
  let h := getList bs
  let p := getList h.2
  let l := getList p.2
  let t := getList l.2
  let q := getCounted getList t.2
  let g := fun i => listGet 0 h.1 i
  ({ entry := g 20, state := if g 0 = 5 then 5 else 1, greedy := g 1 = 1, includeStop := g 2 = 1, lossy := g 3 = 1, depth := g 4,
     fn := g 5, platform := g 6, tag := g 7, seed := g 8, pfx := g 9, tau := g 10, len := 0, kvT := 0, kvS := 0,
     maxNew := g 11, delivered := g 12, adapterT := g 13, adapterS := g 14, genT := g 15, genS := g 16, target := g 17,
     outQueue := g 18, admitRound := 0, outAddr := g 19, prompt := p.1, log := l.1, stopTokens := t.1, stopSeqs := q.1,
     seq := seq + g 20, held := if g 21 = 0 then none else some (seq + 16384 + (g 21 - 1)), born := 0, pages := [], slots := [], fw := 0, waited := 0, away := false, ended := none,
     failed := false, resumed := false, summary := none }, q.2)

def getPrefix (seq : Nat) (bs : List Byte) : PrefixEnt × List Byte :=
  let h := getList bs
  let t := getList h.2
  let g := fun i => listGet 0 h.1 i
  ({ platform := g 0, fn := g 1, handle := g 2, queue := g 3, seq := seq + 16384 + g 8, tokens := t.1, kv := 0,
     admitted := false, ready := false, removed := g 9 = 1, adapterT := g 4, adapterS := g 5, genT := g 6, genS := g 7,
     pages := [], slots := [], waited := 0 }, t.2)

def getGen (bs : List Byte) : AdapterGen × List Byte :=
  let h := getList bs
  let g := fun i => listGet 0 h.1 i
  ({ student := g 0 = 1, id := g 1, gen := g 2, addr := g 3, bytes := g 4, queue := g 5, platform := g 6, current := g 7 = 1 }, h.2)

/-- The queue indices, epochs and taints of the Platforms that own requests, and the serving Timetable's counters, whose held waits
are tested (R255, R274, R561). -/
def State.loadOwners (s : State) (bs : List Byte) : State :=
  let owners := getCounted getList bs
  let ctrs := getList owners.2
  let s := owners.1.foldl (fun (s : State) o =>
    let p := listGet 0 o 0
    let x := s.plat p
    let s := s.setPlat p { x with epoch := listGet 0 o 1, tainted := x.tainted || listGet 0 o 2 = 1 }
    (List.range x.queueCount).foldl (fun (s : State) j =>
      let u := s.queue (x.queueBase + j)
      let g := fun i => listGet 0 o (3 + 4 * j + i)
      s.setQueue (x.queueBase + j) { u with head := g 0, tail := g 1, cplTail := g 2, cplHead := g 3 }) s) s
  let sp := s.odv Od.SERVICE_PLATFORM
  (chunks 2 (ctrs.1.length / 2) ctrs.1).foldl (fun (s : State) e =>
    match tabFind (s.plat sp).ctrMap (listGet 0 e 0) with
    | some k => (s.setCtr (k / 48) (k % 48) (listGet 0 e 1)).settle (k / 48) (k % 48)
    | none => s) s

/-- Load the serving state of slot k. -/
def State.loadServing (s : State) (k : Nat) : State :=
  let bs := s.load (s.slotAux k) (mfAuxBytes (s.mfAt (s.slotManifest k)))
  let r := getCounted (getRequest s.serving.seq) bs
  let p := getCounted (getPrefix s.serving.seq) r.2
  let g := getCounted getGen p.2
  let last := g.1.foldl (fun (t : Tab Nat) x => tabMod 0 t ((if x.student then 1024 else 0) + x.id) (Nat.max x.gen)) []
  let s := { s with serving := { Serving.empty with
    requests := r.1, prefixes := p.1, gens := g.1, lastGen := last
    seq := p.1.foldl (fun n (x : PrefixEnt) => Nat.max n (x.seq + 1)) (s.serving.seq + 16384)
    round := bitsOf (s.mfAt (s.slotManifest k)) 32 64 } }
  s.loadOwners g.2

/-- The slot whose manifest names a serving snapshot of a round. -/
def State.serveSlot (s : State) (w : Nat) : Option Nat :=
  [0, 1, 3].find? fun k =>
    let h := s.mfAt (s.slotManifest k)
    bitsOf h 0 8 = 1 && bitsOf h 32 64 = w && bitOf h 17 && (k != 3 || s.ckpt.buddy.valid)

/-- A write of `CKPT_RESTORE` in Serve mode restores a serving snapshot (R562); its Platforms may already be re-armed
(DESIGN CHOICE, log entry 51). -/
def State.restoreServe (s : State) (w : Nat) : Wrote :=
  let s := { s with ckpt := { s.ckpt with area := s.odv Od.DDR5_RESERVE_SIZE / 4 } }
  match s.serveSlot w with
  | none => (stOk, (s.sticky 21).capture { cause := causeRestore })
  | some k =>
    let a := s.slotManifest k
    let h := s.mfAt a
    if bitsOf h 4032 64 = crc64 (s.load a 504) && bitsOf h 600 64 = crc64 (s.load (s.slotAux k) (mfAuxBytes h)) &&
        bitsOf h 8 8 = s.odv Od.STEPPING && (s.slotErrors k).isEmpty then (stOk, s.loadServing k)
    else (stOk, (s.sticky 21).capture { cause := causeRestore })

/-- A write of `CKPT_RESTORE` (R558, R562). -/
def State.restoreAny (s : State) (w : Nat) : Wrote :=
  if s.serveMode then s.restoreServe w else s.restoreCkpt w

def execCkptRestore (w : Nat) (s : State) : Out := within (w < 2 ^ 64) "value" <| (s.restoreAny w).2

end Sys2Proof.Machine
end

