-- ==== Sys2Proof/Machine/Power.lean ====
section
/-! DEFINITION. Start-up, control dies, resets and power states (02, "Control dies"; 17, R582 to R584; 18; R618). -/

namespace Sys2Proof.Machine

open Sys2Proof

/-! ### Firmware images (R582, R584) -/

/-- Bytes before an image's body: header, key, signature. -/
def fwHead : Nat := 128 + 32 + 7856

def fwField (bs : List Byte) (lo len : Nat) : Nat := bitsOf (leNat (bs.take 128)) lo len
def fwVersion (bs : List Byte) : Nat := fwField bs 32 32
def fwSvn (bs : List Byte) : Nat := fwField bs 64 16
def fwKey (bs : List Byte) : List Byte := (bs.drop 128).take 32

/-- An image passes the boot ROM's checks. -/
def fwGood (floor : Nat) (bs : List Byte) : Bool :=
  let body := bs.drop fwHead
  fwHead ≤ bs.length && fwField bs 0 32 = 0x46445242 && fwField bs 80 16 = 0 && fwField bs 384 640 = 0 &&
  fwField bs 96 32 ≤ 16769200 && body.length = fwField bs 96 32 && leNat (sha256 (fwKey bs)) = Config.romKeyHash.toNat &&
  leNat (sha256 body) = fwField bs 128 256 &&
  Config.signatureValid (BitVec.ofNat 256 (leNat (fwKey bs))) (bs.take 160) ((bs.drop 160).take 7856) && floor ≤ fwSvn bs

/-- The image in a flash device. -/
def State.flashImage (s : State) (d : Nat) : List Byte := tabGet (Config.factoryImage d) s.power.flash d

/-- The device whose image boots, if one passes: the higher security version, then the higher version, then A. -/
def State.bootImage (s : State) : Option Nat :=
  let floor := s.odv Od.FW_SVN_FLOOR
  let a := s.flashImage 0
  let b := s.flashImage 1
  match fwGood floor a, fwGood floor b with
  | true, false => some 0
  | false, true => some 1
  | false, false => none
  | true, true => if fwSvn a < fwSvn b || (fwSvn a = fwSvn b && fwVersion a < fwVersion b) then some 1 else some 0

/-! ### Nonces and staged changes at resets (R574, R576) -/

/-- A new `AUTH_NONCE`. -/
def State.redraw (s : State) : State :=
  { s with fresh := s.fresh + 1 }.setOd Od.AUTH_NONCE (Config.freeNonce s.fresh).toNat

/-! ### Classes of settings (R515, R608) -/

def keepOf (key : Nat) : OdKeep :=
  match odRow key with
  | some r => r.keep
  | none => .volatile

/-- Entries of some classes kept; the others return to their defaults. -/
def State.keepOd (s : State) (f : Nat → OdKeep → Bool) : State := { s with od := s.od.filter fun e => f e.1 (keepOf e.1) }

/-- Volatile entries of the management island, which Standby keeps. -/
def islandKeys : List Nat :=
  [Od.FIRMWARE_VERSION, Od.AUTH_NONCE, Od.DEBUG_UNLOCK, Od.FW_UPDATE_STATE, Od.FN_STATE, Od.STATS_PERIOD_INDEX, Od.STATS_SATURATED]

/-- A logical core's array maps kept and the rest of it at reset. -/
def CoreState.unloaded (c : CoreState) : CoreState :=
  { CoreState.empty with
    quarantined := c.quarantined
    arrays := (c.arrays.filter fun e => e.2.spareRows != 0 || e.2.spareCols != 0).map fun e => (e.1, { ArrayState.empty with
      spareRows := e.2.spareRows
      spareCols := e.2.spareCols
      status := fields [(8, 2, e.2.spareRows), (10, 2, e.2.spareCols)] }) }

/-- A logical core that loses power in Doze, which is no reset: its arrays' maps, their counts of tiles and their errors since the last
reset stay (R68, R84; DEDUCED, log entry 69). -/
def CoreState.dozed (c : CoreState) : CoreState :=
  { CoreState.empty with
    quarantined := c.quarantined
    arrays := c.arrays.map fun e => (e.1, { ArrayState.empty with
      cellErrors := e.2.cellErrors
      spareRows := e.2.spareRows
      spareCols := e.2.spareCols
      status := fields [(8, 2, e.2.spareRows), (10, 2, e.2.spareCols), (16, 16, bitsOf e.2.status 16 16)] }) }

def State.unloadCores (s : State) : State := s.mapCores CoreState.unloaded

/-- The ports' registers and links at reset; the PERST# pins stand as they are. -/
def State.resetHostPorts (s : State) : State :=
  let one := fun (p : Nat) => (p, { HostPort.empty with perst := (s.port p).perst, cxlOn := bitOf (s.odv Od.HP_CXL_ENABLE) p })
  { s with ports := [one 0, one 1] }

/-- Everything that the main rails keep alive, and every job and context, as after a reset. -/
def State.unload (s : State) : State :=
  { s.unloadCores.resetHostPorts with
    channels := []
    moves := []
    plats := []
    queues := []
    links := []
    msgIds := []
    loaded := none
    loading := none
    red := .empty
    job := .empty
    serving := .empty
    dies := [] }

/-- Islands parked and idle no longer, with their sensors' reports kept. -/
def State.freeIslands (s : State) : State :=
  { s with islands := s.islands.map fun e => (e.1, { e.2 with parked := false, cause := 0, idle := false }) }

/-- Memory of some kinds kept. -/
def State.keepMem (s : State) (f : Nat → Bool) : State :=
  { s with mem := s.mem.filter (fun (c : Host.Cell) => f c.1), eccBad := s.eccBad.filter f }

/-- Staged changes, sessions, staged values and kept responses are discarded, and a nonce is drawn (R521, R574, R576). -/
def State.dropSecurity (s : State) : State :=
  ({ s with security := { Security.empty with debugMax := s.security.debugMax }, fieldNet := .off }.setOd Od.FN_STATE 0).redraw

/-! ### The main rails -/

/-- Supplies that VAUX feeds: VAUX itself and the management island's regulator. -/
def Supply.onVaux (x : Supply) : Bool :=
  match x with
  | .rail n => n = 1
  | .regulator i => i / 4096 = 0xC

/-- Volatile entries return to their defaults but for the management island's own and the latched statistics (R608,
"Standby → Run"). -/
def State.standbyOd (s : State) : State := s.keepOd fun k c => c != .volatile || latched k || islandKeys.contains k

/-- The main rails go down: only the management island's state is kept (R598, R608). -/
def State.mainDown (s : State) : State :=
  let s := (s.unload.keepMem fun _ => false).standbyOd
  { s with
    ckpt := .empty
    islands := (s.islands.filter fun e => e.1 / 4096 = 0xC)
    power := { s.power with
      mainEn := false, vinGood := false, ready := false, doze := false, warm := false, throttle := 0, fast := 0, samples := 0
      low := s.power.low.filter Supply.onVaux } }

/-- `MAIN_EN` is asserted (step 5). -/
def State.mainUpStart (s : State) : State := { s with power := { s.power with mainEn := true, vinGood := false } }

/-! ### Control dies (R36 to R41) -/

/-- No control die becomes active (R40): the package is marked for replacement, and CD0's boot-ROM responder answers, or where its
management island does not, CD1's after 2 s. -/
def State.noControlDie (s : State) : State :=
  let s := (s.setOd Od.ACTIVE_CONTROL_DIE 0xFF).mainDown.markReplace
  let mute := s.power.report.mute.contains 0
  { s with power := { s.power with
    boot := if mute then 0 else 2
    awaiting := mute
    responder := if mute then none else some 0 } }

/-- CD0's management island has not responded within 2 s: CD1's runs the responder, if it answers (R40). -/
def State.fallBack (s : State) : State :=
  let mute := s.power.report.mute.contains 1
  { s with power := { s.power with boot := if mute then 0 else 2, awaiting := false, responder := if mute then none else some 1 } }

/-- The active control die has reported a passed self-test, so the standby die is unpowered (R39); it boots from flash, or its
responder answers when no image passes (R582, R583). -/
def State.bootDie (s : State) : State :=
  match s.bootImage with
  | none =>
    let s := s.mainDown
    { s with power := { s.power with
      boot := 2
      awaiting := false
      standbyOn := false
      responder := some (s.odv Od.ACTIVE_CONTROL_DIE) } }
  | some d =>
    { s with power := { s.power with
      boot := 1
      running := d
      awaiting := false
      standbyOn := false
      responder := none } }.setOd Od.FIRMWARE_VERSION (fwVersion (s.flashImage d))

/-- A control die cannot be active: its self-test fails, or the Depot has retired it. -/
def State.controlUnfit (s : State) (d : Nat) : Bool := s.power.report.failing.contains d || s.power.retiredControl.contains d

/-- Control passes to the other die (R38, R41): warm settings return to their defaults. -/
def State.handOver (s : State) (d : Nat) : State :=
  if s.controlUnfit d then s.noControlDie
  else
    let s := (s.keepOd fun _ c => c != .warm).setOd Od.ACTIVE_CONTROL_DIE d
    ({ s with points := 0 }.sticky 5).dropSecurity.bootDie

/-- The self-test of the active die at a reset, with the standby die's management island powered (R38 to R40). -/
def State.selfTest (s : State) : State :=
  let s := { s with power := { s.power with standbyOn := true } }
  let d := s.odv Od.ACTIVE_CONTROL_DIE
  if d = 0xFF then s.noControlDie
  else if s.power.report.silent.contains d then { s with power := { s.power with boot := 0, awaiting := true } }
  else if s.controlUnfit d then s.handOver (1 - d)
  else s.bootDie

/-- The firmware that runs asserts `MAIN_EN`, unless `AUTO_RUN` holds the package in Standby (R601). -/
def State.autoRun (s : State) : State :=
  if s.power.boot = 1 && !s.power.mainEn && s.odv Od.AUTO_RUN = 1 then s.mainUpStart else s

/-! ### Resets (R604 to R608) -/

/-- A cold reset: persistent entries are reloaded, all else is at reset, and the Depot acts. -/
def State.coldState (s : State) : State :=
  let p := s.power
  let s1 := (s.keepOd fun _ c => c = .persistent).unload
  { s1 with
    stats := []
    mem := []
    eccBad := []
    timeMs := 0
    points := 0
    ckpt := .empty
    islands := []
    security := .empty
    power := { Power.off with
      vaux := p.vaux, trip := p.trip, low := p.low.filter Supply.onVaux, flash := p.flash
      report := p.report, retiredControl := p.retiredControl, ddr5Limit := s1.odv Od.DDR5_RATE_LIMIT } }.dropSecurity.depotActs

/-- Where both flash copies of the protection entries fail their tags at a reload, the package starts `UNOWNED` with those entries at
their defaults, and `CONTROL_MEMORY` is set (17, "Ownership"). -/
def State.reloadProtection (s : State) : State :=
  if !s.power.report.untagged then s
  else ({ s with od := s.od.filter fun e => e.1 / 0x100000 != 8 }.setOd Od.OWNERSHIP_STATE 0).sticky 4

/-- A cold reset with VAUX present: start-up from step 2. -/
def State.coldReset (s : State) : State := s.coldState.reloadProtection.selfTest.autoRun

/-- A package warm reset: the management island's warm and persistent state, HBM and DDR5 are kept. -/
def State.warmReset (s : State) : State :=
  let c := s.ckpt
  let s := ((s.keepOd fun _ c => c != .volatile).unload.keepMem fun a => a / 2 ^ 56 < 2).freeIslands
  { s with
    stats := []
    ckpt := { Ckpt.empty with area := c.area, a := c.a, b := c.b, buddy := c.buddy, next := c.next }
    power := { s.power with
      ready := false
      doze := false
      throttle := 0
      fast := 0
      samples := 0
      ddr5Limit := s.odv Od.DDR5_RATE_LIMIT } }.dropSecurity.depotActs.selfTest

/-- The control dies as they are at the reset that begins (R38 to R40). -/
def State.withReport (s : State) (r : DieReport) : State := { s with power := { s.power with report := r } }

/-- Every running job and context faults. -/
def State.faultAll (s : State) (e : Event) : State :=
  if s.serveMode then
    let held := s.plats.filter fun x => x.2.held
    if held.isEmpty then s
    else held.foldl (fun (s : State) x => s.faultPlatform x.1 e.cause 0x1FF 7 0) (s.capture e)
  else s.faultJob { e with platform := 0 }

/-- VAUX rises above 3.15 V (step 1). -/
def execVauxRise (millivolts : Nat) (dies : DieReport) (s : State) : Out :=
  within true "" <|
    if s.power.vaux || millivolts ≤ 3150 then s
    else { s with power := { s.power with vaux := true, report := dies } }.coldReset

/-- The active control die has reported nothing within 2 s of the start of the reset (R39), or where none became active, the
management island of CD0 has not responded within 2 s (R40). -/
def execControlDieReportTimeout (elapsedMs : Nat) (s : State) : Out :=
  within true "" <|
    if !s.power.awaiting || elapsedMs < 2000 then s
    else if s.odv Od.ACTIVE_CONTROL_DIE = 0xFF then s.fallBack
    else (s.handOver (1 - s.odv Od.ACTIVE_CONTROL_DIE)).autoRun

/-- A failed start of the main rails (R602). -/
def State.startFails (s : State) : State := { s with power := { s.power with mainEn := false, vinGood := false } }.sticky 42

/-- `VIN_PGOOD` is asserted (step 6): the monitors of the main rails begin, and the regulators are enabled unless a rail
is below warning plus hysteresis (R602, R633). -/
def execVinPgoodAssert (vin vddq vio : Nat) (s : State) : Out :=
  within true "" <|
    if !s.power.mainEn || s.power.vinGood then s
    else if vin < 5700 || vddq < 1070 || vio < 1740 then s.startFails
    else { s with power := { s.power with vinGood := true } }

/-- `VIN_PGOOD` has not been asserted within 50 ms of `MAIN_EN` (R602). -/
def execMainRailStartTimeout (elapsedMs : Nat) (s : State) : Out :=
  within true "" <| if s.power.mainEn && !s.power.vinGood && 50 ≤ elapsedMs then s.startFails else s

/-- `VIN_PGOOD` falls for 1 µs or more (R618). -/
def execVinPgoodDrop (elapsedNs : Nat) (dies : DieReport) (s : State) : Out :=
  within true "" <| if s.power.mainEn && s.power.vinGood && 1000 ≤ elapsedNs then ((s.withReport dies).sticky 37).coldReset else s

/-! ### Training and Ready (R291, R292, R565, R603) -/

/-- `DDR5_TIER_STATE` that the modules give: active when all 16 channels hold the same supported module. -/
def tierOf (ds : List Dimm) : Nat :=
  match ds with
  | [] => 0
  | d :: rest =>
    if ds.all (·.gib = 0) then 0
    else if ds.length = 16 && rest.all (· = d) && [32, 48, 64, 96, 128, 256].contains d.gib &&
        [4800, 5200, 5600, 6000, 6400].contains d.rate then 1
    else 2

/-- The DDR5 controllers train, at most at the rate limit of the last cold or package warm reset (R292, R327); a changed configuration loses the tier's contents (R565, R606). -/
def State.trainDdr5 (s : State) (ds : List Dimm) : State :=
  let changed : Bool := ds != s.power.dimms
  let s := if changed then { s.keepMem (fun a => a / 2 ^ 56 != 1) with ckpt := .empty } else s
  let s := { s with power := { s.power with dimms := ds } }.setOd Od.DDR5_TIER_STATE (tierOf ds)
  match tierOf ds, ds with
  | 1, d :: _ => (s.setOd Od.DDR5_MODULE_GIB d.gib).setOd Od.DDR5_RATE (Nat.min d.rate s.power.ddr5Limit)
  | _, _ => s

/-- A slot that holds a valid manifest stays valid (R565). -/
def State.slotStands (s : State) (k : Nat) (x : CkptSlot) : CkptSlot :=
  let a := s.slotManifest k
  if x.valid && bitsOf (s.mfAt a) 4032 64 = crc64 (s.load a 504) then x else .empty

/-- Start-up completes (steps 7 to 9; R503, R603): array lines that fail their self-test are mapped out (R83), memories are trained, a channel that fails training is recorded for
retirement, and configuration requests complete. -/
def execPackageReady (dimms : List Dimm) (hbmFailed : List (Nat × Nat)) (lines : List FailedLine) (s : State) : Out :=
  within (lines.all fun x => x.core < 288 && x.array < 4 && x.line < 130) "core, array or line" <|
    let p := s.power
    if !p.mainEn || !p.vinGood || p.boot != 1 || p.awaiting || p.warm || p.ready then s
    else
      let s := lines.foldl (fun (s : State) x => s.applySelfTest x) s
      let s := s.trainDdr5 dimms
      let c := s.ckpt
      let s := { s with ckpt := { c with a := s.slotStands 0 c.a, b := s.slotStands 1 c.b, buddy := s.slotStands 3 c.buddy } }
      let s := hbmFailed.foldl (fun (s : State) h => s.record (.hbmChannel h.1 h.2)) s
      let s := { s with power := { s.power with ready := true } }
      [0, 1].foldl (fun (s : State) q =>
        let h := s.port q
        let s := s.setPort q { h with retry := false }
        if h.linkUp then s.emit (.drs q) else s) s

/-! ### PERST# and written resets (R503, R604, R605) -/

/-- Both PERST# asserted together warm-reset the package; in Standby and in Off they have no effect (R607). -/
def execPackageWarmReset (dies : DieReport) (s : State) : Out :=
  within true "" <|
    let s := (s.setPort 0 { s.port 0 with perst := true }).setPort 1 { s.port 1 with perst := true }
    if !s.power.mainEn then s
    else { s with power := { s.power with warm := true, report := dies } }.warmReset

/-- PERST# of a port is deasserted: its link may train, and a package warm reset is held no longer. -/
def execPerstDeassert (port : Nat) (s : State) : Out :=
  within (portOk port) "port" <|
    let s := s.setPort port { s.port port with perst := false }
    { s with power := { s.power with warm := false } }

/-- A package warm reset that a write begins: `MAIN_EN` is driven high (R610), so one written in Standby starts the main
rails (DEDUCED, log entry 65). -/
def State.writtenWarm (s : State) : State :=
  let s := s.warmReset
  if !s.power.mainEn && s.power.boot = 1 then s.mainUpStart else s

/-- A write of `PACKAGE_RESET`: the status, and the state once the reset has begun (R605). Through the Object Dictionary it finds the
control dies as the last reset did (DESIGN CHOICE, log entry 68). -/
def State.writeReset (s : State) (v : Nat) : Wrote :=
  if v = 2 then (stOk, s.coldReset)
  else if v != 1 then s.refused stRange
  else (stOk, s.writtenWarm)

/-- The management island's firmware answers the Object Dictionary. -/
def State.fwRuns (s : State) : Bool := s.power.vaux && s.power.boot = 1

def execPackageResetWarm (dies : DieReport) (s : State) : Out := within true "" <| if s.fwRuns then ((s.withReport dies).writeReset 1).2 else s
def execPackageResetCold (dies : DieReport) (s : State) : Out := within true "" <| if s.fwRuns then ((s.withReport dies).writeReset 2).2 else s

/-! ### Control-core failures (R36, R37) -/

/-- A sticky bit is set, everything running faults, and the package is warm-reset. -/
def State.controlFails (s : State) (dies : DieReport) (bit cause : Nat) : State :=
  if s.fwRuns && s.power.mainEn && s.power.vinGood then
    (((s.withReport dies).sticky bit).faultAll { cause := cause, island := 0xB000 }).warmReset
  else s

/-- A control core has made no progress for 500 ms (R36). -/
def execControlWatchdog (elapsedMs : Nat) (dies : DieReport) (s : State) : Out :=
  within true "" <| if elapsedMs < 500 then s else s.controlFails dies 3 causeWatchdog

/-- An uncorrectable error in a control core's memory. -/
def execControlMemory (dies : DieReport) (s : State) : Out := within true "" <| s.controlFails dies 4 causeControlMemory

/-! ### Power states (R597 to R601, R649) -/

/-- A start or a reset is under way. -/
def State.inTransition (s : State) : Bool := s.power.mainEn && !s.power.ready

/-- Every core island is idle. -/
def State.allIdle (s : State) : Bool := (List.range 288).all fun c => (s.island c).idle

/-- `POWER_STATE`. -/
def State.powerState (s : State) : Nat :=
  if !s.power.mainEn then 3 else if s.power.doze then 2 else if s.allIdle then 1 else 0

/-- A main-domain start (R600, R608). -/
def State.mainDomainStart (s : State) : State := s.standbyOd.depotActs.mainUpStart

/-- `LP_STATE` of every port set: 0 in Doze, 1 where an enabled port is to train again. -/
def State.setPorts (s : State) (f : Nat → Nat) : State :=
  { (List.range 16).foldl (fun (s : State) p => s.setOd (lpKey Od.LP_STATE p) (f p)) s with links := [] }

/-- Doze: the core islands lose power, and with them core stores, counters and streams; the ports go to electrical idle. -/
def State.enterDoze (s : State) : State :=
  let s := ((s.mapCores CoreState.dozed).keepMem fun a => !(a / 2 ^ 56 = 2 && dlView (bitsOf a 0 32) < 4)).setPorts fun _ => 0
  { s with channels := [], power := { s.power with doze := true } }

/-- Out of Doze: the ports retrain. -/
def State.leaveDoze (s : State) : State :=
  { s with power := { s.power with doze := false } }.setPorts fun p => if s.odv (lpKey Od.LP_ENABLE p) = 1 then 1 else 0

/-- A write of `POWER_STATE_REQ`. -/
def State.powerRequest (s : State) (v : Nat) : Wrote :=
  match v with
  | 0 =>
    if !s.power.mainEn then (if s.power.trip then s.refused stUnavailable else (stOk, s.mainDomainStart))
    else if s.inTransition then s.refused stBusy
    else if s.power.doze then (stOk, s.leaveDoze)
    else (stOk, s)
  | 2 =>
    if !s.power.mainEn then s.refused stUnavailable
    else if s.inTransition then s.refused stBusy
    else if s.power.doze then (stOk, s)
    else if s.anyArmed then s.refused stBusy
    else (stOk, s.enterDoze)
  | 3 =>
    if !s.power.mainEn then (stOk, s)
    else if s.inTransition then s.refused stBusy
    else (stOk, (s.faultAll { cause := causeWatchdog }).mainDown)
  | _ => s.refused stRange

def execPowerStateRun (s : State) : Out := within true "" <| if s.fwRuns then (s.powerRequest 0).2 else s
def execPowerStateDoze (s : State) : Out := within true "" <| if s.fwRuns then (s.powerRequest 2).2 else s
def execPowerStateStandby (s : State) : Out := within true "" <| if s.fwRuns then (s.powerRequest 3).2 else s

/-- A write of `POWER_PROFILE` (R590). -/
def State.setProfile (s : State) (v : Nat) : Wrote :=
  if v ≤ 2 then (stOk, s.setOd Od.POWER_PROFILE v) else s.refused stRange

def execPowerProfile (value : Nat) (s : State) : Out :=
  within (value < 256) "value" <| if s.fwRuns then (s.setProfile value).2 else s

end Sys2Proof.Machine
end

