-- ==== Sys2Proof/Machine/Islands.lean ====
section
/-! DEFINITION. Clock islands, their neighbours and their parking (02, R44 to R52); the supply, thermal and power monitors
(18, R591 to R599, R632, R633). -/

namespace Sys2Proof.Machine

open Sys2Proof

/-! ### Islands (02, "Islands, clocks and supplies") -/

def islCode (i : Nat) : Nat := i / 4096
def islInst (i : Nat) : Nat := i % 4096

/-- Instances of each island code. -/
def islCounts : List Nat := [288, 48, 48, 52, 8, 16, 16, 16, 8, 2, 2, 1, 1, 1]

def islandOk (i : Nat) : Bool := islInst i < listGet 0 islCounts (islCode i)

/-- Every island identifier. -/
def allIslands : List Nat :=
  ((List.range islCounts.length).zip islCounts).flatMap fun e => (List.range e.2).map (4096 * e.1 + ·)

/-- An island has power: the management island on VAUX, the others on the main rails, core islands out of Doze. -/
def State.islandPowered (s : State) (i : Nat) : Bool :=
  if islCode i = 0xC then s.power.vaux
  else s.power.mainEn && s.power.vinGood && !(islCode i = 0 && s.power.doze)

/-- An island's set clock in kHz; a DDR5 controller's is 0 while no rate has been trained (R45; DESIGN CHOICE, log entry 107). -/
def State.setClock (s : State) (i : Nat) : Nat :=
  match islCode i with
  | 0 => 1000 * s.coreMHz (islInst i)
  | 6 => 250 * s.odv Od.DDR5_RATE
  | 7 => 1562500
  | 9 => 1000000
  | 0xB => 1500000
  | 0xC => 500000
  | _ => 2000000

/-- An island's supply set point in mV; a core's follows its profile also in Umber (R594). -/
def State.setPoint (s : State) (i : Nat) : Nat :=
  if islCode i = 0 then (match s.odv Od.POWER_PROFILE with
    | 0 => 860
    | 1 => 790
    | _ => 700)
  else 750

/-! ### Neighbours -/

/-- Matrix dies bridged to an edge die (02, "Placement and bridges"). -/
def edgeBridges (e : Nat) : List Nat :=
  listGet [] [[0, 1, 2], [3, 4, 5], [7, 8, 9], [10, 11, 12], [39, 40, 41], [42, 43, 44], [46, 47, 48], [49, 50, 51]] e

/-- The physical die of a matrix-die fabric island. -/
def State.fabricDie (s : State) (f : Nat) : Nat :=
  if f < 48 then s.odv (Od.LDIE_PHYS + f) else s.odv (Od.DARK_DIE_PHYS + (f - 48))

/-- Two physical matrix dies are neighbours in the mesh of 4 rows and 13 columns. -/
def meshNear (a b : Nat) : Bool :=
  (a / 13 = b / 13 && (a + 1 = b || b + 1 = a)) || (a % 13 = b % 13 && (a + 13 = b || b + 13 = a))

/-- A crossing joins two islands, the first of the lower code. -/
def State.joined (s : State) (a b : Nat) : Bool :=
  let x := islInst a
  let y := islInst b
  match islCode a, islCode b with
  | 0, 2 => x / 6 = y
  | 0, 3 => x / 6 = y
  | 1, 2 => x = y
  | 1, 3 => x = y
  | 2, 3 => x = y
  | 3, 3 => meshNear (s.fabricDie x) (s.fabricDie y)
  | 3, 4 => (edgeBridges y).contains (s.fabricDie x)
  | 3, 0xA => s.fabricDie x = (if y = 0 then 6 else 45)
  | 3, 0xD => (if s.odv Od.ACTIVE_CONTROL_DIE = 0 then [0, 13, 26, 39] else [12, 25, 38, 51]).contains (s.fabricDie x)
  | 4, 5 => x = y / 2
  | 4, 6 => x = y / 2
  | 4, 7 => x = y / 2
  | 4, 8 => x = y
  | 5, 8 => x / 2 = y
  | 6, 8 => x / 2 = y
  | 9, 0xA => x = y
  | 0xB, 0xC => true
  | 0xB, 0xD => true
  | _, _ => false

/-- Two islands are neighbours. -/
def State.neighbours (s : State) (a b : Nat) : Bool := a != b && (s.joined a b || s.joined b a)

/-! ### Parking (R44 to R49) -/

/-- A core, Junction or Yard island, which a tie parks first. -/
def tieFirst (i : Nat) : Bool := islCode i < 3

/-- The island of a pair that is parked, by how far each is out (R45). -/
def parkChoice (a b : Nat) (outA outB : Int) : Nat :=
  if outB < outA then a
  else if outA < outB then b
  else if tieFirst a && !tieFirst b then a
  else if tieFirst b && !tieFirst a then b
  else Nat.min a b

/-- Park an island for a quantity: 0 clock ratio, 1 supply, 2 temperature (R46, R47). An island already parked waits for
this quantity too. -/
def State.park (s : State) (i q : Nat) : State :=
  let x := s.island i
  if x.parked then s.setIsland i { x with cause := x.cause ||| 2 ^ q }
  else
    let s := (s.setIsland i { x with parked := true, cause := 2 ^ q }).sticky q
    let s := (s.count Od.ISLAND_PARK_EVENTS 1).setOd Od.ISLAND_LAST_PARKED i
    let s := if q = 2 then s.count riskThermal 1 else s
    s.capture { cause := causeParked, island := i, detail := q }

def absDiff (a b : Nat) : Nat := if a ≤ b then b - a else a - b

/-- The quantities of a crossing compared with their limits (R44): clocks in kHz, supplies in mV, temperatures in °C. -/
def execIslandLimitCheck (a b clockA clockB supplyA supplyB : Nat) (tempA tempB : Int) (s : State) : Out :=
  within (islandOk a && islandOk b) "island" <|
    if !s.neighbours a b || !s.islandPowered a || !s.islandPowered b then s
    else
      let setA := s.setClock a
      let setB := s.setClock b
      let lag := fun (set clk other : Nat) => ((set : Int) - clk) * other
      let s1 := if 4 * Nat.min clockA clockB < Nat.max clockA clockB then
          s.park (parkChoice a b (lag setA clockA setB) (lag setB clockB setA)) 0 else s
      let off := fun (i v : Nat) => ((absDiff v (s.setPoint i) : Nat) : Int)
      let s2 := if 150 < absDiff supplyA supplyB then s1.park (parkChoice a b (off a supplyA) (off b supplyB)) 1 else s1
      if 35 < (tempA - tempB).natAbs then s2.park (parkChoice a b tempA tempB) 2 else s2

/-- A mark in an island's causes: parked beyond `ISLAND_PARK_LIMIT`, until the next package warm reset. -/
def beyondLimit : Nat := 8

/-- The worst quantities of an island's crossings lie back within their limits: the clocks of one crossing at 3.8:1, 130 mV and
30 °C. -/
def backWithin (fast slow supplyDiff tempDiff : Nat) : Bool := 10 * fast ≤ 38 * slow && supplyDiff ≤ 130 && tempDiff ≤ 30

/-- The die whose Junction goes on when an island runs again. -/
def dieOfIsland (i : Nat) : Option Nat :=
  if islCode i = 0 then some (dieOfCore (islInst i)) else if islCode i ≤ 3 && islInst i < 48 then some (islInst i) else none

/-- Every quantity at every crossing has stayed back within its limit, the worst as given (R48): for 50 µs, or 1 ms after a parking for
temperature. What waited at the die's Junction goes on (R49). -/
def execIslandResume (island elapsedUs fast slow supplyDiff tempDiff : Nat) (s : State) : Out :=
  within (islandOk island) "island" <|
    let x := s.island island
    if !x.parked || bitOf x.cause 3 || !backWithin fast slow supplyDiff tempDiff || elapsedUs < (if bitOf x.cause 2 then 1000 else 50) then s
    else
      let s := s.setIsland island { x with parked := false, cause := 0 }
      match dieOfIsland island with
      | some d => s.jctSettle d
      | none => s

/-- Platforms with work on an island (R50); on an island of no kind that the rule names, every armed one, a suspended one not among them. -/
def State.workOnIsland (s : State) (i : Nat) : List Nat :=
  let n := islInst i
  match islCode i with
  | 0 => s.workOn n
  | 1 => dedup ((fromTo (6 * n) 6).flatMap s.workOn ++ (s.die n).slots.map (·.2.platform))
  | 2 => dedup ((fromTo (6 * n) 6).flatMap s.workOn ++ (s.die n).slots.map (·.2.platform))
  | 7 => []
  | 9 => (s.plats.filter fun e => e.2.held && e.2.port = n).map (·.1)
  | 0xA => (s.plats.filter fun e => e.2.held && e.2.port = n).map (·.1)
  | _ => (s.plats.filter fun e => e.2.st = 1).map (·.1)

/-- An island has stayed parked for longer than `ISLAND_PARK_LIMIT` (R50): what works on it faults, a core is quarantined
and its slot recorded for substitution, and another island stays parked until the next package warm reset. For a Linam port
island R51 has faulted first, and this rule faults nothing. -/
def execIslandParkLimit (island elapsedMs : Nat) (s : State) : Out :=
  within (islandOk island) "island" <|
    let x := s.island island
    if !x.parked || bitOf x.cause 3 || elapsedMs ≤ s.odv Od.ISLAND_PARK_LIMIT then s
    else
      let e : Event := { cause := causeParkLimit, island := island }
      let s := (s.workOnIsland island).foldl (fun (s : State) p => s.faultOwner p 0 e) s
      if islCode island = 0 then
        let c := islInst island
        let s := s.setIsland island { x with cause := x.cause ||| beyondLimit }
        (s.setCore c { s.core c with quarantined := true }).record (.coreSlot c)
      else s.setIsland island { x with cause := x.cause ||| beyondLimit }

/-- A Linam port island has stayed parked for longer than 5 µs (R51): the port fails, whatever its state was, unless it is disabled or
has failed. -/
def execLinamParkDeadline (island elapsedNs : Nat) (s : State) : Out :=
  within (islandOk island && islCode island = 7) "island" <|
    let p := islInst island
    if (s.island island).parked && s.odv Od.BARRIER_TOKEN_DEADLINE < elapsedNs &&
        s.odv (lpKey Od.LP_STATE p) != 0 && s.odv (lpKey Od.LP_STATE p) != 5 then s.portLost p 5 else s

/-! ### Idle islands (R597) -/

/-- An island has had no queued work for 1 µs: a core island, no stream ready to issue. -/
def execIdleEntry (island elapsedNs : Nat) (s : State) : Out :=
  within (islandOk island) "island" <|
    let busy : Bool := islCode island = 0 && (s.core (islInst island)).streams.any fun e => e.2.state = 1
    if s.islandPowered island && !busy && 1000 ≤ elapsedNs then
      s.setIsland island { s.island island with idle := true }
    else s

/-- New work ungates an idle island. -/
def execIdleExit (island : Nat) (s : State) : Out :=
  within (islandOk island) "island" <| s.setIsland island { s.island island with idle := false }

/-! ### Supply monitors (R592 to R596, R633) -/

/-- A supply that has a monitor: rails 0 VIN_MAIN, 1 VAUX, 2 VDDQ_DDR, 3 VIO, and each island's regulator. -/
def supplyOk (x : Supply) : Bool :=
  match x with
  | .rail n => n < 4
  | .regulator i => islandOk i

/-- The monitor watches the supply: VAUX from step 1, the main rails from step 6, a regulator while it is enabled. -/
def State.watched (s : State) (x : Supply) : Bool :=
  match x with
  | .rail n => if n = 1 then s.power.vaux else s.power.mainEn && s.power.vinGood
  | .regulator i => s.islandPowered i

/-- Warning level, reset level and hysteresis in mV (18, "Supply monitor levels"). -/
def State.levels (s : State) (x : Supply) : Nat × Nat × Nat :=
  match x with
  | .rail 0 => (5600, 5200, 100)
  | .rail 1 => (3100, 2900, 50)
  | .rail 2 => (1050, 1000, 20)
  | .rail _ => (1710, 1620, 30)
  | .regulator i => (s.setPoint i - 60, s.setPoint i - 150, 20)

/-- The sticky bit of a supply's warning. -/
def warnBit (x : Supply) : Nat :=
  match x with
  | .rail n => 32 + n
  | .regulator _ => 36

/-- The supply places an island in Umber. -/
def placesUmber (x : Supply) : Bool :=
  match x with
  | .rail n => n = 0
  | .regulator i => islCode i = 0

/-- A rail or regulator falls below its warning level (R592, R595). -/
def execSupplyWarning (x : Supply) (millivolts : Nat) (s : State) : Out :=
  within (supplyOk x) "supply" <|
    if !s.watched x || (s.levels x).1 ≤ millivolts then s
    else
      let s := (s.sticky (warnBit x)).count Od.SUPPLY_WARNINGS 1
      if s.power.low.contains x then s
      else
        let s := if placesUmber x then s.count Od.UMBER_SUPPLY_ENTRIES 1 else s
        { s with power := { s.power with low := s.power.low ++ [x] } }

/-- The supply has stayed above warning plus hysteresis for 50 µs (R593). -/
def execSupplyRecovery (x : Supply) (millivolts elapsedUs : Nat) (s : State) : Out :=
  within (supplyOk x) "supply" <|
    let l := s.levels x
    if l.1 + l.2.2 < millivolts && s.odv Od.UMBER_RECOVERY_US ≤ elapsedUs then
      { s with power := { s.power with low := s.power.low.filter (· != x) } }
    else s

/-- What a regulator's failure calls for at the reset: a core slot, a matrix die or a control die (R596). -/
def State.recordRegulator (s : State) (i : Nat) : State :=
  match islCode i with
  | 0 => s.record (.coreSlot (islInst i))
  | 1 => s.record (.matrixDie (islInst i))
  | 2 => s.record (.matrixDie (islInst i))
  | 3 => if islInst i < 48 then s.record (.matrixDie (islInst i)) else s
  | 0xB => { s with power := { s.power with retiredControl := s.power.retiredControl ++ [s.odv Od.ACTIVE_CONTROL_DIE] } }
  | 0xC => { s with power := { s.power with retiredControl := s.power.retiredControl ++ [s.odv Od.ACTIVE_CONTROL_DIE] } }
  | 0xD => { s with power := { s.power with retiredControl := s.power.retiredControl ++ [s.odv Od.ACTIVE_CONTROL_DIE] } }
  | _ => s

/-- A rail or regulator is below its reset level: a cold reset (R596); VAUX itself must rise again first (R609). -/
def execRailBelowReset (x : Supply) (millivolts : Nat) (dies : DieReport) (s : State) : Out :=
  within (supplyOk x) "supply" <|
    if !s.watched x || (s.levels x).2.1 ≤ millivolts then s
    else
      let s := (s.withReport dies).sticky 37
      match x with
      | .rail n =>
        if n = 1 then
          let s := s.coldState
          { s with power := { s.power with vaux := false, low := [] } }
        else s.coldReset
      | .regulator i => ((s.sticky 38).recordRegulator i).coldReset

/-! ### Thermal monitors (R592, R593, R599, R632) -/

/-- An island sensor reports (R632): at 100 °C or above it warns and holds a core island in Umber; at 115 °C or above the
package goes to Standby (R599). -/
def execThermalSample (island : Nat) (celsius : Int) (s : State) : Out :=
  within (islandOk island) "island" <|
    if !s.islandPowered island then s
    else
      let x := s.island island
      let s := s.setIsland island { x with celsius := some celsius, umberThermal := x.umberThermal || 100 ≤ celsius }
      if celsius < 100 then s
      else
        let s := s.sticky 39
        let s := if islCode island = 0 && !x.umberThermal then s.count Od.UMBER_THERMAL_ENTRIES 1 else s
        if celsius < 115 then s
        else
          let e : Event := { cause := causeWatchdog, island := island }
          let s := ((s.sticky 40).capture e).faultAll e
          let s := if s.power.mainEn then s.mainDown else s
          { s with power := { s.power with trip := true } }

/-- A sensor has stayed at or below 95 °C for 1 ms. -/
def execThermalExit (island : Nat) (celsius : Int) (elapsedUs : Nat) (s : State) : Out :=
  within (islandOk island) "island" <|
    if celsius ≤ 95 && 1000 ≤ elapsedUs then s.setIsland island { s.island island with umberThermal := false } else s

/-- 60 s have passed since a thermal trip. -/
def execThermalTripHoldoff (elapsedS : Nat) (s : State) : Out :=
  within true "" <| if 60 ≤ elapsedS then { s with power := { s.power with trip := false } } else s

/-! ### The power monitor (R591) -/

/-- The package limit in watts. -/
def State.powerLimit (s : State) : Nat :=
  match s.odv Od.POWER_PROFILE with
  | 0 => 7200
  | 1 => 5600
  | _ => 4000

/-- The frozen share after a step of the sustained limit: sixteenths, up while the average exceeds the limit and until it
is at most 98 % of it, down from there. -/
def throttleStep (share avg limit : Nat) : Nat :=
  if 100 * avg ≤ 98 * limit then share - 1
  else if limit < avg || share != 0 then Nat.min 16 (share + 1)
  else share

/-- A sample of the input power, every 1 µs: the running 1 ms average and the sample itself, in watts. -/
def execPowerSample (avg watts : Nat) (s : State) : Out :=
  within true "" <|
    let p := s.power
    if !p.mainEn || !p.vinGood then s
    else
      let limit := s.powerLimit
      let n := p.samples + 1
      let share := if n = 100 then throttleStep p.throttle avg limit else p.throttle
      let hot : Bool := 5 * limit < 4 * watts
      let fast := if hot then 10 else p.fast - 1
      let s := { s with power := { p with throttle := share, fast := fast, samples := n % 100 } }.setOd Od.PACKAGE_POWER_W avg
      let s := if hot then s.sticky 41 else s
      if share != 0 || fast != 0 then s.count Od.POWER_THROTTLE_US 1 else s

end Sys2Proof.Machine
end

