-- ==== Sys2Proof/Machine/Loading.lean ====
section
/-! DEFINITION. Loading a Timetable and the package mode (08, "Loading and arming"; R245, R246, R264, R444, R641). -/

namespace Sys2Proof.Machine

open Sys2Proof

/-! ### The checks of a load -/

/-- The identity that the header must name (R2). -/
def Image.partOk (img : Image) : Bool := leNat img.partNumber = odDefault Od.PART_NUMBER && img.partNumber.length = 7

/-- The other header fields: every value is defined, and the descriptors are ones that R215 allows (`TT_REFUSE_CAUSE` 8;
DESIGN CHOICE, log entry 92). -/
def Image.headerOk (img : Image) : Bool :=
  img.headerDefined && img.descsOk && img.kind != .undefined && 1 ≤ img.nCores && img.nCores ≤ 288

/-- One stream's commands in index order (R641). -/
def StreamDecl.ordered (t : StreamDecl) : Bool :=
  let ends := fun (k : CmdKind) (w : CmdWord) => kindOf w = k
  let none' := fun (k : CmdKind) (l : List CmdWord) => l.all fun w => !ends k w
  let last := fun (k : CmdKind) (l : List CmdWord) => match l.getLast? with
    | some w => ends k w
    | none => false
  none' .stepEnd t.prologue && none' .streamEnd t.prologue &&
  last .stepEnd t.body && none' .stepEnd t.body.dropLast && none' .streamEnd t.body &&
  none' .stepEnd t.epilogue && last .streamEnd t.epilogue && none' .streamEnd t.epilogue.dropLast

/-- A core that the image may name: a Distil job runs on the logical cores that its Timetable names (R446), a Serve Timetable
on cores 0 to `PC_CORES` − 1. -/
def Image.coreIn (img : Image) (c : Nat) : Bool := c < (if img.kind = .distil then 288 else img.nCores)

/-- The stream table: participating cores, 1 to 8 streams per core in slots of their own, at most 2^24 commands each. -/
def Image.streamsOk (img : Image) : Bool :=
  img.cores.length = img.nCores && distinct (img.cores.map (·.core)) &&
  img.cores.all fun d => img.coreIn d.core && 1 ≤ d.streams.length && d.streams.length ≤ 8 &&
    distinct (d.streams.map (·.slot)) && d.streams.all fun t => t.slot < 8 && t.cmds.length ≤ 2 ^ 24 && t.ordered

def cdStride (d : Nat) : Nat := bitsOf d 32 25
def cdConsume (d : Nat) : Bool := bitOf d 57
def cdOwner (d : Nat) : Nat := bitsOf d 60 3

/-- A command's waits and signals name counters that the Timetable declares, and waits of their kind (R245). -/
def Image.cmdCounters (img : Image) (d : CoreDecl) (w : CmdWord) : Bool :=
  (!preEn w || (match img.ctrDecl d.core (preCtr w) with
    | some x => cdConsume x = preConsume w
    | none => false)) &&
  (!postEn w || (img.ctrDecl (if postCore w = 511 then d.core else postCore w) (postCtr w)).isSome)

/-- The commands up to and with the first REBASE of a counter. -/
def upToRebase (k : Nat) : List CmdWord → List CmdWord
  | [] => []
  | w :: ws => if kindOf w = .rebase && cmdBits w 128 6 = k then [w] else w :: upToRebase k ws

/-- A strided threshold counter has its REBASE in the step body of its owner, which waits on it by then (R245, R264). -/
def CoreDecl.rebased (d : CoreDecl) (k x : Nat) : Bool :=
  match d.streams.find? fun t => t.slot = cdOwner x with
  | none => false
  | some t =>
    (t.body.any fun w => kindOf w = .rebase && cmdBits w 128 6 = k) &&
    (upToRebase k t.body).any fun w => preEn w && !preConsume w && preCtr w = k

/-- The counter declarations (R245, R264). -/
def Image.countersOk (img : Image) : Bool :=
  img.cores.all fun d =>
    d.counters.length ≤ 48 && distinct (d.counters.map (·.1)) &&
    d.counters.all (fun e => e.1 < 48 && bitsOf e.2 63 65 = 0 && cdStride e.2 ≤ 2 ^ 24 &&
      (cdStride e.2 = 0 || (!cdConsume e.2 && d.rebased e.1 e.2))) &&
    d.streams.all fun t => t.cmds.all (img.cmdCounters d)

/-- The barrier table: 16 channels, each with a defined scope and vote source and participating cores. -/
def Image.barriersOk (img : Image) : Bool :=
  img.channels.length ≤ 16 && distinct (img.channels.map (·.chan)) &&
  img.channels.all fun c => c.chan < 16 && c.scope < 3 && c.voteSrc < 2 && !c.cores.isEmpty && distinct c.cores &&
    c.cores.all img.coreIn && c.packages.all (· < 1024)

/-- The first check that an image fails, as `TT_REFUSE_CAUSE` names it; 0 when it passes. -/
def Image.refuseCause (img : Image) (stepping : Nat) : Nat :=
  if !img.partOk then 1
  else if img.stepping.toNat != stepping then 2
  else if !img.headerOk then 8
  else if !img.sectionsInBounds then 3
  else if !img.streamsOk then 4
  else if !img.countersOk then 5
  else if !img.barriersOk then 6
  else 0

/-! ### The load -/

/-- A write of `TT_LOAD`: the load takes the image's address and length as they stand (R246, R249). -/
def State.ttLoad (s : State) (v : Nat) : Wrote :=
  if v != 1 then s.refused stRange
  else if s.loading.isSome then s.refused stBusy
  else (stOk, { s with loading := some (s.odv Od.TT_IMAGE_ADDR, s.odv Od.TT_IMAGE_BYTES) }.setOd Od.TT_LOAD_STATE 1)

def execTtLoad (value : Nat) (s : State) : Out :=
  within (value < 256) "value" <| if s.power.ready then (s.ttLoad value).2 else s

/-- The load ends (R246). `img` is what the image's bytes say (DESIGN CHOICE, log entry 12); their SHA-256 is taken from memory. -/
def execTtLoadComplete (img : Image) (s : State) : Out :=
  within true "" <|
    match s.loading with
    | none => s
    | some (a, n) =>
      let s : State := { s with loading := none }
      let fail := fun (s : State) (c : Nat) => (s.setOd Od.TT_LOAD_STATE 3).setOd Od.TT_REFUSE_CAUSE c
      if n = 0 || !s.inTier a n then fail s 7
      else match badIn s.eccBad a n with
        | w :: _ =>
          let r := s.uncorrected w
          fail (r.1.capture r.2) 7
        | [] =>
          let s := s.setOd Od.TT_IMAGE_SHA256 (leNat (sha256 (s.load a n)))
          let c := img.refuseCause (s.odv Od.STEPPING)
          if c != 0 then fail s c
          else
            let s := ((s.setOd Od.TT_LOAD_STATE 2).setOd Od.TT_REFUSE_CAUSE 0).setOd Od.SCALE_TABLE_ENTRIES img.scaleEntries
            { s with loaded := some img, depot := { s.depot with reload := false } }

/-! ### The package mode (R444) -/

/-- A write of `PACKAGE_MODE`. -/
def State.setMode (s : State) (v : Nat) : Wrote :=
  if 1 < v then s.refused stRange
  else if s.anyArmed then s.refused stBusy
  else (stOk, s.setOd Od.PACKAGE_MODE v)

def execPackageMode (value : Nat) (s : State) : Out :=
  within (value < 256) "value" <| if s.power.vaux && s.power.boot = 1 then (s.setMode value).2 else s

end Sys2Proof.Machine
end

