-- ==== Sys2Proof/Machine/Protection.lean ====
section
/-! DEFINITION. Ownership, two-party changes and the protection set-up (17, R569 to R580, R587), and firmware updates
(R584). -/

namespace Sys2Proof.Machine

open Sys2Proof

def keyIndex (key : Nat) : Nat := key / 256
def keySub (key : Nat) : Nat := key % 256

def State.owned (s : State) : Bool := s.odv Od.OWNERSHIP_STATE = 1

/-! ### Authorisation objects (R572, R573) -/

/-- Bytes of an authorisation object: its header and one signature. -/
def aoBytes : Nat := 7920

def aoField (ao : List Byte) (lo len : Nat) : Nat := bitsOf (leNat (ao.take 64)) lo len
def aoSigner (ao : List Byte) : Nat := aoField ao 8 8
def aoNonce (ao : List Byte) : Nat := aoField ao 64 64

/-- The enrolled key of a signer. -/
def State.partyKey (s : State) (signer : Nat) : Nat := s.odv (if signer = 1 then Od.OWNER_KEY else Od.OPERATOR_KEY)

/-- The object is valid for a write of a value to an entry, its nonce apart. -/
def State.aoValid (s : State) (key : Nat) (value ao : List Byte) : Bool :=
  ao.length = aoBytes && aoField ao 0 8 = 1 && (aoSigner ao = 1 || aoSigner ao = 2) &&
  aoField ao 16 16 = keyIndex key && aoField ao 32 8 = keySub key &&
  aoField ao 40 24 = 0 && aoField ao 160 32 = 0 && aoField ao 448 64 = 0 &&
  aoField ao 128 32 = value.length && aoField ao 192 256 = leNat (sha256 value) &&
  Config.signatureValid (BitVec.ofNat 256 (s.partyKey (aoSigner ao))) (ao.take 64 ++ leBytes 12 (s.odv Od.SERIAL_NUMBER)) (ao.drop 64)

/-! ### The entries' own rules -/

/-- A Platform of a virtual function is armed or suspended. -/
def State.vfArmed (s : State) : Bool := s.plats.any fun e => e.2.held && e.2.vf != 0

/-- Two enabled partitions overlap. -/
def partClash (a b : Nat) : Bool := ptEnable a && ptEnable b && overlap (ptBase a) (ptSize a) (ptBase b) (ptSize b)

/-- The status that a partition entry's value earns. -/
def State.partStatus (s : State) (key v : Nat) : Nat :=
  if bitsOf v 120 8 != 0 then stReserved
  else if 1 < regionOf (ptBase v) || ptBase v % GiB != 0 || ptSize v % GiB != 0 then stRange
  else
    let mine := 64 * (if keyIndex key = keyIndex Od.PARTITION_HP0 then 0 else 1) + keySub key
    if virtualFns.any fun f => f != mine && partClash v (s.partition f) then stRange else stOk

/-- What a protection entry's own rules answer a value with (R570, R571, R578, R580, R587). -/
def State.rw2Status (s : State) (key v : Nat) : Nat :=
  let inRange : Bool → Nat := fun b => if b then stOk else stRange
  if key = Od.AUTH_CANCEL then inRange (v = 1)
  else if key = Od.MBX_PRIV_ENABLE || key = Od.PARTITION_ENFORCE then inRange (v ≤ 1)
  else if key = Od.OWNER_KEY then inRange (v != s.odv Od.OPERATOR_KEY)
  else if key = Od.OPERATOR_KEY then inRange (v != s.odv Od.OWNER_KEY)
  else if key = Od.OWNERSHIP_RELEASE then (if v != 1 then stRange else if s.anyArmed then stBusy else stOk)
  else if keyIndex key = keyIndex Od.PARTITION_HP0 || keyIndex key = keyIndex Od.PARTITION_HP1 then s.partStatus key v
  else if key = Od.BUDDY_OVERRIDE then
    inRange ((List.range 8).all fun j => let d := bitsOf v (16 * j) 16; d < 1024 || d = 0xFFFF)
  else if key = Od.SPARE_POLICY then (if v < 4 then stOk else stReserved)
  else if key = Od.DEBUG_UNLOCK then (if 2 < v then stRange else if v = 2 && s.vfArmed then stBusy else stOk)
  else if key = Od.FW_SVN_FLOOR then inRange (s.odv Od.FW_SVN_FLOOR ≤ v)
  else stOk

/-- Sessions that some parties' keys authenticated end at once (R579). -/
def State.endSessions (s : State) (f : Nat → Bool) : State :=
  { s with security := { s.security with sessions := s.security.sessions.filter fun x => !f x.signer } }

/-- The whole 0x8000 range at its defaults, the package `UNOWNED` (R571). -/
def State.releaseOwnership (s : State) : State :=
  ({ s with od := s.od.filter fun e => e.1 / 0x100000 != 8 }.setOd Od.OWNERSHIP_STATE 0).endSessions fun k => k != 0

/-- A debug level takes effect (R587). -/
def State.unlock (s : State) (v : Nat) : State :=
  let s := { s with security := { s.security with debugMax := Nat.max s.security.debugMax v } }.setOd Od.DEBUG_UNLOCK v
  if v = 2 && s.job.active then s.setOd Od.JOB_TAINTED 1 else s

/-- A protection entry's change applied. -/
def State.rw2Apply (s : State) (key v : Nat) : State :=
  if key = Od.OWNER_KEY then (s.setOd key v).endSessions (· = 1)
  else if key = Od.OPERATOR_KEY then (s.setOd key v).endSessions (· = 2)
  else if key = Od.OWNERSHIP_RELEASE then s.releaseOwnership
  else if key = Od.DEBUG_UNLOCK then s.unlock v
  else s.setOd key v

/-! ### Two-party changes (R575 to R578) -/

def State.setStaged (s : State) (c : Option StagedChange) : State := { s with security := { s.security with staged := c } }

/-- A write that fails its authorisation. -/
def State.authFails (s : State) : Wrote := (stAuthFailed, s.count Od.AUTH_FAILED_COUNT 1)

/-- A write of a value with an authorisation object to an owned package. -/
def State.twoParty (s : State) (key : Nat) (value ao : List Byte) : Wrote :=
  if !s.aoValid key value ao then s.authFails
  else
    let n := aoNonce ao
    match s.security.staged with
    | none =>
      if n != s.odv Od.AUTH_NONCE || key = Od.AUTH_CANCEL then s.authFails
      else (stStaged, (s.setStaged (some {
        index := keyIndex key
        sub := keySub key
        value := value
        signer := aoSigner ao
        nonce := n
        ms := 600000 })).redraw)
    | some c =>
      if n = c.nonce then
        if key = Od.AUTH_CANCEL then
          (if leNat value = 1 then (stOk, (s.setStaged none).redraw) else s.refused stRange)
        else if c.index = keyIndex key && c.sub = keySub key && c.value = value && c.signer != aoSigner ao then
          let s := (s.setStaged none).redraw
          let st := s.rw2Status key (leNat value)
          if st = stOk then (stOk, s.rw2Apply key (leNat value)) else (st, s)
        else s.authFails
      else if n = s.odv Od.AUTH_NONCE then s.refused stBusy
      else s.authFails

/-- Enrolment of a key while the package is `UNOWNED` (R4, R569): once each, and the second makes it `OWNED`. -/
def State.enrol (s : State) (key : Nat) (value : List Byte) (privileged : Bool) : Wrote :=
  let v := leNat value
  let other := s.odv (if key = Od.OWNER_KEY then Od.OPERATOR_KEY else Od.OWNER_KEY)
  if !privileged || s.odv key != 0 then s.refused stDenied
  else if value.length != 32 then s.refused stLength
  else if v = other then s.refused stRange
  else
    let s := s.setOd key v
    (stOk, if other = 0 then s else s.setOd Od.OWNERSHIP_STATE 1)

/-- A closed RW2 write: the value, then its authorisation object (R572). -/
def State.rw2Close (s : State) (key : Nat) (bs : List Byte) (privileged : Bool) : Wrote :=
  if !s.owned then
    (if key = Od.OWNER_KEY || key = Od.OPERATOR_KEY then s.enrol key bs privileged else s.refused stDenied)
  else if bs.length != odLen key + aoBytes then s.refused stLength
  else s.twoParty key (bs.take (odLen key)) (bs.drop (odLen key))

/-- 600 s have passed since a change was staged (R576). -/
def execStagedChangeExpiry (elapsedS : Nat) (s : State) : Out :=
  within true "" <|
    if s.security.staged.isSome && 600 ≤ elapsedS then ((s.setStaged none).redraw).count Od.AUTH_STAGED_EXPIRED 1 else s

/-! ### Firmware updates (R584) -/

/-- The image of a closed `FW_UPDATE` is verified, and programmed into the device that did not supply the running one. -/
def State.updateFirmware (s : State) (bs : List Byte) : State :=
  if fwGood (s.odv Od.FW_SVN_FLOOR) bs then
    let d := if s.power.boot = 1 then 1 - s.power.running else 0
    { s with power := { s.power with flash := tabSet s.power.flash d bs } }.setOd Od.FW_UPDATE_STATE 3
  else s.setOd Od.FW_UPDATE_STATE 4

end Sys2Proof.Machine
end

