-- ==== Sys2Proof/Machine/Tick.lean ====
section
/-! DEFINITION. What one millisecond of management-island time does (DESIGN CHOICE, log entry 3): clocks and times advance, and every
other event is a command of its own. -/

namespace Sys2Proof.Machine

open Sys2Proof

/-- Core islands in Umber. -/
def State.umberCores (s : State) : Nat :=
  if !s.mainUp then 0 else ((List.range 288).filter s.inUmber).length

/-- Core cycles that waiting streams spend in 1 ms (`SYNC_WAIT_CYCLES`). -/
def State.waitCycles (s : State) : Nat :=
  s.cores.foldl (fun n e => n + 1000 * s.coreMHz e.1 * (e.2.streams.filter fun t => t.2.state = 2).length) 0

/-- Cores reserved to a latency class (R460). -/
def State.reservedCores (s : State) : List Nat :=
  (List.range 288).filter fun c => [0, 1, 2].any fun n => bitOf (s.odv (Od.RESERVED_CORES + n)) c

/-- Core cycles that reserved cores without a ready command spend idle in 1 ms (R461). -/
def State.reservedIdle (s : State) : Nat :=
  s.reservedCores.foldl (fun n c =>
    if (s.core c).streams.any fun t => t.2.state = 1 then n else n + 1000 * s.coreMHz c) 0

/-- Times that Platforms and a staged change keep (R469, R575). -/
def State.passTime (s : State) : State :=
  let staged := match s.security.staged with
    | some c => some { c with ms := c.ms - 1 }
    | none => none
  { s with
    timeMs := s.timeMs + 1
    plats := s.plats.map fun e => if e.2.st = 1 then (e.1, { e.2 with armedTime := e.2.armedTime + 2000000 }) else e
    security := { s.security with staged := staged } }

/-- One millisecond passes while the management island runs. -/
def tick (s : State) : State :=
  if !s.power.vaux then s
  else
    let s := s.passTime
    if !s.mainUp then s
    else
      let hold := if s.red.active then 2000000 * s.red.holding.length else 0
      (((s.count Od.UMBER_CORE_US (1000 * s.umberCores)).count Od.SYNC_WAIT_CYCLES s.waitCycles).count
        Od.RED_HOLD_CYCLES hold).count Od.RESERVED_IDLE_CYCLES s.reservedIdle

end Sys2Proof.Machine
end

