-- ==== Sys2Proof/Machine/Dictionary.lean ====
section
/-! DEFINITION. The values of the Object Dictionary's entries: what each reads as, and what a write of each does (15, with
the entry tables of the other chapters). -/

namespace Sys2Proof.Machine

open Sys2Proof

/-! ### Entries -/

def OdType.code : OdType → Nat
  | .bool => 1
  | .u8 => 2
  | .u16 => 3
  | .u32 => 4
  | .u64 => 5
  | .s16 => 7
  | .f32 => 0xA
  | .str => 0xB
  | .octets => 0xC
  | .domain => 0xD

/-- What a request finds of an entry. -/
structure OdInfo where
  ty : OdType
  len : Nat
  acc : OdAccess
  deriving DecidableEq, Repr

/-- Highest subindex of an index that exists. -/
def odHighest (ix : Nat) : Nat :=
  odTable.foldl (fun n r => if r.ixLo ≤ ix && ix ≤ r.ixHi then Nat.max n r.subHi else n) 0

/-- The entry of a key; subindex 0 holds the highest subindex (R509). -/
def odInfo (key : Nat) : Option OdInfo :=
  if keySub key = 0 then (if odHighest (keyIndex key) = 0 then none else some { ty := .u8, len := 1, acc := .const })
  else match odRow key with
    | some r => some { ty := r.ty, len := r.len, acc := r.acc }
    | none => none

/-! ### Reading -/

/-- Link hops from this package to the Terminus, by the committed Points. -/
def State.interlockDepth (s : State) : Nat :=
  let t := s.odv Od.TERMINUS_PKG
  if 1024 ≤ t || t = s.pkg then 0 else bitsOf (s.pointsEntry t) 16 4

/-- The highest of the latest reports of powered islands (R632). -/
def State.hottest (s : State) : Int :=
  let ts := (s.islands.filter fun e => s.islandPowered e.1).filterMap fun e => e.2.celsius
  match ts with
  | [] => 0
  | t :: rest => rest.foldl (fun (a b : Int) => if a < b then b else a) t

/-- `STAGED_TARGET`. -/
def State.stagedTarget (s : State) : Nat :=
  match s.security.staged with
  | some c => fields [(0, 16, c.index), (16, 8, c.sub), (24, 2, c.signer)]
  | none => 0

def State.stagedNonce (s : State) : Nat :=
  match s.security.staged with
  | some c => c.nonce
  | none => 0

def State.stagedSeconds (s : State) : Nat :=
  match s.security.staged with
  | some c => c.ms / 1000
  | none => 0

/-- An entry's value at the moment of reading. -/
def State.nowValue (s : State) (key : Nat) : Nat :=
  if keySub key = 0 then odHighest (keyIndex key)
  else if key = Od.POWER_STATE then s.powerState
  else if key = Od.UMBER_CORES_NOW then s.umberCores
  else if key = Od.ISLAND_PARKED_NOW then (s.islands.filter fun e => e.2.parked).length
  else if key = Od.TEMP_MAX_NOW_C then unsignedOf s.hottest 16
  else if key = Od.CKPT_STATE then s.ckptState
  else if key = Od.PLATFORMS_ARMED then (s.plats.filter fun e => e.2.held).length
  else if key = Od.STAGED_TARGET then s.stagedTarget
  else if key = Od.STAGED_NONCE then s.stagedNonce
  else if key = Od.STAGED_REMAINING_S then s.stagedSeconds
  else if key = Od.INTERLOCK_DEPTH then s.interlockDepth
  else if key = Od.FIRMWARE_VERSION && s.power.boot = 2 then 0
  else s.odv key

/-- Record `k` of `LAND_MAP`: 90 rows to a column, in ascending column and then row (R619). The manual does not place the groups, so
the land's group and its index are the part's. -/
def landRecord (k : Nat) : Nat :=
  let w := (Config.landMap k).toNat
  fields [(0, 8, k / 90 + 1), (8, 8, k % 90 + 1), (16, 8, bitsOf w 16 8), (32, 16, bitsOf w 32 16)]

/-- The bytes that a read of an entry gives (R510, R512). -/
def State.entryBytes (s : State) (key : Nat) (i : OdInfo) : List Byte :=
  if i.acc = .wo then (if i.ty = .octets || i.ty = .str || i.ty = .domain then [] else leBytes i.len 0)
  else if key = Od.IDENTITY_CERTS then Config.identityCerts
  else if key = Od.LAND_MAP then (List.range 11880).flatMap fun k => leBytes 8 (landRecord k)
  else if key = Od.FW_UPDATE then []
  else leBytes i.len (s.nowValue key)

/-! ### Ranges (R514) -/

/-- Entries whose values lie in one range and are multiples of one number: key, lowest, highest, multiple. -/
def odRanges : List (Nat × Nat × Nat × Nat) := [
  (Od.ISLAND_PARK_LIMIT, 1, 10000, 1),
  (Od.AMAX_WINDOW_DEFAULT, 1, 64, 1),
  (Od.SCALE_MARGIN_DEFAULT, 0, 4, 1),
  (Od.SPIKE_ACTION, 0, 1, 1),
  (Od.SPIKE_K, 0x3F800000, 0x42800000, 1),
  (Od.SPIKE_ALPHA, 0x37800000, 0x3F000000, 1),
  (Od.SPIKE_WARMUP, 1, 2 ^ 31, 1),
  (Od.TT_IMAGE_ADDR, 0, 2 ^ 57 - 1, 4096),
  (Od.TT_IMAGE_BYTES, 64, 2 ^ 34, 1),
  (Od.JOB_STEPS, 0, 2 ^ 44 - 1, 1),
  (Od.TEACHER_BASE, 0, 2 ^ 56 - 1, 65536),
  (Od.SYNC_HANG_REPORT, 10, 600000, 1),
  (Od.SYNC_HANG_FAULT, 1000, 3600000, 1),
  (Od.BARRIER_TIMEOUT, 100, 600000, 1),
  (Od.DDR5_RESERVE_BASE, 0, 2 ^ 56 - 1, 2 ^ 30),
  (Od.DDR5_RESERVE_SIZE, 0, 2 ^ 56 - 1, 2 ^ 30),
  (Od.POD_PACKAGE_ID, 0, 1023, 1),
  (Od.POD_SIZE, 1, 1024, 1),
  (Od.TERMINUS_PKG, 0, 1023, 1),
  (Od.DEPUTY_PKG, 0, 1023, 1),
  (Od.LANE_SER_LIMIT, 0x3727C5AC, 0x3C23D70A, 1)]

def odRangesMore : List (Nat × Nat × Nat × Nat) := [
  (Od.RED_RING_SIZE, 1, 1024, 1),
  (Od.RED_SHADOW_DEADLINE, 100, 1000000, 1),
  (Od.RED_HARD_TIMEOUT, 100, 600000, 1),
  (Od.SERVE_REQ_PER_CONTEXT, 1, 16384, 1),
  (Od.SERVE_CTX_MAX, 2, 1048576, 1),
  (Od.SERVE_CHUNK_TOKENS, 32, 4096, 32),
  (Od.SERVE_CHUNK_MAX_WAIT, 1, 255, 1),
  (Od.SERVE_STREAM_RATE, 0x3F800000, 0x42033333, 1),
  (Od.SERVE_FW_BASE, 0, 2 ^ 56 - 1, 2 ^ 30),
  (Od.SERVE_FW_BYTES, 0, 2 ^ 56 - 1, 2 ^ 30),
  (Od.KV_POOL_BASE, 0, 2 ^ 56 - 1, 65536),
  (Od.KV_POOL_PAGES, 0, 15728640, 1),
  (Od.KV_SCALE_BASE, 0, 2 ^ 56 - 1, 2048),
  (Od.KV_FMT_TEACHER, 0, 1, 1),
  (Od.KV_FMT_STUDENT, 0, 1, 1),
  (Od.SUMMARY_BASE, 0, 2 ^ 57 - 1, 2 ^ 30),
  (Od.HP_CXL_ENABLE, 0, 3, 1),
  (Od.STATS_PERIOD_MS, 10, 3600000, 1),
  (Od.FN_PLCA_NODE_ID, 0, 31, 1),
  (Od.FN_PLCA_NODE_COUNT, 1, 32, 1),
  (Od.FN_PLCA_TO_TIMER, 20, 255, 1)]

def odRangesRest : List (Nat × Nat × Nat × Nat) := [
  (Od.TODP_UDP_PORT, 1024, 65535, 1),
  (Od.RISK_THRESHOLD, 1, 1000, 1),
  (Od.RISK_DECAY, 32768, 65535, 1),
  (Od.CKPT_DELTA_DIRTY_PCT, 0, 100, 1),
  (Od.CKPT_DELTA_MIN_MIB, 1, 65535, 1),
  (Od.CKPT_DELTA_CHAIN_MAX, 1, 64, 1),
  (Od.CKPT_INTERVAL_STEPS, 1, 2 ^ 31, 1),
  (Od.DEPOT_WEAR_LIMIT, 2, 50, 1)]

/-- Single values that an entry allows outside its range. -/
def odAlso : List (Nat × Nat) := [
  (Od.SYNC_HANG_FAULT, 0),
  (Od.POD_PACKAGE_ID, 0xFFFF),
  (Od.TERMINUS_PKG, 0xFFFF),
  (Od.DEPUTY_PKG, 0xFFFF),
  (Od.RED_RING_POS, 0xFFFF),
  (Od.RED_SHADOW_OF, 0xFFFF),
  (Od.FN_PLCA_NODE_ID, 0xFF)]

/-- The value lies in its entry's range. -/
def inOdRange (key v : Nat) : Bool :=
  match (odRanges ++ odRangesMore ++ odRangesRest).find? fun r => r.1 = key with
  | some r => r.2.1 ≤ v && v ≤ r.2.2.1 && v % r.2.2.2 = 0
  | none => true

/-- A CXL window keeps R315: within one tier, at most 256 GiB, apart from the other port's. -/
def State.windowOk (s : State) (base size : Nat) (otherBase otherSize : Nat) : Bool :=
  base % GiB = 0 && size % GiB = 0 && size ≤ 256 * GiB && regionOf base ≤ 1 &&
  (size = 0 || (s.inTier base size && !overlap base size otherBase otherSize))

def State.windowsOk (s : State) : Bool :=
  let v := s.odv
  s.windowOk (v Od.CXL_WIN_BASE_HP0) (v Od.CXL_WIN_SIZE_HP0) (v Od.CXL_WIN_BASE_HP1) (v Od.CXL_WIN_SIZE_HP1) &&
  s.windowOk (v Od.CXL_WIN_BASE_HP1) (v Od.CXL_WIN_SIZE_HP1) (v Od.CXL_WIN_BASE_HP0) (v Od.CXL_WIN_SIZE_HP0)

/-- No two ranges of a list overlap. -/
def apart : List (Nat × Nat) → Bool
  | [] => true
  | r :: rs => rs.all (fun q => !overlap r.1 r.2 q.1 q.2) && apart rs

/-- The working copies of the loaded Timetable's tensors. -/
def State.studentWeights (s : State) : List (Nat × Nat) :=
  match s.loaded with
  | some img => img.updates.map fun x => (udWc x.1, 32768 * wgBlocks x.2)
  | none => []

/-- The serving areas keep apart from one another, from the weights and from the checkpoint reserve (R441). -/
def State.areasOk (s : State) : Bool :=
  let weights := (s.odv Od.TEACHER_BASE, s.odv Od.TEACHER_BYTES) :: s.studentWeights
  apart s.servingAreas && s.servingAreas.all fun r =>
    !s.inReserve r.1 r.2 && weights.all fun q => !overlap r.1 r.2 q.1 q.2

/-- Entries that place the serving areas. -/
def areaKeys : List Nat :=
  [Od.SERVE_FW_BASE, Od.SERVE_FW_BYTES, Od.KV_POOL_BASE, Od.KV_POOL_PAGES, Od.KV_SCALE_BASE, Od.SUMMARY_BASE, Od.SUMMARY_SIZE]

/-- Conditions on a value that other entries or state enter. -/
def State.fitsOthers (s : State) (key v : Nat) : Bool :=
  if key = Od.JOB_STEPS then v != 0 || s.serveMode
  else if key = Od.TEACHER_BYTES then v ≤ s.odv Od.HBM_VISIBLE_BYTES
  else if key = Od.RED_RING_POS || key = Od.RED_SHADOW_OF then v = 0xFFFF || v < s.odv Od.RED_RING_SIZE
  else if key = Od.RED_HARD_TIMEOUT then s.odv Od.RED_SHADOW_DEADLINE < 1000 * v
  else if key = Od.CKPT_INTERVAL_RISK_STEPS then 1 ≤ v && v ≤ s.odv Od.CKPT_INTERVAL_STEPS
  else if key = Od.DDR5_RATE_LIMIT then [4800, 5200, 5600, 6000, 6400].contains v
  else if keyIndex key = 0x2110 then 1 ≤ v
  else if keyIndex key = 0x4020 then (s.setOd key v).windowsOk
  else if key = Od.SUMMARY_SIZE && v % GiB != 0 then false
  else if areaKeys.contains key then (s.setOd key v).areasOk
  else true

/-- A reserved encoding, or a bit that the entry states as zero. -/
def reservedBits (key v : Nat) : Bool :=
  if key = Od.LP_MEDIUM then (List.range 8).any fun n => bitsOf v (2 * n) 2 = 3
  else if keyIndex key / 16 = 0x310 && keySub key = 5 then v != 0xFFFFFFFF && bitsOf v 20 12 != 0
  else false

/-- The status that a value of an entry earns. -/
def State.valueStatus (s : State) (key : Nat) (i : OdInfo) (v : Nat) : Nat :=
  if reservedBits key v then stReserved
  else if i.ty = .bool && 1 < v then stRange
  else if odAlso.contains (key, v) then stOk
  else if inOdRange key v && s.fitsOthers key v then stOk
  else stRange

/-! ### Entries that an armed job or context closes -/

/-- A Serve context is armed or suspended. -/
def State.serveArmed (s : State) : Bool := s.plats.any fun e => e.2.held && s.serveMode

/-- A write of the entry is refused with `BUSY` (R129, R241, R249, R283, R327, R367, R397, R441, R460, R475, R567). -/
def State.closedNow (s : State) (key : Nat) : Bool :=
  let ix := keyIndex key
  let any' : Bool := key = Od.JOB_SEED || ix = 0x5001 || key = Od.SYNC_HANG_REPORT || key = Od.SYNC_HANG_FAULT || ix = 0x3400 ||
    key = Od.DDR5_RESERVE_BASE || key = Od.DDR5_RESERVE_SIZE || ix = 0x4020 || ix = 0x3000 || ix = 0x3010 || ix = 0x3500 || ix = 0x3510
  let distil : Bool := (ix = 0x5200 && 3 ≤ keySub key && keySub key ≤ 7) ||
    (ix = 0x2140 && 8 ≤ keySub key && keySub key ≤ 10) || (ix = 0x7200 && 9 ≤ keySub key && keySub key ≤ 11)
  let serve : Bool := (ix = 0x6000 && keySub key != 5 && keySub key != 6) || ix = 0x6010 || ix = 0x6020 || ix = 0x2110 || ix = 0x2120
  (any' && s.anyArmed) || (distil && s.job.active) || (serve && s.serveArmed)

/-- Actions that need the main domain (R517). -/
def mainKeys : List Nat :=
  [Od.UPD_DIGEST, Od.TT_LOAD, Od.CKPT_REQUEST, Od.CKPT_DRAINED, Od.CKPT_RESTORE, Od.CKPT_SERVE_NOW, Od.BUDDY_SEND, Od.LINK_PORT_RESET]

/-! ### Writing -/

/-- A write of `UPD_DIGEST` (R235). -/
def State.writeDigest (s : State) (v : Nat) : Wrote :=
  if v != 1 then s.refused stRange
  else if s.stepRunning then s.refused stBusy
  else match s.loaded with
    | some img => (stOk, s.digestPass img (s.odv Od.JOB_STEP))
    | none => (stOk, s)

/-- A write of `POINTS_COMMIT` (R362, R367). -/
def State.writeCommit (s : State) (v : Nat) : Wrote :=
  if s.anyArmed then s.refused stBusy
  else if v = s.odv Od.POINTS_EPOCH then (stOk, s)
  else if s.stagedOk then (stOk, s.commitPoints v)
  else s.refused stRange

/-- A write of `LP_ENABLE`: 0 holds the port in electrical idle, 1 lets it train. -/
def State.enablePort (s : State) (p v : Nat) : State :=
  let old := s.odv (lpKey Od.LP_ENABLE p)
  let s := s.setOd (lpKey Od.LP_ENABLE p) v
  if v = 0 && s.odv (lpKey Od.LP_STATE p) != 0 then s.portLost p 0
  else if v = 1 && old = 0 && s.mainUp then s.setOd (lpKey Od.LP_STATE p) 1
  else s

/-- The feed that a buddy reports is not the block's to know: a free value. -/
def State.writeBuddy (s : State) (v : Nat) : Wrote :=
  { s with fresh := s.fresh + 1 }.setBuddy v (Config.freeNonce s.fresh).toNat

/-- Settings of the field network that take effect at a BEACON (R528). -/
def fnKeys : List Nat := [Od.FN_ENABLE, Od.FN_PLCA_NODE_ID, Od.FN_PLCA_NODE_COUNT, Od.FN_PLCA_TO_TIMER, Od.TODP_UDP_PORT]

/-- The value of an entry written, once its range and its lock allow (R511, R516). -/
def State.applyEntry (s : State) (key v : Nat) : Wrote :=
  if key = Od.TT_LOAD then s.ttLoad v
  else if key = Od.UPD_DIGEST then s.writeDigest v
  else if key = Od.POINTS_COMMIT then s.writeCommit v
  else if key = Od.PACKAGE_MODE then s.setMode v
  else if key = Od.POWER_PROFILE then s.setProfile v
  else if key = Od.POWER_STATE_REQ then s.powerRequest v
  else if key = Od.PACKAGE_RESET then s.writeReset v
  else if key = Od.LINK_PORT_RESET then (stOk, s.resetPorts v)
  else if key = Od.BUDDY_PKG then s.writeBuddy v
  else if key = Od.BUDDY_SEND then s.buddySend v
  else if key = Od.CKPT_REQUEST then s.requestCkpt v
  else if key = Od.CKPT_DRAINED then s.drainCkpt v
  else if key = Od.CKPT_RESTORE then s.restoreAny v
  else if key = Od.CKPT_SERVE_NOW then s.serveCkpt v
  else if key = Od.STATS_LATCH_NOW then s.latchNow v
  else if key = Od.STICKY_LOG then (stOk, s.clearSticky v)
  else if key = Od.FE_VALID then (stOk, if v = 1 then s.clearCapture else s)
  else if keyIndex key / 16 = 0x310 && keySub key = 6 then (stOk, s.enablePort (keyIndex key % 16) v)
  else if key = Od.DDR5_RATE_LIMIT || key = Od.HP_CXL_ENABLE then (stAtReset, s.setOd key v)
  else if fnKeys.contains key then
    (stOk, { s.setOd key v with fieldNet := { s.fieldNet with settled := false } })
  else (stOk, s.setOd key v)

/-- A write of a whole value to an entry that is neither RW2 nor DOMAIN. -/
def State.writeOd (s : State) (key : Nat) (i : OdInfo) (v : Nat) : Wrote :=
  let st := s.valueStatus key i v
  if st != stOk then s.refused st
  else if s.closedNow key then s.refused stBusy
  else if mainKeys.contains key && !s.power.ready then s.refused stUnavailable
  else s.applyEntry key v

/-! ### DOMAIN values -/

/-- The status that a closed DOMAIN value earns (R366, R392, R460). -/
def State.domainStatus (s : State) (key : Nat) (bs : List Byte) : Nat :=
  let words := fun (n : Nat) => (chunks n (bs.length / n + 1) bs).map leNat
  if key = Od.POINTS_TABLE then (if (words 4).any fun w => bitsOf w 22 10 != 0 then stReserved else stOk)
  else if key = Od.RED_RING_TABLE then (if (words 2).all (· < 1024) then stOk else stRange)
  else if key = Od.RED_SHADOW_TABLE then (if (words 2).all fun w => w < 1024 || w = 0xFFFF then stOk else stRange)
  else if keyIndex key = keyIndex Od.RESERVED_CORES then
    (if [0, 1, 2].all fun n => Od.RESERVED_CORES + n = key || (s.odv (Od.RESERVED_CORES + n) &&& leNat bs) = 0 then stOk else stRange)
  else stOk

/-- A closed DOMAIN value checked and applied (R519). -/
def State.closeDomain (s : State) (key : Nat) (bs : List Byte) : Wrote :=
  if key = Od.FW_UPDATE then (stOk, s.updateFirmware bs)
  else if bs.length != odLen key then s.refused stLength
  else
    let st := s.domainStatus key bs
    if st != stOk then s.refused st
    else if s.closedNow key then s.refused stBusy
    else (stOk, s.setOd key (leNat bs))

/-- The staging buffer of a path (R519). -/
def State.segment (s : State) (path : Nat) : Option Segments := s.security.segments.find? fun g => g.path = path

def State.setSegment (s : State) (path : Nat) (g : Option Segments) : State :=
  let rest := s.security.segments.filter fun x => x.path != path
  { s with security := { s.security with segments := rest ++ g.toList } }

/-- Largest DOMAIN value (`TODP_DOMAIN_MAX`). -/
def domainMax : Nat := 16777216

/-- One segment of a write: staged, refused with the staged value discarded, or closed. -/
def State.writeSegment (s : State) (path key offset : Nat) (bs : List Byte) (last : Bool) (close : State → List Byte → Wrote) : Wrote :=
  let before : Option (List Byte) :=
    if offset = 0 then some []
    else match s.segment path with
      | some g => if g.key = key && g.data.length = offset then some g.data else none
      | none => none
  match before with
  | none => (stSegment, s.setSegment path none)
  | some old =>
    if bs.isEmpty || domainMax < (old ++ bs).length then (stLength, s.setSegment path none)
    else if last then close (s.setSegment path none) (old ++ bs)
    else (stOk, s.setSegment path (some { path := path, key := key, data := old ++ bs }))

end Sys2Proof.Machine
end

