-- ==== Sys2Proof/Machine/Requests.lean ====
section
/-! DEFINITION. Frames of the Object Dictionary protocol, the roles of their senders, and how each request is served (15;
17, R569 to R573). -/

namespace Sys2Proof.Machine

open Sys2Proof

/-! ### Frames (15, "TODP") -/

def tpHeadBytes : Nat := 20

def tpField (bs : List Byte) (lo len : Nat) : Nat := bitsOf (leNat (bs.take tpHeadBytes)) lo len
def tpOp (bs : List Byte) : Nat := tpField bs 4 4
def tpLast (bs : List Byte) : Bool := tpField bs 16 1 = 1
def tpPriv (bs : List Byte) : Bool := tpField bs 17 1 = 1
def tpXid (bs : List Byte) : Nat := tpField bs 32 32
def tpIndex (bs : List Byte) : Nat := tpField bs 64 16
def tpSub (bs : List Byte) : Nat := tpField bs 80 8
def tpKey (bs : List Byte) : Nat := 256 * tpIndex bs + tpSub bs
def tpType (bs : List Byte) : Nat := tpField bs 88 8
def tpOffset (bs : List Byte) : Nat := tpField bs 96 32
def tpLen (bs : List Byte) : Nat := tpField bs 128 16
def tpData (bs : List Byte) : List Byte := bs.drop tpHeadBytes

/-- A frame answered with `BAD_FRAME` (R530); `todp` where `TP_PRIV` must be 0. -/
def tpBad (todp : Bool) (bs : List Byte) : Bool :=
  bs.length < tpHeadBytes || tpField bs 0 4 != 1 || tpOp bs = 0 || 7 < tpOp bs || tpField bs 8 8 != 0 || (todp && tpPriv bs) ||
  tpField bs 18 14 != 0 || 0xD < tpType bs || 1024 < tpLen bs || tpField bs 144 16 != 0 || bs.length != tpHeadBytes + tpLen bs

/-- A response frame. -/
def tpResponse (req : List Byte) (status ty : Nat) (data : List Byte) : List Byte :=
  leBytes tpHeadBytes (fields [(0, 4, 1), (4, 4, 3), (8, 8, status), (32, 32, tpXid req), (64, 16, tpIndex req), (80, 8, tpSub req),
    (88, 8, ty), (96, 32, tpOffset req), (128, 16, data.length)]) ++ data

/-- What a frame asks for. `rw2` is a write of a protection entry, `firmware` one of `FW_UPDATE`. -/
inductive FrameKind where
  | bad | read | write | domain | rw2 | firmware | discover | mctp | secured | none
  deriving DecidableEq, Repr

def writeKind (key : Nat) : FrameKind :=
  if key = Od.FW_UPDATE then .firmware
  else match odInfo key with
    | some i => if i.acc = .rw2 then .rw2 else if i.ty = .domain then .domain else .write
    | Option.none => .write

/-- The mailbox answers every operation but `READ`, `WRITE` and `MCTP` with `BAD_FRAME` (R534). -/
def frameKind (todp : Bool) (bs : List Byte) : FrameKind :=
  if tpBad todp bs then .bad
  else match tpOp bs with
    | 1 => .read
    | 2 => writeKind (tpKey bs)
    | 6 => .mctp
    | 4 => if todp then .discover else .bad
    | 7 => if todp then .secured else .bad
    | _ => if todp then .none else .bad

/-! ### Roles (R512, R612) -/

inductive Role where
  | reader | host | privileged
  deriving DecidableEq, Repr

/-- The role may write an entry. -/
def Role.mayWrite (r : Role) (key : Nat) (acc : OdAccess) : Bool :=
  if key = Od.POWER_STATE_REQ || key = Od.PACKAGE_RESET || key = Od.LINK_PORT_RESET then r = .privileged
  else match acc with
    | .rw | .wo | .w1c => r != .reader
    | .rwp => r = .privileged
    | .rw2 => true
    | .const | .ro => false

/-! ### One request served -/

/-- A request's answer: status, type code and data, with the state after it. -/
structure Answer where
  status : Nat
  ty : Nat
  data : List Byte
  state : State
  deriving DecidableEq, Repr

def answerTo (bs : List Byte) (w : Wrote) : Answer := { status := w.1, ty := tpType bs, data := [], state := w.2 }

/-- What the boot-ROM responder reads (R40, R583). -/
def romReads (key : Nat) : Bool := keyIndex key = 0x1000 || key = Od.ACTIVE_CONTROL_DIE

/-- A `READ` (R509 to R512, R519, R530). -/
def State.serveRead (s : State) (bs : List Byte) : Answer :=
  let key := tpKey bs
  let no := fun (st : Nat) => answerTo bs (s.refused st)
  match odInfo key with
  | none => no stNoEntry
  | some i =>
    if s.power.boot = 2 && !romReads key then no stUnavailable
    else if tpType bs != 0 && tpType bs != i.ty.code then no stType
    else if i.ty != .domain && (tpOffset bs != 0 || tpLast bs) then no stRange
    else
      let v := s.entryBytes key i
      { status := stOk, ty := i.ty.code, data := if i.ty = .domain then (v.drop (tpOffset bs)).take 1024 else v, state := s }

/-- A `WRITE` in a role, on a path's staging buffer (R512 to R514, R519, R530, R569 to R573, R583). -/
def State.serveWrite (s : State) (role : Role) (path : Nat) (bs : List Byte) : Wrote :=
  let key := tpKey bs
  let seg := s.writeSegment path key (tpOffset bs) (tpData bs) (tpLast bs)
  match odInfo key with
  | none => s.refused stNoEntry
  | some i =>
    if s.power.boot = 2 && key != Od.FW_UPDATE then s.refused stUnavailable
    else if i.acc = .const || i.acc = .ro then s.refused stReadOnly
    else if s.power.boot != 2 && !role.mayWrite key i.acc then s.refused stDenied
    else if tpType bs != i.ty.code then s.refused stType
    else if i.acc = .rw2 then seg fun (s : State) v => s.rw2Close key v (role = .privileged)
    else if i.ty = .domain then seg fun (s : State) v => s.closeDomain key v
    else if tpOffset bs != 0 || tpLast bs then s.refused stRange
    else if tpLen bs != i.len then s.refused stLength
    else s.writeOd key i (leNat (tpData bs))

/-- The staging buffer of a path: one for each mailbox, one for TODP. -/
def OdPath.buffer : OdPath → Nat
  | .mailbox p => p
  | .todp _ _ => 2

def OdPath.isTodp : OdPath → Bool
  | .mailbox _ => false
  | .todp _ _ => true

/-- An MCTP packet is kept until its request is complete (R531). -/
def State.keepPacket (s : State) (path : OdPath) (bs : List Byte) : State :=
  { s with security := { s.security with mctp := s.security.mctp ++ [(path, bs)] } }

/-- `ANNOUNCE` data (R533). -/
def State.announceData (s : State) : List Byte :=
  let sized := fun (key : Nat) => let n := odLen key; leBytes 1 n ++ leBytes n (s.odv key)
  sized Od.PART_NUMBER ++ sized Od.SERIAL_NUMBER ++ sized Od.FN_MAC_ADDR ++ leBytes 2 s.pkg ++ leBytes 1 (s.odv Od.FN_PLCA_NODE_ID)

def State.announce (s : State) (req : List Byte) : List Byte :=
  leBytes tpHeadBytes (fields [(0, 4, 1), (4, 4, 5), (32, 32, tpXid req), (128, 16, s.announceData.length)]) ++ s.announceData

/-- A `READ`, `WRITE` or `MCTP` frame, or a malformed one. -/
def State.serveOne (s : State) (role : Role) (path : OdPath) (bs : List Byte) : Answer :=
  match frameKind path.isTodp bs with
  | .read => s.serveRead bs
  | .write | .domain | .rw2 | .firmware => answerTo bs (s.serveWrite role path.buffer bs)
  | .mctp =>
    if s.power.boot = 2 then answerTo bs (s.refused stUnavailable) else answerTo bs (stOk, s.keepPacket path (tpData bs))
  | _ => answerTo bs (s.refused stBadFrame)

def Answer.frame (a : Answer) (bs : List Byte) : List Byte := tpResponse bs a.status a.ty a.data

/-- The write whose reset begins once it is answered (R605): nothing changes before. -/
def resetWrite (role : Role) (todp : Bool) (bs : List Byte) : Bool :=
  frameKind todp bs = .write && tpKey bs = Od.PACKAGE_RESET && role = .privileged

/-! ### The mailbox (R534) -/

/-- The frame in `MBX_REQUEST`. -/
def HostPort.window (h : HostPort) : List Byte :=
  let w := (h.mbxRequest ++ List.replicate (1044 - h.mbxRequest.length) 0).take 1044
  w.take (tpHeadBytes + tpLen w)

/-- Requests are served by the mailbox of a Ready package. -/
def State.mailboxRuns (s : State) : Bool := s.power.ready && s.fwRuns

/-- A write of 1 to `MBX_GO`. -/
def execMbxGo (port : Nat) (s : State) : Out :=
  within (portOk port) "port" <|
    let h := s.port port
    if !s.mailboxRuns || h.mbxServing.isSome then s
    else s.setPort port { h with mbxServing := some h.window }

/-- The role of a mailbox request. -/
def State.mailboxRole (s : State) (bs : List Byte) : Role :=
  if tpPriv bs && s.odv Od.MBX_PRIV_ENABLE = 1 then .privileged else .host

/-- The response stands in `MBX_RESPONSE`, and `MBX_DONE` is set; nothing where a reset has abandoned the request. -/
def State.mailboxAnswer (s : State) (port : Nat) (resp : List Byte) : State :=
  let h := s.port port
  if h.mbxServing.isNone then s
  else
    let s := s.setPort port { h with mbxResponse := resp, mbxServing := none, mbxCtrl := (h.mbxCtrl &&& 0x1F8) + 4 }
    let s := s.setOd Od.MBX_SERVED (s.odv Od.MBX_SERVED + 1)
    if bitOf h.mbxCtrl 3 then s.raise port (bitsOf h.mbxCtrl 4 5) else s

/-- The firmware serves the request of a mailbox. -/
def State.serveMailbox (s : State) (port : Nat) (bs : List Byte) : State :=
  let role := s.mailboxRole bs
  let a := s.serveOne role (.mailbox port) bs
  if resetWrite role false bs && a.status = stOk then (s.mailboxAnswer port (a.frame bs)).writeReset (leNat (tpData bs)) |>.2
  else a.state.mailboxAnswer port (a.frame bs)

/-! ### TODP (R525, R532) -/

/-- The field-network port receives and answers. -/
def State.fnAnswers (s : State) : Bool :=
  s.power.vaux && s.power.boot != 0 && (s.odv Od.FN_STATE = 1 || s.odv Od.FN_STATE = 2)

/-- A frame waits for the next transmit opportunity. -/
def State.fnQueue (s : State) (out : HostOut) (settles : Bool) : State :=
  { s with fieldNet := { s.fieldNet with queue := s.fieldNet.queue ++ [{ out := out, settles := settles }] } }

/-- A response kept for its source: the last 16 of each. -/
def State.keepResponse (s : State) (addr xid : Nat) (resp : List Byte) : State :=
  let mine := s.security.kept.filter fun k => k.addr = addr
  let others := s.security.kept.filter fun k => k.addr != addr
  let k : Kept := { addr := addr, xid := xid, response := resp, atMs := s.timeMs }
  { s with security := { s.security with kept := others ++ (mine ++ [k]).drop (mine.length - 15) } }

/-- The response kept for a transaction identifier of the last 2 s. -/
def State.keptResponse (s : State) (addr xid : Nat) : Option (List Byte) :=
  (s.security.kept.find? fun k => k.addr = addr && k.xid = xid && s.timeMs - k.atMs ≤ 2000).map (·.response)

/-- A response queued, kept and counted. -/
def State.todpAnswer (s : State) (addr udpPort xid status : Nat) (resp : List Byte) (settles : Bool) : State :=
  let s := ((s.fnQueue (.todp (.todp addr udpPort) resp) settles).keepResponse addr xid resp).count Od.TODP_REQUESTS 1
  if status = stOk || status = stStaged || status = stAtReset then s else s.count Od.TODP_REFUSED 1

/-- A TODP frame that has not been answered before: a new one is given to `serve`, a repeated one gets the kept response. -/
def State.todpFrame (s : State) (addr udpPort : Nat) (bs : List Byte) (serve : State → State) : State :=
  if !s.fnAnswers then s
  else
    let s := s.count Od.FN_FRAMES_RX 1
    if udpPort != s.fieldNet.udpPort then s
    else match s.keptResponse addr (tpXid bs) with
      | some resp => (s.fnQueue (.todp (.todp addr udpPort) resp) false).count Od.TODP_DUPLICATES 1
      | none => serve s

/-- Every frame that waits is sent. -/
def State.fnFlush (s : State) : State :=
  s.fieldNet.queue.foldl (fun (s : State) f => (s.emit f.out).count Od.FN_FRAMES_TX 1)
    { s with fieldNet := { s.fieldNet with queue := [], attempts := 0 } }

/-- A write of a field-network setting that was accepted. -/
def settlesWrite (todp : Bool) (bs : List Byte) (status : Nat) : Bool :=
  frameKind todp bs = .write && fnKeys.contains (tpKey bs) && status = stOk

/-- A TODP request outside a session holds `READER`. -/
def State.serveTodp (s : State) (addr udpPort : Nat) (bs : List Byte) : State :=
  s.todpFrame addr udpPort bs fun (s : State) =>
    let a := s.serveOne .reader (.todp addr udpPort) bs
    a.state.todpAnswer addr udpPort (tpXid bs) a.status (a.frame bs) (settlesWrite true bs a.status)

/-! ### The rows -/

/-- A frame of one of some kinds is served on its path. -/
def State.serveFrame (s : State) (path : OdPath) (bs : List Byte) (mine : FrameKind → Bool) : State :=
  if !mine (frameKind path.isTodp bs) then s
  else match path with
    | .mailbox p => if s.mailboxRuns && (s.port p).mbxServing = some bs then s.serveMailbox p bs else s
    | .todp addr udpPort => s.serveTodp addr udpPort bs

/-- A path that the package has. -/
def OdPath.ok : OdPath → Bool
  | .mailbox p => portOk p
  | .todp addr udpPort => addr < 2 ^ 128 && udpPort < 65536

def execOdRead (path : OdPath) (frame : List Byte) (s : State) : Out :=
  within path.ok "path" <| s.serveFrame path frame fun k => k = .read || k = .bad

def execOdWrite (path : OdPath) (frame : List Byte) (s : State) : Out :=
  within path.ok "path" <| s.serveFrame path frame fun k => k = .write || k = .bad

def execDomainSegmentWrite (path : OdPath) (frame : List Byte) (s : State) : Out :=
  within path.ok "path" <| s.serveFrame path frame fun k => k = .domain || k = .firmware

def execMctp (path : OdPath) (frame : List Byte) (s : State) : Out :=
  within path.ok "path" <| s.serveFrame path frame (· = .mctp)

/-- A two-party write of any protection entry (R575). -/
def execRw2Write (path : OdPath) (frame : List Byte) (s : State) : Out :=
  within path.ok "path" <| s.serveFrame path frame (· = .rw2)

/-- A write of one protection entry. -/
def State.serveEntry (s : State) (path : OdPath) (frame : List Byte) (keys : List Nat) : State :=
  if keys.contains (tpKey frame) then s.serveFrame path frame fun k => k = .rw2 || k = .firmware else s

def execAuthCancel (path : OdPath) (frame : List Byte) (s : State) : Out :=
  within path.ok "path" <| s.serveEntry path frame [Od.AUTH_CANCEL]

/-- A key while the package is `UNOWNED` (R569). -/
def execKeyEnrol (path : OdPath) (frame : List Byte) (s : State) : Out :=
  within path.ok "path" <| if s.owned then s else s.serveEntry path frame [Od.OWNER_KEY, Od.OPERATOR_KEY]

def execOwnershipRelease (path : OdPath) (frame : List Byte) (s : State) : Out :=
  within path.ok "path" <| s.serveEntry path frame [Od.OWNERSHIP_RELEASE]

def execDebugUnlock (path : OdPath) (frame : List Byte) (s : State) : Out :=
  within path.ok "path" <| s.serveEntry path frame [Od.DEBUG_UNLOCK]

def execFwUpdate (path : OdPath) (frame : List Byte) (s : State) : Out :=
  within path.ok "path" <| s.serveEntry path frame [Od.FW_UPDATE]

/-- `DISCOVER` (R533); the boot-ROM responder refuses it. -/
def execDiscover (addr udpPort : Nat) (frame : List Byte) (s : State) : Out :=
  within (OdPath.todp addr udpPort).ok "path" <|
    if frameKind true frame != .discover then s
    else s.todpFrame addr udpPort frame fun (s : State) =>
      if s.power.boot = 2 then
        s.todpAnswer addr udpPort (tpXid frame) stUnavailable (tpResponse frame stUnavailable 0 []) false
      else s.todpAnswer addr udpPort (tpXid frame) stOk (s.announce frame) false

/-- The session whose secret opens a secured message from a path, and what it opens to. -/
def State.openSecured (s : State) (path : OdPath) (bs : List Byte) : Option (Session × List Byte) :=
  s.security.sessions.findSome? fun x =>
    if x.path = path then (Config.securedOpen x.secret bs).map fun m => (x, m) else none

/-- A request inside a session (R531): its sender's proven key decides its role. It gets no response once its session has
ended (R579), and where nothing opens it. -/
def State.serveSecured (s : State) (addr udpPort : Nat) (bs : List Byte) : State :=
  match s.openSecured (.todp addr udpPort) (tpData bs) with
  | none => s
  | some (x, m) =>
    let role : Role := if x.signer = 0 then .reader else .privileged
    let inner := frameKind true m
    let a := if inner = .mctp then answerTo m (s.refused stBadFrame) else s.serveOne role (.todp addr udpPort) m
    let resp := tpResponse bs stOk 0 (Config.securedSeal x.secret (a.frame m))
    if resetWrite role true m && a.status = stOk then
      (s.todpAnswer addr udpPort (tpXid bs) a.status resp false).fnFlush.writeReset (leNat (tpData m)) |>.2
    else if a.state.security.sessions.contains x then
      a.state.todpAnswer addr udpPort (tpXid bs) a.status resp (settlesWrite true m a.status)
    else a.state

def execSecured (path : OdPath) (frame : List Byte) (s : State) : Out :=
  within path.ok "path" <|
    match path with
    | .mailbox _ => s
    | .todp addr udpPort =>
      if frameKind true frame != .secured then s
      else s.todpFrame addr udpPort frame fun (s : State) =>
        if s.power.boot = 2 then
          s.todpAnswer addr udpPort (tpXid frame) stUnavailable (tpResponse frame stUnavailable 0 []) false
        else s.serveSecured addr udpPort frame

end Sys2Proof.Machine
end

