-- ==== Sys2Proof/Machine/FieldNetwork.lean ====
section
/-! DEFINITION. The 10BASE-T1S port (15, R525 to R529) and attestation over SPDM (17, R585, R586). -/

namespace Sys2Proof.Machine

open Sys2Proof

/-! ### The port -/

/-- The transceiver is driven: VAUX is present and a control die answers. -/
def State.fnUp (s : State) : Bool := s.power.vaux && s.power.boot != 0 && s.odv Od.FN_STATE != 0

/-- The settings as the Object Dictionary holds them. -/
def State.fnSettings (s : State) : FieldNet :=
  { s.fieldNet with
    settled := true
    enable := s.odv Od.FN_ENABLE = 1
    nodeId := s.odv Od.FN_PLCA_NODE_ID
    nodeCount := s.odv Od.FN_PLCA_NODE_COUNT
    toTimer := s.odv Od.FN_PLCA_TO_TIMER
    udpPort := s.odv Od.TODP_UDP_PORT }

/-- `FN_STATE` of a port that a node identifier gives. -/
def fnStateOf (f : FieldNet) : Nat := if !f.enable then 0 else if f.nodeId = 0xFF then 2 else 1

/-- The port starts: duplicate address detection has found the address free or taken (R529). -/
def execFnPortStart (duplicate : Bool) (s : State) : Out :=
  within true "" <|
    if !s.power.vaux || s.power.boot = 0 then s
    else
      let f := { s.fnSettings with queue := [], attempts := 0 }
      { s with fieldNet := f }.setOd Od.FN_STATE (if f.enable && duplicate then 3 else fnStateOf f)

/-- The first BEACON after the responses have been sent (R528). -/
def execFnSettingApply (s : State) : Out :=
  within true "" <|
    if !s.power.vaux || s.power.boot = 0 || s.fieldNet.settled || s.fieldNet.queue.any (·.settles) then s
    else
      let f := s.fnSettings
      let st := s.odv Od.FN_STATE
      if !f.enable then { s with fieldNet := { f with queue := [], attempts := 0 } }.setOd Od.FN_STATE 0
      else if st = 0 || st = 3 then { s with fieldNet := f }
      else { s with fieldNet := f }.setOd Od.FN_STATE (fnStateOf f)

/-- No valid BEACON for 400 µs (R526). -/
def execBeaconLoss (elapsedUs : Nat) (s : State) : Out :=
  within true "" <|
    if s.fnUp && s.odv Od.FN_STATE = 1 && s.fieldNet.nodeId != 0 && 400 ≤ elapsedUs then
      (s.setOd Od.FN_STATE 2).count Od.FN_BEACON_LOSSES 1
    else s

/-- BEACONs return (R526). -/
def execBeaconReturn (s : State) : Out :=
  within true "" <| if s.fnUp && s.odv Od.FN_STATE = 2 && s.fieldNet.nodeId ≤ 31 then s.setOd Od.FN_STATE 1 else s

/-- The oldest frame that waits is sent (R525, R526). -/
def execPlcaTransmit (s : State) : Out :=
  within true "" <|
    match s.fieldNet.queue with
    | [] => s
    | f :: rest =>
      if !s.fnUp then s
      else ({ s with fieldNet := { s.fieldNet with queue := rest, attempts := 0 } }.emit f.out).count Od.FN_FRAMES_TX 1

/-- A collision in the device's own opportunity: the frame is sent again in the next one, and dropped after 16 attempts
(R527). -/
def execPlcaCollision (s : State) : Out :=
  within true "" <|
    match s.fieldNet.queue with
    | [] => s
    | _ :: rest =>
      if !s.fnUp || s.odv Od.FN_STATE != 1 then s
      else
        let s := (s.sticky 11).count Od.FN_PLCA_COLLISIONS 1
        let n := s.fieldNet.attempts + 1
        if 16 ≤ n then { s with fieldNet := { s.fieldNet with queue := rest, attempts := 0 } }
        else { s with fieldNet := { s.fieldNet with attempts := n } }

/-- Node 0 sends the BEACON of a cycle (R525). -/
def execPlcaBeacon (s : State) : Out :=
  within true "" <|
    if s.fnUp && s.odv Od.FN_STATE = 1 && s.fieldNet.nodeId = 0 then s.emit (.beacon s.fieldNet.nodeCount) else s

/-- Neighbour discovery is answered in every state of an enabled port (R529). -/
def execNeighbourDiscovery (frame : List Byte) (s : State) : Out :=
  within true "" <|
    if s.fnUp then (s.count Od.FN_FRAMES_RX 1).fnQueue (.fn (Config.neighbourAnswer frame)) false else s

/-! ### SPDM (R585, R586) -/

/-- An SPDM response leaves on the path of its request, whose packets are taken. -/
def State.spdmSend (s : State) (path : OdPath) (resp : List Byte) : State :=
  let s := { s with security := { s.security with mctp := s.security.mctp.filter fun x => x.1 != path } }
  match path with
  | .mailbox _ => s.emit (.mctp path resp)
  | .todp _ _ => s.fnQueue (.mctp path resp) false

/-- SPDM is answered on a path: over PCIe once the package is Ready, over TODP whenever the port answers. -/
def State.spdmRuns (s : State) (path : OdPath) : Bool :=
  s.fwRuns && match path with
    | .mailbox p => s.power.ready && (s.port p).linkUp
    | .todp _ _ => s.fnAnswers

def State.spdm (s : State) (path : OdPath) (f : State → State) : Out :=
  within path.ok "path" <| if s.spdmRuns path then f s else s

/-- CHALLENGE_AUTH: signed over the request and the certificate chain. -/
def execSpdmChallenge (path : OdPath) (request : List Byte) (s : State) : Out :=
  s.spdm path fun (s : State) => s.spdmSend path (Config.deviceSign (request ++ sha256 Config.identityCerts))

def State.keyBytes (s : State) (key : Nat) : List Byte := leBytes (odLen key) (s.odv key)

/-- Every entry of the 0x8000 range, in ascending order. -/
def protectionKeys : List Nat :=
  [Od.AUTH_CANCEL, Od.MBX_PRIV_ENABLE, Od.OWNER_KEY, Od.OPERATOR_KEY, Od.OWNERSHIP_RELEASE] ++
  (List.range 63).map (Od.PARTITION_HP0 + ·) ++ (List.range 63).map (Od.PARTITION_HP1 + ·) ++
  [Od.PARTITION_ENFORCE, Od.BUDDY_OVERRIDE, Od.SPARE_POLICY, Od.DEBUG_UNLOCK, Od.FW_SVN_FLOOR]

/-- The eight measurement blocks as the state gives them. -/
def State.measurement (s : State) (n : Nat) : List Byte :=
  let fw := s.flashImage s.power.running
  match n with
  | 1 => leBytes 32 Config.romHash.toNat
  | 2 => sha256 (fw.take 160 ++ fw.drop fwHead)
  | 3 => sha256 (leBytes 4 (fwVersion fw) ++ leBytes 2 (fwSvn fw) ++ s.keyBytes Od.FW_SVN_FLOOR)
  | 4 => sha256 (protectionKeys.flatMap s.keyBytes)
  | 5 => sha256 (s.keyBytes Od.DEBUG_UNLOCK ++ leBytes 1 s.security.debugMax)
  | 6 => sha256 (s.keyBytes Od.ACTIVE_CONTROL_DIE ++ ((List.range 48).map (Od.LDIE_PHYS + ·)).flatMap s.keyBytes ++
      ((List.range 48).map (Od.LCORE_SLOTS + ·)).flatMap s.keyBytes)
  | 7 => if s.loaded.isSome then s.keyBytes Od.TT_IMAGE_SHA256 else leBytes 32 0
  | 8 => if s.job.active then s.keyBytes Od.TEACHER_SHA256 else leBytes 32 0
  | _ => []

/-- MEASUREMENTS, with a signature over the request and the blocks. -/
def execSpdmGetMeasurements (path : OdPath) (request : List Byte) (s : State) : Out :=
  s.spdm path fun (s : State) =>
    let blocks := (fromTo 1 8).flatMap fun n => leBytes 1 n ++ s.measurement n
    s.spdmSend path (blocks ++ Config.deviceSign (request ++ blocks))

/-- The party whose enrolled key the requester proves: its signature ends the request. -/
def State.provenParty (s : State) (request : List Byte) : Nat :=
  let n := request.length - 7856
  let by' := fun (k : Nat) => s.partyKey k != 0 && n + 7856 = request.length &&
    Config.signatureValid (BitVec.ofNat 256 (s.partyKey k)) (request.take n) (request.drop n)
  if by' 1 then 1 else if by' 2 then 2 else 0

/-- KEY_EXCHANGE_RSP: a session opens, with the role that the requester has proved. -/
def execSpdmKeyExchange (path : OdPath) (request : List Byte) (s : State) : Out :=
  s.spdm path fun (s : State) =>
    let x : Session := { path := path, signer := s.provenParty request, secret := Config.spdmSecret request s.fresh }
    let s := { s with fresh := s.fresh + 1, security := { s.security with sessions := s.security.sessions ++ [x] } }
    s.spdmSend path (Config.deviceSign request)

end Sys2Proof.Machine
end

