-- ==== Sys2Proof/Machine/Junction.lean ====
section
/-! DEFINITION. The Junction's commands and events (05): issue and refusals (R133, R140, R148, R174), slots (R160, R161),
merging and finishing at the homes (R143 to R145, R152, R155 to R158, R165 to R169, R172), and emission (R144, R153). -/

namespace Sys2Proof.Machine

open Sys2Proof

/-! ### Issue -/

/-- A W32 value lies between two others. -/
def inRangeW (lo x hi : W32) : Bool := fge x lo && fge hi x

/-- `JCT_CTL` and the payload hold defined fields (R10, R174). -/
def jctFields (w : CmdWord) : Bool :=
  let c := jctCtl w
  let fn := jcFn c
  let pass := jcPass c
  bitsOf c 14 2 = 0 && bitsOf c 29 3 = 0 && bitsOf c 62 2 = 0 && w.toNat >>> 224 = 0 &&
  pass != 3 && jcSparse c != 3 && (jcSparse c = 0 || fn = 0) && (!jcGreedy c || 2 ≤ fn) &&
  (if fn = 0 then jcTaps c ≤ 8 else if fn = 1 then jcTaps c ≤ 7 else jcTaps c = 0) &&
  1 ≤ jcRows c && jcRows c ≤ 4096 && jcDies c ≤ 48 && jcDies c ≤ ceilDiv (jcVocab c) 128 &&
  (if fn = 3 then 1 ≤ jcDepth c && jcRows c % jcConv c = 0 else if fn = 2 then jcDepth c ≤ 14 else jcDepth c = 0) &&
  (pass != 2 || fn = 3) && (pass != 1 || fn < 2)

/-- Every participating Junction's share, at its largest. -/
def largestShare (V D : Nat) : Nat :=
  (List.range D).foldl (fun m j => let r := jctShare V D j; Nat.max m (r.2 - r.1)) 0

/-- The parameter block of a Junction command. -/
def State.jctParam (s : State) (it : Issue) : Nat := leNat (s.load (yardAddr (dieOfCore it.core) (cmdBits it.w 192 32)) 64)

/-- The command as it would start: its share and parameters. -/
def State.jctNew (s : State) (it : Issue) : JctCmd :=
  let die := dieOfCore it.core
  let c := jctCtl it.w
  let param := s.jctParam it
  let base := (it.platform * 2 ^ 64 + c) * 2 ^ 32 + jpRetOff param
  let n := tabGet 0 (s.die die).issued base
  { platform := it.platform, core := it.core, tcore := it.tcore, slot := it.slot, w := it.w, seq := (s.die die).seq
    key := base * 2 ^ 32 + n, j := it.tcore / 6, param := param, next := [], rows := [], merged := [], home := [], emitted := [], dropped := [] }

/-- Emission of a command: it emits gradient rows. -/
def State.jctEmits (s : State) (die : Nat) (c : JctCmd) : Bool :=
  jcPass c.ctl = 1 ||
  (jcPass c.ctl = 0 && ((jcFn c.ctl = 0 && jcRetain c.ctl) || (jcFn c.ctl = 1 && (!s.jctCos die c || jcRetain c.ctl))))

/-- The ranges of the parameter block are in place: within the Yard, granted, and wide enough (R140, R148, R295). -/
def State.jctRanges (s : State) (it : Issue) (c : JctCmd) : Bool :=
  let die := dieOfCore it.core
  let ctl := c.ctl
  let p := c.param
  let rows := jcRows ctl
  let yard := fun off n w => yardIn off n && s.dlOk it (0x80000000 + off) n w
  let conv := if jcFn ctl = 2 then rows else rows / jcConv ctl
  p >>> 288 = 0 && inRangeW 0x3D800000#32 (jpT p) 0x42800000#32 &&
  retainNeed ctl (largestShare (jcVocab ctl) (jcDies ctl)) ≤ jpRetBytes p && yard (jpRetOff p) (jpRetBytes p) true &&
  (if jcFn ctl < 2 then
     inRangeW 0 (jpAlpha p) oneW && yard (jpLabel p) (16 + 4 * rows) false &&
     fisFin (s.gradScale die c) && s.yardWord die (jpLabel p + 4) = rows &&
     s.yardWord die (jpLabel p + 8) = 0 && s.yardWord die (jpLabel p + 12) = 0 &&
     (List.range rows).all fun r => s.label die c r < 2 ^ 22
   else yard (jpReq p) (256 * conv) true) &&
  (jcFn ctl != 0 || jcPass ctl != 0 || (jpOutRows p % 16 = 0 && s.dlOk it (jpOutRows p) (16 * rows) true)) &&
  (jcFn ctl != 3 || (jpOutRows p % 16 = 0 && s.dlOk it (jpOutRows p) (8 * conv) true)) &&
  (!(jcFn ctl = 1 || (jcFn ctl = 0 && jcTaps ctl != 0)) ||
     yard (jpHint p) (16 * (if jcFn ctl = 1 then jcTaps ctl + 1 else jcTaps ctl)) false) &&
  (!s.jctEmits die c || s.dlOk it (jpOutGrad p) (2 * rows * c.len) true)

/-- A COS tap that neither retains nor finds an EMIT command of its tap in the Timetable (R174). -/
def State.cosUnemitted (s : State) (it : Issue) (c : JctCmd) : Bool :=
  jcFn c.ctl = 1 && jcPass c.ctl = 0 && !jcRetain c.ctl && s.jctCos (dieOfCore it.core) c &&
  match (s.plat c.platform).image with
  | none => true
  | some img => !(img.cores.any fun d => d.streams.any fun t => t.cmds.any fun w =>
      kindOf w = .jctHintE && jcTaps (jctCtl w) = jcTaps c.ctl)

/-- What an EMIT command must have in common with its STATS command (R149): label buffer, V, D, T, α and logit formats. -/
def JctCmd.terms (c : JctCmd) : List Nat :=
  [jpLabel c.param, jcVocab c.ctl, jcDies c.ctl, (jpT c.param).toNat, (jpAlpha c.param).toNat, jcTFmt c.ctl, jcSFmt c.ctl]

/-- The STATS command of an EMIT command's retained area that is on the Junction, or the rows that it finished, names other terms:
a breach of R149 that the Junction can see (R13). -/
def State.emitDiffers (s : State) (die : Nat) (c : JctCmd) : Bool :=
  let d := s.die die
  let lo := statKey c.platform (jpRetOff c.param) 0
  jcPass c.ctl = 1 &&
  (((d.slots.map (·.2) ++ d.waiting).any fun q => q.platform = c.platform && jpRetOff q.param = jpRetOff c.param &&
      jcPass q.ctl = 0 && q.terms != c.terms) ||
   d.bcast.any fun e => lo ≤ e.1 && e.1 < lo + 4096 && e.2.terms != c.terms)

/-- A Junction command may issue. -/
def State.jctOk (s : State) (it : Issue) : Bool :=
  jctFields it.w && yardIn (cmdBits it.w 192 32) 64 && s.dlOk it (0x80000000 + cmdBits it.w 192 32) 64 false &&
  let c := s.jctNew it
  c.j < jcDies c.ctl && s.jctRanges it c && !s.cosUnemitted it c && !s.emitDiffers (dieOfCore it.core) c

/-! ### Slots (R160, R161) -/

/-- Slices of a command: what its share class is charged (R456). -/
def JctCmd.cost (c : JctCmd) : Nat := jcRows c.ctl * c.slices

/-- The Yard ranges whose contents R15 and R18 confine once the command runs: its retained area and, in Distil mode, the
hidden states of its taps. -/
def State.jctAreas (s : State) (die : Nat) (c : JctCmd) : List (Nat × Nat × Nat) :=
  let taps := if s.serveMode || jcFn c.ctl != 1 then []
    else [(c.platform, bitsOf (s.tapEntry die c.param (jcTaps c.ctl)) 0 32, 2 * jcRows c.ctl * c.len)]
  (c.platform, jpRetOff c.param, jpRetBytes c.param) :: taps

/-- A command takes a slot (R161): its class is charged, and what a new pass makes stale is dropped. -/
def State.jctTake (s : State) (die slot : Nat) (c : JctCmd) : State :=
  let d := s.die die
  let pl := s.plat c.platform
  let fresh := jcPass c.ctl = 0
  let lo := statKey c.platform (jpRetOff c.param) 0
  let vt := if s.serveMode then tabMod 0 d.vtime pl.share (· + c.cost * 65536 / s.odv (Od.SHARE_WEIGHT + pl.share)) else d.vtime
  let s := s.setDie die { d with
    slots := tabSet d.slots slot c
    slotCtl := tabSet d.slotCtl slot c.ctl
    bcast := if fresh then d.bcast.filter fun e => e.1 < lo || lo + 4096 ≤ e.1 else d.bcast
    lastCore := c.core
    lastPlat := c.platform
    vtime := vt
    areas := d.areas.filter (fun a => !(s.jctAreas die c).contains a) ++ s.jctAreas die c }
  s.jctSettle die

/-- The lowest free command slot of a Junction. -/
def DieState.freeSlot (d : DieState) : Option Nat := (List.range 4).find? fun k => (tabFind d.slots k).isNone

/-- A class with nothing waiting takes the larger of its own virtual time and the least among those waiting (R456). -/
def State.jctLift (s : State) (die share : Nat) : State :=
  let d := s.die die
  let ws := d.waiting.map fun c => (s.plat c.platform).share
  match ws with
  | [] => s
  | o :: os =>
    if ws.contains share then s
    else
      let vt := fun q => tabGet 0 d.vtime q
      s.setDie die { d with vtime := tabSet d.vtime share (Nat.max (vt share) (os.foldl (fun m q => Nat.min m (vt q)) (vt o))) }

/-- A row of a DISTIL command carries a label beyond the vocabulary that is neither ignored nor masked (R139). -/
def State.badLabel (s : State) (it : Issue) : Bool :=
  let c := s.jctNew it
  jcFn c.ctl = 0 && (List.range (jcRows c.ctl)).any fun r =>
    let l := s.label (dieOfCore it.core) c r
    jcVocab c.ctl ≤ lblLabel l && !lblIgnore l && !lblMasked l

/-- A command is counted as issued on its die, under its `JCT_CTL` and retained area: the commands of the participating
Junctions that agree in these, in issue order, are one command (DESIGN CHOICE, log entry 31). A DISTIL STATS command takes its place in
the loss sum (R145). -/
def State.jctIssue (s : State) (it : Issue) (c : JctCmd) : State :=
  let d := s.die (dieOfCore it.core)
  let s := if jcFn c.ctl = 0 && jcPass c.ctl = 0 && !(s.job.lossQueue.any fun g => g.key = c.key) then
      { s with job := { s.job with lossQueue := s.job.lossQueue ++ [{ key := c.key, rows := jcRows c.ctl, losses := [] }] } }
    else s
  s.setDie (dieOfCore it.core) { d with issued := tabMod 0 d.issued (c.key / 2 ^ 32) (· + 1), seq := d.seq + 1 }

/-- Run a Junction command: a row whose label is out of range faults the job (R139); otherwise the command takes a free
slot, or waits for one with its stream descheduled (R160). -/
def State.runJct (s : State) (it : Issue) : State :=
  let die := dieOfCore it.core
  let c := s.jctNew it
  let bad := s.badLabel it
  let s := s.start it c.cost 0
  s.reading it [(yardAddr die (cmdBits it.w 192 32), 64), (yardAddr die (jpLabel c.param), if jcFn c.ctl < 2 then 16 + 4 * jcRows c.ctl else 0)] [] fun s =>
    if bad then s.faultIssue it causeLabelRange
    else
      let d := s.die die
      let s := s.jctIssue it c
      match (if d.waiting.isEmpty then d.freeSlot else none) with
      | some k => (s.advance it.core it.slot 6).jctTake die k c
      | none =>
        let s := if s.serveMode then s.jctLift die (s.plat it.platform).share else s
        let s := s.setDie die { s.die die with waiting := (s.die die).waiting ++ [c] }
        s.setStream it.core it.slot { s.stream it.core it.slot with state := 3 }

/-- The shape of every Junction row: the command of one kind that the core's sequencer issues. -/
def State.jctRow (s : State) (c : Nat) (kinds : List CmdKind) : Out :=
  within (c < 288) "core" <| s.runKind c kinds (fun s it => kindOf it.w != .jctReserved && s.jctOk it) State.runJct

/-- DISTIL STATS (R135, R147); a reserved combination of function and pass is refused here (R174). -/
def execJctDistilStats (c : Nat) (s : State) : Out := s.jctRow c [.jctDistilS, .jctReserved]
/-- DISTIL EMIT (R149). -/
def execJctDistilEmit (c : Nat) (s : State) : Out := s.jctRow c [.jctDistilE]
/-- HINT STATS (R155, R156). -/
def execJctHintStats (c : Nat) (s : State) : Out := s.jctRow c [.jctHintS]
/-- HINT EMIT (R156). -/
def execJctHintEmit (c : Nat) (s : State) : Out := s.jctRow c [.jctHintE]
/-- DRAFT (R165). -/
def execJctDraft (c : Nat) (s : State) : Out := s.jctRow c [.jctDraft]
/-- VERIFY (R166). -/
def execJctVerify (c : Nat) (s : State) : Out := s.jctRow c [.jctVerify]
/-- RESIDUAL (R167). -/
def execJctResidual (c : Nat) (s : State) : Out := s.jctRow c [.jctResidual]

/-- The rank of a waiting command (R161): smaller takes the slot. -/
def State.jctRank (s : State) (die : Nat) (c : JctCmd) : Nat :=
  let d := s.die die
  if s.serveMode then
    let pl := s.plat c.platform
    let after := (c.platform + 1024 - (d.lastPlat + 1)) % 1024
    ((((3 - pl.lat) * 2 ^ 80 + tabGet 0 d.vtime pl.share) * 1024 + after) * 512 + c.tcore) * 8 + c.slot
  else ((c.core + 288 - (d.lastCore + 1)) % 288) * 8 + c.slot

/-- The waiting command that R161 prefers. -/
def State.jctBest (s : State) (die : Nat) (w : JctCmd) (ws : List JctCmd) : JctCmd :=
  ws.foldl (fun b c => if s.jctRank die c < s.jctRank die b then c else b) w

/-- A waiting command takes a freed slot, and its stream, which waited, goes on. -/
def State.jctGrant (s : State) (die k : Nat) (best : JctCmd) : State :=
  let d := s.die die
  let s := s.setDie die { d with waiting := d.waiting.filter fun c => c.seq != best.seq }
  let t := s.stream best.core best.slot
  let s := if t.state = 3 then (s.setStream best.core best.slot { t with state := 1 }).advance best.core best.slot 6 else s
  s.jctTake die k best

/-- A freed command slot goes to a waiting command, whose stream issues again (R161). -/
def execJctSlotGrant (die : Nat) (waited : Nat) (s : State) : Out :=
  within (die < 48) "die" <| if !s.jctRuns die then s else
    match (s.die die).freeSlot, (s.die die).waiting with
    | some k, w :: ws => (s.jctGrant die k (s.jctBest die w ws)).count Od.JCT_SLOT_WAIT_CYCLES waited
    | _, _ => s

/-! ### Finishing rows at their homes -/

/-- The losses of complete commands enter the step's sum in issue order, rows in ascending index (R145). -/
def Job.flushLoss (j : Job) : Nat → Job
  | 0 => j
  | f + 1 =>
    match j.lossQueue with
    | [] => j
    | g :: rest =>
      if g.losses.length < g.rows then j
      else
        let rows := (List.range g.rows).filterMap fun r => tabFind g.losses r
        let live := rows.filter (·.2)
        { j with
          lossQueue := rest
          lossSum := live.foldl (fun (a : W32) (r : W32 × Bool) => fadd a r.1) j.lossSum
          lossRows := j.lossRows + live.length }.flushLoss f

/-- A finished DISTIL row's loss is handed to its command's group. -/
def State.addLoss (s : State) (key row : Nat) (loss : W32) (counts : Bool) : State :=
  let q := s.job.lossQueue.map fun g => if g.key = key then { g with losses := tabSet g.losses row (loss, counts) } else g
  { s with job := { s.job with lossQueue := q }.flushLoss (q.length + 1) }

/-- The command of the same key at another Junction. -/
def State.jctPeer (s : State) (c : JctCmd) (j : Nat) : Option JctCmd :=
  ((s.die (s.jctDie c j)).slots.find? fun e => e.2.key = c.key && e.2.j = j).map (·.2)

/-- The broadcast of a finished row reaches every participating Junction (R144), where it stands with the terms of
that Junction's own command. -/
def State.broadcast (s : State) (c : JctCmd) (row : Nat) (st : JctStats) : State :=
  (List.range (jcDies c.ctl)).foldl (fun s j =>
    let d := s.jctDie c j
    let x := s.die d
    s.setDie d { x with bcast := tabSet x.bcast (statKey c.platform (jpRetOff c.param) row) { st with terms := ((s.jctPeer c j).getD c).terms } }) s

/-- The sum of a row's tap losses in ascending tap order (R157). -/
def State.hintSum (s : State) (die : Nat) (c : JctCmd) (row : Nat) : W32 :=
  (List.range (jcTaps c.ctl)).foldl (fun a t =>
    fadd a (BitVec.ofNat 32 (s.yardWord die (bitsOf (s.tapEntry die c.param t) 32 32 + 4 * row)))) 0

/-- Write a verification result. -/
def State.putResult (s : State) (die : Nat) (c : JctCmd) (conv w : Nat) : State :=
  s.put (s.resultAddr die c conv) (leBytes 8 w)

/-- The tests of rows 0 to k − 1 of a conversation (R166, R169): accepted rows so far, and the first rejected row's
token when the row resolves itself. -/
def State.testRows (s : State) (die : Nat) (c : JctCmd) (conv : Nat) : Nat → Nat → Nat × Bool
  | 0, i => (i, false)
  | f + 1, i =>
    let row := conv * jcConv c.ctl + i
    match s.jctStat die c row with
    | none => (i, true)
    | some st =>
      let dr := s.draftRec die c conv i
      let tok := bitsOf dr 0 20
      let ok : Bool := if jcGreedy c.ctl then
          (match st.race with
           | some r => r.2.1 = tok
           | none => false)
        else match st.cap with
          | none => false
          | some a =>
            let px := fmul (fexp (fsub a (wd st.words 0))) (fdiv oneW (wd st.words 1))
            let pos := s.rowPos die c row
            let u := drawU (serveDraw pos.1 3 pos.2 0)
            fge px (fmul u (BitVec.ofNat 32 (bitsOf dr 32 32)))
      if ok then s.testRows die c conv f (i + 1) else (i, true)

/-- The token of a row's race of draw kind `kind`. A race all of whose keys are NaN has no winner: its token is a free value of what
R171 lets a token depend on (DESIGN CHOICE, log entry 111). -/
def State.raceToken (s : State) (die : Nat) (c : JctCmd) (row kind : Nat) (race : Option (W32 × Nat × W32)) : Nat :=
  match race with
  | some r => r.2.1
  | none => (Config.raceToken (s.rowPos die c row).1 kind (s.rowPos die c row).2).toNat

/-- The conversation's result, once its rows are finished (R166, R169, R172). -/
def State.verifyConv (s : State) (die : Nat) (c : JctCmd) (conv : Nat) : State :=
  let k := jcDepth c.ctl
  let rows := fromTo (conv * jcConv c.ctl) (k + 1)
  if !(rows.all fun r => (s.jctStat die c r).isSome) then s
  else if rows.any fun r => ((s.jctStat die c r).map fun x => bitOf x.flags 1) = some true then
    s.putResult die c conv (2 ^ 6)
  else
    let r := s.testRows die c conv k 0
    let acc := r.1
    let row := conv * jcConv c.ctl + acc
    let tok := s.raceToken die c row 2 ((s.jctStat die c row).bind (·.race))
    let s := (s.count Od.ACCEPT_DRAFTED (Nat.min k (acc + 1))).count Od.ACCEPT_ACCEPTED acc
    if !r.2 then (s.putResult die c conv (acc + 2 ^ 7 + tok * 2 ^ 8)).count Od.ACCEPT_BONUS 1
    else if jcGreedy c.ctl then s.putResult die c conv (acc + tok * 2 ^ 8)
    else s.putResult die c conv (acc + 2 ^ 4)

/-- The gradient entries of a finished MSE row with `NONFINITE` set, emitted before its statistics were known, become NaN
on every participating Junction (R155, R158). -/
def State.mseSpoil (s : State) (c : JctCmd) (row : Nat) : State :=
  (List.range (jcDies c.ctl)).foldl (fun s j =>
    match s.jctPeer c j with
    | none => s
    | some q => s.put (s.jctAddr (s.jctDie c j) q (jpOutGrad q.param) + 2 * row * q.len)
        ((List.replicate q.len 0x7FC0).flatMap (leBytes 2))) s

/-- The home finishes a row after its last merge, writes what the row produces, and broadcasts (R143, R144, R152, R157,
R165, R166, R168). -/
def State.finishRow (s : State) (die : Nat) (c : JctCmd) (row : Nat) (p : JctPart) : State :=
  let ctl := c.ctl
  let k := jctConst (jpT c.param) (jpAlpha c.param)
  let st : JctStats := { JctStats.empty with
    words := p.words, flags := p.flags, race := p.race, cap := p.cap
    ignore := jcFn ctl < 2 && lblIgnore (s.label die c row), masked := jcFn ctl < 2 && lblMasked (s.label die c row) }
  let counted := fun (s : State) =>
    let s := s.count Od.JCT_ROWS_FINISHED 1
    if bitOf p.flags 1 then s.count Od.JCT_NONFINITE_ROWS 1 else s
  match jcFn ctl, jcPass ctl with
  | 0, _ =>
    let lab := s.label die c row
    let hint := s.hintSum die c row
    let sp := sparseKl k p.words p.cands
    let kl := if jcSparse ctl = 0 then denseKl p.words else sp.1
    let l := rowLoss k p.words p.flags lab kl hint
    let h := if lblMasked lab then 0 else hint
    let s := s.put (s.jctAddr die c (jpOutRows c.param) + 16 * row)
      ([l.1, l.2.1, l.2.2, h].flatMap fun (x : W32) => leBytes 4 x.toNat)
    let words := p.words.take 8 ++ [l.1, l.2.1, l.2.2, h]
    let fl := if jcSparse ctl != 0 && sp.2.2.2 != 0 then p.flags ||| 4 else p.flags
    let s := s.put (yardAddr die (jpRetOff c.param + 64 * row)) (rowBytes words fl)
    let s := if jcSparse ctl = 0 then s else s.count Od.JCT_TAIL_CLAMPS sp.2.2.2
    let st := { st with words := words, flags := fl, cands := if jcSparse ctl = 0 then [] else sp.2.2.1, tail := sp.2.1 }
    ((counted s).addLoss c.key row l.1 (!lblMasked lab)).broadcast c row st
  | 1, _ =>
    let lab := s.label die c row
    let loss := if lblMasked lab then 0 else if bitOf p.flags 1 then nanW
      else tapLoss (s.jctCos die c) (s.jctBeta die c) (fofNat (jcVocab ctl)) p.words
    let off := bitsOf (s.tapEntry die c.param (jcTaps ctl)) 32 32
    let s := s.put (yardAddr die (off + 4 * row)) (leBytes 4 loss.toNat)
    let s := if bitOf p.flags 1 && !lblMasked lab && !s.jctCos die c then s.mseSpoil c row else s
    (counted s).broadcast c row st
  | 2, _ =>
    let rs := fdiv oneW (wd p.words 4)
    let tok := s.raceToken die c row 0 p.race
    let b := match p.race with
      | some r => r.2.2
      | none => Config.raceLogit (s.rowPos die c row).1 0 (s.rowPos die c row).2
    let qx := fmul (fexp (fsub b (wd p.words 3))) rs
    let w := fields [(0, 20, tok), (32, 32, qx.toNat), (64, 32, (wd p.words 3).toNat), (96, 32, rs.toNat)]
    let s := s.put (yardAddr die (jpReq c.param + 256 * row + 16 + 16 * jcDepth ctl)) (leBytes 16 w)
    (counted s).broadcast c row st
  | 3, 0 => ((counted s).broadcast c row st).verifyConv die c (row / jcConv ctl)
  | 3, _ =>
    let conv := row / jcConv ctl
    let old := leNat (s.load (s.resultAddr die c conv) 8)
    let s := (counted s).count Od.ACCEPT_RESIDUALS 1
    match p.race with
    | some r => s.putResult die c conv (bitsOf old 0 4 + r.2.1 * 2 ^ 8)
    | none =>
      let tok := s.raceToken die c row 2 ((s.jctStat die c row).bind (·.race))
      (s.putResult die c conv (bitsOf old 0 4 + 2 ^ 5 + tok * 2 ^ 8)).count Od.ACCEPT_RESIDUAL_EMPTY 1
  | _, _ => s

/-- The row is one whose partials the command's home still merges. -/
def State.mergeOpen (s : State) (die : Nat) (c : JctCmd) (row : Nat) : Bool :=
  row < jcRows c.ctl && jcPass c.ctl != 1 && c.home_of row = c.j &&
  (if jcPass c.ctl = 2 then s.pendingRow die c (row / jcConv c.ctl) = some row else (s.jctStat die c row).isNone)

/-- The oldest command of a Junction whose home merges partials of a row, with its slot. -/
def State.mergeSlot (s : State) (die row : Nat) : Option (Nat × JctCmd) :=
  (s.jctOrder die).findSome? fun k => match tabFind (s.die die).slots k with
    | some c => if s.mergeOpen die c row then some (k, c) else none
    | none => none

/-- The row's state at its home once the partial of the next Junction, `q`, is merged (R143). -/
def JctCmd.mergeRun (c q : JctCmd) (row : Nat) : JctPart :=
  let part := tabGet { JctPart.empty with words := if jcSoft c.ctl then rowStart else tapStart } q.rows row
  if tabGet 0 c.merged row = 0 then part
  else mergePart (jcSoft c.ctl) (jctConst (jpT c.param) (jpAlpha c.param)).invT (jcK c.ctl) (tabGet JctPart.empty c.home row) part

/-- What the home reads when it finishes a row: what its command reads for it, and for a DISTIL row the tap table and the row's
tap losses. -/
def State.finishReads (s : State) (die : Nat) (c : JctCmd) (row : Nat) : List (Nat × Nat) :=
  s.jctReads die c row ++
  if jcFn c.ctl != 0 then []
  else ((List.range (jcTaps c.ctl)).map fun t =>
    [(yardAddr die (jpHint c.param + 16 * t), 16), (yardAddr die (bitsOf (s.tapEntry die c.param t) 32 32 + 4 * row), 4)]).flatten

/-- The partial of Junction `q` merged at the home of a row; the last one finishes the row. -/
def State.mergeRow (s : State) (die row k : Nat) (c q : JctCmd) : State :=
  let m := tabGet 0 c.merged row
  let run := c.mergeRun q row
  let s := s.setJct die k { c with merged := tabSet c.merged row (m + 1), home := tabSet c.home row run }
  if m + 1 < jcDies c.ctl then s
  else s.jctReading c (s.finishReads die c row) fun s =>
    let s := s.finishRow die c row run
    -- rows that a RESIDUAL command waited for are open now, on every die
    ((List.range (jcDies c.ctl)).foldl (fun s j => s.jctPump (s.jctDie c j) (s.drainLeft (s.jctDie c j) + 1)) s).jctFinishAll

/-- The home merges the next partial of a row in ascending j once that Junction has folded its last slice (R143), and
finishes the row after the last. -/
def execJctPartialMerge (die row : Nat) (s : State) : Out :=
  within (die < 48 && row < 4096) "die or row" <| if !s.jctRuns die then s else
    match s.mergeSlot die row with
    | none => s
    | some (k, c) =>
      match s.jctPeer c (tabGet 0 c.merged row) with
      | none => s
      | some q =>
        if tabGet 0 q.next row < q.slices then s
        else if s.rowBad (s.jctDie c q.j) q row then s.jctSpoiled die c
        else s.mergeRow die row k c q

/-! ### Emission -/

/-- The command of a slot emits this row now: its broadcast is here and it has not emitted the row. -/
def State.emitOpen (s : State) (die : Nat) (c : JctCmd) (row : Nat) : Bool :=
  row < jcRows c.ctl && !c.emitted.contains row && (s.jctStat die c row).isSome &&
  (jcPass c.ctl = 1 || (jcPass c.ctl = 0 && jcRetain c.ctl && (jcFn c.ctl = 0 || (jcFn c.ctl = 1 && s.jctCos die c))))

/-- The emission of a run of entries of a row, from its entry `i` on (R144, R153, R156): the label's index is the Junction's own, the
statistics with `IGNORE` and `MASKED` are the home's. -/
def State.emitRun (s : State) (die : Nat) (c : JctCmd) (row i : Nat) (st : JctStats) (zt zs : List W32) : State :=
  let ctl := c.ctl
  let lab := lblLabel (s.label die c row) + (if st.ignore then 2 ^ 20 else 0) + (if st.masked then 2 ^ 21 else 0)
  let G := s.gradScale die c
  let k := jctConst (jpT c.param) (jpAlpha c.param)
  let n := zs.length
  let xs := if jcFn ctl = 0 then
      (List.range n).map fun j =>
        gradEntry k st lab (c.lo + i + j) (jcSparse ctl != 0) G (listGet 0 zt j) (listGet 0 zs j)
    else (zs.zip (s.hidden die c row i n)).map fun q => cosEntry st.words (s.jctBeta die c) G q.1 q.2
  s.putGrad die c row i (xs.map (emitB16 st.flags lab))

/-- A row emitted from its retained slices (R147, R154). -/
def State.emitKept (s : State) (die slot : Nat) (c : JctCmd) (row : Nat) (st : JctStats) : State :=
  let r := retainAt c.ctl c.len row
  let kept := fun off f => (List.range c.len).map fun i => s.retained die c off f i
  let zt := if jcFn c.ctl = 0 && jcSparse c.ctl = 0 then kept r.1 (jcTFmt c.ctl) else []
  (s.emitRun die c row 0 st zt (kept r.2 (jcSFmt c.ctl))).setJct die slot { c with emitted := c.emitted ++ [row] }

/-- An EMIT command takes the regenerated slices of a row in ascending order as they arrive, and emits each (R135, R147); `fuel`
bounds the slices. -/
def State.emitSlices (s : State) (die slot row : Nat) (st : JctStats) : Nat → State
  | 0 => s
  | f + 1 =>
    match tabFind (s.die die).slots slot with
    | none => s
    | some c =>
      let i := tabGet 0 c.next row
      match s.takeSlice die c row i with
      | none => s
      | some (ts, ss, s1) =>
        if parityBad (ts ++ ss) then s1.jctSpoiled die c else
        let s2 := s1.emitRun die c row (64 * i) st (ts.map (·.value)) (ss.map (·.value))
        let c' := { c with
          next := tabSet c.next row (i + 1)
          emitted := if c.slices ≤ i + 1 then c.emitted ++ [row] else c.emitted }
        ((s2.setJct die slot c').jctPump die (s2.drainLeft die + 1)).emitSlices die slot row st f

/-- A row that an emission reads from the retained area meets a detected error that is not corrected (R163). -/
def State.retainBad (s : State) (die : Nat) (c : JctCmd) (row : Nat) : Bool :=
  jcPass c.ctl = 0 && !(badIn s.eccBad (yardAddr die (jpRetOff c.param + c.retainRow row)) (c.retainRow 1 - c.retainRow 0)).isEmpty

/-- The oldest command of a Junction that emits a row now, with its slot. -/
def State.emitSlot (s : State) (die row : Nat) : Option (Nat × JctCmd) :=
  (s.jctOrder die).findSome? fun k => match tabFind (s.die die).slots k with
    | some c => if s.emitOpen die c row then some (k, c) else none
    | none => none

/-- A Junction emits a finished row of its own range (R144); after the last output its command completes (R251). A retained
row with an uncorrected error faults the owner (R163), as does a breach of R149. -/
def execJctGradEmit (die row : Nat) (s : State) : Out :=
  within (die < 48 && row < 4096) "die or row" <| if !s.jctRuns die then s else
    match s.emitSlot die row with
    | none => s
    | some (k, c) =>
      if s.retainBad die c row then s.jctSpoiled die c
      else match s.jctStat die c row with
        | none => s
        | some st =>
          if jcPass c.ctl = 1 && st.terms != c.terms then
            s.faultOwner c.platform c.tcore { cause := causeCmdRefused, core := c.core, slot := c.slot }
          else s.jctReading c (s.jctReads die c row) fun s =>
            (if jcPass c.ctl = 1 then s.emitSlices die k row st (c.slices - tabGet 0 c.next row) else s.emitKept die k c row st).jctSettle die

end Sys2Proof.Machine
end

