-- ==== Sys2Proof/Machine/RowUnit.lean ====
section
/-! DEFINITION. The row unit (R180, R191 to R197): norms, attention, dropout and row reductions. The manual gives the
algorithms and the `ROW` payload; the layout of the constant block that the payload names is the model's (DESIGN CHOICE, log entry 36). -/

namespace Sys2Proof.Machine

open Sys2Proof

/-! ### The payload and its constant block -/

def rwRows (w : CmdWord) : Nat := cmdBits w 144 16
def rwLen (w : CmdWord) : Nat := cmdBits w 160 32
def rwA (w : CmdWord) : Nat := cmdBits w 192 32
def rwB (w : CmdWord) : Nat := cmdBits w 224 32
def rwDst (w : CmdWord) : Nat := cmdBits w 256 32
def rwConst (w : CmdWord) : Nat := cmdBits w 288 32
def rwTensor (w : CmdWord) : Nat := cmdBits w 496 16

/-- The 64 bytes of the constant block, as sixteen words: EPS, INV_H, the addresses of the gain, of L, of dO, of O and of
P, P16, the formats, the number of participating dies, the unmasked keys of row 0 and their increase per row. -/
structure RowConst where
  eps : W32
  invH : W32
  gain : Nat
  lAddr : Nat
  dO : Nat
  o : Nat
  pAddr : Nat
  p16 : Nat
  fmtA : Nat
  fmtB : Nat
  fmtD : Nat
  first : Bool
  dies : Nat
  keys : Nat
  keyStep : Nat
  deriving DecidableEq, Repr

/-- The constant block of a command. The partials of R180 are W32, and its results and those of R194's dS are B16. -/
def State.rowConst (s : State) (it : Issue) : RowConst :=
  let at' := fun i => s.yardWord (dieOfCore it.core) (rwConst it.w + 4 * i)
  { eps := BitVec.ofNat 32 (at' 0)
    invH := BitVec.ofNat 32 (at' 1)
    gain := at' 2
    lAddr := at' 3
    dO := at' 4
    o := at' 5
    pAddr := at' 6
    p16 := at' 7
    fmtA := if rowOp it.w = 7 then 6 else bitsOf (at' 8) 0 4
    fmtB := bitsOf (at' 8) 4 4
    fmtD := if rowOp it.w = 4 || rowOp it.w = 7 then 5 else bitsOf (at' 8) 8 4
    first := bitOf (at' 8) 12
    dies := at' 9
    keys := at' 10
    keyStep := at' 11 }

/-! ### Rows of values -/

/-- A run of `n` W32 or B16 values at a die-local address, widened exactly. -/
def State.rowVals (s : State) (it : Issue) (f dl n : Nat) : List W32 :=
  let a := s.dlAddr it dl
  (List.range n).map fun i =>
    let v := memNat s.mem (a + fmtBits f / 8 * i) (fmtBits f / 8)
    if f = 5 then widenB16 (BitVec.ofNat 16 v) else BitVec.ofNat 32 v

/-- Row `r` of an operand whose rows lie back to back. -/
def State.rowAt (s : State) (it : Issue) (f dl n r : Nat) : List W32 := s.rowVals it f (dl + r * n * (fmtBits f / 8)) n

/-- A result written in W32 or B16 with RNE at a die-local address. The row unit is no counting unit of R127. -/
def State.rowPut (s : State) (it : Issue) (f dl : Nat) (xs : List W32) : State :=
  s.put (s.dlAddr it dl) (xs.flatMap fun x => leBytes (fmtBits f / 8) (convElem f .rne (ofW x)).bits)

/-! ### The operations -/

/-- The norm factor r of a token row (R192). -/
def normFactor (k : RowConst) (x : List W32) : W32 :=
  let ms := fmul (rowDot x x) k.invH
  fdiv oneW (fsqrt (fadd ms k.eps))

def zipW (f : W32 → W32 → W32) (a b : List W32) : List W32 := (a.zip b).map fun q => f q.1 q.2

/-- y = (x × r) × γ (R192). -/
def normForward (k : RowConst) (gain x : List W32) : List W32 :=
  let r := normFactor k x
  zipW (fun a g => fmul (fmul a r) g) x gain

/-- dx of R193. -/
def normBackward (k : RowConst) (gain x dy : List W32) : List W32 :=
  let r := normFactor k x
  let gy := zipW fmul dy gain
  let c := rowDot gy x
  let q := fmul (fmul (fmul c k.invH) r) r
  zipW (fun a g => fmul r (ffma (fneg a) q g)) x gy

/-- The per-token term of the gain gradient, dy × (x × r) (R193). -/
def gainTerm (k : RowConst) (x dy : List W32) : List W32 :=
  let r := normFactor k x
  zipW (fun a d => fmul d (fmul a r)) x dy

/-- SC, the binary32 nearest to 1 / √128 (R194). -/
def attnScale : W32 := 0x3DB504F3#32

/-- Unmasked keys of row `r`: the positions below the limit. -/
def RowConst.limit (k : RowConst) (len r : Nat) : Nat := Nat.min len (k.keys + r * k.keyStep)

/-- L = M + LN(l) over the unmasked positions in ascending order, in slices of 64 (R194). -/
def attnStat (xs : List W32) : W32 :=
  let r := (chunks 64 (xs.length / 64 + 1) xs).foldl (fun (st : W32 × W32) sl =>
    let q := foldSoft st.1 st.2 sl
    (q.1, q.2.2.2)) (negInfW, 0)
  fadd r.1 (fln r.2)

/-- P and dS of one row (R194); masked positions take +0. -/
def attnBack (l dr : W32) (lim : Nat) (sx dp : List W32) : List (W32 × W32) :=
  ((List.range sx.length).zip (sx.zip dp)).map fun q =>
    if q.1 < lim then
      let p := fexp (fsub (fmul q.2.1 attnScale) l)
      (p, fmul (fmul p (fsub q.2.2 dr)) attnScale)
    else (0, 0)

/-- KS, the binary32 nearest to 65,536 / (65,536 − P16) (R196). -/
def keepScale (p16 : Nat) : W32 := fdiv (fofNat 65536) (fofNat (65536 - p16))

/-! ### Operand checks -/

def fmtWide (f : Nat) : Bool := f = 5 || f = 6

/-- The ranges a command reads and the ranges it writes, as (die-local address, bytes). -/
def rowRanges (w : CmdWord) (k : RowConst) : List (Nat × Nat) × List (Nat × Nat) :=
  let n := rwRows w
  let len := rwLen w
  let bytes := fun f m => fmtBytes f m
  let gain := (k.gain, 4 * len)
  let a := (rwA w, bytes k.fmtA (n * len))
  let b := (rwB w, bytes k.fmtB (n * len))
  let d := (rwDst w, bytes k.fmtD (n * len))
  match rowOp w with
  | 1 => ([a, gain], [d])
  | 2 => ([a, b, gain], [d])
  | 3 => ([a], [(rwDst w, 4 * n)])
  | 4 => ([a, b, (k.lAddr, 4 * n), (k.dO, 256 * n), (k.o, 256 * n)],
      d :: if k.pAddr = 0 then [] else [(k.pAddr, bytes k.fmtD (n * len))])
  | 5 => ([a], [d])
  | 6 => (if k.fmtB = 0 then [a] else [a, b], [(rwDst w, 4 * n)])
  | 7 => ([(rwA w, bytes k.fmtA (k.dies * n * len))], [d])
  | _ => ([a, b], [(rwDst w, 4 * len)])

/-- A row-unit command that issue does not refuse: reserved bits, formats, addresses (R295, R450), a dropout probability
in range, and for dropout with P16 above 0 a placement (R195). -/
def State.rowOk (s : State) (it : Issue) : Bool :=
  let w := it.w
  let k := s.rowConst it
  let r := rowRanges w k
  1 ≤ rowOp w && rowOp w ≤ 8 && cmdBits w 136 8 = 0 && cmdBits w 320 176 = 0 &&
  yardIn (rwConst w) 64 && fmtWide k.fmtA && (fmtWide k.fmtB || k.fmtB = 0) && fmtWide k.fmtD &&
  (rowOp w != 5 || (k.p16 ≤ 32768 && (k.p16 = 0 || it.placed.isSome))) &&
  r.1.all (fun q => s.dlOk it q.1 q.2 false) && r.2.all fun q => s.dlOk it q.1 q.2 true

/-! ### Running a command -/

/-- A row-unit command of one operation: every row in ascending order, its effect on the state that the rows before it
left. -/
def rowEffect (row : State → Issue → RowConst → Nat → State) (s : State) (it : Issue) (k : RowConst) : State :=
  (List.range (rwRows it.w)).foldl (fun s i => row s it k i) s

/-- Cycles of a command, and what its share class is charged (R456). -/
def rowCost (w : CmdWord) : Nat := rwRows w * ceilDiv (rwLen w) 128

/-- Run a row-unit command: what it reads is checked (R630), its rows are carried out, and it completes. -/
def State.runRow (row : State → Issue → RowConst → Nat → State) (s : State) (it : Issue) : State :=
  let k := s.rowConst it
  let r := rowRanges it.w k
  let abs := fun (l : List (Nat × Nat)) => l.map fun q => (s.dlAddr it q.1, q.2)
  (s.start it (rowCost it.w) (rowCost it.w)).reading it ((yardAddr (dieOfCore it.core) (rwConst it.w), 64) :: abs r.1) (abs r.2)
    fun s1 => (rowEffect row s1 it k).finish it

/-- Write row `i` of a matrix result. -/
def State.putRowVals (s : State) (it : Issue) (k : RowConst) (i : Nat) (out : List W32) : State :=
  s.rowPut it k.fmtD (rwDst it.w + i * out.length * (fmtBits k.fmtD / 8)) out

/-- Write the one W32 result of row `i`. -/
def State.putRowVal (s : State) (it : Issue) (i : Nat) (x : W32) : State := s.rowPut it 6 (rwDst it.w + 4 * i) [x]

/-- ROW norm forward (R192). -/
def rowNormF (s : State) (it : Issue) (k : RowConst) (i : Nat) : State :=
  let x := s.rowAt it k.fmtA (rwA it.w) (rwLen it.w) i
  s.putRowVals it k i (normForward k (s.rowVals it 6 k.gain (rwLen it.w)) x)

/-- ROW norm backward (R193): A holds x, B holds dy. -/
def rowNormB (s : State) (it : Issue) (k : RowConst) (i : Nat) : State :=
  let x := s.rowAt it k.fmtA (rwA it.w) (rwLen it.w) i
  let dy := s.rowAt it k.fmtB (rwB it.w) (rwLen it.w) i
  s.putRowVals it k i (normBackward k (s.rowVals it 6 k.gain (rwLen it.w)) x dy)

/-- ROW attention statistics (R194): A holds S, and each row writes its L. -/
def rowAttS (s : State) (it : Issue) (k : RowConst) (i : Nat) : State :=
  let x := (s.rowAt it k.fmtA (rwA it.w) (rwLen it.w) i).take (k.limit (rwLen it.w) i)
  s.putRowVal it i (attnStat (x.map fun v => fmul v attnScale))

/-- ROW attention backward (R194): A holds S, B holds dP; dS goes to the destination and P to its own address. -/
def rowAttB (s : State) (it : Issue) (k : RowConst) (i : Nat) : State :=
  let len := rwLen it.w
  let sx := s.rowAt it k.fmtA (rwA it.w) len i
  let dp := s.rowAt it k.fmtB (rwB it.w) len i
  let l := listGet 0 (s.rowVals it 6 (k.lAddr + 4 * i) 1) 0
  let dr := rowDot (s.rowVals it 5 (k.dO + 256 * i) 128) (s.rowVals it 5 (k.o + 256 * i) 128)
  let lim := k.limit len i
  let ps := attnBack l dr lim sx dp
  let r := s.putRowVals it k i (ps.map (·.2))
  if k.pAddr = 0 then r
  else r.rowPut it k.fmtD (k.pAddr + i * len * (fmtBits k.fmtD / 8)) (ps.map (·.1))

/-- The draw key of a dropout command (R195). -/
def State.dropKey (s : State) (it : Issue) : DrawKey :=
  let micro := match it.placed with
    | some p => cmdBits p 144 16
    | none => 0
  { seed := (s.plat it.platform).seed, purpose := 2, tensor := rwTensor it.w, step := it.step, micro := micro }

/-- Element index of column `c` of row `i` (R640). -/
def State.dropIndex (s : State) (it : Issue) (i c : Nat) : Nat :=
  match it.placed with
  | some p => (cmdBits p 192 32 + i) * cmdBits p 256 32 + cmdBits p 224 32 + c
  | none => 0

/-- ROW dropout (R195, R196). -/
def rowDrop (s : State) (it : Issue) (k : RowConst) (i : Nat) : State :=
  let x := s.rowAt it k.fmtA (rwA it.w) (rwLen it.w) i
  let d := s.dropKey it
  let ks := keepScale k.p16
  s.putRowVals it k i (((List.range x.length).zip x).map fun q =>
    if k.p16 = 0 || k.p16 ≤ d.fraction (s.dropIndex it i q.1) then fmul q.2 ks else 0)

/-- ROW ROWSUM (R191), of A, or of the products of A and B. -/
def rowRedSum (s : State) (it : Issue) (k : RowConst) (i : Nat) : State :=
  let x := s.rowAt it k.fmtA (rwA it.w) (rwLen it.w) i
  if k.fmtB = 0 then s.putRowVal it i (rowSum x)
  else
    let y := s.rowAt it k.fmtB (rwB it.w) (rwLen it.w) i
    s.putRowVal it i (rowDot x y)

/-- ROW hidden-gradient sum (R180): the dies' partials of a token row, in ascending logical-die order; die k's partials
lie k arrays above A. -/
def rowHidden (s : State) (it : Issue) (k : RowConst) (i : Nat) : State :=
  let parts := (List.range k.dies).map fun d => s.rowAt it k.fmtA (rwA it.w) (rwLen it.w) (d * rwRows it.w + i)
  match parts with
  | [] => s
  | p :: ps => s.putRowVals it k i (ps.foldl (zipW fadd) p)

/-- ROW gain accumulation (R193, R197): one RNE addition per token row, in ascending order, from the buffer's value. -/
def rowGain (s : State) (it : Issue) (k : RowConst) (i : Nat) : State :=
  let len := rwLen it.w
  let x := s.rowAt it k.fmtA (rwA it.w) len i
  let dy := s.rowAt it k.fmtB (rwB it.w) len i
  let acc := if k.first && i = 0 then List.replicate len 0 else s.rowVals it 6 (rwDst it.w) len
  s.rowPut it 6 (rwDst it.w) (zipW fadd acc (gainTerm k x dy))

/-- The shape of every row-unit row: a command of one kind starts at the row unit, or issues to it. -/
def State.rowRow (s : State) (c : Nat) (kinds : List CmdKind) (row : State → Issue → RowConst → Nat → State) : State :=
  s.runEngine c kinds State.rowOk (fun _ _ => true) (State.runRow row)

def execRowNormForward (c : Nat) (s : State) : Out :=
  within (c < 288) "core" <| s.rowRow c [.rowNormF] rowNormF

def execRowNormBackward (c : Nat) (s : State) : Out :=
  within (c < 288) "core" <| s.rowRow c [.rowNormB] rowNormB

def execRowAttentionStatistics (c : Nat) (s : State) : Out :=
  within (c < 288) "core" <| s.rowRow c [.rowAttS] rowAttS

def execRowAttentionBackward (c : Nat) (s : State) : Out :=
  within (c < 288) "core" <| s.rowRow c [.rowAttB] rowAttB

/-- ROW dropout; a reserved row operation is refused here (R10, R252). -/
def execRowDropout (c : Nat) (s : State) : Out :=
  within (c < 288) "core" <| s.rowRow c [.rowDrop, .rowReserved] rowDrop

def execRowRowsum (c : Nat) (s : State) : Out :=
  within (c < 288) "core" <| s.rowRow c [.rowSum] rowRedSum

def execRowHiddenGradientSum (c : Nat) (s : State) : Out :=
  within (c < 288) "core" <| s.rowRow c [.rowHid] rowHidden

def execRowGainAccumulation (c : Nat) (s : State) : Out :=
  within (c < 288) "core" <| s.rowRow c [.rowGain] rowGain

end Sys2Proof.Machine
end

