-- ==== Sys2Proof/Machine/Dispatch.lean ====
section
/-! DEFINITION. One arm per command: a direct call of its meaning. -/

namespace Sys2Proof.Machine

open Sys2Proof

def exec (i : Instr) (s : State) : Host.Outcome State Fault Refusal :=
  match i with
  | .sync core => Sys2Proof.Machine.execSync core s
  | .tileOutputStat core fz => Sys2Proof.Machine.execTileOutputStat core fz s
  | .tileInputStat core fz => Sys2Proof.Machine.execTileInputStat core fz s
  | .tileElementwise core fz => Sys2Proof.Machine.execTileElementwise core fz s
  | .move core => Sys2Proof.Machine.execMove core s
  | .moveTranspose core => Sys2Proof.Machine.execMoveTranspose core s
  | .moveRequant core => Sys2Proof.Machine.execMoveRequant core s
  | .moveSpill core => Sys2Proof.Machine.execMoveSpill core s
  | .moveFill core => Sys2Proof.Machine.execMoveFill core s
  | .rowNormForward core => Sys2Proof.Machine.execRowNormForward core s
  | .rowNormBackward core => Sys2Proof.Machine.execRowNormBackward core s
  | .rowAttentionStatistics core => Sys2Proof.Machine.execRowAttentionStatistics core s
  | .rowAttentionBackward core => Sys2Proof.Machine.execRowAttentionBackward core s
  | .rowDropout core => Sys2Proof.Machine.execRowDropout core s
  | .rowRowsum core => Sys2Proof.Machine.execRowRowsum core s
  | .rowHiddenGradientSum core => Sys2Proof.Machine.execRowHiddenGradientSum core s
  | .rowGainAccumulation core => Sys2Proof.Machine.execRowGainAccumulation core s
  | .jctDistilStats core => Sys2Proof.Machine.execJctDistilStats core s
  | .jctDistilEmit core => Sys2Proof.Machine.execJctDistilEmit core s
  | .jctHintStats core => Sys2Proof.Machine.execJctHintStats core s
  | .jctHintEmit core => Sys2Proof.Machine.execJctHintEmit core s
  | .jctDraft core => Sys2Proof.Machine.execJctDraft core s
  | .jctVerify core => Sys2Proof.Machine.execJctVerify core s
  | .jctResidual core => Sys2Proof.Machine.execJctResidual core s
  | .jctSlotGrant die waited => Sys2Proof.Machine.execJctSlotGrant die waited s
  | .jctPartialMerge die row => Sys2Proof.Machine.execJctPartialMerge die row s
  | .jctGradEmit die row => Sys2Proof.Machine.execJctGradEmit die row s
  | .lossSpikeDetect => Sys2Proof.Machine.execLossSpikeDetect s
  | .barrier core => Sys2Proof.Machine.execBarrier core s
  | .notify core => Sys2Proof.Machine.execNotify core s
  | .rebase core => Sys2Proof.Machine.execRebase core s
  | .stepEnd core => Sys2Proof.Machine.execStepEnd core s
  | .streamEnd core => Sys2Proof.Machine.execStreamEnd core s
  | .place core => Sys2Proof.Machine.execPlace core s
  | .counterSignal core => Sys2Proof.Machine.execCounterSignal core s
  | .sbSet core value => Sys2Proof.Machine.execSbSet core value s
  | .syncHangReport core slot heldMs => Sys2Proof.Machine.execSyncHangReport core slot heldMs s
  | .syncHang core slot heldMs => Sys2Proof.Machine.execSyncHang core slot heldMs s
  | .barArrive port => Sys2Proof.Machine.execBarArrive port s
  | .barRelease chan elapsedNs => Sys2Proof.Machine.execBarRelease chan elapsedNs s
  | .barrierTokenDeadline port chan elapsedNs => Sys2Proof.Machine.execBarrierTokenDeadline port chan elapsedNs s
  | .barrierTimeout chan elapsedMs => Sys2Proof.Machine.execBarrierTimeout chan elapsedMs s
  | .roundhouseNormPass bucket before after => Sys2Proof.Machine.execRoundhouseNormPass bucket before after s
  | .updateComplete stopUs => Sys2Proof.Machine.execUpdateComplete stopUs s
  | .copyPass stopUs => Sys2Proof.Machine.execCopyPass stopUs s
  | .ckptCodingComplete => Sys2Proof.Machine.execCkptCodingComplete s
  | .roundhouseDetectedError edge group => Sys2Proof.Machine.execRoundhouseDetectedError edge group s
  | .updDigest value => Sys2Proof.Machine.execUpdDigest value s
  | .bucketFilled bucket => Sys2Proof.Machine.execBucketFilled bucket s
  | .accum port => Sys2Proof.Machine.execAccum port s
  | .exchangeComplete => Sys2Proof.Machine.execExchangeComplete s
  | .redShadowDeadline bucket elapsedUs => Sys2Proof.Machine.execRedShadowDeadline bucket elapsedUs s
  | .redHardTimeout bucket elapsedMs => Sys2Proof.Machine.execRedHardTimeout bucket elapsedMs s
  | .ringSubst port => Sys2Proof.Machine.execRingSubst port s
  | .moveWrite port => Sys2Proof.Machine.execMoveWrite port s
  | .writeAck port => Sys2Proof.Machine.execWriteAck port s
  | .linkMessageForward port vc => Sys2Proof.Machine.execLinkMessageForward port vc s
  | .jobFault port => Sys2Proof.Machine.execJobFault port s
  | .mgmt port => Sys2Proof.Machine.execMgmt port s
  | .linkGroupReceive port lanes fecOk => Sys2Proof.Machine.execLinkGroupReceive port lanes fecOk s
  | .linkAckDeadline port elapsedNs => Sys2Proof.Machine.execLinkAckDeadline port elapsedNs s
  | .laneLockLoss port lane => Sys2Proof.Machine.execLaneLockLoss port lane s
  | .laneSerWindow port lane ratio => Sys2Proof.Machine.execLaneSerWindow port lane ratio s
  | .laneSub port => Sys2Proof.Machine.execLaneSub port s
  | .laneSubTimeout port elapsedNs => Sys2Proof.Machine.execLaneSubTimeout port elapsedNs s
  | .portTrainingStart port txGood rxGood skews => Sys2Proof.Machine.execPortTrainingStart port txGood rxGood skews s
  | .portHandshake port peer peerPort epoch credits => Sys2Proof.Machine.execPortHandshake port peer peerPort epoch credits s
  | .portTrainingTimeout port elapsedMs => Sys2Proof.Machine.execPortTrainingTimeout port elapsedMs s
  | .portTrainingRetry port elapsedMs => Sys2Proof.Machine.execPortTrainingRetry port elapsedMs s
  | .linkPortReset value => Sys2Proof.Machine.execLinkPortReset value s
  | .pointsCommit value => Sys2Proof.Machine.execPointsCommit value s
  | .queueDoorbell port function offset size value => Sys2Proof.Machine.execQueueDoorbell port function offset size value s
  | .completionDoorbell port function offset size value => Sys2Proof.Machine.execCompletionDoorbell port function offset size value s
  | .counterDoorbell port function offset size value => Sys2Proof.Machine.execCounterDoorbell port function offset size value s
  | .dCopy queue => Sys2Proof.Machine.execDCopy queue s
  | .dInline queue => Sys2Proof.Machine.execDInline queue s
  | .dFence queue => Sys2Proof.Machine.execDFence queue s
  | .dFlush queue => Sys2Proof.Machine.execDFlush queue s
  | .dServe queue => Sys2Proof.Machine.execDServe queue s
  | .qReset queue => Sys2Proof.Machine.execQReset queue s
  | .ctxReset platform => Sys2Proof.Machine.execCtxReset platform s
  | .epochArm platform value => Sys2Proof.Machine.execEpochArm platform value s
  | .apertureRead port offset size => Sys2Proof.Machine.execApertureRead port offset size s
  | .apertureWrite port offset data => Sys2Proof.Machine.execApertureWrite port offset data s
  | .mbxGo port => Sys2Proof.Machine.execMbxGo port s
  | .registerWrite port function bar offset size value => Sys2Proof.Machine.execRegisterWrite port function bar offset size value s
  | .cxlMemRead port offset size => Sys2Proof.Machine.execCxlMemRead port offset size s
  | .cxlMemWrite port offset data => Sys2Proof.Machine.execCxlMemWrite port offset data s
  | .hdmDecoderCommit port base size ways => Sys2Proof.Machine.execHdmDecoderCommit port base size ways s
  | .dataLinkDown port => Sys2Proof.Machine.execDataLinkDown port s
  | .dataLinkUp port rate width flit cxl => Sys2Proof.Machine.execDataLinkUp port rate width flit cxl s
  | .linkDownHold port elapsedMs => Sys2Proof.Machine.execLinkDownHold port elapsedMs s
  | .portHotReset port => Sys2Proof.Machine.execPortHotReset port s
  | .packageWarmReset dies => Sys2Proof.Machine.execPackageWarmReset dies s
  | .flrPhysical port => Sys2Proof.Machine.execFlrPhysical port s
  | .flrVirtual port vf => Sys2Proof.Machine.execFlrVirtual port vf s
  | .vfEnableClear port numVfs => Sys2Proof.Machine.execVfEnableClear port numVfs s
  | .pcArm platform peers => Sys2Proof.Machine.execPcArm platform peers s
  | .pcSuspend platform => Sys2Proof.Machine.execPcSuspend platform s
  | .suspendComplete platform => Sys2Proof.Machine.execSuspendComplete platform s
  | .pcResume platform => Sys2Proof.Machine.execPcResume platform s
  | .pcReset platform => Sys2Proof.Machine.execPcReset platform s
  | .pcDisarm platform => Sys2Proof.Machine.execPcDisarm platform s
  | .odRead path frame => Sys2Proof.Machine.execOdRead path frame s
  | .odWrite path frame => Sys2Proof.Machine.execOdWrite path frame s
  | .domainSegmentWrite path frame => Sys2Proof.Machine.execDomainSegmentWrite path frame s
  | .discover addr udpPort frame => Sys2Proof.Machine.execDiscover addr udpPort frame s
  | .mctp path frame => Sys2Proof.Machine.execMctp path frame s
  | .secured path frame => Sys2Proof.Machine.execSecured path frame s
  | .spdmChallenge path request => Sys2Proof.Machine.execSpdmChallenge path request s
  | .spdmGetMeasurements path request => Sys2Proof.Machine.execSpdmGetMeasurements path request s
  | .spdmKeyExchange path request => Sys2Proof.Machine.execSpdmKeyExchange path request s
  | .rw2Write path frame => Sys2Proof.Machine.execRw2Write path frame s
  | .authCancel path frame => Sys2Proof.Machine.execAuthCancel path frame s
  | .stagedChangeExpiry elapsedS => Sys2Proof.Machine.execStagedChangeExpiry elapsedS s
  | .keyEnrol path frame => Sys2Proof.Machine.execKeyEnrol path frame s
  | .ownershipRelease path frame => Sys2Proof.Machine.execOwnershipRelease path frame s
  | .debugUnlock path frame => Sys2Proof.Machine.execDebugUnlock path frame s
  | .fwUpdate path frame => Sys2Proof.Machine.execFwUpdate path frame s
  | .ttLoad value => Sys2Proof.Machine.execTtLoad value s
  | .ttLoadComplete img => Sys2Proof.Machine.execTtLoadComplete img s
  | .ckptRequest value => Sys2Proof.Machine.execCkptRequest value s
  | .ckptDrained value => Sys2Proof.Machine.execCkptDrained value s
  | .ckptRestore value => Sys2Proof.Machine.execCkptRestore value s
  | .ckptServeNow value => Sys2Proof.Machine.execCkptServeNow value s
  | .buddyPkg value peerFeed => Sys2Proof.Machine.execBuddyPkg value peerFeed s
  | .buddySend value => Sys2Proof.Machine.execBuddySend value s
  | .statsLatchNow value => Sys2Proof.Machine.execStatsLatchNow value s
  | .stickyLogClear value => Sys2Proof.Machine.execStickyLogClear value s
  | .feValidClear value => Sys2Proof.Machine.execFeValidClear value s
  | .packageMode value => Sys2Proof.Machine.execPackageMode value s
  | .powerProfile value => Sys2Proof.Machine.execPowerProfile value s
  | .powerStateRun => Sys2Proof.Machine.execPowerStateRun s
  | .powerStateDoze => Sys2Proof.Machine.execPowerStateDoze s
  | .powerStateStandby => Sys2Proof.Machine.execPowerStateStandby s
  | .packageResetWarm dies => Sys2Proof.Machine.execPackageResetWarm dies s
  | .packageResetCold dies => Sys2Proof.Machine.execPackageResetCold dies s
  | .statsBoundary => Sys2Proof.Machine.execStatsBoundary s
  | .roundBoundary roundUs => Sys2Proof.Machine.execRoundBoundary roundUs s
  | .summaryComplete request => Sys2Proof.Machine.execSummaryComplete request s
  | .arrayDetectedError core array cell row col out => Sys2Proof.Machine.execArrayDetectedError core array cell row col out s
  | .turntableDetectedError die block again => Sys2Proof.Machine.execTurntableDetectedError die block again s
  | .islandLimitCheck a b clockA clockB supplyA supplyB tempA tempB => Sys2Proof.Machine.execIslandLimitCheck a b clockA clockB supplyA supplyB tempA tempB s
  | .islandResume island elapsedUs fast slow supplyDiff tempDiff => Sys2Proof.Machine.execIslandResume island elapsedUs fast slow supplyDiff tempDiff s
  | .islandParkLimit island elapsedMs => Sys2Proof.Machine.execIslandParkLimit island elapsedMs s
  | .linamParkDeadline island elapsedNs => Sys2Proof.Machine.execLinamParkDeadline island elapsedNs s
  | .controlWatchdog elapsedMs dies => Sys2Proof.Machine.execControlWatchdog elapsedMs dies s
  | .controlMemory dies => Sys2Proof.Machine.execControlMemory dies s
  | .controlDieReportTimeout elapsedMs => Sys2Proof.Machine.execControlDieReportTimeout elapsedMs s
  | .vauxRise millivolts dies => Sys2Proof.Machine.execVauxRise millivolts dies s
  | .packageReady dimms hbmFailed lines => Sys2Proof.Machine.execPackageReady dimms hbmFailed lines s
  | .mainRailStartTimeout elapsedMs => Sys2Proof.Machine.execMainRailStartTimeout elapsedMs s
  | .vinPgoodDrop elapsedNs dies => Sys2Proof.Machine.execVinPgoodDrop elapsedNs dies s
  | .powerSample watts1ms watts1us => Sys2Proof.Machine.execPowerSample watts1ms watts1us s
  | .supplyWarning supply millivolts => Sys2Proof.Machine.execSupplyWarning supply millivolts s
  | .supplyRecovery supply millivolts elapsedUs => Sys2Proof.Machine.execSupplyRecovery supply millivolts elapsedUs s
  | .thermalSample island celsius => Sys2Proof.Machine.execThermalSample island celsius s
  | .thermalExit island celsius elapsedUs => Sys2Proof.Machine.execThermalExit island celsius elapsedUs s
  | .thermalTripHoldoff elapsedS => Sys2Proof.Machine.execThermalTripHoldoff elapsedS s
  | .railBelowReset supply millivolts dies => Sys2Proof.Machine.execRailBelowReset supply millivolts dies s
  | .idleEntry island elapsedNs => Sys2Proof.Machine.execIdleEntry island elapsedNs s
  | .idleExit island => Sys2Proof.Machine.execIdleExit island s
  | .plcaTransmit => Sys2Proof.Machine.execPlcaTransmit s
  | .beaconLoss elapsedUs => Sys2Proof.Machine.execBeaconLoss elapsedUs s
  | .plcaCollision => Sys2Proof.Machine.execPlcaCollision s
  | .fnSettingApply => Sys2Proof.Machine.execFnSettingApply s
  | .fnPortStart duplicate => Sys2Proof.Machine.execFnPortStart duplicate s
  | .perstDeassert port => Sys2Proof.Machine.execPerstDeassert port s
  | .vinPgoodAssert vin vddq vio => Sys2Proof.Machine.execVinPgoodAssert vin vddq vio s
  | .beaconReturn => Sys2Proof.Machine.execBeaconReturn s
  | .plcaBeacon => Sys2Proof.Machine.execPlcaBeacon s
  | .neighbourDiscovery frame => Sys2Proof.Machine.execNeighbourDiscovery frame s
  | .msixUnmask port vector => Sys2Proof.Machine.execMsixUnmask port vector s

end Sys2Proof.Machine
end

