-- ==== Sys2Proof/WellFormed.lean ====
section
/-! DEFINITION. Commands that can be sent: every operand lies in the range that the hardware has wires for. A command that
is not well formed is refused by name (`Refusal.illFormed`); it is no command of the manual. -/

namespace Sys2Proof

/-- How many islands each island code has (02, "Islands, clocks and supplies"), from code 0 to code 0xD. -/
def islandInstances : List Nat := [288, 48, 48, 52, 8, 16, 16, 16, 8, 2, 2, 1, 1, 1]

/-- A 16-bit island identifier names an island: its code in [15:12], its instance in [11:0]. -/
def isIsland (id : Nat) : Bool := id % 4096 < islandInstances.getD (id / 4096) 0

/-- VIN_MAIN, VAUX, VDDQ_DDR and VIO are rails 0 to 3; each island has a regulator. -/
def Machine.Supply.wellFormed : Machine.Supply → Bool
  | .rail n => n < 4
  | .regulator island => isIsland island

/-- One of the two mailboxes, or an IPv6 address and a UDP port. -/
def Machine.OdPath.wellFormed : Machine.OdPath → Bool
  | .mailbox port => port < 2
  | .todp addr udpPort => addr < 2 ^ 128 && udpPort < 65536

/-- The operands of a command lie in their ranges. -/
def Instr.wellFormed : Instr → Bool
  -- Timetable commands: the sequencer of `core` issues the chosen stream's next command when it is of the row's kind
  | .sync core => core < 288
  | .tileOutputStat core _ => core < 288
  | .tileInputStat core _ => core < 288
  | .tileElementwise core _ => core < 288
  | .move core => core < 288
  | .moveTranspose core => core < 288
  | .moveRequant core => core < 288
  | .moveSpill core => core < 288
  | .moveFill core => core < 288
  | .rowNormForward core => core < 288
  | .rowNormBackward core => core < 288
  | .rowAttentionStatistics core => core < 288
  | .rowAttentionBackward core => core < 288
  | .rowDropout core => core < 288
  | .rowRowsum core => core < 288
  | .rowHiddenGradientSum core => core < 288
  | .rowGainAccumulation core => core < 288
  | .jctDistilStats core => core < 288
  | .jctDistilEmit core => core < 288
  | .jctHintStats core => core < 288
  | .jctHintEmit core => core < 288
  | .jctDraft core => core < 288
  | .jctVerify core => core < 288
  | .jctResidual core => core < 288
  | .jctSlotGrant die _ => die < 48
  | .jctPartialMerge die row => die < 48 && row < 4096
  | .jctGradEmit die row => die < 48 && row < 4096
  | .lossSpikeDetect => true
  | .barrier core => core < 288
  | .notify core => core < 288
  | .rebase core => core < 288
  | .stepEnd core => core < 288
  | .streamEnd core => core < 288
  | .place core => core < 288
  -- Signal boxes and the Interlocking
  | .counterSignal core => core < 288
  | .sbSet core _ => core < 288
  | .syncHangReport core slot _ => core < 288 && slot < 8
  | .syncHang core slot _ => core < 288 && slot < 8
  | .barArrive port => port < 16
  | .barRelease chan _ => chan < 16
  | .barrierTokenDeadline port chan _ => port < 16 && chan < 16
  | .barrierTimeout chan _ => chan < 16
  -- Roundhouse and checkpoints
  | .roundhouseNormPass bucket _ _ => bucket < 65536
  | .updateComplete stopUs => stopUs < 2 ^ 32
  | .copyPass stopUs => stopUs < 2 ^ 32
  | .ckptCodingComplete => true
  | .roundhouseDetectedError edge _ => edge < 8
  | .updDigest value => value < 256
  -- Reduction
  | .bucketFilled bucket => bucket < 65536
  | .accum port => port < 16
  | .exchangeComplete => true
  | .redShadowDeadline bucket _ => bucket < 65536
  | .redHardTimeout bucket _ => bucket < 65536
  | .ringSubst port => port < 16
  -- Linam link
  | .moveWrite port => port < 16
  | .writeAck port => port < 16
  | .linkMessageForward port vc => port < 16 && vc < 4
  | .jobFault port => port < 16
  | .mgmt port => port < 16
  | .linkGroupReceive port lanes _ => port < 16 && lanes.length = 9
  | .linkAckDeadline port _ => port < 16
  | .laneLockLoss port lane => port < 16 && lane < 9
  | .laneSerWindow port lane _ => port < 16 && lane < 9
  | .laneSub port => port < 16
  | .laneSubTimeout port _ => port < 16
  | .portTrainingStart port _ _ skews => port < 16 && skews.length = 9
  | .portHandshake port peer peerPort epoch credits => port < 16 && peer < 65536 && peerPort < 16 && epoch < 2 ^ 32 && credits.length = 4
  | .portTrainingTimeout port _ => port < 16
  | .portTrainingRetry port _ => port < 16
  | .linkPortReset value => value < 65536
  | .pointsCommit value => value < 2 ^ 32
  -- Host interface
  | .queueDoorbell port function _ _ _ => port < 2 && function < 64
  | .completionDoorbell port function _ _ _ => port < 2 && function < 64
  | .counterDoorbell port function _ _ _ => port < 2 && function < 64
  | .dCopy queue => queue < 4096
  | .dInline queue => queue < 4096
  | .dFence queue => queue < 4096
  | .dFlush queue => queue < 4096
  | .dServe queue => queue < 4096
  | .qReset queue => queue < 4096
  | .ctxReset platform => platform < 1024
  | .epochArm platform _ => platform < 1024
  | .apertureRead port offset size => port < 2 && offset + size ≤ 2 ^ 24
  | .apertureWrite port offset data => port < 2 && offset + data.length ≤ 2 ^ 24
  | .mbxGo port => port < 2
  | .registerWrite port function _ _ _ _ => port < 2 && function < 64
  | .cxlMemRead port _ _ => port < 2
  | .cxlMemWrite port _ _ => port < 2
  | .hdmDecoderCommit port _ _ _ => port < 2
  | .dataLinkDown port => port < 2
  | .dataLinkUp port rate width _ _ => port < 2 && 1 ≤ rate && rate ≤ 6 && [1, 2, 4, 8, 16].contains width
  | .linkDownHold port _ => port < 2
  | .portHotReset port => port < 2
  | .packageWarmReset _ => true
  | .flrPhysical port => port < 2
  | .flrVirtual port vf => port < 2 && 1 ≤ vf && vf < 64
  | .vfEnableClear port numVfs => port < 2 && numVfs < 64
  -- Platforms
  | .pcArm platform _ => platform < 1024
  | .pcSuspend platform => platform < 1024
  | .suspendComplete platform => platform < 1024
  | .pcResume platform => platform < 1024
  | .pcReset platform => platform < 1024
  | .pcDisarm platform => platform < 1024
  -- Object Dictionary and field network
  | .odRead path _ => path.wellFormed
  | .odWrite path _ => path.wellFormed
  | .domainSegmentWrite path _ => path.wellFormed
  | .discover addr udpPort _ => (Machine.OdPath.todp addr udpPort).wellFormed
  | .mctp path _ => path.wellFormed
  | .secured path _ => path.wellFormed
  | .spdmChallenge path _ => path.wellFormed
  | .spdmGetMeasurements path _ => path.wellFormed
  | .spdmKeyExchange path _ => path.wellFormed
  | .rw2Write path _ => path.wellFormed
  | .authCancel path _ => path.wellFormed
  | .stagedChangeExpiry _ => true
  | .keyEnrol path _ => path.wellFormed
  | .ownershipRelease path _ => path.wellFormed
  | .debugUnlock path _ => path.wellFormed
  | .fwUpdate path _ => path.wellFormed
  | .ttLoad value => value < 256
  | .ttLoadComplete _ => true
  | .ckptRequest value => value < 2 ^ 64
  | .ckptDrained value => value < 2 ^ 64
  | .ckptRestore value => value < 2 ^ 64
  | .ckptServeNow value => value < 256
  | .buddyPkg value peerFeed => value < 65536 && peerFeed < 2 ^ 64
  | .buddySend value => value < 65536
  | .statsLatchNow value => value < 256
  | .stickyLogClear value => value < 2 ^ 256
  | .feValidClear value => value < 2
  | .packageMode value => value < 256
  | .powerProfile value => value < 256
  | .powerStateRun => true
  | .powerStateDoze => true
  | .powerStateStandby => true
  | .packageResetWarm _ => true
  | .packageResetCold _ => true
  | .statsBoundary => true
  -- Serving
  | .roundBoundary roundUs => roundUs < 2 ^ 32
  | .summaryComplete request => request < 16384
  -- Detected errors, islands, control dies
  | .arrayDetectedError core array cell row col _ => core < 288 && array < 4 && row < 130 && col < 130 && cell = 130 * row + col
  | .turntableDetectedError die _ _ => die < 48
  | .islandLimitCheck a b _ _ _ _ _ _ => isIsland a && isIsland b
  | .islandResume island _ _ _ _ _ => isIsland island
  | .islandParkLimit island _ => isIsland island
  | .linamParkDeadline island _ => isIsland island && island / 4096 = 7
  | .controlWatchdog _ _ => true
  | .controlMemory _ => true
  | .controlDieReportTimeout _ => true
  -- Power, start-up and thermal
  | .vauxRise _ _ => true
  | .packageReady _ _ lines => lines.all fun x => x.core < 288 && x.array < 4 && x.line < 130
  | .mainRailStartTimeout _ => true
  | .vinPgoodDrop _ _ => true
  | .powerSample _ _ => true
  | .supplyWarning supply _ => supply.wellFormed
  | .supplyRecovery supply _ _ => supply.wellFormed
  | .thermalSample island _ => isIsland island
  | .thermalExit island _ _ => isIsland island
  | .thermalTripHoldoff _ => true
  | .railBelowReset supply _ _ => supply.wellFormed
  | .idleEntry island _ => isIsland island
  | .idleExit island => isIsland island
  -- Field network
  | .plcaTransmit => true
  | .beaconLoss _ => true
  | .plcaCollision => true
  | .fnSettingApply => true
  | .fnPortStart _ => true
  | .perstDeassert port => port < 2
  | .vinPgoodAssert _ _ _ => true
  | .beaconReturn => true
  | .plcaBeacon => true
  | .neighbourDiscovery _ => true
  | .msixUnmask port vector => port < 2 && vector < 2048

end Sys2Proof
end

