-- ==== Sys2Proof/Safety.lean ====
section
/-! DEFINITION. What the statements about this block speak of: the canonical form of its memories, which every step keeps;
a state whose memory shows no uncorrected error; the command that a core's sequencer issues; and what reading memory shows. -/

namespace Sys2Proof.Machine

open Sys2Proof

/-- Both memories of the block's world are in canonical form: addresses strictly rising, and no byte listed that equals
what an unlisted address reads as. Equal memories are then equal lists. -/
abbrev State.Canonical (s : State) : Prop := Memory.wf s.mem = true ∧ Memory.wf s.hostMem = true

/-- The sequencer of core `c` issues `it`, a command of one of `kinds`, and its header obeys R646. -/
abbrev State.Issues (s : State) (c : Nat) (kinds : List CmdKind) (it : Issue) : Prop :=
  c < 288 ∧ s.issue c kinds = some it ∧ s.headerOkAt it.core it.slot it.w = true

/-- A row that runs on an engine: its core, the kinds of command word that are its own (a group's reserved encodings stand with its
first row), the operand checks under which it issues (R54, R69, R252), when it can start, and what its engine then does. -/
structure EngineRow where
  core : Nat
  kinds : List CmdKind
  ok : State → Issue → Bool
  can : State → Issue → Bool
  run : State → Issue → State

def tileRowOf (c : Nat) (fz : Freeze) (kinds : List CmdKind) : EngineRow :=
  { core := c, kinds := kinds, ok := State.tileOk, can := State.tileCan, run := State.runTile fz }
def moveRowOf (c : Nat) (kinds : List CmdKind) (run : State → Issue → State) : EngineRow :=
  { core := c, kinds := kinds, ok := State.moveOk, can := State.moveCan, run := run }
def unitRowOf (c : Nat) (kinds : List CmdKind) (row : State → Issue → RowConst → Nat → State) : EngineRow :=
  { core := c, kinds := kinds, ok := State.rowOk, can := fun _ _ => true, run := State.runRow row }

/-- The rows of the Timetable that run on arrays, the move engine and the row unit. -/
def engineRow : Instr → Option EngineRow
  | .tileOutputStat c fz => some (tileRowOf c fz [.tileOut, .tileReserved])
  | .tileInputStat c fz => some (tileRowOf c fz [.tileIn])
  | .tileElementwise c fz => some (tileRowOf c fz [.tileElem])
  | .move c => some (moveRowOf c [.moveCopy, .moveReserved] State.runMove)
  | .moveTranspose c => some (moveRowOf c [.moveTranspose] (State.runTurntable State.ttTranspose))
  | .moveRequant c => some (moveRowOf c [.moveRequant] (State.runTurntable State.ttRequant))
  | .moveSpill c => some (moveRowOf c [.moveSpill] State.runSpill)
  | .moveFill c => some (moveRowOf c [.moveFill] State.runFill)
  | .rowNormForward c => some (unitRowOf c [.rowNormF] rowNormF)
  | .rowNormBackward c => some (unitRowOf c [.rowNormB] rowNormB)
  | .rowAttentionStatistics c => some (unitRowOf c [.rowAttS] rowAttS)
  | .rowAttentionBackward c => some (unitRowOf c [.rowAttB] rowAttB)
  | .rowDropout c => some (unitRowOf c [.rowDrop, .rowReserved] rowDrop)
  | .rowRowsum c => some (unitRowOf c [.rowSum] rowRedSum)
  | .rowHiddenGradientSum c => some (unitRowOf c [.rowHid] rowHidden)
  | .rowGainAccumulation c => some (unitRowOf c [.rowGain] rowGain)
  | _ => none

/-- The command of a row's kinds that its engine starts from its queue, before the core issues another (R250, R455). -/
def State.queuedFirst (s : State) (i : Instr) : Option Issue :=
  match engineRow i with
  | some r => s.queuedStart r.core r.kinds r.can
  | none => none

/-- The sequencer issues `it` to an idle engine, and it starts at once: no queued command of these kinds starts before it, its
operands are accepted, nothing holds it, and its stream has not faulted at its next command. -/
abbrev State.Launches (s : State) (c : Nat) (kinds : List CmdKind) (ok can : State → Issue → Bool) (it : Issue) : Prop :=
  s.Issues c kinds it ∧ ok s it = true ∧ s.queuedStart c kinds can = none ∧ s.engineIdle it = true ∧ can s it = true ∧
    (s.leave it).halted it = false

/-- The Timetable command that a row stands for: its core, its kinds of command word, and the operand checks under which it issues
(R54, R69, R174, R252). -/
def timetableRow : Instr → Option (Nat × List CmdKind × (State → Issue → Bool))
  | .sync c => some (c, [.sync, .reserved], fun _ it => kindOf it.w = .sync && zeroFrom it.w 128)
  | .jctDistilStats c => some (c, [.jctDistilS, .jctReserved], fun s it => kindOf it.w != .jctReserved && s.jctOk it)
  | .jctDistilEmit c => some (c, [.jctDistilE], fun s it => kindOf it.w != .jctReserved && s.jctOk it)
  | .jctHintStats c => some (c, [.jctHintS], fun s it => kindOf it.w != .jctReserved && s.jctOk it)
  | .jctHintEmit c => some (c, [.jctHintE], fun s it => kindOf it.w != .jctReserved && s.jctOk it)
  | .jctDraft c => some (c, [.jctDraft], fun s it => kindOf it.w != .jctReserved && s.jctOk it)
  | .jctVerify c => some (c, [.jctVerify], fun s it => kindOf it.w != .jctReserved && s.jctOk it)
  | .jctResidual c => some (c, [.jctResidual], fun s it => kindOf it.w != .jctReserved && s.jctOk it)
  | .barrier c => some (c, [.barrier], barrierOk)
  | .notify c => some (c, [.notify], notifyOk)
  | .rebase c => some (c, [.rebase], fun s it => zeroFrom it.w 134 && (s.mapCtr it.platform it.tcore (cmdBits it.w 128 6)).isSome)
  | .stepEnd c => some (c, [.stepEnd], fun _ it => !postEn it.w && zeroFrom it.w 128)
  | .streamEnd c => some (c, [.streamEnd], fun _ it => !postEn it.w && zeroFrom it.w 128)
  | .place c => some (c, [.place], placeOk)
  | i => (engineRow i).map fun r => (r.core, r.kinds, r.ok)

/-- The oldest message that VC `v` of port `p` holds is `m`, for this package and of the current epoch. -/
abbrev State.Delivers (s : State) (p v : Nat) (m : Message) : Prop :=
  p < 16 ∧ s.inHead p v = some m ∧ m.dst = s.pkg ∧ m.epoch = s.odv Od.POINTS_EPOCH

/-- The port, the VC and the messages that a row takes from the front of a port's inbox. -/
def takerOf : Instr → Option (Nat × Nat × (State → Message → Bool))
  | .barArrive p => some (p, 0, fun s m => m.kind = 4 && m.dst = s.pkg)
  | .accum p => some (p, 1, fun s m => m.dst = s.pkg)
  | .ringSubst p => some (p, 0, fun s m => m.kind = 6 && m.lcOp = 2 && m.dst = s.pkg)
  | .moveWrite p => some (p, 2, fun s m => m.kind = 1 && s.writeOpen m && m.dst = s.pkg)
  | .writeAck p => some (p, 0, fun s m => m.kind = 3 && m.dst = s.pkg)
  | .linkMessageForward p v => some (p, v, fun s m => m.dst != s.pkg)
  | .jobFault p => some (p, 0, fun s m => m.kind = 6 && m.lcOp = 3 && m.dst = s.pkg)
  | .laneSub p => some (p, 0, fun s m => m.kind = 6 && m.lcOp = 1 && m.dst = s.pkg)
  | .mgmt p => some (p, 3, fun s m => m.kind = 7 && m.dst = s.pkg)
  | _ => none

/-- No ECC word of device memory shows an uncorrected error. -/
abbrev State.Clean (s : State) : Prop := s.eccBad = []

/-- A doorbell write whose form R490 accepts reaches Platform `p`: 8 bytes at the register, its reserved bits 0, in a page
that responds, for a context that takes doorbells. -/
abbrev State.Rings (s : State) (port vf p value reg resLo resLen : Nat) : Prop :=
  port < 2 ∧ vf < 64 ∧ reg < 4096 ∧ bitsOf value resLo resLen = 0 ∧ s.responds port vf p = true ∧
    (s.plat p).epochStopped = false ∧ (s.plat p).st ≠ 3

/-- The next descriptor of queue `q` is `d`, for Platform `p`, and its form is accepted. -/
abbrev State.Starts (s : State) (q p : Nat) (d : Desc) : Prop :=
  q < 4096 ∧ s.nextDesc q = some (p, d) ∧ descOk s p d = true

/-- The state in which that descriptor runs: its slots have been read. -/
abbrev State.fetched (s : State) (d : Desc) : State := s.count Od.HOST_READ_BYTES (64 * d.slots)

/-- A byte of device memory, and of host memory, as a reader sees it. -/
def State.byteAt (s : State) (a : Nat) : Byte := memGet s.mem a
def State.hostByteAt (s : State) (a : Nat) : Byte := memGet s.hostMem a

/-- Every byte of device memory and of host memory reads the same in both states. -/
def State.SameMemory (s t : State) : Prop := ∀ a, t.byteAt a = s.byteAt a ∧ t.hostByteAt a = s.hostByteAt a

/-- Every byte of device memory outside `n` bytes at `a` reads the same in both states. -/
def State.SameOutside (s t : State) (a n : Nat) : Prop := ∀ b, (b < a ∨ a + n ≤ b) → t.byteAt b = s.byteAt b

/-- The running count of a latched entry (R522). -/
def State.counted (s : State) (key : Nat) : Nat := tabGet 0 s.stats key

/-- Request `bs` waits to be served on its path: in the mailbox of a Ready package, or as a datagram to the UDP port that a
field-network port serves. -/
abbrev State.Requested (s : State) (path : OdPath) (bs : List Byte) : Prop :=
  path.ok = true ∧ match path with
    | .mailbox p => s.mailboxRuns = true ∧ (s.port p).mbxServing = some bs
    | .todp _ udpPort => s.fnAnswers = true ∧ udpPort = s.fieldNet.udpPort

/-- The state once a request has been served and answered on its path. -/
abbrev State.answered (s : State) (path : OdPath) (bs : List Byte) : State :=
  match path with
  | .mailbox p => s.serveMailbox p bs
  | .todp addr udpPort => s.serveTodp addr udpPort bs

/-- The package is powered and its management firmware runs. -/
abbrev State.Managed (s : State) : Prop := s.power.vaux = true ∧ s.power.boot = 1

end Sys2Proof.Machine
end

