-- ==== Sys2Proof/Certificates/Slice0/Obligations.lean ====
section
/-! DEFINITION. The statements about this block, for the provers: what each command does and leaves alone, what every step
keeps, and what the rules of the manual say of whole situations. -/

open Sys2Proof Sys2Proof.Machine

/-- For every command c, every list rest of waiting commands and every state s: the step of s with c in front of rest is exec
of c on s with the queue rest. (95_what_each_step_holds.md) -/
def Obligations.StepRunsTheFrontCommand : Prop :=
  ∀ (c : Instr) (rest : List Instr) (s : State), step { s with pending := c :: rest } = exec c { s with pending := rest }

/-- The model's choice (log entry 3), not a rule of the manual: with no command waiting and VAUX present, a step answers a
next state whose management-island time is one millisecond later, with memory, ports and every Object Dictionary value
unchanged; without VAUX the step changes nothing. (16_faults_checkpoints_spares.md, 18_power_reset_states.md) -/
def Obligations.EmptyQueueLetsAMillisecondPass : Prop :=
  (∀ (s : State), s.pending = [] → s.power.vaux = true → ∃ t, step s = .next t ∧ t.timeMs = s.timeMs + 1 ∧ t.mem = s.mem ∧
    t.hostMem = s.hostMem ∧ t.ports = s.ports ∧ t.od = s.od ∧ t.cores = s.cores ∧ t.pending = []) ∧
  (∀ (s : State), s.pending = [] → s.power.vaux = false → step s = .next s)

/-- At State.reset device memory and host memory are in canonical form, the queue is empty, and every byte of memory reads as
the value that log entry 4 names for a byte that nothing has written. (09_memory_and_host_data.md) -/
def Obligations.ResetIsCanonical : Prop :=
  State.reset.Canonical ∧ State.reset.pending = [] ∧ ∀ a, State.reset.byteAt a = unwritten ∧ State.reset.hostByteAt a =
    unwritten

/-- For every state s whose device and host memories are in canonical form (addresses strictly rising, nothing listed that
reads as unwritten), if the step of s answers the next state t, both memories of t are in canonical form: no command of the
table, and no tick, breaks the form in which equal memories are equal data. (09_memory_and_host_data.md,
95_what_each_step_holds.md) -/
def Obligations.EveryStepKeepsMemoryCanonical : Prop :=
  ∀ (s t : State), s.Canonical → step s = .next t → t.Canonical

/-- For every command i and every state s, if exec of i on s answers the next state t, the commands that wait in t are those
that wait in s, in the same order. (95_what_each_step_holds.md) -/
def Obligations.EveryCommandKeepsTheQueue : Prop :=
  ∀ (i : Instr) (s t : State), exec i s = .next t → t.pending = s.pending

/-- For every command i and every state s: if the operands of i lie in the ranges for which the hardware has wires, exec
answers a next state; otherwise exec refuses it as ill-formed. No command faults and none is refused for want of a meaning.
For each of the 16 rows that run on an engine (engineRow names its core, kinds, checks and effect): a queued command of the
row's kinds that can start leaves the queue and has the row's effect; else the command that issues to an idle engine and
can start leaves its stream and has that effect at once; one that issues to a busy engine, or cannot start yet, leaves its
stream for the engine's queue. The model's choice, not a rule of the manual: for each of the 34 Timetable rows, where no
queued command of the row's kinds can start and the sequencer has no next command of those kinds (no ready stream, a parked
island, or a command of another kind), exec leaves the state as it is. (95_what_each_step_holds.md, 00_scope.md, R250,
R251, R259, R455, 08_timetable_and_signal_boxes.md) -/
def Obligations.EveryCommandRunsInItsTurn : Prop :=
  (∀ (i : Instr) (s : State), if i.wellFormed then ∃ t, exec i s = .next t else ∃ o, exec i s = .refused (.illFormed o)) ∧
  (∀ (i : Instr) (c : Nat) (kinds : List CmdKind) (ok : State → Issue → Bool) (s : State), timetableRow i = some (c, kinds,
    ok) → c < 288 → s.queuedFirst i = none → s.issue c kinds = none → exec i s = .next s) ∧
  (∀ (i : Instr) (r : EngineRow) (it : Issue) (s : State), engineRow i = some r → r.core < 288 → s.coreActs r.core = true →
    s.queuedFirst i = some it → exec i s = .next (r.run (s.unqueue it) it)) ∧
  (∀ (i : Instr) (r : EngineRow) (it : Issue) (s : State), engineRow i = some r → s.Launches r.core r.kinds r.ok r.can it →
    exec i s = .next (r.run (s.leave it) it)) ∧
  (∀ (i : Instr) (r : EngineRow) (it : Issue) (s : State), engineRow i = some r → s.Issues r.core r.kinds it → r.ok s it =
    true → s.queuedFirst i = none → (s.engineIdle it && r.can s it) = false → exec i s = .next ((s.leave it).enqueue it))

/-- For device memory in canonical form and a write of the bytes bs at address a: the byte at a + k reads the k-th written
byte, every byte outside the written ones reads as before, and the memory is again in canonical form.
(09_memory_and_host_data.md) -/
def Obligations.MemoryReadsWhatWasWritten : Prop :=
  ∀ (s : State) (a : Nat) (bs : List Byte), Memory.wf s.mem = true → (∀ k (h : k < bs.length), (s.put a bs).byteAt (a + k) =
    bs[k]) ∧ s.SameOutside (s.put a bs) a bs.length ∧ Memory.wf (s.put a bs).mem = true

/-- For each of the 34 Timetable rows (timetableRow names its core, its command kinds and its operand checks): where no
queued command of those kinds starts first, the sequencer of the core issues a command of those kinds, and its header or
its operands are refused, exec answers the state in which the stream of the command has faulted with the cause
SYNC_CMD_REFUSED (0x0101); the stream then stands FAULTED and no signal has been counted. (R252) -/
def Obligations.RefusedCommandFaultsItsStream : Prop :=
  ∀ (i : Instr) (c : Nat) (kinds : List CmdKind) (ok : State → Issue → Bool) (it : Issue) (s : State), timetableRow i = some
    (c, kinds, ok) → c < 288 → s.queuedFirst i = none → s.issue c kinds = some it → s.accepts ok it = false → ∃ t, exec i s =
    .next t ∧ t = s.faultIssue it 0x0101 ∧ (t.stream it.core it.slot).state = 4 ∧ t.counted Od.SYNC_SIGNALS = s.counted
    Od.SYNC_SIGNALS

/-- For TILE in output-stationary, input-stationary and element-wise mode: where the command issues to an idle array and
starts (Launches), no word of memory shows an uncorrected error, and a chained tile names no west scale address, exec
answers the state in which its stream has gone on (leave), the tile has started, ARRAY_CTL, ARRAY_STATUS and the cycle
counts are those of one tile, and its outputs have been converted and taken their route (tileEffect), at whose end it
signals. With one detected error waiting at the array before an output at which the tile can be replayed, the state is that
of the same effect with one replay counted and twice the cycles. Shown to complete, under conditions on the state and the
operands alone: TILE_OUTPUT_STAT, TILE_INPUT_STAT, TILE_ELEMENTWISE. (R53, R60, R78, R80, R86, R87, R251) -/
def Obligations.TileRunsAndSignals : Prop :=
  (∀ (c : Nat) (fz : Freeze) (it : Issue) (s u : State), s.Launches c [.tileOut, .tileReserved] State.tileOk State.tileCan it
    → u = s.leave it → u.Clean → (u.array it.core (cmdBits it.w 192 2)).armed = [] → (u.chainIn it.tile).isEmpty = true ∨
    tWestScale it.w = 0 → exec (.tileOutputStat c fz) s = .next (((u.start it (tileCycles it.w) (tileCycles it.w)).tileCounts
    it fz 0).tileEffect it)) ∧
  (∀ (c : Nat) (fz : Freeze) (e : CellError) (it : Issue) (s u : State), s.Launches c [.tileOut, .tileReserved] State.tileOk
    State.tileCan it → u = s.leave it → u.Clean → (u.array it.core (cmdBits it.w 192 2)).armed = [e] → u.replayable it.tile
    e.out = true → exec (.tileOutputStat c fz) s = .next (((u.start it (tileCycles it.w) (tileCycles it.w * 2)).tileCounts it
    fz 1).tileEffect it)) ∧
  (∀ (c : Nat) (fz : Freeze) (it : Issue) (s u : State), s.Launches c [.tileIn] State.tileOk State.tileCan it → u = s.leave
    it → u.Clean → (u.array it.core (cmdBits it.w 192 2)).armed = [] → (u.chainIn it.tile).isEmpty = true ∨ tWestScale it.w =
    0 → exec (.tileInputStat c fz) s = .next (((u.start it (tileCycles it.w) (tileCycles it.w)).tileCounts it fz
    0).tileEffect it)) ∧
  (∀ (c : Nat) (fz : Freeze) (e : CellError) (it : Issue) (s u : State), s.Launches c [.tileIn] State.tileOk State.tileCan it
    → u = s.leave it → u.Clean → (u.array it.core (cmdBits it.w 192 2)).armed = [e] → u.replayable it.tile e.out = true →
    exec (.tileInputStat c fz) s = .next (((u.start it (tileCycles it.w) (tileCycles it.w * 2)).tileCounts it fz
    1).tileEffect it)) ∧
  (∀ (c : Nat) (fz : Freeze) (it : Issue) (s u : State), s.Launches c [.tileElem] State.tileOk State.tileCan it → u = s.leave
    it → u.Clean → (u.array it.core (cmdBits it.w 192 2)).armed = [] → (u.chainIn it.tile).isEmpty = true ∨ tWestScale it.w =
    0 → exec (.tileElementwise c fz) s = .next (((u.start it (tileCycles it.w) (tileCycles it.w)).tileCounts it fz
    0).tileEffect it)) ∧
  (∀ (c : Nat) (fz : Freeze) (e : CellError) (it : Issue) (s u : State), s.Launches c [.tileElem] State.tileOk State.tileCan
    it → u = s.leave it → u.Clean → (u.array it.core (cmdBits it.w 192 2)).armed = [e] → u.replayable it.tile e.out = true →
    exec (.tileElementwise c fz) s = .next (((u.start it (tileCycles it.w) (tileCycles it.w * 2)).tileCounts it fz
    1).tileEffect it))

/-- Where a move issues to an idle move engine and starts (Launches: its operands are accepted and its ports and islands
carry traffic), and no word of memory shows an uncorrected error: its stream goes on (leave); a local MOVE copies its rows
(skewed where its destination says so), counts what it read of the host and completes; a MOVE to another package sends its
messages and waits for their acknowledgements; TRANSPOSE and REQUANT write their destination, count their blocks of 128 x
128 elements and complete when no block meets a second detected error; a SPILL writes its slot in its format, and a FILL
writes the codes of the slot to its rows, each loading SIDING_CTL, counting and completing. Each next state is given
exactly. Shown to complete, under conditions on the state and the operands alone: MOVE, MOVE_TRANSPOSE, MOVE_REQUANT,
MOVE_SPILL, MOVE_FILL. (R181, R183, R185, R186, R251, R352) -/
def Obligations.MoveRunsAndSignals : Prop :=
  (∀ (c : Nat) (it : Issue) (s u : State), s.Launches c [.moveCopy, .moveReserved] State.moveOk State.moveCan it → u =
    s.leave it → u.Clean → isRemote (mvDst it.w) = false → exec (.move c) s = .next (((if skewOf (mvDst it.w) = 0 then
    (u.start it (moveCost it.w) (moveCost it.w)).copyRows it else (u.start it (moveCost it.w) (moveCost it.w)).copySkewed
    it).countHostRead it).finish it)) ∧
  (∀ (c : Nat) (it : Issue) (s u : State), s.Launches c [.moveCopy, .moveReserved] State.moveOk State.moveCan it → u =
    s.leave it → u.Clean → isRemote (mvDst it.w) = true → exec (.move c) s = .next (((u.start it (moveCost it.w) (moveCost
    it.w)).countHostRead it).sendMove it)) ∧
  (∀ (c : Nat) (it : Issue) (s u : State), s.Launches c [.moveTranspose] State.moveOk State.moveCan it → u = s.leave it →
    u.Clean → ((u.start it (moveCost it.w) (moveCost it.w)).ttMet it).any (·.2) = false → exec (.moveTranspose c) s = .next
    (((((u.start it (moveCost it.w) (moveCost it.w)).loadTt it).ttTranspose it).count Od.TT_BLOCKS (ttBlocks it.w)).finish
    it)) ∧
  (∀ (c : Nat) (it : Issue) (s u : State), s.Launches c [.moveRequant] State.moveOk State.moveCan it → u = s.leave it →
    u.Clean → ((u.start it (moveCost it.w) (moveCost it.w)).ttMet it).any (·.2) = false → exec (.moveRequant c) s = .next
    (((((u.start it (moveCost it.w) (moveCost it.w)).loadTt it).ttRequant it).count Od.TT_BLOCKS (ttBlocks it.w)).finish it)) ∧
  (∀ (c : Nat) (it : Issue) (s u : State), s.Launches c [.moveSpill] State.moveOk State.moveCan it → u = s.leave it → u.Clean
    → exec (.moveSpill c) s = .next ((((((u.start it (moveCost it.w) (moveCost it.w)).loadSiding it).spillSlot it).1.count
    Od.SIDING_RAW_BYTES ((srcRows it.w).n * (srcRows it.w).bytes)).count Od.SIDING_STORED_BYTES (((u.start it (moveCost it.w)
    (moveCost it.w)).loadSiding it).spillSlot it).2).finish it)) ∧
  (∀ (c : Nat) (it : Issue) (s u : State), s.Launches c [.moveFill] State.moveOk State.moveCan it → u = s.leave it → u.Clean
    → exec (.moveFill c) s = .next ((((u.start it (moveCost it.w) (moveCost it.w)).loadSiding it).fillSlot it).finish it))

/-- For each of the eight row-unit operations: where the command issues to an idle row unit and starts (Launches), and no
word of memory shows an uncorrected error, exec answers the state in which its stream has gone on (leave), the command has
started, the operation has been carried out on rows 0, 1, ... in turn, each on the state that the rows before it left
(rowEffect, with the operation of the row), and the command has signalled. Shown to complete, under conditions on the state
and the operands alone: ROW_NORM_FORWARD, ROW_NORM_BACKWARD, ROW_ATTENTION_STATISTICS, ROW_ATTENTION_BACKWARD, ROW_DROPOUT,
ROW_ROWSUM, ROW_HIDDEN_GRADIENT_SUM, ROW_GAIN_ACCUMULATION. (R191, R192, R193, R194, R195, R196, R197, R180, R251) -/
def Obligations.RowCommandRunsRowByRow : Prop :=
  (∀ (c : Nat) (it : Issue) (s u : State), (s.Launches c [.rowNormF] State.rowOk (fun _ _ => true) it) → u = s.leave it →
    u.Clean → exec (.rowNormForward c) s = .next ((rowEffect rowNormF (u.start it (rowCost it.w) (rowCost it.w)) it
    (u.rowConst it)).finish it)) ∧
  (∀ (c : Nat) (it : Issue) (s u : State), (s.Launches c [.rowNormB] State.rowOk (fun _ _ => true) it) → u = s.leave it →
    u.Clean → exec (.rowNormBackward c) s = .next ((rowEffect rowNormB (u.start it (rowCost it.w) (rowCost it.w)) it
    (u.rowConst it)).finish it)) ∧
  (∀ (c : Nat) (it : Issue) (s u : State), (s.Launches c [.rowAttS] State.rowOk (fun _ _ => true) it) → u = s.leave it →
    u.Clean → exec (.rowAttentionStatistics c) s = .next ((rowEffect rowAttS (u.start it (rowCost it.w) (rowCost it.w)) it
    (u.rowConst it)).finish it)) ∧
  (∀ (c : Nat) (it : Issue) (s u : State), (s.Launches c [.rowAttB] State.rowOk (fun _ _ => true) it) → u = s.leave it →
    u.Clean → exec (.rowAttentionBackward c) s = .next ((rowEffect rowAttB (u.start it (rowCost it.w) (rowCost it.w)) it
    (u.rowConst it)).finish it)) ∧
  (∀ (c : Nat) (it : Issue) (s u : State), (s.Launches c [.rowDrop, .rowReserved] State.rowOk (fun _ _ => true) it) → u =
    s.leave it → u.Clean → exec (.rowDropout c) s = .next ((rowEffect rowDrop (u.start it (rowCost it.w) (rowCost it.w)) it
    (u.rowConst it)).finish it)) ∧
  (∀ (c : Nat) (it : Issue) (s u : State), (s.Launches c [.rowSum] State.rowOk (fun _ _ => true) it) → u = s.leave it →
    u.Clean → exec (.rowRowsum c) s = .next ((rowEffect rowRedSum (u.start it (rowCost it.w) (rowCost it.w)) it (u.rowConst
    it)).finish it)) ∧
  (∀ (c : Nat) (it : Issue) (s u : State), (s.Launches c [.rowHid] State.rowOk (fun _ _ => true) it) → u = s.leave it →
    u.Clean → exec (.rowHiddenGradientSum c) s = .next ((rowEffect rowHidden (u.start it (rowCost it.w) (rowCost it.w)) it
    (u.rowConst it)).finish it)) ∧
  (∀ (c : Nat) (it : Issue) (s u : State), (s.Launches c [.rowGain] State.rowOk (fun _ _ => true) it) → u = s.leave it →
    u.Clean → exec (.rowGainAccumulation c) s = .next ((rowEffect rowGain (u.start it (rowCost it.w) (rowCost it.w)) it
    (u.rowConst it)).finish it))

/-- For DISTIL STATS, DISTIL EMIT, HINT STATS, HINT EMIT, DRAFT, VERIFY and RESIDUAL: where the sequencer issues the command,
its operands are accepted, no word of memory shows an uncorrected error, its labels are in range, a command slot is free
and no command waits for one, exec answers the state in which the command is counted as issued on its die, its stream has
gone on to its next command, and the command stands in the lowest free slot, where it folds what has arrived (jctTake). A
DISTIL STATS command with a label out of range faults with JCT_LABEL_RANGE (0x0305); one that finds no free slot waits, and
its stream is BLOCKED. On a die whose Junction, Yard and fabric islands run: with a free command slot and waiting commands,
JCT_SLOT_GRANT gives the slot to the waiting command that R161 prefers and counts its wait; JCT_PARTIAL_MERGE merges into a
row at its home the partial of the next Junction in ascending index once that Junction has folded its last slice, and
faults the owner where a row state shows an uncorrected error; JCT_GRAD_EMIT, where no word of memory shows an uncorrected
error, emits a row whose statistics have been broadcast: from its retained inputs, or slice by slice from the regenerated
ones that have arrived; an EMIT command whose terms differ from those of the command that finished the row faults its
owner. Each next state is given exactly. Shown to complete, under conditions on the state and the operands alone:
JCT_DISTIL_STATS, JCT_DISTIL_EMIT, JCT_HINT_STATS, JCT_HINT_EMIT, JCT_DRAFT, JCT_VERIFY, JCT_RESIDUAL, JCT_SLOT_GRANT,
JCT_PARTIAL_MERGE, JCT_GRAD_EMIT. (R139, R149, R156, R160, R165, R167, R13, R143, R144, R153, R161, R163) -/
def Obligations.JunctionCommandsTakeSlotsAndAdvance : Prop :=
  (∀ (c k : Nat) (it : Issue) (s v : State), s.Issues c [.jctDistilS, .jctReserved] it → kindOf it.w != .jctReserved &&
    s.jctOk it → v = s.issued it → v.Clean → v.badLabel it = false → (v.die (dieOfCore it.core)).waiting = [] → (v.die
    (dieOfCore it.core)).freeSlot = some k → exec (.jctDistilStats c) s = .next (((((v.start it (v.jctNew it).cost
    0)).jctIssue it (v.jctNew it)).advance it.core it.slot 6).jctTake (dieOfCore it.core) k (v.jctNew it))) ∧
  (∀ (c k : Nat) (it : Issue) (s v : State), s.Issues c [.jctDistilE] it → kindOf it.w != .jctReserved && s.jctOk it → v =
    s.issued it → v.Clean → v.badLabel it = false → (v.die (dieOfCore it.core)).waiting = [] → (v.die (dieOfCore
    it.core)).freeSlot = some k → exec (.jctDistilEmit c) s = .next (((((v.start it (v.jctNew it).cost 0)).jctIssue it
    (v.jctNew it)).advance it.core it.slot 6).jctTake (dieOfCore it.core) k (v.jctNew it))) ∧
  (∀ (c k : Nat) (it : Issue) (s v : State), s.Issues c [.jctHintS] it → kindOf it.w != .jctReserved && s.jctOk it → v =
    s.issued it → v.Clean → v.badLabel it = false → (v.die (dieOfCore it.core)).waiting = [] → (v.die (dieOfCore
    it.core)).freeSlot = some k → exec (.jctHintStats c) s = .next (((((v.start it (v.jctNew it).cost 0)).jctIssue it
    (v.jctNew it)).advance it.core it.slot 6).jctTake (dieOfCore it.core) k (v.jctNew it))) ∧
  (∀ (c k : Nat) (it : Issue) (s v : State), s.Issues c [.jctHintE] it → kindOf it.w != .jctReserved && s.jctOk it → v =
    s.issued it → v.Clean → v.badLabel it = false → (v.die (dieOfCore it.core)).waiting = [] → (v.die (dieOfCore
    it.core)).freeSlot = some k → exec (.jctHintEmit c) s = .next (((((v.start it (v.jctNew it).cost 0)).jctIssue it
    (v.jctNew it)).advance it.core it.slot 6).jctTake (dieOfCore it.core) k (v.jctNew it))) ∧
  (∀ (c k : Nat) (it : Issue) (s v : State), s.Issues c [.jctDraft] it → kindOf it.w != .jctReserved && s.jctOk it → v =
    s.issued it → v.Clean → v.badLabel it = false → (v.die (dieOfCore it.core)).waiting = [] → (v.die (dieOfCore
    it.core)).freeSlot = some k → exec (.jctDraft c) s = .next (((((v.start it (v.jctNew it).cost 0)).jctIssue it (v.jctNew
    it)).advance it.core it.slot 6).jctTake (dieOfCore it.core) k (v.jctNew it))) ∧
  (∀ (c k : Nat) (it : Issue) (s v : State), s.Issues c [.jctVerify] it → kindOf it.w != .jctReserved && s.jctOk it → v =
    s.issued it → v.Clean → v.badLabel it = false → (v.die (dieOfCore it.core)).waiting = [] → (v.die (dieOfCore
    it.core)).freeSlot = some k → exec (.jctVerify c) s = .next (((((v.start it (v.jctNew it).cost 0)).jctIssue it (v.jctNew
    it)).advance it.core it.slot 6).jctTake (dieOfCore it.core) k (v.jctNew it))) ∧
  (∀ (c k : Nat) (it : Issue) (s v : State), s.Issues c [.jctResidual] it → kindOf it.w != .jctReserved && s.jctOk it → v =
    s.issued it → v.Clean → v.badLabel it = false → (v.die (dieOfCore it.core)).waiting = [] → (v.die (dieOfCore
    it.core)).freeSlot = some k → exec (.jctResidual c) s = .next (((((v.start it (v.jctNew it).cost 0)).jctIssue it
    (v.jctNew it)).advance it.core it.slot 6).jctTake (dieOfCore it.core) k (v.jctNew it))) ∧
  (∀ (c : Nat) (it : Issue) (s v : State), s.Issues c [.jctDistilS, .jctReserved] it → kindOf it.w != .jctReserved && s.jctOk
    it → v = s.issued it → v.Clean → v.badLabel it = true → exec (.jctDistilStats c) s = .next ((v.start it (v.jctNew
    it).cost 0).faultIssue it 0x0305)) ∧
  (∀ (c : Nat) (it : Issue) (s v x : State), s.Issues c [.jctDistilS, .jctReserved] it → kindOf it.w != .jctReserved &&
    s.jctOk it → v = s.issued it → v.Clean → v.badLabel it = false → (v.die (dieOfCore it.core)).freeSlot = none → x =
    (v.start it (v.jctNew it).cost 0).jctIssue it (v.jctNew it) → x.serveMode = false → exec (.jctDistilStats c) s = .next
    (let y := x.setDie (dieOfCore it.core) { x.die (dieOfCore it.core) with waiting := (x.die (dieOfCore it.core)).waiting ++ [v.jctNew it] }; y.setStream it.core it.slot { y.stream it.core it.slot with state := 3 })) ∧
  (∀ (die waited k : Nat) (w : JctCmd) (ws : List JctCmd) (s : State), die < 48 → s.jctRuns die = true → (s.die die).freeSlot
    = some k → (s.die die).waiting = w :: ws → exec (.jctSlotGrant die waited) s = .next ((s.jctGrant die k (s.jctBest die w
    ws)).count Od.JCT_SLOT_WAIT_CYCLES waited)) ∧
  (∀ (die row k : Nat) (c q : JctCmd) (s : State), die < 48 → row < 4096 → s.jctRuns die = true → s.mergeSlot die row = some
    (k, c) → s.jctPeer c (tabGet 0 c.merged row) = some q → q.slices ≤ tabGet 0 q.next row → s.rowBad (s.jctDie c q.j) q row
    = false → exec (.jctPartialMerge die row) s = .next (s.mergeRow die row k c q)) ∧
  (∀ (die row k : Nat) (c q : JctCmd) (s : State), die < 48 → row < 4096 → s.jctRuns die = true → s.mergeSlot die row = some
    (k, c) → s.jctPeer c (tabGet 0 c.merged row) = some q → q.slices ≤ tabGet 0 q.next row → s.rowBad (s.jctDie c q.j) q row
    = true → exec (.jctPartialMerge die row) s = .next (s.faultOwner c.platform c.tcore
    { cause := 0x0306, island := 0x1000 + die, core := c.core, slot := c.slot })) ∧
  (∀ (die row k : Nat) (c : JctCmd) (st : JctStats) (s : State), die < 48 → row < 4096 → s.jctRuns die = true → s.emitSlot
    die row = some (k, c) → s.jctStat die c row = some st → s.Clean → jcPass c.ctl = 1 → st.terms = c.terms → exec
    (.jctGradEmit die row) s = .next ((s.emitSlices die k row st (c.slices - tabGet 0 c.next row)).jctSettle die)) ∧
  (∀ (die row k : Nat) (c : JctCmd) (st : JctStats) (s : State), die < 48 → row < 4096 → s.jctRuns die = true → s.emitSlot
    die row = some (k, c) → s.jctStat die c row = some st → s.Clean → jcPass c.ctl = 1 → st.terms ≠ c.terms → exec
    (.jctGradEmit die row) s = .next (s.faultOwner c.platform c.tcore { cause := 0x0101, core := c.core, slot := c.slot })) ∧
  (∀ (die row k : Nat) (c : JctCmd) (st : JctStats) (s : State), die < 48 → row < 4096 → s.jctRuns die = true → s.emitSlot
    die row = some (k, c) → s.jctStat die c row = some st → s.Clean → jcPass c.ctl ≠ 1 → exec (.jctGradEmit die row) s =
    .next ((s.emitKept die k c row st).jctSettle die))

/-- Where the sequencer issues the command and its operands are accepted: SYNC completes, so that it signals and its stream
goes on; PLACE completes and its placement waits for the next command of its stream; REBASE rebases the counter onto which
its counter is mapped and completes; STEP_END moves its stream to its next step (and in Distil mode JOB_STEP follows the
slowest stream); STREAM_END ends its stream (state ENDED), and the Distil job ends with its last stream and last command.
Each next state is given exactly. Shown to complete, under conditions on the state and the operands alone: SYNC, REBASE,
STEP_END, STREAM_END, PLACE. (R251, R258, R260, R262, R639, 08_timetable_and_signal_boxes.md) -/
def Obligations.SequencerCommandsCompleteAndSignal : Prop :=
  (∀ (c : Nat) (it : Issue) (s v : State), s.Issues c [.sync, .reserved] it → kindOf it.w = .sync ∧ zeroFrom it.w 128 = true
    → v = s.issued it → exec (.sync c) s = .next (v.complete it)) ∧
  (∀ (c : Nat) (it : Issue) (s v : State), s.Issues c [.place] it → placeOk s it = true → v = s.issued it → ((v.complete
    it).stream it.core it.slot).state ≠ 4 → exec (.place c) s = .next ((v.complete it).setStream it.core it.slot
    { (v.complete it).stream it.core it.slot with placed := some it.w })) ∧
  (∀ (c mc m : Nat) (it : Issue) (s v : State), s.Issues c [.rebase] it → zeroFrom it.w 134 = true ∧ s.mapCtr it.platform
    it.tcore (cmdBits it.w 128 6) = some (mc, m) → v = s.issued it → exec (.rebase c) s = .next ((v.rebase it.core
    m).complete it)) ∧
  (∀ (c : Nat) (img : Image) (d : StreamDecl) (it : Issue) (s v : State), s.Issues c [.stepEnd] it → postEn it.w = false ∧
    zeroFrom it.w 128 = true → v = s.issued it → (v.plat it.platform).image = some img → img.stream it.tcore (v.stream
    it.core it.slot).tslot = some d → (v.stepOn it img d).serveMode = false → exec (.stepEnd c) s = .next ((v.stepOn it img
    d).followStep)) ∧
  (∀ (c : Nat) (img : Image) (d : StreamDecl) (it : Issue) (s v : State), s.Issues c [.stepEnd] it → postEn it.w = false ∧
    zeroFrom it.w 128 = true → v = s.issued it → (v.plat it.platform).image = some img → img.stream it.tcore (v.stream
    it.core it.slot).tslot = some d → (v.stepOn it img d).serveMode = true → exec (.stepEnd c) s = .next (v.stepOn it img d)) ∧
  (∀ (c : Nat) (it : Issue) (s v : State), s.Issues c [.streamEnd] it → postEn it.w = false ∧ zeroFrom it.w 128 = true → v =
    s.issued it → exec (.streamEnd c) s = .next ((v.setStream it.core it.slot
    { v.stream it.core it.slot with state := 5, waitCtr := 0, waitConsume := false, waitT := 0, hang := false }).endJob))

/-- Where the sequencer issues the command and its operands are accepted: a BARRIER on a channel that declares its core,
scope and vote source records the arrival (arrive); on any other channel its stream faults with SYNC_BARRIER_MEMBER
(0x0103); a NOTIFY to an enabled queue deschedules its stream (BLOCKED) and hands its record to the completion ring; a
NOTIFY to a queue that is not enabled discards it and completes. A delivered arrival token is held at this node and its
channel is gathered. A barrier complete at its root is released to the owner of its channel: its vote is taken, its
arrivals are served and its releases go down the tree; a delivered release of the next barrier of its channel does the
same. A token not acknowledged within BARRIER_TOKEN_DEADLINE faults the job with SYNC_BARRIER_LINK (0x0105), its port is
FAILED and what the port served faults, unless the island of its port is parked; an arrival not released within
BARRIER_TIMEOUT faults its owner with SYNC_BARRIER_TIMEOUT (0x0104). Shown to complete, under conditions on the state and
the operands alone: BARRIER, NOTIFY, BAR_ARRIVE, BAR_RELEASE, BARRIER_TOKEN_DEADLINE, BARRIER_TIMEOUT. (R268, R275, R276,
R277, R498, R499, R279, R280, R51) -/
def Obligations.BarriersArriveReleaseAndTimeOut : Prop :=
  (∀ (c : Nat) (it : Issue) (s v : State), s.Issues c [.barrier] it → barrierOk s it = true → v = s.issued it →
    v.barrierMember it = true → exec (.barrier c) s = .next (v.arrive it)) ∧
  (∀ (c : Nat) (it : Issue) (s v : State), s.Issues c [.barrier] it → barrierOk s it = true → v = s.issued it →
    v.barrierMember it = false → exec (.barrier c) s = .next (v.faultIssue it 0x0103)) ∧
  (∀ (c : Nat) (it : Issue) (s v : State), s.Issues c [.notify] it → notifyOk s it = true → v = s.issued it → (v.queue
    (v.notifyQueue it)).enable = true → exec (.notify c) s = .next ((v.setStream it.core it.slot
    { v.stream it.core it.slot with state := 3 }).pushRecord (v.notifyQueue it) it.platform (v.notifyRecord it))) ∧
  (∀ (c : Nat) (it : Issue) (s v : State), s.Issues c [.notify] it → notifyOk s it = true → v = s.issued it → (v.queue
    (v.notifyQueue it)).enable = false → exec (.notify c) s = .next ((v.pushRecord (v.notifyQueue it) it.platform
    (v.notifyRecord it)).complete it)) ∧
  (∀ (p q : Nat) (m : Message) (s : State), s.Delivers p 0 m → m.kind = 4 → (s.dropHead p 0).chanOwner (tokChan m) = some q →
    exec (.barArrive p) s = .next
    ((let u := s.dropHead p 0; u.setChannel (tokChan m) { u.channel (tokChan m) with tokens := (u.channel (tokChan m)).tokens ++ [{ port := p, n := tokN m, payload := tokPay m : Token }] }).gather
    q (tokChan m) ((s.channel (tokChan m)).sentUp + 1))) ∧
  (∀ (ch p ns : Nat) (d : Nat × Nat) (rest : List (Nat × Nat)) (s : State), ch < 16 → (s.channel ch).due = d :: rest →
    s.chanOwner ch = some p → exec (.barRelease ch ns) s = .next ((s.setChannel ch { s.channel ch with due := rest }).release
    p ch d.1 d.2 ns)) ∧
  (∀ (ch p q ns : Nat) (m : Message) (s : State), ch < 16 → (s.channel ch).due = [] → s.releasePort ch = some (q, m) →
    m.epoch = s.odv Od.POINTS_EPOCH → s.chanOwner ch = some p → ((s.channel ch).released + 1) % 2 ^ 24 = tokN m → exec
    (.barRelease ch ns) s = .next ((s.dropHead q 0).release p ch ((s.channel ch).released + 1) (tokPay m) ns)) ∧
  (∀ (port ch ns : Nat) (s : State), port < 16 → ch < 16 → s.tokenOut port ch = true → s.odv Od.BARRIER_TOKEN_DEADLINE < ns →
    (s.island (0x7000 + port)).parked = false → exec (.barrierTokenDeadline port ch ns) s = .next ((((s.setLink port
    .empty).setOd (Od.LP_STATE + 256 * port) 5).faultJob { cause := 0x0105, platform := 0, detail := port }).faultPort port)) ∧
  (∀ (ch ms : Nat) (a : Arrival) (rest : List Arrival) (s : State), ch < 16 → (s.channel ch).arrivals = a :: rest → s.odv
    Od.BARRIER_TIMEOUT < ms → exec (.barrierTimeout ch ms) s = .next (s.faultOwner a.platform a.core
    { cause := 0x0104, core := s.logicalCore a.platform a.core, slot := a.slot }))

/-- For every core, every counter on which no stream of the core waits and all amounts n and m: after a signal of n the
counter reads its old value plus n modulo 2^32, every other counter of every core is unchanged, and signals of n and m in
either order give the same state. (R253, 08_timetable_and_signal_boxes.md) -/
def Obligations.SignalsAddAndCommute : Prop :=
  ∀ (c k n m : Nat) (s : State), s.waiters c k false = [] → s.waiters c k true = [] → (s.signal c k n).ctr c k = (s.ctr c
    k + n) % 2 ^ 32 ∧ (∀ d j, d ≠ c ∨ j ≠ k → (s.signal c k n).ctr d j = s.ctr d j) ∧ (s.signal c k n).signal c k m =
    (s.signal c k m).signal c k n

/-- For every core whose island runs and whose queue of remote signals begins with g: COUNTER_SIGNAL answers the state in
which the queue holds the rest in order and g has been signalled to its counter. With an empty queue, or on a parked
island, nothing changes. A waiting stream held longer than a non-zero SYNC_HANG_FAULT faults with SYNC_HANG (0x0106). A
write of SB_SET that names counter k of 0 to 47 taints the owners of the counter (with a Distil job armed, Platform 0, and
JOB_TAINTED is set; otherwise every context that maps it), replaces the counter by the value, tests the held waits on it
and sets the sticky bit SYNC_MANUAL_SET. A write that names a reserved counter changes nothing. Shown to complete, under
conditions on the state and the operands alone: COUNTER_SIGNAL, SB_SET, SYNC_HANG. (R253, R261, R255, R272, R273, R274) -/
def Obligations.CountersHangsAndManualSets : Prop :=
  (∀ (c : Nat) (g : Signal) (rest : List Signal) (s : State), c < 288 → (s.island c).parked = false → (s.core c).sig = g ::
    rest → exec (.counterSignal c) s = .next ((s.setCore c { s.core c with sig := rest }).signal c g.ctr g.n)) ∧
  (∀ (c : Nat) (s : State), c < 288 → (s.core c).sig = [] ∨ (s.island c).parked = true → exec (.counterSignal c) s = .next s) ∧
  (∀ (c i heldMs : Nat) (s : State), c < 288 → i < 8 → (s.stream c i).state = 2 → s.odv Od.SYNC_HANG_FAULT ≠ 0 → s.odv
    Od.SYNC_HANG_FAULT < heldMs → exec (.syncHang c i heldMs) s = .next (s.faultStream c i 0x0106)) ∧
  (∀ (c : Nat) (v : W64) (s u : State), c < 288 → bitsOf v.toNat 0 6 < 48 → s.job.active = true → u = (s.setPlat 0
    { s.plat 0 with tainted := true }).setOd Od.JOB_TAINTED 1 → exec (.sbSet c v) s = .next (((u.setCtr c (bitsOf v.toNat 0
    6) (bitsOf v.toNat 32 32)).settle c (bitsOf v.toNat 0 6)).sticky 7)) ∧
  (∀ (c : Nat) (v : W64) (s u : State), c < 288 → bitsOf v.toNat 0 6 < 48 → s.job.active = false → (u = (s.ctrOwners c
    (bitsOf v.toNat 0 6)).foldl (fun (s : State) p => s.setPlat p { s.plat p with tainted := true }) s) → exec (.sbSet c v) s
    = .next (((u.setCtr c (bitsOf v.toNat 0 6) (bitsOf v.toNat 32 32)).settle c (bitsOf v.toNat 0 6)).sticky 7)) ∧
  (∀ (c : Nat) (v : W64) (s : State), c < 288 → 48 ≤ bitsOf v.toNat 0 6 → exec (.sbSet c v) s = .next s)

/-- For every stream that waits, on a counter or at a NOTIFY whose record waits, without its HANG bit, whose wait has been
held longer than SYNC_HANG_REPORT: SYNC_HANG_REPORT answers the state in which the stream's HANG bit is set,
SYNC_HANG_REPORTS has been incremented and the error vector of its function has been raised; the stream still waits as
before, and everything else of it is unchanged. Shown to complete, under conditions on the state and the operands alone:
SYNC_HANG_REPORT. (R272) -/
def Obligations.HeldWaitIsReportedAndKeepsWaiting : Prop :=
  ∀ (c i heldMs : Nat) (s : State), c < 288 → i < 8 → (s.stream c i).state = 2 ∨ s.atNotify c i = true → (s.stream c i).hang
    = false → s.odv Od.SYNC_HANG_REPORT < heldMs → ∃ t, exec (.syncHangReport c i heldMs) s = .next t ∧ t = ((s.setStream c i
    { s.stream c i with hang := true }).count Od.SYNC_HANG_REPORTS 1).raiseErr (s.stream c i).platform ∧ t.stream c i =
    { s.stream c i with hang := true } ∧ t.counted Od.SYNC_HANG_REPORTS = s.counted Od.SYNC_HANG_REPORTS + 1

/-- With no Distil job armed LOSS_SPIKE_DETECT changes nothing. With one armed it sets LAST_STEP_LOSS to the loss sum divided
by the rows and clears both. A loss that is not finite, or a step without rows, does nothing more. The first loss becomes
the mean with variance 0 and count 1. A loss above SPIKE_K times the deviation plus the mean, after SPIKE_WARMUP losses,
counts one LOSS_SPIKES, records its step in LAST_SPIKE_STEP, sets the spike detector when SPIKE_ACTION is SKIP (1), and
leaves the statistics alone. Any other loss counts no spike and advances mean, variance and count: with d the loss less the
mean and A SPIKE_ALPHA, the mean becomes fma(A, d, mean), the variance (1 - A) times fma(A d, d, variance), and the count
one more up to 2^32 - 1. Where the statistics change SPIKE_MEAN and SPIKE_SD show them. The rest of the job, memory and
every core are as before. Shown to complete, under conditions on the state and the operands alone: LOSS_SPIKE_DETECT.
(R221, R222, 07_roundhouse_update.md) -/
def Obligations.LossSpikeDetectorFollowsTheLoss : Prop :=
  (∀ (s : State), s.job.active = false → exec .lossSpikeDetect s = .next s) ∧
  (∀ (s : State), s.job.active = true → fisFin (fdiv s.job.lossSum (fofNat s.job.lossRows)) = false ∨ s.job.lossRows = 0 →
    exec .lossSpikeDetect s = .next ({ s with job := { s.job with lossSum := 0, lossRows := 0 } }.setOd Od.LAST_STEP_LOSS
    (fdiv s.job.lossSum (fofNat s.job.lossRows)).toNat)) ∧
  (∀ (s : State), s.job.active = true → fisFin (fdiv s.job.lossSum (fofNat s.job.lossRows)) = true → s.job.lossRows ≠ 0 →
    s.job.spikeN = 0 → ∃ t, exec .lossSpikeDetect s = .next t ∧ t.job =
    { s.job with lossSum := 0, lossRows := 0, spikeMean := (fdiv s.job.lossSum (fofNat s.job.lossRows)), spikeVar := 0, spikeN := 1 }
    ∧ t.odv Od.LAST_STEP_LOSS = (fdiv s.job.lossSum (fofNat s.job.lossRows)).toNat ∧ t.odv Od.SPIKE_MEAN = (fdiv
    s.job.lossSum (fofNat s.job.lossRows)).toNat ∧ t.odv Od.SPIKE_SD = (fsqrt 0).toNat ∧ t.stats = s.stats ∧ t.mem = s.mem ∧
    t.hostMem = s.hostMem ∧ t.cores = s.cores) ∧
  (∀ (s : State), s.job.active = true → fisFin (fdiv s.job.lossSum (fofNat s.job.lossRows)) = true → s.job.lossRows ≠ 0 →
    s.job.spikeN ≠ 0 → s.odv Od.SPIKE_WARMUP ≤ s.job.spikeN → fgt (fdiv s.job.lossSum (fofNat s.job.lossRows)) (ffma
    (BitVec.ofNat 32 (s.odv Od.SPIKE_K)) (fsqrt s.job.spikeVar) s.job.spikeMean) = true → ∃ t, exec .lossSpikeDetect s =
    .next t ∧ t.job = { s.job with lossSum := 0, lossRows := 0, spike := s.job.spike || s.odv Od.SPIKE_ACTION = 1 } ∧ t.odv
    Od.LAST_STEP_LOSS = (fdiv s.job.lossSum (fofNat s.job.lossRows)).toNat ∧ t.counted Od.LOSS_SPIKES = s.counted
    Od.LOSS_SPIKES + 1 ∧ t.odv Od.LAST_SPIKE_STEP = s.odv Od.JOB_STEP ∧ t.mem = s.mem ∧ t.hostMem = s.hostMem ∧ t.cores =
    s.cores) ∧
  (∀ (s : State), s.job.active = true → fisFin (fdiv s.job.lossSum (fofNat s.job.lossRows)) = true → s.job.lossRows ≠ 0 →
    s.job.spikeN ≠ 0 → s.job.spikeN < s.odv Od.SPIKE_WARMUP ∨ fgt (fdiv s.job.lossSum (fofNat s.job.lossRows)) (ffma
    (BitVec.ofNat 32 (s.odv Od.SPIKE_K)) (fsqrt s.job.spikeVar) s.job.spikeMean) = false → ∃ t, exec .lossSpikeDetect s =
    .next t ∧ t.job =
    { s.job with lossSum := 0, lossRows := 0, spikeMean := ffma (BitVec.ofNat 32 (s.odv Od.SPIKE_ALPHA)) (fsub (fdiv s.job.lossSum (fofNat s.job.lossRows)) s.job.spikeMean) s.job.spikeMean, spikeVar := fmul (ffma (fmul (BitVec.ofNat 32 (s.odv Od.SPIKE_ALPHA)) (fsub (fdiv s.job.lossSum (fofNat s.job.lossRows)) s.job.spikeMean)) (fsub (fdiv s.job.lossSum (fofNat s.job.lossRows)) s.job.spikeMean) s.job.spikeVar) (fsub oneW (BitVec.ofNat 32 (s.odv Od.SPIKE_ALPHA))), spikeN := Nat.min (s.job.spikeN + 1) (2 ^ 32 - 1) }
    ∧ t.odv Od.LAST_STEP_LOSS = (fdiv s.job.lossSum (fofNat s.job.lossRows)).toNat ∧ t.odv Od.SPIKE_MEAN = (ffma
    (BitVec.ofNat 32 (s.odv Od.SPIKE_ALPHA)) (fsub (fdiv s.job.lossSum (fofNat s.job.lossRows)) s.job.spikeMean)
    s.job.spikeMean).toNat ∧ t.odv Od.SPIKE_SD = (fsqrt (fmul (ffma (fmul (BitVec.ofNat 32 (s.odv Od.SPIKE_ALPHA)) (fsub
    (fdiv s.job.lossSum (fofNat s.job.lossRows)) s.job.spikeMean)) (fsub (fdiv s.job.lossSum (fofNat s.job.lossRows))
    s.job.spikeMean) s.job.spikeVar) (fsub oneW (BitVec.ofNat 32 (s.odv Od.SPIKE_ALPHA))))).toNat ∧ t.stats = s.stats ∧ t.mem
    = s.mem ∧ t.hostMem = s.hostMem ∧ t.cores = s.cores)

/-- While the islands of the Roundhouses and memory controllers run, NORM_PASS of a staged bucket of an active exchange whose
words read without error adds the bucket to those normed and changes no memory, and with the last bucket N2 is the sum of
the chain's package partials in order; a bucket already normed, or not staged, adds nothing; then the barriers that wait
are gathered. While they do not run nothing changes. A detected error in a group that the update writes, at the Roundhouse
whose element it is, counts one UPD_REPLAYS the first time; a second one in that group faults the job with UPD_REPLAY_FAIL
(0x0405) at its edge die; anywhere else nothing changes. UPD_DIGEST 1 with a loaded Timetable, no step running and no
erroneous word among what it reads writes the digest of every updated tensor for JOB_STEP. While the Roundhouse islands run
and an applied update is in progress: one that met a non-finite value faults the job with UPD_NONFINITE (0x0404); one whose
vote requested a snapshot of W takes it, and then ends where the job is still armed; one with neither a snapshot nor a copy
pass due ends, so that the exchange is idle again and student layers are released; one with a copy pass due waits (update
2), and COPY_PASS then takes the snapshot into the next slot, counts one CKPT_COPY_PASSES and ends the update. Shown to
complete, under conditions on the state and the operands alone: ROUNDHOUSE_NORM_PASS, UPDATE_COMPLETE, COPY_PASS,
ROUNDHOUSE_DETECTED_ERROR, UPD_DIGEST. (R212, R218, R220, R223, R237, R238, R240, R241, R239, R545, R546, R547) -/
def Obligations.RoundhouseUpdatesAndSnapshots : Prop :=
  (∀ (b : Nat) (before after : List W64) (img : Image) (s u : State), b < 65536 → s.roundhousesRun = true → s.jobImage = some
    img → s.red.active = true → b ∈ s.red.staged → b ∉ s.red.normed → s.Clean → u = s.normBucket b before after → exec
    (.roundhouseNormPass b before after) s = .next u.regather ∧ u.red.normed = b :: s.red.normed ∧ u.mem = s.mem ∧
    u.red.staged = s.red.staged ∧ (rdBuckets s.redDesc ≤ u.red.normed.length → u.job.n2 = u.sumSquares img before after)) ∧
  (∀ (b : Nat) (before after : List W64) (img : Image) (s : State), b < 65536 → s.roundhousesRun = true → s.jobImage = some
    img → b ∈ s.red.normed ∨ b ∉ s.red.staged → exec (.roundhouseNormPass b before after) s = .next s.regather) ∧
  (∀ (b : Nat) (before after : List W64) (s : State), b < 65536 → s.roundhousesRun = false → exec (.roundhouseNormPass b
    before after) s = .next s) ∧
  (∀ (edge group : Nat) (img : Image) (s : State), edge < 8 → s.jobImage = some img → s.job.update = 1 → roundhouseOf (64 *
    group) = edge → s.updateGroup img group = true → group ∉ s.job.redone → exec (.roundhouseDetectedError edge group) s =
    .next ({ s with job := { s.job with redone := group :: s.job.redone } }.count Od.UPD_REPLAYS 1)) ∧
  (∀ (edge group : Nat) (img : Image) (s : State), edge < 8 → s.jobImage = some img → s.job.update = 1 → roundhouseOf (64 *
    group) = edge → s.updateGroup img group = true → group ∈ s.job.redone → exec (.roundhouseDetectedError edge group) s =
    .next (s.faultJob { cause := 0x0405, island := 0x8000 + edge, platform := 0, detail := group % 2 ^ 16 })) ∧
  (∀ (edge group : Nat) (img : Image) (s : State), edge < 8 → s.jobImage = some img → s.job.update ≠ 1 ∨ roundhouseOf (64 *
    group) ≠ edge ∨ s.updateGroup img group = false → exec (.roundhouseDetectedError edge group) s = .next s) ∧
  (∀ (img : Image) (s : State), s.loaded = some img → s.stepRunning = false → s.digestErrors img = [] → exec (.updDigest 1) s
    = .next (s.digestPass img (s.odv Od.JOB_STEP))) ∧
  (∀ (us : Nat) (s : State), us < 2 ^ 32 → s.job.update = 1 → s.roundhousesRun = true → s.job.updNonfinite = true → exec
    (.updateComplete us) s = .next (s.faultJob { cause := 0x0404, platform := 0 })) ∧
  (∀ (us w : Nat) (img : Image) (s : State), us < 2 ^ 32 → s.job.update = 1 → s.roundhousesRun = true → s.job.updNonfinite =
    false → s.jobImage = some img → s.ckpt.snapshot = some w → (s.takeSnapshot img w us).job.active = true → exec
    (.updateComplete us) s = .next (s.takeSnapshot img w us).endUpdate) ∧
  (∀ (us : Nat) (img : Image) (s : State), us < 2 ^ 32 → s.job.update = 1 → s.roundhousesRun = true → s.job.updNonfinite =
    false → s.jobImage = some img → s.ckpt.snapshot = none → s.ckpt.copy = none → ∃ t, exec (.updateComplete us) s = .next t
    ∧ t = s.endUpdate ∧ t.red = Exchange.empty ∧ t.job.update = 0 ∧ t.job.studentHeld = false ∧ t.job.lastUpdate = some
    s.red.step ∧ t.mem = s.mem) ∧
  (∀ (us w : Nat) (img : Image) (s : State), us < 2 ^ 32 → s.job.update = 1 → s.roundhousesRun = true → s.job.updNonfinite =
    false → s.jobImage = some img → s.ckpt.snapshot = none → s.ckpt.copy = some w → exec (.updateComplete us) s = .next
    { s with job := { s.job with update := 2 } }) ∧
  (∀ (us w : Nat) (img : Image) (s : State), us < 2 ^ 32 → s.jobImage = some img → s.ckpt.copy = some w → s.job.update = 2 →
    s.roundhousesRun = true → ((s.clearManifest (if s.ckpt.next then 1 else 0)).takeSnapshot img w us).job.active = true →
    exec (.copyPass us) s = .next (((s.clearManifest (if s.ckpt.next then 1 else 0)).takeSnapshot img w us).count
    Od.CKPT_COPY_PASSES 1).endUpdate)

/-- With a job armed and no request or copy pass outstanding, a request for a step W that ends a window whose update no vote
has decided is held, and one for a step that ends no window changes nothing; CKPT_DRAINED of the undrained W, once it is
coded, confirms the drain, and any other W changes nothing; CKPT_SERVE_NOW 1 asks for a serving snapshot at the next
boundary; when the coder finishes and has met no erroneous word, the coded image and its manifest stand in the drain area
(finishCoding), no coding is in progress and CKPT_MANIFEST_ADDR names the drain area; where it met one, no image is coded
or waits to be drained, and the error faults the job. In Distil mode with nothing armed and an image loaded: where a valid
slot names W and its header, its auxiliary state and every tensor check, CKPT_RESTORE answers the state in which masters
and moments stand at their homes, the auxiliary state is loaded, the working copies are regenerated and digested with W as
the step, the digest log is cleared, and no request, snapshot or coding is outstanding; where no slot passes, it sets the
sticky bit RESTORE_MISMATCH and captures RESTORE_MISMATCH (0x0605), and no memory changes; with anything armed or no image
loaded nothing changes. In Serve mode it answers the state of restoreServe: the serving state of the snapshot of round W,
or the same mismatch. Shown to complete, under conditions on the state and the operands alone: CKPT_CODING_COMPLETE,
CKPT_REQUEST, CKPT_DRAINED, CKPT_RESTORE, CKPT_SERVE_NOW. (R543, R545, R548, R550, R552, R561, R125, R240, R558) -/
def Obligations.CheckpointsAreRequestedAndRestored : Prop :=
  (∀ (w : Nat) (s : State), w < 2 ^ 64 → s.job.active = true → endsWindow s.redDesc w = true → s.job.steps = 0 ∨ w <
    s.job.steps → s.job.lastUpdate = none → s.ckpt.request = none → s.ckpt.copy = none → s.job.update = 0 →
    ((s.job.decided.any fun n => w ≤ n) = false) → exec (.ckptRequest w) s = .next
    { s with ckpt := { s.ckpt with request := some w } }) ∧
  (∀ (w : Nat) (s : State), w < 2 ^ 64 → s.job.active = false ∨ endsWindow s.redDesc w = false → exec (.ckptRequest w) s =
    .next s) ∧
  (∀ (w : Nat) (s : State), w < 2 ^ 64 → s.ckpt.undrained = some w → s.ckpt.coding = none → exec (.ckptDrained w) s = .next
    { s with ckpt := { s.ckpt with undrained := none } }) ∧
  (∀ (w : Nat) (s : State), w < 2 ^ 64 → s.ckpt.undrained ≠ some w → exec (.ckptDrained w) s = .next s) ∧
  (∀ (s : State), exec (.ckptServeNow 1) s = .next { s with ckpt := { s.ckpt with serveNow := true } }) ∧
  (∀ (w : Nat) (img : Image) (s : State), s.ckpt.coding = some w → s.ckptImage = some img → s.codeErrors = [] → ∃ t, exec
    .ckptCodingComplete s = .next t ∧ t = s.finishCoding w img ∧ t.ckpt.coding = none ∧ t.odv Od.CKPT_MANIFEST_ADDR =
    t.ckptBase 2) ∧
  (∀ (w e : Nat) (es : List Nat) (img : Image) (s : State), s.ckpt.coding = some w → s.ckptImage = some img → s.codeErrors =
    e :: es → exec .ckptCodingComplete s = .next
    ({ s with ckpt := { s.ckpt with coding := none, undrained := none } }.faultRead e)) ∧
  (∀ (w k : Nat) (img : Image) (s u : State), w < 2 ^ 64 → s.serveMode = false → s.anyArmed = false → s.loaded = some img → u
    = { s with ckpt := { s.ckpt with area := reserveArea img.stateBytes } } → u.restoreSlot w = some k → u.restoreChecks img
    k = true → ∃ t, t = ((((u.copyHome img k).loadAux img k w).regenerate img w).digestPass img w).setOd Od.RED_DIGEST_LOG 0
    ∧ exec (.ckptRestore w) s = .next
    { t with ckpt := { t.ckpt with hasBase := false, request := none, copy := none, snapshot := none, coding := none, undrained := none } }) ∧
  (∀ (w : Nat) (img : Image) (s u : State), w < 2 ^ 64 → s.serveMode = false → s.anyArmed = false → s.loaded = some img → u =
    { s with ckpt := { s.ckpt with area := reserveArea img.stateBytes } } → (u.restoreSlot w).filter (u.restoreChecks img) =
    none → ∃ t, exec (.ckptRestore w) s = .next t ∧ t = (u.sticky 21).capture { cause := 0x0605 } ∧ t.mem = s.mem) ∧
  (∀ (w : Nat) (s : State), w < 2 ^ 64 → s.serveMode = false → s.anyArmed = true ∨ s.loaded = none → exec (.ckptRestore w) s
    = .next s) ∧
  (∀ (w k : Nat) (s u : State), w < 2 ^ 64 → s.serveMode = true → u =
    { s with ckpt := { s.ckpt with area := s.odv Od.DDR5_RESERVE_SIZE / 4 } } → u.serveSlot w = some k → bitsOf (u.mfAt
    (u.slotManifest k)) 4032 64 = crc64 (u.load (u.slotManifest k) 504) → bitsOf (u.mfAt (u.slotManifest k)) 600 64 = crc64
    (u.load (u.slotAux k) (mfAuxBytes (u.mfAt (u.slotManifest k)))) → bitsOf (u.mfAt (u.slotManifest k)) 8 8 = u.odv
    Od.STEPPING → u.slotErrors k = [] → exec (.ckptRestore w) s = .next (u.loadServing k)) ∧
  (∀ (w : Nat) (s u : State), w < 2 ^ 64 → s.serveMode = true → u =
    { s with ckpt := { s.ckpt with area := s.odv Od.DDR5_RESERVE_SIZE / 4 } } → u.serveSlot w = none → ∃ t, exec
    (.ckptRestore w) s = .next t ∧ t = (u.sticky 21).capture { cause := 0x0605 } ∧ t.mem = s.mem)

/-- For a bucket that may fill now (the next of its window, whose step ends the window) whose gradient blocks read without
error: BUCKET_FILLED answers the state of fillBucket: every block of the bucket converted to B16 into the gradient image,
the gaps of its stripes zero, the bucket marked filled, and its stripes set going round the ring. A bucket that may not
fill changes nothing. With RED_RING_SIZE 1, for every bucket below RD_BUCKETS of an exchange in progress that is not yet
filled: after fillBucket over its stripes the ports, their outboxes and the message identifiers are unchanged, nothing
waits for an acknowledgement that did not before, and the bucket is filled and staged. Shown to complete, under conditions
on the state and the operands alone: BUCKET_FILLED. (R370, R371, R372, R379) -/
def Obligations.BucketsAreFilledAndExchanged : Prop :=
  (∀ (b : Nat) (img : Image) (s : State), b < 65536 → s.mayFill b = true → s.jobImage = some img → s.Clean → exec
    (.bucketFilled b) s = .next (s.fillBucket b (rdImage s.redDesc + b * rdPerBucket s.redDesc * stripeBytes) (bucketStripes
    s.redDesc b) ((s.gradBlocks img).filter fun q => rdImage s.redDesc + b * rdPerBucket s.redDesc * stripeBytes ≤ q.2.2.2.2
    && q.2.2.2.2 < rdImage s.redDesc + b * rdPerBucket s.redDesc * stripeBytes + (bucketStripes s.redDesc b).length *
    stripeBytes))) ∧
  (∀ (b : Nat) (s : State), b < 65536 → s.mayFill b = false → exec (.bucketFilled b) s = .next s) ∧
  (∀ (b lo : Nat) (blks : List (Nat × Nat × Nat × Nat × Nat)) (s : State), s.ringSize = 1 → s.red.active = true → b <
    rdBuckets s.redDesc → (s.fillBucket b lo (bucketStripes s.redDesc b) blks).links = s.links ∧ (s.fillBucket b lo
    (bucketStripes s.redDesc b) blks).msgIds = s.msgIds ∧ (s.fillBucket b lo (bucketStripes s.redDesc b) blks).red.unacked =
    s.red.unacked ∧ b ∈ (s.fillBucket b lo (bucketStripes s.redDesc b) blks).red.filled ∧ b ∈ (s.fillBucket b lo
    (bucketStripes s.redDesc b) blks).red.staged)

/-- For every memory in canonical form and every ACCUM payload of an even number of bytes: after applyAccum, each element i
of the destination holds the incoming B16 value x with ACC_COPY, and with ACC_ADD the B16 that addElem gives for x and the
local value y as it was before; every byte outside the destination is unchanged. For an ACCUM message of good form at the
front of VC1, of the current epoch, whose bytes here lie in a tier and in neither the image memory nor the checkpoint
reserve, while no optimizer update runs here: a stripe of the exchange that is admitted, or already held, and whose bucket
is filled here, with a right end-to-end CRC and no erroneous operand, is taken by the adders (takeStripe: summed or copied,
counted, acknowledged and sent on); one whose bucket is not filled stays at the front of its VC, admitted; one that is not
admitted writes nothing, counts one RED_DISCARDED and is acknowledged; with a job armed, one outside the gradient image is
summed and acknowledged. Where every stripe of the image has its final value, every bucket is filled and every message sent
has been acknowledged, EXCHANGE_COMPLETE writes the digest record into the entry of RED_DIGEST_LOG of its exchange (the
exchange number modulo 64), increments RED_EXCHANGES, marks the exchange complete, gathers the barriers whose vote waited
for it, and changes no memory; no stripe in device memory shows an uncorrected error there. Otherwise, so also a second
time, nothing changes. Shown to complete, under conditions on the state and the operands alone: ACCUM, EXCHANGE_COMPLETE.
(R356, R357, R355, R375, R376, R377, R378, R391, R392) -/
def Obligations.GradientsAreSummedAndExchanged : Prop :=
  (∀ (m : Message) (s : State), Memory.wf s.mem = true → m.data.length % 2 = 0 → (∀ i, i < m.data.length / 2 → memNat
    (s.applyAccum m).mem (m.dstAddr + 2 * i) 2 = (addElem (bitsOf m.header 288 8 = 1) (leNat ((m.data.drop (2 * i)).take 2))
    (if bitsOf m.header 288 8 = 1 then memNat s.mem (m.localAddr + 2 * i) 2 else 0)).1.bits % 65536) ∧ s.SameOutside
    (s.applyAccum m) m.dstAddr m.data.length ∧ (s.applyAccum m).hostMem = s.hostMem) ∧
  (∀ (p j : Nat) (m : Message) (s : State), s.Delivers p 1 m → accumFormOk m = true → s.inTier m.dstAddr m.data.length = true
    → s.inTier m.localAddr m.data.length = true → s.inImage m.dstAddr m.data.length = false → s.inReserve m.dstAddr
    m.data.length = false → s.stripeOf m = some j → s.job.update = 0 → p ∈ s.red.holding ∨ s.admits m j = true → stripeBucket
    s.redDesc j ∈ s.red.filled → crc64 m.data = m.crc → s.Clean → exec (.accum p) s = .next (((s.decideStripe p m j).unhold
    p).takeStripe m j)) ∧
  (∀ (p j : Nat) (m : Message) (s : State), s.Delivers p 1 m → accumFormOk m = true → s.inTier m.dstAddr m.data.length = true
    → s.inTier m.localAddr m.data.length = true → s.inImage m.dstAddr m.data.length = false → s.inReserve m.dstAddr
    m.data.length = false → s.stripeOf m = some j → s.job.update = 0 → p ∉ s.red.holding → s.admits m j = true → stripeBucket
    s.redDesc j ∉ s.red.filled → ∃ t, exec (.accum p) s = .next t ∧ t = s.decideStripe p m j ∧ t.mem = s.mem ∧ t.inHead p 1 =
    some m ∧ p ∈ t.red.holding) ∧
  (∀ (p j : Nat) (m : Message) (s : State), s.Delivers p 1 m → accumFormOk m = true → s.inTier m.dstAddr m.data.length = true
    → s.inTier m.localAddr m.data.length = true → s.inImage m.dstAddr m.data.length = false → s.inReserve m.dstAddr
    m.data.length = false → s.stripeOf m = some j → s.job.update = 0 → p ∉ s.red.holding → s.admits m j = false → ∃ t, exec
    (.accum p) s = .next t ∧ t = ((s.dropHead p 1).count Od.RED_DISCARDED 1).ackMessage m ∧ t.mem = s.mem ∧ t.counted
    Od.RED_DISCARDED = s.counted Od.RED_DISCARDED + 1) ∧
  (∀ (p : Nat) (m : Message) (s : State), s.Delivers p 1 m → accumFormOk m = true → s.inTier m.dstAddr m.data.length = true →
    s.inTier m.localAddr m.data.length = true → s.inImage m.dstAddr m.data.length = false → s.inReserve m.dstAddr
    m.data.length = false → s.stripeOf m = none → s.job.active = true → crc64 m.data = m.crc → s.Clean → exec (.accum p) s =
    .next (((s.dropHead p 1).applyAccum m).ackMessage m)) ∧
  (∀ (s : State), s.exchangeDone = true → s.Clean → ∃ t, exec .exchangeComplete s = .next t ∧ t =
    ({ (s.setOd Od.RED_DIGEST_LOG (setBits (s.odv Od.RED_DIGEST_LOG) (512 * (s.red.step / rdInterval s.redDesc % 64)) 512 s.digestRecord)).setOd Od.RED_EXCHANGES (s.odv Od.RED_EXCHANGES + 1) with red := { s.red with complete := true } }
    : State).regather ∧ t.exchangeDone = false ∧ t.mem = s.mem) ∧
  (∀ (s : State), s.exchangeDone = false → exec .exchangeComplete s = .next s)

/-- While the deadline of a bucket runs, it is below 65,536 and it has not yet expired there: when RED_SHADOW_DEADLINE has
passed, a predecessor without a shadow costs one RED_DEADLINE_MISSES and nothing else but the mark that the package waited;
one with a shadow is substituted for the rest of the exchange, RING_SUBST naming the position, the exchange and the bucket
goes to the shadow, and RED_SUBSTITUTIONS increments. When RED_HARD_TIMEOUT has passed, the job faults with RED_TIMEOUT
(0x0506) at that position and bucket. For a RING_SUBST of the current epoch that names the position this package shadows
and the exchange in progress: RING_SUBST takes it, remembers the first bucket b, and sends what every stripe of buckets b
onwards allows (pump). Shown to complete, under conditions on the state and the operands alone: RED_SHADOW_DEADLINE,
RED_HARD_TIMEOUT, RING_SUBST. (R385, R386, R389, R387) -/
def Obligations.LatePredecessorsAndShadows : Prop :=
  (∀ (b us : Nat) (s : State), b < 65536 → s.deadlineRuns b = true → s.odv Od.RED_SHADOW_DEADLINE ≤ us → b ∉ s.red.missed →
    s.shadowPkg s.predPos = 0xFFFF → exec (.redShadowDeadline b us) s = .next
    ({ s with red := { s.red with missed := b :: s.red.missed, waited := true } }.count Od.RED_DEADLINE_MISSES 1)) ∧
  (∀ (b us : Nat) (s : State), b < 65536 → s.deadlineRuns b = true → s.odv Od.RED_SHADOW_DEADLINE ≤ us → b ∉ s.red.missed →
    s.shadowPkg s.predPos ≠ 0xFFFF → s.red.substituted = false → ∃ u, u =
    { s with red := { s.red with missed := b :: s.red.missed } }.sendTo 6 (s.shadowPkg s.predPos) [(512, 8, 2), (528, 16,
    s.predPos), (544, 64, s.red.step), (608, 16, b)] [] 0 ∧ exec (.redShadowDeadline b us) s = .next
    ({ u with red := { u.red with substituted := true } }.count Od.RED_SUBSTITUTIONS 1)) ∧
  (∀ (b ms : Nat) (s : State), b < 65536 → s.deadlineRuns b = true → s.odv Od.RED_HARD_TIMEOUT ≤ ms → exec (.redHardTimeout b
    ms) s = .next (s.faultJob { cause := 0x0506, platform := 0, detail := s.predPos + b * 2 ^ 16 })) ∧
  (∀ (p : Nat) (m : Message) (s : State), s.Delivers p 0 m → m.kind = 6 → m.lcOp = 2 → s.isShadow = true → s.odv
    Od.RED_SHADOW_OF = bitsOf m.header 528 16 → s.red.active = true → s.red.step = bitsOf m.header 544 64 → exec (.ringSubst
    p) s = .next
    (let u := { s.dropHead p 0 with red := { s.red with substFrom := some (bitsOf m.header 608 16) } }; u.pump ((List.range (rdStripes u.redDesc)).filter fun j => bitsOf m.header 608 16 ≤ stripeBucket u.redDesc j)))

/-- For every RING_SUBST of the current epoch at the front of VC0 of a port of its destination that names a position this
package does not shadow, or an exchange that is not in progress here: RING_SUBST takes the message, increments
RED_STRAY_SUBST, and changes nothing else; the job is as before. (R388) -/
def Obligations.StraySubstitutionIsDiscarded : Prop :=
  ∀ (p : Nat) (m : Message) (s : State), s.Delivers p 0 m → m.kind = 6 → m.lcOp = 2 → s.isShadow = false ∨ s.odv
    Od.RED_SHADOW_OF ≠ bitsOf m.header 528 16 ∨ s.red.active = false ∨ s.red.step ≠ bitsOf m.header 544 64 → ∃ t, exec
    (.ringSubst p) s = .next t ∧ t = (s.dropHead p 0).count Od.RED_STRAY_SUBST 1 ∧ t.counted Od.RED_STRAY_SUBST = s.counted
    Od.RED_STRAY_SUBST + 1 ∧ t.job = s.job ∧ t.plats = s.plats ∧ t.red = s.red

/-- For every row that takes a message and every message that is its own at the front of its port's VC, with an
H_POINTS_EPOCH other than POINTS_EPOCH: the row discards the message and counts one LINK_STALE_DROPS, and nothing else
changes, so that no job faults. The same holds of a barrier release on its way to BAR_RELEASE. (R364) -/
def Obligations.StaleMessagesAreDropped : Prop :=
  (∀ (i : Instr) (p v : Nat) (mine : State → Message → Bool) (m : Message) (s : State), takerOf i = some (p, v, mine) → p <
    16 → v < 4 → s.inHead p v = some m → mine s m = true → m.epoch ≠ s.odv Od.POINTS_EPOCH → exec i s = .next ((s.dropHead p
    v).count Od.LINK_STALE_DROPS 1)) ∧
  (∀ (ch q ns : Nat) (m : Message) (s : State), ch < 16 → (s.channel ch).due = [] → s.releasePort ch = some (q, m) → m.epoch
    ≠ s.odv Od.POINTS_EPOCH → exec (.barRelease ch ns) s = .next ((s.dropHead q 0).count Od.LINK_STALE_DROPS 1))

/-- A piece of a buddy copy that fits the area and whose CRC is right is stored and marks the buddy slot invalid; an
acknowledgement from the buddy sets BUDDY_STATE to held. A write of BUDDY_PKG while no job is armed, naming another package
below 1,024: with either feed unknown the buddy is bound, BUDDY_COLOCATED is 1 and its sticky bit is set; with two
different known feeds, or with one feed that BUDDY_OVERRIDE waives for that package, it is bound and BUDDY_COLOCATED is 0;
with the one feed and no waiver, of the package itself, of a number from 1,024 on other than 65,535, or while a job is
armed, nothing changes; 65,535 unbinds the buddy. BUDDY_SEND of a valid copy to a package below 1,024 sends the copy
(sendSlot, in the form of R556), which faults what is running instead where a word of the copy shows an uncorrected error;
of an invalid copy, or to another number, it changes nothing. Shown to complete, under conditions on the state and the
operands alone: MGMT, BUDDY_PKG, BUDDY_SEND. (R555, R556, R557, R567) -/
def Obligations.BuddyCopiesArriveAndAreSent : Prop :=
  (∀ (p : Nat) (m : Message) (s : State), s.Delivers p 3 m → m.kind = 7 → m.lcOp = 1 → s.ckpt.area ≠ 0 → bitsOf m.header 576
    64 + m.data.length ≤ s.ckpt.area → s.inTier (s.ckptBase 3 + bitsOf m.header 576 64) m.data.length = true → crc64 m.data =
    m.crc → ∃ t, exec (.mgmt p) s = .next t ∧ t = { s.dropHead p 3 with ckpt := { s.ckpt with buddy := .empty } }.put
    (s.ckptBase 3 + bitsOf m.header 576 64) m.data ∧ t.ckpt.buddy.valid = false) ∧
  (∀ (p : Nat) (m : Message) (s : State), s.Delivers p 3 m → m.kind = 7 → m.lcOp = 3 → m.src = s.odv Od.BUDDY_PKG → exec
    (.mgmt p) s = .next ((s.dropHead p 3).setOd Od.BUDDY_STATE 2)) ∧
  (∀ (v feed : Nat) (s : State), v < 1024 → feed < 2 ^ 64 → s.job.active = false → v ≠ s.pkg → s.odv Od.FEED_ID = 0 ∨ feed =
    0 → exec (.buddyPkg v feed) s = .next ((((s.setOd Od.BUDDY_PKG v).setOd Od.BUDDY_STATE 0).setOd Od.BUDDY_COLOCATED
    1).sticky 20)) ∧
  (∀ (v feed : Nat) (s : State), v < 1024 → feed < 2 ^ 64 → s.job.active = false → v ≠ s.pkg → s.odv Od.FEED_ID ≠ 0 → feed ≠
    0 → s.odv Od.FEED_ID ≠ feed → exec (.buddyPkg v feed) s = .next (((s.setOd Od.BUDDY_PKG v).setOd Od.BUDDY_STATE 0).setOd
    Od.BUDDY_COLOCATED 0)) ∧
  (∀ (v feed : Nat) (s : State), v < 1024 → feed < 2 ^ 64 → s.job.active = false → v ≠ s.pkg → s.odv Od.FEED_ID ≠ 0 → s.odv
    Od.FEED_ID = feed → (∃ j, j < 8 ∧ bitsOf (s.odv Od.BUDDY_OVERRIDE) (16 * j) 16 = v) → exec (.buddyPkg v feed) s = .next
    (((s.setOd Od.BUDDY_PKG v).setOd Od.BUDDY_STATE 0).setOd Od.BUDDY_COLOCATED 0)) ∧
  (∀ (v feed : Nat) (s : State), v < 65536 → feed < 2 ^ 64 → v ≠ 65535 → (s.job.active = true ∨ 1024 ≤ v ∨ v = s.pkg ∨ (s.odv
    Od.FEED_ID ≠ 0 ∧ s.odv Od.FEED_ID = feed ∧ ∀ j, j < 8 → bitsOf (s.odv Od.BUDDY_OVERRIDE) (16 * j) 16 ≠ v)) → exec
    (.buddyPkg v feed) s = .next s) ∧
  (∀ (feed : Nat) (s : State), feed < 2 ^ 64 → s.job.active = false → exec (.buddyPkg 65535 feed) s = .next ((s.setOd
    Od.BUDDY_PKG 65535).setOd Od.BUDDY_STATE 0)) ∧
  (∀ (v : Nat) (s : State), v < 1024 → s.ckpt.buddy.valid = true → s.slotErrors 3 ≠ [] → exec (.buddySend v) s = .next
    (s.faultRead (listGet 0 (s.slotErrors 3) 0))) ∧
  (∀ (v : Nat) (s : State), v < 1024 → s.ckpt.buddy.valid = true → exec (.buddySend v) s = .next (s.sendSlot v 3)) ∧
  (∀ (v : Nat) (s : State), v < 65536 → s.ckpt.buddy.valid = false ∨ 1024 ≤ v → exec (.buddySend v) s = .next s)

/-- For a MOVE_WRITE of the current epoch at the front of VC2, no island that it reaches being parked: where its destination
lies within one tier and is not protected, with a right end-to-end CRC and no erroneous ECC word, it is taken, its data
stand at its destination in order, every other byte of device memory and all of host memory is as before, then its remote
signal is delivered and WRITE_ACK goes to its source. A destination that is reserved, beyond its tier or not in region 0x00
to 0x02 faults the owner with LINK_DST_INVALID (0x0508), and a protected one with LINK_DST_PROTECTED (0x0503); neither
writes anything. While an island that it reaches is parked, it waits at the front of its VC and nothing changes. For a
WRITE_ACK of the current epoch at the front of VC0: one that acknowledges a stripe message of the exchange removes it from
those unacknowledged (log entry 40: the exchange is matched first); one that acknowledges the last message of a MOVE
removes the MOVE, completes it: its counter signal is posted, its place in the queue is free, and the job ends if nothing
is left (finish); one of several only shortens what the MOVE waits for; one that acknowledges nothing is taken and changes
nothing else. Shown to complete, under conditions on the state and the operands alone: MOVE_WRITE, WRITE_ACK. (R46, R350,
R352, R353, R644, 08_timetable_and_signal_boxes.md, R378, 10_linam_link.md) -/
def Obligations.RemoteMovesWriteSignalAndAreAcknowledged : Prop :=
  (∀ (p : Nat) (m : Message) (s : State), Memory.wf s.mem = true → s.Delivers p 2 m → m.kind = 1 → s.writeOpen m = true →
    regionOf m.dstAddr ≤ 2 → s.inTier m.dstAddr m.data.length = true → skewOf m.dstAddr = 0 → s.linkProtected m.dstAddr
    m.data.length = false → crc64 m.data = m.crc → s.Clean → ∃ t, exec (.moveWrite p) s = .next t ∧ t = (((s.dropHead p
    2).put m.dstAddr m.data).messageSignal m).ackMessage m ∧ (∀ k (h : k < m.data.length), t.byteAt (m.dstAddr + k) =
    m.data[k]) ∧ s.SameOutside t m.dstAddr m.data.length ∧ t.hostMem = s.hostMem) ∧
  (∀ (p : Nat) (m : Message) (s : State), s.Delivers p 2 m → m.kind = 1 → s.writeOpen m = true → 2 < regionOf m.dstAddr ∨
    s.inTier m.dstAddr m.data.length = false ∨ skewOf m.dstAddr ≠ 0 → exec (.moveWrite p) s = .next ((s.dropHead p
    2).faultMessage { cause := 0x0508, island := 0x7000 + p, detail := p })) ∧
  (∀ (p : Nat) (m : Message) (s : State), s.Delivers p 2 m → m.kind = 1 → s.writeOpen m = true → regionOf m.dstAddr ≤ 2 →
    s.inTier m.dstAddr m.data.length = true → skewOf m.dstAddr = 0 → s.linkProtected m.dstAddr m.data.length = true → exec
    (.moveWrite p) s = .next ((s.dropHead p 2).faultMessage { cause := 0x0503, island := 0x7000 + p, detail := p })) ∧
  (∀ (p : Nat) (m : Message) (s : State), s.Delivers p 2 m → m.kind = 1 → s.writeOpen m = false → exec (.moveWrite p) s =
    .next s) ∧
  (∀ (p : Nat) (m : Message) (s : State), s.Delivers p 0 m → m.kind = 3 → (m.src, m.ackMsg) ∈ s.red.unacked → exec (.writeAck
    p) s = .next { s.dropHead p 0 with red := { s.red with unacked := s.red.unacked.erase (m.src, m.ackMsg) } }) ∧
  (∀ (p : Nat) (m : Message) (o : MoveOp) (s : State), s.Delivers p 0 m → m.kind = 3 → (m.src, m.ackMsg) ∉ s.red.unacked →
    (s.moves.find? (fun o => o.waiting.contains (m.src, m.ackMsg)) = some o) → o.waiting.erase (m.src, m.ackMsg) = [] → exec
    (.writeAck p) s = .next ({ s.dropHead p 0 with moves := s.moves.erase o }.finish o.it)) ∧
  (∀ (p : Nat) (m : Message) (o : MoveOp) (s : State), s.Delivers p 0 m → m.kind = 3 → (m.src, m.ackMsg) ∉ s.red.unacked →
    (s.moves.find? (fun o => o.waiting.contains (m.src, m.ackMsg)) = some o) → o.waiting.erase (m.src, m.ackMsg) ≠ [] → exec
    (.writeAck p) s = .next
    { s.dropHead p 0 with moves := s.moves.map fun q => if q = o then { o with waiting := o.waiting.erase (m.src, m.ackMsg) } else q }) ∧
  (∀ (p : Nat) (m : Message) (s : State), s.Delivers p 0 m → m.kind = 3 → (m.src, m.ackMsg) ∉ s.red.unacked → (s.moves.find?
    (fun o => o.waiting.contains (m.src, m.ackMsg)) = none) → exec (.writeAck p) s = .next (s.dropHead p 0))

/-- For a message of the current epoch for another package at the front of VC v of a port: with a valid route and H_TTL above
1, and unless it came from a parent port and its route is an up route, it is queued on VC v of the port that R360 chooses
among the ACTIVE ports of its route, with H_TTL one lower, and no memory changes; without an ACTIVE port it waits; else it
is discarded and its owner faults with LINK_ROUTE (0x0505). A message of another epoch for another package is discarded and
counts one LINK_STALE_DROPS; one for this package is left to its own row. For a JOB_FAULT message of the current epoch at
the front of VC0 of its destination: the job faults here with JOB_PEER_FAULT (0x0507) unless no job is armed; a message
from a parent port, or at the Terminus, is then sent to every child over the lowest-numbered ACTIVE port toward it, and one
from a child is sent to the parent; the body is passed on unchanged. Shown to complete, under conditions on the state and
the operands alone: LINK_MESSAGE_FORWARD, JOB_FAULT. (R360, R361, R363, R365, R536, R538) -/
def Obligations.MessagesAreForwardedAndJobFaultsSpread : Prop :=
  (∀ (p v q : Nat) (m : Message) (s : State), p < 16 → v < 4 → s.inHead p v = some m → m.dst ≠ s.pkg → m.epoch = s.odv
    Od.POINTS_EPOCH → bitOf (s.pointsEntry m.dst) 21 = true → 1 < m.ttl → bitOf (s.odv Od.TREE_PARENT_MASK) p = false ∨ bitOf
    (s.pointsEntry m.dst) 20 = false → s.choosePort (bitsOf (s.pointsEntry m.dst) 0 16) m.msgId = some q → ∃ t, exec
    (.linkMessageForward p v) s = .next t ∧ t = (s.dropHead p v).sendOn q v
    { m with header := setBits m.header 44 4 (m.ttl - 1) } ∧ t.mem = s.mem) ∧
  (∀ (p v : Nat) (m : Message) (s : State), p < 16 → v < 4 → s.inHead p v = some m → m.dst ≠ s.pkg → m.epoch = s.odv
    Od.POINTS_EPOCH → bitOf (s.pointsEntry m.dst) 21 = false ∨ m.ttl ≤ 1 ∨ (bitOf (s.odv Od.TREE_PARENT_MASK) p = true ∧
    bitOf (s.pointsEntry m.dst) 20 = true) → exec (.linkMessageForward p v) s = .next ((s.dropHead p v).faultMessage
    { cause := 0x0505, island := 0x7000 + p, detail := p })) ∧
  (∀ (p v : Nat) (m : Message) (s : State), p < 16 → v < 4 → s.inHead p v = some m → m.dst ≠ s.pkg → m.epoch = s.odv
    Od.POINTS_EPOCH → bitOf (s.pointsEntry m.dst) 21 = true → 1 < m.ttl → bitOf (s.odv Od.TREE_PARENT_MASK) p = false ∨ bitOf
    (s.pointsEntry m.dst) 20 = false → s.choosePort (bitsOf (s.pointsEntry m.dst) 0 16) m.msgId = none → exec
    (.linkMessageForward p v) s = .next s) ∧
  (∀ (p v : Nat) (m : Message) (s : State), p < 16 → v < 4 → s.inHead p v = some m → m.dst ≠ s.pkg → m.epoch ≠ s.odv
    Od.POINTS_EPOCH → exec (.linkMessageForward p v) s = .next ((s.dropHead p v).count Od.LINK_STALE_DROPS 1)) ∧
  (∀ (p v : Nat) (m : Message) (s : State), p < 16 → v < 4 → s.inHead p v = some m → m.dst = s.pkg → exec
    (.linkMessageForward p v) s = .next s) ∧
  (∀ (p : Nat) (m : Message) (s : State), s.Delivers p 0 m → m.kind = 6 → m.lcOp = 3 → bitOf (((s.dropHead p 0).faultJobAs
    { cause := 0x0507, platform := 0, detail := bitsOf m.header 520 10 } true).odv Od.TREE_PARENT_MASK) p = true ∨
    ((s.dropHead p 0).faultJobAs { cause := 0x0507, platform := 0, detail := bitsOf m.header 520 10 } true).upPort = none →
    exec (.jobFault p) s = .next (((s.dropHead p 0).faultJobAs
    { cause := 0x0507, platform := 0, detail := bitsOf m.header 520 10 } true).downPorts.foldl (fun s q => s.sendHop q 6
    [(512, 8, 3), (520, 10, bitsOf m.header 520 10), (544, 16, bitsOf m.header 544 16)]) ((s.dropHead p 0).faultJobAs
    { cause := 0x0507, platform := 0, detail := bitsOf m.header 520 10 } true))) ∧
  (∀ (p q : Nat) (m : Message) (s : State), s.Delivers p 0 m → m.kind = 6 → m.lcOp = 3 → bitOf (((s.dropHead p 0).faultJobAs
    { cause := 0x0507, platform := 0, detail := bitsOf m.header 520 10 } true).odv Od.TREE_PARENT_MASK) p = false →
    ((s.dropHead p 0).faultJobAs { cause := 0x0507, platform := 0, detail := bitsOf m.header 520 10 } true).upPort = some q →
    exec (.jobFault p) s = .next (((s.dropHead p 0).faultJobAs
    { cause := 0x0507, platform := 0, detail := bitsOf m.header 520 10 } true).sendHop q 6 [(512, 8, 3), (520, 10, bitsOf
    m.header 520 10), (544, 16, bitsOf m.header 544 16)]))

/-- For what the nine lanes bring to an ACTIVE port whose island runs, the 16 frames being those that its lane map and its
measured skews pick out of it. Accepted (no uncorrectable codeword, the CRC right, the sequence the next expected): the
port takes its acknowledgement, credits and flits and sends its next group; where its NAK is set and the acknowledgement
covers nothing held, the port first replays, and sends nothing more where the limit of replays fails it. Otherwise: nothing
of it is taken, NAK is set, and the next group is sent; an uncorrectable codeword is counted in LINK_FEC_UNCORRECTABLE.
Shown to complete, under conditions on the state and the operands alone: LINK_GROUP_RECEIVE. (R331, R340, R343, R345, R347)
-/
def Obligations.GroupsAreAcceptedInSequenceOnly : Prop :=
  (∀ (p : Nat) (lanes : List (List Frame)) (fs : List Frame) (ok : Bool) (s : State), p < 16 → lanes.length = 9 → fs = deskew
    (s.odv (lpKey Od.LP_RX_LANE_MAP p)) (s.link p).skews lanes → s.linkActive p = true → s.portParked p = false → (s.link
    p).accepts fs ok = true → (s.link p).again fs = false → exec (.linkGroupReceive p lanes ok) s = .next (((s.setLink p
    ((s.link p).accept fs)).count Od.LINK_RX_BYTES 4096).sendGroup p)) ∧
  (∀ (p : Nat) (lanes : List (List Frame)) (fs : List Frame) (ok : Bool) (s : State), p < 16 → lanes.length = 9 → fs = deskew
    (s.odv (lpKey Od.LP_RX_LANE_MAP p)) (s.link p).skews lanes → s.linkActive p = true → s.portParked p = false → (s.link
    p).accepts fs ok = true → (s.link p).again fs = true → (((s.setLink p ((s.link p).accept fs)).count Od.LINK_RX_BYTES
    4096).replay p).linkActive p = true → exec (.linkGroupReceive p lanes ok) s = .next ((((s.setLink p ((s.link p).accept
    fs)).count Od.LINK_RX_BYTES 4096).replay p).sendGroup p)) ∧
  (∀ (p : Nat) (lanes : List (List Frame)) (fs : List Frame) (ok : Bool) (s : State), p < 16 → lanes.length = 9 → fs = deskew
    (s.odv (lpKey Od.LP_RX_LANE_MAP p)) (s.link p).skews lanes → s.linkActive p = true → s.portParked p = false → (s.link
    p).accepts fs ok = true → (s.link p).again fs = true → (((s.setLink p ((s.link p).accept fs)).count Od.LINK_RX_BYTES
    4096).replay p).linkActive p = false → exec (.linkGroupReceive p lanes ok) s = .next (((s.setLink p ((s.link p).accept
    fs)).count Od.LINK_RX_BYTES 4096).replay p)) ∧
  (∀ (p : Nat) (lanes : List (List Frame)) (s : State), p < 16 → lanes.length = 9 → s.linkActive p = true → s.portParked p =
    false → exec (.linkGroupReceive p lanes false) s = .next (((s.count Od.LINK_FEC_UNCORRECTABLE 1).setLink p
    { s.link p with nakTx := true }).sendGroup p)) ∧
  (∀ (p : Nat) (lanes : List (List Frame)) (fs : List Frame) (s : State), p < 16 → lanes.length = 9 → fs = deskew (s.odv
    (lpKey Od.LP_RX_LANE_MAP p)) (s.link p).skews lanes → s.linkActive p = true → s.portParked p = false → (s.link p).accepts
    fs true = false → exec (.linkGroupReceive p lanes true) s = .next ((s.setLink p
    { s.link p with nakTx := true }).sendGroup p))

/-- For every 16 frames and every trailer below 2^32: the sealed group has 16 frames; reading the trailer nibbles gives the
trailer and, in bits [63:32], the CRC-32C that a receiver computes over that group; and every frame keeps its flit and the
kind and VC in the high half of its control byte. So a group that arrives unchanged passes the CRC of R340 with every field
the sender gave it. And for every lane map that sends the eight logical lanes to eight of the nine physical ones and every
nine skews: a group spread over its lanes, each delayed by its skew, is gathered again frame by frame. (R331, R339, R340,
10_linam_link.md) -/
def Obligations.SealedGroupsKeepTheirFlitsAndCheck : Prop :=
  (∀ (fs : List Frame) (tr : Nat), fs.length = 16 → tr < 2 ^ 32 → (sealGroup fs tr).length = 16 ∧ bitsOf (trailerOf
    (sealGroup fs tr)) 0 32 = tr ∧ bitsOf (trailerOf (sealGroup fs tr)) 32 32 = groupCrc (sealGroup fs tr) ∧ (sealGroup fs
    tr).map (fun f => (f.ctl.toNat / 16, f.flit)) = fs.map (fun f => (f.ctl.toNat / 16, f.flit))) ∧
  (∀ (map : Nat) (skews : List Nat) (fs : List Frame), fs.length = 16 → skews.length = 9 → (∀ l, l < 8 → bitsOf map (4 * l) 4
    < 9) → (∀ l, l < 8 → ∀ k, k < 8 → bitsOf map (4 * l) 4 = bitsOf map (4 * k) 4 → l = k) → deskew map skews ((skews.zip
    (spread map fs)).map fun q => List.replicate q.1 idleFrame ++ q.2) = fs)

/-- For every message of a kind 1 to 7 whose header names the VC of its kind and its data length, whose header fits one flit,
and which carries data only with a kind that has data flits (its CRC then below 2^64, and 0 without): its flits end a
message, no shorter prefix does, and messageOf gives the message back: every header bit, every data byte and the end-to-end
CRC. (10_linam_link.md) -/
def Obligations.MessagesAreRebuiltFromTheirFlits : Prop :=
  ∀ (m : Message), m.header < 2 ^ 2048 → 1 ≤ m.kind → m.kind ≤ 7 → m.vc = vcOfKind m.kind → m.bytes = m.data.length ∨
    kindHasData m.kind = false → kindHasData m.kind = true ∨ m.data = [] → m.crc < 2 ^ 64 → kindHasData m.kind = true ∨ m.crc
    = 0 → messageOf m.flits = some m ∧ messageEnds m.flits = true ∧ ∀ k, k < m.flits.length → messageEnds (m.flits.take k) =
    false

/-- At an ACTIVE port: LINK_ACK_DEADLINE with a group held, its island running, no substitution in progress in either
direction and the limit of replays not reached, counts one replay and holds every group again as it is resent (resend); at
the limit the port fails. LANE_LOCK_LOSS of a mapped lane while a good spare is free maps the logical lane onto the spare,
records the lane as failed, counts one LINK_LANE_SUBS, sets the sticky bit LINK_LANE_FAILED and sends LANE_SUB to the peer;
with no spare left the port fails. LANE_SER_WINDOW above LANE_SER_LIMIT does the same as a lost lock, and not above it
nothing; LANE_SUB_TIMEOUT beyond 2.5 us during a substitution fails the port. LANE_SUB at the transmitter moves the logical
lane that it names to the physical lane it names, records the lane left as failed, sets LINK_LANE_FAILED and replays
(resend, not counted). Shown to complete, under conditions on the state and the operands alone: LINK_ACK_DEADLINE,
LANE_LOCK_LOSS, LANE_SER_WINDOW, LANE_SUB, LANE_SUB_TIMEOUT. (R333, R334, R335, R347, R348) -/
def Obligations.ReplayAndLaneSubstitution : Prop :=
  (∀ (p ns : Nat) (s : State), p < 16 → s.linkActive p = true → s.portParked p = false → (s.link p).rxSub = none → s.odv
    Od.LINK_ACK_DEADLINE ≤ ns → (s.link p).retryBuf ≠ [] → (s.link p).txSub = false → (s.link p).replays < s.odv
    Od.LINK_REPLAY_LIMIT → exec (.linkAckDeadline p ns) s = .next ((s.resendAll p
    { s.link p with replays := (s.link p).replays + 1 }).count Od.LINK_REPLAYS 1)) ∧
  (∀ (p ns : Nat) (s : State), p < 16 → s.linkActive p = true → s.portParked p = false → (s.link p).rxSub = none → s.odv
    Od.LINK_ACK_DEADLINE ≤ ns → (s.link p).retryBuf ≠ [] → (s.link p).txSub = false → s.odv Od.LINK_REPLAY_LIMIT ≤ (s.link
    p).replays → exec (.linkAckDeadline p ns) s = .next (s.portLost p 5)) ∧
  (∀ (p lane ll q : Nat) (s : State), p < 16 → lane < 9 → s.linkActive p = true → laneOf (s.odv (lpKey Od.LP_RX_LANE_MAP p))
    lane = some ll → (s.link p).rxSpareUsed = false → spareOf (s.odv (lpKey Od.LP_RX_LANE_MAP p)) (s.odv (lpKey
    Od.LP_FAILED_LANES p) / 65536) = some q → exec (.laneLockLoss p lane) s = .next ((((((s.setOd (lpKey Od.LP_RX_LANE_MAP p)
    (setBits (s.odv (lpKey Od.LP_RX_LANE_MAP p)) (4 * ll) 4 q)).setOd (lpKey Od.LP_FAILED_LANES p) (withBit (s.odv (lpKey
    Od.LP_FAILED_LANES p)) (16 + lane))).setLink p { s.link p with rxSub := some ll, rxSpareUsed := true }).count
    Od.LINK_LANE_SUBS 1).sticky 18).sendHop p 6 [(512, 8, 1), (520, 4, ll), (524, 4, q)])) ∧
  (∀ (p lane ll : Nat) (s : State), p < 16 → lane < 9 → s.linkActive p = true → laneOf (s.odv (lpKey Od.LP_RX_LANE_MAP p))
    lane = some ll → (s.link p).rxSpareUsed = true ∨ spareOf (s.odv (lpKey Od.LP_RX_LANE_MAP p)) (s.odv (lpKey
    Od.LP_FAILED_LANES p) / 65536) = none → exec (.laneLockLoss p lane) s = .next (s.portLost p 5)) ∧
  (∀ (p lane : Nat) (ratio : W32) (s : State), p < 16 → lane < 9 → exec (.laneSerWindow p lane ratio) s = .next (if fgt ratio
    (BitVec.ofNat 32 (s.odv Od.LANE_SER_LIMIT)) then s.substitute p lane else s)) ∧
  (∀ (p ns : Nat) (s : State), p < 16 → s.linkActive p = true → s.portParked p = false → (s.link p).rxSub ≠ none → 2500 < ns
    → exec (.laneSubTimeout p ns) s = .next (s.portLost p 5)) ∧
  (∀ (p : Nat) (m : Message) (s : State), s.Delivers p 0 m → m.kind = 6 → m.lcOp = 1 → bitsOf m.header 520 4 < 8 → bitsOf
    m.header 524 4 < 9 → exec (.laneSub p) s = .next (((((s.dropHead p 0).setOd (lpKey Od.LP_TX_LANE_MAP p) (setBits (s.odv
    (lpKey Od.LP_TX_LANE_MAP p)) (4 * bitsOf m.header 520 4) 4 (bitsOf m.header 524 4))).setOd (lpKey Od.LP_FAILED_LANES p)
    (withBit (s.odv (lpKey Od.LP_FAILED_LANES p)) (bitsOf (s.odv (lpKey Od.LP_TX_LANE_MAP p)) (4 * bitsOf m.header 520 4)
    4))).resendAll p { (s.dropHead p 0).link p with txSpareUsed := true, txSub := true }).sticky 18))

/-- While the main rails are up and an enabled port that is not ACTIVE and whose island runs starts to train: with eight good
lanes in each direction its lane maps are the eight lowest good lanes and it is TRAINING; with fewer in a direction it is
DOWN. In training, with its nine lanes measured, a handshake from an unexpected peer makes it MISCABLED; from any allowed
peer it is ACTIVE with the credits reported, both sequences at 0, and sends its first group. Training for 1 s makes it
DOWN, and an enabled DOWN port trains again after 5 s, with nothing of its last training kept. LINK_PORT_RESET takes every
named port that is not DISABLED to DOWN with its buffers empty, and faults what its Points serve (portLost). A port whose
island is parked beyond the barrier token deadline, neither DISABLED nor FAILED, is FAILED (portLost). With no Distil job
or Serve context armed and every staged entry satisfying R362, a write of POINTS_COMMIT with an epoch other than the
current one makes the committed Points the staged table and POINTS_EPOCH the value written, and changes nothing else; with
the current epoch, with anything armed or with an unlawful entry, it changes nothing. Shown to complete, under conditions
on the state and the operands alone: PORT_TRAINING_START, PORT_HANDSHAKE, PORT_TRAINING_TIMEOUT, PORT_TRAINING_RETRY,
LINK_PORT_RESET, POINTS_COMMIT, LINAM_PARK_DEADLINE. (R335, R336, R337, R338, R362, R366, R367) -/
def Obligations.PortsTrainAndPointsAreCommitted : Prop :=
  (∀ (p tx rx : Nat) (skews : List Nat) (s : State), p < 16 → skews.length = 9 → s.mainUp = true → s.portParked p = false →
    s.odv (lpKey Od.LP_ENABLE p) ≠ 0 → s.linkActive p = false → 8 ≤ (goodLanes tx (s.odv (lpKey Od.LP_FAILED_LANES p) %
    65536)).length → 8 ≤ (goodLanes rx (s.odv (lpKey Od.LP_FAILED_LANES p) / 65536)).length → exec (.portTrainingStart p tx
    rx skews) s = .next ((((s.setLink p { s.link p with skews := skews }).setOd (lpKey Od.LP_TX_LANE_MAP p) (laneMap
    (goodLanes tx (s.odv (lpKey Od.LP_FAILED_LANES p) % 65536)))).setOd (lpKey Od.LP_RX_LANE_MAP p) (laneMap (goodLanes rx
    (s.odv (lpKey Od.LP_FAILED_LANES p) / 65536)))).setOd (lpKey Od.LP_STATE p) 2)) ∧
  (∀ (p tx rx : Nat) (skews : List Nat) (s : State), p < 16 → skews.length = 9 → s.mainUp = true → s.portParked p = false →
    s.odv (lpKey Od.LP_ENABLE p) ≠ 0 → s.linkActive p = false → (goodLanes tx (s.odv (lpKey Od.LP_FAILED_LANES p) %
    65536)).length < 8 ∨ (goodLanes rx (s.odv (lpKey Od.LP_FAILED_LANES p) / 65536)).length < 8 → exec (.portTrainingStart p
    tx rx skews) s = .next (s.setOd (lpKey Od.LP_STATE p) 1)) ∧
  (∀ (p peer pp ep : Nat) (cr : List Nat) (s : State), p < 16 → peer < 65536 → pp < 16 → ep < 2 ^ 32 → cr.length = 4 → s.odv
    (lpKey Od.LP_STATE p) = 2 → s.portParked p = false → (s.link p).skews.length = 9 → s.odv (lpKey Od.LP_EXPECTED_PEER p) ≠
    0xFFFFFFFF → s.odv (lpKey Od.LP_EXPECTED_PEER p) ≠ peer + pp * 65536 → exec (.portHandshake p peer pp ep cr) s = .next
    ((s.setOd (lpKey Od.LP_PEER p) (peer + pp * 65536)).setOd (lpKey Od.LP_STATE p) 4)) ∧
  (∀ (p peer pp ep : Nat) (cr : List Nat) (s : State), p < 16 → peer < 65536 → pp < 16 → ep < 2 ^ 32 → cr.length = 4 → s.odv
    (lpKey Od.LP_STATE p) = 2 → s.portParked p = false → (s.link p).skews.length = 9 → s.odv (lpKey Od.LP_EXPECTED_PEER p) =
    0xFFFFFFFF ∨ s.odv (lpKey Od.LP_EXPECTED_PEER p) = peer + pp * 65536 → ∃ u : State, exec (.portHandshake p peer pp ep cr)
    s = .next (u.sendGroup p) ∧ u.linkActive p = true ∧ u.odv (lpKey Od.LP_PEER p) = peer + pp * 65536 ∧ (u.link p).txSeq = 0
    ∧ (u.link p).rxNext = 0 ∧ (u.link p).retryBuf = [] ∧ (∀ v, v < 4 → ((u.link p).vc v).limit = listGet 0 cr v) ∧ u.mem =
    s.mem) ∧
  (∀ (p ms : Nat) (s : State), p < 16 → s.odv (lpKey Od.LP_STATE p) = 2 → 1000 ≤ ms → exec (.portTrainingTimeout p ms) s =
    .next (s.setOd (lpKey Od.LP_STATE p) 1)) ∧
  (∀ (p ms : Nat) (s : State), p < 16 → s.mainUp = true → s.portParked p = false → s.odv (lpKey Od.LP_STATE p) = 1 → s.odv
    (lpKey Od.LP_ENABLE p) = 1 → 5000 ≤ ms → exec (.portTrainingRetry p ms) s = .next ((s.setLink p .empty).setOd (lpKey
    Od.LP_STATE p) 2)) ∧
  (∀ (p v : Nat) (s : State), p < 16 → v = 2 ^ p → s.odv (lpKey Od.LP_STATE p) ≠ 0 → ∃ t, exec (.linkPortReset v) s = .next t
    ∧ t = s.portLost p 1 ∧ t.link p = LinkPort.empty ∧ t.odv (lpKey Od.LP_STATE p) = 1) ∧
  (∀ (v : Nat) (s : State), v < 65536 → exec (.linkPortReset v) s = .next (s.resetPorts v)) ∧
  (∀ (isl ns : Nat) (s : State), islandOk isl = true → islCode isl = 7 → (s.island isl).parked = true → s.odv
    Od.BARRIER_TOKEN_DEADLINE < ns → s.odv (lpKey Od.LP_STATE (islInst isl)) ≠ 0 → s.odv (lpKey Od.LP_STATE (islInst isl)) ≠
    5 → exec (.linamParkDeadline isl ns) s = .next (s.portLost (islInst isl) 5)) ∧
  (∀ (v : Nat) (s : State), v < 2 ^ 32 → s.anyArmed = false → s.stagedOk = true → v ≠ s.odv Od.POINTS_EPOCH → ∃ t, exec
    (.pointsCommit v) s = .next t ∧ t = { s with points := s.odv Od.POINTS_TABLE }.setOd Od.POINTS_EPOCH v ∧ t.odv
    Od.POINTS_EPOCH = v) ∧
  (∀ (v : Nat) (s : State), v < 2 ^ 32 → s.anyArmed = true ∨ s.stagedOk = false ∨ v = s.odv Od.POINTS_EPOCH → exec
    (.pointsCommit v) s = .next s)

/-- For a doorbell of an accepted form that reaches its Platform: a queue doorbell for an enabled queue of the context sets
Q_TAIL where the new tail lies between the old one and the ring size ahead of Q_HEAD, and otherwise stops the queue with
BAD_TAIL; a completion doorbell whose head lies between Q_CPL_HEAD and Q_CPL_TAIL sets Q_CPL_HEAD and lets held records
follow; a counter doorbell with a non-zero amount signals the host-input counter that its Timetable core and counter are
mapped to. To a context that is not stopped, a write of another size, a queue or a completion doorbell of a queue that the
context lacks or that is disabled, a completion head beyond Q_CPL_TAIL, and a counter amount of 0 or with a reserved bit
are dropped under R490; any doorbell to a stopped context, one of an accepted form to a faulted one, and one to a counter
that is no host input or of a context not armed are dropped under R267. Shown to complete, under conditions on the state
and the operands alone: QUEUE_DOORBELL, COMPLETION_DOORBELL, COUNTER_DOORBELL. (R266, R267, R481, R490, R491, R492, R493)
-/
def Obligations.DoorbellsReachTheirQueueOrCounter : Prop :=
  (∀ (port vf p value : Nat) (s : State), s.Rings port vf p value 0 12 20 → bitsOf value 0 12 < (s.plat p).queueCount →
    (s.queue ((s.plat p).queueBase + bitsOf value 0 12)).enable = true → (bitsOf value 32 32 + 2 ^ 32 - (s.queue ((s.plat
    p).queueBase + bitsOf value 0 12)).head) % 2 ^ 32 ≤ 2 ^ (s.queue ((s.plat p).queueBase + bitsOf value 0 12)).slotsLog2 →
    ((s.queue ((s.plat p).queueBase + bitsOf value 0 12)).tail + 2 ^ 32 - (s.queue ((s.plat p).queueBase + bitsOf value 0
    12)).head) % 2 ^ 32 ≤ (bitsOf value 32 32 + 2 ^ 32 - (s.queue ((s.plat p).queueBase + bitsOf value 0 12)).head) % 2 ^ 32
    → exec (.queueDoorbell port vf (4096 * p) 8 value) s = .next ((s.setQueue ((s.plat p).queueBase + bitsOf value 0 12)
    { s.queue ((s.plat p).queueBase + bitsOf value 0 12) with tail := bitsOf value 32 32 }).count Od.DOORBELLS_ACCEPTED 1)) ∧
  (∀ (port vf p value : Nat) (s : State), s.Rings port vf p value 0 12 20 → bitsOf value 0 12 < (s.plat p).queueCount →
    (s.queue ((s.plat p).queueBase + bitsOf value 0 12)).enable = true → 2 ^ (s.queue ((s.plat p).queueBase + bitsOf value 0
    12)).slotsLog2 < (bitsOf value 32 32 + 2 ^ 32 - (s.queue ((s.plat p).queueBase + bitsOf value 0 12)).head) % 2 ^ 32 ∨
    (bitsOf value 32 32 + 2 ^ 32 - (s.queue ((s.plat p).queueBase + bitsOf value 0 12)).head) % 2 ^ 32 < ((s.queue ((s.plat
    p).queueBase + bitsOf value 0 12)).tail + 2 ^ 32 - (s.queue ((s.plat p).queueBase + bitsOf value 0 12)).head) % 2 ^ 32 →
    exec (.queueDoorbell port vf (4096 * p) 8 value) s = .next (s.stopQueue ((s.plat p).queueBase + bitsOf value 0 12) 5)) ∧
  (∀ (port vf p value : Nat) (s : State), s.Rings port vf p value 8 12 20 → bitsOf value 0 12 < (s.plat p).queueCount →
    (s.queue ((s.plat p).queueBase + bitsOf value 0 12)).enable = true → (bitsOf value 32 32 + 2 ^ 32 - (s.queue ((s.plat
    p).queueBase + bitsOf value 0 12)).cplHead) % 2 ^ 32 ≤ ((s.queue ((s.plat p).queueBase + bitsOf value 0 12)).cplTail + 2
    ^ 32 - (s.queue ((s.plat p).queueBase + bitsOf value 0 12)).cplHead) % 2 ^ 32 → exec (.completionDoorbell port vf (4096 *
    p + 8) 8 value) s = .next (((s.setQueue ((s.plat p).queueBase + bitsOf value 0 12)
    { s.queue ((s.plat p).queueBase + bitsOf value 0 12) with cplHead := bitsOf value 32 32 }).count Od.DOORBELLS_ACCEPTED
    1).drain ((s.plat p).queueBase + bitsOf value 0 12) p ((s.queue ((s.plat p).queueBase + bitsOf value 0
    12)).held.length + 1))) ∧
  (∀ (port vf p value c k : Nat) (s : State), s.Rings port vf p value 16 31 33 → bitOf value 15 = false → bitsOf value 16 15
    ≠ 0 → (s.plat p).held = true → s.hostIn p (bitsOf value 0 9) (bitsOf value 9 6) = true → s.mapCtr p (bitsOf value 0 9)
    (bitsOf value 9 6) = some (c, k) → exec (.counterDoorbell port vf (4096 * p + 16) 8 value) s = .next ((s.signal c k
    (bitsOf value 16 15)).count Od.DOORBELLS_ACCEPTED 1)) ∧
  (∀ (port vf offset size value : Nat) (s : State), port < 2 → vf < 64 → size ≠ 8 → (s.plat (offset / 4096)).epochStopped =
    false → exec (.queueDoorbell port vf offset size value) s = .next (s.dropDoorbell port vf (offset / 4096)) ∧ exec
    (.completionDoorbell port vf offset size value) s = .next (s.dropDoorbell port vf (offset / 4096)) ∧ exec
    (.counterDoorbell port vf offset size value) s = .next (s.dropDoorbell port vf (offset / 4096))) ∧
  (∀ (port vf p value : Nat) (s : State), s.Rings port vf p value 0 12 20 → (s.plat p).queueCount ≤ bitsOf value 0 12 ∨
    (s.queue ((s.plat p).queueBase + bitsOf value 0 12)).enable = false → exec (.queueDoorbell port vf (4096 * p) 8 value) s
    = .next (s.dropDoorbell port vf p)) ∧
  (∀ (port vf p value : Nat) (s : State), s.Rings port vf p value 8 12 20 → (s.plat p).queueCount ≤ bitsOf value 0 12 ∨
    (s.queue ((s.plat p).queueBase + bitsOf value 0 12)).enable = false ∨ ((s.queue ((s.plat p).queueBase + bitsOf value 0
    12)).cplTail + 2 ^ 32 - (s.queue ((s.plat p).queueBase + bitsOf value 0 12)).cplHead) % 2 ^ 32 < (bitsOf value 32 32 + 2
    ^ 32 - (s.queue ((s.plat p).queueBase + bitsOf value 0 12)).cplHead) % 2 ^ 32 → exec (.completionDoorbell port vf (4096 *
    p + 8) 8 value) s = .next (s.dropDoorbell port vf p)) ∧
  (∀ (port vf p value : Nat) (s : State), s.Rings port vf p value 16 31 33 → bitOf value 15 = true ∨ bitsOf value 16 15 = 0 →
    exec (.counterDoorbell port vf (4096 * p + 16) 8 value) s = .next (s.dropDoorbell port vf p)) ∧
  (∀ (port vf p value : Nat) (s : State), s.Rings port vf p value 16 31 33 → bitOf value 15 = false → bitsOf value 16 15 ≠ 0
    → (s.plat p).held = false ∨ s.hostIn p (bitsOf value 0 9) (bitsOf value 9 6) = false ∨ s.mapCtr p (bitsOf value 0 9)
    (bitsOf value 9 6) = none → exec (.counterDoorbell port vf (4096 * p + 16) 8 value) s = .next (s.dropSignal p)) ∧
  (∀ (port vf offset size value : Nat) (s : State), port < 2 → vf < 64 → s.responds port vf (offset / 4096) = true → (s.plat
    (offset / 4096)).epochStopped = true → exec (.queueDoorbell port vf offset size value) s = .next (s.dropSignal (offset /
    4096)) ∧ exec (.completionDoorbell port vf offset size value) s = .next (s.dropSignal (offset / 4096)) ∧ exec
    (.counterDoorbell port vf offset size value) s = .next (s.dropSignal (offset / 4096))) ∧
  (∀ (port vf p value : Nat) (s : State), port < 2 → vf < 64 → bitsOf value 12 20 = 0 → bitsOf value 31 33 = 0 → s.responds
    port vf p = true → (s.plat p).st = 3 → exec (.queueDoorbell port vf (4096 * p) 8 value) s = .next (s.dropSignal p) ∧ exec
    (.completionDoorbell port vf (4096 * p + 8) 8 value) s = .next (s.dropSignal p) ∧ exec (.counterDoorbell port vf (4096 *
    p + 16) 8 value) s = .next (s.dropSignal p))

/-- For the next descriptor of a queue whose form is accepted and whose addresses lead to places its context may use, the
ports it needs up and no error in memory: D_COPY reads its source and writes it to its destination (device or host to
device or host, host reads through the read-ahead rules), D_INLINE writes the first bytes of its payload; each then
completes with status 0. While a port it needs is down it waits. A descriptor whose form is refused completes with
BAD_DESCRIPTOR and stops its queue; one whose address is refused completes with that status (failDesc; of two, the lower),
and so do a D_COPY whose ranges overlap (1) and one whose host read fails (3). Shown to complete, under conditions on the
state and the operands alone: D_COPY, D_INLINE. (R302, R305, R309, R310, R311, R494, R495) -/
def Obligations.DescriptorsCopyWriteAndComplete : Prop :=
  (∀ (q p : Nat) (d : Desc) (s : State), s.Starts q p d → d.kind = 1 → s.descPlace p d.src d.len false = .inl .device →
    s.descPlace p d.dst d.len true = .inl .device → overlap d.src d.len d.dst d.len = false → s.Clean → exec (.dCopy q) s =
    .next (((s.fetched d).put d.dst (s.load d.src d.len)).finishDesc q p d 0 false)) ∧
  (∀ (q p port a : Nat) (d : Desc) (s : State), s.Starts q p d → d.kind = 1 → s.descPlace p d.src d.len false = .inl (.host
    port a) → s.descPlace p d.dst d.len true = .inl .device → (s.port port).linkUp = true → s.hostBad = [] → s.Clean → ∃ r, r
    = (s.fetched d).hostFetch p port a d.len ∧ exec (.dCopy q) s = .next ((r.1.put d.dst r.2).finishDesc q p d 0 false)) ∧
  (∀ (q p port a : Nat) (d : Desc) (s : State), s.Starts q p d → d.kind = 1 → s.descPlace p d.src d.len false = .inl .device
    → s.descPlace p d.dst d.len true = .inl (.host port a) → (s.port port).linkUp = true → s.Clean → exec (.dCopy q) s =
    .next (((s.fetched d).hostPut p port a (s.load d.src d.len)).finishDesc q p d 0 false)) ∧
  (∀ (q p port a port2 a2 : Nat) (d : Desc) (s : State), s.Starts q p d → d.kind = 1 → s.descPlace p d.src d.len false = .inl
    (.host port a) → s.descPlace p d.dst d.len true = .inl (.host port2 a2) → overlap a d.len a2 d.len = false → (s.port
    port).linkUp = true → (s.port port2).linkUp = true → s.hostBad = [] → ∃ r, r = (s.fetched d).hostFetch p port a d.len ∧
    exec (.dCopy q) s = .next ((r.1.hostPut p port2 a2 r.2).finishDesc q p d 0 false)) ∧
  (∀ (q p : Nat) (d : Desc) (ps pd : Place) (s : State), s.Starts q p d → d.kind = 1 → s.descPlace p d.src d.len false = .inl
    ps → s.descPlace p d.dst d.len true = .inl pd → copyOverlap d.src d.dst d.len ps pd = true → exec (.dCopy q) s = .next
    ((s.fetched d).failDesc q p d 1)) ∧
  (∀ (q p : Nat) (d : Desc) (ps pd : Place) (s : State), s.Starts q p d → d.kind = 1 → s.descPlace p d.src d.len false = .inl
    ps → s.descPlace p d.dst d.len true = .inl pd → copyOverlap d.src d.dst d.len ps pd = false → s.placeUp ps = false ∨
    s.placeUp pd = false → exec (.dCopy q) s = .next (s.fetched d)) ∧
  (∀ (q p port a : Nat) (d : Desc) (pd : Place) (s : State), s.Starts q p d → d.kind = 1 → s.descPlace p d.src d.len false =
    .inl (.host port a) → s.descPlace p d.dst d.len true = .inl pd → copyOverlap d.src d.dst d.len (.host port a) pd = false
    → (s.port port).linkUp = true → s.placeUp pd = true → (s.hostBad.any (fun r => overlap r.1 r.2 a d.len) = true) → exec
    (.dCopy q) s = .next ((s.fetched d).failDesc q p d 3)) ∧
  (∀ (q p e : Nat) (d : Desc) (s : State), s.Starts q p d → d.kind = 1 → ((s.descPlace p d.src d.len false = .inr e ∧ ∃ pl,
    s.descPlace p d.dst d.len true = .inl pl) ∨ (s.descPlace p d.dst d.len true = .inr e ∧ ∃ pl, s.descPlace p d.src d.len
    false = .inl pl) ∨ (∃ e1 e2, s.descPlace p d.src d.len false = .inr e1 ∧ s.descPlace p d.dst d.len true = .inr e2 ∧ e =
    Nat.min e1 e2)) → exec (.dCopy q) s = .next ((s.fetched d).failDesc q p d e)) ∧
  (∀ (q p : Nat) (d : Desc) (s : State), q < 4096 → s.nextDesc q = some (p, d) → d.kind = 2 → descOk s p d = false → exec
    (.dInline q) s = .next (((s.fetched d).finishDesc q p d 4 true).stopQueue q 4)) ∧
  (∀ (q p port a : Nat) (d : Desc) (s : State), s.Starts q p d → d.kind = 2 → s.descPlace p d.dst d.len true = .inl (.host
    port a) → (s.port port).linkUp = false → exec (.dInline q) s = .next (s.fetched d)) ∧
  (∀ (q p : Nat) (d : Desc) (s : State), s.Starts q p d → d.kind = 2 → s.descPlace p d.dst d.len true = .inl .device →
    s.Clean → exec (.dInline q) s = .next (((s.fetched d).put d.dst (d.payload.take d.len)).finishDesc q p d 0 false)) ∧
  (∀ (q p port a : Nat) (d : Desc) (s : State), s.Starts q p d → d.kind = 2 → s.descPlace p d.dst d.len true = .inl (.host
    port a) → (s.port port).linkUp = true → exec (.dInline q) s = .next (((s.fetched d).hostPut p port a (d.payload.take
    d.len)).finishDesc q p d 0 false)) ∧
  (∀ (q p : Nat) (d : Desc) (s : State), q < 4096 → s.nextDesc q = some (p, d) → d.kind = 1 ∨ d.kind = 0 ∨ 5 < d.kind →
    descOk s p d = false → exec (.dCopy q) s = .next (((s.fetched d).finishDesc q p d 4 true).stopQueue q 4)) ∧
  (∀ (q p e : Nat) (d : Desc) (s : State), s.Starts q p d → d.kind = 2 → s.descPlace p d.dst d.len true = .inr e → exec
    (.dInline q) s = .next ((s.fetched d).failDesc q p d e))

/-- For the next descriptor of a queue whose form is accepted: D_FENCE removes the context's read-ahead granules on both
ports, and no other context's, and completes once every earlier descriptor of its queue has; D_FLUSH completes when no
write of its context is held on either port; until then each waits; D_SERVE in Serve mode with a body of good form and
granted ranges joins the request records in order and keeps its completion record waiting; a body of bad form, or outside
Serve mode, completes at once with SERVE_BAD_FIELD (0x20), and one whose ranges are not granted with SERVE_ADDR (0x21). For
every queue below 4,096: Q_RESET answers a state in which the queue is disabled, not stopped, with stop code, head, tail
and both completion indices 0 and no held record, its ring bases and sizes as before, and in which every stream whose
NOTIFY the queue held has gone on (releaseHeld) and no request record of the queue that is still undecided will write a
completion there (orphanRecords); no memory changes. Shown to complete, under conditions on the state and the operands
alone: D_FENCE, D_FLUSH, D_SERVE, Q_RESET. (R307, R308, R401, R403, R489) -/
def Obligations.FencesFlushesRecordsAndQueueReset : Prop :=
  (∀ (q p : Nat) (d : Desc) (s : State), s.Starts q p d → d.kind = 3 → (s.queue q).busy = 0 → ∃ u : State, exec (.dFence q) s
    = .next (u.finishDesc q p d 0 false) ∧ (∀ k, k < 2 → (u.port k).readAhead = (s.port k).readAhead.filter fun e => e.1 !=
    p) ∧ u.mem = s.mem ∧ u.hostMem = s.hostMem ∧ u.queues = s.queues) ∧
  (∀ (q p : Nat) (d : Desc) (s : State), s.Starts q p d → d.kind = 3 → (s.queue q).busy ≠ 0 → exec (.dFence q) s = .next
    (s.fetched d)) ∧
  (∀ (q p : Nat) (d : Desc) (s : State), s.Starts q p d → d.kind = 4 → s.unflushed p = false → exec (.dFlush q) s = .next
    ((s.fetched d).finishDesc q p d 0 false)) ∧
  (∀ (q p : Nat) (d : Desc) (s : State), s.Starts q p d → d.kind = 4 → s.unflushed p = true → exec (.dFlush q) s = .next
    (s.fetched d)) ∧
  (∀ (q p : Nat) (d : Desc) (s : State), s.Starts q p d → d.kind = 5 → s.serveMode = true → rqFormOk (s.plat p).queueCount
    (bitsOf d.w 512 1536) = true → s.rqRangesOk p (bitsOf d.w 512 1536) = true → ∃ t, exec (.dServe q) s = .next t ∧
    t.serving.records = s.serving.records ++ [{ queue := q, platform := p, n := d.n, body := bitsOf d.w 512 1536 }] ∧
    (t.queue q).busy = (s.queue q).busy + d.slots ∧ (t.queue q).held.length = (s.queue q).held.length + 1 ∧ (t.queue q).head
    = (s.queue q).head ∧ t.mem = s.mem ∧ t.hostMem = s.hostMem) ∧
  (∀ (q p : Nat) (d : Desc) (s : State), s.Starts q p d → d.kind = 5 → s.serveMode = false ∨ rqFormOk (s.plat p).queueCount
    (bitsOf d.w 512 1536) = false → exec (.dServe q) s = .next ((s.fetched d).finishDesc q p d svBadField false)) ∧
  (∀ (q p : Nat) (d : Desc) (s : State), s.Starts q p d → d.kind = 5 → s.serveMode = true → rqFormOk (s.plat p).queueCount
    (bitsOf d.w 512 1536) = true → s.rqRangesOk p (bitsOf d.w 512 1536) = false → exec (.dServe q) s = .next ((s.fetched
    d).finishDesc q p d svAddr false)) ∧
  (∀ (q : Nat) (s : State), q < 4096 → ∃ t, exec (.qReset q) s = .next t ∧ t = ((s.releaseHeld q).orphanRecords q).setQueue q
    (((s.releaseHeld q).orphanRecords q).queue q).cleared ∧ (t.queue q).enable = false ∧ (t.queue q).stopped = false ∧
    (t.queue q).stopCode = 0 ∧ (t.queue q).head = 0 ∧ (t.queue q).tail = 0 ∧ (t.queue q).cplTail = 0 ∧ (t.queue q).cplHead =
    0 ∧ (t.queue q).held = [])

/-- For every queue, every offset, size and value of a write to its queue block: while Q_ENABLE is 1 the descriptor base, the
completion base and both sizes stay as they are; while it is 0, a write to the base words replaces the written bytes of the
base, and a write to the size word replaces the sizes; a write that sets Q_ENABLE while a base or a size, as written, lies
outside its stated range leaves Q_ENABLE at 0. (R488) -/
def Obligations.QueueRegistersTakeEffectWhileDisabled : Prop :=
  (∀ (q o size v : Nat) (s : State), (s.queue q).enable = true → ((s.writeQueue q o size v).queue q).descBase = (s.queue
    q).descBase ∧ ((s.writeQueue q o size v).queue q).cplBase = (s.queue q).cplBase ∧ ((s.writeQueue q o size v).queue
    q).slotsLog2 = (s.queue q).slotsLog2 ∧ ((s.writeQueue q o size v).queue q).cplLog2 = (s.queue q).cplLog2) ∧
  (∀ (q o size v : Nat) (s : State), (s.queue q).enable = false → o / 8 = 0 → ((s.writeQueue q o size v).queue q).descBase =
    mergeWord (s.queue q).descBase o size v) ∧
  (∀ (q o size v : Nat) (s : State), (s.queue q).enable = false → o / 8 = 1 → ((s.writeQueue q o size v).queue q).cplBase =
    mergeWord (s.queue q).cplBase o size v) ∧
  (∀ (q o size v w : Nat) (s : State), (s.queue q).enable = false → o / 8 = 2 → w = mergeWord (fields [(0, 5, (s.queue
    q).slotsLog2), (8, 5, (s.queue q).cplLog2), (16, 1, 0)]) o size v → ((s.writeQueue q o size v).queue q).slotsLog2 =
    bitsOf w 0 5 ∧ ((s.writeQueue q o size v).queue q).cplLog2 = bitsOf w 8 5 ∧ ((s.writeQueue q o size v).queue q).enable =
    (bitOf w 16 && ringOk (s.queue q).descBase (bitsOf w 0 5) && ringOk (s.queue q).cplBase (bitsOf w 8 5)))

/-- An aperture read while the aperture is closed returns zeros; while it is open and no word shows an error it returns the
bytes at AP_BASE * 2^24 + x, zero beyond the tier and in logit rows. A write while the aperture is open, within one tier
and outside every protected range, writes exactly its bytes; while it is open, one into the teacher or a granted image, the
reserve, or a serving area in use writes nothing and sets the sticky bit APERTURE_WRITE_PROTECTED; while the aperture is
closed it changes nothing. Through an open window (link up, CXL running, a decoder committed without error) and within its
size: a read with no erroneous word returns the bytes at the window base plus the offset; one that meets an uncorrected
error captures it, sets the sticky bit CXL_READ_UNCORRECTED, raises the error vector of the physical function and returns
all ones; a write outside every protected image and the checkpoint reserve (DESIGN CHOICE, log entry 93) writes exactly its
bytes. HDM_DECODER_COMMIT commits a decoder of one way and of exactly the window size, and leaves any other in error. Shown
to complete, under conditions on the state and the operands alone: APERTURE_READ, APERTURE_WRITE, CXL_MEM_READ,
CXL_MEM_WRITE, HDM_DECODER_COMMIT. (R17, R484, R485, R317, R477, R478, R479) -/
def Obligations.ApertureAndCxlWindowReachDeviceMemory : Prop :=
  (∀ (port offset size : Nat) (s : State), port < 2 → offset + size ≤ 2 ^ 24 → (s.port port).apEnable = false → exec
    (.apertureRead port offset size) s = .next (s.emit (.readData port (List.replicate size 0)))) ∧
  (∀ (port offset size : Nat) (s : State), port < 2 → offset + size ≤ 2 ^ 24 → (s.port port).apEnable = true → s.Clean → exec
    (.apertureRead port offset size) s = .next (s.emit (.readData port (s.windowBytes ((s.port port).apBase * 2 ^
    24 + offset) size)))) ∧
  (∀ (port offset : Nat) (data : List Byte) (s : State), Memory.wf s.mem = true → port < 2 → offset + data.length ≤ 2 ^ 24 →
    (s.port port).apEnable = true → s.inTier ((s.port port).apBase * 2 ^ 24 + offset) data.length = true → s.inImage ((s.port
    port).apBase * 2 ^ 24 + offset) data.length = false → s.inReserve ((s.port port).apBase * 2 ^ 24 + offset) data.length =
    false → s.inServing ((s.port port).apBase * 2 ^ 24 + offset) data.length = false ∨ s.serveMode = false → s.Clean → ∃ t,
    exec (.apertureWrite port offset data) s = .next t ∧ t = s.put ((s.port port).apBase * 2 ^ 24 + offset) data ∧ (∀ k (h :
    k < data.length), t.byteAt ((s.port port).apBase * 2 ^ 24 + offset + k) = data[k]) ∧ s.SameOutside t ((s.port
    port).apBase * 2 ^ 24 + offset) data.length) ∧
  (∀ (port offset : Nat) (data : List Byte) (s : State), port < 2 → offset + data.length ≤ 2 ^ 24 → (s.port port).apEnable =
    true → s.inTier ((s.port port).apBase * 2 ^ 24 + offset) data.length = true → s.inImage ((s.port port).apBase * 2 ^
    24 + offset) data.length = true ∨ s.inReserve ((s.port port).apBase * 2 ^ 24 + offset) data.length = true → ∃ t, exec
    (.apertureWrite port offset data) s = .next t ∧ t = s.sticky 10 ∧ t.mem = s.mem) ∧
  (∀ (port offset : Nat) (data : List Byte) (s : State), port < 2 → offset + data.length ≤ 2 ^ 24 → (s.port port).apEnable =
    true → s.inServing ((s.port port).apBase * 2 ^ 24 + offset) data.length = true → s.serveMode = true → (∃ e, e ∈ s.plats ∧
    e.2.held = true) → ∃ t, exec (.apertureWrite port offset data) s = .next t ∧ t = s.sticky 10 ∧ t.mem = s.mem) ∧
  (∀ (port offset : Nat) (data : List Byte) (s : State), port < 2 → offset + data.length ≤ 2 ^ 24 → (s.port port).apEnable =
    false → exec (.apertureWrite port offset data) s = .next s) ∧
  (∀ (port offset size : Nat) (s : State), port < 2 → s.windowOpen port = true → offset + size ≤ s.odv (winSizeKey port) →
    s.Clean → exec (.cxlMemRead port offset size) s = .next (s.emit (.readData port (s.load (s.odv (winBaseKey
    port) + offset) size)))) ∧
  (∀ (port offset size w : Nat) (ws : List Nat) (s : State), port < 2 → s.windowOpen port = true → offset + size ≤ s.odv
    (winSizeKey port) → badIn s.eccBad (s.odv (winBaseKey port) + offset) size = w :: ws → exec (.cxlMemRead port offset
    size) s = .next ((((((s.uncorrected w).1.capture (s.uncorrected w).2).sticky 9).emit (.aer port)).raise port 0).emit
    (.readData port (List.replicate size 0xFF)))) ∧
  (∀ (port offset : Nat) (data : List Byte) (s : State), Memory.wf s.mem = true → port < 2 → s.windowOpen port = true →
    offset + data.length ≤ s.odv (winSizeKey port) → s.inImage (s.odv (winBaseKey port) + offset) data.length = false →
    s.inReserve (s.odv (winBaseKey port) + offset) data.length = false → s.Clean → ∃ t, exec (.cxlMemWrite port offset data)
    s = .next t ∧ t = s.put (s.odv (winBaseKey port) + offset) data ∧ (∀ k (h : k < data.length), t.byteAt (s.odv (winBaseKey
    port) + offset + k) = data[k]) ∧ s.SameOutside t (s.odv (winBaseKey port) + offset) data.length) ∧
  (∀ (port base size ways : Nat) (s : State), port < 2 → ∃ t, exec (.hdmDecoderCommit port base size ways) s = .next t ∧ t =
    s.setPort port
    { s.port port with hdmBase := base, hdmSize := size, hdmCommitted := ways = 1 && size = s.odv (winSizeKey port), hdmError := !(ways = 1 && size = s.odv (winSizeKey port)) }
    ∧ t.mem = s.mem)

/-- For every CXL.mem write through an open window, within its size, that meets a range R303 protects: the command completes,
no byte of device memory changes, CXL_PROTECTED_WRITES has increased by one, and the bit CXL_WRITE_PROTECTED of STICKY_LOG
is set. (R318) -/
def Obligations.ProtectedCxlWriteIsDiscarded : Prop :=
  ∀ (port offset : Nat) (data : List Byte) (s : State), port < 2 → s.windowOpen port = true → offset + data.length ≤ s.odv
    (winSizeKey port) → s.inImage (s.odv (winBaseKey port) + offset) data.length = true → ∃ t, exec (.cxlMemWrite port offset
    data) s = .next t ∧ t.mem = s.mem ∧ t.counted Od.CXL_PROTECTED_WRITES = s.counted Od.CXL_PROTECTED_WRITES + 1 ∧ bitOf
    (t.odv Od.STICKY_LOG) 8 = true

/-- DATA_LINK_DOWN marks the port down and its link entry 0, and changes nothing else. DATA_LINK_UP with a defined rate and
width marks it up, writes the rate, the width, the flit mode and whether CXL runs (the partner offers it and it is enabled)
into its link entry, then sends the held writes and the held interrupts in their order, and writes the records that waited.
LINK_DOWN_HOLD after 10 ms, once, and PORT_HOT_RESET apply R321 to the contexts of the port; the hot reset also resets its
functions and closes its CXL decoder. LINK_DOWN_HOLD before 10 ms, with the link up or a second time changes nothing. For a
stopped context, EPOCH_ARM with its epoch clears EPOCH_STOPPED and hands each of its enabled queues, in order, an
EPOCH_RESUMED record with the index of its last completed descriptor, and the streams of an armed one that is not being
suspended start (those that a PC_RESUME under the stop left PREEMPTED); any other value, or a context that is not stopped,
changes nothing. MSIX_UNMASK of a masked vector unmasks it and clears its pending bit, and where that bit was set raises
the vector once; an unmasked one changes nothing. For every port with its link up and every vector that is masked and not
pending: after any positive number of raises of it nothing has been sent and it is pending; unmasking it then emits exactly
one MSI-X message for it, it is pending no longer, and every other vector of the port stays masked or unmasked, pending or
not, as it was. Shown to complete, under conditions on the state and the operands alone: EPOCH_ARM, DATA_LINK_DOWN,
DATA_LINK_UP, LINK_DOWN_HOLD, PORT_HOT_RESET, MSIX_UNMASK. (R320, R321, R477, R504, 09_memory_and_host_data.md, R323, R324,
R501) -/
def Obligations.LinksEpochsAndMaskedVectors : Prop :=
  (∀ (port : Nat) (s : State), port < 2 → exec (.dataLinkDown port) s = .next ((s.setPort port
    { s.port port with linkUp := false }).setOd (linkKey port) 0)) ∧
  (∀ (port rate width : Nat) (flit partner : Bool) (s u : State), port < 2 → 1 ≤ rate → rate ≤ 6 → width ∈ [1, 2, 4, 8, 16] →
    u = (s.setPort port
    { s.port port with linkUp := true, downHeld := false, cxl := partner && (s.port port).cxlOn, heldWrites := [], heldMsix := [], retry := (s.port port).retry && !s.power.ready }).setOd
    (linkKey port) (rate + 16 * width + (if flit then 512 else 0) + (if partner && (s.port port).cxlOn then 1024 else 0)) →
    exec (.dataLinkUp port rate width flit partner) s = .next ((s.port port).heldMsix.foldl (fun s v => s.raise port v)
    ((s.port port).heldWrites.foldl (fun s w => s.hostPut w.1 port w.2.1 w.2.2) u)).drainAll) ∧
  (∀ (port ms : Nat) (s : State), port < 2 → (s.port port).linkUp = false → (s.port port).downHeld = false → s.odv
    Od.LINK_DOWN_HOLD_MS ≤ ms → exec (.linkDownHold port ms) s = .next (s.stopEpochs port)) ∧
  (∀ (port ms : Nat) (s : State), port < 2 → (s.port port).linkUp = true ∨ (s.port port).downHeld = true ∨ ms < s.odv
    Od.LINK_DOWN_HOLD_MS → exec (.linkDownHold port ms) s = .next s) ∧
  (∀ (port : Nat) (s u : State), port < 2 → s.power.mainEn = true → u = s.stopEpochs port → exec (.portHotReset port) s =
    .next ((u.setPort port
    { (u.port port).functionsReset with linkUp := false, retry := true, cxlOn := bitOf (u.odv Od.HP_CXL_ENABLE) port, hdmCommitted := false, hdmError := false }).setOd
    (linkKey port) 0)) ∧
  (∀ (p : Nat) (s t : State), p < 1024 → (s.plat p).epochStopped = true → (t = ((fromTo (s.plat p).queueBase (s.plat
    p).queueCount).foldl (fun s q => if (s.queue q).enable then s.pushRecord q p (HeldRecord.plain 4 0 (s.queue q).lastDone 0
    0) else s) (s.setPlat p { s.plat p with epochStopped := false })).drainAll) → exec (.epochArm p (s.plat p).epoch) s =
    .next (if (s.plat p).st = 1 ∧ (s.plat p).suspending = false then t.startStreams p else t)) ∧
  (∀ (p v : Nat) (s : State), p < 1024 → (s.plat p).epochStopped = false ∨ v ≠ (s.plat p).epoch → exec (.epochArm p v) s =
    .next s) ∧
  (∀ (port v : Nat) (s : State), port < 2 → v < 2048 → v ∉ (s.port port).unmasked → v ∈ (s.port port).pend → exec
    (.msixUnmask port v) s = .next ((s.setPort port
    { s.port port with unmasked := v :: (s.port port).unmasked, pend := (s.port port).pend.filter (· != v) }).raise port v)) ∧
  (∀ (port v : Nat) (s : State), port < 2 → v < 2048 → v ∉ (s.port port).unmasked → v ∉ (s.port port).pend → exec
    (.msixUnmask port v) s = .next (s.setPort port
    { s.port port with unmasked := v :: (s.port port).unmasked, pend := (s.port port).pend.filter (· != v) })) ∧
  (∀ (port v : Nat) (s : State), port < 2 → v < 2048 → v ∈ (s.port port).unmasked → exec (.msixUnmask port v) s = .next s) ∧
  (∀ (port v n : Nat) (s u : State), port < 2 → v < 2048 → 0 < n → (s.port port).linkUp = true → v ∉ (s.port port).unmasked →
    v ∉ (s.port port).pend → (u = (List.range n).foldl (fun (s : State) _ => s.raise port v) s) → u.hostOut = s.hostOut ∧ v ∈
    (u.port port).pend ∧ ∃ t, exec (.msixUnmask port v) u = .next t ∧ t.hostOut = s.hostOut ++ [.msix port v] ∧ v ∉ (t.port
    port).pend ∧ (∀ w, w ≠ v → (w ∈ (t.port port).pend ↔ w ∈ (s.port port).pend) ∧ (w ∈ (t.port port).unmasked ↔ w ∈ (s.port
    port).unmasked)))

/-- For every state that lists each Platform once: a stop of a port drops what its own contexts wrote through it and was
held, keeping what the other port's contexts wrote; gives every context of the port that is not disarmed or already stopped
an epoch one higher modulo 2^16 and sets its EPOCH_STOPPED; drops from the queues of its contexts every held record but
NOTIFY records and those of descriptors still under way (log entry 94); and leaves every context of the other port, its
queues and both memories as they are. (R321, R322, R326) -/
def Obligations.EpochsStopOnlyTheirOwnPort : Prop :=
  ∀ (port : Nat) (s : State), port < 2 → (s.plats.map (·.1)).Nodup → ((s.stopEpochs port).port port).heldWrites = (s.port
    port).heldWrites.filter (fun w => (s.plat w.1).port ≠ port) ∧ (∀ p, (s.plat p).port = port → (s.plat p).st ≠ 0 → (s.plat
    p).epochStopped = false → (s.stopEpochs port).plat p =
    { s.plat p with epoch := ((s.plat p).epoch + 1) % 2 ^ 16, epochStopped := true }) ∧ (∀ p, (s.plat p).port ≠ port →
    (s.stopEpochs port).plat p = s.plat p) ∧ (∀ q p, s.owner q = some p → (s.plat p).port = port → (s.stopEpochs port).queue
    q = { s.queue q with held := (s.queue q).held.filter fun r => r.kind = 2 || r.wait }) ∧ (∀ q, (∀ p, s.owner q = some p →
    (s.plat p).port ≠ port) → (s.stopEpochs port).queue q = s.queue q) ∧ (s.stopEpochs port).mem = s.mem ∧ (s.stopEpochs
    port).hostMem = s.hostMem

/-- CTX_RESET and PC_RESET of a Platform that is not disarmed carry out R471 on it: it is DISARMED with its configuration
kept, its streams, issued commands, owned counters, queues and barrier channels are gone, and PLATFORM_RESETS counts one;
of a disarmed one nothing changes. While the main rails are up, a function-level reset of the physical function resets
every Platform of its port, its registers and VF Enable, and sends one readiness message; one of a virtual function (on
such rails), and clearing VF Enable or lowering NumVFs, reset the Platforms of the virtual functions concerned and mask
their vectors. Shown to complete, under conditions on the state and the operands alone: CTX_RESET, FLR_PHYSICAL,
FLR_VIRTUAL, VF_ENABLE_CLEAR, PC_RESET. (R471, R472, R505) -/
def Obligations.FunctionResetsEndTheirPlatforms : Prop :=
  (∀ (p : Nat) (s : State), p < 1024 → (s.plat p).st ≠ 0 → ∃ t, exec (.pcReset p) s = .next t ∧ exec (.ctxReset p) s = .next
    t ∧ t = ((s.quiesce p).clearQueues p).count Od.PLATFORM_RESETS 1 ∧ (t.plat p).st = 0 ∧ (t.plat p).cfg = (s.plat p).cfg ∧
    (t.plat p).epoch = 0 ∧ t.mem = s.mem ∧ t.hostMem = s.hostMem ∧ t.counted Od.PLATFORM_RESETS = s.counted
    Od.PLATFORM_RESETS + 1) ∧
  (∀ (p : Nat) (s : State), p < 1024 → (s.plat p).st = 0 → exec (.pcReset p) s = .next s ∧ exec (.ctxReset p) s = .next s) ∧
  (∀ (port : Nat) (s u : State), port < 2 → s.power.mainEn = true → (u = s.resetAll fun x => x.port = port) → exec
    (.flrPhysical port) s = .next ((u.setPort port (u.port port).functionsReset).emit (.frs port 0))) ∧
  (∀ (port vf : Nat) (s u : State), port < 2 → 1 ≤ vf → vf < 64 → s.power.mainEn = true → (u = s.resetAll fun x => x.fn = 64
    * port + vf) → exec (.flrVirtual port vf) s = .next (u.setPort port ((u.port port).maskVfs (· = vf)))) ∧
  (∀ (port n : Nat) (s u : State), port < 2 → n < 64 → (u = s.resetAll fun x => x.port = port && n < x.vf) → exec
    (.vfEnableClear port n) s = .next (u.setPort port { (u.port port).maskVfs (n < ·) with numVfs := n }))

/-- A disarmed Platform arms: in Serve mode where the checks of R449 find nothing (armServe), and Platform 0 in Distil mode
where the checks of R247 find nothing (armDistil); refused arms leave it disarmed with PC_ARM_ERROR, and in Distil mode
with ARM_REFUSE_CAUSE, which a Serve arm takes too where the scale table refuses it (scaleCause); in Distil mode any other
Platform, and Platform 0 while the job runs, and any disarmed Platform in Doze is refused with PC_ARM_ERROR 7. PC_SUSPEND
of an armed Serve Platform starts its suspension (its READY and WAITING streams PREEMPTED); SUSPEND_COMPLETE, with no
command of it in an engine queue, on the move path or draining (log entry 106), makes it SUSPENDED and counts it; PC_RESUME
arms it again and starts its streams; PC_DISARM quiesces it, or for the SERVICE Platform with live requests waits for the
next boundary. In a state that the command does not apply to, each changes nothing. Shown to complete, under conditions on
the state and the operands alone: PC_ARM, PC_SUSPEND, SUSPEND_COMPLETE, PC_RESUME, PC_DISARM. (R247, R248, R445, R449,
R462, R464, R468) -/
def Obligations.PlatformsArmSuspendResumeAndDisarm : Prop :=
  (∀ (p : Nat) (peers : List ArmView) (s : State), p < 1024 → (s.plat p).st = 0 → s.power.doze = false → s.serveMode = true →
    s.armError p = none → exec (.pcArm p peers) s = .next (s.armServe p)) ∧
  (∀ (peers : List ArmView) (img : Image) (s : State), (s.plat 0).st = 0 → s.power.doze = false → s.serveMode = false →
    s.job.active = false → s.armRefusal peers = none → s.loaded = some img → leNat (sha256 (s.load (s.odv Od.TEACHER_BASE)
    (s.odv Od.TEACHER_BYTES))) = s.odv Od.TEACHER_SHA256 → exec (.pcArm 0 peers) s = .next (s.armDistil img)) ∧
  (∀ (p e : Nat) (peers : List ArmView) (s : State), p < 1024 → (s.plat p).st = 0 → s.power.doze = false → s.serveMode = true
    → s.armError p = some e → exec (.pcArm p peers) s = .next (s.setPlat p { s.plat p with armError := e }).scaleCause) ∧
  (∀ (c : Nat) (peers : List ArmView) (s : State), (s.plat 0).st = 0 → s.power.doze = false → s.serveMode = false →
    s.job.active = false → s.armRefusal peers = some c → exec (.pcArm 0 peers) s = .next ((s.setPlat 0
    { s.plat 0 with armError := 7 }).setOd Od.ARM_REFUSE_CAUSE c)) ∧
  (∀ (p : Nat) (s : State), p < 1024 → s.serveMode = true → (s.plat p).st = 1 → (s.plat p).suspending = false → exec
    (.pcSuspend p) s = .next ((s.mapCores fun c =>
    { c with streams := c.streams.map fun e => if e.2.platform = p && (e.2.state = 1 || e.2.state = 2) then (e.1, { e.2 with state := 6, waitCtr := 0, waitConsume := false, waitT := 0 }) else e }).setPlat
    p { s.plat p with suspending := true })) ∧
  (∀ (p : Nat) (s : State), p < 1024 → (s.plat p).st = 1 → (s.plat p).suspending = true → s.quiet p = true → exec
    (.suspendComplete p) s = .next ((s.setPlat p { s.plat p with st := 2, suspending := false }).count Od.PLATFORM_SUSPENDS
    1)) ∧
  (∀ (p : Nat) (s t : State), p < 1024 → (s.plat p).st = 2 → t = s.setPlat p { s.plat p with st := 1 } → exec (.pcResume p) s
    = .next (if (s.plat p).epochStopped = true then t else t.startStreams p)) ∧
  (∀ (p : Nat) (s : State), p < 1024 → (s.plat p).st ≠ 0 → (s.plat p).service = false ∨ (s.plat p).held = false ∨ s.odv
    Od.SERVE_REQ_LIVE = 0 → exec (.pcDisarm p) s = .next (s.quiesce p)) ∧
  (∀ (p : Nat) (s : State), p < 1024 → (s.plat p).service = true → (s.plat p).held = true → s.odv Od.SERVE_REQ_LIVE ≠ 0 →
    exec (.pcDisarm p) s = .next (s.setPlat p { s.plat p with disarming := true })) ∧
  (∀ (p : Nat) (peers : List ArmView) (s : State), p < 1024 → (s.plat p).st = 0 → s.power.doze = true ∨ (s.serveMode = false
    ∧ (p ≠ 0 ∨ s.job.active = true)) → exec (.pcArm p peers) s = .next (s.setPlat p { s.plat p with armError := 7 })) ∧
  (∀ (p : Nat) (peers : List ArmView) (s : State), p < 1024 → (s.plat p).st ≠ 0 → exec (.pcArm p peers) s = .next s) ∧
  (∀ (p : Nat) (s : State), p < 1024 → s.serveMode = false ∨ (s.plat p).st ≠ 1 ∨ (s.plat p).suspending = true → exec
    (.pcSuspend p) s = .next s) ∧
  (∀ (p : Nat) (s : State), p < 1024 → (s.plat p).st ≠ 1 ∨ (s.plat p).suspending = false ∨ s.quiet p = false → exec
    (.suspendComplete p) s = .next s) ∧
  (∀ (p : Nat) (s : State), p < 1024 → (s.plat p).st ≠ 2 → exec (.pcResume p) s = .next s) ∧
  (∀ (p : Nat) (s : State), p < 1024 → (s.plat p).st = 0 → exec (.pcDisarm p) s = .next s)

/-- A register write of another size or alignment changes nothing. In BAR0 of a physical function a write at 0x40 reaches the
aperture register, one in the mailbox window the mailbox, one in the first 64 bytes of a PLATFORM_CFG block that block (and
changes it only while its Platform is DISARMED), one in a queue block that queue; in a context page that responds, through
BAR4 of a physical or BAR0 of a virtual function, it reaches the page (writePage); at any other offset of these, in a page
that does not respond, or in another BAR, it changes nothing. MBX_GO on a Ready package whose firmware runs, with no
request in service, takes the frame of the request window into service, and otherwise changes nothing. Shown to complete,
under conditions on the state and the operands alone: MBX_GO, REGISTER_WRITE. (R447, R481, R483, R484,
15_object_dictionary.md) -/
def Obligations.RegisterWritesReachTheirRegister : Prop :=
  (∀ (port vf bar offset size value : Nat) (s : State), port < 2 → vf < 64 → (size ≠ 4 ∧ size ≠ 8) ∨ offset % size ≠ 0 → exec
    (.registerWrite port vf bar offset size value) s = .next s) ∧
  (∀ (port offset size value : Nat) (s : State), port < 2 → size = 4 ∨ size = 8 → offset % size = 0 → offset / 8 = 8 → exec
    (.registerWrite port 0 0 offset size value) s = .next (s.writeAp port offset size value)) ∧
  (∀ (port offset size value : Nat) (s : State), port < 2 → size = 4 ∨ size = 8 → offset % size = 0 → 0x10000 ≤ offset →
    offset < 0x20000 → exec (.registerWrite port 0 0 offset size value) s = .next (s.writeMailbox port (offset - 0x10000)
    size value)) ∧
  (∀ (port p o size value : Nat) (s : State), port < 2 → p < 1024 → o < 64 → size = 4 ∨ size = 8 → o % size = 0 → (s.plat
    p).st = 0 → exec (.registerWrite port 0 0 (0x400000 + 128 * p + o) size value) s = .next (s.setPlat p
    { s.plat p with cfg := setBits (s.plat p).cfg (8 * (o / 8 * 8)) 64 (mergeWord (bitsOf (s.plat p).cfg (8 * (o / 8 * 8)) 64) o size value &&& bitsOf cfgMask (8 * (o / 8 * 8)) 64) })) ∧
  (∀ (port p o size value : Nat) (s : State), port < 2 → p < 1024 → o < 64 → size = 4 ∨ size = 8 → o % size = 0 → (s.plat
    p).st ≠ 0 → exec (.registerWrite port 0 0 (0x400000 + 128 * p + o) size value) s = .next s) ∧
  (∀ (port q o size value : Nat) (s : State), port < 2 → q < 4096 → o < 64 → size = 4 ∨ size = 8 → o % size = 0 → exec
    (.registerWrite port 0 0 (0x500000 + 64 * q + o) size value) s = .next (s.writeQueue q o size value)) ∧
  (∀ (port p o size value : Nat) (s : State), port < 2 → p < 1024 → o < 65536 → size = 4 ∨ size = 8 → o % size = 0 → exec
    (.registerWrite port 0 4 (65536 * p + o) size value) s = .next (s.writePage p o size value)) ∧
  (∀ (port vf p o size value : Nat) (s : State), port < 2 → vf < 64 → vf ≠ 0 → o < 65536 → size = 4 ∨ size = 8 → o % size = 0
    → s.responds port vf p = true → exec (.registerWrite port vf 0 (65536 * p + o) size value) s = .next (s.writePage p o
    size value)) ∧
  (∀ (port vf bar offset size value : Nat) (s : State), port < 2 → vf < 64 → (vf = 0 ∧ bar = 4) ∨ (vf ≠ 0 ∧ bar = 0) →
    s.responds port vf (offset / 65536) = false → exec (.registerWrite port vf bar offset size value) s = .next s) ∧
  (∀ (port vf bar offset size value : Nat) (s : State), port < 2 → vf < 64 → ¬ (vf = 0 ∧ bar = 0) ∧ ¬ (vf = 0 ∧ bar = 4) ∧ ¬
    (vf ≠ 0 ∧ bar = 0) → exec (.registerWrite port vf bar offset size value) s = .next s) ∧
  (∀ (port offset size value : Nat) (s : State), port < 2 → offset / 8 ≠ 8 → offset < 0x10000 ∨ (0x20000 ≤ offset ∧ offset <
    0x400000) ∨ (0x400000 ≤ offset ∧ offset < 0x420000 ∧ 64 ≤ offset % 128) ∨ (0x420000 ≤ offset ∧ offset < 0x500000) ∨
    0x540000 ≤ offset → exec (.registerWrite port 0 0 offset size value) s = .next s) ∧
  (∀ (port : Nat) (s : State), port < 2 → s.mailboxRuns = false ∨ (s.port port).mbxServing ≠ none → exec (.mbxGo port) s =
    .next s) ∧
  (∀ (port : Nat) (s : State), port < 2 → s.mailboxRuns = true → (s.port port).mbxServing = none → exec (.mbxGo port) s =
    .next (s.setPort port { s.port port with mbxServing := some (s.port port).window }))

/-- For every list of 2,048 16-bit codes and all bytes that follow the packed group: unpacking the packed group gives back
the codes, bit for bit, and the bytes that follow; and the group is coded (not raw) exactly when no exponent field is 255
and every exponent field is 0 or lies between the least non-zero one and that plus 14. (R186, R188) -/
def Obligations.LosslessGroupsRoundTrip : Prop :=
  ∀ (xs : List Nat) (rest : List Byte), xs.length = 2048 → (∀ x ∈ xs, x < 65536) → unpackGroup ((packGroup xs).1 ++ rest) =
    (xs, rest) ∧ ((packGroup xs).2 = false ↔ ∀ x ∈ xs, bitsOf x 7 8 ≠ 255 ∧ (bitsOf x 7 8 = 0 ∨ ∀ y ∈ xs, bitsOf y 7 8 = 0 ∨
    bitsOf x 7 8 ≤ bitsOf y 7 8 + 14))

/-- For every running island and each quantity 0 clock ratio, 1 supply, 2 temperature: after parking it for that quantity the
sticky bit of the quantity (bits 0, 1, 2) is set and ISLAND_PARK_EVENTS is one higher; where first-error capture held no
event it now holds FE_CAUSE 0x0606, the island in FE_ISLAND and the quantity in FE_DETAIL, and where it held one its cause,
island and detail are unchanged. (R47) -/
def Obligations.ParkingIsReported : Prop :=
  ∀ (i q : Nat) (s : State), q < 3 → (s.island i).parked = false → bitOf ((s.park i q).odv Od.STICKY_LOG) q = true ∧ (s.park
    i q).counted Od.ISLAND_PARK_EVENTS = s.counted Od.ISLAND_PARK_EVENTS + 1 ∧ (s.odv Od.FE_VALID ≠ 1 → (s.park i q).odv
    Od.FE_CAUSE = 0x0606 ∧ (s.park i q).odv Od.FE_ISLAND = i ∧ bitsOf ((s.park i q).odv Od.FE_DETAIL) 0 16 = q) ∧ (s.odv
    Od.FE_VALID = 1 → (s.park i q).odv Od.FE_CAUSE = s.odv Od.FE_CAUSE ∧ (s.park i q).odv Od.FE_ISLAND = s.odv Od.FE_ISLAND ∧
    (s.park i q).odv Od.FE_DETAIL = s.odv Od.FE_DETAIL)

/-- For powered neighbours: with clocks within 4:1, supplies within 150 mV and temperatures within 35 degrees nothing
changes; with only the temperatures further apart the hotter island is parked for temperature (on a tie the one that the
tie rule of R45 names); with only the supplies further apart the one further from its set point, for supply; with only the
clock ratio exceeded the one further below its set clock as a fraction of it, for clock ratio. A parked island within
ISLAND_PARK_LIMIT resumes once its crossings have been back within 3.8:1, 130 mV and 30 degrees for 50 us, or 1 ms where
temperature parked it, and what waited at its Junction goes on; until then it stays parked. An island other than a Linam
port that stays parked longer than ISLAND_PARK_LIMIT: every job and context with work on it faults with ISLAND_PARK_LIMIT
(0x0601); a core is quarantined and its slot recorded for the Depot, any other island stays parked until the next warm
reset. Within the limit nothing changes. A powered island without queued work for 1 us is idle; new work makes it not idle;
neither changes anything else; earlier, or with a stream of the core READY, nothing changes. Shown to complete, under
conditions on the state and the operands alone: ISLAND_LIMIT_CHECK, ISLAND_RESUME, ISLAND_PARK_LIMIT, IDLE_ENTRY,
IDLE_EXIT. (R44, R45, R46, R48, R49, R50, R597) -/
def Obligations.IslandsParkResumeAndIdle : Prop :=
  (∀ (a b ca cb va vb : Nat) (ta tb : Int) (s : State), islandOk a = true → islandOk b = true → s.neighbours a b = true →
    s.islandPowered a = true → s.islandPowered b = true → Nat.max ca cb ≤ 4 * Nat.min ca cb → absDiff va vb ≤ 150 → (ta -
    tb).natAbs ≤ 35 → exec (.islandLimitCheck a b ca cb va vb ta tb) s = .next s) ∧
  (∀ (a b ca cb va vb : Nat) (ta tb : Int) (s : State), islandOk a = true → islandOk b = true → s.neighbours a b = true →
    s.islandPowered a = true → s.islandPowered b = true → Nat.max ca cb ≤ 4 * Nat.min ca cb → absDiff va vb ≤ 150 → 35 < (ta
    - tb).natAbs → exec (.islandLimitCheck a b ca cb va vb ta tb) s = .next (s.park (parkChoice a b ta tb) 2) ∧ (tb < ta →
    parkChoice a b ta tb = a) ∧ (ta < tb → parkChoice a b ta tb = b)) ∧
  (∀ (a b ca cb va vb : Nat) (ta tb : Int) (s : State), islandOk a = true → islandOk b = true → s.neighbours a b = true →
    s.islandPowered a = true → s.islandPowered b = true → Nat.max ca cb ≤ 4 * Nat.min ca cb → 150 < absDiff va vb → (ta -
    tb).natAbs ≤ 35 → exec (.islandLimitCheck a b ca cb va vb ta tb) s = .next (s.park (parkChoice a b (absDiff va
    (s.setPoint a) : Nat) (absDiff vb (s.setPoint b) : Nat)) 1)) ∧
  (∀ (a b ca cb va vb : Nat) (ta tb : Int) (s : State), islandOk a = true → islandOk b = true → s.neighbours a b = true →
    s.islandPowered a = true → s.islandPowered b = true → 4 * Nat.min ca cb < Nat.max ca cb → absDiff va vb ≤ 150 → (ta -
    tb).natAbs ≤ 35 → exec (.islandLimitCheck a b ca cb va vb ta tb) s = .next (s.park (parkChoice a b (((s.setClock a : Int)
    - ca) * (s.setClock b : Int)) (((s.setClock b : Int) - cb) * (s.setClock a : Int))) 0)) ∧
  (∀ (i us fast slow sd td : Nat) (s : State), islandOk i = true → (s.island i).parked = true → bitOf (s.island i).cause 3 =
    false → backWithin fast slow sd td = true → (if bitOf (s.island i).cause 2 then 1000 else 50) ≤ us → dieOfIsland i = none
    → exec (.islandResume i us fast slow sd td) s = .next (s.setIsland i { s.island i with parked := false, cause := 0 })) ∧
  (∀ (i us fast slow sd td d : Nat) (s : State), islandOk i = true → (s.island i).parked = true → bitOf (s.island i).cause 3
    = false → backWithin fast slow sd td = true → (if bitOf (s.island i).cause 2 then 1000 else 50) ≤ us → dieOfIsland i =
    some d → exec (.islandResume i us fast slow sd td) s = .next ((s.setIsland i
    { s.island i with parked := false, cause := 0 }).jctSettle d)) ∧
  (∀ (i us fast slow sd td : Nat) (s : State), islandOk i = true → (s.island i).parked = true → bitOf (s.island i).cause 3 =
    false → us < (if bitOf (s.island i).cause 2 then 1000 else 50) ∨ 38 * slow < 10 * fast ∨ 130 < sd ∨ 30 < td → exec
    (.islandResume i us fast slow sd td) s = .next s) ∧
  (∀ (i ms : Nat) (s : State), islandOk i = true → (s.island i).parked = true → bitOf (s.island i).cause 3 = false → s.odv
    Od.ISLAND_PARK_LIMIT < ms → islCode i ≠ 7 → islCode i ≠ 0 → exec (.islandParkLimit i ms) s = .next (((s.workOnIsland
    i).foldl (fun (s : State) p => s.faultOwner p 0 { cause := 0x0601, island := i }) s).setIsland i
    { s.island i with cause := (s.island i).cause ||| beyondLimit })) ∧
  (∀ (i ms : Nat) (s u : State), islandOk i = true → (s.island i).parked = true → bitOf (s.island i).cause 3 = false → s.odv
    Od.ISLAND_PARK_LIMIT < ms → islCode i = 0 → (u = ((s.workOnIsland i).foldl (fun (s : State) p => s.faultOwner p 0
    { cause := 0x0601, island := i }) s).setIsland i { s.island i with cause := (s.island i).cause ||| beyondLimit }) → exec
    (.islandParkLimit i ms) s = .next ((u.setCore (islInst i) { u.core (islInst i) with quarantined := true }).record
    (.coreSlot (islInst i)))) ∧
  (∀ (i ms : Nat) (s : State), islandOk i = true → ms ≤ s.odv Od.ISLAND_PARK_LIMIT → exec (.islandParkLimit i ms) s = .next
    s) ∧
  (∀ (i ns : Nat) (s : State), islandOk i = true → s.islandPowered i = true → 1000 ≤ ns → (islCode i ≠ 0 ∨ (s.core (islInst
    i)).streams.all (fun e => e.2.state != 1) = true) → exec (.idleEntry i ns) s = .next (s.setIsland i
    { s.island i with idle := true })) ∧
  (∀ (i ns : Nat) (s : State), islandOk i = true → (s.islandPowered i = false ∨ ns < 1000 ∨ (islCode i = 0 ∧ (s.core (islInst
    i)).streams.any (fun e => e.2.state = 1) = true)) → exec (.idleEntry i ns) s = .next s) ∧
  (∀ (i : Nat) (s : State), islandOk i = true → exec (.idleExit i) s = .next (s.setIsland i
    { s.island i with idle := false }))

/-- ARRAY_DETECTED_ERROR at a cell of the 130 by 130 array onto which a logical cell is mapped sets ARRAY_CELL_ERROR and
counts the error at that cell; a tile that drains into the Junction meets it (drainError: replayed once, or abandoned when
outputs have left), and otherwise it is left for the next tile of that array; the second at one cell also quarantines the
core and records a repair (repairCell), a spare row while fewer than two are used or recorded. At a spare or disabled cell
nothing changes. TURNTABLE_DETECTED_ERROR leaves the error for the block of the next Turntable move of that die, and
remembers whether the block meets a second one. Shown to complete, under conditions on the state and the operands alone:
ARRAY_DETECTED_ERROR, TURNTABLE_DETECTED_ERROR. (R82, R84, R85, R86, R88, R183) -/
def Obligations.DetectedErrorsWaitForTheirTileOrBlock : Prop :=
  (∀ (c a row col out : Nat) (s : State), c < 288 → a < 4 → row < 130 → col < 130 → s.cellMapped c a row col = true → tabGet
    0 (s.array c a).cellErrors (130 * row + col) ≠ 1 → (s.array c a).running = none → exec (.arrayDetectedError c a (130 *
    row + col) row col out) s = .next ((s.setArray c a
    { s.array c a with cellErrors := tabSet (s.array c a).cellErrors (130 * row + col) (tabGet 0 (s.array c a).cellErrors (130 * row + col) + 1), armed := (s.array c a).armed ++ [{ cell := 130 * row + col, row := row, col := col, out := out }] }).sticky
    6)) ∧
  (∀ (c a row col out : Nat) (it : Issue) (s : State), c < 288 → a < 4 → row < 130 → col < 130 → s.cellMapped c a row col =
    true → tabGet 0 (s.array c a).cellErrors (130 * row + col) ≠ 1 → (s.array c a).running = some it → exec
    (.arrayDetectedError c a (130 * row + col) row col out) s = .next (((s.setArray c a
    { s.array c a with cellErrors := tabSet (s.array c a).cellErrors (130 * row + col) (tabGet 0 (s.array c a).cellErrors (130 * row + col) + 1) }).drainError
    c a it).sticky 6)) ∧
  (∀ (c a row col out : Nat) (s u : State), c < 288 → a < 4 → row < 130 → col < 130 → s.cellMapped c a row col = true →
    tabGet 0 (s.array c a).cellErrors (130 * row + col) = 1 → (s.array c a).running = none → u = ((s.setArray c a
    { s.array c a with cellErrors := tabSet (s.array c a).cellErrors (130 * row + col) (tabGet 0 (s.array c a).cellErrors (130 * row + col) + 1), armed := (s.array c a).armed ++ [{ cell := 130 * row + col, row := row, col := col, out := out }] }).sticky
    6).quarantine c → exec (.arrayDetectedError c a (130 * row + col) row col out) s = .next (u.repairCell c a row col) ∧
    (u.depot.pending = [] → (u.array c a).spareRows < 2 → u.repairCell c a row col = u.record (.arrayRow c a row))) ∧
  (∀ (c a row col out : Nat) (s : State), c < 288 → a < 4 → row < 130 → col < 130 → s.cellMapped c a row col = false → exec
    (.arrayDetectedError c a (130 * row + col) row col out) s = .next s) ∧
  (∀ (die block : Nat) (again : Bool) (s : State), die < 48 → exec (.turntableDetectedError die block again) s = .next
    (s.setDie die
    { s.die die with ttErrors := (s.die die).ttErrors.filter (fun e => e.1 != block) ++ [(block, again || (s.die die).ttErrors.any fun e => e.1 = block)] }))

/-- A watched rail or regulator below its warning level sets its sticky bit and counts SUPPLY_WARNINGS; where it was not
already low it is held low, and counted in UMBER_SUPPLY_ENTRIES where it places an island in Umber (VIN_MAIN, or the
regulator of a core). Above warning plus hysteresis for UMBER_RECOVERY_US it is low no longer. Below its reset level a main
rail causes a cold reset, a regulator sets REGULATOR_FAILURE, records its unit and causes one, and VAUX leaves the package
unpowered. A report below 100 degrees of a powered island only stands as its latest report; from 100 to 114 it also sets
THERMAL_WARN and holds a core island in Umber, counted once; at 115 or above the package trips: THERMAL_TRIP is set,
everything running faults with CONTROL_WATCHDOG (0x0602, the cause of Standby; log entry 66), the main rails are off and
Run is refused. At or below 95 degrees for 1 ms the thermal cause clears; 60 s after a trip Run is allowed again. A power
sample stands in PACKAGE_POWER_W; one above 1.25 times the limit sets POWER_FAST_THROTTLE and throttles the next 10
samples. Shown to complete, under conditions on the state and the operands alone: POWER_SAMPLE, SUPPLY_WARNING,
SUPPLY_RECOVERY, THERMAL_SAMPLE, THERMAL_EXIT, THERMAL_TRIP_HOLDOFF, RAIL_BELOW_RESET. (R592, R593, R595, R596, R609, R591,
R599, R632) -/
def Obligations.SuppliesTemperatureAndPowerAreWatched : Prop :=
  (∀ (x : Supply) (mv : Nat) (s u : State), supplyOk x = true → s.watched x = true → mv < (s.levels x).1 → u = (s.sticky
    (warnBit x)).count Od.SUPPLY_WARNINGS 1 → u.power.low.contains x = false → placesUmber x = true → exec (.supplyWarning x
    mv) s = .next { u.count Od.UMBER_SUPPLY_ENTRIES 1 with power := { u.power with low := u.power.low ++ [x] } }) ∧
  (∀ (x : Supply) (mv : Nat) (s u : State), supplyOk x = true → s.watched x = true → mv < (s.levels x).1 → u = (s.sticky
    (warnBit x)).count Od.SUPPLY_WARNINGS 1 → u.power.low.contains x = false → placesUmber x = false → exec (.supplyWarning x
    mv) s = .next { u with power := { u.power with low := u.power.low ++ [x] } }) ∧
  (∀ (x : Supply) (mv : Nat) (s u : State), supplyOk x = true → s.watched x = true → mv < (s.levels x).1 → u = (s.sticky
    (warnBit x)).count Od.SUPPLY_WARNINGS 1 → u.power.low.contains x = true → exec (.supplyWarning x mv) s = .next u) ∧
  (∀ (x : Supply) (mv us : Nat) (s : State), supplyOk x = true → (s.levels x).1 + (s.levels x).2.2 < mv → s.odv
    Od.UMBER_RECOVERY_US ≤ us → exec (.supplyRecovery x mv us) s = .next
    { s with power := { s.power with low := s.power.low.filter (· != x) } }) ∧
  (∀ (n mv : Nat) (dies : DieReport) (s : State), n < 4 → n ≠ 1 → s.watched (.rail n) = true → mv < (s.levels (.rail n)).2.1
    → exec (.railBelowReset (.rail n) mv dies) s = .next ((s.withReport dies).sticky 37).coldReset) ∧
  (∀ (i mv : Nat) (dies : DieReport) (s : State), islandOk i = true → s.watched (.regulator i) = true → mv < (s.levels
    (.regulator i)).2.1 → exec (.railBelowReset (.regulator i) mv dies) s = .next ((((s.withReport dies).sticky 37).sticky
    38).recordRegulator i).coldReset) ∧
  (∀ (mv : Nat) (dies : DieReport) (s : State), s.power.vaux = true → mv < 2900 → ∃ t, exec (.railBelowReset (.rail 1) mv
    dies) s = .next t ∧ t.power.vaux = false ∧ t.power.mainEn = false ∧ t.mem = []) ∧
  (∀ (i : Nat) (t : Int) (s : State), islandOk i = true → s.islandPowered i = true → t < 100 → exec (.thermalSample i t) s =
    .next (s.setIsland i { s.island i with celsius := some t })) ∧
  (∀ (i : Nat) (c : Int) (s : State), islandOk i = true → s.islandPowered i = true → 100 ≤ c → c < 115 → ∃ t, exec
    (.thermalSample i c) s = .next t ∧ t.island i = { s.island i with celsius := some c, umberThermal := true } ∧ bitOf
    (t.odv Od.STICKY_LOG) 39 = true ∧ t.counted Od.UMBER_THERMAL_ENTRIES = s.counted Od.UMBER_THERMAL_ENTRIES + (if islCode i
    = 0 && !(s.island i).umberThermal then 1 else 0) ∧ t.power = s.power ∧ t.mem = s.mem) ∧
  (∀ (i : Nat) (c : Int) (s u : State), islandOk i = true → s.islandPowered i = true → 115 ≤ c → u = (((if islCode i = 0 &&
    !(s.island i).umberThermal then ((s.setIsland i { s.island i with celsius := some c, umberThermal := true }).sticky
    39).count Od.UMBER_THERMAL_ENTRIES 1 else ((s.setIsland i
    { s.island i with celsius := some c, umberThermal := true }).sticky 39)).sticky 40).capture
    { cause := 0x0602, island := i }).faultAll { cause := 0x0602, island := i } → ∃ t, exec (.thermalSample i c) s = .next t
    ∧ t =
    { (if u.power.mainEn then u.mainDown else u) with power := { (if u.power.mainEn then u.mainDown else u).power with trip := true } }
    ∧ t.power.mainEn = false ∧ t.powerState = 3 ∧ t.power.trip = true ∧ (t.powerRequest 0).1 = stUnavailable ∧ bitOf (t.odv
    Od.STICKY_LOG) 40 = true) ∧
  (∀ (i us : Nat) (c : Int) (s : State), islandOk i = true → c ≤ 95 → 1000 ≤ us → exec (.thermalExit i c us) s = .next
    (s.setIsland i { s.island i with umberThermal := false })) ∧
  (∀ (sec : Nat) (s : State), 60 ≤ sec → exec (.thermalTripHoldoff sec) s = .next
    { s with power := { s.power with trip := false } }) ∧
  (∀ (avg w : Nat) (s : State), s.power.mainEn = true → s.power.vinGood = true → 5 * s.powerLimit < 4 * w → ∃ t, exec
    (.powerSample avg w) s = .next t ∧ t.power.fast = 10 ∧ bitOf (t.odv Od.STICKY_LOG) 41 = true ∧ t.odv Od.PACKAGE_POWER_W =
    avg ∧ t.counted Od.POWER_THROTTLE_US = s.counted Od.POWER_THROTTLE_US + 1 ∧ t.mem = s.mem) ∧
  (∀ (avg w : Nat) (s : State), s.power.mainEn = true → s.power.vinGood = true → 4 * w ≤ 5 * s.powerLimit → s.power.throttle
    = 0 → avg ≤ s.powerLimit → s.power.fast ≤ 1 → exec (.powerSample avg w) s = .next
    ({ s with power := { s.power with fast := 0, samples := (s.power.samples + 1) % 100 } }.setOd Od.PACKAGE_POWER_W avg))

/-- VAUX above 3.15 V starts an unpowered package by a cold reset; an active control die silent for 2 s hands over to the
other, and where that one is unfit ACTIVE_CONTROL_DIE reads 0xFF and MAIN_EN is low; where none is active, the responder of
CD1 takes over after a further 2 s (fallBack). VIN_PGOOD with every main rail high enough starts the monitors.
PACKAGE_READY of a running start-up makes the package Ready, takes over the modules that the DDR5 controllers found, and
ends retry status on both ports. PERST_DEASSERT clears the pin and ends the hold of a warm reset. Run out of Standby
asserts MAIN_EN and out of Doze leaves it; Doze of a Ready package with nothing armed enters Doze; Standby of a Ready
package takes its main rails down; POWER_PROFILE takes 0, 1 or 2 and refuses any other value. Shown to complete, under
conditions on the state and the operands alone: POWER_PROFILE, POWER_STATE_RUN, POWER_STATE_DOZE, POWER_STATE_STANDBY,
CONTROL_DIE_REPORT_TIMEOUT, VAUX_RISE, PACKAGE_READY, PERST_DEASSERT, VIN_PGOOD_ASSERT. (R38, R39, R503, R590, R598, R600,
R603, R604) -/
def Obligations.StartUpAndPowerStates : Prop :=
  (∀ (mv : Nat) (dies : DieReport) (s : State), s.power.vaux = false → 3150 < mv → exec (.vauxRise mv dies) s = .next
    { s with power := { s.power with vaux := true, report := dies } }.coldReset) ∧
  (∀ (mv : Nat) (dies : DieReport) (s : State), s.power.vaux = true ∨ mv ≤ 3150 → exec (.vauxRise mv dies) s = .next s) ∧
  (∀ (ms : Nat) (s : State), s.power.awaiting = true → 2000 ≤ ms → s.odv Od.ACTIVE_CONTROL_DIE ≠ 0xFF → exec
    (.controlDieReportTimeout ms) s = .next (s.handOver (1 - s.odv Od.ACTIVE_CONTROL_DIE)).autoRun ∧ (s.controlUnfit (1 -
    s.odv Od.ACTIVE_CONTROL_DIE) = true → (s.handOver (1 - s.odv Od.ACTIVE_CONTROL_DIE)).autoRun.odv Od.ACTIVE_CONTROL_DIE =
    0xFF ∧ (s.handOver (1 - s.odv Od.ACTIVE_CONTROL_DIE)).autoRun.power.mainEn = false)) ∧
  (∀ (ms : Nat) (s : State), s.power.awaiting = true → 2000 ≤ ms → s.odv Od.ACTIVE_CONTROL_DIE = 0xFF → exec
    (.controlDieReportTimeout ms) s = .next s.fallBack) ∧
  (∀ (vin vddq vio : Nat) (s : State), s.power.mainEn = true → s.power.vinGood = false → 5700 ≤ vin → 1070 ≤ vddq → 1740 ≤
    vio → exec (.vinPgoodAssert vin vddq vio) s = .next { s with power := { s.power with vinGood := true } }) ∧
  (∀ (ds : List Dimm) (bad : List (Nat × Nat)) (lines : List FailedLine) (s : State), (∀ x ∈ lines, x.core < 288 ∧ x.array <
    4 ∧ x.line < 130) → s.power.mainEn = true → s.power.vinGood = true → s.power.boot = 1 → s.power.awaiting = false →
    s.power.warm = false → s.power.ready = false → ∃ t, exec (.packageReady ds bad lines) s = .next t ∧ t.power.ready = true
    ∧ t.power.dimms = ds ∧ t.odv Od.DDR5_TIER_STATE = tierOf ds ∧ (t.port 0).retry = false ∧ (t.port 1).retry = false) ∧
  (∀ (port : Nat) (s : State), port < 2 → exec (.perstDeassert port) s = .next
    { s.setPort port { s.port port with perst := false } with power := { s.power with warm := false } }) ∧
  (∀ (s : State), s.Managed → s.power.mainEn = false → s.power.trip = false → exec .powerStateRun s = .next s.mainDomainStart
    ∧ s.mainDomainStart.power.mainEn = true ∧ s.mainDomainStart.power.vinGood = false) ∧
  (∀ (s : State), s.Managed → s.power.mainEn = true → s.power.ready = true → s.power.doze = true → exec .powerStateRun s =
    .next s.leaveDoze ∧ s.leaveDoze.power.doze = false) ∧
  (∀ (s : State), s.Managed → s.power.mainEn = true → s.power.ready = true → s.power.doze = false → s.anyArmed = false → exec
    .powerStateDoze s = .next s.enterDoze ∧ s.enterDoze.powerState = 2) ∧
  (∀ (s : State), s.Managed → s.power.mainEn = true → s.power.ready = true → s.power.doze = false → s.anyArmed = true → exec
    .powerStateDoze s = .next s) ∧
  (∀ (s : State), s.Managed → s.power.mainEn = true → s.power.ready = true → ∃ t, exec .powerStateStandby s = .next t ∧
    t.powerState = 3 ∧ t.mem = [] ∧ t.plats = [] ∧ t.odv Od.POWER_PROFILE = s.odv Od.POWER_PROFILE) ∧
  (∀ (v : Nat) (s : State), s.Managed → v ≤ 2 → exec (.powerProfile v) s = .next (s.setOd Od.POWER_PROFILE v)) ∧
  (∀ (v : Nat) (s : State), v < 256 → 2 < v → exec (.powerProfile v) s = .next s)

/-- While MAIN_EN is high and VIN_PGOOD has not been asserted: where 50 ms have passed, and where VIN_PGOOD is asserted with
VIN_MAIN below 5,700 mV, VDDQ_DDR below 1,070 mV or VIO below 1,740 mV (warning plus hysteresis), MAIN_EN is deasserted,
the sticky bit MAIN_RAIL_FAIL (42) is set and POWER_STATE reads Standby (3). Shown to complete, under conditions on the
state and the operands alone: MAIN_RAIL_START_TIMEOUT, VIN_PGOOD_ASSERT. (R602) -/
def Obligations.FailedStartStaysInStandby : Prop :=
  (∀ (ms : Nat) (s : State), s.power.mainEn = true → s.power.vinGood = false → 50 ≤ ms → ∃ t, exec (.mainRailStartTimeout ms)
    s = .next t ∧ t.power.mainEn = false ∧ bitOf (t.odv Od.STICKY_LOG) 42 = true ∧ t.powerState = 3) ∧
  (∀ (vin vddq vio : Nat) (s : State), s.power.mainEn = true → s.power.vinGood = false → vin < 5700 ∨ vddq < 1070 ∨ vio <
    1740 → ∃ t, exec (.vinPgoodAssert vin vddq vio) s = .next t ∧ t.power.mainEn = false ∧ bitOf (t.odv Od.STICKY_LOG) 42 =
    true ∧ t.powerState = 3)

/-- Run (0) of a package in Run or Idle, Doze (2) of one in Doze and Standby (3) of one in Standby, with no start or reset
under way, answer OK and change nothing. (R649) -/
def Obligations.NamingThePresentPowerStateHasNoEffect : Prop :=
  (∀ (s : State), s.inTransition = false → s.powerState = 0 ∨ s.powerState = 1 → s.powerRequest 0 = (stOk, s) ∧ exec
    .powerStateRun s = .next s) ∧
  (∀ (s : State), s.inTransition = false → s.powerState = 2 → s.powerRequest 2 = (stOk, s) ∧ exec .powerStateDoze s = .next
    s) ∧
  (∀ (s : State), s.inTransition = false → s.powerState = 3 → s.powerRequest 3 = (stOk, s) ∧ exec .powerStateStandby s =
    .next s)

/-- Both PERST# asserted, and PACKAGE_RESET 1, warm-reset a package whose main domain is up: it is not Ready, no context is
armed, no change is staged, and where no retirement is recorded or due and the main rails stay up, HBM and DDR5 keep every
byte. Both PERST# in Standby only assert the pins. PACKAGE_RESET 2 and VIN_PGOOD low for 1 us (which sets SUPPLY_RESET)
cold-reset it: memory lists nothing and no change is staged; a shorter fall does nothing. A watchdog expiry after 500 ms
without progress, and no earlier, or an uncorrectable error of a control core sets its sticky bit, faults everything
running and warm-resets. Shown to complete, under conditions on the state and the operands alone: PACKAGE_WARM_RESET,
PACKAGE_RESET_WARM, PACKAGE_RESET_COLD, CONTROL_WATCHDOG, CONTROL_MEMORY, VIN_PGOOD_DROP. (R36, R37, R576, R596, R604,
R605, R606, R607, R608, R618) -/
def Obligations.ResetsKeepWhatTheySay : Prop :=
  (∀ (dies : DieReport) (s u : State), s.power.mainEn = true → u = (s.setPort 0 { s.port 0 with perst := true }).setPort 1
    { s.port 1 with perst := true } → ∃ t, exec (.packageWarmReset dies) s = .next t ∧ t =
    { u with power := { u.power with warm := true, report := dies } }.warmReset ∧ t.power.ready = false ∧ t.plats = [] ∧
    t.security.staged = none) ∧
  (∀ (dies : DieReport) (s : State), s.power.mainEn = false → exec (.packageWarmReset dies) s = .next ((s.setPort 0
    { s.port 0 with perst := true }).setPort 1 { s.port 1 with perst := true })) ∧
  (∀ (dies : DieReport) (s : State), s.Managed → s.power.mainEn = true → ∃ t, exec (.packageResetWarm dies) s = .next t ∧ t =
    (s.withReport dies).writtenWarm ∧ t.power.ready = false ∧ t.plats = [] ∧ t.security.staged = none) ∧
  (∀ (s : State), s.depot.pending = [] → s.depot.corrected = [] → s.warmReset.power.mainEn = true → ∀ a, a < 2 ^ 57 →
    s.warmReset.byteAt a = s.byteAt a) ∧
  (∀ (dies : DieReport) (s : State), s.Managed → ∃ t, exec (.packageResetCold dies) s = .next t ∧ t = (s.withReport
    dies).coldReset ∧ t.power.ready = false ∧ t.mem = [] ∧ t.plats = [] ∧ t.security.staged = none) ∧
  (∀ (ns : Nat) (dies : DieReport) (s : State), s.power.mainEn = true → s.power.vinGood = true → 1000 ≤ ns → ∃ t, exec
    (.vinPgoodDrop ns dies) s = .next t ∧ t = ((s.withReport dies).sticky 37).coldReset ∧ t.power.ready = false ∧ t.mem = []
    ∧ t.plats = [] ∧ t.security.staged = none) ∧
  (∀ (ns : Nat) (dies : DieReport) (s : State), ns < 1000 → exec (.vinPgoodDrop ns dies) s = .next s) ∧
  (∀ (ms : Nat) (dies : DieReport) (s : State), s.Managed → s.power.mainEn = true → s.power.vinGood = true → 500 ≤ ms → ∃ t,
    exec (.controlWatchdog ms dies) s = .next t ∧ t = (((s.withReport dies).sticky 3).faultAll
    { cause := 0x0602, island := 0xB000 }).warmReset ∧ t.power.ready = false ∧ t.plats = [] ∧ t.job.active = false) ∧
  (∀ (ms : Nat) (dies : DieReport) (s : State), ms < 500 → exec (.controlWatchdog ms dies) s = .next s) ∧
  (∀ (dies : DieReport) (s : State), s.Managed → s.power.mainEn = true → s.power.vinGood = true → ∃ t, exec (.controlMemory
    dies) s = .next t ∧ t = (((s.withReport dies).sticky 4).faultAll { cause := 0x0603, island := 0xB000 }).warmReset ∧
    t.power.ready = false ∧ t.plats = [] ∧ t.job.active = false)

/-- For a request that waits in a mailbox of a Ready package or has reached the serving UDP port: OD_READ serves READ frames,
OD_WRITE writes of ordinary entries, both malformed frames; DOMAIN_SEGMENT_WRITE segments of DOMAIN values and of
FW_UPDATE; MCTP its packets; RW2_WRITE every write of a protection entry, and AUTH_CANCEL, KEY_ENROL (while unowned),
OWNERSHIP_RELEASE, DEBUG_UNLOCK and FW_UPDATE those of their entries. The mailbox answers in MBX_RESPONSE, ends MBX_BUSY
and counts MBX_SERVED; TODP queues its response, keeps it and counts it, and a repeated transaction gets the kept response
without being carried out. DISCOVER is answered by ANNOUNCE. A SECURED message that no session opens is counted only; a
READ inside a session is answered inside it. Shown to complete, under conditions on the state and the operands alone:
OD_READ, OD_WRITE, DOMAIN_SEGMENT_WRITE, DISCOVER, MCTP, SECURED, RW2_WRITE, AUTH_CANCEL, KEY_ENROL, OWNERSHIP_RELEASE,
DEBUG_UNLOCK, FW_UPDATE. (R519, R531, R532, R533, R534, R569, R572, R577, R584, R587) -/
def Obligations.RequestsAreServedOnTheirPath : Prop :=
  (∀ (path : OdPath) (bs : List Byte) (s : State), s.Requested path bs → frameKind path.isTodp bs = .read ∨ frameKind
    path.isTodp bs = .bad → exec (.odRead path bs) s = .next (s.answered path bs)) ∧
  (∀ (path : OdPath) (bs : List Byte) (s : State), s.Requested path bs → frameKind path.isTodp bs = .write ∨ frameKind
    path.isTodp bs = .bad → exec (.odWrite path bs) s = .next (s.answered path bs)) ∧
  (∀ (path : OdPath) (bs : List Byte) (s : State), s.Requested path bs → frameKind path.isTodp bs = .domain ∨ frameKind
    path.isTodp bs = .firmware → exec (.domainSegmentWrite path bs) s = .next (s.answered path bs)) ∧
  (∀ (path : OdPath) (bs : List Byte) (s : State), s.Requested path bs → frameKind path.isTodp bs = .mctp → exec (.mctp path
    bs) s = .next (s.answered path bs)) ∧
  (∀ (path : OdPath) (bs : List Byte) (s : State), s.Requested path bs → frameKind path.isTodp bs = .rw2 → exec (.rw2Write
    path bs) s = .next (s.answered path bs)) ∧
  (∀ (path : OdPath) (bs : List Byte) (s : State), s.Requested path bs → frameKind path.isTodp bs = .rw2 → tpKey bs =
    Od.AUTH_CANCEL → exec (.authCancel path bs) s = .next (s.answered path bs)) ∧
  (∀ (path : OdPath) (bs : List Byte) (s : State), s.Requested path bs → frameKind path.isTodp bs = .rw2 → tpKey bs =
    Od.OWNER_KEY ∨ tpKey bs = Od.OPERATOR_KEY → s.owned = false → exec (.keyEnrol path bs) s = .next (s.answered path bs)) ∧
  (∀ (path : OdPath) (bs : List Byte) (s : State), s.Requested path bs → frameKind path.isTodp bs = .rw2 → tpKey bs =
    Od.OWNERSHIP_RELEASE → exec (.ownershipRelease path bs) s = .next (s.answered path bs)) ∧
  (∀ (path : OdPath) (bs : List Byte) (s : State), s.Requested path bs → frameKind path.isTodp bs = .rw2 → tpKey bs =
    Od.DEBUG_UNLOCK → exec (.debugUnlock path bs) s = .next (s.answered path bs)) ∧
  (∀ (path : OdPath) (bs : List Byte) (s : State), s.Requested path bs → frameKind path.isTodp bs = .firmware → tpKey bs =
    Od.FW_UPDATE → exec (.fwUpdate path bs) s = .next (s.answered path bs)) ∧
  (∀ (p : Nat) (bs : List Byte) (s : State) (a : Answer), s.Requested (.mailbox p) bs → a = s.serveOne (s.mailboxRole bs)
    (.mailbox p) bs → resetWrite (s.mailboxRole bs) false bs = false → (a.state.port p).mbxServing = some bs → ((s.answered
    (.mailbox p) bs).port p).mbxServing = none ∧ ((s.answered (.mailbox p) bs).port p).mbxResponse = tpResponse bs a.status
    a.ty a.data ∧ bitOf ((s.answered (.mailbox p) bs).port p).mbxCtrl 2 = true ∧ (s.answered (.mailbox p) bs).odv
    Od.MBX_SERVED = a.state.odv Od.MBX_SERVED + 1) ∧
  (∀ (a u : Nat) (bs : List Byte) (s t : State) (x : Answer), s.Requested (.todp a u) bs → s.keptResponse a (tpXid bs) = none
    → t = s.count Od.FN_FRAMES_RX 1 → x = t.serveOne .reader (.todp a u) bs → s.answered (.todp a u) bs = x.state.todpAnswer
    a u (tpXid bs) x.status (tpResponse bs x.status x.ty x.data) (settlesWrite true bs x.status)) ∧
  (∀ (a u : Nat) (bs r : List Byte) (s : State), s.Requested (.todp a u) bs → s.keptResponse a (tpXid bs) = some r →
    s.answered (.todp a u) bs = ((s.count Od.FN_FRAMES_RX 1).fnQueue (.todp (.todp a u) r) false).count Od.TODP_DUPLICATES 1) ∧
  (∀ (a u : Nat) (bs : List Byte) (s : State), s.Requested (.todp a u) bs → frameKind true bs = .discover → s.keptResponse a
    (tpXid bs) = none → s.power.boot = 1 → exec (.discover a u bs) s = .next ((s.count Od.FN_FRAMES_RX 1).todpAnswer a u
    (tpXid bs) stOk ((s.count Od.FN_FRAMES_RX 1).announce bs) false)) ∧
  (∀ (a u : Nat) (bs : List Byte) (s t : State), s.Requested (.todp a u) bs → frameKind true bs = .secured → s.keptResponse a
    (tpXid bs) = none → s.power.boot = 1 → t = s.count Od.FN_FRAMES_RX 1 → exec (.secured (.todp a u) bs) s = .next
    (t.serveSecured a u bs) ∧ (t.openSecured (.todp a u) (tpData bs) = none → t.serveSecured a u bs = t) ∧ (∀ x m r,
    t.openSecured (.todp a u) (tpData bs) = some (x, m) → frameKind true m = .read → r = t.serveRead m → t.serveSecured a u
    bs = t.todpAnswer a u (tpXid bs) r.status (tpResponse bs stOk 0 (Config.securedSeal x.secret (tpResponse m r.status r.ty
    r.data))) false))

/-- For every request to running firmware: a READ of an entry that exists, with type 0 or its type, offset 0 and no LAST,
answers OK with its type and its value and changes nothing; a READ or WRITE of no entry answers NO_ENTRY, a WRITE of a
CONST or RO entry READ_ONLY, one by a role that may not ACCESS_DENIED, one of another type TYPE_MISMATCH, none changing
anything. A WRITE of a serving, barrier, ring or share-weight setting that answers OK makes the entry read its value and
changes no other entry and no memory; one that answers anything else changes nothing. A closed write of a protection entry
is given to its two-party rules whole. (R509, R510, R511, R512, R514, R519, R572) -/
def Obligations.ReadsAndWritesAnswerAsTheEntryAllows : Prop :=
  (∀ (bs : List Byte) (i : OdInfo) (s : State), odInfo (tpKey bs) = some i → s.power.boot = 1 → tpType bs = 0 ∨ tpType bs =
    i.ty.code → i.ty ≠ .domain → tpOffset bs = 0 → tpLast bs = false → s.serveRead bs =
    { status := stOk, ty := i.ty.code, data := s.entryBytes (tpKey bs) i, state := s }) ∧
  (∀ (bs : List Byte) (role : Role) (path : Nat) (s : State), odInfo (tpKey bs) = none → (s.serveRead bs).status = stNoEntry
    ∧ (s.serveRead bs).state = s ∧ s.serveWrite role path bs = (stNoEntry, s)) ∧
  (∀ (bs : List Byte) (role : Role) (path : Nat) (i : OdInfo) (s : State), odInfo (tpKey bs) = some i → s.power.boot = 1 →
    ((i.acc = .const ∨ i.acc = .ro) → s.serveWrite role path bs = (stReadOnly, s)) ∧ (i.acc ≠ .const → i.acc ≠ .ro →
    role.mayWrite (tpKey bs) i.acc = false → s.serveWrite role path bs = (stDenied, s)) ∧ (i.acc ≠ .const → i.acc ≠ .ro →
    role.mayWrite (tpKey bs) i.acc = true → tpType bs ≠ i.ty.code → s.serveWrite role path bs = (stType, s))) ∧
  (∀ (bs : List Byte) (role : Role) (path : Nat) (i : OdInfo) (s : State) (w : Wrote), odInfo (tpKey bs) = some i →
    s.power.boot = 1 → role.mayWrite (tpKey bs) i.acc = true → keyIndex (tpKey bs) ∈ [0x2110, 0x3400, 0x3500, 0x6000, 0x6010,
    0x6020] → w = s.serveWrite role path bs → (w.1 = stOk → w.2.odv (tpKey bs) = leNat (tpData bs) ∧ (∀ k, k ≠ tpKey bs →
    w.2.odv k = s.odv k) ∧ s.SameMemory w.2) ∧ (w.1 ≠ stOk → w.2 = s)) ∧
  (∀ (bs old : List Byte) (role : Role) (path : Nat) (i : OdInfo) (s : State), odInfo (tpKey bs) = some i → s.power.boot = 1
    → i.acc = .rw2 → tpType bs = i.ty.code → tpLast bs = true → s.segment path = some
    { path := path, key := tpKey bs, data := old } → tpOffset bs = old.length → old ≠ [] → tpData bs ≠ [] → (old ++ tpData
    bs).length ≤ 16777216 → s.serveWrite role path bs = (s.setSegment path none).rw2Close (tpKey bs) (old ++ tpData bs) (role
    = .privileged))

/-- For every unowned package: a closed write of 32 bytes to OWNER_KEY or OPERATOR_KEY that is not yet enrolled, in the role
PRIVILEGED and with a value that differs from the other key, answers OK and enrols it, and the package is OWNED after it
exactly when the other key was enrolled; a key that is enrolled already, and another role, are answered ACCESS_DENIED with
nothing changed, and so is every other write in the 0x8000 range. KEY_ENROL in a mailbox carries such a write out. Shown to
complete, under conditions on the state and the operands alone: KEY_ENROL. (R569) -/
def Obligations.KeysAreEnrolledOnceEach : Prop :=
  (∀ (key : Nat) (bs : List Byte) (s : State), s.owned = false → key = Od.OWNER_KEY ∨ key = Od.OPERATOR_KEY → s.odv key = 0 →
    bs.length = 32 → leNat bs ≠ s.odv (if key = Od.OWNER_KEY then Od.OPERATOR_KEY else Od.OWNER_KEY) → ∃ t : State,
    s.rw2Close key bs true = (stOk, t) ∧ t.odv key = leNat bs ∧ (t.owned = true ↔ s.odv (if key = Od.OWNER_KEY then
    Od.OPERATOR_KEY else Od.OWNER_KEY) ≠ 0) ∧ (∀ k, k ≠ key → k ≠ Od.OWNERSHIP_STATE → t.odv k = s.odv k)) ∧
  (∀ (key : Nat) (bs : List Byte) (priv : Bool) (s : State), s.owned = false → key = Od.OWNER_KEY ∨ key = Od.OPERATOR_KEY →
    s.odv key ≠ 0 ∨ priv = false → s.rw2Close key bs priv = (stDenied, s)) ∧
  (∀ (key : Nat) (bs : List Byte) (priv : Bool) (s : State), s.owned = false → key ≠ Od.OWNER_KEY → key ≠ Od.OPERATOR_KEY →
    s.rw2Close key bs priv = (stDenied, s)) ∧
  (∀ (key p : Nat) (bs : List Byte) (s : State), s.owned = false → key = Od.OWNER_KEY ∨ key = Od.OPERATOR_KEY → s.odv key = 0
    → s.Requested (.mailbox p) bs → frameKind false bs = .rw2 → tpKey bs = key → s.mailboxRole bs = .privileged → tpType bs =
    12 → tpOffset bs = 0 → tpLast bs = true → (tpData bs).length = 32 → leNat (tpData bs) ≠ s.odv (if key = Od.OWNER_KEY then
    Od.OPERATOR_KEY else Od.OWNER_KEY) → ∃ t, exec (.keyEnrol (.mailbox p) bs) s = .next t ∧ t.odv key = leNat (tpData bs) ∧
    (t.owned = true ↔ s.odv (if key = Od.OWNER_KEY then Od.OPERATOR_KEY else Od.OWNER_KEY) ≠ 0))

/-- For every owned package and every closed write of an entry of the 0x8000 range: whatever any entry of that range reads
changes only if the same entry, value and nonce were staged by the other signer and this object is valid. An invalid object
answers AUTH_FAILED and is counted; a valid first signature over AUTH_NONCE stages the change and changes no entry but
AUTH_NONCE; AUTH_CANCEL over STAGED_NONCE by either key withdraws it; a second change while one is staged answers BUSY; the
second signature applies it where its own rules allow. OWNERSHIP_RELEASE returns the range to its defaults and leaves the
package UNOWNED. STAGED_CHANGE_EXPIRY after 600 s discards the staged change and counts it, earlier it does nothing. Shown
to complete, under conditions on the state and the operands alone: STAGED_CHANGE_EXPIRY. (R513, R570, R571, R573, R575,
R576, R577) -/
def Obligations.ProtectionChangesOnTwoSignaturesOnly : Prop :=
  (∀ (key k : Nat) (bs : List Byte) (priv : Bool) (s : State) (w : Wrote), s.owned = true → w = s.rw2Close key bs priv → k /
    0x100000 = 8 → w.2.odv k = s.odv k ∨ ∃ c, s.security.staged = some c ∧ c.nonce = aoNonce (bs.drop (odLen key)) ∧ c.index
    = key / 256 ∧ c.sub = key % 256 ∧ c.value = bs.take (odLen key) ∧ c.signer ≠ aoSigner (bs.drop (odLen key)) ∧ s.aoValid
    key (bs.take (odLen key)) (bs.drop (odLen key)) = true) ∧
  (∀ (key : Nat) (bs : List Byte) (priv : Bool) (s : State) (w : Wrote), s.owned = true → bs.length = odLen key + 7920 → w =
    s.rw2Close key bs priv → (s.aoValid key (bs.take (odLen key)) (bs.drop (odLen key)) = false → w = (stAuthFailed, s.count
    Od.AUTH_FAILED_COUNT 1)) ∧ (s.aoValid key (bs.take (odLen key)) (bs.drop (odLen key)) = true → s.security.staged = none →
    aoNonce (bs.drop (odLen key)) = s.odv Od.AUTH_NONCE → key ≠ Od.AUTH_CANCEL → w.1 = stStaged ∧ w.2.security.staged = some
    { index := key / 256, sub := key % 256, value := bs.take (odLen key), signer := aoSigner (bs.drop (odLen key)), nonce := aoNonce (bs.drop (odLen key)), ms := 600000 }
    ∧ ∀ k, k ≠ Od.AUTH_NONCE → w.2.odv k = s.odv k) ∧ (∀ c, s.aoValid key (bs.take (odLen key)) (bs.drop (odLen key)) = true
    → s.security.staged = some c → aoNonce (bs.drop (odLen key)) = c.nonce → key = Od.AUTH_CANCEL → leNat (bs.take (odLen
    key)) = 1 → w.1 = stOk ∧ w.2.security.staged = none ∧ ∀ k, k ≠ Od.AUTH_NONCE → w.2.odv k = s.odv k) ∧ (∀ c, s.aoValid key
    (bs.take (odLen key)) (bs.drop (odLen key)) = true → s.security.staged = some c → aoNonce (bs.drop (odLen key)) ≠ c.nonce
    → aoNonce (bs.drop (odLen key)) = s.odv Od.AUTH_NONCE → w = (stBusy, s)) ∧ (∀ (c : StagedChange) (u : State), s.aoValid
    key (bs.take (odLen key)) (bs.drop (odLen key)) = true → s.security.staged = some c → aoNonce (bs.drop (odLen key)) =
    c.nonce → key ≠ Od.AUTH_CANCEL → c.index = key / 256 → c.sub = key % 256 → c.value = bs.take (odLen key) → c.signer ≠
    aoSigner (bs.drop (odLen key)) → u = (s.setStaged none).redraw → (u.rw2Status key (leNat c.value) = stOk → w = (stOk,
    u.rw2Apply key (leNat c.value))) ∧ (u.rw2Status key (leNat c.value) ≠ stOk → w = (u.rw2Status key (leNat c.value), u)))) ∧
  (∀ (k : Nat) (s : State), k / 0x100000 = 8 → s.releaseOwnership.odv k = partDefault k ∧ s.releaseOwnership.owned = false) ∧
  (∀ (sec : Nat) (s : State), s.security.staged ≠ none → 600 ≤ sec → exec (.stagedChangeExpiry sec) s = .next (((s.setStaged
    none).redraw).count Od.AUTH_STAGED_EXPIRED 1)) ∧
  (∀ (sec : Nat) (s : State), s.security.staged = none ∨ sec < 600 → exec (.stagedChangeExpiry sec) s = .next s)

/-- TT_LOAD 1 of a Ready package with no load under way starts a load of the range that TT_IMAGE_ADDR and TT_IMAGE_BYTES then
hold (R249), and changes nothing while one runs. A load of an image that passes every check makes it the loaded image, with
its SHA-256 and LOADED; one that fails a check names the cause in TT_REFUSE_CAUSE and leaves the loaded image, as does an
image that cannot be read (cause 7). PACKAGE_MODE takes effect unless something is armed. A statistics boundary, timed or
by STATS_LATCH_NOW, gives every latched entry but RISK_POINTS its count up to the largest value of its type, restarts the
counts and counts the period. Ones written to STICKY_LOG clear their bits; 1 written to FE_VALID returns every capture
field to its default. Shown to complete, under conditions on the state and the operands alone: TT_LOAD, TT_LOAD_COMPLETE,
STATS_LATCH_NOW, STICKY_LOG_CLEAR, FE_VALID_CLEAR, PACKAGE_MODE, STATS_BOUNDARY. (R10, R246, R249, R444, R522, R523, R524,
R540, R541) -/
def Obligations.ManagementWritesTakeEffect : Prop :=
  (∀ (s : State), s.power.ready = true → s.loading = none → exec (.ttLoad 1) s = .next
    ({ s with loading := some (s.odv Od.TT_IMAGE_ADDR, s.odv Od.TT_IMAGE_BYTES) }.setOd Od.TT_LOAD_STATE 1)) ∧
  (∀ (v : Nat) (s : State), v < 256 → v ≠ 1 ∨ s.loading.isSome = true → exec (.ttLoad v) s = .next s) ∧
  (∀ (a n : Nat) (img : Image) (s : State), s.loading = some (a, n) → n ≠ 0 → s.inTier a n = true → badIn s.eccBad a n = [] →
    img.refuseCause (s.odv Od.STEPPING) = 0 → ∃ t, exec (.ttLoadComplete img) s = .next t ∧ t.loaded = some img ∧ t.odv
    Od.TT_LOAD_STATE = 2 ∧ t.odv Od.TT_REFUSE_CAUSE = 0 ∧ t.odv Od.SCALE_TABLE_ENTRIES = img.scaleEntries ∧ t.odv
    Od.TT_IMAGE_SHA256 = leNat (sha256 (s.load a n)) ∧ t.loading = none) ∧
  (∀ (a n : Nat) (img : Image) (s : State), s.loading = some (a, n) → n ≠ 0 → s.inTier a n = true → badIn s.eccBad a n = [] →
    img.refuseCause (s.odv Od.STEPPING) ≠ 0 → ∃ t, exec (.ttLoadComplete img) s = .next t ∧ t.loaded = s.loaded ∧ t.odv
    Od.TT_LOAD_STATE = 3 ∧ t.odv Od.TT_REFUSE_CAUSE = img.refuseCause (s.odv Od.STEPPING)) ∧
  (∀ (a n : Nat) (img : Image) (s : State), s.loading = some (a, n) → n = 0 ∨ s.inTier a n = false → exec (.ttLoadComplete
    img) s = .next (({ s with loading := none }.setOd Od.TT_LOAD_STATE 3).setOd Od.TT_REFUSE_CAUSE 7)) ∧
  (∀ (a n w : Nat) (ws : List Nat) (img : Image) (s : State), s.loading = some (a, n) → n ≠ 0 → s.inTier a n = true → badIn
    s.eccBad a n = w :: ws → ∃ t, exec (.ttLoadComplete img) s = .next t ∧ t.loaded = s.loaded ∧ t.loading = none ∧ t.odv
    Od.TT_LOAD_STATE = 3 ∧ t.odv Od.TT_REFUSE_CAUSE = 7) ∧
  (∀ (v : Nat) (s : State), s.Managed → v ≤ 1 → s.anyArmed = false → exec (.packageMode v) s = .next (s.setOd Od.PACKAGE_MODE
    v)) ∧
  (∀ (v : Nat) (s : State), v < 256 → 1 < v ∨ s.anyArmed = true → exec (.packageMode v) s = .next s) ∧
  (∀ (s : State), s.Managed → (s.stats.map (·.1)).Nodup → ∃ t, exec .statsBoundary s = .next t ∧ exec (.statsLatchNow 1) s =
    .next t ∧ t.odv Od.STATS_PERIOD_INDEX = s.odv Od.STATS_PERIOD_INDEX + 1 ∧ (∀ k, latched k = true → k ≠ Od.RISK_POINTS →
    t.odv k = Nat.min (s.counted k) (2 ^ (8 * odLen k) - 1)) ∧ (∀ k, k ≠ Od.MSIX_SENT → t.counted k = 0)) ∧
  (∀ (v : Nat) (s : State), s.Managed → v < 2 ^ 256 → ∃ t, exec (.stickyLogClear v) s = .next t ∧ (∀ n, bitOf (t.odv
    Od.STICKY_LOG) n = (bitOf (s.odv Od.STICKY_LOG) n && !bitOf v n)) ∧ (∀ k, k ≠ Od.STICKY_LOG → t.odv k = s.odv k)) ∧
  (∀ (s : State), s.Managed → ∃ t, exec (.feValidClear 1) s = .next t ∧ (∀ k, k / 256 = 0x9010 → t.odv k = partDefault k) ∧
    (∀ k, k / 256 ≠ 0x9010 → t.odv k = s.odv k))

/-- For an armed SERVICE Platform whose round has finished: ROUND_BOUNDARY applies the results and the records received
(boundaryResults), then plans the next round (boundaryPlan, which raises the round number by one) and writes the serving
counts; where something ran it counts SERVE_ROUNDS and the longest round. A boundary at which a disarm waits ends the live
requests and disarms the Platform. Before its round has finished nothing changes. SUMMARY_COMPLETE of a pausing request
writes its summary and its token log, makes it PAUSED without pages, counts a lossy summary and hands the completion record
to its queue; where a page shows an uncorrected error the error is recorded and the request fails. Shown to complete, under
conditions on the state and the operands alone: ROUND_BOUNDARY, SUMMARY_COMPLETE. (R290, R401, R408, R416, R417, R429,
R430, R468) -/
def Obligations.RoundsEndAtTheirBoundary : Prop :=
  (∀ (us : Nat) (s u : State) (sp : ServePlan), us < 2 ^ 32 → s.servePlan = some sp → s.serveMode = true → s.serviceUp (s.odv
    Od.SERVICE_PLATFORM) = true → s.roundDone (s.odv Od.SERVICE_PLATFORM) sp = true → u = s.boundaryResults (s.odv
    Od.SERVICE_PLATFORM) sp → (u.plat (s.odv Od.SERVICE_PLATFORM)).disarming = false → s.serving.plan = [] → s.serving.chunks
    = [] → exec (.roundBoundary us) s = .next (u.boundaryPlan (s.odv Od.SERVICE_PLATFORM) sp).serveCounts ∧ (u.boundaryPlan
    (s.odv Od.SERVICE_PLATFORM) sp).serveCounts.serving.round = u.serving.round + 1) ∧
  (∀ (us : Nat) (s u : State) (sp : ServePlan), us < 2 ^ 32 → s.servePlan = some sp → s.serveMode = true → s.serviceUp (s.odv
    Od.SERVICE_PLATFORM) = true → s.roundDone (s.odv Od.SERVICE_PLATFORM) sp = true → u = s.boundaryResults (s.odv
    Od.SERVICE_PLATFORM) sp → (u.plat (s.odv Od.SERVICE_PLATFORM)).disarming = false → s.serving.plan ≠ [] ∨ s.serving.chunks
    ≠ [] → exec (.roundBoundary us) s = .next (((u.boundaryPlan (s.odv Od.SERVICE_PLATFORM) sp).count Od.SERVE_ROUNDS
    1).countMax Od.SERVE_ROUND_MAX_US us).serveCounts) ∧
  (∀ (us : Nat) (s u : State) (sp : ServePlan), us < 2 ^ 32 → s.servePlan = some sp → s.serveMode = true → s.serviceUp (s.odv
    Od.SERVICE_PLATFORM) = true → s.roundDone (s.odv Od.SERVICE_PLATFORM) sp = true → u = s.boundaryResults (s.odv
    Od.SERVICE_PLATFORM) sp → (u.plat (s.odv Od.SERVICE_PLATFORM)).disarming = true → exec (.roundBoundary us) s = .next
    (u.serviceLeaves (s.odv Od.SERVICE_PLATFORM)) ∧ ((u.serviceLeaves (s.odv Od.SERVICE_PLATFORM)).plat (s.odv
    Od.SERVICE_PLATFORM)).st = 0) ∧
  (∀ (us : Nat) (s : State) (sp : ServePlan), us < 2 ^ 32 → s.servePlan = some sp → s.serveMode = false ∨ s.serviceUp (s.odv
    Od.SERVICE_PLATFORM) = false ∨ s.roundDone (s.odv Od.SERVICE_PLATFORM) sp = false → exec (.roundBoundary us) s = .next s) ∧
  (∀ (e a n : Nat) (lossy : Bool) (r q : Request) (sp : ServePlan) (s t u : State), e < 16384 → (s.serving.requests.find?
    (fun x => x.entry = e && x.state = 4 && x.ended.isNone) = some r) → s.servePlan = some sp → r.summary = some (a, n,
    lossy) → ((r.pages.flatMap fun (n : Nat) => badIn s.eccBad (s.pageAddr n) 65536 ++ badIn s.eccBad (s.scaleAddr n) 2048) =
    []) → q = { r with state := 5, pages := [], slots := [], fw := 0 } → (t = s.put a (((s.layerSlots sp r).flatMap fun (x :
    Bool × List Nat) => s.layerSummary (s.layerGeo sp r x.1) x.2) ++ r.log.flatMap (leBytes 4))) → u = ((if lossy then
    t.count Od.SERVE_LOSSY_SUMMARIES 1 else t).setRequest q).writeEntry q → exec (.summaryComplete e) s = .next (if r.away
    then u else u.serveRecord q 0x10)) ∧
  (∀ (e a n w : Nat) (ws : List Nat) (lossy : Bool) (r : Request) (sp : ServePlan) (s : State), e < 16384 →
    (s.serving.requests.find? (fun x => x.entry = e && x.state = 4 && x.ended.isNone) = some r) → s.servePlan = some sp →
    r.summary = some (a, n, lossy) → ((r.pages.flatMap fun (n : Nat) => badIn s.eccBad (s.pageAddr n) 65536 ++ badIn s.eccBad
    (s.scaleAddr n) 2048) = w :: ws) → exec (.summaryComplete e) s = .next (((s.uncorrected w).1.capture (s.uncorrected
    w).2).setRequest { r with failed := true, state := 3, summary := none }))

/-- A powered port starts in the state that its settings give, or DUPLICATE_ADDRESS; written settings come into force at a
BEACON once their responses have been sent, not before. 400 us without a BEACON move a following node to CSMA/CD and are
counted, returning BEACONs move it back. A transmit opportunity sends the oldest frame that waits; a collision in it sets
FN_PLCA_CONFLICT, is counted, and drops the frame at the 16th attempt; node 0 sends the BEACON; neighbour discovery is
answered. Where SPDM runs, a challenge, a request for measurements and a key exchange are answered with the signature over
the request (and the blocks), the last opening a session for the party whose key is proven. Shown to complete, under
conditions on the state and the operands alone: SPDM_CHALLENGE, SPDM_GET_MEASUREMENTS, SPDM_KEY_EXCHANGE, PLCA_TRANSMIT,
BEACON_LOSS, PLCA_COLLISION, FN_SETTING_APPLY, FN_PORT_START, BEACON_RETURN, PLCA_BEACON, NEIGHBOUR_DISCOVERY. (R525, R526,
R527, R528, R529, R531, R585, R586) -/
def Obligations.FieldNetworkAndAttestation : Prop :=
  (∀ (dup : Bool) (s : State), s.power.vaux = true → s.power.boot ≠ 0 → ∃ t, exec (.fnPortStart dup) s = .next t ∧ t.odv
    Od.FN_STATE = (if s.odv Od.FN_ENABLE ≠ 1 then 0 else if dup then 3 else if s.odv Od.FN_PLCA_NODE_ID = 255 then 2 else 1)
    ∧ t.fieldNet = { s.fnSettings with queue := [], attempts := 0 }) ∧
  (∀ (s : State), s.power.vaux = true → s.power.boot ≠ 0 → s.fieldNet.settled = false → s.fieldNet.queue.any (·.settles) =
    false → ∃ t, exec .fnSettingApply s = .next t ∧ t.fieldNet.settled = true ∧ t.fieldNet.nodeId = s.odv Od.FN_PLCA_NODE_ID
    ∧ t.fieldNet.nodeCount = s.odv Od.FN_PLCA_NODE_COUNT ∧ t.fieldNet.toTimer = s.odv Od.FN_PLCA_TO_TIMER ∧
    t.fieldNet.udpPort = s.odv Od.TODP_UDP_PORT ∧ (s.odv Od.FN_ENABLE ≠ 1 → t.odv Od.FN_STATE = 0)) ∧
  (∀ (s : State), s.fieldNet.queue.any (·.settles) = true → exec .fnSettingApply s = .next s) ∧
  (∀ (us : Nat) (s : State), s.fnUp = true → s.odv Od.FN_STATE = 1 → s.fieldNet.nodeId ≠ 0 → 400 ≤ us → exec (.beaconLoss us)
    s = .next ((s.setOd Od.FN_STATE 2).count Od.FN_BEACON_LOSSES 1)) ∧
  (∀ (us : Nat) (s : State), us < 400 ∨ s.fieldNet.nodeId = 0 → exec (.beaconLoss us) s = .next s) ∧
  (∀ (s : State), s.fnUp = true → s.odv Od.FN_STATE = 2 → s.fieldNet.nodeId ≤ 31 → exec .beaconReturn s = .next (s.setOd
    Od.FN_STATE 1)) ∧
  (∀ (f : FnFrame) (rest : List FnFrame) (s : State), s.fnUp = true → s.fieldNet.queue = f :: rest → exec .plcaTransmit s =
    .next (({ s with fieldNet := { s.fieldNet with queue := rest, attempts := 0 } }.emit f.out).count Od.FN_FRAMES_TX 1)) ∧
  (∀ (f : FnFrame) (rest : List FnFrame) (s u : State), s.fnUp = true → s.odv Od.FN_STATE = 1 → s.fieldNet.queue = f :: rest
    → u = (s.sticky 11).count Od.FN_PLCA_COLLISIONS 1 → (s.fieldNet.attempts < 15 → exec .plcaCollision s = .next
    { u with fieldNet := { u.fieldNet with attempts := u.fieldNet.attempts + 1 } }) ∧ (15 ≤ s.fieldNet.attempts → exec
    .plcaCollision s = .next { u with fieldNet := { u.fieldNet with queue := rest, attempts := 0 } })) ∧
  (∀ (s : State), s.fnUp = true → s.odv Od.FN_STATE = 1 → s.fieldNet.nodeId = 0 → exec .plcaBeacon s = .next (s.emit (.beacon
    s.fieldNet.nodeCount))) ∧
  (∀ (f : List Byte) (s : State), s.fnUp = true → exec (.neighbourDiscovery f) s = .next ((s.count Od.FN_FRAMES_RX 1).fnQueue
    (.fn (Config.neighbourAnswer f)) false)) ∧
  (∀ (path : OdPath) (rq : List Byte) (s : State), path.ok = true → s.spdmRuns path = true → exec (.spdmChallenge path rq) s
    = .next (s.spdmSend path (Config.deviceSign (rq ++ sha256 Config.identityCerts))) ∧ (∀ b, b = (fromTo 1 8).flatMap (fun n
    => leBytes 1 n ++ s.measurement n) → exec (.spdmGetMeasurements path rq) s = .next (s.spdmSend path
    (b ++ Config.deviceSign (rq ++ b)))) ∧ ∃ t, exec (.spdmKeyExchange path rq) s = .next t ∧ t.security.sessions =
    s.security.sessions ++ [{ path := path, signer := s.provenParty rq, secret := Config.spdmSecret rq s.fresh }])
end

