-- ==== Sys2Proof/Laws/Carries.lean ====
section
/-! SUPPORT. What every operation and every meaning leaves alone: the queue of waiting commands, and the canonical form of
both memories. `Carries s t` says so of a state `t` reached from `s`; each function that gives a state has one lemma
`<name>_carries` in the file of its module, so that no later proof unfolds it for this. -/

namespace Sys2Proof.Laws
open Sys2Proof Sys2Proof.Machine

/-- `t` keeps the queue of `s`, and keeps each memory in canonical form. -/
structure Carries (s t : State) : Prop where
  pending : t.pending = s.pending
  mem : Memory.wf s.mem = true → Memory.wf t.mem = true
  host : Memory.wf s.hostMem = true → Memory.wf t.hostMem = true

theorem Carries.rfl' (s : State) : Carries s s := ⟨rfl, id, id⟩
theorem Carries.of_eq {s₀ s t : State} (h : Carries s₀ s) (h1 : t.pending = s.pending) (h2 : t.mem = s.mem)
    (h3 : t.hostMem = s.hostMem) : Carries s₀ t :=
  ⟨h1.trans h.pending, fun w => h2 ▸ h.mem w, fun w => h3 ▸ h.host w⟩
theorem Carries.self {s₀ s t : State} (h : Carries s₀ s) (h1 : t.pending = s.pending) (h2 : t.mem = s.mem)
    (h3 : t.hostMem = s.hostMem) : Carries s₀ t := h.of_eq h1 h2 h3
theorem carries_mk_iff {s₀ s : State} {x1 : Nat} {x2 : Nat} {x3 : Tab Nat} {x4 : Tab Nat} {x7 : List (Nat × Nat)} {x8 : List Nat} {x9 : Tab CoreState} {x10 : Tab Channel} {x11 : List MoveOp} {x12 : Tab Platform} {x13 : Tab Queue} {x14 : Tab HostPort} {x15 : List HostOut} {x16 : Tab LinkPort} {x17 : Tab Nat} {x18 : Nat} {x19 : Option Image} {y19 : Option (Nat × Nat)} {x20 : Exchange} {x21 : Job} {x22 : Ckpt} {x23 : Serving} {x24 : Tab Island} {x25 : Power} {x26 : Depot} {x27 : Security} {x28 : FieldNet} {x29 : Tab DieState} :
    Carries s₀ { pending := s.pending, fresh := x1, timeMs := x2, od := x3, stats := x4, mem := s.mem, hostMem := s.hostMem, hostBad := x7, eccBad := x8, cores := x9, channels := x10, moves := x11, plats := x12, queues := x13, ports := x14, hostOut := x15, links := x16, msgIds := x17, points := x18, loaded := x19, loading := y19, red := x20, job := x21, ckpt := x22, serving := x23, islands := x24, power := x25, depot := x26, security := x27, fieldNet := x28, dies := x29 } ↔ Carries s₀ s := ⟨fun h => ⟨h.pending, h.mem, h.host⟩, fun h => ⟨h.pending, h.mem, h.host⟩⟩
theorem carries_ite {s₀ a b : State} {c : Prop} [Decidable c] (ha : Carries s₀ a) (hb : Carries s₀ b) :
    Carries s₀ (if c then a else b) := by split <;> assumption
theorem carries_ite_two {α : Type} {s₀ : State} {a b : α × State} {c : Prop} [Decidable c] (ha : Carries s₀ a.2) (hb : Carries s₀ b.2) :
    Carries s₀ (if c then a else b).2 := by split <;> assumption
theorem carries_ite_one {α : Type} {s₀ : State} {a b : State × α} {c : Prop} [Decidable c] (ha : Carries s₀ a.1) (hb : Carries s₀ b.1) :
    Carries s₀ (if c then a else b).1 := by split <;> assumption
theorem carries_foldl {α : Type} {s₀ : State} {f : State → α → State} (hf : ∀ s a, Carries s₀ s → Carries s₀ (f s a)) {l : List α} {s : State}
    (h : Carries s₀ s) : Carries s₀ (l.foldl f s) := by
  induction l generalizing s with
  | nil => exact h
  | cons a l ih => exact ih (hf s a h)
theorem Carries.of_mem {s₀ s t : State} (h : Carries s₀ s) (h1 : t.pending = s.pending)
    (h2 : Memory.wf s.mem = true → Memory.wf t.mem = true) (h3 : Memory.wf s.hostMem = true → Memory.wf t.hostMem = true) : Carries s₀ t :=
  ⟨h1.trans h.pending, fun w => h2 (h.mem w), fun w => h3 (h.host w)⟩
theorem carries_foldl_pair {α β : Type} {s₀ : State} {f : State × β → α → State × β}
    (hf : ∀ s b a, Carries s₀ s → Carries s₀ (f (s, b) a).1) {l : List α} {s : State} {b : β} (h : Carries s₀ s) :
    Carries s₀ (l.foldl f (s, b)).1 := by
  induction l generalizing s b with
  | nil => exact h
  | cons a l ih => exact ih (s := (f (s, b) a).1) (b := (f (s, b) a).2) (hf s b a h)
theorem within_some {b : Bool} {o : String} {s t : State} (h : within b o s = .next t) : t = s := by
  unfold within at h
  split at h
  · cases h; rfl
  · cases h

theorem memOkFrom_le : ∀ (m : List Host.Cell) (a b : Nat), a ≤ b → memOkFrom b m = true → memOkFrom a m = true
  | [], _, _, _, _ => rfl
  | (k, v) :: m, a, b, h, w => by
    simp only [memOkFrom, Bool.and_eq_true, decide_eq_true_eq] at w ⊢
    exact ⟨⟨Nat.le_trans h w.1.1, w.1.2⟩, w.2⟩
theorem memPut_okFrom : ∀ (m : List Host.Cell) (lo a : Nat) (x : Byte), lo ≤ a → memOkFrom lo m = true → memOkFrom lo (memPut m a x) = true
  | [], lo, a, x, h, _ => by
    unfold memPut
    split <;> simp_all [memOkFrom]
  | (k, b) :: m, lo, a, x, h, w => by
    simp only [memOkFrom, Bool.and_eq_true, decide_eq_true_eq] at w
    unfold memPut
    by_cases h1 : k = a
    · subst h1
      by_cases h2 : x = unwritten
      · simp only [h2, if_true]; exact memOkFrom_le m _ _ (by omega) w.2
      · simp [h2, memOkFrom, w.2, h]
    · by_cases h3 : a < k
      · by_cases h2 : x = unwritten
        · simp [h1, h2, h3, memOkFrom, w.1, w.2]; 
        · simp only [h1, h3, h2, if_false, if_true, memOkFrom, Bool.and_eq_true, decide_eq_true_eq, bne_iff_ne, ne_eq, not_false_eq_true, and_true]
          exact ⟨h, ⟨by omega, by simpa using w.1.2⟩, w.2⟩
      · simp only [h1, h3, if_false, memOkFrom, Bool.and_eq_true, decide_eq_true_eq]
        exact ⟨w.1, memPut_okFrom m (k + 1) a x (by omega) w.2⟩
theorem memPut_wf (m : List Host.Cell) (a : Nat) (x : Byte) (h : Memory.wf m = true) : Memory.wf (memPut m a x) = true :=
  memPut_okFrom m 0 a x (Nat.zero_le a) h
theorem memPutAll_wf : ∀ (bs : List Byte) (m : List Host.Cell) (a : Nat), Memory.wf m = true → Memory.wf (memPutAll m a bs) = true
  | [], _, _, h => h
  | b :: bs, m, a, h => memPutAll_wf bs _ _ (memPut_wf m a b h)
theorem filter_okFrom (f : Host.Cell → Bool) : ∀ (m : List Host.Cell) (lo : Nat), memOkFrom lo m = true → memOkFrom lo (m.filter f) = true
  | [], _, h => h
  | (k, b) :: m, lo, h => by
    simp only [memOkFrom, Bool.and_eq_true, decide_eq_true_eq] at h
    simp only [List.filter_cons]
    split
    · simp only [memOkFrom, Bool.and_eq_true, decide_eq_true_eq]
      exact ⟨h.1, filter_okFrom f m _ h.2⟩
    · exact memOkFrom_le _ _ _ (by omega) (filter_okFrom f m _ h.2)
theorem filter_wf (f : Host.Cell → Bool) (m : List Host.Cell) (h : Memory.wf m = true) : Memory.wf (m.filter f) = true := filter_okFrom f m 0 h


end Sys2Proof.Laws
end

