-- ==== Sys2Proof/Laws/Ops.lean ====
section
/-! SUPPORT. What the functions of Machine/Ops.lean leave alone (`Carries`). -/

namespace Sys2Proof.Laws

open Sys2Proof Sys2Proof.Machine

theorem State_setOd_carries {s₀ : State} {s : State} (key : Nat) (v : Nat) (hs : Carries s₀ s) :
    Carries s₀ (Sys2Proof.Machine.State.setOd s key v) := by
  unfold Sys2Proof.Machine.State.setOd
  try dsimp only
  repeat' first
    | with_reducible assumption
    | with_reducible apply carries_ite
    | with_reducible apply carries_ite_two
    | with_reducible apply carries_ite_one
    | simp only [carries_mk_iff]
    | (with_reducible apply carries_foldl; intro _ _ _)
    | (with_reducible apply carries_foldl_pair; intro _ _ _ _)
    | intro _
    | split
    | dsimp only

theorem State_capture_carries {s₀ : State} {s : State} (e : Event) (hs : Carries s₀ s) :
    Carries s₀ (Sys2Proof.Machine.State.capture s e) := by
  unfold Sys2Proof.Machine.State.capture
  try dsimp only
  repeat' first
    | with_reducible assumption
    | with_reducible apply State_setOd_carries
    | with_reducible apply carries_ite
    | with_reducible apply carries_ite_two
    | with_reducible apply carries_ite_one
    | simp only [carries_mk_iff]
    | (with_reducible apply carries_foldl; intro _ _ _)
    | (with_reducible apply carries_foldl_pair; intro _ _ _ _)
    | intro _
    | split
    | dsimp only

theorem State_abandon_carries {s₀ : State} {s : State} (p : Nat) (hs : Carries s₀ s) :
    Carries s₀ (Sys2Proof.Machine.State.abandon s p) := by
  unfold Sys2Proof.Machine.State.abandon
  try dsimp only
  repeat' first
    | with_reducible assumption
    | with_reducible apply carries_ite
    | with_reducible apply carries_ite_two
    | with_reducible apply carries_ite_one
    | simp only [carries_mk_iff]
    | (with_reducible apply carries_foldl; intro _ _ _)
    | (with_reducible apply carries_foldl_pair; intro _ _ _ _)
    | intro _
    | split
    | dsimp only

theorem State_count_carries {s₀ : State} {s : State} (key : Nat) (n : Nat) (hs : Carries s₀ s) :
    Carries s₀ (Sys2Proof.Machine.State.count s key n) := by
  unfold Sys2Proof.Machine.State.count
  try dsimp only
  repeat' first
    | with_reducible assumption
    | with_reducible apply carries_ite
    | with_reducible apply carries_ite_two
    | with_reducible apply carries_ite_one
    | simp only [carries_mk_iff]
    | (with_reducible apply carries_foldl; intro _ _ _)
    | (with_reducible apply carries_foldl_pair; intro _ _ _ _)
    | intro _
    | split
    | dsimp only

theorem State_mapCores_carries {s₀ : State} {s : State} (f : CoreState → CoreState) (hs : Carries s₀ s) :
    Carries s₀ (Sys2Proof.Machine.State.mapCores s f) := by
  unfold Sys2Proof.Machine.State.mapCores
  try dsimp only
  repeat' first
    | with_reducible assumption
    | with_reducible apply carries_ite
    | with_reducible apply carries_ite_two
    | with_reducible apply carries_ite_one
    | simp only [carries_mk_iff]
    | (with_reducible apply carries_foldl; intro _ _ _)
    | (with_reducible apply carries_foldl_pair; intro _ _ _ _)
    | intro _
    | split
    | dsimp only

theorem State_markStreams_carries {s₀ : State} {s : State} (p : Nat) (st : Nat) (hs : Carries s₀ s) :
    Carries s₀ (Sys2Proof.Machine.State.markStreams s p st) := by
  unfold Sys2Proof.Machine.State.markStreams
  try dsimp only
  repeat' first
    | with_reducible assumption
    | with_reducible apply State_mapCores_carries
    | with_reducible apply carries_ite
    | with_reducible apply carries_ite_two
    | with_reducible apply carries_ite_one
    | simp only [carries_mk_iff]
    | (with_reducible apply carries_foldl; intro _ _ _)
    | (with_reducible apply carries_foldl_pair; intro _ _ _ _)
    | intro _
    | split
    | dsimp only

theorem State_emit_carries {s₀ : State} {s : State} (o : HostOut) (hs : Carries s₀ s) :
    Carries s₀ (Sys2Proof.Machine.State.emit s o) := by
  unfold Sys2Proof.Machine.State.emit
  try dsimp only
  repeat' first
    | with_reducible assumption
    | with_reducible apply carries_ite
    | with_reducible apply carries_ite_two
    | with_reducible apply carries_ite_one
    | simp only [carries_mk_iff]
    | (with_reducible apply carries_foldl; intro _ _ _)
    | (with_reducible apply carries_foldl_pair; intro _ _ _ _)
    | intro _
    | split
    | dsimp only

theorem State_setPort_carries {s₀ : State} {s : State} (p : Nat) (h : HostPort) (hs : Carries s₀ s) :
    Carries s₀ (Sys2Proof.Machine.State.setPort s p h) := by
  unfold Sys2Proof.Machine.State.setPort
  try dsimp only
  repeat' first
    | with_reducible assumption
    | with_reducible apply carries_ite
    | with_reducible apply carries_ite_two
    | with_reducible apply carries_ite_one
    | simp only [carries_mk_iff]
    | (with_reducible apply carries_foldl; intro _ _ _)
    | (with_reducible apply carries_foldl_pair; intro _ _ _ _)
    | intro _
    | split
    | dsimp only

theorem State_raise_carries {s₀ : State} {s : State} (p : Nat) (v : Nat) (hs : Carries s₀ s) :
    Carries s₀ (Sys2Proof.Machine.State.raise s p v) := by
  unfold Sys2Proof.Machine.State.raise
  try dsimp only
  repeat' first
    | with_reducible assumption
    | with_reducible apply State_count_carries
    | with_reducible apply State_emit_carries
    | with_reducible apply State_setPort_carries
    | with_reducible apply carries_ite
    | with_reducible apply carries_ite_two
    | with_reducible apply carries_ite_one
    | simp only [carries_mk_iff]
    | (with_reducible apply carries_foldl; intro _ _ _)
    | (with_reducible apply carries_foldl_pair; intro _ _ _ _)
    | intro _
    | split
    | dsimp only

theorem State_raiseErr_carries {s₀ : State} {s : State} (p : Nat) (hs : Carries s₀ s) :
    Carries s₀ (Sys2Proof.Machine.State.raiseErr s p) := by
  unfold Sys2Proof.Machine.State.raiseErr
  try dsimp only
  repeat' first
    | with_reducible assumption
    | with_reducible apply State_raise_carries
    | with_reducible apply carries_ite
    | with_reducible apply carries_ite_two
    | with_reducible apply carries_ite_one
    | simp only [carries_mk_iff]
    | (with_reducible apply carries_foldl; intro _ _ _)
    | (with_reducible apply carries_foldl_pair; intro _ _ _ _)
    | intro _
    | split
    | dsimp only

theorem State_setLink_carries {s₀ : State} {s : State} (p : Nat) (l : LinkPort) (hs : Carries s₀ s) :
    Carries s₀ (Sys2Proof.Machine.State.setLink s p l) := by
  unfold Sys2Proof.Machine.State.setLink
  try dsimp only
  repeat' first
    | with_reducible assumption
    | with_reducible apply carries_ite
    | with_reducible apply carries_ite_two
    | with_reducible apply carries_ite_one
    | simp only [carries_mk_iff]
    | (with_reducible apply carries_foldl; intro _ _ _)
    | (with_reducible apply carries_foldl_pair; intro _ _ _ _)
    | intro _
    | split
    | dsimp only

theorem State_sendOn_carries {s₀ : State} {s : State} (p : Nat) (v : Nat) (m : Message) (hs : Carries s₀ s) :
    Carries s₀ (Sys2Proof.Machine.State.sendOn s p v m) := by
  unfold Sys2Proof.Machine.State.sendOn
  try dsimp only
  repeat' first
    | with_reducible assumption
    | with_reducible apply State_setLink_carries
    | with_reducible apply carries_ite
    | with_reducible apply carries_ite_two
    | with_reducible apply carries_ite_one
    | simp only [carries_mk_iff]
    | (with_reducible apply carries_foldl; intro _ _ _)
    | (with_reducible apply carries_foldl_pair; intro _ _ _ _)
    | intro _
    | split
    | dsimp only

theorem State_sendVia_carries {s₀ : State} {s : State} (mask : Nat) (kind : Nat) (d : Nat) (more : List (Nat × Nat × Nat)) (data : List Byte) (crc : Nat) (hs : Carries s₀ s) :
    Carries s₀ (Sys2Proof.Machine.State.sendVia s mask kind d more data crc) := by
  unfold Sys2Proof.Machine.State.sendVia
  try dsimp only
  repeat' first
    | with_reducible assumption
    | with_reducible apply State_sendOn_carries
    | with_reducible apply carries_ite
    | with_reducible apply carries_ite_two
    | with_reducible apply carries_ite_one
    | simp only [carries_mk_iff]
    | (with_reducible apply carries_foldl; intro _ _ _)
    | (with_reducible apply carries_foldl_pair; intro _ _ _ _)
    | intro _
    | split
    | dsimp only

theorem State_sendHop_carries {s₀ : State} {s : State} (p : Nat) (kind : Nat) (more : List (Nat × Nat × Nat)) (hs : Carries s₀ s) :
    Carries s₀ (Sys2Proof.Machine.State.sendHop s p kind more) := by
  unfold Sys2Proof.Machine.State.sendHop
  try dsimp only
  repeat' first
    | with_reducible assumption
    | with_reducible apply State_sendVia_carries
    | with_reducible apply carries_ite
    | with_reducible apply carries_ite_two
    | with_reducible apply carries_ite_one
    | simp only [carries_mk_iff]
    | (with_reducible apply carries_foldl; intro _ _ _)
    | (with_reducible apply carries_foldl_pair; intro _ _ _ _)
    | intro _
    | split
    | dsimp only

theorem State_sendJobFault_carries {s₀ : State} {s : State} (origin : Nat) (cause : Nat) (hs : Carries s₀ s) :
    Carries s₀ (Sys2Proof.Machine.State.sendJobFault s origin cause) := by
  unfold Sys2Proof.Machine.State.sendJobFault
  try dsimp only
  repeat' first
    | with_reducible assumption
    | with_reducible apply State_sendHop_carries
    | with_reducible apply carries_ite
    | with_reducible apply carries_ite_two
    | with_reducible apply carries_ite_one
    | simp only [carries_mk_iff]
    | (with_reducible apply carries_foldl; intro _ _ _)
    | (with_reducible apply carries_foldl_pair; intro _ _ _ _)
    | intro _
    | split
    | dsimp only

theorem State_setPlat_carries {s₀ : State} {s : State} (p : Nat) (x : Platform) (hs : Carries s₀ s) :
    Carries s₀ (Sys2Proof.Machine.State.setPlat s p x) := by
  unfold Sys2Proof.Machine.State.setPlat
  try dsimp only
  repeat' first
    | with_reducible assumption
    | with_reducible apply carries_ite
    | with_reducible apply carries_ite_two
    | with_reducible apply carries_ite_one
    | simp only [carries_mk_iff]
    | (with_reducible apply carries_foldl; intro _ _ _)
    | (with_reducible apply carries_foldl_pair; intro _ _ _ _)
    | intro _
    | split
    | dsimp only

theorem State_sticky_carries {s₀ : State} {s : State} (n : Nat) (hs : Carries s₀ s) :
    Carries s₀ (Sys2Proof.Machine.State.sticky s n) := by
  unfold Sys2Proof.Machine.State.sticky
  try dsimp only
  repeat' first
    | with_reducible assumption
    | with_reducible apply State_raise_carries
    | with_reducible apply State_setOd_carries
    | with_reducible apply carries_ite
    | with_reducible apply carries_ite_two
    | with_reducible apply carries_ite_one
    | simp only [carries_mk_iff]
    | (with_reducible apply carries_foldl; intro _ _ _)
    | (with_reducible apply carries_foldl_pair; intro _ _ _ _)
    | intro _
    | split
    | dsimp only

theorem State_setCore_carries {s₀ : State} {s : State} (c : Nat) (x : CoreState) (hs : Carries s₀ s) :
    Carries s₀ (Sys2Proof.Machine.State.setCore s c x) := by
  unfold Sys2Proof.Machine.State.setCore
  try dsimp only
  repeat' first
    | with_reducible assumption
    | with_reducible apply carries_ite
    | with_reducible apply carries_ite_two
    | with_reducible apply carries_ite_one
    | simp only [carries_mk_iff]
    | (with_reducible apply carries_foldl; intro _ _ _)
    | (with_reducible apply carries_foldl_pair; intro _ _ _ _)
    | intro _
    | split
    | dsimp only

theorem State_zeroCounters_carries {s₀ : State} {s : State} (p : Nat) (hs : Carries s₀ s) :
    Carries s₀ (Sys2Proof.Machine.State.zeroCounters s p) := by
  unfold Sys2Proof.Machine.State.zeroCounters
  try dsimp only
  repeat' first
    | with_reducible assumption
    | with_reducible apply State_mapCores_carries
    | with_reducible apply State_setCore_carries
    | with_reducible apply carries_ite
    | with_reducible apply carries_ite_two
    | with_reducible apply carries_ite_one
    | simp only [carries_mk_iff]
    | (with_reducible apply carries_foldl; intro _ _ _)
    | (with_reducible apply carries_foldl_pair; intro _ _ _ _)
    | intro _
    | split
    | dsimp only

theorem State_faultJobAs_carries {s₀ : State} {s : State} (e : Event) (peer : Bool) (hs : Carries s₀ s) :
    Carries s₀ (Sys2Proof.Machine.State.faultJobAs s e peer) := by
  unfold Sys2Proof.Machine.State.faultJobAs
  try dsimp only
  repeat' first
    | with_reducible assumption
    | with_reducible apply State_abandon_carries
    | with_reducible apply State_capture_carries
    | with_reducible apply State_count_carries
    | with_reducible apply State_markStreams_carries
    | with_reducible apply State_raiseErr_carries
    | with_reducible apply State_sendJobFault_carries
    | with_reducible apply State_setPlat_carries
    | with_reducible apply State_sticky_carries
    | with_reducible apply State_zeroCounters_carries
    | with_reducible apply carries_ite
    | with_reducible apply carries_ite_two
    | with_reducible apply carries_ite_one
    | simp only [carries_mk_iff]
    | (with_reducible apply carries_foldl; intro _ _ _)
    | (with_reducible apply carries_foldl_pair; intro _ _ _ _)
    | intro _
    | split
    | dsimp only

theorem State_faultJob_carries {s₀ : State} {s : State} (e : Event) (hs : Carries s₀ s) :
    Carries s₀ (Sys2Proof.Machine.State.faultJob s e) := by
  unfold Sys2Proof.Machine.State.faultJob
  try dsimp only
  repeat' first
    | with_reducible assumption
    | with_reducible apply State_faultJobAs_carries
    | with_reducible apply carries_ite
    | with_reducible apply carries_ite_two
    | with_reducible apply carries_ite_one
    | simp only [carries_mk_iff]
    | (with_reducible apply carries_foldl; intro _ _ _)
    | (with_reducible apply carries_foldl_pair; intro _ _ _ _)
    | intro _
    | split
    | dsimp only

theorem State_clearVtime_carries {s₀ : State} {s : State}  (hs : Carries s₀ s) :
    Carries s₀ (Sys2Proof.Machine.State.clearVtime s) := by
  unfold Sys2Proof.Machine.State.clearVtime
  try dsimp only
  repeat' first
    | with_reducible assumption
    | with_reducible apply State_mapCores_carries
    | with_reducible apply carries_ite
    | with_reducible apply carries_ite_two
    | with_reducible apply carries_ite_one
    | simp only [carries_mk_iff]
    | (with_reducible apply carries_foldl; intro _ _ _)
    | (with_reducible apply carries_foldl_pair; intro _ _ _ _)
    | intro _
    | split
    | dsimp only

theorem State_faultPlatform_carries {s₀ : State} {s : State} (p : Nat) (cause : Nat) (tcore : Nat) (slot : Nat) (cmd : Nat) (hs : Carries s₀ s) :
    Carries s₀ (Sys2Proof.Machine.State.faultPlatform s p cause tcore slot cmd) := by
  unfold Sys2Proof.Machine.State.faultPlatform
  try dsimp only
  repeat' first
    | with_reducible assumption
    | with_reducible apply State_abandon_carries
    | with_reducible apply State_clearVtime_carries
    | with_reducible apply State_count_carries
    | with_reducible apply State_markStreams_carries
    | with_reducible apply State_raiseErr_carries
    | with_reducible apply State_setOd_carries
    | with_reducible apply State_setPlat_carries
    | with_reducible apply State_sticky_carries
    | with_reducible apply State_zeroCounters_carries
    | with_reducible apply carries_ite
    | with_reducible apply carries_ite_two
    | with_reducible apply carries_ite_one
    | simp only [carries_mk_iff]
    | (with_reducible apply carries_foldl; intro _ _ _)
    | (with_reducible apply carries_foldl_pair; intro _ _ _ _)
    | intro _
    | split
    | dsimp only

theorem State_faultOwner_carries {s₀ : State} {s : State} (p : Nat) (tcore : Nat) (e : Event) (hs : Carries s₀ s) :
    Carries s₀ (Sys2Proof.Machine.State.faultOwner s p tcore e) := by
  unfold Sys2Proof.Machine.State.faultOwner
  try dsimp only
  repeat' first
    | with_reducible assumption
    | with_reducible apply State_capture_carries
    | with_reducible apply State_faultJob_carries
    | with_reducible apply State_faultPlatform_carries
    | with_reducible apply carries_ite
    | with_reducible apply carries_ite_two
    | with_reducible apply carries_ite_one
    | simp only [carries_mk_iff]
    | (with_reducible apply carries_foldl; intro _ _ _)
    | (with_reducible apply carries_foldl_pair; intro _ _ _ _)
    | intro _
    | split
    | dsimp only

theorem State_setStream_carries {s₀ : State} {s : State} (c : Nat) (i : Nat) (x : Stream) (hs : Carries s₀ s) :
    Carries s₀ (Sys2Proof.Machine.State.setStream s c i x) := by
  unfold Sys2Proof.Machine.State.setStream
  try dsimp only
  repeat' first
    | with_reducible assumption
    | with_reducible apply State_setCore_carries
    | with_reducible apply carries_ite
    | with_reducible apply carries_ite_two
    | with_reducible apply carries_ite_one
    | simp only [carries_mk_iff]
    | (with_reducible apply carries_foldl; intro _ _ _)
    | (with_reducible apply carries_foldl_pair; intro _ _ _ _)
    | intro _
    | split
    | dsimp only

theorem State_faultStream_carries {s₀ : State} {s : State} (c : Nat) (i : Nat) (cause : Nat) (hs : Carries s₀ s) :
    Carries s₀ (Sys2Proof.Machine.State.faultStream s c i cause) := by
  unfold Sys2Proof.Machine.State.faultStream
  try dsimp only
  repeat' first
    | with_reducible assumption
    | with_reducible apply State_faultOwner_carries
    | with_reducible apply State_setStream_carries
    | with_reducible apply carries_ite
    | with_reducible apply carries_ite_two
    | with_reducible apply carries_ite_one
    | simp only [carries_mk_iff]
    | (with_reducible apply carries_foldl; intro _ _ _)
    | (with_reducible apply carries_foldl_pair; intro _ _ _ _)
    | intro _
    | split
    | dsimp only

theorem State_dropStreams_carries {s₀ : State} {s : State} (p : Nat) (hs : Carries s₀ s) :
    Carries s₀ (Sys2Proof.Machine.State.dropStreams s p) := by
  unfold Sys2Proof.Machine.State.dropStreams
  try dsimp only
  repeat' first
    | with_reducible assumption
    | with_reducible apply State_mapCores_carries
    | with_reducible apply carries_ite
    | with_reducible apply carries_ite_two
    | with_reducible apply carries_ite_one
    | simp only [carries_mk_iff]
    | (with_reducible apply carries_foldl; intro _ _ _)
    | (with_reducible apply carries_foldl_pair; intro _ _ _ _)
    | intro _
    | split
    | dsimp only

theorem State_put_carries {s₀ : State} {s : State} (a : Nat) (bs : List Byte) (hs : Carries s₀ s) :
    Carries s₀ (Sys2Proof.Machine.State.put s a bs) := by
  exact ⟨hs.pending, fun w => memPutAll_wf _ _ _ (hs.mem w), hs.host⟩

theorem within_carries {s₀ : State} {s : State} (ok : Bool) (operand : String) (t : State) (ht : (Sys2Proof.Machine.within ok operand s) = .next t) (hs : Carries s₀ s) :
    Carries s₀ t := by
  obtain rfl := within_some ht
  exact hs

theorem State_countMax_carries {s₀ : State} {s : State} (key : Nat) (n : Nat) (hs : Carries s₀ s) :
    Carries s₀ (Sys2Proof.Machine.State.countMax s key n) := by
  unfold Sys2Proof.Machine.State.countMax
  try dsimp only
  repeat' first
    | with_reducible assumption
    | with_reducible apply carries_ite
    | with_reducible apply carries_ite_two
    | with_reducible apply carries_ite_one
    | simp only [carries_mk_iff]
    | (with_reducible apply carries_foldl; intro _ _ _)
    | (with_reducible apply carries_foldl_pair; intro _ _ _ _)
    | intro _
    | split
    | dsimp only

theorem State_sendTo_carries {s₀ : State} {s : State} (kind : Nat) (d : Nat) (more : List (Nat × Nat × Nat)) (data : List Byte) (crc : Nat) (hs : Carries s₀ s) :
    Carries s₀ (Sys2Proof.Machine.State.sendTo s kind d more data crc) := by
  unfold Sys2Proof.Machine.State.sendTo
  try dsimp only
  repeat' first
    | with_reducible assumption
    | with_reducible apply State_sendVia_carries
    | with_reducible apply carries_ite
    | with_reducible apply carries_ite_two
    | with_reducible apply carries_ite_one
    | simp only [carries_mk_iff]
    | (with_reducible apply carries_foldl; intro _ _ _)
    | (with_reducible apply carries_foldl_pair; intro _ _ _ _)
    | intro _
    | split
    | dsimp only

theorem State_setIsland_carries {s₀ : State} {s : State} (i : Nat) (x : Island) (hs : Carries s₀ s) :
    Carries s₀ (Sys2Proof.Machine.State.setIsland s i x) := by
  unfold Sys2Proof.Machine.State.setIsland
  try dsimp only
  repeat' first
    | with_reducible assumption
    | with_reducible apply carries_ite
    | with_reducible apply carries_ite_two
    | with_reducible apply carries_ite_one
    | simp only [carries_mk_iff]
    | (with_reducible apply carries_foldl; intro _ _ _)
    | (with_reducible apply carries_foldl_pair; intro _ _ _ _)
    | intro _
    | split
    | dsimp only

end Sys2Proof.Laws
end

