-- ==== Sys2Proof/Laws/Sequencer.lean ====
section
/-! SUPPORT. What the functions of Machine/Sequencer.lean leave alone (`Carries`). -/

namespace Sys2Proof.Laws

open Sys2Proof Sys2Proof.Machine

theorem State_checkRange_carries {s₀ : State} {s : State} (c : Nat) (k : Nat) (hs : Carries s₀ s) :
    Carries s₀ (Sys2Proof.Machine.State.checkRange s c k) := by
  unfold Sys2Proof.Machine.State.checkRange
  try dsimp only
  repeat' first
    | with_reducible assumption
    | with_reducible apply State_faultStream_carries
    | with_reducible apply carries_ite
    | with_reducible apply carries_ite_two
    | with_reducible apply carries_ite_one
    | simp only [carries_mk_iff]
    | (with_reducible apply carries_foldl; intro _ _ _)
    | (with_reducible apply carries_foldl_pair; intro _ _ _ _)
    | intro _
    | split
    | dsimp only

theorem State_makeReady_carries {s₀ : State} {s : State} (c : Nat) (i : Nat) (prev : Option Nat) (hs : Carries s₀ s) :
    Carries s₀ (Sys2Proof.Machine.State.makeReady s c i prev) := by
  unfold Sys2Proof.Machine.State.makeReady
  try dsimp only
  repeat' first
    | with_reducible assumption
    | with_reducible apply State_setCore_carries
    | with_reducible apply carries_ite
    | with_reducible apply carries_ite_two
    | with_reducible apply carries_ite_one
    | simp only [carries_mk_iff]
    | (with_reducible apply carries_foldl; intro _ _ _)
    | (with_reducible apply carries_foldl_pair; intro _ _ _ _)
    | intro _
    | split
    | dsimp only

theorem State_setCtr_carries {s₀ : State} {s : State} (c : Nat) (k : Nat) (v : Nat) (hs : Carries s₀ s) :
    Carries s₀ (Sys2Proof.Machine.State.setCtr s c k v) := by
  unfold Sys2Proof.Machine.State.setCtr
  try dsimp only
  repeat' first
    | with_reducible assumption
    | with_reducible apply State_setCore_carries
    | with_reducible apply carries_ite
    | with_reducible apply carries_ite_two
    | with_reducible apply carries_ite_one
    | simp only [carries_mk_iff]
    | (with_reducible apply carries_foldl; intro _ _ _)
    | (with_reducible apply carries_foldl_pair; intro _ _ _ _)
    | intro _
    | split
    | dsimp only

theorem State_reach_carries {s₀ : State} {s : State} (c : Nat) (i : Nat) (prev : Option Nat) (hs : Carries s₀ s) :
    Carries s₀ (Sys2Proof.Machine.State.reach s c i prev) := by
  unfold Sys2Proof.Machine.State.reach
  try dsimp only
  repeat' first
    | with_reducible assumption
    | with_reducible apply State_checkRange_carries
    | with_reducible apply State_faultStream_carries
    | with_reducible apply State_makeReady_carries
    | with_reducible apply State_setCtr_carries
    | with_reducible apply State_setStream_carries
    | with_reducible apply carries_ite
    | with_reducible apply carries_ite_two
    | with_reducible apply carries_ite_one
    | simp only [carries_mk_iff]
    | (with_reducible apply carries_foldl; intro _ _ _)
    | (with_reducible apply carries_foldl_pair; intro _ _ _ _)
    | intro _
    | split
    | dsimp only

theorem State_advance_carries {s₀ : State} {s : State} (c : Nat) (i : Nat) (eng : Nat) (hs : Carries s₀ s) :
    Carries s₀ (Sys2Proof.Machine.State.advance s c i eng) := by
  unfold Sys2Proof.Machine.State.advance
  try dsimp only
  repeat' first
    | with_reducible assumption
    | with_reducible apply State_reach_carries
    | with_reducible apply State_setStream_carries
    | with_reducible apply carries_ite
    | with_reducible apply carries_ite_two
    | with_reducible apply carries_ite_one
    | simp only [carries_mk_iff]
    | (with_reducible apply carries_foldl; intro _ _ _)
    | (with_reducible apply carries_foldl_pair; intro _ _ _ _)
    | intro _
    | split
    | dsimp only

theorem State_queueSignal_carries {s₀ : State} {s : State} (c : Nat) (g : Signal) (hs : Carries s₀ s) :
    Carries s₀ (Sys2Proof.Machine.State.queueSignal s c g) := by
  unfold Sys2Proof.Machine.State.queueSignal
  try dsimp only
  repeat' first
    | with_reducible assumption
    | with_reducible apply State_setCore_carries
    | with_reducible apply carries_ite
    | with_reducible apply carries_ite_two
    | with_reducible apply carries_ite_one
    | simp only [carries_mk_iff]
    | (with_reducible apply carries_foldl; intro _ _ _)
    | (with_reducible apply carries_foldl_pair; intro _ _ _ _)
    | intro _
    | split
    | dsimp only

theorem State_settle_carries {s₀ : State} {s : State} (c : Nat) (k : Nat) (hs : Carries s₀ s) :
    Carries s₀ (Sys2Proof.Machine.State.settle s c k) := by
  unfold Sys2Proof.Machine.State.settle
  try dsimp only
  repeat' first
    | with_reducible assumption
    | with_reducible apply State_checkRange_carries
    | with_reducible apply State_makeReady_carries
    | with_reducible apply State_setCtr_carries
    | with_reducible apply carries_ite
    | with_reducible apply carries_ite_two
    | with_reducible apply carries_ite_one
    | simp only [carries_mk_iff]
    | (with_reducible apply carries_foldl; intro _ _ _)
    | (with_reducible apply carries_foldl_pair; intro _ _ _ _)
    | intro _
    | split
    | dsimp only

theorem State_signal_carries {s₀ : State} {s : State} (c : Nat) (k : Nat) (n : Nat) (hs : Carries s₀ s) :
    Carries s₀ (Sys2Proof.Machine.State.signal s c k n) := by
  unfold Sys2Proof.Machine.State.signal
  try dsimp only
  repeat' first
    | with_reducible assumption
    | with_reducible apply State_count_carries
    | with_reducible apply State_setCtr_carries
    | with_reducible apply State_settle_carries
    | with_reducible apply carries_ite
    | with_reducible apply carries_ite_two
    | with_reducible apply carries_ite_one
    | simp only [carries_mk_iff]
    | (with_reducible apply carries_foldl; intro _ _ _)
    | (with_reducible apply carries_foldl_pair; intro _ _ _ _)
    | intro _
    | split
    | dsimp only

theorem State_post_carries {s₀ : State} {s : State} (p : Nat) (tcore : Nat) (c : Nat) (w : CmdWord) (hs : Carries s₀ s) :
    Carries s₀ (Sys2Proof.Machine.State.post s p tcore c w) := by
  unfold Sys2Proof.Machine.State.post
  try dsimp only
  repeat' first
    | with_reducible assumption
    | with_reducible apply State_queueSignal_carries
    | with_reducible apply State_signal_carries
    | with_reducible apply carries_ite
    | with_reducible apply carries_ite_two
    | with_reducible apply carries_ite_one
    | simp only [carries_mk_iff]
    | (with_reducible apply carries_foldl; intro _ _ _)
    | (with_reducible apply carries_foldl_pair; intro _ _ _ _)
    | intro _
    | split
    | dsimp only

theorem State_endJob_carries {s₀ : State} {s : State}  (hs : Carries s₀ s) :
    Carries s₀ (Sys2Proof.Machine.State.endJob s) := by
  unfold Sys2Proof.Machine.State.endJob
  try dsimp only
  repeat' first
    | with_reducible assumption
    | with_reducible apply State_dropStreams_carries
    | with_reducible apply State_setOd_carries
    | with_reducible apply State_setPlat_carries
    | with_reducible apply carries_ite
    | with_reducible apply carries_ite_two
    | with_reducible apply carries_ite_one
    | simp only [carries_mk_iff]
    | (with_reducible apply carries_foldl; intro _ _ _)
    | (with_reducible apply carries_foldl_pair; intro _ _ _ _)
    | intro _
    | split
    | dsimp only

theorem State_finish_carries {s₀ : State} {s : State} (it : Issue) (hs : Carries s₀ s) :
    Carries s₀ (Sys2Proof.Machine.State.finish s it) := by
  unfold Sys2Proof.Machine.State.finish
  try dsimp only
  repeat' first
    | with_reducible assumption
    | with_reducible apply State_endJob_carries
    | with_reducible apply State_post_carries
    | with_reducible apply carries_ite
    | with_reducible apply carries_ite_two
    | with_reducible apply carries_ite_one
    | simp only [carries_mk_iff]
    | (with_reducible apply carries_foldl; intro _ _ _)
    | (with_reducible apply carries_foldl_pair; intro _ _ _ _)
    | intro _
    | split
    | dsimp only

theorem State_faultIssue_carries {s₀ : State} {s : State} (it : Issue) (cause : Nat) (hs : Carries s₀ s) :
    Carries s₀ (Sys2Proof.Machine.State.faultIssue s it cause) := by
  unfold Sys2Proof.Machine.State.faultIssue
  try dsimp only
  repeat' first
    | with_reducible assumption
    | with_reducible apply State_faultOwner_carries
    | with_reducible apply State_setStream_carries
    | with_reducible apply carries_ite
    | with_reducible apply carries_ite_two
    | with_reducible apply carries_ite_one
    | simp only [carries_mk_iff]
    | (with_reducible apply carries_foldl; intro _ _ _)
    | (with_reducible apply carries_foldl_pair; intro _ _ _ _)
    | intro _
    | split
    | dsimp only

theorem State_refuse_carries {s₀ : State} {s : State} (it : Issue) (hs : Carries s₀ s) :
    Carries s₀ (Sys2Proof.Machine.State.refuse s it) := by
  unfold Sys2Proof.Machine.State.refuse
  try dsimp only
  repeat' first
    | with_reducible assumption
    | with_reducible apply State_faultIssue_carries
    | with_reducible apply carries_ite
    | with_reducible apply carries_ite_two
    | with_reducible apply carries_ite_one
    | simp only [carries_mk_iff]
    | (with_reducible apply carries_foldl; intro _ _ _)
    | (with_reducible apply carries_foldl_pair; intro _ _ _ _)
    | intro _
    | split
    | dsimp only

theorem State_start_carries {s₀ : State} {s : State} (it : Issue) (cost : Nat) (cycles : Nat) (hs : Carries s₀ s) :
    Carries s₀ (Sys2Proof.Machine.State.start s it cost cycles) := by
  unfold Sys2Proof.Machine.State.start
  try dsimp only
  repeat' first
    | with_reducible assumption
    | with_reducible apply State_count_carries
    | with_reducible apply State_setCore_carries
    | with_reducible apply State_setPlat_carries
    | with_reducible apply carries_ite
    | with_reducible apply carries_ite_two
    | with_reducible apply carries_ite_one
    | simp only [carries_mk_iff]
    | (with_reducible apply carries_foldl; intro _ _ _)
    | (with_reducible apply carries_foldl_pair; intro _ _ _ _)
    | intro _
    | split
    | dsimp only

theorem State_enqueue_carries {s₀ : State} {s : State} (it : Issue) (hs : Carries s₀ s) :
    Carries s₀ (Sys2Proof.Machine.State.enqueue s it) := by
  unfold Sys2Proof.Machine.State.enqueue
  try dsimp only
  repeat' first
    | with_reducible assumption
    | with_reducible apply State_setCore_carries
    | with_reducible apply carries_ite
    | with_reducible apply carries_ite_two
    | with_reducible apply carries_ite_one
    | simp only [carries_mk_iff]
    | (with_reducible apply carries_foldl; intro _ _ _)
    | (with_reducible apply carries_foldl_pair; intro _ _ _ _)
    | intro _
    | split
    | dsimp only

theorem State_issued_carries {s₀ : State} {s : State} (it : Issue) (hs : Carries s₀ s) :
    Carries s₀ (Sys2Proof.Machine.State.issued s it) := by
  unfold Sys2Proof.Machine.State.issued
  try dsimp only
  repeat' first
    | with_reducible assumption
    | with_reducible apply State_setCore_carries
    | with_reducible apply carries_ite
    | with_reducible apply carries_ite_two
    | with_reducible apply carries_ite_one
    | simp only [carries_mk_iff]
    | (with_reducible apply carries_foldl; intro _ _ _)
    | (with_reducible apply carries_foldl_pair; intro _ _ _ _)
    | intro _
    | split
    | dsimp only

theorem State_leave_carries {s₀ : State} {s : State} (it : Issue) (hs : Carries s₀ s) :
    Carries s₀ (Sys2Proof.Machine.State.leave s it) := by
  unfold Sys2Proof.Machine.State.leave
  try dsimp only
  repeat' first
    | with_reducible assumption
    | with_reducible apply State_advance_carries
    | with_reducible apply State_issued_carries
    | with_reducible apply carries_ite
    | with_reducible apply carries_ite_two
    | with_reducible apply carries_ite_one
    | simp only [carries_mk_iff]
    | (with_reducible apply carries_foldl; intro _ _ _)
    | (with_reducible apply carries_foldl_pair; intro _ _ _ _)
    | intro _
    | split
    | dsimp only

theorem State_unqueue_carries {s₀ : State} {s : State} (it : Issue) (hs : Carries s₀ s) :
    Carries s₀ (Sys2Proof.Machine.State.unqueue s it) := by
  unfold Sys2Proof.Machine.State.unqueue
  try dsimp only
  repeat' first
    | with_reducible assumption
    | with_reducible apply State_setCore_carries
    | with_reducible apply carries_ite
    | with_reducible apply carries_ite_two
    | with_reducible apply carries_ite_one
    | simp only [carries_mk_iff]
    | (with_reducible apply carries_foldl; intro _ _ _)
    | (with_reducible apply carries_foldl_pair; intro _ _ _ _)
    | intro _
    | split
    | dsimp only

theorem State_runEngine_carries {s₀ s : State} (c : Nat) (kinds : List CmdKind) (ok can : State → Issue → Bool)
    (run : State → Issue → State) (hr : ∀ s it, Carries s₀ s → Carries s₀ (run s it)) (hs : Carries s₀ s) :
    Carries s₀ (Sys2Proof.Machine.State.runEngine s c kinds ok can run) := by
  unfold Sys2Proof.Machine.State.runEngine
  refine carries_ite hs ?_
  split
  · exact hr _ _ (State_unqueue_carries _ hs)
  · split
    · exact hs
    · have hl := State_leave_carries (by assumption) hs
      exact carries_ite (State_refuse_carries _ hs) (carries_ite (carries_ite hl (hr _ _ hl)) (State_enqueue_carries _ hl))

theorem State_runKind_carries {s₀ s : State} (c : Nat) (kinds : List CmdKind) (ok : State → Issue → Bool) (run : State → Issue → State)
    (hr : ∀ s it, Carries s₀ s → Carries s₀ (run s it)) (hs : Carries s₀ s) :
    Carries s₀ (Sys2Proof.Machine.State.runKind s c kinds ok run) := by
  unfold Sys2Proof.Machine.State.runKind
  split
  · exact hs
  · exact carries_ite (hr _ _ (State_issued_carries _ hs)) (State_refuse_carries _ hs)

theorem State_complete_carries {s₀ : State} {s : State} (it : Issue) (hs : Carries s₀ s) :
    Carries s₀ (Sys2Proof.Machine.State.complete s it) := by
  unfold Sys2Proof.Machine.State.complete
  try dsimp only
  repeat' first
    | with_reducible assumption
    | with_reducible apply State_advance_carries
    | with_reducible apply State_post_carries
    | with_reducible apply carries_ite
    | with_reducible apply carries_ite_two
    | with_reducible apply carries_ite_one
    | simp only [carries_mk_iff]
    | (with_reducible apply carries_foldl; intro _ _ _)
    | (with_reducible apply carries_foldl_pair; intro _ _ _ _)
    | intro _
    | split
    | dsimp only

end Sys2Proof.Laws
end

