-- ==== Sys2Proof/Laws/Records.lean ====
section
/-! SUPPORT. What the functions of Machine/Records.lean leave alone (`Carries`). -/

namespace Sys2Proof.Laws

open Sys2Proof Sys2Proof.Machine

theorem State_setQueue_carries {s₀ : State} {s : State} (q : Nat) (x : Queue) (hs : Carries s₀ s) :
    Carries s₀ (Sys2Proof.Machine.State.setQueue s q x) := by
  unfold Sys2Proof.Machine.State.setQueue
  try dsimp only
  repeat' first
    | with_reducible assumption
    | with_reducible apply carries_ite
    | with_reducible apply carries_ite_two
    | with_reducible apply carries_ite_one
    | simp only [carries_mk_iff]
    | (with_reducible apply carries_foldl; intro _ _ _)
    | (with_reducible apply carries_foldl_pair; intro _ _ _ _)
    | intro _
    | split
    | dsimp only

theorem State_hostPut_carries {s₀ : State} {s : State} (owner : Nat) (p : Nat) (a : Nat) (bs : List Byte) (hs : Carries s₀ s) :
    Carries s₀ (Sys2Proof.Machine.State.hostPut s owner p a bs) := by
  unfold Sys2Proof.Machine.State.hostPut
  dsimp only
  refine carries_ite (State_count_carries _ _ (hs.of_mem rfl id (memPutAll_wf _ _ _))) (carries_ite hs ?_)
  exact State_setPort_carries _ _ hs

theorem State_writeRecord_carries {s₀ : State} {s : State} (q : Nat) (p : Nat) (r : HeldRecord) (hs : Carries s₀ s) :
    Carries s₀ (Sys2Proof.Machine.State.writeRecord s q p r) := by
  unfold Sys2Proof.Machine.State.writeRecord
  try dsimp only
  repeat' first
    | with_reducible assumption
    | with_reducible apply State_advance_carries
    | with_reducible apply State_count_carries
    | with_reducible apply State_hostPut_carries
    | with_reducible apply State_post_carries
    | with_reducible apply State_raise_carries
    | with_reducible apply State_setQueue_carries
    | with_reducible apply State_signal_carries
    | with_reducible apply carries_ite
    | with_reducible apply carries_ite_two
    | with_reducible apply carries_ite_one
    | simp only [carries_mk_iff]
    | (with_reducible apply carries_foldl; intro _ _ _)
    | (with_reducible apply carries_foldl_pair; intro _ _ _ _)
    | intro _
    | split
    | dsimp only

theorem State_drainOne_carries {s₀ : State} {s : State} (q : Nat) (p : Nat) (hs : Carries s₀ s) :
    Carries s₀ (Sys2Proof.Machine.State.drainOne s q p) := by
  unfold Sys2Proof.Machine.State.drainOne
  try dsimp only
  repeat' first
    | with_reducible assumption
    | with_reducible apply State_setQueue_carries
    | with_reducible apply State_writeRecord_carries
    | with_reducible apply carries_ite
    | with_reducible apply carries_ite_two
    | with_reducible apply carries_ite_one
    | simp only [carries_mk_iff]
    | (with_reducible apply carries_foldl; intro _ _ _)
    | (with_reducible apply carries_foldl_pair; intro _ _ _ _)
    | intro _
    | split
    | dsimp only

theorem State_drain_carries {s₀ : State} {s : State} (q : Nat) (p : Nat) (n : Nat) (hs : Carries s₀ s) :
    Carries s₀ (Sys2Proof.Machine.State.drain s q p n) := by
  unfold Sys2Proof.Machine.State.drain
  try dsimp only
  repeat' first
    | with_reducible assumption
    | with_reducible apply State_drainOne_carries
    | with_reducible apply carries_ite
    | with_reducible apply carries_ite_two
    | with_reducible apply carries_ite_one
    | simp only [carries_mk_iff]
    | (with_reducible apply carries_foldl; intro _ _ _)
    | (with_reducible apply carries_foldl_pair; intro _ _ _ _)
    | intro _
    | split
    | dsimp only

theorem State_stopQueue_carries {s₀ : State} {s : State} (q : Nat) (code : Nat) (hs : Carries s₀ s) :
    Carries s₀ (Sys2Proof.Machine.State.stopQueue s q code) := by
  unfold Sys2Proof.Machine.State.stopQueue
  try dsimp only
  repeat' first
    | with_reducible assumption
    | with_reducible apply State_raiseErr_carries
    | with_reducible apply State_setQueue_carries
    | with_reducible apply carries_ite
    | with_reducible apply carries_ite_two
    | with_reducible apply carries_ite_one
    | simp only [carries_mk_iff]
    | (with_reducible apply carries_foldl; intro _ _ _)
    | (with_reducible apply carries_foldl_pair; intro _ _ _ _)
    | intro _
    | split
    | dsimp only

theorem State_pushRecord_carries {s₀ : State} {s : State} (q : Nat) (p : Nat) (r : HeldRecord) (hs : Carries s₀ s) :
    Carries s₀ (Sys2Proof.Machine.State.pushRecord s q p r) := by
  unfold Sys2Proof.Machine.State.pushRecord
  try dsimp only
  repeat' first
    | with_reducible assumption
    | with_reducible apply State_count_carries
    | with_reducible apply State_drain_carries
    | with_reducible apply State_raiseErr_carries
    | with_reducible apply State_setPlat_carries
    | with_reducible apply State_setQueue_carries
    | with_reducible apply carries_ite
    | with_reducible apply carries_ite_two
    | with_reducible apply carries_ite_one
    | simp only [carries_mk_iff]
    | (with_reducible apply carries_foldl; intro _ _ _)
    | (with_reducible apply carries_foldl_pair; intro _ _ _ _)
    | intro _
    | split
    | dsimp only

theorem State_drainAll_carries {s₀ : State} {s : State}  (hs : Carries s₀ s) :
    Carries s₀ (Sys2Proof.Machine.State.drainAll s) := by
  unfold Sys2Proof.Machine.State.drainAll
  try dsimp only
  repeat' first
    | with_reducible assumption
    | with_reducible apply State_drain_carries
    | with_reducible apply carries_ite
    | with_reducible apply carries_ite_two
    | with_reducible apply carries_ite_one
    | simp only [carries_mk_iff]
    | (with_reducible apply carries_foldl; intro _ _ _)
    | (with_reducible apply carries_foldl_pair; intro _ _ _ _)
    | intro _
    | split
    | dsimp only

end Sys2Proof.Laws
end

