-- ==== Sys2Proof/Laws/Operands.lean ====
section
/-! SUPPORT. What the functions of Machine/Operands.lean leave alone (`Carries`). -/

namespace Sys2Proof.Laws

open Sys2Proof Sys2Proof.Machine

theorem State_record_carries {s₀ : State} {s : State} (r : Repair) (hs : Carries s₀ s) :
    Carries s₀ (Sys2Proof.Machine.State.record s r) := by
  unfold Sys2Proof.Machine.State.record
  try dsimp only
  repeat' first
    | with_reducible assumption
    | with_reducible apply State_count_carries
    | with_reducible apply State_setOd_carries
    | with_reducible apply carries_ite
    | with_reducible apply carries_ite_two
    | with_reducible apply carries_ite_one
    | simp only [carries_mk_iff]
    | (with_reducible apply carries_foldl; intro _ _ _)
    | (with_reducible apply carries_foldl_pair; intro _ _ _ _)
    | intro _
    | split
    | dsimp only

theorem State_recordHbm_carries {s₀ : State} {s : State} (st : Nat) (ch : Nat) (row : Nat) (hs : Carries s₀ s) :
    Carries s₀ (Sys2Proof.Machine.State.recordHbm s st ch row) := by
  unfold Sys2Proof.Machine.State.recordHbm
  try dsimp only
  repeat' first
    | with_reducible assumption
    | with_reducible apply State_record_carries
    | with_reducible apply carries_ite
    | with_reducible apply carries_ite_two
    | with_reducible apply carries_ite_one
    | simp only [carries_mk_iff]
    | (with_reducible apply carries_foldl; intro _ _ _)
    | (with_reducible apply carries_foldl_pair; intro _ _ _ _)
    | intro _
    | split
    | dsimp only

theorem State_uncorrected_carries {s₀ : State} {s : State} (w : Nat) (hs : Carries s₀ s) :
    Carries s₀ (Sys2Proof.Machine.State.uncorrected s w).1 := by
  unfold Sys2Proof.Machine.State.uncorrected
  try dsimp only
  repeat' first
    | with_reducible assumption
    | with_reducible apply State_record_carries
    | with_reducible apply State_recordHbm_carries
    | with_reducible apply State_sticky_carries
    | with_reducible apply carries_ite
    | with_reducible apply carries_ite_two
    | with_reducible apply carries_ite_one
    | simp only [carries_mk_iff]
    | (with_reducible apply carries_foldl; intro _ _ _)
    | (with_reducible apply carries_foldl_pair; intro _ _ _ _)
    | intro _
    | split
    | dsimp only

theorem State_kvError_carries {s₀ : State} {s : State} (w : Nat) (page : Nat) (hs : Carries s₀ s) :
    Carries s₀ (Sys2Proof.Machine.State.kvError s w page) := by
  unfold Sys2Proof.Machine.State.kvError
  dsimp only
  have h := State_capture_carries (s.uncorrected w).2 (State_uncorrected_carries w hs)
  exact h.of_mem rfl (memPutAll_wf _ _ _) id

theorem State_kvErrors_carries {s₀ : State} {s : State}  (fuel : List Nat) (hs : Carries s₀ s) :
    Carries s₀ (Sys2Proof.Machine.State.kvErrors s fuel).1 := by
  induction fuel generalizing s with
  | nil => exact hs
  | cons w ws ih =>
    unfold Sys2Proof.Machine.State.kvErrors
    split
    · exact ih (State_kvError_carries _ _ hs)
    · exact ih hs

theorem State_readError_carries {s₀ : State} {s : State} (it : Issue) (w : Nat) (hs : Carries s₀ s) :
    Carries s₀ (Sys2Proof.Machine.State.readError s it w) := by
  unfold Sys2Proof.Machine.State.readError
  try dsimp only
  repeat' first
    | with_reducible assumption
    | with_reducible apply State_faultOwner_carries
    | with_reducible apply State_setStream_carries
    | with_reducible apply State_uncorrected_carries
    | with_reducible apply carries_ite
    | with_reducible apply carries_ite_two
    | with_reducible apply carries_ite_one
    | simp only [carries_mk_iff]
    | (with_reducible apply carries_foldl; intro _ _ _)
    | (with_reducible apply carries_foldl_pair; intro _ _ _ _)
    | intro _
    | split
    | dsimp only

theorem State_reading_carries {s₀ s : State} (it : Issue) (reads writes : List (Nat × Nat)) (k : State → State)
    (hk : ∀ s, Carries s₀ s → Carries s₀ (k s)) (hs : Carries s₀ s) :
    Carries s₀ (Sys2Proof.Machine.State.reading s it reads writes k) := by
  unfold Sys2Proof.Machine.State.reading
  dsimp only
  split
  · exact State_readError_carries _ _ (State_kvErrors_carries _ hs)
  · exact hk _ (State_kvErrors_carries _ hs)

theorem State_faultRead_carries {s₀ : State} {s : State} (w : Nat) (hs : Carries s₀ s) :
    Carries s₀ (Sys2Proof.Machine.State.faultRead s w) := by
  unfold Sys2Proof.Machine.State.faultRead
  try dsimp only
  repeat' first
    | with_reducible assumption
    | with_reducible apply State_capture_carries
    | with_reducible apply State_faultJob_carries
    | with_reducible apply State_uncorrected_carries
    | with_reducible apply carries_ite
    | with_reducible apply carries_ite_two
    | with_reducible apply carries_ite_one
    | simp only [carries_mk_iff]
    | (with_reducible apply carries_foldl; intro _ _ _)
    | (with_reducible apply carries_foldl_pair; intro _ _ _ _)
    | intro _
    | split
    | dsimp only

end Sys2Proof.Laws
end

