-- ==== Sys2Proof/Laws/Scaling.lean ====
section
/-! SUPPORT. What the functions of Machine/Scaling.lean leave alone (`Carries`). -/

namespace Sys2Proof.Laws

open Sys2Proof Sys2Proof.Machine

theorem State_putCodes_carries {s₀ : State} {s : State} (f : Nat) (a : Nat) (codes : List (Nat × Nat)) (hs : Carries s₀ s) :
    Carries s₀ (Sys2Proof.Machine.State.putCodes s f a codes) := by
  unfold Sys2Proof.Machine.State.putCodes
  dsimp only
  refine carries_mk_iff.mpr (carries_foldl (fun s a h => carries_foldl (fun s b h => ?_) h) hs)
  exact h.of_mem rfl (memPut_wf _ _ _) id

theorem State_putScales_carries {s₀ : State} {s : State} (a : Nat) (scales : List (Nat × Byte)) (hs : Carries s₀ s) :
    Carries s₀ (Sys2Proof.Machine.State.putScales s a scales) := by
  unfold Sys2Proof.Machine.State.putScales
  dsimp only
  refine carries_mk_iff.mpr (carries_foldl (fun s a h => ?_) hs)
  exact h.of_mem rfl (memPut_wf _ _ _) id

theorem State_gradNonfinite_carries {s₀ : State} {s : State}  (hs : Carries s₀ s) :
    Carries s₀ (Sys2Proof.Machine.State.gradNonfinite s) := by
  unfold Sys2Proof.Machine.State.gradNonfinite
  try dsimp only
  repeat' first
    | with_reducible assumption
    | with_reducible apply State_count_carries
    | with_reducible apply carries_ite
    | with_reducible apply carries_ite_two
    | with_reducible apply carries_ite_one
    | simp only [carries_mk_iff]
    | (with_reducible apply carries_foldl; intro _ _ _)
    | (with_reducible apply carries_foldl_pair; intro _ _ _ _)
    | intro _
    | split
    | dsimp only

theorem State_commit_carries {s₀ : State} {s : State} (t : Tally) (hs : Carries s₀ s) :
    Carries s₀ (Sys2Proof.Machine.State.commit s t) := by
  unfold Sys2Proof.Machine.State.commit
  try dsimp only
  repeat' first
    | with_reducible assumption
    | with_reducible apply State_count_carries
    | with_reducible apply State_gradNonfinite_carries
    | with_reducible apply carries_ite
    | with_reducible apply carries_ite_two
    | with_reducible apply carries_ite_one
    | simp only [carries_mk_iff]
    | (with_reducible apply carries_foldl; intro _ _ _)
    | (with_reducible apply carries_foldl_pair; intro _ _ _ _)
    | intro _
    | split
    | dsimp only

theorem State_writeRo_carries {s₀ : State} {s : State} (addr : Nat) (ro : Nat) (hs : Carries s₀ s) :
    Carries s₀ (Sys2Proof.Machine.State.writeRo s addr ro) := by
  unfold Sys2Proof.Machine.State.writeRo
  try dsimp only
  repeat' first
    | with_reducible assumption
    | with_reducible apply State_put_carries
    | with_reducible apply carries_ite
    | with_reducible apply carries_ite_two
    | with_reducible apply carries_ite_one
    | simp only [carries_mk_iff]
    | (with_reducible apply carries_foldl; intro _ _ _)
    | (with_reducible apply carries_foldl_pair; intro _ _ _ _)
    | intro _
    | split
    | dsimp only

theorem State_refreshSigma_carries {s₀ : State} {s : State} (addr : Nat) (w : Nat) (hs : Carries s₀ s) :
    Carries s₀ (Sys2Proof.Machine.State.refreshSigma s addr w) := by
  unfold Sys2Proof.Machine.State.refreshSigma
  try dsimp only
  repeat' first
    | with_reducible assumption
    | with_reducible apply State_writeRo_carries
    | with_reducible apply carries_ite
    | with_reducible apply carries_ite_two
    | with_reducible apply carries_ite_one
    | simp only [carries_mk_iff]
    | (with_reducible apply carries_foldl; intro _ _ _)
    | (with_reducible apply carries_foldl_pair; intro _ _ _ _)
    | intro _
    | split
    | dsimp only

theorem State_enterHistory_carries {s₀ : State} {s : State} (addr : Nat) (w : Nat) (step : Nat) (value : Nat) (hs : Carries s₀ s) :
    Carries s₀ (Sys2Proof.Machine.State.enterHistory s addr w step value) := by
  unfold Sys2Proof.Machine.State.enterHistory
  try dsimp only
  repeat' first
    | with_reducible assumption
    | with_reducible apply State_put_carries
    | with_reducible apply State_refreshSigma_carries
    | with_reducible apply State_writeRo_carries
    | with_reducible apply carries_ite
    | with_reducible apply carries_ite_two
    | with_reducible apply carries_ite_one
    | simp only [carries_mk_iff]
    | (with_reducible apply carries_foldl; intro _ _ _)
    | (with_reducible apply carries_foldl_pair; intro _ _ _ _)
    | intro _
    | split
    | dsimp only

theorem State_enterOne_carries {s₀ : State} {s : State} (step : Nat) (tid : Nat) (hs : Carries s₀ s) :
    Carries s₀ (Sys2Proof.Machine.State.enterOne s step tid) := by
  unfold Sys2Proof.Machine.State.enterOne
  try dsimp only
  repeat' first
    | with_reducible assumption
    | with_reducible apply State_enterHistory_carries
    | with_reducible apply carries_ite
    | with_reducible apply carries_ite_two
    | with_reducible apply carries_ite_one
    | simp only [carries_mk_iff]
    | (with_reducible apply carries_foldl; intro _ _ _)
    | (with_reducible apply carries_foldl_pair; intro _ _ _ _)
    | intro _
    | split
    | dsimp only

theorem State_recordAmax_carries {s₀ : State} {s : State} (step : Nat) (tid : Nat) (x : Machine.Num) (hs : Carries s₀ s) :
    Carries s₀ (Sys2Proof.Machine.State.recordAmax s step tid x) := by
  unfold Sys2Proof.Machine.State.recordAmax
  try dsimp only
  repeat' first
    | with_reducible assumption
    | with_reducible apply State_enterOne_carries
    | with_reducible apply carries_ite
    | with_reducible apply carries_ite_two
    | with_reducible apply carries_ite_one
    | simp only [carries_mk_iff]
    | (with_reducible apply carries_foldl; intro _ _ _)
    | (with_reducible apply carries_foldl_pair; intro _ _ _ _)
    | intro _
    | split
    | dsimp only

theorem State_enterAmax_carries {s₀ : State} {s : State} (step : Nat) (tid : Nat) (hs : Carries s₀ s) :
    Carries s₀ (Sys2Proof.Machine.State.enterAmax s step tid) := by
  unfold Sys2Proof.Machine.State.enterAmax
  try dsimp only
  repeat' first
    | with_reducible assumption
    | with_reducible apply State_enterOne_carries
    | with_reducible apply carries_ite
    | with_reducible apply carries_ite_two
    | with_reducible apply carries_ite_one
    | simp only [carries_mk_iff]
    | (with_reducible apply carries_foldl; intro _ _ _)
    | (with_reducible apply carries_foldl_pair; intro _ _ _ _)
    | intro _
    | split
    | dsimp only

theorem State_initScales_carries {s₀ : State} {s : State} (p : Nat) (hs : Carries s₀ s) :
    Carries s₀ (Sys2Proof.Machine.State.initScales s p) := by
  unfold Sys2Proof.Machine.State.initScales
  try dsimp only
  repeat' first
    | with_reducible assumption
    | with_reducible apply State_refreshSigma_carries
    | with_reducible apply State_writeRo_carries
    | with_reducible apply carries_ite
    | with_reducible apply carries_ite_two
    | with_reducible apply carries_ite_one
    | simp only [carries_mk_iff]
    | (with_reducible apply carries_foldl; intro _ _ _)
    | (with_reducible apply carries_foldl_pair; intro _ _ _ _)
    | intro _
    | split
    | dsimp only

theorem State_enterAllAmax_carries {s₀ : State} {s : State} (step : Nat) (hs : Carries s₀ s) :
    Carries s₀ (Sys2Proof.Machine.State.enterAllAmax s step) := by
  unfold Sys2Proof.Machine.State.enterAllAmax
  try dsimp only
  repeat' first
    | with_reducible assumption
    | with_reducible apply State_enterOne_carries
    | with_reducible apply carries_ite
    | with_reducible apply carries_ite_two
    | with_reducible apply carries_ite_one
    | simp only [carries_mk_iff]
    | (with_reducible apply carries_foldl; intro _ _ _)
    | (with_reducible apply carries_foldl_pair; intro _ _ _ _)
    | intro _
    | split
    | dsimp only

end Sys2Proof.Laws
end

