-- ==== Sys2Proof/Laws/JctFold.lean ====
section
/-! SUPPORT. What the functions of Machine/JctFold.lean leave alone (`Carries`). -/

namespace Sys2Proof.Laws

open Sys2Proof Sys2Proof.Machine

theorem State_setArray_carries {s₀ : State} {s : State} (c : Nat) (a : Nat) (x : ArrayState) (hs : Carries s₀ s) :
    Carries s₀ (Sys2Proof.Machine.State.setArray s c a x) := by
  unfold Sys2Proof.Machine.State.setArray
  try dsimp only
  repeat' first
    | with_reducible assumption
    | with_reducible apply State_setCore_carries
    | with_reducible apply carries_ite
    | with_reducible apply carries_ite_two
    | with_reducible apply carries_ite_one
    | simp only [carries_mk_iff]
    | (with_reducible apply carries_foldl; intro _ _ _)
    | (with_reducible apply carries_foldl_pair; intro _ _ _ _)
    | intro _
    | split
    | dsimp only

theorem State_setDie_carries {s₀ : State} {s : State} (d : Nat) (x : DieState) (hs : Carries s₀ s) :
    Carries s₀ (Sys2Proof.Machine.State.setDie s d x) := by
  unfold Sys2Proof.Machine.State.setDie
  try dsimp only
  repeat' first
    | with_reducible assumption
    | with_reducible apply carries_ite
    | with_reducible apply carries_ite_two
    | with_reducible apply carries_ite_one
    | simp only [carries_mk_iff]
    | (with_reducible apply carries_foldl; intro _ _ _)
    | (with_reducible apply carries_foldl_pair; intro _ _ _ _)
    | intro _
    | split
    | dsimp only

theorem State_jctFinish_carries {s₀ : State} {s : State} (die : Nat) (hs : Carries s₀ s) :
    Carries s₀ (Sys2Proof.Machine.State.jctFinish s die) := by
  unfold Sys2Proof.Machine.State.jctFinish
  try dsimp only
  repeat' first
    | with_reducible assumption
    | with_reducible apply State_endJob_carries
    | with_reducible apply State_post_carries
    | with_reducible apply State_setDie_carries
    | with_reducible apply carries_ite
    | with_reducible apply carries_ite_two
    | with_reducible apply carries_ite_one
    | simp only [carries_mk_iff]
    | (with_reducible apply carries_foldl; intro _ _ _)
    | (with_reducible apply carries_foldl_pair; intro _ _ _ _)
    | intro _
    | split
    | dsimp only

theorem State_jctFinishAll_carries {s₀ : State} {s : State}  (hs : Carries s₀ s) :
    Carries s₀ (Sys2Proof.Machine.State.jctFinishAll s) := by
  unfold Sys2Proof.Machine.State.jctFinishAll
  try dsimp only
  repeat' first
    | with_reducible assumption
    | with_reducible apply State_jctFinish_carries
    | with_reducible apply carries_ite
    | with_reducible apply carries_ite_two
    | with_reducible apply carries_ite_one
    | simp only [carries_mk_iff]
    | (with_reducible apply carries_foldl; intro _ _ _)
    | (with_reducible apply carries_foldl_pair; intro _ _ _ _)
    | intro _
    | split
    | dsimp only

theorem State_tileEnd_carries {s₀ : State} {s : State} (it : Issue) (hs : Carries s₀ s) :
    Carries s₀ (Sys2Proof.Machine.State.tileEnd s it) := by
  unfold Sys2Proof.Machine.State.tileEnd
  try dsimp only
  repeat' first
    | with_reducible assumption
    | with_reducible apply State_commit_carries
    | with_reducible apply State_drain_carries
    | with_reducible apply State_finish_carries
    | with_reducible apply State_recordAmax_carries
    | with_reducible apply State_setArray_carries
    | with_reducible apply carries_ite
    | with_reducible apply carries_ite_two
    | with_reducible apply carries_ite_one
    | simp only [carries_mk_iff]
    | (with_reducible apply carries_foldl; intro _ _ _)
    | (with_reducible apply carries_foldl_pair; intro _ _ _ _)
    | intro _
    | split
    | dsimp only

theorem State_feedArray_carries {s₀ : State} {s : State} (c : Nat) (a : Nat) (hs : Carries s₀ s) :
    Carries s₀ (Sys2Proof.Machine.State.feedArray s c a) := by
  unfold Sys2Proof.Machine.State.feedArray
  try dsimp only
  repeat' first
    | with_reducible assumption
    | with_reducible apply State_drain_carries
    | with_reducible apply State_setArray_carries
    | with_reducible apply State_setDie_carries
    | with_reducible apply State_tileEnd_carries
    | with_reducible apply carries_ite
    | with_reducible apply carries_ite_two
    | with_reducible apply carries_ite_one
    | simp only [carries_mk_iff]
    | (with_reducible apply carries_foldl; intro _ _ _)
    | (with_reducible apply carries_foldl_pair; intro _ _ _ _)
    | intro _
    | split
    | dsimp only

theorem State_feedDie_carries {s₀ : State} {s : State} (die : Nat) (hs : Carries s₀ s) :
    Carries s₀ (Sys2Proof.Machine.State.feedDie s die) := by
  unfold Sys2Proof.Machine.State.feedDie
  try dsimp only
  repeat' first
    | with_reducible assumption
    | with_reducible apply State_feedArray_carries
    | with_reducible apply carries_ite
    | with_reducible apply carries_ite_two
    | with_reducible apply carries_ite_one
    | simp only [carries_mk_iff]
    | (with_reducible apply carries_foldl; intro _ _ _)
    | (with_reducible apply carries_foldl_pair; intro _ _ _ _)
    | intro _
    | split
    | dsimp only

theorem State_setJct_carries {s₀ : State} {s : State} (die : Nat) (slot : Nat) (c : JctCmd) (hs : Carries s₀ s) :
    Carries s₀ (Sys2Proof.Machine.State.setJct s die slot c) := by
  unfold Sys2Proof.Machine.State.setJct
  try dsimp only
  repeat' first
    | with_reducible assumption
    | with_reducible apply State_setDie_carries
    | with_reducible apply carries_ite
    | with_reducible apply carries_ite_two
    | with_reducible apply carries_ite_one
    | simp only [carries_mk_iff]
    | (with_reducible apply carries_foldl; intro _ _ _)
    | (with_reducible apply carries_foldl_pair; intro _ _ _ _)
    | intro _
    | split
    | dsimp only

theorem State_dropPad_carries {s₀ : State} {s : State} (die : Nat) (slot : Nat) (e : Nat × Nat × Nat) (hs : Carries s₀ s) :
    Carries s₀ (Sys2Proof.Machine.State.dropPad s die slot e) := by
  unfold Sys2Proof.Machine.State.dropPad
  try dsimp only
  repeat' first
    | with_reducible assumption
    | with_reducible apply State_setDie_carries
    | with_reducible apply State_setJct_carries
    | with_reducible apply carries_ite
    | with_reducible apply carries_ite_two
    | with_reducible apply carries_ite_one
    | simp only [carries_mk_iff]
    | (with_reducible apply carries_foldl; intro _ _ _)
    | (with_reducible apply carries_foldl_pair; intro _ _ _ _)
    | intro _
    | split
    | dsimp only

theorem State_dropPads_carries {s₀ : State} {s : State} (die : Nat) (slot : Nat) (c : JctCmd) (hs : Carries s₀ s) :
    Carries s₀ (Sys2Proof.Machine.State.dropPads s die slot c) := by
  unfold Sys2Proof.Machine.State.dropPads
  try dsimp only
  repeat' first
    | with_reducible assumption
    | with_reducible apply State_dropPad_carries
    | with_reducible apply carries_ite
    | with_reducible apply carries_ite_two
    | with_reducible apply carries_ite_one
    | simp only [carries_mk_iff]
    | (with_reducible apply carries_foldl; intro _ _ _)
    | (with_reducible apply carries_foldl_pair; intro _ _ _ _)
    | intro _
    | split
    | dsimp only

theorem State_putVals_carries {s₀ : State} {s : State} (die : Nat) (off : Nat) (f : Nat) (xs : List W32) (hs : Carries s₀ s) :
    Carries s₀ (Sys2Proof.Machine.State.putVals s die off f xs) := by
  unfold Sys2Proof.Machine.State.putVals
  try dsimp only
  repeat' first
    | with_reducible assumption
    | with_reducible apply State_put_carries
    | with_reducible apply carries_ite
    | with_reducible apply carries_ite_two
    | with_reducible apply carries_ite_one
    | simp only [carries_mk_iff]
    | (with_reducible apply carries_foldl; intro _ _ _)
    | (with_reducible apply carries_foldl_pair; intro _ _ _ _)
    | intro _
    | split
    | dsimp only

theorem State_keep_carries {s₀ : State} {s : State} (die : Nat) (c : JctCmd) (row : Nat) (at_ : Nat) (zt : List W32) (zs : List W32) (hs : Carries s₀ s) :
    Carries s₀ (Sys2Proof.Machine.State.keep s die c row at_ zt zs) := by
  unfold Sys2Proof.Machine.State.keep
  try dsimp only
  repeat' first
    | with_reducible assumption
    | with_reducible apply State_putVals_carries
    | with_reducible apply carries_ite
    | with_reducible apply carries_ite_two
    | with_reducible apply carries_ite_one
    | simp only [carries_mk_iff]
    | (with_reducible apply carries_foldl; intro _ _ _)
    | (with_reducible apply carries_foldl_pair; intro _ _ _ _)
    | intro _
    | split
    | dsimp only

theorem State_putGrad_carries {s₀ : State} {s : State} (die : Nat) (c : JctCmd) (row : Nat) (i : Nat) (cs : List Conv) (hs : Carries s₀ s) :
    Carries s₀ (Sys2Proof.Machine.State.putGrad s die c row i cs) := by
  unfold Sys2Proof.Machine.State.putGrad
  try dsimp only
  repeat' first
    | with_reducible assumption
    | with_reducible apply State_commit_carries
    | with_reducible apply State_put_carries
    | with_reducible apply carries_ite
    | with_reducible apply carries_ite_two
    | with_reducible apply carries_ite_one
    | simp only [carries_mk_iff]
    | (with_reducible apply carries_foldl; intro _ _ _)
    | (with_reducible apply carries_foldl_pair; intro _ _ _ _)
    | intro _
    | split
    | dsimp only

theorem State_foldRow_carries {s₀ : State} {s : State} (die : Nat) (c : JctCmd) (row : Nat) (i : Nat) (ts : List JctIn) (ss : List JctIn) (hs : Carries s₀ s) :
    Carries s₀ (Sys2Proof.Machine.State.foldRow s die c row i ts ss).1 := by
  unfold Sys2Proof.Machine.State.foldRow
  try dsimp only
  repeat' first
    | with_reducible assumption
    | with_reducible apply State_commit_carries
    | with_reducible apply State_keep_carries
    | with_reducible apply State_put_carries
    | with_reducible apply State_putGrad_carries
    | with_reducible apply carries_ite
    | with_reducible apply carries_ite_two
    | with_reducible apply carries_ite_one
    | simp only [carries_mk_iff]
    | (with_reducible apply carries_foldl; intro _ _ _)
    | (with_reducible apply carries_foldl_pair; intro _ _ _ _)
    | intro _
    | split
    | dsimp only

theorem State_jctReading_carries {s₀ s : State} (c : JctCmd) (reads : List (Nat × Nat)) (k : State → State)
    (hk : ∀ s, Carries s₀ s → Carries s₀ (k s)) (hs : Carries s₀ s) :
    Carries s₀ (Sys2Proof.Machine.State.jctReading s c reads k) := by
  unfold Sys2Proof.Machine.State.jctReading
  split
  · exact hk _ hs
  · exact State_faultOwner_carries _ _ _ (State_uncorrected_carries _ hs)

theorem State_jctSpoiled_carries {s₀ : State} {s : State} (die : Nat) (c : JctCmd) (hs : Carries s₀ s) :
    Carries s₀ (Sys2Proof.Machine.State.jctSpoiled s die c) := by
  unfold Sys2Proof.Machine.State.jctSpoiled
  try dsimp only
  repeat' first
    | with_reducible assumption
    | with_reducible apply State_faultOwner_carries
    | with_reducible apply carries_ite
    | with_reducible apply carries_ite_two
    | with_reducible apply carries_ite_one
    | simp only [carries_mk_iff]
    | (with_reducible apply carries_foldl; intro _ _ _)
    | (with_reducible apply carries_foldl_pair; intro _ _ _ _)
    | intro _
    | split
    | dsimp only

theorem State_takeSlice_carries {s₀ s : State} (die : Nat) (c : JctCmd) (row i : Nat) (a b : List JctIn) (t : State) (hs : Carries s₀ s)
    (ht : Sys2Proof.Machine.State.takeSlice s die c row i = some (a, b, t)) : Carries s₀ t := by
  unfold Sys2Proof.Machine.State.takeSlice at ht
  dsimp only at ht
  split at ht
  · cases ht
  · split at ht
    · cases ht
    · obtain ⟨-, -, rfl⟩ := (by simpa using ht : _ = a ∧ _ = b ∧ _ = t)
      exact State_commit_carries _ (State_setDie_carries _ _ hs)

theorem State_foldSlices_carries {s₀ : State} (die slot row : Nat) : ∀ (fuel : Nat) {s : State}, Carries s₀ s →
    Carries s₀ (Sys2Proof.Machine.State.foldSlices s die slot row fuel)
  | 0, _, hs => by unfold Sys2Proof.Machine.State.foldSlices; exact hs
  | fuel + 1, s, hs => by
    unfold Sys2Proof.Machine.State.foldSlices
    dsimp only
    split
    · exact hs
    · refine carries_ite hs ?_
      split
      · exact hs
      · have h := State_takeSlice_carries _ _ _ _ _ _ _ hs (by assumption)
        refine carries_ite (State_jctSpoiled_carries _ _ h) (State_jctReading_carries _ _ _ (fun s h => ?_) h)
        exact State_foldSlices_carries die slot row fuel
          (State_setJct_carries _ _ _ (State_put_carries _ _ (State_foldRow_carries _ _ _ _ _ _ h)))

theorem State_jctFold_carries {s₀ : State} {s : State} (die : Nat) (hs : Carries s₀ s) :
    Carries s₀ (Sys2Proof.Machine.State.jctFold s die) := by
  unfold Sys2Proof.Machine.State.jctFold
  try dsimp only
  repeat' first
    | with_reducible assumption
    | with_reducible apply State_dropPads_carries
    | with_reducible apply State_foldSlices_carries
    | with_reducible apply carries_ite
    | with_reducible apply carries_ite_two
    | with_reducible apply carries_ite_one
    | simp only [carries_mk_iff]
    | (with_reducible apply carries_foldl; intro _ _ _)
    | (with_reducible apply carries_foldl_pair; intro _ _ _ _)
    | intro _
    | split
    | dsimp only

theorem State_jctPump_carries {s₀ : State} (die : Nat) : ∀ (fuel : Nat) {s : State}, Carries s₀ s →
    Carries s₀ (Sys2Proof.Machine.State.jctPump s die fuel)
  | 0, _, hs => by unfold Sys2Proof.Machine.State.jctPump; exact State_jctFold_carries _ hs
  | fuel + 1, s, hs => by
    unfold Sys2Proof.Machine.State.jctPump
    have h := State_feedDie_carries die (State_jctFold_carries die hs)
    exact carries_ite h (State_jctPump_carries die fuel h)

theorem State_jctSettle_carries {s₀ : State} {s : State} (die : Nat) (hs : Carries s₀ s) :
    Carries s₀ (Sys2Proof.Machine.State.jctSettle s die) := by
  unfold Sys2Proof.Machine.State.jctSettle
  try dsimp only
  repeat' first
    | with_reducible assumption
    | with_reducible apply State_jctFinishAll_carries
    | with_reducible apply State_jctPump_carries
    | with_reducible apply carries_ite
    | with_reducible apply carries_ite_two
    | with_reducible apply carries_ite_one
    | simp only [carries_mk_iff]
    | (with_reducible apply carries_foldl; intro _ _ _)
    | (with_reducible apply carries_foldl_pair; intro _ _ _ _)
    | intro _
    | split
    | dsimp only

end Sys2Proof.Laws
end

