-- ==== Sys2Proof/Laws/Steps.lean ====
section
/-! SUPPORT. What the functions of Machine/Steps.lean leave alone (`Carries`). -/

namespace Sys2Proof.Laws

open Sys2Proof Sys2Proof.Machine

theorem State_followStep_carries {s₀ : State} {s : State}  (hs : Carries s₀ s) :
    Carries s₀ (Sys2Proof.Machine.State.followStep s) := by
  unfold Sys2Proof.Machine.State.followStep
  try dsimp only
  repeat' first
    | with_reducible assumption
    | with_reducible apply State_enterAllAmax_carries
    | with_reducible apply State_setOd_carries
    | with_reducible apply carries_ite
    | with_reducible apply carries_ite_two
    | with_reducible apply carries_ite_one
    | simp only [carries_mk_iff]
    | (with_reducible apply carries_foldl; intro _ _ _)
    | (with_reducible apply carries_foldl_pair; intro _ _ _ _)
    | intro _
    | split
    | dsimp only

end Sys2Proof.Laws
end

