-- ==== Sys2Proof/Laws/Wgrad.lean ====
section
/-! SUPPORT. What the functions of Machine/Wgrad.lean leave alone (`Carries`). -/

namespace Sys2Proof.Laws

open Sys2Proof Sys2Proof.Machine

theorem State_clearManifest_carries {s₀ : State} {s : State} (k : Nat) (hs : Carries s₀ s) :
    Carries s₀ (Sys2Proof.Machine.State.clearManifest s k) := by
  unfold Sys2Proof.Machine.State.clearManifest
  try dsimp only
  repeat' first
    | with_reducible assumption
    | with_reducible apply State_put_carries
    | with_reducible apply carries_ite
    | with_reducible apply carries_ite_two
    | with_reducible apply carries_ite_one
    | simp only [carries_mk_iff]
    | (with_reducible apply carries_foldl; intro _ _ _)
    | (with_reducible apply carries_foldl_pair; intro _ _ _ _)
    | intro _
    | split
    | dsimp only

end Sys2Proof.Laws
end

