-- ==== Sys2Proof/Laws/Arrays.lean ====
section
/-! SUPPORT. What the functions of Machine/Arrays.lean leave alone (`Carries`). -/

namespace Sys2Proof.Laws

open Sys2Proof Sys2Proof.Machine

theorem State_faultCore_carries {s₀ : State} {s : State} (c : Nat) (cause : Nat) (hs : Carries s₀ s) :
    Carries s₀ (Sys2Proof.Machine.State.faultCore s c cause) := by
  unfold Sys2Proof.Machine.State.faultCore
  try dsimp only
  repeat' first
    | with_reducible assumption
    | with_reducible apply State_faultOwner_carries
    | with_reducible apply carries_ite
    | with_reducible apply carries_ite_two
    | with_reducible apply carries_ite_one
    | simp only [carries_mk_iff]
    | (with_reducible apply carries_foldl; intro _ _ _)
    | (with_reducible apply carries_foldl_pair; intro _ _ _ _)
    | intro _
    | split
    | dsimp only

theorem State_quarantine_carries {s₀ : State} {s : State} (c : Nat) (hs : Carries s₀ s) :
    Carries s₀ (Sys2Proof.Machine.State.quarantine s c) := by
  unfold Sys2Proof.Machine.State.quarantine
  try dsimp only
  repeat' first
    | with_reducible assumption
    | with_reducible apply State_faultCore_carries
    | with_reducible apply State_setCore_carries
    | with_reducible apply carries_ite
    | with_reducible apply carries_ite_two
    | with_reducible apply carries_ite_one
    | simp only [carries_mk_iff]
    | (with_reducible apply carries_foldl; intro _ _ _)
    | (with_reducible apply carries_foldl_pair; intro _ _ _ _)
    | intro _
    | split
    | dsimp only

theorem State_storeRun_carries {s₀ : State} {s : State} (it : Issue) (pads : Bool) (b : Nat) (r : OutRun) (hs : Carries s₀ s) :
    Carries s₀ (Sys2Proof.Machine.State.storeRun s it pads b r) := by
  unfold Sys2Proof.Machine.State.storeRun
  try dsimp only
  repeat' first
    | with_reducible assumption
    | with_reducible apply State_putCodes_carries
    | with_reducible apply State_putScales_carries
    | with_reducible apply carries_ite
    | with_reducible apply carries_ite_two
    | with_reducible apply carries_ite_one
    | simp only [carries_mk_iff]
    | (with_reducible apply carries_foldl; intro _ _ _)
    | (with_reducible apply carries_foldl_pair; intro _ _ _ _)
    | intro _
    | split
    | dsimp only

theorem State_storeRuns_carries {s₀ : State} {s : State} (it : Issue) (pads : Bool) (runs : List OutRun) (hs : Carries s₀ s) :
    Carries s₀ (Sys2Proof.Machine.State.storeRuns s it pads runs) := by
  unfold Sys2Proof.Machine.State.storeRuns
  try dsimp only
  repeat' first
    | with_reducible assumption
    | with_reducible apply State_storeRun_carries
    | with_reducible apply carries_ite
    | with_reducible apply carries_ite_two
    | with_reducible apply carries_ite_one
    | simp only [carries_mk_iff]
    | (with_reducible apply carries_foldl; intro _ _ _)
    | (with_reducible apply carries_foldl_pair; intro _ _ _ _)
    | intro _
    | split
    | dsimp only

theorem State_tileCounts_carries {s₀ : State} {s : State} (it : Issue) (fz : Freeze) (replays : Nat) (hs : Carries s₀ s) :
    Carries s₀ (Sys2Proof.Machine.State.tileCounts s it fz replays) := by
  unfold Sys2Proof.Machine.State.tileCounts
  try dsimp only
  repeat' first
    | with_reducible assumption
    | with_reducible apply State_count_carries
    | with_reducible apply State_drain_carries
    | with_reducible apply State_setArray_carries
    | with_reducible apply carries_ite
    | with_reducible apply carries_ite_two
    | with_reducible apply carries_ite_one
    | simp only [carries_mk_iff]
    | (with_reducible apply carries_foldl; intro _ _ _)
    | (with_reducible apply carries_foldl_pair; intro _ _ _ _)
    | intro _
    | split
    | dsimp only

theorem State_keepGrads_carries {s₀ : State} {s : State} (it : Issue) (vals : List (List (List W32))) (hs : Carries s₀ s) :
    Carries s₀ (Sys2Proof.Machine.State.keepGrads s it vals) := by
  unfold Sys2Proof.Machine.State.keepGrads
  try dsimp only
  repeat' first
    | with_reducible assumption
    | with_reducible apply carries_ite
    | with_reducible apply carries_ite_two
    | with_reducible apply carries_ite_one
    | simp only [carries_mk_iff]
    | (with_reducible apply carries_foldl; intro _ _ _)
    | (with_reducible apply carries_foldl_pair; intro _ _ _ _)
    | intro _
    | split
    | dsimp only

theorem State_routeTile_carries {s₀ : State} {s : State} (it : Issue) (runs : List OutRun) (vals : List (List (List W32))) (hs : Carries s₀ s) :
    Carries s₀ (Sys2Proof.Machine.State.routeTile s it runs vals) := by
  unfold Sys2Proof.Machine.State.routeTile
  try dsimp only
  repeat' first
    | with_reducible assumption
    | with_reducible apply State_drain_carries
    | with_reducible apply State_jctSettle_carries
    | with_reducible apply State_keepGrads_carries
    | with_reducible apply State_setArray_carries
    | with_reducible apply State_storeRuns_carries
    | with_reducible apply State_tileEnd_carries
    | with_reducible apply carries_ite
    | with_reducible apply carries_ite_two
    | with_reducible apply carries_ite_one
    | simp only [carries_mk_iff]
    | (with_reducible apply carries_foldl; intro _ _ _)
    | (with_reducible apply carries_foldl_pair; intro _ _ _ _)
    | intro _
    | split
    | dsimp only

theorem State_tileEffect_carries {s₀ : State} {s : State} (it : Issue) (hs : Carries s₀ s) :
    Carries s₀ (Sys2Proof.Machine.State.tileEffect s it) := by
  unfold Sys2Proof.Machine.State.tileEffect
  try dsimp only
  repeat' first
    | with_reducible assumption
    | with_reducible apply State_enterAmax_carries
    | with_reducible apply State_routeTile_carries
    | with_reducible apply State_setArray_carries
    | with_reducible apply carries_ite
    | with_reducible apply carries_ite_two
    | with_reducible apply carries_ite_one
    | simp only [carries_mk_iff]
    | (with_reducible apply carries_foldl; intro _ _ _)
    | (with_reducible apply carries_foldl_pair; intro _ _ _ _)
    | intro _
    | split
    | dsimp only

theorem State_tilePart_carries {s₀ : State} {s : State} (it : Issue) (n : Nat) (hs : Carries s₀ s) :
    Carries s₀ (Sys2Proof.Machine.State.tilePart s it n) := by
  unfold Sys2Proof.Machine.State.tilePart
  try dsimp only
  repeat' first
    | with_reducible assumption
    | with_reducible apply State_storeRuns_carries
    | with_reducible apply carries_ite
    | with_reducible apply carries_ite_two
    | with_reducible apply carries_ite_one
    | simp only [carries_mk_iff]
    | (with_reducible apply carries_foldl; intro _ _ _)
    | (with_reducible apply carries_foldl_pair; intro _ _ _ _)
    | intro _
    | split
    | dsimp only

theorem State_runTile_carries {s₀ : State} {s : State} (fz : Freeze) (it : Issue) (hs : Carries s₀ s) :
    Carries s₀ (Sys2Proof.Machine.State.runTile fz s it) := by
  unfold Sys2Proof.Machine.State.runTile
  try dsimp only
  repeat' first
    | with_reducible assumption
    | with_reducible apply State_count_carries
    | with_reducible apply State_faultIssue_carries
    | with_reducible apply State_reading_carries
    | with_reducible apply State_refuse_carries
    | with_reducible apply State_start_carries
    | with_reducible apply State_tileCounts_carries
    | with_reducible apply State_tileEffect_carries
    | with_reducible apply State_tilePart_carries
    | with_reducible apply carries_ite
    | with_reducible apply carries_ite_two
    | with_reducible apply carries_ite_one
    | simp only [carries_mk_iff]
    | (with_reducible apply carries_foldl; intro _ _ _)
    | (with_reducible apply carries_foldl_pair; intro _ _ _ _)
    | intro _
    | split
    | dsimp only

theorem State_tileRow_carries {s₀ : State} {s : State} (fz : Freeze) (c : Nat) (kinds : List CmdKind) (t : State) (ht : (Sys2Proof.Machine.State.tileRow fz s c kinds) = .next t) (hs : Carries s₀ s) :
    Carries s₀ t := by
  unfold Sys2Proof.Machine.State.tileRow at ht
  obtain rfl := within_some ht
  try dsimp only
  repeat' first
    | with_reducible assumption
    | with_reducible apply State_runEngine_carries
    | with_reducible apply State_runTile_carries
    | with_reducible apply carries_ite
    | with_reducible apply carries_ite_two
    | with_reducible apply carries_ite_one
    | simp only [carries_mk_iff]
    | (with_reducible apply carries_foldl; intro _ _ _)
    | (with_reducible apply carries_foldl_pair; intro _ _ _ _)
    | intro _
    | split
    | dsimp only

theorem execTileOutputStat_carries {s₀ : State} {s : State} (c : Nat) (fz : Freeze) (t : State) (ht : (Sys2Proof.Machine.execTileOutputStat c fz s) = .next t) (hs : Carries s₀ s) :
    Carries s₀ t := by
  exact State_tileRow_carries fz c _ t ht hs

theorem execTileInputStat_carries {s₀ : State} {s : State} (c : Nat) (fz : Freeze) (t : State) (ht : (Sys2Proof.Machine.execTileInputStat c fz s) = .next t) (hs : Carries s₀ s) :
    Carries s₀ t := by
  exact State_tileRow_carries fz c _ t ht hs

theorem execTileElementwise_carries {s₀ : State} {s : State} (c : Nat) (fz : Freeze) (t : State) (ht : (Sys2Proof.Machine.execTileElementwise c fz s) = .next t) (hs : Carries s₀ s) :
    Carries s₀ t := by
  exact State_tileRow_carries fz c _ t ht hs

theorem State_drainError_carries {s₀ : State} {s : State} (c : Nat) (a : Nat) (it : Issue) (hs : Carries s₀ s) :
    Carries s₀ (Sys2Proof.Machine.State.drainError s c a it) := by
  unfold Sys2Proof.Machine.State.drainError
  try dsimp only
  repeat' first
    | with_reducible assumption
    | with_reducible apply State_count_carries
    | with_reducible apply State_drain_carries
    | with_reducible apply State_faultIssue_carries
    | with_reducible apply State_setArray_carries
    | with_reducible apply carries_ite
    | with_reducible apply carries_ite_two
    | with_reducible apply carries_ite_one
    | simp only [carries_mk_iff]
    | (with_reducible apply carries_foldl; intro _ _ _)
    | (with_reducible apply carries_foldl_pair; intro _ _ _ _)
    | intro _
    | split
    | dsimp only

theorem State_meetError_carries {s₀ : State} {s : State} (c : Nat) (a : Nat) (cell : Nat) (row : Nat) (col : Nat) (out : Nat) (hs : Carries s₀ s) :
    Carries s₀ (Sys2Proof.Machine.State.meetError s c a cell row col out) := by
  unfold Sys2Proof.Machine.State.meetError
  try dsimp only
  repeat' first
    | with_reducible assumption
    | with_reducible apply State_drainError_carries
    | with_reducible apply State_setArray_carries
    | with_reducible apply carries_ite
    | with_reducible apply carries_ite_two
    | with_reducible apply carries_ite_one
    | simp only [carries_mk_iff]
    | (with_reducible apply carries_foldl; intro _ _ _)
    | (with_reducible apply carries_foldl_pair; intro _ _ _ _)
    | intro _
    | split
    | dsimp only

theorem State_repairCell_carries {s₀ : State} {s : State} (c : Nat) (a : Nat) (row : Nat) (col : Nat) (hs : Carries s₀ s) :
    Carries s₀ (Sys2Proof.Machine.State.repairCell s c a row col) := by
  unfold Sys2Proof.Machine.State.repairCell
  try dsimp only
  repeat' first
    | with_reducible assumption
    | with_reducible apply State_record_carries
    | with_reducible apply State_setOd_carries
    | with_reducible apply carries_ite
    | with_reducible apply carries_ite_two
    | with_reducible apply carries_ite_one
    | simp only [carries_mk_iff]
    | (with_reducible apply carries_foldl; intro _ _ _)
    | (with_reducible apply carries_foldl_pair; intro _ _ _ _)
    | intro _
    | split
    | dsimp only

theorem execArrayDetectedError_carries {s₀ : State} {s : State} (c : Nat) (a : Nat) (cell : Nat) (row : Nat) (col : Nat) (out : Nat) (t : State) (ht : (Sys2Proof.Machine.execArrayDetectedError c a cell row col out s) = .next t) (hs : Carries s₀ s) :
    Carries s₀ t := by
  unfold Sys2Proof.Machine.execArrayDetectedError at ht
  obtain rfl := within_some ht
  try dsimp only
  repeat' first
    | with_reducible assumption
    | with_reducible apply State_meetError_carries
    | with_reducible apply State_quarantine_carries
    | with_reducible apply State_repairCell_carries
    | with_reducible apply State_sticky_carries
    | with_reducible apply carries_ite
    | with_reducible apply carries_ite_two
    | with_reducible apply carries_ite_one
    | simp only [carries_mk_iff]
    | (with_reducible apply carries_foldl; intro _ _ _)
    | (with_reducible apply carries_foldl_pair; intro _ _ _ _)
    | intro _
    | split
    | dsimp only

end Sys2Proof.Laws
end

