-- ==== Sys2Proof/Laws/Moves.lean ====
section
/-! SUPPORT. What the functions of Machine/Moves.lean leave alone (`Carries`). -/

namespace Sys2Proof.Laws

open Sys2Proof Sys2Proof.Machine

theorem State_putAt_carries {s₀ : State} {s : State} (owner : Nat) (port : Nat) (host : Bool) (a : Nat) (bs : List Byte) (hs : Carries s₀ s) :
    Carries s₀ (Sys2Proof.Machine.State.putAt s owner port host a bs) := by
  unfold Sys2Proof.Machine.State.putAt
  try dsimp only
  repeat' first
    | with_reducible assumption
    | with_reducible apply State_hostPut_carries
    | with_reducible apply State_put_carries
    | with_reducible apply carries_ite
    | with_reducible apply carries_ite_two
    | with_reducible apply carries_ite_one
    | simp only [carries_mk_iff]
    | (with_reducible apply carries_foldl; intro _ _ _)
    | (with_reducible apply carries_foldl_pair; intro _ _ _ _)
    | intro _
    | split
    | dsimp only

theorem State_putRow_carries {s₀ : State} {s : State} (it : Issue) (r : Nat) (row : List Byte) (hs : Carries s₀ s) :
    Carries s₀ (Sys2Proof.Machine.State.putRow s it r row) := by
  unfold Sys2Proof.Machine.State.putRow
  try dsimp only
  repeat' first
    | with_reducible assumption
    | with_reducible apply State_putAt_carries
    | with_reducible apply carries_ite
    | with_reducible apply carries_ite_two
    | with_reducible apply carries_ite_one
    | simp only [carries_mk_iff]
    | (with_reducible apply carries_foldl; intro _ _ _)
    | (with_reducible apply carries_foldl_pair; intro _ _ _ _)
    | intro _
    | split
    | dsimp only

theorem State_copyRows_carries {s₀ : State} {s : State} (it : Issue) (hs : Carries s₀ s) :
    Carries s₀ (Sys2Proof.Machine.State.copyRows s it) := by
  unfold Sys2Proof.Machine.State.copyRows
  try dsimp only
  repeat' first
    | with_reducible assumption
    | with_reducible apply State_putRow_carries
    | with_reducible apply carries_ite
    | with_reducible apply carries_ite_two
    | with_reducible apply carries_ite_one
    | simp only [carries_mk_iff]
    | (with_reducible apply carries_foldl; intro _ _ _)
    | (with_reducible apply carries_foldl_pair; intro _ _ _ _)
    | intro _
    | split
    | dsimp only

theorem State_copySkewed_carries {s₀ : State} {s : State} (it : Issue) (hs : Carries s₀ s) :
    Carries s₀ (Sys2Proof.Machine.State.copySkewed s it) := by
  unfold Sys2Proof.Machine.State.copySkewed
  try dsimp only
  repeat' first
    | with_reducible assumption
    | with_reducible apply State_putCodes_carries
    | with_reducible apply carries_ite
    | with_reducible apply carries_ite_two
    | with_reducible apply carries_ite_one
    | simp only [carries_mk_iff]
    | (with_reducible apply carries_foldl; intro _ _ _)
    | (with_reducible apply carries_foldl_pair; intro _ _ _ _)
    | intro _
    | split
    | dsimp only

theorem State_countHostRead_carries {s₀ : State} {s : State} (it : Issue) (hs : Carries s₀ s) :
    Carries s₀ (Sys2Proof.Machine.State.countHostRead s it) := by
  unfold Sys2Proof.Machine.State.countHostRead
  try dsimp only
  repeat' first
    | with_reducible assumption
    | with_reducible apply State_count_carries
    | with_reducible apply carries_ite
    | with_reducible apply carries_ite_two
    | with_reducible apply carries_ite_one
    | simp only [carries_mk_iff]
    | (with_reducible apply carries_foldl; intro _ _ _)
    | (with_reducible apply carries_foldl_pair; intro _ _ _ _)
    | intro _
    | split
    | dsimp only

theorem State_sendMoveWrite_carries {s₀ : State} {s : State} (d : Nat) (a : Nat) (bs : List Byte) (sig : List (Nat × Nat × Nat)) (hs : Carries s₀ s) :
    Carries s₀ (Sys2Proof.Machine.State.sendMoveWrite s d a bs sig).1 := by
  unfold Sys2Proof.Machine.State.sendMoveWrite
  try dsimp only
  repeat' first
    | with_reducible assumption
    | with_reducible apply State_sendTo_carries
    | with_reducible apply carries_ite
    | with_reducible apply carries_ite_two
    | with_reducible apply carries_ite_one
    | simp only [carries_mk_iff]
    | (with_reducible apply carries_foldl; intro _ _ _)
    | (with_reducible apply carries_foldl_pair; intro _ _ _ _)
    | intro _
    | split
    | dsimp only

theorem State_sendMove_carries {s₀ : State} {s : State} (it : Issue) (hs : Carries s₀ s) :
    Carries s₀ (Sys2Proof.Machine.State.sendMove s it) := by
  unfold Sys2Proof.Machine.State.sendMove
  try dsimp only
  repeat' first
    | with_reducible assumption
    | with_reducible apply State_sendMoveWrite_carries
    | with_reducible apply carries_ite
    | with_reducible apply carries_ite_two
    | with_reducible apply carries_ite_one
    | simp only [carries_mk_iff]
    | (with_reducible apply carries_foldl; intro _ _ _)
    | (with_reducible apply carries_foldl_pair; intro _ _ _ _)
    | intro _
    | split
    | dsimp only

theorem State_runMove_carries {s₀ : State} {s : State} (it : Issue) (hs : Carries s₀ s) :
    Carries s₀ (Sys2Proof.Machine.State.runMove s it) := by
  unfold Sys2Proof.Machine.State.runMove
  try dsimp only
  repeat' first
    | with_reducible assumption
    | with_reducible apply State_copyRows_carries
    | with_reducible apply State_copySkewed_carries
    | with_reducible apply State_countHostRead_carries
    | with_reducible apply State_finish_carries
    | with_reducible apply State_reading_carries
    | with_reducible apply State_sendMove_carries
    | with_reducible apply State_start_carries
    | with_reducible apply carries_ite
    | with_reducible apply carries_ite_two
    | with_reducible apply carries_ite_one
    | simp only [carries_mk_iff]
    | (with_reducible apply carries_foldl; intro _ _ _)
    | (with_reducible apply carries_foldl_pair; intro _ _ _ _)
    | intro _
    | split
    | dsimp only

theorem State_moveEngine_carries {s₀ s : State} (c : Nat) (kinds : List CmdKind) (run : State → Issue → State)
    (hr : ∀ s it, Carries s₀ s → Carries s₀ (run s it)) (hs : Carries s₀ s) :
    Carries s₀ (Sys2Proof.Machine.State.moveEngine s c kinds run) := by
  unfold Sys2Proof.Machine.State.moveEngine
  exact State_runEngine_carries _ _ _ _ _ hr hs

theorem execMove_carries {s₀ : State} {s : State} (c : Nat) (t : State) (ht : (Sys2Proof.Machine.execMove c s) = .next t) (hs : Carries s₀ s) :
    Carries s₀ t := by
  unfold Sys2Proof.Machine.execMove at ht
  obtain rfl := within_some ht
  try dsimp only
  repeat' first
    | with_reducible assumption
    | with_reducible apply State_moveEngine_carries
    | with_reducible apply State_runMove_carries
    | with_reducible apply carries_ite
    | with_reducible apply carries_ite_two
    | with_reducible apply carries_ite_one
    | simp only [carries_mk_iff]
    | (with_reducible apply carries_foldl; intro _ _ _)
    | (with_reducible apply carries_foldl_pair; intro _ _ _ _)
    | intro _
    | split
    | dsimp only

theorem State_ttTranspose_carries {s₀ : State} {s : State} (it : Issue) (hs : Carries s₀ s) :
    Carries s₀ (Sys2Proof.Machine.State.ttTranspose s it) := by
  unfold Sys2Proof.Machine.State.ttTranspose
  try dsimp only
  repeat' first
    | with_reducible assumption
    | with_reducible apply State_put_carries
    | with_reducible apply State_putCodes_carries
    | with_reducible apply carries_ite
    | with_reducible apply carries_ite_two
    | with_reducible apply carries_ite_one
    | simp only [carries_mk_iff]
    | (with_reducible apply carries_foldl; intro _ _ _)
    | (with_reducible apply carries_foldl_pair; intro _ _ _ _)
    | intro _
    | split
    | dsimp only

theorem State_ttRequant_carries {s₀ : State} {s : State} (it : Issue) (hs : Carries s₀ s) :
    Carries s₀ (Sys2Proof.Machine.State.ttRequant s it) := by
  unfold Sys2Proof.Machine.State.ttRequant
  try dsimp only
  repeat' first
    | with_reducible assumption
    | with_reducible apply State_commit_carries
    | with_reducible apply State_enterAmax_carries
    | with_reducible apply State_putCodes_carries
    | with_reducible apply State_putScales_carries
    | with_reducible apply State_recordAmax_carries
    | with_reducible apply carries_ite
    | with_reducible apply carries_ite_two
    | with_reducible apply carries_ite_one
    | simp only [carries_mk_iff]
    | (with_reducible apply carries_foldl; intro _ _ _)
    | (with_reducible apply carries_foldl_pair; intro _ _ _ _)
    | intro _
    | split
    | dsimp only

theorem State_loadTt_carries {s₀ : State} {s : State} (it : Issue) (hs : Carries s₀ s) :
    Carries s₀ (Sys2Proof.Machine.State.loadTt s it) := by
  unfold Sys2Proof.Machine.State.loadTt
  try dsimp only
  repeat' first
    | with_reducible assumption
    | with_reducible apply State_count_carries
    | with_reducible apply State_setDie_carries
    | with_reducible apply carries_ite
    | with_reducible apply carries_ite_two
    | with_reducible apply carries_ite_one
    | simp only [carries_mk_iff]
    | (with_reducible apply carries_foldl; intro _ _ _)
    | (with_reducible apply carries_foldl_pair; intro _ _ _ _)
    | intro _
    | split
    | dsimp only

theorem State_runTurntable_carries {s₀ s : State} (eff : State → Issue → State) (it : Issue)
    (he : ∀ s it, Carries s₀ s → Carries s₀ (eff s it)) (hs : Carries s₀ s) :
    Carries s₀ (Sys2Proof.Machine.State.runTurntable eff s it) := by
  unfold Sys2Proof.Machine.State.runTurntable
  dsimp only
  refine State_reading_carries _ _ _ _ (fun s h => ?_) (State_start_carries _ _ _ hs)
  refine carries_ite (State_faultIssue_carries _ _ (State_loadTt_carries _ h)) ?_
  exact State_finish_carries _ (State_count_carries _ _ (he _ _ (State_loadTt_carries _ h)))

theorem execMoveTranspose_carries {s₀ : State} {s : State} (c : Nat) (t : State) (ht : (Sys2Proof.Machine.execMoveTranspose c s) = .next t) (hs : Carries s₀ s) :
    Carries s₀ t := by
  unfold Sys2Proof.Machine.execMoveTranspose at ht
  obtain rfl := within_some ht
  try dsimp only
  repeat' first
    | with_reducible assumption
    | with_reducible apply State_moveEngine_carries
    | with_reducible apply State_runTurntable_carries
    | with_reducible apply State_ttTranspose_carries
    | with_reducible apply carries_ite
    | with_reducible apply carries_ite_two
    | with_reducible apply carries_ite_one
    | simp only [carries_mk_iff]
    | (with_reducible apply carries_foldl; intro _ _ _)
    | (with_reducible apply carries_foldl_pair; intro _ _ _ _)
    | intro _
    | split
    | dsimp only

theorem execMoveRequant_carries {s₀ : State} {s : State} (c : Nat) (t : State) (ht : (Sys2Proof.Machine.execMoveRequant c s) = .next t) (hs : Carries s₀ s) :
    Carries s₀ t := by
  unfold Sys2Proof.Machine.execMoveRequant at ht
  obtain rfl := within_some ht
  try dsimp only
  repeat' first
    | with_reducible assumption
    | with_reducible apply State_moveEngine_carries
    | with_reducible apply State_runTurntable_carries
    | with_reducible apply State_ttRequant_carries
    | with_reducible apply carries_ite
    | with_reducible apply carries_ite_two
    | with_reducible apply carries_ite_one
    | simp only [carries_mk_iff]
    | (with_reducible apply carries_foldl; intro _ _ _)
    | (with_reducible apply carries_foldl_pair; intro _ _ _ _)
    | intro _
    | split
    | dsimp only

theorem execTurntableDetectedError_carries {s₀ : State} {s : State} (die : Nat) (block : Nat) (again : Bool) (t : State) (ht : (Sys2Proof.Machine.execTurntableDetectedError die block again s) = .next t) (hs : Carries s₀ s) :
    Carries s₀ t := by
  unfold Sys2Proof.Machine.execTurntableDetectedError at ht
  obtain rfl := within_some ht
  try dsimp only
  repeat' first
    | with_reducible assumption
    | with_reducible apply State_setDie_carries
    | with_reducible apply carries_ite
    | with_reducible apply carries_ite_two
    | with_reducible apply carries_ite_one
    | simp only [carries_mk_iff]
    | (with_reducible apply carries_foldl; intro _ _ _)
    | (with_reducible apply carries_foldl_pair; intro _ _ _ _)
    | intro _
    | split
    | dsimp only

theorem State_spillLossless_carries {s₀ : State} {s : State} (it : Issue) (hs : Carries s₀ s) :
    Carries s₀ (Sys2Proof.Machine.State.spillLossless s it).1 := by
  unfold Sys2Proof.Machine.State.spillLossless
  try dsimp only
  repeat' first
    | with_reducible assumption
    | with_reducible apply State_count_carries
    | with_reducible apply State_put_carries
    | with_reducible apply carries_ite
    | with_reducible apply carries_ite_two
    | with_reducible apply carries_ite_one
    | simp only [carries_mk_iff]
    | (with_reducible apply carries_foldl; intro _ _ _)
    | (with_reducible apply carries_foldl_pair; intro _ _ _ _)
    | intro _
    | split
    | dsimp only

theorem State_spillF8_carries {s₀ : State} {s : State} (it : Issue) (hs : Carries s₀ s) :
    Carries s₀ (Sys2Proof.Machine.State.spillF8 s it).1 := by
  unfold Sys2Proof.Machine.State.spillF8
  try dsimp only
  repeat' first
    | with_reducible assumption
    | with_reducible apply State_commit_carries
    | with_reducible apply State_enterAmax_carries
    | with_reducible apply State_putCodes_carries
    | with_reducible apply State_putScales_carries
    | with_reducible apply State_recordAmax_carries
    | with_reducible apply carries_ite
    | with_reducible apply carries_ite_two
    | with_reducible apply carries_ite_one
    | simp only [carries_mk_iff]
    | (with_reducible apply carries_foldl; intro _ _ _)
    | (with_reducible apply carries_foldl_pair; intro _ _ _ _)
    | intro _
    | split
    | dsimp only

theorem State_loadSiding_carries {s₀ : State} {s : State} (it : Issue) (hs : Carries s₀ s) :
    Carries s₀ (Sys2Proof.Machine.State.loadSiding s it) := by
  unfold Sys2Proof.Machine.State.loadSiding
  try dsimp only
  repeat' first
    | with_reducible assumption
    | with_reducible apply State_setDie_carries
    | with_reducible apply carries_ite
    | with_reducible apply carries_ite_two
    | with_reducible apply carries_ite_one
    | simp only [carries_mk_iff]
    | (with_reducible apply carries_foldl; intro _ _ _)
    | (with_reducible apply carries_foldl_pair; intro _ _ _ _)
    | intro _
    | split
    | dsimp only

theorem State_spillSlot_carries {s₀ : State} {s : State} (it : Issue) (hs : Carries s₀ s) :
    Carries s₀ (Sys2Proof.Machine.State.spillSlot s it).1 := by
  unfold Sys2Proof.Machine.State.spillSlot
  try dsimp only
  repeat' first
    | with_reducible assumption
    | with_reducible apply State_copyRows_carries
    | with_reducible apply State_spillF8_carries
    | with_reducible apply State_spillLossless_carries
    | with_reducible apply carries_ite
    | with_reducible apply carries_ite_two
    | with_reducible apply carries_ite_one
    | simp only [carries_mk_iff]
    | (with_reducible apply carries_foldl; intro _ _ _)
    | (with_reducible apply carries_foldl_pair; intro _ _ _ _)
    | intro _
    | split
    | dsimp only

theorem State_runSpill_carries {s₀ : State} {s : State} (it : Issue) (hs : Carries s₀ s) :
    Carries s₀ (Sys2Proof.Machine.State.runSpill s it) := by
  unfold Sys2Proof.Machine.State.runSpill
  try dsimp only
  repeat' first
    | with_reducible assumption
    | with_reducible apply State_count_carries
    | with_reducible apply State_finish_carries
    | with_reducible apply State_loadSiding_carries
    | with_reducible apply State_reading_carries
    | with_reducible apply State_spillSlot_carries
    | with_reducible apply State_start_carries
    | with_reducible apply carries_ite
    | with_reducible apply carries_ite_two
    | with_reducible apply carries_ite_one
    | simp only [carries_mk_iff]
    | (with_reducible apply carries_foldl; intro _ _ _)
    | (with_reducible apply carries_foldl_pair; intro _ _ _ _)
    | intro _
    | split
    | dsimp only

theorem execMoveSpill_carries {s₀ : State} {s : State} (c : Nat) (t : State) (ht : (Sys2Proof.Machine.execMoveSpill c s) = .next t) (hs : Carries s₀ s) :
    Carries s₀ t := by
  unfold Sys2Proof.Machine.execMoveSpill at ht
  obtain rfl := within_some ht
  try dsimp only
  repeat' first
    | with_reducible assumption
    | with_reducible apply State_moveEngine_carries
    | with_reducible apply State_runSpill_carries
    | with_reducible apply carries_ite
    | with_reducible apply carries_ite_two
    | with_reducible apply carries_ite_one
    | simp only [carries_mk_iff]
    | (with_reducible apply carries_foldl; intro _ _ _)
    | (with_reducible apply carries_foldl_pair; intro _ _ _ _)
    | intro _
    | split
    | dsimp only

theorem State_putFill_carries {s₀ : State} {s : State} (it : Issue) (xs : List Nat) (hs : Carries s₀ s) :
    Carries s₀ (Sys2Proof.Machine.State.putFill s it xs) := by
  unfold Sys2Proof.Machine.State.putFill
  try dsimp only
  repeat' first
    | with_reducible assumption
    | with_reducible apply State_putRow_carries
    | with_reducible apply carries_ite
    | with_reducible apply carries_ite_two
    | with_reducible apply carries_ite_one
    | simp only [carries_mk_iff]
    | (with_reducible apply carries_foldl; intro _ _ _)
    | (with_reducible apply carries_foldl_pair; intro _ _ _ _)
    | intro _
    | split
    | dsimp only

theorem State_fillSlot_carries {s₀ : State} {s : State} (it : Issue) (hs : Carries s₀ s) :
    Carries s₀ (Sys2Proof.Machine.State.fillSlot s it) := by
  unfold Sys2Proof.Machine.State.fillSlot
  try dsimp only
  repeat' first
    | with_reducible assumption
    | with_reducible apply State_commit_carries
    | with_reducible apply State_copyRows_carries
    | with_reducible apply State_putFill_carries
    | with_reducible apply carries_ite
    | with_reducible apply carries_ite_two
    | with_reducible apply carries_ite_one
    | simp only [carries_mk_iff]
    | (with_reducible apply carries_foldl; intro _ _ _)
    | (with_reducible apply carries_foldl_pair; intro _ _ _ _)
    | intro _
    | split
    | dsimp only

theorem State_runFill_carries {s₀ : State} {s : State} (it : Issue) (hs : Carries s₀ s) :
    Carries s₀ (Sys2Proof.Machine.State.runFill s it) := by
  unfold Sys2Proof.Machine.State.runFill
  try dsimp only
  repeat' first
    | with_reducible assumption
    | with_reducible apply State_count_carries
    | with_reducible apply State_faultOwner_carries
    | with_reducible apply State_fillSlot_carries
    | with_reducible apply State_finish_carries
    | with_reducible apply State_loadSiding_carries
    | with_reducible apply State_reading_carries
    | with_reducible apply State_setStream_carries
    | with_reducible apply State_start_carries
    | with_reducible apply State_uncorrected_carries
    | with_reducible apply carries_ite
    | with_reducible apply carries_ite_two
    | with_reducible apply carries_ite_one
    | simp only [carries_mk_iff]
    | (with_reducible apply carries_foldl; intro _ _ _)
    | (with_reducible apply carries_foldl_pair; intro _ _ _ _)
    | intro _
    | split
    | dsimp only

theorem execMoveFill_carries {s₀ : State} {s : State} (c : Nat) (t : State) (ht : (Sys2Proof.Machine.execMoveFill c s) = .next t) (hs : Carries s₀ s) :
    Carries s₀ t := by
  unfold Sys2Proof.Machine.execMoveFill at ht
  obtain rfl := within_some ht
  try dsimp only
  repeat' first
    | with_reducible assumption
    | with_reducible apply State_moveEngine_carries
    | with_reducible apply State_runFill_carries
    | with_reducible apply carries_ite
    | with_reducible apply carries_ite_two
    | with_reducible apply carries_ite_one
    | simp only [carries_mk_iff]
    | (with_reducible apply carries_foldl; intro _ _ _)
    | (with_reducible apply carries_foldl_pair; intro _ _ _ _)
    | intro _
    | split
    | dsimp only

end Sys2Proof.Laws
end

