-- ==== Sys2Proof/Laws/Linam.lean ====
section
/-! SUPPORT. What the functions of Machine/Linam.lean leave alone (`Carries`). -/

namespace Sys2Proof.Laws

open Sys2Proof Sys2Proof.Machine

theorem State_freeFlits_carries {s₀ : State} {s : State} (p : Nat) (hs : Carries s₀ s) :
    Carries s₀ (Sys2Proof.Machine.State.freeFlits s p) := by
  unfold Sys2Proof.Machine.State.freeFlits
  try dsimp only
  repeat' first
    | with_reducible assumption
    | with_reducible apply State_setLink_carries
    | with_reducible apply carries_ite
    | with_reducible apply carries_ite_two
    | with_reducible apply carries_ite_one
    | simp only [carries_mk_iff]
    | (with_reducible apply carries_foldl; intro _ _ _)
    | (with_reducible apply carries_foldl_pair; intro _ _ _ _)
    | intro _
    | split
    | dsimp only

theorem State_sendGroup_carries {s₀ : State} {s : State} (p : Nat) (hs : Carries s₀ s) :
    Carries s₀ (Sys2Proof.Machine.State.sendGroup s p) := by
  unfold Sys2Proof.Machine.State.sendGroup
  try dsimp only
  repeat' first
    | with_reducible assumption
    | with_reducible apply State_count_carries
    | with_reducible apply State_freeFlits_carries
    | with_reducible apply State_setLink_carries
    | with_reducible apply carries_ite
    | with_reducible apply carries_ite_two
    | with_reducible apply carries_ite_one
    | simp only [carries_mk_iff]
    | (with_reducible apply carries_foldl; intro _ _ _)
    | (with_reducible apply carries_foldl_pair; intro _ _ _ _)
    | intro _
    | split
    | dsimp only

theorem State_faultPort_carries {s₀ : State} {s : State} (p : Nat) (hs : Carries s₀ s) :
    Carries s₀ (Sys2Proof.Machine.State.faultPort s p) := by
  unfold Sys2Proof.Machine.State.faultPort
  try dsimp only
  repeat' first
    | with_reducible assumption
    | with_reducible apply State_capture_carries
    | with_reducible apply State_faultJob_carries
    | with_reducible apply State_faultPlatform_carries
    | with_reducible apply carries_ite
    | with_reducible apply carries_ite_two
    | with_reducible apply carries_ite_one
    | simp only [carries_mk_iff]
    | (with_reducible apply carries_foldl; intro _ _ _)
    | (with_reducible apply carries_foldl_pair; intro _ _ _ _)
    | intro _
    | split
    | dsimp only

theorem State_dropHead_carries {s₀ : State} {s : State} (p : Nat) (v : Nat) (hs : Carries s₀ s) :
    Carries s₀ (Sys2Proof.Machine.State.dropHead s p v) := by
  unfold Sys2Proof.Machine.State.dropHead
  try dsimp only
  repeat' first
    | with_reducible assumption
    | with_reducible apply State_setLink_carries
    | with_reducible apply carries_ite
    | with_reducible apply carries_ite_two
    | with_reducible apply carries_ite_one
    | simp only [carries_mk_iff]
    | (with_reducible apply carries_foldl; intro _ _ _)
    | (with_reducible apply carries_foldl_pair; intro _ _ _ _)
    | intro _
    | split
    | dsimp only

theorem State_takeMessage_carries {s₀ s : State} (p v : Nat) (mine : Message → Bool) (k : State → Message → State)
    (hk : ∀ s m, Carries s₀ s → Carries s₀ (k s m)) (hs : Carries s₀ s) :
    Carries s₀ (Sys2Proof.Machine.State.takeMessage s p v mine k) := by
  unfold Sys2Proof.Machine.State.takeMessage
  split
  · exact hs
  · have h := State_dropHead_carries p v hs
    exact carries_ite hs (carries_ite (State_count_carries _ _ h) (hk _ _ h))

theorem State_commitPoints_carries {s₀ : State} {s : State} (epoch : Nat) (hs : Carries s₀ s) :
    Carries s₀ (Sys2Proof.Machine.State.commitPoints s epoch) := by
  unfold Sys2Proof.Machine.State.commitPoints
  try dsimp only
  repeat' first
    | with_reducible assumption
    | with_reducible apply State_setOd_carries
    | with_reducible apply carries_ite
    | with_reducible apply carries_ite_two
    | with_reducible apply carries_ite_one
    | simp only [carries_mk_iff]
    | (with_reducible apply carries_foldl; intro _ _ _)
    | (with_reducible apply carries_foldl_pair; intro _ _ _ _)
    | intro _
    | split
    | dsimp only

theorem State_buddyLost_carries {s₀ : State} {s : State} (p : Nat) (hs : Carries s₀ s) :
    Carries s₀ (Sys2Proof.Machine.State.buddyLost s p) := by
  unfold Sys2Proof.Machine.State.buddyLost
  try dsimp only
  repeat' first
    | with_reducible assumption
    | with_reducible apply State_setOd_carries
    | with_reducible apply carries_ite
    | with_reducible apply carries_ite_two
    | with_reducible apply carries_ite_one
    | simp only [carries_mk_iff]
    | (with_reducible apply carries_foldl; intro _ _ _)
    | (with_reducible apply carries_foldl_pair; intro _ _ _ _)
    | intro _
    | split
    | dsimp only

theorem State_portLost_carries {s₀ : State} {s : State} (p : Nat) (st : Nat) (hs : Carries s₀ s) :
    Carries s₀ (Sys2Proof.Machine.State.portLost s p st) := by
  unfold Sys2Proof.Machine.State.portLost
  try dsimp only
  repeat' first
    | with_reducible assumption
    | with_reducible apply State_buddyLost_carries
    | with_reducible apply State_faultPort_carries
    | with_reducible apply State_setLink_carries
    | with_reducible apply State_setOd_carries
    | with_reducible apply carries_ite
    | with_reducible apply carries_ite_two
    | with_reducible apply carries_ite_one
    | simp only [carries_mk_iff]
    | (with_reducible apply carries_foldl; intro _ _ _)
    | (with_reducible apply carries_foldl_pair; intro _ _ _ _)
    | intro _
    | split
    | dsimp only

theorem State_resetPorts_carries {s₀ : State} {s : State} (mask : Nat) (hs : Carries s₀ s) :
    Carries s₀ (Sys2Proof.Machine.State.resetPorts s mask) := by
  unfold Sys2Proof.Machine.State.resetPorts
  try dsimp only
  repeat' first
    | with_reducible assumption
    | with_reducible apply State_portLost_carries
    | with_reducible apply carries_ite
    | with_reducible apply carries_ite_two
    | with_reducible apply carries_ite_one
    | simp only [carries_mk_iff]
    | (with_reducible apply carries_foldl; intro _ _ _)
    | (with_reducible apply carries_foldl_pair; intro _ _ _ _)
    | intro _
    | split
    | dsimp only

theorem State_resendAll_carries {s₀ : State} {s : State} (p : Nat) (l : LinkPort) (hs : Carries s₀ s) :
    Carries s₀ (Sys2Proof.Machine.State.resendAll s p l) := by
  unfold Sys2Proof.Machine.State.resendAll
  try dsimp only
  repeat' first
    | with_reducible assumption
    | with_reducible apply State_freeFlits_carries
    | with_reducible apply State_setLink_carries
    | with_reducible apply carries_ite
    | with_reducible apply carries_ite_two
    | with_reducible apply carries_ite_one
    | simp only [carries_mk_iff]
    | (with_reducible apply carries_foldl; intro _ _ _)
    | (with_reducible apply carries_foldl_pair; intro _ _ _ _)
    | intro _
    | split
    | dsimp only

theorem State_replay_carries {s₀ : State} {s : State} (p : Nat) (hs : Carries s₀ s) :
    Carries s₀ (Sys2Proof.Machine.State.replay s p) := by
  unfold Sys2Proof.Machine.State.replay
  try dsimp only
  repeat' first
    | with_reducible assumption
    | with_reducible apply State_count_carries
    | with_reducible apply State_portLost_carries
    | with_reducible apply State_resendAll_carries
    | with_reducible apply carries_ite
    | with_reducible apply carries_ite_two
    | with_reducible apply carries_ite_one
    | simp only [carries_mk_iff]
    | (with_reducible apply carries_foldl; intro _ _ _)
    | (with_reducible apply carries_foldl_pair; intro _ _ _ _)
    | intro _
    | split
    | dsimp only

theorem execLinkGroupReceive_carries {s₀ : State} {s : State} (p : Nat) (lanes : List (List Frame)) (fecOk : Bool) (t : State) (ht : (Sys2Proof.Machine.execLinkGroupReceive p lanes fecOk s) = .next t) (hs : Carries s₀ s) :
    Carries s₀ t := by
  unfold Sys2Proof.Machine.execLinkGroupReceive at ht
  obtain rfl := within_some ht
  try dsimp only
  repeat' first
    | with_reducible assumption
    | with_reducible apply State_count_carries
    | with_reducible apply State_replay_carries
    | with_reducible apply State_sendGroup_carries
    | with_reducible apply State_setLink_carries
    | with_reducible apply carries_ite
    | with_reducible apply carries_ite_two
    | with_reducible apply carries_ite_one
    | simp only [carries_mk_iff]
    | (with_reducible apply carries_foldl; intro _ _ _)
    | (with_reducible apply carries_foldl_pair; intro _ _ _ _)
    | intro _
    | split
    | dsimp only

theorem execLinkAckDeadline_carries {s₀ : State} {s : State} (p : Nat) (elapsedNs : Nat) (t : State) (ht : (Sys2Proof.Machine.execLinkAckDeadline p elapsedNs s) = .next t) (hs : Carries s₀ s) :
    Carries s₀ t := by
  unfold Sys2Proof.Machine.execLinkAckDeadline at ht
  obtain rfl := within_some ht
  try dsimp only
  repeat' first
    | with_reducible assumption
    | with_reducible apply State_replay_carries
    | with_reducible apply carries_ite
    | with_reducible apply carries_ite_two
    | with_reducible apply carries_ite_one
    | simp only [carries_mk_iff]
    | (with_reducible apply carries_foldl; intro _ _ _)
    | (with_reducible apply carries_foldl_pair; intro _ _ _ _)
    | intro _
    | split
    | dsimp only

theorem State_substitute_carries {s₀ : State} {s : State} (p : Nat) (lane : Nat) (hs : Carries s₀ s) :
    Carries s₀ (Sys2Proof.Machine.State.substitute s p lane) := by
  unfold Sys2Proof.Machine.State.substitute
  try dsimp only
  repeat' first
    | with_reducible assumption
    | with_reducible apply State_count_carries
    | with_reducible apply State_portLost_carries
    | with_reducible apply State_sendHop_carries
    | with_reducible apply State_setLink_carries
    | with_reducible apply State_setOd_carries
    | with_reducible apply State_sticky_carries
    | with_reducible apply carries_ite
    | with_reducible apply carries_ite_two
    | with_reducible apply carries_ite_one
    | simp only [carries_mk_iff]
    | (with_reducible apply carries_foldl; intro _ _ _)
    | (with_reducible apply carries_foldl_pair; intro _ _ _ _)
    | intro _
    | split
    | dsimp only

theorem execLaneLockLoss_carries {s₀ : State} {s : State} (p : Nat) (lane : Nat) (t : State) (ht : (Sys2Proof.Machine.execLaneLockLoss p lane s) = .next t) (hs : Carries s₀ s) :
    Carries s₀ t := by
  unfold Sys2Proof.Machine.execLaneLockLoss at ht
  obtain rfl := within_some ht
  try dsimp only
  repeat' first
    | with_reducible assumption
    | with_reducible apply State_substitute_carries
    | with_reducible apply carries_ite
    | with_reducible apply carries_ite_two
    | with_reducible apply carries_ite_one
    | simp only [carries_mk_iff]
    | (with_reducible apply carries_foldl; intro _ _ _)
    | (with_reducible apply carries_foldl_pair; intro _ _ _ _)
    | intro _
    | split
    | dsimp only

theorem execLaneSerWindow_carries {s₀ : State} {s : State} (p : Nat) (lane : Nat) (ratio : W32) (t : State) (ht : (Sys2Proof.Machine.execLaneSerWindow p lane ratio s) = .next t) (hs : Carries s₀ s) :
    Carries s₀ t := by
  unfold Sys2Proof.Machine.execLaneSerWindow at ht
  obtain rfl := within_some ht
  try dsimp only
  repeat' first
    | with_reducible assumption
    | with_reducible apply State_substitute_carries
    | with_reducible apply carries_ite
    | with_reducible apply carries_ite_two
    | with_reducible apply carries_ite_one
    | simp only [carries_mk_iff]
    | (with_reducible apply carries_foldl; intro _ _ _)
    | (with_reducible apply carries_foldl_pair; intro _ _ _ _)
    | intro _
    | split
    | dsimp only

theorem execLaneSubTimeout_carries {s₀ : State} {s : State} (p : Nat) (elapsedNs : Nat) (t : State) (ht : (Sys2Proof.Machine.execLaneSubTimeout p elapsedNs s) = .next t) (hs : Carries s₀ s) :
    Carries s₀ t := by
  unfold Sys2Proof.Machine.execLaneSubTimeout at ht
  obtain rfl := within_some ht
  try dsimp only
  repeat' first
    | with_reducible assumption
    | with_reducible apply State_portLost_carries
    | with_reducible apply carries_ite
    | with_reducible apply carries_ite_two
    | with_reducible apply carries_ite_one
    | simp only [carries_mk_iff]
    | (with_reducible apply carries_foldl; intro _ _ _)
    | (with_reducible apply carries_foldl_pair; intro _ _ _ _)
    | intro _
    | split
    | dsimp only

theorem State_faultMessage_carries {s₀ : State} {s : State} (e : Event) (hs : Carries s₀ s) :
    Carries s₀ (Sys2Proof.Machine.State.faultMessage s e) := by
  unfold Sys2Proof.Machine.State.faultMessage
  try dsimp only
  repeat' first
    | with_reducible assumption
    | with_reducible apply State_capture_carries
    | with_reducible apply State_faultJob_carries
    | with_reducible apply State_faultOwner_carries
    | with_reducible apply carries_ite
    | with_reducible apply carries_ite_two
    | with_reducible apply carries_ite_one
    | simp only [carries_mk_iff]
    | (with_reducible apply carries_foldl; intro _ _ _)
    | (with_reducible apply carries_foldl_pair; intro _ _ _ _)
    | intro _
    | split
    | dsimp only

theorem State_ackMessage_carries {s₀ : State} {s : State} (m : Message) (hs : Carries s₀ s) :
    Carries s₀ (Sys2Proof.Machine.State.ackMessage s m) := by
  unfold Sys2Proof.Machine.State.ackMessage
  try dsimp only
  repeat' first
    | with_reducible assumption
    | with_reducible apply State_sendTo_carries
    | with_reducible apply carries_ite
    | with_reducible apply carries_ite_two
    | with_reducible apply carries_ite_one
    | simp only [carries_mk_iff]
    | (with_reducible apply carries_foldl; intro _ _ _)
    | (with_reducible apply carries_foldl_pair; intro _ _ _ _)
    | intro _
    | split
    | dsimp only

theorem State_messageSignal_carries {s₀ : State} {s : State} (m : Message) (hs : Carries s₀ s) :
    Carries s₀ (Sys2Proof.Machine.State.messageSignal s m) := by
  unfold Sys2Proof.Machine.State.messageSignal
  try dsimp only
  repeat' first
    | with_reducible assumption
    | with_reducible apply State_signal_carries
    | with_reducible apply carries_ite
    | with_reducible apply carries_ite_two
    | with_reducible apply carries_ite_one
    | simp only [carries_mk_iff]
    | (with_reducible apply carries_foldl; intro _ _ _)
    | (with_reducible apply carries_foldl_pair; intro _ _ _ _)
    | intro _
    | split
    | dsimp only

theorem execMoveWrite_carries {s₀ : State} {s : State} (p : Nat) (t : State) (ht : (Sys2Proof.Machine.execMoveWrite p s) = .next t) (hs : Carries s₀ s) :
    Carries s₀ t := by
  unfold Sys2Proof.Machine.execMoveWrite at ht
  obtain rfl := within_some ht
  try dsimp only
  repeat' first
    | with_reducible assumption
    | with_reducible apply State_ackMessage_carries
    | with_reducible apply State_faultMessage_carries
    | with_reducible apply State_messageSignal_carries
    | with_reducible apply State_put_carries
    | with_reducible apply State_takeMessage_carries
    | with_reducible apply State_uncorrected_carries
    | with_reducible apply carries_ite
    | with_reducible apply carries_ite_two
    | with_reducible apply carries_ite_one
    | simp only [carries_mk_iff]
    | (with_reducible apply carries_foldl; intro _ _ _)
    | (with_reducible apply carries_foldl_pair; intro _ _ _ _)
    | intro _
    | split
    | dsimp only

theorem execWriteAck_carries {s₀ : State} {s : State} (p : Nat) (t : State) (ht : (Sys2Proof.Machine.execWriteAck p s) = .next t) (hs : Carries s₀ s) :
    Carries s₀ t := by
  unfold Sys2Proof.Machine.execWriteAck at ht
  obtain rfl := within_some ht
  try dsimp only
  repeat' first
    | with_reducible assumption
    | with_reducible apply State_finish_carries
    | with_reducible apply State_takeMessage_carries
    | with_reducible apply carries_ite
    | with_reducible apply carries_ite_two
    | with_reducible apply carries_ite_one
    | simp only [carries_mk_iff]
    | (with_reducible apply carries_foldl; intro _ _ _)
    | (with_reducible apply carries_foldl_pair; intro _ _ _ _)
    | intro _
    | split
    | dsimp only

theorem execLinkMessageForward_carries {s₀ : State} {s : State} (p : Nat) (v : Nat) (t : State) (ht : (Sys2Proof.Machine.execLinkMessageForward p v s) = .next t) (hs : Carries s₀ s) :
    Carries s₀ t := by
  unfold Sys2Proof.Machine.execLinkMessageForward at ht
  obtain rfl := within_some ht
  try dsimp only
  repeat' first
    | with_reducible assumption
    | with_reducible apply State_count_carries
    | with_reducible apply State_dropHead_carries
    | with_reducible apply State_faultMessage_carries
    | with_reducible apply State_sendOn_carries
    | with_reducible apply carries_ite
    | with_reducible apply carries_ite_two
    | with_reducible apply carries_ite_one
    | simp only [carries_mk_iff]
    | (with_reducible apply carries_foldl; intro _ _ _)
    | (with_reducible apply carries_foldl_pair; intro _ _ _ _)
    | intro _
    | split
    | dsimp only

theorem execJobFault_carries {s₀ : State} {s : State} (p : Nat) (t : State) (ht : (Sys2Proof.Machine.execJobFault p s) = .next t) (hs : Carries s₀ s) :
    Carries s₀ t := by
  unfold Sys2Proof.Machine.execJobFault at ht
  obtain rfl := within_some ht
  try dsimp only
  repeat' first
    | with_reducible assumption
    | with_reducible apply State_faultJobAs_carries
    | with_reducible apply State_sendHop_carries
    | with_reducible apply State_takeMessage_carries
    | with_reducible apply carries_ite
    | with_reducible apply carries_ite_two
    | with_reducible apply carries_ite_one
    | simp only [carries_mk_iff]
    | (with_reducible apply carries_foldl; intro _ _ _)
    | (with_reducible apply carries_foldl_pair; intro _ _ _ _)
    | intro _
    | split
    | dsimp only

theorem execLaneSub_carries {s₀ : State} {s : State} (p : Nat) (t : State) (ht : (Sys2Proof.Machine.execLaneSub p s) = .next t) (hs : Carries s₀ s) :
    Carries s₀ t := by
  unfold Sys2Proof.Machine.execLaneSub at ht
  obtain rfl := within_some ht
  try dsimp only
  repeat' first
    | with_reducible assumption
    | with_reducible apply State_resendAll_carries
    | with_reducible apply State_setOd_carries
    | with_reducible apply State_sticky_carries
    | with_reducible apply State_takeMessage_carries
    | with_reducible apply carries_ite
    | with_reducible apply carries_ite_two
    | with_reducible apply carries_ite_one
    | simp only [carries_mk_iff]
    | (with_reducible apply carries_foldl; intro _ _ _)
    | (with_reducible apply carries_foldl_pair; intro _ _ _ _)
    | intro _
    | split
    | dsimp only

theorem execPortTrainingStart_carries {s₀ : State} {s : State} (p : Nat) (txGood : Nat) (rxGood : Nat) (skews : List Nat) (t : State) (ht : (Sys2Proof.Machine.execPortTrainingStart p txGood rxGood skews s) = .next t) (hs : Carries s₀ s) :
    Carries s₀ t := by
  unfold Sys2Proof.Machine.execPortTrainingStart at ht
  obtain rfl := within_some ht
  try dsimp only
  repeat' first
    | with_reducible assumption
    | with_reducible apply State_setLink_carries
    | with_reducible apply State_setOd_carries
    | with_reducible apply carries_ite
    | with_reducible apply carries_ite_two
    | with_reducible apply carries_ite_one
    | simp only [carries_mk_iff]
    | (with_reducible apply carries_foldl; intro _ _ _)
    | (with_reducible apply carries_foldl_pair; intro _ _ _ _)
    | intro _
    | split
    | dsimp only

theorem execPortTrainingTimeout_carries {s₀ : State} {s : State} (p : Nat) (elapsedMs : Nat) (t : State) (ht : (Sys2Proof.Machine.execPortTrainingTimeout p elapsedMs s) = .next t) (hs : Carries s₀ s) :
    Carries s₀ t := by
  unfold Sys2Proof.Machine.execPortTrainingTimeout at ht
  obtain rfl := within_some ht
  try dsimp only
  repeat' first
    | with_reducible assumption
    | with_reducible apply State_setOd_carries
    | with_reducible apply carries_ite
    | with_reducible apply carries_ite_two
    | with_reducible apply carries_ite_one
    | simp only [carries_mk_iff]
    | (with_reducible apply carries_foldl; intro _ _ _)
    | (with_reducible apply carries_foldl_pair; intro _ _ _ _)
    | intro _
    | split
    | dsimp only

theorem execPortTrainingRetry_carries {s₀ : State} {s : State} (p : Nat) (elapsedMs : Nat) (t : State) (ht : (Sys2Proof.Machine.execPortTrainingRetry p elapsedMs s) = .next t) (hs : Carries s₀ s) :
    Carries s₀ t := by
  unfold Sys2Proof.Machine.execPortTrainingRetry at ht
  obtain rfl := within_some ht
  try dsimp only
  repeat' first
    | with_reducible assumption
    | with_reducible apply State_setLink_carries
    | with_reducible apply State_setOd_carries
    | with_reducible apply carries_ite
    | with_reducible apply carries_ite_two
    | with_reducible apply carries_ite_one
    | simp only [carries_mk_iff]
    | (with_reducible apply carries_foldl; intro _ _ _)
    | (with_reducible apply carries_foldl_pair; intro _ _ _ _)
    | intro _
    | split
    | dsimp only

theorem execLinkPortReset_carries {s₀ : State} {s : State} (value : Nat) (t : State) (ht : (Sys2Proof.Machine.execLinkPortReset value s) = .next t) (hs : Carries s₀ s) :
    Carries s₀ t := by
  unfold Sys2Proof.Machine.execLinkPortReset at ht
  obtain rfl := within_some ht
  try dsimp only
  repeat' first
    | with_reducible assumption
    | with_reducible apply State_resetPorts_carries
    | with_reducible apply carries_ite
    | with_reducible apply carries_ite_two
    | with_reducible apply carries_ite_one
    | simp only [carries_mk_iff]
    | (with_reducible apply carries_foldl; intro _ _ _)
    | (with_reducible apply carries_foldl_pair; intro _ _ _ _)
    | intro _
    | split
    | dsimp only

theorem execPointsCommit_carries {s₀ : State} {s : State} (value : Nat) (t : State) (ht : (Sys2Proof.Machine.execPointsCommit value s) = .next t) (hs : Carries s₀ s) :
    Carries s₀ t := by
  unfold Sys2Proof.Machine.execPointsCommit at ht
  obtain rfl := within_some ht
  try dsimp only
  repeat' first
    | with_reducible assumption
    | with_reducible apply State_commitPoints_carries
    | with_reducible apply carries_ite
    | with_reducible apply carries_ite_two
    | with_reducible apply carries_ite_one
    | simp only [carries_mk_iff]
    | (with_reducible apply carries_foldl; intro _ _ _)
    | (with_reducible apply carries_foldl_pair; intro _ _ _ _)
    | intro _
    | split
    | dsimp only

end Sys2Proof.Laws
end

