-- ==== Sys2Proof/Laws/Streams.lean ====
section
/-! SUPPORT. What the functions of Machine/Streams.lean leave alone (`Carries`). -/

namespace Sys2Proof.Laws

open Sys2Proof Sys2Proof.Machine

theorem execSync_carries {s₀ : State} {s : State} (c : Nat) (t : State) (ht : (Sys2Proof.Machine.execSync c s) = .next t) (hs : Carries s₀ s) :
    Carries s₀ t := by
  unfold Sys2Proof.Machine.execSync at ht
  obtain rfl := within_some ht
  try dsimp only
  repeat' first
    | with_reducible assumption
    | with_reducible apply State_complete_carries
    | with_reducible apply State_runKind_carries
    | with_reducible apply carries_ite
    | with_reducible apply carries_ite_two
    | with_reducible apply carries_ite_one
    | simp only [carries_mk_iff]
    | (with_reducible apply carries_foldl; intro _ _ _)
    | (with_reducible apply carries_foldl_pair; intro _ _ _ _)
    | intro _
    | split
    | dsimp only

theorem execPlace_carries {s₀ : State} {s : State} (c : Nat) (t : State) (ht : (Sys2Proof.Machine.execPlace c s) = .next t) (hs : Carries s₀ s) :
    Carries s₀ t := by
  unfold Sys2Proof.Machine.execPlace at ht
  obtain rfl := within_some ht
  try dsimp only
  repeat' first
    | with_reducible assumption
    | with_reducible apply State_complete_carries
    | with_reducible apply State_runKind_carries
    | with_reducible apply State_setStream_carries
    | with_reducible apply carries_ite
    | with_reducible apply carries_ite_two
    | with_reducible apply carries_ite_one
    | simp only [carries_mk_iff]
    | (with_reducible apply carries_foldl; intro _ _ _)
    | (with_reducible apply carries_foldl_pair; intro _ _ _ _)
    | intro _
    | split
    | dsimp only

theorem State_rebase_carries {s₀ : State} {s : State} (c : Nat) (m : Nat) (hs : Carries s₀ s) :
    Carries s₀ (Sys2Proof.Machine.State.rebase s c m) := by
  unfold Sys2Proof.Machine.State.rebase
  try dsimp only
  repeat' first
    | with_reducible assumption
    | with_reducible apply State_count_carries
    | with_reducible apply State_setCore_carries
    | with_reducible apply State_setCtr_carries
    | with_reducible apply State_settle_carries
    | with_reducible apply carries_ite
    | with_reducible apply carries_ite_two
    | with_reducible apply carries_ite_one
    | simp only [carries_mk_iff]
    | (with_reducible apply carries_foldl; intro _ _ _)
    | (with_reducible apply carries_foldl_pair; intro _ _ _ _)
    | intro _
    | split
    | dsimp only

theorem execRebase_carries {s₀ : State} {s : State} (c : Nat) (t : State) (ht : (Sys2Proof.Machine.execRebase c s) = .next t) (hs : Carries s₀ s) :
    Carries s₀ t := by
  unfold Sys2Proof.Machine.execRebase at ht
  obtain rfl := within_some ht
  try dsimp only
  repeat' first
    | with_reducible assumption
    | with_reducible apply State_complete_carries
    | with_reducible apply State_rebase_carries
    | with_reducible apply State_runKind_carries
    | with_reducible apply carries_ite
    | with_reducible apply carries_ite_two
    | with_reducible apply carries_ite_one
    | simp only [carries_mk_iff]
    | (with_reducible apply carries_foldl; intro _ _ _)
    | (with_reducible apply carries_foldl_pair; intro _ _ _ _)
    | intro _
    | split
    | dsimp only

theorem State_stepOn_carries {s₀ : State} {s : State} (it : Issue) (img : Image) (d : StreamDecl) (hs : Carries s₀ s) :
    Carries s₀ (Sys2Proof.Machine.State.stepOn s it img d) := by
  unfold Sys2Proof.Machine.State.stepOn
  try dsimp only
  repeat' first
    | with_reducible assumption
    | with_reducible apply State_faultIssue_carries
    | with_reducible apply State_reach_carries
    | with_reducible apply State_setStream_carries
    | with_reducible apply carries_ite
    | with_reducible apply carries_ite_two
    | with_reducible apply carries_ite_one
    | simp only [carries_mk_iff]
    | (with_reducible apply carries_foldl; intro _ _ _)
    | (with_reducible apply carries_foldl_pair; intro _ _ _ _)
    | intro _
    | split
    | dsimp only

theorem execStepEnd_carries {s₀ : State} {s : State} (c : Nat) (t : State) (ht : (Sys2Proof.Machine.execStepEnd c s) = .next t) (hs : Carries s₀ s) :
    Carries s₀ t := by
  unfold Sys2Proof.Machine.execStepEnd at ht
  obtain rfl := within_some ht
  try dsimp only
  repeat' first
    | with_reducible assumption
    | with_reducible apply State_followStep_carries
    | with_reducible apply State_runKind_carries
    | with_reducible apply State_stepOn_carries
    | with_reducible apply carries_ite
    | with_reducible apply carries_ite_two
    | with_reducible apply carries_ite_one
    | simp only [carries_mk_iff]
    | (with_reducible apply carries_foldl; intro _ _ _)
    | (with_reducible apply carries_foldl_pair; intro _ _ _ _)
    | intro _
    | split
    | dsimp only

theorem execStreamEnd_carries {s₀ : State} {s : State} (c : Nat) (t : State) (ht : (Sys2Proof.Machine.execStreamEnd c s) = .next t) (hs : Carries s₀ s) :
    Carries s₀ t := by
  unfold Sys2Proof.Machine.execStreamEnd at ht
  obtain rfl := within_some ht
  try dsimp only
  repeat' first
    | with_reducible assumption
    | with_reducible apply State_endJob_carries
    | with_reducible apply State_runKind_carries
    | with_reducible apply State_setStream_carries
    | with_reducible apply carries_ite
    | with_reducible apply carries_ite_two
    | with_reducible apply carries_ite_one
    | simp only [carries_mk_iff]
    | (with_reducible apply carries_foldl; intro _ _ _)
    | (with_reducible apply carries_foldl_pair; intro _ _ _ _)
    | intro _
    | split
    | dsimp only

theorem execCounterSignal_carries {s₀ : State} {s : State} (c : Nat) (t : State) (ht : (Sys2Proof.Machine.execCounterSignal c s) = .next t) (hs : Carries s₀ s) :
    Carries s₀ t := by
  unfold Sys2Proof.Machine.execCounterSignal at ht
  obtain rfl := within_some ht
  try dsimp only
  repeat' first
    | with_reducible assumption
    | with_reducible apply State_setCore_carries
    | with_reducible apply State_signal_carries
    | with_reducible apply carries_ite
    | with_reducible apply carries_ite_two
    | with_reducible apply carries_ite_one
    | simp only [carries_mk_iff]
    | (with_reducible apply carries_foldl; intro _ _ _)
    | (with_reducible apply carries_foldl_pair; intro _ _ _ _)
    | intro _
    | split
    | dsimp only

theorem execSbSet_carries {s₀ : State} {s : State} (c : Nat) (value : W64) (t : State) (ht : (Sys2Proof.Machine.execSbSet c value s) = .next t) (hs : Carries s₀ s) :
    Carries s₀ t := by
  unfold Sys2Proof.Machine.execSbSet at ht
  obtain rfl := within_some ht
  try dsimp only
  repeat' first
    | with_reducible assumption
    | with_reducible apply State_setCtr_carries
    | with_reducible apply State_setOd_carries
    | with_reducible apply State_setPlat_carries
    | with_reducible apply State_settle_carries
    | with_reducible apply State_sticky_carries
    | with_reducible apply carries_ite
    | with_reducible apply carries_ite_two
    | with_reducible apply carries_ite_one
    | simp only [carries_mk_iff]
    | (with_reducible apply carries_foldl; intro _ _ _)
    | (with_reducible apply carries_foldl_pair; intro _ _ _ _)
    | intro _
    | split
    | dsimp only

theorem execSyncHangReport_carries {s₀ : State} {s : State} (c : Nat) (i : Nat) (heldMs : Nat) (t : State) (ht : (Sys2Proof.Machine.execSyncHangReport c i heldMs s) = .next t) (hs : Carries s₀ s) :
    Carries s₀ t := by
  unfold Sys2Proof.Machine.execSyncHangReport at ht
  obtain rfl := within_some ht
  try dsimp only
  repeat' first
    | with_reducible assumption
    | with_reducible apply State_count_carries
    | with_reducible apply State_raiseErr_carries
    | with_reducible apply State_setStream_carries
    | with_reducible apply carries_ite
    | with_reducible apply carries_ite_two
    | with_reducible apply carries_ite_one
    | simp only [carries_mk_iff]
    | (with_reducible apply carries_foldl; intro _ _ _)
    | (with_reducible apply carries_foldl_pair; intro _ _ _ _)
    | intro _
    | split
    | dsimp only

theorem execSyncHang_carries {s₀ : State} {s : State} (c : Nat) (i : Nat) (heldMs : Nat) (t : State) (ht : (Sys2Proof.Machine.execSyncHang c i heldMs s) = .next t) (hs : Carries s₀ s) :
    Carries s₀ t := by
  unfold Sys2Proof.Machine.execSyncHang at ht
  obtain rfl := within_some ht
  try dsimp only
  repeat' first
    | with_reducible assumption
    | with_reducible apply State_faultStream_carries
    | with_reducible apply carries_ite
    | with_reducible apply carries_ite_two
    | with_reducible apply carries_ite_one
    | simp only [carries_mk_iff]
    | (with_reducible apply carries_foldl; intro _ _ _)
    | (with_reducible apply carries_foldl_pair; intro _ _ _ _)
    | intro _
    | split
    | dsimp only

theorem execNotify_carries {s₀ : State} {s : State} (c : Nat) (t : State) (ht : (Sys2Proof.Machine.execNotify c s) = .next t) (hs : Carries s₀ s) :
    Carries s₀ t := by
  unfold Sys2Proof.Machine.execNotify at ht
  obtain rfl := within_some ht
  try dsimp only
  repeat' first
    | with_reducible assumption
    | with_reducible apply State_complete_carries
    | with_reducible apply State_pushRecord_carries
    | with_reducible apply State_runKind_carries
    | with_reducible apply State_setStream_carries
    | with_reducible apply carries_ite
    | with_reducible apply carries_ite_two
    | with_reducible apply carries_ite_one
    | simp only [carries_mk_iff]
    | (with_reducible apply carries_foldl; intro _ _ _)
    | (with_reducible apply carries_foldl_pair; intro _ _ _ _)
    | intro _
    | split
    | dsimp only

end Sys2Proof.Laws
end

