-- ==== Sys2Proof/Laws/Barriers.lean ====
section
/-! SUPPORT. What the functions of Machine/Barriers.lean leave alone (`Carries`). -/

namespace Sys2Proof.Laws

open Sys2Proof Sys2Proof.Machine

theorem State_setChannel_carries {s₀ : State} {s : State} (ch : Nat) (x : Channel) (hs : Carries s₀ s) :
    Carries s₀ (Sys2Proof.Machine.State.setChannel s ch x) := by
  unfold Sys2Proof.Machine.State.setChannel
  try dsimp only
  repeat' first
    | with_reducible assumption
    | with_reducible apply carries_ite
    | with_reducible apply carries_ite_two
    | with_reducible apply carries_ite_one
    | simp only [carries_mk_iff]
    | (with_reducible apply carries_foldl; intro _ _ _)
    | (with_reducible apply carries_foldl_pair; intro _ _ _ _)
    | intro _
    | split
    | dsimp only

theorem State_gather_carries {s₀ : State} {s : State} (p : Nat) (ch : Nat) (n : Nat) (hs : Carries s₀ s) :
    Carries s₀ (Sys2Proof.Machine.State.gather s p ch n) := by
  unfold Sys2Proof.Machine.State.gather
  try dsimp only
  repeat' first
    | with_reducible assumption
    | with_reducible apply State_sendHop_carries
    | with_reducible apply State_setChannel_carries
    | with_reducible apply carries_ite
    | with_reducible apply carries_ite_two
    | with_reducible apply carries_ite_one
    | simp only [carries_mk_iff]
    | (with_reducible apply carries_foldl; intro _ _ _)
    | (with_reducible apply carries_foldl_pair; intro _ _ _ _)
    | intro _
    | split
    | dsimp only

theorem State_regather_carries {s₀ : State} {s : State}  (hs : Carries s₀ s) :
    Carries s₀ (Sys2Proof.Machine.State.regather s) := by
  unfold Sys2Proof.Machine.State.regather
  try dsimp only
  repeat' first
    | with_reducible assumption
    | with_reducible apply State_gather_carries
    | with_reducible apply carries_ite
    | with_reducible apply carries_ite_two
    | with_reducible apply carries_ite_one
    | simp only [carries_mk_iff]
    | (with_reducible apply carries_foldl; intro _ _ _)
    | (with_reducible apply carries_foldl_pair; intro _ _ _ _)
    | intro _
    | split
    | dsimp only

theorem execPortHandshake_carries {s₀ : State} {s : State} (p : Nat) (peer : Nat) (peerPort : Nat) (epoch : Nat) (credits : List Nat) (t : State) (ht : (Sys2Proof.Machine.execPortHandshake p peer peerPort epoch credits s) = .next t) (hs : Carries s₀ s) :
    Carries s₀ t := by
  unfold Sys2Proof.Machine.execPortHandshake at ht
  obtain rfl := within_some ht
  try dsimp only
  repeat' first
    | with_reducible assumption
    | with_reducible apply State_regather_carries
    | with_reducible apply State_sendGroup_carries
    | with_reducible apply State_setLink_carries
    | with_reducible apply State_setOd_carries
    | with_reducible apply carries_ite
    | with_reducible apply carries_ite_two
    | with_reducible apply carries_ite_one
    | simp only [carries_mk_iff]
    | (with_reducible apply carries_foldl; intro _ _ _)
    | (with_reducible apply carries_foldl_pair; intro _ _ _ _)
    | intro _
    | split
    | dsimp only

theorem State_arrive_carries {s₀ : State} {s : State} (it : Issue) (hs : Carries s₀ s) :
    Carries s₀ (Sys2Proof.Machine.State.arrive s it) := by
  unfold Sys2Proof.Machine.State.arrive
  try dsimp only
  repeat' first
    | with_reducible assumption
    | with_reducible apply State_advance_carries
    | with_reducible apply State_gather_carries
    | with_reducible apply State_setChannel_carries
    | with_reducible apply carries_ite
    | with_reducible apply carries_ite_two
    | with_reducible apply carries_ite_one
    | simp only [carries_mk_iff]
    | (with_reducible apply carries_foldl; intro _ _ _)
    | (with_reducible apply carries_foldl_pair; intro _ _ _ _)
    | intro _
    | split
    | dsimp only

theorem execBarrier_carries {s₀ : State} {s : State} (c : Nat) (t : State) (ht : (Sys2Proof.Machine.execBarrier c s) = .next t) (hs : Carries s₀ s) :
    Carries s₀ t := by
  unfold Sys2Proof.Machine.execBarrier at ht
  obtain rfl := within_some ht
  try dsimp only
  repeat' first
    | with_reducible assumption
    | with_reducible apply State_arrive_carries
    | with_reducible apply State_faultIssue_carries
    | with_reducible apply State_runKind_carries
    | with_reducible apply carries_ite
    | with_reducible apply carries_ite_two
    | with_reducible apply carries_ite_one
    | simp only [carries_mk_iff]
    | (with_reducible apply carries_foldl; intro _ _ _)
    | (with_reducible apply carries_foldl_pair; intro _ _ _ _)
    | intro _
    | split
    | dsimp only

theorem State_releaseAt_carries {s₀ : State} {s : State} (a : Arrival) (n : Nat) (pay : Nat) (hs : Carries s₀ s) :
    Carries s₀ (Sys2Proof.Machine.State.releaseAt s a n pay) := by
  unfold Sys2Proof.Machine.State.releaseAt
  try dsimp only
  repeat' first
    | with_reducible assumption
    | with_reducible apply State_put_carries
    | with_reducible apply State_signal_carries
    | with_reducible apply carries_ite
    | with_reducible apply carries_ite_two
    | with_reducible apply carries_ite_one
    | simp only [carries_mk_iff]
    | (with_reducible apply carries_foldl; intro _ _ _)
    | (with_reducible apply carries_foldl_pair; intro _ _ _ _)
    | intro _
    | split
    | dsimp only

theorem State_releaseBarrier_carries {s₀ : State} {s : State} (p : Nat) (ch : Nat) (n : Nat) (pay : Nat) (elapsedNs : Nat) (hs : Carries s₀ s) :
    Carries s₀ (Sys2Proof.Machine.State.releaseBarrier s p ch n pay elapsedNs) := by
  unfold Sys2Proof.Machine.State.releaseBarrier
  try dsimp only
  repeat' first
    | with_reducible assumption
    | with_reducible apply State_count_carries
    | with_reducible apply State_countMax_carries
    | with_reducible apply State_endJob_carries
    | with_reducible apply State_releaseAt_carries
    | with_reducible apply State_sendHop_carries
    | with_reducible apply State_setChannel_carries
    | with_reducible apply carries_ite
    | with_reducible apply carries_ite_two
    | with_reducible apply carries_ite_one
    | simp only [carries_mk_iff]
    | (with_reducible apply carries_foldl; intro _ _ _)
    | (with_reducible apply carries_foldl_pair; intro _ _ _ _)
    | intro _
    | split
    | dsimp only

theorem execBarrierTokenDeadline_carries {s₀ : State} {s : State} (port : Nat) (ch : Nat) (elapsedNs : Nat) (t : State) (ht : (Sys2Proof.Machine.execBarrierTokenDeadline port ch elapsedNs s) = .next t) (hs : Carries s₀ s) :
    Carries s₀ t := by
  unfold Sys2Proof.Machine.execBarrierTokenDeadline at ht
  obtain rfl := within_some ht
  try dsimp only
  repeat' first
    | with_reducible assumption
    | with_reducible apply State_faultJob_carries
    | with_reducible apply State_faultPort_carries
    | with_reducible apply State_setLink_carries
    | with_reducible apply State_setOd_carries
    | with_reducible apply carries_ite
    | with_reducible apply carries_ite_two
    | with_reducible apply carries_ite_one
    | simp only [carries_mk_iff]
    | (with_reducible apply carries_foldl; intro _ _ _)
    | (with_reducible apply carries_foldl_pair; intro _ _ _ _)
    | intro _
    | split
    | dsimp only

theorem execBarrierTimeout_carries {s₀ : State} {s : State} (ch : Nat) (elapsedMs : Nat) (t : State) (ht : (Sys2Proof.Machine.execBarrierTimeout ch elapsedMs s) = .next t) (hs : Carries s₀ s) :
    Carries s₀ t := by
  unfold Sys2Proof.Machine.execBarrierTimeout at ht
  obtain rfl := within_some ht
  try dsimp only
  repeat' first
    | with_reducible assumption
    | with_reducible apply State_faultOwner_carries
    | with_reducible apply carries_ite
    | with_reducible apply carries_ite_two
    | with_reducible apply carries_ite_one
    | simp only [carries_mk_iff]
    | (with_reducible apply carries_foldl; intro _ _ _)
    | (with_reducible apply carries_foldl_pair; intro _ _ _ _)
    | intro _
    | split
    | dsimp only

end Sys2Proof.Laws
end

