-- ==== Sys2Proof/Laws/Reduction.lean ====
section
/-! SUPPORT. What the functions of Machine/Reduction.lean leave alone (`Carries`). -/

namespace Sys2Proof.Laws

open Sys2Proof Sys2Proof.Machine

theorem State_sendStripe_carries {s₀ : State} {s : State} (gather : Bool) (j : Nat) (hs : Carries s₀ s) :
    Carries s₀ (Sys2Proof.Machine.State.sendStripe s gather j) := by
  unfold Sys2Proof.Machine.State.sendStripe
  try dsimp only
  repeat' first
    | with_reducible assumption
    | with_reducible apply State_count_carries
    | with_reducible apply State_gather_carries
    | with_reducible apply State_sendTo_carries
    | with_reducible apply State_sendVia_carries
    | with_reducible apply carries_ite
    | with_reducible apply carries_ite_two
    | with_reducible apply carries_ite_one
    | simp only [carries_mk_iff]
    | (with_reducible apply carries_foldl; intro _ _ _)
    | (with_reducible apply carries_foldl_pair; intro _ _ _ _)
    | intro _
    | split
    | dsimp only

theorem State_sendRead_carries {s₀ : State} {s : State} (gather : Bool) (j : Nat) (hs : Carries s₀ s) :
    Carries s₀ (Sys2Proof.Machine.State.sendRead s gather j) := by
  unfold Sys2Proof.Machine.State.sendRead
  try dsimp only
  repeat' first
    | with_reducible assumption
    | with_reducible apply State_faultRead_carries
    | with_reducible apply State_gather_carries
    | with_reducible apply State_sendStripe_carries
    | with_reducible apply carries_ite
    | with_reducible apply carries_ite_two
    | with_reducible apply carries_ite_one
    | simp only [carries_mk_iff]
    | (with_reducible apply carries_foldl; intro _ _ _)
    | (with_reducible apply carries_foldl_pair; intro _ _ _ _)
    | intro _
    | split
    | dsimp only

theorem State_pumpStripe_carries {s₀ : State} {s : State} (j : Nat) (hs : Carries s₀ s) :
    Carries s₀ (Sys2Proof.Machine.State.pumpStripe s j) := by
  unfold Sys2Proof.Machine.State.pumpStripe
  try dsimp only
  repeat' first
    | with_reducible assumption
    | with_reducible apply State_sendRead_carries
    | with_reducible apply carries_ite
    | with_reducible apply carries_ite_two
    | with_reducible apply carries_ite_one
    | simp only [carries_mk_iff]
    | (with_reducible apply carries_foldl; intro _ _ _)
    | (with_reducible apply carries_foldl_pair; intro _ _ _ _)
    | intro _
    | split
    | dsimp only

theorem State_pump_carries {s₀ : State} {s : State} (js : List Nat) (hs : Carries s₀ s) :
    Carries s₀ (Sys2Proof.Machine.State.pump s js) := by
  unfold Sys2Proof.Machine.State.pump
  try dsimp only
  repeat' first
    | with_reducible assumption
    | with_reducible apply State_pumpStripe_carries
    | with_reducible apply carries_ite
    | with_reducible apply carries_ite_two
    | with_reducible apply carries_ite_one
    | simp only [carries_mk_iff]
    | (with_reducible apply carries_foldl; intro _ _ _)
    | (with_reducible apply carries_foldl_pair; intro _ _ _ _)
    | intro _
    | split
    | dsimp only

theorem State_convertBlock_carries {s₀ : State} {s : State} (w : Nat) (n : Nat) (k : Nat) (dst : Nat) (hs : Carries s₀ s) :
    Carries s₀ (Sys2Proof.Machine.State.convertBlock s w n k dst) := by
  unfold Sys2Proof.Machine.State.convertBlock
  try dsimp only
  repeat' first
    | with_reducible assumption
    | with_reducible apply State_commit_carries
    | with_reducible apply State_put_carries
    | with_reducible apply carries_ite
    | with_reducible apply carries_ite_two
    | with_reducible apply carries_ite_one
    | simp only [carries_mk_iff]
    | (with_reducible apply carries_foldl; intro _ _ _)
    | (with_reducible apply carries_foldl_pair; intro _ _ _ _)
    | intro _
    | split
    | dsimp only

theorem State_stage_carries {s₀ : State} {s : State}  (hs : Carries s₀ s) :
    Carries s₀ (Sys2Proof.Machine.State.stage s) := by
  unfold Sys2Proof.Machine.State.stage
  try dsimp only
  repeat' first
    | with_reducible assumption
    | with_reducible apply carries_ite
    | with_reducible apply carries_ite_two
    | with_reducible apply carries_ite_one
    | simp only [carries_mk_iff]
    | (with_reducible apply carries_foldl; intro _ _ _)
    | (with_reducible apply carries_foldl_pair; intro _ _ _ _)
    | intro _
    | split
    | dsimp only

theorem State_fillBucket_carries {s₀ : State} {s : State} (b : Nat) (lo : Nat) (js : List Nat) (blks : List (Nat × Nat × Nat × Nat × Nat)) (hs : Carries s₀ s) :
    Carries s₀ (Sys2Proof.Machine.State.fillBucket s b lo js blks) := by
  unfold Sys2Proof.Machine.State.fillBucket
  try dsimp only
  repeat' first
    | with_reducible assumption
    | with_reducible apply State_convertBlock_carries
    | with_reducible apply State_pump_carries
    | with_reducible apply State_put_carries
    | with_reducible apply State_stage_carries
    | with_reducible apply carries_ite
    | with_reducible apply carries_ite_two
    | with_reducible apply carries_ite_one
    | simp only [carries_mk_iff]
    | (with_reducible apply carries_foldl; intro _ _ _)
    | (with_reducible apply carries_foldl_pair; intro _ _ _ _)
    | intro _
    | split
    | dsimp only

theorem execBucketFilled_carries {s₀ : State} {s : State} (b : Nat) (t : State) (ht : (Sys2Proof.Machine.execBucketFilled b s) = .next t) (hs : Carries s₀ s) :
    Carries s₀ t := by
  unfold Sys2Proof.Machine.execBucketFilled at ht
  obtain rfl := within_some ht
  try dsimp only
  repeat' first
    | with_reducible assumption
    | with_reducible apply State_faultRead_carries
    | with_reducible apply State_fillBucket_carries
    | with_reducible apply carries_ite
    | with_reducible apply carries_ite_two
    | with_reducible apply carries_ite_one
    | simp only [carries_mk_iff]
    | (with_reducible apply carries_foldl; intro _ _ _)
    | (with_reducible apply carries_foldl_pair; intro _ _ _ _)
    | intro _
    | split
    | dsimp only

theorem State_applyAccum_carries {s₀ : State} {s : State} (m : Message) (hs : Carries s₀ s) :
    Carries s₀ (Sys2Proof.Machine.State.applyAccum s m) := by
  unfold Sys2Proof.Machine.State.applyAccum
  try dsimp only
  repeat' first
    | with_reducible assumption
    | with_reducible apply State_commit_carries
    | with_reducible apply State_put_carries
    | with_reducible apply carries_ite
    | with_reducible apply carries_ite_two
    | with_reducible apply carries_ite_one
    | simp only [carries_mk_iff]
    | (with_reducible apply carries_foldl; intro _ _ _)
    | (with_reducible apply carries_foldl_pair; intro _ _ _ _)
    | intro _
    | split
    | dsimp only

theorem State_takeStripe_carries {s₀ : State} {s : State} (m : Message) (j : Nat) (hs : Carries s₀ s) :
    Carries s₀ (Sys2Proof.Machine.State.takeStripe s m j) := by
  unfold Sys2Proof.Machine.State.takeStripe
  try dsimp only
  repeat' first
    | with_reducible assumption
    | with_reducible apply State_ackMessage_carries
    | with_reducible apply State_applyAccum_carries
    | with_reducible apply State_count_carries
    | with_reducible apply State_gather_carries
    | with_reducible apply State_pumpStripe_carries
    | with_reducible apply State_stage_carries
    | with_reducible apply carries_ite
    | with_reducible apply carries_ite_two
    | with_reducible apply carries_ite_one
    | simp only [carries_mk_iff]
    | (with_reducible apply carries_foldl; intro _ _ _)
    | (with_reducible apply carries_foldl_pair; intro _ _ _ _)
    | intro _
    | split
    | dsimp only

theorem State_admitAt_carries {s₀ : State} {s : State} (p : Nat) (m : Message) (j : Nat) (hs : Carries s₀ s) :
    Carries s₀ (Sys2Proof.Machine.State.admitAt s p m j) := by
  unfold Sys2Proof.Machine.State.admitAt
  try dsimp only
  repeat' first
    | with_reducible assumption
    | with_reducible apply State_gather_carries
    | with_reducible apply carries_ite
    | with_reducible apply carries_ite_two
    | with_reducible apply carries_ite_one
    | simp only [carries_mk_iff]
    | (with_reducible apply carries_foldl; intro _ _ _)
    | (with_reducible apply carries_foldl_pair; intro _ _ _ _)
    | intro _
    | split
    | dsimp only

theorem State_decideStripe_carries {s₀ : State} {s : State} (p : Nat) (m : Message) (j : Nat) (hs : Carries s₀ s) :
    Carries s₀ (Sys2Proof.Machine.State.decideStripe s p m j) := by
  unfold Sys2Proof.Machine.State.decideStripe
  try dsimp only
  repeat' first
    | with_reducible assumption
    | with_reducible apply State_ackMessage_carries
    | with_reducible apply State_admitAt_carries
    | with_reducible apply State_count_carries
    | with_reducible apply State_dropHead_carries
    | with_reducible apply carries_ite
    | with_reducible apply carries_ite_two
    | with_reducible apply carries_ite_one
    | simp only [carries_mk_iff]
    | (with_reducible apply carries_foldl; intro _ _ _)
    | (with_reducible apply carries_foldl_pair; intro _ _ _ _)
    | intro _
    | split
    | dsimp only

theorem State_finishAccum_carries {s₀ : State} {s : State} (p : Nat) (m : Message) (j : Option Nat) (hs : Carries s₀ s) :
    Carries s₀ (Sys2Proof.Machine.State.finishAccum s p m j) := by
  unfold Sys2Proof.Machine.State.finishAccum
  try dsimp only
  repeat' first
    | with_reducible assumption
    | with_reducible apply State_ackMessage_carries
    | with_reducible apply State_applyAccum_carries
    | with_reducible apply State_faultMessage_carries
    | with_reducible apply State_put_carries
    | with_reducible apply State_takeStripe_carries
    | with_reducible apply State_uncorrected_carries
    | with_reducible apply carries_ite
    | with_reducible apply carries_ite_two
    | with_reducible apply carries_ite_one
    | simp only [carries_mk_iff]
    | (with_reducible apply carries_foldl; intro _ _ _)
    | (with_reducible apply carries_foldl_pair; intro _ _ _ _)
    | intro _
    | split
    | dsimp only

theorem State_admitHeader_carries {s₀ : State} {s : State} (p : Nat) (hs : Carries s₀ s) :
    Carries s₀ (Sys2Proof.Machine.State.admitHeader s p) := by
  unfold Sys2Proof.Machine.State.admitHeader
  try dsimp only
  repeat' first
    | with_reducible assumption
    | with_reducible apply State_admitAt_carries
    | with_reducible apply carries_ite
    | with_reducible apply carries_ite_two
    | with_reducible apply carries_ite_one
    | simp only [carries_mk_iff]
    | (with_reducible apply carries_foldl; intro _ _ _)
    | (with_reducible apply carries_foldl_pair; intro _ _ _ _)
    | intro _
    | split
    | dsimp only

theorem State_unhold_carries {s₀ : State} {s : State} (p : Nat) (hs : Carries s₀ s) :
    Carries s₀ (Sys2Proof.Machine.State.unhold s p) := by
  unfold Sys2Proof.Machine.State.unhold
  try dsimp only
  repeat' first
    | with_reducible assumption
    | with_reducible apply State_dropHead_carries
    | with_reducible apply carries_ite
    | with_reducible apply carries_ite_two
    | with_reducible apply carries_ite_one
    | simp only [carries_mk_iff]
    | (with_reducible apply carries_foldl; intro _ _ _)
    | (with_reducible apply carries_foldl_pair; intro _ _ _ _)
    | intro _
    | split
    | dsimp only

theorem execAccum_carries {s₀ : State} {s : State} (p : Nat) (t : State) (ht : (Sys2Proof.Machine.execAccum p s) = .next t) (hs : Carries s₀ s) :
    Carries s₀ t := by
  unfold Sys2Proof.Machine.execAccum at ht
  obtain rfl := within_some ht
  try dsimp only
  repeat' first
    | with_reducible assumption
    | with_reducible apply State_ackMessage_carries
    | with_reducible apply State_admitHeader_carries
    | with_reducible apply State_count_carries
    | with_reducible apply State_decideStripe_carries
    | with_reducible apply State_dropHead_carries
    | with_reducible apply State_faultMessage_carries
    | with_reducible apply State_finishAccum_carries
    | with_reducible apply State_unhold_carries
    | with_reducible apply carries_ite
    | with_reducible apply carries_ite_two
    | with_reducible apply carries_ite_one
    | simp only [carries_mk_iff]
    | (with_reducible apply carries_foldl; intro _ _ _)
    | (with_reducible apply carries_foldl_pair; intro _ _ _ _)
    | intro _
    | split
    | dsimp only

theorem execExchangeComplete_carries {s₀ : State} {s : State}  (t : State) (ht : (Sys2Proof.Machine.execExchangeComplete s) = .next t) (hs : Carries s₀ s) :
    Carries s₀ t := by
  unfold Sys2Proof.Machine.execExchangeComplete at ht
  obtain rfl := within_some ht
  try dsimp only
  repeat' first
    | with_reducible assumption
    | with_reducible apply State_complete_carries
    | with_reducible apply State_faultRead_carries
    | with_reducible apply State_regather_carries
    | with_reducible apply State_setOd_carries
    | with_reducible apply carries_ite
    | with_reducible apply carries_ite_two
    | with_reducible apply carries_ite_one
    | simp only [carries_mk_iff]
    | (with_reducible apply carries_foldl; intro _ _ _)
    | (with_reducible apply carries_foldl_pair; intro _ _ _ _)
    | intro _
    | split
    | dsimp only

theorem execRedShadowDeadline_carries {s₀ : State} {s : State} (b : Nat) (elapsedUs : Nat) (t : State) (ht : (Sys2Proof.Machine.execRedShadowDeadline b elapsedUs s) = .next t) (hs : Carries s₀ s) :
    Carries s₀ t := by
  unfold Sys2Proof.Machine.execRedShadowDeadline at ht
  obtain rfl := within_some ht
  try dsimp only
  repeat' first
    | with_reducible assumption
    | with_reducible apply State_count_carries
    | with_reducible apply State_sendTo_carries
    | with_reducible apply carries_ite
    | with_reducible apply carries_ite_two
    | with_reducible apply carries_ite_one
    | simp only [carries_mk_iff]
    | (with_reducible apply carries_foldl; intro _ _ _)
    | (with_reducible apply carries_foldl_pair; intro _ _ _ _)
    | intro _
    | split
    | dsimp only

theorem execRedHardTimeout_carries {s₀ : State} {s : State} (b : Nat) (elapsedMs : Nat) (t : State) (ht : (Sys2Proof.Machine.execRedHardTimeout b elapsedMs s) = .next t) (hs : Carries s₀ s) :
    Carries s₀ t := by
  unfold Sys2Proof.Machine.execRedHardTimeout at ht
  obtain rfl := within_some ht
  try dsimp only
  repeat' first
    | with_reducible assumption
    | with_reducible apply State_faultJob_carries
    | with_reducible apply carries_ite
    | with_reducible apply carries_ite_two
    | with_reducible apply carries_ite_one
    | simp only [carries_mk_iff]
    | (with_reducible apply carries_foldl; intro _ _ _)
    | (with_reducible apply carries_foldl_pair; intro _ _ _ _)
    | intro _
    | split
    | dsimp only

theorem execRingSubst_carries {s₀ : State} {s : State} (p : Nat) (t : State) (ht : (Sys2Proof.Machine.execRingSubst p s) = .next t) (hs : Carries s₀ s) :
    Carries s₀ t := by
  unfold Sys2Proof.Machine.execRingSubst at ht
  obtain rfl := within_some ht
  try dsimp only
  repeat' first
    | with_reducible assumption
    | with_reducible apply State_count_carries
    | with_reducible apply State_pump_carries
    | with_reducible apply State_takeMessage_carries
    | with_reducible apply carries_ite
    | with_reducible apply carries_ite_two
    | with_reducible apply carries_ite_one
    | simp only [carries_mk_iff]
    | (with_reducible apply carries_foldl; intro _ _ _)
    | (with_reducible apply carries_foldl_pair; intro _ _ _ _)
    | intro _
    | split
    | dsimp only

end Sys2Proof.Laws
end

