-- ==== Sys2Proof/Laws/Roundhouse.lean ====
section
/-! SUPPORT. What the functions of Machine/Roundhouse.lean leave alone (`Carries`). -/

namespace Sys2Proof.Laws

open Sys2Proof Sys2Proof.Machine

theorem State_putRecord_carries {s₀ : State} {s : State} (u : Nat) (n : Nat) (dirty : Bool) (changed : Bool) (hs : Carries s₀ s) :
    Carries s₀ (Sys2Proof.Machine.State.putRecord s u n dirty changed) := by
  unfold Sys2Proof.Machine.State.putRecord
  try dsimp only
  repeat' first
    | with_reducible assumption
    | with_reducible apply State_put_carries
    | with_reducible apply carries_ite
    | with_reducible apply carries_ite_two
    | with_reducible apply carries_ite_one
    | simp only [carries_mk_iff]
    | (with_reducible apply carries_foldl; intro _ _ _)
    | (with_reducible apply carries_foldl_pair; intro _ _ _ _)
    | intro _
    | split
    | dsimp only

theorem State_putStatus_carries {s₀ : State} {s : State} (u : Nat) (w : Nat) (step : Nat) (elems : Nat) (hs : Carries s₀ s) :
    Carries s₀ (Sys2Proof.Machine.State.putStatus s u w step elems) := by
  unfold Sys2Proof.Machine.State.putStatus
  try dsimp only
  repeat' first
    | with_reducible assumption
    | with_reducible apply State_put_carries
    | with_reducible apply carries_ite
    | with_reducible apply carries_ite_two
    | with_reducible apply carries_ite_one
    | simp only [carries_mk_iff]
    | (with_reducible apply carries_foldl; intro _ _ _)
    | (with_reducible apply carries_foldl_pair; intro _ _ _ _)
    | intro _
    | split
    | dsimp only

theorem State_digestPass_carries {s₀ : State} {s : State} (img : Image) (step : Nat) (hs : Carries s₀ s) :
    Carries s₀ (Sys2Proof.Machine.State.digestPass s img step) := by
  unfold Sys2Proof.Machine.State.digestPass
  try dsimp only
  repeat' first
    | with_reducible assumption
    | with_reducible apply State_putRecord_carries
    | with_reducible apply State_putStatus_carries
    | with_reducible apply carries_ite
    | with_reducible apply carries_ite_two
    | with_reducible apply carries_ite_one
    | simp only [carries_mk_iff]
    | (with_reducible apply carries_foldl; intro _ _ _)
    | (with_reducible apply carries_foldl_pair; intro _ _ _ _)
    | intro _
    | split
    | dsimp only

theorem State_putBlock_carries {s₀ : State} {s : State} (u : Nat) (n : Nat) (es : List UpdElem) (hs : Carries s₀ s) :
    Carries s₀ (Sys2Proof.Machine.State.putBlock s u n es) := by
  unfold Sys2Proof.Machine.State.putBlock
  try dsimp only
  repeat' first
    | with_reducible assumption
    | with_reducible apply State_put_carries
    | with_reducible apply carries_ite
    | with_reducible apply carries_ite_two
    | with_reducible apply carries_ite_one
    | simp only [carries_mk_iff]
    | (with_reducible apply carries_foldl; intro _ _ _)
    | (with_reducible apply carries_foldl_pair; intro _ _ _ _)
    | intro _
    | split
    | dsimp only

theorem State_updateBlock_carries {s₀ : State} {s : State} (c : UpdConst) (step : Nat) (u : Nat) (w : Nat) (n : Nat) (addr : Nat) (hs : Carries s₀ s) :
    Carries s₀ (Sys2Proof.Machine.State.updateBlock s c step u w n addr).1 := by
  unfold Sys2Proof.Machine.State.updateBlock
  try dsimp only
  repeat' first
    | with_reducible assumption
    | with_reducible apply State_commit_carries
    | with_reducible apply State_putBlock_carries
    | with_reducible apply State_putRecord_carries
    | with_reducible apply carries_ite
    | with_reducible apply carries_ite_two
    | with_reducible apply carries_ite_one
    | simp only [carries_mk_iff]
    | (with_reducible apply carries_foldl; intro _ _ _)
    | (with_reducible apply carries_foldl_pair; intro _ _ _ _)
    | intro _
    | split
    | dsimp only

theorem State_updateTensor_carries {s₀ : State} {s : State} (sel : Nat → Nat → Bool) (r : Nat) (t : Nat) (step : Nat) (k : W32) (u : Nat) (w : Nat) (hs : Carries s₀ s) :
    Carries s₀ (Sys2Proof.Machine.State.updateTensor s sel r t step k u w).1 := by
  unfold Sys2Proof.Machine.State.updateTensor
  try dsimp only
  repeat' first
    | with_reducible assumption
    | with_reducible apply State_updateBlock_carries
    | with_reducible apply carries_ite
    | with_reducible apply carries_ite_two
    | with_reducible apply carries_ite_one
    | simp only [carries_mk_iff]
    | (with_reducible apply carries_foldl; intro _ _ _)
    | (with_reducible apply carries_foldl_pair; intro _ _ _ _)
    | intro _
    | split
    | dsimp only

theorem State_updateAll_carries {s₀ : State} {s : State} (sel : Nat → Nat → Bool) (img : Image) (r : Nat) (step : Nat) (k : W32) (hs : Carries s₀ s) :
    Carries s₀ (Sys2Proof.Machine.State.updateAll s sel img r step k).1 := by
  unfold Sys2Proof.Machine.State.updateAll
  try dsimp only
  repeat' first
    | with_reducible assumption
    | with_reducible apply State_updateTensor_carries
    | with_reducible apply carries_ite
    | with_reducible apply carries_ite_two
    | with_reducible apply carries_ite_one
    | simp only [carries_mk_iff]
    | (with_reducible apply carries_foldl; intro _ _ _)
    | (with_reducible apply carries_foldl_pair; intro _ _ _ _)
    | intro _
    | split
    | dsimp only

theorem State_updateCut_carries {s₀ : State} {s : State} (img : Image) (r : Nat) (step : Nat) (k : W32) (w : Nat) (hs : Carries s₀ s) :
    Carries s₀ (Sys2Proof.Machine.State.updateCut s img r step k w) := by
  unfold Sys2Proof.Machine.State.updateCut
  try dsimp only
  repeat' first
    | with_reducible assumption
    | with_reducible apply State_faultRead_carries
    | with_reducible apply State_updateAll_carries
    | with_reducible apply carries_ite
    | with_reducible apply carries_ite_two
    | with_reducible apply carries_ite_one
    | simp only [carries_mk_iff]
    | (with_reducible apply carries_foldl; intro _ _ _)
    | (with_reducible apply carries_foldl_pair; intro _ _ _ _)
    | intro _
    | split
    | dsimp only

theorem State_beginSnapshot_carries {s₀ : State} {s : State} (step : Nat) (hs : Carries s₀ s) :
    Carries s₀ (Sys2Proof.Machine.State.beginSnapshot s step) := by
  unfold Sys2Proof.Machine.State.beginSnapshot
  try dsimp only
  repeat' first
    | with_reducible assumption
    | with_reducible apply State_clearManifest_carries
    | with_reducible apply carries_ite
    | with_reducible apply carries_ite_two
    | with_reducible apply carries_ite_one
    | simp only [carries_mk_iff]
    | (with_reducible apply carries_foldl; intro _ _ _)
    | (with_reducible apply carries_foldl_pair; intro _ _ _ _)
    | intro _
    | split
    | dsimp only

theorem State_deferRequest_carries {s₀ : State} {s : State}  (hs : Carries s₀ s) :
    Carries s₀ (Sys2Proof.Machine.State.deferRequest s) := by
  unfold Sys2Proof.Machine.State.deferRequest
  try dsimp only
  repeat' first
    | with_reducible assumption
    | with_reducible apply State_count_carries
    | with_reducible apply carries_ite
    | with_reducible apply carries_ite_two
    | with_reducible apply carries_ite_one
    | simp only [carries_mk_iff]
    | (with_reducible apply carries_foldl; intro _ _ _)
    | (with_reducible apply carries_foldl_pair; intro _ _ _ _)
    | intro _
    | split
    | dsimp only

theorem State_recordRest_carries {s₀ : State} {s : State} (u : Nat) (w : Nat) (hs : Carries s₀ s) :
    Carries s₀ (Sys2Proof.Machine.State.recordRest s u w) := by
  unfold Sys2Proof.Machine.State.recordRest
  try dsimp only
  repeat' first
    | with_reducible assumption
    | with_reducible apply State_putRecord_carries
    | with_reducible apply carries_ite
    | with_reducible apply carries_ite_two
    | with_reducible apply carries_ite_one
    | simp only [carries_mk_iff]
    | (with_reducible apply carries_foldl; intro _ _ _)
    | (with_reducible apply carries_foldl_pair; intro _ _ _ _)
    | intro _
    | split
    | dsimp only

theorem State_recordAll_carries {s₀ : State} {s : State} (img : Image) (step : Nat) (elems : List Nat) (hs : Carries s₀ s) :
    Carries s₀ (Sys2Proof.Machine.State.recordAll s img step elems) := by
  unfold Sys2Proof.Machine.State.recordAll
  try dsimp only
  repeat' first
    | with_reducible assumption
    | with_reducible apply State_putStatus_carries
    | with_reducible apply State_recordRest_carries
    | with_reducible apply carries_ite
    | with_reducible apply carries_ite_two
    | with_reducible apply carries_ite_one
    | simp only [carries_mk_iff]
    | (with_reducible apply carries_foldl; intro _ _ _)
    | (with_reducible apply carries_foldl_pair; intro _ _ _ _)
    | intro _
    | split
    | dsimp only

theorem State_updateWhole_carries {s₀ : State} {s : State} (img : Image) (r : Nat) (step : Nat) (k : W32) (hs : Carries s₀ s) :
    Carries s₀ (Sys2Proof.Machine.State.updateWhole s img r step k) := by
  unfold Sys2Proof.Machine.State.updateWhole
  try dsimp only
  repeat' first
    | with_reducible assumption
    | with_reducible apply State_beginSnapshot_carries
    | with_reducible apply State_count_carries
    | with_reducible apply State_deferRequest_carries
    | with_reducible apply State_recordAll_carries
    | with_reducible apply State_setOd_carries
    | with_reducible apply State_updateAll_carries
    | with_reducible apply carries_ite
    | with_reducible apply carries_ite_two
    | with_reducible apply carries_ite_one
    | simp only [carries_mk_iff]
    | (with_reducible apply carries_foldl; intro _ _ _)
    | (with_reducible apply carries_foldl_pair; intro _ _ _ _)
    | intro _
    | split
    | dsimp only

theorem State_applyUpdate_carries {s₀ : State} {s : State} (img : Image) (hs : Carries s₀ s) :
    Carries s₀ (Sys2Proof.Machine.State.applyUpdate s img) := by
  unfold Sys2Proof.Machine.State.applyUpdate
  try dsimp only
  repeat' first
    | with_reducible assumption
    | with_reducible apply State_setOd_carries
    | with_reducible apply State_updateCut_carries
    | with_reducible apply State_updateWhole_carries
    | with_reducible apply carries_ite
    | with_reducible apply carries_ite_two
    | with_reducible apply carries_ite_one
    | simp only [carries_mk_iff]
    | (with_reducible apply carries_foldl; intro _ _ _)
    | (with_reducible apply carries_foldl_pair; intro _ _ _ _)
    | intro _
    | split
    | dsimp only

theorem State_newWindow_carries {s₀ : State} {s : State}  (hs : Carries s₀ s) :
    Carries s₀ (Sys2Proof.Machine.State.newWindow s) := by
  unfold Sys2Proof.Machine.State.newWindow
  try dsimp only
  repeat' first
    | with_reducible assumption
    | with_reducible apply carries_ite
    | with_reducible apply carries_ite_two
    | with_reducible apply carries_ite_one
    | simp only [carries_mk_iff]
    | (with_reducible apply carries_foldl; intro _ _ _)
    | (with_reducible apply carries_foldl_pair; intro _ _ _ _)
    | intro _
    | split
    | dsimp only

theorem State_skipUpdate_carries {s₀ : State} {s : State}  (hs : Carries s₀ s) :
    Carries s₀ (Sys2Proof.Machine.State.skipUpdate s) := by
  unfold Sys2Proof.Machine.State.skipUpdate
  try dsimp only
  repeat' first
    | with_reducible assumption
    | with_reducible apply State_count_carries
    | with_reducible apply State_deferRequest_carries
    | with_reducible apply State_faultJob_carries
    | with_reducible apply State_newWindow_carries
    | with_reducible apply State_setOd_carries
    | with_reducible apply carries_ite
    | with_reducible apply carries_ite_two
    | with_reducible apply carries_ite_one
    | simp only [carries_mk_iff]
    | (with_reducible apply carries_foldl; intro _ _ _)
    | (with_reducible apply carries_foldl_pair; intro _ _ _ _)
    | intro _
    | split
    | dsimp only

theorem State_withRecord_carries {s₀ s : State} (img : Image) (k : State → State)
    (hk : ∀ s, Carries s₀ s → Carries s₀ (k s)) (hs : Carries s₀ s) :
    Carries s₀ (Sys2Proof.Machine.State.withRecord s img k) := by
  unfold Sys2Proof.Machine.State.withRecord
  split
  · exact State_faultRead_carries _ hs
  · split
    · exact State_faultJob_carries _ hs
    · exact hk _ hs

theorem State_decideUpdate_carries {s₀ : State} {s : State} (pay : Nat) (hs : Carries s₀ s) :
    Carries s₀ (Sys2Proof.Machine.State.decideUpdate s pay) := by
  unfold Sys2Proof.Machine.State.decideUpdate
  try dsimp only
  repeat' first
    | with_reducible assumption
    | with_reducible apply State_applyUpdate_carries
    | with_reducible apply State_complete_carries
    | with_reducible apply State_skipUpdate_carries
    | with_reducible apply State_withRecord_carries
    | with_reducible apply carries_ite
    | with_reducible apply carries_ite_two
    | with_reducible apply carries_ite_one
    | simp only [carries_mk_iff]
    | (with_reducible apply carries_foldl; intro _ _ _)
    | (with_reducible apply carries_foldl_pair; intro _ _ _ _)
    | intro _
    | split
    | dsimp only

theorem State_normBucket_carries {s₀ : State} {s : State} (b : Nat) (before : List W64) (after : List W64) (hs : Carries s₀ s) :
    Carries s₀ (Sys2Proof.Machine.State.normBucket s b before after) := by
  unfold Sys2Proof.Machine.State.normBucket
  try dsimp only
  repeat' first
    | with_reducible assumption
    | with_reducible apply State_commit_carries
    | with_reducible apply State_faultRead_carries
    | with_reducible apply carries_ite
    | with_reducible apply carries_ite_two
    | with_reducible apply carries_ite_one
    | simp only [carries_mk_iff]
    | (with_reducible apply carries_foldl; intro _ _ _)
    | (with_reducible apply carries_foldl_pair; intro _ _ _ _)
    | intro _
    | split
    | dsimp only

theorem execRoundhouseNormPass_carries {s₀ : State} {s : State} (b : Nat) (before : List W64) (after : List W64) (t : State) (ht : (Sys2Proof.Machine.execRoundhouseNormPass b before after s) = .next t) (hs : Carries s₀ s) :
    Carries s₀ t := by
  unfold Sys2Proof.Machine.execRoundhouseNormPass at ht
  obtain rfl := within_some ht
  try dsimp only
  repeat' first
    | with_reducible assumption
    | with_reducible apply State_normBucket_carries
    | with_reducible apply State_regather_carries
    | with_reducible apply carries_ite
    | with_reducible apply carries_ite_two
    | with_reducible apply carries_ite_one
    | simp only [carries_mk_iff]
    | (with_reducible apply carries_foldl; intro _ _ _)
    | (with_reducible apply carries_foldl_pair; intro _ _ _ _)
    | intro _
    | split
    | dsimp only

theorem execLossSpikeDetect_carries {s₀ : State} {s : State}  (t : State) (ht : (Sys2Proof.Machine.execLossSpikeDetect s) = .next t) (hs : Carries s₀ s) :
    Carries s₀ t := by
  unfold Sys2Proof.Machine.execLossSpikeDetect at ht
  obtain rfl := within_some ht
  try dsimp only
  repeat' first
    | with_reducible assumption
    | with_reducible apply State_count_carries
    | with_reducible apply State_setOd_carries
    | with_reducible apply carries_ite
    | with_reducible apply carries_ite_two
    | with_reducible apply carries_ite_one
    | simp only [carries_mk_iff]
    | (with_reducible apply carries_foldl; intro _ _ _)
    | (with_reducible apply carries_foldl_pair; intro _ _ _ _)
    | intro _
    | split
    | dsimp only

theorem execUpdDigest_carries {s₀ : State} {s : State} (v : Nat) (t : State) (ht : (Sys2Proof.Machine.execUpdDigest v s) = .next t) (hs : Carries s₀ s) :
    Carries s₀ t := by
  unfold Sys2Proof.Machine.execUpdDigest at ht
  obtain rfl := within_some ht
  try dsimp only
  repeat' first
    | with_reducible assumption
    | with_reducible apply State_digestPass_carries
    | with_reducible apply State_faultRead_carries
    | with_reducible apply carries_ite
    | with_reducible apply carries_ite_two
    | with_reducible apply carries_ite_one
    | simp only [carries_mk_iff]
    | (with_reducible apply carries_foldl; intro _ _ _)
    | (with_reducible apply carries_foldl_pair; intro _ _ _ _)
    | intro _
    | split
    | dsimp only

theorem execRoundhouseDetectedError_carries {s₀ : State} {s : State} (edge : Nat) (group : Nat) (t : State) (ht : (Sys2Proof.Machine.execRoundhouseDetectedError edge group s) = .next t) (hs : Carries s₀ s) :
    Carries s₀ t := by
  unfold Sys2Proof.Machine.execRoundhouseDetectedError at ht
  obtain rfl := within_some ht
  try dsimp only
  repeat' first
    | with_reducible assumption
    | with_reducible apply State_count_carries
    | with_reducible apply State_faultJob_carries
    | with_reducible apply carries_ite
    | with_reducible apply carries_ite_two
    | with_reducible apply carries_ite_one
    | simp only [carries_mk_iff]
    | (with_reducible apply carries_foldl; intro _ _ _)
    | (with_reducible apply carries_foldl_pair; intro _ _ _ _)
    | intro _
    | split
    | dsimp only

end Sys2Proof.Laws
end

