-- ==== Sys2Proof/Laws/Interlocking.lean ====
section
/-! SUPPORT. What the functions of Machine/Interlocking.lean leave alone (`Carries`). -/

namespace Sys2Proof.Laws

open Sys2Proof Sys2Proof.Machine

theorem execBarArrive_carries {s₀ : State} {s : State} (p : Nat) (t : State) (ht : (Sys2Proof.Machine.execBarArrive p s) = .next t) (hs : Carries s₀ s) :
    Carries s₀ t := by
  unfold Sys2Proof.Machine.execBarArrive at ht
  obtain rfl := within_some ht
  try dsimp only
  repeat' first
    | with_reducible assumption
    | with_reducible apply State_gather_carries
    | with_reducible apply State_sendHop_carries
    | with_reducible apply State_setChannel_carries
    | with_reducible apply State_takeMessage_carries
    | with_reducible apply carries_ite
    | with_reducible apply carries_ite_two
    | with_reducible apply carries_ite_one
    | simp only [carries_mk_iff]
    | (with_reducible apply carries_foldl; intro _ _ _)
    | (with_reducible apply carries_foldl_pair; intro _ _ _ _)
    | intro _
    | split
    | dsimp only

theorem State_takeVote_carries {s₀ : State} {s : State} (p : Nat) (ch : Nat) (pay : Nat) (hs : Carries s₀ s) :
    Carries s₀ (Sys2Proof.Machine.State.takeVote s p ch pay) := by
  unfold Sys2Proof.Machine.State.takeVote
  try dsimp only
  repeat' first
    | with_reducible assumption
    | with_reducible apply State_decideUpdate_carries
    | with_reducible apply carries_ite
    | with_reducible apply carries_ite_two
    | with_reducible apply carries_ite_one
    | simp only [carries_mk_iff]
    | (with_reducible apply carries_foldl; intro _ _ _)
    | (with_reducible apply carries_foldl_pair; intro _ _ _ _)
    | intro _
    | split
    | dsimp only

theorem State_release_carries {s₀ : State} {s : State} (p : Nat) (ch : Nat) (n : Nat) (pay : Nat) (elapsedNs : Nat) (hs : Carries s₀ s) :
    Carries s₀ (Sys2Proof.Machine.State.release s p ch n pay elapsedNs) := by
  unfold Sys2Proof.Machine.State.release
  try dsimp only
  repeat' first
    | with_reducible assumption
    | with_reducible apply State_releaseBarrier_carries
    | with_reducible apply State_takeVote_carries
    | with_reducible apply carries_ite
    | with_reducible apply carries_ite_two
    | with_reducible apply carries_ite_one
    | simp only [carries_mk_iff]
    | (with_reducible apply carries_foldl; intro _ _ _)
    | (with_reducible apply carries_foldl_pair; intro _ _ _ _)
    | intro _
    | split
    | dsimp only

theorem execBarRelease_carries {s₀ : State} {s : State} (ch : Nat) (elapsedNs : Nat) (t : State) (ht : (Sys2Proof.Machine.execBarRelease ch elapsedNs s) = .next t) (hs : Carries s₀ s) :
    Carries s₀ t := by
  unfold Sys2Proof.Machine.execBarRelease at ht
  obtain rfl := within_some ht
  try dsimp only
  repeat' first
    | with_reducible assumption
    | with_reducible apply State_count_carries
    | with_reducible apply State_dropHead_carries
    | with_reducible apply State_release_carries
    | with_reducible apply State_sendHop_carries
    | with_reducible apply State_setChannel_carries
    | with_reducible apply carries_ite
    | with_reducible apply carries_ite_two
    | with_reducible apply carries_ite_one
    | simp only [carries_mk_iff]
    | (with_reducible apply carries_foldl; intro _ _ _)
    | (with_reducible apply carries_foldl_pair; intro _ _ _ _)
    | intro _
    | split
    | dsimp only

end Sys2Proof.Laws
end

