-- ==== Sys2Proof/Laws/HostPath.lean ====
section
/-! SUPPORT. What the functions of Machine/HostPath.lean leave alone (`Carries`). -/

namespace Sys2Proof.Laws

open Sys2Proof Sys2Proof.Machine

theorem State_refuseDoorbell_carries {s₀ : State} {s : State} (p : Nat) (hs : Carries s₀ s) :
    Carries s₀ (Sys2Proof.Machine.State.refuseDoorbell s p) := by
  unfold Sys2Proof.Machine.State.refuseDoorbell
  try dsimp only
  repeat' first
    | with_reducible assumption
    | with_reducible apply State_raiseErr_carries
    | with_reducible apply State_setPlat_carries
    | with_reducible apply carries_ite
    | with_reducible apply carries_ite_two
    | with_reducible apply carries_ite_one
    | simp only [carries_mk_iff]
    | (with_reducible apply carries_foldl; intro _ _ _)
    | (with_reducible apply carries_foldl_pair; intro _ _ _ _)
    | intro _
    | split
    | dsimp only

theorem State_dropDoorbell_carries {s₀ : State} {s : State} (port : Nat) (vf : Nat) (p : Nat) (hs : Carries s₀ s) :
    Carries s₀ (Sys2Proof.Machine.State.dropDoorbell s port vf p) := by
  unfold Sys2Proof.Machine.State.dropDoorbell
  try dsimp only
  repeat' first
    | with_reducible assumption
    | with_reducible apply State_count_carries
    | with_reducible apply State_refuseDoorbell_carries
    | with_reducible apply carries_ite
    | with_reducible apply carries_ite_two
    | with_reducible apply carries_ite_one
    | simp only [carries_mk_iff]
    | (with_reducible apply carries_foldl; intro _ _ _)
    | (with_reducible apply carries_foldl_pair; intro _ _ _ _)
    | intro _
    | split
    | dsimp only

theorem State_dropSignal_carries {s₀ : State} {s : State} (p : Nat) (hs : Carries s₀ s) :
    Carries s₀ (Sys2Proof.Machine.State.dropSignal s p) := by
  unfold Sys2Proof.Machine.State.dropSignal
  try dsimp only
  repeat' first
    | with_reducible assumption
    | with_reducible apply State_count_carries
    | with_reducible apply State_refuseDoorbell_carries
    | with_reducible apply carries_ite
    | with_reducible apply carries_ite_two
    | with_reducible apply carries_ite_one
    | simp only [carries_mk_iff]
    | (with_reducible apply carries_foldl; intro _ _ _)
    | (with_reducible apply carries_foldl_pair; intro _ _ _ _)
    | intro _
    | split
    | dsimp only

theorem State_doorbell_carries {s₀ s : State} (port vf offset size value reg resLo resLen : Nat) (k : State → Nat → State)
    (hk : ∀ s p, Carries s₀ s → Carries s₀ (k s p)) (hs : Carries s₀ s) :
    Carries s₀ (Sys2Proof.Machine.State.doorbell s port vf offset size value reg resLo resLen k) := by
  unfold Sys2Proof.Machine.State.doorbell
  have hd := State_dropSignal_carries (offset / 4096) hs
  exact carries_ite hd (carries_ite (State_dropDoorbell_carries _ _ _ hs) (carries_ite hd (hk _ _ hs)))

theorem execQueueDoorbell_carries {s₀ : State} {s : State} (port : Nat) (vf : Nat) (offset : Nat) (size : Nat) (value : Nat) (t : State) (ht : (Sys2Proof.Machine.execQueueDoorbell port vf offset size value s) = .next t) (hs : Carries s₀ s) :
    Carries s₀ t := by
  unfold Sys2Proof.Machine.execQueueDoorbell at ht
  obtain rfl := within_some ht
  try dsimp only
  repeat' first
    | with_reducible assumption
    | with_reducible apply State_count_carries
    | with_reducible apply State_doorbell_carries
    | with_reducible apply State_dropDoorbell_carries
    | with_reducible apply State_setQueue_carries
    | with_reducible apply State_stopQueue_carries
    | with_reducible apply carries_ite
    | with_reducible apply carries_ite_two
    | with_reducible apply carries_ite_one
    | simp only [carries_mk_iff]
    | (with_reducible apply carries_foldl; intro _ _ _)
    | (with_reducible apply carries_foldl_pair; intro _ _ _ _)
    | intro _
    | split
    | dsimp only

theorem execCompletionDoorbell_carries {s₀ : State} {s : State} (port : Nat) (vf : Nat) (offset : Nat) (size : Nat) (value : Nat) (t : State) (ht : (Sys2Proof.Machine.execCompletionDoorbell port vf offset size value s) = .next t) (hs : Carries s₀ s) :
    Carries s₀ t := by
  unfold Sys2Proof.Machine.execCompletionDoorbell at ht
  obtain rfl := within_some ht
  try dsimp only
  repeat' first
    | with_reducible assumption
    | with_reducible apply State_count_carries
    | with_reducible apply State_doorbell_carries
    | with_reducible apply State_drain_carries
    | with_reducible apply State_dropDoorbell_carries
    | with_reducible apply State_setQueue_carries
    | with_reducible apply carries_ite
    | with_reducible apply carries_ite_two
    | with_reducible apply carries_ite_one
    | simp only [carries_mk_iff]
    | (with_reducible apply carries_foldl; intro _ _ _)
    | (with_reducible apply carries_foldl_pair; intro _ _ _ _)
    | intro _
    | split
    | dsimp only

theorem execCounterDoorbell_carries {s₀ : State} {s : State} (port : Nat) (vf : Nat) (offset : Nat) (size : Nat) (value : Nat) (t : State) (ht : (Sys2Proof.Machine.execCounterDoorbell port vf offset size value s) = .next t) (hs : Carries s₀ s) :
    Carries s₀ t := by
  unfold Sys2Proof.Machine.execCounterDoorbell at ht
  obtain rfl := within_some ht
  try dsimp only
  repeat' first
    | with_reducible assumption
    | with_reducible apply State_count_carries
    | with_reducible apply State_doorbell_carries
    | with_reducible apply State_dropDoorbell_carries
    | with_reducible apply State_dropSignal_carries
    | with_reducible apply State_signal_carries
    | with_reducible apply carries_ite
    | with_reducible apply carries_ite_two
    | with_reducible apply carries_ite_one
    | simp only [carries_mk_iff]
    | (with_reducible apply carries_foldl; intro _ _ _)
    | (with_reducible apply carries_foldl_pair; intro _ _ _ _)
    | intro _
    | split
    | dsimp only

theorem State_finishDesc_carries {s₀ : State} {s : State} (q : Nat) (p : Nat) (d : Desc) (status : Nat) (plain : Bool) (hs : Carries s₀ s) :
    Carries s₀ (Sys2Proof.Machine.State.finishDesc s q p d status plain) := by
  unfold Sys2Proof.Machine.State.finishDesc
  try dsimp only
  repeat' first
    | with_reducible assumption
    | with_reducible apply State_pushRecord_carries
    | with_reducible apply State_setQueue_carries
    | with_reducible apply carries_ite
    | with_reducible apply carries_ite_two
    | with_reducible apply carries_ite_one
    | simp only [carries_mk_iff]
    | (with_reducible apply carries_foldl; intro _ _ _)
    | (with_reducible apply carries_foldl_pair; intro _ _ _ _)
    | intro _
    | split
    | dsimp only

theorem State_failDesc_carries {s₀ : State} {s : State} (q : Nat) (p : Nat) (d : Desc) (status : Nat) (hs : Carries s₀ s) :
    Carries s₀ (Sys2Proof.Machine.State.failDesc s q p d status) := by
  unfold Sys2Proof.Machine.State.failDesc
  try dsimp only
  repeat' first
    | with_reducible assumption
    | with_reducible apply State_finishDesc_carries
    | with_reducible apply State_stopQueue_carries
    | with_reducible apply carries_ite
    | with_reducible apply carries_ite_two
    | with_reducible apply carries_ite_one
    | simp only [carries_mk_iff]
    | (with_reducible apply carries_foldl; intro _ _ _)
    | (with_reducible apply carries_foldl_pair; intro _ _ _ _)
    | intro _
    | split
    | dsimp only

theorem State_runDesc_carries {s₀ s : State} (q : Nat) (kinds : Nat → Bool) (run : State → Nat → Desc → State)
    (hr : ∀ s p d, Carries s₀ s → Carries s₀ (run s p d)) (hs : Carries s₀ s) :
    Carries s₀ (Sys2Proof.Machine.State.runDesc s q kinds run) := by
  unfold Sys2Proof.Machine.State.runDesc
  split
  · exact hs
  · have h := State_count_carries Od.HOST_READ_BYTES (64 * Desc.slots (by assumption)) hs
    exact carries_ite hs (carries_ite (hr _ _ _ (State_count_carries _ _ hs)) (State_failDesc_carries _ _ _ _ (State_count_carries _ _ hs)))

theorem State_descEcc_carries {s₀ : State} {s : State} (p : Nat) (w : Nat) (hs : Carries s₀ s) :
    Carries s₀ (Sys2Proof.Machine.State.descEcc s p w) := by
  unfold Sys2Proof.Machine.State.descEcc
  try dsimp only
  repeat' first
    | with_reducible assumption
    | with_reducible apply State_faultOwner_carries
    | with_reducible apply State_uncorrected_carries
    | with_reducible apply carries_ite
    | with_reducible apply carries_ite_two
    | with_reducible apply carries_ite_one
    | simp only [carries_mk_iff]
    | (with_reducible apply carries_foldl; intro _ _ _)
    | (with_reducible apply carries_foldl_pair; intro _ _ _ _)
    | intro _
    | split
    | dsimp only

theorem State_hostFetch_carries {s₀ : State} {s : State} (p : Nat) (port : Nat) (a : Nat) (n : Nat) (hs : Carries s₀ s) :
    Carries s₀ (Sys2Proof.Machine.State.hostFetch s p port a n).1 := by
  unfold Sys2Proof.Machine.State.hostFetch
  try dsimp only
  repeat' first
    | with_reducible assumption
    | with_reducible apply State_count_carries
    | with_reducible apply State_setPort_carries
    | with_reducible apply carries_ite
    | with_reducible apply carries_ite_two
    | with_reducible apply carries_ite_one
    | simp only [carries_mk_iff]
    | (with_reducible apply carries_foldl; intro _ _ _)
    | (with_reducible apply carries_foldl_pair; intro _ _ _ _)
    | intro _
    | split
    | dsimp only

theorem execDCopy_carries {s₀ : State} {s : State} (q : Nat) (t : State) (ht : (Sys2Proof.Machine.execDCopy q s) = .next t) (hs : Carries s₀ s) :
    Carries s₀ t := by
  unfold Sys2Proof.Machine.execDCopy at ht
  obtain rfl := within_some ht
  try dsimp only
  repeat' first
    | with_reducible assumption
    | with_reducible apply State_descEcc_carries
    | with_reducible apply State_failDesc_carries
    | with_reducible apply State_finishDesc_carries
    | with_reducible apply State_hostFetch_carries
    | with_reducible apply State_hostPut_carries
    | with_reducible apply State_put_carries
    | with_reducible apply State_runDesc_carries
    | with_reducible apply carries_ite
    | with_reducible apply carries_ite_two
    | with_reducible apply carries_ite_one
    | simp only [carries_mk_iff]
    | (with_reducible apply carries_foldl; intro _ _ _)
    | (with_reducible apply carries_foldl_pair; intro _ _ _ _)
    | intro _
    | split
    | dsimp only

theorem execDInline_carries {s₀ : State} {s : State} (q : Nat) (t : State) (ht : (Sys2Proof.Machine.execDInline q s) = .next t) (hs : Carries s₀ s) :
    Carries s₀ t := by
  unfold Sys2Proof.Machine.execDInline at ht
  obtain rfl := within_some ht
  try dsimp only
  repeat' first
    | with_reducible assumption
    | with_reducible apply State_descEcc_carries
    | with_reducible apply State_failDesc_carries
    | with_reducible apply State_finishDesc_carries
    | with_reducible apply State_hostPut_carries
    | with_reducible apply State_put_carries
    | with_reducible apply State_runDesc_carries
    | with_reducible apply carries_ite
    | with_reducible apply carries_ite_two
    | with_reducible apply carries_ite_one
    | simp only [carries_mk_iff]
    | (with_reducible apply carries_foldl; intro _ _ _)
    | (with_reducible apply carries_foldl_pair; intro _ _ _ _)
    | intro _
    | split
    | dsimp only

theorem execDFence_carries {s₀ : State} {s : State} (q : Nat) (t : State) (ht : (Sys2Proof.Machine.execDFence q s) = .next t) (hs : Carries s₀ s) :
    Carries s₀ t := by
  unfold Sys2Proof.Machine.execDFence at ht
  obtain rfl := within_some ht
  try dsimp only
  repeat' first
    | with_reducible assumption
    | with_reducible apply State_finishDesc_carries
    | with_reducible apply State_runDesc_carries
    | with_reducible apply State_setPort_carries
    | with_reducible apply carries_ite
    | with_reducible apply carries_ite_two
    | with_reducible apply carries_ite_one
    | simp only [carries_mk_iff]
    | (with_reducible apply carries_foldl; intro _ _ _)
    | (with_reducible apply carries_foldl_pair; intro _ _ _ _)
    | intro _
    | split
    | dsimp only

theorem execDFlush_carries {s₀ : State} {s : State} (q : Nat) (t : State) (ht : (Sys2Proof.Machine.execDFlush q s) = .next t) (hs : Carries s₀ s) :
    Carries s₀ t := by
  unfold Sys2Proof.Machine.execDFlush at ht
  obtain rfl := within_some ht
  exact State_runDesc_carries _ _ _ (fun s p d h => carries_ite h (State_finishDesc_carries _ _ _ _ _ h)) hs

theorem State_releaseHeld_carries {s₀ : State} {s : State} (q : Nat) (hs : Carries s₀ s) :
    Carries s₀ (Sys2Proof.Machine.State.releaseHeld s q) := by
  unfold Sys2Proof.Machine.State.releaseHeld
  try dsimp only
  repeat' first
    | with_reducible assumption
    | with_reducible apply State_advance_carries
    | with_reducible apply State_post_carries
    | with_reducible apply carries_ite
    | with_reducible apply carries_ite_two
    | with_reducible apply carries_ite_one
    | simp only [carries_mk_iff]
    | (with_reducible apply carries_foldl; intro _ _ _)
    | (with_reducible apply carries_foldl_pair; intro _ _ _ _)
    | intro _
    | split
    | dsimp only

theorem State_orphanRecords_carries {s₀ : State} {s : State} (q : Nat) (hs : Carries s₀ s) :
    Carries s₀ (Sys2Proof.Machine.State.orphanRecords s q) := by
  unfold Sys2Proof.Machine.State.orphanRecords
  try dsimp only
  repeat' first
    | with_reducible assumption
    | with_reducible apply carries_ite
    | with_reducible apply carries_ite_two
    | with_reducible apply carries_ite_one
    | simp only [carries_mk_iff]
    | (with_reducible apply carries_foldl; intro _ _ _)
    | (with_reducible apply carries_foldl_pair; intro _ _ _ _)
    | intro _
    | split
    | dsimp only

theorem execQReset_carries {s₀ : State} {s : State} (q : Nat) (t : State) (ht : (Sys2Proof.Machine.execQReset q s) = .next t) (hs : Carries s₀ s) :
    Carries s₀ t := by
  unfold Sys2Proof.Machine.execQReset at ht
  obtain rfl := within_some ht
  try dsimp only
  repeat' first
    | with_reducible assumption
    | with_reducible apply State_orphanRecords_carries
    | with_reducible apply State_releaseHeld_carries
    | with_reducible apply State_setQueue_carries
    | with_reducible apply carries_ite
    | with_reducible apply carries_ite_two
    | with_reducible apply carries_ite_one
    | simp only [carries_mk_iff]
    | (with_reducible apply carries_foldl; intro _ _ _)
    | (with_reducible apply carries_foldl_pair; intro _ _ _ _)
    | intro _
    | split
    | dsimp only

theorem execApertureRead_carries {s₀ : State} {s : State} (port : Nat) (offset : Nat) (size : Nat) (t : State) (ht : (Sys2Proof.Machine.execApertureRead port offset size s) = .next t) (hs : Carries s₀ s) :
    Carries s₀ t := by
  unfold Sys2Proof.Machine.execApertureRead at ht
  obtain rfl := within_some ht
  try dsimp only
  repeat' first
    | with_reducible assumption
    | with_reducible apply State_capture_carries
    | with_reducible apply State_emit_carries
    | with_reducible apply State_uncorrected_carries
    | with_reducible apply carries_ite
    | with_reducible apply carries_ite_two
    | with_reducible apply carries_ite_one
    | simp only [carries_mk_iff]
    | (with_reducible apply carries_foldl; intro _ _ _)
    | (with_reducible apply carries_foldl_pair; intro _ _ _ _)
    | intro _
    | split
    | dsimp only

theorem State_putInTier_carries {s₀ : State} {s : State} (a : Nat) (data : List Byte) (hs : Carries s₀ s) :
    Carries s₀ (Sys2Proof.Machine.State.putInTier s a data) := by
  unfold Sys2Proof.Machine.State.putInTier
  try dsimp only
  repeat' first
    | with_reducible assumption
    | with_reducible apply State_put_carries
    | with_reducible apply carries_ite
    | with_reducible apply carries_ite_two
    | with_reducible apply carries_ite_one
    | simp only [carries_mk_iff]
    | (with_reducible apply carries_foldl; intro _ _ _)
    | (with_reducible apply carries_foldl_pair; intro _ _ _ _)
    | intro _
    | split
    | dsimp only

theorem execApertureWrite_carries {s₀ : State} {s : State} (port : Nat) (offset : Nat) (data : List Byte) (t : State) (ht : (Sys2Proof.Machine.execApertureWrite port offset data s) = .next t) (hs : Carries s₀ s) :
    Carries s₀ t := by
  unfold Sys2Proof.Machine.execApertureWrite at ht
  obtain rfl := within_some ht
  try dsimp only
  repeat' first
    | with_reducible assumption
    | with_reducible apply State_capture_carries
    | with_reducible apply State_putInTier_carries
    | with_reducible apply State_sticky_carries
    | with_reducible apply State_uncorrected_carries
    | with_reducible apply carries_ite
    | with_reducible apply carries_ite_two
    | with_reducible apply carries_ite_one
    | simp only [carries_mk_iff]
    | (with_reducible apply carries_foldl; intro _ _ _)
    | (with_reducible apply carries_foldl_pair; intro _ _ _ _)
    | intro _
    | split
    | dsimp only

theorem execCxlMemRead_carries {s₀ : State} {s : State} (port : Nat) (offset : Nat) (size : Nat) (t : State) (ht : (Sys2Proof.Machine.execCxlMemRead port offset size s) = .next t) (hs : Carries s₀ s) :
    Carries s₀ t := by
  unfold Sys2Proof.Machine.execCxlMemRead at ht
  obtain rfl := within_some ht
  try dsimp only
  repeat' first
    | with_reducible assumption
    | with_reducible apply State_capture_carries
    | with_reducible apply State_emit_carries
    | with_reducible apply State_raise_carries
    | with_reducible apply State_sticky_carries
    | with_reducible apply State_uncorrected_carries
    | with_reducible apply carries_ite
    | with_reducible apply carries_ite_two
    | with_reducible apply carries_ite_one
    | simp only [carries_mk_iff]
    | (with_reducible apply carries_foldl; intro _ _ _)
    | (with_reducible apply carries_foldl_pair; intro _ _ _ _)
    | intro _
    | split
    | dsimp only

theorem execCxlMemWrite_carries {s₀ : State} {s : State} (port : Nat) (offset : Nat) (data : List Byte) (t : State) (ht : (Sys2Proof.Machine.execCxlMemWrite port offset data s) = .next t) (hs : Carries s₀ s) :
    Carries s₀ t := by
  unfold Sys2Proof.Machine.execCxlMemWrite at ht
  obtain rfl := within_some ht
  try dsimp only
  repeat' first
    | with_reducible assumption
    | with_reducible apply State_capture_carries
    | with_reducible apply State_count_carries
    | with_reducible apply State_put_carries
    | with_reducible apply State_sticky_carries
    | with_reducible apply State_uncorrected_carries
    | with_reducible apply carries_ite
    | with_reducible apply carries_ite_two
    | with_reducible apply carries_ite_one
    | simp only [carries_mk_iff]
    | (with_reducible apply carries_foldl; intro _ _ _)
    | (with_reducible apply carries_foldl_pair; intro _ _ _ _)
    | intro _
    | split
    | dsimp only

theorem execHdmDecoderCommit_carries {s₀ : State} {s : State} (port : Nat) (base : Nat) (size : Nat) (ways : Nat) (t : State) (ht : (Sys2Proof.Machine.execHdmDecoderCommit port base size ways s) = .next t) (hs : Carries s₀ s) :
    Carries s₀ t := by
  unfold Sys2Proof.Machine.execHdmDecoderCommit at ht
  obtain rfl := within_some ht
  try dsimp only
  repeat' first
    | with_reducible assumption
    | with_reducible apply State_setPort_carries
    | with_reducible apply carries_ite
    | with_reducible apply carries_ite_two
    | with_reducible apply carries_ite_one
    | simp only [carries_mk_iff]
    | (with_reducible apply carries_foldl; intro _ _ _)
    | (with_reducible apply carries_foldl_pair; intro _ _ _ _)
    | intro _
    | split
    | dsimp only

end Sys2Proof.Laws
end

