-- ==== Sys2Proof/Laws/Platforms.lean ====
section
/-! SUPPORT. What the functions of Machine/Platforms.lean leave alone (`Carries`). -/

namespace Sys2Proof.Laws

open Sys2Proof Sys2Proof.Machine

theorem State_dropRequests_carries {s₀ : State} {s : State} (p : Nat) (hs : Carries s₀ s) :
    Carries s₀ (Sys2Proof.Machine.State.dropRequests s p) := by
  unfold Sys2Proof.Machine.State.dropRequests
  try dsimp only
  repeat' first
    | with_reducible assumption
    | with_reducible apply carries_ite
    | with_reducible apply carries_ite_two
    | with_reducible apply carries_ite_one
    | simp only [carries_mk_iff]
    | (with_reducible apply carries_foldl; intro _ _ _)
    | (with_reducible apply carries_foldl_pair; intro _ _ _ _)
    | intro _
    | split
    | dsimp only

theorem State_quiesce_carries {s₀ : State} {s : State} (p : Nat) (hs : Carries s₀ s) :
    Carries s₀ (Sys2Proof.Machine.State.quiesce s p) := by
  unfold Sys2Proof.Machine.State.quiesce
  try dsimp only
  repeat' first
    | with_reducible assumption
    | with_reducible apply State_abandon_carries
    | with_reducible apply State_clearVtime_carries
    | with_reducible apply State_dropRequests_carries
    | with_reducible apply State_dropStreams_carries
    | with_reducible apply State_setOd_carries
    | with_reducible apply State_setPlat_carries
    | with_reducible apply State_zeroCounters_carries
    | with_reducible apply carries_ite
    | with_reducible apply carries_ite_two
    | with_reducible apply carries_ite_one
    | simp only [carries_mk_iff]
    | (with_reducible apply carries_foldl; intro _ _ _)
    | (with_reducible apply carries_foldl_pair; intro _ _ _ _)
    | intro _
    | split
    | dsimp only

theorem State_clearQueues_carries {s₀ : State} {s : State} (p : Nat) (hs : Carries s₀ s) :
    Carries s₀ (Sys2Proof.Machine.State.clearQueues s p) := by
  unfold Sys2Proof.Machine.State.clearQueues
  try dsimp only
  repeat' first
    | with_reducible assumption
    | with_reducible apply State_setPlat_carries
    | with_reducible apply carries_ite
    | with_reducible apply carries_ite_two
    | with_reducible apply carries_ite_one
    | simp only [carries_mk_iff]
    | (with_reducible apply carries_foldl; intro _ _ _)
    | (with_reducible apply carries_foldl_pair; intro _ _ _ _)
    | intro _
    | split
    | dsimp only

theorem State_resetCtx_carries {s₀ : State} {s : State} (p : Nat) (hs : Carries s₀ s) :
    Carries s₀ (Sys2Proof.Machine.State.resetCtx s p) := by
  unfold Sys2Proof.Machine.State.resetCtx
  try dsimp only
  repeat' first
    | with_reducible assumption
    | with_reducible apply State_clearQueues_carries
    | with_reducible apply State_count_carries
    | with_reducible apply State_quiesce_carries
    | with_reducible apply carries_ite
    | with_reducible apply carries_ite_two
    | with_reducible apply carries_ite_one
    | simp only [carries_mk_iff]
    | (with_reducible apply carries_foldl; intro _ _ _)
    | (with_reducible apply carries_foldl_pair; intro _ _ _ _)
    | intro _
    | split
    | dsimp only

theorem State_resetAll_carries {s₀ : State} {s : State} (f : Platform → Bool) (hs : Carries s₀ s) :
    Carries s₀ (Sys2Proof.Machine.State.resetAll s f) := by
  unfold Sys2Proof.Machine.State.resetAll
  try dsimp only
  repeat' first
    | with_reducible assumption
    | with_reducible apply State_clearQueues_carries
    | with_reducible apply State_resetCtx_carries
    | with_reducible apply carries_ite
    | with_reducible apply carries_ite_two
    | with_reducible apply carries_ite_one
    | simp only [carries_mk_iff]
    | (with_reducible apply carries_foldl; intro _ _ _)
    | (with_reducible apply carries_foldl_pair; intro _ _ _ _)
    | intro _
    | split
    | dsimp only

theorem execPcReset_carries {s₀ : State} {s : State} (p : Nat) (t : State) (ht : (Sys2Proof.Machine.execPcReset p s) = .next t) (hs : Carries s₀ s) :
    Carries s₀ t := by
  unfold Sys2Proof.Machine.execPcReset at ht
  obtain rfl := within_some ht
  try dsimp only
  repeat' first
    | with_reducible assumption
    | with_reducible apply State_resetCtx_carries
    | with_reducible apply carries_ite
    | with_reducible apply carries_ite_two
    | with_reducible apply carries_ite_one
    | simp only [carries_mk_iff]
    | (with_reducible apply carries_foldl; intro _ _ _)
    | (with_reducible apply carries_foldl_pair; intro _ _ _ _)
    | intro _
    | split
    | dsimp only

theorem execCtxReset_carries {s₀ : State} {s : State} (p : Nat) (t : State) (ht : (Sys2Proof.Machine.execCtxReset p s) = .next t) (hs : Carries s₀ s) :
    Carries s₀ t := by
  unfold Sys2Proof.Machine.execCtxReset at ht
  obtain rfl := within_some ht
  try dsimp only
  repeat' first
    | with_reducible assumption
    | with_reducible apply State_resetCtx_carries
    | with_reducible apply carries_ite
    | with_reducible apply carries_ite_two
    | with_reducible apply carries_ite_one
    | simp only [carries_mk_iff]
    | (with_reducible apply carries_foldl; intro _ _ _)
    | (with_reducible apply carries_foldl_pair; intro _ _ _ _)
    | intro _
    | split
    | dsimp only

theorem execFlrVirtual_carries {s₀ : State} {s : State} (port : Nat) (vf : Nat) (t : State) (ht : (Sys2Proof.Machine.execFlrVirtual port vf s) = .next t) (hs : Carries s₀ s) :
    Carries s₀ t := by
  unfold Sys2Proof.Machine.execFlrVirtual at ht
  obtain rfl := within_some ht
  try dsimp only
  repeat' first
    | with_reducible assumption
    | with_reducible apply State_resetAll_carries
    | with_reducible apply State_setPort_carries
    | with_reducible apply carries_ite
    | with_reducible apply carries_ite_two
    | with_reducible apply carries_ite_one
    | simp only [carries_mk_iff]
    | (with_reducible apply carries_foldl; intro _ _ _)
    | (with_reducible apply carries_foldl_pair; intro _ _ _ _)
    | intro _
    | split
    | dsimp only

theorem execFlrPhysical_carries {s₀ : State} {s : State} (port : Nat) (t : State) (ht : (Sys2Proof.Machine.execFlrPhysical port s) = .next t) (hs : Carries s₀ s) :
    Carries s₀ t := by
  unfold Sys2Proof.Machine.execFlrPhysical at ht
  obtain rfl := within_some ht
  try dsimp only
  repeat' first
    | with_reducible assumption
    | with_reducible apply State_emit_carries
    | with_reducible apply State_resetAll_carries
    | with_reducible apply State_setPort_carries
    | with_reducible apply carries_ite
    | with_reducible apply carries_ite_two
    | with_reducible apply carries_ite_one
    | simp only [carries_mk_iff]
    | (with_reducible apply carries_foldl; intro _ _ _)
    | (with_reducible apply carries_foldl_pair; intro _ _ _ _)
    | intro _
    | split
    | dsimp only

theorem execVfEnableClear_carries {s₀ : State} {s : State} (port : Nat) (n : Nat) (t : State) (ht : (Sys2Proof.Machine.execVfEnableClear port n s) = .next t) (hs : Carries s₀ s) :
    Carries s₀ t := by
  unfold Sys2Proof.Machine.execVfEnableClear at ht
  obtain rfl := within_some ht
  try dsimp only
  repeat' first
    | with_reducible assumption
    | with_reducible apply State_count_carries
    | with_reducible apply State_resetAll_carries
    | with_reducible apply State_setPort_carries
    | with_reducible apply carries_ite
    | with_reducible apply carries_ite_two
    | with_reducible apply carries_ite_one
    | simp only [carries_mk_iff]
    | (with_reducible apply carries_foldl; intro _ _ _)
    | (with_reducible apply carries_foldl_pair; intro _ _ _ _)
    | intro _
    | split
    | dsimp only

theorem State_stopEpochs_carries {s₀ : State} {s : State} (port : Nat) (hs : Carries s₀ s) :
    Carries s₀ (Sys2Proof.Machine.State.stopEpochs s port) := by
  unfold Sys2Proof.Machine.State.stopEpochs
  try dsimp only
  repeat' first
    | with_reducible assumption
    | with_reducible apply State_count_carries
    | with_reducible apply State_setPlat_carries
    | with_reducible apply State_setPort_carries
    | with_reducible apply carries_ite
    | with_reducible apply carries_ite_two
    | with_reducible apply carries_ite_one
    | simp only [carries_mk_iff]
    | (with_reducible apply carries_foldl; intro _ _ _)
    | (with_reducible apply carries_foldl_pair; intro _ _ _ _)
    | intro _
    | split
    | dsimp only

theorem execDataLinkDown_carries {s₀ : State} {s : State} (port : Nat) (t : State) (ht : (Sys2Proof.Machine.execDataLinkDown port s) = .next t) (hs : Carries s₀ s) :
    Carries s₀ t := by
  unfold Sys2Proof.Machine.execDataLinkDown at ht
  obtain rfl := within_some ht
  try dsimp only
  repeat' first
    | with_reducible assumption
    | with_reducible apply State_setOd_carries
    | with_reducible apply State_setPort_carries
    | with_reducible apply carries_ite
    | with_reducible apply carries_ite_two
    | with_reducible apply carries_ite_one
    | simp only [carries_mk_iff]
    | (with_reducible apply carries_foldl; intro _ _ _)
    | (with_reducible apply carries_foldl_pair; intro _ _ _ _)
    | intro _
    | split
    | dsimp only

theorem execDataLinkUp_carries {s₀ : State} {s : State} (port : Nat) (rate : Nat) (width : Nat) (flit : Bool) (partner : Bool) (t : State) (ht : (Sys2Proof.Machine.execDataLinkUp port rate width flit partner s) = .next t) (hs : Carries s₀ s) :
    Carries s₀ t := by
  unfold Sys2Proof.Machine.execDataLinkUp at ht
  obtain rfl := within_some ht
  try dsimp only
  repeat' first
    | with_reducible assumption
    | with_reducible apply State_drainAll_carries
    | with_reducible apply State_hostPut_carries
    | with_reducible apply State_raise_carries
    | with_reducible apply State_setOd_carries
    | with_reducible apply State_setPort_carries
    | with_reducible apply carries_ite
    | with_reducible apply carries_ite_two
    | with_reducible apply carries_ite_one
    | simp only [carries_mk_iff]
    | (with_reducible apply carries_foldl; intro _ _ _)
    | (with_reducible apply carries_foldl_pair; intro _ _ _ _)
    | intro _
    | split
    | dsimp only

theorem execLinkDownHold_carries {s₀ : State} {s : State} (port : Nat) (elapsedMs : Nat) (t : State) (ht : (Sys2Proof.Machine.execLinkDownHold port elapsedMs s) = .next t) (hs : Carries s₀ s) :
    Carries s₀ t := by
  unfold Sys2Proof.Machine.execLinkDownHold at ht
  obtain rfl := within_some ht
  try dsimp only
  repeat' first
    | with_reducible assumption
    | with_reducible apply State_stopEpochs_carries
    | with_reducible apply carries_ite
    | with_reducible apply carries_ite_two
    | with_reducible apply carries_ite_one
    | simp only [carries_mk_iff]
    | (with_reducible apply carries_foldl; intro _ _ _)
    | (with_reducible apply carries_foldl_pair; intro _ _ _ _)
    | intro _
    | split
    | dsimp only

theorem execPortHotReset_carries {s₀ : State} {s : State} (port : Nat) (t : State) (ht : (Sys2Proof.Machine.execPortHotReset port s) = .next t) (hs : Carries s₀ s) :
    Carries s₀ t := by
  unfold Sys2Proof.Machine.execPortHotReset at ht
  obtain rfl := within_some ht
  try dsimp only
  repeat' first
    | with_reducible assumption
    | with_reducible apply State_setOd_carries
    | with_reducible apply State_setPort_carries
    | with_reducible apply State_stopEpochs_carries
    | with_reducible apply carries_ite
    | with_reducible apply carries_ite_two
    | with_reducible apply carries_ite_one
    | simp only [carries_mk_iff]
    | (with_reducible apply carries_foldl; intro _ _ _)
    | (with_reducible apply carries_foldl_pair; intro _ _ _ _)
    | intro _
    | split
    | dsimp only

theorem State_startStreams_carries {s₀ : State} {s : State} (p : Nat) (hs : Carries s₀ s) :
    Carries s₀ (Sys2Proof.Machine.State.startStreams s p) := by
  unfold Sys2Proof.Machine.State.startStreams
  try dsimp only
  repeat' first
    | with_reducible assumption
    | with_reducible apply State_makeReady_carries
    | with_reducible apply State_reach_carries
    | with_reducible apply carries_ite
    | with_reducible apply carries_ite_two
    | with_reducible apply carries_ite_one
    | simp only [carries_mk_iff]
    | (with_reducible apply carries_foldl; intro _ _ _)
    | (with_reducible apply carries_foldl_pair; intro _ _ _ _)
    | intro _
    | split
    | dsimp only

theorem execEpochArm_carries {s₀ : State} {s : State} (p : Nat) (value : Nat) (t : State) (ht : (Sys2Proof.Machine.execEpochArm p value s) = .next t) (hs : Carries s₀ s) :
    Carries s₀ t := by
  unfold Sys2Proof.Machine.execEpochArm at ht
  obtain rfl := within_some ht
  try dsimp only
  repeat' first
    | with_reducible assumption
    | with_reducible apply State_drainAll_carries
    | with_reducible apply State_pushRecord_carries
    | with_reducible apply State_setPlat_carries
    | with_reducible apply State_startStreams_carries
    | with_reducible apply carries_ite
    | with_reducible apply carries_ite_two
    | with_reducible apply carries_ite_one
    | simp only [carries_mk_iff]
    | (with_reducible apply carries_foldl; intro _ _ _)
    | (with_reducible apply carries_foldl_pair; intro _ _ _ _)
    | intro _
    | split
    | dsimp only

theorem execMsixUnmask_carries {s₀ : State} {s : State} (port : Nat) (v : Nat) (t : State) (ht : (Sys2Proof.Machine.execMsixUnmask port v s) = .next t) (hs : Carries s₀ s) :
    Carries s₀ t := by
  unfold Sys2Proof.Machine.execMsixUnmask at ht
  obtain rfl := within_some ht
  try dsimp only
  repeat' first
    | with_reducible assumption
    | with_reducible apply State_raise_carries
    | with_reducible apply State_setPort_carries
    | with_reducible apply carries_ite
    | with_reducible apply carries_ite_two
    | with_reducible apply carries_ite_one
    | simp only [carries_mk_iff]
    | (with_reducible apply carries_foldl; intro _ _ _)
    | (with_reducible apply carries_foldl_pair; intro _ _ _ _)
    | intro _
    | split
    | dsimp only

theorem State_loadStreams_carries {s₀ : State} {s : State} (p : Nat) (img : Image) (m : Nat → Nat) (step : Option Nat) (hs : Carries s₀ s) :
    Carries s₀ (Sys2Proof.Machine.State.loadStreams s p img m step) := by
  unfold Sys2Proof.Machine.State.loadStreams
  try dsimp only
  repeat' first
    | with_reducible assumption
    | with_reducible apply State_setStream_carries
    | with_reducible apply State_start_carries
    | with_reducible apply carries_ite
    | with_reducible apply carries_ite_two
    | with_reducible apply carries_ite_one
    | simp only [carries_mk_iff]
    | (with_reducible apply carries_foldl; intro _ _ _)
    | (with_reducible apply carries_foldl_pair; intro _ _ _ _)
    | intro _
    | split
    | dsimp only

theorem State_initCounters_carries {s₀ : State} {s : State} (p : Nat) (img : Image) (hs : Carries s₀ s) :
    Carries s₀ (Sys2Proof.Machine.State.initCounters s p img) := by
  unfold Sys2Proof.Machine.State.initCounters
  try dsimp only
  repeat' first
    | with_reducible assumption
    | with_reducible apply State_setCtr_carries
    | with_reducible apply State_settle_carries
    | with_reducible apply carries_ite
    | with_reducible apply carries_ite_two
    | with_reducible apply carries_ite_one
    | simp only [carries_mk_iff]
    | (with_reducible apply carries_foldl; intro _ _ _)
    | (with_reducible apply carries_foldl_pair; intro _ _ _ _)
    | intro _
    | split
    | dsimp only

theorem State_armServe_carries {s₀ : State} {s : State} (p : Nat) (hs : Carries s₀ s) :
    Carries s₀ (Sys2Proof.Machine.State.armServe s p) := by
  unfold Sys2Proof.Machine.State.armServe
  try dsimp only
  repeat' first
    | with_reducible assumption
    | with_reducible apply State_abandon_carries
    | with_reducible apply State_initCounters_carries
    | with_reducible apply State_loadStreams_carries
    | with_reducible apply State_setOd_carries
    | with_reducible apply State_setPlat_carries
    | with_reducible apply State_startStreams_carries
    | with_reducible apply carries_ite
    | with_reducible apply carries_ite_two
    | with_reducible apply carries_ite_one
    | simp only [carries_mk_iff]
    | (with_reducible apply carries_foldl; intro _ _ _)
    | (with_reducible apply carries_foldl_pair; intro _ _ _ _)
    | intro _
    | split
    | dsimp only

theorem State_armDistil_carries {s₀ : State} {s : State} (img : Image) (hs : Carries s₀ s) :
    Carries s₀ (Sys2Proof.Machine.State.armDistil s img) := by
  unfold Sys2Proof.Machine.State.armDistil
  try dsimp only
  repeat' first
    | with_reducible assumption
    | with_reducible apply State_abandon_carries
    | with_reducible apply State_faultJob_carries
    | with_reducible apply State_faultRead_carries
    | with_reducible apply State_initCounters_carries
    | with_reducible apply State_initScales_carries
    | with_reducible apply State_loadStreams_carries
    | with_reducible apply State_mapCores_carries
    | with_reducible apply State_setOd_carries
    | with_reducible apply State_setPlat_carries
    | with_reducible apply State_startStreams_carries
    | with_reducible apply carries_ite
    | with_reducible apply carries_ite_two
    | with_reducible apply carries_ite_one
    | simp only [carries_mk_iff]
    | (with_reducible apply carries_foldl; intro _ _ _)
    | (with_reducible apply carries_foldl_pair; intro _ _ _ _)
    | intro _
    | split
    | dsimp only

theorem State_scaleCause_carries {s₀ : State} {s : State}  (hs : Carries s₀ s) :
    Carries s₀ (Sys2Proof.Machine.State.scaleCause s) := by
  unfold Sys2Proof.Machine.State.scaleCause
  try dsimp only
  repeat' first
    | with_reducible assumption
    | with_reducible apply State_setOd_carries
    | with_reducible apply carries_ite
    | with_reducible apply carries_ite_two
    | with_reducible apply carries_ite_one
    | simp only [carries_mk_iff]
    | (with_reducible apply carries_foldl; intro _ _ _)
    | (with_reducible apply carries_foldl_pair; intro _ _ _ _)
    | intro _
    | split
    | dsimp only

theorem execPcArm_carries {s₀ : State} {s : State} (p : Nat) (peers : List ArmView) (t : State) (ht : (Sys2Proof.Machine.execPcArm p peers s) = .next t) (hs : Carries s₀ s) :
    Carries s₀ t := by
  unfold Sys2Proof.Machine.execPcArm at ht
  obtain rfl := within_some ht
  try dsimp only
  repeat' first
    | with_reducible assumption
    | with_reducible apply State_armDistil_carries
    | with_reducible apply State_armServe_carries
    | with_reducible apply State_scaleCause_carries
    | with_reducible apply State_setOd_carries
    | with_reducible apply State_setPlat_carries
    | with_reducible apply carries_ite
    | with_reducible apply carries_ite_two
    | with_reducible apply carries_ite_one
    | simp only [carries_mk_iff]
    | (with_reducible apply carries_foldl; intro _ _ _)
    | (with_reducible apply carries_foldl_pair; intro _ _ _ _)
    | intro _
    | split
    | dsimp only

theorem execPcSuspend_carries {s₀ : State} {s : State} (p : Nat) (t : State) (ht : (Sys2Proof.Machine.execPcSuspend p s) = .next t) (hs : Carries s₀ s) :
    Carries s₀ t := by
  unfold Sys2Proof.Machine.execPcSuspend at ht
  obtain rfl := within_some ht
  try dsimp only
  repeat' first
    | with_reducible assumption
    | with_reducible apply State_mapCores_carries
    | with_reducible apply State_setPlat_carries
    | with_reducible apply carries_ite
    | with_reducible apply carries_ite_two
    | with_reducible apply carries_ite_one
    | simp only [carries_mk_iff]
    | (with_reducible apply carries_foldl; intro _ _ _)
    | (with_reducible apply carries_foldl_pair; intro _ _ _ _)
    | intro _
    | split
    | dsimp only

theorem execSuspendComplete_carries {s₀ : State} {s : State} (p : Nat) (t : State) (ht : (Sys2Proof.Machine.execSuspendComplete p s) = .next t) (hs : Carries s₀ s) :
    Carries s₀ t := by
  unfold Sys2Proof.Machine.execSuspendComplete at ht
  obtain rfl := within_some ht
  try dsimp only
  repeat' first
    | with_reducible assumption
    | with_reducible apply State_count_carries
    | with_reducible apply State_setPlat_carries
    | with_reducible apply carries_ite
    | with_reducible apply carries_ite_two
    | with_reducible apply carries_ite_one
    | simp only [carries_mk_iff]
    | (with_reducible apply carries_foldl; intro _ _ _)
    | (with_reducible apply carries_foldl_pair; intro _ _ _ _)
    | intro _
    | split
    | dsimp only

theorem execPcResume_carries {s₀ : State} {s : State} (p : Nat) (t : State) (ht : (Sys2Proof.Machine.execPcResume p s) = .next t) (hs : Carries s₀ s) :
    Carries s₀ t := by
  unfold Sys2Proof.Machine.execPcResume at ht
  obtain rfl := within_some ht
  try dsimp only
  repeat' first
    | with_reducible assumption
    | with_reducible apply State_setPlat_carries
    | with_reducible apply State_startStreams_carries
    | with_reducible apply carries_ite
    | with_reducible apply carries_ite_two
    | with_reducible apply carries_ite_one
    | simp only [carries_mk_iff]
    | (with_reducible apply carries_foldl; intro _ _ _)
    | (with_reducible apply carries_foldl_pair; intro _ _ _ _)
    | intro _
    | split
    | dsimp only

theorem execPcDisarm_carries {s₀ : State} {s : State} (p : Nat) (t : State) (ht : (Sys2Proof.Machine.execPcDisarm p s) = .next t) (hs : Carries s₀ s) :
    Carries s₀ t := by
  unfold Sys2Proof.Machine.execPcDisarm at ht
  obtain rfl := within_some ht
  try dsimp only
  repeat' first
    | with_reducible assumption
    | with_reducible apply State_quiesce_carries
    | with_reducible apply State_setPlat_carries
    | with_reducible apply carries_ite
    | with_reducible apply carries_ite_two
    | with_reducible apply carries_ite_one
    | simp only [carries_mk_iff]
    | (with_reducible apply carries_foldl; intro _ _ _)
    | (with_reducible apply carries_foldl_pair; intro _ _ _ _)
    | intro _
    | split
    | dsimp only

theorem State_writeCfg_carries {s₀ : State} {s : State} (p : Nat) (offset : Nat) (size : Nat) (value : Nat) (hs : Carries s₀ s) :
    Carries s₀ (Sys2Proof.Machine.State.writeCfg s p offset size value) := by
  unfold Sys2Proof.Machine.State.writeCfg
  try dsimp only
  repeat' first
    | with_reducible assumption
    | with_reducible apply State_setPlat_carries
    | with_reducible apply carries_ite
    | with_reducible apply carries_ite_two
    | with_reducible apply carries_ite_one
    | simp only [carries_mk_iff]
    | (with_reducible apply carries_foldl; intro _ _ _)
    | (with_reducible apply carries_foldl_pair; intro _ _ _ _)
    | intro _
    | split
    | dsimp only

theorem State_writeQueue_carries {s₀ : State} {s : State} (q : Nat) (offset : Nat) (size : Nat) (value : Nat) (hs : Carries s₀ s) :
    Carries s₀ (Sys2Proof.Machine.State.writeQueue s q offset size value) := by
  unfold Sys2Proof.Machine.State.writeQueue
  try dsimp only
  repeat' first
    | with_reducible assumption
    | with_reducible apply State_setQueue_carries
    | with_reducible apply carries_ite
    | with_reducible apply carries_ite_two
    | with_reducible apply carries_ite_one
    | simp only [carries_mk_iff]
    | (with_reducible apply carries_foldl; intro _ _ _)
    | (with_reducible apply carries_foldl_pair; intro _ _ _ _)
    | intro _
    | split
    | dsimp only

theorem State_writeAp_carries {s₀ : State} {s : State} (port : Nat) (offset : Nat) (size : Nat) (value : Nat) (hs : Carries s₀ s) :
    Carries s₀ (Sys2Proof.Machine.State.writeAp s port offset size value) := by
  unfold Sys2Proof.Machine.State.writeAp
  try dsimp only
  repeat' first
    | with_reducible assumption
    | with_reducible apply State_setPort_carries
    | with_reducible apply carries_ite
    | with_reducible apply carries_ite_two
    | with_reducible apply carries_ite_one
    | simp only [carries_mk_iff]
    | (with_reducible apply carries_foldl; intro _ _ _)
    | (with_reducible apply carries_foldl_pair; intro _ _ _ _)
    | intro _
    | split
    | dsimp only

theorem State_writeStatus_carries {s₀ : State} {s : State} (p : Nat) (offset : Nat) (size : Nat) (value : Nat) (hs : Carries s₀ s) :
    Carries s₀ (Sys2Proof.Machine.State.writeStatus s p offset size value) := by
  unfold Sys2Proof.Machine.State.writeStatus
  try dsimp only
  repeat' first
    | with_reducible assumption
    | with_reducible apply State_setPlat_carries
    | with_reducible apply carries_ite
    | with_reducible apply carries_ite_two
    | with_reducible apply carries_ite_one
    | simp only [carries_mk_iff]
    | (with_reducible apply carries_foldl; intro _ _ _)
    | (with_reducible apply carries_foldl_pair; intro _ _ _ _)
    | intro _
    | split
    | dsimp only

theorem State_writeMailbox_carries {s₀ : State} {s : State} (port : Nat) (offset : Nat) (size : Nat) (value : Nat) (hs : Carries s₀ s) :
    Carries s₀ (Sys2Proof.Machine.State.writeMailbox s port offset size value) := by
  unfold Sys2Proof.Machine.State.writeMailbox
  try dsimp only
  repeat' first
    | with_reducible assumption
    | with_reducible apply State_setPort_carries
    | with_reducible apply carries_ite
    | with_reducible apply carries_ite_two
    | with_reducible apply carries_ite_one
    | simp only [carries_mk_iff]
    | (with_reducible apply carries_foldl; intro _ _ _)
    | (with_reducible apply carries_foldl_pair; intro _ _ _ _)
    | intro _
    | split
    | dsimp only

theorem State_writePage_carries {s₀ : State} {s : State} (p : Nat) (o : Nat) (size : Nat) (value : Nat) (hs : Carries s₀ s) :
    Carries s₀ (Sys2Proof.Machine.State.writePage s p o size value) := by
  unfold Sys2Proof.Machine.State.writePage
  try dsimp only
  repeat' first
    | with_reducible assumption
    | with_reducible apply State_writeQueue_carries
    | with_reducible apply State_writeStatus_carries
    | with_reducible apply carries_ite
    | with_reducible apply carries_ite_two
    | with_reducible apply carries_ite_one
    | simp only [carries_mk_iff]
    | (with_reducible apply carries_foldl; intro _ _ _)
    | (with_reducible apply carries_foldl_pair; intro _ _ _ _)
    | intro _
    | split
    | dsimp only

theorem execRegisterWrite_carries {s₀ : State} {s : State} (port : Nat) (vf : Nat) (bar : Nat) (offset : Nat) (size : Nat) (value : Nat) (t : State) (ht : (Sys2Proof.Machine.execRegisterWrite port vf bar offset size value s) = .next t) (hs : Carries s₀ s) :
    Carries s₀ t := by
  unfold Sys2Proof.Machine.execRegisterWrite at ht
  obtain rfl := within_some ht
  try dsimp only
  repeat' first
    | with_reducible assumption
    | with_reducible apply State_writeAp_carries
    | with_reducible apply State_writeCfg_carries
    | with_reducible apply State_writeMailbox_carries
    | with_reducible apply State_writePage_carries
    | with_reducible apply State_writeQueue_carries
    | with_reducible apply carries_ite
    | with_reducible apply carries_ite_two
    | with_reducible apply carries_ite_one
    | simp only [carries_mk_iff]
    | (with_reducible apply carries_foldl; intro _ _ _)
    | (with_reducible apply carries_foldl_pair; intro _ _ _ _)
    | intro _
    | split
    | dsimp only

end Sys2Proof.Laws
end

