-- ==== Sys2Proof/Laws/Checkpoint.lean ====
section
/-! SUPPORT. What the functions of Machine/Checkpoint.lean leave alone (`Carries`). -/

namespace Sys2Proof.Laws

open Sys2Proof Sys2Proof.Machine

theorem State_refused_carries {s₀ : State} {s : State} (st : Nat) (hs : Carries s₀ s) :
    Carries s₀ (Sys2Proof.Machine.State.refused s st).2 := by
  unfold Sys2Proof.Machine.State.refused
  try dsimp only
  repeat' first
    | with_reducible assumption
    | with_reducible apply carries_ite
    | with_reducible apply carries_ite_two
    | with_reducible apply carries_ite_one
    | simp only [carries_mk_iff]
    | (with_reducible apply carries_foldl; intro _ _ _)
    | (with_reducible apply carries_foldl_pair; intro _ _ _ _)
    | intro _
    | split
    | dsimp only

theorem State_copyState_carries {s₀ : State} {s : State} (img : Image) (k : Nat) (hs : Carries s₀ s) :
    Carries s₀ (Sys2Proof.Machine.State.copyState s img k) := by
  unfold Sys2Proof.Machine.State.copyState
  try dsimp only
  repeat' first
    | with_reducible assumption
    | with_reducible apply State_put_carries
    | with_reducible apply carries_ite
    | with_reducible apply carries_ite_two
    | with_reducible apply carries_ite_one
    | simp only [carries_mk_iff]
    | (with_reducible apply carries_foldl; intro _ _ _)
    | (with_reducible apply carries_foldl_pair; intro _ _ _ _)
    | intro _
    | split
    | dsimp only

theorem State_clearDirty_carries {s₀ : State} {s : State} (u : Nat) (w : Nat) (hs : Carries s₀ s) :
    Carries s₀ (Sys2Proof.Machine.State.clearDirty s u w) := by
  unfold Sys2Proof.Machine.State.clearDirty
  try dsimp only
  repeat' first
    | with_reducible assumption
    | with_reducible apply State_put_carries
    | with_reducible apply carries_ite
    | with_reducible apply carries_ite_two
    | with_reducible apply carries_ite_one
    | simp only [carries_mk_iff]
    | (with_reducible apply carries_foldl; intro _ _ _)
    | (with_reducible apply carries_foldl_pair; intro _ _ _ _)
    | intro _
    | split
    | dsimp only

theorem State_sendMgmt_carries {s₀ : State} {s : State} (d : Nat) (op : Nat) (off : Nat) (bs : List Byte) (hs : Carries s₀ s) :
    Carries s₀ (Sys2Proof.Machine.State.sendMgmt s d op off bs) := by
  unfold Sys2Proof.Machine.State.sendMgmt
  try dsimp only
  repeat' first
    | with_reducible assumption
    | with_reducible apply State_sendTo_carries
    | with_reducible apply carries_ite
    | with_reducible apply carries_ite_two
    | with_reducible apply carries_ite_one
    | simp only [carries_mk_iff]
    | (with_reducible apply carries_foldl; intro _ _ _)
    | (with_reducible apply carries_foldl_pair; intro _ _ _ _)
    | intro _
    | split
    | dsimp only

theorem State_sendRange_carries {s₀ : State} {s : State} (d : Nat) (base : Nat) (off : Nat) (n : Nat) (hs : Carries s₀ s) :
    Carries s₀ (Sys2Proof.Machine.State.sendRange s d base off n) := by
  unfold Sys2Proof.Machine.State.sendRange
  try dsimp only
  repeat' first
    | with_reducible assumption
    | with_reducible apply State_sendMgmt_carries
    | with_reducible apply carries_ite
    | with_reducible apply carries_ite_two
    | with_reducible apply carries_ite_one
    | simp only [carries_mk_iff]
    | (with_reducible apply carries_foldl; intro _ _ _)
    | (with_reducible apply carries_foldl_pair; intro _ _ _ _)
    | intro _
    | split
    | dsimp only

theorem State_sendSlot_carries {s₀ : State} {s : State} (d : Nat) (k : Nat) (hs : Carries s₀ s) :
    Carries s₀ (Sys2Proof.Machine.State.sendSlot s d k) := by
  unfold Sys2Proof.Machine.State.sendSlot
  try dsimp only
  repeat' first
    | with_reducible assumption
    | with_reducible apply State_faultRead_carries
    | with_reducible apply State_sendMgmt_carries
    | with_reducible apply State_sendRange_carries
    | with_reducible apply carries_ite
    | with_reducible apply carries_ite_two
    | with_reducible apply carries_ite_one
    | simp only [carries_mk_iff]
    | (with_reducible apply carries_foldl; intro _ _ _)
    | (with_reducible apply carries_foldl_pair; intro _ _ _ _)
    | intro _
    | split
    | dsimp only

theorem State_buddyTransfer_carries {s₀ : State} {s : State} (k : Nat) (hs : Carries s₀ s) :
    Carries s₀ (Sys2Proof.Machine.State.buddyTransfer s k) := by
  unfold Sys2Proof.Machine.State.buddyTransfer
  try dsimp only
  repeat' first
    | with_reducible assumption
    | with_reducible apply State_sendSlot_carries
    | with_reducible apply State_setOd_carries
    | with_reducible apply carries_ite
    | with_reducible apply carries_ite_two
    | with_reducible apply carries_ite_one
    | simp only [carries_mk_iff]
    | (with_reducible apply carries_foldl; intro _ _ _)
    | (with_reducible apply carries_foldl_pair; intro _ _ _ _)
    | intro _
    | split
    | dsimp only

theorem execMgmt_carries {s₀ : State} {s : State} (p : Nat) (t : State) (ht : (Sys2Proof.Machine.execMgmt p s) = .next t) (hs : Carries s₀ s) :
    Carries s₀ t := by
  unfold Sys2Proof.Machine.execMgmt at ht
  obtain rfl := within_some ht
  try dsimp only
  repeat' first
    | with_reducible assumption
    | with_reducible apply State_put_carries
    | with_reducible apply State_sendMgmt_carries
    | with_reducible apply State_setOd_carries
    | with_reducible apply State_takeMessage_carries
    | with_reducible apply carries_ite
    | with_reducible apply carries_ite_two
    | with_reducible apply carries_ite_one
    | simp only [carries_mk_iff]
    | (with_reducible apply carries_foldl; intro _ _ _)
    | (with_reducible apply carries_foldl_pair; intro _ _ _ _)
    | intro _
    | split
    | dsimp only

theorem State_setBuddy_carries {s₀ : State} {s : State} (v : Nat) (peerFeed : Nat) (hs : Carries s₀ s) :
    Carries s₀ (Sys2Proof.Machine.State.setBuddy s v peerFeed).2 := by
  unfold Sys2Proof.Machine.State.setBuddy
  try dsimp only
  repeat' first
    | with_reducible assumption
    | with_reducible apply State_refused_carries
    | with_reducible apply State_setOd_carries
    | with_reducible apply State_sticky_carries
    | with_reducible apply carries_ite
    | with_reducible apply carries_ite_two
    | with_reducible apply carries_ite_one
    | simp only [carries_mk_iff]
    | (with_reducible apply carries_foldl; intro _ _ _)
    | (with_reducible apply carries_foldl_pair; intro _ _ _ _)
    | intro _
    | split
    | dsimp only

theorem execBuddyPkg_carries {s₀ : State} {s : State} (v : Nat) (peerFeed : Nat) (t : State) (ht : (Sys2Proof.Machine.execBuddyPkg v peerFeed s) = .next t) (hs : Carries s₀ s) :
    Carries s₀ t := by
  unfold Sys2Proof.Machine.execBuddyPkg at ht
  obtain rfl := within_some ht
  try dsimp only
  repeat' first
    | with_reducible assumption
    | with_reducible apply State_setBuddy_carries
    | with_reducible apply carries_ite
    | with_reducible apply carries_ite_two
    | with_reducible apply carries_ite_one
    | simp only [carries_mk_iff]
    | (with_reducible apply carries_foldl; intro _ _ _)
    | (with_reducible apply carries_foldl_pair; intro _ _ _ _)
    | intro _
    | split
    | dsimp only

theorem State_buddySend_carries {s₀ : State} {s : State} (v : Nat) (hs : Carries s₀ s) :
    Carries s₀ (Sys2Proof.Machine.State.buddySend s v).2 := by
  unfold Sys2Proof.Machine.State.buddySend
  try dsimp only
  repeat' first
    | with_reducible assumption
    | with_reducible apply State_refused_carries
    | with_reducible apply State_sendSlot_carries
    | with_reducible apply carries_ite
    | with_reducible apply carries_ite_two
    | with_reducible apply carries_ite_one
    | simp only [carries_mk_iff]
    | (with_reducible apply carries_foldl; intro _ _ _)
    | (with_reducible apply carries_foldl_pair; intro _ _ _ _)
    | intro _
    | split
    | dsimp only

theorem execBuddySend_carries {s₀ : State} {s : State} (v : Nat) (t : State) (ht : (Sys2Proof.Machine.execBuddySend v s) = .next t) (hs : Carries s₀ s) :
    Carries s₀ t := by
  unfold Sys2Proof.Machine.execBuddySend at ht
  obtain rfl := within_some ht
  try dsimp only
  repeat' first
    | with_reducible assumption
    | with_reducible apply State_buddySend_carries
    | with_reducible apply carries_ite
    | with_reducible apply carries_ite_two
    | with_reducible apply carries_ite_one
    | simp only [carries_mk_iff]
    | (with_reducible apply carries_foldl; intro _ _ _)
    | (with_reducible apply carries_foldl_pair; intro _ _ _ _)
    | intro _
    | split
    | dsimp only

theorem State_takeSnapshot_carries {s₀ : State} {s : State} (img : Image) (w : Nat) (stopUs : Nat) (hs : Carries s₀ s) :
    Carries s₀ (Sys2Proof.Machine.State.takeSnapshot s img w stopUs) := by
  unfold Sys2Proof.Machine.State.takeSnapshot
  try dsimp only
  repeat' first
    | with_reducible assumption
    | with_reducible apply State_buddyTransfer_carries
    | with_reducible apply State_clearDirty_carries
    | with_reducible apply State_copyState_carries
    | with_reducible apply State_count_carries
    | with_reducible apply State_faultRead_carries
    | with_reducible apply State_put_carries
    | with_reducible apply State_setOd_carries
    | with_reducible apply carries_ite
    | with_reducible apply carries_ite_two
    | with_reducible apply carries_ite_one
    | simp only [carries_mk_iff]
    | (with_reducible apply carries_foldl; intro _ _ _)
    | (with_reducible apply carries_foldl_pair; intro _ _ _ _)
    | intro _
    | split
    | dsimp only

theorem State_endUpdate_carries {s₀ : State} {s : State}  (hs : Carries s₀ s) :
    Carries s₀ (Sys2Proof.Machine.State.endUpdate s) := by
  unfold Sys2Proof.Machine.State.endUpdate
  try dsimp only
  repeat' first
    | with_reducible assumption
    | with_reducible apply carries_ite
    | with_reducible apply carries_ite_two
    | with_reducible apply carries_ite_one
    | simp only [carries_mk_iff]
    | (with_reducible apply carries_foldl; intro _ _ _)
    | (with_reducible apply carries_foldl_pair; intro _ _ _ _)
    | intro _
    | split
    | dsimp only

theorem execUpdateComplete_carries {s₀ : State} {s : State} (stopUs : Nat) (t : State) (ht : (Sys2Proof.Machine.execUpdateComplete stopUs s) = .next t) (hs : Carries s₀ s) :
    Carries s₀ t := by
  unfold Sys2Proof.Machine.execUpdateComplete at ht
  obtain rfl := within_some ht
  try dsimp only
  repeat' first
    | with_reducible assumption
    | with_reducible apply State_endUpdate_carries
    | with_reducible apply State_faultJob_carries
    | with_reducible apply State_takeSnapshot_carries
    | with_reducible apply carries_ite
    | with_reducible apply carries_ite_two
    | with_reducible apply carries_ite_one
    | simp only [carries_mk_iff]
    | (with_reducible apply carries_foldl; intro _ _ _)
    | (with_reducible apply carries_foldl_pair; intro _ _ _ _)
    | intro _
    | split
    | dsimp only

theorem execCopyPass_carries {s₀ : State} {s : State} (stopUs : Nat) (t : State) (ht : (Sys2Proof.Machine.execCopyPass stopUs s) = .next t) (hs : Carries s₀ s) :
    Carries s₀ t := by
  unfold Sys2Proof.Machine.execCopyPass at ht
  obtain rfl := within_some ht
  try dsimp only
  repeat' first
    | with_reducible assumption
    | with_reducible apply State_clearManifest_carries
    | with_reducible apply State_count_carries
    | with_reducible apply State_endUpdate_carries
    | with_reducible apply State_takeSnapshot_carries
    | with_reducible apply carries_ite
    | with_reducible apply carries_ite_two
    | with_reducible apply carries_ite_one
    | simp only [carries_mk_iff]
    | (with_reducible apply carries_foldl; intro _ _ _)
    | (with_reducible apply carries_foldl_pair; intro _ _ _ _)
    | intro _
    | split
    | dsimp only

theorem State_requestCkpt_carries {s₀ : State} {s : State} (w : Nat) (hs : Carries s₀ s) :
    Carries s₀ (Sys2Proof.Machine.State.requestCkpt s w).2 := by
  unfold Sys2Proof.Machine.State.requestCkpt
  try dsimp only
  repeat' first
    | with_reducible assumption
    | with_reducible apply State_count_carries
    | with_reducible apply State_refused_carries
    | with_reducible apply carries_ite
    | with_reducible apply carries_ite_two
    | with_reducible apply carries_ite_one
    | simp only [carries_mk_iff]
    | (with_reducible apply carries_foldl; intro _ _ _)
    | (with_reducible apply carries_foldl_pair; intro _ _ _ _)
    | intro _
    | split
    | dsimp only

theorem execCkptRequest_carries {s₀ : State} {s : State} (w : Nat) (t : State) (ht : (Sys2Proof.Machine.execCkptRequest w s) = .next t) (hs : Carries s₀ s) :
    Carries s₀ t := by
  unfold Sys2Proof.Machine.execCkptRequest at ht
  obtain rfl := within_some ht
  try dsimp only
  repeat' first
    | with_reducible assumption
    | with_reducible apply State_requestCkpt_carries
    | with_reducible apply carries_ite
    | with_reducible apply carries_ite_two
    | with_reducible apply carries_ite_one
    | simp only [carries_mk_iff]
    | (with_reducible apply carries_foldl; intro _ _ _)
    | (with_reducible apply carries_foldl_pair; intro _ _ _ _)
    | intro _
    | split
    | dsimp only

theorem State_drainCkpt_carries {s₀ : State} {s : State} (w : Nat) (hs : Carries s₀ s) :
    Carries s₀ (Sys2Proof.Machine.State.drainCkpt s w).2 := by
  unfold Sys2Proof.Machine.State.drainCkpt
  try dsimp only
  repeat' first
    | with_reducible assumption
    | with_reducible apply State_refused_carries
    | with_reducible apply carries_ite
    | with_reducible apply carries_ite_two
    | with_reducible apply carries_ite_one
    | simp only [carries_mk_iff]
    | (with_reducible apply carries_foldl; intro _ _ _)
    | (with_reducible apply carries_foldl_pair; intro _ _ _ _)
    | intro _
    | split
    | dsimp only

theorem execCkptDrained_carries {s₀ : State} {s : State} (w : Nat) (t : State) (ht : (Sys2Proof.Machine.execCkptDrained w s) = .next t) (hs : Carries s₀ s) :
    Carries s₀ t := by
  unfold Sys2Proof.Machine.execCkptDrained at ht
  obtain rfl := within_some ht
  try dsimp only
  repeat' first
    | with_reducible assumption
    | with_reducible apply State_drainCkpt_carries
    | with_reducible apply carries_ite
    | with_reducible apply carries_ite_two
    | with_reducible apply carries_ite_one
    | simp only [carries_mk_iff]
    | (with_reducible apply carries_foldl; intro _ _ _)
    | (with_reducible apply carries_foldl_pair; intro _ _ _ _)
    | intro _
    | split
    | dsimp only

theorem Coding_code_carries {s₀ : State} (a : Coding) (c : Ckpt) (base : CkptSlot) (has : Bool) (k : Nat) (es : List Nat)
    (x : Nat × Nat × Nat) (hs : Carries s₀ a.s) : Carries s₀ (Sys2Proof.Machine.Coding.code a c base has k es x).s := by
  unfold Sys2Proof.Machine.Coding.code
  dsimp only
  split
  · exact State_put_carries _ _ hs
  · exact hs

theorem State_finishCoding_carries {s₀ : State} {s : State} (w : Nat) (img : Image) (hs : Carries s₀ s) :
    Carries s₀ (Sys2Proof.Machine.State.finishCoding s w img) := by
  unfold Sys2Proof.Machine.State.finishCoding
  · extract_lets c k base has es r es' s1 any aux s2 slot c1 c2
    have h1 : Carries s₀ s1 := by
      have : ∀ (l : List (Nat × Nat × Nat)) (a : Coding), Carries s₀ a.s →
          Carries s₀ (l.foldl (fun acc x => acc.code c base has k es x) a).s := by
        intro l
        induction l with
        | nil => exact fun _ h => h
        | cons x l ih => exact fun a h => ih _ (Coding_code_carries _ _ _ _ _ _ _ h)
      exact this _ _ hs
    exact State_setOd_carries _ _ (carries_mk_iff.mpr (State_put_carries _ _ h1))

theorem execCkptCodingComplete_carries {s₀ : State} {s : State}  (t : State) (ht : (Sys2Proof.Machine.execCkptCodingComplete s) = .next t) (hs : Carries s₀ s) :
    Carries s₀ t := by
  unfold Sys2Proof.Machine.execCkptCodingComplete at ht
  obtain rfl := within_some ht
  try dsimp only
  repeat' first
    | with_reducible assumption
    | with_reducible apply State_faultRead_carries
    | with_reducible apply State_finishCoding_carries
    | with_reducible apply carries_ite
    | with_reducible apply carries_ite_two
    | with_reducible apply carries_ite_one
    | simp only [carries_mk_iff]
    | (with_reducible apply carries_foldl; intro _ _ _)
    | (with_reducible apply carries_foldl_pair; intro _ _ _ _)
    | intro _
    | split
    | dsimp only

theorem State_copyHome_carries {s₀ : State} {s : State} (img : Image) (k : Nat) (hs : Carries s₀ s) :
    Carries s₀ (Sys2Proof.Machine.State.copyHome s img k) := by
  unfold Sys2Proof.Machine.State.copyHome
  try dsimp only
  repeat' first
    | with_reducible assumption
    | with_reducible apply State_put_carries
    | with_reducible apply carries_ite
    | with_reducible apply carries_ite_two
    | with_reducible apply carries_ite_one
    | simp only [carries_mk_iff]
    | (with_reducible apply carries_foldl; intro _ _ _)
    | (with_reducible apply carries_foldl_pair; intro _ _ _ _)
    | intro _
    | split
    | dsimp only

theorem State_loadAux_carries {s₀ : State} {s : State} (img : Image) (k : Nat) (w : Nat) (hs : Carries s₀ s) :
    Carries s₀ (Sys2Proof.Machine.State.loadAux s img k w) := by
  unfold Sys2Proof.Machine.State.loadAux
  try dsimp only
  repeat' first
    | with_reducible assumption
    | with_reducible apply State_put_carries
    | with_reducible apply State_setOd_carries
    | with_reducible apply carries_ite
    | with_reducible apply carries_ite_two
    | with_reducible apply carries_ite_one
    | simp only [carries_mk_iff]
    | (with_reducible apply carries_foldl; intro _ _ _)
    | (with_reducible apply carries_foldl_pair; intro _ _ _ _)
    | intro _
    | split
    | dsimp only

theorem State_regenerate_carries {s₀ : State} {s : State} (img : Image) (w : Nat) (hs : Carries s₀ s) :
    Carries s₀ (Sys2Proof.Machine.State.regenerate s img w) := by
  unfold Sys2Proof.Machine.State.regenerate
  try dsimp only
  repeat' first
    | with_reducible assumption
    | with_reducible apply State_commit_carries
    | with_reducible apply State_put_carries
    | with_reducible apply carries_ite
    | with_reducible apply carries_ite_two
    | with_reducible apply carries_ite_one
    | simp only [carries_mk_iff]
    | (with_reducible apply carries_foldl; intro _ _ _)
    | (with_reducible apply carries_foldl_pair; intro _ _ _ _)
    | intro _
    | split
    | dsimp only

theorem State_restoreCkpt_carries {s₀ : State} {s : State} (w : Nat) (hs : Carries s₀ s) :
    Carries s₀ (Sys2Proof.Machine.State.restoreCkpt s w).2 := by
  unfold Sys2Proof.Machine.State.restoreCkpt
  try dsimp only
  repeat' first
    | with_reducible assumption
    | with_reducible apply State_capture_carries
    | with_reducible apply State_copyHome_carries
    | with_reducible apply State_digestPass_carries
    | with_reducible apply State_loadAux_carries
    | with_reducible apply State_refused_carries
    | with_reducible apply State_regenerate_carries
    | with_reducible apply State_setOd_carries
    | with_reducible apply State_sticky_carries
    | with_reducible apply carries_ite
    | with_reducible apply carries_ite_two
    | with_reducible apply carries_ite_one
    | simp only [carries_mk_iff]
    | (with_reducible apply carries_foldl; intro _ _ _)
    | (with_reducible apply carries_foldl_pair; intro _ _ _ _)
    | intro _
    | split
    | dsimp only

theorem State_serveCkpt_carries {s₀ : State} {s : State} (v : Nat) (hs : Carries s₀ s) :
    Carries s₀ (Sys2Proof.Machine.State.serveCkpt s v).2 := by
  unfold Sys2Proof.Machine.State.serveCkpt
  try dsimp only
  repeat' first
    | with_reducible assumption
    | with_reducible apply State_refused_carries
    | with_reducible apply carries_ite
    | with_reducible apply carries_ite_two
    | with_reducible apply carries_ite_one
    | simp only [carries_mk_iff]
    | (with_reducible apply carries_foldl; intro _ _ _)
    | (with_reducible apply carries_foldl_pair; intro _ _ _ _)
    | intro _
    | split
    | dsimp only

theorem execCkptServeNow_carries {s₀ : State} {s : State} (v : Nat) (t : State) (ht : (Sys2Proof.Machine.execCkptServeNow v s) = .next t) (hs : Carries s₀ s) :
    Carries s₀ t := by
  unfold Sys2Proof.Machine.execCkptServeNow at ht
  obtain rfl := within_some ht
  try dsimp only
  repeat' first
    | with_reducible assumption
    | with_reducible apply State_serveCkpt_carries
    | with_reducible apply carries_ite
    | with_reducible apply carries_ite_two
    | with_reducible apply carries_ite_one
    | simp only [carries_mk_iff]
    | (with_reducible apply carries_foldl; intro _ _ _)
    | (with_reducible apply carries_foldl_pair; intro _ _ _ _)
    | intro _
    | split
    | dsimp only

theorem State_updateRisk_carries {s₀ : State} {s : State} (points : Nat) (hs : Carries s₀ s) :
    Carries s₀ (Sys2Proof.Machine.State.updateRisk s points) := by
  unfold Sys2Proof.Machine.State.updateRisk
  try dsimp only
  repeat' first
    | with_reducible assumption
    | with_reducible apply State_raise_carries
    | with_reducible apply State_setOd_carries
    | with_reducible apply State_sticky_carries
    | with_reducible apply carries_ite
    | with_reducible apply carries_ite_two
    | with_reducible apply carries_ite_one
    | simp only [carries_mk_iff]
    | (with_reducible apply carries_foldl; intro _ _ _)
    | (with_reducible apply carries_foldl_pair; intro _ _ _ _)
    | intro _
    | split
    | dsimp only

theorem State_boundary_carries {s₀ : State} {s : State}  (hs : Carries s₀ s) :
    Carries s₀ (Sys2Proof.Machine.State.boundary s) := by
  unfold Sys2Proof.Machine.State.boundary
  try dsimp only
  repeat' first
    | with_reducible assumption
    | with_reducible apply State_setOd_carries
    | with_reducible apply State_updateRisk_carries
    | with_reducible apply carries_ite
    | with_reducible apply carries_ite_two
    | with_reducible apply carries_ite_one
    | simp only [carries_mk_iff]
    | (with_reducible apply carries_foldl; intro _ _ _)
    | (with_reducible apply carries_foldl_pair; intro _ _ _ _)
    | intro _
    | split
    | dsimp only

theorem execStatsBoundary_carries {s₀ : State} {s : State}  (t : State) (ht : (Sys2Proof.Machine.execStatsBoundary s) = .next t) (hs : Carries s₀ s) :
    Carries s₀ t := by
  unfold Sys2Proof.Machine.execStatsBoundary at ht
  obtain rfl := within_some ht
  try dsimp only
  repeat' first
    | with_reducible assumption
    | with_reducible apply State_boundary_carries
    | with_reducible apply carries_ite
    | with_reducible apply carries_ite_two
    | with_reducible apply carries_ite_one
    | simp only [carries_mk_iff]
    | (with_reducible apply carries_foldl; intro _ _ _)
    | (with_reducible apply carries_foldl_pair; intro _ _ _ _)
    | intro _
    | split
    | dsimp only

theorem State_latchNow_carries {s₀ : State} {s : State} (v : Nat) (hs : Carries s₀ s) :
    Carries s₀ (Sys2Proof.Machine.State.latchNow s v).2 := by
  unfold Sys2Proof.Machine.State.latchNow
  try dsimp only
  repeat' first
    | with_reducible assumption
    | with_reducible apply State_boundary_carries
    | with_reducible apply State_refused_carries
    | with_reducible apply carries_ite
    | with_reducible apply carries_ite_two
    | with_reducible apply carries_ite_one
    | simp only [carries_mk_iff]
    | (with_reducible apply carries_foldl; intro _ _ _)
    | (with_reducible apply carries_foldl_pair; intro _ _ _ _)
    | intro _
    | split
    | dsimp only

theorem execStatsLatchNow_carries {s₀ : State} {s : State} (v : Nat) (t : State) (ht : (Sys2Proof.Machine.execStatsLatchNow v s) = .next t) (hs : Carries s₀ s) :
    Carries s₀ t := by
  unfold Sys2Proof.Machine.execStatsLatchNow at ht
  obtain rfl := within_some ht
  try dsimp only
  repeat' first
    | with_reducible assumption
    | with_reducible apply State_latchNow_carries
    | with_reducible apply carries_ite
    | with_reducible apply carries_ite_two
    | with_reducible apply carries_ite_one
    | simp only [carries_mk_iff]
    | (with_reducible apply carries_foldl; intro _ _ _)
    | (with_reducible apply carries_foldl_pair; intro _ _ _ _)
    | intro _
    | split
    | dsimp only

theorem State_clearSticky_carries {s₀ : State} {s : State} (v : Nat) (hs : Carries s₀ s) :
    Carries s₀ (Sys2Proof.Machine.State.clearSticky s v) := by
  unfold Sys2Proof.Machine.State.clearSticky
  try dsimp only
  repeat' first
    | with_reducible assumption
    | with_reducible apply State_setOd_carries
    | with_reducible apply carries_ite
    | with_reducible apply carries_ite_two
    | with_reducible apply carries_ite_one
    | simp only [carries_mk_iff]
    | (with_reducible apply carries_foldl; intro _ _ _)
    | (with_reducible apply carries_foldl_pair; intro _ _ _ _)
    | intro _
    | split
    | dsimp only

theorem execStickyLogClear_carries {s₀ : State} {s : State} (v : Nat) (t : State) (ht : (Sys2Proof.Machine.execStickyLogClear v s) = .next t) (hs : Carries s₀ s) :
    Carries s₀ t := by
  unfold Sys2Proof.Machine.execStickyLogClear at ht
  obtain rfl := within_some ht
  try dsimp only
  repeat' first
    | with_reducible assumption
    | with_reducible apply State_clearSticky_carries
    | with_reducible apply carries_ite
    | with_reducible apply carries_ite_two
    | with_reducible apply carries_ite_one
    | simp only [carries_mk_iff]
    | (with_reducible apply carries_foldl; intro _ _ _)
    | (with_reducible apply carries_foldl_pair; intro _ _ _ _)
    | intro _
    | split
    | dsimp only

theorem State_clearCapture_carries {s₀ : State} {s : State}  (hs : Carries s₀ s) :
    Carries s₀ (Sys2Proof.Machine.State.clearCapture s) := by
  unfold Sys2Proof.Machine.State.clearCapture
  try dsimp only
  repeat' first
    | with_reducible assumption
    | with_reducible apply carries_ite
    | with_reducible apply carries_ite_two
    | with_reducible apply carries_ite_one
    | simp only [carries_mk_iff]
    | (with_reducible apply carries_foldl; intro _ _ _)
    | (with_reducible apply carries_foldl_pair; intro _ _ _ _)
    | intro _
    | split
    | dsimp only

theorem execFeValidClear_carries {s₀ : State} {s : State} (v : Nat) (t : State) (ht : (Sys2Proof.Machine.execFeValidClear v s) = .next t) (hs : Carries s₀ s) :
    Carries s₀ t := by
  unfold Sys2Proof.Machine.execFeValidClear at ht
  obtain rfl := within_some ht
  try dsimp only
  repeat' first
    | with_reducible assumption
    | with_reducible apply State_clearCapture_carries
    | with_reducible apply carries_ite
    | with_reducible apply carries_ite_two
    | with_reducible apply carries_ite_one
    | simp only [carries_mk_iff]
    | (with_reducible apply carries_foldl; intro _ _ _)
    | (with_reducible apply carries_foldl_pair; intro _ _ _ _)
    | intro _
    | split
    | dsimp only

end Sys2Proof.Laws
end

