-- ==== Sys2Proof/Laws/State.lean ====
section
/-! SUPPORT. One lemma per field of the state for each of its updates, true by unfolding, so that no later proof unfolds a
record update; and the laws of the sparse tables behind the readers. -/

namespace Sys2Proof.Laws

open Sys2Proof Sys2Proof.Machine

/-! ### Sparse tables -/

@[simp] theorem tabGet_tabSet_self {α : Type} (d : α) : ∀ (t : Tab α) (i : Nat) (x : α), tabGet d (tabSet t i x) i = x
  | [], i, x => by simp [tabSet, tabGet]
  | (k, v) :: t, i, x => by
    unfold tabSet
    split
    · simp [tabGet]
    · split
      · simp [tabGet]
      · rename_i h _
        simp [tabGet, h, tabGet_tabSet_self d t i x]

theorem tabGet_tabSet_other {α : Type} (d : α) : ∀ (t : Tab α) (i j : Nat) (x : α), j ≠ i → tabGet d (tabSet t i x) j = tabGet d t j
  | [], i, j, x, h => by simp [tabSet, tabGet, Ne.symm h]
  | (k, v) :: t, i, j, x, h => by
    unfold tabSet
    split
    · rename_i e
      subst e
      simp [tabGet, Ne.symm h]
    · split
      · simp [tabGet, Ne.symm h]
      · simp [tabGet, tabGet_tabSet_other d t i j x h]

@[simp] theorem tabFind_tabSet_self {α : Type} : ∀ (t : Tab α) (i : Nat) (x : α), tabFind (tabSet t i x) i = some x
  | [], i, x => by simp [tabSet, tabFind]
  | (k, v) :: t, i, x => by
    unfold tabSet
    split
    · simp [tabFind]
    · split
      · simp [tabFind]
      · rename_i h _
        simp [tabFind, h, tabFind_tabSet_self t i x]

theorem tabFind_tabSet_other {α : Type} : ∀ (t : Tab α) (i j : Nat) (x : α), j ≠ i → tabFind (tabSet t i x) j = tabFind t j
  | [], i, j, x, h => by simp [tabSet, tabFind, Ne.symm h]
  | (k, v) :: t, i, j, x, h => by
    unfold tabSet
    split
    · rename_i e
      subst e
      simp [tabFind, Ne.symm h]
    · split
      · simp [tabFind, Ne.symm h]
      · simp [tabFind, tabFind_tabSet_other t i j x h]

/-! ### Readers after their own update -/

@[simp] theorem odv_setOd_self (s : State) (k v : Nat) : (s.setOd k v).odv k = v := by
  simp [State.odv, State.setOd]
theorem odv_setOd_other (s : State) (k j v : Nat) (h : j ≠ k) : (s.setOd k v).odv j = s.odv j := by
  simp [State.odv, State.setOd, tabFind_tabSet_other _ _ _ _ h]
theorem odv_of_od (s t : State) (k : Nat) (h : t.od = s.od) : t.odv k = s.odv k := by
  simp [State.odv, h]
@[simp] theorem port_setPort_self (s : State) (p : Nat) (x : HostPort) : (s.setPort p x).port p = x := by
  simp [State.port, State.setPort]
theorem port_setPort_other (s : State) (p q : Nat) (x : HostPort) (h : q ≠ p) : (s.setPort p x).port q = s.port q := by
  simp [State.port, State.setPort, tabGet_tabSet_other _ _ _ _ _ h]
@[simp] theorem plat_setPlat_self (s : State) (p : Nat) (x : Platform) : (s.setPlat p x).plat p = x := by
  simp [State.plat, State.setPlat]
theorem plat_setPlat_other (s : State) (p q : Nat) (x : Platform) (h : q ≠ p) : (s.setPlat p x).plat q = s.plat q := by
  simp [State.plat, State.setPlat, tabGet_tabSet_other _ _ _ _ _ h]
@[simp] theorem core_setCore_self (s : State) (c : Nat) (x : CoreState) : (s.setCore c x).core c = x := by
  simp [State.core, State.setCore]
theorem core_setCore_other (s : State) (c d : Nat) (x : CoreState) (h : d ≠ c) : (s.setCore c x).core d = s.core d := by
  simp [State.core, State.setCore, tabGet_tabSet_other _ _ _ _ _ h]
@[simp] theorem stream_setStream_self (s : State) (c i : Nat) (x : Stream) : (s.setStream c i x).stream c i = x := by
  simp [State.stream, State.setStream]
@[simp] theorem ctr_setCtr_self (s : State) (c k v : Nat) : (s.setCtr c k v).ctr c k = v := by
  simp [State.ctr, State.setCtr]
@[simp] theorem queue_setQueue_self (s : State) (q : Nat) (x : Queue) : (s.setQueue q x).queue q = x := by
  simp [State.queue, State.setQueue]
theorem queue_setQueue_other (s : State) (q r : Nat) (x : Queue) (h : r ≠ q) : (s.setQueue q x).queue r = s.queue r := by
  simp [State.queue, State.setQueue, tabGet_tabSet_other _ _ _ _ _ h]
@[simp] theorem link_setLink_self (s : State) (p : Nat) (x : LinkPort) : (s.setLink p x).link p = x := by
  simp [State.link, State.setLink]
theorem link_setLink_other (s : State) (p q : Nat) (x : LinkPort) (h : q ≠ p) : (s.setLink p x).link q = s.link q := by
  simp [State.link, State.setLink, tabGet_tabSet_other _ _ _ _ _ h]
@[simp] theorem island_setIsland_self (s : State) (i : Nat) (x : Island) : (s.setIsland i x).island i = x := by
  simp [State.island, State.setIsland]
theorem island_setIsland_other (s : State) (i j : Nat) (x : Island) (h : j ≠ i) : (s.setIsland i x).island j = s.island j := by
  simp [State.island, State.setIsland, tabGet_tabSet_other _ _ _ _ _ h]
@[simp] theorem channel_setChannel_self (s : State) (n : Nat) (x : Channel) : (s.setChannel n x).channel n = x := by
  simp [State.channel, State.setChannel]
@[simp] theorem die_setDie_self (s : State) (d : Nat) (x : DieState) : (s.setDie d x).die d = x := by
  simp [State.die, State.setDie]

/-! ### setOd -/

@[simp] theorem setOd_pending (s : State) (k v : Nat) : (s.setOd k v).pending = s.pending := rfl
@[simp] theorem setOd_fresh (s : State) (k v : Nat) : (s.setOd k v).fresh = s.fresh := rfl
@[simp] theorem setOd_timeMs (s : State) (k v : Nat) : (s.setOd k v).timeMs = s.timeMs := rfl
@[simp] theorem setOd_stats (s : State) (k v : Nat) : (s.setOd k v).stats = s.stats := rfl
@[simp] theorem setOd_mem (s : State) (k v : Nat) : (s.setOd k v).mem = s.mem := rfl
@[simp] theorem setOd_hostMem (s : State) (k v : Nat) : (s.setOd k v).hostMem = s.hostMem := rfl
@[simp] theorem setOd_hostBad (s : State) (k v : Nat) : (s.setOd k v).hostBad = s.hostBad := rfl
@[simp] theorem setOd_eccBad (s : State) (k v : Nat) : (s.setOd k v).eccBad = s.eccBad := rfl
@[simp] theorem setOd_cores (s : State) (k v : Nat) : (s.setOd k v).cores = s.cores := rfl
@[simp] theorem setOd_channels (s : State) (k v : Nat) : (s.setOd k v).channels = s.channels := rfl
@[simp] theorem setOd_moves (s : State) (k v : Nat) : (s.setOd k v).moves = s.moves := rfl
@[simp] theorem setOd_plats (s : State) (k v : Nat) : (s.setOd k v).plats = s.plats := rfl
@[simp] theorem setOd_queues (s : State) (k v : Nat) : (s.setOd k v).queues = s.queues := rfl
@[simp] theorem setOd_ports (s : State) (k v : Nat) : (s.setOd k v).ports = s.ports := rfl
@[simp] theorem setOd_hostOut (s : State) (k v : Nat) : (s.setOd k v).hostOut = s.hostOut := rfl
@[simp] theorem setOd_links (s : State) (k v : Nat) : (s.setOd k v).links = s.links := rfl
@[simp] theorem setOd_msgIds (s : State) (k v : Nat) : (s.setOd k v).msgIds = s.msgIds := rfl
@[simp] theorem setOd_points (s : State) (k v : Nat) : (s.setOd k v).points = s.points := rfl
@[simp] theorem setOd_loaded (s : State) (k v : Nat) : (s.setOd k v).loaded = s.loaded := rfl
@[simp] theorem setOd_loading (s : State) (k v : Nat) : (s.setOd k v).loading = s.loading := rfl
@[simp] theorem setOd_red (s : State) (k v : Nat) : (s.setOd k v).red = s.red := rfl
@[simp] theorem setOd_job (s : State) (k v : Nat) : (s.setOd k v).job = s.job := rfl
@[simp] theorem setOd_ckpt (s : State) (k v : Nat) : (s.setOd k v).ckpt = s.ckpt := rfl
@[simp] theorem setOd_serving (s : State) (k v : Nat) : (s.setOd k v).serving = s.serving := rfl
@[simp] theorem setOd_islands (s : State) (k v : Nat) : (s.setOd k v).islands = s.islands := rfl
@[simp] theorem setOd_power (s : State) (k v : Nat) : (s.setOd k v).power = s.power := rfl
@[simp] theorem setOd_depot (s : State) (k v : Nat) : (s.setOd k v).depot = s.depot := rfl
@[simp] theorem setOd_security (s : State) (k v : Nat) : (s.setOd k v).security = s.security := rfl
@[simp] theorem setOd_fieldNet (s : State) (k v : Nat) : (s.setOd k v).fieldNet = s.fieldNet := rfl
@[simp] theorem setOd_dies (s : State) (k v : Nat) : (s.setOd k v).dies = s.dies := rfl
theorem setOd_od (s : State) (k v : Nat) : (s.setOd k v).od = tabSet s.od k v := rfl

/-! ### count -/

@[simp] theorem count_pending (s : State) (k n : Nat) : (s.count k n).pending = s.pending := rfl
@[simp] theorem count_fresh (s : State) (k n : Nat) : (s.count k n).fresh = s.fresh := rfl
@[simp] theorem count_timeMs (s : State) (k n : Nat) : (s.count k n).timeMs = s.timeMs := rfl
@[simp] theorem count_od (s : State) (k n : Nat) : (s.count k n).od = s.od := rfl
@[simp] theorem count_mem (s : State) (k n : Nat) : (s.count k n).mem = s.mem := rfl
@[simp] theorem count_hostMem (s : State) (k n : Nat) : (s.count k n).hostMem = s.hostMem := rfl
@[simp] theorem count_hostBad (s : State) (k n : Nat) : (s.count k n).hostBad = s.hostBad := rfl
@[simp] theorem count_eccBad (s : State) (k n : Nat) : (s.count k n).eccBad = s.eccBad := rfl
@[simp] theorem count_cores (s : State) (k n : Nat) : (s.count k n).cores = s.cores := rfl
@[simp] theorem count_channels (s : State) (k n : Nat) : (s.count k n).channels = s.channels := rfl
@[simp] theorem count_moves (s : State) (k n : Nat) : (s.count k n).moves = s.moves := rfl
@[simp] theorem count_plats (s : State) (k n : Nat) : (s.count k n).plats = s.plats := rfl
@[simp] theorem count_queues (s : State) (k n : Nat) : (s.count k n).queues = s.queues := rfl
@[simp] theorem count_ports (s : State) (k n : Nat) : (s.count k n).ports = s.ports := rfl
@[simp] theorem count_hostOut (s : State) (k n : Nat) : (s.count k n).hostOut = s.hostOut := rfl
@[simp] theorem count_links (s : State) (k n : Nat) : (s.count k n).links = s.links := rfl
@[simp] theorem count_msgIds (s : State) (k n : Nat) : (s.count k n).msgIds = s.msgIds := rfl
@[simp] theorem count_points (s : State) (k n : Nat) : (s.count k n).points = s.points := rfl
@[simp] theorem count_loaded (s : State) (k n : Nat) : (s.count k n).loaded = s.loaded := rfl
@[simp] theorem count_loading (s : State) (k n : Nat) : (s.count k n).loading = s.loading := rfl
@[simp] theorem count_red (s : State) (k n : Nat) : (s.count k n).red = s.red := rfl
@[simp] theorem count_job (s : State) (k n : Nat) : (s.count k n).job = s.job := rfl
@[simp] theorem count_ckpt (s : State) (k n : Nat) : (s.count k n).ckpt = s.ckpt := rfl
@[simp] theorem count_serving (s : State) (k n : Nat) : (s.count k n).serving = s.serving := rfl
@[simp] theorem count_islands (s : State) (k n : Nat) : (s.count k n).islands = s.islands := rfl
@[simp] theorem count_power (s : State) (k n : Nat) : (s.count k n).power = s.power := rfl
@[simp] theorem count_depot (s : State) (k n : Nat) : (s.count k n).depot = s.depot := rfl
@[simp] theorem count_security (s : State) (k n : Nat) : (s.count k n).security = s.security := rfl
@[simp] theorem count_fieldNet (s : State) (k n : Nat) : (s.count k n).fieldNet = s.fieldNet := rfl
@[simp] theorem count_dies (s : State) (k n : Nat) : (s.count k n).dies = s.dies := rfl
theorem count_stats (s : State) (k n : Nat) : (s.count k n).stats = tabMod 0 s.stats k (· + n) := rfl

/-! ### countMax -/

@[simp] theorem countMax_pending (s : State) (k n : Nat) : (s.countMax k n).pending = s.pending := rfl
@[simp] theorem countMax_fresh (s : State) (k n : Nat) : (s.countMax k n).fresh = s.fresh := rfl
@[simp] theorem countMax_timeMs (s : State) (k n : Nat) : (s.countMax k n).timeMs = s.timeMs := rfl
@[simp] theorem countMax_od (s : State) (k n : Nat) : (s.countMax k n).od = s.od := rfl
@[simp] theorem countMax_mem (s : State) (k n : Nat) : (s.countMax k n).mem = s.mem := rfl
@[simp] theorem countMax_hostMem (s : State) (k n : Nat) : (s.countMax k n).hostMem = s.hostMem := rfl
@[simp] theorem countMax_hostBad (s : State) (k n : Nat) : (s.countMax k n).hostBad = s.hostBad := rfl
@[simp] theorem countMax_eccBad (s : State) (k n : Nat) : (s.countMax k n).eccBad = s.eccBad := rfl
@[simp] theorem countMax_cores (s : State) (k n : Nat) : (s.countMax k n).cores = s.cores := rfl
@[simp] theorem countMax_channels (s : State) (k n : Nat) : (s.countMax k n).channels = s.channels := rfl
@[simp] theorem countMax_moves (s : State) (k n : Nat) : (s.countMax k n).moves = s.moves := rfl
@[simp] theorem countMax_plats (s : State) (k n : Nat) : (s.countMax k n).plats = s.plats := rfl
@[simp] theorem countMax_queues (s : State) (k n : Nat) : (s.countMax k n).queues = s.queues := rfl
@[simp] theorem countMax_ports (s : State) (k n : Nat) : (s.countMax k n).ports = s.ports := rfl
@[simp] theorem countMax_hostOut (s : State) (k n : Nat) : (s.countMax k n).hostOut = s.hostOut := rfl
@[simp] theorem countMax_links (s : State) (k n : Nat) : (s.countMax k n).links = s.links := rfl
@[simp] theorem countMax_msgIds (s : State) (k n : Nat) : (s.countMax k n).msgIds = s.msgIds := rfl
@[simp] theorem countMax_points (s : State) (k n : Nat) : (s.countMax k n).points = s.points := rfl
@[simp] theorem countMax_loaded (s : State) (k n : Nat) : (s.countMax k n).loaded = s.loaded := rfl
@[simp] theorem countMax_loading (s : State) (k n : Nat) : (s.countMax k n).loading = s.loading := rfl
@[simp] theorem countMax_red (s : State) (k n : Nat) : (s.countMax k n).red = s.red := rfl
@[simp] theorem countMax_job (s : State) (k n : Nat) : (s.countMax k n).job = s.job := rfl
@[simp] theorem countMax_ckpt (s : State) (k n : Nat) : (s.countMax k n).ckpt = s.ckpt := rfl
@[simp] theorem countMax_serving (s : State) (k n : Nat) : (s.countMax k n).serving = s.serving := rfl
@[simp] theorem countMax_islands (s : State) (k n : Nat) : (s.countMax k n).islands = s.islands := rfl
@[simp] theorem countMax_power (s : State) (k n : Nat) : (s.countMax k n).power = s.power := rfl
@[simp] theorem countMax_depot (s : State) (k n : Nat) : (s.countMax k n).depot = s.depot := rfl
@[simp] theorem countMax_security (s : State) (k n : Nat) : (s.countMax k n).security = s.security := rfl
@[simp] theorem countMax_fieldNet (s : State) (k n : Nat) : (s.countMax k n).fieldNet = s.fieldNet := rfl
@[simp] theorem countMax_dies (s : State) (k n : Nat) : (s.countMax k n).dies = s.dies := rfl
theorem countMax_stats (s : State) (k n : Nat) : (s.countMax k n).stats = tabMod 0 s.stats k (Nat.max · n) := rfl

/-! ### put -/

@[simp] theorem put_pending (s : State) (a : Nat) (bs : List Byte) : (s.put a bs).pending = s.pending := rfl
@[simp] theorem put_fresh (s : State) (a : Nat) (bs : List Byte) : (s.put a bs).fresh = s.fresh := rfl
@[simp] theorem put_timeMs (s : State) (a : Nat) (bs : List Byte) : (s.put a bs).timeMs = s.timeMs := rfl
@[simp] theorem put_od (s : State) (a : Nat) (bs : List Byte) : (s.put a bs).od = s.od := rfl
@[simp] theorem put_stats (s : State) (a : Nat) (bs : List Byte) : (s.put a bs).stats = s.stats := rfl
@[simp] theorem put_hostMem (s : State) (a : Nat) (bs : List Byte) : (s.put a bs).hostMem = s.hostMem := rfl
@[simp] theorem put_hostBad (s : State) (a : Nat) (bs : List Byte) : (s.put a bs).hostBad = s.hostBad := rfl
@[simp] theorem put_cores (s : State) (a : Nat) (bs : List Byte) : (s.put a bs).cores = s.cores := rfl
@[simp] theorem put_channels (s : State) (a : Nat) (bs : List Byte) : (s.put a bs).channels = s.channels := rfl
@[simp] theorem put_moves (s : State) (a : Nat) (bs : List Byte) : (s.put a bs).moves = s.moves := rfl
@[simp] theorem put_plats (s : State) (a : Nat) (bs : List Byte) : (s.put a bs).plats = s.plats := rfl
@[simp] theorem put_queues (s : State) (a : Nat) (bs : List Byte) : (s.put a bs).queues = s.queues := rfl
@[simp] theorem put_ports (s : State) (a : Nat) (bs : List Byte) : (s.put a bs).ports = s.ports := rfl
@[simp] theorem put_hostOut (s : State) (a : Nat) (bs : List Byte) : (s.put a bs).hostOut = s.hostOut := rfl
@[simp] theorem put_links (s : State) (a : Nat) (bs : List Byte) : (s.put a bs).links = s.links := rfl
@[simp] theorem put_msgIds (s : State) (a : Nat) (bs : List Byte) : (s.put a bs).msgIds = s.msgIds := rfl
@[simp] theorem put_points (s : State) (a : Nat) (bs : List Byte) : (s.put a bs).points = s.points := rfl
@[simp] theorem put_loaded (s : State) (a : Nat) (bs : List Byte) : (s.put a bs).loaded = s.loaded := rfl
@[simp] theorem put_loading (s : State) (a : Nat) (bs : List Byte) : (s.put a bs).loading = s.loading := rfl
@[simp] theorem put_red (s : State) (a : Nat) (bs : List Byte) : (s.put a bs).red = s.red := rfl
@[simp] theorem put_job (s : State) (a : Nat) (bs : List Byte) : (s.put a bs).job = s.job := rfl
@[simp] theorem put_ckpt (s : State) (a : Nat) (bs : List Byte) : (s.put a bs).ckpt = s.ckpt := rfl
@[simp] theorem put_serving (s : State) (a : Nat) (bs : List Byte) : (s.put a bs).serving = s.serving := rfl
@[simp] theorem put_islands (s : State) (a : Nat) (bs : List Byte) : (s.put a bs).islands = s.islands := rfl
@[simp] theorem put_power (s : State) (a : Nat) (bs : List Byte) : (s.put a bs).power = s.power := rfl
@[simp] theorem put_depot (s : State) (a : Nat) (bs : List Byte) : (s.put a bs).depot = s.depot := rfl
@[simp] theorem put_security (s : State) (a : Nat) (bs : List Byte) : (s.put a bs).security = s.security := rfl
@[simp] theorem put_fieldNet (s : State) (a : Nat) (bs : List Byte) : (s.put a bs).fieldNet = s.fieldNet := rfl
@[simp] theorem put_dies (s : State) (a : Nat) (bs : List Byte) : (s.put a bs).dies = s.dies := rfl
theorem put_mem (s : State) (a : Nat) (bs : List Byte) : (s.put a bs).mem = memPutAll s.mem a bs := rfl
theorem put_eccBad (s : State) (a : Nat) (bs : List Byte) : (s.put a bs).eccBad = eccHeal s.eccBad a bs.length := rfl

/-! ### setPort -/

@[simp] theorem setPort_pending (s : State) (p : Nat) (x : HostPort) : (s.setPort p x).pending = s.pending := rfl
@[simp] theorem setPort_fresh (s : State) (p : Nat) (x : HostPort) : (s.setPort p x).fresh = s.fresh := rfl
@[simp] theorem setPort_timeMs (s : State) (p : Nat) (x : HostPort) : (s.setPort p x).timeMs = s.timeMs := rfl
@[simp] theorem setPort_od (s : State) (p : Nat) (x : HostPort) : (s.setPort p x).od = s.od := rfl
@[simp] theorem setPort_stats (s : State) (p : Nat) (x : HostPort) : (s.setPort p x).stats = s.stats := rfl
@[simp] theorem setPort_mem (s : State) (p : Nat) (x : HostPort) : (s.setPort p x).mem = s.mem := rfl
@[simp] theorem setPort_hostMem (s : State) (p : Nat) (x : HostPort) : (s.setPort p x).hostMem = s.hostMem := rfl
@[simp] theorem setPort_hostBad (s : State) (p : Nat) (x : HostPort) : (s.setPort p x).hostBad = s.hostBad := rfl
@[simp] theorem setPort_eccBad (s : State) (p : Nat) (x : HostPort) : (s.setPort p x).eccBad = s.eccBad := rfl
@[simp] theorem setPort_cores (s : State) (p : Nat) (x : HostPort) : (s.setPort p x).cores = s.cores := rfl
@[simp] theorem setPort_channels (s : State) (p : Nat) (x : HostPort) : (s.setPort p x).channels = s.channels := rfl
@[simp] theorem setPort_moves (s : State) (p : Nat) (x : HostPort) : (s.setPort p x).moves = s.moves := rfl
@[simp] theorem setPort_plats (s : State) (p : Nat) (x : HostPort) : (s.setPort p x).plats = s.plats := rfl
@[simp] theorem setPort_queues (s : State) (p : Nat) (x : HostPort) : (s.setPort p x).queues = s.queues := rfl
@[simp] theorem setPort_hostOut (s : State) (p : Nat) (x : HostPort) : (s.setPort p x).hostOut = s.hostOut := rfl
@[simp] theorem setPort_links (s : State) (p : Nat) (x : HostPort) : (s.setPort p x).links = s.links := rfl
@[simp] theorem setPort_msgIds (s : State) (p : Nat) (x : HostPort) : (s.setPort p x).msgIds = s.msgIds := rfl
@[simp] theorem setPort_points (s : State) (p : Nat) (x : HostPort) : (s.setPort p x).points = s.points := rfl
@[simp] theorem setPort_loaded (s : State) (p : Nat) (x : HostPort) : (s.setPort p x).loaded = s.loaded := rfl
@[simp] theorem setPort_loading (s : State) (p : Nat) (x : HostPort) : (s.setPort p x).loading = s.loading := rfl
@[simp] theorem setPort_red (s : State) (p : Nat) (x : HostPort) : (s.setPort p x).red = s.red := rfl
@[simp] theorem setPort_job (s : State) (p : Nat) (x : HostPort) : (s.setPort p x).job = s.job := rfl
@[simp] theorem setPort_ckpt (s : State) (p : Nat) (x : HostPort) : (s.setPort p x).ckpt = s.ckpt := rfl
@[simp] theorem setPort_serving (s : State) (p : Nat) (x : HostPort) : (s.setPort p x).serving = s.serving := rfl
@[simp] theorem setPort_islands (s : State) (p : Nat) (x : HostPort) : (s.setPort p x).islands = s.islands := rfl
@[simp] theorem setPort_power (s : State) (p : Nat) (x : HostPort) : (s.setPort p x).power = s.power := rfl
@[simp] theorem setPort_depot (s : State) (p : Nat) (x : HostPort) : (s.setPort p x).depot = s.depot := rfl
@[simp] theorem setPort_security (s : State) (p : Nat) (x : HostPort) : (s.setPort p x).security = s.security := rfl
@[simp] theorem setPort_fieldNet (s : State) (p : Nat) (x : HostPort) : (s.setPort p x).fieldNet = s.fieldNet := rfl
@[simp] theorem setPort_dies (s : State) (p : Nat) (x : HostPort) : (s.setPort p x).dies = s.dies := rfl
theorem setPort_ports (s : State) (p : Nat) (x : HostPort) : (s.setPort p x).ports = tabSet s.ports p x := rfl

/-! ### emit -/

@[simp] theorem emit_pending (s : State) (o : HostOut) : (s.emit o).pending = s.pending := rfl
@[simp] theorem emit_fresh (s : State) (o : HostOut) : (s.emit o).fresh = s.fresh := rfl
@[simp] theorem emit_timeMs (s : State) (o : HostOut) : (s.emit o).timeMs = s.timeMs := rfl
@[simp] theorem emit_od (s : State) (o : HostOut) : (s.emit o).od = s.od := rfl
@[simp] theorem emit_stats (s : State) (o : HostOut) : (s.emit o).stats = s.stats := rfl
@[simp] theorem emit_mem (s : State) (o : HostOut) : (s.emit o).mem = s.mem := rfl
@[simp] theorem emit_hostMem (s : State) (o : HostOut) : (s.emit o).hostMem = s.hostMem := rfl
@[simp] theorem emit_hostBad (s : State) (o : HostOut) : (s.emit o).hostBad = s.hostBad := rfl
@[simp] theorem emit_eccBad (s : State) (o : HostOut) : (s.emit o).eccBad = s.eccBad := rfl
@[simp] theorem emit_cores (s : State) (o : HostOut) : (s.emit o).cores = s.cores := rfl
@[simp] theorem emit_channels (s : State) (o : HostOut) : (s.emit o).channels = s.channels := rfl
@[simp] theorem emit_moves (s : State) (o : HostOut) : (s.emit o).moves = s.moves := rfl
@[simp] theorem emit_plats (s : State) (o : HostOut) : (s.emit o).plats = s.plats := rfl
@[simp] theorem emit_queues (s : State) (o : HostOut) : (s.emit o).queues = s.queues := rfl
@[simp] theorem emit_ports (s : State) (o : HostOut) : (s.emit o).ports = s.ports := rfl
@[simp] theorem emit_links (s : State) (o : HostOut) : (s.emit o).links = s.links := rfl
@[simp] theorem emit_msgIds (s : State) (o : HostOut) : (s.emit o).msgIds = s.msgIds := rfl
@[simp] theorem emit_points (s : State) (o : HostOut) : (s.emit o).points = s.points := rfl
@[simp] theorem emit_loaded (s : State) (o : HostOut) : (s.emit o).loaded = s.loaded := rfl
@[simp] theorem emit_loading (s : State) (o : HostOut) : (s.emit o).loading = s.loading := rfl
@[simp] theorem emit_red (s : State) (o : HostOut) : (s.emit o).red = s.red := rfl
@[simp] theorem emit_job (s : State) (o : HostOut) : (s.emit o).job = s.job := rfl
@[simp] theorem emit_ckpt (s : State) (o : HostOut) : (s.emit o).ckpt = s.ckpt := rfl
@[simp] theorem emit_serving (s : State) (o : HostOut) : (s.emit o).serving = s.serving := rfl
@[simp] theorem emit_islands (s : State) (o : HostOut) : (s.emit o).islands = s.islands := rfl
@[simp] theorem emit_power (s : State) (o : HostOut) : (s.emit o).power = s.power := rfl
@[simp] theorem emit_depot (s : State) (o : HostOut) : (s.emit o).depot = s.depot := rfl
@[simp] theorem emit_security (s : State) (o : HostOut) : (s.emit o).security = s.security := rfl
@[simp] theorem emit_fieldNet (s : State) (o : HostOut) : (s.emit o).fieldNet = s.fieldNet := rfl
@[simp] theorem emit_dies (s : State) (o : HostOut) : (s.emit o).dies = s.dies := rfl
theorem emit_hostOut (s : State) (o : HostOut) : (s.emit o).hostOut = s.hostOut ++ [o] := rfl

/-! ### setPlat -/

@[simp] theorem setPlat_pending (s : State) (p : Nat) (x : Platform) : (s.setPlat p x).pending = s.pending := rfl
@[simp] theorem setPlat_fresh (s : State) (p : Nat) (x : Platform) : (s.setPlat p x).fresh = s.fresh := rfl
@[simp] theorem setPlat_timeMs (s : State) (p : Nat) (x : Platform) : (s.setPlat p x).timeMs = s.timeMs := rfl
@[simp] theorem setPlat_od (s : State) (p : Nat) (x : Platform) : (s.setPlat p x).od = s.od := rfl
@[simp] theorem setPlat_stats (s : State) (p : Nat) (x : Platform) : (s.setPlat p x).stats = s.stats := rfl
@[simp] theorem setPlat_mem (s : State) (p : Nat) (x : Platform) : (s.setPlat p x).mem = s.mem := rfl
@[simp] theorem setPlat_hostMem (s : State) (p : Nat) (x : Platform) : (s.setPlat p x).hostMem = s.hostMem := rfl
@[simp] theorem setPlat_hostBad (s : State) (p : Nat) (x : Platform) : (s.setPlat p x).hostBad = s.hostBad := rfl
@[simp] theorem setPlat_eccBad (s : State) (p : Nat) (x : Platform) : (s.setPlat p x).eccBad = s.eccBad := rfl
@[simp] theorem setPlat_cores (s : State) (p : Nat) (x : Platform) : (s.setPlat p x).cores = s.cores := rfl
@[simp] theorem setPlat_channels (s : State) (p : Nat) (x : Platform) : (s.setPlat p x).channels = s.channels := rfl
@[simp] theorem setPlat_moves (s : State) (p : Nat) (x : Platform) : (s.setPlat p x).moves = s.moves := rfl
@[simp] theorem setPlat_queues (s : State) (p : Nat) (x : Platform) : (s.setPlat p x).queues = s.queues := rfl
@[simp] theorem setPlat_ports (s : State) (p : Nat) (x : Platform) : (s.setPlat p x).ports = s.ports := rfl
@[simp] theorem setPlat_hostOut (s : State) (p : Nat) (x : Platform) : (s.setPlat p x).hostOut = s.hostOut := rfl
@[simp] theorem setPlat_links (s : State) (p : Nat) (x : Platform) : (s.setPlat p x).links = s.links := rfl
@[simp] theorem setPlat_msgIds (s : State) (p : Nat) (x : Platform) : (s.setPlat p x).msgIds = s.msgIds := rfl
@[simp] theorem setPlat_points (s : State) (p : Nat) (x : Platform) : (s.setPlat p x).points = s.points := rfl
@[simp] theorem setPlat_loaded (s : State) (p : Nat) (x : Platform) : (s.setPlat p x).loaded = s.loaded := rfl
@[simp] theorem setPlat_loading (s : State) (p : Nat) (x : Platform) : (s.setPlat p x).loading = s.loading := rfl
@[simp] theorem setPlat_red (s : State) (p : Nat) (x : Platform) : (s.setPlat p x).red = s.red := rfl
@[simp] theorem setPlat_job (s : State) (p : Nat) (x : Platform) : (s.setPlat p x).job = s.job := rfl
@[simp] theorem setPlat_ckpt (s : State) (p : Nat) (x : Platform) : (s.setPlat p x).ckpt = s.ckpt := rfl
@[simp] theorem setPlat_serving (s : State) (p : Nat) (x : Platform) : (s.setPlat p x).serving = s.serving := rfl
@[simp] theorem setPlat_islands (s : State) (p : Nat) (x : Platform) : (s.setPlat p x).islands = s.islands := rfl
@[simp] theorem setPlat_power (s : State) (p : Nat) (x : Platform) : (s.setPlat p x).power = s.power := rfl
@[simp] theorem setPlat_depot (s : State) (p : Nat) (x : Platform) : (s.setPlat p x).depot = s.depot := rfl
@[simp] theorem setPlat_security (s : State) (p : Nat) (x : Platform) : (s.setPlat p x).security = s.security := rfl
@[simp] theorem setPlat_fieldNet (s : State) (p : Nat) (x : Platform) : (s.setPlat p x).fieldNet = s.fieldNet := rfl
@[simp] theorem setPlat_dies (s : State) (p : Nat) (x : Platform) : (s.setPlat p x).dies = s.dies := rfl
theorem setPlat_plats (s : State) (p : Nat) (x : Platform) : (s.setPlat p x).plats = tabSet s.plats p x := rfl

/-! ### setCore -/

@[simp] theorem setCore_pending (s : State) (c : Nat) (x : CoreState) : (s.setCore c x).pending = s.pending := rfl
@[simp] theorem setCore_fresh (s : State) (c : Nat) (x : CoreState) : (s.setCore c x).fresh = s.fresh := rfl
@[simp] theorem setCore_timeMs (s : State) (c : Nat) (x : CoreState) : (s.setCore c x).timeMs = s.timeMs := rfl
@[simp] theorem setCore_od (s : State) (c : Nat) (x : CoreState) : (s.setCore c x).od = s.od := rfl
@[simp] theorem setCore_stats (s : State) (c : Nat) (x : CoreState) : (s.setCore c x).stats = s.stats := rfl
@[simp] theorem setCore_mem (s : State) (c : Nat) (x : CoreState) : (s.setCore c x).mem = s.mem := rfl
@[simp] theorem setCore_hostMem (s : State) (c : Nat) (x : CoreState) : (s.setCore c x).hostMem = s.hostMem := rfl
@[simp] theorem setCore_hostBad (s : State) (c : Nat) (x : CoreState) : (s.setCore c x).hostBad = s.hostBad := rfl
@[simp] theorem setCore_eccBad (s : State) (c : Nat) (x : CoreState) : (s.setCore c x).eccBad = s.eccBad := rfl
@[simp] theorem setCore_channels (s : State) (c : Nat) (x : CoreState) : (s.setCore c x).channels = s.channels := rfl
@[simp] theorem setCore_moves (s : State) (c : Nat) (x : CoreState) : (s.setCore c x).moves = s.moves := rfl
@[simp] theorem setCore_plats (s : State) (c : Nat) (x : CoreState) : (s.setCore c x).plats = s.plats := rfl
@[simp] theorem setCore_queues (s : State) (c : Nat) (x : CoreState) : (s.setCore c x).queues = s.queues := rfl
@[simp] theorem setCore_ports (s : State) (c : Nat) (x : CoreState) : (s.setCore c x).ports = s.ports := rfl
@[simp] theorem setCore_hostOut (s : State) (c : Nat) (x : CoreState) : (s.setCore c x).hostOut = s.hostOut := rfl
@[simp] theorem setCore_links (s : State) (c : Nat) (x : CoreState) : (s.setCore c x).links = s.links := rfl
@[simp] theorem setCore_msgIds (s : State) (c : Nat) (x : CoreState) : (s.setCore c x).msgIds = s.msgIds := rfl
@[simp] theorem setCore_points (s : State) (c : Nat) (x : CoreState) : (s.setCore c x).points = s.points := rfl
@[simp] theorem setCore_loaded (s : State) (c : Nat) (x : CoreState) : (s.setCore c x).loaded = s.loaded := rfl
@[simp] theorem setCore_loading (s : State) (c : Nat) (x : CoreState) : (s.setCore c x).loading = s.loading := rfl
@[simp] theorem setCore_red (s : State) (c : Nat) (x : CoreState) : (s.setCore c x).red = s.red := rfl
@[simp] theorem setCore_job (s : State) (c : Nat) (x : CoreState) : (s.setCore c x).job = s.job := rfl
@[simp] theorem setCore_ckpt (s : State) (c : Nat) (x : CoreState) : (s.setCore c x).ckpt = s.ckpt := rfl
@[simp] theorem setCore_serving (s : State) (c : Nat) (x : CoreState) : (s.setCore c x).serving = s.serving := rfl
@[simp] theorem setCore_islands (s : State) (c : Nat) (x : CoreState) : (s.setCore c x).islands = s.islands := rfl
@[simp] theorem setCore_power (s : State) (c : Nat) (x : CoreState) : (s.setCore c x).power = s.power := rfl
@[simp] theorem setCore_depot (s : State) (c : Nat) (x : CoreState) : (s.setCore c x).depot = s.depot := rfl
@[simp] theorem setCore_security (s : State) (c : Nat) (x : CoreState) : (s.setCore c x).security = s.security := rfl
@[simp] theorem setCore_fieldNet (s : State) (c : Nat) (x : CoreState) : (s.setCore c x).fieldNet = s.fieldNet := rfl
@[simp] theorem setCore_dies (s : State) (c : Nat) (x : CoreState) : (s.setCore c x).dies = s.dies := rfl
theorem setCore_cores (s : State) (c : Nat) (x : CoreState) : (s.setCore c x).cores = tabSet s.cores c x := rfl

/-! ### setStream -/

@[simp] theorem setStream_pending (s : State) (c i : Nat) (x : Stream) : (s.setStream c i x).pending = s.pending := rfl
@[simp] theorem setStream_fresh (s : State) (c i : Nat) (x : Stream) : (s.setStream c i x).fresh = s.fresh := rfl
@[simp] theorem setStream_timeMs (s : State) (c i : Nat) (x : Stream) : (s.setStream c i x).timeMs = s.timeMs := rfl
@[simp] theorem setStream_od (s : State) (c i : Nat) (x : Stream) : (s.setStream c i x).od = s.od := rfl
@[simp] theorem setStream_stats (s : State) (c i : Nat) (x : Stream) : (s.setStream c i x).stats = s.stats := rfl
@[simp] theorem setStream_mem (s : State) (c i : Nat) (x : Stream) : (s.setStream c i x).mem = s.mem := rfl
@[simp] theorem setStream_hostMem (s : State) (c i : Nat) (x : Stream) : (s.setStream c i x).hostMem = s.hostMem := rfl
@[simp] theorem setStream_hostBad (s : State) (c i : Nat) (x : Stream) : (s.setStream c i x).hostBad = s.hostBad := rfl
@[simp] theorem setStream_eccBad (s : State) (c i : Nat) (x : Stream) : (s.setStream c i x).eccBad = s.eccBad := rfl
@[simp] theorem setStream_channels (s : State) (c i : Nat) (x : Stream) : (s.setStream c i x).channels = s.channels := rfl
@[simp] theorem setStream_moves (s : State) (c i : Nat) (x : Stream) : (s.setStream c i x).moves = s.moves := rfl
@[simp] theorem setStream_plats (s : State) (c i : Nat) (x : Stream) : (s.setStream c i x).plats = s.plats := rfl
@[simp] theorem setStream_queues (s : State) (c i : Nat) (x : Stream) : (s.setStream c i x).queues = s.queues := rfl
@[simp] theorem setStream_ports (s : State) (c i : Nat) (x : Stream) : (s.setStream c i x).ports = s.ports := rfl
@[simp] theorem setStream_hostOut (s : State) (c i : Nat) (x : Stream) : (s.setStream c i x).hostOut = s.hostOut := rfl
@[simp] theorem setStream_links (s : State) (c i : Nat) (x : Stream) : (s.setStream c i x).links = s.links := rfl
@[simp] theorem setStream_msgIds (s : State) (c i : Nat) (x : Stream) : (s.setStream c i x).msgIds = s.msgIds := rfl
@[simp] theorem setStream_points (s : State) (c i : Nat) (x : Stream) : (s.setStream c i x).points = s.points := rfl
@[simp] theorem setStream_loaded (s : State) (c i : Nat) (x : Stream) : (s.setStream c i x).loaded = s.loaded := rfl
@[simp] theorem setStream_loading (s : State) (c i : Nat) (x : Stream) : (s.setStream c i x).loading = s.loading := rfl
@[simp] theorem setStream_red (s : State) (c i : Nat) (x : Stream) : (s.setStream c i x).red = s.red := rfl
@[simp] theorem setStream_job (s : State) (c i : Nat) (x : Stream) : (s.setStream c i x).job = s.job := rfl
@[simp] theorem setStream_ckpt (s : State) (c i : Nat) (x : Stream) : (s.setStream c i x).ckpt = s.ckpt := rfl
@[simp] theorem setStream_serving (s : State) (c i : Nat) (x : Stream) : (s.setStream c i x).serving = s.serving := rfl
@[simp] theorem setStream_islands (s : State) (c i : Nat) (x : Stream) : (s.setStream c i x).islands = s.islands := rfl
@[simp] theorem setStream_power (s : State) (c i : Nat) (x : Stream) : (s.setStream c i x).power = s.power := rfl
@[simp] theorem setStream_depot (s : State) (c i : Nat) (x : Stream) : (s.setStream c i x).depot = s.depot := rfl
@[simp] theorem setStream_security (s : State) (c i : Nat) (x : Stream) : (s.setStream c i x).security = s.security := rfl
@[simp] theorem setStream_fieldNet (s : State) (c i : Nat) (x : Stream) : (s.setStream c i x).fieldNet = s.fieldNet := rfl
@[simp] theorem setStream_dies (s : State) (c i : Nat) (x : Stream) : (s.setStream c i x).dies = s.dies := rfl

/-! ### setCtr -/

@[simp] theorem setCtr_pending (s : State) (c k v : Nat) : (s.setCtr c k v).pending = s.pending := rfl
@[simp] theorem setCtr_fresh (s : State) (c k v : Nat) : (s.setCtr c k v).fresh = s.fresh := rfl
@[simp] theorem setCtr_timeMs (s : State) (c k v : Nat) : (s.setCtr c k v).timeMs = s.timeMs := rfl
@[simp] theorem setCtr_od (s : State) (c k v : Nat) : (s.setCtr c k v).od = s.od := rfl
@[simp] theorem setCtr_stats (s : State) (c k v : Nat) : (s.setCtr c k v).stats = s.stats := rfl
@[simp] theorem setCtr_mem (s : State) (c k v : Nat) : (s.setCtr c k v).mem = s.mem := rfl
@[simp] theorem setCtr_hostMem (s : State) (c k v : Nat) : (s.setCtr c k v).hostMem = s.hostMem := rfl
@[simp] theorem setCtr_hostBad (s : State) (c k v : Nat) : (s.setCtr c k v).hostBad = s.hostBad := rfl
@[simp] theorem setCtr_eccBad (s : State) (c k v : Nat) : (s.setCtr c k v).eccBad = s.eccBad := rfl
@[simp] theorem setCtr_channels (s : State) (c k v : Nat) : (s.setCtr c k v).channels = s.channels := rfl
@[simp] theorem setCtr_moves (s : State) (c k v : Nat) : (s.setCtr c k v).moves = s.moves := rfl
@[simp] theorem setCtr_plats (s : State) (c k v : Nat) : (s.setCtr c k v).plats = s.plats := rfl
@[simp] theorem setCtr_queues (s : State) (c k v : Nat) : (s.setCtr c k v).queues = s.queues := rfl
@[simp] theorem setCtr_ports (s : State) (c k v : Nat) : (s.setCtr c k v).ports = s.ports := rfl
@[simp] theorem setCtr_hostOut (s : State) (c k v : Nat) : (s.setCtr c k v).hostOut = s.hostOut := rfl
@[simp] theorem setCtr_links (s : State) (c k v : Nat) : (s.setCtr c k v).links = s.links := rfl
@[simp] theorem setCtr_msgIds (s : State) (c k v : Nat) : (s.setCtr c k v).msgIds = s.msgIds := rfl
@[simp] theorem setCtr_points (s : State) (c k v : Nat) : (s.setCtr c k v).points = s.points := rfl
@[simp] theorem setCtr_loaded (s : State) (c k v : Nat) : (s.setCtr c k v).loaded = s.loaded := rfl
@[simp] theorem setCtr_loading (s : State) (c k v : Nat) : (s.setCtr c k v).loading = s.loading := rfl
@[simp] theorem setCtr_red (s : State) (c k v : Nat) : (s.setCtr c k v).red = s.red := rfl
@[simp] theorem setCtr_job (s : State) (c k v : Nat) : (s.setCtr c k v).job = s.job := rfl
@[simp] theorem setCtr_ckpt (s : State) (c k v : Nat) : (s.setCtr c k v).ckpt = s.ckpt := rfl
@[simp] theorem setCtr_serving (s : State) (c k v : Nat) : (s.setCtr c k v).serving = s.serving := rfl
@[simp] theorem setCtr_islands (s : State) (c k v : Nat) : (s.setCtr c k v).islands = s.islands := rfl
@[simp] theorem setCtr_power (s : State) (c k v : Nat) : (s.setCtr c k v).power = s.power := rfl
@[simp] theorem setCtr_depot (s : State) (c k v : Nat) : (s.setCtr c k v).depot = s.depot := rfl
@[simp] theorem setCtr_security (s : State) (c k v : Nat) : (s.setCtr c k v).security = s.security := rfl
@[simp] theorem setCtr_fieldNet (s : State) (c k v : Nat) : (s.setCtr c k v).fieldNet = s.fieldNet := rfl
@[simp] theorem setCtr_dies (s : State) (c k v : Nat) : (s.setCtr c k v).dies = s.dies := rfl

/-! ### setArray -/

@[simp] theorem setArray_pending (s : State) (c a : Nat) (x : ArrayState) : (s.setArray c a x).pending = s.pending := rfl
@[simp] theorem setArray_fresh (s : State) (c a : Nat) (x : ArrayState) : (s.setArray c a x).fresh = s.fresh := rfl
@[simp] theorem setArray_timeMs (s : State) (c a : Nat) (x : ArrayState) : (s.setArray c a x).timeMs = s.timeMs := rfl
@[simp] theorem setArray_od (s : State) (c a : Nat) (x : ArrayState) : (s.setArray c a x).od = s.od := rfl
@[simp] theorem setArray_stats (s : State) (c a : Nat) (x : ArrayState) : (s.setArray c a x).stats = s.stats := rfl
@[simp] theorem setArray_mem (s : State) (c a : Nat) (x : ArrayState) : (s.setArray c a x).mem = s.mem := rfl
@[simp] theorem setArray_hostMem (s : State) (c a : Nat) (x : ArrayState) : (s.setArray c a x).hostMem = s.hostMem := rfl
@[simp] theorem setArray_hostBad (s : State) (c a : Nat) (x : ArrayState) : (s.setArray c a x).hostBad = s.hostBad := rfl
@[simp] theorem setArray_eccBad (s : State) (c a : Nat) (x : ArrayState) : (s.setArray c a x).eccBad = s.eccBad := rfl
@[simp] theorem setArray_channels (s : State) (c a : Nat) (x : ArrayState) : (s.setArray c a x).channels = s.channels := rfl
@[simp] theorem setArray_moves (s : State) (c a : Nat) (x : ArrayState) : (s.setArray c a x).moves = s.moves := rfl
@[simp] theorem setArray_plats (s : State) (c a : Nat) (x : ArrayState) : (s.setArray c a x).plats = s.plats := rfl
@[simp] theorem setArray_queues (s : State) (c a : Nat) (x : ArrayState) : (s.setArray c a x).queues = s.queues := rfl
@[simp] theorem setArray_ports (s : State) (c a : Nat) (x : ArrayState) : (s.setArray c a x).ports = s.ports := rfl
@[simp] theorem setArray_hostOut (s : State) (c a : Nat) (x : ArrayState) : (s.setArray c a x).hostOut = s.hostOut := rfl
@[simp] theorem setArray_links (s : State) (c a : Nat) (x : ArrayState) : (s.setArray c a x).links = s.links := rfl
@[simp] theorem setArray_msgIds (s : State) (c a : Nat) (x : ArrayState) : (s.setArray c a x).msgIds = s.msgIds := rfl
@[simp] theorem setArray_points (s : State) (c a : Nat) (x : ArrayState) : (s.setArray c a x).points = s.points := rfl
@[simp] theorem setArray_loaded (s : State) (c a : Nat) (x : ArrayState) : (s.setArray c a x).loaded = s.loaded := rfl
@[simp] theorem setArray_loading (s : State) (c a : Nat) (x : ArrayState) : (s.setArray c a x).loading = s.loading := rfl
@[simp] theorem setArray_red (s : State) (c a : Nat) (x : ArrayState) : (s.setArray c a x).red = s.red := rfl
@[simp] theorem setArray_job (s : State) (c a : Nat) (x : ArrayState) : (s.setArray c a x).job = s.job := rfl
@[simp] theorem setArray_ckpt (s : State) (c a : Nat) (x : ArrayState) : (s.setArray c a x).ckpt = s.ckpt := rfl
@[simp] theorem setArray_serving (s : State) (c a : Nat) (x : ArrayState) : (s.setArray c a x).serving = s.serving := rfl
@[simp] theorem setArray_islands (s : State) (c a : Nat) (x : ArrayState) : (s.setArray c a x).islands = s.islands := rfl
@[simp] theorem setArray_power (s : State) (c a : Nat) (x : ArrayState) : (s.setArray c a x).power = s.power := rfl
@[simp] theorem setArray_depot (s : State) (c a : Nat) (x : ArrayState) : (s.setArray c a x).depot = s.depot := rfl
@[simp] theorem setArray_security (s : State) (c a : Nat) (x : ArrayState) : (s.setArray c a x).security = s.security := rfl
@[simp] theorem setArray_fieldNet (s : State) (c a : Nat) (x : ArrayState) : (s.setArray c a x).fieldNet = s.fieldNet := rfl
@[simp] theorem setArray_dies (s : State) (c a : Nat) (x : ArrayState) : (s.setArray c a x).dies = s.dies := rfl

/-! ### setQueue -/

@[simp] theorem setQueue_pending (s : State) (q : Nat) (x : Queue) : (s.setQueue q x).pending = s.pending := rfl
@[simp] theorem setQueue_fresh (s : State) (q : Nat) (x : Queue) : (s.setQueue q x).fresh = s.fresh := rfl
@[simp] theorem setQueue_timeMs (s : State) (q : Nat) (x : Queue) : (s.setQueue q x).timeMs = s.timeMs := rfl
@[simp] theorem setQueue_od (s : State) (q : Nat) (x : Queue) : (s.setQueue q x).od = s.od := rfl
@[simp] theorem setQueue_stats (s : State) (q : Nat) (x : Queue) : (s.setQueue q x).stats = s.stats := rfl
@[simp] theorem setQueue_mem (s : State) (q : Nat) (x : Queue) : (s.setQueue q x).mem = s.mem := rfl
@[simp] theorem setQueue_hostMem (s : State) (q : Nat) (x : Queue) : (s.setQueue q x).hostMem = s.hostMem := rfl
@[simp] theorem setQueue_hostBad (s : State) (q : Nat) (x : Queue) : (s.setQueue q x).hostBad = s.hostBad := rfl
@[simp] theorem setQueue_eccBad (s : State) (q : Nat) (x : Queue) : (s.setQueue q x).eccBad = s.eccBad := rfl
@[simp] theorem setQueue_cores (s : State) (q : Nat) (x : Queue) : (s.setQueue q x).cores = s.cores := rfl
@[simp] theorem setQueue_channels (s : State) (q : Nat) (x : Queue) : (s.setQueue q x).channels = s.channels := rfl
@[simp] theorem setQueue_moves (s : State) (q : Nat) (x : Queue) : (s.setQueue q x).moves = s.moves := rfl
@[simp] theorem setQueue_plats (s : State) (q : Nat) (x : Queue) : (s.setQueue q x).plats = s.plats := rfl
@[simp] theorem setQueue_ports (s : State) (q : Nat) (x : Queue) : (s.setQueue q x).ports = s.ports := rfl
@[simp] theorem setQueue_hostOut (s : State) (q : Nat) (x : Queue) : (s.setQueue q x).hostOut = s.hostOut := rfl
@[simp] theorem setQueue_links (s : State) (q : Nat) (x : Queue) : (s.setQueue q x).links = s.links := rfl
@[simp] theorem setQueue_msgIds (s : State) (q : Nat) (x : Queue) : (s.setQueue q x).msgIds = s.msgIds := rfl
@[simp] theorem setQueue_points (s : State) (q : Nat) (x : Queue) : (s.setQueue q x).points = s.points := rfl
@[simp] theorem setQueue_loaded (s : State) (q : Nat) (x : Queue) : (s.setQueue q x).loaded = s.loaded := rfl
@[simp] theorem setQueue_loading (s : State) (q : Nat) (x : Queue) : (s.setQueue q x).loading = s.loading := rfl
@[simp] theorem setQueue_red (s : State) (q : Nat) (x : Queue) : (s.setQueue q x).red = s.red := rfl
@[simp] theorem setQueue_job (s : State) (q : Nat) (x : Queue) : (s.setQueue q x).job = s.job := rfl
@[simp] theorem setQueue_ckpt (s : State) (q : Nat) (x : Queue) : (s.setQueue q x).ckpt = s.ckpt := rfl
@[simp] theorem setQueue_serving (s : State) (q : Nat) (x : Queue) : (s.setQueue q x).serving = s.serving := rfl
@[simp] theorem setQueue_islands (s : State) (q : Nat) (x : Queue) : (s.setQueue q x).islands = s.islands := rfl
@[simp] theorem setQueue_power (s : State) (q : Nat) (x : Queue) : (s.setQueue q x).power = s.power := rfl
@[simp] theorem setQueue_depot (s : State) (q : Nat) (x : Queue) : (s.setQueue q x).depot = s.depot := rfl
@[simp] theorem setQueue_security (s : State) (q : Nat) (x : Queue) : (s.setQueue q x).security = s.security := rfl
@[simp] theorem setQueue_fieldNet (s : State) (q : Nat) (x : Queue) : (s.setQueue q x).fieldNet = s.fieldNet := rfl
@[simp] theorem setQueue_dies (s : State) (q : Nat) (x : Queue) : (s.setQueue q x).dies = s.dies := rfl
theorem setQueue_queues (s : State) (q : Nat) (x : Queue) : (s.setQueue q x).queues = tabSet s.queues q x := rfl

/-! ### setLink -/

@[simp] theorem setLink_pending (s : State) (p : Nat) (x : LinkPort) : (s.setLink p x).pending = s.pending := rfl
@[simp] theorem setLink_fresh (s : State) (p : Nat) (x : LinkPort) : (s.setLink p x).fresh = s.fresh := rfl
@[simp] theorem setLink_timeMs (s : State) (p : Nat) (x : LinkPort) : (s.setLink p x).timeMs = s.timeMs := rfl
@[simp] theorem setLink_od (s : State) (p : Nat) (x : LinkPort) : (s.setLink p x).od = s.od := rfl
@[simp] theorem setLink_stats (s : State) (p : Nat) (x : LinkPort) : (s.setLink p x).stats = s.stats := rfl
@[simp] theorem setLink_mem (s : State) (p : Nat) (x : LinkPort) : (s.setLink p x).mem = s.mem := rfl
@[simp] theorem setLink_hostMem (s : State) (p : Nat) (x : LinkPort) : (s.setLink p x).hostMem = s.hostMem := rfl
@[simp] theorem setLink_hostBad (s : State) (p : Nat) (x : LinkPort) : (s.setLink p x).hostBad = s.hostBad := rfl
@[simp] theorem setLink_eccBad (s : State) (p : Nat) (x : LinkPort) : (s.setLink p x).eccBad = s.eccBad := rfl
@[simp] theorem setLink_cores (s : State) (p : Nat) (x : LinkPort) : (s.setLink p x).cores = s.cores := rfl
@[simp] theorem setLink_channels (s : State) (p : Nat) (x : LinkPort) : (s.setLink p x).channels = s.channels := rfl
@[simp] theorem setLink_moves (s : State) (p : Nat) (x : LinkPort) : (s.setLink p x).moves = s.moves := rfl
@[simp] theorem setLink_plats (s : State) (p : Nat) (x : LinkPort) : (s.setLink p x).plats = s.plats := rfl
@[simp] theorem setLink_queues (s : State) (p : Nat) (x : LinkPort) : (s.setLink p x).queues = s.queues := rfl
@[simp] theorem setLink_ports (s : State) (p : Nat) (x : LinkPort) : (s.setLink p x).ports = s.ports := rfl
@[simp] theorem setLink_hostOut (s : State) (p : Nat) (x : LinkPort) : (s.setLink p x).hostOut = s.hostOut := rfl
@[simp] theorem setLink_msgIds (s : State) (p : Nat) (x : LinkPort) : (s.setLink p x).msgIds = s.msgIds := rfl
@[simp] theorem setLink_points (s : State) (p : Nat) (x : LinkPort) : (s.setLink p x).points = s.points := rfl
@[simp] theorem setLink_loaded (s : State) (p : Nat) (x : LinkPort) : (s.setLink p x).loaded = s.loaded := rfl
@[simp] theorem setLink_loading (s : State) (p : Nat) (x : LinkPort) : (s.setLink p x).loading = s.loading := rfl
@[simp] theorem setLink_red (s : State) (p : Nat) (x : LinkPort) : (s.setLink p x).red = s.red := rfl
@[simp] theorem setLink_job (s : State) (p : Nat) (x : LinkPort) : (s.setLink p x).job = s.job := rfl
@[simp] theorem setLink_ckpt (s : State) (p : Nat) (x : LinkPort) : (s.setLink p x).ckpt = s.ckpt := rfl
@[simp] theorem setLink_serving (s : State) (p : Nat) (x : LinkPort) : (s.setLink p x).serving = s.serving := rfl
@[simp] theorem setLink_islands (s : State) (p : Nat) (x : LinkPort) : (s.setLink p x).islands = s.islands := rfl
@[simp] theorem setLink_power (s : State) (p : Nat) (x : LinkPort) : (s.setLink p x).power = s.power := rfl
@[simp] theorem setLink_depot (s : State) (p : Nat) (x : LinkPort) : (s.setLink p x).depot = s.depot := rfl
@[simp] theorem setLink_security (s : State) (p : Nat) (x : LinkPort) : (s.setLink p x).security = s.security := rfl
@[simp] theorem setLink_fieldNet (s : State) (p : Nat) (x : LinkPort) : (s.setLink p x).fieldNet = s.fieldNet := rfl
@[simp] theorem setLink_dies (s : State) (p : Nat) (x : LinkPort) : (s.setLink p x).dies = s.dies := rfl
theorem setLink_links (s : State) (p : Nat) (x : LinkPort) : (s.setLink p x).links = tabSet s.links p x := rfl

/-! ### setIsland -/

@[simp] theorem setIsland_pending (s : State) (i : Nat) (x : Island) : (s.setIsland i x).pending = s.pending := rfl
@[simp] theorem setIsland_fresh (s : State) (i : Nat) (x : Island) : (s.setIsland i x).fresh = s.fresh := rfl
@[simp] theorem setIsland_timeMs (s : State) (i : Nat) (x : Island) : (s.setIsland i x).timeMs = s.timeMs := rfl
@[simp] theorem setIsland_od (s : State) (i : Nat) (x : Island) : (s.setIsland i x).od = s.od := rfl
@[simp] theorem setIsland_stats (s : State) (i : Nat) (x : Island) : (s.setIsland i x).stats = s.stats := rfl
@[simp] theorem setIsland_mem (s : State) (i : Nat) (x : Island) : (s.setIsland i x).mem = s.mem := rfl
@[simp] theorem setIsland_hostMem (s : State) (i : Nat) (x : Island) : (s.setIsland i x).hostMem = s.hostMem := rfl
@[simp] theorem setIsland_hostBad (s : State) (i : Nat) (x : Island) : (s.setIsland i x).hostBad = s.hostBad := rfl
@[simp] theorem setIsland_eccBad (s : State) (i : Nat) (x : Island) : (s.setIsland i x).eccBad = s.eccBad := rfl
@[simp] theorem setIsland_cores (s : State) (i : Nat) (x : Island) : (s.setIsland i x).cores = s.cores := rfl
@[simp] theorem setIsland_channels (s : State) (i : Nat) (x : Island) : (s.setIsland i x).channels = s.channels := rfl
@[simp] theorem setIsland_moves (s : State) (i : Nat) (x : Island) : (s.setIsland i x).moves = s.moves := rfl
@[simp] theorem setIsland_plats (s : State) (i : Nat) (x : Island) : (s.setIsland i x).plats = s.plats := rfl
@[simp] theorem setIsland_queues (s : State) (i : Nat) (x : Island) : (s.setIsland i x).queues = s.queues := rfl
@[simp] theorem setIsland_ports (s : State) (i : Nat) (x : Island) : (s.setIsland i x).ports = s.ports := rfl
@[simp] theorem setIsland_hostOut (s : State) (i : Nat) (x : Island) : (s.setIsland i x).hostOut = s.hostOut := rfl
@[simp] theorem setIsland_links (s : State) (i : Nat) (x : Island) : (s.setIsland i x).links = s.links := rfl
@[simp] theorem setIsland_msgIds (s : State) (i : Nat) (x : Island) : (s.setIsland i x).msgIds = s.msgIds := rfl
@[simp] theorem setIsland_points (s : State) (i : Nat) (x : Island) : (s.setIsland i x).points = s.points := rfl
@[simp] theorem setIsland_loaded (s : State) (i : Nat) (x : Island) : (s.setIsland i x).loaded = s.loaded := rfl
@[simp] theorem setIsland_loading (s : State) (i : Nat) (x : Island) : (s.setIsland i x).loading = s.loading := rfl
@[simp] theorem setIsland_red (s : State) (i : Nat) (x : Island) : (s.setIsland i x).red = s.red := rfl
@[simp] theorem setIsland_job (s : State) (i : Nat) (x : Island) : (s.setIsland i x).job = s.job := rfl
@[simp] theorem setIsland_ckpt (s : State) (i : Nat) (x : Island) : (s.setIsland i x).ckpt = s.ckpt := rfl
@[simp] theorem setIsland_serving (s : State) (i : Nat) (x : Island) : (s.setIsland i x).serving = s.serving := rfl
@[simp] theorem setIsland_power (s : State) (i : Nat) (x : Island) : (s.setIsland i x).power = s.power := rfl
@[simp] theorem setIsland_depot (s : State) (i : Nat) (x : Island) : (s.setIsland i x).depot = s.depot := rfl
@[simp] theorem setIsland_security (s : State) (i : Nat) (x : Island) : (s.setIsland i x).security = s.security := rfl
@[simp] theorem setIsland_fieldNet (s : State) (i : Nat) (x : Island) : (s.setIsland i x).fieldNet = s.fieldNet := rfl
@[simp] theorem setIsland_dies (s : State) (i : Nat) (x : Island) : (s.setIsland i x).dies = s.dies := rfl
theorem setIsland_islands (s : State) (i : Nat) (x : Island) : (s.setIsland i x).islands = tabSet s.islands i x := rfl

/-! ### setChannel -/

@[simp] theorem setChannel_pending (s : State) (n : Nat) (x : Channel) : (s.setChannel n x).pending = s.pending := rfl
@[simp] theorem setChannel_fresh (s : State) (n : Nat) (x : Channel) : (s.setChannel n x).fresh = s.fresh := rfl
@[simp] theorem setChannel_timeMs (s : State) (n : Nat) (x : Channel) : (s.setChannel n x).timeMs = s.timeMs := rfl
@[simp] theorem setChannel_od (s : State) (n : Nat) (x : Channel) : (s.setChannel n x).od = s.od := rfl
@[simp] theorem setChannel_stats (s : State) (n : Nat) (x : Channel) : (s.setChannel n x).stats = s.stats := rfl
@[simp] theorem setChannel_mem (s : State) (n : Nat) (x : Channel) : (s.setChannel n x).mem = s.mem := rfl
@[simp] theorem setChannel_hostMem (s : State) (n : Nat) (x : Channel) : (s.setChannel n x).hostMem = s.hostMem := rfl
@[simp] theorem setChannel_hostBad (s : State) (n : Nat) (x : Channel) : (s.setChannel n x).hostBad = s.hostBad := rfl
@[simp] theorem setChannel_eccBad (s : State) (n : Nat) (x : Channel) : (s.setChannel n x).eccBad = s.eccBad := rfl
@[simp] theorem setChannel_cores (s : State) (n : Nat) (x : Channel) : (s.setChannel n x).cores = s.cores := rfl
@[simp] theorem setChannel_moves (s : State) (n : Nat) (x : Channel) : (s.setChannel n x).moves = s.moves := rfl
@[simp] theorem setChannel_plats (s : State) (n : Nat) (x : Channel) : (s.setChannel n x).plats = s.plats := rfl
@[simp] theorem setChannel_queues (s : State) (n : Nat) (x : Channel) : (s.setChannel n x).queues = s.queues := rfl
@[simp] theorem setChannel_ports (s : State) (n : Nat) (x : Channel) : (s.setChannel n x).ports = s.ports := rfl
@[simp] theorem setChannel_hostOut (s : State) (n : Nat) (x : Channel) : (s.setChannel n x).hostOut = s.hostOut := rfl
@[simp] theorem setChannel_links (s : State) (n : Nat) (x : Channel) : (s.setChannel n x).links = s.links := rfl
@[simp] theorem setChannel_msgIds (s : State) (n : Nat) (x : Channel) : (s.setChannel n x).msgIds = s.msgIds := rfl
@[simp] theorem setChannel_points (s : State) (n : Nat) (x : Channel) : (s.setChannel n x).points = s.points := rfl
@[simp] theorem setChannel_loaded (s : State) (n : Nat) (x : Channel) : (s.setChannel n x).loaded = s.loaded := rfl
@[simp] theorem setChannel_loading (s : State) (n : Nat) (x : Channel) : (s.setChannel n x).loading = s.loading := rfl
@[simp] theorem setChannel_red (s : State) (n : Nat) (x : Channel) : (s.setChannel n x).red = s.red := rfl
@[simp] theorem setChannel_job (s : State) (n : Nat) (x : Channel) : (s.setChannel n x).job = s.job := rfl
@[simp] theorem setChannel_ckpt (s : State) (n : Nat) (x : Channel) : (s.setChannel n x).ckpt = s.ckpt := rfl
@[simp] theorem setChannel_serving (s : State) (n : Nat) (x : Channel) : (s.setChannel n x).serving = s.serving := rfl
@[simp] theorem setChannel_islands (s : State) (n : Nat) (x : Channel) : (s.setChannel n x).islands = s.islands := rfl
@[simp] theorem setChannel_power (s : State) (n : Nat) (x : Channel) : (s.setChannel n x).power = s.power := rfl
@[simp] theorem setChannel_depot (s : State) (n : Nat) (x : Channel) : (s.setChannel n x).depot = s.depot := rfl
@[simp] theorem setChannel_security (s : State) (n : Nat) (x : Channel) : (s.setChannel n x).security = s.security := rfl
@[simp] theorem setChannel_fieldNet (s : State) (n : Nat) (x : Channel) : (s.setChannel n x).fieldNet = s.fieldNet := rfl
@[simp] theorem setChannel_dies (s : State) (n : Nat) (x : Channel) : (s.setChannel n x).dies = s.dies := rfl
theorem setChannel_channels (s : State) (n : Nat) (x : Channel) : (s.setChannel n x).channels = tabSet s.channels n x := rfl

/-! ### setDie -/

@[simp] theorem setDie_pending (s : State) (d : Nat) (x : DieState) : (s.setDie d x).pending = s.pending := rfl
@[simp] theorem setDie_fresh (s : State) (d : Nat) (x : DieState) : (s.setDie d x).fresh = s.fresh := rfl
@[simp] theorem setDie_timeMs (s : State) (d : Nat) (x : DieState) : (s.setDie d x).timeMs = s.timeMs := rfl
@[simp] theorem setDie_od (s : State) (d : Nat) (x : DieState) : (s.setDie d x).od = s.od := rfl
@[simp] theorem setDie_stats (s : State) (d : Nat) (x : DieState) : (s.setDie d x).stats = s.stats := rfl
@[simp] theorem setDie_mem (s : State) (d : Nat) (x : DieState) : (s.setDie d x).mem = s.mem := rfl
@[simp] theorem setDie_hostMem (s : State) (d : Nat) (x : DieState) : (s.setDie d x).hostMem = s.hostMem := rfl
@[simp] theorem setDie_hostBad (s : State) (d : Nat) (x : DieState) : (s.setDie d x).hostBad = s.hostBad := rfl
@[simp] theorem setDie_eccBad (s : State) (d : Nat) (x : DieState) : (s.setDie d x).eccBad = s.eccBad := rfl
@[simp] theorem setDie_cores (s : State) (d : Nat) (x : DieState) : (s.setDie d x).cores = s.cores := rfl
@[simp] theorem setDie_channels (s : State) (d : Nat) (x : DieState) : (s.setDie d x).channels = s.channels := rfl
@[simp] theorem setDie_moves (s : State) (d : Nat) (x : DieState) : (s.setDie d x).moves = s.moves := rfl
@[simp] theorem setDie_plats (s : State) (d : Nat) (x : DieState) : (s.setDie d x).plats = s.plats := rfl
@[simp] theorem setDie_queues (s : State) (d : Nat) (x : DieState) : (s.setDie d x).queues = s.queues := rfl
@[simp] theorem setDie_ports (s : State) (d : Nat) (x : DieState) : (s.setDie d x).ports = s.ports := rfl
@[simp] theorem setDie_hostOut (s : State) (d : Nat) (x : DieState) : (s.setDie d x).hostOut = s.hostOut := rfl
@[simp] theorem setDie_links (s : State) (d : Nat) (x : DieState) : (s.setDie d x).links = s.links := rfl
@[simp] theorem setDie_msgIds (s : State) (d : Nat) (x : DieState) : (s.setDie d x).msgIds = s.msgIds := rfl
@[simp] theorem setDie_points (s : State) (d : Nat) (x : DieState) : (s.setDie d x).points = s.points := rfl
@[simp] theorem setDie_loaded (s : State) (d : Nat) (x : DieState) : (s.setDie d x).loaded = s.loaded := rfl
@[simp] theorem setDie_loading (s : State) (d : Nat) (x : DieState) : (s.setDie d x).loading = s.loading := rfl
@[simp] theorem setDie_red (s : State) (d : Nat) (x : DieState) : (s.setDie d x).red = s.red := rfl
@[simp] theorem setDie_job (s : State) (d : Nat) (x : DieState) : (s.setDie d x).job = s.job := rfl
@[simp] theorem setDie_ckpt (s : State) (d : Nat) (x : DieState) : (s.setDie d x).ckpt = s.ckpt := rfl
@[simp] theorem setDie_serving (s : State) (d : Nat) (x : DieState) : (s.setDie d x).serving = s.serving := rfl
@[simp] theorem setDie_islands (s : State) (d : Nat) (x : DieState) : (s.setDie d x).islands = s.islands := rfl
@[simp] theorem setDie_power (s : State) (d : Nat) (x : DieState) : (s.setDie d x).power = s.power := rfl
@[simp] theorem setDie_depot (s : State) (d : Nat) (x : DieState) : (s.setDie d x).depot = s.depot := rfl
@[simp] theorem setDie_security (s : State) (d : Nat) (x : DieState) : (s.setDie d x).security = s.security := rfl
@[simp] theorem setDie_fieldNet (s : State) (d : Nat) (x : DieState) : (s.setDie d x).fieldNet = s.fieldNet := rfl
theorem setDie_dies (s : State) (d : Nat) (x : DieState) : (s.setDie d x).dies = tabSet s.dies d x := rfl

end Sys2Proof.Laws
end

