-- ==== Sys2Proof/Laws/Commands.lean ====
section
/-! SUPPORT. The shared course of a Timetable command: what starting it leaves alone, and what becomes of the command that
the sequencer issues. -/

namespace Sys2Proof.Laws

open Sys2Proof Sys2Proof.Machine

/-- What every step of a fold keeps, the fold keeps. -/
theorem foldl_keeps {α β : Type} (proj : State → β) {f : State → α → State} (h : ∀ s a, proj (f s a) = proj s)
    (l : List α) (s : State) : proj (l.foldl f s) = proj s := by
  induction l generalizing s with
  | nil => rfl
  | cons a l ih => exact (ih (f s a)).trans (h s a)

/-- What both branches keep, the choice keeps. -/
theorem ite_keeps {β : Type} (proj : State → β) {v : β} {c : Prop} [Decidable c] {a b : State} (ha : proj a = v) (hb : proj b = v) :
    proj (if c then a else b) = v := by
  split <;> assumption

/-- Starting a command changes cores, Platforms and counts, and nothing else. -/
theorem start_keeps {β : Type} (proj : State → β) (hc : ∀ s c x, proj (State.setCore s c x) = proj s)
    (hn : ∀ s k n, proj (State.count s k n) = proj s) (hp : ∀ s p x, proj (State.setPlat s p x) = proj s)
    (s : State) (it : Issue) (cost cycles : Nat) : proj (s.start it cost cycles) = proj s := by
  unfold State.start
  dsimp only
  refine ite_keeps proj rfl ?_
  rw [foldl_keeps proj (fun s a => hp s _ _), foldl_keeps proj (fun s a => hp s _ _)]
  exact ite_keeps proj (hc _ _ _) ((hn _ _ _).trans (hc _ _ _))

@[simp] theorem start_eccBad (s : State) (it : Issue) (a b : Nat) : (s.start it a b).eccBad = s.eccBad :=
  start_keeps (·.eccBad) (fun _ _ _ => rfl) (fun _ _ _ => rfl) (fun _ _ _ => rfl) s it a b
@[simp] theorem start_mem (s : State) (it : Issue) (a b : Nat) : (s.start it a b).mem = s.mem :=
  start_keeps (·.mem) (fun _ _ _ => rfl) (fun _ _ _ => rfl) (fun _ _ _ => rfl) s it a b
@[simp] theorem start_hostMem (s : State) (it : Issue) (a b : Nat) : (s.start it a b).hostMem = s.hostMem :=
  start_keeps (·.hostMem) (fun _ _ _ => rfl) (fun _ _ _ => rfl) (fun _ _ _ => rfl) s it a b
@[simp] theorem start_od (s : State) (it : Issue) (a b : Nat) : (s.start it a b).od = s.od :=
  start_keeps (·.od) (fun _ _ _ => rfl) (fun _ _ _ => rfl) (fun _ _ _ => rfl) s it a b
@[simp] theorem start_dies (s : State) (it : Issue) (a b : Nat) : (s.start it a b).dies = s.dies :=
  start_keeps (·.dies) (fun _ _ _ => rfl) (fun _ _ _ => rfl) (fun _ _ _ => rfl) s it a b

theorem flatten_nil_of {α β : Type} (l : List α) (f : α → List β) (h : ∀ a, f a = []) : (l.map f).flatten = [] := by
  induction l with
  | nil => rfl
  | cons a l ih => simp [h a, ih]

/-- With no erroneous word in memory a command's effect runs. -/
theorem reading_clean (s : State) (it : Issue) (reads writes : List (Nat × Nat)) (k : State → State) (h : s.eccBad = []) :
    s.reading it reads writes k = k s := by
  unfold State.reading
  have h1 : (reads.map fun r => badIn s.eccBad r.1 r.2).flatten = [] := flatten_nil_of _ _ fun a => by simp [badIn, h]
  have h2 : (writes.map fun r => badPartly s.eccBad r.1 r.2).flatten = [] := flatten_nil_of _ _ fun a => by simp [badPartly, badIn, h]
  simp only [h1, h2, List.append_nil]
  rfl

/-- With no erroneous word in memory an effect of a Junction command runs. -/
theorem jctReading_clean (s : State) (c : JctCmd) (reads : List (Nat × Nat)) (k : State → State) (h : s.eccBad = []) :
    s.jctReading c reads k = k s := by
  unfold State.jctReading
  rw [flatten_nil_of reads _ fun a => by simp [badIn, h]]

/-- A command is issued only while its core acts. -/
theorem issue_acts {s : State} {c : Nat} {kinds : List CmdKind} {it : Issue} (h : s.issue c kinds = some it) : s.coreActs c = true := by
  cases ha : s.coreActs c with
  | true => rfl
  | false => simp [State.issue, ha] at h

/-- The command that the sequencer issues runs when its operands are accepted. -/
theorem runKind_runs {s : State} {c : Nat} {kinds : List CmdKind} {it : Issue} (ok : State → Issue → Bool)
    (run : State → Issue → State) (h : s.Issues c kinds it) (hok : ok s it = true) :
    s.runKind c kinds ok run = run (s.issued it) it := by
  simp [State.runKind, State.accepts, h.2.1, h.2.2, hok]

/-- A command refused at issue faults its stream. -/
theorem runKind_refuses {s : State} {c : Nat} {kinds : List CmdKind} {it : Issue} (ok : State → Issue → Bool)
    (run : State → Issue → State) (h : s.issue c kinds = some it) (hok : s.accepts ok it = false) :
    s.runKind c kinds ok run = s.faultIssue it causeCmdRefused := by
  simp [State.runKind, h, hok, State.refuse]

/-- A command that issues to an idle engine, and can start, starts at once. -/
theorem runEngine_launches {s : State} {c : Nat} {kinds : List CmdKind} {ok can : State → Issue → Bool} {it : Issue}
    (run : State → Issue → State) (h : s.Launches c kinds ok can it) : s.runEngine c kinds ok can run = run (s.leave it) it := by
  simp [State.runEngine, issue_acts h.1.2.1, h.2.2.1, h.1.2.1, State.accepts, h.1.2.2, h.2.1, h.2.2.2.1, h.2.2.2.2.1, h.2.2.2.2.2]

/-- The head of an engine's queue starts once it can, before another command issues. -/
theorem runEngine_dequeues {s : State} {c : Nat} {kinds : List CmdKind} (ok : State → Issue → Bool) {can : State → Issue → Bool}
    {it : Issue} (run : State → Issue → State) (ha : s.coreActs c = true) (h : s.queuedStart c kinds can = some it) :
    s.runEngine c kinds ok can run = run (s.unqueue it) it := by
  simp [State.runEngine, ha, h]

/-- A command that issues to a busy engine, or cannot start, enters the engine's queue. -/
theorem runEngine_queues {s : State} {c : Nat} {kinds : List CmdKind} {ok can : State → Issue → Bool} {it : Issue}
    (run : State → Issue → State) (h : s.Issues c kinds it) (hok : ok s it = true) (hq : s.queuedStart c kinds can = none)
    (hb : (s.engineIdle it && can s it) = false) : s.runEngine c kinds ok can run = (s.leave it).enqueue it := by
  simp [State.runEngine, issue_acts h.2.1, hq, h.2.1, State.accepts, h.2.2, hok, hb]

/-- A command refused at issue faults its stream. -/
theorem runEngine_refuses {s : State} {c : Nat} {kinds : List CmdKind} {ok can : State → Issue → Bool} {it : Issue}
    (run : State → Issue → State) (h : s.issue c kinds = some it) (hq : s.queuedStart c kinds can = none)
    (hok : s.accepts ok it = false) : s.runEngine c kinds ok can run = s.faultIssue it causeCmdRefused := by
  simp [State.runEngine, issue_acts h, hq, h, hok, State.refuse]

/-- Nothing happens where no command of these kinds starts from a queue or issues. -/
theorem runEngine_idle {s : State} {c : Nat} {kinds : List CmdKind} (ok : State → Issue → Bool) {can : State → Issue → Bool}
    (run : State → Issue → State) (h : s.issue c kinds = none) (hq : s.queuedStart c kinds can = none) :
    s.runEngine c kinds ok can run = s := by
  simp [State.runEngine, h, hq]

/-- Nothing happens where the sequencer's next command is of another kind. -/
theorem runKind_idle {s : State} {c : Nat} {kinds : List CmdKind} (ok : State → Issue → Bool)
    (run : State → Issue → State) (h : s.issue c kinds = none) : s.runKind c kinds ok run = s := by
  simp [State.runKind, h]

/-- A command whose operands lie in range answers the next state of its effect. -/
theorem within_next {b : Bool} (o : String) (s : State) (h : b = true) : within b o s = .next s := by
  simp [within, h]

/-- A row that runs on an engine is `runEngine` with what `engineRow` says of it. -/
theorem engineRow_exec {i : Instr} {r : EngineRow} (h : engineRow i = some r) (s : State) (hc : r.core < 288) :
    exec i s = .next (s.runEngine r.core r.kinds r.ok r.can r.run) := by
  cases i <;> simp only [engineRow, Option.some.injEq, reduceCtorEq] at h
  all_goals subst h; exact within_next _ _ (decide_eq_true hc)

/-- A command that issues to an idle engine, and can start, has its row's effect at once. -/
theorem engineRow_launches {i : Instr} {r : EngineRow} (h : engineRow i = some r) {s : State} {it : Issue}
    (hl : s.Launches r.core r.kinds r.ok r.can it) : exec i s = .next (r.run (s.leave it) it) := by
  rw [engineRow_exec h s hl.1.1, runEngine_launches _ hl]

/-- A message that a port delivers is taken by its row. -/
theorem takeMessage_delivers {s : State} {p v : Nat} {m : Message} (mine : Message → Bool) (k : State → Message → State)
    (h : s.Delivers p v m) (hm : mine m = true) : s.takeMessage p v mine k = k (s.dropHead p v) m := by
  have he : (s.dropHead p v).odv Od.POINTS_EPOCH = s.odv Od.POINTS_EPOCH := rfl
  simp [State.takeMessage, h.2.1, hm, h.2.2.1, h.2.2.2, he]

end Sys2Proof.Laws
end

