-- ==== Sys2Proof/Laws/Depot.lean ====
section
/-! SUPPORT. What the functions of Machine/Depot.lean leave alone (`Carries`). -/

namespace Sys2Proof.Laws

open Sys2Proof Sys2Proof.Machine

theorem State_applied_carries {s₀ : State} {s : State} (r : Repair) (hs : Carries s₀ s) :
    Carries s₀ (Sys2Proof.Machine.State.applied s r) := by
  unfold Sys2Proof.Machine.State.applied
  try dsimp only
  repeat' first
    | with_reducible assumption
    | with_reducible apply carries_ite
    | with_reducible apply carries_ite_two
    | with_reducible apply carries_ite_one
    | simp only [carries_mk_iff]
    | (with_reducible apply carries_foldl; intro _ _ _)
    | (with_reducible apply carries_foldl_pair; intro _ _ _ _)
    | intro _
    | split
    | dsimp only

theorem State_freshCore_carries {s₀ : State} {s : State} (c : Nat) (hs : Carries s₀ s) :
    Carries s₀ (Sys2Proof.Machine.State.freshCore s c) := by
  unfold Sys2Proof.Machine.State.freshCore
  try dsimp only
  repeat' first
    | with_reducible assumption
    | with_reducible apply State_applied_carries
    | with_reducible apply State_setCore_carries
    | with_reducible apply carries_ite
    | with_reducible apply carries_ite_two
    | with_reducible apply carries_ite_one
    | simp only [carries_mk_iff]
    | (with_reducible apply carries_foldl; intro _ _ _)
    | (with_reducible apply carries_foldl_pair; intro _ _ _ _)
    | intro _
    | split
    | dsimp only

theorem State_substituteCore_carries {s₀ : State} {s : State} (c : Nat) (t : State) (ht : (Sys2Proof.Machine.State.substituteCore s c) = some t) (hs : Carries s₀ s) :
    Carries s₀ t := by
  unfold Sys2Proof.Machine.State.substituteCore at ht
  dsimp only at ht
  split at ht
  · obtain rfl := Option.some.inj ht
    exact State_freshCore_carries _ (State_setOd_carries _ _ (State_setOd_carries _ _ hs))
  · cases ht

theorem State_setDark_carries {s₀ : State} {s : State} (l : List (Nat × Bool)) (hs : Carries s₀ s) :
    Carries s₀ (Sys2Proof.Machine.State.setDark s l) := by
  unfold Sys2Proof.Machine.State.setDark
  try dsimp only
  repeat' first
    | with_reducible assumption
    | with_reducible apply State_setOd_carries
    | with_reducible apply carries_ite
    | with_reducible apply carries_ite_two
    | with_reducible apply carries_ite_one
    | simp only [carries_mk_iff]
    | (with_reducible apply carries_foldl; intro _ _ _)
    | (with_reducible apply carries_foldl_pair; intro _ _ _ _)
    | intro _
    | split
    | dsimp only

theorem State_substituteDie_carries {s₀ : State} {s : State} (die : Nat) (t : State) (ht : (Sys2Proof.Machine.State.substituteDie s die) = some t) (hs : Carries s₀ s) :
    Carries s₀ t := by
  unfold Sys2Proof.Machine.State.substituteDie at ht
  dsimp only at ht
  split at ht
  · cases ht
  obtain rfl := Option.some.inj ht
  repeat' first
    | with_reducible assumption
    | with_reducible apply State_freshCore_carries
    | with_reducible apply State_setOd_carries
    | with_reducible apply State_setDark_carries
    | with_reducible apply carries_ite
    | with_reducible apply carries_ite_two
    | with_reducible apply carries_ite_one
    | simp only [carries_mk_iff]
    | (with_reducible apply carries_foldl; intro _ _ _)
    | (with_reducible apply carries_foldl_pair; intro _ _ _ _)
    | intro _
    | split
    | dsimp only

theorem State_exhausted_carries {s₀ : State} {s : State} (r : Repair) (cores : List Nat) (dies : List Nat) (hs : Carries s₀ s) :
    Carries s₀ (Sys2Proof.Machine.State.exhausted s r cores dies) := by
  unfold Sys2Proof.Machine.State.exhausted
  try dsimp only
  repeat' first
    | with_reducible assumption
    | with_reducible apply State_setCore_carries
    | with_reducible apply State_setOd_carries
    | with_reducible apply State_sticky_carries
    | with_reducible apply carries_ite
    | with_reducible apply carries_ite_two
    | with_reducible apply carries_ite_one
    | simp only [carries_mk_iff]
    | (with_reducible apply carries_foldl; intro _ _ _)
    | (with_reducible apply carries_foldl_pair; intro _ _ _ _)
    | intro _
    | split
    | dsimp only

theorem State_needDie_carries {s₀ : State} {s : State} (die : Nat) (hs : Carries s₀ s) :
    Carries s₀ (Sys2Proof.Machine.State.needDie s die) := by
  unfold Sys2Proof.Machine.State.needDie
  split
  · exact State_substituteDie_carries _ _ (by assumption) hs
  · exact State_exhausted_carries _ _ _ hs

theorem State_needCore_carries {s₀ : State} {s : State} (c : Nat) (hs : Carries s₀ s) :
    Carries s₀ (Sys2Proof.Machine.State.needCore s c) := by
  unfold Sys2Proof.Machine.State.needCore
  split
  · exact State_substituteCore_carries _ _ (by assumption) hs
  · split
    · exact State_substituteDie_carries _ _ (by assumption) hs
    · exact State_exhausted_carries _ _ _ hs

theorem State_markReplace_carries {s₀ : State} {s : State}  (hs : Carries s₀ s) :
    Carries s₀ (Sys2Proof.Machine.State.markReplace s) := by
  unfold Sys2Proof.Machine.State.markReplace
  try dsimp only
  repeat' first
    | with_reducible assumption
    | with_reducible apply carries_ite
    | with_reducible apply carries_ite_two
    | with_reducible apply carries_ite_one
    | simp only [carries_mk_iff]
    | (with_reducible apply carries_foldl; intro _ _ _)
    | (with_reducible apply carries_foldl_pair; intro _ _ _ _)
    | intro _
    | split
    | dsimp only

theorem State_hbmExhausted_carries {s₀ : State} {s : State}  (hs : Carries s₀ s) :
    Carries s₀ (Sys2Proof.Machine.State.hbmExhausted s) := by
  unfold Sys2Proof.Machine.State.hbmExhausted
  try dsimp only
  repeat' first
    | with_reducible assumption
    | with_reducible apply State_markReplace_carries
    | with_reducible apply State_setOd_carries
    | with_reducible apply State_sticky_carries
    | with_reducible apply carries_ite
    | with_reducible apply carries_ite_two
    | with_reducible apply carries_ite_one
    | simp only [carries_mk_iff]
    | (with_reducible apply carries_foldl; intro _ _ _)
    | (with_reducible apply carries_foldl_pair; intro _ _ _ _)
    | intro _
    | split
    | dsimp only

theorem State_setSpares_carries {s₀ : State} {s : State} (c : Nat) (a : Nat) (rows : Nat) (cols : Nat) (hs : Carries s₀ s) :
    Carries s₀ (Sys2Proof.Machine.State.setSpares s c a rows cols) := by
  unfold Sys2Proof.Machine.State.setSpares
  try dsimp only
  repeat' first
    | with_reducible assumption
    | with_reducible apply State_setCore_carries
    | with_reducible apply State_setOd_carries
    | with_reducible apply carries_ite
    | with_reducible apply carries_ite_two
    | with_reducible apply carries_ite_one
    | simp only [carries_mk_iff]
    | (with_reducible apply carries_foldl; intro _ _ _)
    | (with_reducible apply carries_foldl_pair; intro _ _ _ _)
    | intro _
    | split
    | dsimp only

theorem State_applyRepair_carries {s₀ : State} {s : State} (r : Repair) (hs : Carries s₀ s) :
    Carries s₀ (Sys2Proof.Machine.State.applyRepair s r) := by
  unfold Sys2Proof.Machine.State.applyRepair
  try dsimp only
  repeat' first
    | with_reducible assumption
    | with_reducible apply State_applied_carries
    | with_reducible apply State_hbmExhausted_carries
    | with_reducible apply State_needCore_carries
    | with_reducible apply State_needDie_carries
    | with_reducible apply State_setOd_carries
    | with_reducible apply State_setSpares_carries
    | with_reducible apply carries_ite
    | with_reducible apply carries_ite_two
    | with_reducible apply carries_ite_one
    | simp only [carries_mk_iff]
    | (with_reducible apply carries_foldl; intro _ _ _)
    | (with_reducible apply carries_foldl_pair; intro _ _ _ _)
    | intro _
    | split
    | dsimp only

theorem State_applySelfTest_carries {s₀ : State} {s : State} (x : FailedLine) (hs : Carries s₀ s) :
    Carries s₀ (Sys2Proof.Machine.State.applySelfTest s x) := by
  unfold Sys2Proof.Machine.State.applySelfTest
  try dsimp only
  repeat' first
    | with_reducible assumption
    | with_reducible apply State_applied_carries
    | with_reducible apply State_applyRepair_carries
    | with_reducible apply State_needCore_carries
    | with_reducible apply carries_ite
    | with_reducible apply carries_ite_two
    | with_reducible apply carries_ite_one
    | simp only [carries_mk_iff]
    | (with_reducible apply carries_foldl; intro _ _ _)
    | (with_reducible apply carries_foldl_pair; intro _ _ _ _)
    | intro _
    | split
    | dsimp only

theorem State_applyWear_carries {s₀ : State} {s : State}  (hs : Carries s₀ s) :
    Carries s₀ (Sys2Proof.Machine.State.applyWear s) := by
  unfold Sys2Proof.Machine.State.applyWear
  refine carries_ite hs (carries_foldl (fun s e h => carries_ite h ?_) hs)
  split
  · rename_i t ht
    split at ht
    · exact State_substituteCore_carries _ _ ht h
    · exact State_substituteDie_carries _ _ ht h
  · exact h

theorem State_recordCorrected_carries {s₀ : State} {s : State}  (hs : Carries s₀ s) :
    Carries s₀ (Sys2Proof.Machine.State.recordCorrected s) := by
  unfold Sys2Proof.Machine.State.recordCorrected
  try dsimp only
  repeat' first
    | with_reducible assumption
    | with_reducible apply State_record_carries
    | with_reducible apply State_recordHbm_carries
    | with_reducible apply carries_ite
    | with_reducible apply carries_ite_two
    | with_reducible apply carries_ite_one
    | simp only [carries_mk_iff]
    | (with_reducible apply carries_foldl; intro _ _ _)
    | (with_reducible apply carries_foldl_pair; intro _ _ _ _)
    | intro _
    | split
    | dsimp only

theorem State_depotActs_carries {s₀ : State} {s : State}  (hs : Carries s₀ s) :
    Carries s₀ (Sys2Proof.Machine.State.depotActs s) := by
  unfold Sys2Proof.Machine.State.depotActs
  extract_lets s0 todo hbm s1 src s2 s3 s4 s5 lost
  have h0 : Carries s₀ s0 := State_recordCorrected_carries hs
  have h2 : Carries s₀ s2 := carries_mk_iff.mpr (State_mapCores_carries _ h0)
  have h3 : Carries s₀ s3 := State_setOd_carries _ _ (State_setOd_carries _ _ (State_setOd_carries _ _ h2))
  have h4 : Carries s₀ s4 := carries_foldl (fun s k h => carries_foldl (fun s r h => State_applyRepair_carries r h) h) h3
  have h5 : Carries s₀ s5 := State_applyWear_carries h4
  refine h5.of_mem rfl ?_ id
  show Memory.wf s5.mem = true → Memory.wf (if lost = true then _ else _) = true
  split
  · exact filter_wf _ _
  · exact id

end Sys2Proof.Laws
end

