-- ==== Sys2Proof/Laws/Serving.lean ====
section
/-! SUPPORT. What the functions of Machine/Serving.lean leave alone (`Carries`). -/

namespace Sys2Proof.Laws

open Sys2Proof Sys2Proof.Machine

theorem State_loadOwners_carries {s₀ : State} {s : State} (bs : List Byte) (hs : Carries s₀ s) :
    Carries s₀ (Sys2Proof.Machine.State.loadOwners s bs) := by
  unfold Sys2Proof.Machine.State.loadOwners
  try dsimp only
  repeat' first
    | with_reducible assumption
    | with_reducible apply State_setCtr_carries
    | with_reducible apply State_setPlat_carries
    | with_reducible apply State_setQueue_carries
    | with_reducible apply State_settle_carries
    | with_reducible apply carries_ite
    | with_reducible apply carries_ite_two
    | with_reducible apply carries_ite_one
    | simp only [carries_mk_iff]
    | (with_reducible apply carries_foldl; intro _ _ _)
    | (with_reducible apply carries_foldl_pair; intro _ _ _ _)
    | intro _
    | split
    | dsimp only

theorem State_loadServing_carries {s₀ : State} {s : State} (k : Nat) (hs : Carries s₀ s) :
    Carries s₀ (Sys2Proof.Machine.State.loadServing s k) := by
  unfold Sys2Proof.Machine.State.loadServing
  try dsimp only
  repeat' first
    | with_reducible assumption
    | with_reducible apply State_loadOwners_carries
    | with_reducible apply carries_ite
    | with_reducible apply carries_ite_two
    | with_reducible apply carries_ite_one
    | simp only [carries_mk_iff]
    | (with_reducible apply carries_foldl; intro _ _ _)
    | (with_reducible apply carries_foldl_pair; intro _ _ _ _)
    | intro _
    | split
    | dsimp only

theorem State_restoreServe_carries {s₀ : State} {s : State} (w : Nat) (hs : Carries s₀ s) :
    Carries s₀ (Sys2Proof.Machine.State.restoreServe s w).2 := by
  unfold Sys2Proof.Machine.State.restoreServe
  try dsimp only
  repeat' first
    | with_reducible assumption
    | with_reducible apply State_capture_carries
    | with_reducible apply State_loadServing_carries
    | with_reducible apply State_sticky_carries
    | with_reducible apply carries_ite
    | with_reducible apply carries_ite_two
    | with_reducible apply carries_ite_one
    | simp only [carries_mk_iff]
    | (with_reducible apply carries_foldl; intro _ _ _)
    | (with_reducible apply carries_foldl_pair; intro _ _ _ _)
    | intro _
    | split
    | dsimp only

theorem State_restoreAny_carries {s₀ : State} {s : State} (w : Nat) (hs : Carries s₀ s) :
    Carries s₀ (Sys2Proof.Machine.State.restoreAny s w).2 := by
  unfold Sys2Proof.Machine.State.restoreAny
  try dsimp only
  repeat' first
    | with_reducible assumption
    | with_reducible apply State_restoreCkpt_carries
    | with_reducible apply State_restoreServe_carries
    | with_reducible apply carries_ite
    | with_reducible apply carries_ite_two
    | with_reducible apply carries_ite_one
    | simp only [carries_mk_iff]
    | (with_reducible apply carries_foldl; intro _ _ _)
    | (with_reducible apply carries_foldl_pair; intro _ _ _ _)
    | intro _
    | split
    | dsimp only

theorem execDServe_carries {s₀ : State} {s : State} (q : Nat) (t : State) (ht : (Sys2Proof.Machine.execDServe q s) = .next t) (hs : Carries s₀ s) :
    Carries s₀ t := by
  unfold Sys2Proof.Machine.execDServe at ht
  obtain rfl := within_some ht
  try dsimp only
  repeat' first
    | with_reducible assumption
    | with_reducible apply State_finishDesc_carries
    | with_reducible apply State_runDesc_carries
    | with_reducible apply State_setQueue_carries
    | with_reducible apply carries_ite
    | with_reducible apply carries_ite_two
    | with_reducible apply carries_ite_one
    | simp only [carries_mk_iff]
    | (with_reducible apply carries_foldl; intro _ _ _)
    | (with_reducible apply carries_foldl_pair; intro _ _ _ _)
    | intro _
    | split
    | dsimp only

theorem State_decide_carries {s₀ : State} {s : State} (r : ServeRecord) (status : Nat) (hs : Carries s₀ s) :
    Carries s₀ (Sys2Proof.Machine.State.decide s r status) := by
  unfold Sys2Proof.Machine.State.decide
  try dsimp only
  repeat' first
    | with_reducible assumption
    | with_reducible apply State_drain_carries
    | with_reducible apply State_setQueue_carries
    | with_reducible apply carries_ite
    | with_reducible apply carries_ite_two
    | with_reducible apply carries_ite_one
    | simp only [carries_mk_iff]
    | (with_reducible apply carries_foldl; intro _ _ _)
    | (with_reducible apply carries_foldl_pair; intro _ _ _ _)
    | intro _
    | split
    | dsimp only

theorem State_writeEntry_carries {s₀ : State} {s : State} (r : Request) (hs : Carries s₀ s) :
    Carries s₀ (Sys2Proof.Machine.State.writeEntry s r) := by
  unfold Sys2Proof.Machine.State.writeEntry
  try dsimp only
  repeat' first
    | with_reducible assumption
    | with_reducible apply State_put_carries
    | with_reducible apply carries_ite
    | with_reducible apply carries_ite_two
    | with_reducible apply carries_ite_one
    | simp only [carries_mk_iff]
    | (with_reducible apply carries_foldl; intro _ _ _)
    | (with_reducible apply carries_foldl_pair; intro _ _ _ _)
    | intro _
    | split
    | dsimp only

theorem State_fillSlots_carries {s₀ : State} {s : State} (sp : ServePlan) (r : Request) (boundT : Nat) (boundS : Nat) (hs : Carries s₀ s) :
    Carries s₀ (Sys2Proof.Machine.State.fillSlots s sp r boundT boundS) := by
  unfold Sys2Proof.Machine.State.fillSlots
  try dsimp only
  repeat' first
    | with_reducible assumption
    | with_reducible apply State_put_carries
    | with_reducible apply carries_ite
    | with_reducible apply carries_ite_two
    | with_reducible apply carries_ite_one
    | simp only [carries_mk_iff]
    | (with_reducible apply carries_foldl; intro _ _ _)
    | (with_reducible apply carries_foldl_pair; intro _ _ _ _)
    | intro _
    | split
    | dsimp only

theorem State_setRequest_carries {s₀ : State} {s : State} (r : Request) (hs : Carries s₀ s) :
    Carries s₀ (Sys2Proof.Machine.State.setRequest s r) := by
  unfold Sys2Proof.Machine.State.setRequest
  try dsimp only
  repeat' first
    | with_reducible assumption
    | with_reducible apply carries_ite
    | with_reducible apply carries_ite_two
    | with_reducible apply carries_ite_one
    | simp only [carries_mk_iff]
    | (with_reducible apply carries_foldl; intro _ _ _)
    | (with_reducible apply carries_foldl_pair; intro _ _ _ _)
    | intro _
    | split
    | dsimp only

theorem State_mapRequests_carries {s₀ : State} {s : State} (f : Request → Request) (hs : Carries s₀ s) :
    Carries s₀ (Sys2Proof.Machine.State.mapRequests s f) := by
  unfold Sys2Proof.Machine.State.mapRequests
  try dsimp only
  repeat' first
    | with_reducible assumption
    | with_reducible apply carries_ite
    | with_reducible apply carries_ite_two
    | with_reducible apply carries_ite_one
    | simp only [carries_mk_iff]
    | (with_reducible apply carries_foldl; intro _ _ _)
    | (with_reducible apply carries_foldl_pair; intro _ _ _ _)
    | intro _
    | split
    | dsimp only

theorem State_serveRecord_carries {s₀ : State} {s : State} (r : Request) (status : Nat) (hs : Carries s₀ s) :
    Carries s₀ (Sys2Proof.Machine.State.serveRecord s r status) := by
  unfold Sys2Proof.Machine.State.serveRecord
  try dsimp only
  repeat' first
    | with_reducible assumption
    | with_reducible apply State_pushRecord_carries
    | with_reducible apply carries_ite
    | with_reducible apply carries_ite_two
    | with_reducible apply carries_ite_one
    | simp only [carries_mk_iff]
    | (with_reducible apply carries_foldl; intro _ _ _)
    | (with_reducible apply carries_foldl_pair; intro _ _ _ _)
    | intro _
    | split
    | dsimp only

theorem State_deliverWords_carries {s₀ : State} {s : State} (p : Nat) (a : Nat) (ws : List Nat) (hs : Carries s₀ s) :
    Carries s₀ (Sys2Proof.Machine.State.deliverWords s p a ws) := by
  unfold Sys2Proof.Machine.State.deliverWords
  try dsimp only
  repeat' first
    | with_reducible assumption
    | with_reducible apply State_hostPut_carries
    | with_reducible apply State_put_carries
    | with_reducible apply carries_ite
    | with_reducible apply carries_ite_two
    | with_reducible apply carries_ite_one
    | simp only [carries_mk_iff]
    | (with_reducible apply carries_foldl; intro _ _ _)
    | (with_reducible apply carries_foldl_pair; intro _ _ _ _)
    | intro _
    | split
    | dsimp only

theorem State_deliver_carries {s₀ : State} {s : State} (r : Request) (hs : Carries s₀ s) :
    Carries s₀ (Sys2Proof.Machine.State.deliver s r) := by
  unfold Sys2Proof.Machine.State.deliver
  try dsimp only
  repeat' first
    | with_reducible assumption
    | with_reducible apply State_deliverWords_carries
    | with_reducible apply State_setRequest_carries
    | with_reducible apply carries_ite
    | with_reducible apply carries_ite_two
    | with_reducible apply carries_ite_one
    | simp only [carries_mk_iff]
    | (with_reducible apply carries_foldl; intro _ _ _)
    | (with_reducible apply carries_foldl_pair; intro _ _ _ _)
    | intro _
    | split
    | dsimp only

theorem State_applyVerdict_carries {s₀ : State} {s : State} (p : Nat) (sp : ServePlan) (row : PlanRow) (hs : Carries s₀ s) :
    Carries s₀ (Sys2Proof.Machine.State.applyVerdict s p sp row) := by
  unfold Sys2Proof.Machine.State.applyVerdict
  try dsimp only
  repeat' first
    | with_reducible assumption
    | with_reducible apply State_count_carries
    | with_reducible apply State_setRequest_carries
    | with_reducible apply carries_ite
    | with_reducible apply carries_ite_two
    | with_reducible apply carries_ite_one
    | simp only [carries_mk_iff]
    | (with_reducible apply carries_foldl; intro _ _ _)
    | (with_reducible apply carries_foldl_pair; intro _ _ _ _)
    | intro _
    | split
    | dsimp only

theorem State_applyChunk_carries {s₀ : State} {s : State} (c : PlanChunk) (hs : Carries s₀ s) :
    Carries s₀ (Sys2Proof.Machine.State.applyChunk s c) := by
  unfold Sys2Proof.Machine.State.applyChunk
  try dsimp only
  repeat' first
    | with_reducible assumption
    | with_reducible apply State_pushRecord_carries
    | with_reducible apply State_serveRecord_carries
    | with_reducible apply State_setRequest_carries
    | with_reducible apply State_start_carries
    | with_reducible apply carries_ite
    | with_reducible apply carries_ite_two
    | with_reducible apply carries_ite_one
    | simp only [carries_mk_iff]
    | (with_reducible apply carries_foldl; intro _ _ _)
    | (with_reducible apply carries_foldl_pair; intro _ _ _ _)
    | intro _
    | split
    | dsimp only

theorem State_readWords_carries {s₀ : State} {s : State} (p : Nat) (a : Nat) (n : Nat) (hs : Carries s₀ s) :
    Carries s₀ (Sys2Proof.Machine.State.readWords s p a n).1 := by
  unfold Sys2Proof.Machine.State.readWords
  try dsimp only
  repeat' first
    | with_reducible assumption
    | with_reducible apply State_descEcc_carries
    | with_reducible apply State_hostFetch_carries
    | with_reducible apply carries_ite
    | with_reducible apply carries_ite_two
    | with_reducible apply carries_ite_one
    | simp only [carries_mk_iff]
    | (with_reducible apply carries_foldl; intro _ _ _)
    | (with_reducible apply carries_foldl_pair; intro _ _ _ _)
    | intro _
    | split
    | dsimp only

theorem State_applySubmit_carries {s₀ : State} {s : State} (sp : ServePlan) (rec : ServeRecord) (hs : Carries s₀ s) :
    Carries s₀ (Sys2Proof.Machine.State.applySubmit s sp rec) := by
  unfold Sys2Proof.Machine.State.applySubmit
  try dsimp only
  repeat' first
    | with_reducible assumption
    | with_reducible apply State_decide_carries
    | with_reducible apply State_readWords_carries
    | with_reducible apply State_writeEntry_carries
    | with_reducible apply carries_ite
    | with_reducible apply carries_ite_two
    | with_reducible apply carries_ite_one
    | simp only [carries_mk_iff]
    | (with_reducible apply carries_foldl; intro _ _ _)
    | (with_reducible apply carries_foldl_pair; intro _ _ _ _)
    | intro _
    | split
    | dsimp only

theorem State_endRequest_carries {s₀ : State} {s : State} (r : Request) (reason : Nat) (hs : Carries s₀ s) :
    Carries s₀ (Sys2Proof.Machine.State.endRequest s r reason) := by
  unfold Sys2Proof.Machine.State.endRequest
  try dsimp only
  repeat' first
    | with_reducible assumption
    | with_reducible apply State_serveRecord_carries
    | with_reducible apply State_setRequest_carries
    | with_reducible apply carries_ite
    | with_reducible apply carries_ite_two
    | with_reducible apply carries_ite_one
    | simp only [carries_mk_iff]
    | (with_reducible apply carries_foldl; intro _ _ _)
    | (with_reducible apply carries_foldl_pair; intro _ _ _ _)
    | intro _
    | split
    | dsimp only

theorem State_applyCancel_carries {s₀ : State} {s : State} (rec : ServeRecord) (hs : Carries s₀ s) :
    Carries s₀ (Sys2Proof.Machine.State.applyCancel s rec) := by
  unfold Sys2Proof.Machine.State.applyCancel
  try dsimp only
  repeat' first
    | with_reducible assumption
    | with_reducible apply State_count_carries
    | with_reducible apply State_decide_carries
    | with_reducible apply State_endRequest_carries
    | with_reducible apply carries_ite
    | with_reducible apply carries_ite_two
    | with_reducible apply carries_ite_one
    | simp only [carries_mk_iff]
    | (with_reducible apply carries_foldl; intro _ _ _)
    | (with_reducible apply carries_foldl_pair; intro _ _ _ _)
    | intro _
    | split
    | dsimp only

theorem State_applyPause_carries {s₀ : State} {s : State} (sp : ServePlan) (rec : ServeRecord) (hs : Carries s₀ s) :
    Carries s₀ (Sys2Proof.Machine.State.applyPause s sp rec) := by
  unfold Sys2Proof.Machine.State.applyPause
  try dsimp only
  repeat' first
    | with_reducible assumption
    | with_reducible apply State_decide_carries
    | with_reducible apply State_serveRecord_carries
    | with_reducible apply State_setRequest_carries
    | with_reducible apply carries_ite
    | with_reducible apply carries_ite_two
    | with_reducible apply carries_ite_one
    | simp only [carries_mk_iff]
    | (with_reducible apply carries_foldl; intro _ _ _)
    | (with_reducible apply carries_foldl_pair; intro _ _ _ _)
    | intro _
    | split
    | dsimp only

theorem State_applyResume_carries {s₀ : State} {s : State} (rec : ServeRecord) (hs : Carries s₀ s) :
    Carries s₀ (Sys2Proof.Machine.State.applyResume s rec) := by
  unfold Sys2Proof.Machine.State.applyResume
  try dsimp only
  repeat' first
    | with_reducible assumption
    | with_reducible apply State_decide_carries
    | with_reducible apply State_setRequest_carries
    | with_reducible apply carries_ite
    | with_reducible apply carries_ite_two
    | with_reducible apply carries_ite_one
    | simp only [carries_mk_iff]
    | (with_reducible apply carries_foldl; intro _ _ _)
    | (with_reducible apply carries_foldl_pair; intro _ _ _ _)
    | intro _
    | split
    | dsimp only

theorem State_applyPrefixCreate_carries {s₀ : State} {s : State} (rec : ServeRecord) (hs : Carries s₀ s) :
    Carries s₀ (Sys2Proof.Machine.State.applyPrefixCreate s rec) := by
  unfold Sys2Proof.Machine.State.applyPrefixCreate
  try dsimp only
  repeat' first
    | with_reducible assumption
    | with_reducible apply State_decide_carries
    | with_reducible apply State_readWords_carries
    | with_reducible apply carries_ite
    | with_reducible apply carries_ite_two
    | with_reducible apply carries_ite_one
    | simp only [carries_mk_iff]
    | (with_reducible apply carries_foldl; intro _ _ _)
    | (with_reducible apply carries_foldl_pair; intro _ _ _ _)
    | intro _
    | split
    | dsimp only

theorem State_applyPrefixRelease_carries {s₀ : State} {s : State} (rec : ServeRecord) (hs : Carries s₀ s) :
    Carries s₀ (Sys2Proof.Machine.State.applyPrefixRelease s rec) := by
  unfold Sys2Proof.Machine.State.applyPrefixRelease
  try dsimp only
  repeat' first
    | with_reducible assumption
    | with_reducible apply State_decide_carries
    | with_reducible apply carries_ite
    | with_reducible apply carries_ite_two
    | with_reducible apply carries_ite_one
    | simp only [carries_mk_iff]
    | (with_reducible apply carries_foldl; intro _ _ _)
    | (with_reducible apply carries_foldl_pair; intro _ _ _ _)
    | intro _
    | split
    | dsimp only

theorem State_applyPublish_carries {s₀ : State} {s : State} (rec : ServeRecord) (hs : Carries s₀ s) :
    Carries s₀ (Sys2Proof.Machine.State.applyPublish s rec) := by
  unfold Sys2Proof.Machine.State.applyPublish
  try dsimp only
  repeat' first
    | with_reducible assumption
    | with_reducible apply State_decide_carries
    | with_reducible apply State_readWords_carries
    | with_reducible apply carries_ite
    | with_reducible apply carries_ite_two
    | with_reducible apply carries_ite_one
    | simp only [carries_mk_iff]
    | (with_reducible apply carries_foldl; intro _ _ _)
    | (with_reducible apply carries_foldl_pair; intro _ _ _ _)
    | intro _
    | split
    | dsimp only

theorem State_applyRemove_carries {s₀ : State} {s : State} (rec : ServeRecord) (hs : Carries s₀ s) :
    Carries s₀ (Sys2Proof.Machine.State.applyRemove s rec) := by
  unfold Sys2Proof.Machine.State.applyRemove
  try dsimp only
  repeat' first
    | with_reducible assumption
    | with_reducible apply State_decide_carries
    | with_reducible apply carries_ite
    | with_reducible apply carries_ite_two
    | with_reducible apply carries_ite_one
    | simp only [carries_mk_iff]
    | (with_reducible apply carries_foldl; intro _ _ _)
    | (with_reducible apply carries_foldl_pair; intro _ _ _ _)
    | intro _
    | split
    | dsimp only

theorem State_applyRecord_carries {s₀ : State} {s : State} (sp : ServePlan) (rec : ServeRecord) (hs : Carries s₀ s) :
    Carries s₀ (Sys2Proof.Machine.State.applyRecord s sp rec) := by
  unfold Sys2Proof.Machine.State.applyRecord
  try dsimp only
  repeat' first
    | with_reducible assumption
    | with_reducible apply State_applyCancel_carries
    | with_reducible apply State_applyPause_carries
    | with_reducible apply State_applyPrefixCreate_carries
    | with_reducible apply State_applyPrefixRelease_carries
    | with_reducible apply State_applyPublish_carries
    | with_reducible apply State_applyRemove_carries
    | with_reducible apply State_applyResume_carries
    | with_reducible apply State_applySubmit_carries
    | with_reducible apply carries_ite
    | with_reducible apply carries_ite_two
    | with_reducible apply carries_ite_one
    | simp only [carries_mk_iff]
    | (with_reducible apply carries_foldl; intro _ _ _)
    | (with_reducible apply carries_foldl_pair; intro _ _ _ _)
    | intro _
    | split
    | dsimp only

theorem State_reloadLayer_carries {s₀ : State} {s : State} (g : LayerGeo) (slots : List Nat) (bs : List Byte) (hs : Carries s₀ s) :
    Carries s₀ (Sys2Proof.Machine.State.reloadLayer s g slots bs) := by
  unfold Sys2Proof.Machine.State.reloadLayer
  try dsimp only
  repeat' first
    | with_reducible assumption
    | with_reducible apply State_put_carries
    | with_reducible apply carries_ite
    | with_reducible apply carries_ite_two
    | with_reducible apply carries_ite_one
    | simp only [carries_mk_iff]
    | (with_reducible apply carries_foldl; intro _ _ _)
    | (with_reducible apply carries_foldl_pair; intro _ _ _ _)
    | intro _
    | split
    | dsimp only

theorem execSummaryComplete_carries {s₀ : State} {s : State} (e : Nat) (t : State) (ht : (Sys2Proof.Machine.execSummaryComplete e s) = .next t) (hs : Carries s₀ s) :
    Carries s₀ t := by
  unfold Sys2Proof.Machine.execSummaryComplete at ht
  obtain rfl := within_some ht
  try dsimp only
  repeat' first
    | with_reducible assumption
    | with_reducible apply State_capture_carries
    | with_reducible apply State_count_carries
    | with_reducible apply State_put_carries
    | with_reducible apply State_serveRecord_carries
    | with_reducible apply State_setRequest_carries
    | with_reducible apply State_uncorrected_carries
    | with_reducible apply State_writeEntry_carries
    | with_reducible apply carries_ite
    | with_reducible apply carries_ite_two
    | with_reducible apply carries_ite_one
    | simp only [carries_mk_iff]
    | (with_reducible apply carries_foldl; intro _ _ _)
    | (with_reducible apply carries_foldl_pair; intro _ _ _ _)
    | intro _
    | split
    | dsimp only

theorem State_reload_carries {s₀ : State} {s : State} (sp : ServePlan) (r : Request) (a : Nat) (hs : Carries s₀ s) :
    Carries s₀ (Sys2Proof.Machine.State.reload s sp r a) := by
  unfold Sys2Proof.Machine.State.reload
  try dsimp only
  repeat' first
    | with_reducible assumption
    | with_reducible apply State_reloadLayer_carries
    | with_reducible apply carries_ite
    | with_reducible apply carries_ite_two
    | with_reducible apply carries_ite_one
    | simp only [carries_mk_iff]
    | (with_reducible apply carries_foldl; intro _ _ _)
    | (with_reducible apply carries_foldl_pair; intro _ _ _ _)
    | intro _
    | split
    | dsimp only

theorem State_releaseEnded_carries {s₀ : State} {s : State}  (hs : Carries s₀ s) :
    Carries s₀ (Sys2Proof.Machine.State.releaseEnded s) := by
  unfold Sys2Proof.Machine.State.releaseEnded
  try dsimp only
  repeat' first
    | with_reducible assumption
    | with_reducible apply State_put_carries
    | with_reducible apply carries_ite
    | with_reducible apply carries_ite_two
    | with_reducible apply carries_ite_one
    | simp only [carries_mk_iff]
    | (with_reducible apply carries_foldl; intro _ _ _)
    | (with_reducible apply carries_foldl_pair; intro _ _ _ _)
    | intro _
    | split
    | dsimp only

theorem State_releasePrefixes_carries {s₀ : State} {s : State}  (hs : Carries s₀ s) :
    Carries s₀ (Sys2Proof.Machine.State.releasePrefixes s) := by
  unfold Sys2Proof.Machine.State.releasePrefixes
  try dsimp only
  repeat' first
    | with_reducible assumption
    | with_reducible apply carries_ite
    | with_reducible apply carries_ite_two
    | with_reducible apply carries_ite_one
    | simp only [carries_mk_iff]
    | (with_reducible apply carries_foldl; intro _ _ _)
    | (with_reducible apply carries_foldl_pair; intro _ _ _ _)
    | intro _
    | split
    | dsimp only

theorem State_freeGens_carries {s₀ : State} {s : State}  (hs : Carries s₀ s) :
    Carries s₀ (Sys2Proof.Machine.State.freeGens s) := by
  unfold Sys2Proof.Machine.State.freeGens
  try dsimp only
  repeat' first
    | with_reducible assumption
    | with_reducible apply State_pushRecord_carries
    | with_reducible apply carries_ite
    | with_reducible apply carries_ite_two
    | with_reducible apply carries_ite_one
    | simp only [carries_mk_iff]
    | (with_reducible apply carries_foldl; intro _ _ _)
    | (with_reducible apply carries_foldl_pair; intro _ _ _ _)
    | intro _
    | split
    | dsimp only

theorem State_copyPartial_carries {s₀ : State} {s : State} (sp : ServePlan) (r : Request) (pre : PrefixEnt) (hs : Carries s₀ s) :
    Carries s₀ (Sys2Proof.Machine.State.copyPartial s sp r pre) := by
  unfold Sys2Proof.Machine.State.copyPartial
  try dsimp only
  repeat' first
    | with_reducible assumption
    | with_reducible apply State_put_carries
    | with_reducible apply carries_ite
    | with_reducible apply carries_ite_two
    | with_reducible apply carries_ite_one
    | simp only [carries_mk_iff]
    | (with_reducible apply carries_foldl; intro _ _ _)
    | (with_reducible apply carries_foldl_pair; intro _ _ _ _)
    | intro _
    | split
    | dsimp only

theorem State_takeIn_carries {s₀ : State} {s : State} (sp : ServePlan) (r : Request) (a : Admit) (hs : Carries s₀ s) :
    Carries s₀ (Sys2Proof.Machine.State.takeIn s sp r a) := by
  unfold Sys2Proof.Machine.State.takeIn
  try dsimp only
  repeat' first
    | with_reducible assumption
    | with_reducible apply State_copyPartial_carries
    | with_reducible apply State_count_carries
    | with_reducible apply State_reload_carries
    | with_reducible apply State_serveRecord_carries
    | with_reducible apply State_setRequest_carries
    | with_reducible apply State_writeEntry_carries
    | with_reducible apply carries_ite
    | with_reducible apply carries_ite_two
    | with_reducible apply carries_ite_one
    | simp only [carries_mk_iff]
    | (with_reducible apply carries_foldl; intro _ _ _)
    | (with_reducible apply carries_foldl_pair; intro _ _ _ _)
    | intro _
    | split
    | dsimp only

theorem State_admitAll_carries {s₀ : State} (sp : ServePlan) : ∀ (fuel : Nat) (out : List Nat) (held : Bool) {s : State}, Carries s₀ s →
    Carries s₀ (Sys2Proof.Machine.State.admitAll s sp out held fuel).1
  | 0, _, _, _, hs => by unfold Sys2Proof.Machine.State.admitAll; exact hs
  | fuel + 1, out, held, s, hs => by
    unfold Sys2Proof.Machine.State.admitAll
    dsimp only
    split
    · exact hs
    · refine carries_ite_one (State_admitAll_carries sp fuel _ _ (State_endRequest_carries _ _ hs)) ?_
      refine carries_ite_one (State_admitAll_carries sp fuel _ _ (State_endRequest_carries _ _ hs)) ?_
      split
      · exact State_admitAll_carries sp fuel _ _ hs
      · exact carries_ite_one (State_admitAll_carries sp fuel _ _ (State_takeIn_carries _ _ _ hs)) (State_admitAll_carries sp fuel _ _ hs)

theorem State_admitPrefixes_carries {s₀ : State} {s : State} (sp : ServePlan) (hs : Carries s₀ s) :
    Carries s₀ (Sys2Proof.Machine.State.admitPrefixes s sp) := by
  unfold Sys2Proof.Machine.State.admitPrefixes
  try dsimp only
  repeat' first
    | with_reducible assumption
    | with_reducible apply carries_ite
    | with_reducible apply carries_ite_two
    | with_reducible apply carries_ite_one
    | simp only [carries_mk_iff]
    | (with_reducible apply carries_foldl; intro _ _ _)
    | (with_reducible apply carries_foldl_pair; intro _ _ _ _)
    | intro _
    | split
    | dsimp only

theorem State_prepare_carries {s₀ : State} {s : State} (p : Nat) (sp : ServePlan) (row : PlanRow) (hs : Carries s₀ s) :
    Carries s₀ (Sys2Proof.Machine.State.prepare s p sp row) := by
  unfold Sys2Proof.Machine.State.prepare
  try dsimp only
  repeat' first
    | with_reducible assumption
    | with_reducible apply State_fillSlots_carries
    | with_reducible apply State_put_carries
    | with_reducible apply carries_ite
    | with_reducible apply carries_ite_two
    | with_reducible apply carries_ite_one
    | simp only [carries_mk_iff]
    | (with_reducible apply carries_foldl; intro _ _ _)
    | (with_reducible apply carries_foldl_pair; intro _ _ _ _)
    | intro _
    | split
    | dsimp only

theorem State_planRound_carries {s₀ : State} {s : State} (p : Nat) (sp : ServePlan) (hs : Carries s₀ s) :
    Carries s₀ (Sys2Proof.Machine.State.planRound s p sp) := by
  unfold Sys2Proof.Machine.State.planRound
  try dsimp only
  repeat' first
    | with_reducible assumption
    | with_reducible apply State_count_carries
    | with_reducible apply State_fillSlots_carries
    | with_reducible apply State_prepare_carries
    | with_reducible apply State_put_carries
    | with_reducible apply State_signal_carries
    | with_reducible apply State_start_carries
    | with_reducible apply carries_ite
    | with_reducible apply carries_ite_two
    | with_reducible apply carries_ite_one
    | simp only [carries_mk_iff]
    | (with_reducible apply carries_foldl; intro _ _ _)
    | (with_reducible apply carries_foldl_pair; intro _ _ _ _)
    | intro _
    | split
    | dsimp only

theorem State_followContexts_carries {s₀ : State} {s : State}  (hs : Carries s₀ s) :
    Carries s₀ (Sys2Proof.Machine.State.followContexts s) := by
  unfold Sys2Proof.Machine.State.followContexts
  try dsimp only
  repeat' first
    | with_reducible assumption
    | with_reducible apply State_deliver_carries
    | with_reducible apply State_serveRecord_carries
    | with_reducible apply State_setRequest_carries
    | with_reducible apply carries_ite
    | with_reducible apply carries_ite_two
    | with_reducible apply carries_ite_one
    | simp only [carries_mk_iff]
    | (with_reducible apply carries_foldl; intro _ _ _)
    | (with_reducible apply carries_foldl_pair; intro _ _ _ _)
    | intro _
    | split
    | dsimp only

theorem State_tableErrors_carries {s₀ : State} {s : State}  (hs : Carries s₀ s) :
    Carries s₀ (Sys2Proof.Machine.State.tableErrors s) := by
  unfold Sys2Proof.Machine.State.tableErrors
  try dsimp only
  repeat' first
    | with_reducible assumption
    | with_reducible apply State_capture_carries
    | with_reducible apply State_faultPlatform_carries
    | with_reducible apply State_setRequest_carries
    | with_reducible apply State_uncorrected_carries
    | with_reducible apply carries_ite
    | with_reducible apply carries_ite_two
    | with_reducible apply carries_ite_one
    | simp only [carries_mk_iff]
    | (with_reducible apply carries_foldl; intro _ _ _)
    | (with_reducible apply carries_foldl_pair; intro _ _ _ _)
    | intro _
    | split
    | dsimp only

theorem State_deliverAll_carries {s₀ : State} {s : State} (old : List Request) (hs : Carries s₀ s) :
    Carries s₀ (Sys2Proof.Machine.State.deliverAll s old) := by
  unfold Sys2Proof.Machine.State.deliverAll
  try dsimp only
  repeat' first
    | with_reducible assumption
    | with_reducible apply State_deliver_carries
    | with_reducible apply State_serveRecord_carries
    | with_reducible apply carries_ite
    | with_reducible apply carries_ite_two
    | with_reducible apply carries_ite_one
    | simp only [carries_mk_iff]
    | (with_reducible apply carries_foldl; intro _ _ _)
    | (with_reducible apply carries_foldl_pair; intro _ _ _ _)
    | intro _
    | split
    | dsimp only

theorem State_serveCounts_carries {s₀ : State} {s : State}  (hs : Carries s₀ s) :
    Carries s₀ (Sys2Proof.Machine.State.serveCounts s) := by
  unfold Sys2Proof.Machine.State.serveCounts
  try dsimp only
  repeat' first
    | with_reducible assumption
    | with_reducible apply State_setOd_carries
    | with_reducible apply carries_ite
    | with_reducible apply carries_ite_two
    | with_reducible apply carries_ite_one
    | simp only [carries_mk_iff]
    | (with_reducible apply carries_foldl; intro _ _ _)
    | (with_reducible apply carries_foldl_pair; intro _ _ _ _)
    | intro _
    | split
    | dsimp only

theorem State_serviceLeaves_carries {s₀ : State} {s : State} (p : Nat) (hs : Carries s₀ s) :
    Carries s₀ (Sys2Proof.Machine.State.serviceLeaves s p) := by
  unfold Sys2Proof.Machine.State.serviceLeaves
  try dsimp only
  repeat' first
    | with_reducible assumption
    | with_reducible apply State_endRequest_carries
    | with_reducible apply State_mapRequests_carries
    | with_reducible apply State_quiesce_carries
    | with_reducible apply State_releaseEnded_carries
    | with_reducible apply State_releasePrefixes_carries
    | with_reducible apply State_serveCounts_carries
    | with_reducible apply State_setRequest_carries
    | with_reducible apply carries_ite
    | with_reducible apply carries_ite_two
    | with_reducible apply carries_ite_one
    | simp only [carries_mk_iff]
    | (with_reducible apply carries_foldl; intro _ _ _)
    | (with_reducible apply carries_foldl_pair; intro _ _ _ _)
    | intro _
    | split
    | dsimp only

theorem State_serveSnapshot_carries {s₀ : State} {s : State}  (hs : Carries s₀ s) :
    Carries s₀ (Sys2Proof.Machine.State.serveSnapshot s) := by
  unfold Sys2Proof.Machine.State.serveSnapshot
  try dsimp only
  repeat' first
    | with_reducible assumption
    | with_reducible apply State_count_carries
    | with_reducible apply State_put_carries
    | with_reducible apply State_setOd_carries
    | with_reducible apply carries_ite
    | with_reducible apply carries_ite_two
    | with_reducible apply carries_ite_one
    | simp only [carries_mk_iff]
    | (with_reducible apply carries_foldl; intro _ _ _)
    | (with_reducible apply carries_foldl_pair; intro _ _ _ _)
    | intro _
    | split
    | dsimp only

theorem State_boundaryResults_carries {s₀ : State} {s : State} (p : Nat) (sp : ServePlan) (hs : Carries s₀ s) :
    Carries s₀ (Sys2Proof.Machine.State.boundaryResults s p sp) := by
  unfold Sys2Proof.Machine.State.boundaryResults
  try dsimp only
  repeat' first
    | with_reducible assumption
    | with_reducible apply State_applyChunk_carries
    | with_reducible apply State_applyRecord_carries
    | with_reducible apply State_applyVerdict_carries
    | with_reducible apply State_deliverAll_carries
    | with_reducible apply State_followContexts_carries
    | with_reducible apply State_freeGens_carries
    | with_reducible apply State_mapRequests_carries
    | with_reducible apply State_releaseEnded_carries
    | with_reducible apply State_releasePrefixes_carries
    | with_reducible apply State_serveSnapshot_carries
    | with_reducible apply State_tableErrors_carries
    | with_reducible apply carries_ite
    | with_reducible apply carries_ite_two
    | with_reducible apply carries_ite_one
    | simp only [carries_mk_iff]
    | (with_reducible apply carries_foldl; intro _ _ _)
    | (with_reducible apply carries_foldl_pair; intro _ _ _ _)
    | intro _
    | split
    | dsimp only

theorem State_boundaryPlan_carries {s₀ : State} {s : State} (p : Nat) (sp : ServePlan) (hs : Carries s₀ s) :
    Carries s₀ (Sys2Proof.Machine.State.boundaryPlan s p sp) := by
  unfold Sys2Proof.Machine.State.boundaryPlan
  dsimp only
  repeat' first
    | with_reducible assumption
    | with_reducible apply State_planRound_carries
    | with_reducible apply State_releaseEnded_carries
    | with_reducible apply State_writeEntry_carries
    | with_reducible apply State_count_carries
    | exact State_admitAll_carries _ _ _ _ (State_admitPrefixes_carries _ hs)
    | with_reducible apply carries_ite
    | with_reducible apply carries_ite_two
    | with_reducible apply carries_ite_one
    | simp only [carries_mk_iff]
    | (with_reducible apply carries_foldl; intro _ _ _)
    | (with_reducible apply carries_foldl_pair; intro _ _ _ _)
    | intro _
    | split
    | dsimp only

theorem execRoundBoundary_carries {s₀ : State} {s : State} (roundUs : Nat) (t : State) (ht : (Sys2Proof.Machine.execRoundBoundary roundUs s) = .next t) (hs : Carries s₀ s) :
    Carries s₀ t := by
  unfold Sys2Proof.Machine.execRoundBoundary at ht
  obtain rfl := within_some ht
  try dsimp only
  repeat' first
    | with_reducible assumption
    | with_reducible apply State_boundaryPlan_carries
    | with_reducible apply State_boundaryResults_carries
    | with_reducible apply State_count_carries
    | with_reducible apply State_countMax_carries
    | with_reducible apply State_serveCounts_carries
    | with_reducible apply State_serviceLeaves_carries
    | with_reducible apply carries_ite
    | with_reducible apply carries_ite_two
    | with_reducible apply carries_ite_one
    | simp only [carries_mk_iff]
    | (with_reducible apply carries_foldl; intro _ _ _)
    | (with_reducible apply carries_foldl_pair; intro _ _ _ _)
    | intro _
    | split
    | dsimp only

theorem execCkptRestore_carries {s₀ : State} {s : State} (w : Nat) (t : State) (ht : (Sys2Proof.Machine.execCkptRestore w s) = .next t) (hs : Carries s₀ s) :
    Carries s₀ t := by
  unfold Sys2Proof.Machine.execCkptRestore at ht
  obtain rfl := within_some ht
  try dsimp only
  repeat' first
    | with_reducible assumption
    | with_reducible apply State_restoreAny_carries
    | with_reducible apply carries_ite
    | with_reducible apply carries_ite_two
    | with_reducible apply carries_ite_one
    | simp only [carries_mk_iff]
    | (with_reducible apply carries_foldl; intro _ _ _)
    | (with_reducible apply carries_foldl_pair; intro _ _ _ _)
    | intro _
    | split
    | dsimp only

end Sys2Proof.Laws
end

