-- ==== Sys2Proof/Laws/Power.lean ====
section
/-! SUPPORT. What the functions of Machine/Power.lean leave alone (`Carries`). -/

namespace Sys2Proof.Laws

open Sys2Proof Sys2Proof.Machine

theorem State_keepMem_carries {s₀ : State} {s : State} (f : Nat → Bool) (hs : Carries s₀ s) :
    Carries s₀ (Sys2Proof.Machine.State.keepMem s f) := by
  exact hs.of_mem rfl (filter_wf _ _) id

theorem State_setPorts_carries {s₀ : State} {s : State} (f : Nat → Nat) (hs : Carries s₀ s) :
    Carries s₀ (Sys2Proof.Machine.State.setPorts s f) := by
  unfold Sys2Proof.Machine.State.setPorts
  try dsimp only
  repeat' first
    | with_reducible assumption
    | with_reducible apply State_setOd_carries
    | with_reducible apply carries_ite
    | with_reducible apply carries_ite_two
    | with_reducible apply carries_ite_one
    | simp only [carries_mk_iff]
    | (with_reducible apply carries_foldl; intro _ _ _)
    | (with_reducible apply carries_foldl_pair; intro _ _ _ _)
    | intro _
    | split
    | dsimp only

theorem State_enterDoze_carries {s₀ : State} {s : State}  (hs : Carries s₀ s) :
    Carries s₀ (Sys2Proof.Machine.State.enterDoze s) := by
  unfold Sys2Proof.Machine.State.enterDoze
  try dsimp only
  repeat' first
    | with_reducible assumption
    | with_reducible apply State_keepMem_carries
    | with_reducible apply State_mapCores_carries
    | with_reducible apply State_setPorts_carries
    | with_reducible apply carries_ite
    | with_reducible apply carries_ite_two
    | with_reducible apply carries_ite_one
    | simp only [carries_mk_iff]
    | (with_reducible apply carries_foldl; intro _ _ _)
    | (with_reducible apply carries_foldl_pair; intro _ _ _ _)
    | intro _
    | split
    | dsimp only

theorem State_faultAll_carries {s₀ : State} {s : State} (e : Event) (hs : Carries s₀ s) :
    Carries s₀ (Sys2Proof.Machine.State.faultAll s e) := by
  unfold Sys2Proof.Machine.State.faultAll
  try dsimp only
  repeat' first
    | with_reducible assumption
    | with_reducible apply State_capture_carries
    | with_reducible apply State_faultJob_carries
    | with_reducible apply State_faultPlatform_carries
    | with_reducible apply carries_ite
    | with_reducible apply carries_ite_two
    | with_reducible apply carries_ite_one
    | simp only [carries_mk_iff]
    | (with_reducible apply carries_foldl; intro _ _ _)
    | (with_reducible apply carries_foldl_pair; intro _ _ _ _)
    | intro _
    | split
    | dsimp only

theorem State_leaveDoze_carries {s₀ : State} {s : State}  (hs : Carries s₀ s) :
    Carries s₀ (Sys2Proof.Machine.State.leaveDoze s) := by
  unfold Sys2Proof.Machine.State.leaveDoze
  try dsimp only
  repeat' first
    | with_reducible assumption
    | with_reducible apply State_setPorts_carries
    | with_reducible apply carries_ite
    | with_reducible apply carries_ite_two
    | with_reducible apply carries_ite_one
    | simp only [carries_mk_iff]
    | (with_reducible apply carries_foldl; intro _ _ _)
    | (with_reducible apply carries_foldl_pair; intro _ _ _ _)
    | intro _
    | split
    | dsimp only

theorem State_mainUpStart_carries {s₀ : State} {s : State}  (hs : Carries s₀ s) :
    Carries s₀ (Sys2Proof.Machine.State.mainUpStart s) := by
  unfold Sys2Proof.Machine.State.mainUpStart
  try dsimp only
  repeat' first
    | with_reducible assumption
    | with_reducible apply carries_ite
    | with_reducible apply carries_ite_two
    | with_reducible apply carries_ite_one
    | simp only [carries_mk_iff]
    | (with_reducible apply carries_foldl; intro _ _ _)
    | (with_reducible apply carries_foldl_pair; intro _ _ _ _)
    | intro _
    | split
    | dsimp only

theorem State_keepOd_carries {s₀ : State} {s : State} (f : Nat → OdKeep → Bool) (hs : Carries s₀ s) :
    Carries s₀ (Sys2Proof.Machine.State.keepOd s f) := by
  unfold Sys2Proof.Machine.State.keepOd
  try dsimp only
  repeat' first
    | with_reducible assumption
    | with_reducible apply carries_ite
    | with_reducible apply carries_ite_two
    | with_reducible apply carries_ite_one
    | simp only [carries_mk_iff]
    | (with_reducible apply carries_foldl; intro _ _ _)
    | (with_reducible apply carries_foldl_pair; intro _ _ _ _)
    | intro _
    | split
    | dsimp only

theorem State_standbyOd_carries {s₀ : State} {s : State}  (hs : Carries s₀ s) :
    Carries s₀ (Sys2Proof.Machine.State.standbyOd s) := by
  unfold Sys2Proof.Machine.State.standbyOd
  try dsimp only
  repeat' first
    | with_reducible assumption
    | with_reducible apply State_keepOd_carries
    | with_reducible apply carries_ite
    | with_reducible apply carries_ite_two
    | with_reducible apply carries_ite_one
    | simp only [carries_mk_iff]
    | (with_reducible apply carries_foldl; intro _ _ _)
    | (with_reducible apply carries_foldl_pair; intro _ _ _ _)
    | intro _
    | split
    | dsimp only

theorem State_mainDomainStart_carries {s₀ : State} {s : State}  (hs : Carries s₀ s) :
    Carries s₀ (Sys2Proof.Machine.State.mainDomainStart s) := by
  unfold Sys2Proof.Machine.State.mainDomainStart
  try dsimp only
  repeat' first
    | with_reducible assumption
    | with_reducible apply State_depotActs_carries
    | with_reducible apply State_mainUpStart_carries
    | with_reducible apply State_standbyOd_carries
    | with_reducible apply carries_ite
    | with_reducible apply carries_ite_two
    | with_reducible apply carries_ite_one
    | simp only [carries_mk_iff]
    | (with_reducible apply carries_foldl; intro _ _ _)
    | (with_reducible apply carries_foldl_pair; intro _ _ _ _)
    | intro _
    | split
    | dsimp only

theorem State_resetHostPorts_carries {s₀ : State} {s : State}  (hs : Carries s₀ s) :
    Carries s₀ (Sys2Proof.Machine.State.resetHostPorts s) := by
  unfold Sys2Proof.Machine.State.resetHostPorts
  try dsimp only
  repeat' first
    | with_reducible assumption
    | with_reducible apply carries_ite
    | with_reducible apply carries_ite_two
    | with_reducible apply carries_ite_one
    | simp only [carries_mk_iff]
    | (with_reducible apply carries_foldl; intro _ _ _)
    | (with_reducible apply carries_foldl_pair; intro _ _ _ _)
    | intro _
    | split
    | dsimp only

theorem State_unloadCores_carries {s₀ : State} {s : State}  (hs : Carries s₀ s) :
    Carries s₀ (Sys2Proof.Machine.State.unloadCores s) := by
  unfold Sys2Proof.Machine.State.unloadCores
  try dsimp only
  repeat' first
    | with_reducible assumption
    | with_reducible apply State_mapCores_carries
    | with_reducible apply carries_ite
    | with_reducible apply carries_ite_two
    | with_reducible apply carries_ite_one
    | simp only [carries_mk_iff]
    | (with_reducible apply carries_foldl; intro _ _ _)
    | (with_reducible apply carries_foldl_pair; intro _ _ _ _)
    | intro _
    | split
    | dsimp only

theorem State_unload_carries {s₀ : State} {s : State}  (hs : Carries s₀ s) :
    Carries s₀ (Sys2Proof.Machine.State.unload s) := by
  unfold Sys2Proof.Machine.State.unload
  try dsimp only
  repeat' first
    | with_reducible assumption
    | with_reducible apply State_resetHostPorts_carries
    | with_reducible apply State_unloadCores_carries
    | with_reducible apply carries_ite
    | with_reducible apply carries_ite_two
    | with_reducible apply carries_ite_one
    | simp only [carries_mk_iff]
    | (with_reducible apply carries_foldl; intro _ _ _)
    | (with_reducible apply carries_foldl_pair; intro _ _ _ _)
    | intro _
    | split
    | dsimp only

theorem State_mainDown_carries {s₀ : State} {s : State}  (hs : Carries s₀ s) :
    Carries s₀ (Sys2Proof.Machine.State.mainDown s) := by
  unfold Sys2Proof.Machine.State.mainDown
  try dsimp only
  repeat' first
    | with_reducible assumption
    | with_reducible apply State_keepMem_carries
    | with_reducible apply State_standbyOd_carries
    | with_reducible apply State_unload_carries
    | with_reducible apply carries_ite
    | with_reducible apply carries_ite_two
    | with_reducible apply carries_ite_one
    | simp only [carries_mk_iff]
    | (with_reducible apply carries_foldl; intro _ _ _)
    | (with_reducible apply carries_foldl_pair; intro _ _ _ _)
    | intro _
    | split
    | dsimp only

theorem State_powerRequest_carries {s₀ : State} {s : State} (v : Nat) (hs : Carries s₀ s) :
    Carries s₀ (Sys2Proof.Machine.State.powerRequest s v).2 := by
  unfold Sys2Proof.Machine.State.powerRequest
  try dsimp only
  repeat' first
    | with_reducible assumption
    | with_reducible apply State_enterDoze_carries
    | with_reducible apply State_faultAll_carries
    | with_reducible apply State_leaveDoze_carries
    | with_reducible apply State_mainDomainStart_carries
    | with_reducible apply State_mainDown_carries
    | with_reducible apply State_refused_carries
    | with_reducible apply carries_ite
    | with_reducible apply carries_ite_two
    | with_reducible apply carries_ite_one
    | simp only [carries_mk_iff]
    | (with_reducible apply carries_foldl; intro _ _ _)
    | (with_reducible apply carries_foldl_pair; intro _ _ _ _)
    | intro _
    | split
    | dsimp only

theorem State_setProfile_carries {s₀ : State} {s : State} (v : Nat) (hs : Carries s₀ s) :
    Carries s₀ (Sys2Proof.Machine.State.setProfile s v).2 := by
  unfold Sys2Proof.Machine.State.setProfile
  try dsimp only
  repeat' first
    | with_reducible assumption
    | with_reducible apply State_refused_carries
    | with_reducible apply State_setOd_carries
    | with_reducible apply carries_ite
    | with_reducible apply carries_ite_two
    | with_reducible apply carries_ite_one
    | simp only [carries_mk_iff]
    | (with_reducible apply carries_foldl; intro _ _ _)
    | (with_reducible apply carries_foldl_pair; intro _ _ _ _)
    | intro _
    | split
    | dsimp only

theorem State_autoRun_carries {s₀ : State} {s : State}  (hs : Carries s₀ s) :
    Carries s₀ (Sys2Proof.Machine.State.autoRun s) := by
  unfold Sys2Proof.Machine.State.autoRun
  try dsimp only
  repeat' first
    | with_reducible assumption
    | with_reducible apply State_mainUpStart_carries
    | with_reducible apply carries_ite
    | with_reducible apply carries_ite_two
    | with_reducible apply carries_ite_one
    | simp only [carries_mk_iff]
    | (with_reducible apply carries_foldl; intro _ _ _)
    | (with_reducible apply carries_foldl_pair; intro _ _ _ _)
    | intro _
    | split
    | dsimp only

theorem State_redraw_carries {s₀ : State} {s : State}  (hs : Carries s₀ s) :
    Carries s₀ (Sys2Proof.Machine.State.redraw s) := by
  unfold Sys2Proof.Machine.State.redraw
  try dsimp only
  repeat' first
    | with_reducible assumption
    | with_reducible apply State_setOd_carries
    | with_reducible apply carries_ite
    | with_reducible apply carries_ite_two
    | with_reducible apply carries_ite_one
    | simp only [carries_mk_iff]
    | (with_reducible apply carries_foldl; intro _ _ _)
    | (with_reducible apply carries_foldl_pair; intro _ _ _ _)
    | intro _
    | split
    | dsimp only

theorem State_dropSecurity_carries {s₀ : State} {s : State}  (hs : Carries s₀ s) :
    Carries s₀ (Sys2Proof.Machine.State.dropSecurity s) := by
  unfold Sys2Proof.Machine.State.dropSecurity
  try dsimp only
  repeat' first
    | with_reducible assumption
    | with_reducible apply State_redraw_carries
    | with_reducible apply State_setOd_carries
    | with_reducible apply carries_ite
    | with_reducible apply carries_ite_two
    | with_reducible apply carries_ite_one
    | simp only [carries_mk_iff]
    | (with_reducible apply carries_foldl; intro _ _ _)
    | (with_reducible apply carries_foldl_pair; intro _ _ _ _)
    | intro _
    | split
    | dsimp only

theorem State_coldState_carries {s₀ : State} {s : State}  (hs : Carries s₀ s) :
    Carries s₀ (Sys2Proof.Machine.State.coldState s) := by
  unfold Sys2Proof.Machine.State.coldState
  dsimp only
  refine State_depotActs_carries (State_dropSecurity_carries ?_)
  have h := State_unload_carries (State_keepOd_carries (fun _ c => c = .persistent) hs)
  exact ⟨h.pending, fun _ => rfl, h.host⟩

theorem State_reloadProtection_carries {s₀ : State} {s : State}  (hs : Carries s₀ s) :
    Carries s₀ (Sys2Proof.Machine.State.reloadProtection s) := by
  unfold Sys2Proof.Machine.State.reloadProtection
  try dsimp only
  repeat' first
    | with_reducible assumption
    | with_reducible apply State_setOd_carries
    | with_reducible apply State_sticky_carries
    | with_reducible apply carries_ite
    | with_reducible apply carries_ite_two
    | with_reducible apply carries_ite_one
    | simp only [carries_mk_iff]
    | (with_reducible apply carries_foldl; intro _ _ _)
    | (with_reducible apply carries_foldl_pair; intro _ _ _ _)
    | intro _
    | split
    | dsimp only

theorem State_bootDie_carries {s₀ : State} {s : State}  (hs : Carries s₀ s) :
    Carries s₀ (Sys2Proof.Machine.State.bootDie s) := by
  unfold Sys2Proof.Machine.State.bootDie
  try dsimp only
  repeat' first
    | with_reducible assumption
    | with_reducible apply State_mainDown_carries
    | with_reducible apply State_setOd_carries
    | with_reducible apply carries_ite
    | with_reducible apply carries_ite_two
    | with_reducible apply carries_ite_one
    | simp only [carries_mk_iff]
    | (with_reducible apply carries_foldl; intro _ _ _)
    | (with_reducible apply carries_foldl_pair; intro _ _ _ _)
    | intro _
    | split
    | dsimp only

theorem State_noControlDie_carries {s₀ : State} {s : State}  (hs : Carries s₀ s) :
    Carries s₀ (Sys2Proof.Machine.State.noControlDie s) := by
  unfold Sys2Proof.Machine.State.noControlDie
  try dsimp only
  repeat' first
    | with_reducible assumption
    | with_reducible apply State_mainDown_carries
    | with_reducible apply State_markReplace_carries
    | with_reducible apply State_setOd_carries
    | with_reducible apply carries_ite
    | with_reducible apply carries_ite_two
    | with_reducible apply carries_ite_one
    | simp only [carries_mk_iff]
    | (with_reducible apply carries_foldl; intro _ _ _)
    | (with_reducible apply carries_foldl_pair; intro _ _ _ _)
    | intro _
    | split
    | dsimp only

theorem State_handOver_carries {s₀ : State} {s : State} (d : Nat) (hs : Carries s₀ s) :
    Carries s₀ (Sys2Proof.Machine.State.handOver s d) := by
  unfold Sys2Proof.Machine.State.handOver
  try dsimp only
  repeat' first
    | with_reducible assumption
    | with_reducible apply State_bootDie_carries
    | with_reducible apply State_dropSecurity_carries
    | with_reducible apply State_keepOd_carries
    | with_reducible apply State_noControlDie_carries
    | with_reducible apply State_setOd_carries
    | with_reducible apply State_sticky_carries
    | with_reducible apply carries_ite
    | with_reducible apply carries_ite_two
    | with_reducible apply carries_ite_one
    | simp only [carries_mk_iff]
    | (with_reducible apply carries_foldl; intro _ _ _)
    | (with_reducible apply carries_foldl_pair; intro _ _ _ _)
    | intro _
    | split
    | dsimp only

theorem State_selfTest_carries {s₀ : State} {s : State}  (hs : Carries s₀ s) :
    Carries s₀ (Sys2Proof.Machine.State.selfTest s) := by
  unfold Sys2Proof.Machine.State.selfTest
  try dsimp only
  repeat' first
    | with_reducible assumption
    | with_reducible apply State_bootDie_carries
    | with_reducible apply State_handOver_carries
    | with_reducible apply State_noControlDie_carries
    | with_reducible apply carries_ite
    | with_reducible apply carries_ite_two
    | with_reducible apply carries_ite_one
    | simp only [carries_mk_iff]
    | (with_reducible apply carries_foldl; intro _ _ _)
    | (with_reducible apply carries_foldl_pair; intro _ _ _ _)
    | intro _
    | split
    | dsimp only

theorem State_coldReset_carries {s₀ : State} {s : State}  (hs : Carries s₀ s) :
    Carries s₀ (Sys2Proof.Machine.State.coldReset s) := by
  unfold Sys2Proof.Machine.State.coldReset
  try dsimp only
  repeat' first
    | with_reducible assumption
    | with_reducible apply State_autoRun_carries
    | with_reducible apply State_coldState_carries
    | with_reducible apply State_reloadProtection_carries
    | with_reducible apply State_selfTest_carries
    | with_reducible apply carries_ite
    | with_reducible apply carries_ite_two
    | with_reducible apply carries_ite_one
    | simp only [carries_mk_iff]
    | (with_reducible apply carries_foldl; intro _ _ _)
    | (with_reducible apply carries_foldl_pair; intro _ _ _ _)
    | intro _
    | split
    | dsimp only

theorem State_freeIslands_carries {s₀ : State} {s : State}  (hs : Carries s₀ s) :
    Carries s₀ (Sys2Proof.Machine.State.freeIslands s) := by
  unfold Sys2Proof.Machine.State.freeIslands
  try dsimp only
  repeat' first
    | with_reducible assumption
    | with_reducible apply carries_ite
    | with_reducible apply carries_ite_two
    | with_reducible apply carries_ite_one
    | simp only [carries_mk_iff]
    | (with_reducible apply carries_foldl; intro _ _ _)
    | (with_reducible apply carries_foldl_pair; intro _ _ _ _)
    | intro _
    | split
    | dsimp only

theorem State_warmReset_carries {s₀ : State} {s : State}  (hs : Carries s₀ s) :
    Carries s₀ (Sys2Proof.Machine.State.warmReset s) := by
  unfold Sys2Proof.Machine.State.warmReset
  try dsimp only
  repeat' first
    | with_reducible assumption
    | with_reducible apply State_depotActs_carries
    | with_reducible apply State_dropSecurity_carries
    | with_reducible apply State_freeIslands_carries
    | with_reducible apply State_keepMem_carries
    | with_reducible apply State_keepOd_carries
    | with_reducible apply State_selfTest_carries
    | with_reducible apply State_unload_carries
    | with_reducible apply carries_ite
    | with_reducible apply carries_ite_two
    | with_reducible apply carries_ite_one
    | simp only [carries_mk_iff]
    | (with_reducible apply carries_foldl; intro _ _ _)
    | (with_reducible apply carries_foldl_pair; intro _ _ _ _)
    | intro _
    | split
    | dsimp only

theorem State_writtenWarm_carries {s₀ : State} {s : State}  (hs : Carries s₀ s) :
    Carries s₀ (Sys2Proof.Machine.State.writtenWarm s) := by
  unfold Sys2Proof.Machine.State.writtenWarm
  try dsimp only
  repeat' first
    | with_reducible assumption
    | with_reducible apply State_mainUpStart_carries
    | with_reducible apply State_warmReset_carries
    | with_reducible apply carries_ite
    | with_reducible apply carries_ite_two
    | with_reducible apply carries_ite_one
    | simp only [carries_mk_iff]
    | (with_reducible apply carries_foldl; intro _ _ _)
    | (with_reducible apply carries_foldl_pair; intro _ _ _ _)
    | intro _
    | split
    | dsimp only

theorem State_writeReset_carries {s₀ : State} {s : State} (v : Nat) (hs : Carries s₀ s) :
    Carries s₀ (Sys2Proof.Machine.State.writeReset s v).2 := by
  unfold Sys2Proof.Machine.State.writeReset
  try dsimp only
  repeat' first
    | with_reducible assumption
    | with_reducible apply State_coldReset_carries
    | with_reducible apply State_refused_carries
    | with_reducible apply State_writtenWarm_carries
    | with_reducible apply carries_ite
    | with_reducible apply carries_ite_two
    | with_reducible apply carries_ite_one
    | simp only [carries_mk_iff]
    | (with_reducible apply carries_foldl; intro _ _ _)
    | (with_reducible apply carries_foldl_pair; intro _ _ _ _)
    | intro _
    | split
    | dsimp only

theorem State_withReport_carries {s₀ : State} {s : State} (r : DieReport) (hs : Carries s₀ s) :
    Carries s₀ (Sys2Proof.Machine.State.withReport s r) := by
  unfold Sys2Proof.Machine.State.withReport
  try dsimp only
  repeat' first
    | with_reducible assumption
    | with_reducible apply carries_ite
    | with_reducible apply carries_ite_two
    | with_reducible apply carries_ite_one
    | simp only [carries_mk_iff]
    | (with_reducible apply carries_foldl; intro _ _ _)
    | (with_reducible apply carries_foldl_pair; intro _ _ _ _)
    | intro _
    | split
    | dsimp only

theorem State_fallBack_carries {s₀ : State} {s : State}  (hs : Carries s₀ s) :
    Carries s₀ (Sys2Proof.Machine.State.fallBack s) := by
  unfold Sys2Proof.Machine.State.fallBack
  try dsimp only
  repeat' first
    | with_reducible assumption
    | with_reducible apply carries_ite
    | with_reducible apply carries_ite_two
    | with_reducible apply carries_ite_one
    | simp only [carries_mk_iff]
    | (with_reducible apply carries_foldl; intro _ _ _)
    | (with_reducible apply carries_foldl_pair; intro _ _ _ _)
    | intro _
    | split
    | dsimp only

theorem execVauxRise_carries {s₀ : State} {s : State} (millivolts : Nat) (dies : DieReport) (t : State) (ht : (Sys2Proof.Machine.execVauxRise millivolts dies s) = .next t) (hs : Carries s₀ s) :
    Carries s₀ t := by
  unfold Sys2Proof.Machine.execVauxRise at ht
  obtain rfl := within_some ht
  try dsimp only
  repeat' first
    | with_reducible assumption
    | with_reducible apply State_coldReset_carries
    | with_reducible apply carries_ite
    | with_reducible apply carries_ite_two
    | with_reducible apply carries_ite_one
    | simp only [carries_mk_iff]
    | (with_reducible apply carries_foldl; intro _ _ _)
    | (with_reducible apply carries_foldl_pair; intro _ _ _ _)
    | intro _
    | split
    | dsimp only

theorem execControlDieReportTimeout_carries {s₀ : State} {s : State} (elapsedMs : Nat) (t : State) (ht : (Sys2Proof.Machine.execControlDieReportTimeout elapsedMs s) = .next t) (hs : Carries s₀ s) :
    Carries s₀ t := by
  unfold Sys2Proof.Machine.execControlDieReportTimeout at ht
  obtain rfl := within_some ht
  try dsimp only
  repeat' first
    | with_reducible assumption
    | with_reducible apply State_autoRun_carries
    | with_reducible apply State_fallBack_carries
    | with_reducible apply State_handOver_carries
    | with_reducible apply carries_ite
    | with_reducible apply carries_ite_two
    | with_reducible apply carries_ite_one
    | simp only [carries_mk_iff]
    | (with_reducible apply carries_foldl; intro _ _ _)
    | (with_reducible apply carries_foldl_pair; intro _ _ _ _)
    | intro _
    | split
    | dsimp only

theorem State_startFails_carries {s₀ : State} {s : State}  (hs : Carries s₀ s) :
    Carries s₀ (Sys2Proof.Machine.State.startFails s) := by
  unfold Sys2Proof.Machine.State.startFails
  try dsimp only
  repeat' first
    | with_reducible assumption
    | with_reducible apply State_sticky_carries
    | with_reducible apply carries_ite
    | with_reducible apply carries_ite_two
    | with_reducible apply carries_ite_one
    | simp only [carries_mk_iff]
    | (with_reducible apply carries_foldl; intro _ _ _)
    | (with_reducible apply carries_foldl_pair; intro _ _ _ _)
    | intro _
    | split
    | dsimp only

theorem execVinPgoodAssert_carries {s₀ : State} {s : State} (vin : Nat) (vddq : Nat) (vio : Nat) (t : State) (ht : (Sys2Proof.Machine.execVinPgoodAssert vin vddq vio s) = .next t) (hs : Carries s₀ s) :
    Carries s₀ t := by
  unfold Sys2Proof.Machine.execVinPgoodAssert at ht
  obtain rfl := within_some ht
  try dsimp only
  repeat' first
    | with_reducible assumption
    | with_reducible apply State_startFails_carries
    | with_reducible apply carries_ite
    | with_reducible apply carries_ite_two
    | with_reducible apply carries_ite_one
    | simp only [carries_mk_iff]
    | (with_reducible apply carries_foldl; intro _ _ _)
    | (with_reducible apply carries_foldl_pair; intro _ _ _ _)
    | intro _
    | split
    | dsimp only

theorem execMainRailStartTimeout_carries {s₀ : State} {s : State} (elapsedMs : Nat) (t : State) (ht : (Sys2Proof.Machine.execMainRailStartTimeout elapsedMs s) = .next t) (hs : Carries s₀ s) :
    Carries s₀ t := by
  unfold Sys2Proof.Machine.execMainRailStartTimeout at ht
  obtain rfl := within_some ht
  try dsimp only
  repeat' first
    | with_reducible assumption
    | with_reducible apply State_startFails_carries
    | with_reducible apply carries_ite
    | with_reducible apply carries_ite_two
    | with_reducible apply carries_ite_one
    | simp only [carries_mk_iff]
    | (with_reducible apply carries_foldl; intro _ _ _)
    | (with_reducible apply carries_foldl_pair; intro _ _ _ _)
    | intro _
    | split
    | dsimp only

theorem execVinPgoodDrop_carries {s₀ : State} {s : State} (elapsedNs : Nat) (dies : DieReport) (t : State) (ht : (Sys2Proof.Machine.execVinPgoodDrop elapsedNs dies s) = .next t) (hs : Carries s₀ s) :
    Carries s₀ t := by
  unfold Sys2Proof.Machine.execVinPgoodDrop at ht
  obtain rfl := within_some ht
  try dsimp only
  repeat' first
    | with_reducible assumption
    | with_reducible apply State_coldReset_carries
    | with_reducible apply State_sticky_carries
    | with_reducible apply State_withReport_carries
    | with_reducible apply carries_ite
    | with_reducible apply carries_ite_two
    | with_reducible apply carries_ite_one
    | simp only [carries_mk_iff]
    | (with_reducible apply carries_foldl; intro _ _ _)
    | (with_reducible apply carries_foldl_pair; intro _ _ _ _)
    | intro _
    | split
    | dsimp only

theorem State_trainDdr5_carries {s₀ : State} {s : State} (ds : List Dimm) (hs : Carries s₀ s) :
    Carries s₀ (Sys2Proof.Machine.State.trainDdr5 s ds) := by
  unfold Sys2Proof.Machine.State.trainDdr5
  try dsimp only
  repeat' first
    | with_reducible assumption
    | with_reducible apply State_keepMem_carries
    | with_reducible apply State_setOd_carries
    | with_reducible apply carries_ite
    | with_reducible apply carries_ite_two
    | with_reducible apply carries_ite_one
    | simp only [carries_mk_iff]
    | (with_reducible apply carries_foldl; intro _ _ _)
    | (with_reducible apply carries_foldl_pair; intro _ _ _ _)
    | intro _
    | split
    | dsimp only

theorem execPackageReady_carries {s₀ : State} {s : State} (dimms : List Dimm) (hbmFailed : List (Nat × Nat)) (lines : List FailedLine) (t : State) (ht : (Sys2Proof.Machine.execPackageReady dimms hbmFailed lines s) = .next t) (hs : Carries s₀ s) :
    Carries s₀ t := by
  unfold Sys2Proof.Machine.execPackageReady at ht
  obtain rfl := within_some ht
  try dsimp only
  repeat' first
    | with_reducible assumption
    | with_reducible apply State_applySelfTest_carries
    | with_reducible apply State_emit_carries
    | with_reducible apply State_record_carries
    | with_reducible apply State_setPort_carries
    | with_reducible apply State_trainDdr5_carries
    | with_reducible apply carries_ite
    | with_reducible apply carries_ite_two
    | with_reducible apply carries_ite_one
    | simp only [carries_mk_iff]
    | (with_reducible apply carries_foldl; intro _ _ _)
    | (with_reducible apply carries_foldl_pair; intro _ _ _ _)
    | intro _
    | split
    | dsimp only

theorem execPackageWarmReset_carries {s₀ : State} {s : State} (dies : DieReport) (t : State) (ht : (Sys2Proof.Machine.execPackageWarmReset dies s) = .next t) (hs : Carries s₀ s) :
    Carries s₀ t := by
  unfold Sys2Proof.Machine.execPackageWarmReset at ht
  obtain rfl := within_some ht
  try dsimp only
  repeat' first
    | with_reducible assumption
    | with_reducible apply State_setPort_carries
    | with_reducible apply State_warmReset_carries
    | with_reducible apply carries_ite
    | with_reducible apply carries_ite_two
    | with_reducible apply carries_ite_one
    | simp only [carries_mk_iff]
    | (with_reducible apply carries_foldl; intro _ _ _)
    | (with_reducible apply carries_foldl_pair; intro _ _ _ _)
    | intro _
    | split
    | dsimp only

theorem execPerstDeassert_carries {s₀ : State} {s : State} (port : Nat) (t : State) (ht : (Sys2Proof.Machine.execPerstDeassert port s) = .next t) (hs : Carries s₀ s) :
    Carries s₀ t := by
  unfold Sys2Proof.Machine.execPerstDeassert at ht
  obtain rfl := within_some ht
  try dsimp only
  repeat' first
    | with_reducible assumption
    | with_reducible apply State_setPort_carries
    | with_reducible apply carries_ite
    | with_reducible apply carries_ite_two
    | with_reducible apply carries_ite_one
    | simp only [carries_mk_iff]
    | (with_reducible apply carries_foldl; intro _ _ _)
    | (with_reducible apply carries_foldl_pair; intro _ _ _ _)
    | intro _
    | split
    | dsimp only

theorem execPackageResetWarm_carries {s₀ : State} {s : State} (dies : DieReport) (t : State) (ht : (Sys2Proof.Machine.execPackageResetWarm dies s) = .next t) (hs : Carries s₀ s) :
    Carries s₀ t := by
  unfold Sys2Proof.Machine.execPackageResetWarm at ht
  obtain rfl := within_some ht
  try dsimp only
  repeat' first
    | with_reducible assumption
    | with_reducible apply State_withReport_carries
    | with_reducible apply State_writeReset_carries
    | with_reducible apply carries_ite
    | with_reducible apply carries_ite_two
    | with_reducible apply carries_ite_one
    | simp only [carries_mk_iff]
    | (with_reducible apply carries_foldl; intro _ _ _)
    | (with_reducible apply carries_foldl_pair; intro _ _ _ _)
    | intro _
    | split
    | dsimp only

theorem execPackageResetCold_carries {s₀ : State} {s : State} (dies : DieReport) (t : State) (ht : (Sys2Proof.Machine.execPackageResetCold dies s) = .next t) (hs : Carries s₀ s) :
    Carries s₀ t := by
  unfold Sys2Proof.Machine.execPackageResetCold at ht
  obtain rfl := within_some ht
  try dsimp only
  repeat' first
    | with_reducible assumption
    | with_reducible apply State_withReport_carries
    | with_reducible apply State_writeReset_carries
    | with_reducible apply carries_ite
    | with_reducible apply carries_ite_two
    | with_reducible apply carries_ite_one
    | simp only [carries_mk_iff]
    | (with_reducible apply carries_foldl; intro _ _ _)
    | (with_reducible apply carries_foldl_pair; intro _ _ _ _)
    | intro _
    | split
    | dsimp only

theorem State_controlFails_carries {s₀ : State} {s : State} (dies : DieReport) (bit : Nat) (cause : Nat) (hs : Carries s₀ s) :
    Carries s₀ (Sys2Proof.Machine.State.controlFails s dies bit cause) := by
  unfold Sys2Proof.Machine.State.controlFails
  try dsimp only
  repeat' first
    | with_reducible assumption
    | with_reducible apply State_faultAll_carries
    | with_reducible apply State_sticky_carries
    | with_reducible apply State_warmReset_carries
    | with_reducible apply State_withReport_carries
    | with_reducible apply carries_ite
    | with_reducible apply carries_ite_two
    | with_reducible apply carries_ite_one
    | simp only [carries_mk_iff]
    | (with_reducible apply carries_foldl; intro _ _ _)
    | (with_reducible apply carries_foldl_pair; intro _ _ _ _)
    | intro _
    | split
    | dsimp only

theorem execControlWatchdog_carries {s₀ : State} {s : State} (elapsedMs : Nat) (dies : DieReport) (t : State) (ht : (Sys2Proof.Machine.execControlWatchdog elapsedMs dies s) = .next t) (hs : Carries s₀ s) :
    Carries s₀ t := by
  unfold Sys2Proof.Machine.execControlWatchdog at ht
  obtain rfl := within_some ht
  try dsimp only
  repeat' first
    | with_reducible assumption
    | with_reducible apply State_controlFails_carries
    | with_reducible apply carries_ite
    | with_reducible apply carries_ite_two
    | with_reducible apply carries_ite_one
    | simp only [carries_mk_iff]
    | (with_reducible apply carries_foldl; intro _ _ _)
    | (with_reducible apply carries_foldl_pair; intro _ _ _ _)
    | intro _
    | split
    | dsimp only

theorem execControlMemory_carries {s₀ : State} {s : State} (dies : DieReport) (t : State) (ht : (Sys2Proof.Machine.execControlMemory dies s) = .next t) (hs : Carries s₀ s) :
    Carries s₀ t := by
  unfold Sys2Proof.Machine.execControlMemory at ht
  obtain rfl := within_some ht
  try dsimp only
  repeat' first
    | with_reducible assumption
    | with_reducible apply State_controlFails_carries
    | with_reducible apply carries_ite
    | with_reducible apply carries_ite_two
    | with_reducible apply carries_ite_one
    | simp only [carries_mk_iff]
    | (with_reducible apply carries_foldl; intro _ _ _)
    | (with_reducible apply carries_foldl_pair; intro _ _ _ _)
    | intro _
    | split
    | dsimp only

theorem execPowerStateRun_carries {s₀ : State} {s : State}  (t : State) (ht : (Sys2Proof.Machine.execPowerStateRun s) = .next t) (hs : Carries s₀ s) :
    Carries s₀ t := by
  unfold Sys2Proof.Machine.execPowerStateRun at ht
  obtain rfl := within_some ht
  try dsimp only
  repeat' first
    | with_reducible assumption
    | with_reducible apply State_powerRequest_carries
    | with_reducible apply carries_ite
    | with_reducible apply carries_ite_two
    | with_reducible apply carries_ite_one
    | simp only [carries_mk_iff]
    | (with_reducible apply carries_foldl; intro _ _ _)
    | (with_reducible apply carries_foldl_pair; intro _ _ _ _)
    | intro _
    | split
    | dsimp only

theorem execPowerStateDoze_carries {s₀ : State} {s : State}  (t : State) (ht : (Sys2Proof.Machine.execPowerStateDoze s) = .next t) (hs : Carries s₀ s) :
    Carries s₀ t := by
  unfold Sys2Proof.Machine.execPowerStateDoze at ht
  obtain rfl := within_some ht
  try dsimp only
  repeat' first
    | with_reducible assumption
    | with_reducible apply State_powerRequest_carries
    | with_reducible apply carries_ite
    | with_reducible apply carries_ite_two
    | with_reducible apply carries_ite_one
    | simp only [carries_mk_iff]
    | (with_reducible apply carries_foldl; intro _ _ _)
    | (with_reducible apply carries_foldl_pair; intro _ _ _ _)
    | intro _
    | split
    | dsimp only

theorem execPowerStateStandby_carries {s₀ : State} {s : State}  (t : State) (ht : (Sys2Proof.Machine.execPowerStateStandby s) = .next t) (hs : Carries s₀ s) :
    Carries s₀ t := by
  unfold Sys2Proof.Machine.execPowerStateStandby at ht
  obtain rfl := within_some ht
  try dsimp only
  repeat' first
    | with_reducible assumption
    | with_reducible apply State_powerRequest_carries
    | with_reducible apply carries_ite
    | with_reducible apply carries_ite_two
    | with_reducible apply carries_ite_one
    | simp only [carries_mk_iff]
    | (with_reducible apply carries_foldl; intro _ _ _)
    | (with_reducible apply carries_foldl_pair; intro _ _ _ _)
    | intro _
    | split
    | dsimp only

theorem execPowerProfile_carries {s₀ : State} {s : State} (value : Nat) (t : State) (ht : (Sys2Proof.Machine.execPowerProfile value s) = .next t) (hs : Carries s₀ s) :
    Carries s₀ t := by
  unfold Sys2Proof.Machine.execPowerProfile at ht
  obtain rfl := within_some ht
  try dsimp only
  repeat' first
    | with_reducible assumption
    | with_reducible apply State_setProfile_carries
    | with_reducible apply carries_ite
    | with_reducible apply carries_ite_two
    | with_reducible apply carries_ite_one
    | simp only [carries_mk_iff]
    | (with_reducible apply carries_foldl; intro _ _ _)
    | (with_reducible apply carries_foldl_pair; intro _ _ _ _)
    | intro _
    | split
    | dsimp only

end Sys2Proof.Laws
end

