-- ==== Sys2Proof/Laws/Islands.lean ====
section
/-! SUPPORT. What the functions of Machine/Islands.lean leave alone (`Carries`). -/

namespace Sys2Proof.Laws

open Sys2Proof Sys2Proof.Machine

theorem State_park_carries {s₀ : State} {s : State} (i : Nat) (q : Nat) (hs : Carries s₀ s) :
    Carries s₀ (Sys2Proof.Machine.State.park s i q) := by
  unfold Sys2Proof.Machine.State.park
  try dsimp only
  repeat' first
    | with_reducible assumption
    | with_reducible apply State_capture_carries
    | with_reducible apply State_count_carries
    | with_reducible apply State_setIsland_carries
    | with_reducible apply State_setOd_carries
    | with_reducible apply State_sticky_carries
    | with_reducible apply carries_ite
    | with_reducible apply carries_ite_two
    | with_reducible apply carries_ite_one
    | simp only [carries_mk_iff]
    | (with_reducible apply carries_foldl; intro _ _ _)
    | (with_reducible apply carries_foldl_pair; intro _ _ _ _)
    | intro _
    | split
    | dsimp only

theorem execIslandLimitCheck_carries {s₀ : State} {s : State} (a : Nat) (b : Nat) (clockA : Nat) (clockB : Nat) (supplyA : Nat) (supplyB : Nat) (tempA : Int) (tempB : Int) (t : State) (ht : (Sys2Proof.Machine.execIslandLimitCheck a b clockA clockB supplyA supplyB tempA tempB s) = .next t) (hs : Carries s₀ s) :
    Carries s₀ t := by
  unfold Sys2Proof.Machine.execIslandLimitCheck at ht
  obtain rfl := within_some ht
  try dsimp only
  repeat' first
    | with_reducible assumption
    | with_reducible apply State_park_carries
    | with_reducible apply carries_ite
    | with_reducible apply carries_ite_two
    | with_reducible apply carries_ite_one
    | simp only [carries_mk_iff]
    | (with_reducible apply carries_foldl; intro _ _ _)
    | (with_reducible apply carries_foldl_pair; intro _ _ _ _)
    | intro _
    | split
    | dsimp only

theorem execIslandResume_carries {s₀ : State} {s : State} (island : Nat) (elapsedUs : Nat) (fast : Nat) (slow : Nat) (supplyDiff : Nat) (tempDiff : Nat) (t : State) (ht : (Sys2Proof.Machine.execIslandResume island elapsedUs fast slow supplyDiff tempDiff s) = .next t) (hs : Carries s₀ s) :
    Carries s₀ t := by
  unfold Sys2Proof.Machine.execIslandResume at ht
  obtain rfl := within_some ht
  try dsimp only
  repeat' first
    | with_reducible assumption
    | with_reducible apply State_jctSettle_carries
    | with_reducible apply State_setIsland_carries
    | with_reducible apply carries_ite
    | with_reducible apply carries_ite_two
    | with_reducible apply carries_ite_one
    | simp only [carries_mk_iff]
    | (with_reducible apply carries_foldl; intro _ _ _)
    | (with_reducible apply carries_foldl_pair; intro _ _ _ _)
    | intro _
    | split
    | dsimp only

theorem execIslandParkLimit_carries {s₀ : State} {s : State} (island : Nat) (elapsedMs : Nat) (t : State) (ht : (Sys2Proof.Machine.execIslandParkLimit island elapsedMs s) = .next t) (hs : Carries s₀ s) :
    Carries s₀ t := by
  unfold Sys2Proof.Machine.execIslandParkLimit at ht
  obtain rfl := within_some ht
  try dsimp only
  repeat' first
    | with_reducible assumption
    | with_reducible apply State_faultOwner_carries
    | with_reducible apply State_record_carries
    | with_reducible apply State_setCore_carries
    | with_reducible apply State_setIsland_carries
    | with_reducible apply carries_ite
    | with_reducible apply carries_ite_two
    | with_reducible apply carries_ite_one
    | simp only [carries_mk_iff]
    | (with_reducible apply carries_foldl; intro _ _ _)
    | (with_reducible apply carries_foldl_pair; intro _ _ _ _)
    | intro _
    | split
    | dsimp only

theorem execLinamParkDeadline_carries {s₀ : State} {s : State} (island : Nat) (elapsedNs : Nat) (t : State) (ht : (Sys2Proof.Machine.execLinamParkDeadline island elapsedNs s) = .next t) (hs : Carries s₀ s) :
    Carries s₀ t := by
  unfold Sys2Proof.Machine.execLinamParkDeadline at ht
  obtain rfl := within_some ht
  try dsimp only
  repeat' first
    | with_reducible assumption
    | with_reducible apply State_portLost_carries
    | with_reducible apply carries_ite
    | with_reducible apply carries_ite_two
    | with_reducible apply carries_ite_one
    | simp only [carries_mk_iff]
    | (with_reducible apply carries_foldl; intro _ _ _)
    | (with_reducible apply carries_foldl_pair; intro _ _ _ _)
    | intro _
    | split
    | dsimp only

theorem execIdleEntry_carries {s₀ : State} {s : State} (island : Nat) (elapsedNs : Nat) (t : State) (ht : (Sys2Proof.Machine.execIdleEntry island elapsedNs s) = .next t) (hs : Carries s₀ s) :
    Carries s₀ t := by
  unfold Sys2Proof.Machine.execIdleEntry at ht
  obtain rfl := within_some ht
  try dsimp only
  repeat' first
    | with_reducible assumption
    | with_reducible apply State_setIsland_carries
    | with_reducible apply carries_ite
    | with_reducible apply carries_ite_two
    | with_reducible apply carries_ite_one
    | simp only [carries_mk_iff]
    | (with_reducible apply carries_foldl; intro _ _ _)
    | (with_reducible apply carries_foldl_pair; intro _ _ _ _)
    | intro _
    | split
    | dsimp only

theorem execIdleExit_carries {s₀ : State} {s : State} (island : Nat) (t : State) (ht : (Sys2Proof.Machine.execIdleExit island s) = .next t) (hs : Carries s₀ s) :
    Carries s₀ t := by
  unfold Sys2Proof.Machine.execIdleExit at ht
  obtain rfl := within_some ht
  try dsimp only
  repeat' first
    | with_reducible assumption
    | with_reducible apply State_setIsland_carries
    | with_reducible apply carries_ite
    | with_reducible apply carries_ite_two
    | with_reducible apply carries_ite_one
    | simp only [carries_mk_iff]
    | (with_reducible apply carries_foldl; intro _ _ _)
    | (with_reducible apply carries_foldl_pair; intro _ _ _ _)
    | intro _
    | split
    | dsimp only

theorem execSupplyWarning_carries {s₀ : State} {s : State} (x : Supply) (millivolts : Nat) (t : State) (ht : (Sys2Proof.Machine.execSupplyWarning x millivolts s) = .next t) (hs : Carries s₀ s) :
    Carries s₀ t := by
  unfold Sys2Proof.Machine.execSupplyWarning at ht
  obtain rfl := within_some ht
  try dsimp only
  repeat' first
    | with_reducible assumption
    | with_reducible apply State_count_carries
    | with_reducible apply State_sticky_carries
    | with_reducible apply carries_ite
    | with_reducible apply carries_ite_two
    | with_reducible apply carries_ite_one
    | simp only [carries_mk_iff]
    | (with_reducible apply carries_foldl; intro _ _ _)
    | (with_reducible apply carries_foldl_pair; intro _ _ _ _)
    | intro _
    | split
    | dsimp only

theorem execSupplyRecovery_carries {s₀ : State} {s : State} (x : Supply) (millivolts : Nat) (elapsedUs : Nat) (t : State) (ht : (Sys2Proof.Machine.execSupplyRecovery x millivolts elapsedUs s) = .next t) (hs : Carries s₀ s) :
    Carries s₀ t := by
  unfold Sys2Proof.Machine.execSupplyRecovery at ht
  obtain rfl := within_some ht
  try dsimp only
  repeat' first
    | with_reducible assumption
    | with_reducible apply carries_ite
    | with_reducible apply carries_ite_two
    | with_reducible apply carries_ite_one
    | simp only [carries_mk_iff]
    | (with_reducible apply carries_foldl; intro _ _ _)
    | (with_reducible apply carries_foldl_pair; intro _ _ _ _)
    | intro _
    | split
    | dsimp only

theorem State_recordRegulator_carries {s₀ : State} {s : State} (i : Nat) (hs : Carries s₀ s) :
    Carries s₀ (Sys2Proof.Machine.State.recordRegulator s i) := by
  unfold Sys2Proof.Machine.State.recordRegulator
  try dsimp only
  repeat' first
    | with_reducible assumption
    | with_reducible apply State_record_carries
    | with_reducible apply carries_ite
    | with_reducible apply carries_ite_two
    | with_reducible apply carries_ite_one
    | simp only [carries_mk_iff]
    | (with_reducible apply carries_foldl; intro _ _ _)
    | (with_reducible apply carries_foldl_pair; intro _ _ _ _)
    | intro _
    | split
    | dsimp only

theorem execRailBelowReset_carries {s₀ : State} {s : State} (x : Supply) (millivolts : Nat) (dies : DieReport) (t : State) (ht : (Sys2Proof.Machine.execRailBelowReset x millivolts dies s) = .next t) (hs : Carries s₀ s) :
    Carries s₀ t := by
  unfold Sys2Proof.Machine.execRailBelowReset at ht
  obtain rfl := within_some ht
  try dsimp only
  repeat' first
    | with_reducible assumption
    | with_reducible apply State_coldReset_carries
    | with_reducible apply State_coldState_carries
    | with_reducible apply State_recordRegulator_carries
    | with_reducible apply State_sticky_carries
    | with_reducible apply State_withReport_carries
    | with_reducible apply carries_ite
    | with_reducible apply carries_ite_two
    | with_reducible apply carries_ite_one
    | simp only [carries_mk_iff]
    | (with_reducible apply carries_foldl; intro _ _ _)
    | (with_reducible apply carries_foldl_pair; intro _ _ _ _)
    | intro _
    | split
    | dsimp only

theorem execThermalSample_carries {s₀ : State} {s : State} (island : Nat) (celsius : Int) (t : State) (ht : (Sys2Proof.Machine.execThermalSample island celsius s) = .next t) (hs : Carries s₀ s) :
    Carries s₀ t := by
  unfold Sys2Proof.Machine.execThermalSample at ht
  obtain rfl := within_some ht
  try dsimp only
  repeat' first
    | with_reducible assumption
    | with_reducible apply State_capture_carries
    | with_reducible apply State_count_carries
    | with_reducible apply State_faultAll_carries
    | with_reducible apply State_mainDown_carries
    | with_reducible apply State_setIsland_carries
    | with_reducible apply State_sticky_carries
    | with_reducible apply carries_ite
    | with_reducible apply carries_ite_two
    | with_reducible apply carries_ite_one
    | simp only [carries_mk_iff]
    | (with_reducible apply carries_foldl; intro _ _ _)
    | (with_reducible apply carries_foldl_pair; intro _ _ _ _)
    | intro _
    | split
    | dsimp only

theorem execThermalExit_carries {s₀ : State} {s : State} (island : Nat) (celsius : Int) (elapsedUs : Nat) (t : State) (ht : (Sys2Proof.Machine.execThermalExit island celsius elapsedUs s) = .next t) (hs : Carries s₀ s) :
    Carries s₀ t := by
  unfold Sys2Proof.Machine.execThermalExit at ht
  obtain rfl := within_some ht
  try dsimp only
  repeat' first
    | with_reducible assumption
    | with_reducible apply State_setIsland_carries
    | with_reducible apply carries_ite
    | with_reducible apply carries_ite_two
    | with_reducible apply carries_ite_one
    | simp only [carries_mk_iff]
    | (with_reducible apply carries_foldl; intro _ _ _)
    | (with_reducible apply carries_foldl_pair; intro _ _ _ _)
    | intro _
    | split
    | dsimp only

theorem execThermalTripHoldoff_carries {s₀ : State} {s : State} (elapsedS : Nat) (t : State) (ht : (Sys2Proof.Machine.execThermalTripHoldoff elapsedS s) = .next t) (hs : Carries s₀ s) :
    Carries s₀ t := by
  unfold Sys2Proof.Machine.execThermalTripHoldoff at ht
  obtain rfl := within_some ht
  try dsimp only
  repeat' first
    | with_reducible assumption
    | with_reducible apply carries_ite
    | with_reducible apply carries_ite_two
    | with_reducible apply carries_ite_one
    | simp only [carries_mk_iff]
    | (with_reducible apply carries_foldl; intro _ _ _)
    | (with_reducible apply carries_foldl_pair; intro _ _ _ _)
    | intro _
    | split
    | dsimp only

theorem execPowerSample_carries {s₀ : State} {s : State} (avg : Nat) (watts : Nat) (t : State) (ht : (Sys2Proof.Machine.execPowerSample avg watts s) = .next t) (hs : Carries s₀ s) :
    Carries s₀ t := by
  unfold Sys2Proof.Machine.execPowerSample at ht
  obtain rfl := within_some ht
  try dsimp only
  repeat' first
    | with_reducible assumption
    | with_reducible apply State_count_carries
    | with_reducible apply State_setOd_carries
    | with_reducible apply State_sticky_carries
    | with_reducible apply carries_ite
    | with_reducible apply carries_ite_two
    | with_reducible apply carries_ite_one
    | simp only [carries_mk_iff]
    | (with_reducible apply carries_foldl; intro _ _ _)
    | (with_reducible apply carries_foldl_pair; intro _ _ _ _)
    | intro _
    | split
    | dsimp only

end Sys2Proof.Laws
end

