-- ==== Sys2Proof/Laws/Protection.lean ====
section
/-! SUPPORT. What the functions of Machine/Protection.lean leave alone (`Carries`). -/

namespace Sys2Proof.Laws

open Sys2Proof Sys2Proof.Machine

theorem State_updateFirmware_carries {s₀ : State} {s : State} (bs : List Byte) (hs : Carries s₀ s) :
    Carries s₀ (Sys2Proof.Machine.State.updateFirmware s bs) := by
  unfold Sys2Proof.Machine.State.updateFirmware
  try dsimp only
  repeat' first
    | with_reducible assumption
    | with_reducible apply State_setOd_carries
    | with_reducible apply carries_ite
    | with_reducible apply carries_ite_two
    | with_reducible apply carries_ite_one
    | simp only [carries_mk_iff]
    | (with_reducible apply carries_foldl; intro _ _ _)
    | (with_reducible apply carries_foldl_pair; intro _ _ _ _)
    | intro _
    | split
    | dsimp only

theorem State_endSessions_carries {s₀ : State} {s : State} (f : Nat → Bool) (hs : Carries s₀ s) :
    Carries s₀ (Sys2Proof.Machine.State.endSessions s f) := by
  unfold Sys2Proof.Machine.State.endSessions
  try dsimp only
  repeat' first
    | with_reducible assumption
    | with_reducible apply carries_ite
    | with_reducible apply carries_ite_two
    | with_reducible apply carries_ite_one
    | simp only [carries_mk_iff]
    | (with_reducible apply carries_foldl; intro _ _ _)
    | (with_reducible apply carries_foldl_pair; intro _ _ _ _)
    | intro _
    | split
    | dsimp only

theorem State_releaseOwnership_carries {s₀ : State} {s : State}  (hs : Carries s₀ s) :
    Carries s₀ (Sys2Proof.Machine.State.releaseOwnership s) := by
  unfold Sys2Proof.Machine.State.releaseOwnership
  try dsimp only
  repeat' first
    | with_reducible assumption
    | with_reducible apply State_endSessions_carries
    | with_reducible apply State_setOd_carries
    | with_reducible apply carries_ite
    | with_reducible apply carries_ite_two
    | with_reducible apply carries_ite_one
    | simp only [carries_mk_iff]
    | (with_reducible apply carries_foldl; intro _ _ _)
    | (with_reducible apply carries_foldl_pair; intro _ _ _ _)
    | intro _
    | split
    | dsimp only

theorem State_unlock_carries {s₀ : State} {s : State} (v : Nat) (hs : Carries s₀ s) :
    Carries s₀ (Sys2Proof.Machine.State.unlock s v) := by
  unfold Sys2Proof.Machine.State.unlock
  try dsimp only
  repeat' first
    | with_reducible assumption
    | with_reducible apply State_setOd_carries
    | with_reducible apply carries_ite
    | with_reducible apply carries_ite_two
    | with_reducible apply carries_ite_one
    | simp only [carries_mk_iff]
    | (with_reducible apply carries_foldl; intro _ _ _)
    | (with_reducible apply carries_foldl_pair; intro _ _ _ _)
    | intro _
    | split
    | dsimp only

theorem State_rw2Apply_carries {s₀ : State} {s : State} (key : Nat) (v : Nat) (hs : Carries s₀ s) :
    Carries s₀ (Sys2Proof.Machine.State.rw2Apply s key v) := by
  unfold Sys2Proof.Machine.State.rw2Apply
  try dsimp only
  repeat' first
    | with_reducible assumption
    | with_reducible apply State_endSessions_carries
    | with_reducible apply State_releaseOwnership_carries
    | with_reducible apply State_setOd_carries
    | with_reducible apply State_unlock_carries
    | with_reducible apply carries_ite
    | with_reducible apply carries_ite_two
    | with_reducible apply carries_ite_one
    | simp only [carries_mk_iff]
    | (with_reducible apply carries_foldl; intro _ _ _)
    | (with_reducible apply carries_foldl_pair; intro _ _ _ _)
    | intro _
    | split
    | dsimp only

theorem State_setStaged_carries {s₀ : State} {s : State} (c : Option StagedChange) (hs : Carries s₀ s) :
    Carries s₀ (Sys2Proof.Machine.State.setStaged s c) := by
  unfold Sys2Proof.Machine.State.setStaged
  try dsimp only
  repeat' first
    | with_reducible assumption
    | with_reducible apply carries_ite
    | with_reducible apply carries_ite_two
    | with_reducible apply carries_ite_one
    | simp only [carries_mk_iff]
    | (with_reducible apply carries_foldl; intro _ _ _)
    | (with_reducible apply carries_foldl_pair; intro _ _ _ _)
    | intro _
    | split
    | dsimp only

theorem State_authFails_carries {s₀ : State} {s : State}  (hs : Carries s₀ s) :
    Carries s₀ (Sys2Proof.Machine.State.authFails s).2 := by
  unfold Sys2Proof.Machine.State.authFails
  try dsimp only
  repeat' first
    | with_reducible assumption
    | with_reducible apply State_count_carries
    | with_reducible apply carries_ite
    | with_reducible apply carries_ite_two
    | with_reducible apply carries_ite_one
    | simp only [carries_mk_iff]
    | (with_reducible apply carries_foldl; intro _ _ _)
    | (with_reducible apply carries_foldl_pair; intro _ _ _ _)
    | intro _
    | split
    | dsimp only

theorem State_twoParty_carries {s₀ : State} {s : State} (key : Nat) (value : List Byte) (ao : List Byte) (hs : Carries s₀ s) :
    Carries s₀ (Sys2Proof.Machine.State.twoParty s key value ao).2 := by
  unfold Sys2Proof.Machine.State.twoParty
  try dsimp only
  repeat' first
    | with_reducible assumption
    | with_reducible apply State_authFails_carries
    | with_reducible apply State_redraw_carries
    | with_reducible apply State_refused_carries
    | with_reducible apply State_rw2Apply_carries
    | with_reducible apply State_setStaged_carries
    | with_reducible apply carries_ite
    | with_reducible apply carries_ite_two
    | with_reducible apply carries_ite_one
    | simp only [carries_mk_iff]
    | (with_reducible apply carries_foldl; intro _ _ _)
    | (with_reducible apply carries_foldl_pair; intro _ _ _ _)
    | intro _
    | split
    | dsimp only

theorem State_enrol_carries {s₀ : State} {s : State} (key : Nat) (value : List Byte) (privileged : Bool) (hs : Carries s₀ s) :
    Carries s₀ (Sys2Proof.Machine.State.enrol s key value privileged).2 := by
  unfold Sys2Proof.Machine.State.enrol
  try dsimp only
  repeat' first
    | with_reducible assumption
    | with_reducible apply State_refused_carries
    | with_reducible apply State_setOd_carries
    | with_reducible apply carries_ite
    | with_reducible apply carries_ite_two
    | with_reducible apply carries_ite_one
    | simp only [carries_mk_iff]
    | (with_reducible apply carries_foldl; intro _ _ _)
    | (with_reducible apply carries_foldl_pair; intro _ _ _ _)
    | intro _
    | split
    | dsimp only

theorem State_rw2Close_carries {s₀ : State} {s : State} (key : Nat) (bs : List Byte) (privileged : Bool) (hs : Carries s₀ s) :
    Carries s₀ (Sys2Proof.Machine.State.rw2Close s key bs privileged).2 := by
  unfold Sys2Proof.Machine.State.rw2Close
  try dsimp only
  repeat' first
    | with_reducible assumption
    | with_reducible apply State_enrol_carries
    | with_reducible apply State_refused_carries
    | with_reducible apply State_twoParty_carries
    | with_reducible apply carries_ite
    | with_reducible apply carries_ite_two
    | with_reducible apply carries_ite_one
    | simp only [carries_mk_iff]
    | (with_reducible apply carries_foldl; intro _ _ _)
    | (with_reducible apply carries_foldl_pair; intro _ _ _ _)
    | intro _
    | split
    | dsimp only

theorem execStagedChangeExpiry_carries {s₀ : State} {s : State} (elapsedS : Nat) (t : State) (ht : (Sys2Proof.Machine.execStagedChangeExpiry elapsedS s) = .next t) (hs : Carries s₀ s) :
    Carries s₀ t := by
  unfold Sys2Proof.Machine.execStagedChangeExpiry at ht
  obtain rfl := within_some ht
  try dsimp only
  repeat' first
    | with_reducible assumption
    | with_reducible apply State_count_carries
    | with_reducible apply State_redraw_carries
    | with_reducible apply State_setStaged_carries
    | with_reducible apply carries_ite
    | with_reducible apply carries_ite_two
    | with_reducible apply carries_ite_one
    | simp only [carries_mk_iff]
    | (with_reducible apply carries_foldl; intro _ _ _)
    | (with_reducible apply carries_foldl_pair; intro _ _ _ _)
    | intro _
    | split
    | dsimp only

end Sys2Proof.Laws
end

