-- ==== Sys2Proof/Laws/Dictionary.lean ====
section
/-! SUPPORT. What the functions of Machine/Dictionary.lean leave alone (`Carries`). -/

namespace Sys2Proof.Laws

open Sys2Proof Sys2Proof.Machine

theorem State_writeDigest_carries {s₀ : State} {s : State} (v : Nat) (hs : Carries s₀ s) :
    Carries s₀ (Sys2Proof.Machine.State.writeDigest s v).2 := by
  unfold Sys2Proof.Machine.State.writeDigest
  try dsimp only
  repeat' first
    | with_reducible assumption
    | with_reducible apply State_digestPass_carries
    | with_reducible apply State_refused_carries
    | with_reducible apply carries_ite
    | with_reducible apply carries_ite_two
    | with_reducible apply carries_ite_one
    | simp only [carries_mk_iff]
    | (with_reducible apply carries_foldl; intro _ _ _)
    | (with_reducible apply carries_foldl_pair; intro _ _ _ _)
    | intro _
    | split
    | dsimp only

theorem State_writeCommit_carries {s₀ : State} {s : State} (v : Nat) (hs : Carries s₀ s) :
    Carries s₀ (Sys2Proof.Machine.State.writeCommit s v).2 := by
  unfold Sys2Proof.Machine.State.writeCommit
  try dsimp only
  repeat' first
    | with_reducible assumption
    | with_reducible apply State_commitPoints_carries
    | with_reducible apply State_refused_carries
    | with_reducible apply carries_ite
    | with_reducible apply carries_ite_two
    | with_reducible apply carries_ite_one
    | simp only [carries_mk_iff]
    | (with_reducible apply carries_foldl; intro _ _ _)
    | (with_reducible apply carries_foldl_pair; intro _ _ _ _)
    | intro _
    | split
    | dsimp only

theorem State_enablePort_carries {s₀ : State} {s : State} (p : Nat) (v : Nat) (hs : Carries s₀ s) :
    Carries s₀ (Sys2Proof.Machine.State.enablePort s p v) := by
  unfold Sys2Proof.Machine.State.enablePort
  try dsimp only
  repeat' first
    | with_reducible assumption
    | with_reducible apply State_portLost_carries
    | with_reducible apply State_setOd_carries
    | with_reducible apply carries_ite
    | with_reducible apply carries_ite_two
    | with_reducible apply carries_ite_one
    | simp only [carries_mk_iff]
    | (with_reducible apply carries_foldl; intro _ _ _)
    | (with_reducible apply carries_foldl_pair; intro _ _ _ _)
    | intro _
    | split
    | dsimp only

theorem State_writeBuddy_carries {s₀ : State} {s : State} (v : Nat) (hs : Carries s₀ s) :
    Carries s₀ (Sys2Proof.Machine.State.writeBuddy s v).2 := by
  unfold Sys2Proof.Machine.State.writeBuddy
  try dsimp only
  repeat' first
    | with_reducible assumption
    | with_reducible apply State_setBuddy_carries
    | with_reducible apply carries_ite
    | with_reducible apply carries_ite_two
    | with_reducible apply carries_ite_one
    | simp only [carries_mk_iff]
    | (with_reducible apply carries_foldl; intro _ _ _)
    | (with_reducible apply carries_foldl_pair; intro _ _ _ _)
    | intro _
    | split
    | dsimp only

theorem State_applyEntry_carries {s₀ : State} {s : State} (key : Nat) (v : Nat) (hs : Carries s₀ s) :
    Carries s₀ (Sys2Proof.Machine.State.applyEntry s key v).2 := by
  unfold Sys2Proof.Machine.State.applyEntry
  try dsimp only
  repeat' first
    | with_reducible assumption
    | with_reducible apply State_buddySend_carries
    | with_reducible apply State_clearCapture_carries
    | with_reducible apply State_clearSticky_carries
    | with_reducible apply State_drainCkpt_carries
    | with_reducible apply State_enablePort_carries
    | with_reducible apply State_latchNow_carries
    | with_reducible apply State_powerRequest_carries
    | with_reducible apply State_requestCkpt_carries
    | with_reducible apply State_resetPorts_carries
    | with_reducible apply State_restoreAny_carries
    | with_reducible apply State_serveCkpt_carries
    | with_reducible apply State_setMode_carries
    | with_reducible apply State_setOd_carries
    | with_reducible apply State_setProfile_carries
    | with_reducible apply State_ttLoad_carries
    | with_reducible apply State_writeBuddy_carries
    | with_reducible apply State_writeCommit_carries
    | with_reducible apply State_writeDigest_carries
    | with_reducible apply State_writeReset_carries
    | with_reducible apply carries_ite
    | with_reducible apply carries_ite_two
    | with_reducible apply carries_ite_one
    | simp only [carries_mk_iff]
    | (with_reducible apply carries_foldl; intro _ _ _)
    | (with_reducible apply carries_foldl_pair; intro _ _ _ _)
    | intro _
    | split
    | dsimp only

theorem State_writeOd_carries {s₀ : State} {s : State} (key : Nat) (i : OdInfo) (v : Nat) (hs : Carries s₀ s) :
    Carries s₀ (Sys2Proof.Machine.State.writeOd s key i v).2 := by
  unfold Sys2Proof.Machine.State.writeOd
  try dsimp only
  repeat' first
    | with_reducible assumption
    | with_reducible apply State_applyEntry_carries
    | with_reducible apply State_refused_carries
    | with_reducible apply carries_ite
    | with_reducible apply carries_ite_two
    | with_reducible apply carries_ite_one
    | simp only [carries_mk_iff]
    | (with_reducible apply carries_foldl; intro _ _ _)
    | (with_reducible apply carries_foldl_pair; intro _ _ _ _)
    | intro _
    | split
    | dsimp only

theorem State_closeDomain_carries {s₀ : State} {s : State} (key : Nat) (bs : List Byte) (hs : Carries s₀ s) :
    Carries s₀ (Sys2Proof.Machine.State.closeDomain s key bs).2 := by
  unfold Sys2Proof.Machine.State.closeDomain
  try dsimp only
  repeat' first
    | with_reducible assumption
    | with_reducible apply State_refused_carries
    | with_reducible apply State_setOd_carries
    | with_reducible apply State_updateFirmware_carries
    | with_reducible apply carries_ite
    | with_reducible apply carries_ite_two
    | with_reducible apply carries_ite_one
    | simp only [carries_mk_iff]
    | (with_reducible apply carries_foldl; intro _ _ _)
    | (with_reducible apply carries_foldl_pair; intro _ _ _ _)
    | intro _
    | split
    | dsimp only

theorem State_setSegment_carries {s₀ : State} {s : State} (path : Nat) (g : Option Segments) (hs : Carries s₀ s) :
    Carries s₀ (Sys2Proof.Machine.State.setSegment s path g) := by
  unfold Sys2Proof.Machine.State.setSegment
  try dsimp only
  repeat' first
    | with_reducible assumption
    | with_reducible apply carries_ite
    | with_reducible apply carries_ite_two
    | with_reducible apply carries_ite_one
    | simp only [carries_mk_iff]
    | (with_reducible apply carries_foldl; intro _ _ _)
    | (with_reducible apply carries_foldl_pair; intro _ _ _ _)
    | intro _
    | split
    | dsimp only

theorem State_writeSegment_carries {s₀ s : State} (path key offset : Nat) (bs : List Byte) (last : Bool) (close : State → List Byte → Wrote)
    (hc : ∀ s v, Carries s₀ s → Carries s₀ (close s v).2) (hs : Carries s₀ s) :
    Carries s₀ (Sys2Proof.Machine.State.writeSegment s path key offset bs last close).2 := by
  unfold Sys2Proof.Machine.State.writeSegment
  dsimp only
  split
  · exact State_setSegment_carries _ _ hs
  · exact carries_ite_two (State_setSegment_carries _ _ hs) (carries_ite_two (hc _ _ (State_setSegment_carries _ _ hs)) (State_setSegment_carries _ _ hs))

end Sys2Proof.Laws
end

