-- ==== Sys2Proof/Laws/Requests.lean ====
section
/-! SUPPORT. What the functions of Machine/Requests.lean leave alone (`Carries`). -/

namespace Sys2Proof.Laws

open Sys2Proof Sys2Proof.Machine

theorem State_fnQueue_carries {s₀ : State} {s : State} (out : HostOut) (settles : Bool) (hs : Carries s₀ s) :
    Carries s₀ (Sys2Proof.Machine.State.fnQueue s out settles) := by
  unfold Sys2Proof.Machine.State.fnQueue
  try dsimp only
  repeat' first
    | with_reducible assumption
    | with_reducible apply carries_ite
    | with_reducible apply carries_ite_two
    | with_reducible apply carries_ite_one
    | simp only [carries_mk_iff]
    | (with_reducible apply carries_foldl; intro _ _ _)
    | (with_reducible apply carries_foldl_pair; intro _ _ _ _)
    | intro _
    | split
    | dsimp only

theorem State_serveWrite_carries {s₀ : State} {s : State} (role : Role) (path : Nat) (bs : List Byte) (hs : Carries s₀ s) :
    Carries s₀ (Sys2Proof.Machine.State.serveWrite s role path bs).2 := by
  unfold Sys2Proof.Machine.State.serveWrite
  try dsimp only
  repeat' first
    | with_reducible assumption
    | with_reducible apply State_closeDomain_carries
    | with_reducible apply State_refused_carries
    | with_reducible apply State_rw2Close_carries
    | with_reducible apply State_writeOd_carries
    | with_reducible apply State_writeSegment_carries
    | with_reducible apply carries_ite
    | with_reducible apply carries_ite_two
    | with_reducible apply carries_ite_one
    | simp only [carries_mk_iff]
    | (with_reducible apply carries_foldl; intro _ _ _)
    | (with_reducible apply carries_foldl_pair; intro _ _ _ _)
    | intro _
    | split
    | dsimp only

theorem State_keepPacket_carries {s₀ : State} {s : State} (path : OdPath) (bs : List Byte) (hs : Carries s₀ s) :
    Carries s₀ (Sys2Proof.Machine.State.keepPacket s path bs) := by
  unfold Sys2Proof.Machine.State.keepPacket
  try dsimp only
  repeat' first
    | with_reducible assumption
    | with_reducible apply carries_ite
    | with_reducible apply carries_ite_two
    | with_reducible apply carries_ite_one
    | simp only [carries_mk_iff]
    | (with_reducible apply carries_foldl; intro _ _ _)
    | (with_reducible apply carries_foldl_pair; intro _ _ _ _)
    | intro _
    | split
    | dsimp only

theorem State_serveOne_carries {s₀ s : State} (role : Role) (path : OdPath) (bs : List Byte) (hs : Carries s₀ s) :
    Carries s₀ (Sys2Proof.Machine.State.serveOne s role path bs).state := by
  unfold Sys2Proof.Machine.State.serveOne
  split
  · unfold State.serveRead
    dsimp only
    split
    · exact hs
    · split
      · exact hs
      · split
        · exact hs
        · split
          · exact hs
          · exact hs
  · exact State_serveWrite_carries _ _ _ hs
  · exact State_serveWrite_carries _ _ _ hs
  · exact State_serveWrite_carries _ _ _ hs
  · exact State_serveWrite_carries _ _ _ hs
  · split
    · exact hs
    · exact State_keepPacket_carries _ _ hs
  · exact hs

theorem execMbxGo_carries {s₀ : State} {s : State} (port : Nat) (t : State) (ht : (Sys2Proof.Machine.execMbxGo port s) = .next t) (hs : Carries s₀ s) :
    Carries s₀ t := by
  unfold Sys2Proof.Machine.execMbxGo at ht
  obtain rfl := within_some ht
  try dsimp only
  repeat' first
    | with_reducible assumption
    | with_reducible apply State_setPort_carries
    | with_reducible apply carries_ite
    | with_reducible apply carries_ite_two
    | with_reducible apply carries_ite_one
    | simp only [carries_mk_iff]
    | (with_reducible apply carries_foldl; intro _ _ _)
    | (with_reducible apply carries_foldl_pair; intro _ _ _ _)
    | intro _
    | split
    | dsimp only

theorem State_mailboxAnswer_carries {s₀ : State} {s : State} (port : Nat) (resp : List Byte) (hs : Carries s₀ s) :
    Carries s₀ (Sys2Proof.Machine.State.mailboxAnswer s port resp) := by
  unfold Sys2Proof.Machine.State.mailboxAnswer
  try dsimp only
  repeat' first
    | with_reducible assumption
    | with_reducible apply State_raise_carries
    | with_reducible apply State_setOd_carries
    | with_reducible apply State_setPort_carries
    | with_reducible apply carries_ite
    | with_reducible apply carries_ite_two
    | with_reducible apply carries_ite_one
    | simp only [carries_mk_iff]
    | (with_reducible apply carries_foldl; intro _ _ _)
    | (with_reducible apply carries_foldl_pair; intro _ _ _ _)
    | intro _
    | split
    | dsimp only

theorem State_serveMailbox_carries {s₀ : State} {s : State} (port : Nat) (bs : List Byte) (hs : Carries s₀ s) :
    Carries s₀ (Sys2Proof.Machine.State.serveMailbox s port bs) := by
  unfold Sys2Proof.Machine.State.serveMailbox
  dsimp only
  refine carries_ite ?_ (State_mailboxAnswer_carries _ _ (State_serveOne_carries _ _ _ hs))
  exact State_writeReset_carries _ (State_mailboxAnswer_carries _ _ hs)

theorem State_keepResponse_carries {s₀ : State} {s : State} (addr : Nat) (xid : Nat) (resp : List Byte) (hs : Carries s₀ s) :
    Carries s₀ (Sys2Proof.Machine.State.keepResponse s addr xid resp) := by
  unfold Sys2Proof.Machine.State.keepResponse
  try dsimp only
  repeat' first
    | with_reducible assumption
    | with_reducible apply carries_ite
    | with_reducible apply carries_ite_two
    | with_reducible apply carries_ite_one
    | simp only [carries_mk_iff]
    | (with_reducible apply carries_foldl; intro _ _ _)
    | (with_reducible apply carries_foldl_pair; intro _ _ _ _)
    | intro _
    | split
    | dsimp only

theorem State_todpAnswer_carries {s₀ : State} {s : State} (addr : Nat) (udpPort : Nat) (xid : Nat) (status : Nat) (resp : List Byte) (settles : Bool) (hs : Carries s₀ s) :
    Carries s₀ (Sys2Proof.Machine.State.todpAnswer s addr udpPort xid status resp settles) := by
  unfold Sys2Proof.Machine.State.todpAnswer
  try dsimp only
  repeat' first
    | with_reducible assumption
    | with_reducible apply State_count_carries
    | with_reducible apply State_fnQueue_carries
    | with_reducible apply State_keepResponse_carries
    | with_reducible apply carries_ite
    | with_reducible apply carries_ite_two
    | with_reducible apply carries_ite_one
    | simp only [carries_mk_iff]
    | (with_reducible apply carries_foldl; intro _ _ _)
    | (with_reducible apply carries_foldl_pair; intro _ _ _ _)
    | intro _
    | split
    | dsimp only

theorem State_todpFrame_carries {s₀ s : State} (addr udpPort : Nat) (bs : List Byte) (serve : State → State)
    (hv : ∀ s, Carries s₀ s → Carries s₀ (serve s)) (hs : Carries s₀ s) :
    Carries s₀ (Sys2Proof.Machine.State.todpFrame s addr udpPort bs serve) := by
  unfold Sys2Proof.Machine.State.todpFrame
  dsimp only
  have h := State_count_carries Od.FN_FRAMES_RX 1 hs
  refine carries_ite hs (carries_ite h ?_)
  split
  · exact State_count_carries _ _ (State_fnQueue_carries _ _ h)
  · exact hv _ h

theorem State_fnFlush_carries {s₀ : State} {s : State}  (hs : Carries s₀ s) :
    Carries s₀ (Sys2Proof.Machine.State.fnFlush s) := by
  unfold Sys2Proof.Machine.State.fnFlush
  try dsimp only
  repeat' first
    | with_reducible assumption
    | with_reducible apply State_count_carries
    | with_reducible apply State_emit_carries
    | with_reducible apply carries_ite
    | with_reducible apply carries_ite_two
    | with_reducible apply carries_ite_one
    | simp only [carries_mk_iff]
    | (with_reducible apply carries_foldl; intro _ _ _)
    | (with_reducible apply carries_foldl_pair; intro _ _ _ _)
    | intro _
    | split
    | dsimp only

theorem State_serveTodp_carries {s₀ : State} {s : State} (addr : Nat) (udpPort : Nat) (bs : List Byte) (hs : Carries s₀ s) :
    Carries s₀ (Sys2Proof.Machine.State.serveTodp s addr udpPort bs) := by
  unfold Sys2Proof.Machine.State.serveTodp
  exact State_todpFrame_carries _ _ _ _ (fun s h => State_todpAnswer_carries _ _ _ _ _ _ (State_serveOne_carries _ _ _ h)) hs

theorem State_serveFrame_carries {s₀ : State} {s : State} (path : OdPath) (bs : List Byte) (mine : FrameKind → Bool) (hs : Carries s₀ s) :
    Carries s₀ (Sys2Proof.Machine.State.serveFrame s path bs mine) := by
  unfold Sys2Proof.Machine.State.serveFrame
  try dsimp only
  repeat' first
    | with_reducible assumption
    | with_reducible apply State_serveMailbox_carries
    | with_reducible apply State_serveTodp_carries
    | with_reducible apply carries_ite
    | with_reducible apply carries_ite_two
    | with_reducible apply carries_ite_one
    | simp only [carries_mk_iff]
    | (with_reducible apply carries_foldl; intro _ _ _)
    | (with_reducible apply carries_foldl_pair; intro _ _ _ _)
    | intro _
    | split
    | dsimp only

theorem execOdRead_carries {s₀ : State} {s : State} (path : OdPath) (frame : List Byte) (t : State) (ht : (Sys2Proof.Machine.execOdRead path frame s) = .next t) (hs : Carries s₀ s) :
    Carries s₀ t := by
  unfold Sys2Proof.Machine.execOdRead at ht
  obtain rfl := within_some ht
  try dsimp only
  repeat' first
    | with_reducible assumption
    | with_reducible apply State_serveFrame_carries
    | with_reducible apply carries_ite
    | with_reducible apply carries_ite_two
    | with_reducible apply carries_ite_one
    | simp only [carries_mk_iff]
    | (with_reducible apply carries_foldl; intro _ _ _)
    | (with_reducible apply carries_foldl_pair; intro _ _ _ _)
    | intro _
    | split
    | dsimp only

theorem execOdWrite_carries {s₀ : State} {s : State} (path : OdPath) (frame : List Byte) (t : State) (ht : (Sys2Proof.Machine.execOdWrite path frame s) = .next t) (hs : Carries s₀ s) :
    Carries s₀ t := by
  unfold Sys2Proof.Machine.execOdWrite at ht
  obtain rfl := within_some ht
  try dsimp only
  repeat' first
    | with_reducible assumption
    | with_reducible apply State_serveFrame_carries
    | with_reducible apply carries_ite
    | with_reducible apply carries_ite_two
    | with_reducible apply carries_ite_one
    | simp only [carries_mk_iff]
    | (with_reducible apply carries_foldl; intro _ _ _)
    | (with_reducible apply carries_foldl_pair; intro _ _ _ _)
    | intro _
    | split
    | dsimp only

theorem execDomainSegmentWrite_carries {s₀ : State} {s : State} (path : OdPath) (frame : List Byte) (t : State) (ht : (Sys2Proof.Machine.execDomainSegmentWrite path frame s) = .next t) (hs : Carries s₀ s) :
    Carries s₀ t := by
  unfold Sys2Proof.Machine.execDomainSegmentWrite at ht
  obtain rfl := within_some ht
  try dsimp only
  repeat' first
    | with_reducible assumption
    | with_reducible apply State_serveFrame_carries
    | with_reducible apply carries_ite
    | with_reducible apply carries_ite_two
    | with_reducible apply carries_ite_one
    | simp only [carries_mk_iff]
    | (with_reducible apply carries_foldl; intro _ _ _)
    | (with_reducible apply carries_foldl_pair; intro _ _ _ _)
    | intro _
    | split
    | dsimp only

theorem execMctp_carries {s₀ : State} {s : State} (path : OdPath) (frame : List Byte) (t : State) (ht : (Sys2Proof.Machine.execMctp path frame s) = .next t) (hs : Carries s₀ s) :
    Carries s₀ t := by
  unfold Sys2Proof.Machine.execMctp at ht
  obtain rfl := within_some ht
  try dsimp only
  repeat' first
    | with_reducible assumption
    | with_reducible apply State_serveFrame_carries
    | with_reducible apply carries_ite
    | with_reducible apply carries_ite_two
    | with_reducible apply carries_ite_one
    | simp only [carries_mk_iff]
    | (with_reducible apply carries_foldl; intro _ _ _)
    | (with_reducible apply carries_foldl_pair; intro _ _ _ _)
    | intro _
    | split
    | dsimp only

theorem execRw2Write_carries {s₀ : State} {s : State} (path : OdPath) (frame : List Byte) (t : State) (ht : (Sys2Proof.Machine.execRw2Write path frame s) = .next t) (hs : Carries s₀ s) :
    Carries s₀ t := by
  unfold Sys2Proof.Machine.execRw2Write at ht
  obtain rfl := within_some ht
  try dsimp only
  repeat' first
    | with_reducible assumption
    | with_reducible apply State_serveFrame_carries
    | with_reducible apply carries_ite
    | with_reducible apply carries_ite_two
    | with_reducible apply carries_ite_one
    | simp only [carries_mk_iff]
    | (with_reducible apply carries_foldl; intro _ _ _)
    | (with_reducible apply carries_foldl_pair; intro _ _ _ _)
    | intro _
    | split
    | dsimp only

theorem State_serveEntry_carries {s₀ : State} {s : State} (path : OdPath) (frame : List Byte) (keys : List Nat) (hs : Carries s₀ s) :
    Carries s₀ (Sys2Proof.Machine.State.serveEntry s path frame keys) := by
  unfold Sys2Proof.Machine.State.serveEntry
  try dsimp only
  repeat' first
    | with_reducible assumption
    | with_reducible apply State_serveFrame_carries
    | with_reducible apply carries_ite
    | with_reducible apply carries_ite_two
    | with_reducible apply carries_ite_one
    | simp only [carries_mk_iff]
    | (with_reducible apply carries_foldl; intro _ _ _)
    | (with_reducible apply carries_foldl_pair; intro _ _ _ _)
    | intro _
    | split
    | dsimp only

theorem execAuthCancel_carries {s₀ : State} {s : State} (path : OdPath) (frame : List Byte) (t : State) (ht : (Sys2Proof.Machine.execAuthCancel path frame s) = .next t) (hs : Carries s₀ s) :
    Carries s₀ t := by
  unfold Sys2Proof.Machine.execAuthCancel at ht
  obtain rfl := within_some ht
  try dsimp only
  repeat' first
    | with_reducible assumption
    | with_reducible apply State_serveEntry_carries
    | with_reducible apply carries_ite
    | with_reducible apply carries_ite_two
    | with_reducible apply carries_ite_one
    | simp only [carries_mk_iff]
    | (with_reducible apply carries_foldl; intro _ _ _)
    | (with_reducible apply carries_foldl_pair; intro _ _ _ _)
    | intro _
    | split
    | dsimp only

theorem execKeyEnrol_carries {s₀ : State} {s : State} (path : OdPath) (frame : List Byte) (t : State) (ht : (Sys2Proof.Machine.execKeyEnrol path frame s) = .next t) (hs : Carries s₀ s) :
    Carries s₀ t := by
  unfold Sys2Proof.Machine.execKeyEnrol at ht
  obtain rfl := within_some ht
  try dsimp only
  repeat' first
    | with_reducible assumption
    | with_reducible apply State_serveEntry_carries
    | with_reducible apply carries_ite
    | with_reducible apply carries_ite_two
    | with_reducible apply carries_ite_one
    | simp only [carries_mk_iff]
    | (with_reducible apply carries_foldl; intro _ _ _)
    | (with_reducible apply carries_foldl_pair; intro _ _ _ _)
    | intro _
    | split
    | dsimp only

theorem execOwnershipRelease_carries {s₀ : State} {s : State} (path : OdPath) (frame : List Byte) (t : State) (ht : (Sys2Proof.Machine.execOwnershipRelease path frame s) = .next t) (hs : Carries s₀ s) :
    Carries s₀ t := by
  unfold Sys2Proof.Machine.execOwnershipRelease at ht
  obtain rfl := within_some ht
  try dsimp only
  repeat' first
    | with_reducible assumption
    | with_reducible apply State_serveEntry_carries
    | with_reducible apply carries_ite
    | with_reducible apply carries_ite_two
    | with_reducible apply carries_ite_one
    | simp only [carries_mk_iff]
    | (with_reducible apply carries_foldl; intro _ _ _)
    | (with_reducible apply carries_foldl_pair; intro _ _ _ _)
    | intro _
    | split
    | dsimp only

theorem execDebugUnlock_carries {s₀ : State} {s : State} (path : OdPath) (frame : List Byte) (t : State) (ht : (Sys2Proof.Machine.execDebugUnlock path frame s) = .next t) (hs : Carries s₀ s) :
    Carries s₀ t := by
  unfold Sys2Proof.Machine.execDebugUnlock at ht
  obtain rfl := within_some ht
  try dsimp only
  repeat' first
    | with_reducible assumption
    | with_reducible apply State_serveEntry_carries
    | with_reducible apply carries_ite
    | with_reducible apply carries_ite_two
    | with_reducible apply carries_ite_one
    | simp only [carries_mk_iff]
    | (with_reducible apply carries_foldl; intro _ _ _)
    | (with_reducible apply carries_foldl_pair; intro _ _ _ _)
    | intro _
    | split
    | dsimp only

theorem execFwUpdate_carries {s₀ : State} {s : State} (path : OdPath) (frame : List Byte) (t : State) (ht : (Sys2Proof.Machine.execFwUpdate path frame s) = .next t) (hs : Carries s₀ s) :
    Carries s₀ t := by
  unfold Sys2Proof.Machine.execFwUpdate at ht
  obtain rfl := within_some ht
  try dsimp only
  repeat' first
    | with_reducible assumption
    | with_reducible apply State_serveEntry_carries
    | with_reducible apply carries_ite
    | with_reducible apply carries_ite_two
    | with_reducible apply carries_ite_one
    | simp only [carries_mk_iff]
    | (with_reducible apply carries_foldl; intro _ _ _)
    | (with_reducible apply carries_foldl_pair; intro _ _ _ _)
    | intro _
    | split
    | dsimp only

theorem execDiscover_carries {s₀ : State} {s : State} (addr : Nat) (udpPort : Nat) (frame : List Byte) (t : State) (ht : (Sys2Proof.Machine.execDiscover addr udpPort frame s) = .next t) (hs : Carries s₀ s) :
    Carries s₀ t := by
  unfold Sys2Proof.Machine.execDiscover at ht
  obtain rfl := within_some ht
  try dsimp only
  repeat' first
    | with_reducible assumption
    | with_reducible apply State_todpAnswer_carries
    | with_reducible apply State_todpFrame_carries
    | with_reducible apply carries_ite
    | with_reducible apply carries_ite_two
    | with_reducible apply carries_ite_one
    | simp only [carries_mk_iff]
    | (with_reducible apply carries_foldl; intro _ _ _)
    | (with_reducible apply carries_foldl_pair; intro _ _ _ _)
    | intro _
    | split
    | dsimp only

theorem State_serveSecured_carries {s₀ : State} {s : State} (addr : Nat) (udpPort : Nat) (bs : List Byte) (hs : Carries s₀ s) :
    Carries s₀ (Sys2Proof.Machine.State.serveSecured s addr udpPort bs) := by
  unfold Sys2Proof.Machine.State.serveSecured
  dsimp only
  split
  · exact hs
  · rename_i x m _
    have ha : Carries s₀ (if frameKind true m = .mctp then answerTo m (s.refused stBadFrame)
        else s.serveOne (if x.signer = 0 then Role.reader else Role.privileged) (.todp addr udpPort) m).state := by
      split
      · exact hs
      · exact State_serveOne_carries _ _ _ hs
    refine carries_ite ?_ (carries_ite ?_ ha)
    · exact State_writeReset_carries _ (State_fnFlush_carries (State_todpAnswer_carries _ _ _ _ _ _ hs))
    · exact State_todpAnswer_carries _ _ _ _ _ _ ha

theorem execSecured_carries {s₀ : State} {s : State} (path : OdPath) (frame : List Byte) (t : State) (ht : (Sys2Proof.Machine.execSecured path frame s) = .next t) (hs : Carries s₀ s) :
    Carries s₀ t := by
  unfold Sys2Proof.Machine.execSecured at ht
  obtain rfl := within_some ht
  try dsimp only
  repeat' first
    | with_reducible assumption
    | with_reducible apply State_serveSecured_carries
    | with_reducible apply State_todpAnswer_carries
    | with_reducible apply State_todpFrame_carries
    | with_reducible apply carries_ite
    | with_reducible apply carries_ite_two
    | with_reducible apply carries_ite_one
    | simp only [carries_mk_iff]
    | (with_reducible apply carries_foldl; intro _ _ _)
    | (with_reducible apply carries_foldl_pair; intro _ _ _ _)
    | intro _
    | split
    | dsimp only

end Sys2Proof.Laws
end

