-- ==== Sys2Proof/Laws/FieldNetwork.lean ====
section
/-! SUPPORT. What the functions of Machine/FieldNetwork.lean leave alone (`Carries`). -/

namespace Sys2Proof.Laws

open Sys2Proof Sys2Proof.Machine

theorem execFnPortStart_carries {s₀ : State} {s : State} (duplicate : Bool) (t : State) (ht : (Sys2Proof.Machine.execFnPortStart duplicate s) = .next t) (hs : Carries s₀ s) :
    Carries s₀ t := by
  unfold Sys2Proof.Machine.execFnPortStart at ht
  obtain rfl := within_some ht
  try dsimp only
  repeat' first
    | with_reducible assumption
    | with_reducible apply State_setOd_carries
    | with_reducible apply carries_ite
    | with_reducible apply carries_ite_two
    | with_reducible apply carries_ite_one
    | simp only [carries_mk_iff]
    | (with_reducible apply carries_foldl; intro _ _ _)
    | (with_reducible apply carries_foldl_pair; intro _ _ _ _)
    | intro _
    | split
    | dsimp only

theorem execFnSettingApply_carries {s₀ : State} {s : State}  (t : State) (ht : (Sys2Proof.Machine.execFnSettingApply s) = .next t) (hs : Carries s₀ s) :
    Carries s₀ t := by
  unfold Sys2Proof.Machine.execFnSettingApply at ht
  obtain rfl := within_some ht
  try dsimp only
  repeat' first
    | with_reducible assumption
    | with_reducible apply State_setOd_carries
    | with_reducible apply carries_ite
    | with_reducible apply carries_ite_two
    | with_reducible apply carries_ite_one
    | simp only [carries_mk_iff]
    | (with_reducible apply carries_foldl; intro _ _ _)
    | (with_reducible apply carries_foldl_pair; intro _ _ _ _)
    | intro _
    | split
    | dsimp only

theorem execBeaconLoss_carries {s₀ : State} {s : State} (elapsedUs : Nat) (t : State) (ht : (Sys2Proof.Machine.execBeaconLoss elapsedUs s) = .next t) (hs : Carries s₀ s) :
    Carries s₀ t := by
  unfold Sys2Proof.Machine.execBeaconLoss at ht
  obtain rfl := within_some ht
  try dsimp only
  repeat' first
    | with_reducible assumption
    | with_reducible apply State_count_carries
    | with_reducible apply State_setOd_carries
    | with_reducible apply carries_ite
    | with_reducible apply carries_ite_two
    | with_reducible apply carries_ite_one
    | simp only [carries_mk_iff]
    | (with_reducible apply carries_foldl; intro _ _ _)
    | (with_reducible apply carries_foldl_pair; intro _ _ _ _)
    | intro _
    | split
    | dsimp only

theorem execBeaconReturn_carries {s₀ : State} {s : State}  (t : State) (ht : (Sys2Proof.Machine.execBeaconReturn s) = .next t) (hs : Carries s₀ s) :
    Carries s₀ t := by
  unfold Sys2Proof.Machine.execBeaconReturn at ht
  obtain rfl := within_some ht
  try dsimp only
  repeat' first
    | with_reducible assumption
    | with_reducible apply State_setOd_carries
    | with_reducible apply carries_ite
    | with_reducible apply carries_ite_two
    | with_reducible apply carries_ite_one
    | simp only [carries_mk_iff]
    | (with_reducible apply carries_foldl; intro _ _ _)
    | (with_reducible apply carries_foldl_pair; intro _ _ _ _)
    | intro _
    | split
    | dsimp only

theorem execPlcaTransmit_carries {s₀ : State} {s : State}  (t : State) (ht : (Sys2Proof.Machine.execPlcaTransmit s) = .next t) (hs : Carries s₀ s) :
    Carries s₀ t := by
  unfold Sys2Proof.Machine.execPlcaTransmit at ht
  obtain rfl := within_some ht
  try dsimp only
  repeat' first
    | with_reducible assumption
    | with_reducible apply State_count_carries
    | with_reducible apply State_emit_carries
    | with_reducible apply carries_ite
    | with_reducible apply carries_ite_two
    | with_reducible apply carries_ite_one
    | simp only [carries_mk_iff]
    | (with_reducible apply carries_foldl; intro _ _ _)
    | (with_reducible apply carries_foldl_pair; intro _ _ _ _)
    | intro _
    | split
    | dsimp only

theorem execPlcaCollision_carries {s₀ : State} {s : State}  (t : State) (ht : (Sys2Proof.Machine.execPlcaCollision s) = .next t) (hs : Carries s₀ s) :
    Carries s₀ t := by
  unfold Sys2Proof.Machine.execPlcaCollision at ht
  obtain rfl := within_some ht
  try dsimp only
  repeat' first
    | with_reducible assumption
    | with_reducible apply State_count_carries
    | with_reducible apply State_sticky_carries
    | with_reducible apply carries_ite
    | with_reducible apply carries_ite_two
    | with_reducible apply carries_ite_one
    | simp only [carries_mk_iff]
    | (with_reducible apply carries_foldl; intro _ _ _)
    | (with_reducible apply carries_foldl_pair; intro _ _ _ _)
    | intro _
    | split
    | dsimp only

theorem execPlcaBeacon_carries {s₀ : State} {s : State}  (t : State) (ht : (Sys2Proof.Machine.execPlcaBeacon s) = .next t) (hs : Carries s₀ s) :
    Carries s₀ t := by
  unfold Sys2Proof.Machine.execPlcaBeacon at ht
  obtain rfl := within_some ht
  try dsimp only
  repeat' first
    | with_reducible assumption
    | with_reducible apply State_emit_carries
    | with_reducible apply carries_ite
    | with_reducible apply carries_ite_two
    | with_reducible apply carries_ite_one
    | simp only [carries_mk_iff]
    | (with_reducible apply carries_foldl; intro _ _ _)
    | (with_reducible apply carries_foldl_pair; intro _ _ _ _)
    | intro _
    | split
    | dsimp only

theorem execNeighbourDiscovery_carries {s₀ : State} {s : State} (frame : List Byte) (t : State) (ht : (Sys2Proof.Machine.execNeighbourDiscovery frame s) = .next t) (hs : Carries s₀ s) :
    Carries s₀ t := by
  unfold Sys2Proof.Machine.execNeighbourDiscovery at ht
  obtain rfl := within_some ht
  try dsimp only
  repeat' first
    | with_reducible assumption
    | with_reducible apply State_count_carries
    | with_reducible apply State_fnQueue_carries
    | with_reducible apply carries_ite
    | with_reducible apply carries_ite_two
    | with_reducible apply carries_ite_one
    | simp only [carries_mk_iff]
    | (with_reducible apply carries_foldl; intro _ _ _)
    | (with_reducible apply carries_foldl_pair; intro _ _ _ _)
    | intro _
    | split
    | dsimp only

theorem State_spdmSend_carries {s₀ : State} {s : State} (path : OdPath) (resp : List Byte) (hs : Carries s₀ s) :
    Carries s₀ (Sys2Proof.Machine.State.spdmSend s path resp) := by
  unfold Sys2Proof.Machine.State.spdmSend
  try dsimp only
  repeat' first
    | with_reducible assumption
    | with_reducible apply State_emit_carries
    | with_reducible apply State_fnQueue_carries
    | with_reducible apply carries_ite
    | with_reducible apply carries_ite_two
    | with_reducible apply carries_ite_one
    | simp only [carries_mk_iff]
    | (with_reducible apply carries_foldl; intro _ _ _)
    | (with_reducible apply carries_foldl_pair; intro _ _ _ _)
    | intro _
    | split
    | dsimp only

theorem State_spdm_carries {s₀ s : State} (path : OdPath) (f : State → State) (t : State) (hf : ∀ s, Carries s₀ s → Carries s₀ (f s))
    (hs : Carries s₀ s) (ht : Sys2Proof.Machine.State.spdm s path f = .next t) : Carries s₀ t := by
  unfold Sys2Proof.Machine.State.spdm at ht
  obtain rfl := within_some ht
  exact carries_ite (hf _ hs) hs

theorem execSpdmChallenge_carries {s₀ : State} {s : State} (path : OdPath) (request : List Byte) (t : State) (ht : (Sys2Proof.Machine.execSpdmChallenge path request s) = .next t) (hs : Carries s₀ s) :
    Carries s₀ t := by
  unfold Sys2Proof.Machine.execSpdmChallenge at ht
  exact State_spdm_carries _ _ _ (fun s h => State_spdmSend_carries _ _ h) hs ht

theorem execSpdmGetMeasurements_carries {s₀ : State} {s : State} (path : OdPath) (request : List Byte) (t : State) (ht : (Sys2Proof.Machine.execSpdmGetMeasurements path request s) = .next t) (hs : Carries s₀ s) :
    Carries s₀ t := by
  unfold Sys2Proof.Machine.execSpdmGetMeasurements at ht
  exact State_spdm_carries _ _ _ (fun s h => State_spdmSend_carries _ _ h) hs ht

theorem execSpdmKeyExchange_carries {s₀ : State} {s : State} (path : OdPath) (request : List Byte) (t : State) (ht : (Sys2Proof.Machine.execSpdmKeyExchange path request s) = .next t) (hs : Carries s₀ s) :
    Carries s₀ t := by
  unfold Sys2Proof.Machine.execSpdmKeyExchange at ht
  exact State_spdm_carries _ _ _ (fun s h => State_spdmSend_carries _ _ (carries_mk_iff.mpr h)) hs ht

end Sys2Proof.Laws
end

