-- ==== Sys2Proof/Laws/Junction.lean ====
section
/-! SUPPORT. What the functions of Machine/Junction.lean leave alone (`Carries`). -/

namespace Sys2Proof.Laws

open Sys2Proof Sys2Proof.Machine

theorem State_jctTake_carries {s₀ : State} {s : State} (die : Nat) (slot : Nat) (c : JctCmd) (hs : Carries s₀ s) :
    Carries s₀ (Sys2Proof.Machine.State.jctTake s die slot c) := by
  unfold Sys2Proof.Machine.State.jctTake
  try dsimp only
  repeat' first
    | with_reducible assumption
    | with_reducible apply State_jctSettle_carries
    | with_reducible apply State_setDie_carries
    | with_reducible apply carries_ite
    | with_reducible apply carries_ite_two
    | with_reducible apply carries_ite_one
    | simp only [carries_mk_iff]
    | (with_reducible apply carries_foldl; intro _ _ _)
    | (with_reducible apply carries_foldl_pair; intro _ _ _ _)
    | intro _
    | split
    | dsimp only

theorem State_jctLift_carries {s₀ : State} {s : State} (die : Nat) (share : Nat) (hs : Carries s₀ s) :
    Carries s₀ (Sys2Proof.Machine.State.jctLift s die share) := by
  unfold Sys2Proof.Machine.State.jctLift
  try dsimp only
  repeat' first
    | with_reducible assumption
    | with_reducible apply State_setDie_carries
    | with_reducible apply carries_ite
    | with_reducible apply carries_ite_two
    | with_reducible apply carries_ite_one
    | simp only [carries_mk_iff]
    | (with_reducible apply carries_foldl; intro _ _ _)
    | (with_reducible apply carries_foldl_pair; intro _ _ _ _)
    | intro _
    | split
    | dsimp only

theorem State_jctIssue_carries {s₀ : State} {s : State} (it : Issue) (c : JctCmd) (hs : Carries s₀ s) :
    Carries s₀ (Sys2Proof.Machine.State.jctIssue s it c) := by
  unfold Sys2Proof.Machine.State.jctIssue
  try dsimp only
  repeat' first
    | with_reducible assumption
    | with_reducible apply State_issued_carries
    | with_reducible apply State_setDie_carries
    | with_reducible apply carries_ite
    | with_reducible apply carries_ite_two
    | with_reducible apply carries_ite_one
    | simp only [carries_mk_iff]
    | (with_reducible apply carries_foldl; intro _ _ _)
    | (with_reducible apply carries_foldl_pair; intro _ _ _ _)
    | intro _
    | split
    | dsimp only

theorem State_runJct_carries {s₀ : State} {s : State} (it : Issue) (hs : Carries s₀ s) :
    Carries s₀ (Sys2Proof.Machine.State.runJct s it) := by
  unfold Sys2Proof.Machine.State.runJct
  try dsimp only
  repeat' first
    | with_reducible assumption
    | with_reducible apply State_advance_carries
    | with_reducible apply State_faultIssue_carries
    | with_reducible apply State_jctIssue_carries
    | with_reducible apply State_jctLift_carries
    | with_reducible apply State_jctTake_carries
    | with_reducible apply State_reading_carries
    | with_reducible apply State_setDie_carries
    | with_reducible apply State_setStream_carries
    | with_reducible apply State_start_carries
    | with_reducible apply carries_ite
    | with_reducible apply carries_ite_two
    | with_reducible apply carries_ite_one
    | simp only [carries_mk_iff]
    | (with_reducible apply carries_foldl; intro _ _ _)
    | (with_reducible apply carries_foldl_pair; intro _ _ _ _)
    | intro _
    | split
    | dsimp only

theorem State_jctRow_carries {s₀ : State} {s : State} (c : Nat) (kinds : List CmdKind) (t : State) (ht : (Sys2Proof.Machine.State.jctRow s c kinds) = .next t) (hs : Carries s₀ s) :
    Carries s₀ t := by
  unfold Sys2Proof.Machine.State.jctRow at ht
  obtain rfl := within_some ht
  try dsimp only
  repeat' first
    | with_reducible assumption
    | with_reducible apply State_runJct_carries
    | with_reducible apply State_runKind_carries
    | with_reducible apply carries_ite
    | with_reducible apply carries_ite_two
    | with_reducible apply carries_ite_one
    | simp only [carries_mk_iff]
    | (with_reducible apply carries_foldl; intro _ _ _)
    | (with_reducible apply carries_foldl_pair; intro _ _ _ _)
    | intro _
    | split
    | dsimp only

theorem execJctDistilStats_carries {s₀ : State} {s : State} (c : Nat) (t : State) (ht : (Sys2Proof.Machine.execJctDistilStats c s) = .next t) (hs : Carries s₀ s) :
    Carries s₀ t := by
  unfold Sys2Proof.Machine.execJctDistilStats at ht
  exact State_jctRow_carries _ _ _ ht hs

theorem execJctDistilEmit_carries {s₀ : State} {s : State} (c : Nat) (t : State) (ht : (Sys2Proof.Machine.execJctDistilEmit c s) = .next t) (hs : Carries s₀ s) :
    Carries s₀ t := by
  unfold Sys2Proof.Machine.execJctDistilEmit at ht
  exact State_jctRow_carries _ _ _ ht hs

theorem execJctHintStats_carries {s₀ : State} {s : State} (c : Nat) (t : State) (ht : (Sys2Proof.Machine.execJctHintStats c s) = .next t) (hs : Carries s₀ s) :
    Carries s₀ t := by
  unfold Sys2Proof.Machine.execJctHintStats at ht
  exact State_jctRow_carries _ _ _ ht hs

theorem execJctHintEmit_carries {s₀ : State} {s : State} (c : Nat) (t : State) (ht : (Sys2Proof.Machine.execJctHintEmit c s) = .next t) (hs : Carries s₀ s) :
    Carries s₀ t := by
  unfold Sys2Proof.Machine.execJctHintEmit at ht
  exact State_jctRow_carries _ _ _ ht hs

theorem execJctDraft_carries {s₀ : State} {s : State} (c : Nat) (t : State) (ht : (Sys2Proof.Machine.execJctDraft c s) = .next t) (hs : Carries s₀ s) :
    Carries s₀ t := by
  unfold Sys2Proof.Machine.execJctDraft at ht
  exact State_jctRow_carries _ _ _ ht hs

theorem execJctVerify_carries {s₀ : State} {s : State} (c : Nat) (t : State) (ht : (Sys2Proof.Machine.execJctVerify c s) = .next t) (hs : Carries s₀ s) :
    Carries s₀ t := by
  unfold Sys2Proof.Machine.execJctVerify at ht
  exact State_jctRow_carries _ _ _ ht hs

theorem execJctResidual_carries {s₀ : State} {s : State} (c : Nat) (t : State) (ht : (Sys2Proof.Machine.execJctResidual c s) = .next t) (hs : Carries s₀ s) :
    Carries s₀ t := by
  unfold Sys2Proof.Machine.execJctResidual at ht
  exact State_jctRow_carries _ _ _ ht hs

theorem State_jctGrant_carries {s₀ : State} {s : State} (die : Nat) (k : Nat) (best : JctCmd) (hs : Carries s₀ s) :
    Carries s₀ (Sys2Proof.Machine.State.jctGrant s die k best) := by
  unfold Sys2Proof.Machine.State.jctGrant
  try dsimp only
  repeat' first
    | with_reducible assumption
    | with_reducible apply State_advance_carries
    | with_reducible apply State_jctTake_carries
    | with_reducible apply State_setDie_carries
    | with_reducible apply State_setStream_carries
    | with_reducible apply carries_ite
    | with_reducible apply carries_ite_two
    | with_reducible apply carries_ite_one
    | simp only [carries_mk_iff]
    | (with_reducible apply carries_foldl; intro _ _ _)
    | (with_reducible apply carries_foldl_pair; intro _ _ _ _)
    | intro _
    | split
    | dsimp only

theorem execJctSlotGrant_carries {s₀ : State} {s : State} (die : Nat) (waited : Nat) (t : State) (ht : (Sys2Proof.Machine.execJctSlotGrant die waited s) = .next t) (hs : Carries s₀ s) :
    Carries s₀ t := by
  unfold Sys2Proof.Machine.execJctSlotGrant at ht
  obtain rfl := within_some ht
  try dsimp only
  repeat' first
    | with_reducible assumption
    | with_reducible apply State_count_carries
    | with_reducible apply State_jctGrant_carries
    | with_reducible apply carries_ite
    | with_reducible apply carries_ite_two
    | with_reducible apply carries_ite_one
    | simp only [carries_mk_iff]
    | (with_reducible apply carries_foldl; intro _ _ _)
    | (with_reducible apply carries_foldl_pair; intro _ _ _ _)
    | intro _
    | split
    | dsimp only

theorem State_addLoss_carries {s₀ : State} {s : State} (key : Nat) (row : Nat) (loss : W32) (counts : Bool) (hs : Carries s₀ s) :
    Carries s₀ (Sys2Proof.Machine.State.addLoss s key row loss counts) := by
  unfold Sys2Proof.Machine.State.addLoss
  try dsimp only
  repeat' first
    | with_reducible assumption
    | with_reducible apply carries_ite
    | with_reducible apply carries_ite_two
    | with_reducible apply carries_ite_one
    | simp only [carries_mk_iff]
    | (with_reducible apply carries_foldl; intro _ _ _)
    | (with_reducible apply carries_foldl_pair; intro _ _ _ _)
    | intro _
    | split
    | dsimp only

theorem State_broadcast_carries {s₀ : State} {s : State} (c : JctCmd) (row : Nat) (st : JctStats) (hs : Carries s₀ s) :
    Carries s₀ (Sys2Proof.Machine.State.broadcast s c row st) := by
  unfold Sys2Proof.Machine.State.broadcast
  try dsimp only
  repeat' first
    | with_reducible assumption
    | with_reducible apply State_setDie_carries
    | with_reducible apply carries_ite
    | with_reducible apply carries_ite_two
    | with_reducible apply carries_ite_one
    | simp only [carries_mk_iff]
    | (with_reducible apply carries_foldl; intro _ _ _)
    | (with_reducible apply carries_foldl_pair; intro _ _ _ _)
    | intro _
    | split
    | dsimp only

theorem State_putResult_carries {s₀ : State} {s : State} (die : Nat) (c : JctCmd) (conv : Nat) (w : Nat) (hs : Carries s₀ s) :
    Carries s₀ (Sys2Proof.Machine.State.putResult s die c conv w) := by
  unfold Sys2Proof.Machine.State.putResult
  try dsimp only
  repeat' first
    | with_reducible assumption
    | with_reducible apply State_put_carries
    | with_reducible apply carries_ite
    | with_reducible apply carries_ite_two
    | with_reducible apply carries_ite_one
    | simp only [carries_mk_iff]
    | (with_reducible apply carries_foldl; intro _ _ _)
    | (with_reducible apply carries_foldl_pair; intro _ _ _ _)
    | intro _
    | split
    | dsimp only

theorem State_verifyConv_carries {s₀ : State} {s : State} (die : Nat) (c : JctCmd) (conv : Nat) (hs : Carries s₀ s) :
    Carries s₀ (Sys2Proof.Machine.State.verifyConv s die c conv) := by
  unfold Sys2Proof.Machine.State.verifyConv
  try dsimp only
  repeat' first
    | with_reducible assumption
    | with_reducible apply State_count_carries
    | with_reducible apply State_putResult_carries
    | with_reducible apply carries_ite
    | with_reducible apply carries_ite_two
    | with_reducible apply carries_ite_one
    | simp only [carries_mk_iff]
    | (with_reducible apply carries_foldl; intro _ _ _)
    | (with_reducible apply carries_foldl_pair; intro _ _ _ _)
    | intro _
    | split
    | dsimp only

theorem State_mseSpoil_carries {s₀ : State} {s : State} (c : JctCmd) (row : Nat) (hs : Carries s₀ s) :
    Carries s₀ (Sys2Proof.Machine.State.mseSpoil s c row) := by
  unfold Sys2Proof.Machine.State.mseSpoil
  try dsimp only
  repeat' first
    | with_reducible assumption
    | with_reducible apply State_put_carries
    | with_reducible apply carries_ite
    | with_reducible apply carries_ite_two
    | with_reducible apply carries_ite_one
    | simp only [carries_mk_iff]
    | (with_reducible apply carries_foldl; intro _ _ _)
    | (with_reducible apply carries_foldl_pair; intro _ _ _ _)
    | intro _
    | split
    | dsimp only

theorem State_finishRow_carries {s₀ : State} {s : State} (die : Nat) (c : JctCmd) (row : Nat) (p : JctPart) (hs : Carries s₀ s) :
    Carries s₀ (Sys2Proof.Machine.State.finishRow s die c row p) := by
  unfold Sys2Proof.Machine.State.finishRow
  try dsimp only
  repeat' first
    | with_reducible assumption
    | with_reducible apply State_addLoss_carries
    | with_reducible apply State_broadcast_carries
    | with_reducible apply State_count_carries
    | with_reducible apply State_mseSpoil_carries
    | with_reducible apply State_put_carries
    | with_reducible apply State_putResult_carries
    | with_reducible apply State_verifyConv_carries
    | with_reducible apply carries_ite
    | with_reducible apply carries_ite_two
    | with_reducible apply carries_ite_one
    | simp only [carries_mk_iff]
    | (with_reducible apply carries_foldl; intro _ _ _)
    | (with_reducible apply carries_foldl_pair; intro _ _ _ _)
    | intro _
    | split
    | dsimp only

theorem State_mergeRow_carries {s₀ : State} {s : State} (die : Nat) (row : Nat) (k : Nat) (c : JctCmd) (q : JctCmd) (hs : Carries s₀ s) :
    Carries s₀ (Sys2Proof.Machine.State.mergeRow s die row k c q) := by
  unfold Sys2Proof.Machine.State.mergeRow
  try dsimp only
  repeat' first
    | with_reducible assumption
    | with_reducible apply State_finishRow_carries
    | with_reducible apply State_jctFinishAll_carries
    | with_reducible apply State_jctPump_carries
    | with_reducible apply State_jctReading_carries
    | with_reducible apply State_setJct_carries
    | with_reducible apply carries_ite
    | with_reducible apply carries_ite_two
    | with_reducible apply carries_ite_one
    | simp only [carries_mk_iff]
    | (with_reducible apply carries_foldl; intro _ _ _)
    | (with_reducible apply carries_foldl_pair; intro _ _ _ _)
    | intro _
    | split
    | dsimp only

theorem execJctPartialMerge_carries {s₀ : State} {s : State} (die : Nat) (row : Nat) (t : State) (ht : (Sys2Proof.Machine.execJctPartialMerge die row s) = .next t) (hs : Carries s₀ s) :
    Carries s₀ t := by
  unfold Sys2Proof.Machine.execJctPartialMerge at ht
  obtain rfl := within_some ht
  try dsimp only
  repeat' first
    | with_reducible assumption
    | with_reducible apply State_jctSpoiled_carries
    | with_reducible apply State_mergeRow_carries
    | with_reducible apply carries_ite
    | with_reducible apply carries_ite_two
    | with_reducible apply carries_ite_one
    | simp only [carries_mk_iff]
    | (with_reducible apply carries_foldl; intro _ _ _)
    | (with_reducible apply carries_foldl_pair; intro _ _ _ _)
    | intro _
    | split
    | dsimp only

theorem State_emitRun_carries {s₀ : State} {s : State} (die : Nat) (c : JctCmd) (row : Nat) (i : Nat) (st : JctStats) (zt : List W32) (zs : List W32) (hs : Carries s₀ s) :
    Carries s₀ (Sys2Proof.Machine.State.emitRun s die c row i st zt zs) := by
  unfold Sys2Proof.Machine.State.emitRun
  try dsimp only
  repeat' first
    | with_reducible assumption
    | with_reducible apply State_putGrad_carries
    | with_reducible apply carries_ite
    | with_reducible apply carries_ite_two
    | with_reducible apply carries_ite_one
    | simp only [carries_mk_iff]
    | (with_reducible apply carries_foldl; intro _ _ _)
    | (with_reducible apply carries_foldl_pair; intro _ _ _ _)
    | intro _
    | split
    | dsimp only

theorem State_emitKept_carries {s₀ : State} {s : State} (die : Nat) (slot : Nat) (c : JctCmd) (row : Nat) (st : JctStats) (hs : Carries s₀ s) :
    Carries s₀ (Sys2Proof.Machine.State.emitKept s die slot c row st) := by
  unfold Sys2Proof.Machine.State.emitKept
  try dsimp only
  repeat' first
    | with_reducible assumption
    | with_reducible apply State_emitRun_carries
    | with_reducible apply State_setJct_carries
    | with_reducible apply carries_ite
    | with_reducible apply carries_ite_two
    | with_reducible apply carries_ite_one
    | simp only [carries_mk_iff]
    | (with_reducible apply carries_foldl; intro _ _ _)
    | (with_reducible apply carries_foldl_pair; intro _ _ _ _)
    | intro _
    | split
    | dsimp only

theorem State_emitSlices_carries {s₀ : State} (die slot row : Nat) (st : JctStats) : ∀ (fuel : Nat) {s : State}, Carries s₀ s →
    Carries s₀ (Sys2Proof.Machine.State.emitSlices s die slot row st fuel)
  | 0, _, hs => by unfold Sys2Proof.Machine.State.emitSlices; exact hs
  | fuel + 1, s, hs => by
    unfold Sys2Proof.Machine.State.emitSlices
    dsimp only
    split
    · exact hs
    · split
      · exact hs
      · have h := State_takeSlice_carries _ _ _ _ _ _ _ hs (by assumption)
        split
        · exact State_jctSpoiled_carries _ _ h
        · exact State_emitSlices_carries die slot row st fuel
            (State_jctPump_carries _ _ (State_setJct_carries _ _ _ (State_emitRun_carries _ _ _ _ _ _ _ h)))

theorem execJctGradEmit_carries {s₀ : State} {s : State} (die : Nat) (row : Nat) (t : State) (ht : (Sys2Proof.Machine.execJctGradEmit die row s) = .next t) (hs : Carries s₀ s) :
    Carries s₀ t := by
  unfold Sys2Proof.Machine.execJctGradEmit at ht
  obtain rfl := within_some ht
  try dsimp only
  repeat' first
    | with_reducible assumption
    | with_reducible apply State_emitKept_carries
    | with_reducible apply State_emitSlices_carries
    | with_reducible apply State_faultOwner_carries
    | with_reducible apply State_jctReading_carries
    | with_reducible apply State_jctSettle_carries
    | with_reducible apply State_jctSpoiled_carries
    | with_reducible apply carries_ite
    | with_reducible apply carries_ite_two
    | with_reducible apply carries_ite_one
    | simp only [carries_mk_iff]
    | (with_reducible apply carries_foldl; intro _ _ _)
    | (with_reducible apply carries_foldl_pair; intro _ _ _ _)
    | intro _
    | split
    | dsimp only

end Sys2Proof.Laws
end

