-- ==== Sys2Proof/Laws/PerInstr.lean ====
section
/-! SUPPORT. Per command: a row that issues a core's next Timetable command names that core, and is well formed exactly when
the package has it. -/

namespace Sys2Proof.Laws.Turns

open Sys2Proof Sys2Proof.Machine

/-- A row of the Timetable is well formed exactly when its core exists. -/
def Statement (i : Instr) : Prop := ∀ r, timetableRow i = some r → i.wellFormed = decide (r.1 < 288)

theorem sync (core : Nat) : Statement (.sync core) := by
  intro r h; cases h; rfl
theorem tileOutputStat (core : Nat) (fz : Freeze) : Statement (.tileOutputStat core fz) := by
  intro r h; cases h; rfl
theorem tileInputStat (core : Nat) (fz : Freeze) : Statement (.tileInputStat core fz) := by
  intro r h; cases h; rfl
theorem tileElementwise (core : Nat) (fz : Freeze) : Statement (.tileElementwise core fz) := by
  intro r h; cases h; rfl
theorem move (core : Nat) : Statement (.move core) := by
  intro r h; cases h; rfl
theorem moveTranspose (core : Nat) : Statement (.moveTranspose core) := by
  intro r h; cases h; rfl
theorem moveRequant (core : Nat) : Statement (.moveRequant core) := by
  intro r h; cases h; rfl
theorem moveSpill (core : Nat) : Statement (.moveSpill core) := by
  intro r h; cases h; rfl
theorem moveFill (core : Nat) : Statement (.moveFill core) := by
  intro r h; cases h; rfl
theorem rowNormForward (core : Nat) : Statement (.rowNormForward core) := by
  intro r h; cases h; rfl
theorem rowNormBackward (core : Nat) : Statement (.rowNormBackward core) := by
  intro r h; cases h; rfl
theorem rowAttentionStatistics (core : Nat) : Statement (.rowAttentionStatistics core) := by
  intro r h; cases h; rfl
theorem rowAttentionBackward (core : Nat) : Statement (.rowAttentionBackward core) := by
  intro r h; cases h; rfl
theorem rowDropout (core : Nat) : Statement (.rowDropout core) := by
  intro r h; cases h; rfl
theorem rowRowsum (core : Nat) : Statement (.rowRowsum core) := by
  intro r h; cases h; rfl
theorem rowHiddenGradientSum (core : Nat) : Statement (.rowHiddenGradientSum core) := by
  intro r h; cases h; rfl
theorem rowGainAccumulation (core : Nat) : Statement (.rowGainAccumulation core) := by
  intro r h; cases h; rfl
theorem jctDistilStats (core : Nat) : Statement (.jctDistilStats core) := by
  intro r h; cases h; rfl
theorem jctDistilEmit (core : Nat) : Statement (.jctDistilEmit core) := by
  intro r h; cases h; rfl
theorem jctHintStats (core : Nat) : Statement (.jctHintStats core) := by
  intro r h; cases h; rfl
theorem jctHintEmit (core : Nat) : Statement (.jctHintEmit core) := by
  intro r h; cases h; rfl
theorem jctDraft (core : Nat) : Statement (.jctDraft core) := by
  intro r h; cases h; rfl
theorem jctVerify (core : Nat) : Statement (.jctVerify core) := by
  intro r h; cases h; rfl
theorem jctResidual (core : Nat) : Statement (.jctResidual core) := by
  intro r h; cases h; rfl
theorem jctSlotGrant (die : Nat) (waited : Nat) : Statement (.jctSlotGrant die waited) := by
  intro r h; cases h
theorem jctPartialMerge (die : Nat) (row : Nat) : Statement (.jctPartialMerge die row) := by
  intro r h; cases h
theorem jctGradEmit (die : Nat) (row : Nat) : Statement (.jctGradEmit die row) := by
  intro r h; cases h
theorem lossSpikeDetect : Statement (.lossSpikeDetect) := by
  intro r h; cases h
theorem barrier (core : Nat) : Statement (.barrier core) := by
  intro r h; cases h; rfl
theorem notify (core : Nat) : Statement (.notify core) := by
  intro r h; cases h; rfl
theorem rebase (core : Nat) : Statement (.rebase core) := by
  intro r h; cases h; rfl
theorem stepEnd (core : Nat) : Statement (.stepEnd core) := by
  intro r h; cases h; rfl
theorem streamEnd (core : Nat) : Statement (.streamEnd core) := by
  intro r h; cases h; rfl
theorem place (core : Nat) : Statement (.place core) := by
  intro r h; cases h; rfl
theorem counterSignal (core : Nat) : Statement (.counterSignal core) := by
  intro r h; cases h
theorem sbSet (core : Nat) (value : W64) : Statement (.sbSet core value) := by
  intro r h; cases h
theorem syncHangReport (core : Nat) (slot : Nat) (heldMs : Nat) : Statement (.syncHangReport core slot heldMs) := by
  intro r h; cases h
theorem syncHang (core : Nat) (slot : Nat) (heldMs : Nat) : Statement (.syncHang core slot heldMs) := by
  intro r h; cases h
theorem barArrive (port : Nat) : Statement (.barArrive port) := by
  intro r h; cases h
theorem barRelease (chan : Nat) (elapsedNs : Nat) : Statement (.barRelease chan elapsedNs) := by
  intro r h; cases h
theorem barrierTokenDeadline (port : Nat) (chan : Nat) (elapsedNs : Nat) : Statement (.barrierTokenDeadline port chan elapsedNs) := by
  intro r h; cases h
theorem barrierTimeout (chan : Nat) (elapsedMs : Nat) : Statement (.barrierTimeout chan elapsedMs) := by
  intro r h; cases h
theorem roundhouseNormPass (bucket : Nat) (before : List (BitVec 64)) (after : List (BitVec 64)) : Statement (.roundhouseNormPass bucket before after) := by
  intro r h; cases h
theorem updateComplete (stopUs : Nat) : Statement (.updateComplete stopUs) := by
  intro r h; cases h
theorem copyPass (stopUs : Nat) : Statement (.copyPass stopUs) := by
  intro r h; cases h
theorem ckptCodingComplete : Statement (.ckptCodingComplete) := by
  intro r h; cases h
theorem roundhouseDetectedError (edge : Nat) (group : Nat) : Statement (.roundhouseDetectedError edge group) := by
  intro r h; cases h
theorem updDigest (value : Nat) : Statement (.updDigest value) := by
  intro r h; cases h
theorem bucketFilled (bucket : Nat) : Statement (.bucketFilled bucket) := by
  intro r h; cases h
theorem accum (port : Nat) : Statement (.accum port) := by
  intro r h; cases h
theorem exchangeComplete : Statement (.exchangeComplete) := by
  intro r h; cases h
theorem redShadowDeadline (bucket : Nat) (elapsedUs : Nat) : Statement (.redShadowDeadline bucket elapsedUs) := by
  intro r h; cases h
theorem redHardTimeout (bucket : Nat) (elapsedMs : Nat) : Statement (.redHardTimeout bucket elapsedMs) := by
  intro r h; cases h
theorem ringSubst (port : Nat) : Statement (.ringSubst port) := by
  intro r h; cases h
theorem moveWrite (port : Nat) : Statement (.moveWrite port) := by
  intro r h; cases h
theorem writeAck (port : Nat) : Statement (.writeAck port) := by
  intro r h; cases h
theorem linkMessageForward (port : Nat) (vc : Nat) : Statement (.linkMessageForward port vc) := by
  intro r h; cases h
theorem jobFault (port : Nat) : Statement (.jobFault port) := by
  intro r h; cases h
theorem mgmt (port : Nat) : Statement (.mgmt port) := by
  intro r h; cases h
theorem linkGroupReceive (port : Nat) (lanes : List (List Frame)) (fecOk : Bool) : Statement (.linkGroupReceive port lanes fecOk) := by
  intro r h; cases h
theorem linkAckDeadline (port : Nat) (elapsedNs : Nat) : Statement (.linkAckDeadline port elapsedNs) := by
  intro r h; cases h
theorem laneLockLoss (port : Nat) (lane : Nat) : Statement (.laneLockLoss port lane) := by
  intro r h; cases h
theorem laneSerWindow (port : Nat) (lane : Nat) (ratio : W32) : Statement (.laneSerWindow port lane ratio) := by
  intro r h; cases h
theorem laneSub (port : Nat) : Statement (.laneSub port) := by
  intro r h; cases h
theorem laneSubTimeout (port : Nat) (elapsedNs : Nat) : Statement (.laneSubTimeout port elapsedNs) := by
  intro r h; cases h
theorem portTrainingStart (port : Nat) (txGood : Nat) (rxGood : Nat) (skews : List Nat) : Statement (.portTrainingStart port txGood rxGood skews) := by
  intro r h; cases h
theorem portHandshake (port : Nat) (peer : Nat) (peerPort : Nat) (epoch : Nat) (credits : List Nat) : Statement (.portHandshake port peer peerPort epoch credits) := by
  intro r h; cases h
theorem portTrainingTimeout (port : Nat) (elapsedMs : Nat) : Statement (.portTrainingTimeout port elapsedMs) := by
  intro r h; cases h
theorem portTrainingRetry (port : Nat) (elapsedMs : Nat) : Statement (.portTrainingRetry port elapsedMs) := by
  intro r h; cases h
theorem linkPortReset (value : Nat) : Statement (.linkPortReset value) := by
  intro r h; cases h
theorem pointsCommit (value : Nat) : Statement (.pointsCommit value) := by
  intro r h; cases h
theorem queueDoorbell (port : Nat) (function : Nat) (offset : Nat) (size : Nat) (value : Nat) : Statement (.queueDoorbell port function offset size value) := by
  intro r h; cases h
theorem completionDoorbell (port : Nat) (function : Nat) (offset : Nat) (size : Nat) (value : Nat) : Statement (.completionDoorbell port function offset size value) := by
  intro r h; cases h
theorem counterDoorbell (port : Nat) (function : Nat) (offset : Nat) (size : Nat) (value : Nat) : Statement (.counterDoorbell port function offset size value) := by
  intro r h; cases h
theorem dCopy (queue : Nat) : Statement (.dCopy queue) := by
  intro r h; cases h
theorem dInline (queue : Nat) : Statement (.dInline queue) := by
  intro r h; cases h
theorem dFence (queue : Nat) : Statement (.dFence queue) := by
  intro r h; cases h
theorem dFlush (queue : Nat) : Statement (.dFlush queue) := by
  intro r h; cases h
theorem dServe (queue : Nat) : Statement (.dServe queue) := by
  intro r h; cases h
theorem qReset (queue : Nat) : Statement (.qReset queue) := by
  intro r h; cases h
theorem ctxReset (platform : Nat) : Statement (.ctxReset platform) := by
  intro r h; cases h
theorem epochArm (platform : Nat) (value : Nat) : Statement (.epochArm platform value) := by
  intro r h; cases h
theorem apertureRead (port : Nat) (offset : Nat) (size : Nat) : Statement (.apertureRead port offset size) := by
  intro r h; cases h
theorem apertureWrite (port : Nat) (offset : Nat) (data : List Byte) : Statement (.apertureWrite port offset data) := by
  intro r h; cases h
theorem mbxGo (port : Nat) : Statement (.mbxGo port) := by
  intro r h; cases h
theorem registerWrite (port : Nat) (function : Nat) (bar : Nat) (offset : Nat) (size : Nat) (value : Nat) : Statement (.registerWrite port function bar offset size value) := by
  intro r h; cases h
theorem cxlMemRead (port : Nat) (offset : Nat) (size : Nat) : Statement (.cxlMemRead port offset size) := by
  intro r h; cases h
theorem cxlMemWrite (port : Nat) (offset : Nat) (data : List Byte) : Statement (.cxlMemWrite port offset data) := by
  intro r h; cases h
theorem hdmDecoderCommit (port : Nat) (base : Nat) (size : Nat) (ways : Nat) : Statement (.hdmDecoderCommit port base size ways) := by
  intro r h; cases h
theorem dataLinkDown (port : Nat) : Statement (.dataLinkDown port) := by
  intro r h; cases h
theorem dataLinkUp (port : Nat) (rate : Nat) (width : Nat) (flit : Bool) (cxl : Bool) : Statement (.dataLinkUp port rate width flit cxl) := by
  intro r h; cases h
theorem linkDownHold (port : Nat) (elapsedMs : Nat) : Statement (.linkDownHold port elapsedMs) := by
  intro r h; cases h
theorem portHotReset (port : Nat) : Statement (.portHotReset port) := by
  intro r h; cases h
theorem packageWarmReset (dies : DieReport) : Statement (.packageWarmReset dies) := by
  intro r h; cases h
theorem flrPhysical (port : Nat) : Statement (.flrPhysical port) := by
  intro r h; cases h
theorem flrVirtual (port : Nat) (vf : Nat) : Statement (.flrVirtual port vf) := by
  intro r h; cases h
theorem vfEnableClear (port : Nat) (numVfs : Nat) : Statement (.vfEnableClear port numVfs) := by
  intro r h; cases h
theorem pcArm (platform : Nat) (peers : List ArmView) : Statement (.pcArm platform peers) := by
  intro r h; cases h
theorem pcSuspend (platform : Nat) : Statement (.pcSuspend platform) := by
  intro r h; cases h
theorem suspendComplete (platform : Nat) : Statement (.suspendComplete platform) := by
  intro r h; cases h
theorem pcResume (platform : Nat) : Statement (.pcResume platform) := by
  intro r h; cases h
theorem pcReset (platform : Nat) : Statement (.pcReset platform) := by
  intro r h; cases h
theorem pcDisarm (platform : Nat) : Statement (.pcDisarm platform) := by
  intro r h; cases h
theorem odRead (path : OdPath) (frame : List Byte) : Statement (.odRead path frame) := by
  intro r h; cases h
theorem odWrite (path : OdPath) (frame : List Byte) : Statement (.odWrite path frame) := by
  intro r h; cases h
theorem domainSegmentWrite (path : OdPath) (frame : List Byte) : Statement (.domainSegmentWrite path frame) := by
  intro r h; cases h
theorem discover (addr : Nat) (udpPort : Nat) (frame : List Byte) : Statement (.discover addr udpPort frame) := by
  intro r h; cases h
theorem mctp (path : OdPath) (frame : List Byte) : Statement (.mctp path frame) := by
  intro r h; cases h
theorem secured (path : OdPath) (frame : List Byte) : Statement (.secured path frame) := by
  intro r h; cases h
theorem spdmChallenge (path : OdPath) (request : List Byte) : Statement (.spdmChallenge path request) := by
  intro r h; cases h
theorem spdmGetMeasurements (path : OdPath) (request : List Byte) : Statement (.spdmGetMeasurements path request) := by
  intro r h; cases h
theorem spdmKeyExchange (path : OdPath) (request : List Byte) : Statement (.spdmKeyExchange path request) := by
  intro r h; cases h
theorem rw2Write (path : OdPath) (frame : List Byte) : Statement (.rw2Write path frame) := by
  intro r h; cases h
theorem authCancel (path : OdPath) (frame : List Byte) : Statement (.authCancel path frame) := by
  intro r h; cases h
theorem stagedChangeExpiry (elapsedS : Nat) : Statement (.stagedChangeExpiry elapsedS) := by
  intro r h; cases h
theorem keyEnrol (path : OdPath) (frame : List Byte) : Statement (.keyEnrol path frame) := by
  intro r h; cases h
theorem ownershipRelease (path : OdPath) (frame : List Byte) : Statement (.ownershipRelease path frame) := by
  intro r h; cases h
theorem debugUnlock (path : OdPath) (frame : List Byte) : Statement (.debugUnlock path frame) := by
  intro r h; cases h
theorem fwUpdate (path : OdPath) (frame : List Byte) : Statement (.fwUpdate path frame) := by
  intro r h; cases h
theorem ttLoad (value : Nat) : Statement (.ttLoad value) := by
  intro r h; cases h
theorem ttLoadComplete (img : Image) : Statement (.ttLoadComplete img) := by
  intro r h; cases h
theorem ckptRequest (value : Nat) : Statement (.ckptRequest value) := by
  intro r h; cases h
theorem ckptDrained (value : Nat) : Statement (.ckptDrained value) := by
  intro r h; cases h
theorem ckptRestore (value : Nat) : Statement (.ckptRestore value) := by
  intro r h; cases h
theorem ckptServeNow (value : Nat) : Statement (.ckptServeNow value) := by
  intro r h; cases h
theorem buddyPkg (value : Nat) (peerFeed : Nat) : Statement (.buddyPkg value peerFeed) := by
  intro r h; cases h
theorem buddySend (value : Nat) : Statement (.buddySend value) := by
  intro r h; cases h
theorem statsLatchNow (value : Nat) : Statement (.statsLatchNow value) := by
  intro r h; cases h
theorem stickyLogClear (value : Nat) : Statement (.stickyLogClear value) := by
  intro r h; cases h
theorem feValidClear (value : Nat) : Statement (.feValidClear value) := by
  intro r h; cases h
theorem packageMode (value : Nat) : Statement (.packageMode value) := by
  intro r h; cases h
theorem powerProfile (value : Nat) : Statement (.powerProfile value) := by
  intro r h; cases h
theorem powerStateRun : Statement (.powerStateRun) := by
  intro r h; cases h
theorem powerStateDoze : Statement (.powerStateDoze) := by
  intro r h; cases h
theorem powerStateStandby : Statement (.powerStateStandby) := by
  intro r h; cases h
theorem packageResetWarm (dies : DieReport) : Statement (.packageResetWarm dies) := by
  intro r h; cases h
theorem packageResetCold (dies : DieReport) : Statement (.packageResetCold dies) := by
  intro r h; cases h
theorem statsBoundary : Statement (.statsBoundary) := by
  intro r h; cases h
theorem roundBoundary (roundUs : Nat) : Statement (.roundBoundary roundUs) := by
  intro r h; cases h
theorem summaryComplete (request : Nat) : Statement (.summaryComplete request) := by
  intro r h; cases h
theorem arrayDetectedError (core : Nat) (array : Nat) (cell : Nat) (row : Nat) (col : Nat) (out : Nat) : Statement (.arrayDetectedError core array cell row col out) := by
  intro r h; cases h
theorem turntableDetectedError (die : Nat) (block : Nat) (again : Bool) : Statement (.turntableDetectedError die block again) := by
  intro r h; cases h
theorem islandLimitCheck (a : Nat) (b : Nat) (clockA : Nat) (clockB : Nat) (supplyA : Nat) (supplyB : Nat) (tempA : Int) (tempB : Int) : Statement (.islandLimitCheck a b clockA clockB supplyA supplyB tempA tempB) := by
  intro r h; cases h
theorem islandResume (island : Nat) (elapsedUs : Nat) (fast : Nat) (slow : Nat) (supplyDiff : Nat) (tempDiff : Nat) : Statement (.islandResume island elapsedUs fast slow supplyDiff tempDiff) := by
  intro r h; cases h
theorem islandParkLimit (island : Nat) (elapsedMs : Nat) : Statement (.islandParkLimit island elapsedMs) := by
  intro r h; cases h
theorem linamParkDeadline (island : Nat) (elapsedNs : Nat) : Statement (.linamParkDeadline island elapsedNs) := by
  intro r h; cases h
theorem controlWatchdog (elapsedMs : Nat) (dies : DieReport) : Statement (.controlWatchdog elapsedMs dies) := by
  intro r h; cases h
theorem controlMemory (dies : DieReport) : Statement (.controlMemory dies) := by
  intro r h; cases h
theorem controlDieReportTimeout (elapsedMs : Nat) : Statement (.controlDieReportTimeout elapsedMs) := by
  intro r h; cases h
theorem vauxRise (millivolts : Nat) (dies : DieReport) : Statement (.vauxRise millivolts dies) := by
  intro r h; cases h
theorem packageReady (dimms : List Dimm) (hbmFailed : List (Nat × Nat)) (lines : List FailedLine) : Statement (.packageReady dimms hbmFailed lines) := by
  intro r h; cases h
theorem mainRailStartTimeout (elapsedMs : Nat) : Statement (.mainRailStartTimeout elapsedMs) := by
  intro r h; cases h
theorem vinPgoodDrop (elapsedNs : Nat) (dies : DieReport) : Statement (.vinPgoodDrop elapsedNs dies) := by
  intro r h; cases h
theorem powerSample (watts1ms : Nat) (watts1us : Nat) : Statement (.powerSample watts1ms watts1us) := by
  intro r h; cases h
theorem supplyWarning (supply : Supply) (millivolts : Nat) : Statement (.supplyWarning supply millivolts) := by
  intro r h; cases h
theorem supplyRecovery (supply : Supply) (millivolts : Nat) (elapsedUs : Nat) : Statement (.supplyRecovery supply millivolts elapsedUs) := by
  intro r h; cases h
theorem thermalSample (island : Nat) (celsius : Int) : Statement (.thermalSample island celsius) := by
  intro r h; cases h
theorem thermalExit (island : Nat) (celsius : Int) (elapsedUs : Nat) : Statement (.thermalExit island celsius elapsedUs) := by
  intro r h; cases h
theorem thermalTripHoldoff (elapsedS : Nat) : Statement (.thermalTripHoldoff elapsedS) := by
  intro r h; cases h
theorem railBelowReset (supply : Supply) (millivolts : Nat) (dies : DieReport) : Statement (.railBelowReset supply millivolts dies) := by
  intro r h; cases h
theorem idleEntry (island : Nat) (elapsedNs : Nat) : Statement (.idleEntry island elapsedNs) := by
  intro r h; cases h
theorem idleExit (island : Nat) : Statement (.idleExit island) := by
  intro r h; cases h
theorem plcaTransmit : Statement (.plcaTransmit) := by
  intro r h; cases h
theorem beaconLoss (elapsedUs : Nat) : Statement (.beaconLoss elapsedUs) := by
  intro r h; cases h
theorem plcaCollision : Statement (.plcaCollision) := by
  intro r h; cases h
theorem fnSettingApply : Statement (.fnSettingApply) := by
  intro r h; cases h
theorem fnPortStart (duplicate : Bool) : Statement (.fnPortStart duplicate) := by
  intro r h; cases h
theorem perstDeassert (port : Nat) : Statement (.perstDeassert port) := by
  intro r h; cases h
theorem vinPgoodAssert (vin : Nat) (vddq : Nat) (vio : Nat) : Statement (.vinPgoodAssert vin vddq vio) := by
  intro r h; cases h
theorem beaconReturn : Statement (.beaconReturn) := by
  intro r h; cases h
theorem plcaBeacon : Statement (.plcaBeacon) := by
  intro r h; cases h
theorem neighbourDiscovery (frame : List Byte) : Statement (.neighbourDiscovery frame) := by
  intro r h; cases h
theorem msixUnmask (port : Nat) (vector : Nat) : Statement (.msixUnmask port vector) := by
  intro r h; cases h

end Sys2Proof.Laws.Turns
end

