-- ==== Sys2Proof/Laws/RowUnit.lean ====
section
/-! SUPPORT. What the functions of Machine/RowUnit.lean leave alone (`Carries`). -/

namespace Sys2Proof.Laws

open Sys2Proof Sys2Proof.Machine

theorem State_rowPut_carries {s₀ : State} {s : State} (it : Issue) (f : Nat) (dl : Nat) (xs : List W32) (hs : Carries s₀ s) :
    Carries s₀ (Sys2Proof.Machine.State.rowPut s it f dl xs) := by
  unfold Sys2Proof.Machine.State.rowPut
  try dsimp only
  repeat' first
    | with_reducible assumption
    | with_reducible apply State_put_carries
    | with_reducible apply carries_ite
    | with_reducible apply carries_ite_two
    | with_reducible apply carries_ite_one
    | simp only [carries_mk_iff]
    | (with_reducible apply carries_foldl; intro _ _ _)
    | (with_reducible apply carries_foldl_pair; intro _ _ _ _)
    | intro _
    | split
    | dsimp only

theorem rowEffect_carries {s₀ s : State} (row : State → Issue → RowConst → Nat → State) (it : Issue) (k : RowConst)
    (hr : ∀ s it k i, Carries s₀ s → Carries s₀ (row s it k i)) (hs : Carries s₀ s) :
    Carries s₀ (Sys2Proof.Machine.rowEffect row s it k) := by
  unfold Sys2Proof.Machine.rowEffect
  exact carries_foldl (fun s i h => hr _ _ _ _ h) hs

theorem State_runRow_carries {s₀ s : State} (row : State → Issue → RowConst → Nat → State) (it : Issue)
    (hr : ∀ s it k i, Carries s₀ s → Carries s₀ (row s it k i)) (hs : Carries s₀ s) :
    Carries s₀ (Sys2Proof.Machine.State.runRow row s it) := by
  unfold Sys2Proof.Machine.State.runRow
  dsimp only
  refine State_reading_carries _ _ _ _ (fun s h => ?_) (State_start_carries _ _ _ hs)
  exact State_finish_carries _ (rowEffect_carries row _ _ hr h)

theorem State_putRowVals_carries {s₀ : State} {s : State} (it : Issue) (k : RowConst) (i : Nat) (out : List W32) (hs : Carries s₀ s) :
    Carries s₀ (Sys2Proof.Machine.State.putRowVals s it k i out) := by
  unfold Sys2Proof.Machine.State.putRowVals
  try dsimp only
  repeat' first
    | with_reducible assumption
    | with_reducible apply State_rowPut_carries
    | with_reducible apply carries_ite
    | with_reducible apply carries_ite_two
    | with_reducible apply carries_ite_one
    | simp only [carries_mk_iff]
    | (with_reducible apply carries_foldl; intro _ _ _)
    | (with_reducible apply carries_foldl_pair; intro _ _ _ _)
    | intro _
    | split
    | dsimp only

theorem State_putRowVal_carries {s₀ : State} {s : State} (it : Issue) (i : Nat) (x : W32) (hs : Carries s₀ s) :
    Carries s₀ (Sys2Proof.Machine.State.putRowVal s it i x) := by
  unfold Sys2Proof.Machine.State.putRowVal
  try dsimp only
  repeat' first
    | with_reducible assumption
    | with_reducible apply State_rowPut_carries
    | with_reducible apply carries_ite
    | with_reducible apply carries_ite_two
    | with_reducible apply carries_ite_one
    | simp only [carries_mk_iff]
    | (with_reducible apply carries_foldl; intro _ _ _)
    | (with_reducible apply carries_foldl_pair; intro _ _ _ _)
    | intro _
    | split
    | dsimp only

theorem rowNormF_carries {s₀ : State} {s : State} (it : Issue) (k : RowConst) (i : Nat) (hs : Carries s₀ s) :
    Carries s₀ (Sys2Proof.Machine.rowNormF s it k i) := by
  unfold Sys2Proof.Machine.rowNormF
  try dsimp only
  repeat' first
    | with_reducible assumption
    | with_reducible apply State_putRowVals_carries
    | with_reducible apply carries_ite
    | with_reducible apply carries_ite_two
    | with_reducible apply carries_ite_one
    | simp only [carries_mk_iff]
    | (with_reducible apply carries_foldl; intro _ _ _)
    | (with_reducible apply carries_foldl_pair; intro _ _ _ _)
    | intro _
    | split
    | dsimp only

theorem rowNormB_carries {s₀ : State} {s : State} (it : Issue) (k : RowConst) (i : Nat) (hs : Carries s₀ s) :
    Carries s₀ (Sys2Proof.Machine.rowNormB s it k i) := by
  unfold Sys2Proof.Machine.rowNormB
  try dsimp only
  repeat' first
    | with_reducible assumption
    | with_reducible apply State_putRowVals_carries
    | with_reducible apply carries_ite
    | with_reducible apply carries_ite_two
    | with_reducible apply carries_ite_one
    | simp only [carries_mk_iff]
    | (with_reducible apply carries_foldl; intro _ _ _)
    | (with_reducible apply carries_foldl_pair; intro _ _ _ _)
    | intro _
    | split
    | dsimp only

theorem rowAttS_carries {s₀ : State} {s : State} (it : Issue) (k : RowConst) (i : Nat) (hs : Carries s₀ s) :
    Carries s₀ (Sys2Proof.Machine.rowAttS s it k i) := by
  unfold Sys2Proof.Machine.rowAttS
  try dsimp only
  repeat' first
    | with_reducible assumption
    | with_reducible apply State_putRowVal_carries
    | with_reducible apply carries_ite
    | with_reducible apply carries_ite_two
    | with_reducible apply carries_ite_one
    | simp only [carries_mk_iff]
    | (with_reducible apply carries_foldl; intro _ _ _)
    | (with_reducible apply carries_foldl_pair; intro _ _ _ _)
    | intro _
    | split
    | dsimp only

theorem rowAttB_carries {s₀ : State} {s : State} (it : Issue) (k : RowConst) (i : Nat) (hs : Carries s₀ s) :
    Carries s₀ (Sys2Proof.Machine.rowAttB s it k i) := by
  unfold Sys2Proof.Machine.rowAttB
  try dsimp only
  repeat' first
    | with_reducible assumption
    | with_reducible apply State_putRowVals_carries
    | with_reducible apply State_rowPut_carries
    | with_reducible apply carries_ite
    | with_reducible apply carries_ite_two
    | with_reducible apply carries_ite_one
    | simp only [carries_mk_iff]
    | (with_reducible apply carries_foldl; intro _ _ _)
    | (with_reducible apply carries_foldl_pair; intro _ _ _ _)
    | intro _
    | split
    | dsimp only

theorem rowDrop_carries {s₀ : State} {s : State} (it : Issue) (k : RowConst) (i : Nat) (hs : Carries s₀ s) :
    Carries s₀ (Sys2Proof.Machine.rowDrop s it k i) := by
  unfold Sys2Proof.Machine.rowDrop
  try dsimp only
  repeat' first
    | with_reducible assumption
    | with_reducible apply State_putRowVals_carries
    | with_reducible apply carries_ite
    | with_reducible apply carries_ite_two
    | with_reducible apply carries_ite_one
    | simp only [carries_mk_iff]
    | (with_reducible apply carries_foldl; intro _ _ _)
    | (with_reducible apply carries_foldl_pair; intro _ _ _ _)
    | intro _
    | split
    | dsimp only

theorem rowRedSum_carries {s₀ : State} {s : State} (it : Issue) (k : RowConst) (i : Nat) (hs : Carries s₀ s) :
    Carries s₀ (Sys2Proof.Machine.rowRedSum s it k i) := by
  unfold Sys2Proof.Machine.rowRedSum
  try dsimp only
  repeat' first
    | with_reducible assumption
    | with_reducible apply State_putRowVal_carries
    | with_reducible apply carries_ite
    | with_reducible apply carries_ite_two
    | with_reducible apply carries_ite_one
    | simp only [carries_mk_iff]
    | (with_reducible apply carries_foldl; intro _ _ _)
    | (with_reducible apply carries_foldl_pair; intro _ _ _ _)
    | intro _
    | split
    | dsimp only

theorem rowHidden_carries {s₀ : State} {s : State} (it : Issue) (k : RowConst) (i : Nat) (hs : Carries s₀ s) :
    Carries s₀ (Sys2Proof.Machine.rowHidden s it k i) := by
  unfold Sys2Proof.Machine.rowHidden
  try dsimp only
  repeat' first
    | with_reducible assumption
    | with_reducible apply State_putRowVals_carries
    | with_reducible apply carries_ite
    | with_reducible apply carries_ite_two
    | with_reducible apply carries_ite_one
    | simp only [carries_mk_iff]
    | (with_reducible apply carries_foldl; intro _ _ _)
    | (with_reducible apply carries_foldl_pair; intro _ _ _ _)
    | intro _
    | split
    | dsimp only

theorem rowGain_carries {s₀ : State} {s : State} (it : Issue) (k : RowConst) (i : Nat) (hs : Carries s₀ s) :
    Carries s₀ (Sys2Proof.Machine.rowGain s it k i) := by
  unfold Sys2Proof.Machine.rowGain
  try dsimp only
  repeat' first
    | with_reducible assumption
    | with_reducible apply State_rowPut_carries
    | with_reducible apply carries_ite
    | with_reducible apply carries_ite_two
    | with_reducible apply carries_ite_one
    | simp only [carries_mk_iff]
    | (with_reducible apply carries_foldl; intro _ _ _)
    | (with_reducible apply carries_foldl_pair; intro _ _ _ _)
    | intro _
    | split
    | dsimp only

theorem State_rowRow_carries {s₀ s : State} (c : Nat) (kinds : List CmdKind) (row : State → Issue → RowConst → Nat → State)
    (hr : ∀ s it k i, Carries s₀ s → Carries s₀ (row s it k i)) (hs : Carries s₀ s) :
    Carries s₀ (Sys2Proof.Machine.State.rowRow s c kinds row) := by
  unfold Sys2Proof.Machine.State.rowRow
  exact State_runEngine_carries _ _ _ _ _ (fun s it h => State_runRow_carries row it hr h) hs

theorem execRowNormForward_carries {s₀ : State} {s : State} (c : Nat) (t : State) (ht : (Sys2Proof.Machine.execRowNormForward c s) = .next t) (hs : Carries s₀ s) :
    Carries s₀ t := by
  unfold Sys2Proof.Machine.execRowNormForward at ht
  obtain rfl := within_some ht
  try dsimp only
  repeat' first
    | with_reducible assumption
    | with_reducible apply State_rowRow_carries
    | with_reducible apply rowNormF_carries
    | with_reducible apply carries_ite
    | with_reducible apply carries_ite_two
    | with_reducible apply carries_ite_one
    | simp only [carries_mk_iff]
    | (with_reducible apply carries_foldl; intro _ _ _)
    | (with_reducible apply carries_foldl_pair; intro _ _ _ _)
    | intro _
    | split
    | dsimp only

theorem execRowNormBackward_carries {s₀ : State} {s : State} (c : Nat) (t : State) (ht : (Sys2Proof.Machine.execRowNormBackward c s) = .next t) (hs : Carries s₀ s) :
    Carries s₀ t := by
  unfold Sys2Proof.Machine.execRowNormBackward at ht
  obtain rfl := within_some ht
  try dsimp only
  repeat' first
    | with_reducible assumption
    | with_reducible apply State_rowRow_carries
    | with_reducible apply rowNormB_carries
    | with_reducible apply carries_ite
    | with_reducible apply carries_ite_two
    | with_reducible apply carries_ite_one
    | simp only [carries_mk_iff]
    | (with_reducible apply carries_foldl; intro _ _ _)
    | (with_reducible apply carries_foldl_pair; intro _ _ _ _)
    | intro _
    | split
    | dsimp only

theorem execRowAttentionStatistics_carries {s₀ : State} {s : State} (c : Nat) (t : State) (ht : (Sys2Proof.Machine.execRowAttentionStatistics c s) = .next t) (hs : Carries s₀ s) :
    Carries s₀ t := by
  unfold Sys2Proof.Machine.execRowAttentionStatistics at ht
  obtain rfl := within_some ht
  try dsimp only
  repeat' first
    | with_reducible assumption
    | with_reducible apply State_rowRow_carries
    | with_reducible apply rowAttS_carries
    | with_reducible apply carries_ite
    | with_reducible apply carries_ite_two
    | with_reducible apply carries_ite_one
    | simp only [carries_mk_iff]
    | (with_reducible apply carries_foldl; intro _ _ _)
    | (with_reducible apply carries_foldl_pair; intro _ _ _ _)
    | intro _
    | split
    | dsimp only

theorem execRowAttentionBackward_carries {s₀ : State} {s : State} (c : Nat) (t : State) (ht : (Sys2Proof.Machine.execRowAttentionBackward c s) = .next t) (hs : Carries s₀ s) :
    Carries s₀ t := by
  unfold Sys2Proof.Machine.execRowAttentionBackward at ht
  obtain rfl := within_some ht
  try dsimp only
  repeat' first
    | with_reducible assumption
    | with_reducible apply State_rowRow_carries
    | with_reducible apply rowAttB_carries
    | with_reducible apply carries_ite
    | with_reducible apply carries_ite_two
    | with_reducible apply carries_ite_one
    | simp only [carries_mk_iff]
    | (with_reducible apply carries_foldl; intro _ _ _)
    | (with_reducible apply carries_foldl_pair; intro _ _ _ _)
    | intro _
    | split
    | dsimp only

theorem execRowDropout_carries {s₀ : State} {s : State} (c : Nat) (t : State) (ht : (Sys2Proof.Machine.execRowDropout c s) = .next t) (hs : Carries s₀ s) :
    Carries s₀ t := by
  unfold Sys2Proof.Machine.execRowDropout at ht
  obtain rfl := within_some ht
  try dsimp only
  repeat' first
    | with_reducible assumption
    | with_reducible apply State_rowRow_carries
    | with_reducible apply rowDrop_carries
    | with_reducible apply carries_ite
    | with_reducible apply carries_ite_two
    | with_reducible apply carries_ite_one
    | simp only [carries_mk_iff]
    | (with_reducible apply carries_foldl; intro _ _ _)
    | (with_reducible apply carries_foldl_pair; intro _ _ _ _)
    | intro _
    | split
    | dsimp only

theorem execRowRowsum_carries {s₀ : State} {s : State} (c : Nat) (t : State) (ht : (Sys2Proof.Machine.execRowRowsum c s) = .next t) (hs : Carries s₀ s) :
    Carries s₀ t := by
  unfold Sys2Proof.Machine.execRowRowsum at ht
  obtain rfl := within_some ht
  try dsimp only
  repeat' first
    | with_reducible assumption
    | with_reducible apply State_rowRow_carries
    | with_reducible apply rowRedSum_carries
    | with_reducible apply carries_ite
    | with_reducible apply carries_ite_two
    | with_reducible apply carries_ite_one
    | simp only [carries_mk_iff]
    | (with_reducible apply carries_foldl; intro _ _ _)
    | (with_reducible apply carries_foldl_pair; intro _ _ _ _)
    | intro _
    | split
    | dsimp only

theorem execRowHiddenGradientSum_carries {s₀ : State} {s : State} (c : Nat) (t : State) (ht : (Sys2Proof.Machine.execRowHiddenGradientSum c s) = .next t) (hs : Carries s₀ s) :
    Carries s₀ t := by
  unfold Sys2Proof.Machine.execRowHiddenGradientSum at ht
  obtain rfl := within_some ht
  try dsimp only
  repeat' first
    | with_reducible assumption
    | with_reducible apply State_rowRow_carries
    | with_reducible apply rowHidden_carries
    | with_reducible apply carries_ite
    | with_reducible apply carries_ite_two
    | with_reducible apply carries_ite_one
    | simp only [carries_mk_iff]
    | (with_reducible apply carries_foldl; intro _ _ _)
    | (with_reducible apply carries_foldl_pair; intro _ _ _ _)
    | intro _
    | split
    | dsimp only

theorem execRowGainAccumulation_carries {s₀ : State} {s : State} (c : Nat) (t : State) (ht : (Sys2Proof.Machine.execRowGainAccumulation c s) = .next t) (hs : Carries s₀ s) :
    Carries s₀ t := by
  unfold Sys2Proof.Machine.execRowGainAccumulation at ht
  obtain rfl := within_some ht
  try dsimp only
  repeat' first
    | with_reducible assumption
    | with_reducible apply State_rowRow_carries
    | with_reducible apply rowGain_carries
    | with_reducible apply carries_ite
    | with_reducible apply carries_ite_two
    | with_reducible apply carries_ite_one
    | simp only [carries_mk_iff]
    | (with_reducible apply carries_foldl; intro _ _ _)
    | (with_reducible apply carries_foldl_pair; intro _ _ _ _)
    | intro _
    | split
    | dsimp only

end Sys2Proof.Laws
end

