-- ==== Sys2Proof/Machine/Registers.lean ====
section
/-! DEFINITION. What the outside sees without a command: reads of the host's register space (14; 03, 05, 06, 08, 13, 15), none
of which has a side effect (R482), and the pins that the package drives (R610, R625). -/

namespace Sys2Proof.Machine

open Sys2Proof

def bit01 (b : Bool) : Nat := if b then 1 else 0

/-! ### Global registers, core blocks and die blocks (14, "The privileged view") -/

/-- The 8 bytes at `offset` of the global registers of a port's physical function. -/
def State.globalWord (s : State) (port offset : Nat) : Nat :=
  match offset with
  | 0 => fields [(0, 8, s.odv Od.STEPPING), (8, 1, port), (16, 32, s.nowValue Od.FIRMWARE_VERSION)]
  | 8 => fields [(0, 1, bit01 s.power.ready), (1, 1, bit01 (s.odv Od.STICKY_LOG != 0)), (2, 1, bit01 (s.umberCores != 0)),
      (3, 2, s.odv Od.POWER_PROFILE), (5, 1, s.odv Od.PACKAGE_MODE), (6, 1, s.odv Od.ACTIVE_CONTROL_DIE % 2),
      (7, 1, bit01 (s.port (1 - port)).linkUp)]
  | 0x40 => fields [(0, 1, bit01 (s.port port).apEnable), (24, 40, (s.port port).apBase)]
  | _ => 0

/-- `SB_STREAM_STATUS` of a slot (08): the wait is shown while it is held, and a stream whose engine has no free entry is blocked
(R259). -/
def State.streamStatus (s : State) (c slot : Nat) : Nat :=
  let t := s.stream c slot
  let held := t.state = 2
  let state := if t.state = 1 && s.engineFull c (s.nextEngine c slot) then 3 else t.state
  fields [(0, 3, state), (3, 6, if held then t.waitCtr else 0), (9, 1, bit01 (held && t.waitConsume)), (10, 1, bit01 t.hang),
    (16, 10, t.platform), (32, 32, if held then t.waitT else 0)]

/-- `SB_STREAM_POS` of a slot (08). -/
def State.streamPos (s : State) (c slot : Nat) : Nat :=
  let t := s.stream c slot
  fields [(0, 24, t.cmd), (32, 32, t.step % 2 ^ 32)]

/-- `ARRAY_STATUS` of an array (R67, R68): a tile whose drain waits is frozen, one of a core whose clock stands still too, and it can
be replayed until an output has left (R86). -/
def State.arrayStatus (s : State) (c a : Nat) : Nat :=
  let x := s.array c a
  let still := (s.island c).parked || s.power.fast != 0
  let runs := x.running.isSome
  let whole := match x.running with
    | some it => x.drain.length = tM it.w * it.tile.cols * tBatch it.w && bitOf x.status 5
    | none => false
  let state := if !runs then 0 else if bitsOf x.status 0 2 = 3 then 3 else 2
  setBits (setBits (setBits (setBits x.status 0 2 state) 3 1 (if runs then 1 else bitsOf x.status 3 1)) 4 1 (bit01 still)) 5 1
    (bit01 whole)

/-- The 8 bytes at `o` of a core block. -/
def State.coreWord (s : State) (c o : Nat) : Nat :=
  if o < 0x20 then (s.array c (o / 8)).ctl
  else if o < 0x30 then
    let a := (o - 0x20) / 4
    fields [(0, 32, s.arrayStatus c a), (32, 32, s.arrayStatus c (a + 1))]
  else if 0x80 ≤ o && o < 0xC0 then s.streamStatus c ((o - 0x80) / 8)
  else if 0xC0 ≤ o && o < 0x100 then s.streamPos c ((o - 0xC0) / 8)
  else if 0x100 ≤ o && o < 0x1C0 then
    let k := (o - 0x100) / 4
    fields [(0, 32, s.ctr c k), (32, 32, s.ctr c (k + 1))]
  else 0

/-- The 8 bytes at `o` of a die block. -/
def State.dieWord (s : State) (die o : Nat) : Nat :=
  if o < 0x20 then tabGet 0 (s.die die).slotCtl (o / 8)
  else if o = 0x20 then fields [(0, 32, (s.die die).ttCtl), (32, 32, (s.die die).sidingCtl)]
  else 0

/-! ### Platforms, queues and the mailbox -/

/-- The 8 bytes at `o` of `PLATFORM_CFG` and, from 64 on, of `PLATFORM_STATUS` (13); W1S bits read zero. -/
def State.platformWord (s : State) (p o : Nat) : Nat :=
  let x := s.plat p
  if o < 64 then bitsOf (setBits (setBits x.cfg 0 2 x.st) 269 3 x.armError) (8 * o) 64
  else match o - 64 with
    | 0 => x.armedTime
    | 8 => x.waitOthers
    | 16 => x.waitLatency
    | 24 => x.overtaken % 2 ^ 32
    | _ => 0

/-- The 8 bytes at `o` of a queue block. -/
def State.queueWord (s : State) (q o : Nat) : Nat :=
  let u := s.queue q
  match o with
  | 0 => u.descBase
  | 8 => u.cplBase
  | 16 => fields [(0, 5, u.slotsLog2), (8, 5, u.cplLog2), (16, 1, bit01 u.enable)]
  | 24 => fields [(0, 32, u.head), (32, 1, bit01 u.stopped), (40, 8, u.stopCode)]
  | 32 => u.tail
  | 40 => fields [(0, 32, u.cplTail), (32, 32, u.cplHead)]
  | _ => 0

/-- The 8 bytes at `o` of a port's mailbox (15, "The mailbox"). -/
def State.mailboxWord (s : State) (port o : Nat) : Nat :=
  let h := s.port port
  if o = 0 then (h.mbxCtrl &&& 0x1FC) + 2 * bit01 h.mbxServing.isSome
  else if 0x100 ≤ o && o < 0x514 then leNat ((h.mbxRequest.drop (o - 0x100)).take (Nat.min 8 (0x514 - o)))
  else if 0x1000 ≤ o && o < 0x1414 then leNat ((h.mbxResponse.drop (o - 0x1000)).take (Nat.min 8 (0x1414 - o)))
  else 0

/-- A word of the counter view (R487). -/
def State.counterView (s : State) (p n : Nat) : Nat :=
  match s.mapCtr p (n / 48) (n % 48) with
  | some (c, k) => s.ctr c k
  | none => 0

/-- The 8 bytes at `o` of the context page of a Platform. -/
def State.pageWord (s : State) (p o : Nat) : Nat :=
  let x := s.plat p
  let hangs : Bool := s.cores.any fun e => e.2.streams.any fun t => t.2.platform = p && t.2.hang
  if 0x2800 ≤ o then
    let n := (o - 0x2800) / 4
    if n + 1 < 288 * 48 then fields [(0, 32, s.counterView p n), (32, 32, s.counterView p (n + 1))] else 0
  else if 0x800 ≤ o then
    let n := (o - 0x800) / 64
    if n < x.queueCount then s.queueWord (x.queueBase + n) (o % 64) else 0
  else match o with
    | 0 => fields [(0, 10, p), (10, 2, x.st), (16, 7, x.fn), (32, 11, 32 * x.vf)]
    | 8 => fields [(0, 1, bit01 x.epochStopped), (1, 1, bit01 x.doorbellRefused), (2, 1, bit01 hangs), (3, 1, bit01 (x.st = 3)),
        (4, 1, bit01 (x.st = 2)), (5, 1, bit01 (s.recordHeld p)), (6, 1, bit01 x.recordDropped)]
    | 0x10 => x.epoch
    | 0x20 => x.fc
    | _ => 0

/-! ### A read (R8, R481 to R483) -/

/-- The 8 bytes at an aligned offset of a BAR of a function; reserved offsets and write-only registers read zero. -/
def State.registerWord (s : State) (port vf bar w : Nat) : Nat :=
  if vf = 0 && bar = 0 then
    if w < 0x1000 then s.globalWord port w
    else if 0x10000 ≤ w && w < 0x20000 then s.mailboxWord port (w - 0x10000)
    else if 0x100000 ≤ w && w < 0x220000 then s.coreWord ((w - 0x100000) / 4096) (w % 4096)
    else if 0x300000 ≤ w && w < 0x330000 then s.dieWord ((w - 0x300000) / 4096) (w % 4096)
    else if 0x400000 ≤ w && w < 0x420000 then s.platformWord ((w - 0x400000) / 128) (w % 128)
    else if 0x500000 ≤ w && w < 0x540000 then s.queueWord ((w - 0x500000) / 64) (w % 64)
    else 0
  else if (vf = 0 && bar = 4) || (vf != 0 && bar = 0) then
    if s.responds port vf (w / 65536) then s.pageWord (w / 65536) (w % 65536) else 0
  else 0

/-- What a register read returns: one of 4 or 8 bytes, naturally aligned; any other returns zero. The aperture has a row of
its own. -/
def State.readRegister (s : State) (port vf bar offset size : Nat) : Nat :=
  if (size = 4 || size = 8) && offset % size = 0 then
    bitsOf (s.registerWord port vf bar (offset / 8 * 8)) (8 * (offset % 8)) (8 * size)
  else 0

/-! ### Pins (18, "Pin groups"; 19, "Control lands") -/

/-- `PKG_ALERT#`: high impedance without VAUX; else whether it is pulled low, by a bit of the sticky log or by a sensor at or
above its thermal warning (R625). -/
def State.pkgAlert (s : State) : Option Bool :=
  if !s.power.vaux then none
  else some (s.odv Od.STICKY_LOG != 0 || s.islands.any fun e => s.islandPowered e.1 && match e.2.celsius with
    | some t => 100 ≤ t
    | none => false)

/-- The pin groups of R610. -/
inductive PinGroup where
  | hostLanes | hostSideband | linamLanes | ddr5Bus | ddr5Reset | flash | fieldNetwork | mainEn
  deriving DecidableEq, Repr

/-- The condition of a pin group. -/
inductive PinCondition where
  | highImpedance | pulledLow | electricalIdle | ignored | sensed | selfRefresh | low | high | active | perFnEnable | running
  deriving DecidableEq, Repr

/-- The condition of each pin group (R610): unpowered, in Standby, in a reset, or running. -/
def State.pinGroup (s : State) (g : PinGroup) : PinCondition :=
  let p := s.power
  if !p.vaux then (match g with
    | .ddr5Reset => .pulledLow
    | .mainEn => .pulledLow
    | _ => .highImpedance)
  else if !p.mainEn then (match g with
    | .hostLanes => .highImpedance
    | .hostSideband => .ignored
    | .linamLanes => .electricalIdle
    | .ddr5Bus => .highImpedance
    | .ddr5Reset => .low
    | .flash => .active
    | .fieldNetwork => .perFnEnable
    | .mainEn => .low)
  else if !p.ready then (match g with
    | .hostLanes => .electricalIdle
    | .hostSideband => .sensed
    | .linamLanes => .electricalIdle
    | .ddr5Bus => if p.warm then .selfRefresh else .highImpedance
    | .ddr5Reset => if p.warm then .high else .low
    | .flash => .active
    | .fieldNetwork => .perFnEnable
    | .mainEn => .high)
  else match g with
    | .flash => .active
    | .fieldNetwork => .perFnEnable
    | .mainEn => .high
    | _ => .running

end Sys2Proof.Machine
end

