-- ==== Sys2Proof/Tests/Base.lean ====
section
/-! SUPPORT. The small states on which the tests and the witnesses run. -/

namespace Sys2Proof.Tests

open Sys2Proof Sys2Proof.Machine

/-- A package that is Ready, with both host links up. -/
def on : State :=
  { State.reset with
    power := { Power.off with vaux := true, mainEn := true, vinGood := true, ready := true, boot := 1 }
    ports := [(0, { HostPort.empty with linkUp := true, retry := false, perst := false }),
      (1, { HostPort.empty with linkUp := true, retry := false, perst := false })] }

/-- A command word from (low bit, length, value) fields. -/
def word (fs : List (Nat × Nat × Nat)) : CmdWord := BitVec.ofNat 512 (fields fs)

/-- The bytes of commands (R6). -/
def code (ws : List CmdWord) : List Byte := ws.flatMap fun w => leBytes 64 w.toNat

/-- A stream in slot 0 whose commands are all in its prologue. -/
def streamOf (ws : List CmdWord) : StreamDecl :=
  { slot := 0, code := code ws, bodyAt := ws.length, epilogueAt := ws.length }

/-- A Distil image with one stream on core 0, four host-input counters there, and one channel of that core alone. -/
def img (ws : List CmdWord) : Image :=
  { partNumber := [], stepping := 0, kind := .distil, nCores := 1, headerDefined := true, sectionsInBounds := true
    scaleTable := 0, scaleEntries := 0, updRecord := 0, red := 0, updDescs := [], wgradDescs := [], tensors := []
    logitRows := [], packages := [], serving := none
    cores := [{ core := 0, streams := [streamOf ws],
                counters := [(0, 2 ^ 58), (1, 2 ^ 58), (2, 2 ^ 58), (3, 2 ^ 58)] }]
    channels := [{ chan := 0, scope := 0, voteSrc := 0, cores := [0], packages := [] }] }

/-- A Distil job whose one stream, on core 0, is ready to issue the first of the commands. -/
def running (ws : List CmdWord) : State :=
  { on with
    loaded := some (img ws)
    plats := [(0, { Platform.empty with st := 1, image := some (img ws), cfg := 4 * 2 ^ 44 })]
    cores := [(0, { CoreState.empty with streams := [(0, { Stream.empty with state := 1, released := true })] })]
    job := { Job.empty with active := true } }

/-- The command that `running ws` issues. -/
def first (w : CmdWord) : Issue := { core := 0, slot := 0, w := w }

def wSync : CmdWord := 0
def wTile (mode : Nat) : CmdWord :=
  word [(0, 8, 1), (128, 2, mode), (208, 16, 1), (224, 16, 1), (240, 16, 1), (256, 16, 1),
    (304, 32, if mode = 2 then 0 else 64), (336, 32, 128)]
def wMove (tt sd src dst : Nat) : CmdWord :=
  word [(0, 8, 2), (128, 64, src), (192, 64, dst), (256, 32, 1), (288, 32, 1), (320, 4, 5), (416, 32, tt), (448, 32, sd)]
/-- Moves of one B16 element: copied within a die, to another package, transposed, requantized to W32, spilled, filled. -/
def wCopy : CmdWord := wMove 0 0 (2 ^ 57) (2 ^ 57 + 4096)
def wTranspose : CmdWord := wMove (1 + 4 * 5) 0 (2 ^ 57) (2 ^ 57 + 4096)
def wRequant : CmdWord := wMove (2 + 4 * 5 + 64 * 6) 0 (2 ^ 57) (2 ^ 57 + 4096)
def wSpill : CmdWord := wMove 0 1 (2 ^ 57) (2 ^ 20)
def wFill : CmdWord := wMove 0 2 (2 ^ 20) (2 ^ 57)
def wRemote : CmdWord := wMove 0 0 (2 ^ 57) (2 ^ 56 * 5 + 2 ^ 46)
def wRow (op : Nat) : CmdWord :=
  word [(0, 8, 3), (128, 8, op), (144, 16, 1), (160, 32, 1), (192, 32, 64), (224, 32, 128), (256, 32, 192), (288, 32, 256)]
/-- The constant block of `wRow`: every format B16, the operands of each operation in core store. -/
def rowRunning (op : Nat) : State :=
  (running [wRow op]).put (yardAddr 0 256) (leBytes 48 (fields
    [(64, 32, 512), (96, 32, 576), (128, 32, 1024), (160, 32, 1536), (192, 32, 0), (256, 12, 0x555), (288, 32, 1)]))
/-- A Junction command over one row of a vocabulary of 1 on one die, and its parameter block: T 1, alpha 1. -/
def wJct (fn pass depth : Nat) : CmdWord :=
  word [(0, 8, 4), (128, 64, fields [(0, 2, fn), (2, 2, pass), (16, 13, depth + 1), (32, 20, 0), (58, 4, depth)]), (192, 32, 256)]
def jctRunning (fn pass depth : Nat) : State :=
  ((running [wJct fn pass depth]).put (yardAddr 0 256) (leBytes 36 (fields
    [(0, 32, 0x3F800000), (32, 32, 0x3F800000), (64, 32, 1024), (96, 32, 2048), (128, 32, 4096), (160, 32, 8192), (192, 32, 4096),
     (224, 32, 16384), (256, 32, 20480)]))).put (yardAddr 0 1024) (leBytes 8 (0x3F800000 + 2 ^ 32))

/-- A PLACE before a tile, and a job of two cores whose channel 0 waits for both. -/
def wPlace : CmdWord := word [(0, 8, 10), (256, 32, 1)]
def running2 (ws : List CmdWord) : State :=
  let s := running ws
  let i := { img ws with channels := [{ chan := 0, scope := 0, voteSrc := 0, cores := [0, 1], packages := [] }] }
  s.setPlat 0 { s.plat 0 with image := some i }

/-- No freeze. -/
def idleFreeze : Freeze := { dry := 0, drain := 0, both := 0, clock := 0, lastDry := false, lastDrain := false }

/-- `running` with port 0 `ACTIVE` and every package reached through it. -/
def linked (ws : List CmdWord) : State :=
  ({ running ws with points := fields ((List.range 4).map fun d => (32 * d, 32, 1 + 2 ^ 21)) }).setOd Od.LP_STATE 3

/-- The next state of a command that has one. -/
def nxt (o : Out) : State :=
  match o with
  | .next s => s
  | _ => .reset

/-- `running` with a scale-table entry for tensor 0 that names W32 as its output. -/
def scaled (w : CmdWord) : State :=
  let s := running [w]
  s.setPlat 0 { s.plat 0 with scales := [(0, (0, 6 * 2 ^ 28))] }

/-- A state whose port 0 holds a message on a VC. -/
def mail (s : State) (v : Nat) (m : Message) : State :=
  ((s.setOd Od.LP_STATE 3).setOd Od.POD_PACKAGE_ID 0).setLink 0 { LinkPort.empty with vcs := [(v, { LinkVc.empty with inbox := [m] })] }

/-- A message of a kind from package 1 to package 0, with further header fields. -/
def msg (kind : Nat) (more : List (Nat × Nat × Nat)) (data : List Byte) : Message :=
  { header := fields ([(0, 8, kind), (32, 10, 1), (44, 4, 15)] ++ more), data := data, crc := crc64 data }

/-- Junction inputs that have arrived at die 0. -/
def arrived (s : State) (xs : List JctIn) : State := s.setDie 0 { s.die 0 with inbox := (s.die 0).inbox ++ xs }

/-- The logits of row 0 of teacher and student. -/
def logits : List JctIn :=
  [{ platform := 0, stream := 0, row := 0, col := 0, fmt := 6, value := 0 }, { platform := 0, stream := 1, row := 0, col := 0, fmt := 6, value := 0 }]

/-- A DISTIL STATS command in its slot with the logits of its one row folded. -/
def statsFolded : State := (arrived (nxt (exec (.jctDistilStats 0) (jctRunning 0 0 0))) logits).jctSettle 0

-- more states below

/-- A Junction command of no rows. -/
def jctCmd : JctCmd := (running [wJct 0 0 0]).jctNew (first (wJct 0 0 0))

/-- The command in a slot of die 0. -/
def slotCmd (k : Nat) (s : State) : JctCmd :=
  match tabFind (s.die 0).slots k with
  | some c => c
  | none => jctCmd

/-- A DISTIL EMIT command whose one row has been broadcast and whose inputs have arrived. -/
def emitStats : JctStats :=
  { words := List.replicate 12 0, flags := 0, race := none, cap := none, cands := [], tail := 0, ignore := false, masked := false
    terms := (slotCmd 0 (nxt (exec (.jctDistilEmit 0) (jctRunning 0 1 0)))).terms }
def emitting : State :=
  let s := arrived (nxt (exec (.jctDistilEmit 0) (jctRunning 0 1 0))) logits
  s.setDie 0 { s.die 0 with bcast := [(statKey 0 8192 0, emitStats)] }

/-- A DISTIL STATS command that emits (`RETAIN`), its one row folded and broadcast. -/
def keeping : State :=
  let w := wJct 0 0 0 ||| (1#512 <<< 132)
  let s := jctRunning 0 0 0
  let s := { s with plats := (running [w]).plats }
  nxt (exec (.jctPartialMerge 0 0) ((arrived (nxt (exec (.jctDistilStats 0) s)) logits).jctSettle 0))
def keptStats : JctStats := (keeping.jctStat 0 (slotCmd 0 keeping) 0).getD emitStats

/-- An image that updates one weight of tensor 0x4000, its master at HBM address 2^20; and its job in an update. -/
def updImg : Image :=
  { img [] with
    updDescs := [fields [(0, 16, 0x4000), (16, 2, 1), (64, 64, 2 ^ 20), (128, 64, 2 ^ 21), (256, 64, 2 ^ 22), (320, 64, 2 ^ 23), (384, 64, 2 ^ 24)]]
    wgradDescs := [fields [(0, 16, 0x4000), (32, 32, 1), (64, 32, 1)]] }
def updating : State :=
  let s := running []
  { s.setPlat 0 { s.plat 0 with image := some updImg } with job := { Job.empty with active := true, update := 1 } }

/-- A job whose windows have two steps and whose exchange has two buckets of one stripe. -/
def redImg : Image :=
  { img [] with red := fields [(0, 64, 2 ^ 32), (64, 64, 2 ^ 33), (128, 16, 2), (144, 7, 1), (152, 7, 2), (160, 16, 2)] }
def exchanging : State :=
  let s := running []
  s.setPlat 0 { s.plat 0 with image := some redImg }

/-- An exchange of two packages in progress, its bucket 0 filled; and the same alone in its ring. -/
def ringed : State :=
  let s := ((exchanging.setOd Od.RED_RING_SIZE 2).setOd Od.RED_RING_POS 0).setOd Od.RED_RING_TABLE (2 ^ 16)
  { s with red := { Exchange.empty with active := true, step := 1, filled := [0] } }

/-- A whole stripe 0 on its way to this package, with one added B16 operand's form and every element zero. -/
def stripeMsg : Message :=
  { header := fields [(0, 8, 2), (8, 2, 1), (32, 10, 1), (44, 4, 15), (96, 32, 1048576), (128, 64, 2 ^ 32), (192, 64, 2 ^ 32), (288, 8, 1)]
    data := List.replicate 1048576 0, crc := 0 }
def stripeMail : State := mail ringed 1 stripeMsg

/-- `ACCUM` of one granule outside every exchange's image. -/
def granuleMsg : Message :=
  let d := List.replicate 4096 (0 : Byte)
  { header := fields [(0, 8, 2), (8, 2, 1), (32, 10, 1), (44, 4, 15), (96, 32, 4096), (128, 64, 2 ^ 20), (192, 64, 2 ^ 20), (288, 8, 1)]
    data := d, crc := 0 }

/-- A shadow of position 0 with its exchange of step 1 in progress. -/
def shadowing : State := { ((ringed.setOd Od.RED_RING_POS 0xFFFF).setOd Od.RED_SHADOW_OF 0) with pending := [] }

theorem granuleMsg_length : granuleMsg.data.length = 4096 := List.length_replicate
theorem stripeMsg_length : stripeMsg.data.length = 1048576 := List.length_replicate

/-- The CRC of zeros is 0. -/
theorem crc64_zeros (n : Nat) : crc64 (List.replicate n 0) = 0 := by
  show (List.replicate n 0).foldl crc64Byte 0 = 0
  induction n with
  | zero => rfl
  | succ n ih => rwa [List.replicate_succ, List.foldl_cons, show crc64Byte 0 0 = 0 by decide]

/-- A package with a loaded image of no tensors and a valid manifest of step 3 in slot A: one auxiliary block of 80 zero
bytes, and the header's CRC in its last 8 bytes. -/
def restorable : State :=
  { on with
    loaded := some (img [])
    ckpt := { Ckpt.empty with area := 2 ^ 30 }
    mem := [(0, 1), (1, 67), (4, 3), (67, 80), (504, 62), (505, 216), (506, 177), (507, 96), (508, 153), (509, 254), (510, 252),
      (511, 172)].map fun e => (2 ^ 56 + e.1, e.2) }

/-- A Serve package whose slot A holds a valid manifest of a serving snapshot of round 3. -/
def snapshotted : State :=
  { (on.setOd Od.PACKAGE_MODE 1).setOd Od.DDR5_RESERVE_SIZE (2 ^ 32) with
    mem := [(0, 1), (1, 67), (2, 2), (4, 3), (67, 80), (504, 255), (505, 209), (506, 232), (507, 222), (508, 250), (509, 76),
      (510, 41), (511, 42)].map fun e => (2 ^ 56 + e.1, e.2) }

/-- The coder's slot A with an erroneous word in its auxiliary state. -/
def miscoded : State :=
  { running [] with
    ckpt := { Ckpt.empty with area := 2 ^ 30, coding := some 3, next := true }, mem := restorable.mem, eccBad := [2 ^ 56 + 2 ^ 24] }

/-- The CRC with its register evaluated at every byte, as the kernel needs it for long ranges. -/
def crcForced : Nat → List Byte → Nat
  | c, [] => c
  | c, b :: bs => if crc64Byte c b = 0 then crcForced 0 bs else crcForced (crc64Byte c b) bs

theorem crcForced_eq (bs : List Byte) (c : Nat) : crc64From c bs = crcForced c bs := by
  induction bs generalizing c with
  | nil => rfl
  | cons b bs ih =>
    show crc64From (crc64Byte c b) bs = _
    unfold crcForced
    split
    · rename_i h; rw [h, ih]
    · exact ih _
theorem crc64_forced (bs : List Byte) : crc64 bs = crcForced 0 bs := crcForced_eq bs 0

/-- A Linam port 0 that is `ACTIVE`, whose sender holds one group, sequence 0, and has credits. -/
def port0 (l : LinkPort) : State := ((linked []).setOd (lpKey Od.LP_RX_LANE_MAP 0) 0x76543210).setLink 0 l
def held : LinkPort := { LinkPort.empty with retryBuf := [{ seq := 0, frames := [] }], txSeq := 1 }

/-- A sealed group of idle frames that acknowledges nothing: sequence 0, acknowledged 1023. -/
def idleGroup (nak : Nat) : List Frame :=
  withTrailer (List.replicate 16 { ctl := 0, flit := 0 }) (trailerBits 0 1023 nak 0 + (if nak = 0 then 1911662883 else 2898213492) * 2 ^ 32)

def crc32Forced : Nat → List Byte → Nat
  | c, [] => c
  | c, b :: bs => if crc32Byte c b = 0 then crc32Forced 0 bs else crc32Forced (crc32Byte c b) bs

theorem crc32Forced_eq (bs : List Byte) (c : Nat) : bs.foldl crc32Byte c = crc32Forced c bs := by
  induction bs generalizing c with
  | nil => rfl
  | cons b bs ih =>
    show (bs.foldl crc32Byte (crc32Byte c b)) = _
    unfold crc32Forced
    split
    · rename_i h; rw [h, ih]
    · exact ih _
theorem groupCrc_forced (fs : List Frame) : groupCrc fs =
    crc32Forced 0xFFFFFFFF ((withTrailer fs (trailerOf fs % 2 ^ 32)).flatMap fun (f : Frame) => f.ctl :: leBytes 256 f.flit) ^^^ 0xFFFFFFFF := by
  unfold groupCrc crc32c; rw [crc32Forced_eq]

/-- Queue 0 of an armed Platform 0 of the physical function, enabled, with rings in host memory and one descriptor. -/
def posting (w slots : Nat) : State :=
  { running [] with
    queues := [(0, { Queue.empty with enable := true, descBase := 3 * 2 ^ 56, cplBase := 3 * 2 ^ 56 + 2 ^ 20, slotsLog2 := 6, cplLog2 := 6,
                                      tail := slots })]
    hostMem := memPutAll [] 0 (leBytes (64 * slots) w) }

/-- The descriptor that `posting` holds. -/
def dsc (w slots : Nat) : Desc := { n := 0, w := w, slots := slots }

/-- Descriptors: a copy within HBM, one from host memory, one to it, a 3-byte inline write, a fence, a flush, a request record. -/
def wDCopy : Nat := fields [(0, 8, 1), (128, 64, 0), (192, 64, 4096), (256, 32, 63)]
def wDFrom : Nat := fields [(0, 8, 1), (128, 64, 3 * 2 ^ 56 + 2 ^ 21), (192, 64, 4096), (256, 32, 63)]
def wDTo : Nat := fields [(0, 8, 1), (128, 64, 4096), (192, 64, 3 * 2 ^ 56 + 2 ^ 21), (256, 32, 63)]
def wDInline : Nat := fields [(0, 8, 2), (8, 1, 1), (192, 64, 4096), (256, 32, 2), (512, 24, 0x030201)]
def wDInlineHost : Nat := fields [(0, 8, 2), (8, 1, 1), (192, 64, 3 * 2 ^ 56 + 2 ^ 21), (256, 32, 2), (512, 24, 0x030201)]
def wDHost : Nat := fields [(0, 8, 1), (128, 64, 3 * 2 ^ 56 + 2 ^ 21), (192, 64, 3 * 2 ^ 56 + 2 ^ 22), (256, 32, 63)]
def wDOver : Nat := fields [(0, 8, 1), (128, 64, 0), (192, 64, 32), (256, 32, 63)]
def wDUp : Nat := fields [(0, 8, 1), (128, 64, 4 * 2 ^ 56 + 2 ^ 55 + 2 ^ 21), (192, 64, 4096), (256, 32, 63)]
def wDInlineUp : Nat := fields [(0, 8, 2), (8, 1, 1), (192, 64, 4 * 2 ^ 56 + 2 ^ 55 + 2 ^ 21), (256, 32, 2), (512, 24, 0x030201)]
def wDFence : Nat := 3
def wDFlush : Nat := 4 + 2 ^ 9
def wDServe : Nat := 5 + 2 ^ 8
def wDServeFar : Nat := wDServe + 2 ^ 512 * (5 + 2 ^ 192 + 2 ^ 315 + 2 ^ 320)

/-- An open aperture onto HBM address 0; the same with a teacher image there; and an open CXL window of 1 GiB at DDR5 address 0. -/
def opened : State := on.setPort 0 { on.port 0 with apEnable := true }
def armedServe : State :=
  ((opened.setOd Od.PACKAGE_MODE 1).setOd Od.SERVE_FW_BYTES 65536).setPlat 3 { Platform.empty with st := 1 }
def guarded : State := { opened with job := { Job.empty with active := true, teacherBase := 0, teacherBytes := 65536 } }
def windowed : State :=
  ((on.setPort 0 { on.port 0 with cxl := true, hdmSize := 2 ^ 30, hdmCommitted := true }).setOd Od.CXL_WIN_BASE_HP0 (2 ^ 56)).setOd
    Od.CXL_WIN_SIZE_HP0 (2 ^ 30)

/-- A Serve package whose disarmed Platform 3 of the physical function can arm: one core, one queue. -/
def serveImg : Image := { img [] with kind := .serve, channels := [] }
def servable : State :=
  ((((on.setOd Od.PACKAGE_MODE 1).setOd Od.SERVE_FW_BYTES 65536).setPlat 3 { Platform.empty with cfg := 2 ^ 44 + 2 ^ 80 }) : State)
def serving : State := { servable with loaded := some serveImg }
def served : State := nxt (exec (.pcArm 3 []) serving)

/-- A package whose Distil job can arm: a teacher of one byte, an active DDR5 tier, and Points with every route valid. -/
def distillable : State :=
  ((((((({ linked [] with loaded := some (img []), plats := [], job := Job.empty, cores := [] } : State).setOd Od.TEACHER_BYTES 1).setOd
    Od.JOB_STEPS 1).setOd Od.DDR5_TIER_STATE 1).setOd Od.DDR5_RESERVE_SIZE (2 ^ 32)).setOd Od.RED_RING_SIZE 1).setOd
    Od.RED_SHADOW_TABLE (2 ^ 16384 - 1)).setOd
    Od.TEACHER_SHA256 0x1da0af1706a31185763837b33f1d90782c0a78bbe644a59c987ab3ff9c0b346e

/-- Two contexts, one on each host port. -/
def twoPorts : State :=
  (on.setPlat 0 { Platform.empty with st := 1, epoch := 65535 }).setPlat 1 { Platform.empty with st := 1, cfg := 64 * 2 ^ 10 }

/-- States of a start: an active control die that reports nothing while the other is unfit; the main rails rising; training; and
Standby and Doze of a package whose firmware runs. -/
def silent : State := { State.reset with power := { Power.off with vaux := true, awaiting := true, report := { DieReport.clean with failing := [1] } } }
def rising : State := { State.reset with power := { Power.off with vaux := true, boot := 1, mainEn := true } }
def training : State := { State.reset with power := { Power.off with vaux := true, boot := 1, mainEn := true, vinGood := true } }
def standby : State := { State.reset with power := { Power.off with vaux := true, boot := 1 } }
def dozing : State := { on with power := { on.power with doze := true } }

/-- A frame of the Object Dictionary protocol, sent with `TP_PRIV`: operation, key, type, offset, last segment, data. -/
def frame (op key ty off last : Nat) (data : List Byte) : List Byte :=
  leBytes 20 (fields [(0, 4, 1), (4, 4, op), (16, 1, last), (17, 1, 1), (32, 32, 7), (64, 16, key / 256), (80, 8, key % 256), (88, 8, ty),
    (96, 32, off), (128, 16, data.length)]) ++ data

/-- The same without `TP_PRIV`, as TODP sends it. -/
def open' (op key ty off last : Nat) (data : List Byte) : List Byte :=
  leBytes 20 (fields [(0, 4, 1), (4, 4, op), (16, 1, last), (32, 32, 7), (64, 16, key / 256), (80, 8, key % 256), (88, 8, ty),
    (96, 32, off), (128, 16, data.length)]) ++ data

/-- A package that serves a frame in mailbox 0; one whose keys are enrolled; one whose field-network port answers. -/
def asked (bs : List Byte) : State := on.setPort 0 { on.port 0 with mbxServing := some bs }
def owned (s : State) : State := s.setOd Od.OWNERSHIP_STATE 1
def fielded : State :=
  { on with
    fieldNet := { on.fieldNet with queue := [], attempts := 0, settled := true, enable := true, nodeId := 0, nodeCount := 8, toTimer := 32
                                   udpPort := 45264 } }.setOd Od.FN_STATE 1

/-- A key of 32 bytes, and the frame that enrols it as the Owner's. -/
def key32 : List Byte := 5 :: List.replicate 31 0
def enrolFrame : List Byte := frame 2 Od.OWNER_KEY 12 0 1 key32

/-- A loaded image that passes every check, and a package that loads it from 64 bytes of HBM. -/
def loadImg : Image :=
  { img [] with
    partNumber := leBytes 7 0x4134362d445242
    stepping := 0x43
    cores := [{ core := 0, counters := []
                streams := [{ slot := 0, code := code [word [(0, 8, 8)], word [(0, 8, 9)]], bodyAt := 0, epilogueAt := 1 }] }] }
def loading : State := ({ on with loading := some (0, 64) }.setOd Od.TT_LOAD_STATE 1).setOd Od.TT_IMAGE_BYTES 64

/-- A serving Timetable of one layer, and an armed `SERVICE` Platform 3 that runs it. -/
def plan0 : ServePlan :=
  { layersT := 1, layersS := 1, widthT := 32, widthS := 32, draftBytes := 0, passBytes := 0, unembedBytes := 0, params := 0, roundCore := 0,
    roundCtr := 0, groups := [], planDie := 0, planOff := 0 }
def rounding : State :=
  (served.setPlat 3 { served.plat 3 with st := 1, cfg := 4, image := some { serveImg with serving := some plan0 } }).setOd Od.SERVICE_PLATFORM 3

/-- A request of Platform 3 in entry 0 that pauses, its summary at HBM address 2^30, with no pages; and its state. -/
def pausing : Request :=
  { entry := 0, state := 4, greedy := true, includeStop := false, lossy := false, depth := 0, fn := 0, platform := 3, tag := 9, seed := 0,
    pfx := 0, tau := 0, len := 1, kvT := 0, kvS := 0, maxNew := 1, delivered := 0, adapterT := 0, adapterS := 0, genT := 0, genS := 0,
    target := 0, outQueue := 0, admitRound := 0, outAddr := 0, prompt := [1], log := [1], stopTokens := [], stopSeqs := [], seq := 0,
    born := 0, pages := [], slots := [], fw := 0, waited := 0, away := false, ended := none, failed := false, resumed := false
    summary := some (2 ^ 30, 4, false) }
def summing : State := { rounding with serving := { rounding.serving with requests := [pausing] } }
def damaged : State :=
  { summing with serving := { summing.serving with requests := [{ pausing with pages := [0] }] }, eccBad := [0] }

end Sys2Proof.Tests
end

