-- ==== Sys2Proof/Tests/Slice0.lean ====
section
/-! SUPPORT. Tests: well-formed and ill-formed commands; check values and worked examples of the manual; and, for every
statement with hypotheses, a state that meets them. -/

set_option Elab.async false
set_option linter.unusedVariables false

open Sys2Proof Sys2Proof.Machine

/-! ### Commands -/

/-- Commands whose operands lie in their ranges are well formed. -/
theorem test_well_formed_1 :
    ([.sync 0, .tileOutputStat 0 Tests.idleFreeze, .tileInputStat 0 Tests.idleFreeze, .tileElementwise 0 Tests.idleFreeze,
      .move 0, .moveTranspose 0, .moveRequant 0, .moveSpill 0, .moveFill 0, .rowNormForward 0, .rowNormBackward 0,
      .rowAttentionStatistics 0, .rowAttentionBackward 0, .rowDropout 0, .rowRowsum 0, .rowHiddenGradientSum 0,
      .rowGainAccumulation 0, .jctDistilStats 0, .jctDistilEmit 0, .jctHintStats 0, .jctHintEmit 0, .jctDraft 0, .jctVerify
      0, .jctResidual 0, .jctSlotGrant 0 0, .jctPartialMerge 0 0, .jctGradEmit 0 0, .lossSpikeDetect, .barrier 0, .notify 0,
      .rebase 0, .stepEnd 0, .streamEnd 0, .place 0, .counterSignal 0, .sbSet 0 0, .syncHangReport 0 0 0, .syncHang 0 0 0,
      .barArrive 0, .barRelease 0 0, .barrierTokenDeadline 0 0 0, .barrierTimeout 0 0, .roundhouseNormPass 0 [] [],
      .updateComplete 0, .copyPass 0, .ckptCodingComplete, .roundhouseDetectedError 0 0, .updDigest 0, .bucketFilled 0,
      .accum 0, .exchangeComplete, .redShadowDeadline 0 0, .redHardTimeout 0 0, .ringSubst 0, .moveWrite 0, .writeAck 0,
      .linkMessageForward 0 0, .jobFault 0, .mgmt 0, .linkGroupReceive 0 (List.replicate 9 []) false] : List Instr).all
      Instr.wellFormed = true := by decide +kernel

/-- Commands whose operands lie in their ranges are well formed. -/
theorem test_well_formed_2 :
    ([.linkAckDeadline 0 0, .laneLockLoss 0 0, .laneSerWindow 0 0 0, .laneSub 0, .laneSubTimeout 0 0, .portTrainingStart 0 0
      0 (List.replicate 9 0), .portHandshake 0 0 0 0 [0, 0, 0, 0], .portTrainingTimeout 0 0, .portTrainingRetry 0 0,
      .linkPortReset 0, .pointsCommit 0, .queueDoorbell 0 0 0 0 0, .completionDoorbell 0 0 0 0 0, .counterDoorbell 0 0 0 0 0,
      .dCopy 0, .dInline 0, .dFence 0, .dFlush 0, .dServe 0, .qReset 0, .ctxReset 0, .epochArm 0 0, .apertureRead 0 0 0,
      .apertureWrite 0 0 [], .mbxGo 0, .registerWrite 0 0 0 0 0 0, .cxlMemRead 0 0 0, .cxlMemWrite 0 0 [], .hdmDecoderCommit
      0 0 0 0, .dataLinkDown 0, .dataLinkUp 0 1 1 false false, .linkDownHold 0 0, .portHotReset 0, .packageWarmReset .clean,
      .flrPhysical 0, .flrVirtual 0 1, .vfEnableClear 0 0, .pcArm 0 [], .pcSuspend 0, .suspendComplete 0, .pcResume 0,
      .pcReset 0, .pcDisarm 0, .odRead (.mailbox 0) [], .odWrite (.mailbox 0) [], .domainSegmentWrite (.mailbox 0) [],
      .discover 0 0 [], .mctp (.mailbox 0) [], .secured (.mailbox 0) [], .spdmChallenge (.mailbox 0) [], .spdmGetMeasurements
      (.mailbox 0) [], .spdmKeyExchange (.mailbox 0) [], .rw2Write (.mailbox 0) [], .authCancel (.mailbox 0) [],
      .stagedChangeExpiry 0, .keyEnrol (.mailbox 0) [], .ownershipRelease (.mailbox 0) [], .debugUnlock (.mailbox 0) [],
      .fwUpdate (.mailbox 0) [], .ttLoad 0] : List Instr).all Instr.wellFormed = true := by decide +kernel

/-- Commands whose operands lie in their ranges are well formed. -/
theorem test_well_formed_3 :
    ([.ttLoadComplete (Tests.img []), .ckptRequest 0, .ckptDrained 0, .ckptRestore 0, .ckptServeNow 0, .buddyPkg 0 0,
      .buddySend 0, .statsLatchNow 0, .stickyLogClear 0, .feValidClear 0, .packageMode 0, .powerProfile 0, .powerStateRun,
      .powerStateDoze, .powerStateStandby, .packageResetWarm .clean, .packageResetCold .clean, .statsBoundary, .roundBoundary
      0, .summaryComplete 0, .arrayDetectedError 0 0 0 0 0 0, .turntableDetectedError 0 0 false, .islandLimitCheck 0 0 0 0 0
      0 0 0, .islandResume 0 0 0 0 0 0, .islandParkLimit 0 0, .linamParkDeadline 0x7000 0, .controlWatchdog 0 .clean,
      .controlMemory .clean, .controlDieReportTimeout 0, .vauxRise 0 .clean, .packageReady [] [] [], .mainRailStartTimeout 0,
      .vinPgoodDrop 0 .clean, .powerSample 0 0, .supplyWarning (.rail 0) 0, .supplyRecovery (.rail 0) 0 0, .thermalSample 0
      0, .thermalExit 0 0 0, .thermalTripHoldoff 0, .railBelowReset (.rail 0) 0 .clean, .idleEntry 0 0, .idleExit 0,
      .plcaTransmit, .beaconLoss 0, .plcaCollision, .fnSettingApply, .fnPortStart false, .perstDeassert 0, .vinPgoodAssert 0
      0 0, .beaconReturn, .plcaBeacon, .neighbourDiscovery [], .msixUnmask 0 0] : List Instr).all Instr.wellFormed = true
      := by decide +kernel

/-- Each check refuses a term that breaks it alone. -/
theorem test_ill_formed_1 :
    ([.sync 288, .tileOutputStat 288 Tests.idleFreeze, .tileInputStat 288 Tests.idleFreeze, .tileElementwise 288
      Tests.idleFreeze, .move 288, .moveTranspose 288, .moveRequant 288, .moveSpill 288, .moveFill 288, .rowNormForward 288,
      .rowNormBackward 288, .rowAttentionStatistics 288, .rowAttentionBackward 288, .rowDropout 288, .rowRowsum 288,
      .rowHiddenGradientSum 288, .rowGainAccumulation 288, .jctDistilStats 288, .jctDistilEmit 288, .jctHintStats 288,
      .jctHintEmit 288, .jctDraft 288, .jctVerify 288, .jctResidual 288, .jctSlotGrant 48 0, .jctPartialMerge 48 0,
      .jctPartialMerge 0 4096, .jctGradEmit 48 0, .jctGradEmit 0 4096, .barrier 288, .notify 288, .rebase 288, .stepEnd 288,
      .streamEnd 288, .place 288, .counterSignal 288, .sbSet 288 0, .syncHangReport 288 0 0, .syncHangReport 0 8 0, .syncHang
      288 0 0, .syncHang 0 8 0, .barArrive 16, .barRelease 16 0, .barrierTokenDeadline 16 0 0, .barrierTokenDeadline 0 16 0,
      .barrierTimeout 16 0, .roundhouseNormPass 65536 [] [], .updateComplete (2 ^ 32), .copyPass (2 ^ 32),
      .roundhouseDetectedError 8 0, .updDigest 256, .bucketFilled 65536, .accum 16, .redShadowDeadline 65536 0,
      .redHardTimeout 65536 0, .ringSubst 16, .moveWrite 16, .writeAck 16, .linkMessageForward 16 0, .linkMessageForward 0 4]
      : List Instr).all (fun i => !i.wellFormed) = true := by decide +kernel

/-- Each check refuses a term that breaks it alone. -/
theorem test_ill_formed_2 :
    ([.jobFault 16, .mgmt 16, .linkGroupReceive 16 (List.replicate 9 []) false, .linkGroupReceive 0 (List.replicate 8 [])
      false, .linkAckDeadline 16 0, .laneLockLoss 16 0, .laneLockLoss 0 9, .laneSerWindow 16 0 0, .laneSerWindow 0 9 0,
      .laneSub 16, .laneSubTimeout 16 0, .portTrainingStart 16 0 0 (List.replicate 9 0), .portTrainingStart 0 0 0
      (List.replicate 10 0), .portHandshake 16 0 0 0 [0, 0, 0, 0], .portHandshake 0 65536 0 0 [0, 0, 0, 0], .portHandshake 0
      0 16 0 [0, 0, 0, 0], .portHandshake 0 0 0 (2 ^ 32) [0, 0, 0, 0], .portHandshake 0 0 0 0 [0, 0, 0], .portTrainingTimeout
      16 0, .portTrainingRetry 16 0, .linkPortReset 65536, .pointsCommit (2 ^ 32), .queueDoorbell 2 0 0 0 0, .queueDoorbell 0
      64 0 0 0, .completionDoorbell 2 0 0 0 0, .completionDoorbell 0 64 0 0 0, .counterDoorbell 2 0 0 0 0, .counterDoorbell 0
      64 0 0 0, .dCopy 4096, .dInline 4096, .dFence 4096, .dFlush 4096, .dServe 4096, .qReset 4096, .ctxReset 1024, .epochArm
      1024 0, .apertureRead 2 0 0, .apertureRead 0 0 (2 ^ 24 + 1), .apertureWrite 2 0 [], .apertureWrite 0 (2 ^ 24 + 1) [],
      .mbxGo 2, .registerWrite 2 0 0 0 0 0, .registerWrite 0 64 0 0 0 0, .cxlMemRead 2 0 0, .cxlMemWrite 2 0 [],
      .hdmDecoderCommit 2 0 0 0, .dataLinkDown 2, .dataLinkUp 2 1 1 false false, .dataLinkUp 0 0 1 false false, .dataLinkUp 0
      7 1 false false, .dataLinkUp 0 1 3 false false, .linkDownHold 2 0, .portHotReset 2, .flrPhysical 2, .flrVirtual 2 1,
      .flrVirtual 0 0, .flrVirtual 0 64, .vfEnableClear 2 0, .vfEnableClear 0 64, .pcArm 1024 []] : List Instr).all (fun i =>
      !i.wellFormed) = true := by decide +kernel

/-- Each check refuses a term that breaks it alone. -/
theorem test_ill_formed_3 :
    ([.pcSuspend 1024, .suspendComplete 1024, .pcResume 1024, .pcReset 1024, .pcDisarm 1024, .odRead (.mailbox 2) [],
      .odWrite (.mailbox 2) [], .domainSegmentWrite (.mailbox 2) [], .discover 0 65536 [], .discover (2 ^ 128) 0 [], .mctp
      (.mailbox 2) [], .secured (.mailbox 2) [], .spdmChallenge (.mailbox 2) [], .spdmGetMeasurements (.mailbox 2) [],
      .spdmKeyExchange (.mailbox 2) [], .rw2Write (.mailbox 2) [], .authCancel (.mailbox 2) [], .keyEnrol (.mailbox 2) [],
      .ownershipRelease (.mailbox 2) [], .debugUnlock (.mailbox 2) [], .fwUpdate (.mailbox 2) [], .ttLoad 256, .ckptRequest
      (2 ^ 64), .ckptDrained (2 ^ 64), .ckptRestore (2 ^ 64), .ckptServeNow 256, .buddyPkg 65536 0, .buddyPkg 0 (2 ^ 64),
      .buddySend 65536, .statsLatchNow 256, .stickyLogClear (2 ^ 256), .feValidClear 2, .packageMode 256, .powerProfile 256,
      .roundBoundary (2 ^ 32), .summaryComplete 16384, .arrayDetectedError 288 0 0 0 0 0, .arrayDetectedError 0 4 0 0 0 0,
      .arrayDetectedError 0 0 0 130 0 0, .arrayDetectedError 0 0 0 0 130 0, .arrayDetectedError 0 0 1 0 0 0,
      .turntableDetectedError 48 0 false, .islandLimitCheck 0xE000 0 0 0 0 0 0 0, .islandLimitCheck 0 0xE000 0 0 0 0 0 0,
      .islandResume 0xE000 0 0 0 0 0, .islandParkLimit 0xE000 0, .linamParkDeadline 0xE000 0, .linamParkDeadline 0x6000 0,
      .packageReady [] [] [⟨288, 3, true, 129⟩], .packageReady [] [] [⟨287, 4, true, 129⟩], .packageReady [] [] [⟨287, 3,
      true, 130⟩], .supplyWarning (.regulator 0x0120) 0, .supplyWarning (.rail 4) 0, .supplyRecovery (.regulator 0x0120) 0 0,
      .supplyRecovery (.rail 4) 0 0, .thermalSample 0xE000 0, .thermalExit 0xE000 0 0, .railBelowReset (.regulator 0x0120) 0
      .clean, .railBelowReset (.rail 4) 0 .clean, .idleEntry 0xE000 0] : List Instr).all (fun i => !i.wellFormed) = true
      := by decide +kernel

/-- Each check refuses a term that breaks it alone. -/
theorem test_ill_formed_4 :
    ([.idleExit 0xE000, .perstDeassert 2, .msixUnmask 2 0, .msixUnmask 0 2048] : List Instr).all (fun i => !i.wellFormed) =
      true := by decide +kernel

/-- An operand out of its range is refused by name. -/
theorem test_ill_formed_is_refused : (match exec (.sync 288) .reset with
    | .refused (.illFormed _) => true
    | _ => false) = true := by decide +kernel

/-! ### Check values and worked examples -/

/-- R231: the check value of the string "123456789". -/
theorem test_crc64_check : crc64 [0x31, 0x32, 0x33, 0x34, 0x35, 0x36, 0x37, 0x38, 0x39] = 0x6C40DF5F0B497347 := by decide +kernel

/-- The check value of CRC-32C for the same string (the catalogue of its standard). -/
theorem test_crc32c_check : crc32c [0x31, 0x32, 0x33, 0x34, 0x35, 0x36, 0x37, 0x38, 0x39] = 0xE3069283 := by decide +kernel

/-- The test vector of FIPS 180 for the message "abc". -/
theorem test_sha256_abc : leNat (sha256 [0x61, 0x62, 0x63]).reverse =
    0xBA7816BF8F01CFEA414140DE5DAE2223B00361A396177A9CB410FF61F20015AD := by decide +kernel

/-- 02: core 37 is island 0x0025 of logical die 6. -/
theorem test_island_of_core_37 : isIsland 0x0025 = true ∧ islCode 0x0025 = 0 ∧ islInst 0x0025 = 37 := by decide

/-- 04, worked example: 11.634765625 = 23828 × 2^-11 in F8 rounds up to code 0x54 with fraction 40,001, down to 0x53 with
8,000, up under `RNE` and down under `RTZ`. -/
theorem test_stochastic_rounding :
    (convElem 2 (.sr 40001) (.fin false 23828 (-11))).bits = 0x54 ∧ (convElem 2 (.sr 8000) (.fin false 23828 (-11))).bits = 0x53 ∧
    (convElem 2 .rne (.fin false 23828 (-11))).bits = 0x54 ∧ (convElem 2 .rtz (.fin false 23828 (-11))).bits = 0x53 := by
  decide +kernel

/-- 07, worked example: one `ADAMW` element on the first applied update. -/
def exampleConst : UpdConst :=
  { gm := 0x3E800000, k := 0x3F800000, b1 := 0x3F600000, b2 := 0x3F7FC000, ob1 := 0x3E000000, ob2 := 0x3A800000, rc1 := 0x41000000
    rc2 := 0x44800000, eps := 0x35800000, dk := 0x3F7FC000, nlr := 0xBC800000, x := -10, adam := true, nesterov := false }

theorem test_adamw_example :
    let r := (adamStep exampleConst 0x3C800000 { w := 0x3F000000, m := 0, v := 0, wc := 0x3F00 }).1
    r.m = 0x3A000000 ∧ r.v = 0x32800000 ∧ r.w = 0x3EFFBE00 := by decide +kernel

/-- 07, worked example: the reciprocals of the bias corrections and the derived constants. -/
theorem test_adamw_constants : biasRecip (powD 0x3F600000 1) = 0x41000000 ∧ biasRecip (powD 0x3F7FC000 1) = 0x44800000 ∧
    fsub oneW 0x3F600000 = 0x3E000000 ∧ ffma (fneg 0x3C800000) 0x3D800000 oneW = 0x3F7FC000 := by decide +kernel

/-- 11, worked example: a hop adds 2^-8 to 1.0 and keeps 1.0 (the even neighbour); adding -1.0 leaves +0. -/
theorem test_ring_hop : (addElem true 0x3F80 0x3B80).1.bits = 0x3F80 ∧ (addElem true 0x3F80 0xBF80).1.bits = 0 := by decide +kernel

/-- 15, worked example: a read of OD 0xA503.0B and the header of its response. -/
theorem test_read_frame :
    let q := leBytes 20 (0x2A00000011 + 0x050BA503 * 2 ^ 64)
    frameKind true q = .read ∧ tpKey q = 0xA5030B ∧ tpXid q = 0x2A ∧
      leNat ((tpResponse q 0 5 (List.replicate 8 0)).take 8) = 0x2A00000031 := by decide +kernel

/-- A queue register reads what was written to it, and a half of it the half (14, "Queue block"; R483). -/
theorem test_register_reads_back :
    (match exec (.registerWrite 0 0 0 0x500040 8 0x0300000000002000) Tests.on with
     | .next t => (t.readRegister 0 0 0 0x500040 8, t.readRegister 0 0 0 0x500044 4, t.readRegister 0 0 0 0x500042 4)
     | _ => (0, 0, 0)) = (0x0300000000002000, 0x03000000, 0) := by decide +kernel

/-- Pins and the alert of an unpowered package (R610, R625). -/
theorem test_pins_unpowered :
    State.reset.pkgAlert = none ∧ State.reset.pinGroup .mainEn = .pulledLow ∧ State.reset.pinGroup .hostLanes = .highImpedance ∧
    (Tests.on.sticky 3).pkgAlert = some true := by decide +kernel

/-! ### The hypotheses of the statements can be met -/

/-- The hypotheses of clause 1 of `EmptyQueueLetsAMillisecondPass` can be met. -/
theorem test_witness_empty_queue_lets_a_millisecond_pass_1 :
    ∃ (s : State), (s.pending = []) ∧ (s.power.vaux = true) := by
  exact ⟨Tests.on, by decide +kernel⟩

/-- The hypotheses of clause 2 of `EmptyQueueLetsAMillisecondPass` can be met. -/
theorem test_witness_empty_queue_lets_a_millisecond_pass_2 :
    ∃ (s : State), (s.pending = []) ∧ (s.power.vaux = false) := by
  exact ⟨.reset, by decide +kernel⟩

/-- The hypotheses of `EveryStepKeepsMemoryCanonical` can be met. -/
theorem test_witness_every_step_keeps_memory_canonical :
    ∃ (s t : State), (s.Canonical) ∧ (step s = .next t) := by
  exact ⟨.reset, .reset, ⟨⟨rfl, rfl⟩, rfl⟩⟩

/-- The hypotheses of `EveryCommandKeepsTheQueue` can be met. -/
theorem test_witness_every_command_keeps_the_queue :
    ∃ (i : Instr) (s t : State), (exec i s = .next t) := by
  exact ⟨.powerStateRun, .reset, .reset, rfl⟩

/-- The hypotheses of clause 2 of `EveryCommandRunsInItsTurn` can be met. -/
theorem test_witness_every_command_runs_in_its_turn_2 :
    ∃ (i : Instr) (c : Nat) (kinds : List CmdKind) (ok : State → Issue → Bool) (s : State), (timetableRow i = some (c, kinds,
      ok)) ∧ (c < 288) ∧ (s.queuedFirst i = none) ∧ (s.issue c kinds = none) := by
  exact ⟨.sync 0, 0, [.sync, .reserved], _, .reset, rfl, by decide +kernel⟩

/-- The hypotheses of clause 3 of `EveryCommandRunsInItsTurn` can be met. -/
theorem test_witness_every_command_runs_in_its_turn_3 :
    ∃ (i : Instr) (r : EngineRow) (it : Issue) (s : State), (engineRow i = some r) ∧ (r.core < 288) ∧ (s.coreActs r.core =
      true) ∧ (s.queuedFirst i = some it) := by
  exact ⟨.rowRowsum 0, _, Tests.first (Tests.wRow 6), (Tests.rowRunning 6).enqueue (Tests.first (Tests.wRow 6)), rfl, by
    decide +kernel⟩

/-- The hypotheses of clause 4 of `EveryCommandRunsInItsTurn` can be met. -/
theorem test_witness_every_command_runs_in_its_turn_4 :
    ∃ (i : Instr) (r : EngineRow) (it : Issue) (s : State), (engineRow i = some r) ∧ (s.Launches r.core r.kinds r.ok r.can
      it) := by
  exact ⟨.rowRowsum 0, _, Tests.first (Tests.wRow 6), Tests.rowRunning 6, rfl, by decide +kernel⟩

/-- The hypotheses of clause 5 of `EveryCommandRunsInItsTurn` can be met. -/
theorem test_witness_every_command_runs_in_its_turn_5 :
    ∃ (i : Instr) (r : EngineRow) (it : Issue) (s : State), (engineRow i = some r) ∧ (s.Issues r.core r.kinds it) ∧ (r.ok s
      it = true) ∧ (s.queuedFirst i = none) ∧ ((s.engineIdle it && r.can s it) = false) := by
  exact ⟨.rowRowsum 0, _, Tests.first (Tests.wRow 6), (Tests.rowRunning 6).enqueue (Tests.first (Tests.wRow 1)), rfl, by
    decide +kernel⟩

/-- The hypotheses of `MemoryReadsWhatWasWritten` can be met. -/
theorem test_witness_memory_reads_what_was_written :
    ∃ (s : State) (a : Nat) (bs : List Byte), (Memory.wf s.mem = true) := by
  exact ⟨.reset, 0, [], rfl⟩

/-- The hypotheses of `RefusedCommandFaultsItsStream` can be met. -/
theorem test_witness_refused_command_faults_its_stream :
    ∃ (i : Instr) (c : Nat) (kinds : List CmdKind) (ok : State → Issue → Bool) (it : Issue) (s : State), (timetableRow i =
      some (c, kinds, ok)) ∧ (c < 288) ∧ (s.queuedFirst i = none) ∧ (s.issue c kinds = some it) ∧ (s.accepts ok it = false)
      := by
  exact ⟨.sync 0, 0, [.sync, .reserved], _, Tests.first 0xFF, Tests.running [0xFF], rfl, by decide +kernel⟩

/-- The hypotheses of clause 1 of `TileRunsAndSignals` can be met. -/
theorem test_witness_tile_runs_and_signals_1 :
    ∃ (c : Nat) (fz : Freeze) (it : Issue) (s u : State), (s.Launches c [.tileOut, .tileReserved] State.tileOk State.tileCan
      it) ∧ (u = s.leave it) ∧ (u.Clean) ∧ ((u.array it.core (cmdBits it.w 192 2)).armed = []) ∧ ((u.chainIn it.tile).isEmpty
      = true ∨ tWestScale it.w = 0) := by
  exact ⟨0, Tests.idleFreeze, Tests.first (Tests.wTile 0), Tests.running [Tests.wTile 0], _, by decide +kernel, rfl, by
    decide +kernel⟩

/-- The hypotheses of clause 2 of `TileRunsAndSignals` can be met. -/
theorem test_witness_tile_runs_and_signals_2 :
    ∃ (c : Nat) (fz : Freeze) (e : CellError) (it : Issue) (s u : State), (s.Launches c [.tileOut, .tileReserved]
      State.tileOk State.tileCan it) ∧ (u = s.leave it) ∧ (u.Clean) ∧ ((u.array it.core (cmdBits it.w 192 2)).armed = [e]) ∧
      (u.replayable it.tile e.out = true) := by
  exact ⟨0, Tests.idleFreeze, { cell := 0, row := 0, col := 0, out := 3 }, Tests.first (Tests.wTile 0), Tests.nxt (exec
    (.arrayDetectedError 0 0 0 0 0 3) (Tests.running [Tests.wTile 0])), _, by decide +kernel, rfl, by decide +kernel⟩

/-- The hypotheses of clause 3 of `TileRunsAndSignals` can be met. -/
theorem test_witness_tile_runs_and_signals_3 :
    ∃ (c : Nat) (fz : Freeze) (it : Issue) (s u : State), (s.Launches c [.tileIn] State.tileOk State.tileCan it) ∧ (u =
      s.leave it) ∧ (u.Clean) ∧ ((u.array it.core (cmdBits it.w 192 2)).armed = []) ∧ ((u.chainIn it.tile).isEmpty = true ∨
      tWestScale it.w = 0) := by
  exact ⟨0, Tests.idleFreeze, Tests.first (Tests.wTile 1), Tests.running [Tests.wTile 1], _, by decide +kernel, rfl, by
    decide +kernel⟩

/-- The hypotheses of clause 4 of `TileRunsAndSignals` can be met. -/
theorem test_witness_tile_runs_and_signals_4 :
    ∃ (c : Nat) (fz : Freeze) (e : CellError) (it : Issue) (s u : State), (s.Launches c [.tileIn] State.tileOk State.tileCan
      it) ∧ (u = s.leave it) ∧ (u.Clean) ∧ ((u.array it.core (cmdBits it.w 192 2)).armed = [e]) ∧ (u.replayable it.tile e.out
      = true) := by
  exact ⟨0, Tests.idleFreeze, { cell := 0, row := 0, col := 0, out := 3 }, Tests.first (Tests.wTile 1), Tests.nxt (exec
    (.arrayDetectedError 0 0 0 0 0 3) (Tests.running [Tests.wTile 1])), _, by decide +kernel, rfl, by decide +kernel⟩

/-- The hypotheses of clause 5 of `TileRunsAndSignals` can be met. -/
theorem test_witness_tile_runs_and_signals_5 :
    ∃ (c : Nat) (fz : Freeze) (it : Issue) (s u : State), (s.Launches c [.tileElem] State.tileOk State.tileCan it) ∧ (u =
      s.leave it) ∧ (u.Clean) ∧ ((u.array it.core (cmdBits it.w 192 2)).armed = []) ∧ ((u.chainIn it.tile).isEmpty = true ∨
      tWestScale it.w = 0) := by
  exact ⟨0, Tests.idleFreeze, Tests.first (Tests.wTile 2), Tests.running [Tests.wTile 2], _, by decide +kernel, rfl, by
    decide +kernel⟩

/-- The hypotheses of clause 6 of `TileRunsAndSignals` can be met. -/
theorem test_witness_tile_runs_and_signals_6 :
    ∃ (c : Nat) (fz : Freeze) (e : CellError) (it : Issue) (s u : State), (s.Launches c [.tileElem] State.tileOk
      State.tileCan it) ∧ (u = s.leave it) ∧ (u.Clean) ∧ ((u.array it.core (cmdBits it.w 192 2)).armed = [e]) ∧ (u.replayable
      it.tile e.out = true) := by
  exact ⟨0, Tests.idleFreeze, { cell := 0, row := 0, col := 0, out := 3 }, Tests.first (Tests.wTile 2), Tests.nxt (exec
    (.arrayDetectedError 0 0 0 0 0 3) (Tests.running [Tests.wTile 2])), _, by decide +kernel, rfl, by decide +kernel⟩

/-- The hypotheses of clause 1 of `MoveRunsAndSignals` can be met. -/
theorem test_witness_move_runs_and_signals_1 :
    ∃ (c : Nat) (it : Issue) (s u : State), (s.Launches c [.moveCopy, .moveReserved] State.moveOk State.moveCan it) ∧ (u =
      s.leave it) ∧ (u.Clean) ∧ (isRemote (mvDst it.w) = false) := by
  exact ⟨0, Tests.first Tests.wCopy, Tests.running [Tests.wCopy], _, by decide +kernel, rfl, by decide +kernel⟩

/-- The hypotheses of clause 2 of `MoveRunsAndSignals` can be met. -/
theorem test_witness_move_runs_and_signals_2 :
    ∃ (c : Nat) (it : Issue) (s u : State), (s.Launches c [.moveCopy, .moveReserved] State.moveOk State.moveCan it) ∧ (u =
      s.leave it) ∧ (u.Clean) ∧ (isRemote (mvDst it.w) = true) := by
  exact ⟨0, Tests.first Tests.wRemote, Tests.linked [Tests.wRemote], _, by decide +kernel, rfl, by decide +kernel⟩

/-- The hypotheses of clause 3 of `MoveRunsAndSignals` can be met. -/
theorem test_witness_move_runs_and_signals_3 :
    ∃ (c : Nat) (it : Issue) (s u : State), (s.Launches c [.moveTranspose] State.moveOk State.moveCan it) ∧ (u = s.leave it)
      ∧ (u.Clean) ∧ (((u.start it (moveCost it.w) (moveCost it.w)).ttMet it).any (·.2) = false) := by
  exact ⟨0, Tests.first Tests.wTranspose, Tests.running [Tests.wTranspose], _, by decide +kernel, rfl, by decide +kernel⟩

/-- The hypotheses of clause 4 of `MoveRunsAndSignals` can be met. -/
theorem test_witness_move_runs_and_signals_4 :
    ∃ (c : Nat) (it : Issue) (s u : State), (s.Launches c [.moveRequant] State.moveOk State.moveCan it) ∧ (u = s.leave it) ∧
      (u.Clean) ∧ (((u.start it (moveCost it.w) (moveCost it.w)).ttMet it).any (·.2) = false) := by
  exact ⟨0, Tests.first Tests.wRequant, Tests.scaled Tests.wRequant, _, by decide +kernel, rfl, by decide +kernel⟩

/-- The hypotheses of clause 5 of `MoveRunsAndSignals` can be met. -/
theorem test_witness_move_runs_and_signals_5 :
    ∃ (c : Nat) (it : Issue) (s u : State), (s.Launches c [.moveSpill] State.moveOk State.moveCan it) ∧ (u = s.leave it) ∧
      (u.Clean) := by
  exact ⟨0, Tests.first Tests.wSpill, Tests.running [Tests.wSpill], _, by decide +kernel, rfl, by decide +kernel⟩

/-- The hypotheses of clause 6 of `MoveRunsAndSignals` can be met. -/
theorem test_witness_move_runs_and_signals_6 :
    ∃ (c : Nat) (it : Issue) (s u : State), (s.Launches c [.moveFill] State.moveOk State.moveCan it) ∧ (u = s.leave it) ∧
      (u.Clean) := by
  exact ⟨0, Tests.first Tests.wFill, Tests.running [Tests.wFill], _, by decide +kernel, rfl, by decide +kernel⟩

/-- The hypotheses of clause 1 of `RowCommandRunsRowByRow` can be met. -/
theorem test_witness_row_command_runs_row_by_row_1 :
    ∃ (c : Nat) (it : Issue) (s u : State), (s.Launches c [.rowNormF] State.rowOk (fun _ _ => true) it) ∧ (u = s.leave it) ∧
      (u.Clean) := by
  exact ⟨0, Tests.first (Tests.wRow 1), Tests.rowRunning 1, _, by decide +kernel, rfl, by decide +kernel⟩

/-- The hypotheses of clause 2 of `RowCommandRunsRowByRow` can be met. -/
theorem test_witness_row_command_runs_row_by_row_2 :
    ∃ (c : Nat) (it : Issue) (s u : State), (s.Launches c [.rowNormB] State.rowOk (fun _ _ => true) it) ∧ (u = s.leave it) ∧
      (u.Clean) := by
  exact ⟨0, Tests.first (Tests.wRow 2), Tests.rowRunning 2, _, by decide +kernel, rfl, by decide +kernel⟩

/-- The hypotheses of clause 3 of `RowCommandRunsRowByRow` can be met. -/
theorem test_witness_row_command_runs_row_by_row_3 :
    ∃ (c : Nat) (it : Issue) (s u : State), (s.Launches c [.rowAttS] State.rowOk (fun _ _ => true) it) ∧ (u = s.leave it) ∧
      (u.Clean) := by
  exact ⟨0, Tests.first (Tests.wRow 3), Tests.rowRunning 3, _, by decide +kernel, rfl, by decide +kernel⟩

/-- The hypotheses of clause 4 of `RowCommandRunsRowByRow` can be met. -/
theorem test_witness_row_command_runs_row_by_row_4 :
    ∃ (c : Nat) (it : Issue) (s u : State), (s.Launches c [.rowAttB] State.rowOk (fun _ _ => true) it) ∧ (u = s.leave it) ∧
      (u.Clean) := by
  exact ⟨0, Tests.first (Tests.wRow 4), Tests.rowRunning 4, _, by decide +kernel, rfl, by decide +kernel⟩

/-- The hypotheses of clause 5 of `RowCommandRunsRowByRow` can be met. -/
theorem test_witness_row_command_runs_row_by_row_5 :
    ∃ (c : Nat) (it : Issue) (s u : State), (s.Launches c [.rowDrop, .rowReserved] State.rowOk (fun _ _ => true) it) ∧ (u =
      s.leave it) ∧ (u.Clean) := by
  exact ⟨0, Tests.first (Tests.wRow 5), Tests.rowRunning 5, _, by decide +kernel, rfl, by decide +kernel⟩

/-- The hypotheses of clause 6 of `RowCommandRunsRowByRow` can be met. -/
theorem test_witness_row_command_runs_row_by_row_6 :
    ∃ (c : Nat) (it : Issue) (s u : State), (s.Launches c [.rowSum] State.rowOk (fun _ _ => true) it) ∧ (u = s.leave it) ∧
      (u.Clean) := by
  exact ⟨0, Tests.first (Tests.wRow 6), Tests.rowRunning 6, _, by decide +kernel, rfl, by decide +kernel⟩

/-- The hypotheses of clause 7 of `RowCommandRunsRowByRow` can be met. -/
theorem test_witness_row_command_runs_row_by_row_7 :
    ∃ (c : Nat) (it : Issue) (s u : State), (s.Launches c [.rowHid] State.rowOk (fun _ _ => true) it) ∧ (u = s.leave it) ∧
      (u.Clean) := by
  exact ⟨0, Tests.first (Tests.wRow 7), Tests.rowRunning 7, _, by decide +kernel, rfl, by decide +kernel⟩

/-- The hypotheses of clause 8 of `RowCommandRunsRowByRow` can be met. -/
theorem test_witness_row_command_runs_row_by_row_8 :
    ∃ (c : Nat) (it : Issue) (s u : State), (s.Launches c [.rowGain] State.rowOk (fun _ _ => true) it) ∧ (u = s.leave it) ∧
      (u.Clean) := by
  exact ⟨0, Tests.first (Tests.wRow 8), Tests.rowRunning 8, _, by decide +kernel, rfl, by decide +kernel⟩

/-- The hypotheses of clause 1 of `JunctionCommandsTakeSlotsAndAdvance` can be met. -/
theorem test_witness_junction_commands_take_slots_and_advance_1 :
    ∃ (c k : Nat) (it : Issue) (s v : State), (s.Issues c [.jctDistilS, .jctReserved] it) ∧ (kindOf it.w != .jctReserved &&
      s.jctOk it) ∧ (v = s.issued it) ∧ (v.Clean) ∧ (v.badLabel it = false) ∧ ((v.die (dieOfCore it.core)).waiting = []) ∧
      ((v.die (dieOfCore it.core)).freeSlot = some k) := by
  exact ⟨0, 0, Tests.first (Tests.wJct 0 0 0), Tests.jctRunning 0 0 0, _, by decide +kernel, by decide +kernel, rfl, by
    decide +kernel⟩

/-- The hypotheses of clause 2 of `JunctionCommandsTakeSlotsAndAdvance` can be met. -/
theorem test_witness_junction_commands_take_slots_and_advance_2 :
    ∃ (c k : Nat) (it : Issue) (s v : State), (s.Issues c [.jctDistilE] it) ∧ (kindOf it.w != .jctReserved && s.jctOk it) ∧
      (v = s.issued it) ∧ (v.Clean) ∧ (v.badLabel it = false) ∧ ((v.die (dieOfCore it.core)).waiting = []) ∧ ((v.die
      (dieOfCore it.core)).freeSlot = some k) := by
  exact ⟨0, 0, Tests.first (Tests.wJct 0 1 0), Tests.jctRunning 0 1 0, _, by decide +kernel, by decide +kernel, rfl, by
    decide +kernel⟩

/-- The hypotheses of clause 3 of `JunctionCommandsTakeSlotsAndAdvance` can be met. -/
theorem test_witness_junction_commands_take_slots_and_advance_3 :
    ∃ (c k : Nat) (it : Issue) (s v : State), (s.Issues c [.jctHintS] it) ∧ (kindOf it.w != .jctReserved && s.jctOk it) ∧ (v
      = s.issued it) ∧ (v.Clean) ∧ (v.badLabel it = false) ∧ ((v.die (dieOfCore it.core)).waiting = []) ∧ ((v.die (dieOfCore
      it.core)).freeSlot = some k) := by
  exact ⟨0, 0, Tests.first (Tests.wJct 1 0 0), Tests.jctRunning 1 0 0, _, by decide +kernel, by decide +kernel, rfl, by
    decide +kernel⟩

/-- The hypotheses of clause 4 of `JunctionCommandsTakeSlotsAndAdvance` can be met. -/
theorem test_witness_junction_commands_take_slots_and_advance_4 :
    ∃ (c k : Nat) (it : Issue) (s v : State), (s.Issues c [.jctHintE] it) ∧ (kindOf it.w != .jctReserved && s.jctOk it) ∧ (v
      = s.issued it) ∧ (v.Clean) ∧ (v.badLabel it = false) ∧ ((v.die (dieOfCore it.core)).waiting = []) ∧ ((v.die (dieOfCore
      it.core)).freeSlot = some k) := by
  exact ⟨0, 0, Tests.first (Tests.wJct 1 1 0), Tests.jctRunning 1 1 0, _, by decide +kernel, by decide +kernel, rfl, by
    decide +kernel⟩

/-- The hypotheses of clause 5 of `JunctionCommandsTakeSlotsAndAdvance` can be met. -/
theorem test_witness_junction_commands_take_slots_and_advance_5 :
    ∃ (c k : Nat) (it : Issue) (s v : State), (s.Issues c [.jctDraft] it) ∧ (kindOf it.w != .jctReserved && s.jctOk it) ∧ (v
      = s.issued it) ∧ (v.Clean) ∧ (v.badLabel it = false) ∧ ((v.die (dieOfCore it.core)).waiting = []) ∧ ((v.die (dieOfCore
      it.core)).freeSlot = some k) := by
  exact ⟨0, 0, Tests.first (Tests.wJct 2 0 0), Tests.jctRunning 2 0 0, _, by decide +kernel, by decide +kernel, rfl, by
    decide +kernel⟩

/-- The hypotheses of clause 6 of `JunctionCommandsTakeSlotsAndAdvance` can be met. -/
theorem test_witness_junction_commands_take_slots_and_advance_6 :
    ∃ (c k : Nat) (it : Issue) (s v : State), (s.Issues c [.jctVerify] it) ∧ (kindOf it.w != .jctReserved && s.jctOk it) ∧ (v
      = s.issued it) ∧ (v.Clean) ∧ (v.badLabel it = false) ∧ ((v.die (dieOfCore it.core)).waiting = []) ∧ ((v.die (dieOfCore
      it.core)).freeSlot = some k) := by
  exact ⟨0, 0, Tests.first (Tests.wJct 3 0 1), Tests.jctRunning 3 0 1, _, by decide +kernel, by decide +kernel, rfl, by
    decide +kernel⟩

/-- The hypotheses of clause 7 of `JunctionCommandsTakeSlotsAndAdvance` can be met. -/
theorem test_witness_junction_commands_take_slots_and_advance_7 :
    ∃ (c k : Nat) (it : Issue) (s v : State), (s.Issues c [.jctResidual] it) ∧ (kindOf it.w != .jctReserved && s.jctOk it) ∧
      (v = s.issued it) ∧ (v.Clean) ∧ (v.badLabel it = false) ∧ ((v.die (dieOfCore it.core)).waiting = []) ∧ ((v.die
      (dieOfCore it.core)).freeSlot = some k) := by
  exact ⟨0, 0, Tests.first (Tests.wJct 3 2 1), Tests.jctRunning 3 2 1, _, by decide +kernel, by decide +kernel, rfl, by
    decide +kernel⟩

/-- The hypotheses of clause 8 of `JunctionCommandsTakeSlotsAndAdvance` can be met. -/
theorem test_witness_junction_commands_take_slots_and_advance_8 :
    ∃ (c : Nat) (it : Issue) (s v : State), (s.Issues c [.jctDistilS, .jctReserved] it) ∧ (kindOf it.w != .jctReserved &&
      s.jctOk it) ∧ (v = s.issued it) ∧ (v.Clean) ∧ (v.badLabel it = true) := by
  exact ⟨0, Tests.first (Tests.wJct 0 0 0), (Tests.jctRunning 0 0 0).put (yardAddr 0 1040) [9], _, by decide +kernel, by
    decide +kernel, rfl, by decide +kernel⟩

/-- The hypotheses of clause 9 of `JunctionCommandsTakeSlotsAndAdvance` can be met. -/
theorem test_witness_junction_commands_take_slots_and_advance_9 :
    ∃ (c : Nat) (it : Issue) (s v x : State), (s.Issues c [.jctDistilS, .jctReserved] it) ∧ (kindOf it.w != .jctReserved &&
      s.jctOk it) ∧ (v = s.issued it) ∧ (v.Clean) ∧ (v.badLabel it = false) ∧ ((v.die (dieOfCore it.core)).freeSlot = none) ∧
      (x = (v.start it (v.jctNew it).cost 0).jctIssue it (v.jctNew it)) ∧ (x.serveMode = false) := by
  exact ⟨0, Tests.first (Tests.wJct 0 0 0), (Tests.jctRunning 0 0 0).setDie 0
    { DieState.empty with slots := (List.range 4).map fun k => (k, Tests.jctCmd) }, _, _, by decide +kernel, by
    decide +kernel, rfl, by decide +kernel, by decide +kernel, by decide +kernel, rfl, by decide +kernel⟩

/-- The hypotheses of clause 10 of `JunctionCommandsTakeSlotsAndAdvance` can be met. -/
theorem test_witness_junction_commands_take_slots_and_advance_10 :
    ∃ (die waited k : Nat) (w : JctCmd) (ws : List JctCmd) (s : State), (die < 48) ∧ (s.jctRuns die = true) ∧ ((s.die
      die).freeSlot = some k) ∧ ((s.die die).waiting = w :: ws) := by
  exact ⟨0, 5, 0, Tests.jctCmd, [], Tests.on.setDie 0 { DieState.empty with waiting := [Tests.jctCmd] }, by decide +kernel⟩

/-- The hypotheses of clause 11 of `JunctionCommandsTakeSlotsAndAdvance` can be met. -/
theorem test_witness_junction_commands_take_slots_and_advance_11 :
    ∃ (die row k : Nat) (c q : JctCmd) (s : State), (die < 48) ∧ (row < 4096) ∧ (s.jctRuns die = true) ∧ (s.mergeSlot die row
      = some (k, c)) ∧ (s.jctPeer c (tabGet 0 c.merged row) = some q) ∧ (q.slices ≤ tabGet 0 q.next row) ∧ (s.rowBad
      (s.jctDie c q.j) q row = false) := by
  exact ⟨0, 0, 0, Tests.slotCmd 0 Tests.statsFolded, Tests.slotCmd 0 Tests.statsFolded, Tests.statsFolded, by decide +kernel⟩

/-- The hypotheses of clause 12 of `JunctionCommandsTakeSlotsAndAdvance` can be met. -/
theorem test_witness_junction_commands_take_slots_and_advance_12 :
    ∃ (die row k : Nat) (c q : JctCmd) (s : State), (die < 48) ∧ (row < 4096) ∧ (s.jctRuns die = true) ∧ (s.mergeSlot die row
      = some (k, c)) ∧ (s.jctPeer c (tabGet 0 c.merged row) = some q) ∧ (q.slices ≤ tabGet 0 q.next row) ∧ (s.rowBad
      (s.jctDie c q.j) q row = true) := by
  exact ⟨0, 0, 0, Tests.slotCmd 0 Tests.statsFolded, Tests.slotCmd 0 Tests.statsFolded,
    { Tests.statsFolded with eccBad := [yardAddr 0 8192] }, by decide +kernel⟩

/-- The hypotheses of clause 13 of `JunctionCommandsTakeSlotsAndAdvance` can be met. -/
theorem test_witness_junction_commands_take_slots_and_advance_13 :
    ∃ (die row k : Nat) (c : JctCmd) (st : JctStats) (s : State), (die < 48) ∧ (row < 4096) ∧ (s.jctRuns die = true) ∧
      (s.emitSlot die row = some (k, c)) ∧ (s.jctStat die c row = some st) ∧ (s.Clean) ∧ (jcPass c.ctl = 1) ∧ (st.terms =
      c.terms) := by
  exact ⟨0, 0, 0, Tests.slotCmd 0 Tests.emitting, Tests.emitStats, Tests.emitting, by decide +kernel⟩

/-- The hypotheses of clause 14 of `JunctionCommandsTakeSlotsAndAdvance` can be met. -/
theorem test_witness_junction_commands_take_slots_and_advance_14 :
    ∃ (die row k : Nat) (c : JctCmd) (st : JctStats) (s : State), (die < 48) ∧ (row < 4096) ∧ (s.jctRuns die = true) ∧
      (s.emitSlot die row = some (k, c)) ∧ (s.jctStat die c row = some st) ∧ (s.Clean) ∧ (jcPass c.ctl = 1) ∧ (st.terms ≠
      c.terms) := by
  exact ⟨0, 0, 0, Tests.slotCmd 0 Tests.emitting, { Tests.emitStats with terms := [] }, Tests.emitting.setDie 0
    { Tests.emitting.die 0 with bcast := [(statKey 0 8192 0, { Tests.emitStats with terms := [] })] }, by decide +kernel⟩

/-- The hypotheses of clause 15 of `JunctionCommandsTakeSlotsAndAdvance` can be met. -/
theorem test_witness_junction_commands_take_slots_and_advance_15 :
    ∃ (die row k : Nat) (c : JctCmd) (st : JctStats) (s : State), (die < 48) ∧ (row < 4096) ∧ (s.jctRuns die = true) ∧
      (s.emitSlot die row = some (k, c)) ∧ (s.jctStat die c row = some st) ∧ (s.Clean) ∧ (jcPass c.ctl ≠ 1) := by
  exact ⟨0, 0, 0, Tests.slotCmd 0 Tests.keeping, Tests.keptStats, Tests.keeping, by decide +kernel⟩

/-- The hypotheses of clause 1 of `SequencerCommandsCompleteAndSignal` can be met. -/
theorem test_witness_sequencer_commands_complete_and_signal_1 :
    ∃ (c : Nat) (it : Issue) (s v : State), (s.Issues c [.sync, .reserved] it) ∧ (kindOf it.w = .sync ∧ zeroFrom it.w 128 =
      true) ∧ (v = s.issued it) := by
  exact ⟨0, Tests.first 0, Tests.running [0], _, by decide +kernel, by decide +kernel, rfl⟩

/-- The hypotheses of clause 2 of `SequencerCommandsCompleteAndSignal` can be met. -/
theorem test_witness_sequencer_commands_complete_and_signal_2 :
    ∃ (c : Nat) (it : Issue) (s v : State), (s.Issues c [.place] it) ∧ (placeOk s it = true) ∧ (v = s.issued it) ∧
      (((v.complete it).stream it.core it.slot).state ≠ 4) := by
  exact ⟨0, Tests.first Tests.wPlace, Tests.running [Tests.wPlace, Tests.wTile 0], _, by decide +kernel, by decide +kernel,
    rfl, by decide +kernel⟩

/-- The hypotheses of clause 3 of `SequencerCommandsCompleteAndSignal` can be met. -/
theorem test_witness_sequencer_commands_complete_and_signal_3 :
    ∃ (c mc m : Nat) (it : Issue) (s v : State), (s.Issues c [.rebase] it) ∧ (zeroFrom it.w 134 = true ∧ s.mapCtr it.platform
      it.tcore (cmdBits it.w 128 6) = some (mc, m)) ∧ (v = s.issued it) := by
  exact ⟨0, 0, 0, Tests.first 7, Tests.running [7], _, by decide +kernel, by decide +kernel, rfl⟩

/-- The hypotheses of clause 4 of `SequencerCommandsCompleteAndSignal` can be met. -/
theorem test_witness_sequencer_commands_complete_and_signal_4 :
    ∃ (c : Nat) (img : Image) (d : StreamDecl) (it : Issue) (s v : State), (s.Issues c [.stepEnd] it) ∧ (postEn it.w = false
      ∧ zeroFrom it.w 128 = true) ∧ (v = s.issued it) ∧ ((v.plat it.platform).image = some img) ∧ (img.stream it.tcore
      (v.stream it.core it.slot).tslot = some d) ∧ ((v.stepOn it img d).serveMode = false) := by
  exact ⟨0, Tests.img [8], Tests.streamOf [8], Tests.first 8, Tests.running [8], _, by decide +kernel, by decide +kernel,
    rfl, by decide +kernel⟩

/-- The hypotheses of clause 5 of `SequencerCommandsCompleteAndSignal` can be met. -/
theorem test_witness_sequencer_commands_complete_and_signal_5 :
    ∃ (c : Nat) (img : Image) (d : StreamDecl) (it : Issue) (s v : State), (s.Issues c [.stepEnd] it) ∧ (postEn it.w = false
      ∧ zeroFrom it.w 128 = true) ∧ (v = s.issued it) ∧ ((v.plat it.platform).image = some img) ∧ (img.stream it.tcore
      (v.stream it.core it.slot).tslot = some d) ∧ ((v.stepOn it img d).serveMode = true) := by
  exact ⟨0, Tests.img [8], Tests.streamOf [8], Tests.first 8, (Tests.running [8]).setOd Od.PACKAGE_MODE 1, _, by
    decide +kernel, by decide +kernel, rfl, by decide +kernel⟩

/-- The hypotheses of clause 6 of `SequencerCommandsCompleteAndSignal` can be met. -/
theorem test_witness_sequencer_commands_complete_and_signal_6 :
    ∃ (c : Nat) (it : Issue) (s v : State), (s.Issues c [.streamEnd] it) ∧ (postEn it.w = false ∧ zeroFrom it.w 128 = true) ∧
      (v = s.issued it) := by
  exact ⟨0, Tests.first 9, Tests.running [9], _, by decide +kernel, by decide +kernel, rfl⟩

/-- The hypotheses of clause 1 of `BarriersArriveReleaseAndTimeOut` can be met. -/
theorem test_witness_barriers_arrive_release_and_time_out_1 :
    ∃ (c : Nat) (it : Issue) (s v : State), (s.Issues c [.barrier] it) ∧ (barrierOk s it = true) ∧ (v = s.issued it) ∧
      (v.barrierMember it = true) := by
  exact ⟨0, Tests.first 5, Tests.running [5], _, by decide +kernel, by decide +kernel, rfl, by decide +kernel⟩

/-- The hypotheses of clause 2 of `BarriersArriveReleaseAndTimeOut` can be met. -/
theorem test_witness_barriers_arrive_release_and_time_out_2 :
    ∃ (c : Nat) (it : Issue) (s v : State), (s.Issues c [.barrier] it) ∧ (barrierOk s it = true) ∧ (v = s.issued it) ∧
      (v.barrierMember it = false) := by
  exact ⟨0, Tests.first (Tests.word [(0, 8, 5), (128, 4, 1)]), Tests.running [Tests.word [(0, 8, 5), (128, 4, 1)]], _, by
    decide +kernel, by decide +kernel, rfl, by decide +kernel⟩

/-- The hypotheses of clause 3 of `BarriersArriveReleaseAndTimeOut` can be met. -/
theorem test_witness_barriers_arrive_release_and_time_out_3 :
    ∃ (c : Nat) (it : Issue) (s v : State), (s.Issues c [.notify] it) ∧ (notifyOk s it = true) ∧ (v = s.issued it) ∧
      ((v.queue (v.notifyQueue it)).enable = true) := by
  exact ⟨0, Tests.first 6, (Tests.running [6]).setQueue 0 { Queue.empty with enable := true }, _, by decide +kernel, by
    decide +kernel, rfl, by decide +kernel⟩

/-- The hypotheses of clause 4 of `BarriersArriveReleaseAndTimeOut` can be met. -/
theorem test_witness_barriers_arrive_release_and_time_out_4 :
    ∃ (c : Nat) (it : Issue) (s v : State), (s.Issues c [.notify] it) ∧ (notifyOk s it = true) ∧ (v = s.issued it) ∧
      ((v.queue (v.notifyQueue it)).enable = false) := by
  exact ⟨0, Tests.first 6, Tests.running [6], _, by decide +kernel, by decide +kernel, rfl, by decide +kernel⟩

/-- The hypotheses of clause 5 of `BarriersArriveReleaseAndTimeOut` can be met. -/
theorem test_witness_barriers_arrive_release_and_time_out_5 :
    ∃ (p q : Nat) (m : Message) (s : State), (s.Delivers p 0 m) ∧ (m.kind = 4) ∧ ((s.dropHead p 0).chanOwner (tokChan m) =
      some q) := by
  exact ⟨0, 0, Tests.msg 4 [(356, 4, 0), (370, 24, 1)] [], Tests.mail (Tests.running []) 0 (Tests.msg 4 [(356, 4, 0), (370,
    24, 1)] []), by decide +kernel⟩

/-- The hypotheses of clause 6 of `BarriersArriveReleaseAndTimeOut` can be met. -/
theorem test_witness_barriers_arrive_release_and_time_out_6 :
    ∃ (ch p ns : Nat) (d : Nat × Nat) (rest : List (Nat × Nat)) (s : State), (ch < 16) ∧ ((s.channel ch).due = d :: rest) ∧
      (s.chanOwner ch = some p) := by
  exact ⟨15, 0, 0, (1, 0), [], (Tests.running []).setChannel 15 { Channel.empty with due := [(1, 0)] }, by decide +kernel⟩

/-- The hypotheses of clause 7 of `BarriersArriveReleaseAndTimeOut` can be met. -/
theorem test_witness_barriers_arrive_release_and_time_out_7 :
    ∃ (ch p q ns : Nat) (m : Message) (s : State), (ch < 16) ∧ ((s.channel ch).due = []) ∧ (s.releasePort ch = some (q, m)) ∧
      (m.epoch = s.odv Od.POINTS_EPOCH) ∧ (s.chanOwner ch = some p) ∧ (((s.channel ch).released + 1) % 2 ^ 24 = tokN m) := by
  exact ⟨0, 0, 0, 0, Tests.msg 5 [(356, 4, 0), (370, 24, 1)] [], Tests.mail (Tests.running []) 0 (Tests.msg 5 [(356, 4, 0),
    (370, 24, 1)] []), by decide +kernel⟩

/-- The hypotheses of clause 8 of `BarriersArriveReleaseAndTimeOut` can be met. -/
theorem test_witness_barriers_arrive_release_and_time_out_8 :
    ∃ (port ch ns : Nat) (s : State), (port < 16) ∧ (ch < 16) ∧ (s.tokenOut port ch = true) ∧ (s.odv
      Od.BARRIER_TOKEN_DEADLINE < ns) ∧ ((s.island (0x7000 + port)).parked = false) := by
  exact ⟨0, 0, 2 ^ 40, (Tests.running []).setLink 0
    { LinkPort.empty with vcs := [(0, { LinkVc.empty with outbox := [Tests.msg 4 [] []] })] }, by decide +kernel⟩

/-- The hypotheses of clause 9 of `BarriersArriveReleaseAndTimeOut` can be met. -/
theorem test_witness_barriers_arrive_release_and_time_out_9 :
    ∃ (ch ms : Nat) (a : Arrival) (rest : List Arrival) (s : State), (ch < 16) ∧ ((s.channel ch).arrivals = a :: rest) ∧
      (s.odv Od.BARRIER_TIMEOUT < ms) := by
  exact ⟨0, 2 ^ 40,
    { core := 0, slot := 0, platform := 0, n := 1, payload := 0, postEn := false, postCtr := 0, postN := 0, resultOff := 0, atMs := 0 },
    [], Tests.nxt (exec (.barrier 0) (Tests.running2 [5])), by decide +kernel⟩

/-- The hypotheses of `SignalsAddAndCommute` can be met. -/
theorem test_witness_signals_add_and_commute :
    ∃ (c k n m : Nat) (s : State), (s.waiters c k false = []) ∧ (s.waiters c k true = []) := by
  exact ⟨0, 0, 1, 2, Tests.running [0], by decide +kernel⟩

/-- The hypotheses of clause 1 of `CountersHangsAndManualSets` can be met. -/
theorem test_witness_counters_hangs_and_manual_sets_1 :
    ∃ (c : Nat) (g : Signal) (rest : List Signal) (s : State), (c < 288) ∧ ((s.island c).parked = false) ∧ ((s.core c).sig =
      g :: rest) := by
  exact ⟨287, ⟨0, 1, 0, none⟩, [], Tests.on.setCore 287 { CoreState.empty with sig := [⟨0, 1, 0, none⟩] }, by decide +kernel⟩

/-- The hypotheses of clause 2 of `CountersHangsAndManualSets` can be met. -/
theorem test_witness_counters_hangs_and_manual_sets_2 :
    ∃ (c : Nat) (s : State), (c < 288) ∧ ((s.core c).sig = [] ∨ (s.island c).parked = true) := by
  exact ⟨0, .reset, by decide +kernel⟩

/-- The hypotheses of clause 3 of `CountersHangsAndManualSets` can be met. -/
theorem test_witness_counters_hangs_and_manual_sets_3 :
    ∃ (c i heldMs : Nat) (s : State), (c < 288) ∧ (i < 8) ∧ ((s.stream c i).state = 2) ∧ (s.odv Od.SYNC_HANG_FAULT ≠ 0) ∧
      (s.odv Od.SYNC_HANG_FAULT < heldMs) := by
  exact ⟨0, 0, 2 ^ 40, ((Tests.running []).setStream 0 0 { Stream.empty with state := 2 }).setOd Od.SYNC_HANG_FAULT 1, by
    decide +kernel⟩

/-- The hypotheses of clause 4 of `CountersHangsAndManualSets` can be met. -/
theorem test_witness_counters_hangs_and_manual_sets_4 :
    ∃ (c : Nat) (v : W64) (s u : State), (c < 288) ∧ (bitsOf v.toNat 0 6 < 48) ∧ (s.job.active = true) ∧ (u = (s.setPlat 0
      { s.plat 0 with tainted := true }).setOd Od.JOB_TAINTED 1) := by
  exact ⟨0, 47#64, Tests.running [], _, by decide, by decide +kernel, by decide +kernel, rfl⟩

/-- The hypotheses of clause 5 of `CountersHangsAndManualSets` can be met. -/
theorem test_witness_counters_hangs_and_manual_sets_5 :
    ∃ (c : Nat) (v : W64) (s u : State), (c < 288) ∧ (bitsOf v.toNat 0 6 < 48) ∧ (s.job.active = false) ∧ (u = (s.ctrOwners c
      (bitsOf v.toNat 0 6)).foldl (fun (s : State) p => s.setPlat p { s.plat p with tainted := true }) s) := by
  exact ⟨287, 0#64, Tests.on, _, by decide, by decide +kernel, by decide +kernel, rfl⟩

/-- The hypotheses of clause 6 of `CountersHangsAndManualSets` can be met. -/
theorem test_witness_counters_hangs_and_manual_sets_6 :
    ∃ (c : Nat) (v : W64) (s : State), (c < 288) ∧ (48 ≤ bitsOf v.toNat 0 6) := by
  exact ⟨0, 48#64, .reset, by decide +kernel⟩

/-- The hypotheses of `HeldWaitIsReportedAndKeepsWaiting` can be met. -/
theorem test_witness_held_wait_is_reported_and_keeps_waiting :
    ∃ (c i heldMs : Nat) (s : State), (c < 288) ∧ (i < 8) ∧ ((s.stream c i).state = 2 ∨ s.atNotify c i = true) ∧ ((s.stream c
      i).hang = false) ∧ (s.odv Od.SYNC_HANG_REPORT < heldMs) := by
  exact ⟨0, 0, 2 ^ 40, (Tests.running []).setStream 0 0 { Stream.empty with state := 2 }, by decide +kernel⟩

/-- The hypotheses of clause 1 of `LossSpikeDetectorFollowsTheLoss` can be met. -/
theorem test_witness_loss_spike_detector_follows_the_loss_1 :
    ∃ (s : State), (s.job.active = false) := by
  exact ⟨.reset, by decide +kernel⟩

/-- The hypotheses of clause 2 of `LossSpikeDetectorFollowsTheLoss` can be met. -/
theorem test_witness_loss_spike_detector_follows_the_loss_2 :
    ∃ (s : State), (s.job.active = true) ∧ (fisFin (fdiv s.job.lossSum (fofNat s.job.lossRows)) = false ∨ s.job.lossRows = 0)
      := by
  exact ⟨Tests.running [], by decide +kernel⟩

/-- The hypotheses of clause 3 of `LossSpikeDetectorFollowsTheLoss` can be met. -/
theorem test_witness_loss_spike_detector_follows_the_loss_3 :
    ∃ (s : State), (s.job.active = true) ∧ (fisFin (fdiv s.job.lossSum (fofNat s.job.lossRows)) = true) ∧ (s.job.lossRows ≠
      0) ∧ (s.job.spikeN = 0) := by
  exact ⟨{ Tests.running [] with job := { Job.empty with active := true, lossRows := 1 } }, by decide +kernel⟩

/-- The hypotheses of clause 4 of `LossSpikeDetectorFollowsTheLoss` can be met. -/
theorem test_witness_loss_spike_detector_follows_the_loss_4 :
    ∃ (s : State), (s.job.active = true) ∧ (fisFin (fdiv s.job.lossSum (fofNat s.job.lossRows)) = true) ∧ (s.job.lossRows ≠
      0) ∧ (s.job.spikeN ≠ 0) ∧ (s.odv Od.SPIKE_WARMUP ≤ s.job.spikeN) ∧ (fgt (fdiv s.job.lossSum (fofNat s.job.lossRows))
      (ffma (BitVec.ofNat 32 (s.odv Od.SPIKE_K)) (fsqrt s.job.spikeVar) s.job.spikeMean) = true) := by
  exact
    ⟨{ Tests.running [] with job := { Job.empty with active := true, lossRows := 1, lossSum := 0x3F800000#32, spikeN := 2 ^ 20 } },
    by decide +kernel⟩

/-- The hypotheses of clause 5 of `LossSpikeDetectorFollowsTheLoss` can be met. -/
theorem test_witness_loss_spike_detector_follows_the_loss_5 :
    ∃ (s : State), (s.job.active = true) ∧ (fisFin (fdiv s.job.lossSum (fofNat s.job.lossRows)) = true) ∧ (s.job.lossRows ≠
      0) ∧ (s.job.spikeN ≠ 0) ∧ (s.job.spikeN < s.odv Od.SPIKE_WARMUP ∨ fgt (fdiv s.job.lossSum (fofNat s.job.lossRows))
      (ffma (BitVec.ofNat 32 (s.odv Od.SPIKE_K)) (fsqrt s.job.spikeVar) s.job.spikeMean) = false) := by
  exact ⟨{ Tests.running [] with job := { Job.empty with active := true, lossRows := 1, spikeN := 1 } }, by decide +kernel⟩

/-- The hypotheses of clause 1 of `RoundhouseUpdatesAndSnapshots` can be met. -/
theorem test_witness_roundhouse_updates_and_snapshots_1 :
    ∃ (b : Nat) (before after : List W64) (img : Image) (s u : State), (b < 65536) ∧ (s.roundhousesRun = true) ∧ (s.jobImage
      = some img) ∧ (s.red.active = true) ∧ (b ∈ s.red.staged) ∧ (b ∉ s.red.normed) ∧ (s.Clean) ∧ (u = s.normBucket b before
      after) := by
  exact ⟨0, [], [], Tests.img [], { Tests.running [] with red := { Exchange.empty with active := true, staged := [0] } }, _,
    by decide, by decide +kernel, by decide +kernel, by decide +kernel, by decide +kernel, by decide +kernel, by
    decide +kernel, rfl⟩

/-- The hypotheses of clause 2 of `RoundhouseUpdatesAndSnapshots` can be met. -/
theorem test_witness_roundhouse_updates_and_snapshots_2 :
    ∃ (b : Nat) (before after : List W64) (img : Image) (s : State), (b < 65536) ∧ (s.roundhousesRun = true) ∧ (s.jobImage =
      some img) ∧ (b ∈ s.red.normed ∨ b ∉ s.red.staged) := by
  exact ⟨0, [], [], Tests.img [], Tests.running [], by decide +kernel⟩

/-- The hypotheses of clause 3 of `RoundhouseUpdatesAndSnapshots` can be met. -/
theorem test_witness_roundhouse_updates_and_snapshots_3 :
    ∃ (b : Nat) (before after : List W64) (s : State), (b < 65536) ∧ (s.roundhousesRun = false) := by
  exact ⟨0, [], [], Tests.on.setIsland 0x8007 { Island.empty with parked := true }, by decide +kernel⟩

/-- The hypotheses of clause 4 of `RoundhouseUpdatesAndSnapshots` can be met. -/
theorem test_witness_roundhouse_updates_and_snapshots_4 :
    ∃ (edge group : Nat) (img : Image) (s : State), (edge < 8) ∧ (s.jobImage = some img) ∧ (s.job.update = 1) ∧ (roundhouseOf
      (64 * group) = edge) ∧ (s.updateGroup img group = true) ∧ (group ∉ s.job.redone) := by
  exact ⟨0, 2 ^ 14, Tests.updImg, Tests.updating, by decide +kernel⟩

/-- The hypotheses of clause 5 of `RoundhouseUpdatesAndSnapshots` can be met. -/
theorem test_witness_roundhouse_updates_and_snapshots_5 :
    ∃ (edge group : Nat) (img : Image) (s : State), (edge < 8) ∧ (s.jobImage = some img) ∧ (s.job.update = 1) ∧ (roundhouseOf
      (64 * group) = edge) ∧ (s.updateGroup img group = true) ∧ (group ∈ s.job.redone) := by
  exact ⟨0, 2 ^ 14, Tests.updImg, { Tests.updating with job := { Tests.updating.job with redone := [2 ^ 14] } }, by
    decide +kernel⟩

/-- The hypotheses of clause 6 of `RoundhouseUpdatesAndSnapshots` can be met. -/
theorem test_witness_roundhouse_updates_and_snapshots_6 :
    ∃ (edge group : Nat) (img : Image) (s : State), (edge < 8) ∧ (s.jobImage = some img) ∧ (s.job.update ≠ 1 ∨ roundhouseOf
      (64 * group) ≠ edge ∨ s.updateGroup img group = false) := by
  exact ⟨7, 2 ^ 14, Tests.updImg, Tests.updating, by decide +kernel⟩

/-- The hypotheses of clause 7 of `RoundhouseUpdatesAndSnapshots` can be met. -/
theorem test_witness_roundhouse_updates_and_snapshots_7 :
    ∃ (img : Image) (s : State), (s.loaded = some img) ∧ (s.stepRunning = false) ∧ (s.digestErrors img = []) := by
  exact ⟨Tests.img [], { Tests.on with loaded := some (Tests.img []) }, by decide +kernel⟩

/-- The hypotheses of clause 8 of `RoundhouseUpdatesAndSnapshots` can be met. -/
theorem test_witness_roundhouse_updates_and_snapshots_8 :
    ∃ (us : Nat) (s : State), (us < 2 ^ 32) ∧ (s.job.update = 1) ∧ (s.roundhousesRun = true) ∧ (s.job.updNonfinite = true)
      := by
  exact ⟨0, { Tests.running [] with job := { Job.empty with active := true, update := 1, updNonfinite := true } }, by
    decide +kernel⟩

/-- The hypotheses of clause 9 of `RoundhouseUpdatesAndSnapshots` can be met. -/
theorem test_witness_roundhouse_updates_and_snapshots_9 :
    ∃ (us w : Nat) (img : Image) (s : State), (us < 2 ^ 32) ∧ (s.job.update = 1) ∧ (s.roundhousesRun = true) ∧
      (s.job.updNonfinite = false) ∧ (s.jobImage = some img) ∧ (s.ckpt.snapshot = some w) ∧ ((s.takeSnapshot img w
      us).job.active = true) := by
  exact ⟨0, 0, Tests.img [],
    { Tests.running [] with job := { Job.empty with active := true, update := 1 }, ckpt := { Ckpt.empty with snapshot := some 0 } },
    by decide +kernel⟩

/-- The hypotheses of clause 10 of `RoundhouseUpdatesAndSnapshots` can be met. -/
theorem test_witness_roundhouse_updates_and_snapshots_10 :
    ∃ (us : Nat) (img : Image) (s : State), (us < 2 ^ 32) ∧ (s.job.update = 1) ∧ (s.roundhousesRun = true) ∧
      (s.job.updNonfinite = false) ∧ (s.jobImage = some img) ∧ (s.ckpt.snapshot = none) ∧ (s.ckpt.copy = none) := by
  exact ⟨0, Tests.img [], { Tests.running [] with job := { Job.empty with active := true, update := 1 } }, by decide +kernel⟩

/-- The hypotheses of clause 11 of `RoundhouseUpdatesAndSnapshots` can be met. -/
theorem test_witness_roundhouse_updates_and_snapshots_11 :
    ∃ (us w : Nat) (img : Image) (s : State), (us < 2 ^ 32) ∧ (s.job.update = 1) ∧ (s.roundhousesRun = true) ∧
      (s.job.updNonfinite = false) ∧ (s.jobImage = some img) ∧ (s.ckpt.snapshot = none) ∧ (s.ckpt.copy = some w) := by
  exact ⟨0, 0, Tests.img [],
    { Tests.running [] with job := { Job.empty with active := true, update := 1 }, ckpt := { Ckpt.empty with copy := some 0 } },
    by decide +kernel⟩

/-- The hypotheses of clause 12 of `RoundhouseUpdatesAndSnapshots` can be met. -/
theorem test_witness_roundhouse_updates_and_snapshots_12 :
    ∃ (us w : Nat) (img : Image) (s : State), (us < 2 ^ 32) ∧ (s.jobImage = some img) ∧ (s.ckpt.copy = some w) ∧
      (s.job.update = 2) ∧ (s.roundhousesRun = true) ∧ (((s.clearManifest (if s.ckpt.next then 1 else 0)).takeSnapshot img w
      us).job.active = true) := by
  exact ⟨0, 0, Tests.img [],
    { Tests.running [] with job := { Job.empty with active := true, update := 2 }, ckpt := { Ckpt.empty with copy := some 0 } },
    by decide +kernel⟩

/-- The hypotheses of clause 1 of `CheckpointsAreRequestedAndRestored` can be met. -/
theorem test_witness_checkpoints_are_requested_and_restored_1 :
    ∃ (w : Nat) (s : State), (w < 2 ^ 64) ∧ (s.job.active = true) ∧ (endsWindow s.redDesc w = true) ∧ (s.job.steps = 0 ∨ w <
      s.job.steps) ∧ (s.job.lastUpdate = none) ∧ (s.ckpt.request = none) ∧ (s.ckpt.copy = none) ∧ (s.job.update = 0) ∧
      ((s.job.decided.any fun n => w ≤ n) = false) := by
  exact ⟨1, Tests.exchanging, by decide +kernel⟩

/-- The hypotheses of clause 2 of `CheckpointsAreRequestedAndRestored` can be met. -/
theorem test_witness_checkpoints_are_requested_and_restored_2 :
    ∃ (w : Nat) (s : State), (w < 2 ^ 64) ∧ (s.job.active = false ∨ endsWindow s.redDesc w = false) := by
  exact ⟨0, Tests.exchanging, by decide +kernel⟩

/-- The hypotheses of clause 3 of `CheckpointsAreRequestedAndRestored` can be met. -/
theorem test_witness_checkpoints_are_requested_and_restored_3 :
    ∃ (w : Nat) (s : State), (w < 2 ^ 64) ∧ (s.ckpt.undrained = some w) ∧ (s.ckpt.coding = none) := by
  exact ⟨3, { Tests.running [] with ckpt := { Ckpt.empty with undrained := some 3 } }, by decide +kernel⟩

/-- The hypotheses of clause 4 of `CheckpointsAreRequestedAndRestored` can be met. -/
theorem test_witness_checkpoints_are_requested_and_restored_4 :
    ∃ (w : Nat) (s : State), (w < 2 ^ 64) ∧ (s.ckpt.undrained ≠ some w) := by
  exact ⟨3, .reset, by decide +kernel⟩

/-- The hypotheses of clause 6 of `CheckpointsAreRequestedAndRestored` can be met. -/
theorem test_witness_checkpoints_are_requested_and_restored_6 :
    ∃ (w : Nat) (img : Image) (s : State), (s.ckpt.coding = some w) ∧ (s.ckptImage = some img) ∧ (s.codeErrors = []) := by
  exact ⟨3, Tests.img [], { Tests.running [] with ckpt := { Ckpt.empty with coding := some 3 } }, by decide +kernel⟩

/-- The hypotheses of clause 7 of `CheckpointsAreRequestedAndRestored` can be met. -/
theorem test_witness_checkpoints_are_requested_and_restored_7 :
    ∃ (w e : Nat) (es : List Nat) (img : Image) (s : State), (s.ckpt.coding = some w) ∧ (s.ckptImage = some img) ∧
      (s.codeErrors = e :: es) := by
  exact ⟨3, 2 ^ 56 + 2 ^ 24, [], Tests.img [], Tests.miscoded, by decide +kernel⟩

/-- The hypotheses of clause 8 of `CheckpointsAreRequestedAndRestored` can be met. -/
theorem test_witness_checkpoints_are_requested_and_restored_8 :
    ∃ (w k : Nat) (img : Image) (s u : State), (w < 2 ^ 64) ∧ (s.serveMode = false) ∧ (s.anyArmed = false) ∧ (s.loaded = some
      img) ∧ (u = { s with ckpt := { s.ckpt with area := reserveArea img.stateBytes } }) ∧ (u.restoreSlot w = some k) ∧
      (u.restoreChecks img k = true) := by
  exact ⟨3, 0, Tests.img [], Tests.restorable, Tests.restorable, by decide +kernel, by decide +kernel, by decide +kernel, by decide +kernel, rfl, by decide +kernel, by simp only [State.restoreChecks, Tests.crc64_forced]; decide +kernel⟩

/-- The hypotheses of clause 9 of `CheckpointsAreRequestedAndRestored` can be met. -/
theorem test_witness_checkpoints_are_requested_and_restored_9 :
    ∃ (w : Nat) (img : Image) (s u : State), (w < 2 ^ 64) ∧ (s.serveMode = false) ∧ (s.anyArmed = false) ∧ (s.loaded = some
      img) ∧ (u = { s with ckpt := { s.ckpt with area := reserveArea img.stateBytes } }) ∧ ((u.restoreSlot w).filter
      (u.restoreChecks img) = none) := by
  exact ⟨4, Tests.img [], Tests.restorable, Tests.restorable, by decide +kernel⟩

/-- The hypotheses of clause 10 of `CheckpointsAreRequestedAndRestored` can be met. -/
theorem test_witness_checkpoints_are_requested_and_restored_10 :
    ∃ (w : Nat) (s : State), (w < 2 ^ 64) ∧ (s.serveMode = false) ∧ (s.anyArmed = true ∨ s.loaded = none) := by
  exact ⟨4, Tests.on, by decide +kernel⟩

/-- The hypotheses of clause 11 of `CheckpointsAreRequestedAndRestored` can be met. -/
theorem test_witness_checkpoints_are_requested_and_restored_11 :
    ∃ (w k : Nat) (s u : State), (w < 2 ^ 64) ∧ (s.serveMode = true) ∧ (u =
      { s with ckpt := { s.ckpt with area := s.odv Od.DDR5_RESERVE_SIZE / 4 } }) ∧ (u.serveSlot w = some k) ∧ (bitsOf (u.mfAt
      (u.slotManifest k)) 4032 64 = crc64 (u.load (u.slotManifest k) 504)) ∧ (bitsOf (u.mfAt (u.slotManifest k)) 600 64 =
      crc64 (u.load (u.slotAux k) (mfAuxBytes (u.mfAt (u.slotManifest k))))) ∧ (bitsOf (u.mfAt (u.slotManifest k)) 8 8 =
      u.odv Od.STEPPING) ∧ (u.slotErrors k = []) := by
  exact ⟨3, 0, Tests.snapshotted, _, by decide +kernel, by decide +kernel, rfl, by decide +kernel, by rw [Tests.crc64_forced]; decide +kernel, by rw [Tests.crc64_forced]; decide +kernel, by decide +kernel, by decide +kernel⟩

/-- The hypotheses of clause 12 of `CheckpointsAreRequestedAndRestored` can be met. -/
theorem test_witness_checkpoints_are_requested_and_restored_12 :
    ∃ (w : Nat) (s u : State), (w < 2 ^ 64) ∧ (s.serveMode = true) ∧ (u =
      { s with ckpt := { s.ckpt with area := s.odv Od.DDR5_RESERVE_SIZE / 4 } }) ∧ (u.serveSlot w = none) := by
  exact ⟨4, Tests.on.setOd Od.PACKAGE_MODE 1, _, by decide +kernel, by decide +kernel, rfl, by decide +kernel⟩

/-- The hypotheses of clause 1 of `BucketsAreFilledAndExchanged` can be met. -/
theorem test_witness_buckets_are_filled_and_exchanged_1 :
    ∃ (b : Nat) (img : Image) (s : State), (b < 65536) ∧ (s.mayFill b = true) ∧ (s.jobImage = some img) ∧ (s.Clean) := by
  exact ⟨0, Tests.redImg, Tests.exchanging.setOd Od.JOB_STEP 1, by decide +kernel⟩

/-- The hypotheses of clause 2 of `BucketsAreFilledAndExchanged` can be met. -/
theorem test_witness_buckets_are_filled_and_exchanged_2 :
    ∃ (b : Nat) (s : State), (b < 65536) ∧ (s.mayFill b = false) := by
  exact ⟨65535, .reset, by decide +kernel⟩

/-- The hypotheses of clause 3 of `BucketsAreFilledAndExchanged` can be met. -/
theorem test_witness_buckets_are_filled_and_exchanged_3 :
    ∃ (b lo : Nat) (blks : List (Nat × Nat × Nat × Nat × Nat)) (s : State), (s.ringSize = 1) ∧ (s.red.active = true) ∧ (b <
      rdBuckets s.redDesc) := by
  exact ⟨1, 0, [], Tests.ringed.setOd Od.RED_RING_SIZE 1, by decide +kernel⟩

/-- The hypotheses of clause 1 of `GradientsAreSummedAndExchanged` can be met. -/
theorem test_witness_gradients_are_summed_and_exchanged_1 :
    ∃ (m : Message) (s : State), (Memory.wf s.mem = true) ∧ (m.data.length % 2 = 0) := by
  exact ⟨{ header := 0, data := [1, 0x3F], crc := 0 }, .reset, by decide +kernel⟩

/-- The hypotheses of clause 2 of `GradientsAreSummedAndExchanged` can be met. -/
theorem test_witness_gradients_are_summed_and_exchanged_2 :
    ∃ (p j : Nat) (m : Message) (s : State), (s.Delivers p 1 m) ∧ (accumFormOk m = true) ∧ (s.inTier m.dstAddr m.data.length
      = true) ∧ (s.inTier m.localAddr m.data.length = true) ∧ (s.inImage m.dstAddr m.data.length = false) ∧ (s.inReserve
      m.dstAddr m.data.length = false) ∧ (s.stripeOf m = some j) ∧ (s.job.update = 0) ∧ (p ∈ s.red.holding ∨ s.admits m j =
      true) ∧ (stripeBucket s.redDesc j ∈ s.red.filled) ∧ (crc64 m.data = m.crc) ∧ (s.Clean) := by
  exact ⟨0, 0, Tests.stripeMsg, Tests.stripeMail, ⟨by decide, rfl, by decide +kernel, by decide +kernel⟩, by simp only [accumFormOk, Tests.stripeMsg_length]; decide +kernel, by rw [Tests.stripeMsg_length]; decide +kernel, by rw [Tests.stripeMsg_length]; decide +kernel, by rw [Tests.stripeMsg_length]; decide +kernel, by rw [Tests.stripeMsg_length]; decide +kernel, by decide +kernel, rfl, Or.inr (by decide +kernel), by decide +kernel, Tests.crc64_zeros _, rfl⟩

/-- The hypotheses of clause 3 of `GradientsAreSummedAndExchanged` can be met. -/
theorem test_witness_gradients_are_summed_and_exchanged_3 :
    ∃ (p j : Nat) (m : Message) (s : State), (s.Delivers p 1 m) ∧ (accumFormOk m = true) ∧ (s.inTier m.dstAddr m.data.length
      = true) ∧ (s.inTier m.localAddr m.data.length = true) ∧ (s.inImage m.dstAddr m.data.length = false) ∧ (s.inReserve
      m.dstAddr m.data.length = false) ∧ (s.stripeOf m = some j) ∧ (s.job.update = 0) ∧ (p ∉ s.red.holding) ∧ (s.admits m j =
      true) ∧ (stripeBucket s.redDesc j ∉ s.red.filled) := by
  exact ⟨0, 0, Tests.stripeMsg, { Tests.stripeMail with red := { Tests.stripeMail.red with filled := [] } }, ⟨by decide, rfl, by decide +kernel, by decide +kernel⟩, by simp only [accumFormOk, Tests.stripeMsg_length]; decide +kernel, by rw [Tests.stripeMsg_length]; decide +kernel, by rw [Tests.stripeMsg_length]; decide +kernel, by rw [Tests.stripeMsg_length]; decide +kernel, by rw [Tests.stripeMsg_length]; decide +kernel, by decide +kernel, rfl, by decide +kernel, by decide +kernel, by decide +kernel⟩

/-- The hypotheses of clause 4 of `GradientsAreSummedAndExchanged` can be met. -/
theorem test_witness_gradients_are_summed_and_exchanged_4 :
    ∃ (p j : Nat) (m : Message) (s : State), (s.Delivers p 1 m) ∧ (accumFormOk m = true) ∧ (s.inTier m.dstAddr m.data.length
      = true) ∧ (s.inTier m.localAddr m.data.length = true) ∧ (s.inImage m.dstAddr m.data.length = false) ∧ (s.inReserve
      m.dstAddr m.data.length = false) ∧ (s.stripeOf m = some j) ∧ (s.job.update = 0) ∧ (p ∉ s.red.holding) ∧ (s.admits m j =
      false) := by
  exact ⟨0, 0, Tests.stripeMsg, Tests.stripeMail.setOd Od.RED_RING_TABLE (2 ^ 17), ⟨by decide, rfl, by decide +kernel, by decide +kernel⟩, by simp only [accumFormOk, Tests.stripeMsg_length]; decide +kernel, by rw [Tests.stripeMsg_length]; decide +kernel, by rw [Tests.stripeMsg_length]; decide +kernel, by rw [Tests.stripeMsg_length]; decide +kernel, by rw [Tests.stripeMsg_length]; decide +kernel, by decide +kernel, rfl, by decide +kernel, by decide +kernel⟩

/-- The hypotheses of clause 5 of `GradientsAreSummedAndExchanged` can be met. -/
theorem test_witness_gradients_are_summed_and_exchanged_5 :
    ∃ (p : Nat) (m : Message) (s : State), (s.Delivers p 1 m) ∧ (accumFormOk m = true) ∧ (s.inTier m.dstAddr m.data.length =
      true) ∧ (s.inTier m.localAddr m.data.length = true) ∧ (s.inImage m.dstAddr m.data.length = false) ∧ (s.inReserve
      m.dstAddr m.data.length = false) ∧ (s.stripeOf m = none) ∧ (s.job.active = true) ∧ (crc64 m.data = m.crc) ∧ (s.Clean)
      := by
  exact ⟨0, Tests.granuleMsg, Tests.mail Tests.ringed 1 Tests.granuleMsg, ⟨by decide, rfl, by decide +kernel, by decide +kernel⟩, by simp only [accumFormOk, Tests.granuleMsg_length]; decide +kernel, by rw [Tests.granuleMsg_length]; decide +kernel, by rw [Tests.granuleMsg_length]; decide +kernel, by rw [Tests.granuleMsg_length]; decide +kernel, by rw [Tests.granuleMsg_length]; decide +kernel, by decide +kernel, by decide +kernel, Tests.crc64_zeros _, rfl⟩

/-- The hypotheses of clause 6 of `GradientsAreSummedAndExchanged` can be met. -/
theorem test_witness_gradients_are_summed_and_exchanged_6 :
    ∃ (s : State), (s.exchangeDone = true) ∧ (s.Clean) := by
  exact ⟨{ Tests.ringed with red := { Tests.ringed.red with filled := [0, 1], finals := [0, 1] } }, by decide +kernel⟩

/-- The hypotheses of clause 7 of `GradientsAreSummedAndExchanged` can be met. -/
theorem test_witness_gradients_are_summed_and_exchanged_7 :
    ∃ (s : State), (s.exchangeDone = false) := by
  exact ⟨Tests.ringed, by decide +kernel⟩

/-- The hypotheses of clause 1 of `LatePredecessorsAndShadows` can be met. -/
theorem test_witness_late_predecessors_and_shadows_1 :
    ∃ (b us : Nat) (s : State), (b < 65536) ∧ (s.deadlineRuns b = true) ∧ (s.odv Od.RED_SHADOW_DEADLINE ≤ us) ∧ (b ∉
      s.red.missed) ∧ (s.shadowPkg s.predPos = 0xFFFF) := by
  exact ⟨0, 2 ^ 40, Tests.ringed.setOd Od.RED_RING_POS 1, by decide +kernel⟩

/-- The hypotheses of clause 2 of `LatePredecessorsAndShadows` can be met. -/
theorem test_witness_late_predecessors_and_shadows_2 :
    ∃ (b us : Nat) (s : State), (b < 65536) ∧ (s.deadlineRuns b = true) ∧ (s.odv Od.RED_SHADOW_DEADLINE ≤ us) ∧ (b ∉
      s.red.missed) ∧ (s.shadowPkg s.predPos ≠ 0xFFFF) ∧ (s.red.substituted = false) := by
  exact ⟨0, 2 ^ 40, (Tests.ringed.setOd Od.RED_RING_POS 1).setOd Od.RED_SHADOW_TABLE 4, by decide +kernel⟩

/-- The hypotheses of clause 3 of `LatePredecessorsAndShadows` can be met. -/
theorem test_witness_late_predecessors_and_shadows_3 :
    ∃ (b ms : Nat) (s : State), (b < 65536) ∧ (s.deadlineRuns b = true) ∧ (s.odv Od.RED_HARD_TIMEOUT ≤ ms) := by
  exact ⟨0, 2 ^ 40, Tests.ringed.setOd Od.RED_RING_POS 1, by decide +kernel⟩

/-- The hypotheses of clause 4 of `LatePredecessorsAndShadows` can be met. -/
theorem test_witness_late_predecessors_and_shadows_4 :
    ∃ (p : Nat) (m : Message) (s : State), (s.Delivers p 0 m) ∧ (m.kind = 6) ∧ (m.lcOp = 2) ∧ (s.isShadow = true) ∧ (s.odv
      Od.RED_SHADOW_OF = bitsOf m.header 528 16) ∧ (s.red.active = true) ∧ (s.red.step = bitsOf m.header 544 64) := by
  exact ⟨0, Tests.msg 6 [(512, 8, 2), (544, 64, 1)] [], Tests.mail Tests.shadowing 0 (Tests.msg 6 [(512, 8, 2), (544, 64, 1)]
    []), by decide +kernel⟩

/-- The hypotheses of `StraySubstitutionIsDiscarded` can be met. -/
theorem test_witness_stray_substitution_is_discarded :
    ∃ (p : Nat) (m : Message) (s : State), (s.Delivers p 0 m) ∧ (m.kind = 6) ∧ (m.lcOp = 2) ∧ (s.isShadow = false ∨ s.odv
      Od.RED_SHADOW_OF ≠ bitsOf m.header 528 16 ∨ s.red.active = false ∨ s.red.step ≠ bitsOf m.header 544 64) := by
  exact ⟨0, Tests.msg 6 [(512, 8, 2)] [], Tests.mail Tests.ringed 0 (Tests.msg 6 [(512, 8, 2)] []), by decide +kernel⟩

/-- The hypotheses of clause 1 of `StaleMessagesAreDropped` can be met. -/
theorem test_witness_stale_messages_are_dropped_1 :
    ∃ (i : Instr) (p v : Nat) (mine : State → Message → Bool) (m : Message) (s : State), (takerOf i = some (p, v, mine)) ∧ (p
      < 16) ∧ (v < 4) ∧ (s.inHead p v = some m) ∧ (mine s m = true) ∧ (m.epoch ≠ s.odv Od.POINTS_EPOCH) := by
  exact ⟨.moveWrite 0, 0, 2, _, Tests.msg 1 [(64, 32, 9)] [], Tests.mail Tests.on 2 (Tests.msg 1 [(64, 32, 9)] []), rfl, by
    decide +kernel⟩

/-- The hypotheses of clause 2 of `StaleMessagesAreDropped` can be met. -/
theorem test_witness_stale_messages_are_dropped_2 :
    ∃ (ch q ns : Nat) (m : Message) (s : State), (ch < 16) ∧ ((s.channel ch).due = []) ∧ (s.releasePort ch = some (q, m)) ∧
      (m.epoch ≠ s.odv Od.POINTS_EPOCH) := by
  exact ⟨0, 0, 0, Tests.msg 5 [(64, 32, 9)] [], Tests.mail Tests.on 0 (Tests.msg 5 [(64, 32, 9)] []), by decide +kernel⟩

/-- The hypotheses of clause 1 of `BuddyCopiesArriveAndAreSent` can be met. -/
theorem test_witness_buddy_copies_arrive_and_are_sent_1 :
    ∃ (p : Nat) (m : Message) (s : State), (s.Delivers p 3 m) ∧ (m.kind = 7) ∧ (m.lcOp = 1) ∧ (s.ckpt.area ≠ 0) ∧ (bitsOf
      m.header 576 64 + m.data.length ≤ s.ckpt.area) ∧ (s.inTier (s.ckptBase 3 + bitsOf m.header 576 64) m.data.length =
      true) ∧ (crc64 m.data = m.crc) := by
  exact ⟨0, Tests.msg 7 [(512, 8, 1)] [7], Tests.mail ((({ Tests.running [] with ckpt := { Ckpt.empty with area := 2 ^ 30 } }
    : State).setOd Od.DDR5_TIER_STATE 1).setOd Od.DDR5_MODULE_GIB 64) 3 (Tests.msg 7 [(512, 8, 1)] [7]), by decide +kernel⟩

/-- The hypotheses of clause 2 of `BuddyCopiesArriveAndAreSent` can be met. -/
theorem test_witness_buddy_copies_arrive_and_are_sent_2 :
    ∃ (p : Nat) (m : Message) (s : State), (s.Delivers p 3 m) ∧ (m.kind = 7) ∧ (m.lcOp = 3) ∧ (m.src = s.odv Od.BUDDY_PKG)
      := by
  exact ⟨0, Tests.msg 7 [(512, 8, 3)] [7], Tests.mail ((Tests.running []).setOd Od.BUDDY_PKG 1) 3 (Tests.msg 7 [(512, 8, 3)]
    [7]), by decide +kernel⟩

/-- The hypotheses of clause 3 of `BuddyCopiesArriveAndAreSent` can be met. -/
theorem test_witness_buddy_copies_arrive_and_are_sent_3 :
    ∃ (v feed : Nat) (s : State), (v < 1024) ∧ (feed < 2 ^ 64) ∧ (s.job.active = false) ∧ (v ≠ s.pkg) ∧ (s.odv Od.FEED_ID = 0
      ∨ feed = 0) := by
  exact ⟨5, 0, Tests.on, by decide +kernel⟩

/-- The hypotheses of clause 4 of `BuddyCopiesArriveAndAreSent` can be met. -/
theorem test_witness_buddy_copies_arrive_and_are_sent_4 :
    ∃ (v feed : Nat) (s : State), (v < 1024) ∧ (feed < 2 ^ 64) ∧ (s.job.active = false) ∧ (v ≠ s.pkg) ∧ (s.odv Od.FEED_ID ≠
      0) ∧ (feed ≠ 0) ∧ (s.odv Od.FEED_ID ≠ feed) := by
  exact ⟨5, 2, Tests.on.setOd Od.FEED_ID 1, by decide +kernel⟩

/-- The hypotheses of clause 5 of `BuddyCopiesArriveAndAreSent` can be met. -/
theorem test_witness_buddy_copies_arrive_and_are_sent_5 :
    ∃ (v feed : Nat) (s : State), (v < 1024) ∧ (feed < 2 ^ 64) ∧ (s.job.active = false) ∧ (v ≠ s.pkg) ∧ (s.odv Od.FEED_ID ≠
      0) ∧ (s.odv Od.FEED_ID = feed) ∧ (∃ j, j < 8 ∧ bitsOf (s.odv Od.BUDDY_OVERRIDE) (16 * j) 16 = v) := by
  exact ⟨5, 1, (Tests.on.setOd Od.FEED_ID 1).setOd Od.BUDDY_OVERRIDE 5, by decide +kernel, by decide +kernel, by
    decide +kernel, by decide +kernel, by decide +kernel, by decide +kernel, 0, by decide +kernel⟩

/-- The hypotheses of clause 6 of `BuddyCopiesArriveAndAreSent` can be met. -/
theorem test_witness_buddy_copies_arrive_and_are_sent_6 :
    ∃ (v feed : Nat) (s : State), (v < 65536) ∧ (feed < 2 ^ 64) ∧ (v ≠ 65535) ∧ (s.job.active = true ∨ 1024 ≤ v ∨ v = s.pkg ∨
      (s.odv Od.FEED_ID ≠ 0 ∧ s.odv Od.FEED_ID = feed ∧ ∀ j, j < 8 → bitsOf (s.odv Od.BUDDY_OVERRIDE) (16 * j) 16 ≠ v)) := by
  exact ⟨1024, 0, Tests.on, by decide +kernel⟩

/-- The hypotheses of clause 7 of `BuddyCopiesArriveAndAreSent` can be met. -/
theorem test_witness_buddy_copies_arrive_and_are_sent_7 :
    ∃ (feed : Nat) (s : State), (feed < 2 ^ 64) ∧ (s.job.active = false) := by
  exact ⟨0, .reset, by decide +kernel⟩

/-- The hypotheses of clause 8 of `BuddyCopiesArriveAndAreSent` can be met. -/
theorem test_witness_buddy_copies_arrive_and_are_sent_8 :
    ∃ (v : Nat) (s : State), (v < 1024) ∧ (s.ckpt.buddy.valid = true) ∧ (s.slotErrors 3 ≠ []) := by
  exact ⟨5,
    { Tests.on with ckpt := { Ckpt.empty with area := 2 ^ 30, buddy := { CkptSlot.empty with valid := true } }, eccBad := [2 ^ 56 + 3 * 2 ^ 30] },
    by decide +kernel⟩

/-- The hypotheses of clause 9 of `BuddyCopiesArriveAndAreSent` can be met. -/
theorem test_witness_buddy_copies_arrive_and_are_sent_9 :
    ∃ (v : Nat) (s : State), (v < 1024) ∧ (s.ckpt.buddy.valid = true) := by
  exact ⟨5, { Tests.on with ckpt := { Ckpt.empty with buddy := { CkptSlot.empty with valid := true } } }, by decide +kernel⟩

/-- The hypotheses of clause 10 of `BuddyCopiesArriveAndAreSent` can be met. -/
theorem test_witness_buddy_copies_arrive_and_are_sent_10 :
    ∃ (v : Nat) (s : State), (v < 65536) ∧ (s.ckpt.buddy.valid = false ∨ 1024 ≤ v) := by
  exact ⟨5, .reset, by decide +kernel⟩

/-- The hypotheses of clause 1 of `RemoteMovesWriteSignalAndAreAcknowledged` can be met. -/
theorem test_witness_remote_moves_write_signal_and_are_acknowledged_1 :
    ∃ (p : Nat) (m : Message) (s : State), (Memory.wf s.mem = true) ∧ (s.Delivers p 2 m) ∧ (m.kind = 1) ∧ (s.writeOpen m =
      true) ∧ (regionOf m.dstAddr ≤ 2) ∧ (s.inTier m.dstAddr m.data.length = true) ∧ (skewOf m.dstAddr = 0) ∧
      (s.linkProtected m.dstAddr m.data.length = false) ∧ (crc64 m.data = m.crc) ∧ (s.Clean) := by
  exact ⟨0, Tests.msg 1 [(128, 64, 2 ^ 57), (312, 1, 1), (313, 9, 1), (322, 6, 2), (328, 15, 3)] [7, 8], Tests.mail
    (Tests.running []) 2 (Tests.msg 1 [(128, 64, 2 ^ 57), (312, 1, 1), (313, 9, 1), (322, 6, 2), (328, 15, 3)] [7, 8]), by
    decide +kernel⟩

/-- The hypotheses of clause 2 of `RemoteMovesWriteSignalAndAreAcknowledged` can be met. -/
theorem test_witness_remote_moves_write_signal_and_are_acknowledged_2 :
    ∃ (p : Nat) (m : Message) (s : State), (s.Delivers p 2 m) ∧ (m.kind = 1) ∧ (s.writeOpen m = true) ∧ (2 < regionOf
      m.dstAddr ∨ s.inTier m.dstAddr m.data.length = false ∨ skewOf m.dstAddr ≠ 0) := by
  exact ⟨0, Tests.msg 1 [(128, 64, 2 ^ 58)] [7, 8], Tests.mail (Tests.running []) 2 (Tests.msg 1 [(128, 64, 2 ^ 58)] [7, 8]),
    by decide +kernel⟩

/-- The hypotheses of clause 3 of `RemoteMovesWriteSignalAndAreAcknowledged` can be met. -/
theorem test_witness_remote_moves_write_signal_and_are_acknowledged_3 :
    ∃ (p : Nat) (m : Message) (s : State), (s.Delivers p 2 m) ∧ (m.kind = 1) ∧ (s.writeOpen m = true) ∧ (regionOf m.dstAddr ≤
      2) ∧ (s.inTier m.dstAddr m.data.length = true) ∧ (skewOf m.dstAddr = 0) ∧ (s.linkProtected m.dstAddr m.data.length =
      true) := by
  exact ⟨0, Tests.msg 1 [(128, 64, 2 ^ 57 + 2 ^ 31)] [7, 8], Tests.mail ((Tests.running []).setPlat 0
    { Platform.empty with st := 1, image := some { Tests.img [] with logitRows := [(0, 0, 4096)] } }) 2 (Tests.msg 1 [(128,
    64, 2 ^ 57 + 2 ^ 31)] [7, 8]), by decide +kernel⟩

/-- The hypotheses of clause 4 of `RemoteMovesWriteSignalAndAreAcknowledged` can be met. -/
theorem test_witness_remote_moves_write_signal_and_are_acknowledged_4 :
    ∃ (p : Nat) (m : Message) (s : State), (s.Delivers p 2 m) ∧ (m.kind = 1) ∧ (s.writeOpen m = false) := by
  exact ⟨0, Tests.msg 1 [(128, 64, 2 ^ 57), (312, 1, 1), (313, 9, 1), (322, 6, 2), (328, 15, 3)] [7, 8], Tests.mail
    ((Tests.running []).setIsland 1 { Island.empty with parked := true }) 2 (Tests.msg 1 [(128, 64, 2 ^ 57), (312, 1, 1),
    (313, 9, 1), (322, 6, 2), (328, 15, 3)] [7, 8]), by decide +kernel⟩

/-- The hypotheses of clause 5 of `RemoteMovesWriteSignalAndAreAcknowledged` can be met. -/
theorem test_witness_remote_moves_write_signal_and_are_acknowledged_5 :
    ∃ (p : Nat) (m : Message) (s : State), (s.Delivers p 0 m) ∧ (m.kind = 3) ∧ ((m.src, m.ackMsg) ∈ s.red.unacked) := by
  exact ⟨0, Tests.msg 3 [(448, 32, 5)] [], Tests.mail
    ({ Tests.ringed with red := { Tests.ringed.red with unacked := [(1, 5)] } }) 0 (Tests.msg 3 [(448, 32, 5)] []), by
    decide +kernel⟩

/-- The hypotheses of clause 6 of `RemoteMovesWriteSignalAndAreAcknowledged` can be met. -/
theorem test_witness_remote_moves_write_signal_and_are_acknowledged_6 :
    ∃ (p : Nat) (m : Message) (o : MoveOp) (s : State), (s.Delivers p 0 m) ∧ (m.kind = 3) ∧ ((m.src, m.ackMsg) ∉
      s.red.unacked) ∧ (s.moves.find? (fun o => o.waiting.contains (m.src, m.ackMsg)) = some o) ∧ (o.waiting.erase (m.src,
      m.ackMsg) = []) := by
  exact ⟨0, Tests.msg 3 [(448, 32, 5)] [], { it := Tests.first Tests.wRemote, waiting := [(1, 5)] }, Tests.mail
    { Tests.running [] with moves := [{ it := Tests.first Tests.wRemote, waiting := [(1, 5)] }] } 0 (Tests.msg 3 [(448, 32,
    5)] []), by decide +kernel⟩

/-- The hypotheses of clause 7 of `RemoteMovesWriteSignalAndAreAcknowledged` can be met. -/
theorem test_witness_remote_moves_write_signal_and_are_acknowledged_7 :
    ∃ (p : Nat) (m : Message) (o : MoveOp) (s : State), (s.Delivers p 0 m) ∧ (m.kind = 3) ∧ ((m.src, m.ackMsg) ∉
      s.red.unacked) ∧ (s.moves.find? (fun o => o.waiting.contains (m.src, m.ackMsg)) = some o) ∧ (o.waiting.erase (m.src,
      m.ackMsg) ≠ []) := by
  exact ⟨0, Tests.msg 3 [(448, 32, 5)] [], { it := Tests.first Tests.wRemote, waiting := [(1, 5), (1, 6)] }, Tests.mail
    { Tests.running [] with moves := [{ it := Tests.first Tests.wRemote, waiting := [(1, 5), (1, 6)] }] } 0 (Tests.msg 3
    [(448, 32, 5)] []), by decide +kernel⟩

/-- The hypotheses of clause 8 of `RemoteMovesWriteSignalAndAreAcknowledged` can be met. -/
theorem test_witness_remote_moves_write_signal_and_are_acknowledged_8 :
    ∃ (p : Nat) (m : Message) (s : State), (s.Delivers p 0 m) ∧ (m.kind = 3) ∧ ((m.src, m.ackMsg) ∉ s.red.unacked) ∧
      (s.moves.find? (fun o => o.waiting.contains (m.src, m.ackMsg)) = none) := by
  exact ⟨0, Tests.msg 3 [(448, 32, 5)] [], Tests.mail (Tests.running []) 0 (Tests.msg 3 [(448, 32, 5)] []), by
    decide +kernel⟩

/-- The hypotheses of clause 1 of `MessagesAreForwardedAndJobFaultsSpread` can be met. -/
theorem test_witness_messages_are_forwarded_and_job_faults_spread_1 :
    ∃ (p v q : Nat) (m : Message) (s : State), (p < 16) ∧ (v < 4) ∧ (s.inHead p v = some m) ∧ (m.dst ≠ s.pkg) ∧ (m.epoch =
      s.odv Od.POINTS_EPOCH) ∧ (bitOf (s.pointsEntry m.dst) 21 = true) ∧ (1 < m.ttl) ∧ (bitOf (s.odv Od.TREE_PARENT_MASK) p =
      false ∨ bitOf (s.pointsEntry m.dst) 20 = false) ∧ (s.choosePort (bitsOf (s.pointsEntry m.dst) 0 16) m.msgId = some q)
      := by
  exact ⟨0, 2, 0, Tests.msg 1 [(16, 10, 2)] [], Tests.mail (Tests.linked []) 2 (Tests.msg 1 [(16, 10, 2)] []), by
    decide +kernel⟩

/-- The hypotheses of clause 2 of `MessagesAreForwardedAndJobFaultsSpread` can be met. -/
theorem test_witness_messages_are_forwarded_and_job_faults_spread_2 :
    ∃ (p v : Nat) (m : Message) (s : State), (p < 16) ∧ (v < 4) ∧ (s.inHead p v = some m) ∧ (m.dst ≠ s.pkg) ∧ (m.epoch =
      s.odv Od.POINTS_EPOCH) ∧ (bitOf (s.pointsEntry m.dst) 21 = false ∨ m.ttl ≤ 1 ∨ (bitOf (s.odv Od.TREE_PARENT_MASK) p =
      true ∧ bitOf (s.pointsEntry m.dst) 20 = true)) := by
  exact ⟨0, 2, Tests.msg 1 [(16, 10, 9)] [], Tests.mail (Tests.linked []) 2 (Tests.msg 1 [(16, 10, 9)] []), by
    decide +kernel⟩

/-- The hypotheses of clause 3 of `MessagesAreForwardedAndJobFaultsSpread` can be met. -/
theorem test_witness_messages_are_forwarded_and_job_faults_spread_3 :
    ∃ (p v : Nat) (m : Message) (s : State), (p < 16) ∧ (v < 4) ∧ (s.inHead p v = some m) ∧ (m.dst ≠ s.pkg) ∧ (m.epoch =
      s.odv Od.POINTS_EPOCH) ∧ (bitOf (s.pointsEntry m.dst) 21 = true) ∧ (1 < m.ttl) ∧ (bitOf (s.odv Od.TREE_PARENT_MASK) p =
      false ∨ bitOf (s.pointsEntry m.dst) 20 = false) ∧ (s.choosePort (bitsOf (s.pointsEntry m.dst) 0 16) m.msgId = none)
      := by
  exact ⟨0, 2, Tests.msg 1 [(16, 10, 2)] [],
    { Tests.mail (Tests.linked []) 2 (Tests.msg 1 [(16, 10, 2)] []) with points := (2 ^ 1 + 2 ^ 21) * 2 ^ 64 }, by
    decide +kernel⟩

/-- The hypotheses of clause 4 of `MessagesAreForwardedAndJobFaultsSpread` can be met. -/
theorem test_witness_messages_are_forwarded_and_job_faults_spread_4 :
    ∃ (p v : Nat) (m : Message) (s : State), (p < 16) ∧ (v < 4) ∧ (s.inHead p v = some m) ∧ (m.dst ≠ s.pkg) ∧ (m.epoch ≠
      s.odv Od.POINTS_EPOCH) := by
  exact ⟨0, 2, Tests.msg 1 [(16, 10, 2), (64, 32, 9)] [], Tests.mail (Tests.linked []) 2 (Tests.msg 1 [(16, 10, 2), (64, 32,
    9)] []), by decide +kernel⟩

/-- The hypotheses of clause 5 of `MessagesAreForwardedAndJobFaultsSpread` can be met. -/
theorem test_witness_messages_are_forwarded_and_job_faults_spread_5 :
    ∃ (p v : Nat) (m : Message) (s : State), (p < 16) ∧ (v < 4) ∧ (s.inHead p v = some m) ∧ (m.dst = s.pkg) := by
  exact ⟨0, 2, Tests.msg 1 [] [], Tests.mail (Tests.linked []) 2 (Tests.msg 1 [] []), by decide +kernel⟩

/-- The hypotheses of clause 6 of `MessagesAreForwardedAndJobFaultsSpread` can be met. -/
theorem test_witness_messages_are_forwarded_and_job_faults_spread_6 :
    ∃ (p : Nat) (m : Message) (s : State), (s.Delivers p 0 m) ∧ (m.kind = 6) ∧ (m.lcOp = 3) ∧ (bitOf (((s.dropHead p
      0).faultJobAs { cause := 0x0507, platform := 0, detail := bitsOf m.header 520 10 } true).odv Od.TREE_PARENT_MASK) p =
      true ∨ ((s.dropHead p 0).faultJobAs { cause := 0x0507, platform := 0, detail := bitsOf m.header 520 10 } true).upPort =
      none) := by
  exact ⟨0, Tests.msg 6 [(512, 8, 3), (520, 10, 1), (544, 16, 257)] [], Tests.mail (Tests.running []) 0 (Tests.msg 6 [(512,
    8, 3), (520, 10, 1), (544, 16, 257)] []), by decide +kernel⟩

/-- The hypotheses of clause 7 of `MessagesAreForwardedAndJobFaultsSpread` can be met. -/
theorem test_witness_messages_are_forwarded_and_job_faults_spread_7 :
    ∃ (p q : Nat) (m : Message) (s : State), (s.Delivers p 0 m) ∧ (m.kind = 6) ∧ (m.lcOp = 3) ∧ (bitOf (((s.dropHead p
      0).faultJobAs { cause := 0x0507, platform := 0, detail := bitsOf m.header 520 10 } true).odv Od.TREE_PARENT_MASK) p =
      false) ∧ (((s.dropHead p 0).faultJobAs { cause := 0x0507, platform := 0, detail := bitsOf m.header 520 10 }
      true).upPort = some q) := by
  exact ⟨0, 1, Tests.msg 6 [(512, 8, 3)] [], Tests.mail (((Tests.running []).setOd Od.TREE_PARENT_MASK 2).setOd
    (Od.LP_STATE + 256) 3) 0 (Tests.msg 6 [(512, 8, 3)] []), by decide +kernel⟩

/-- The hypotheses of clause 1 of `GroupsAreAcceptedInSequenceOnly` can be met. -/
theorem test_witness_groups_are_accepted_in_sequence_only_1 :
    ∃ (p : Nat) (lanes : List (List Frame)) (fs : List Frame) (ok : Bool) (s : State), (p < 16) ∧ (lanes.length = 9) ∧ (fs =
      deskew (s.odv (lpKey Od.LP_RX_LANE_MAP p)) (s.link p).skews lanes) ∧ (s.linkActive p = true) ∧ (s.portParked p = false)
      ∧ ((s.link p).accepts fs ok = true) ∧ ((s.link p).again fs = false) := by
  exact ⟨0, spread 0x76543210 (Tests.idleGroup 0), Tests.idleGroup 0, true, Tests.port0 Tests.held, by decide +kernel, by decide +kernel, by decide +kernel, by decide +kernel, by decide +kernel, by simp only [LinkPort.accepts, Tests.groupCrc_forced]; decide +kernel, by decide +kernel⟩

/-- The hypotheses of clause 2 of `GroupsAreAcceptedInSequenceOnly` can be met. -/
theorem test_witness_groups_are_accepted_in_sequence_only_2 :
    ∃ (p : Nat) (lanes : List (List Frame)) (fs : List Frame) (ok : Bool) (s : State), (p < 16) ∧ (lanes.length = 9) ∧ (fs =
      deskew (s.odv (lpKey Od.LP_RX_LANE_MAP p)) (s.link p).skews lanes) ∧ (s.linkActive p = true) ∧ (s.portParked p = false)
      ∧ ((s.link p).accepts fs ok = true) ∧ ((s.link p).again fs = true) ∧ ((((s.setLink p ((s.link p).accept fs)).count
      Od.LINK_RX_BYTES 4096).replay p).linkActive p = true) := by
  exact ⟨0, spread 0x76543210 (Tests.idleGroup 1), Tests.idleGroup 1, true, Tests.port0 Tests.held, by decide +kernel, by decide +kernel, by decide +kernel, by decide +kernel, by decide +kernel, by simp only [LinkPort.accepts, Tests.groupCrc_forced]; decide +kernel, by decide +kernel, by decide +kernel⟩

/-- The hypotheses of clause 3 of `GroupsAreAcceptedInSequenceOnly` can be met. -/
theorem test_witness_groups_are_accepted_in_sequence_only_3 :
    ∃ (p : Nat) (lanes : List (List Frame)) (fs : List Frame) (ok : Bool) (s : State), (p < 16) ∧ (lanes.length = 9) ∧ (fs =
      deskew (s.odv (lpKey Od.LP_RX_LANE_MAP p)) (s.link p).skews lanes) ∧ (s.linkActive p = true) ∧ (s.portParked p = false)
      ∧ ((s.link p).accepts fs ok = true) ∧ ((s.link p).again fs = true) ∧ ((((s.setLink p ((s.link p).accept fs)).count
      Od.LINK_RX_BYTES 4096).replay p).linkActive p = false) := by
  exact ⟨0, spread 0x76543210 (Tests.idleGroup 1), Tests.idleGroup 1, true, Tests.port0 { Tests.held with replays := 8 }, by decide +kernel, by decide +kernel, by decide +kernel, by decide +kernel, by decide +kernel, by simp only [LinkPort.accepts, Tests.groupCrc_forced]; decide +kernel, by decide +kernel, by decide +kernel⟩

/-- The hypotheses of clause 4 of `GroupsAreAcceptedInSequenceOnly` can be met. -/
theorem test_witness_groups_are_accepted_in_sequence_only_4 :
    ∃ (p : Nat) (lanes : List (List Frame)) (s : State), (p < 16) ∧ (lanes.length = 9) ∧ (s.linkActive p = true) ∧
      (s.portParked p = false) := by
  exact ⟨0, spread 0x76543210 (List.replicate 16 idleFrame), Tests.port0 Tests.held, by decide +kernel⟩

/-- The hypotheses of clause 5 of `GroupsAreAcceptedInSequenceOnly` can be met. -/
theorem test_witness_groups_are_accepted_in_sequence_only_5 :
    ∃ (p : Nat) (lanes : List (List Frame)) (fs : List Frame) (s : State), (p < 16) ∧ (lanes.length = 9) ∧ (fs = deskew
      (s.odv (lpKey Od.LP_RX_LANE_MAP p)) (s.link p).skews lanes) ∧ (s.linkActive p = true) ∧ (s.portParked p = false) ∧
      ((s.link p).accepts fs true = false) := by
  exact ⟨0, spread 0x76543210 (List.replicate 16 idleFrame), List.replicate 16 idleFrame, Tests.port0 Tests.held, by decide +kernel, by decide +kernel, by decide +kernel, by decide +kernel, by decide +kernel, by simp only [LinkPort.accepts, Tests.groupCrc_forced]; decide +kernel⟩

/-- The hypotheses of clause 1 of `SealedGroupsKeepTheirFlitsAndCheck` can be met. -/
theorem test_witness_sealed_groups_keep_their_flits_and_check_1 :
    ∃ (fs : List Frame) (tr : Nat), (fs.length = 16) ∧ (tr < 2 ^ 32) := by
  exact ⟨List.replicate 16 { ctl := 0x5F, flit := 7 }, 2 ^ 32 - 1, by decide +kernel⟩

/-- The hypotheses of clause 2 of `SealedGroupsKeepTheirFlitsAndCheck` can be met. -/
theorem test_witness_sealed_groups_keep_their_flits_and_check_2 :
    ∃ (map : Nat) (skews : List Nat) (fs : List Frame), (fs.length = 16) ∧ (skews.length = 9) ∧ (∀ l, l < 8 → bitsOf map (4 *
      l) 4 < 9) ∧ (∀ l, l < 8 → ∀ k, k < 8 → bitsOf map (4 * l) 4 = bitsOf map (4 * k) 4 → l = k) := by
  exact ⟨0x86543210, [0, 1, 2, 3, 4, 5, 6, 7, 8], List.replicate 16 { ctl := 0x5F, flit := 7 }, by decide +kernel⟩

/-- The hypotheses of `MessagesAreRebuiltFromTheirFlits` can be met. -/
theorem test_witness_messages_are_rebuilt_from_their_flits :
    ∃ (m : Message), (m.header < 2 ^ 2048) ∧ (1 ≤ m.kind) ∧ (m.kind ≤ 7) ∧ (m.vc = vcOfKind m.kind) ∧ (m.bytes =
      m.data.length ∨ kindHasData m.kind = false) ∧ (kindHasData m.kind = true ∨ m.data = []) ∧ (m.crc < 2 ^ 64) ∧
      (kindHasData m.kind = true ∨ m.crc = 0) := by
  exact ⟨Tests.msg 1 [(8, 2, 2), (96, 32, 3)] [1, 2, 3], by decide +kernel⟩

/-- The hypotheses of clause 1 of `ReplayAndLaneSubstitution` can be met. -/
theorem test_witness_replay_and_lane_substitution_1 :
    ∃ (p ns : Nat) (s : State), (p < 16) ∧ (s.linkActive p = true) ∧ (s.portParked p = false) ∧ ((s.link p).rxSub = none) ∧
      (s.odv Od.LINK_ACK_DEADLINE ≤ ns) ∧ ((s.link p).retryBuf ≠ []) ∧ ((s.link p).txSub = false) ∧ ((s.link p).replays <
      s.odv Od.LINK_REPLAY_LIMIT) := by
  exact ⟨0, 2 ^ 40, Tests.port0 Tests.held, by decide +kernel⟩

/-- The hypotheses of clause 2 of `ReplayAndLaneSubstitution` can be met. -/
theorem test_witness_replay_and_lane_substitution_2 :
    ∃ (p ns : Nat) (s : State), (p < 16) ∧ (s.linkActive p = true) ∧ (s.portParked p = false) ∧ ((s.link p).rxSub = none) ∧
      (s.odv Od.LINK_ACK_DEADLINE ≤ ns) ∧ ((s.link p).retryBuf ≠ []) ∧ ((s.link p).txSub = false) ∧ (s.odv
      Od.LINK_REPLAY_LIMIT ≤ (s.link p).replays) := by
  exact ⟨0, 2 ^ 40, Tests.port0 { Tests.held with replays := 8 }, by decide +kernel⟩

/-- The hypotheses of clause 3 of `ReplayAndLaneSubstitution` can be met. -/
theorem test_witness_replay_and_lane_substitution_3 :
    ∃ (p lane ll q : Nat) (s : State), (p < 16) ∧ (lane < 9) ∧ (s.linkActive p = true) ∧ (laneOf (s.odv (lpKey
      Od.LP_RX_LANE_MAP p)) lane = some ll) ∧ ((s.link p).rxSpareUsed = false) ∧ (spareOf (s.odv (lpKey Od.LP_RX_LANE_MAP p))
      (s.odv (lpKey Od.LP_FAILED_LANES p) / 65536) = some q) := by
  exact ⟨0, 3, 3, 8, (Tests.port0 Tests.held).setOd Od.LP_RX_LANE_MAP 0x76543210, by decide +kernel⟩

/-- The hypotheses of clause 4 of `ReplayAndLaneSubstitution` can be met. -/
theorem test_witness_replay_and_lane_substitution_4 :
    ∃ (p lane ll : Nat) (s : State), (p < 16) ∧ (lane < 9) ∧ (s.linkActive p = true) ∧ (laneOf (s.odv (lpKey
      Od.LP_RX_LANE_MAP p)) lane = some ll) ∧ ((s.link p).rxSpareUsed = true ∨ spareOf (s.odv (lpKey Od.LP_RX_LANE_MAP p))
      (s.odv (lpKey Od.LP_FAILED_LANES p) / 65536) = none) := by
  exact ⟨0, 3, 3, (Tests.port0 { Tests.held with rxSpareUsed := true }).setOd Od.LP_RX_LANE_MAP 0x76543210, by
    decide +kernel⟩

/-- The hypotheses of clause 5 of `ReplayAndLaneSubstitution` can be met. -/
theorem test_witness_replay_and_lane_substitution_5 :
    ∃ (p lane : Nat) (ratio : W32) (s : State), (p < 16) ∧ (lane < 9) := by
  exact ⟨0, 8, 0, .reset, by decide +kernel⟩

/-- The hypotheses of clause 6 of `ReplayAndLaneSubstitution` can be met. -/
theorem test_witness_replay_and_lane_substitution_6 :
    ∃ (p ns : Nat) (s : State), (p < 16) ∧ (s.linkActive p = true) ∧ (s.portParked p = false) ∧ ((s.link p).rxSub ≠ none) ∧
      (2500 < ns) := by
  exact ⟨0, 2501, Tests.port0 { Tests.held with rxSub := some 3 }, by decide +kernel⟩

/-- The hypotheses of clause 7 of `ReplayAndLaneSubstitution` can be met. -/
theorem test_witness_replay_and_lane_substitution_7 :
    ∃ (p : Nat) (m : Message) (s : State), (s.Delivers p 0 m) ∧ (m.kind = 6) ∧ (m.lcOp = 1) ∧ (bitsOf m.header 520 4 < 8) ∧
      (bitsOf m.header 524 4 < 9) := by
  exact ⟨0, Tests.msg 6 [(512, 8, 1), (520, 4, 3), (524, 4, 8)] [], Tests.mail (Tests.running []) 0 (Tests.msg 6 [(512, 8,
    1), (520, 4, 3), (524, 4, 8)] []), by decide +kernel⟩

/-- The hypotheses of clause 1 of `PortsTrainAndPointsAreCommitted` can be met. -/
theorem test_witness_ports_train_and_points_are_committed_1 :
    ∃ (p tx rx : Nat) (skews : List Nat) (s : State), (p < 16) ∧ (skews.length = 9) ∧ (s.mainUp = true) ∧ (s.portParked p =
      false) ∧ (s.odv (lpKey Od.LP_ENABLE p) ≠ 0) ∧ (s.linkActive p = false) ∧ (8 ≤ (goodLanes tx (s.odv (lpKey
      Od.LP_FAILED_LANES p) % 65536)).length) ∧ (8 ≤ (goodLanes rx (s.odv (lpKey Od.LP_FAILED_LANES p) / 65536)).length)
      := by
  exact ⟨15, 511, 511, [0, 1, 2, 3, 4, 5, 6, 7, 8], Tests.on.setOd (lpKey Od.LP_ENABLE 15) 1, by decide +kernel⟩

/-- The hypotheses of clause 2 of `PortsTrainAndPointsAreCommitted` can be met. -/
theorem test_witness_ports_train_and_points_are_committed_2 :
    ∃ (p tx rx : Nat) (skews : List Nat) (s : State), (p < 16) ∧ (skews.length = 9) ∧ (s.mainUp = true) ∧ (s.portParked p =
      false) ∧ (s.odv (lpKey Od.LP_ENABLE p) ≠ 0) ∧ (s.linkActive p = false) ∧ ((goodLanes tx (s.odv (lpKey
      Od.LP_FAILED_LANES p) % 65536)).length < 8 ∨ (goodLanes rx (s.odv (lpKey Od.LP_FAILED_LANES p) / 65536)).length < 8)
      := by
  exact ⟨0, 127, 511, [0, 0, 0, 0, 0, 0, 0, 0, 0], Tests.on.setOd (lpKey Od.LP_ENABLE 0) 1, by decide +kernel⟩

/-- The hypotheses of clause 3 of `PortsTrainAndPointsAreCommitted` can be met. -/
theorem test_witness_ports_train_and_points_are_committed_3 :
    ∃ (p peer pp ep : Nat) (cr : List Nat) (s : State), (p < 16) ∧ (peer < 65536) ∧ (pp < 16) ∧ (ep < 2 ^ 32) ∧ (cr.length =
      4) ∧ (s.odv (lpKey Od.LP_STATE p) = 2) ∧ (s.portParked p = false) ∧ ((s.link p).skews.length = 9) ∧ (s.odv (lpKey
      Od.LP_EXPECTED_PEER p) ≠ 0xFFFFFFFF) ∧ (s.odv (lpKey Od.LP_EXPECTED_PEER p) ≠ peer + pp * 65536) := by
  exact ⟨0, 3, 1, 0, [1, 1, 1, 1], ((Tests.on.setLink 0 { LinkPort.empty with skews := [0, 1, 2, 3, 4, 5, 6, 7, 8] }).setOd
    (lpKey Od.LP_STATE 0) 2).setOd (lpKey Od.LP_EXPECTED_PEER 0) 9, by decide +kernel⟩

/-- The hypotheses of clause 4 of `PortsTrainAndPointsAreCommitted` can be met. -/
theorem test_witness_ports_train_and_points_are_committed_4 :
    ∃ (p peer pp ep : Nat) (cr : List Nat) (s : State), (p < 16) ∧ (peer < 65536) ∧ (pp < 16) ∧ (ep < 2 ^ 32) ∧ (cr.length =
      4) ∧ (s.odv (lpKey Od.LP_STATE p) = 2) ∧ (s.portParked p = false) ∧ ((s.link p).skews.length = 9) ∧ (s.odv (lpKey
      Od.LP_EXPECTED_PEER p) = 0xFFFFFFFF ∨ s.odv (lpKey Od.LP_EXPECTED_PEER p) = peer + pp * 65536) := by
  exact ⟨0, 3, 1, 0, [1, 2, 3, 4], (Tests.on.setLink 0 { LinkPort.empty with skews := [0, 1, 2, 3, 4, 5, 6, 7, 8] }).setOd
    (lpKey Od.LP_STATE 0) 2, by decide +kernel⟩

/-- The hypotheses of clause 5 of `PortsTrainAndPointsAreCommitted` can be met. -/
theorem test_witness_ports_train_and_points_are_committed_5 :
    ∃ (p ms : Nat) (s : State), (p < 16) ∧ (s.odv (lpKey Od.LP_STATE p) = 2) ∧ (1000 ≤ ms) := by
  exact ⟨0, 1000, Tests.on.setOd (lpKey Od.LP_STATE 0) 2, by decide +kernel⟩

/-- The hypotheses of clause 6 of `PortsTrainAndPointsAreCommitted` can be met. -/
theorem test_witness_ports_train_and_points_are_committed_6 :
    ∃ (p ms : Nat) (s : State), (p < 16) ∧ (s.mainUp = true) ∧ (s.portParked p = false) ∧ (s.odv (lpKey Od.LP_STATE p) = 1) ∧
      (s.odv (lpKey Od.LP_ENABLE p) = 1) ∧ (5000 ≤ ms) := by
  exact ⟨0, 5000, (Tests.on.setOd (lpKey Od.LP_STATE 0) 1).setOd (lpKey Od.LP_ENABLE 0) 1, by decide +kernel⟩

/-- The hypotheses of clause 7 of `PortsTrainAndPointsAreCommitted` can be met. -/
theorem test_witness_ports_train_and_points_are_committed_7 :
    ∃ (p v : Nat) (s : State), (p < 16) ∧ (v = 2 ^ p) ∧ (s.odv (lpKey Od.LP_STATE p) ≠ 0) := by
  exact ⟨3, 8, Tests.on.setOd (lpKey Od.LP_STATE 3) 3, by decide +kernel⟩

/-- The hypotheses of clause 8 of `PortsTrainAndPointsAreCommitted` can be met. -/
theorem test_witness_ports_train_and_points_are_committed_8 :
    ∃ (v : Nat) (s : State), (v < 65536) := by
  exact ⟨65535, .reset, by decide +kernel⟩

/-- The hypotheses of clause 9 of `PortsTrainAndPointsAreCommitted` can be met. -/
theorem test_witness_ports_train_and_points_are_committed_9 :
    ∃ (isl ns : Nat) (s : State), (islandOk isl = true) ∧ (islCode isl = 7) ∧ ((s.island isl).parked = true) ∧ (s.odv
      Od.BARRIER_TOKEN_DEADLINE < ns) ∧ (s.odv (lpKey Od.LP_STATE (islInst isl)) ≠ 0) ∧ (s.odv (lpKey Od.LP_STATE (islInst
      isl)) ≠ 5) := by
  exact ⟨0x7003, 2 ^ 40, (Tests.on.setOd (lpKey Od.LP_STATE 3) 2).setIsland 0x7003 { Island.empty with parked := true }, by
    decide +kernel⟩

/-- The hypotheses of clause 10 of `PortsTrainAndPointsAreCommitted` can be met. -/
theorem test_witness_ports_train_and_points_are_committed_10 :
    ∃ (v : Nat) (s : State), (v < 2 ^ 32) ∧ (s.anyArmed = false) ∧ (s.stagedOk = true) ∧ (v ≠ s.odv Od.POINTS_EPOCH) := by
  exact ⟨1, Tests.on, by decide +kernel⟩

/-- The hypotheses of clause 11 of `PortsTrainAndPointsAreCommitted` can be met. -/
theorem test_witness_ports_train_and_points_are_committed_11 :
    ∃ (v : Nat) (s : State), (v < 2 ^ 32) ∧ (s.anyArmed = true ∨ s.stagedOk = false ∨ v = s.odv Od.POINTS_EPOCH) := by
  exact ⟨1, Tests.running [], by decide +kernel⟩

/-- The hypotheses of clause 1 of `DoorbellsReachTheirQueueOrCounter` can be met. -/
theorem test_witness_doorbells_reach_their_queue_or_counter_1 :
    ∃ (port vf p value : Nat) (s : State), (s.Rings port vf p value 0 12 20) ∧ (bitsOf value 0 12 < (s.plat p).queueCount) ∧
      ((s.queue ((s.plat p).queueBase + bitsOf value 0 12)).enable = true) ∧ ((bitsOf value 32 32 + 2 ^ 32 - (s.queue
      ((s.plat p).queueBase + bitsOf value 0 12)).head) % 2 ^ 32 ≤ 2 ^ (s.queue ((s.plat p).queueBase + bitsOf value 0
      12)).slotsLog2) ∧ (((s.queue ((s.plat p).queueBase + bitsOf value 0 12)).tail + 2 ^ 32 - (s.queue ((s.plat
      p).queueBase + bitsOf value 0 12)).head) % 2 ^ 32 ≤ (bitsOf value 32 32 + 2 ^ 32 - (s.queue ((s.plat
      p).queueBase + bitsOf value 0 12)).head) % 2 ^ 32) := by
  exact ⟨1, 0, 0, 2 * 2 ^ 32, Tests.posting Tests.wDCopy 1, by decide +kernel⟩

/-- The hypotheses of clause 2 of `DoorbellsReachTheirQueueOrCounter` can be met. -/
theorem test_witness_doorbells_reach_their_queue_or_counter_2 :
    ∃ (port vf p value : Nat) (s : State), (s.Rings port vf p value 0 12 20) ∧ (bitsOf value 0 12 < (s.plat p).queueCount) ∧
      ((s.queue ((s.plat p).queueBase + bitsOf value 0 12)).enable = true) ∧ (2 ^ (s.queue ((s.plat p).queueBase + bitsOf
      value 0 12)).slotsLog2 < (bitsOf value 32 32 + 2 ^ 32 - (s.queue ((s.plat p).queueBase + bitsOf value 0 12)).head) % 2
      ^ 32 ∨ (bitsOf value 32 32 + 2 ^ 32 - (s.queue ((s.plat p).queueBase + bitsOf value 0 12)).head) % 2 ^ 32 < ((s.queue
      ((s.plat p).queueBase + bitsOf value 0 12)).tail + 2 ^ 32 - (s.queue ((s.plat p).queueBase + bitsOf value 0 12)).head)
      % 2 ^ 32) := by
  exact ⟨1, 0, 0, 0, Tests.posting Tests.wDCopy 1, by decide +kernel⟩

/-- The hypotheses of clause 3 of `DoorbellsReachTheirQueueOrCounter` can be met. -/
theorem test_witness_doorbells_reach_their_queue_or_counter_3 :
    ∃ (port vf p value : Nat) (s : State), (s.Rings port vf p value 8 12 20) ∧ (bitsOf value 0 12 < (s.plat p).queueCount) ∧
      ((s.queue ((s.plat p).queueBase + bitsOf value 0 12)).enable = true) ∧ ((bitsOf value 32 32 + 2 ^ 32 - (s.queue
      ((s.plat p).queueBase + bitsOf value 0 12)).cplHead) % 2 ^ 32 ≤ ((s.queue ((s.plat p).queueBase + bitsOf value 0
      12)).cplTail + 2 ^ 32 - (s.queue ((s.plat p).queueBase + bitsOf value 0 12)).cplHead) % 2 ^ 32) := by
  exact ⟨0, 0, 0, 0, Tests.posting Tests.wDCopy 1, by decide +kernel⟩

/-- The hypotheses of clause 4 of `DoorbellsReachTheirQueueOrCounter` can be met. -/
theorem test_witness_doorbells_reach_their_queue_or_counter_4 :
    ∃ (port vf p value c k : Nat) (s : State), (s.Rings port vf p value 16 31 33) ∧ (bitOf value 15 = false) ∧ (bitsOf value
      16 15 ≠ 0) ∧ ((s.plat p).held = true) ∧ (s.hostIn p (bitsOf value 0 9) (bitsOf value 9 6) = true) ∧ (s.mapCtr p (bitsOf
      value 0 9) (bitsOf value 9 6) = some (c, k)) := by
  exact ⟨0, 0, 0, 3 * 2 ^ 16 + 2 ^ 9, 0, 1, Tests.running [], by decide +kernel⟩

/-- The hypotheses of clause 5 of `DoorbellsReachTheirQueueOrCounter` can be met. -/
theorem test_witness_doorbells_reach_their_queue_or_counter_5 :
    ∃ (port vf offset size value : Nat) (s : State), (port < 2) ∧ (vf < 64) ∧ (size ≠ 8) ∧ ((s.plat (offset /
      4096)).epochStopped = false) := by
  exact ⟨0, 0, 0, 4, 0, .reset, by decide +kernel⟩

/-- The hypotheses of clause 6 of `DoorbellsReachTheirQueueOrCounter` can be met. -/
theorem test_witness_doorbells_reach_their_queue_or_counter_6 :
    ∃ (port vf p value : Nat) (s : State), (s.Rings port vf p value 0 12 20) ∧ ((s.plat p).queueCount ≤ bitsOf value 0 12 ∨
      (s.queue ((s.plat p).queueBase + bitsOf value 0 12)).enable = false) := by
  exact ⟨1, 0, 0, 0, Tests.running [], by decide +kernel⟩

/-- The hypotheses of clause 7 of `DoorbellsReachTheirQueueOrCounter` can be met. -/
theorem test_witness_doorbells_reach_their_queue_or_counter_7 :
    ∃ (port vf p value : Nat) (s : State), (s.Rings port vf p value 8 12 20) ∧ ((s.plat p).queueCount ≤ bitsOf value 0 12 ∨
      (s.queue ((s.plat p).queueBase + bitsOf value 0 12)).enable = false ∨ ((s.queue ((s.plat p).queueBase + bitsOf value 0
      12)).cplTail + 2 ^ 32 - (s.queue ((s.plat p).queueBase + bitsOf value 0 12)).cplHead) % 2 ^ 32 < (bitsOf value 32
      32 + 2 ^ 32 - (s.queue ((s.plat p).queueBase + bitsOf value 0 12)).cplHead) % 2 ^ 32) := by
  exact ⟨0, 0, 0, 2 ^ 32, Tests.posting Tests.wDCopy 1, by decide +kernel⟩

/-- The hypotheses of clause 8 of `DoorbellsReachTheirQueueOrCounter` can be met. -/
theorem test_witness_doorbells_reach_their_queue_or_counter_8 :
    ∃ (port vf p value : Nat) (s : State), (s.Rings port vf p value 16 31 33) ∧ (bitOf value 15 = true ∨ bitsOf value 16 15 =
      0) := by
  exact ⟨0, 0, 0, 0, Tests.running [], by decide +kernel⟩

/-- The hypotheses of clause 9 of `DoorbellsReachTheirQueueOrCounter` can be met. -/
theorem test_witness_doorbells_reach_their_queue_or_counter_9 :
    ∃ (port vf p value : Nat) (s : State), (s.Rings port vf p value 16 31 33) ∧ (bitOf value 15 = false) ∧ (bitsOf value 16
      15 ≠ 0) ∧ ((s.plat p).held = false ∨ s.hostIn p (bitsOf value 0 9) (bitsOf value 9 6) = false ∨ s.mapCtr p (bitsOf
      value 0 9) (bitsOf value 9 6) = none) := by
  exact ⟨0, 0, 0, 2 ^ 16 + 5 * 2 ^ 9, Tests.running [], by decide +kernel⟩

/-- The hypotheses of clause 10 of `DoorbellsReachTheirQueueOrCounter` can be met. -/
theorem test_witness_doorbells_reach_their_queue_or_counter_10 :
    ∃ (port vf offset size value : Nat) (s : State), (port < 2) ∧ (vf < 64) ∧ (s.responds port vf (offset / 4096) = true) ∧
      ((s.plat (offset / 4096)).epochStopped = true) := by
  exact ⟨0, 0, 0, 4, 0, (Tests.running []).setPlat 0 { Platform.empty with st := 1, epochStopped := true }, by
    decide +kernel⟩

/-- The hypotheses of clause 11 of `DoorbellsReachTheirQueueOrCounter` can be met. -/
theorem test_witness_doorbells_reach_their_queue_or_counter_11 :
    ∃ (port vf p value : Nat) (s : State), (port < 2) ∧ (vf < 64) ∧ (bitsOf value 12 20 = 0) ∧ (bitsOf value 31 33 = 0) ∧
      (s.responds port vf p = true) ∧ ((s.plat p).st = 3) := by
  exact ⟨0, 0, 0, 0, (Tests.running []).setPlat 0 { Platform.empty with st := 3 }, by decide +kernel⟩

/-- The hypotheses of clause 1 of `DescriptorsCopyWriteAndComplete` can be met. -/
theorem test_witness_descriptors_copy_write_and_complete_1 :
    ∃ (q p : Nat) (d : Desc) (s : State), (s.Starts q p d) ∧ (d.kind = 1) ∧ (s.descPlace p d.src d.len false = .inl .device)
      ∧ (s.descPlace p d.dst d.len true = .inl .device) ∧ (overlap d.src d.len d.dst d.len = false) ∧ (s.Clean) := by
  exact ⟨0, 0, Tests.dsc Tests.wDCopy 1, Tests.posting Tests.wDCopy 1, by decide +kernel⟩

/-- The hypotheses of clause 2 of `DescriptorsCopyWriteAndComplete` can be met. -/
theorem test_witness_descriptors_copy_write_and_complete_2 :
    ∃ (q p port a : Nat) (d : Desc) (s : State), (s.Starts q p d) ∧ (d.kind = 1) ∧ (s.descPlace p d.src d.len false = .inl
      (.host port a)) ∧ (s.descPlace p d.dst d.len true = .inl .device) ∧ ((s.port port).linkUp = true) ∧ (s.hostBad = []) ∧
      (s.Clean) := by
  exact ⟨0, 0, 0, 2 ^ 21, Tests.dsc Tests.wDFrom 1, Tests.posting Tests.wDFrom 1, by decide +kernel⟩

/-- The hypotheses of clause 3 of `DescriptorsCopyWriteAndComplete` can be met. -/
theorem test_witness_descriptors_copy_write_and_complete_3 :
    ∃ (q p port a : Nat) (d : Desc) (s : State), (s.Starts q p d) ∧ (d.kind = 1) ∧ (s.descPlace p d.src d.len false = .inl
      .device) ∧ (s.descPlace p d.dst d.len true = .inl (.host port a)) ∧ ((s.port port).linkUp = true) ∧ (s.Clean) := by
  exact ⟨0, 0, 0, 2 ^ 21, Tests.dsc Tests.wDTo 1, Tests.posting Tests.wDTo 1, by decide +kernel⟩

/-- The hypotheses of clause 4 of `DescriptorsCopyWriteAndComplete` can be met. -/
theorem test_witness_descriptors_copy_write_and_complete_4 :
    ∃ (q p port a port2 a2 : Nat) (d : Desc) (s : State), (s.Starts q p d) ∧ (d.kind = 1) ∧ (s.descPlace p d.src d.len false
      = .inl (.host port a)) ∧ (s.descPlace p d.dst d.len true = .inl (.host port2 a2)) ∧ (overlap a d.len a2 d.len = false)
      ∧ ((s.port port).linkUp = true) ∧ ((s.port port2).linkUp = true) ∧ (s.hostBad = []) := by
  exact ⟨0, 0, 0, 2 ^ 21, 0, 2 ^ 22, Tests.dsc Tests.wDHost 1, Tests.posting Tests.wDHost 1, by decide +kernel⟩

/-- The hypotheses of clause 5 of `DescriptorsCopyWriteAndComplete` can be met. -/
theorem test_witness_descriptors_copy_write_and_complete_5 :
    ∃ (q p : Nat) (d : Desc) (ps pd : Place) (s : State), (s.Starts q p d) ∧ (d.kind = 1) ∧ (s.descPlace p d.src d.len false
      = .inl ps) ∧ (s.descPlace p d.dst d.len true = .inl pd) ∧ (copyOverlap d.src d.dst d.len ps pd = true) := by
  exact ⟨0, 0, Tests.dsc Tests.wDOver 1, .device, .device, Tests.posting Tests.wDOver 1, by decide +kernel⟩

/-- The hypotheses of clause 6 of `DescriptorsCopyWriteAndComplete` can be met. -/
theorem test_witness_descriptors_copy_write_and_complete_6 :
    ∃ (q p : Nat) (d : Desc) (ps pd : Place) (s : State), (s.Starts q p d) ∧ (d.kind = 1) ∧ (s.descPlace p d.src d.len false
      = .inl ps) ∧ (s.descPlace p d.dst d.len true = .inl pd) ∧ (copyOverlap d.src d.dst d.len ps pd = false) ∧ (s.placeUp ps
      = false ∨ s.placeUp pd = false) := by
  exact ⟨0, 0, Tests.dsc Tests.wDUp 1, .host 1 (2 ^ 21), .device, (Tests.posting Tests.wDUp 1).setPort 1 HostPort.empty, by
    decide +kernel⟩

/-- The hypotheses of clause 7 of `DescriptorsCopyWriteAndComplete` can be met. -/
theorem test_witness_descriptors_copy_write_and_complete_7 :
    ∃ (q p port a : Nat) (d : Desc) (pd : Place) (s : State), (s.Starts q p d) ∧ (d.kind = 1) ∧ (s.descPlace p d.src d.len
      false = .inl (.host port a)) ∧ (s.descPlace p d.dst d.len true = .inl pd) ∧ (copyOverlap d.src d.dst d.len (.host port
      a) pd = false) ∧ ((s.port port).linkUp = true) ∧ (s.placeUp pd = true) ∧ (s.hostBad.any (fun r => overlap r.1 r.2 a
      d.len) = true) := by
  exact ⟨0, 0, 0, 2 ^ 21, Tests.dsc Tests.wDFrom 1, .device, { Tests.posting Tests.wDFrom 1 with hostBad := [(2 ^ 21, 1)] },
    by decide +kernel⟩

/-- The hypotheses of clause 8 of `DescriptorsCopyWriteAndComplete` can be met. -/
theorem test_witness_descriptors_copy_write_and_complete_8 :
    ∃ (q p e : Nat) (d : Desc) (s : State), (s.Starts q p d) ∧ (d.kind = 1) ∧ ((s.descPlace p d.src d.len false = .inr e ∧ ∃
      pl, s.descPlace p d.dst d.len true = .inl pl) ∨ (s.descPlace p d.dst d.len true = .inr e ∧ ∃ pl, s.descPlace p d.src
      d.len false = .inl pl) ∨ (∃ e1 e2, s.descPlace p d.src d.len false = .inr e1 ∧ s.descPlace p d.dst d.len true = .inr e2
      ∧ e = Nat.min e1 e2)) := by
  exact ⟨0, 0, 1, Tests.dsc (Tests.wDCopy + 2 ^ 192 * 0x08 * 2 ^ 56) 1, Tests.posting (Tests.wDCopy + 2 ^ 192 * 0x08 * 2 ^
    56) 1, by decide +kernel, by decide +kernel, Or.inr (Or.inl ⟨by decide +kernel, .device, by decide +kernel⟩)⟩

/-- The hypotheses of clause 9 of `DescriptorsCopyWriteAndComplete` can be met. -/
theorem test_witness_descriptors_copy_write_and_complete_9 :
    ∃ (q p : Nat) (d : Desc) (s : State), (q < 4096) ∧ (s.nextDesc q = some (p, d)) ∧ (d.kind = 2) ∧ (descOk s p d = false)
      := by
  exact ⟨0, 0, Tests.dsc (Tests.wDInline + 2 ^ 128) 4, Tests.posting (Tests.wDInline + 2 ^ 128) 4, by decide +kernel⟩

/-- The hypotheses of clause 10 of `DescriptorsCopyWriteAndComplete` can be met. -/
theorem test_witness_descriptors_copy_write_and_complete_10 :
    ∃ (q p port a : Nat) (d : Desc) (s : State), (s.Starts q p d) ∧ (d.kind = 2) ∧ (s.descPlace p d.dst d.len true = .inl
      (.host port a)) ∧ ((s.port port).linkUp = false) := by
  exact ⟨0, 0, 1, 2 ^ 21, Tests.dsc Tests.wDInlineUp 4, (Tests.posting Tests.wDInlineUp 4).setPort 1 HostPort.empty, by
    decide +kernel⟩

/-- The hypotheses of clause 11 of `DescriptorsCopyWriteAndComplete` can be met. -/
theorem test_witness_descriptors_copy_write_and_complete_11 :
    ∃ (q p : Nat) (d : Desc) (s : State), (s.Starts q p d) ∧ (d.kind = 2) ∧ (s.descPlace p d.dst d.len true = .inl .device) ∧
      (s.Clean) := by
  exact ⟨0, 0, Tests.dsc Tests.wDInline 4, Tests.posting Tests.wDInline 4, by decide +kernel⟩

/-- The hypotheses of clause 12 of `DescriptorsCopyWriteAndComplete` can be met. -/
theorem test_witness_descriptors_copy_write_and_complete_12 :
    ∃ (q p port a : Nat) (d : Desc) (s : State), (s.Starts q p d) ∧ (d.kind = 2) ∧ (s.descPlace p d.dst d.len true = .inl
      (.host port a)) ∧ ((s.port port).linkUp = true) := by
  exact ⟨0, 0, 0, 2 ^ 21, Tests.dsc Tests.wDInlineHost 4, Tests.posting Tests.wDInlineHost 4, by decide +kernel⟩

/-- The hypotheses of clause 13 of `DescriptorsCopyWriteAndComplete` can be met. -/
theorem test_witness_descriptors_copy_write_and_complete_13 :
    ∃ (q p : Nat) (d : Desc) (s : State), (q < 4096) ∧ (s.nextDesc q = some (p, d)) ∧ (d.kind = 1 ∨ d.kind = 0 ∨ 5 < d.kind)
      ∧ (descOk s p d = false) := by
  exact ⟨0, 0, Tests.dsc 6 1, Tests.posting 6 1, by decide +kernel⟩

/-- The hypotheses of clause 14 of `DescriptorsCopyWriteAndComplete` can be met. -/
theorem test_witness_descriptors_copy_write_and_complete_14 :
    ∃ (q p e : Nat) (d : Desc) (s : State), (s.Starts q p d) ∧ (d.kind = 2) ∧ (s.descPlace p d.dst d.len true = .inr e) := by
  exact ⟨0, 0, 1, Tests.dsc (Tests.wDInline + 2 ^ 192 * 0x08 * 2 ^ 56) 4, Tests.posting (Tests.wDInline + 2 ^ 192 * 0x08 * 2
    ^ 56) 4, by decide +kernel⟩

/-- The hypotheses of clause 1 of `FencesFlushesRecordsAndQueueReset` can be met. -/
theorem test_witness_fences_flushes_records_and_queue_reset_1 :
    ∃ (q p : Nat) (d : Desc) (s : State), (s.Starts q p d) ∧ (d.kind = 3) ∧ ((s.queue q).busy = 0) := by
  exact ⟨0, 0, Tests.dsc Tests.wDFence 1, Tests.posting Tests.wDFence 1, by decide +kernel⟩

/-- The hypotheses of clause 2 of `FencesFlushesRecordsAndQueueReset` can be met. -/
theorem test_witness_fences_flushes_records_and_queue_reset_2 :
    ∃ (q p : Nat) (d : Desc) (s : State), (s.Starts q p d) ∧ (d.kind = 3) ∧ ((s.queue q).busy ≠ 0) := by
  exact ⟨0, 0, Tests.dsc Tests.wDFence 1, (Tests.posting Tests.wDFence 1).setQueue 0
    { (Tests.posting Tests.wDFence 1).queue 0 with head := 2 ^ 32 - 4, busy := 4 }, by decide +kernel⟩

/-- The hypotheses of clause 3 of `FencesFlushesRecordsAndQueueReset` can be met. -/
theorem test_witness_fences_flushes_records_and_queue_reset_3 :
    ∃ (q p : Nat) (d : Desc) (s : State), (s.Starts q p d) ∧ (d.kind = 4) ∧ (s.unflushed p = false) := by
  exact ⟨0, 0, Tests.dsc Tests.wDFlush 1, Tests.posting Tests.wDFlush 1, by decide +kernel⟩

/-- The hypotheses of clause 4 of `FencesFlushesRecordsAndQueueReset` can be met. -/
theorem test_witness_fences_flushes_records_and_queue_reset_4 :
    ∃ (q p : Nat) (d : Desc) (s : State), (s.Starts q p d) ∧ (d.kind = 4) ∧ (s.unflushed p = true) := by
  exact ⟨0, 0, Tests.dsc Tests.wDFlush 1, (Tests.posting Tests.wDFlush 1).setPort 1
    { (Tests.posting Tests.wDFlush 1).port 1 with heldWrites := [(0, 0, [1])] }, by decide +kernel⟩

/-- The hypotheses of clause 5 of `FencesFlushesRecordsAndQueueReset` can be met. -/
theorem test_witness_fences_flushes_records_and_queue_reset_5 :
    ∃ (q p : Nat) (d : Desc) (s : State), (s.Starts q p d) ∧ (d.kind = 5) ∧ (s.serveMode = true) ∧ (rqFormOk (s.plat
      p).queueCount (bitsOf d.w 512 1536) = true) ∧ (s.rqRangesOk p (bitsOf d.w 512 1536) = true) := by
  exact ⟨0, 0, Tests.dsc (Tests.wDServe + 2 * 2 ^ 512) 4, (Tests.posting (Tests.wDServe + 2 * 2 ^ 512) 4).setOd
    Od.PACKAGE_MODE 1, by decide +kernel⟩

/-- The hypotheses of clause 6 of `FencesFlushesRecordsAndQueueReset` can be met. -/
theorem test_witness_fences_flushes_records_and_queue_reset_6 :
    ∃ (q p : Nat) (d : Desc) (s : State), (s.Starts q p d) ∧ (d.kind = 5) ∧ (s.serveMode = false ∨ rqFormOk (s.plat
      p).queueCount (bitsOf d.w 512 1536) = false) := by
  exact ⟨0, 0, Tests.dsc Tests.wDServe 4, Tests.posting Tests.wDServe 4, by decide +kernel⟩

/-- The hypotheses of clause 7 of `FencesFlushesRecordsAndQueueReset` can be met. -/
theorem test_witness_fences_flushes_records_and_queue_reset_7 :
    ∃ (q p : Nat) (d : Desc) (s : State), (s.Starts q p d) ∧ (d.kind = 5) ∧ (s.serveMode = true) ∧ (rqFormOk (s.plat
      p).queueCount (bitsOf d.w 512 1536) = true) ∧ (s.rqRangesOk p (bitsOf d.w 512 1536) = false) := by
  exact ⟨0, 0, Tests.dsc Tests.wDServeFar 4, (Tests.posting Tests.wDServeFar 4).setOd Od.PACKAGE_MODE 1, by decide +kernel⟩

/-- The hypotheses of clause 8 of `FencesFlushesRecordsAndQueueReset` can be met. -/
theorem test_witness_fences_flushes_records_and_queue_reset_8 :
    ∃ (q : Nat) (s : State), (q < 4096) := by
  exact ⟨4095, Tests.posting Tests.wDCopy 1, by decide +kernel⟩

/-- The hypotheses of clause 1 of `QueueRegistersTakeEffectWhileDisabled` can be met. -/
theorem test_witness_queue_registers_take_effect_while_disabled_1 :
    ∃ (q o size v : Nat) (s : State), ((s.queue q).enable = true) := by
  exact ⟨0, 16, 8, 5, Tests.posting Tests.wDCopy 1, by decide +kernel⟩

/-- The hypotheses of clause 2 of `QueueRegistersTakeEffectWhileDisabled` can be met. -/
theorem test_witness_queue_registers_take_effect_while_disabled_2 :
    ∃ (q o size v : Nat) (s : State), ((s.queue q).enable = false) ∧ (o / 8 = 0) := by
  exact ⟨0, 4, 4, 5, .reset, by decide +kernel⟩

/-- The hypotheses of clause 3 of `QueueRegistersTakeEffectWhileDisabled` can be met. -/
theorem test_witness_queue_registers_take_effect_while_disabled_3 :
    ∃ (q o size v : Nat) (s : State), ((s.queue q).enable = false) ∧ (o / 8 = 1) := by
  exact ⟨0, 8, 8, 5, .reset, by decide +kernel⟩

/-- The hypotheses of clause 4 of `QueueRegistersTakeEffectWhileDisabled` can be met. -/
theorem test_witness_queue_registers_take_effect_while_disabled_4 :
    ∃ (q o size v w : Nat) (s : State), ((s.queue q).enable = false) ∧ (o / 8 = 2) ∧ (w = mergeWord (fields [(0, 5, (s.queue
      q).slotsLog2), (8, 5, (s.queue q).cplLog2), (16, 1, 0)]) o size v) := by
  exact ⟨0, 16, 8, 2 ^ 16, 2 ^ 16, .reset, by decide +kernel⟩

/-- The hypotheses of clause 1 of `ApertureAndCxlWindowReachDeviceMemory` can be met. -/
theorem test_witness_aperture_and_cxl_window_reach_device_memory_1 :
    ∃ (port offset size : Nat) (s : State), (port < 2) ∧ (offset + size ≤ 2 ^ 24) ∧ ((s.port port).apEnable = false) := by
  exact ⟨0, 0, 8, .reset, by decide +kernel⟩

/-- The hypotheses of clause 2 of `ApertureAndCxlWindowReachDeviceMemory` can be met. -/
theorem test_witness_aperture_and_cxl_window_reach_device_memory_2 :
    ∃ (port offset size : Nat) (s : State), (port < 2) ∧ (offset + size ≤ 2 ^ 24) ∧ ((s.port port).apEnable = true) ∧
      (s.Clean) := by
  exact ⟨0, 0, 8, Tests.opened, by decide +kernel⟩

/-- The hypotheses of clause 3 of `ApertureAndCxlWindowReachDeviceMemory` can be met. -/
theorem test_witness_aperture_and_cxl_window_reach_device_memory_3 :
    ∃ (port offset : Nat) (data : List Byte) (s : State), (Memory.wf s.mem = true) ∧ (port < 2) ∧ (offset + data.length ≤ 2 ^
      24) ∧ ((s.port port).apEnable = true) ∧ (s.inTier ((s.port port).apBase * 2 ^ 24 + offset) data.length = true) ∧
      (s.inImage ((s.port port).apBase * 2 ^ 24 + offset) data.length = false) ∧ (s.inReserve ((s.port port).apBase * 2 ^
      24 + offset) data.length = false) ∧ (s.inServing ((s.port port).apBase * 2 ^ 24 + offset) data.length = false ∨
      s.serveMode = false) ∧ (s.Clean) := by
  exact ⟨0, 0, [7], Tests.opened, by decide +kernel⟩

/-- The hypotheses of clause 4 of `ApertureAndCxlWindowReachDeviceMemory` can be met. -/
theorem test_witness_aperture_and_cxl_window_reach_device_memory_4 :
    ∃ (port offset : Nat) (data : List Byte) (s : State), (port < 2) ∧ (offset + data.length ≤ 2 ^ 24) ∧ ((s.port
      port).apEnable = true) ∧ (s.inTier ((s.port port).apBase * 2 ^ 24 + offset) data.length = true) ∧ (s.inImage ((s.port
      port).apBase * 2 ^ 24 + offset) data.length = true ∨ s.inReserve ((s.port port).apBase * 2 ^ 24 + offset) data.length =
      true) := by
  exact ⟨0, 0, [7], Tests.guarded, by decide +kernel⟩

/-- The hypotheses of clause 5 of `ApertureAndCxlWindowReachDeviceMemory` can be met. -/
theorem test_witness_aperture_and_cxl_window_reach_device_memory_5 :
    ∃ (port offset : Nat) (data : List Byte) (s : State), (port < 2) ∧ (offset + data.length ≤ 2 ^ 24) ∧ ((s.port
      port).apEnable = true) ∧ (s.inServing ((s.port port).apBase * 2 ^ 24 + offset) data.length = true) ∧ (s.serveMode =
      true) ∧ (∃ e, e ∈ s.plats ∧ e.2.held = true) := by
  exact ⟨0, 0, [7], Tests.armedServe, by decide +kernel, by decide +kernel, by decide +kernel, by decide +kernel, by
    decide +kernel, (3, { Platform.empty with st := 1 }), by decide +kernel, by decide +kernel⟩

/-- The hypotheses of clause 6 of `ApertureAndCxlWindowReachDeviceMemory` can be met. -/
theorem test_witness_aperture_and_cxl_window_reach_device_memory_6 :
    ∃ (port offset : Nat) (data : List Byte) (s : State), (port < 2) ∧ (offset + data.length ≤ 2 ^ 24) ∧ ((s.port
      port).apEnable = false) := by
  exact ⟨0, 0, [7], .reset, by decide +kernel⟩

/-- The hypotheses of clause 7 of `ApertureAndCxlWindowReachDeviceMemory` can be met. -/
theorem test_witness_aperture_and_cxl_window_reach_device_memory_7 :
    ∃ (port offset size : Nat) (s : State), (port < 2) ∧ (s.windowOpen port = true) ∧ (offset + size ≤ s.odv (winSizeKey
      port)) ∧ (s.Clean) := by
  exact ⟨0, 0, 8, Tests.windowed, by decide +kernel⟩

/-- The hypotheses of clause 8 of `ApertureAndCxlWindowReachDeviceMemory` can be met. -/
theorem test_witness_aperture_and_cxl_window_reach_device_memory_8 :
    ∃ (port offset size w : Nat) (ws : List Nat) (s : State), (port < 2) ∧ (s.windowOpen port = true) ∧ (offset + size ≤
      s.odv (winSizeKey port)) ∧ (badIn s.eccBad (s.odv (winBaseKey port) + offset) size = w :: ws) := by
  exact ⟨0, 0, 8, 2 ^ 56, [], { Tests.windowed with eccBad := [2 ^ 56] }, by decide +kernel⟩

/-- The hypotheses of clause 9 of `ApertureAndCxlWindowReachDeviceMemory` can be met. -/
theorem test_witness_aperture_and_cxl_window_reach_device_memory_9 :
    ∃ (port offset : Nat) (data : List Byte) (s : State), (Memory.wf s.mem = true) ∧ (port < 2) ∧ (s.windowOpen port = true)
      ∧ (offset + data.length ≤ s.odv (winSizeKey port)) ∧ (s.inImage (s.odv (winBaseKey port) + offset) data.length = false)
      ∧ (s.inReserve (s.odv (winBaseKey port) + offset) data.length = false) ∧ (s.Clean) := by
  exact ⟨0, 0, [7], Tests.windowed, by decide +kernel⟩

/-- The hypotheses of clause 10 of `ApertureAndCxlWindowReachDeviceMemory` can be met. -/
theorem test_witness_aperture_and_cxl_window_reach_device_memory_10 :
    ∃ (port base size ways : Nat) (s : State), (port < 2) := by
  exact ⟨1, 0, 0, 1, .reset, by decide +kernel⟩

/-- The hypotheses of `ProtectedCxlWriteIsDiscarded` can be met. -/
theorem test_witness_protected_cxl_write_is_discarded :
    ∃ (port offset : Nat) (data : List Byte) (s : State), (port < 2) ∧ (s.windowOpen port = true) ∧ (offset + data.length ≤
      s.odv (winSizeKey port)) ∧ (s.inImage (s.odv (winBaseKey port) + offset) data.length = true) := by
  exact ⟨0, 0, [7],
    { Tests.windowed with job := { Job.empty with active := true, teacherBase := 2 ^ 56, teacherBytes := 64 } }, by
    decide +kernel⟩

/-- The hypotheses of clause 1 of `LinksEpochsAndMaskedVectors` can be met. -/
theorem test_witness_links_epochs_and_masked_vectors_1 :
    ∃ (port : Nat) (s : State), (port < 2) := by
  exact ⟨1, Tests.on, by decide +kernel⟩

/-- The hypotheses of clause 2 of `LinksEpochsAndMaskedVectors` can be met. -/
theorem test_witness_links_epochs_and_masked_vectors_2 :
    ∃ (port rate width : Nat) (flit partner : Bool) (s u : State), (port < 2) ∧ (1 ≤ rate) ∧ (rate ≤ 6) ∧ (width ∈ [1, 2, 4,
      8, 16]) ∧ (u = (s.setPort port
      { s.port port with linkUp := true, downHeld := false, cxl := partner && (s.port port).cxlOn, heldWrites := [], heldMsix := [], retry := (s.port port).retry && !s.power.ready }).setOd
      (linkKey port) (rate + 16 * width + (if flit then 512 else 0) + (if partner && (s.port port).cxlOn then 1024 else 0)))
      := by
  exact ⟨1, 6, 16, true, true, .reset, _, by decide, by decide, by decide, by decide, rfl⟩

/-- The hypotheses of clause 3 of `LinksEpochsAndMaskedVectors` can be met. -/
theorem test_witness_links_epochs_and_masked_vectors_3 :
    ∃ (port ms : Nat) (s : State), (port < 2) ∧ ((s.port port).linkUp = false) ∧ ((s.port port).downHeld = false) ∧ (s.odv
      Od.LINK_DOWN_HOLD_MS ≤ ms) := by
  exact ⟨1, 10, .reset, by decide +kernel⟩

/-- The hypotheses of clause 4 of `LinksEpochsAndMaskedVectors` can be met. -/
theorem test_witness_links_epochs_and_masked_vectors_4 :
    ∃ (port ms : Nat) (s : State), (port < 2) ∧ ((s.port port).linkUp = true ∨ (s.port port).downHeld = true ∨ ms < s.odv
      Od.LINK_DOWN_HOLD_MS) := by
  exact ⟨1, 10, Tests.on, by decide +kernel⟩

/-- The hypotheses of clause 5 of `LinksEpochsAndMaskedVectors` can be met. -/
theorem test_witness_links_epochs_and_masked_vectors_5 :
    ∃ (port : Nat) (s u : State), (port < 2) ∧ (s.power.mainEn = true) ∧ (u = s.stopEpochs port) := by
  exact ⟨1, Tests.twoPorts, _, by decide, by decide +kernel, rfl⟩

/-- The hypotheses of clause 6 of `LinksEpochsAndMaskedVectors` can be met. -/
theorem test_witness_links_epochs_and_masked_vectors_6 :
    ∃ (p : Nat) (s t : State), (p < 1024) ∧ ((s.plat p).epochStopped = true) ∧ (t = ((fromTo (s.plat p).queueBase (s.plat
      p).queueCount).foldl (fun s q => if (s.queue q).enable then s.pushRecord q p (HeldRecord.plain 4 0 (s.queue q).lastDone
      0 0) else s) (s.setPlat p { s.plat p with epochStopped := false })).drainAll) := by
  exact ⟨0, Tests.on.setPlat 0 { Platform.empty with epochStopped := true }, _, by decide, by decide +kernel, rfl⟩

/-- The hypotheses of clause 7 of `LinksEpochsAndMaskedVectors` can be met. -/
theorem test_witness_links_epochs_and_masked_vectors_7 :
    ∃ (p v : Nat) (s : State), (p < 1024) ∧ ((s.plat p).epochStopped = false ∨ v ≠ (s.plat p).epoch) := by
  exact ⟨0, 1, .reset, by decide +kernel⟩

/-- The hypotheses of clause 8 of `LinksEpochsAndMaskedVectors` can be met. -/
theorem test_witness_links_epochs_and_masked_vectors_8 :
    ∃ (port v : Nat) (s : State), (port < 2) ∧ (v < 2048) ∧ (v ∉ (s.port port).unmasked) ∧ (v ∈ (s.port port).pend) := by
  exact ⟨0, 5, Tests.on.setPort 0 { HostPort.empty with pend := [5] }, by decide +kernel⟩

/-- The hypotheses of clause 9 of `LinksEpochsAndMaskedVectors` can be met. -/
theorem test_witness_links_epochs_and_masked_vectors_9 :
    ∃ (port v : Nat) (s : State), (port < 2) ∧ (v < 2048) ∧ (v ∉ (s.port port).unmasked) ∧ (v ∉ (s.port port).pend) := by
  exact ⟨1, 2047, .reset, by decide +kernel⟩

/-- The hypotheses of clause 10 of `LinksEpochsAndMaskedVectors` can be met. -/
theorem test_witness_links_epochs_and_masked_vectors_10 :
    ∃ (port v : Nat) (s : State), (port < 2) ∧ (v < 2048) ∧ (v ∈ (s.port port).unmasked) := by
  exact ⟨1, 5, Tests.on.setPort 1 { HostPort.empty with unmasked := [5] }, by decide +kernel⟩

/-- The hypotheses of clause 11 of `LinksEpochsAndMaskedVectors` can be met. -/
theorem test_witness_links_epochs_and_masked_vectors_11 :
    ∃ (port v n : Nat) (s u : State), (port < 2) ∧ (v < 2048) ∧ (0 < n) ∧ ((s.port port).linkUp = true) ∧ (v ∉ (s.port
      port).unmasked) ∧ (v ∉ (s.port port).pend) ∧ (u = (List.range n).foldl (fun (s : State) _ => s.raise port v) s) := by
  exact ⟨0, 5, 3, Tests.on, _, by decide, by decide, by decide, by decide +kernel, by decide +kernel, by decide +kernel, rfl⟩

/-- The hypotheses of `EpochsStopOnlyTheirOwnPort` can be met. -/
theorem test_witness_epochs_stop_only_their_own_port :
    ∃ (port : Nat) (s : State), (port < 2) ∧ ((s.plats.map (·.1)).Nodup) := by
  exact ⟨1, Tests.twoPorts, by decide +kernel⟩

/-- The hypotheses of clause 1 of `FunctionResetsEndTheirPlatforms` can be met. -/
theorem test_witness_function_resets_end_their_platforms_1 :
    ∃ (p : Nat) (s : State), (p < 1024) ∧ ((s.plat p).st ≠ 0) := by
  exact ⟨0, Tests.running [], by decide +kernel⟩

/-- The hypotheses of clause 2 of `FunctionResetsEndTheirPlatforms` can be met. -/
theorem test_witness_function_resets_end_their_platforms_2 :
    ∃ (p : Nat) (s : State), (p < 1024) ∧ ((s.plat p).st = 0) := by
  exact ⟨0, .reset, by decide +kernel⟩

/-- The hypotheses of clause 3 of `FunctionResetsEndTheirPlatforms` can be met. -/
theorem test_witness_function_resets_end_their_platforms_3 :
    ∃ (port : Nat) (s u : State), (port < 2) ∧ (s.power.mainEn = true) ∧ (u = s.resetAll fun x => x.port = port) := by
  exact ⟨1, Tests.twoPorts, _, by decide, by decide +kernel, rfl⟩

/-- The hypotheses of clause 4 of `FunctionResetsEndTheirPlatforms` can be met. -/
theorem test_witness_function_resets_end_their_platforms_4 :
    ∃ (port vf : Nat) (s u : State), (port < 2) ∧ (1 ≤ vf) ∧ (vf < 64) ∧ (s.power.mainEn = true) ∧ (u = s.resetAll fun x =>
      x.fn = 64 * port + vf) := by
  exact ⟨1, 63, Tests.twoPorts, _, by decide, by decide, by decide, by decide +kernel, rfl⟩

/-- The hypotheses of clause 5 of `FunctionResetsEndTheirPlatforms` can be met. -/
theorem test_witness_function_resets_end_their_platforms_5 :
    ∃ (port n : Nat) (s u : State), (port < 2) ∧ (n < 64) ∧ (u = s.resetAll fun x => x.port = port && n < x.vf) := by
  exact ⟨1, 0, Tests.twoPorts, _, by decide, by decide, rfl⟩

/-- The hypotheses of clause 1 of `PlatformsArmSuspendResumeAndDisarm` can be met. -/
theorem test_witness_platforms_arm_suspend_resume_and_disarm_1 :
    ∃ (p : Nat) (peers : List ArmView) (s : State), (p < 1024) ∧ ((s.plat p).st = 0) ∧ (s.power.doze = false) ∧ (s.serveMode
      = true) ∧ (s.armError p = none) := by
  exact ⟨3, [], Tests.serving, by decide +kernel⟩

/-- The hypotheses of clause 2 of `PlatformsArmSuspendResumeAndDisarm` can be met. -/
theorem test_witness_platforms_arm_suspend_resume_and_disarm_2 :
    ∃ (peers : List ArmView) (img : Image) (s : State), ((s.plat 0).st = 0) ∧ (s.power.doze = false) ∧ (s.serveMode = false)
      ∧ (s.job.active = false) ∧ (s.armRefusal peers = none) ∧ (s.loaded = some img) ∧ (leNat (sha256 (s.load (s.odv
      Od.TEACHER_BASE) (s.odv Od.TEACHER_BYTES))) = s.odv Od.TEACHER_SHA256) := by
  exact ⟨[], Tests.img [], Tests.distillable, by decide +kernel⟩

/-- The hypotheses of clause 3 of `PlatformsArmSuspendResumeAndDisarm` can be met. -/
theorem test_witness_platforms_arm_suspend_resume_and_disarm_3 :
    ∃ (p e : Nat) (peers : List ArmView) (s : State), (p < 1024) ∧ ((s.plat p).st = 0) ∧ (s.power.doze = false) ∧
      (s.serveMode = true) ∧ (s.armError p = some e) := by
  exact ⟨3, 7, [], Tests.servable, by decide +kernel⟩

/-- The hypotheses of clause 4 of `PlatformsArmSuspendResumeAndDisarm` can be met. -/
theorem test_witness_platforms_arm_suspend_resume_and_disarm_4 :
    ∃ (c : Nat) (peers : List ArmView) (s : State), ((s.plat 0).st = 0) ∧ (s.power.doze = false) ∧ (s.serveMode = false) ∧
      (s.job.active = false) ∧ (s.armRefusal peers = some c) := by
  exact ⟨1, [], .reset, by decide +kernel⟩

/-- The hypotheses of clause 5 of `PlatformsArmSuspendResumeAndDisarm` can be met. -/
theorem test_witness_platforms_arm_suspend_resume_and_disarm_5 :
    ∃ (p : Nat) (s : State), (p < 1024) ∧ (s.serveMode = true) ∧ ((s.plat p).st = 1) ∧ ((s.plat p).suspending = false) := by
  exact ⟨3, Tests.served, by decide +kernel⟩

/-- The hypotheses of clause 6 of `PlatformsArmSuspendResumeAndDisarm` can be met. -/
theorem test_witness_platforms_arm_suspend_resume_and_disarm_6 :
    ∃ (p : Nat) (s : State), (p < 1024) ∧ ((s.plat p).st = 1) ∧ ((s.plat p).suspending = true) ∧ (s.quiet p = true) := by
  exact ⟨3, Tests.served.setPlat 3 { Platform.empty with st := 1, suspending := true }, by decide +kernel⟩

/-- The hypotheses of clause 7 of `PlatformsArmSuspendResumeAndDisarm` can be met. -/
theorem test_witness_platforms_arm_suspend_resume_and_disarm_7 :
    ∃ (p : Nat) (s t : State), (p < 1024) ∧ ((s.plat p).st = 2) ∧ (t = s.setPlat p { s.plat p with st := 1 }) := by
  exact ⟨3, Tests.served.setPlat 3 { Platform.empty with st := 2 }, _, by decide, by decide +kernel, rfl⟩

/-- The hypotheses of clause 8 of `PlatformsArmSuspendResumeAndDisarm` can be met. -/
theorem test_witness_platforms_arm_suspend_resume_and_disarm_8 :
    ∃ (p : Nat) (s : State), (p < 1024) ∧ ((s.plat p).st ≠ 0) ∧ ((s.plat p).service = false ∨ (s.plat p).held = false ∨ s.odv
      Od.SERVE_REQ_LIVE = 0) := by
  exact ⟨3, Tests.served, by decide +kernel⟩

/-- The hypotheses of clause 9 of `PlatformsArmSuspendResumeAndDisarm` can be met. -/
theorem test_witness_platforms_arm_suspend_resume_and_disarm_9 :
    ∃ (p : Nat) (s : State), (p < 1024) ∧ ((s.plat p).service = true) ∧ ((s.plat p).held = true) ∧ (s.odv Od.SERVE_REQ_LIVE ≠
      0) := by
  exact ⟨3, (Tests.served.setPlat 3 { Platform.empty with st := 1, cfg := 4 }).setOd Od.SERVE_REQ_LIVE 1, by decide +kernel⟩

/-- The hypotheses of clause 10 of `PlatformsArmSuspendResumeAndDisarm` can be met. -/
theorem test_witness_platforms_arm_suspend_resume_and_disarm_10 :
    ∃ (p : Nat) (peers : List ArmView) (s : State), (p < 1024) ∧ ((s.plat p).st = 0) ∧ (s.power.doze = true ∨ (s.serveMode =
      false ∧ (p ≠ 0 ∨ s.job.active = true))) := by
  exact ⟨1, [], .reset, by decide +kernel⟩

/-- The hypotheses of clause 11 of `PlatformsArmSuspendResumeAndDisarm` can be met. -/
theorem test_witness_platforms_arm_suspend_resume_and_disarm_11 :
    ∃ (p : Nat) (peers : List ArmView) (s : State), (p < 1024) ∧ ((s.plat p).st ≠ 0) := by
  exact ⟨0, [], Tests.running [], by decide +kernel⟩

/-- The hypotheses of clause 12 of `PlatformsArmSuspendResumeAndDisarm` can be met. -/
theorem test_witness_platforms_arm_suspend_resume_and_disarm_12 :
    ∃ (p : Nat) (s : State), (p < 1024) ∧ (s.serveMode = false ∨ (s.plat p).st ≠ 1 ∨ (s.plat p).suspending = true) := by
  exact ⟨0, Tests.running [], by decide +kernel⟩

/-- The hypotheses of clause 13 of `PlatformsArmSuspendResumeAndDisarm` can be met. -/
theorem test_witness_platforms_arm_suspend_resume_and_disarm_13 :
    ∃ (p : Nat) (s : State), (p < 1024) ∧ ((s.plat p).st ≠ 1 ∨ (s.plat p).suspending = false ∨ s.quiet p = false) := by
  exact ⟨0, Tests.running [], by decide +kernel⟩

/-- The hypotheses of clause 14 of `PlatformsArmSuspendResumeAndDisarm` can be met. -/
theorem test_witness_platforms_arm_suspend_resume_and_disarm_14 :
    ∃ (p : Nat) (s : State), (p < 1024) ∧ ((s.plat p).st ≠ 2) := by
  exact ⟨0, Tests.running [], by decide +kernel⟩

/-- The hypotheses of clause 15 of `PlatformsArmSuspendResumeAndDisarm` can be met. -/
theorem test_witness_platforms_arm_suspend_resume_and_disarm_15 :
    ∃ (p : Nat) (s : State), (p < 1024) ∧ ((s.plat p).st = 0) := by
  exact ⟨0, .reset, by decide +kernel⟩

/-- The hypotheses of clause 1 of `RegisterWritesReachTheirRegister` can be met. -/
theorem test_witness_register_writes_reach_their_register_1 :
    ∃ (port vf bar offset size value : Nat) (s : State), (port < 2) ∧ (vf < 64) ∧ ((size ≠ 4 ∧ size ≠ 8) ∨ offset % size ≠ 0)
      := by
  exact ⟨0, 0, 0, 2, 4, 1, .reset, by decide +kernel⟩

/-- The hypotheses of clause 2 of `RegisterWritesReachTheirRegister` can be met. -/
theorem test_witness_register_writes_reach_their_register_2 :
    ∃ (port offset size value : Nat) (s : State), (port < 2) ∧ (size = 4 ∨ size = 8) ∧ (offset % size = 0) ∧ (offset / 8 = 8)
      := by
  exact ⟨0, 68, 4, 1, .reset, by decide +kernel⟩

/-- The hypotheses of clause 3 of `RegisterWritesReachTheirRegister` can be met. -/
theorem test_witness_register_writes_reach_their_register_3 :
    ∃ (port offset size value : Nat) (s : State), (port < 2) ∧ (size = 4 ∨ size = 8) ∧ (offset % size = 0) ∧ (0x10000 ≤
      offset) ∧ (offset < 0x20000) := by
  exact ⟨0, 0x10100, 4, 1, .reset, by decide +kernel⟩

/-- The hypotheses of clause 4 of `RegisterWritesReachTheirRegister` can be met. -/
theorem test_witness_register_writes_reach_their_register_4 :
    ∃ (port p o size value : Nat) (s : State), (port < 2) ∧ (p < 1024) ∧ (o < 64) ∧ (size = 4 ∨ size = 8) ∧ (o % size = 0) ∧
      ((s.plat p).st = 0) := by
  exact ⟨0, 3, 8, 4, 1, .reset, by decide +kernel⟩

/-- The hypotheses of clause 5 of `RegisterWritesReachTheirRegister` can be met. -/
theorem test_witness_register_writes_reach_their_register_5 :
    ∃ (port p o size value : Nat) (s : State), (port < 2) ∧ (p < 1024) ∧ (o < 64) ∧ (size = 4 ∨ size = 8) ∧ (o % size = 0) ∧
      ((s.plat p).st ≠ 0) := by
  exact ⟨0, 0, 8, 4, 1, Tests.running [], by decide +kernel⟩

/-- The hypotheses of clause 6 of `RegisterWritesReachTheirRegister` can be met. -/
theorem test_witness_register_writes_reach_their_register_6 :
    ∃ (port q o size value : Nat) (s : State), (port < 2) ∧ (q < 4096) ∧ (o < 64) ∧ (size = 4 ∨ size = 8) ∧ (o % size = 0)
      := by
  exact ⟨0, 4095, 16, 4, 1, .reset, by decide +kernel⟩

/-- The hypotheses of clause 7 of `RegisterWritesReachTheirRegister` can be met. -/
theorem test_witness_register_writes_reach_their_register_7 :
    ∃ (port p o size value : Nat) (s : State), (port < 2) ∧ (p < 1024) ∧ (o < 65536) ∧ (size = 4 ∨ size = 8) ∧ (o % size = 0)
      := by
  exact ⟨0, 1023, 8, 8, 2, .reset, by decide +kernel⟩

/-- The hypotheses of clause 8 of `RegisterWritesReachTheirRegister` can be met. -/
theorem test_witness_register_writes_reach_their_register_8 :
    ∃ (port vf p o size value : Nat) (s : State), (port < 2) ∧ (vf < 64) ∧ (vf ≠ 0) ∧ (o < 65536) ∧ (size = 4 ∨ size = 8) ∧
      (o % size = 0) ∧ (s.responds port vf p = true) := by
  exact ⟨0, 1, 0, 8, 8, 2, (Tests.on.setPlat 0 { Platform.empty with st := 1, cfg := 2 ^ 10 }), by decide +kernel⟩

/-- The hypotheses of clause 9 of `RegisterWritesReachTheirRegister` can be met. -/
theorem test_witness_register_writes_reach_their_register_9 :
    ∃ (port vf bar offset size value : Nat) (s : State), (port < 2) ∧ (vf < 64) ∧ ((vf = 0 ∧ bar = 4) ∨ (vf ≠ 0 ∧ bar = 0)) ∧
      (s.responds port vf (offset / 65536) = false) := by
  exact ⟨0, 1, 0, 8, 8, 2, .reset, by decide +kernel⟩

/-- The hypotheses of clause 10 of `RegisterWritesReachTheirRegister` can be met. -/
theorem test_witness_register_writes_reach_their_register_10 :
    ∃ (port vf bar offset size value : Nat) (s : State), (port < 2) ∧ (vf < 64) ∧ (¬ (vf = 0 ∧ bar = 0) ∧ ¬ (vf = 0 ∧ bar =
      4) ∧ ¬ (vf ≠ 0 ∧ bar = 0)) := by
  exact ⟨0, 1, 4, 8, 8, 2, .reset, by decide +kernel⟩

/-- The hypotheses of clause 11 of `RegisterWritesReachTheirRegister` can be met. -/
theorem test_witness_register_writes_reach_their_register_11 :
    ∃ (port offset size value : Nat) (s : State), (port < 2) ∧ (offset / 8 ≠ 8) ∧ (offset < 0x10000 ∨ (0x20000 ≤ offset ∧
      offset < 0x400000) ∨ (0x400000 ≤ offset ∧ offset < 0x420000 ∧ 64 ≤ offset % 128) ∨ (0x420000 ≤ offset ∧ offset <
      0x500000) ∨ 0x540000 ≤ offset) := by
  exact ⟨0, 8, 8, 2, .reset, by decide +kernel⟩

/-- The hypotheses of clause 12 of `RegisterWritesReachTheirRegister` can be met. -/
theorem test_witness_register_writes_reach_their_register_12 :
    ∃ (port : Nat) (s : State), (port < 2) ∧ (s.mailboxRuns = false ∨ (s.port port).mbxServing ≠ none) := by
  exact ⟨1, .reset, by decide +kernel⟩

/-- The hypotheses of clause 13 of `RegisterWritesReachTheirRegister` can be met. -/
theorem test_witness_register_writes_reach_their_register_13 :
    ∃ (port : Nat) (s : State), (port < 2) ∧ (s.mailboxRuns = true) ∧ ((s.port port).mbxServing = none) := by
  exact ⟨1, Tests.on, by decide +kernel⟩

/-- The hypotheses of `LosslessGroupsRoundTrip` can be met. -/
theorem test_witness_lossless_groups_round_trip :
    ∃ (xs : List Nat) (rest : List Byte), (xs.length = 2048) ∧ (∀ x ∈ xs, x < 65536) := by
  exact ⟨List.replicate 2048 0x3F80, [], List.length_replicate, fun x h => by rw [List.eq_of_mem_replicate h]; decide⟩

/-- The hypotheses of `ParkingIsReported` can be met. -/
theorem test_witness_parking_is_reported :
    ∃ (i q : Nat) (s : State), (q < 3) ∧ ((s.island i).parked = false) := by
  exact ⟨0x2003, 2, Tests.on, by decide +kernel⟩

/-- The hypotheses of clause 1 of `IslandsParkResumeAndIdle` can be met. -/
theorem test_witness_islands_park_resume_and_idle_1 :
    ∃ (a b ca cb va vb : Nat) (ta tb : Int) (s : State), (islandOk a = true) ∧ (islandOk b = true) ∧ (s.neighbours a b =
      true) ∧ (s.islandPowered a = true) ∧ (s.islandPowered b = true) ∧ (Nat.max ca cb ≤ 4 * Nat.min ca cb) ∧ (absDiff va vb
      ≤ 150) ∧ ((ta - tb).natAbs ≤ 35) := by
  exact ⟨0x0005, 0x2000, 1000, 4000, 700, 850, 40, 75, Tests.on, by decide +kernel⟩

/-- The hypotheses of clause 2 of `IslandsParkResumeAndIdle` can be met. -/
theorem test_witness_islands_park_resume_and_idle_2 :
    ∃ (a b ca cb va vb : Nat) (ta tb : Int) (s : State), (islandOk a = true) ∧ (islandOk b = true) ∧ (s.neighbours a b =
      true) ∧ (s.islandPowered a = true) ∧ (s.islandPowered b = true) ∧ (Nat.max ca cb ≤ 4 * Nat.min ca cb) ∧ (absDiff va vb
      ≤ 150) ∧ (35 < (ta - tb).natAbs) := by
  exact ⟨0x0005, 0x2000, 1000, 4000, 700, 850, 40, 76, Tests.on, by decide +kernel⟩

/-- The hypotheses of clause 3 of `IslandsParkResumeAndIdle` can be met. -/
theorem test_witness_islands_park_resume_and_idle_3 :
    ∃ (a b ca cb va vb : Nat) (ta tb : Int) (s : State), (islandOk a = true) ∧ (islandOk b = true) ∧ (s.neighbours a b =
      true) ∧ (s.islandPowered a = true) ∧ (s.islandPowered b = true) ∧ (Nat.max ca cb ≤ 4 * Nat.min ca cb) ∧ (150 < absDiff
      va vb) ∧ ((ta - tb).natAbs ≤ 35) := by
  exact ⟨0x0005, 0x2000, 1000, 4000, 700, 851, 40, 75, Tests.on, by decide +kernel⟩

/-- The hypotheses of clause 4 of `IslandsParkResumeAndIdle` can be met. -/
theorem test_witness_islands_park_resume_and_idle_4 :
    ∃ (a b ca cb va vb : Nat) (ta tb : Int) (s : State), (islandOk a = true) ∧ (islandOk b = true) ∧ (s.neighbours a b =
      true) ∧ (s.islandPowered a = true) ∧ (s.islandPowered b = true) ∧ (4 * Nat.min ca cb < Nat.max ca cb) ∧ (absDiff va vb
      ≤ 150) ∧ ((ta - tb).natAbs ≤ 35) := by
  exact ⟨0x0005, 0x2000, 999, 4000, 700, 850, 40, 75, Tests.on, by decide +kernel⟩

/-- The hypotheses of clause 5 of `IslandsParkResumeAndIdle` can be met. -/
theorem test_witness_islands_park_resume_and_idle_5 :
    ∃ (i us fast slow sd td : Nat) (s : State), (islandOk i = true) ∧ ((s.island i).parked = true) ∧ (bitOf (s.island
      i).cause 3 = false) ∧ (backWithin fast slow sd td = true) ∧ ((if bitOf (s.island i).cause 2 then 1000 else 50) ≤ us) ∧
      (dieOfIsland i = none) := by
  exact ⟨0xD000, 1000, 38, 10, 130, 30, Tests.on.setIsland 0xD000 { Island.empty with parked := true, cause := 4 }, by
    decide +kernel⟩

/-- The hypotheses of clause 6 of `IslandsParkResumeAndIdle` can be met. -/
theorem test_witness_islands_park_resume_and_idle_6 :
    ∃ (i us fast slow sd td d : Nat) (s : State), (islandOk i = true) ∧ ((s.island i).parked = true) ∧ (bitOf (s.island
      i).cause 3 = false) ∧ (backWithin fast slow sd td = true) ∧ ((if bitOf (s.island i).cause 2 then 1000 else 50) ≤ us) ∧
      (dieOfIsland i = some d) := by
  exact ⟨7, 50, 38, 10, 130, 30, 1, Tests.on.setIsland 7 { Island.empty with parked := true, cause := 1 }, by decide +kernel⟩

/-- The hypotheses of clause 7 of `IslandsParkResumeAndIdle` can be met. -/
theorem test_witness_islands_park_resume_and_idle_7 :
    ∃ (i us fast slow sd td : Nat) (s : State), (islandOk i = true) ∧ ((s.island i).parked = true) ∧ (bitOf (s.island
      i).cause 3 = false) ∧ (us < (if bitOf (s.island i).cause 2 then 1000 else 50) ∨ 38 * slow < 10 * fast ∨ 130 < sd ∨ 30 <
      td) := by
  exact ⟨0xD000, 1000, 381, 100, 130, 30, Tests.on.setIsland 0xD000 { Island.empty with parked := true, cause := 4 }, by
    decide +kernel⟩

/-- The hypotheses of clause 8 of `IslandsParkResumeAndIdle` can be met. -/
theorem test_witness_islands_park_resume_and_idle_8 :
    ∃ (i ms : Nat) (s : State), (islandOk i = true) ∧ ((s.island i).parked = true) ∧ (bitOf (s.island i).cause 3 = false) ∧
      (s.odv Od.ISLAND_PARK_LIMIT < ms) ∧ (islCode i ≠ 7) ∧ (islCode i ≠ 0) := by
  exact ⟨0x2001, 2 ^ 40, (Tests.running []).setIsland 0x2001 { Island.empty with parked := true, cause := 1 }, by
    decide +kernel⟩

/-- The hypotheses of clause 9 of `IslandsParkResumeAndIdle` can be met. -/
theorem test_witness_islands_park_resume_and_idle_9 :
    ∃ (i ms : Nat) (s u : State), (islandOk i = true) ∧ ((s.island i).parked = true) ∧ (bitOf (s.island i).cause 3 = false) ∧
      (s.odv Od.ISLAND_PARK_LIMIT < ms) ∧ (islCode i = 0) ∧ (u = ((s.workOnIsland i).foldl (fun (s : State) p => s.faultOwner
      p 0 { cause := 0x0601, island := i }) s).setIsland i { s.island i with cause := (s.island i).cause ||| beyondLimit })
      := by
  exact ⟨0, 2 ^ 40, (Tests.running []).setIsland 0 { Island.empty with parked := true, cause := 1 }, _, by decide, by
    decide +kernel, by decide +kernel, by decide +kernel, by decide, rfl⟩

/-- The hypotheses of clause 10 of `IslandsParkResumeAndIdle` can be met. -/
theorem test_witness_islands_park_resume_and_idle_10 :
    ∃ (i ms : Nat) (s : State), (islandOk i = true) ∧ (ms ≤ s.odv Od.ISLAND_PARK_LIMIT) := by
  exact ⟨0x2001, 0, (Tests.running []).setIsland 0x2001 { Island.empty with parked := true, cause := 1 }, by decide +kernel⟩

/-- The hypotheses of clause 11 of `IslandsParkResumeAndIdle` can be met. -/
theorem test_witness_islands_park_resume_and_idle_11 :
    ∃ (i ns : Nat) (s : State), (islandOk i = true) ∧ (s.islandPowered i = true) ∧ (1000 ≤ ns) ∧ (islCode i ≠ 0 ∨ (s.core
      (islInst i)).streams.all (fun e => e.2.state != 1) = true) := by
  exact ⟨287, 1000, Tests.on, by decide +kernel⟩

/-- The hypotheses of clause 12 of `IslandsParkResumeAndIdle` can be met. -/
theorem test_witness_islands_park_resume_and_idle_12 :
    ∃ (i ns : Nat) (s : State), (islandOk i = true) ∧ (s.islandPowered i = false ∨ ns < 1000 ∨ (islCode i = 0 ∧ (s.core
      (islInst i)).streams.any (fun e => e.2.state = 1) = true)) := by
  exact ⟨287, 999, Tests.on, by decide +kernel⟩

/-- The hypotheses of clause 13 of `IslandsParkResumeAndIdle` can be met. -/
theorem test_witness_islands_park_resume_and_idle_13 :
    ∃ (i : Nat) (s : State), (islandOk i = true) := by
  exact ⟨0xD000, .reset, by decide +kernel⟩

/-- The hypotheses of clause 1 of `DetectedErrorsWaitForTheirTileOrBlock` can be met. -/
theorem test_witness_detected_errors_wait_for_their_tile_or_block_1 :
    ∃ (c a row col out : Nat) (s : State), (c < 288) ∧ (a < 4) ∧ (row < 130) ∧ (col < 130) ∧ (s.cellMapped c a row col =
      true) ∧ (tabGet 0 (s.array c a).cellErrors (130 * row + col) ≠ 1) ∧ ((s.array c a).running = none) := by
  exact ⟨287, 3, 127, 127, 5, Tests.on, by decide +kernel⟩

/-- The hypotheses of clause 2 of `DetectedErrorsWaitForTheirTileOrBlock` can be met. -/
theorem test_witness_detected_errors_wait_for_their_tile_or_block_2 :
    ∃ (c a row col out : Nat) (it : Issue) (s : State), (c < 288) ∧ (a < 4) ∧ (row < 130) ∧ (col < 130) ∧ (s.cellMapped c a
      row col = true) ∧ (tabGet 0 (s.array c a).cellErrors (130 * row + col) ≠ 1) ∧ ((s.array c a).running = some it) := by
  exact ⟨0, 0, 0, 5, 0, Tests.first (Tests.wTile 0), Tests.on.setArray 0 0
    { ArrayState.empty with running := some (Tests.first (Tests.wTile 0)) }, by decide +kernel⟩

/-- The hypotheses of clause 3 of `DetectedErrorsWaitForTheirTileOrBlock` can be met. -/
theorem test_witness_detected_errors_wait_for_their_tile_or_block_3 :
    ∃ (c a row col out : Nat) (s u : State), (c < 288) ∧ (a < 4) ∧ (row < 130) ∧ (col < 130) ∧ (s.cellMapped c a row col =
      true) ∧ (tabGet 0 (s.array c a).cellErrors (130 * row + col) = 1) ∧ ((s.array c a).running = none) ∧ (u = ((s.setArray
      c a
      { s.array c a with cellErrors := tabSet (s.array c a).cellErrors (130 * row + col) (tabGet 0 (s.array c a).cellErrors (130 * row + col) + 1), armed := (s.array c a).armed ++ [{ cell := 130 * row + col, row := row, col := col, out := out }] }).sticky
      6).quarantine c) := by
  exact ⟨0, 0, 0, 5, 0, Tests.nxt (exec (.arrayDetectedError 0 0 5 0 5 0) Tests.on), _, by decide, by decide, by decide, by
    decide, by decide +kernel, by decide +kernel, by decide +kernel, rfl⟩

/-- The hypotheses of clause 4 of `DetectedErrorsWaitForTheirTileOrBlock` can be met. -/
theorem test_witness_detected_errors_wait_for_their_tile_or_block_4 :
    ∃ (c a row col out : Nat) (s : State), (c < 288) ∧ (a < 4) ∧ (row < 130) ∧ (col < 130) ∧ (s.cellMapped c a row col =
      false) := by
  exact ⟨0, 0, 129, 0, 0, Tests.on, by decide +kernel⟩

/-- The hypotheses of clause 5 of `DetectedErrorsWaitForTheirTileOrBlock` can be met. -/
theorem test_witness_detected_errors_wait_for_their_tile_or_block_5 :
    ∃ (die block : Nat) (again : Bool) (s : State), (die < 48) := by
  exact ⟨47, 3, true, .reset, by decide +kernel⟩

/-- The hypotheses of clause 1 of `SuppliesTemperatureAndPowerAreWatched` can be met. -/
theorem test_witness_supplies_temperature_and_power_are_watched_1 :
    ∃ (x : Supply) (mv : Nat) (s u : State), (supplyOk x = true) ∧ (s.watched x = true) ∧ (mv < (s.levels x).1) ∧ (u =
      (s.sticky (warnBit x)).count Od.SUPPLY_WARNINGS 1) ∧ (u.power.low.contains x = false) ∧ (placesUmber x = true) := by
  exact ⟨.rail 0, 5599, Tests.on, _, by decide, by decide +kernel, by decide +kernel, rfl, by decide +kernel, by
    decide +kernel⟩

/-- The hypotheses of clause 2 of `SuppliesTemperatureAndPowerAreWatched` can be met. -/
theorem test_witness_supplies_temperature_and_power_are_watched_2 :
    ∃ (x : Supply) (mv : Nat) (s u : State), (supplyOk x = true) ∧ (s.watched x = true) ∧ (mv < (s.levels x).1) ∧ (u =
      (s.sticky (warnBit x)).count Od.SUPPLY_WARNINGS 1) ∧ (u.power.low.contains x = false) ∧ (placesUmber x = false) := by
  exact ⟨.rail 3, 1709, Tests.on, _, by decide, by decide +kernel, by decide +kernel, rfl, by decide +kernel, by
    decide +kernel⟩

/-- The hypotheses of clause 3 of `SuppliesTemperatureAndPowerAreWatched` can be met. -/
theorem test_witness_supplies_temperature_and_power_are_watched_3 :
    ∃ (x : Supply) (mv : Nat) (s u : State), (supplyOk x = true) ∧ (s.watched x = true) ∧ (mv < (s.levels x).1) ∧ (u =
      (s.sticky (warnBit x)).count Od.SUPPLY_WARNINGS 1) ∧ (u.power.low.contains x = true) := by
  exact ⟨.rail 3, 1709, { Tests.on with power := { Tests.on.power with low := [.rail 3] } }, _, by decide, by decide +kernel,
    by decide +kernel, rfl, by decide +kernel⟩

/-- The hypotheses of clause 4 of `SuppliesTemperatureAndPowerAreWatched` can be met. -/
theorem test_witness_supplies_temperature_and_power_are_watched_4 :
    ∃ (x : Supply) (mv us : Nat) (s : State), (supplyOk x = true) ∧ ((s.levels x).1 + (s.levels x).2.2 < mv) ∧ (s.odv
      Od.UMBER_RECOVERY_US ≤ us) := by
  exact ⟨.regulator 287, 2000, 2 ^ 40, Tests.on, by decide +kernel⟩

/-- The hypotheses of clause 5 of `SuppliesTemperatureAndPowerAreWatched` can be met. -/
theorem test_witness_supplies_temperature_and_power_are_watched_5 :
    ∃ (n mv : Nat) (dies : DieReport) (s : State), (n < 4) ∧ (n ≠ 1) ∧ (s.watched (.rail n) = true) ∧ (mv < (s.levels (.rail
      n)).2.1) := by
  exact ⟨3, 1619, DieReport.clean, Tests.on, by decide +kernel⟩

/-- The hypotheses of clause 6 of `SuppliesTemperatureAndPowerAreWatched` can be met. -/
theorem test_witness_supplies_temperature_and_power_are_watched_6 :
    ∃ (i mv : Nat) (dies : DieReport) (s : State), (islandOk i = true) ∧ (s.watched (.regulator i) = true) ∧ (mv < (s.levels
      (.regulator i)).2.1) := by
  exact ⟨0x2000, 500, DieReport.clean, Tests.on, by decide +kernel⟩

/-- The hypotheses of clause 7 of `SuppliesTemperatureAndPowerAreWatched` can be met. -/
theorem test_witness_supplies_temperature_and_power_are_watched_7 :
    ∃ (mv : Nat) (dies : DieReport) (s : State), (s.power.vaux = true) ∧ (mv < 2900) := by
  exact ⟨2899, DieReport.clean, Tests.on, by decide +kernel⟩

/-- The hypotheses of clause 8 of `SuppliesTemperatureAndPowerAreWatched` can be met. -/
theorem test_witness_supplies_temperature_and_power_are_watched_8 :
    ∃ (i : Nat) (t : Int) (s : State), (islandOk i = true) ∧ (s.islandPowered i = true) ∧ (t < 100) := by
  exact ⟨0, 99, Tests.on, by decide +kernel⟩

/-- The hypotheses of clause 9 of `SuppliesTemperatureAndPowerAreWatched` can be met. -/
theorem test_witness_supplies_temperature_and_power_are_watched_9 :
    ∃ (i : Nat) (c : Int) (s : State), (islandOk i = true) ∧ (s.islandPowered i = true) ∧ (100 ≤ c) ∧ (c < 115) := by
  exact ⟨0, 114, Tests.on, by decide +kernel⟩

/-- The hypotheses of clause 10 of `SuppliesTemperatureAndPowerAreWatched` can be met. -/
theorem test_witness_supplies_temperature_and_power_are_watched_10 :
    ∃ (i : Nat) (c : Int) (s u : State), (islandOk i = true) ∧ (s.islandPowered i = true) ∧ (115 ≤ c) ∧ (u = (((if islCode i
      = 0 && !(s.island i).umberThermal then ((s.setIsland i
      { s.island i with celsius := some c, umberThermal := true }).sticky 39).count Od.UMBER_THERMAL_ENTRIES 1 else
      ((s.setIsland i { s.island i with celsius := some c, umberThermal := true }).sticky 39)).sticky 40).capture
      { cause := 0x0602, island := i }).faultAll { cause := 0x0602, island := i }) := by
  exact ⟨0xC000, 115, Tests.running [], _, by decide +kernel, by decide +kernel, by decide, rfl⟩

/-- The hypotheses of clause 11 of `SuppliesTemperatureAndPowerAreWatched` can be met. -/
theorem test_witness_supplies_temperature_and_power_are_watched_11 :
    ∃ (i us : Nat) (c : Int) (s : State), (islandOk i = true) ∧ (c ≤ 95) ∧ (1000 ≤ us) := by
  exact ⟨0, 1000, -5, Tests.on, by decide +kernel⟩

/-- The hypotheses of clause 12 of `SuppliesTemperatureAndPowerAreWatched` can be met. -/
theorem test_witness_supplies_temperature_and_power_are_watched_12 :
    ∃ (sec : Nat) (s : State), (60 ≤ sec) := by
  exact ⟨60, { Tests.on with power := { Tests.on.power with trip := true } }, by decide +kernel⟩

/-- The hypotheses of clause 13 of `SuppliesTemperatureAndPowerAreWatched` can be met. -/
theorem test_witness_supplies_temperature_and_power_are_watched_13 :
    ∃ (avg w : Nat) (s : State), (s.power.mainEn = true) ∧ (s.power.vinGood = true) ∧ (5 * s.powerLimit < 4 * w) := by
  exact ⟨7000, 9001, Tests.on, by decide +kernel⟩

/-- The hypotheses of clause 14 of `SuppliesTemperatureAndPowerAreWatched` can be met. -/
theorem test_witness_supplies_temperature_and_power_are_watched_14 :
    ∃ (avg w : Nat) (s : State), (s.power.mainEn = true) ∧ (s.power.vinGood = true) ∧ (4 * w ≤ 5 * s.powerLimit) ∧
      (s.power.throttle = 0) ∧ (avg ≤ s.powerLimit) ∧ (s.power.fast ≤ 1) := by
  exact ⟨7200, 9000, Tests.on, by decide +kernel⟩

/-- The hypotheses of clause 1 of `StartUpAndPowerStates` can be met. -/
theorem test_witness_start_up_and_power_states_1 :
    ∃ (mv : Nat) (dies : DieReport) (s : State), (s.power.vaux = false) ∧ (3150 < mv) := by
  exact ⟨3300, { failing := [1], silent := [0], mute := [] }, .reset, by decide +kernel⟩

/-- The hypotheses of clause 2 of `StartUpAndPowerStates` can be met. -/
theorem test_witness_start_up_and_power_states_2 :
    ∃ (mv : Nat) (dies : DieReport) (s : State), (s.power.vaux = true ∨ mv ≤ 3150) := by
  exact ⟨3150, DieReport.clean, .reset, by decide +kernel⟩

/-- The hypotheses of clause 3 of `StartUpAndPowerStates` can be met. -/
theorem test_witness_start_up_and_power_states_3 :
    ∃ (ms : Nat) (s : State), (s.power.awaiting = true) ∧ (2000 ≤ ms) ∧ (s.odv Od.ACTIVE_CONTROL_DIE ≠ 0xFF) := by
  exact ⟨2000, Tests.silent, by decide +kernel⟩

/-- The hypotheses of clause 4 of `StartUpAndPowerStates` can be met. -/
theorem test_witness_start_up_and_power_states_4 :
    ∃ (ms : Nat) (s : State), (s.power.awaiting = true) ∧ (2000 ≤ ms) ∧ (s.odv Od.ACTIVE_CONTROL_DIE = 0xFF) := by
  exact ⟨2000, Tests.silent.setOd Od.ACTIVE_CONTROL_DIE 0xFF, by decide +kernel⟩

/-- The hypotheses of clause 5 of `StartUpAndPowerStates` can be met. -/
theorem test_witness_start_up_and_power_states_5 :
    ∃ (vin vddq vio : Nat) (s : State), (s.power.mainEn = true) ∧ (s.power.vinGood = false) ∧ (5700 ≤ vin) ∧ (1070 ≤ vddq) ∧
      (1740 ≤ vio) := by
  exact ⟨5700, 1070, 1740, Tests.rising, by decide +kernel⟩

/-- The hypotheses of clause 6 of `StartUpAndPowerStates` can be met. -/
theorem test_witness_start_up_and_power_states_6 :
    ∃ (ds : List Dimm) (bad : List (Nat × Nat)) (lines : List FailedLine) (s : State), (∀ x ∈ lines, x.core < 288 ∧ x.array <
      4 ∧ x.line < 130) ∧ (s.power.mainEn = true) ∧ (s.power.vinGood = true) ∧ (s.power.boot = 1) ∧ (s.power.awaiting =
      false) ∧ (s.power.warm = false) ∧ (s.power.ready = false) := by
  exact ⟨[], [(0, 3)], [⟨287, 3, true, 129⟩], Tests.training, by decide +kernel⟩

/-- The hypotheses of clause 7 of `StartUpAndPowerStates` can be met. -/
theorem test_witness_start_up_and_power_states_7 :
    ∃ (port : Nat) (s : State), (port < 2) := by
  exact ⟨1, .reset, by decide +kernel⟩

/-- The hypotheses of clause 8 of `StartUpAndPowerStates` can be met. -/
theorem test_witness_start_up_and_power_states_8 :
    ∃ (s : State), (s.Managed) ∧ (s.power.mainEn = false) ∧ (s.power.trip = false) := by
  exact ⟨Tests.standby, by decide +kernel⟩

/-- The hypotheses of clause 9 of `StartUpAndPowerStates` can be met. -/
theorem test_witness_start_up_and_power_states_9 :
    ∃ (s : State), (s.Managed) ∧ (s.power.mainEn = true) ∧ (s.power.ready = true) ∧ (s.power.doze = true) := by
  exact ⟨Tests.dozing, by decide +kernel⟩

/-- The hypotheses of clause 10 of `StartUpAndPowerStates` can be met. -/
theorem test_witness_start_up_and_power_states_10 :
    ∃ (s : State), (s.Managed) ∧ (s.power.mainEn = true) ∧ (s.power.ready = true) ∧ (s.power.doze = false) ∧ (s.anyArmed =
      false) := by
  exact ⟨Tests.on, by decide +kernel⟩

/-- The hypotheses of clause 11 of `StartUpAndPowerStates` can be met. -/
theorem test_witness_start_up_and_power_states_11 :
    ∃ (s : State), (s.Managed) ∧ (s.power.mainEn = true) ∧ (s.power.ready = true) ∧ (s.power.doze = false) ∧ (s.anyArmed =
      true) := by
  exact ⟨Tests.running [], by decide +kernel⟩

/-- The hypotheses of clause 12 of `StartUpAndPowerStates` can be met. -/
theorem test_witness_start_up_and_power_states_12 :
    ∃ (s : State), (s.Managed) ∧ (s.power.mainEn = true) ∧ (s.power.ready = true) := by
  exact ⟨Tests.running [], by decide +kernel⟩

/-- The hypotheses of clause 13 of `StartUpAndPowerStates` can be met. -/
theorem test_witness_start_up_and_power_states_13 :
    ∃ (v : Nat) (s : State), (s.Managed) ∧ (v ≤ 2) := by
  exact ⟨2, Tests.running [], by decide +kernel⟩

/-- The hypotheses of clause 14 of `StartUpAndPowerStates` can be met. -/
theorem test_witness_start_up_and_power_states_14 :
    ∃ (v : Nat) (s : State), (v < 256) ∧ (2 < v) := by
  exact ⟨3, .reset, by decide +kernel⟩

/-- The hypotheses of clause 1 of `FailedStartStaysInStandby` can be met. -/
theorem test_witness_failed_start_stays_in_standby_1 :
    ∃ (ms : Nat) (s : State), (s.power.mainEn = true) ∧ (s.power.vinGood = false) ∧ (50 ≤ ms) := by
  exact ⟨50, Tests.rising, by decide +kernel⟩

/-- The hypotheses of clause 2 of `FailedStartStaysInStandby` can be met. -/
theorem test_witness_failed_start_stays_in_standby_2 :
    ∃ (vin vddq vio : Nat) (s : State), (s.power.mainEn = true) ∧ (s.power.vinGood = false) ∧ (vin < 5700 ∨ vddq < 1070 ∨ vio
      < 1740) := by
  exact ⟨5700, 1069, 1740, Tests.rising, by decide +kernel⟩

/-- The hypotheses of clause 1 of `NamingThePresentPowerStateHasNoEffect` can be met. -/
theorem test_witness_naming_the_present_power_state_has_no_effect_1 :
    ∃ (s : State), (s.inTransition = false) ∧ (s.powerState = 0 ∨ s.powerState = 1) := by
  exact ⟨Tests.on, by decide +kernel⟩

/-- The hypotheses of clause 2 of `NamingThePresentPowerStateHasNoEffect` can be met. -/
theorem test_witness_naming_the_present_power_state_has_no_effect_2 :
    ∃ (s : State), (s.inTransition = false) ∧ (s.powerState = 2) := by
  exact ⟨Tests.dozing, by decide +kernel⟩

/-- The hypotheses of clause 3 of `NamingThePresentPowerStateHasNoEffect` can be met. -/
theorem test_witness_naming_the_present_power_state_has_no_effect_3 :
    ∃ (s : State), (s.inTransition = false) ∧ (s.powerState = 3) := by
  exact ⟨Tests.standby, by decide +kernel⟩

/-- The hypotheses of clause 1 of `ResetsKeepWhatTheySay` can be met. -/
theorem test_witness_resets_keep_what_they_say_1 :
    ∃ (dies : DieReport) (s u : State), (s.power.mainEn = true) ∧ (u = (s.setPort 0 { s.port 0 with perst := true }).setPort
      1 { s.port 1 with perst := true }) := by
  exact ⟨DieReport.clean, Tests.on, _, by decide, rfl⟩

/-- The hypotheses of clause 2 of `ResetsKeepWhatTheySay` can be met. -/
theorem test_witness_resets_keep_what_they_say_2 :
    ∃ (dies : DieReport) (s : State), (s.power.mainEn = false) := by
  exact ⟨DieReport.clean, .reset, by decide +kernel⟩

/-- The hypotheses of clause 3 of `ResetsKeepWhatTheySay` can be met. -/
theorem test_witness_resets_keep_what_they_say_3 :
    ∃ (dies : DieReport) (s : State), (s.Managed) ∧ (s.power.mainEn = true) := by
  exact ⟨DieReport.clean, Tests.running [], by decide +kernel⟩

/-- The hypotheses of clause 4 of `ResetsKeepWhatTheySay` can be met. -/
theorem test_witness_resets_keep_what_they_say_4 :
    ∃ (s : State), (s.depot.pending = []) ∧ (s.depot.corrected = []) ∧ (s.warmReset.power.mainEn = true) := by
  exact
    ⟨{ Tests.running [] with power := { (Tests.running []).power with report := { DieReport.clean with silent := [0] } } },
    by decide +kernel⟩

/-- The hypotheses of clause 5 of `ResetsKeepWhatTheySay` can be met. -/
theorem test_witness_resets_keep_what_they_say_5 :
    ∃ (dies : DieReport) (s : State), (s.Managed) := by
  exact ⟨DieReport.clean, Tests.running [], by decide +kernel⟩

/-- The hypotheses of clause 6 of `ResetsKeepWhatTheySay` can be met. -/
theorem test_witness_resets_keep_what_they_say_6 :
    ∃ (ns : Nat) (dies : DieReport) (s : State), (s.power.mainEn = true) ∧ (s.power.vinGood = true) ∧ (1000 ≤ ns) := by
  exact ⟨1000, DieReport.clean, Tests.on, by decide +kernel⟩

/-- The hypotheses of clause 7 of `ResetsKeepWhatTheySay` can be met. -/
theorem test_witness_resets_keep_what_they_say_7 :
    ∃ (ns : Nat) (dies : DieReport) (s : State), (ns < 1000) := by
  exact ⟨999, DieReport.clean, Tests.on, by decide +kernel⟩

/-- The hypotheses of clause 8 of `ResetsKeepWhatTheySay` can be met. -/
theorem test_witness_resets_keep_what_they_say_8 :
    ∃ (ms : Nat) (dies : DieReport) (s : State), (s.Managed) ∧ (s.power.mainEn = true) ∧ (s.power.vinGood = true) ∧ (500 ≤
      ms) := by
  exact ⟨500, DieReport.clean, Tests.running [], by decide +kernel⟩

/-- The hypotheses of clause 9 of `ResetsKeepWhatTheySay` can be met. -/
theorem test_witness_resets_keep_what_they_say_9 :
    ∃ (ms : Nat) (dies : DieReport) (s : State), (ms < 500) := by
  exact ⟨499, DieReport.clean, Tests.running [], by decide +kernel⟩

/-- The hypotheses of clause 10 of `ResetsKeepWhatTheySay` can be met. -/
theorem test_witness_resets_keep_what_they_say_10 :
    ∃ (dies : DieReport) (s : State), (s.Managed) ∧ (s.power.mainEn = true) ∧ (s.power.vinGood = true) := by
  exact ⟨DieReport.clean, Tests.running [], by decide +kernel⟩

/-- The hypotheses of clause 1 of `RequestsAreServedOnTheirPath` can be met. -/
theorem test_witness_requests_are_served_on_their_path_1 :
    ∃ (path : OdPath) (bs : List Byte) (s : State), (s.Requested path bs) ∧ (frameKind path.isTodp bs = .read ∨ frameKind
      path.isTodp bs = .bad) := by
  exact ⟨.mailbox 0, Tests.frame 1 Od.RISK_INDEX 0 0 0 [], Tests.asked (Tests.frame 1 Od.RISK_INDEX 0 0 0 []), by
    decide +kernel⟩

/-- The hypotheses of clause 2 of `RequestsAreServedOnTheirPath` can be met. -/
theorem test_witness_requests_are_served_on_their_path_2 :
    ∃ (path : OdPath) (bs : List Byte) (s : State), (s.Requested path bs) ∧ (frameKind path.isTodp bs = .write ∨ frameKind
      path.isTodp bs = .bad) := by
  exact ⟨.mailbox 0, Tests.frame 2 Od.JOB_SEED 5 0 0 (List.replicate 8 1), Tests.asked (Tests.frame 2 Od.JOB_SEED 5 0 0
    (List.replicate 8 1)), by decide +kernel⟩

/-- The hypotheses of clause 3 of `RequestsAreServedOnTheirPath` can be met. -/
theorem test_witness_requests_are_served_on_their_path_3 :
    ∃ (path : OdPath) (bs : List Byte) (s : State), (s.Requested path bs) ∧ (frameKind path.isTodp bs = .domain ∨ frameKind
      path.isTodp bs = .firmware) := by
  exact ⟨.mailbox 0, Tests.frame 2 Od.POINTS_TABLE 13 0 0 [1, 2], Tests.asked (Tests.frame 2 Od.POINTS_TABLE 13 0 0 [1, 2]),
    by decide +kernel⟩

/-- The hypotheses of clause 4 of `RequestsAreServedOnTheirPath` can be met. -/
theorem test_witness_requests_are_served_on_their_path_4 :
    ∃ (path : OdPath) (bs : List Byte) (s : State), (s.Requested path bs) ∧ (frameKind path.isTodp bs = .mctp) := by
  exact ⟨.mailbox 0, Tests.frame 6 0 0 0 0 [1, 2, 3, 4], Tests.asked (Tests.frame 6 0 0 0 0 [1, 2, 3, 4]), by decide +kernel⟩

/-- The hypotheses of clause 5 of `RequestsAreServedOnTheirPath` can be met. -/
theorem test_witness_requests_are_served_on_their_path_5 :
    ∃ (path : OdPath) (bs : List Byte) (s : State), (s.Requested path bs) ∧ (frameKind path.isTodp bs = .rw2) := by
  exact ⟨.mailbox 0, Tests.frame 2 Od.SPARE_POLICY 2 0 0 [1], Tests.owned (Tests.asked (Tests.frame 2 Od.SPARE_POLICY 2 0 0
    [1])), by decide +kernel⟩

/-- The hypotheses of clause 6 of `RequestsAreServedOnTheirPath` can be met. -/
theorem test_witness_requests_are_served_on_their_path_6 :
    ∃ (path : OdPath) (bs : List Byte) (s : State), (s.Requested path bs) ∧ (frameKind path.isTodp bs = .rw2) ∧ (tpKey bs =
      Od.AUTH_CANCEL) := by
  exact ⟨.mailbox 0, Tests.frame 2 Od.AUTH_CANCEL 2 0 0 [1], Tests.owned (Tests.asked (Tests.frame 2 Od.AUTH_CANCEL 2 0 0
    [1])), by decide +kernel⟩

/-- The hypotheses of clause 7 of `RequestsAreServedOnTheirPath` can be met. -/
theorem test_witness_requests_are_served_on_their_path_7 :
    ∃ (path : OdPath) (bs : List Byte) (s : State), (s.Requested path bs) ∧ (frameKind path.isTodp bs = .rw2) ∧ (tpKey bs =
      Od.OWNER_KEY ∨ tpKey bs = Od.OPERATOR_KEY) ∧ (s.owned = false) := by
  exact ⟨.mailbox 0, Tests.enrolFrame, Tests.asked (Tests.enrolFrame), by decide +kernel⟩

/-- The hypotheses of clause 8 of `RequestsAreServedOnTheirPath` can be met. -/
theorem test_witness_requests_are_served_on_their_path_8 :
    ∃ (path : OdPath) (bs : List Byte) (s : State), (s.Requested path bs) ∧ (frameKind path.isTodp bs = .rw2) ∧ (tpKey bs =
      Od.OWNERSHIP_RELEASE) := by
  exact ⟨.mailbox 0, Tests.frame 2 Od.OWNERSHIP_RELEASE 2 0 0 [1], Tests.owned (Tests.asked (Tests.frame 2
    Od.OWNERSHIP_RELEASE 2 0 0 [1])), by decide +kernel⟩

/-- The hypotheses of clause 9 of `RequestsAreServedOnTheirPath` can be met. -/
theorem test_witness_requests_are_served_on_their_path_9 :
    ∃ (path : OdPath) (bs : List Byte) (s : State), (s.Requested path bs) ∧ (frameKind path.isTodp bs = .rw2) ∧ (tpKey bs =
      Od.DEBUG_UNLOCK) := by
  exact ⟨.mailbox 0, Tests.frame 2 Od.DEBUG_UNLOCK 2 0 0 [1], Tests.owned (Tests.asked (Tests.frame 2 Od.DEBUG_UNLOCK 2 0 0
    [1])), by decide +kernel⟩

/-- The hypotheses of clause 10 of `RequestsAreServedOnTheirPath` can be met. -/
theorem test_witness_requests_are_served_on_their_path_10 :
    ∃ (path : OdPath) (bs : List Byte) (s : State), (s.Requested path bs) ∧ (frameKind path.isTodp bs = .firmware) ∧ (tpKey
      bs = Od.FW_UPDATE) := by
  exact ⟨.mailbox 0, Tests.frame 2 Od.FW_UPDATE 13 0 0 [1], Tests.asked (Tests.frame 2 Od.FW_UPDATE 13 0 0 [1]), by
    decide +kernel⟩

/-- The hypotheses of clause 11 of `RequestsAreServedOnTheirPath` can be met. -/
theorem test_witness_requests_are_served_on_their_path_11 :
    ∃ (p : Nat) (bs : List Byte) (s : State) (a : Answer), (s.Requested (.mailbox p) bs) ∧ (a = s.serveOne (s.mailboxRole bs)
      (.mailbox p) bs) ∧ (resetWrite (s.mailboxRole bs) false bs = false) ∧ ((a.state.port p).mbxServing = some bs) := by
  exact ⟨0, Tests.frame 1 Od.RISK_INDEX 0 0 0 [], Tests.asked (Tests.frame 1 Od.RISK_INDEX 0 0 0 []), _, by decide +kernel,
    rfl, by decide +kernel, by decide +kernel⟩

/-- The hypotheses of clause 12 of `RequestsAreServedOnTheirPath` can be met. -/
theorem test_witness_requests_are_served_on_their_path_12 :
    ∃ (a u : Nat) (bs : List Byte) (s t : State) (x : Answer), (s.Requested (.todp a u) bs) ∧ (s.keptResponse a (tpXid bs) =
      none) ∧ (t = s.count Od.FN_FRAMES_RX 1) ∧ (x = t.serveOne .reader (.todp a u) bs) := by
  exact ⟨5, 45264, Tests.open' 1 Od.RISK_INDEX 0 0 0 [], Tests.fielded, _, _, by decide +kernel, by decide +kernel, rfl, rfl⟩

/-- The hypotheses of clause 13 of `RequestsAreServedOnTheirPath` can be met. -/
theorem test_witness_requests_are_served_on_their_path_13 :
    ∃ (a u : Nat) (bs r : List Byte) (s : State), (s.Requested (.todp a u) bs) ∧ (s.keptResponse a (tpXid bs) = some r) := by
  exact ⟨5, 45264, Tests.open' 1 Od.RISK_INDEX 0 0 0 [], [9], Tests.fielded.keepResponse 5 7 [9], by decide +kernel⟩

/-- The hypotheses of clause 14 of `RequestsAreServedOnTheirPath` can be met. -/
theorem test_witness_requests_are_served_on_their_path_14 :
    ∃ (a u : Nat) (bs : List Byte) (s : State), (s.Requested (.todp a u) bs) ∧ (frameKind true bs = .discover) ∧
      (s.keptResponse a (tpXid bs) = none) ∧ (s.power.boot = 1) := by
  exact ⟨5, 45264, Tests.open' 4 0 0 0 0 [], Tests.fielded, by decide +kernel⟩

/-- The hypotheses of clause 15 of `RequestsAreServedOnTheirPath` can be met. -/
theorem test_witness_requests_are_served_on_their_path_15 :
    ∃ (a u : Nat) (bs : List Byte) (s t : State), (s.Requested (.todp a u) bs) ∧ (frameKind true bs = .secured) ∧
      (s.keptResponse a (tpXid bs) = none) ∧ (s.power.boot = 1) ∧ (t = s.count Od.FN_FRAMES_RX 1) := by
  exact ⟨5, 45264, Tests.open' 7 0 0 0 0 [1], Tests.fielded, _, by decide +kernel, by decide +kernel, by decide +kernel, by
    decide +kernel, rfl⟩

/-- The hypotheses of clause 1 of `ReadsAndWritesAnswerAsTheEntryAllows` can be met. -/
theorem test_witness_reads_and_writes_answer_as_the_entry_allows_1 :
    ∃ (bs : List Byte) (i : OdInfo) (s : State), (odInfo (tpKey bs) = some i) ∧ (s.power.boot = 1) ∧ (tpType bs = 0 ∨ tpType
      bs = i.ty.code) ∧ (i.ty ≠ .domain) ∧ (tpOffset bs = 0) ∧ (tpLast bs = false) := by
  exact ⟨Tests.frame 1 Od.SERVE_CHUNK_TOKENS 3 0 0 [], { ty := .u16, len := 2, acc := .rw }, Tests.on, by decide +kernel⟩

/-- The hypotheses of clause 2 of `ReadsAndWritesAnswerAsTheEntryAllows` can be met. -/
theorem test_witness_reads_and_writes_answer_as_the_entry_allows_2 :
    ∃ (bs : List Byte) (role : Role) (path : Nat) (s : State), (odInfo (tpKey bs) = none) := by
  exact ⟨Tests.frame 1 0x123401 0 0 0 [], .host, 0, Tests.on, by decide +kernel⟩

/-- The hypotheses of clause 3 of `ReadsAndWritesAnswerAsTheEntryAllows` can be met. -/
theorem test_witness_reads_and_writes_answer_as_the_entry_allows_3 :
    ∃ (bs : List Byte) (role : Role) (path : Nat) (i : OdInfo) (s : State), (odInfo (tpKey bs) = some i) ∧ (s.power.boot = 1)
      := by
  exact ⟨Tests.frame 2 Od.SERVE_CHUNK_TOKENS 2 0 0 [1, 0], .host, 0, { ty := .u16, len := 2, acc := .rw }, Tests.on, by
    decide +kernel⟩

/-- The hypotheses of clause 4 of `ReadsAndWritesAnswerAsTheEntryAllows` can be met. -/
theorem test_witness_reads_and_writes_answer_as_the_entry_allows_4 :
    ∃ (bs : List Byte) (role : Role) (path : Nat) (i : OdInfo) (s : State) (w : Wrote), (odInfo (tpKey bs) = some i) ∧
      (s.power.boot = 1) ∧ (role.mayWrite (tpKey bs) i.acc = true) ∧ (keyIndex (tpKey bs) ∈ [0x2110, 0x3400, 0x3500, 0x6000,
      0x6010, 0x6020]) ∧ (w = s.serveWrite role path bs) := by
  exact ⟨Tests.frame 2 Od.SERVE_CHUNK_TOKENS 3 0 0 [64, 0], .privileged, 0, { ty := .u16, len := 2, acc := .rw }, Tests.on,
    _, by decide +kernel, by decide +kernel, by decide +kernel, by decide +kernel, rfl⟩

/-- The hypotheses of clause 5 of `ReadsAndWritesAnswerAsTheEntryAllows` can be met. -/
theorem test_witness_reads_and_writes_answer_as_the_entry_allows_5 :
    ∃ (bs old : List Byte) (role : Role) (path : Nat) (i : OdInfo) (s : State), (odInfo (tpKey bs) = some i) ∧ (s.power.boot
      = 1) ∧ (i.acc = .rw2) ∧ (tpType bs = i.ty.code) ∧ (tpLast bs = true) ∧ (s.segment path = some
      { path := path, key := tpKey bs, data := old }) ∧ (tpOffset bs = old.length) ∧ (old ≠ []) ∧ (tpData bs ≠ []) ∧
      ((old ++ tpData bs).length ≤ 16777216) := by
  exact ⟨Tests.frame 2 Od.SPARE_POLICY 2 1 1 [7], [3], .privileged, 0, { ty := .u8, len := 1, acc := .rw2 },
    Tests.on.setSegment 0 (some { path := 0, key := Od.SPARE_POLICY, data := [3] }), by decide +kernel⟩

/-- The hypotheses of clause 1 of `KeysAreEnrolledOnceEach` can be met. -/
theorem test_witness_keys_are_enrolled_once_each_1 :
    ∃ (key : Nat) (bs : List Byte) (s : State), (s.owned = false) ∧ (key = Od.OWNER_KEY ∨ key = Od.OPERATOR_KEY) ∧ (s.odv key
      = 0) ∧ (bs.length = 32) ∧ (leNat bs ≠ s.odv (if key = Od.OWNER_KEY then Od.OPERATOR_KEY else Od.OWNER_KEY)) := by
  exact ⟨Od.OWNER_KEY, Tests.key32, Tests.on, by decide +kernel⟩

/-- The hypotheses of clause 2 of `KeysAreEnrolledOnceEach` can be met. -/
theorem test_witness_keys_are_enrolled_once_each_2 :
    ∃ (key : Nat) (bs : List Byte) (priv : Bool) (s : State), (s.owned = false) ∧ (key = Od.OWNER_KEY ∨ key =
      Od.OPERATOR_KEY) ∧ (s.odv key ≠ 0 ∨ priv = false) := by
  exact ⟨Od.OWNER_KEY, Tests.key32, true, Tests.on.setOd Od.OWNER_KEY 3, by decide +kernel⟩

/-- The hypotheses of clause 3 of `KeysAreEnrolledOnceEach` can be met. -/
theorem test_witness_keys_are_enrolled_once_each_3 :
    ∃ (key : Nat) (bs : List Byte) (priv : Bool) (s : State), (s.owned = false) ∧ (key ≠ Od.OWNER_KEY) ∧ (key ≠
      Od.OPERATOR_KEY) := by
  exact ⟨Od.SPARE_POLICY, [1], true, Tests.on, by decide +kernel⟩

/-- The hypotheses of clause 4 of `KeysAreEnrolledOnceEach` can be met. -/
theorem test_witness_keys_are_enrolled_once_each_4 :
    ∃ (key p : Nat) (bs : List Byte) (s : State), (s.owned = false) ∧ (key = Od.OWNER_KEY ∨ key = Od.OPERATOR_KEY) ∧ (s.odv
      key = 0) ∧ (s.Requested (.mailbox p) bs) ∧ (frameKind false bs = .rw2) ∧ (tpKey bs = key) ∧ (s.mailboxRole bs =
      .privileged) ∧ (tpType bs = 12) ∧ (tpOffset bs = 0) ∧ (tpLast bs = true) ∧ ((tpData bs).length = 32) ∧ (leNat (tpData
      bs) ≠ s.odv (if key = Od.OWNER_KEY then Od.OPERATOR_KEY else Od.OWNER_KEY)) := by
  exact ⟨Od.OWNER_KEY, 0, Tests.enrolFrame, Tests.asked Tests.enrolFrame, by decide +kernel⟩

/-- The hypotheses of clause 1 of `ProtectionChangesOnTwoSignaturesOnly` can be met. -/
theorem test_witness_protection_changes_on_two_signatures_only_1 :
    ∃ (key k : Nat) (bs : List Byte) (priv : Bool) (s : State) (w : Wrote), (s.owned = true) ∧ (w = s.rw2Close key bs priv) ∧
      (k / 0x100000 = 8) := by
  exact ⟨Od.SPARE_POLICY, Od.SPARE_POLICY, [1], true, Tests.owned Tests.on, _, by decide +kernel, rfl, by decide⟩

/-- The hypotheses of clause 2 of `ProtectionChangesOnTwoSignaturesOnly` can be met. -/
theorem test_witness_protection_changes_on_two_signatures_only_2 :
    ∃ (key : Nat) (bs : List Byte) (priv : Bool) (s : State) (w : Wrote), (s.owned = true) ∧ (bs.length = odLen key + 7920) ∧
      (w = s.rw2Close key bs priv) := by
  exact ⟨Od.SPARE_POLICY, List.replicate 7921 0, true, Tests.owned Tests.on, _, by decide +kernel,
    List.length_replicate.trans (by decide +kernel), rfl⟩

/-- The hypotheses of clause 3 of `ProtectionChangesOnTwoSignaturesOnly` can be met. -/
theorem test_witness_protection_changes_on_two_signatures_only_3 :
    ∃ (k : Nat) (s : State), (k / 0x100000 = 8) := by
  exact ⟨Od.SPARE_POLICY, Tests.owned Tests.on, by decide +kernel⟩

/-- The hypotheses of clause 4 of `ProtectionChangesOnTwoSignaturesOnly` can be met. -/
theorem test_witness_protection_changes_on_two_signatures_only_4 :
    ∃ (sec : Nat) (s : State), (s.security.staged ≠ none) ∧ (600 ≤ sec) := by
  exact ⟨600, Tests.on.setStaged (some { index := 0x8310, sub := 1, value := [1], signer := 1, nonce := 5, ms := 0 }), by
    decide +kernel⟩

/-- The hypotheses of clause 5 of `ProtectionChangesOnTwoSignaturesOnly` can be met. -/
theorem test_witness_protection_changes_on_two_signatures_only_5 :
    ∃ (sec : Nat) (s : State), (s.security.staged = none ∨ sec < 600) := by
  exact ⟨599, Tests.on, by decide +kernel⟩

/-- The hypotheses of clause 1 of `ManagementWritesTakeEffect` can be met. -/
theorem test_witness_management_writes_take_effect_1 :
    ∃ (s : State), (s.power.ready = true) ∧ (s.loading = none) := by
  exact ⟨Tests.on, by decide +kernel⟩

/-- The hypotheses of clause 2 of `ManagementWritesTakeEffect` can be met. -/
theorem test_witness_management_writes_take_effect_2 :
    ∃ (v : Nat) (s : State), (v < 256) ∧ (v ≠ 1 ∨ s.loading.isSome = true) := by
  exact ⟨1, Tests.loading, by decide +kernel⟩

/-- The hypotheses of clause 3 of `ManagementWritesTakeEffect` can be met. -/
theorem test_witness_management_writes_take_effect_3 :
    ∃ (a n : Nat) (img : Image) (s : State), (s.loading = some (a, n)) ∧ (n ≠ 0) ∧ (s.inTier a n = true) ∧ (badIn s.eccBad a
      n = []) ∧ (img.refuseCause (s.odv Od.STEPPING) = 0) := by
  exact ⟨0, 64, Tests.loadImg, Tests.loading, by decide +kernel⟩

/-- The hypotheses of clause 4 of `ManagementWritesTakeEffect` can be met. -/
theorem test_witness_management_writes_take_effect_4 :
    ∃ (a n : Nat) (img : Image) (s : State), (s.loading = some (a, n)) ∧ (n ≠ 0) ∧ (s.inTier a n = true) ∧ (badIn s.eccBad a
      n = []) ∧ (img.refuseCause (s.odv Od.STEPPING) ≠ 0) := by
  exact ⟨0, 64, Tests.img [], Tests.loading, by decide +kernel⟩

/-- The hypotheses of clause 5 of `ManagementWritesTakeEffect` can be met. -/
theorem test_witness_management_writes_take_effect_5 :
    ∃ (a n : Nat) (img : Image) (s : State), (s.loading = some (a, n)) ∧ (n = 0 ∨ s.inTier a n = false) := by
  exact ⟨0, 0, Tests.loadImg, { Tests.loading with loading := some (0, 0) }, by decide +kernel⟩

/-- The hypotheses of clause 6 of `ManagementWritesTakeEffect` can be met. -/
theorem test_witness_management_writes_take_effect_6 :
    ∃ (a n w : Nat) (ws : List Nat) (img : Image) (s : State), (s.loading = some (a, n)) ∧ (n ≠ 0) ∧ (s.inTier a n = true) ∧
      (badIn s.eccBad a n = w :: ws) := by
  exact ⟨0, 64, 0, [], Tests.loadImg, { Tests.loading with eccBad := [0] }, by decide +kernel⟩

/-- The hypotheses of clause 7 of `ManagementWritesTakeEffect` can be met. -/
theorem test_witness_management_writes_take_effect_7 :
    ∃ (v : Nat) (s : State), (s.Managed) ∧ (v ≤ 1) ∧ (s.anyArmed = false) := by
  exact ⟨1, Tests.on, by decide +kernel⟩

/-- The hypotheses of clause 8 of `ManagementWritesTakeEffect` can be met. -/
theorem test_witness_management_writes_take_effect_8 :
    ∃ (v : Nat) (s : State), (v < 256) ∧ (1 < v ∨ s.anyArmed = true) := by
  exact ⟨1, Tests.running [], by decide +kernel⟩

/-- The hypotheses of clause 9 of `ManagementWritesTakeEffect` can be met. -/
theorem test_witness_management_writes_take_effect_9 :
    ∃ (s : State), (s.Managed) ∧ ((s.stats.map (·.1)).Nodup) := by
  exact ⟨Tests.on.count Od.MSIX_SENT 3, by decide +kernel⟩

/-- The hypotheses of clause 10 of `ManagementWritesTakeEffect` can be met. -/
theorem test_witness_management_writes_take_effect_10 :
    ∃ (v : Nat) (s : State), (s.Managed) ∧ (v < 2 ^ 256) := by
  exact ⟨5, Tests.on.sticky 2, by decide +kernel⟩

/-- The hypotheses of clause 11 of `ManagementWritesTakeEffect` can be met. -/
theorem test_witness_management_writes_take_effect_11 :
    ∃ (s : State), (s.Managed) := by
  exact ⟨Tests.on.setOd Od.FE_VALID 1, by decide +kernel⟩

/-- The hypotheses of clause 1 of `RoundsEndAtTheirBoundary` can be met. -/
theorem test_witness_rounds_end_at_their_boundary_1 :
    ∃ (us : Nat) (s u : State) (sp : ServePlan), (us < 2 ^ 32) ∧ (s.servePlan = some sp) ∧ (s.serveMode = true) ∧
      (s.serviceUp (s.odv Od.SERVICE_PLATFORM) = true) ∧ (s.roundDone (s.odv Od.SERVICE_PLATFORM) sp = true) ∧ (u =
      s.boundaryResults (s.odv Od.SERVICE_PLATFORM) sp) ∧ ((u.plat (s.odv Od.SERVICE_PLATFORM)).disarming = false) ∧
      (s.serving.plan = []) ∧ (s.serving.chunks = []) := by
  exact ⟨5, Tests.rounding, _, Tests.plan0, by decide, rfl, by decide +kernel, by decide +kernel, by decide +kernel, rfl, by
    decide +kernel, by decide +kernel, by decide +kernel⟩

/-- The hypotheses of clause 2 of `RoundsEndAtTheirBoundary` can be met. -/
theorem test_witness_rounds_end_at_their_boundary_2 :
    ∃ (us : Nat) (s u : State) (sp : ServePlan), (us < 2 ^ 32) ∧ (s.servePlan = some sp) ∧ (s.serveMode = true) ∧
      (s.serviceUp (s.odv Od.SERVICE_PLATFORM) = true) ∧ (s.roundDone (s.odv Od.SERVICE_PLATFORM) sp = true) ∧ (u =
      s.boundaryResults (s.odv Od.SERVICE_PLATFORM) sp) ∧ ((u.plat (s.odv Od.SERVICE_PLATFORM)).disarming = false) ∧
      (s.serving.plan ≠ [] ∨ s.serving.chunks ≠ []) := by
  exact ⟨5,
    { Tests.rounding with serving := { Tests.rounding.serving with chunks := [{ pfx := true, key := 0, start := 0, n := 32 }] } },
    _, Tests.plan0, by decide, rfl, by decide +kernel, by decide +kernel, by decide +kernel, rfl, by decide +kernel, by
    decide +kernel⟩

/-- The hypotheses of clause 3 of `RoundsEndAtTheirBoundary` can be met. -/
theorem test_witness_rounds_end_at_their_boundary_3 :
    ∃ (us : Nat) (s u : State) (sp : ServePlan), (us < 2 ^ 32) ∧ (s.servePlan = some sp) ∧ (s.serveMode = true) ∧
      (s.serviceUp (s.odv Od.SERVICE_PLATFORM) = true) ∧ (s.roundDone (s.odv Od.SERVICE_PLATFORM) sp = true) ∧ (u =
      s.boundaryResults (s.odv Od.SERVICE_PLATFORM) sp) ∧ ((u.plat (s.odv Od.SERVICE_PLATFORM)).disarming = true) := by
  exact ⟨5, Tests.rounding.setPlat 3 { Tests.rounding.plat 3 with disarming := true }, _, Tests.plan0, by decide, rfl, by
    decide +kernel, by decide +kernel, by decide +kernel, rfl, by decide +kernel⟩

/-- The hypotheses of clause 4 of `RoundsEndAtTheirBoundary` can be met. -/
theorem test_witness_rounds_end_at_their_boundary_4 :
    ∃ (us : Nat) (s : State) (sp : ServePlan), (us < 2 ^ 32) ∧ (s.servePlan = some sp) ∧ (s.serveMode = false ∨ s.serviceUp
      (s.odv Od.SERVICE_PLATFORM) = false ∨ s.roundDone (s.odv Od.SERVICE_PLATFORM) sp = false) := by
  exact ⟨5, Tests.rounding.setPlat 3 { Tests.rounding.plat 3 with suspending := true }, Tests.plan0, by decide, rfl, by
    decide +kernel⟩

/-- The hypotheses of clause 5 of `RoundsEndAtTheirBoundary` can be met. -/
theorem test_witness_rounds_end_at_their_boundary_5 :
    ∃ (e a n : Nat) (lossy : Bool) (r q : Request) (sp : ServePlan) (s t u : State), (e < 16384) ∧ (s.serving.requests.find?
      (fun x => x.entry = e && x.state = 4 && x.ended.isNone) = some r) ∧ (s.servePlan = some sp) ∧ (r.summary = some (a, n,
      lossy)) ∧ ((r.pages.flatMap fun (n : Nat) => badIn s.eccBad (s.pageAddr n) 65536 ++ badIn s.eccBad (s.scaleAddr n)
      2048) = []) ∧ (q = { r with state := 5, pages := [], slots := [], fw := 0 }) ∧ (t = s.put a (((s.layerSlots sp
      r).flatMap fun (x : Bool × List Nat) => s.layerSummary (s.layerGeo sp r x.1) x.2) ++ r.log.flatMap (leBytes 4))) ∧ (u =
      ((if lossy then t.count Od.SERVE_LOSSY_SUMMARIES 1 else t).setRequest q).writeEntry q) := by
  exact ⟨0, 2 ^ 30, 4, false, Tests.pausing, _, Tests.plan0, Tests.summing, _, _, by decide, by decide +kernel, rfl, rfl,
    rfl, rfl, rfl, rfl⟩

/-- The hypotheses of clause 6 of `RoundsEndAtTheirBoundary` can be met. -/
theorem test_witness_rounds_end_at_their_boundary_6 :
    ∃ (e a n w : Nat) (ws : List Nat) (lossy : Bool) (r : Request) (sp : ServePlan) (s : State), (e < 16384) ∧
      (s.serving.requests.find? (fun x => x.entry = e && x.state = 4 && x.ended.isNone) = some r) ∧ (s.servePlan = some sp) ∧
      (r.summary = some (a, n, lossy)) ∧ ((r.pages.flatMap fun (n : Nat) => badIn s.eccBad (s.pageAddr n) 65536 ++ badIn
      s.eccBad (s.scaleAddr n) 2048) = w :: ws) := by
  exact ⟨0, 2 ^ 30, 4, 0, [0], false, { Tests.pausing with pages := [0] }, Tests.plan0, Tests.damaged, by decide, by
    decide +kernel, rfl, rfl, by decide +kernel⟩

/-- The hypotheses of clause 1 of `FieldNetworkAndAttestation` can be met. -/
theorem test_witness_field_network_and_attestation_1 :
    ∃ (dup : Bool) (s : State), (s.power.vaux = true) ∧ (s.power.boot ≠ 0) := by
  exact ⟨true, Tests.on, by decide +kernel⟩

/-- The hypotheses of clause 2 of `FieldNetworkAndAttestation` can be met. -/
theorem test_witness_field_network_and_attestation_2 :
    ∃ (s : State), (s.power.vaux = true) ∧ (s.power.boot ≠ 0) ∧ (s.fieldNet.settled = false) ∧ (s.fieldNet.queue.any
      (·.settles) = false) := by
  exact ⟨{ Tests.fielded with fieldNet := { Tests.fielded.fieldNet with settled := false } }, by decide +kernel⟩

/-- The hypotheses of clause 3 of `FieldNetworkAndAttestation` can be met. -/
theorem test_witness_field_network_and_attestation_3 :
    ∃ (s : State), (s.fieldNet.queue.any (·.settles) = true) := by
  exact
    ⟨{ Tests.fielded with fieldNet := { Tests.fielded.fieldNet with settled := false, queue := [{ out := .beacon 8, settles := true }] } },
    by decide +kernel⟩

/-- The hypotheses of clause 4 of `FieldNetworkAndAttestation` can be met. -/
theorem test_witness_field_network_and_attestation_4 :
    ∃ (us : Nat) (s : State), (s.fnUp = true) ∧ (s.odv Od.FN_STATE = 1) ∧ (s.fieldNet.nodeId ≠ 0) ∧ (400 ≤ us) := by
  exact ⟨400, { Tests.fielded with fieldNet := { Tests.fielded.fieldNet with nodeId := 3 } }, by decide +kernel⟩

/-- The hypotheses of clause 5 of `FieldNetworkAndAttestation` can be met. -/
theorem test_witness_field_network_and_attestation_5 :
    ∃ (us : Nat) (s : State), (us < 400 ∨ s.fieldNet.nodeId = 0) := by
  exact ⟨399, Tests.fielded, by decide +kernel⟩

/-- The hypotheses of clause 6 of `FieldNetworkAndAttestation` can be met. -/
theorem test_witness_field_network_and_attestation_6 :
    ∃ (s : State), (s.fnUp = true) ∧ (s.odv Od.FN_STATE = 2) ∧ (s.fieldNet.nodeId ≤ 31) := by
  exact ⟨Tests.fielded.setOd Od.FN_STATE 2, by decide +kernel⟩

/-- The hypotheses of clause 7 of `FieldNetworkAndAttestation` can be met. -/
theorem test_witness_field_network_and_attestation_7 :
    ∃ (f : FnFrame) (rest : List FnFrame) (s : State), (s.fnUp = true) ∧ (s.fieldNet.queue = f :: rest) := by
  exact ⟨{ out := .beacon 8, settles := true }, [],
    { Tests.fielded with fieldNet := { Tests.fielded.fieldNet with queue := [{ out := .beacon 8, settles := true }] } }, by
    decide +kernel⟩

/-- The hypotheses of clause 8 of `FieldNetworkAndAttestation` can be met. -/
theorem test_witness_field_network_and_attestation_8 :
    ∃ (f : FnFrame) (rest : List FnFrame) (s u : State), (s.fnUp = true) ∧ (s.odv Od.FN_STATE = 1) ∧ (s.fieldNet.queue = f ::
      rest) ∧ (u = (s.sticky 11).count Od.FN_PLCA_COLLISIONS 1) := by
  exact ⟨{ out := .beacon 8, settles := true }, [],
    { Tests.fielded with fieldNet := { Tests.fielded.fieldNet with queue := [{ out := .beacon 8, settles := true }] } }, _,
    by decide +kernel, by decide +kernel, by decide +kernel, rfl⟩

/-- The hypotheses of clause 9 of `FieldNetworkAndAttestation` can be met. -/
theorem test_witness_field_network_and_attestation_9 :
    ∃ (s : State), (s.fnUp = true) ∧ (s.odv Od.FN_STATE = 1) ∧ (s.fieldNet.nodeId = 0) := by
  exact ⟨Tests.fielded, by decide +kernel⟩

/-- The hypotheses of clause 10 of `FieldNetworkAndAttestation` can be met. -/
theorem test_witness_field_network_and_attestation_10 :
    ∃ (f : List Byte) (s : State), (s.fnUp = true) := by
  exact ⟨[1], Tests.fielded, by decide +kernel⟩

/-- The hypotheses of clause 11 of `FieldNetworkAndAttestation` can be met. -/
theorem test_witness_field_network_and_attestation_11 :
    ∃ (path : OdPath) (rq : List Byte) (s : State), (path.ok = true) ∧ (s.spdmRuns path = true) := by
  exact ⟨.mailbox 0, [], Tests.on, by decide +kernel⟩
end

