-- ==== Sys2Proof/Proofs/Tables.lean ====
section
/-! SUPPORT. Sparse tables cut down to some of their keys, and what the shared helpers of Machine/Ops.lean leave alone: the
values of the Object Dictionary, the running counts, the loaded image. -/

namespace Sys2Proof.Proofs

open Sys2Proof Sys2Proof.Machine Sys2Proof.Laws

/-! ### Tables cut down to some keys -/

theorem tabFind_filter {α : Type} (p : Nat → Bool) (k : Nat) (t : Tab α) :
    tabFind (t.filter fun e => p e.1) k = if p k then tabFind t k else none := by
  induction t with
  | nil => exact (ite_self none).symm
  | cons e t ih =>
    obtain ⟨i, v⟩ := e
    cases hp : p i with
    | false =>
      rw [List.filter_cons_of_neg (by simp [hp]), ih, tabFind]
      by_cases hi : i = k
      · rw [← hi, hp, if_neg Bool.false_ne_true, if_neg Bool.false_ne_true]
      · rw [if_neg hi]
    | true =>
      rw [List.filter_cons_of_pos (by simp [hp]), tabFind, tabFind]
      by_cases hi : i = k
      · rw [if_pos hi, if_pos hi, ← hi, if_pos hp]
      · rw [if_neg hi, if_neg hi, ih]

theorem tabGet_filter_of_kept {α : Type} (d : α) {p : Nat → Bool} {k : Nat} (hk : p k = true) (t : Tab α) :
    tabGet d (t.filter fun e => p e.1) k = tabGet d t k := by
  induction t with
  | nil => rfl
  | cons e t ih =>
    obtain ⟨i, v⟩ := e
    cases hp : p i with
    | false =>
      have hi : i ≠ k := fun hi => Bool.false_ne_true (hp.symm.trans (hi ▸ hk))
      rw [List.filter_cons_of_neg (by simp [hp]), ih, tabGet, if_neg hi]
    | true => rw [List.filter_cons_of_pos (by simp [hp]), tabGet, tabGet, ih]

/-- A dictionary cut down to the keys that `p` keeps gives every other entry its default. -/
theorem odv_of_od_filter {s t : State} {p : Nat → Bool} (h : t.od = s.od.filter fun e => p e.1) (k : Nat) :
    t.odv k = if p k then s.odv k else partDefault k := by
  simp only [State.odv, h, tabFind_filter]
  cases p k <;> rfl

/-! ### Interrupts and the sticky log -/

/-- Raising a vector does nothing, marks it at its port, or sends it and counts it. -/
theorem raise_cases (s : State) (p v : Nat) :
    s.raise p v = s ∨ (∃ h, s.raise p v = s.setPort p h) ∨
      s.raise p v = (s.emit (.msix p v)).count Od.MSIX_SENT 1 := by
  unfold State.raise
  by_cases hu : (!(s.port p).unmasked.contains v) = true
  · by_cases hp : (s.port p).pend.contains v = true
    · exact .inl ((if_pos hu).trans (if_pos hp))
    · exact .inr (.inl ⟨_, (if_pos hu).trans (if_neg hp)⟩)
  · by_cases hl : (s.port p).linkUp = true
    · exact .inr (.inr ((if_neg hu).trans (if_pos hl)))
    · by_cases hd : ((s.port p).downHeld || (s.port p).retry) = true
      · exact .inl ((if_neg hu).trans ((if_neg hl).trans (if_pos hd)))
      · exact .inr (.inl ⟨_, (if_neg hu).trans ((if_neg hl).trans (if_neg hd))⟩)

@[simp] theorem raise_od (s : State) (p v : Nat) : (s.raise p v).od = s.od := by
  obtain h | ⟨_, h⟩ | h := raise_cases s p v <;> rw [h] <;> rfl

@[simp] theorem odv_raise (s : State) (p v k : Nat) : (s.raise p v).odv k = s.odv k :=
  odv_of_od _ _ _ (raise_od s p v)

theorem counted_of_stats {s t : State} (h : t.stats = s.stats) (k : Nat) : t.counted k = s.counted k := by
  simp only [State.counted, h]

@[simp] theorem counted_setOd (s : State) (k v j : Nat) : (s.setOd k v).counted j = s.counted j := rfl

theorem counted_count_other (s : State) {k j : Nat} (n : Nat) (h : j ≠ k) : (s.count k n).counted j = s.counted j := by
  simp only [State.counted, count_stats, tabMod, tabGet_tabSet_other _ _ _ _ _ h]

/-- Raising a vector counts the interrupts sent, and nothing else. -/
theorem counted_raise (s : State) (p v : Nat) {k : Nat} (h : k ≠ Od.MSIX_SENT) : (s.raise p v).counted k = s.counted k := by
  obtain hr | ⟨_, hr⟩ | hr := raise_cases s p v
  · rw [hr]
  · exact counted_of_stats (congrArg State.stats hr) k
  · rw [hr, counted_count_other _ _ h]
    rfl

/-- A set bit of the sticky log stays; another is set and raises both error vectors. -/
theorem sticky_cases (s : State) (n : Nat) : s.sticky n = s ∨
    s.sticky n = ((s.setOd Od.STICKY_LOG (s.odv Od.STICKY_LOG + 2 ^ n)).raise 0 0).raise 1 0 := by
  by_cases h : bitOf (s.odv Od.STICKY_LOG) n = true
  · exact .inl (if_pos h)
  · exact .inr (if_neg h)

theorem odv_sticky_other (s : State) (n : Nat) {k : Nat} (h : k ≠ Od.STICKY_LOG) : (s.sticky n).odv k = s.odv k := by
  obtain hs | hs := sticky_cases s n
  · rw [hs]
  · rw [hs, odv_raise, odv_raise, odv_setOd_other _ _ _ _ h]

theorem counted_sticky (s : State) (n : Nat) {k : Nat} (h : k ≠ Od.MSIX_SENT) : (s.sticky n).counted k = s.counted k := by
  obtain hs | hs := sticky_cases s n
  · rw [hs]
  · rw [hs, counted_raise _ _ _ h, counted_raise _ _ _ h, counted_setOd]

/-! ### The loaded image and the load under way -/

/-- The loaded image, and the range of a load under way. -/
def loads (s : State) : Option Image × Option (Nat × Nat) := (s.loaded, s.loading)

@[simp] theorem loads_setOd (s : State) (k v : Nat) : loads (s.setOd k v) = loads s := rfl
@[simp] theorem loads_count (s : State) (k n : Nat) : loads (s.count k n) = loads s := rfl

@[simp] theorem loads_raise (s : State) (p v : Nat) : loads (s.raise p v) = loads s := by
  obtain h | ⟨_, h⟩ | h := raise_cases s p v <;> rw [h] <;> rfl

@[simp] theorem loads_sticky (s : State) (n : Nat) : loads (s.sticky n) = loads s := by
  obtain h | h := sticky_cases s n
  · rw [h]
  · rw [h, loads_raise, loads_raise, loads_setOd]

@[simp] theorem loads_capture (s : State) (e : Event) : loads (s.capture e) = loads s := by
  by_cases h : s.odv Od.FE_VALID = 1
  · rw [State.capture, if_pos h]
  · simp only [State.capture, if_neg h, loads_setOd]

@[simp] theorem loads_record (s : State) (r : Repair) : loads (s.record r) = loads s := by
  by_cases h : s.depot.pending.contains r = true
  · exact congrArg loads (if_pos h)
  · refine (congrArg loads (if_neg h)).trans ?_
    cases r <;> rfl

@[simp] theorem loads_recordHbm (s : State) (st ch row : Nat) : loads (s.recordHbm st ch row) = loads s := by
  by_cases h : (s.record (.hbmRow st ch row)).depot.rowsOf st ch ≥ 3
  · exact (congrArg loads (if_pos h)).trans ((loads_record _ _).trans (loads_record _ _))
  · exact (congrArg loads (if_neg h)).trans (loads_record _ _)

@[simp] theorem loads_uncorrected (s : State) (w : Nat) : loads (s.uncorrected w).1 = loads s := by
  unfold State.uncorrected
  split
  · exact (loads_recordHbm _ _ _ _).trans (loads_sticky s 14)
  · exact loads_sticky s 15
  · dsimp only
    split
    · rw [loads_record, loads_record, loads_sticky]
    · rw [loads_record, loads_sticky]

end Sys2Proof.Proofs
end

