-- ==== Sys2Proof/Proofs/Management.lean ====
section
/-! Loads of a Timetable image, the package mode, the statistics boundary and the clearing of the logs (00, 08, 13, 15, 16). -/

namespace Sys2Proof.Proofs

open Sys2Proof Sys2Proof.Machine Sys2Proof.Laws

/-! ### TT_LOAD (R246, R249) -/

theorem exec_ttLoad_of_ready {s : State} (hr : s.power.ready = true) (hl : s.loading = none) :
    exec (.ttLoad 1) s = .next
      ({ s with loading := some (s.odv Od.TT_IMAGE_ADDR, s.odv Od.TT_IMAGE_BYTES) }.setOd Od.TT_LOAD_STATE 1) := by
  simp [exec, execTtLoad, within, State.ttLoad, hr, hl]

/-- A value other than 1, and any value while a load runs, is refused. -/
theorem ttLoad_refused {v : Nat} {s : State} (h : v ≠ 1 ∨ s.loading.isSome = true) : (s.ttLoad v).2 = s := by
  by_cases hv : v = 1
  · have hl : s.loading.isSome = true := h.resolve_left (not_not_intro hv)
    simp [State.ttLoad, State.refused, hv, hl]
  · simp [State.ttLoad, State.refused, hv]

theorem exec_ttLoad_refused {v : Nat} {s : State} (hv : v < 256) (h : v ≠ 1 ∨ s.loading.isSome = true) :
    exec (.ttLoad v) s = .next s := by
  simp [exec, execTtLoad, within, hv, ttLoad_refused h]

/-! ### The end of a load (R246) -/

/-- The state in which no load is under way. -/
def unloading (s : State) : State := { s with loading := none }

/-- A load refused for a cause. -/
def refuseLoad (s : State) (c : Nat) : State := (s.setOd Od.TT_LOAD_STATE 3).setOd Od.TT_REFUSE_CAUSE c

/-- The ended load of `n` bytes at `a`, whose SHA-256 has been taken. -/
def hashedLoad (s : State) (a n : Nat) : State :=
  (unloading s).setOd Od.TT_IMAGE_SHA256 (leNat (sha256 (s.load a n)))

/-- The image loaded. -/
def acceptLoad (s : State) (img : Image) : State :=
  { ((s.setOd Od.TT_LOAD_STATE 2).setOd Od.TT_REFUSE_CAUSE 0).setOd Od.SCALE_TABLE_ENTRIES img.scaleEntries with
    loaded := some img, depot := { s.depot with reload := false } }

@[simp] theorem odv_refuseLoad_state (s : State) (c : Nat) : (refuseLoad s c).odv Od.TT_LOAD_STATE = 3 := by
  rw [refuseLoad, odv_setOd_other _ _ _ _ (by decide), odv_setOd_self]

@[simp] theorem odv_refuseLoad_cause (s : State) (c : Nat) : (refuseLoad s c).odv Od.TT_REFUSE_CAUSE = c :=
  odv_setOd_self _ _ _

@[simp] theorem loads_refuseLoad (s : State) (c : Nat) : loads (refuseLoad s c) = loads s := rfl

theorem odv_acceptLoad (s : State) (img : Image) (k : Nat) : (acceptLoad s img).odv k =
    (((s.setOd Od.TT_LOAD_STATE 2).setOd Od.TT_REFUSE_CAUSE 0).setOd Od.SCALE_TABLE_ENTRIES img.scaleEntries).odv k := rfl

theorem unloading_outside (s : State) (a n : Nat) :
    (n = 0 || !(unloading s).inTier a n) = true ↔ n = 0 ∨ s.inTier a n = false := by
  rw [show (unloading s).inTier a n = s.inTier a n from rfl]
  simp

section
variable {a n : Nat} {img : Image} {s : State} (hl : s.loading = some (a, n))
include hl

/-- An empty image, and one outside its tier, is refused with cause 7. -/
theorem exec_ttLoadComplete_outside (h : n = 0 ∨ s.inTier a n = false) :
    exec (.ttLoadComplete img) s = .next (refuseLoad (unloading s) 7) := by
  simp only [exec, execTtLoadComplete, within, hl]
  exact congrArg Host.Outcome.next (if_pos ((unloading_outside s a n).mpr h))

variable (hn : n ≠ 0) (ht : s.inTier a n = true)
include hn ht

/-- An image with an uncorrected error is refused with cause 7, and the error is recorded and captured. -/
theorem exec_ttLoadComplete_damaged {w : Nat} {ws : List Nat} (hb : badIn s.eccBad a n = w :: ws) :
    exec (.ttLoadComplete img) s = .next
      (refuseLoad (((unloading s).uncorrected w).1.capture ((unloading s).uncorrected w).2) 7) := by
  have hc : ¬ (n = 0 || !(unloading s).inTier a n) = true := fun h =>
    ((unloading_outside s a n).mp h).elim hn (by simp [ht])
  simp only [exec, execTtLoadComplete, within, hl]
  refine congrArg Host.Outcome.next ((if_neg hc).trans ?_)
  rw [hb]
  rfl

/-- A readable image is loaded when it passes every check, and refused with the cause of the first that it fails. -/
theorem exec_ttLoadComplete_read (hb : badIn s.eccBad a n = []) :
    exec (.ttLoadComplete img) s = .next
      (if img.refuseCause (s.odv Od.STEPPING) = 0 then acceptLoad (hashedLoad s a n) img
       else refuseLoad (hashedLoad s a n) (img.refuseCause (s.odv Od.STEPPING))) := by
  have hc : ¬ (n = 0 || !(unloading s).inTier a n) = true := fun h =>
    ((unloading_outside s a n).mp h).elim hn (by simp [ht])
  have hs : (hashedLoad s a n).odv Od.STEPPING = s.odv Od.STEPPING := odv_setOd_other _ _ _ _ (by decide)
  simp only [exec, execTtLoadComplete, within, hl]
  refine congrArg Host.Outcome.next ((if_neg hc).trans ?_)
  rw [hb, ← hs]
  by_cases h0 : img.refuseCause ((hashedLoad s a n).odv Od.STEPPING) = 0
  · rw [if_pos h0]
    exact if_neg fun h => bne_iff_ne.mp h h0
  · rw [if_neg h0]
    exact if_pos (bne_iff_ne.mpr h0)

theorem ttLoadComplete_accepts (hb : badIn s.eccBad a n = []) (hc : img.refuseCause (s.odv Od.STEPPING) = 0) :
    ∃ t, exec (.ttLoadComplete img) s = .next t ∧ t.loaded = some img ∧ t.odv Od.TT_LOAD_STATE = 2 ∧
      t.odv Od.TT_REFUSE_CAUSE = 0 ∧ t.odv Od.SCALE_TABLE_ENTRIES = img.scaleEntries ∧
      t.odv Od.TT_IMAGE_SHA256 = leNat (sha256 (s.load a n)) ∧ t.loading = none := by
  refine ⟨acceptLoad (hashedLoad s a n) img, (exec_ttLoadComplete_read hl hn ht hb).trans (by rw [if_pos hc]), rfl,
    ?state, ?cause, ?entries, ?hash, rfl⟩
  case state =>
    rw [odv_acceptLoad, odv_setOd_other _ _ _ _ (by decide), odv_setOd_other _ _ _ _ (by decide), odv_setOd_self]
  case cause => rw [odv_acceptLoad, odv_setOd_other _ _ _ _ (by decide), odv_setOd_self]
  case entries => rw [odv_acceptLoad, odv_setOd_self]
  case hash =>
    rw [odv_acceptLoad, odv_setOd_other _ _ _ _ (by decide), odv_setOd_other _ _ _ _ (by decide),
      odv_setOd_other _ _ _ _ (by decide), hashedLoad, odv_setOd_self]

theorem ttLoadComplete_refuses (hb : badIn s.eccBad a n = []) (hc : img.refuseCause (s.odv Od.STEPPING) ≠ 0) :
    ∃ t, exec (.ttLoadComplete img) s = .next t ∧ t.loaded = s.loaded ∧ t.odv Od.TT_LOAD_STATE = 3 ∧
      t.odv Od.TT_REFUSE_CAUSE = img.refuseCause (s.odv Od.STEPPING) :=
  ⟨refuseLoad (hashedLoad s a n) (img.refuseCause (s.odv Od.STEPPING)),
    (exec_ttLoadComplete_read hl hn ht hb).trans (by rw [if_neg hc]), rfl, odv_refuseLoad_state _ _,
    odv_refuseLoad_cause _ _⟩

theorem ttLoadComplete_unreadable {w : Nat} {ws : List Nat} (hb : badIn s.eccBad a n = w :: ws) :
    ∃ t, exec (.ttLoadComplete img) s = .next t ∧ t.loaded = s.loaded ∧ t.loading = none ∧
      t.odv Od.TT_LOAD_STATE = 3 ∧ t.odv Od.TT_REFUSE_CAUSE = 7 := by
  have hk : loads (refuseLoad (((unloading s).uncorrected w).1.capture ((unloading s).uncorrected w).2) 7) =
      (s.loaded, none) := by
    rw [loads_refuseLoad, loads_capture, loads_uncorrected, loads, unloading]
  exact ⟨_, exec_ttLoadComplete_damaged hl hn ht hb, congrArg Prod.fst hk, congrArg Prod.snd hk,
    odv_refuseLoad_state _ _, odv_refuseLoad_cause _ _⟩

end

/-! ### PACKAGE_MODE (R444) -/

theorem exec_packageMode_of_idle {v : Nat} {s : State} (hm : s.Managed) (hv : v ≤ 1) (ha : s.anyArmed = false) :
    exec (.packageMode v) s = .next (s.setOd Od.PACKAGE_MODE v) := by
  have hr : v < 256 := by omega
  simp [exec, execPackageMode, within, State.setMode, hm.1, hm.2, hr, ha, Nat.not_lt.mpr hv]

/-- An undefined mode, and any mode while something is armed, is refused. -/
theorem setMode_refused {v : Nat} {s : State} (h : 1 < v ∨ s.anyArmed = true) : (s.setMode v).2 = s := by
  by_cases hv : 1 < v
  · simp [State.setMode, State.refused, hv]
  · simp [State.setMode, State.refused, hv, h.resolve_left hv]

theorem exec_packageMode_refused {v : Nat} {s : State} (hv : v < 256) (h : 1 < v ∨ s.anyArmed = true) :
    exec (.packageMode v) s = .next s := by
  simp [exec, execPackageMode, within, hv, setMode_refused h]

/-! ### The statistics boundary (R522 to R524) -/

/-- The defaults of all latched entries are 0: no row of the entry tables there has another. -/
theorem odTable_latched_default : odTable.all
    (fun r => decide (r.ixHi < 0xA001) || decide (0xB000 ≤ r.ixLo) || r.dflt == 0) = true := by decide +kernel

theorem covers_latched {r : OdRow} {k : Nat} (hc : r.covers k = true) (hk : latched k = true) :
    0xA001 ≤ r.ixHi ∧ r.ixLo < 0xB000 := by
  simp only [OdRow.covers, latched, Bool.and_eq_true, decide_eq_true_eq] at hc hk
  omega

theorem ne_of_latched {k j : Nat} (hk : latched k = true) (hj : latched j = false) : k ≠ j := by
  rintro rfl
  exact Bool.false_ne_true (hj.symm.trans hk)

theorem partDefault_latched {k : Nat} (hk : latched k = true) : partDefault k = 0 := by
  have hb : 0xA00100 ≤ k ∧ k < 0xB00000 := by simpa [latched] using hk
  have hp : partDefault k = odDefault k := by
    rw [partDefault, if_neg, if_neg, if_neg, if_neg, if_neg] <;> exact ne_of_latched hk (by decide)
  rw [hp, odDefault, if_neg (by omega), if_neg (by simp only [Bool.and_eq_true, decide_eq_true_eq]; omega)]
  cases hr : odRow k with
  | none => rfl
  | some r =>
    rw [odRow] at hr
    have hrow := List.all_eq_true.mp odTable_latched_default r (List.mem_of_find?_eq_some hr)
    have hc := covers_latched (List.find?_some (p := fun r : OdRow => r.covers k) hr) hk
    simp only [Bool.or_eq_true, decide_eq_true_eq, beq_iff_eq] at hrow
    show r.dflt = 0
    omega

/-- A latched entry takes its count, up to the largest value of its type. -/
def latchCount (s : State) (e : Nat × Nat) : State :=
  if e.2 = 0 then s else s.setOd e.1 (Nat.min e.2 (2 ^ (8 * odLen e.1) - 1))

/-- The state in which every latched entry has its default and every count restarts. -/
def restarted (s : State) : State := { s with od := s.od.filter fun e => !latched e.1, stats := [] }

/-- The counts of the latched entries. -/
def latchedCounts (s : State) : Tab Nat := s.stats.filter fun e => latched e.1

/-- Some count is too large for its entry. -/
def saturates (s : State) : Bool :=
  (latchedCounts s ++ [(Od.RISK_POINTS, s.riskPoints)]).any fun e => 2 ^ (8 * odLen e.1) ≤ e.2

/-- Every latched entry with its count. -/
def latchAll (s : State) : State :=
  (latchedCounts s ++ [(Od.RISK_POINTS, s.riskPoints)]).foldl latchCount (restarted s)

theorem latchAll_eq (s : State) :
    latchAll s = latchCount ((latchedCounts s).foldl latchCount (restarted s)) (Od.RISK_POINTS, s.riskPoints) := by
  rw [latchAll, List.foldl_append]
  rfl

theorem boundary_eq (s : State) : s.boundary =
    (((latchAll s).setOd Od.STATS_SATURATED (if saturates s then 1 else 0)).setOd Od.STATS_PERIOD_INDEX
      (((latchAll s).setOd Od.STATS_SATURATED (if saturates s then 1 else 0)).odv Od.STATS_PERIOD_INDEX + 1)).updateRisk
      s.riskPoints := rfl

theorem odv_latchCount_other (s : State) {e : Nat × Nat} {k : Nat} (h : k ≠ e.1) : (latchCount s e).odv k = s.odv k := by
  by_cases hv : e.2 = 0
  · rw [latchCount, if_pos hv]
  · rw [latchCount, if_neg hv, odv_setOd_other _ _ _ _ h]

theorem odv_latchCount_self {s : State} {k v : Nat} (h : s.odv k = 0) :
    (latchCount s (k, v)).odv k = Nat.min v (2 ^ (8 * odLen k) - 1) := by
  by_cases hv : v = 0
  · rw [latchCount, if_pos hv, h, hv]
    exact (Nat.zero_min _).symm
  · rw [latchCount, if_neg hv, odv_setOd_self]

@[simp] theorem stats_latchCount (s : State) (e : Nat × Nat) : (latchCount s e).stats = s.stats := by
  by_cases hv : e.2 = 0
  · rw [latchCount, if_pos hv]
  · rw [latchCount, if_neg hv, setOd_stats]

theorem odv_latchCounts_other {k : Nat} {l : Tab Nat} (h : k ∉ l.map (·.1)) (s : State) :
    (l.foldl latchCount s).odv k = s.odv k := by
  induction l generalizing s with
  | nil => rfl
  | cons e l ih =>
    simp only [List.map_cons, List.mem_cons, not_or] at h
    rw [List.foldl_cons, ih h.2, odv_latchCount_other s h.1]

theorem stats_latchCounts (l : Tab Nat) (s : State) : (l.foldl latchCount s).stats = s.stats := by
  induction l generalizing s with
  | nil => rfl
  | cons e l ih => rw [List.foldl_cons, ih, stats_latchCount]

/-- Where each key is counted once, an entry that was 0 takes its count. -/
theorem odv_latchCounts {k : Nat} {l : Tab Nat} (hd : (l.map (·.1)).Nodup) {s : State} (h : s.odv k = 0) :
    (l.foldl latchCount s).odv k = Nat.min (tabGet 0 l k) (2 ^ (8 * odLen k) - 1) := by
  induction l generalizing s with
  | nil =>
    rw [List.foldl_nil, h]
    exact (Nat.zero_min _).symm
  | cons e l ih =>
    obtain ⟨i, v⟩ := e
    obtain ⟨hi, hd⟩ := List.nodup_cons.mp hd
    rw [List.foldl_cons]
    by_cases hik : i = k
    · subst hik
      rw [odv_latchCounts_other hi, odv_latchCount_self h, tabGet, if_pos rfl]
    · rw [ih hd ((odv_latchCount_other s (Ne.symm hik)).trans h), tabGet, if_neg hik]

theorem odv_restarted (s : State) (k : Nat) :
    (restarted s).odv k = if latched k then partDefault k else s.odv k := by
  rw [odv_of_od_filter (s := s) (t := restarted s) (p := fun k => !latched k) rfl k]
  cases latched k <;> rfl

theorem latched_of_mem_latchedCounts {s : State} {k : Nat} (h : k ∈ (latchedCounts s).map (·.1)) : latched k = true := by
  obtain ⟨e, he, rfl⟩ := List.mem_map.mp h
  exact (List.mem_filter.mp he).2

/-- The entries that are not latched keep their values. -/
theorem odv_latchAll_of_unlatched (s : State) {k : Nat} (h : latched k = false) : (latchAll s).odv k = s.odv k := by
  have hr : k ≠ Od.RISK_POINTS := by
    rintro rfl
    exact absurd h (by decide)
  have hm : k ∉ (latchedCounts s).map (·.1) := fun hk => by
    exact Bool.false_ne_true (h.symm.trans (latched_of_mem_latchedCounts hk))
  rw [latchAll_eq, odv_latchCount_other _ hr, odv_latchCounts_other hm, odv_restarted, h]
  rfl

theorem odv_latchAll {s : State} (hd : (s.stats.map (·.1)).Nodup) {k : Nat} (hk : latched k = true)
    (hr : k ≠ Od.RISK_POINTS) : (latchAll s).odv k = Nat.min (s.counted k) (2 ^ (8 * odLen k) - 1) := by
  have hd' : ((latchedCounts s).map (·.1)).Nodup := hd.sublist (List.filter_sublist.map _)
  have h0 : (restarted s).odv k = 0 := by
    rw [odv_restarted, if_pos hk, partDefault_latched hk]
  rw [latchAll_eq, odv_latchCount_other _ hr, odv_latchCounts hd' h0, latchedCounts, tabGet_filter_of_kept 0 hk]
  rfl

@[simp] theorem stats_latchAll (s : State) : (latchAll s).stats = [] := by
  rw [latchAll_eq, stats_latchCount, stats_latchCounts]
  rfl

/-- The update of the risk index writes the index, its crossing and the sticky log, and raises vectors. -/
theorem odv_updateRisk (s : State) (n : Nat) {k : Nat} (h1 : k ≠ Od.RISK_INDEX) (h2 : k ≠ Od.RISK_ABOVE)
    (h3 : k ≠ Od.STICKY_LOG) : (s.updateRisk n).odv k = s.odv k := by
  simp only [State.updateRisk]
  repeat' split
  all_goals
    simp only [odv_raise, odv_sticky_other _ _ h3, odv_setOd_other _ _ _ _ h2, odv_setOd_other _ _ _ _ h1]

theorem counted_updateRisk (s : State) (n : Nat) {k : Nat} (h : k ≠ Od.MSIX_SENT) :
    (s.updateRisk n).counted k = s.counted k := by
  simp only [State.updateRisk]
  repeat' split
  all_goals simp only [counted_raise _ _ _ h, counted_sticky _ _ h, counted_setOd]

theorem odv_boundary_period (s : State) :
    s.boundary.odv Od.STATS_PERIOD_INDEX = s.odv Od.STATS_PERIOD_INDEX + 1 := by
  rw [boundary_eq, odv_updateRisk _ _ (by decide) (by decide) (by decide), odv_setOd_self,
    odv_setOd_other _ _ _ _ (by decide), odv_latchAll_of_unlatched s (by decide)]

theorem odv_boundary_latched {s : State} (hd : (s.stats.map (·.1)).Nodup) {k : Nat} (hk : latched k = true)
    (hr : k ≠ Od.RISK_POINTS) : s.boundary.odv k = Nat.min (s.counted k) (2 ^ (8 * odLen k) - 1) := by
  have hne {j : Nat} (hj : latched j = false) : k ≠ j := ne_of_latched hk hj
  rw [boundary_eq, odv_updateRisk _ _ (hne (by decide)) (hne (by decide)) (hne (by decide)),
    odv_setOd_other _ _ _ _ (hne (by decide)), odv_setOd_other _ _ _ _ (hne (by decide)), odv_latchAll hd hk hr]

theorem counted_boundary (s : State) {k : Nat} (h : k ≠ Od.MSIX_SENT) : s.boundary.counted k = 0 := by
  rw [boundary_eq, counted_updateRisk _ _ h, counted_setOd, counted_setOd, State.counted, stats_latchAll]
  rfl

theorem islandRuns_of_managed {s : State} (hm : s.Managed) : s.islandRuns = true := by
  simp [State.islandRuns, hm.1, hm.2]

theorem exec_statsBoundary_of_managed {s : State} (hm : s.Managed) : exec .statsBoundary s = .next s.boundary := by
  simp [exec, execStatsBoundary, within, islandRuns_of_managed hm]

theorem exec_statsLatchNow_of_managed {s : State} (hm : s.Managed) : exec (.statsLatchNow 1) s = .next s.boundary := by
  simp [exec, execStatsLatchNow, within, State.latchNow, islandRuns_of_managed hm]

/-! ### STICKY_LOG and FE_VALID (R540, R541) -/

/-- Taking away the bits that `b` shares with `a` clears them and no other. -/
theorem bitOf_sub_land (a b n : Nat) : bitOf (a - (a &&& b)) n = (bitOf a n && !bitOf b n) := by
  simp only [bitOf]
  induction n generalizing a b with
  | zero =>
    have hle : a &&& b ≤ a := Nat.and_le_left
    have hbit : (a &&& b) % 2 = 1 ↔ a % 2 = 1 ∧ b % 2 = 1 := Nat.and_mod_two_eq_one
    rw [Bool.eq_iff_iff]
    simp only [Nat.testBit_zero, decide_eq_true_eq, Bool.and_eq_true, Bool.not_eq_true', decide_eq_false_iff_not]
    omega
  | succ n ih =>
    have hle : a &&& b ≤ a := Nat.and_le_left
    have hbit : (a &&& b) % 2 = 1 ↔ a % 2 = 1 ∧ b % 2 = 1 := Nat.and_mod_two_eq_one
    have hhalf : (a - (a &&& b)) / 2 = a / 2 - (a / 2 &&& b / 2) := by
      rw [← Nat.and_div_two]
      omega
    rw [Nat.testBit_succ, Nat.testBit_succ, Nat.testBit_succ, hhalf, ih]

theorem exec_stickyLogClear_of_managed {v : Nat} {s : State} (hm : s.Managed) (hv : v < 2 ^ 256) :
    exec (.stickyLogClear v) s = .next (s.clearSticky v) := by
  simp only [exec, execStickyLogClear, within, islandRuns_of_managed hm, decide_eq_true hv, if_true]

theorem bitOf_clearSticky (s : State) (v n : Nat) : bitOf ((s.clearSticky v).odv Od.STICKY_LOG) n =
    (bitOf (s.odv Od.STICKY_LOG) n && !bitOf v n) := by
  rw [State.clearSticky, odv_setOd_self, bitOf_sub_land]

theorem odv_clearSticky_other (s : State) (v : Nat) {k : Nat} (h : k ≠ Od.STICKY_LOG) :
    (s.clearSticky v).odv k = s.odv k :=
  odv_setOd_other _ _ _ _ h

theorem exec_feValidClear_of_managed {s : State} (hm : s.Managed) : exec (.feValidClear 1) s = .next s.clearCapture := by
  simp [exec, execFeValidClear, within, islandRuns_of_managed hm]

theorem odv_clearCapture (s : State) (k : Nat) :
    s.clearCapture.odv k = if k / 256 = 0x9010 then partDefault k else s.odv k := by
  rw [odv_of_od_filter (s := s) (t := s.clearCapture) (p := fun k => k / 256 != 0x9010) rfl k]
  by_cases h : k / 256 = 0x9010 <;> simp [h]

/-! ### The obligation -/

/-- Settles O58, from the spec lemma of each command above. -/
theorem managementWritesTakeEffect : Obligations.ManagementWritesTakeEffect := by
  unfold Obligations.ManagementWritesTakeEffect
  refine ⟨?ttLoad, ?ttLoadRefused, ?accepted, ?refused, ?outside, ?unreadable, ?packageMode, ?packageModeRefused,
    ?statsBoundary, ?stickyLog, ?feValid⟩
  case ttLoad => exact fun s hr hl => exec_ttLoad_of_ready hr hl
  case ttLoadRefused => exact fun v s hv h => exec_ttLoad_refused hv h
  case accepted => exact fun a n img s hl hn ht hb hc => ttLoadComplete_accepts hl hn ht hb hc
  case refused => exact fun a n img s hl hn ht hb hc => ttLoadComplete_refuses hl hn ht hb hc
  case outside => exact fun a n img s hl h => exec_ttLoadComplete_outside hl h
  case unreadable => exact fun a n w ws img s hl hn ht hb => ttLoadComplete_unreadable hl hn ht hb
  case packageMode => exact fun v s hm hv ha => exec_packageMode_of_idle hm hv ha
  case packageModeRefused => exact fun v s hv h => exec_packageMode_refused hv h
  case statsBoundary =>
    exact fun s hm hd => ⟨s.boundary, exec_statsBoundary_of_managed hm, exec_statsLatchNow_of_managed hm,
      odv_boundary_period s, fun k hk hr => odv_boundary_latched hd hk hr, fun k hk => counted_boundary s hk⟩
  case stickyLog =>
    exact fun v s hm hv => ⟨s.clearSticky v, exec_stickyLogClear_of_managed hm hv, bitOf_clearSticky s v,
      fun k hk => odv_clearSticky_other s v hk⟩
  case feValid =>
    exact fun s hm => ⟨s.clearCapture, exec_feValidClear_of_managed hm,
      fun k hk => (odv_clearCapture s k).trans (if_pos hk), fun k hk => (odv_clearCapture s k).trans (if_neg hk)⟩

end Sys2Proof.Proofs
end

