-- ==== Sys2Proof/Proofs/DeviceMemory.lean ====
section
/-! SUPPORT. What device memory reads after a write (09), the error words of a memory without any, and the memory that
interrupts and the sticky log leave alone. -/

namespace Sys2Proof.Proofs

open Sys2Proof Sys2Proof.Machine Sys2Proof.Laws

/-! ### Reading a memory in canonical form -/

/-- Below the first entry, memory reads as unwritten. -/
theorem memGet_below {m : List Host.Cell} {lo a : Nat} (hm : memOkFrom lo m = true) (ha : a < lo) :
    memGet m a = unwritten := by
  induction m generalizing lo with
  | nil => rfl
  | cons e m ih =>
    obtain ⟨k, v⟩ := e
    simp only [memOkFrom, Bool.and_eq_true, decide_eq_true_eq] at hm
    obtain ⟨⟨hlo, -⟩, hrest⟩ := hm
    rw [memGet, if_neg (by omega), ih hrest (by omega)]

theorem memGet_memPut_other (m : List Host.Cell) {a b : Nat} (x : Byte) (hb : b ≠ a) :
    memGet (memPut m a x) b = memGet m b := by
  induction m with
  | nil => by_cases hx : x = unwritten <;> simp [memPut, memGet, hx, hb.symm]
  | cons e m ih =>
    obtain ⟨k, v⟩ := e
    by_cases hka : k = a
    · by_cases hx : x = unwritten <;> simp [memPut, memGet, hka, hx, hb.symm]
    by_cases hak : a < k
    · by_cases hx : x = unwritten <;> simp [memPut, memGet, hka, hak, hx, hb.symm]
    · simp [memPut, memGet, hka, hak, ih]

/-- Writing an unwritten byte lists nothing at its address: in canonical form every later entry lies above it. -/
theorem memGet_memPut_self {m : List Host.Cell} {lo : Nat} (hm : memOkFrom lo m = true) (a : Nat) (x : Byte) :
    memGet (memPut m a x) a = x := by
  induction m generalizing lo with
  | nil => by_cases hx : x = unwritten <;> simp [memPut, memGet, hx]
  | cons e m ih =>
    obtain ⟨k, v⟩ := e
    simp only [memOkFrom, Bool.and_eq_true, decide_eq_true_eq] at hm
    obtain ⟨-, hrest⟩ := hm
    by_cases hka : k = a
    · have hgap : memGet m a = unwritten := memGet_below hrest (by omega)
      by_cases hx : x = unwritten <;> simp [memPut, memGet, hka, hx, hgap]
    by_cases hak : a < k
    · have hgap : memGet m a = unwritten := memGet_below hrest (by omega)
      by_cases hx : x = unwritten <;> simp [memPut, memGet, hka, hak, hx, hgap]
    · simp [memPut, memGet, hka, hak, ih hrest]

theorem memGet_memPutAll_outside (m : List Host.Cell) {a b : Nat} {bs : List Byte} (hb : b < a ∨ a + bs.length ≤ b) :
    memGet (memPutAll m a bs) b = memGet m b := by
  induction bs generalizing m a with
  | nil => rfl
  | cons x bs ih =>
    rw [List.length_cons] at hb
    rw [memPutAll, ih _ (by omega), memGet_memPut_other m x (by omega)]

theorem memGet_memPutAll_inside {m : List Host.Cell} (hm : Memory.wf m = true) (a : Nat) {k : Nat} {bs : List Byte}
    (hk : k < bs.length) : memGet (memPutAll m a bs) (a + k) = bs[k] := by
  induction bs generalizing m a k with
  | nil => exact absurd hk (Nat.not_lt_zero k)
  | cons x bs ih =>
    rw [memPutAll]
    cases k with
    | zero => exact (memGet_memPutAll_outside _ (.inl (Nat.lt_succ_self a))).trans (memGet_memPut_self hm a x)
    | succ k =>
      rw [Nat.add_left_comm, Nat.add_comm k]
      exact ih (memPut_wf m a x hm) (a + 1) (Nat.lt_of_succ_lt_succ hk)

/-! ### Writes to device memory -/

theorem byteAt_put {s : State} (hm : Memory.wf s.mem = true) (a : Nat) (bs : List Byte) {k : Nat} (hk : k < bs.length) :
    (s.put a bs).byteAt (a + k) = bs[k] :=
  memGet_memPutAll_inside hm a hk

theorem sameOutside_put (s : State) (a : Nat) (bs : List Byte) : s.SameOutside (s.put a bs) a bs.length :=
  fun _ hb => memGet_memPutAll_outside s.mem hb

/-! ### Memory without an erroneous word -/

theorem badIn_of_clean {s : State} (h : s.Clean) (a n : Nat) : badIn s.eccBad a n = [] := by
  rw [h]
  rfl

theorem badPartly_of_clean {s : State} (h : s.Clean) (a n : Nat) : badPartly s.eccBad a n = [] := by
  rw [badPartly, badIn_of_clean h]
  rfl

theorem windowBad_of_clean {s : State} (h : s.Clean) (a n : Nat) : s.windowBad a n = [] := by
  rw [State.windowBad, badIn_of_clean h]
  rfl

/-! ### What interrupts and the sticky log leave alone -/

@[simp] theorem raise_mem (s : State) (p v : Nat) : (s.raise p v).mem = s.mem := by
  obtain h | ⟨_, h⟩ | h := raise_cases s p v <;> rw [h] <;> rfl

@[simp] theorem sticky_mem (s : State) (n : Nat) : (s.sticky n).mem = s.mem := by
  obtain h | h := sticky_cases s n
  · rw [h]
  · rw [h, raise_mem, raise_mem, setOd_mem]

end Sys2Proof.Proofs
end

