-- ==== Sys2Proof/Proofs/HostWindows.lean ====
section
/-! The aperture and the CXL.mem window of a host port (09, 14). -/

namespace Sys2Proof.Proofs

open Sys2Proof Sys2Proof.Machine Sys2Proof.Laws

/-- A command whose operands lie in range answers any state equal to that of its effect. -/
theorem within_next_of_eq {b : Bool} {o : String} {s t : State} (hb : b = true) (h : s = t) : within b o s = .next t :=
  (within_next o s hb).trans (congrArg Host.Outcome.next h)

/-- The device address that an aperture offset of a port maps to (R484). -/
abbrev apertureAddr (s : State) (port offset : Nat) : Nat := (s.port port).apBase * 2 ^ 24 + offset

/-- The device address that an offset in the CXL window of a port maps to (R317). -/
abbrev cxlAddr (s : State) (port offset : Nat) : Nat := s.odv (winBaseKey port) + offset

/-! ### Aperture reads (R17, R484) -/

theorem aperture_inRange {port offset n : Nat} (hp : port < 2) (ho : offset + n ≤ 2 ^ 24) :
    (portOk port && offset + n ≤ 2 ^ 24) = true := by
  rw [portOk, decide_eq_true hp, decide_eq_true ho, Bool.and_self]

section
variable {port offset size : Nat} {s : State} (hp : port < 2) (ho : offset + size ≤ 2 ^ 24)
include hp ho

theorem exec_apertureRead_closed (he : (s.port port).apEnable = false) :
    exec (.apertureRead port offset size) s = .next (s.emit (.readData port (List.replicate size 0))) :=
  within_next_of_eq (aperture_inRange hp ho) (if_pos (by rw [he, Bool.not_false]))

theorem exec_apertureRead_clean (he : (s.port port).apEnable = true) (hc : s.Clean) :
    exec (.apertureRead port offset size) s =
      .next (s.emit (.readData port (s.windowBytes (apertureAddr s port offset) size))) := by
  refine within_next_of_eq (aperture_inRange hp ho) ((if_neg (by simp [he])).trans ?_)
  dsimp only
  rw [windowBad_of_clean hc]

end

/-! ### Aperture writes (R484, R485) -/

/-- The bytes at an address lie in an image, in the checkpoint reserve, or in a serving area in use. -/
def apertureProtected (s : State) (a n : Nat) : Bool :=
  s.inImage a n || s.inReserve a n || (s.inServing a n && s.plats.any fun e => e.2.held && s.serveMode)

theorem apertureProtected_of_range {s : State} {a n : Nat} (h : s.inImage a n = true ∨ s.inReserve a n = true) :
    apertureProtected s a n = true := by
  rw [apertureProtected, Bool.or_eq_true, Bool.or_eq_true]
  exact .inl h

theorem apertureProtected_of_serving {s : State} {a n : Nat} (ha : s.inServing a n = true) (hs : s.serveMode = true)
    (hu : ∃ e, e ∈ s.plats ∧ e.2.held = true) : apertureProtected s a n = true := by
  obtain ⟨e, he, hh⟩ := hu
  have huse : (s.plats.any fun e => e.2.held && s.serveMode) = true :=
    List.any_eq_true.mpr ⟨e, he, by rw [hh, hs, Bool.and_self]⟩
  rw [apertureProtected, ha, huse, Bool.and_self, Bool.or_true]

theorem apertureProtected_eq_false {s : State} {a n : Nat} (hi : s.inImage a n = false) (hr : s.inReserve a n = false)
    (hs : s.inServing a n = false ∨ s.serveMode = false) : apertureProtected s a n = false := by
  rw [apertureProtected, hi, hr]
  obtain hs | hs := hs <;> simp [hs]

section
variable {port offset : Nat} {data : List Byte} {s : State} (hp : port < 2) (ho : offset + data.length ≤ 2 ^ 24)
include hp ho

theorem exec_apertureWrite_closed (he : (s.port port).apEnable = false) :
    exec (.apertureWrite port offset data) s = .next s :=
  within_next_of_eq (aperture_inRange hp ho) (if_pos (by rw [he, Bool.not_false]))

variable (he : (s.port port).apEnable = true)
include he

theorem exec_apertureWrite_protected (h : apertureProtected s (apertureAddr s port offset) data.length = true) :
    exec (.apertureWrite port offset data) s = .next (s.sticky 10) :=
  within_next_of_eq (aperture_inRange hp ho) ((if_neg (by simp [he])).trans (if_pos h))

theorem exec_apertureWrite_inTier (h : apertureProtected s (apertureAddr s port offset) data.length = false)
    (ht : s.inTier (apertureAddr s port offset) data.length = true) (hc : s.Clean) :
    exec (.apertureWrite port offset data) s = .next (s.put (apertureAddr s port offset) data) := by
  refine within_next_of_eq (aperture_inRange hp ho)
    ((if_neg (by simp [he])).trans ((if_neg (ne_true_of_eq_false h)).trans ?_))
  rw [badPartly_of_clean hc]
  exact if_pos ht

/-- A protected write is discarded: the sticky bit APERTURE_WRITE_PROTECTED is all it leaves. -/
theorem apertureWrite_discards (h : apertureProtected s (apertureAddr s port offset) data.length = true) :
    ∃ t, exec (.apertureWrite port offset data) s = .next t ∧ t = s.sticky 10 ∧ t.mem = s.mem :=
  ⟨s.sticky 10, exec_apertureWrite_protected hp ho he h, rfl, sticky_mem s 10⟩

end

/-! ### The CXL.mem window (R317, R477 to R479) -/

section
variable {port offset : Nat} {s : State} (hp : port < 2) (hw : s.windowOpen port = true)
include hw

/-- An access within the size of an open window is carried. -/
theorem window_carries {n : Nat} (ho : offset + n ≤ s.odv (winSizeKey port)) :
    ¬ (!s.windowOpen port || s.odv (winSizeKey port) < offset + n) = true := by
  simp [hw, ho]

include hp

theorem exec_cxlMemRead_clean {size : Nat} (ho : offset + size ≤ s.odv (winSizeKey port)) (hc : s.Clean) :
    exec (.cxlMemRead port offset size) s =
      .next (s.emit (.readData port (s.load (cxlAddr s port offset) size))) := by
  refine within_next_of_eq (decide_eq_true hp) ((if_neg (window_carries hw ho)).trans ?_)
  dsimp only
  rw [badIn_of_clean hc]

theorem exec_cxlMemRead_uncorrected {size w : Nat} {ws : List Nat} (ho : offset + size ≤ s.odv (winSizeKey port))
    (hb : badIn s.eccBad (cxlAddr s port offset) size = w :: ws) :
    exec (.cxlMemRead port offset size) s =
      .next ((((((s.uncorrected w).1.capture (s.uncorrected w).2).sticky 9).emit (.aer port)).raise port 0).emit
        (.readData port (List.replicate size 0xFF))) := by
  refine within_next_of_eq (decide_eq_true hp) ((if_neg (window_carries hw ho)).trans ?_)
  dsimp only
  rw [hb]

theorem exec_cxlMemWrite_unprotected {data : List Byte} (ho : offset + data.length ≤ s.odv (winSizeKey port))
    (hi : s.inImage (cxlAddr s port offset) data.length = false)
    (hr : s.inReserve (cxlAddr s port offset) data.length = false) (hc : s.Clean) :
    exec (.cxlMemWrite port offset data) s = .next (s.put (cxlAddr s port offset) data) := by
  refine within_next_of_eq (decide_eq_true hp)
    ((if_neg (window_carries hw ho)).trans ((if_neg (by simp [hi, hr])).trans ?_))
  rw [badPartly_of_clean hc]

end

theorem exec_hdmDecoderCommit {port : Nat} (hp : port < 2) (base size ways : Nat) (s : State) :
    exec (.hdmDecoderCommit port base size ways) s = .next (s.setPort port
      { s.port port with
        hdmBase := base, hdmSize := size
        hdmCommitted := ways = 1 && size = s.odv (winSizeKey port)
        hdmError := !(ways = 1 && size = s.odv (winSizeKey port)) }) :=
  within_next _ _ (decide_eq_true hp)

/-! ### The obligation -/

/-- Settles O38, from the spec lemma of each access above and the laws of a write to device memory. -/
theorem apertureAndCxlWindowReachDeviceMemory : Obligations.ApertureAndCxlWindowReachDeviceMemory := by
  unfold Obligations.ApertureAndCxlWindowReachDeviceMemory
  refine ⟨?readClosed, ?readOpen, ?write, ?writeProtected, ?writeServing, ?writeClosed, ?cxlRead, ?cxlReadBad, ?cxlWrite,
    ?commit⟩
  case readClosed => exact fun port offset size s hp ho he => exec_apertureRead_closed hp ho he
  case readOpen => exact fun port offset size s hp ho he hc => exec_apertureRead_clean hp ho he hc
  case write =>
    exact fun port offset data s hm hp ho he ht hi hr hs hc =>
      ⟨_, exec_apertureWrite_inTier hp ho he (apertureProtected_eq_false hi hr hs) ht hc, rfl,
        fun k hk => byteAt_put hm _ data hk, sameOutside_put s _ data⟩
  case writeProtected =>
    exact fun port offset data s hp ho he _ h => apertureWrite_discards hp ho he (apertureProtected_of_range h)
  case writeServing =>
    exact fun port offset data s hp ho he ha hs hu =>
      apertureWrite_discards hp ho he (apertureProtected_of_serving ha hs hu)
  case writeClosed => exact fun port offset data s hp ho he => exec_apertureWrite_closed hp ho he
  case cxlRead => exact fun port offset size s hp hw ho hc => exec_cxlMemRead_clean hp hw ho hc
  case cxlReadBad => exact fun port offset size w ws s hp hw ho hb => exec_cxlMemRead_uncorrected hp hw ho hb
  case cxlWrite =>
    exact fun port offset data s hm hp hw ho hi hr hc =>
      ⟨_, exec_cxlMemWrite_unprotected hp hw ho hi hr hc, rfl, fun k hk => byteAt_put hm _ data hk,
        sameOutside_put s _ data⟩
  case commit =>
    exact fun port base size ways s hp => ⟨_, exec_hdmDecoderCommit hp base size ways s, rfl, setPort_mem _ _ _⟩

end Sys2Proof.Proofs
end

