-- ==== Sys2Proof/Proofs/MatrixArrays.lean ====
section
/-! Tiles that complete on their array, and detected errors at the arrays and the Turntable (03, 06). -/

namespace Sys2Proof.Proofs

open Sys2Proof Sys2Proof.Machine Sys2Proof.Laws

/-! ### Tiles that complete (R80, R86, R88) -/

/-- A tile that meets one error, at which it can be replayed, is replayed once and completes (R88). -/
theorem tileFate_singleton {e : CellError} {replayable : Nat → Bool} (h : replayable e.out = true) :
    tileFate [e] replayable = (1, none) := by
  simp [tileFate, h]

/-- A tile that can be replayed takes no chained output (R86). -/
theorem chainIn_isEmpty_of_replayable {s : State} {t : Tile} {out : Nat} (h : s.replayable t out = true) :
    (s.chainIn t).isEmpty = true :=
  (Bool.and_eq_true_iff.mp h).2

/-- A tile whose fate is to complete runs `1 + n` times, counts its `n` replays, and has its effect once. -/
theorem runTile_completes {fz : Freeze} {u : State} {it : Issue} {n : Nat} (hclean : u.Clean)
    (hscale : (u.chainIn it.tile).isEmpty = true ∨ tWestScale it.w = 0)
    (hfate : tileFate (u.array it.core (cmdBits it.w 192 2)).armed (u.replayable it.tile) = (n, none)) :
    u.runTile fz it =
      ((u.start it (tileCycles it.w) (tileCycles it.w * (1 + n))).tileCounts it fz n).tileEffect it := by
  have hrun : ¬ (!(u.chainIn it.tile).isEmpty && tWestScale it.w != 0) = true := by
    obtain h | h := hscale <;> simp [h]
  rw [State.runTile, if_neg hrun, hfate]
  exact reading_clean _ it _ _ _ ((start_eccBad _ _ _ _).trans hclean)

section
variable {i : Instr} {c : Nat} {fz : Freeze} {kinds : List CmdKind} {it : Issue} {s : State}
  (hrow : engineRow i = some (tileRowOf c fz kinds))
  (hl : s.Launches c kinds State.tileOk State.tileCan it) (hclean : (s.leave it).Clean)
include hrow hl hclean

/-- A tile that starts on an array at which no error waits runs once. -/
theorem exec_tile_undisturbed (harmed : ((s.leave it).array it.core (cmdBits it.w 192 2)).armed = [])
    (hscale : ((s.leave it).chainIn it.tile).isEmpty = true ∨ tWestScale it.w = 0) :
    exec i s = .next ((((s.leave it).start it (tileCycles it.w) (tileCycles it.w)).tileCounts it fz 0).tileEffect it) := by
  have hrun := runTile_completes (fz := fz) hclean hscale (by rw [harmed]; rfl)
  rw [Nat.add_zero, Nat.mul_one] at hrun
  exact (engineRow_launches hrow hl).trans (congrArg Host.Outcome.next hrun)

/-- A tile that meets one error, at which it can be replayed, runs twice and has the same effect. -/
theorem exec_tile_replayed {e : CellError}
    (harmed : ((s.leave it).array it.core (cmdBits it.w 192 2)).armed = [e])
    (hreplay : (s.leave it).replayable it.tile e.out = true) :
    exec i s =
      .next ((((s.leave it).start it (tileCycles it.w) (tileCycles it.w * 2)).tileCounts it fz 1).tileEffect it) := by
  have hrun := runTile_completes (fz := fz) hclean (.inl (chainIn_isEmpty_of_replayable hreplay))
    (by rw [harmed, tileFate_singleton hreplay])
  exact (engineRow_launches hrow hl).trans (congrArg Host.Outcome.next hrun)

end

/-- Settles O9: each of the three rows is a row of the array's engine, whose tile completes at once or after one replay. -/
theorem tileRunsAndSignals : Obligations.TileRunsAndSignals := by
  unfold Obligations.TileRunsAndSignals
  refine ⟨?outputStat, ?outputStatReplayed, ?inputStat, ?inputStatReplayed, ?elementwise, ?elementwiseReplayed⟩
  case outputStat | inputStat | elementwise =>
    rintro c fz it s _ hl rfl hclean harmed hscale
    exact exec_tile_undisturbed rfl hl hclean harmed hscale
  case outputStatReplayed | inputStatReplayed | elementwiseReplayed =>
    rintro c fz e it s _ hl rfl hclean harmed hreplay
    exact exec_tile_replayed rfl hl hclean harmed hreplay

/-! ### Detected errors at an array (R82, R84, R85, R88) -/

/-- Where no tile drains, the error waits for the array's next tile. -/
theorem meetError_of_idle {s : State} {c a : Nat} (h : (s.array c a).running = none) (cell row col out : Nat) :
    s.meetError c a cell row col out = s.setArray c a { s.array c a with
      cellErrors := tabSet (s.array c a).cellErrors cell (tabGet 0 (s.array c a).cellErrors cell + 1)
      armed := (s.array c a).armed ++ [{ cell := cell, row := row, col := col, out := out }] } := by
  simp only [State.meetError, h]

/-- The tile that drains meets the error. -/
theorem meetError_of_draining {s : State} {c a : Nat} {it : Issue} (h : (s.array c a).running = some it)
    (cell row col out : Nat) :
    s.meetError c a cell row col out = (s.setArray c a { s.array c a with
      cellErrors := tabSet (s.array c a).cellErrors cell (tabGet 0 (s.array c a).cellErrors cell + 1) }).drainError
      c a it := by
  simp only [State.meetError, h]

/-- With no repair recorded and a spare row left, the repair is a spare row. -/
theorem repairCell_of_spareRow {s : State} {c a : Nat} (hp : s.depot.pending = []) (hr : (s.array c a).spareRows < 2)
    (row col : Nat) : s.repairCell c a row col = s.record (.arrayRow c a row) := by
  rw [State.repairCell, hp]
  exact if_pos hr

section
variable {c a row col : Nat} (hc : c < 288) (ha : a < 4) (hr : row < 130) (hcol : col < 130)
include hc ha hr hcol

theorem cell_inRange :
    (c < 288 && a < 4 && row < 130 && col < 130 && 130 * row + col = 130 * row + col) = true := by
  simp [hc, ha, hr, hcol]

theorem exec_arrayDetectedError_unmapped {s : State} (hm : s.cellMapped c a row col = false) (out : Nat) :
    exec (.arrayDetectedError c a (130 * row + col) row col out) s = .next s :=
  within_next_of_eq (cell_inRange hc ha hr hcol) (if_pos (by rw [hm]; rfl))

variable {s : State} (hm : s.cellMapped c a row col = true)
include hm

/-- An error at a mapped cell is met and logged; the second at one cell also quarantines the core and records a repair. -/
theorem exec_arrayDetectedError_mapped (out : Nat) :
    exec (.arrayDetectedError c a (130 * row + col) row col out) s =
      .next (if tabGet 0 (s.array c a).cellErrors (130 * row + col) = 1 then
        (((s.meetError c a (130 * row + col) row col out).sticky 6).quarantine c).repairCell c a row col
      else (s.meetError c a (130 * row + col) row col out).sticky 6) :=
  within_next_of_eq (cell_inRange hc ha hr hcol) (if_neg (by simp [hm]))

theorem exec_arrayDetectedError_first (hn : tabGet 0 (s.array c a).cellErrors (130 * row + col) ≠ 1) (out : Nat) :
    exec (.arrayDetectedError c a (130 * row + col) row col out) s =
      .next ((s.meetError c a (130 * row + col) row col out).sticky 6) := by
  rw [exec_arrayDetectedError_mapped hc ha hr hcol hm, if_neg hn]

theorem exec_arrayDetectedError_second (hn : tabGet 0 (s.array c a).cellErrors (130 * row + col) = 1) (out : Nat) :
    exec (.arrayDetectedError c a (130 * row + col) row col out) s =
      .next ((((s.meetError c a (130 * row + col) row col out).sticky 6).quarantine c).repairCell c a row col) := by
  rw [exec_arrayDetectedError_mapped hc ha hr hcol hm, if_pos hn]

end

/-! ### Detected errors at the Turntable (R183) -/

theorem exec_turntableDetectedError {die : Nat} (hd : die < 48) (block : Nat) (again : Bool) (s : State) :
    exec (.turntableDetectedError die block again) s = .next (s.setDie die { s.die die with
      ttErrors := (s.die die).ttErrors.filter (fun e => e.1 != block) ++
        [(block, again || (s.die die).ttErrors.any fun e => e.1 = block)] }) :=
  within_next _ _ (decide_eq_true hd)

/-- Settles O48, from who meets the error (the tile that drains, or the next one) and whether it is the second at its
cell. -/
theorem detectedErrorsWaitForTheirTileOrBlock : Obligations.DetectedErrorsWaitForTheirTileOrBlock := by
  unfold Obligations.DetectedErrorsWaitForTheirTileOrBlock
  refine ⟨?waits, ?drains, ?second, ?unmapped, ?turntable⟩
  case waits =>
    intro c a row col out s hc ha hr hcol hm hn hidle
    rw [exec_arrayDetectedError_first hc ha hr hcol hm hn, meetError_of_idle hidle]
  case drains =>
    intro c a row col out it s hc ha hr hcol hm hn hrun
    rw [exec_arrayDetectedError_first hc ha hr hcol hm hn, meetError_of_draining hrun]
  case second =>
    rintro c a row col out s _ hc ha hr hcol hm hn hidle rfl
    refine ⟨?_, fun hp hs => repairCell_of_spareRow hp hs row col⟩
    rw [exec_arrayDetectedError_second hc ha hr hcol hm hn, meetError_of_idle hidle]
  case unmapped =>
    exact fun c a row col out s hc ha hr hcol hm => exec_arrayDetectedError_unmapped hc ha hr hcol hm out
  case turntable => exact fun die block again s hd => exec_turntableDetectedError hd block again s

end Sys2Proof.Proofs
end

