-- ==== Sys2Proof/Proofs/Junction.lean ====
section
/-! Junction commands that take a slot or wait for one, and the grants, merges and emissions that advance their rows
(05). -/

namespace Sys2Proof.Proofs

open Sys2Proof Sys2Proof.Machine Sys2Proof.Laws

/-! ### A Junction command that issues (R139, R160) -/

@[simp] theorem start_die (s : State) (it : Issue) (cost cycles d : Nat) : (s.start it cost cycles).die d = s.die d :=
  congrArg (tabGet DieState.empty · d) (start_dies s it cost cycles)

/-- A command for which the die has no free slot joins those that wait, behind them, and its stream is BLOCKED. -/
def jctBlocked (x : State) (it : Issue) (c : JctCmd) : State :=
  let y := x.setDie (dieOfCore it.core)
    { x.die (dieOfCore it.core) with waiting := (x.die (dieOfCore it.core)).waiting ++ [c] }
  y.setStream it.core it.slot { y.stream it.core it.slot with state := 3 }

section
variable {it : Issue} {v : State} (hclean : v.Clean)
include hclean

theorem start_clean (cost cycles : Nat) : (v.start it cost cycles).eccBad = [] :=
  (start_eccBad v it cost cycles).trans hclean

/-- A label out of range faults the command's stream. -/
theorem runJct_badLabel (hbad : v.badLabel it = true) :
    v.runJct it = (v.start it (v.jctNew it).cost 0).faultIssue it causeLabelRange := by
  rw [State.runJct, reading_clean _ _ _ _ _ (start_clean hclean _ _), if_pos hbad]

variable (hlabels : v.badLabel it = false)
include hlabels

/-- With no command waiting before it, the command takes the lowest free slot and its stream goes on. -/
theorem runJct_takesSlot {k : Nat} (hwait : (v.die (dieOfCore it.core)).waiting = [])
    (hslot : (v.die (dieOfCore it.core)).freeSlot = some k) :
    v.runJct it = (((v.start it (v.jctNew it).cost 0).jctIssue it (v.jctNew it)).advance it.core it.slot 6).jctTake
      (dieOfCore it.core) k (v.jctNew it) := by
  have hseat : (if (v.die (dieOfCore it.core)).waiting.isEmpty then (v.die (dieOfCore it.core)).freeSlot else none)
      = some k := by rw [hwait, hslot]; rfl
  rw [State.runJct, reading_clean _ _ _ _ _ (start_clean hclean _ _), if_neg (ne_true_of_eq_false hlabels)]
  dsimp only
  rw [start_die, hseat]

theorem runJct_waits (hfull : (v.die (dieOfCore it.core)).freeSlot = none)
    (hdistil : ((v.start it (v.jctNew it).cost 0).jctIssue it (v.jctNew it)).serveMode = false) :
    v.runJct it = jctBlocked ((v.start it (v.jctNew it).cost 0).jctIssue it (v.jctNew it)) it (v.jctNew it) := by
  have hseat : (if (v.die (dieOfCore it.core)).waiting.isEmpty then (v.die (dieOfCore it.core)).freeSlot else none)
      = none := by rw [hfull, ite_self]
  rw [State.runJct, reading_clean _ _ _ _ _ (start_clean hclean _ _), if_neg (ne_true_of_eq_false hlabels)]
  dsimp only
  rw [start_die, hseat]
  dsimp only
  rw [if_neg (ne_true_of_eq_false hdistil)]
  rfl

end

/-- A Junction row whose command issues, its operands accepted, runs the command. -/
theorem exec_jctRow_issues {i : Instr} {c : Nat} {kinds : List CmdKind} {it : Issue} {s : State}
    (hrow : exec i s = s.jctRow c kinds) (hi : s.Issues c kinds it)
    (hok : (kindOf it.w != .jctReserved && s.jctOk it) = true) : exec i s = .next ((s.issued it).runJct it) := by
  rw [hrow, State.jctRow, within_next _ _ (decide_eq_true hi.1), runKind_runs _ _ hi hok]

/-! ### Grants, merges and emissions on a die whose islands run (R46, R49) -/

theorem dieRow_inRange {die row : Nat} (hd : die < 48) (hr : row < 4096) : (die < 48 && row < 4096) = true := by
  simp [hd, hr]

theorem retainBad_of_clean {s : State} (h : s.Clean) (die : Nat) (c : JctCmd) (row : Nat) :
    s.retainBad die c row = false := by
  rw [State.retainBad, badIn_of_clean h]
  exact Bool.and_false _

section
variable {die : Nat} {s : State} (hd : die < 48) (hruns : s.jctRuns die = true)
include hd hruns

/-- A freed slot goes to the waiting command that R161 prefers. -/
theorem exec_jctSlotGrant {k : Nat} {w : JctCmd} {ws : List JctCmd} (hslot : (s.die die).freeSlot = some k)
    (hwait : (s.die die).waiting = w :: ws) (waited : Nat) :
    exec (.jctSlotGrant die waited) s =
      .next ((s.jctGrant die k (s.jctBest die w ws)).count Od.JCT_SLOT_WAIT_CYCLES waited) := by
  refine within_next_of_eq (decide_eq_true hd) ((if_neg (by simp [hruns])).trans ?_)
  rw [hslot, hwait]

variable {row : Nat} (hr : row < 4096)
include hr

/-- Once the next Junction has folded its last slice, its partial is merged, unless its row state is spoiled
(R143, R163). -/
theorem exec_jctPartialMerge {k : Nat} {c q : JctCmd} (hslot : s.mergeSlot die row = some (k, c))
    (hpeer : s.jctPeer c (tabGet 0 c.merged row) = some q) (hfolded : q.slices ≤ tabGet 0 q.next row) :
    exec (.jctPartialMerge die row) s =
      .next (if s.rowBad (s.jctDie c q.j) q row then s.jctSpoiled die c else s.mergeRow die row k c q) := by
  refine within_next_of_eq (dieRow_inRange hd hr) ((if_neg (by simp [hruns])).trans ?_)
  rw [hslot]
  dsimp only
  rw [hpeer]
  exact if_neg (Nat.not_lt.mpr hfolded)

/-- A finished row is emitted, unless the EMIT command's terms differ from those of the command that finished it
(R13, R144, R149, R153). -/
theorem exec_jctGradEmit {k : Nat} {c : JctCmd} {st : JctStats} (hslot : s.emitSlot die row = some (k, c))
    (hstat : s.jctStat die c row = some st) (hclean : s.Clean) :
    exec (.jctGradEmit die row) s =
      .next (if jcPass c.ctl = 1 && st.terms != c.terms then
          s.faultOwner c.platform c.tcore { cause := causeCmdRefused, core := c.core, slot := c.slot }
        else (if jcPass c.ctl = 1 then s.emitSlices die k row st (c.slices - tabGet 0 c.next row)
          else s.emitKept die k c row st).jctSettle die) := by
  refine within_next_of_eq (dieRow_inRange hd hr) ((if_neg (by simp [hruns])).trans ?_)
  rw [hslot]
  dsimp only
  rw [if_neg (ne_true_of_eq_false (retainBad_of_clean hclean die c row)), hstat]
  dsimp only
  rw [jctReading_clean _ _ _ _ hclean]

end

/-- Settles O12: the seven command rows run one function of the issued command, and each of the other rows follows
from the equation of its function. -/
theorem junctionCommandsTakeSlotsAndAdvance : Obligations.JunctionCommandsTakeSlotsAndAdvance := by
  unfold Obligations.JunctionCommandsTakeSlotsAndAdvance
  refine ⟨?distilStats, ?distilEmit, ?hintStats, ?hintEmit, ?draft, ?verify, ?residual, ?labelRange, ?noSlot, ?grant,
    ?merge, ?mergeSpoiled, ?emitSlices, ?emitDiffers, ?emitKept⟩
  case distilStats | distilEmit | hintStats | hintEmit | draft | verify | residual =>
    rintro c k it s _ hi hok rfl hclean hlabels hwait hslot
    rw [exec_jctRow_issues rfl hi hok, runJct_takesSlot hclean hlabels hwait hslot]
  case labelRange =>
    rintro c it s _ hi hok rfl hclean hbad
    rw [exec_jctRow_issues rfl hi hok, runJct_badLabel hclean hbad]
    rfl
  case noSlot =>
    rintro c it s _ _ hi hok rfl hclean hlabels hfull rfl hdistil
    rw [exec_jctRow_issues rfl hi hok, runJct_waits hclean hlabels hfull hdistil]
    rfl
  case grant => exact fun die waited k w ws s hd hruns hslot hwait => exec_jctSlotGrant hd hruns hslot hwait waited
  case merge =>
    intro die row k c q s hd hr hruns hslot hpeer hfolded hgood
    rw [exec_jctPartialMerge hd hruns hr hslot hpeer hfolded, if_neg (ne_true_of_eq_false hgood)]
  case mergeSpoiled =>
    intro die row k c q s hd hr hruns hslot hpeer hfolded hbad
    rw [exec_jctPartialMerge hd hruns hr hslot hpeer hfolded, if_pos hbad]
    rfl
  case emitSlices =>
    intro die row k c st s hd hr hruns hslot hstat hclean hpass hterms
    rw [exec_jctGradEmit hd hruns hr hslot hstat hclean, if_neg (by simp [hterms]), if_pos hpass]
  case emitDiffers =>
    intro die row k c st s hd hr hruns hslot hstat hclean hpass hterms
    rw [exec_jctGradEmit hd hruns hr hslot hstat hclean, if_pos (by simp [hpass, hterms])]
    rfl
  case emitKept =>
    intro die row k c st s hd hr hruns hslot hstat hclean hpass
    rw [exec_jctGradEmit hd hruns hr hslot hstat hclean, if_neg (by simp [hpass]), if_neg hpass]

end Sys2Proof.Proofs
end

