-- ==== Sys2Proof/Proofs/Siding.lean ====
section
/-! `LOSSLESS` groups of the Siding: unpacking a packed group gives its codes back, and when a group is coded (06, R186,
R188). -/

namespace Sys2Proof.Proofs

open Sys2Proof Sys2Proof.Machine

/-! ### The parts of a group -/

/-- The non-zero exponent fields of a group's codes. -/
def groupExps (xs : List Nat) : List Nat := (xs.map fun x => bitsOf x 7 8).filter (· != 0)

/-- B, the base that a group's header names. -/
def groupBase (xs : List Nat) : Nat := if (groupExps xs).isEmpty then 0 else (groupExps xs).foldl Nat.min 255

/-- The exponent fields of a group lie within the range that four bits over its base name. -/
def groupFits (xs : List Nat) : Bool := (groupExps xs).all fun e => e ≤ groupBase xs + 14 && e != 255

/-- The eight header bytes of a group. -/
def groupHead (mode : Byte) (xs : List Nat) : List Byte := [mode, BitVec.ofNat 8 (groupBase xs)] ++ List.replicate 6 0

/-- The sign and mantissa of a code. -/
def lowPart (x : Nat) : Nat := bitsOf x 0 7 + 128 * bitsOf x 15 1

/-- The four bits that stand for the exponent field of a code over a base. -/
def expPart (b x : Nat) : Nat := if bitsOf x 7 8 = 0 then 0 else bitsOf x 7 8 + 1 - b

/-- The code that its sign and mantissa and its four bits give. -/
def joinCode (b low c : Nat) : Nat := low % 128 + (if c = 0 then 0 else b + c - 1) * 128 + low / 128 * 32768

def lowBytes (xs : List Nat) : List Byte := xs.map fun x => BitVec.ofNat 8 (lowPart x)

/-- Numbers below 16 as `n` bytes, two in each, the first in the low half. -/
def nibbles (n : Nat) (cs : List Nat) : List Byte :=
  (chunks 2 n cs).map fun p => BitVec.ofNat 8 (listGet 0 p 0 + 16 * listGet 0 p 1)

def rawBytes (xs : List Nat) : List Byte := (xs.map (leBytes 2)).flatten

theorem packGroup_eq (xs : List Nat) : packGroup xs =
    if groupFits xs then
      (groupHead 1#8 xs ++ lowBytes xs ++ nibbles 1024 (xs.map (expPart (groupBase xs))), false)
    else (groupHead 0#8 xs ++ rawBytes xs, true) := rfl

theorem packGroup_coded_iff (xs : List Nat) : (packGroup xs).2 = false ↔ groupFits xs = true := by
  rw [packGroup_eq]
  split <;> simp [*]

theorem unpackGroup_coded (xs : List Nat) (body : List Byte) : unpackGroup (groupHead 1#8 xs ++ body) =
    ((List.range 2048).map fun i => joinCode (BitVec.ofNat 8 (groupBase xs)).toNat (listGet 0 body i).toNat
      (bitsOf (listGet 0 (body.drop 2048) (i / 2)).toNat (4 * (i % 2)) 4), body.drop 3072) := rfl

theorem unpackGroup_raw (xs : List Nat) (body : List Byte) : unpackGroup (groupHead 0#8 xs ++ body) =
    ((List.range 2048).map fun i => leNat ((body.drop (2 * i)).take 2), body.drop 4096) := rfl

/-! ### The base and the range of exponents -/

theorem mem_groupExps {xs : List Nat} {e : Nat} : e ∈ groupExps xs ↔ (∃ x ∈ xs, bitsOf x 7 8 = e) ∧ e ≠ 0 := by
  simp [groupExps]

theorem expField_le (x : Nat) : bitsOf x 7 8 ≤ 255 := Nat.le_of_lt_succ (Nat.mod_lt _ (by decide))

/-- The base is the least non-zero exponent field. -/
theorem groupBase_isLeast {xs : List Nat} {e : Nat} (he : e ∈ groupExps xs) :
    groupBase xs ∈ groupExps xs ∧ groupBase xs ≤ e := by
  have hfold : groupBase xs = (groupExps xs).foldl Nat.min 255 := if_neg (by simp [List.ne_nil_of_mem he])
  have hmin : (255 :: groupExps xs).min? = some (groupBase xs) := congrArg some hfold.symm
  obtain ⟨hmem, hle⟩ := List.min?_eq_some_iff.mp hmin
  have hbe : groupBase xs ≤ e := hle e (List.mem_cons_of_mem _ he)
  refine ⟨?_, hbe⟩
  obtain htop | hmem := List.mem_cons.mp hmem
  · obtain ⟨⟨x, -, hx⟩, -⟩ := mem_groupExps.mp he
    have hle255 : e ≤ 255 := hx ▸ expField_le x
    rwa [show groupBase xs = e by omega]
  · exact hmem

theorem groupBase_le_expField {xs : List Nat} {x : Nat} (hx : x ∈ xs) :
    bitsOf x 7 8 = 0 ∨ groupBase xs ≤ bitsOf x 7 8 := by
  by_cases h0 : bitsOf x 7 8 = 0
  · exact .inl h0
  · exact .inr (groupBase_isLeast (mem_groupExps.mpr ⟨⟨x, hx, rfl⟩, h0⟩)).2

/-- The base fills one byte of the header. -/
theorem groupBase_lt (xs : List Nat) : groupBase xs < 256 := by
  cases h : groupExps xs with
  | nil => simp [groupBase, h]
  | cons e es =>
    have he : e ∈ groupExps xs := by simp [h]
    obtain ⟨⟨x, -, hx⟩, -⟩ := mem_groupExps.mp he
    have hbe : groupBase xs ≤ e := (groupBase_isLeast he).2
    have hle255 : e ≤ 255 := hx ▸ expField_le x
    omega

theorem groupFits_iff_exps (xs : List Nat) :
    groupFits xs = true ↔ ∀ e ∈ groupExps xs, e ≤ groupBase xs + 14 ∧ e ≠ 255 := by
  simp [groupFits]

/-- A group is coded exactly when no exponent field is 255 and the non-zero ones span at most 15 values (R186). -/
theorem groupFits_iff (xs : List Nat) : groupFits xs = true ↔
    ∀ x ∈ xs, bitsOf x 7 8 ≠ 255 ∧
      (bitsOf x 7 8 = 0 ∨ ∀ y ∈ xs, bitsOf y 7 8 = 0 ∨ bitsOf x 7 8 ≤ bitsOf y 7 8 + 14) := by
  rw [groupFits_iff_exps]
  constructor
  · intro h x hx
    by_cases h0 : bitsOf x 7 8 = 0
    · exact ⟨by omega, .inl h0⟩
    obtain ⟨hspan, htop⟩ := h _ (mem_groupExps.mpr ⟨⟨x, hx, rfl⟩, h0⟩)
    refine ⟨htop, .inr fun y hy => ?_⟩
    have hy := groupBase_le_expField hy
    omega
  · intro h e he
    obtain ⟨⟨x, hx, rfl⟩, h0⟩ := mem_groupExps.mp he
    obtain ⟨⟨y, hy, hyb⟩, hy0⟩ := mem_groupExps.mp (groupBase_isLeast he).1
    obtain ⟨htop, hspan⟩ := h x hx
    have hxy := (hspan.resolve_left h0 y hy).resolve_left (hyb ▸ hy0)
    exact ⟨hyb ▸ hxy, htop⟩

theorem expPart_lt {xs : List Nat} (hfits : groupFits xs = true) {x : Nat} (hx : x ∈ xs) :
    expPart (groupBase xs) x < 16 := by
  unfold expPart
  split
  · decide
  · next h0 =>
    have hspan := ((groupFits_iff_exps xs).mp hfits _ (mem_groupExps.mpr ⟨⟨x, hx, rfl⟩, h0⟩)).1
    omega

/-! ### Codes and their parts -/

theorem bitsOf_eq (w lo len : Nat) : bitsOf w lo len = w / 2 ^ lo % 2 ^ len := by
  rw [bitsOf, Nat.shiftRight_eq_div_pow]

theorem lowPart_lt (x : Nat) : lowPart x < 256 := by
  simp only [lowPart, bitsOf_eq]
  omega

/-- The parts of a code whose exponent field is 0 or not below the base give the code. -/
theorem joinCode_parts {b x : Nat} (hx : x < 65536) (hb : bitsOf x 7 8 = 0 ∨ b ≤ bitsOf x 7 8) :
    joinCode b (lowPart x) (expPart b x) = x := by
  have hexp : (if expPart b x = 0 then 0 else b + expPart b x - 1) = bitsOf x 7 8 := by
    unfold expPart
    split <;> split <;> omega
  rw [joinCode, hexp]
  simp only [lowPart, bitsOf_eq]
  omega

theorem leNat_leBytes_two {x : Nat} (hx : x < 65536) : leNat (leBytes 2 x) = x := by
  simp only [leBytes, leNat, BitVec.toNat_ofNat]
  omega

/-! ### Reading the parts of a packed group -/

theorem listGet_of_lt {α : Type} (d : α) {l : List α} {i : Nat} (h : i < l.length) : listGet d l i = l[i] := by
  induction l generalizing i with
  | nil => exact absurd h (Nat.not_lt_zero i)
  | cons a l ih =>
    cases i with
    | zero => rfl
    | succ i => exact ih (Nat.lt_of_succ_lt_succ h)

theorem listGet_append_left {α : Type} (d : α) {l : List α} (m : List α) {i : Nat} (h : i < l.length) :
    listGet d (l ++ m) i = listGet d l i := by
  rw [listGet_of_lt d h, listGet_of_lt d (by rw [List.length_append]; omega), List.getElem_append_left h]

@[simp] theorem lowBytes_length (xs : List Nat) : (lowBytes xs).length = xs.length := List.length_map _

theorem listGet_lowBytes {xs : List Nat} {i : Nat} (h : i < xs.length) :
    (listGet 0 (lowBytes xs) i).toNat = lowPart xs[i] := by
  rw [listGet_of_lt 0 (by simpa using h)]
  simp only [lowBytes, List.getElem_map, BitVec.toNat_ofNat]
  exact Nat.mod_eq_of_lt (lowPart_lt _)

@[simp] theorem rawBytes_length (xs : List Nat) : (rawBytes xs).length = 2 * xs.length := by
  induction xs with
  | nil => rfl
  | cons x xs ih =>
    rw [List.length_cons, Nat.mul_succ, ← ih]
    rfl

/-- A raw code is read from its own two bytes. -/
theorem leNat_rawBytes {xs : List Nat} (hxs : ∀ x ∈ xs, x < 65536) (rest : List Byte) {i : Nat} (hi : i < xs.length) :
    leNat (((rawBytes xs ++ rest).drop (2 * i)).take 2) = xs[i] := by
  induction xs generalizing i with
  | nil => exact absurd hi (Nat.not_lt_zero i)
  | cons x xs ih =>
    obtain ⟨hx, hxs⟩ := List.forall_mem_cons.mp hxs
    cases i with
    | zero => exact leNat_leBytes_two hx
    | succ i => exact ih hxs (Nat.lt_of_succ_lt_succ hi)

theorem nibbles_cons (n c d : Nat) (cs : List Nat) :
    nibbles (n + 1) (c :: d :: cs) = BitVec.ofNat 8 (c + 16 * d) :: nibbles n cs := rfl

/-- Pairs of numbers are a list of even length. -/
theorem exists_cons_cons_of_length {n : Nat} {cs : List Nat} (h : cs.length = 2 * (n + 1)) :
    ∃ c d ds, cs = c :: d :: ds ∧ ds.length = 2 * n := by
  match cs, h with
  | c :: d :: ds, h => exact ⟨c, d, ds, rfl, by simp only [List.length_cons] at h; omega⟩

theorem nibbles_length {n : Nat} {cs : List Nat} (h : cs.length = 2 * n) : (nibbles n cs).length = n := by
  induction n generalizing cs with
  | zero => rfl
  | succ n ih =>
    obtain ⟨c, d, ds, rfl, hds⟩ := exists_cons_cons_of_length h
    rw [nibbles_cons, List.length_cons, ih hds]

/-- Each number is read from its own half of its byte. -/
theorem bitsOf_nibbles {n : Nat} {cs : List Nat} (hlen : cs.length = 2 * n) (hcs : ∀ c ∈ cs, c < 16) {i : Nat}
    (hi : i < cs.length) : bitsOf (listGet 0 (nibbles n cs) (i / 2)).toNat (4 * (i % 2)) 4 = cs[i] := by
  induction n generalizing cs i with
  | zero => omega
  | succ n ih =>
    obtain ⟨c, d, ds, rfl, hds⟩ := exists_cons_cons_of_length hlen
    obtain ⟨hc, hcs⟩ := List.forall_mem_cons.mp hcs
    obtain ⟨hd, hcs⟩ := List.forall_mem_cons.mp hcs
    rw [nibbles_cons]
    match i with
    | 0 =>
      show bitsOf (BitVec.ofNat 8 (c + 16 * d)).toNat 0 4 = c
      rw [bitsOf_eq, BitVec.toNat_ofNat]
      omega
    | 1 =>
      show bitsOf (BitVec.ofNat 8 (c + 16 * d)).toNat 4 4 = d
      rw [bitsOf_eq, BitVec.toNat_ofNat]
      omega
    | i + 2 =>
      rw [show (i + 2) / 2 = i / 2 + 1 by omega, Nat.add_mod_right]
      exact ih hds hcs (Nat.lt_of_succ_lt_succ (Nat.lt_of_succ_lt_succ hi))

/-! ### Unpacking a packed group -/

/-- A list that is built position by position is the list that has those elements. -/
theorem map_range_eq {xs : List Nat} {n : Nat} {f : Nat → Nat} (hn : xs.length = n)
    (hf : ∀ i (h : i < xs.length), f i = xs[i]) : (List.range n).map f = xs :=
  List.ext_getElem (by simp [hn]) fun i _ h => by simpa using hf i h

theorem unpackGroup_packed_coded {xs : List Nat} (rest : List Byte) (hlen : xs.length = 2048)
    (hxs : ∀ x ∈ xs, x < 65536) (hfits : groupFits xs = true) :
    unpackGroup (groupHead 1#8 xs ++ lowBytes xs ++ nibbles 1024 (xs.map (expPart (groupBase xs))) ++ rest) =
      (xs, rest) := by
  have hlow : (lowBytes xs).length = 2048 := (lowBytes_length xs).trans hlen
  have hcodes : (xs.map (expPart (groupBase xs))).length = 2 * 1024 := (List.length_map _).trans hlen
  have hnib : (nibbles 1024 (xs.map (expPart (groupBase xs)))).length = 1024 := nibbles_length hcodes
  have hfour : ∀ c ∈ xs.map (expPart (groupBase xs)), c < 16 := by
    simpa using fun x hx => expPart_lt hfits hx
  rw [List.append_assoc, List.append_assoc, unpackGroup_coded]
  rw [Prod.mk.injEq]
  refine ⟨map_range_eq hlen fun i hi => ?_, ?_⟩
  · rw [listGet_append_left 0 _ (by omega), listGet_lowBytes hi, List.drop_left' hlow,
      listGet_append_left 0 _ (by omega), bitsOf_nibbles hcodes hfour (by simpa using hi), List.getElem_map,
      BitVec.toNat_ofNat, Nat.mod_eq_of_lt (groupBase_lt xs)]
    exact joinCode_parts (hxs _ (List.getElem_mem hi)) (groupBase_le_expField (List.getElem_mem hi))
  · rw [← List.append_assoc]
    exact List.drop_left' (by rw [List.length_append, hlow, hnib])

theorem unpackGroup_packed_raw {xs : List Nat} (rest : List Byte) (hlen : xs.length = 2048)
    (hxs : ∀ x ∈ xs, x < 65536) : unpackGroup (groupHead 0#8 xs ++ rawBytes xs ++ rest) = (xs, rest) := by
  rw [List.append_assoc, unpackGroup_raw, Prod.mk.injEq]
  exact ⟨map_range_eq hlen fun i hi => leNat_rawBytes hxs rest hi, List.drop_left' (by rw [rawBytes_length, hlen])⟩

theorem unpackGroup_packGroup {xs : List Nat} (rest : List Byte) (hlen : xs.length = 2048)
    (hxs : ∀ x ∈ xs, x < 65536) : unpackGroup ((packGroup xs).1 ++ rest) = (xs, rest) := by
  rw [packGroup_eq]
  by_cases hfits : groupFits xs = true
  · rw [if_pos hfits]
    exact unpackGroup_packed_coded rest hlen hxs hfits
  · rw [if_neg hfits]
    exact unpackGroup_packed_raw rest hlen hxs

/-- Settles O45: both forms of a packed group give its codes back, and the coded form is that of a group whose
exponents fit. -/
theorem losslessGroupsRoundTrip : Obligations.LosslessGroupsRoundTrip := by
  unfold Obligations.LosslessGroupsRoundTrip
  exact fun xs rest hlen hxs =>
    ⟨unpackGroup_packGroup rest hlen hxs, (packGroup_coded_iff xs).trans (groupFits_iff xs)⟩

end Sys2Proof.Proofs
end

