-- ==== Sys2Proof/Proofs/MovesAndRows.lean ====
section
/-! Moves that complete or wait for their acknowledgements, and row-unit commands that complete, where no word of memory
shows an uncorrected error (06, 09). -/

namespace Sys2Proof.Proofs

open Sys2Proof Sys2Proof.Machine Sys2Proof.Laws

/-- With no erroneous word in memory, a started command's effect runs. -/
theorem reading_start_of_clean {u : State} (hclean : u.Clean) (it : Issue) (cost cycles : Nat)
    (reads writes : List (Nat × Nat)) (k : State → State) :
    (u.start it cost cycles).reading it reads writes k = k (u.start it cost cycles) :=
  reading_clean _ _ _ _ _ (start_clean hclean _ _)

/-- A command that starts at once on an idle engine answers the state in which its row's effect ends. -/
theorem exec_engineRow_of_run_eq {i : Instr} {r : EngineRow} {it : Issue} {s t : State} (hrow : engineRow i = some r)
    (hl : s.Launches r.core r.kinds r.ok r.can it) (hrun : r.run (s.leave it) it = t) : exec i s = .next t :=
  (engineRow_launches hrow hl).trans (congrArg Host.Outcome.next hrun)

/-! ### Moves (R181, R183, R185, R186, R352) -/

/-- The state in which a move has started. -/
abbrev moveStarted (u : State) (it : Issue) : State := u.start it (moveCost it.w) (moveCost it.w)

section
variable {u : State} {it : Issue} (hclean : u.Clean)
include hclean

theorem runMove_local (hnear : isRemote (mvDst it.w) = false) :
    u.runMove it = (((if skewOf (mvDst it.w) = 0 then (moveStarted u it).copyRows it
      else (moveStarted u it).copySkewed it).countHostRead it).finish it) := by
  rw [State.runMove, reading_start_of_clean hclean]
  exact if_neg (ne_true_of_eq_false hnear)

theorem runMove_remote (hfar : isRemote (mvDst it.w) = true) :
    u.runMove it = ((moveStarted u it).countHostRead it).sendMove it := by
  rw [State.runMove, reading_start_of_clean hclean]
  exact if_pos hfar

/-- A move through the Turntable, no block of which meets a second detected error, has its effect. -/
theorem runTurntable_completes (eff : State → Issue → State) (honce : ((moveStarted u it).ttMet it).any (·.2) = false) :
    u.runTurntable eff it = ((eff ((moveStarted u it).loadTt it) it).count Od.TT_BLOCKS (ttBlocks it.w)).finish it := by
  rw [State.runTurntable, reading_start_of_clean hclean]
  exact if_neg (ne_true_of_eq_false honce)

theorem runSpill_completes : u.runSpill it =
    ((((((moveStarted u it).loadSiding it).spillSlot it).1.count Od.SIDING_RAW_BYTES
      ((srcRows it.w).n * (srcRows it.w).bytes)).count Od.SIDING_STORED_BYTES
      (((moveStarted u it).loadSiding it).spillSlot it).2).finish it) := by
  rw [State.runSpill, reading_start_of_clean hclean]

theorem runFill_completes : u.runFill it = (((moveStarted u it).loadSiding it).fillSlot it).finish it := by
  have hstart : (moveStarted u it).Clean := start_clean hclean _ _
  have hslot : (((moveStarted u it).moveReads it).map fun r => badIn (moveStarted u it).eccBad r.1 r.2).flatten = [] :=
    flatten_nil_of _ _ fun r => badIn_of_clean hstart r.1 r.2
  rw [State.runFill]
  dsimp only
  rw [hslot, reading_start_of_clean hclean]

end

/-- Settles O10: each of the five rows is a row of the move engine, whose effect runs where memory shows no error. -/
theorem moveRunsAndSignals : Obligations.MoveRunsAndSignals := by
  unfold Obligations.MoveRunsAndSignals
  refine ⟨?near, ?far, ?transpose, ?requant, ?spill, ?fill⟩
  case near =>
    rintro c it s _ hl rfl hclean hnear
    exact exec_engineRow_of_run_eq rfl hl (runMove_local hclean hnear)
  case far =>
    rintro c it s _ hl rfl hclean hfar
    exact exec_engineRow_of_run_eq rfl hl (runMove_remote hclean hfar)
  case transpose | requant =>
    rintro c it s _ hl rfl hclean honce
    exact exec_engineRow_of_run_eq rfl hl (runTurntable_completes hclean _ honce)
  case spill =>
    rintro c it s _ hl rfl hclean
    exact exec_engineRow_of_run_eq rfl hl (runSpill_completes hclean)
  case fill =>
    rintro c it s _ hl rfl hclean
    exact exec_engineRow_of_run_eq rfl hl (runFill_completes hclean)

/-! ### Row-unit commands (R191 to R197) -/

/-- A row-unit command carries out its operation on rows 0, 1, ... in turn, and completes. -/
theorem runRow_completes {u : State} (hclean : u.Clean) (row : State → Issue → RowConst → Nat → State) (it : Issue) :
    u.runRow row it =
      (rowEffect row (u.start it (rowCost it.w) (rowCost it.w)) it (u.rowConst it)).finish it := by
  rw [State.runRow, reading_start_of_clean hclean]

theorem exec_unitRow_completes {i : Instr} {c : Nat} {kinds : List CmdKind}
    {row : State → Issue → RowConst → Nat → State} {it : Issue} {s : State}
    (hrow : engineRow i = some (unitRowOf c kinds row)) (hl : s.Launches c kinds State.rowOk (fun _ _ => true) it)
    (hclean : (s.leave it).Clean) :
    exec i s = .next ((rowEffect row ((s.leave it).start it (rowCost it.w) (rowCost it.w)) it
      ((s.leave it).rowConst it)).finish it) :=
  exec_engineRow_of_run_eq hrow hl (runRow_completes hclean row it)

/-- Settles O11: each of the eight rows is a row of the row unit. -/
theorem rowCommandRunsRowByRow : Obligations.RowCommandRunsRowByRow := by
  unfold Obligations.RowCommandRunsRowByRow
  refine ⟨?normForward, ?normBackward, ?attentionStatistics, ?attentionBackward, ?dropout, ?rowsum, ?hiddenGradientSum,
    ?gainAccumulation⟩
  case normForward | normBackward | attentionStatistics | attentionBackward | dropout | rowsum | hiddenGradientSum |
      gainAccumulation =>
    rintro c it s _ hl rfl hclean
    exact exec_unitRow_completes rfl hl hclean

end Sys2Proof.Proofs
end

