-- ==== Sys2Proof/Proofs/LossSpike.lean ====
section
/-! The loss-spike detector of one step (07, R221, R222). -/

namespace Sys2Proof.Proofs

open Sys2Proof Sys2Proof.Machine Sys2Proof.Laws

/-! ### The step loss -/

/-- The loss of the step: the loss sum divided by the rows. -/
abbrev stepLoss (s : State) : W32 := fdiv s.job.lossSum (fofNat s.job.lossRows)

/-- The step loss stands, and the loss sum and the rows are cleared. -/
abbrev lossTaken (s : State) : State :=
  { s with job := { s.job with lossSum := 0, lossRows := 0 } }.setOd Od.LAST_STEP_LOSS (stepLoss s).toNat

/-- The loss above which a step is a spike (R222). -/
abbrev spikeThreshold (s : State) : W32 :=
  ffma (BitVec.ofNat 32 (s.odv Od.SPIKE_K)) (fsqrt s.job.spikeVar) s.job.spikeMean

/-- The step loss less the mean. -/
abbrev lossExcess (s : State) : W32 := fsub (stepLoss s) s.job.spikeMean

/-- The mean that a loss which is no spike advances to. -/
abbrev advancedMean (s : State) : W32 :=
  ffma (BitVec.ofNat 32 (s.odv Od.SPIKE_ALPHA)) (lossExcess s) s.job.spikeMean

/-- The variance that a loss which is no spike advances to. -/
abbrev advancedVar (s : State) : W32 :=
  fmul (ffma (fmul (BitVec.ofNat 32 (s.odv Od.SPIKE_ALPHA)) (lossExcess s)) (lossExcess s) s.job.spikeVar)
    (fsub oneW (BitVec.ofNat 32 (s.odv Od.SPIKE_ALPHA)))

theorem odv_lossTaken_other (s : State) {k : Nat} (h : k ≠ Od.LAST_STEP_LOSS) : (lossTaken s).odv k = s.odv k :=
  odv_setOd_other _ _ _ _ h

@[simp] theorem odv_lossTaken_loss (s : State) : (lossTaken s).odv Od.LAST_STEP_LOSS = (stepLoss s).toNat :=
  odv_setOd_self _ _ _

/-! ### What the detector leaves -/

/-- The step loss stands, and the statistics are those given and shown. -/
def statisticsSet (s : State) (mean var : W32) (n : Nat) : State :=
  let j := { (lossTaken s).job with spikeMean := mean, spikeVar := var, spikeN := n }
  ({ lossTaken s with job := j }.setOd Od.SPIKE_MEAN mean.toNat).setOd Od.SPIKE_SD (fsqrt var).toNat

/-- What the changed statistics show, and all that the detector then leaves alone. -/
theorem statisticsSet_shows (s : State) (mean var : W32) (n : Nat) :
    (statisticsSet s mean var n).job =
      { s.job with lossSum := 0, lossRows := 0, spikeMean := mean, spikeVar := var, spikeN := n } ∧
    (statisticsSet s mean var n).odv Od.LAST_STEP_LOSS = (stepLoss s).toNat ∧
    (statisticsSet s mean var n).odv Od.SPIKE_MEAN = mean.toNat ∧
    (statisticsSet s mean var n).odv Od.SPIKE_SD = (fsqrt var).toNat ∧
    (statisticsSet s mean var n).stats = s.stats ∧ (statisticsSet s mean var n).mem = s.mem ∧
    (statisticsSet s mean var n).hostMem = s.hostMem ∧ (statisticsSet s mean var n).cores = s.cores := by
  refine ⟨rfl, ?loss, ?mean, odv_setOd_self _ _ _, rfl, rfl, rfl, rfl⟩
  case loss =>
    rw [statisticsSet, odv_setOd_other _ _ _ _ (by decide), odv_setOd_other _ _ _ _ (by decide)]
    exact odv_lossTaken_loss s
  case mean => rw [statisticsSet, odv_setOd_other _ _ _ _ (by decide), odv_setOd_self]

/-- The step is counted and recorded as a spike. -/
def spikeRecorded (s : State) : State :=
  ((lossTaken s).count Od.LOSS_SPIKES 1).setOd Od.LAST_SPIKE_STEP ((lossTaken s).odv Od.JOB_STEP)

/-- A recorded spike, which sets the detector when SPIKE_ACTION is SKIP. -/
def spikeTaken (s : State) : State :=
  { spikeRecorded s with
    job := { (spikeRecorded s).job with spike := s.job.spike || s.odv Od.SPIKE_ACTION = 1 } }

theorem counted_count_self (s : State) (k n : Nat) : (s.count k n).counted k = s.counted k + n := by
  rw [State.counted, count_stats, tabMod, tabGet_tabSet_self, State.counted]

theorem counted_spikeTaken (s : State) : (spikeTaken s).counted Od.LOSS_SPIKES = s.counted Od.LOSS_SPIKES + 1 :=
  counted_count_self (lossTaken s) _ _

theorem odv_spikeTaken_step (s : State) : (spikeTaken s).odv Od.LAST_SPIKE_STEP = s.odv Od.JOB_STEP :=
  (odv_setOd_self _ _ _).trans (odv_lossTaken_other s (by decide))

theorem odv_spikeTaken_loss (s : State) : (spikeTaken s).odv Od.LAST_STEP_LOSS = (stepLoss s).toNat :=
  (odv_setOd_other _ _ _ _ (by decide)).trans (odv_lossTaken_loss s)

/-- Where SPIKE_ACTION is not SKIP, the detector stays as it was. -/
theorem spikeTaken_eq (s : State) : spikeTaken s =
    if (spikeRecorded s).odv Od.SPIKE_ACTION = 1 then
      { spikeRecorded s with job := { (spikeRecorded s).job with spike := true } }
    else spikeRecorded s := by
  have hkept : (spikeRecorded s).odv Od.SPIKE_ACTION = s.odv Od.SPIKE_ACTION :=
    (odv_setOd_other _ _ _ _ (by decide)).trans (odv_lossTaken_other s (by decide))
  rw [hkept, spikeTaken]
  by_cases hact : s.odv Od.SPIKE_ACTION = 1
  · rw [if_pos hact, decide_eq_true hact, Bool.or_true]
  · rw [if_neg hact, decide_eq_false hact, Bool.or_false]
    rfl

/-- The loss is judged a spike: past the warm-up, and above the threshold. -/
def isSpike (s : State) : Bool := s.odv Od.SPIKE_WARMUP ≤ s.job.spikeN && fgt (stepLoss s) (spikeThreshold s)

theorem isSpike_of_above {s : State} (hw : s.odv Od.SPIKE_WARMUP ≤ s.job.spikeN)
    (hgt : fgt (stepLoss s) (spikeThreshold s) = true) : isSpike s = true := by
  rw [isSpike, decide_eq_true hw, hgt, Bool.and_self]

theorem isSpike_eq_false {s : State}
    (h : s.job.spikeN < s.odv Od.SPIKE_WARMUP ∨ fgt (stepLoss s) (spikeThreshold s) = false) : isSpike s = false := by
  obtain hw | hle := h
  · rw [isSpike, decide_eq_false (Nat.not_le.mpr hw), Bool.false_and]
  · rw [isSpike, hle, Bool.and_false]

/-- The judgement reads the parameters where the step loss already stands. -/
theorem judged_after_loss (s : State) :
    (decide ((lossTaken s).odv Od.SPIKE_WARMUP ≤ s.job.spikeN) && fgt (stepLoss s)
      (ffma (BitVec.ofNat 32 ((lossTaken s).odv Od.SPIKE_K)) (fsqrt s.job.spikeVar) s.job.spikeMean)) = isSpike s := by
  rw [odv_lossTaken_other s (by decide), odv_lossTaken_other s (by decide), isSpike]

/-! ### LOSS_SPIKE_DETECT -/

theorem exec_lossSpikeDetect_unarmed {s : State} (ha : s.job.active = false) : exec .lossSpikeDetect s = .next s :=
  within_next_of_eq (o := "") rfl (if_pos (by rw [ha, Bool.not_false]))

theorem armed_runs {s : State} (ha : s.job.active = true) : ¬ (!s.job.active) = true := by simp [ha]

theorem loss_stands {s : State} (hf : fisFin (stepLoss s) = true) (hr : s.job.lossRows ≠ 0) :
    ¬ (!fisFin (stepLoss s) || decide (s.job.lossRows = 0)) = true := by simp [hf, hr]

section
variable {s : State} (ha : s.job.active = true)
include ha

/-- A loss that is not finite, or a step without rows, leaves the statistics. -/
theorem exec_lossSpikeDetect_without_loss (h : fisFin (stepLoss s) = false ∨ s.job.lossRows = 0) :
    exec .lossSpikeDetect s = .next (lossTaken s) := by
  have hnone : (!fisFin (stepLoss s) || decide (s.job.lossRows = 0)) = true := by
    obtain h | h := h <;> simp [h]
  exact within_next_of_eq (o := "") rfl ((if_neg (armed_runs ha)).trans (if_pos hnone))

variable (hf : fisFin (stepLoss s) = true) (hr : s.job.lossRows ≠ 0)
include hf hr

theorem exec_lossSpikeDetect_first (hn : s.job.spikeN = 0) :
    exec .lossSpikeDetect s = .next (statisticsSet s (stepLoss s) 0 1) :=
  within_next_of_eq (o := "") rfl ((if_neg (armed_runs ha)).trans ((if_neg (loss_stands hf hr)).trans (if_pos hn)))

variable (hn : s.job.spikeN ≠ 0)
include hn

theorem exec_lossSpikeDetect_spike (h : isSpike s = true) : exec .lossSpikeDetect s = .next (spikeTaken s) := by
  rw [spikeTaken_eq]
  exact within_next_of_eq (o := "") rfl ((if_neg (armed_runs ha)).trans ((if_neg (loss_stands hf hr)).trans
    ((if_neg hn).trans (if_pos ((judged_after_loss s).trans h)))))

theorem exec_lossSpikeDetect_advances (h : isSpike s = false) :
    exec .lossSpikeDetect s =
      .next (statisticsSet s (advancedMean s) (advancedVar s) (Nat.min (s.job.spikeN + 1) (2 ^ 32 - 1))) := by
  have hjudged := ne_true_of_eq_false ((judged_after_loss s).trans h)
  have halpha : (lossTaken s).odv Od.SPIKE_ALPHA = s.odv Od.SPIKE_ALPHA := odv_lossTaken_other s (by decide)
  rw [advancedMean, advancedVar, ← halpha]
  exact within_next_of_eq (o := "") rfl ((if_neg (armed_runs ha)).trans ((if_neg (loss_stands hf hr)).trans
    ((if_neg hn).trans (if_neg hjudged))))

end

/-- Settles O18, from one equation of LOSS_SPIKE_DETECT per course that the detector can take. -/
theorem lossSpikeDetectorFollowsTheLoss : Obligations.LossSpikeDetectorFollowsTheLoss := by
  unfold Obligations.LossSpikeDetectorFollowsTheLoss
  refine ⟨?unarmed, ?withoutLoss, ?first, ?spike, ?advances⟩
  case unarmed => exact fun s ha => exec_lossSpikeDetect_unarmed ha
  case withoutLoss => exact fun s ha h => exec_lossSpikeDetect_without_loss ha h
  case first =>
    exact fun s ha hf hr hn => ⟨_, exec_lossSpikeDetect_first ha hf hr hn, statisticsSet_shows s _ _ _⟩
  case spike =>
    exact fun s ha hf hr hn hw hgt =>
      ⟨_, exec_lossSpikeDetect_spike ha hf hr hn (isSpike_of_above hw hgt), rfl, odv_spikeTaken_loss s,
        counted_spikeTaken s, odv_spikeTaken_step s, rfl, rfl, rfl⟩
  case advances =>
    exact fun s ha hf hr hn h =>
      ⟨_, exec_lossSpikeDetect_advances ha hf hr hn (isSpike_eq_false h), statisticsSet_shows s _ _ _⟩

end Sys2Proof.Proofs
end

