-- ==== Sys2Proof/Proofs/RoundhouseUpdate.lean ====
section
/-! The Roundhouse events: the read-back of a staged bucket, detected errors in the update, DIGEST passes, and the end of
an update with its snapshot or copy pass (07, 16). -/

namespace Sys2Proof.Proofs

open Sys2Proof Sys2Proof.Machine Sys2Proof.Laws

/-! ### What counts of conversions leave alone (R127, R221) -/

/-- The state with other statistics and another record of the non-finite gradient values met. -/
def withGradCounts (s : State) (stats : Tab Nat) (nonfinite : Bool) (step : Option Nat) : State :=
  { s with stats := stats, job := { s.job with nonfinite := nonfinite, nonfStep := step } }

theorem gradNonfinite_eq (s : State) : ∃ st nf step, s.gradNonfinite = withGradCounts s st nf step := by
  by_cases ha : s.job.active = true
  · by_cases hstep : s.job.nonfStep = some (s.odv Od.JOB_STEP)
    · exact ⟨_, _, _, (if_neg (armed_runs ha)).trans (if_pos hstep)⟩
    · exact ⟨_, _, _, (if_neg (armed_runs ha)).trans (if_neg hstep)⟩
  · exact ⟨_, _, _, if_pos (by simp [ha])⟩

/-- Counts that enter the statistics change those and the record of non-finite gradient values, and nothing else. -/
theorem commit_eq (s : State) (t : Tally) : ∃ st nf step, s.commit t = withGradCounts s st nf step := by
  induction t generalizing s with
  | nil => exact ⟨_, _, _, rfl⟩
  | cons e t ih =>
    rw [State.commit, List.foldl_cons]
    dsimp only
    split
    · obtain ⟨st, nf, step, h⟩ := gradNonfinite_eq (s.count (Od.NUM_COUNT + 256 * (e.1 / 32) + e.1 % 32) e.2)
      rw [h]
      exact ih _
    · exact ih (s.count (Od.NUM_COUNT + 256 * (e.1 / 32) + e.1 % 32) e.2)

/-! ### ROUNDHOUSE_NORM_PASS (R218, R220, R223) -/

/-- The bucket is normed, and its block partials stand. -/
def bucketNormed (s : State) (b : Nat) (partials : Tab Nat) : State :=
  { s with red := { s.red with normed := b :: s.red.normed }, job := { s.job with partials := partials } }

/-- N2 stands, with the place of the package in the chain; a non-finite N2 sets the detector. -/
def normSummed (s : State) (img : Image) (before after : List W64) : State :=
  let n2 := s.sumSquares img before after
  { s with job := { s.job with n2 := n2, chainPos := before.length, nonfinite := s.job.nonfinite || !(ofD n2).isFin } }

/-- With the last bucket of the exchange N2 stands. -/
def normEnded (s : State) (img : Image) (before after : List W64) (r : Nat) : State :=
  if s.red.normed.length < rdBuckets r then s else normSummed s img before after

theorem sumSquares_normSummed (s : State) (img : Image) (before after : List W64) :
    (normSummed s img before after).sumSquares img before after = s.sumSquares img before after := rfl

/-- The bucket can be normed: it is staged, in an active exchange, and has not been. -/
theorem normBucket_due {s : State} {b : Nat} (ha : s.red.active = true) (hs : b ∈ s.red.staged)
    (hn : b ∉ s.red.normed) : ¬ (!s.red.active || !s.red.staged.contains b || s.red.normed.contains b) = true := by
  simp [ha, hs, hn]

/-- Norming a bucket that is due, where no word of memory shows an error, adds it to those normed with its partials and
its counts; with the last bucket N2 stands. -/
theorem normBucket_eq {s : State} {b : Nat} {img : Image} (before after : List W64) (hi : s.jobImage = some img)
    (ha : s.red.active = true) (hs : b ∈ s.red.staged) (hn : b ∉ s.red.normed) (hclean : s.Clean) :
    ∃ partials n, s.normBucket b before after =
      normEnded ((bucketNormed s b partials).commit (Tally.add [] 5 5 3 n)) img before after s.redDesc := by
  rw [State.normBucket, hi]
  dsimp only
  rw [if_neg (normBucket_due ha hs hn), badIn_of_clean hclean, badIn_of_clean hclean]
  exact ⟨_, _, rfl⟩

/-- What norming a bucket that is due leaves. -/
theorem normBucket_spec {s : State} {b : Nat} {img : Image} (before after : List W64) (hi : s.jobImage = some img)
    (ha : s.red.active = true) (hs : b ∈ s.red.staged) (hn : b ∉ s.red.normed) (hclean : s.Clean) :
    (s.normBucket b before after).red.normed = b :: s.red.normed ∧ (s.normBucket b before after).mem = s.mem ∧
    (s.normBucket b before after).red.staged = s.red.staged ∧
    (rdBuckets s.redDesc ≤ (s.normBucket b before after).red.normed.length →
      (s.normBucket b before after).job.n2 = (s.normBucket b before after).sumSquares img before after) := by
  obtain ⟨partials, n, h⟩ := normBucket_eq before after hi ha hs hn hclean
  obtain ⟨st, nf, step, hcommit⟩ := commit_eq (bucketNormed s b partials) (Tally.add [] 5 5 3 n)
  rw [h, hcommit, normEnded]
  by_cases hlast : (withGradCounts (bucketNormed s b partials) st nf step).red.normed.length < rdBuckets s.redDesc
  · rw [if_pos hlast]
    exact ⟨rfl, rfl, rfl, fun hall => absurd hlast (Nat.not_lt.mpr hall)⟩
  · rw [if_neg hlast]
    exact ⟨rfl, rfl, rfl, fun _ => (sumSquares_normSummed _ img before after).symm⟩

/-- A bucket that has been normed, or that is not staged, adds nothing. -/
theorem normBucket_not_due {s : State} {b : Nat} (before after : List W64)
    (h : b ∈ s.red.normed ∨ b ∉ s.red.staged) : s.normBucket b before after = s := by
  rw [State.normBucket]
  split
  · rfl
  · exact if_pos (by obtain h | h := h <;> simp [h])

theorem exec_roundhouseNormPass {b : Nat} (hb : b < 65536) (before after : List W64) (s : State) :
    exec (.roundhouseNormPass b before after) s =
      .next (if s.roundhousesRun then (s.normBucket b before after).regather else s) :=
  within_next _ _ (decide_eq_true hb)

theorem exec_roundhouseNormPass_runs {b : Nat} (hb : b < 65536) (before after : List W64) {s : State}
    (hrun : s.roundhousesRun = true) :
    exec (.roundhouseNormPass b before after) s = .next (s.normBucket b before after).regather := by
  rw [exec_roundhouseNormPass hb, if_pos hrun]

theorem exec_roundhouseNormPass_parked {b : Nat} (hb : b < 65536) (before after : List W64) {s : State}
    (hrun : s.roundhousesRun = false) : exec (.roundhouseNormPass b before after) s = .next s := by
  rw [exec_roundhouseNormPass hb, if_neg (ne_true_of_eq_false hrun)]

/-! ### ROUNDHOUSE_DETECTED_ERROR (R212, R237) -/

section
variable {edge group : Nat} {img : Image} {s : State} (he : edge < 8) (hi : s.jobImage = some img)
include he hi

/-- An error elsewhere than in a group that the update writes, at the Roundhouse of its element, does nothing. -/
theorem exec_roundhouseDetectedError_elsewhere
    (h : s.job.update ≠ 1 ∨ roundhouseOf (64 * group) ≠ edge ∨ s.updateGroup img group = false) :
    exec (.roundhouseDetectedError edge group) s = .next s := by
  refine within_next_of_eq (decide_eq_true he) ?_
  rw [hi]
  exact if_pos (by obtain h | h | h := h <;> simp [h])

variable (hu : s.job.update = 1) (hr : roundhouseOf (64 * group) = edge) (hg : s.updateGroup img group = true)
include hu hr hg

/-- An error in a group that the update writes: the group is recomputed once, and a second error faults the job. -/
theorem exec_roundhouseDetectedError_inUpdate :
    exec (.roundhouseDetectedError edge group) s =
      .next (if s.job.redone.contains group then
          s.faultJob { cause := 0x0405, island := 0x8000 + edge, platform := 0, detail := group % 2 ^ 16 }
        else { s with job := { s.job with redone := group :: s.job.redone } }.count Od.UPD_REPLAYS 1) := by
  refine within_next_of_eq (decide_eq_true he) ?_
  rw [hi]
  exact if_neg (by simp [hu, hr, hg])

theorem exec_roundhouseDetectedError_first (hd : group ∉ s.job.redone) :
    exec (.roundhouseDetectedError edge group) s =
      .next ({ s with job := { s.job with redone := group :: s.job.redone } }.count Od.UPD_REPLAYS 1) := by
  rw [exec_roundhouseDetectedError_inUpdate he hi hu hr hg, if_neg (by simp [hd])]

theorem exec_roundhouseDetectedError_second (hd : group ∈ s.job.redone) :
    exec (.roundhouseDetectedError edge group) s =
      .next (s.faultJob { cause := 0x0405, island := 0x8000 + edge, platform := 0, detail := group % 2 ^ 16 }) := by
  rw [exec_roundhouseDetectedError_inUpdate he hi hu hr hg, if_pos (by simp [hd])]

end

/-! ### UPD_DIGEST (R235, R238) -/

theorem exec_updDigest_readable {img : Image} {s : State} (hl : s.loaded = some img) (hr : s.stepRunning = false)
    (hd : s.digestErrors img = []) : exec (.updDigest 1) s = .next (s.digestPass img (s.odv Od.JOB_STEP)) := by
  refine within_next_of_eq (o := "value") rfl ?_
  rw [hl]
  refine (if_neg (by simp [hr])).trans ?_
  rw [hd]

/-! ### UPDATE_COMPLETE (R228, R546) and COPY_PASS (R545) -/

section
variable {us : Nat} {s : State} (ht : us < 2 ^ 32) (hu : s.job.update = 1) (hrun : s.roundhousesRun = true)
include ht hu hrun

theorem exec_updateComplete_nonfinite (hn : s.job.updNonfinite = true) :
    exec (.updateComplete us) s = .next (s.faultJob { cause := 0x0404, platform := 0 }) :=
  within_next_of_eq (decide_eq_true ht) ((if_neg (by simp [hu, hrun])).trans (if_pos hn))

variable {img : Image} (hn : s.job.updNonfinite = false) (hi : s.jobImage = some img)
include hn hi

/-- A completed update whose vote requested a snapshot takes it, and ends where its errors left the job armed. -/
theorem exec_updateComplete_snapshot {w : Nat} (hs : s.ckpt.snapshot = some w)
    (ha : (s.takeSnapshot img w us).job.active = true) :
    exec (.updateComplete us) s = .next (s.takeSnapshot img w us).endUpdate := by
  refine within_next_of_eq (decide_eq_true ht)
    ((if_neg (by simp [hu, hrun])).trans ((if_neg (ne_true_of_eq_false hn)).trans ?_))
  rw [hi, hs]
  exact if_pos ha

/-- A completed update without a snapshot waits for a copy pass that is due, and otherwise ends. -/
theorem exec_updateComplete_without_snapshot (hs : s.ckpt.snapshot = none) :
    exec (.updateComplete us) s =
      .next (if s.ckpt.copy.isSome then { s with job := { s.job with update := 2 } } else s.endUpdate) := by
  refine within_next_of_eq (decide_eq_true ht)
    ((if_neg (by simp [hu, hrun])).trans ((if_neg (ne_true_of_eq_false hn)).trans ?_))
  rw [hi, hs]

end

theorem exec_copyPass_ends {us w : Nat} {img : Image} {s : State} (ht : us < 2 ^ 32) (hi : s.jobImage = some img)
    (hc : s.ckpt.copy = some w) (hu : s.job.update = 2) (hrun : s.roundhousesRun = true)
    (ha : ((s.clearManifest (if s.ckpt.next then 1 else 0)).takeSnapshot img w us).job.active = true) :
    exec (.copyPass us) s =
      .next (((s.clearManifest (if s.ckpt.next then 1 else 0)).takeSnapshot img w us).count
        Od.CKPT_COPY_PASSES 1).endUpdate := by
  refine within_next_of_eq (decide_eq_true ht) ?_
  rw [hi, hc]
  exact (if_neg (by simp [hu, hrun])).trans (if_pos ha)

/-! ### The obligation -/

/-- Settles O19, from the spec lemma of each event above. -/
theorem roundhouseUpdatesAndSnapshots : Obligations.RoundhouseUpdatesAndSnapshots := by
  unfold Obligations.RoundhouseUpdatesAndSnapshots
  refine ⟨?normed, ?notDue, ?parked, ?firstError, ?secondError, ?otherError, ?digest, ?nonfinite, ?snapshot, ?ended,
    ?copyDue, ?copyPass⟩
  case normed =>
    rintro b before after img s _ hb hrun hi ha hs hn hclean rfl
    exact ⟨exec_roundhouseNormPass_runs hb before after hrun, normBucket_spec before after hi ha hs hn hclean⟩
  case notDue =>
    intro b before after img s hb hrun _ h
    rw [exec_roundhouseNormPass_runs hb before after hrun, normBucket_not_due before after h]
  case parked => exact fun b before after s hb hrun => exec_roundhouseNormPass_parked hb before after hrun
  case firstError =>
    exact fun edge group img s he hi hu hr hg hd => exec_roundhouseDetectedError_first he hi hu hr hg hd
  case secondError =>
    exact fun edge group img s he hi hu hr hg hd => exec_roundhouseDetectedError_second he hi hu hr hg hd
  case otherError => exact fun edge group img s he hi h => exec_roundhouseDetectedError_elsewhere he hi h
  case digest => exact fun img s hl hr hd => exec_updDigest_readable hl hr hd
  case nonfinite => exact fun us s ht hu hrun hn => exec_updateComplete_nonfinite ht hu hrun hn
  case snapshot =>
    exact fun us w img s ht hu hrun hn hi hs ha => exec_updateComplete_snapshot ht hu hrun hn hi hs ha
  case ended =>
    intro us img s ht hu hrun hn hi hs hc
    refine ⟨s.endUpdate, ?_, rfl, rfl, rfl, rfl, rfl, rfl⟩
    rw [exec_updateComplete_without_snapshot ht hu hrun hn hi hs, hc]
    rfl
  case copyDue =>
    intro us w img s ht hu hrun hn hi hs hc
    rw [exec_updateComplete_without_snapshot ht hu hrun hn hi hs, hc]
    rfl
  case copyPass => exact fun us w img s ht hi hc hu hrun ha => exec_copyPass_ends ht hi hc hu hrun ha

end Sys2Proof.Proofs
end

