-- ==== Sys2Proof/Proofs/Turns.lean ====
section
/-! What becomes of a command whose turn it is, and of one whose turn it is not: the course of the 34 Timetable rows, and
the refusal of a command at issue (08). -/

namespace Sys2Proof.Proofs

open Sys2Proof Sys2Proof.Machine Sys2Proof.Laws

/-! ### Every command is one effect within the ranges of its operands -/

theorem listGet_eq_getD {α : Type} (d : α) (l : List α) (n : Nat) : listGet d l n = l.getD n d := by
  induction l generalizing n with
  | nil => rfl
  | cons x l ih => cases n with
    | zero => rfl
    | succ n => exact ih n

theorem islandOk_eq_isIsland (i : Nat) : islandOk i = isIsland i := by
  rw [islandOk, listGet_eq_getD]
  rfl

theorem supplyOk_eq_wellFormed (x : Supply) : supplyOk x = x.wellFormed := by
  cases x with
  | rail n => rfl
  | regulator i => exact islandOk_eq_isIsland i

/-- A command's meaning is one effect, taken where its operands lie in their ranges; those named first have no operand
with a range. -/
theorem exec_eq_within (i : Instr) (s : State) : ∃ o t, exec i s = within i.wellFormed o t := by
  cases i
  case lossSpikeDetect | ckptCodingComplete | exchangeComplete | packageWarmReset | stagedChangeExpiry | ttLoadComplete |
      powerStateRun | powerStateDoze | powerStateStandby | packageResetWarm | packageResetCold | statsBoundary |
      controlWatchdog | controlMemory | controlDieReportTimeout | vauxRise | mainRailStartTimeout | vinPgoodDrop |
      powerSample | thermalTripHoldoff | plcaTransmit | beaconLoss | plcaCollision | fnSettingApply | fnPortStart |
      vinPgoodAssert | beaconReturn | plcaBeacon | neighbourDiscovery =>
    exact ⟨"", _, rfl⟩
  case islandLimitCheck | islandResume | islandParkLimit | linamParkDeadline | thermalSample | thermalExit | idleEntry |
      idleExit =>
    simp only [Instr.wellFormed, ← islandOk_eq_isIsland]
    exact ⟨_, _, rfl⟩
  case supplyWarning | supplyRecovery | railBelowReset =>
    simp only [Instr.wellFormed, ← supplyOk_eq_wellFormed]
    exact ⟨_, _, rfl⟩
  all_goals exact ⟨_, _, rfl⟩

/-! ### The Timetable rows -/

/-- A Timetable row that runs on no engine is `runKind` of its core, its kinds and its checks. -/
theorem exec_plainRow {i : Instr} {c : Nat} {kinds : List CmdKind} {ok : State → Issue → Bool}
    (hrow : timetableRow i = some (c, kinds, ok)) (hplain : engineRow i = none) :
    ∃ run, ∀ s : State, c < 288 → exec i s = .next (s.runKind c kinds ok run) := by
  cases i <;> simp only [engineRow, reduceCtorEq] at hplain
  all_goals simp only [timetableRow, engineRow, Option.map_none, Option.some.injEq, Prod.mk.injEq, reduceCtorEq] at hrow
  all_goals
    obtain ⟨rfl, rfl, rfl⟩ := hrow
    exact ⟨_, fun s hc => within_next _ _ (decide_eq_true hc)⟩

/-- A row that runs on an engine stands for the command that `engineRow` names. -/
theorem timetableRow_of_engineRow {i : Instr} {r : EngineRow} (h : engineRow i = some r) :
    timetableRow i = some (r.core, r.kinds, r.ok) := by
  cases i <;> simp only [engineRow, Option.some.injEq, reduceCtorEq] at h
  all_goals subst h; rfl

theorem queuedFirst_of_engineRow {i : Instr} {r : EngineRow} (h : engineRow i = some r) (s : State) :
    s.queuedFirst i = s.queuedStart r.core r.kinds r.can := by
  simp only [State.queuedFirst, h]

/-- The two courses of a Timetable row: on an engine, where a queued command may start first, or on none. -/
theorem exec_timetableRow {i : Instr} {c : Nat} {kinds : List CmdKind} {ok : State → Issue → Bool} {s : State}
    (hrow : timetableRow i = some (c, kinds, ok)) (hc : c < 288) (hq : s.queuedFirst i = none) :
    (∃ can run, s.queuedStart c kinds can = none ∧ exec i s = .next (s.runEngine c kinds ok can run)) ∨
      ∃ run, exec i s = .next (s.runKind c kinds ok run) := by
  cases he : engineRow i with
  | none =>
    obtain ⟨run, hrun⟩ := exec_plainRow hrow he
    exact .inr ⟨run, hrun s hc⟩
  | some r =>
    obtain ⟨rfl, rfl, rfl⟩ : r.core = c ∧ r.kinds = kinds ∧ r.ok = ok := by
      simpa using (timetableRow_of_engineRow he).symm.trans hrow
    exact .inl ⟨r.can, r.run, (queuedFirst_of_engineRow he s).symm.trans hq, engineRow_exec he s hc⟩

/-- Settles O6: the first clause from the range of each command's operands, the others from the course of the row. -/
theorem everyCommandRunsInItsTurn : Obligations.EveryCommandRunsInItsTurn := by
  unfold Obligations.EveryCommandRunsInItsTurn
  refine ⟨?answers, ?idle, ?dequeues, ?launches, ?queues⟩
  case answers =>
    intro i s
    obtain ⟨o, t, h⟩ := exec_eq_within i s
    rw [h]
    split
    case isTrue hw => exact ⟨t, within_next o t hw⟩
    case isFalse hw => exact ⟨o, if_neg hw⟩
  case idle =>
    intro i c kinds ok s hrow hc hq hissue
    obtain ⟨can, run, hstart, h⟩ | ⟨run, h⟩ := exec_timetableRow hrow hc hq
    · rw [h, runEngine_idle _ _ hissue hstart]
    · rw [h, runKind_idle _ _ hissue]
  case dequeues =>
    intro i r it s hrow hc hacts hq
    rw [engineRow_exec hrow s hc, runEngine_dequeues _ _ hacts ((queuedFirst_of_engineRow hrow s).symm.trans hq)]
  case launches => exact fun i r it s hrow hl => engineRow_launches hrow hl
  case queues =>
    intro i r it s hrow hi hok hq hbusy
    rw [engineRow_exec hrow s hi.1, runEngine_queues _ hi hok ((queuedFirst_of_engineRow hrow s).symm.trans hq) hbusy]

/-! ### A refused command stands FAULTED, and nothing is signalled (R252, R270) -/

/-- What a change of each entry keeps at its key holds at every key afterwards. -/
theorem tabGet_map_of_keeps {α : Type} {d : α} {P : α → Prop} {g : Nat × α → Nat × α} (hkey : ∀ e, (g e).1 = e.1)
    (hval : ∀ e, P e.2 → P (g e).2) {t : Tab α} {k : Nat} (h : P (tabGet d t k)) : P (tabGet d (t.map g) k) := by
  induction t with
  | nil => exact h
  | cons e t ih =>
    rw [List.map_cons, tabGet, hkey e]
    rw [tabGet] at h
    by_cases hk : e.1 = k
    · rw [if_pos hk] at h ⊢
      exact hval e h
    · rw [if_neg hk] at h ⊢
      exact ih h

/-- A core whose streams stay as they are shows the same streams everywhere. -/
theorem stream_setCore_of_streams {s : State} {c : Nat} {x : CoreState} (hx : x.streams = (s.core c).streams)
    (d i : Nat) : (s.setCore c x).stream d i = s.stream d i := by
  by_cases hd : d = c
  · rw [hd, State.stream, core_setCore_self, hx, State.stream]
  · rw [State.stream, core_setCore_other _ _ _ _ hd, State.stream]

@[simp] theorem raise_cores (s : State) (p v : Nat) : (s.raise p v).cores = s.cores := by
  obtain h | ⟨_, h⟩ | h := raise_cases s p v <;> rw [h] <;> rfl

/-- The stream in slot `i` of core `c` stands FAULTED, and `n` signals have been counted: each part of a fault keeps
this. -/
def StandsFaulted (c i n : Nat) (s : State) : Prop :=
  (s.stream c i).state = 4 ∧ s.counted Od.SYNC_SIGNALS = n

section
variable {c i n : Nat} {s : State} (h : StandsFaulted c i n s)
include h

theorem StandsFaulted.of_cores {t : State} (hcores : t.cores = s.cores)
    (hcount : t.counted Od.SYNC_SIGNALS = s.counted Od.SYNC_SIGNALS) : StandsFaulted c i n t := by
  refine ⟨?_, hcount.trans h.2⟩
  rw [State.stream, State.core, hcores]
  exact h.1

theorem StandsFaulted.of_same {t : State} (hcores : t.cores = s.cores) (hstats : t.stats = s.stats) :
    StandsFaulted c i n t :=
  h.of_cores hcores (counted_of_stats hstats _)

theorem StandsFaulted.of_map {t : State} {g : Nat × CoreState → Nat × CoreState} (hcores : t.cores = s.cores.map g)
    (hkey : ∀ e, (g e).1 = e.1)
    (hstream : ∀ e, (tabGet .empty e.2.streams i).state = 4 → (tabGet .empty (g e).2.streams i).state = 4)
    (hstats : t.stats = s.stats) : StandsFaulted c i n t := by
  refine ⟨?_, (counted_of_stats hstats _).trans h.2⟩
  rw [State.stream, State.core, hcores]
  exact tabGet_map_of_keeps (P := fun x : CoreState => (tabGet .empty x.streams i).state = 4) hkey hstream h.1

theorem StandsFaulted.capture (e : Event) : StandsFaulted c i n (s.capture e) := by
  unfold State.capture
  split
  · exact h
  · exact h.of_same (by simp only [setOd_cores]) (by simp only [setOd_stats])

/-- A fault of a Platform marks its streams FAULTED, and leaves those that stand so already. -/
theorem StandsFaulted.markStreams (p : Nat) : StandsFaulted c i n (s.markStreams p 4) := by
  refine h.of_map rfl (fun _ => rfl) (fun e he => ?_) rfl
  refine tabGet_map_of_keeps (P := fun x : Stream => x.state = 4) (fun a => ?_) (fun a ha => ?_) he
  · dsimp only
    split <;> rfl
  · dsimp only
    split
    · rfl
    · exact ha

theorem StandsFaulted.abandon (p : Nat) : StandsFaulted c i n (s.abandon p) :=
  h.of_map rfl (fun _ => rfl) (fun _ he => he) rfl

theorem StandsFaulted.clearVtime : StandsFaulted c i n s.clearVtime :=
  h.of_map rfl (fun _ => rfl) (fun _ he => he) rfl

theorem StandsFaulted.setCore {d : Nat} {x : CoreState} (hx : x.streams = (s.core d).streams) :
    StandsFaulted c i n (s.setCore d x) :=
  ⟨(congrArg Stream.state (stream_setCore_of_streams hx c i)).trans h.1, h.2⟩

theorem StandsFaulted.zeroCounters (p : Nat) : StandsFaulted c i n (s.zeroCounters p) := by
  unfold State.zeroCounters
  dsimp only
  split
  · exact h
  split
  · exact h.of_map rfl (fun _ => rfl) (fun _ he => he) rfl
  · refine List.foldlRecOn _ _ h fun t ht e _ => ?_
    split
    · exact ht
    · exact ht.setCore rfl

theorem StandsFaulted.count {k : Nat} (m : Nat) (hk : Od.SYNC_SIGNALS ≠ k) : StandsFaulted c i n (s.count k m) :=
  h.of_cores rfl (counted_count_other s m hk)

theorem StandsFaulted.raise (p v : Nat) : StandsFaulted c i n (s.raise p v) :=
  h.of_cores (raise_cores s p v) (counted_raise s p v (by decide))

theorem StandsFaulted.sticky (b : Nat) : StandsFaulted c i n (s.sticky b) := by
  obtain hb | hb := sticky_cases s b
  · rwa [hb]
  · rw [hb]
    have hset : StandsFaulted c i n (s.setOd Od.STICKY_LOG (s.odv Od.STICKY_LOG + 2 ^ b)) := h.of_same rfl rfl
    exact (hset.raise 0 0).raise 1 0

theorem StandsFaulted.sendHop (p kind : Nat) (more : List (Nat × Nat × Nat)) :
    StandsFaulted c i n (s.sendHop p kind more) := by
  unfold State.sendHop State.sendVia
  dsimp only
  split
  · exact h
  · exact h.of_same rfl rfl

theorem StandsFaulted.sendJobFault (origin cause : Nat) : StandsFaulted c i n (s.sendJobFault origin cause) := by
  unfold State.sendJobFault
  dsimp only
  split
  · exact h.sendHop _ _ _
  · exact List.foldlRecOn _ _ h fun _ ht p _ => ht.sendHop p _ _

theorem StandsFaulted.faultPlatform (p cause tcore slot cmd : Nat) :
    StandsFaulted c i n (s.faultPlatform p cause tcore slot cmd) := by
  unfold State.faultPlatform
  dsimp only
  split
  · exact h
  have hstopped := ((h.markStreams p).zeroCounters p).abandon p
  refine StandsFaulted.raise (StandsFaulted.sticky (StandsFaulted.count (StandsFaulted.count
    (StandsFaulted.clearVtime ?_) 1 (by decide)) 1 (by decide)) 12) _ _
  split <;> exact hstopped.of_same rfl rfl

theorem StandsFaulted.faultJob (e : Event) : StandsFaulted c i n (s.faultJob e) := by
  unfold State.faultJob State.faultJobAs
  dsimp only
  split
  · exact h
  have hstopped := (((h.capture e).markStreams 0).zeroCounters 0).abandon 0
  rw [if_neg Bool.false_ne_true]
  refine StandsFaulted.sendJobFault (StandsFaulted.raise (StandsFaulted.sticky (StandsFaulted.count ?_ 1 (by decide)) 12)
    _ _) _ _
  exact hstopped.of_same rfl rfl

theorem StandsFaulted.faultOwner (p tcore : Nat) (e : Event) : StandsFaulted c i n (s.faultOwner p tcore e) := by
  unfold State.faultOwner
  split
  · exact (h.capture _).faultPlatform _ _ _ _ _
  · exact h.faultJob _

end

theorem standsFaulted_setStream (s : State) {c i : Nat} {x : Stream} (hx : x.state = 4) :
    StandsFaulted c i (s.counted Od.SYNC_SIGNALS) (s.setStream c i x) :=
  ⟨by rw [stream_setStream_self, hx], rfl⟩

theorem standsFaulted_faultIssue (s : State) (it : Issue) (cause : Nat) :
    StandsFaulted it.core it.slot (s.counted Od.SYNC_SIGNALS) (s.faultIssue it cause) :=
  (standsFaulted_setStream s rfl).faultOwner _ _ _

/-- Settles O8: each row refuses the command by faulting its stream, which then stands FAULTED whatever else the fault
stops. -/
theorem refusedCommandFaultsItsStream : Obligations.RefusedCommandFaultsItsStream := by
  unfold Obligations.RefusedCommandFaultsItsStream
  intro i c kinds ok it s hrow hc hq hissue hrefused
  obtain ⟨hstate, hcounted⟩ := standsFaulted_faultIssue s it causeCmdRefused
  refine ⟨s.faultIssue it causeCmdRefused, ?_, rfl, hstate, hcounted⟩
  obtain ⟨can, run, hstart, h⟩ | ⟨run, h⟩ := exec_timetableRow hrow hc hq
  · rw [h, runEngine_refuses _ hissue hstart hrefused]
  · rw [h, runKind_refuses _ _ hissue hrefused]

end Sys2Proof.Proofs
end

