-- ==== Sys2Proof/Proofs/SignalBoxes.lean ====
section
/-! The Signal box: signals of counters on which no stream waits, signals that are delivered, manual sets, and waits held
for long (08). -/

namespace Sys2Proof.Proofs

open Sys2Proof Sys2Proof.Machine Sys2Proof.Laws

/-! ### Counters (R253) -/

theorem tabSet_tabSet_self {α : Type} (t : Tab α) (i : Nat) (x y : α) : tabSet (tabSet t i x) i y = tabSet t i y := by
  induction t with
  | nil => simp [tabSet]
  | cons e t ih =>
    obtain ⟨k, v⟩ := e
    by_cases hk : k = i
    · simp [tabSet, hk]
    · by_cases hi : i < k
      · simp [tabSet, hk, hi]
      · simp [tabSet, hk, hi, ih]

theorem setCore_setCore_self (s : State) (c : Nat) (x y : CoreState) : (s.setCore c x).setCore c y = s.setCore c y := by
  simp only [State.setCore, tabSet_tabSet_self]

theorem setCtr_setCtr_self (s : State) (c k v w : Nat) : (s.setCtr c k v).setCtr c k w = s.setCtr c k w := by
  simp only [State.setCtr, core_setCore_self, setCore_setCore_self, tabSet_tabSet_self]

theorem ctr_setCtr_other (s : State) {c k d j : Nat} (v : Nat) (h : d ≠ c ∨ j ≠ k) :
    (s.setCtr c k v).ctr d j = s.ctr d j := by
  by_cases hd : d = c
  · subst hd
    rw [State.ctr, State.setCtr, core_setCore_self, tabGet_tabSet_other _ _ _ _ _ (h.resolve_left (· rfl)), State.ctr]
  · rw [State.ctr, State.setCtr, core_setCore_other _ _ _ _ hd, State.ctr]

/-! ### Signals of a counter on which no stream waits (R253, R257) -/

/-- No stream of the core waits on the counter. -/
def NoWaiters (s : State) (c k : Nat) : Prop := ∀ consume, s.waiters c k consume = []

theorem noWaiters_setCtr {s : State} {c k : Nat} (h : NoWaiters s c k) (v : Nat) : NoWaiters (s.setCtr c k v) c k := by
  intro consume
  rw [State.waiters, State.setCtr, core_setCore_self]
  exact h consume

theorem checkRange_of_noWaiters {s : State} {c k : Nat} (h : NoWaiters s c k) : s.checkRange c k = s := by
  rw [State.checkRange, h false, h true]
  rfl

theorem settle_of_noWaiters {s : State} {c k : Nat} (h : NoWaiters s c k) : s.settle c k = s := by
  rw [State.settle]
  dsimp only
  rw [checkRange_of_noWaiters h, h false]
  dsimp only [List.foldl_nil]
  rw [h true]
  rfl

theorem signal_of_noWaiters {s : State} {c k : Nat} (h : NoWaiters s c k) (n : Nat) :
    s.signal c k n = (s.setCtr c k ((s.ctr c k + n) % 2 ^ 32)).count Od.SYNC_SIGNALS 1 :=
  settle_of_noWaiters (noWaiters_setCtr h _)

theorem noWaiters_signal {s : State} {c k : Nat} (h : NoWaiters s c k) (n : Nat) : NoWaiters (s.signal c k n) c k := by
  rw [signal_of_noWaiters h]
  exact noWaiters_setCtr h _

theorem ctr_signal_self {s : State} {c k : Nat} (h : NoWaiters s c k) (n : Nat) :
    (s.signal c k n).ctr c k = (s.ctr c k + n) % 2 ^ 32 := by
  rw [signal_of_noWaiters h]
  exact ctr_setCtr_self s c k _

theorem ctr_signal_other {s : State} {c k d j : Nat} (h : NoWaiters s c k) (n : Nat) (hne : d ≠ c ∨ j ≠ k) :
    (s.signal c k n).ctr d j = s.ctr d j := by
  rw [signal_of_noWaiters h]
  exact ctr_setCtr_other s _ hne

/-- Two signals leave the sum in their counter, and are counted. -/
theorem signal_signal {s : State} {c k : Nat} (h : NoWaiters s c k) (n m : Nat) :
    (s.signal c k n).signal c k m =
      ((s.setCtr c k ((s.ctr c k + n + m) % 2 ^ 32)).count Od.SYNC_SIGNALS 1).count Od.SYNC_SIGNALS 1 := by
  rw [signal_of_noWaiters (noWaiters_signal h n), ctr_signal_self h, Nat.mod_add_mod, signal_of_noWaiters h]
  exact congrArg (fun t : State => (t.count Od.SYNC_SIGNALS 1).count Od.SYNC_SIGNALS 1) (setCtr_setCtr_self s c k _ _)

/-- Settles O15: where nothing waits a signal is a sum in the counter, and sums commute. -/
theorem signalsAddAndCommute : Obligations.SignalsAddAndCommute := by
  unfold Obligations.SignalsAddAndCommute
  intro c k n m s hthreshold hconsume
  have h : NoWaiters s c k := fun consume => by cases consume <;> assumption
  refine ⟨ctr_signal_self h n, fun d j hne => ctr_signal_other h n hne, ?_⟩
  rw [signal_signal h, signal_signal h, Nat.add_right_comm]

/-! ### Signals delivered from elsewhere (R46, R261) -/

section
variable {c : Nat} {s : State} (hc : c < 288)
include hc

theorem exec_counterSignal_delivers {g : Signal} {rest : List Signal} (hrun : (s.island c).parked = false)
    (hsig : (s.core c).sig = g :: rest) :
    exec (.counterSignal c) s = .next ((s.setCore c { s.core c with sig := rest }).signal c g.ctr g.n) := by
  refine within_next_of_eq (decide_eq_true hc) ((if_neg (ne_true_of_eq_false hrun)).trans ?_)
  rw [hsig]

theorem exec_counterSignal_none (h : (s.core c).sig = [] ∨ (s.island c).parked = true) :
    exec (.counterSignal c) s = .next s := by
  refine within_next_of_eq (decide_eq_true hc) ?_
  cases hp : (s.island c).parked with
  | true => rfl
  | false =>
    have hsig : (s.core c).sig = [] := h.resolve_right (ne_true_of_eq_false hp)
    rw [hsig]
    rfl

end

/-! ### Manual sets (R8, R273) -/

/-- A counter set by hand: its value is replaced, its held waits are tested, and the sticky bit is set. -/
abbrev setByHand (s : State) (c k v : Nat) : State := ((s.setCtr c k v).settle c k).sticky 7

/-- A Platform tainted. -/
abbrev taint (s : State) (p : Nat) : State := s.setPlat p { s.plat p with tainted := true }

theorem job_foldl_taint (l : List Nat) (s : State) : (l.foldl taint s).job = s.job :=
  foldl_keeps (f := taint) (·.job) (fun _ _ => rfl) l s

section
variable {c : Nat} {s : State} (hc : c < 288) {v : W64}
include hc

theorem exec_sbSet_of_job (hk : bitsOf v.toNat 0 6 < 48) (hj : s.job.active = true) :
    exec (.sbSet c v) s = .next (setByHand ((taint s 0).setOd Od.JOB_TAINTED 1) c (bitsOf v.toNat 0 6)
      (bitsOf v.toNat 32 32)) := by
  refine within_next_of_eq (decide_eq_true hc) ((if_neg (Nat.not_le.mpr hk)).trans ?_)
  rw [State.ctrOwners, if_pos hj]
  exact congrArg (setByHand · c _ _) (if_pos hj)

theorem exec_sbSet_of_contexts (hk : bitsOf v.toNat 0 6 < 48) (hj : s.job.active = false) :
    exec (.sbSet c v) s = .next (setByHand ((s.ctrOwners c (bitsOf v.toNat 0 6)).foldl taint s) c
      (bitsOf v.toNat 0 6) (bitsOf v.toNat 32 32)) := by
  refine within_next_of_eq (decide_eq_true hc) ((if_neg (Nat.not_le.mpr hk)).trans ?_)
  have hjob : ((s.ctrOwners c (bitsOf v.toNat 0 6)).foldl taint s).job.active = false :=
    (congrArg Job.active (job_foldl_taint _ s)).trans hj
  exact congrArg (setByHand · c _ _) (if_neg (ne_true_of_eq_false hjob))

theorem exec_sbSet_reserved (hk : 48 ≤ bitsOf v.toNat 0 6) : exec (.sbSet c v) s = .next s :=
  within_next_of_eq (decide_eq_true hc) (if_pos hk)

end

/-! ### Waits held for long (R270, R272) -/

/-- A stream whose long wait has been reported. -/
abbrev hangReported (s : State) (c i : Nat) : State :=
  ((s.setStream c i { s.stream c i with hang := true }).count Od.SYNC_HANG_REPORTS 1).raiseErr (s.stream c i).platform

section
variable {c i heldMs : Nat} {s : State} (hc : c < 288) (hi : i < 8)
include hc hi

theorem slot_inRange : (coreOk c && i < 8) = true := by
  simp [coreOk, hc, hi]

theorem exec_syncHang_faults (hwait : (s.stream c i).state = 2) (hon : s.odv Od.SYNC_HANG_FAULT ≠ 0)
    (hheld : s.odv Od.SYNC_HANG_FAULT < heldMs) :
    exec (.syncHang c i heldMs) s = .next (s.faultStream c i causeHang) :=
  within_next_of_eq (slot_inRange hc hi) (if_pos (by simp [hwait, hon, hheld]))

theorem exec_syncHangReport (hwait : (s.stream c i).state = 2 ∨ s.atNotify c i = true)
    (hnew : (s.stream c i).hang = false) (hheld : s.odv Od.SYNC_HANG_REPORT < heldMs) :
    exec (.syncHangReport c i heldMs) s = .next (hangReported s c i) :=
  within_next_of_eq (slot_inRange hc hi) (if_pos (by simp [hwait, hnew, hheld]))

end

@[simp] theorem stream_raiseErr (s : State) (p c i : Nat) : (s.raiseErr p).stream c i = s.stream c i := by
  rw [State.stream, State.core, show (s.raiseErr p).cores = s.cores from raise_cores _ _ _, State.stream, State.core]

theorem stream_hangReported (s : State) (c i : Nat) :
    (hangReported s c i).stream c i = { s.stream c i with hang := true } :=
  (stream_raiseErr _ _ c i).trans (stream_setStream_self s c i _)

theorem counted_hangReported (s : State) (c i : Nat) :
    (hangReported s c i).counted Od.SYNC_HANG_REPORTS = s.counted Od.SYNC_HANG_REPORTS + 1 :=
  (counted_raise _ _ _ (by decide)).trans (counted_count_self _ _ _)

/-- Settles O16, from the spec lemma of each command above. -/
theorem countersHangsAndManualSets : Obligations.CountersHangsAndManualSets := by
  unfold Obligations.CountersHangsAndManualSets
  refine ⟨?delivers, ?nothing, ?hang, ?setOfJob, ?setOfContexts, ?reserved⟩
  case delivers => exact fun c g rest s hc hrun hsig => exec_counterSignal_delivers hc hrun hsig
  case nothing => exact fun c s hc h => exec_counterSignal_none hc h
  case hang => exact fun c i heldMs s hc hi hwait hon hheld => exec_syncHang_faults hc hi hwait hon hheld
  case setOfJob =>
    rintro c v s _ hc hk hj rfl
    exact exec_sbSet_of_job hc hk hj
  case setOfContexts =>
    rintro c v s _ hc hk hj rfl
    exact exec_sbSet_of_contexts hc hk hj
  case reserved => exact fun c v s hc hk => exec_sbSet_reserved hc hk

/-- Settles O17: the report sets the stream's HANG bit and nothing else of it. -/
theorem heldWaitIsReportedAndKeepsWaiting : Obligations.HeldWaitIsReportedAndKeepsWaiting := by
  unfold Obligations.HeldWaitIsReportedAndKeepsWaiting
  intro c i heldMs s hc hi hwait hnew hheld
  exact ⟨hangReported s c i, exec_syncHangReport hc hi hwait hnew hheld, rfl, stream_hangReported s c i,
    counted_hangReported s c i⟩

end Sys2Proof.Proofs
end

