-- ==== Sys2Proof/Proofs/Sequencer.lean ====
section
/-! Commands that run on no engine: SYNC, PLACE, REBASE and the ends of steps and streams; barriers and NOTIFY (08). -/

namespace Sys2Proof.Proofs

open Sys2Proof Sys2Proof.Machine Sys2Proof.Laws

/-- A row that runs on no engine, whose command issues with its operands accepted, has the row's effect. -/
theorem exec_plainRow_issues {i : Instr} {c : Nat} {kinds : List CmdKind} {ok : State → Issue → Bool}
    {run : State → Issue → State} {it : Issue} {s : State}
    (hrow : exec i s = within (coreOk c) "core" (s.runKind c kinds ok run)) (hi : s.Issues c kinds it)
    (hok : ok s it = true) : exec i s = .next (run (s.issued it) it) := by
  rw [hrow, within_next (b := coreOk c) _ _ (decide_eq_true hi.1), runKind_runs _ _ hi hok]

/-! ### SYNC, PLACE and REBASE (R251, R262, R639) -/

section
variable {c : Nat} {it : Issue} {s : State}

theorem exec_sync_completes (hi : s.Issues c [.sync, .reserved] it) (hkind : kindOf it.w = .sync)
    (hzero : zeroFrom it.w 128 = true) : exec (.sync c) s = .next ((s.issued it).complete it) := by
  rw [exec_plainRow_issues (i := .sync c) rfl hi (by simp [hkind, hzero])]

theorem exec_place_completes (hi : s.Issues c [.place] it) (hok : placeOk s it = true)
    (hstands : (((s.issued it).complete it).stream it.core it.slot).state ≠ 4) :
    exec (.place c) s = .next (((s.issued it).complete it).setStream it.core it.slot
      { ((s.issued it).complete it).stream it.core it.slot with placed := some it.w }) := by
  rw [exec_plainRow_issues (i := .place c) rfl hi hok]
  exact congrArg Host.Outcome.next (if_neg hstands)

theorem exec_rebase_completes {mc m : Nat} (hi : s.Issues c [.rebase] it) (hzero : zeroFrom it.w 134 = true)
    (hmap : s.mapCtr it.platform it.tcore (cmdBits it.w 128 6) = some (mc, m)) :
    exec (.rebase c) s = .next (((s.issued it).rebase it.core m).complete it) := by
  have hmap' : (s.issued it).mapCtr it.platform it.tcore (cmdBits it.w 128 6) = some (mc, m) := hmap
  rw [exec_plainRow_issues (i := .rebase c) rfl hi (by simp [hzero, hmap])]
  rw [hmap']

/-! ### STEP_END and STREAM_END (R258, R260) -/

theorem exec_stepEnd_steps {img : Image} {d : StreamDecl} (hi : s.Issues c [.stepEnd] it) (hpost : postEn it.w = false)
    (hzero : zeroFrom it.w 128 = true) (himg : ((s.issued it).plat it.platform).image = some img)
    (hdecl : img.stream it.tcore ((s.issued it).stream it.core it.slot).tslot = some d) :
    exec (.stepEnd c) s = .next (if ((s.issued it).stepOn it img d).serveMode then (s.issued it).stepOn it img d
      else ((s.issued it).stepOn it img d).followStep) := by
  rw [exec_plainRow_issues (i := .stepEnd c) rfl hi (by simp [hpost, hzero])]
  dsimp only
  rw [himg]
  dsimp only
  rw [hdecl]

theorem exec_streamEnd_ends (hi : s.Issues c [.streamEnd] it) (hpost : postEn it.w = false)
    (hzero : zeroFrom it.w 128 = true) :
    exec (.streamEnd c) s = .next (((s.issued it).setStream it.core it.slot
      { (s.issued it).stream it.core it.slot with
        state := 5, waitCtr := 0, waitConsume := false, waitT := 0, hang := false }).endJob) := by
  rw [exec_plainRow_issues (i := .streamEnd c) rfl hi (by simp [hpost, hzero])]

end

/-- Settles O13, from the spec lemma of each command above. -/
theorem sequencerCommandsCompleteAndSignal : Obligations.SequencerCommandsCompleteAndSignal := by
  unfold Obligations.SequencerCommandsCompleteAndSignal
  refine ⟨?sync, ?place, ?rebase, ?stepEndDistil, ?stepEndServe, ?streamEnd⟩
  case sync =>
    rintro c it s _ hi ⟨hkind, hzero⟩ rfl
    exact exec_sync_completes hi hkind hzero
  case place =>
    rintro c it s _ hi hok rfl hstands
    exact exec_place_completes hi hok hstands
  case rebase =>
    rintro c mc m it s _ hi ⟨hzero, hmap⟩ rfl
    exact exec_rebase_completes hi hzero hmap
  case stepEndDistil =>
    rintro c img d it s _ hi ⟨hpost, hzero⟩ rfl himg hdecl hmode
    rw [exec_stepEnd_steps hi hpost hzero himg hdecl, if_neg (ne_true_of_eq_false hmode)]
  case stepEndServe =>
    rintro c img d it s _ hi ⟨hpost, hzero⟩ rfl himg hdecl hmode
    rw [exec_stepEnd_steps hi hpost hzero himg hdecl, if_pos hmode]
  case streamEnd =>
    rintro c it s _ hi ⟨hpost, hzero⟩ rfl
    exact exec_streamEnd_ends hi hpost hzero

/-! ### BARRIER and NOTIFY (R268, R275, R277, R499) -/

section
variable {c : Nat} {it : Issue} {s : State}

theorem exec_barrier_issues (hi : s.Issues c [.barrier] it) (hok : barrierOk s it = true) :
    exec (.barrier c) s = .next (if (s.issued it).barrierMember it then (s.issued it).arrive it
      else (s.issued it).faultIssue it causeBarrierMember) := by
  rw [exec_plainRow_issues (i := .barrier c) rfl hi hok]

theorem exec_notify_enabled (hi : s.Issues c [.notify] it) (hok : notifyOk s it = true)
    (hon : ((s.issued it).queue ((s.issued it).notifyQueue it)).enable = true) :
    exec (.notify c) s = .next (((s.issued it).setStream it.core it.slot
      { (s.issued it).stream it.core it.slot with state := 3 }).pushRecord ((s.issued it).notifyQueue it) it.platform
        ((s.issued it).notifyRecord it)) := by
  rw [exec_plainRow_issues (i := .notify c) rfl hi hok]
  exact congrArg Host.Outcome.next (if_neg (by simp [hon]))

theorem exec_notify_disabled (hi : s.Issues c [.notify] it) (hok : notifyOk s it = true)
    (hoff : ((s.issued it).queue ((s.issued it).notifyQueue it)).enable = false) :
    exec (.notify c) s = .next (((s.issued it).pushRecord ((s.issued it).notifyQueue it) it.platform
      ((s.issued it).notifyRecord it)).complete it) := by
  rw [exec_plainRow_issues (i := .notify c) rfl hi hok]
  exact congrArg Host.Outcome.next (if_pos (by simp [hoff]))

end

/-! ### Tokens and releases (R275, R276) -/

/-- An arrival token, held at this package's node behind the tokens of its channel that wait there. -/
abbrev holdToken (s : State) (p : Nat) (m : Message) : State :=
  s.setChannel (tokChan m) { s.channel (tokChan m) with
    tokens := (s.channel (tokChan m)).tokens ++ [{ port := p, n := tokN m, payload := tokPay m : Token }] }

theorem exec_barArrive_gathers {p q : Nat} {m : Message} {s : State} (hm : s.Delivers p 0 m) (hkind : m.kind = 4)
    (howner : (s.dropHead p 0).chanOwner (tokChan m) = some q) :
    exec (.barArrive p) s = .next ((holdToken (s.dropHead p 0) p m).gather q (tokChan m)
      ((s.channel (tokChan m)).sentUp + 1)) := by
  refine within_next_of_eq (decide_eq_true hm.1)
    ((takeMessage_delivers _ _ hm (decide_eq_true hkind)).trans ?_)
  dsimp only
  rw [howner]
  rfl

section
variable {ch : Nat} {s : State} (hch : ch < 16)
include hch

theorem exec_barRelease_atRoot {p : Nat} {d : Nat × Nat} {rest : List (Nat × Nat)}
    (hdue : (s.channel ch).due = d :: rest) (howner : s.chanOwner ch = some p) (ns : Nat) :
    exec (.barRelease ch ns) s =
      .next ((s.setChannel ch { s.channel ch with due := rest }).release p ch d.1 d.2 ns) := by
  refine within_next_of_eq (decide_eq_true hch) ?_
  rw [hdue, howner]

theorem exec_barRelease_delivered {p q : Nat} {m : Message} (hdue : (s.channel ch).due = [])
    (hport : s.releasePort ch = some (q, m)) (hepoch : m.epoch = s.odv Od.POINTS_EPOCH)
    (howner : s.chanOwner ch = some p) (hnext : ((s.channel ch).released + 1) % 2 ^ 24 = tokN m) (ns : Nat) :
    exec (.barRelease ch ns) s =
      .next ((s.dropHead q 0).release p ch ((s.channel ch).released + 1) (tokPay m) ns) := by
  refine within_next_of_eq (decide_eq_true hch) ?_
  rw [hdue, howner]
  dsimp only
  rw [hport]
  exact (if_neg (ne_true_of_eq_false (bne_eq_false_iff_eq.mpr hepoch))).trans (if_pos hnext)

/-! ### Barriers that time out (R51, R279, R280) -/

theorem exec_barrierTimeout_faults {ms : Nat} {a : Arrival} {rest : List Arrival}
    (harrived : (s.channel ch).arrivals = a :: rest) (hlate : s.odv Od.BARRIER_TIMEOUT < ms) :
    exec (.barrierTimeout ch ms) s = .next (s.faultOwner a.platform a.core
      { cause := causeBarrierTimeout, core := s.logicalCore a.platform a.core, slot := a.slot }) := by
  refine within_next_of_eq (decide_eq_true hch) ?_
  rw [harrived]
  exact if_pos hlate

theorem exec_barrierTokenDeadline_faults {port ns : Nat} (hport : port < 16) (hout : s.tokenOut port ch = true)
    (hlate : s.odv Od.BARRIER_TOKEN_DEADLINE < ns) (hruns : (s.island (0x7000 + port)).parked = false) :
    exec (.barrierTokenDeadline port ch ns) s =
      .next ((((s.setLink port .empty).setOd (Od.LP_STATE + 256 * port) 5).faultJob
        { cause := causeBarrierLink, platform := 0, detail := port }).faultPort port) :=
  within_next_of_eq (by simp [hport, hch]) (if_pos (by simp [hout, hlate, hruns]))

end

/-- Settles O14, from the spec lemma of each command and event above. -/
theorem barriersArriveReleaseAndTimeOut : Obligations.BarriersArriveReleaseAndTimeOut := by
  unfold Obligations.BarriersArriveReleaseAndTimeOut
  refine ⟨?arrives, ?noMember, ?notified, ?discarded, ?token, ?releasedAtRoot, ?releasedBelow, ?tokenDeadline, ?timeout⟩
  case arrives =>
    rintro c it s _ hi hok rfl hmember
    rw [exec_barrier_issues hi hok, if_pos hmember]
  case noMember =>
    rintro c it s _ hi hok rfl hmember
    rw [exec_barrier_issues hi hok, if_neg (ne_true_of_eq_false hmember)]
    rfl
  case notified =>
    rintro c it s _ hi hok rfl hon
    exact exec_notify_enabled hi hok hon
  case discarded =>
    rintro c it s _ hi hok rfl hoff
    exact exec_notify_disabled hi hok hoff
  case token => exact fun p q m s hm hkind howner => exec_barArrive_gathers hm hkind howner
  case releasedAtRoot => exact fun ch p ns d rest s hch hdue howner => exec_barRelease_atRoot hch hdue howner ns
  case releasedBelow =>
    exact fun ch p q ns m s hch hdue hport hepoch howner hnext =>
      exec_barRelease_delivered hch hdue hport hepoch howner hnext ns
  case tokenDeadline =>
    exact fun port ch ns s hport hch hout hlate hruns => exec_barrierTokenDeadline_faults hch hport hout hlate hruns
  case timeout => exact fun ch ms a rest s hch harrived hlate => exec_barrierTimeout_faults hch harrived hlate

end Sys2Proof.Proofs
end

