-- ==== Sys2Proof/Proofs/Doorbells.lean ====
section
/-! Doorbells of queues, of completion rings and of counters (08, 14). -/

namespace Sys2Proof.Proofs

open Sys2Proof Sys2Proof.Machine Sys2Proof.Laws

/-! ### What reaches a Platform, and what is dropped before (R267, R323, R470, R490) -/

theorem function_inRange {port vf : Nat} (hport : port < 2) (hvf : vf < 64) : (portOk port && vf < 64) = true := by
  simp [portOk, hport, hvf]

section
variable {s : State} {port vf offset size value reg resLo resLen : Nat} (k : State → Nat → State)

theorem doorbell_stopped (hresp : s.responds port vf (offset / 4096) = true)
    (hstop : (s.plat (offset / 4096)).epochStopped = true) :
    s.doorbell port vf offset size value reg resLo resLen k = s.dropSignal (offset / 4096) :=
  if_pos (by simp [hresp, hstop])

theorem doorbell_badSize (hsize : size ≠ 8) (hstop : (s.plat (offset / 4096)).epochStopped = false) :
    s.doorbell port vf offset size value reg resLo resLen k = s.dropDoorbell port vf (offset / 4096) :=
  (if_neg (by simp [hstop])).trans (if_pos (by simp [hsize]))

variable {p : Nat}

/-- A doorbell of an accepted form goes to its Platform, unless the context is stopped or faulted. -/
theorem doorbell_ofForm (hreg : reg < 4096) (hres : bitsOf value resLo resLen = 0) (hresp : s.responds port vf p = true) :
    s.doorbell port vf (4096 * p + reg) 8 value reg resLo resLen k =
      if (s.plat p).epochStopped = true ∨ (s.plat p).st = 3 then s.dropSignal p else k s p := by
  have hpage : (4096 * p + reg) / 4096 = p := by omega
  have hoffset : (4096 * p + reg) % 4096 = reg := by omega
  rw [State.doorbell, hpage, hoffset, hres, hresp]
  cases (s.plat p).epochStopped <;> simp

theorem doorbell_faulted (hreg : reg < 4096) (hres : bitsOf value resLo resLen = 0)
    (hresp : s.responds port vf p = true) (hst : (s.plat p).st = 3) :
    s.doorbell port vf (4096 * p + reg) 8 value reg resLo resLen k = s.dropSignal p := by
  rw [doorbell_ofForm k hreg hres hresp, if_pos (.inr hst)]

theorem doorbell_rings (h : s.Rings port vf p value reg resLo resLen) :
    s.doorbell port vf (4096 * p + reg) 8 value reg resLo resLen k = k s p := by
  obtain ⟨_, _, hreg, hres, hresp, hstop, hst⟩ := h
  rw [doorbell_ofForm k hreg hres hresp, if_neg (by simp [hstop, hst])]

end

/-! ### Queue doorbells (R491) -/

/-- The hardware queue that a queue or completion doorbell names. -/
abbrev rungQueue (s : State) (p value : Nat) : Nat := (s.plat p).queueBase + bitsOf value 0 12

/-- How far one slot count of a ring lies ahead of another, modulo 2^32. -/
abbrev slotsAhead (n base : Nat) : Nat := (n + 2 ^ 32 - base) % 2 ^ 32

section
variable {s : State} {port vf p value : Nat} (h : s.Rings port vf p value 0 12 20)
include h

theorem exec_queueDoorbell_unlisted
    (hoff : (s.plat p).queueCount ≤ bitsOf value 0 12 ∨ (s.queue (rungQueue s p value)).enable = false) :
    exec (.queueDoorbell port vf (4096 * p) 8 value) s = .next (s.dropDoorbell port vf p) :=
  within_next_of_eq (function_inRange h.1 h.2.1) ((doorbell_rings _ h).trans (if_pos (by simpa using hoff)))

variable (hlisted : bitsOf value 0 12 < (s.plat p).queueCount) (hon : (s.queue (rungQueue s p value)).enable = true)
include hlisted hon

/-- A tail may move on as far as the ring's size ahead of the head; any other stops the queue. -/
theorem exec_queueDoorbell_listed :
    exec (.queueDoorbell port vf (4096 * p) 8 value) s = .next
      (if 2 ^ (s.queue (rungQueue s p value)).slotsLog2 <
            slotsAhead (bitsOf value 32 32) (s.queue (rungQueue s p value)).head ∨
          slotsAhead (bitsOf value 32 32) (s.queue (rungQueue s p value)).head <
            slotsAhead (s.queue (rungQueue s p value)).tail (s.queue (rungQueue s p value)).head
        then s.stopQueue (rungQueue s p value) 5
        else (s.setQueue (rungQueue s p value)
          { s.queue (rungQueue s p value) with tail := bitsOf value 32 32 }).count Od.DOORBELLS_ACCEPTED 1) := by
  refine within_next_of_eq (function_inRange h.1 h.2.1) ((doorbell_rings _ h).trans
    ((if_neg (by simp [hlisted, hon])).trans ?_))
  simp only [Bool.or_eq_true, decide_eq_true_eq]

end

/-! ### Completion doorbells (R492) -/

section
variable {s : State} {port vf p value : Nat} (h : s.Rings port vf p value 8 12 20)
include h

theorem exec_completionDoorbell_refused
    (hoff : (s.plat p).queueCount ≤ bitsOf value 0 12 ∨ (s.queue (rungQueue s p value)).enable = false ∨
      slotsAhead (s.queue (rungQueue s p value)).cplTail (s.queue (rungQueue s p value)).cplHead <
        slotsAhead (bitsOf value 32 32) (s.queue (rungQueue s p value)).cplHead) :
    exec (.completionDoorbell port vf (4096 * p + 8) 8 value) s = .next (s.dropDoorbell port vf p) :=
  within_next_of_eq (function_inRange h.1 h.2.1)
    ((doorbell_rings _ h).trans (if_pos (by simpa [or_assoc, slotsAhead] using hoff)))

theorem exec_completionDoorbell_accepted (hlisted : bitsOf value 0 12 < (s.plat p).queueCount)
    (hon : (s.queue (rungQueue s p value)).enable = true)
    (hhead : slotsAhead (bitsOf value 32 32) (s.queue (rungQueue s p value)).cplHead ≤
      slotsAhead (s.queue (rungQueue s p value)).cplTail (s.queue (rungQueue s p value)).cplHead) :
    exec (.completionDoorbell port vf (4096 * p + 8) 8 value) s =
      .next (((s.setQueue (rungQueue s p value)
        { s.queue (rungQueue s p value) with cplHead := bitsOf value 32 32 }).count Od.DOORBELLS_ACCEPTED 1).drain
          (rungQueue s p value) p ((s.queue (rungQueue s p value)).held.length + 1)) :=
  within_next_of_eq (function_inRange h.1 h.2.1)
    ((doorbell_rings _ h).trans (if_neg (by simpa [hlisted, hon, slotsAhead] using hhead)))

end

/-! ### Counter doorbells (R266, R267, R493) -/

section
variable {s : State} {port vf p value : Nat} (h : s.Rings port vf p value 16 31 33)
include h

theorem exec_counterDoorbell_badAmount (hbad : bitOf value 15 = true ∨ bitsOf value 16 15 = 0) :
    exec (.counterDoorbell port vf (4096 * p + 16) 8 value) s = .next (s.dropDoorbell port vf p) :=
  within_next_of_eq (function_inRange h.1 h.2.1)
    ((doorbell_rings _ h).trans (if_pos (by simpa using hbad.symm)))

variable (hres : bitOf value 15 = false) (hn : bitsOf value 16 15 ≠ 0)
include hres hn

theorem exec_counterDoorbell_signals {c k : Nat} (hheld : (s.plat p).held = true)
    (hin : s.hostIn p (bitsOf value 0 9) (bitsOf value 9 6) = true)
    (hmap : s.mapCtr p (bitsOf value 0 9) (bitsOf value 9 6) = some (c, k)) :
    exec (.counterDoorbell port vf (4096 * p + 16) 8 value) s =
      .next ((s.signal c k (bitsOf value 16 15)).count Od.DOORBELLS_ACCEPTED 1) := by
  refine within_next_of_eq (function_inRange h.1 h.2.1) ((doorbell_rings _ h).trans
    ((if_neg (by simp [hres, hn])).trans ?_))
  rw [if_pos (by simp [hheld, hin]), hmap]

theorem exec_counterDoorbell_noTarget
    (hoff : (s.plat p).held = false ∨ s.hostIn p (bitsOf value 0 9) (bitsOf value 9 6) = false ∨
      s.mapCtr p (bitsOf value 0 9) (bitsOf value 9 6) = none) :
    exec (.counterDoorbell port vf (4096 * p + 16) 8 value) s = .next (s.dropSignal p) := by
  have htarget : (if (s.plat p).held && s.hostIn p (bitsOf value 0 9) (bitsOf value 9 6) then
      s.mapCtr p (bitsOf value 0 9) (bitsOf value 9 6) else none) = none := by
    obtain hheld | hin | hmap := hoff
    · exact if_neg (by simp [hheld])
    · exact if_neg (by simp [hin])
    · rw [hmap, ite_self]
  refine within_next_of_eq (function_inRange h.1 h.2.1) ((doorbell_rings _ h).trans
    ((if_neg (by simp [hres, hn])).trans ?_))
  rw [htarget]

end

/-- Settles O34: a doorbell of an accepted form has its register's effect, and each other is dropped where R267 or R490
says. -/
theorem doorbellsReachTheirQueueOrCounter : Obligations.DoorbellsReachTheirQueueOrCounter := by
  unfold Obligations.DoorbellsReachTheirQueueOrCounter
  refine ⟨?setsTail, ?badTail, ?setsHead, ?signals, ?badSize, ?noQueue, ?noPlace, ?badAmount, ?noTarget, ?stopped,
    ?faulted⟩
  case setsTail =>
    intro port vf p value s h hlisted hon hroom hforward
    rw [exec_queueDoorbell_listed h hlisted hon, if_neg (not_or.mpr ⟨Nat.not_lt.mpr hroom, Nat.not_lt.mpr hforward⟩)]
  case badTail =>
    intro port vf p value s h hlisted hon hbad
    rw [exec_queueDoorbell_listed h hlisted hon, if_pos hbad]
  case setsHead =>
    exact fun port vf p value s h hlisted hon hhead => exec_completionDoorbell_accepted h hlisted hon hhead
  case signals =>
    exact fun port vf p value c k s h hres hn hheld hin hmap => exec_counterDoorbell_signals h hres hn hheld hin hmap
  case badSize =>
    intro port vf offset size value s hport hvf hsize hstop
    refine ⟨?_, ?_, ?_⟩ <;> exact within_next_of_eq (function_inRange hport hvf) (doorbell_badSize _ hsize hstop)
  case noQueue => exact fun port vf p value s h hoff => exec_queueDoorbell_unlisted h hoff
  case noPlace => exact fun port vf p value s h hoff => exec_completionDoorbell_refused h hoff
  case badAmount => exact fun port vf p value s h hbad => exec_counterDoorbell_badAmount h hbad
  case noTarget => exact fun port vf p value s h hres hn hoff => exec_counterDoorbell_noTarget h hres hn hoff
  case stopped =>
    intro port vf offset size value s hport hvf hresp hstop
    refine ⟨?_, ?_, ?_⟩ <;> exact within_next_of_eq (function_inRange hport hvf) (doorbell_stopped _ hresp hstop)
  case faulted =>
    intro port vf p value s hport hvf hqueue hctr hresp hst
    have hrange := function_inRange hport hvf
    exact ⟨within_next_of_eq hrange (doorbell_faulted (reg := 0) _ (by decide) hqueue hresp hst),
      within_next_of_eq hrange (doorbell_faulted _ (by decide) hqueue hresp hst),
      within_next_of_eq hrange (doorbell_faulted _ (by decide) hctr hresp hst)⟩

end Sys2Proof.Proofs
end

