-- ==== Sys2Proof/Proofs/PlatformStates.lean ====
section
/-! The states of a Platform: arming, suspension, resumption and disarming (08, 13). -/

namespace Sys2Proof.Proofs

open Sys2Proof Sys2Proof.Machine Sys2Proof.Laws

/-- An armed or suspended Platform is not disarmed. -/
theorem st_ne_zero_of_held {x : Platform} (h : x.held = true) : x.st ≠ 0 := by
  intro h0
  simp [Platform.held, h0] at h

/-! ### PC_ARM (R247, R445, R449, R598) -/

section
variable {p : Nat} {s : State} (hp : p < 1024)
include hp

theorem exec_pcArm_armed (hst : (s.plat p).st ≠ 0) (peers : List ArmView) : exec (.pcArm p peers) s = .next s :=
  within_next_of_eq (decide_eq_true hp) (if_pos (by simp [hst]))

variable (hst : (s.plat p).st = 0)
include hst

/-- In Doze no Platform arms; in Distil mode only Platform 0 does, while no job runs. -/
theorem exec_pcArm_unavailable
    (h : s.power.doze = true ∨ (s.serveMode = false ∧ (p ≠ 0 ∨ s.job.active = true))) (peers : List ArmView) :
    exec (.pcArm p peers) s = .next (s.setPlat p { s.plat p with armError := 7 }) := by
  refine within_next_of_eq (decide_eq_true hp) ((if_neg (by simp [hst])).trans ?_)
  cases hd : s.power.doze with
  | true => rfl
  | false =>
    obtain ⟨hmode, hbusy⟩ := h.resolve_left (ne_true_of_eq_false hd)
    exact (if_neg Bool.false_ne_true).trans ((if_neg (ne_true_of_eq_false hmode)).trans (if_pos (by simpa using hbusy)))

variable (hdoze : s.power.doze = false) (hmode : s.serveMode = true)
include hdoze hmode

/-- In Serve mode the checks of R449 decide on an arm. -/
theorem exec_pcArm_inServe (peers : List ArmView) :
    exec (.pcArm p peers) s = .next ((s.armError p).elim (s.armServe p) fun e =>
      (s.setPlat p { s.plat p with armError := e }).scaleCause) := by
  refine within_next_of_eq (decide_eq_true hp) ((if_neg (by simp [hst])).trans
    ((if_neg (ne_true_of_eq_false hdoze)).trans ((if_pos hmode).trans ?_)))
  cases s.armError p <;> rfl

end

/-- In Distil mode, while no job runs, the checks of R247 decide on an arm of Platform 0. -/
theorem exec_pcArm_inDistil {s : State} (hst : (s.plat 0).st = 0) (hdoze : s.power.doze = false)
    (hmode : s.serveMode = false) (hidle : s.job.active = false) (peers : List ArmView) :
    exec (.pcArm 0 peers) s = .next ((s.armRefusal peers).elim (s.loaded.elim s s.armDistil) fun c =>
      (s.setPlat 0 { s.plat 0 with armError := 7 }).setOd Od.ARM_REFUSE_CAUSE c) := by
  refine within_next_of_eq (o := "platform") rfl ((if_neg (by simp [hst])).trans
    ((if_neg (ne_true_of_eq_false hdoze)).trans ((if_neg (ne_true_of_eq_false hmode)).trans
      ((if_neg (by simp [hidle])).trans ?_))))
  cases s.armRefusal peers with
  | some c => rfl
  | none => cases s.loaded <;> rfl

/-! ### PC_SUSPEND and SUSPEND_COMPLETE (R462) -/

section
variable {p : Nat} {s : State} (hp : p < 1024)
include hp

theorem exec_pcSuspend_suspends (hmode : s.serveMode = true) (hst : (s.plat p).st = 1)
    (hsusp : (s.plat p).suspending = false) :
    exec (.pcSuspend p) s = .next ((s.mapCores fun c => { c with streams := c.streams.map fun e =>
      if e.2.platform = p && (e.2.state = 1 || e.2.state = 2) then
        (e.1, { e.2 with state := 6, waitCtr := 0, waitConsume := false, waitT := 0 }) else e }).setPlat p
      { s.plat p with suspending := true }) :=
  within_next_of_eq (decide_eq_true hp) (if_neg (by simp [hmode, hst, hsusp]))

theorem exec_pcSuspend_noEffect (h : s.serveMode = false ∨ (s.plat p).st ≠ 1 ∨ (s.plat p).suspending = true) :
    exec (.pcSuspend p) s = .next s :=
  within_next_of_eq (decide_eq_true hp) (if_pos (by simpa [or_assoc] using h))

theorem exec_suspendComplete_suspends (hst : (s.plat p).st = 1) (hsusp : (s.plat p).suspending = true)
    (hquiet : s.quiet p = true) :
    exec (.suspendComplete p) s = .next
      ((s.setPlat p { s.plat p with st := 2, suspending := false }).count Od.PLATFORM_SUSPENDS 1) :=
  within_next_of_eq (decide_eq_true hp) (if_pos (by simp [hst, hsusp, hquiet]))

theorem exec_suspendComplete_noEffect
    (h : (s.plat p).st ≠ 1 ∨ (s.plat p).suspending = false ∨ s.quiet p = false) :
    exec (.suspendComplete p) s = .next s := by
  refine within_next_of_eq (decide_eq_true hp) (if_neg ?_)
  obtain hst | hsusp | hquiet := h
  · simp [hst]
  · simp [hsusp]
  · simp [hquiet]

/-! ### PC_RESUME and PC_DISARM (R464, R468, R471, R474) -/

theorem exec_pcResume_resumes (hst : (s.plat p).st = 2) :
    exec (.pcResume p) s = .next (if (s.plat p).epochStopped = true then s.setPlat p { s.plat p with st := 1 }
      else (s.setPlat p { s.plat p with st := 1 }).startStreams p) :=
  within_next_of_eq (decide_eq_true hp) (if_neg (by simp [hst]))

theorem exec_pcResume_noEffect (hst : (s.plat p).st ≠ 2) : exec (.pcResume p) s = .next s :=
  within_next_of_eq (decide_eq_true hp) (if_pos (by simp [hst]))

theorem exec_pcDisarm_quiesces (hst : (s.plat p).st ≠ 0)
    (h : (s.plat p).service = false ∨ (s.plat p).held = false ∨ s.odv Od.SERVE_REQ_LIVE = 0) :
    exec (.pcDisarm p) s = .next (s.quiesce p) := by
  refine within_next_of_eq (decide_eq_true hp) ((if_neg hst).trans (if_neg ?_))
  obtain hservice | hheld | hlive := h
  · simp [hservice]
  · simp [hheld]
  · simp [hlive]

theorem exec_pcDisarm_waits (hservice : (s.plat p).service = true) (hheld : (s.plat p).held = true)
    (hlive : s.odv Od.SERVE_REQ_LIVE ≠ 0) :
    exec (.pcDisarm p) s = .next (s.setPlat p { s.plat p with disarming := true }) :=
  within_next_of_eq (decide_eq_true hp) ((if_neg (st_ne_zero_of_held hheld)).trans
    (if_pos (by simp [hservice, hheld, hlive])))

theorem exec_pcDisarm_noEffect (hst : (s.plat p).st = 0) : exec (.pcDisarm p) s = .next s :=
  within_next_of_eq (decide_eq_true hp) (if_pos hst)

end

/-- Settles O43, from the spec lemma of each command above. -/
theorem platformsArmSuspendResumeAndDisarm : Obligations.PlatformsArmSuspendResumeAndDisarm := by
  unfold Obligations.PlatformsArmSuspendResumeAndDisarm
  refine ⟨?armServe, ?armDistil, ?serveRefused, ?distilRefused, ?suspend, ?suspended, ?resume, ?disarm, ?disarmWaits,
    ?armUnavailable, ?armArmed, ?suspendNone, ?completeNone, ?resumeNone, ?disarmNone⟩
  case armServe =>
    intro p peers s hp hst hdoze hmode hok
    rw [exec_pcArm_inServe hp hst hdoze hmode, hok]
    rfl
  case armDistil =>
    intro peers img s hst hdoze hmode hidle hok hloaded _
    rw [exec_pcArm_inDistil hst hdoze hmode hidle, hok, hloaded]
    rfl
  case serveRefused =>
    intro p e peers s hp hst hdoze hmode herr
    rw [exec_pcArm_inServe hp hst hdoze hmode, herr]
    rfl
  case distilRefused =>
    intro c peers s hst hdoze hmode hidle hrefused
    rw [exec_pcArm_inDistil hst hdoze hmode hidle, hrefused]
    rfl
  case suspend => exact fun p s hp hmode hst hsusp => exec_pcSuspend_suspends hp hmode hst hsusp
  case suspended => exact fun p s hp hst hsusp hquiet => exec_suspendComplete_suspends hp hst hsusp hquiet
  case resume =>
    rintro p s _ hp hst rfl
    exact exec_pcResume_resumes hp hst
  case disarm => exact fun p s hp hst h => exec_pcDisarm_quiesces hp hst h
  case disarmWaits => exact fun p s hp hservice hheld hlive => exec_pcDisarm_waits hp hservice hheld hlive
  case armUnavailable => exact fun p peers s hp hst h => exec_pcArm_unavailable hp hst h peers
  case armArmed => exact fun p peers s hp hst => exec_pcArm_armed hp hst peers
  case suspendNone => exact fun p s hp h => exec_pcSuspend_noEffect hp h
  case completeNone => exact fun p s hp h => exec_suspendComplete_noEffect hp h
  case resumeNone => exact fun p s hp hst => exec_pcResume_noEffect hp hst
  case disarmNone => exact fun p s hp hst => exec_pcDisarm_noEffect hp hst

end Sys2Proof.Proofs
end

