-- ==== Sys2Proof/Proofs/EpochStops.lean ====
section
/-! A stop of a port's epoch (09): the contexts it reaches and what it leaves to the others. -/

namespace Sys2Proof.Proofs

open Sys2Proof Sys2Proof.Machine Sys2Proof.Laws

/-! ### Tables changed key by key, and tables that list each key once -/

/-- A change of every entry that depends on its key shows at a key, where the default is left as it is. -/
theorem tabGet_map_key {α : Type} {d : α} (f : Nat → α → α) {k : Nat} (hd : f k d = d) (t : Tab α) :
    tabGet d (t.map fun e => (e.1, f e.1 e.2)) k = f k (tabGet d t k) := by
  induction t with
  | nil => exact hd.symm
  | cons e t ih =>
    rw [List.map_cons, tabGet, tabGet, ih]
    by_cases hk : e.1 = k
    · rw [if_pos hk, if_pos hk, hk]
    · rw [if_neg hk, if_neg hk]

/-- A key at which a table does not show its default is listed. -/
theorem mem_of_tabGet_ne {α : Type} {d : α} {t : Tab α} {k : Nat} (h : tabGet d t k ≠ d) : (k, tabGet d t k) ∈ t := by
  induction t with
  | nil => exact absurd rfl h
  | cons e t ih =>
    rw [tabGet] at h ⊢
    by_cases hk : e.1 = k
    · rw [if_pos hk, ← hk]
      exact List.mem_cons_self
    · rw [if_neg hk] at h ⊢
      exact List.mem_cons_of_mem e (ih h)

theorem tabGet_of_mem {α : Type} {d : α} {t : Tab α} (hn : (t.map (·.1)).Nodup) {e : Nat × α} (he : e ∈ t) :
    tabGet d t e.1 = e.2 := by
  induction t with
  | nil => cases he
  | cons a t ih =>
    obtain ⟨ha, hn⟩ := List.nodup_cons.mp hn
    rw [tabGet]
    obtain rfl | he := List.mem_cons.mp he
    · exact if_pos rfl
    · rw [if_neg (ne_of_mem_of_not_mem (List.mem_map_of_mem he) ha).symm, ih hn he]

/-! ### The parts of a stop (R321, R322) -/

/-- A stop of a port's epoch reaches a context: its Platform is of the port, not disarmed and not stopped already. -/
def stopReaches (port : Nat) (x : Platform) : Bool := x.st != 0 && x.port = port && !x.epochStopped

/-- A stopped context: a new epoch, and EPOCH_STOPPED. -/
abbrev stopped (x : Platform) : Platform := { x with epoch := (x.epoch + 1) % 2 ^ 16, epochStopped := true }

/-- The records that a stop leaves in a queue of its contexts (log entry 94). -/
abbrev keptRecords (x : Queue) : Queue := { x with held := x.held.filter fun r => r.kind = 2 || r.wait }

/-- A hardware queue belongs to a context of the port. -/
abbrev queueOf (s : State) (port q : Nat) : Bool := (s.owner q).any fun p => (s.plat p).port = port

theorem queueOf_iff {s : State} {port q : Nat} :
    queueOf s port q = true ↔ ∃ p, s.owner q = some p ∧ (s.plat p).port = port := by
  simp [queueOf, Option.any_eq_true]

/-- What was held for the contexts of a port is dropped (R322). -/
def heldDropped (s : State) (port : Nat) : State :=
  { s.setPort port { s.port port with
      heldWrites := (s.port port).heldWrites.filter fun w => (s.plat w.1).port != port
      heldMsix := []
      downHeld := true } with
    queues := s.queues.map fun e => (e.1, if queueOf s port e.1 = true then keptRecords e.2 else e.2) }

/-- One context stops, and its interrupt is held for the port (R502). -/
def contextStopped (port : Nat) (s : State) (e : Nat × Platform) : State :=
  let u := (s.setPlat e.1 (stopped (s.plat e.1))).count Od.EPOCH_STOPS 1
  u.setPort port { u.port port with heldMsix := (u.port port).heldMsix ++ [32 * (s.plat e.1).vf] }

theorem stopEpochs_eq (s : State) (port : Nat) : s.stopEpochs port =
    (s.plats.filter fun e => stopReaches port e.2).foldl (contextStopped port) (heldDropped s port) := by
  have hmap : (s.queues.map fun e => (e.1, if queueOf s port e.1 = true then keptRecords e.2 else e.2)) =
      s.queues.map fun e => if queueOf s port e.1 = true then (e.1, keptRecords e.2) else e :=
    List.map_congr_left fun e _ => by split <;> rfl
  rw [heldDropped, hmap]
  rfl

/-! ### What the stops of single contexts change -/

theorem plat_contextStopped_self (port : Nat) (s : State) (e : Nat × Platform) :
    (contextStopped port s e).plat e.1 = stopped (s.plat e.1) :=
  plat_setPlat_self s e.1 _

theorem plat_contextStopped_other (port : Nat) (s : State) {e : Nat × Platform} {p : Nat} (h : p ≠ e.1) :
    (contextStopped port s e).plat p = s.plat p :=
  plat_setPlat_other s e.1 p _ h

/-- Of contexts listed once each, every one stops once, and no other. -/
theorem plat_foldl_contextStopped (port p : Nat) {l : Tab Platform} (hn : (l.map (·.1)).Nodup) (s : State) :
    (l.foldl (contextStopped port) s).plat p = if p ∈ l.map (·.1) then stopped (s.plat p) else s.plat p := by
  induction l generalizing s with
  | nil => rfl
  | cons e l ih =>
    obtain ⟨he, hn⟩ := List.nodup_cons.mp hn
    rw [List.foldl_cons, ih hn, List.map_cons]
    by_cases hp : p = e.1
    · rw [hp, if_neg he, if_pos List.mem_cons_self, plat_contextStopped_self]
    · rw [plat_contextStopped_other _ _ hp]
      simp only [List.mem_cons, hp, false_or]

section
variable (s : State) (port : Nat)

theorem stopEpochs_mem : (s.stopEpochs port).mem = s.mem := by
  rw [stopEpochs_eq]
  exact foldl_keeps State.mem (f := contextStopped port) (fun _ _ => rfl) _ _

theorem stopEpochs_hostMem : (s.stopEpochs port).hostMem = s.hostMem := by
  rw [stopEpochs_eq]
  exact foldl_keeps State.hostMem (f := contextStopped port) (fun _ _ => rfl) _ _

/-- The queues of a port's contexts keep the records that stay; every other queue keeps all. -/
theorem queue_stopEpochs (q : Nat) : (s.stopEpochs port).queue q =
    if queueOf s port q = true then keptRecords (s.queue q) else s.queue q := by
  have hqueues : (s.stopEpochs port).queues = (heldDropped s port).queues := by
    rw [stopEpochs_eq]
    exact foldl_keeps State.queues (f := contextStopped port) (fun _ _ => rfl) _ _
  rw [State.queue, hqueues]
  exact tabGet_map_key (fun k x => if queueOf s port k = true then keptRecords x else x) (ite_self _) s.queues

theorem heldWrites_stopEpochs : ((s.stopEpochs port).port port).heldWrites =
    (s.port port).heldWrites.filter fun w => (s.plat w.1).port != port := by
  have hdropped : ((heldDropped s port).port port).heldWrites =
      (s.port port).heldWrites.filter fun w => (s.plat w.1).port != port :=
    congrArg HostPort.heldWrites (port_setPort_self s port _)
  rw [stopEpochs_eq, ← hdropped]
  refine foldl_keeps (fun u : State => (u.port port).heldWrites) (f := contextStopped port) (fun u e => ?_) _ _
  rw [contextStopped, port_setPort_self]
  rfl

variable {s} (hn : (s.plats.map (·.1)).Nodup)
include hn

/-- The contexts that a stop reaches are those whose Platform it names. -/
theorem stopReaches_iff (p : Nat) :
    p ∈ (s.plats.filter fun e => stopReaches port e.2).map (·.1) ↔ stopReaches port (s.plat p) = true := by
  rw [List.mem_map]
  constructor
  · rintro ⟨e, he, rfl⟩
    obtain ⟨he, hreach⟩ := List.mem_filter.mp he
    rwa [State.plat, tabGet_of_mem hn he]
  · intro hreach
    have hp : s.plat p ≠ .empty := by
      intro h
      rw [h] at hreach
      exact absurd hreach Bool.false_ne_true
    exact ⟨(p, s.plat p), List.mem_filter.mpr ⟨mem_of_tabGet_ne hp, hreach⟩, rfl⟩

theorem plat_stopEpochs (p : Nat) : (s.stopEpochs port).plat p =
    if stopReaches port (s.plat p) = true then stopped (s.plat p) else s.plat p := by
  have hn' : ((s.plats.filter fun e => stopReaches port e.2).map (·.1)).Nodup :=
    hn.sublist (List.filter_sublist.map _)
  rw [stopEpochs_eq, plat_foldl_contextStopped port p hn']
  simp only [stopReaches_iff port hn]
  rfl

end

/-- Settles O41: a stop is the drop of what its port held, and one stop of each context that it reaches. -/
theorem epochsStopOnlyTheirOwnPort : Obligations.EpochsStopOnlyTheirOwnPort := by
  unfold Obligations.EpochsStopOnlyTheirOwnPort
  intro port s _ hn
  refine ⟨?writes, ?stops, ?otherPort, ?queues, ?otherQueues, stopEpochs_mem s port, stopEpochs_hostMem s port⟩
  case writes =>
    rw [heldWrites_stopEpochs]
    exact List.filter_congr fun w _ => (decide_not ..).symm
  case stops =>
    intro p hport hst hstop
    rw [plat_stopEpochs port hn, if_pos (by simp [stopReaches, hport, hst, hstop])]
  case otherPort =>
    intro p hport
    rw [plat_stopEpochs port hn, if_neg (by simp [stopReaches, hport])]
  case queues =>
    intro q p howner hport
    rw [queue_stopEpochs, if_pos (queueOf_iff.mpr ⟨p, howner, hport⟩)]
  case otherQueues =>
    intro q hother
    rw [queue_stopEpochs, if_neg fun h => (queueOf_iff.mp h).elim fun p hp => hother p hp.1 hp.2]

end Sys2Proof.Proofs
end

