-- ==== Sys2Proof/Proofs/DataLinks.lean ====
section
/-! Data links that are lost and come back, contexts that are armed again, and masked vectors (09, 14). -/

namespace Sys2Proof.Proofs

open Sys2Proof Sys2Proof.Machine Sys2Proof.Laws

/-! ### Data links (R320, R321, R504) -/

section
variable {port : Nat} (hport : port < 2)
include hport

theorem exec_dataLinkDown (s : State) : exec (.dataLinkDown port) s =
    .next ((s.setPort port { s.port port with linkUp := false }).setOd (linkKey port) 0) :=
  within_next _ _ (decide_eq_true hport)

/-- The operands of a link that comes up: a defined rate and width. -/
theorem linkUp_inRange {rate width : Nat} (hlow : 1 ≤ rate) (hhigh : rate ≤ 6) (hwidth : width ∈ [1, 2, 4, 8, 16]) :
    (portOk port && 1 ≤ rate && rate ≤ 6 && [1, 2, 4, 8, 16].contains width) = true := by
  rw [portOk, decide_eq_true hport, decide_eq_true hlow, decide_eq_true hhigh, List.contains_iff_mem.mpr hwidth]
  rfl

theorem exec_linkDownHold (ms : Nat) (s : State) : exec (.linkDownHold port ms) s =
    .next (if (s.port port).linkUp = false ∧ (s.port port).downHeld = false ∧ s.odv Od.LINK_DOWN_HOLD_MS ≤ ms
      then s.stopEpochs port else s) := by
  refine within_next_of_eq (decide_eq_true hport) ?_
  simp only [Bool.and_eq_true, Bool.not_eq_true', decide_eq_true_eq, and_assoc]

theorem exec_portHotReset {s : State} (hrails : s.power.mainEn = true) : exec (.portHotReset port) s =
    .next (((s.stopEpochs port).setPort port
      { ((s.stopEpochs port).port port).functionsReset with
        linkUp := false, retry := true, cxlOn := bitOf ((s.stopEpochs port).odv Od.HP_CXL_ENABLE) port
        hdmCommitted := false, hdmError := false }).setOd (linkKey port) 0) :=
  within_next_of_eq (decide_eq_true hport) (if_neg (by simp [hrails]))

end

/-! ### EPOCH_ARM (R323, R324, R474) -/

section
variable {p : Nat} {s : State} (hp : p < 1024)
include hp

theorem exec_epochArm_resumes (hstop : (s.plat p).epochStopped = true) {t : State}
    (ht : t = ((fromTo (s.plat p).queueBase (s.plat p).queueCount).foldl (fun s q =>
        if (s.queue q).enable then s.pushRecord q p (HeldRecord.plain 4 0 (s.queue q).lastDone 0 0) else s)
      (s.setPlat p { s.plat p with epochStopped := false })).drainAll) :
    exec (.epochArm p (s.plat p).epoch) s =
      .next (if (s.plat p).st = 1 ∧ (s.plat p).suspending = false then t.startStreams p else t) := by
  refine within_next_of_eq (decide_eq_true hp) ((if_neg (by simp [hstop])).trans ?_)
  rw [ht]
  simp only [Bool.and_eq_true, Bool.not_eq_true', decide_eq_true_eq]

theorem exec_epochArm_noEffect {v : Nat} (h : (s.plat p).epochStopped = false ∨ v ≠ (s.plat p).epoch) :
    exec (.epochArm p v) s = .next s :=
  within_next_of_eq (decide_eq_true hp) (if_pos (by simpa using h))

end

/-! ### Raising a vector (R501) -/

/-- A masked vector marked pending at its port. -/
abbrev markPending (s : State) (port v : Nat) : State :=
  s.setPort port { s.port port with pend := (s.port port).pend ++ [v] }

section
variable {port v : Nat} {s : State}

theorem raise_unmasked (hv : v ∈ (s.port port).unmasked) (hup : (s.port port).linkUp = true) :
    s.raise port v = (s.emit (.msix port v)).count Od.MSIX_SENT 1 :=
  (if_neg (by simpa using hv)).trans (if_pos hup)

variable (hmasked : v ∉ (s.port port).unmasked)
include hmasked

theorem raise_masked (hpend : v ∉ (s.port port).pend) : s.raise port v = markPending s port v :=
  (if_pos (by simpa using hmasked)).trans (if_neg (by simpa using hpend))

theorem raise_masked_again (hpend : v ∈ (s.port port).pend) : s.raise port v = s :=
  (if_pos (by simpa using hmasked)).trans (if_pos (by simpa using hpend))

/-- However often a masked vector is raised, it is marked pending once. -/
theorem foldl_raise_masked (hpend : v ∉ (s.port port).pend) (n : Nat) :
    (List.range (n + 1)).foldl (fun (s : State) _ => s.raise port v) s = markPending s port v := by
  induction n with
  | zero => exact raise_masked hmasked hpend
  | succ n ih =>
    rw [List.range_succ, List.foldl_append, ih]
    refine raise_masked_again ?_ ?_
    · rw [port_setPort_self]
      exact hmasked
    · rw [port_setPort_self]
      exact List.mem_append_right _ List.mem_cons_self

end

/-! ### MSIX_UNMASK (R501) -/

/-- A vector unmasked at its port, its pending bit cleared. -/
abbrev unmask (s : State) (port v : Nat) : State :=
  s.setPort port { s.port port with
    unmasked := v :: (s.port port).unmasked, pend := (s.port port).pend.filter (· != v) }

theorem not_pending_unmask (s : State) (port v : Nat) : v ∉ ((unmask s port v).port port).pend := by
  simp

section
variable {port v : Nat} {s : State} (hport : port < 2) (hv : v < 2048)
include hport hv

theorem exec_msixUnmask_unmasked (h : v ∈ (s.port port).unmasked) : exec (.msixUnmask port v) s = .next s :=
  within_next_of_eq (by simp [portOk, hport, hv]) (if_pos (by simpa using h))

/-- A masked vector is unmasked, and raised where it was pending. -/
theorem exec_msixUnmask_masked (h : v ∉ (s.port port).unmasked) : exec (.msixUnmask port v) s =
    .next (if v ∈ (s.port port).pend then (unmask s port v).raise port v else unmask s port v) := by
  refine within_next_of_eq (by simp [portOk, hport, hv]) ((if_neg (by simpa using h)).trans ?_)
  simp only [List.contains_iff_mem]

/-- The one message of a vector that was raised while masked. -/
theorem exec_msixUnmask_pending (hmasked : v ∉ (s.port port).unmasked) (hpend : v ∈ (s.port port).pend)
    (hup : (s.port port).linkUp = true) : exec (.msixUnmask port v) s =
      .next (((unmask s port v).emit (.msix port v)).count Od.MSIX_SENT 1) := by
  rw [exec_msixUnmask_masked hport hv hmasked, if_pos hpend, raise_unmasked]
  · rw [port_setPort_self]
    exact List.mem_cons_self
  · rw [port_setPort_self]
    exact hup

end

/-- Marking a vector pending and unmasking it leaves every other vector of the port as it was. -/
theorem vectors_unmask_markPending (s : State) (port v : Nat) {w : Nat} (hw : w ≠ v) :
    (w ∈ ((unmask (markPending s port v) port v).port port).pend ↔ w ∈ (s.port port).pend) ∧
      (w ∈ ((unmask (markPending s port v) port v).port port).unmasked ↔ w ∈ (s.port port).unmasked) := by
  simp [hw]

/-- Settles O40, from the spec lemma of each command above and the fate of a masked vector under repeated raises. -/
theorem linksEpochsAndMaskedVectors : Obligations.LinksEpochsAndMaskedVectors := by
  unfold Obligations.LinksEpochsAndMaskedVectors
  refine ⟨?down, ?up, ?hold, ?noHold, ?hotReset, ?arm, ?noArm, ?unmaskPending, ?unmaskQuiet, ?unmaskNone, ?oneMessage⟩
  case down => exact fun port s hport => exec_dataLinkDown hport s
  case up =>
    rintro port rate width flit partner s _ hport hlow hhigh hwidth rfl
    exact within_next_of_eq (linkUp_inRange hport hlow hhigh hwidth) rfl
  case hold =>
    intro port ms s hport hdown hfirst hms
    rw [exec_linkDownHold hport, if_pos ⟨hdown, hfirst, hms⟩]
  case noHold =>
    intro port ms s hport h
    rw [exec_linkDownHold hport, if_neg]
    rintro ⟨hdown, hfirst, hms⟩
    obtain hup | hheld | hsoon := h
    · exact Bool.false_ne_true (hdown.symm.trans hup)
    · exact Bool.false_ne_true (hfirst.symm.trans hheld)
    · exact Nat.not_lt.mpr hms hsoon
  case hotReset =>
    rintro port s _ hport hrails rfl
    exact exec_portHotReset hport hrails
  case arm => exact fun p s t hp hstop ht => exec_epochArm_resumes hp hstop ht
  case noArm => exact fun p v s hp h => exec_epochArm_noEffect hp h
  case unmaskPending =>
    intro port v s hport hv hmasked hpend
    rw [exec_msixUnmask_masked hport hv hmasked, if_pos hpend]
  case unmaskQuiet =>
    intro port v s hport hv hmasked hpend
    rw [exec_msixUnmask_masked hport hv hmasked, if_neg hpend]
  case unmaskNone => exact fun port v s hport hv h => exec_msixUnmask_unmasked hport hv h
  case oneMessage =>
    intro port v n s u hport hv hn hup hmasked hpend hu
    obtain ⟨k, rfl⟩ := Nat.exists_eq_succ_of_ne_zero (Nat.ne_of_gt hn)
    obtain rfl : u = markPending s port v := hu.trans (foldl_raise_masked hmasked hpend k)
    have hport' : (markPending s port v).port port = { s.port port with pend := (s.port port).pend ++ [v] } :=
      port_setPort_self _ _ _
    have hmarked : v ∈ ((markPending s port v).port port).pend := by simp [hport']
    refine ⟨rfl, hmarked, _, exec_msixUnmask_pending hport hv ?_ hmarked ?_, rfl, ?_, ?_⟩
    · rw [hport']
      exact hmasked
    · rw [hport']
      exact hup
    · exact not_pending_unmask _ port v
    · exact fun w hw => vectors_unmask_markPending s port v hw

end Sys2Proof.Proofs
end

