-- ==== Sys2Proof/Proofs/CxlProtection.lean ====
section
/-! CXL.mem writes into a protected range (09). -/

namespace Sys2Proof.Proofs

open Sys2Proof Sys2Proof.Machine Sys2Proof.Laws

/-- A bit of the sticky log reads 1 once it has been set: a clear bit is added to the log, where it shows. -/
theorem bitOf_sticky_self (s : State) (n : Nat) : bitOf ((s.sticky n).odv Od.STICKY_LOG) n = true := by
  by_cases hset : bitOf (s.odv Od.STICKY_LOG) n = true
  · rw [State.sticky, if_pos hset, hset]
  · rw [State.sticky, if_neg hset, odv_raise, odv_raise, odv_setOd_self, bitOf, Nat.add_comm, Nat.testBit_two_pow_add_eq]
    simpa [bitOf] using hset

theorem exec_cxlMemWrite_protected {port offset : Nat} {data : List Byte} {s : State} (hp : port < 2)
    (hw : s.windowOpen port = true) (ho : offset + data.length ≤ s.odv (winSizeKey port))
    (hi : s.inImage (cxlAddr s port offset) data.length = true) :
    exec (.cxlMemWrite port offset data) s = .next ((s.count Od.CXL_PROTECTED_WRITES 1).sticky 8) :=
  within_next_of_eq (decide_eq_true hp) ((if_neg (window_carries hw ho)).trans (if_pos (by simp [hi])))

/-- Settles O39: the write leaves a count and a sticky bit, and neither touches device memory. -/
theorem protectedCxlWriteIsDiscarded : Obligations.ProtectedCxlWriteIsDiscarded := by
  unfold Obligations.ProtectedCxlWriteIsDiscarded
  intro port offset data s hp hw ho hi
  refine ⟨_, exec_cxlMemWrite_protected hp hw ho hi, ?memory, ?counted, bitOf_sticky_self _ 8⟩
  case memory => rw [sticky_mem, count_mem]
  case counted => rw [counted_sticky _ _ (by decide), counted_count_self]

end Sys2Proof.Proofs
end

