-- ==== Sys2Proof/Proofs/Descriptors.lean ====
section
/-! Descriptors that copy and write (09, 14). -/

namespace Sys2Proof.Proofs

open Sys2Proof Sys2Proof.Machine Sys2Proof.Laws

/-! ### The next descriptor of a queue (R494, R495) -/

section
variable {q p : Nat} {d : Desc} {s : State}

/-- Fetching a descriptor is counted, and changes nothing of what its addresses lead to. -/
@[simp] theorem descPlace_fetched (s : State) (d : Desc) (p a n : Nat) (write : Bool) :
    (s.fetched d).descPlace p a n write = s.descPlace p a n write := rfl

@[simp] theorem placeUp_fetched (s : State) (d : Desc) (pl : Place) : (s.fetched d).placeUp pl = s.placeUp pl := by
  cases pl <;> rfl

theorem places_up {ps pd : Place} (hs : s.placeUp ps = true) (hd : s.placeUp pd = true) :
    ¬ (!(s.fetched d).placeUp ps || !(s.fetched d).placeUp pd) = true := by
  rw [placeUp_fetched, placeUp_fetched, hs, hd]
  exact Bool.false_ne_true

variable {kinds : Nat → Bool} (hkind : kinds d.kind = true) (run : State → Nat → Desc → State)
include hkind

theorem runDesc_starts (h : s.Starts q p d) : s.runDesc q kinds run = run (s.fetched d) p d := by
  obtain ⟨-, hnext, hform⟩ := h
  rw [State.runDesc, hnext]
  exact (if_neg (by simp [hkind])).trans (if_pos hform)

/-- A descriptor of a refused form completes with BAD_DESCRIPTOR, and stops its queue. -/
theorem runDesc_refused (hnext : s.nextDesc q = some (p, d)) (hform : descOk s p d = false) :
    s.runDesc q kinds run = ((s.fetched d).finishDesc q p d 4 true).stopQueue q 4 := by
  rw [State.runDesc, hnext]
  exact (if_neg (by simp [hkind])).trans (if_neg (ne_true_of_eq_false hform))

end

/-! ### D_COPY (R302, R305, R310, R311, R320) -/

/-- The kinds of descriptor that D_COPY takes: its own, and the reserved ones, which it refuses. -/
theorem copyKind {k : Nat} (h : k = 1 ∨ k = 0 ∨ 5 < k) : (k = 1 || k = 0 || 5 < k : Bool) = true := by
  simpa [or_assoc] using h

/-- The bytes that a D_COPY has read, written to their place. -/
def copyInto (q p : Nat) (d : Desc) (pd : Place) (s : State) (bs : List Byte) : State :=
  match pd with
  | .host port a => (s.hostPut p port a bs).finishDesc q p d 0 false
  | .device =>
    match badPartly s.eccBad d.dst d.len with
    | w :: _ => s.descEcc p w
    | [] => (s.put d.dst bs).finishDesc q p d 0 false

theorem copyInto_device {q p : Nat} {d : Desc} {s : State} (hclean : s.Clean) (bs : List Byte) :
    copyInto q p d .device s bs = (s.put d.dst bs).finishDesc q p d 0 false := by
  rw [copyInto, badPartly_of_clean hclean]

/-- A read of host memory leaves device memory as it is, its errors included. -/
theorem clean_hostFetch {s : State} (hclean : s.Clean) (p port a n : Nat) : (s.hostFetch p port a n).1.Clean :=
  hclean

section
variable {q p : Nat} {d : Desc} {s : State} (h : s.Starts q p d) (hkind : d.kind = 1)
include h hkind

section
variable {ps pd : Place} (hsrc : s.descPlace p d.src d.len false = .inl ps)
  (hdst : s.descPlace p d.dst d.len true = .inl pd)
include hsrc hdst

theorem exec_dCopy_overlap (hover : copyOverlap d.src d.dst d.len ps pd = true) :
    exec (.dCopy q) s = .next ((s.fetched d).failDesc q p d 1) := by
  refine within_next_of_eq (decide_eq_true h.1) ((runDesc_starts (copyKind (.inl hkind)) _ h).trans ?_)
  simp only [descPlace_fetched, hsrc, hdst]
  exact if_pos hover

variable (hapart : copyOverlap d.src d.dst d.len ps pd = false)
include hapart

theorem exec_dCopy_linkDown (hdown : s.placeUp ps = false ∨ s.placeUp pd = false) :
    exec (.dCopy q) s = .next (s.fetched d) := by
  refine within_next_of_eq (decide_eq_true h.1) ((runDesc_starts (copyKind (.inl hkind)) _ h).trans ?_)
  simp only [descPlace_fetched, hsrc, hdst]
  exact (if_neg (ne_true_of_eq_false hapart)).trans (if_pos (by simpa using hdown))

end

section
variable {pd : Place} (hdst : s.descPlace p d.dst d.len true = .inl pd) (hdstUp : s.placeUp pd = true)
include hdst hdstUp

theorem exec_dCopy_fromDevice (hsrc : s.descPlace p d.src d.len false = .inl .device)
    (hapart : copyOverlap d.src d.dst d.len .device pd = false) (hclean : s.Clean) :
    exec (.dCopy q) s = .next (copyInto q p d pd (s.fetched d) (s.load d.src d.len)) := by
  refine within_next_of_eq (decide_eq_true h.1) ((runDesc_starts (copyKind (.inl hkind)) _ h).trans ?_)
  simp only [descPlace_fetched, hsrc, hdst]
  refine (if_neg (ne_true_of_eq_false hapart)).trans ((if_neg (places_up rfl hdstUp)).trans ?_)
  rw [badIn_of_clean (s := s.fetched d) hclean]
  cases pd <;> rfl

variable {port a : Nat} (hsrc : s.descPlace p d.src d.len false = .inl (.host port a))
  (hapart : copyOverlap d.src d.dst d.len (.host port a) pd = false) (hsrcUp : (s.port port).linkUp = true)
include hsrc hapart hsrcUp

/-- A D_COPY from the host fails where the host completes a read with an error. -/
theorem exec_dCopy_fromHost : exec (.dCopy q) s =
    .next (if (s.hostBad.any fun r => overlap r.1 r.2 a d.len) = true then (s.fetched d).failDesc q p d 3
      else copyInto q p d pd ((s.fetched d).hostFetch p port a d.len).1 ((s.fetched d).hostFetch p port a d.len).2) := by
  refine within_next_of_eq (decide_eq_true h.1) ((runDesc_starts (copyKind (.inl hkind)) _ h).trans ?_)
  simp only [descPlace_fetched, hsrc, hdst]
  refine (if_neg (ne_true_of_eq_false hapart)).trans ((if_neg (places_up (ps := .host port a) hsrcUp hdstUp)).trans ?_)
  cases pd <;> rfl

theorem exec_dCopy_hostReads (hgood : s.hostBad = []) : exec (.dCopy q) s = .next
    (copyInto q p d pd ((s.fetched d).hostFetch p port a d.len).1 ((s.fetched d).hostFetch p port a d.len).2) := by
  rw [exec_dCopy_fromHost h hkind hdst hdstUp hsrc hapart hsrcUp, hgood]
  rfl

end

/-- Of a refused source and a refused destination the lower status is answered. -/
theorem exec_dCopy_refused {e : Nat}
    (he : (s.descPlace p d.src d.len false = .inr e ∧ ∃ pl, s.descPlace p d.dst d.len true = .inl pl) ∨
      (s.descPlace p d.dst d.len true = .inr e ∧ ∃ pl, s.descPlace p d.src d.len false = .inl pl) ∨
      (∃ e1 e2, s.descPlace p d.src d.len false = .inr e1 ∧ s.descPlace p d.dst d.len true = .inr e2 ∧
        e = Nat.min e1 e2)) :
    exec (.dCopy q) s = .next ((s.fetched d).failDesc q p d e) := by
  refine within_next_of_eq (decide_eq_true h.1) ((runDesc_starts (copyKind (.inl hkind)) _ h).trans ?_)
  obtain ⟨hsrc, pl, hdst⟩ | ⟨hdst, pl, hsrc⟩ | ⟨e1, e2, hsrc, hdst, rfl⟩ := he
  all_goals simp only [descPlace_fetched, hsrc, hdst]

end

/-! ### D_INLINE (R309, R311, R320) -/

section
variable {q p : Nat} {d : Desc} {s : State} (h : s.Starts q p d) (hkind : d.kind = 2)
include h hkind

theorem exec_dInline_refused {e : Nat} (hdst : s.descPlace p d.dst d.len true = .inr e) :
    exec (.dInline q) s = .next ((s.fetched d).failDesc q p d e) := by
  refine within_next_of_eq (decide_eq_true h.1) ((runDesc_starts (decide_eq_true hkind) _ h).trans ?_)
  simp only [descPlace_fetched, hdst]

theorem exec_dInline_toHost {port a : Nat} (hdst : s.descPlace p d.dst d.len true = .inl (.host port a)) :
    exec (.dInline q) s = .next (if (s.port port).linkUp = true then
      ((s.fetched d).hostPut p port a (d.payload.take d.len)).finishDesc q p d 0 false else s.fetched d) := by
  refine within_next_of_eq (decide_eq_true h.1) ((runDesc_starts (decide_eq_true hkind) _ h).trans ?_)
  simp only [descPlace_fetched, hdst]
  rfl

theorem exec_dInline_toDevice (hdst : s.descPlace p d.dst d.len true = .inl .device) (hclean : s.Clean) :
    exec (.dInline q) s =
      .next (((s.fetched d).put d.dst (d.payload.take d.len)).finishDesc q p d 0 false) := by
  refine within_next_of_eq (decide_eq_true h.1) ((runDesc_starts (decide_eq_true hkind) _ h).trans ?_)
  simp only [descPlace_fetched, hdst]
  rw [badPartly_of_clean (s := s.fetched d) hclean]

end

/-- Settles O35, from the spec lemma of each outcome of the two commands above. -/
theorem descriptorsCopyWriteAndComplete : Obligations.DescriptorsCopyWriteAndComplete := by
  unfold Obligations.DescriptorsCopyWriteAndComplete
  refine ⟨?deviceToDevice, ?hostToDevice, ?deviceToHost, ?hostToHost, ?overlap, ?linkDown, ?hostError, ?addressRefused,
    ?inlineForm, ?inlineLinkDown, ?inlineToDevice, ?inlineToHost, ?copyForm, ?inlineAddress⟩
  case deviceToDevice =>
    intro q p d s h hkind hsrc hdst hapart hclean
    rw [exec_dCopy_fromDevice h hkind hdst rfl hsrc hapart hclean, copyInto_device (s := s.fetched d) hclean]
  case hostToDevice =>
    intro q p port a d s h hkind hsrc hdst hup hgood hclean
    refine ⟨_, rfl, ?_⟩
    rw [exec_dCopy_hostReads h hkind hdst rfl hsrc rfl hup hgood,
      copyInto_device (clean_hostFetch (s := s.fetched d) hclean p port a d.len)]
  case deviceToHost =>
    exact fun q p port a d s h hkind hsrc hdst hup hclean => exec_dCopy_fromDevice h hkind hdst hup hsrc rfl hclean
  case hostToHost =>
    exact fun q p port a port2 a2 d s h hkind hsrc hdst hapart hup hup2 hgood =>
      ⟨_, rfl, exec_dCopy_hostReads h hkind hdst hup2 hsrc hapart hup hgood⟩
  case overlap => exact fun q p d ps pd s h hkind hsrc hdst hover => exec_dCopy_overlap h hkind hsrc hdst hover
  case linkDown =>
    exact fun q p d ps pd s h hkind hsrc hdst hapart hdown => exec_dCopy_linkDown h hkind hsrc hdst hapart hdown
  case hostError =>
    intro q p port a d pd s h hkind hsrc hdst hapart hup hdstUp hbad
    rw [exec_dCopy_fromHost h hkind hdst hdstUp hsrc hapart hup, if_pos hbad]
  case addressRefused => exact fun q p e d s h hkind he => exec_dCopy_refused h hkind he
  case inlineForm =>
    exact fun q p d s hq hnext hkind hform =>
      within_next_of_eq (decide_eq_true hq) (runDesc_refused (decide_eq_true hkind) _ hnext hform)
  case inlineLinkDown =>
    intro q p port a d s h hkind hdst hdown
    rw [exec_dInline_toHost h hkind hdst, if_neg (ne_true_of_eq_false hdown)]
  case inlineToDevice => exact fun q p d s h hkind hdst hclean => exec_dInline_toDevice h hkind hdst hclean
  case inlineToHost =>
    intro q p port a d s h hkind hdst hup
    rw [exec_dInline_toHost h hkind hdst, if_pos hup]
  case copyForm =>
    exact fun q p d s hq hnext hkind hform =>
      within_next_of_eq (decide_eq_true hq) (runDesc_refused (copyKind hkind) _ hnext hform)
  case inlineAddress => exact fun q p e d s h hkind hdst => exec_dInline_refused h hkind hdst

end Sys2Proof.Proofs
end

