-- ==== Sys2Proof/Proofs/FencesAndServe.lean ====
section
/-! Fences, flushes and request records, and the reset of a queue (09, 12, 14). -/

namespace Sys2Proof.Proofs

open Sys2Proof Sys2Proof.Machine Sys2Proof.Laws

/-! ### D_FENCE (R307) -/

/-- A port without the read-ahead granules of a context. -/
def forgetReadAhead (p : Nat) (s : State) (port : Nat) : State :=
  s.setPort port { s.port port with readAhead := (s.port port).readAhead.filter fun e => e.1 != p }

theorem readAhead_forgetReadAhead (p : Nat) (s : State) (port k : Nat) :
    ((forgetReadAhead p s port).port k).readAhead =
      if k = port then (s.port k).readAhead.filter (fun e => e.1 != p) else (s.port k).readAhead := by
  by_cases hk : k = port
  · rw [if_pos hk, hk, forgetReadAhead, port_setPort_self]
  · rw [if_neg hk, forgetReadAhead, port_setPort_other _ _ _ _ hk]

/-- Both ports without the read-ahead granules of a context. -/
abbrev fenced (p : Nat) (s : State) : State := forgetReadAhead p (forgetReadAhead p s 0) 1

theorem readAhead_fenced (p : Nat) (s : State) {k : Nat} (hk : k < 2) :
    ((fenced p s).port k).readAhead = (s.port k).readAhead.filter fun e => e.1 != p := by
  rw [readAhead_forgetReadAhead, readAhead_forgetReadAhead]
  obtain rfl | rfl : k = 0 ∨ k = 1 := by omega
  · rfl
  · rfl

section
variable {q p : Nat} {d : Desc} {s : State} (h : s.Starts q p d)
include h

theorem exec_dFence (hkind : d.kind = 3) : exec (.dFence q) s = .next (if (s.queue q).busy ≠ 0 then s.fetched d
    else (fenced p (s.fetched d)).finishDesc q p d 0 false) := by
  refine within_next_of_eq (decide_eq_true h.1) ((runDesc_starts (decide_eq_true hkind) _ h).trans ?_)
  simp only [bne_iff_ne]
  rfl

/-! ### D_FLUSH (R308) -/

theorem exec_dFlush (hkind : d.kind = 4) : exec (.dFlush q) s = .next (if s.unflushed p = true then s.fetched d
    else (s.fetched d).finishDesc q p d 0 false) :=
  within_next_of_eq (decide_eq_true h.1) (runDesc_starts (decide_eq_true hkind) _ h)

end

/-! ### D_SERVE (R401, R403) -/

/-- The completion record of a request record, which waits until the record is decided. -/
def waitingRecord (d : Desc) : HeldRecord :=
  { HeldRecord.plain 1 0 d.n d.tag 0 with
    scope := d.scope
    irq := d.irq
    vector := d.vector
    sigEn := d.sigEn
    sigCore := d.sigCore
    sigCtr := d.sigCtr
    sigN := d.sigN
    wait := true }

/-- A request record joins those that wait for the next boundary, and its completion record those that its queue holds. -/
def requestJoined (s : State) (q p : Nat) (d : Desc) : State :=
  let u := s.setQueue q { s.queue q with
    busy := (s.queue q).busy + d.slots, held := (s.queue q).held ++ [waitingRecord d] }
  { u with serving := { u.serving with
    records := u.serving.records ++ [{ queue := q, platform := p, n := d.n, body := bitsOf d.w 512 1536 }] } }

theorem queue_requestJoined (s : State) (q p : Nat) (d : Desc) : (requestJoined s q p d).queue q =
    { s.queue q with busy := (s.queue q).busy + d.slots, held := (s.queue q).held ++ [waitingRecord d] } :=
  queue_setQueue_self s q _

section
variable {q p : Nat} {d : Desc} {s : State} (h : s.Starts q p d) (hkind : d.kind = 5)
include h hkind

theorem exec_dServe_badField
    (hbad : s.serveMode = false ∨ rqFormOk (s.plat p).queueCount (bitsOf d.w 512 1536) = false) :
    exec (.dServe q) s = .next ((s.fetched d).finishDesc q p d svBadField false) := by
  have hfield : (!s.serveMode || !rqFormOk (s.plat p).queueCount (bitsOf d.w 512 1536)) = true := by simpa using hbad
  exact within_next_of_eq (decide_eq_true h.1) ((runDesc_starts (decide_eq_true hkind) _ h).trans (if_pos hfield))

variable (hmode : s.serveMode = true) (hform : rqFormOk (s.plat p).queueCount (bitsOf d.w 512 1536) = true)
include hmode hform

/-- A body of good form joins the request records where its ranges are granted. -/
theorem exec_dServe_goodForm : exec (.dServe q) s = .next (if s.rqRangesOk p (bitsOf d.w 512 1536) = true
    then requestJoined (s.fetched d) q p d else (s.fetched d).finishDesc q p d svAddr false) := by
  have hfield : ¬ (!s.serveMode || !rqFormOk (s.plat p).queueCount (bitsOf d.w 512 1536)) = true := by simp [hmode, hform]
  refine within_next_of_eq (decide_eq_true h.1)
    ((runDesc_starts (decide_eq_true hkind) _ h).trans ((if_neg hfield).trans ?_))
  have hranges : (s.fetched d).rqRangesOk p (bitsOf d.w 512 1536) = s.rqRangesOk p (bitsOf d.w 512 1536) := rfl
  simp only [hranges]
  cases s.rqRangesOk p (bitsOf d.w 512 1536) <;> rfl

end

/-! ### Q_RESET (R489) -/

theorem exec_qReset {q : Nat} (hq : q < 4096) (s : State) : exec (.qReset q) s =
    .next (((s.releaseHeld q).orphanRecords q).setQueue q (((s.releaseHeld q).orphanRecords q).queue q).cleared) :=
  within_next _ _ (decide_eq_true hq)

/-- Settles O36, from the spec lemma of each command above. -/
theorem fencesFlushesRecordsAndQueueReset : Obligations.FencesFlushesRecordsAndQueueReset := by
  unfold Obligations.FencesFlushesRecordsAndQueueReset
  refine ⟨?fence, ?fenceWaits, ?flush, ?flushWaits, ?serve, ?serveForm, ?serveRange, ?reset⟩
  case fence =>
    intro q p d s h hkind hidle
    refine ⟨fenced p (s.fetched d), ?_, fun k hk => readAhead_fenced p (s.fetched d) hk, rfl, rfl, rfl⟩
    rw [exec_dFence h hkind, if_neg (not_not_intro hidle)]
  case fenceWaits =>
    intro q p d s h hkind hbusy
    rw [exec_dFence h hkind, if_pos hbusy]
  case flush =>
    intro q p d s h hkind hdone
    rw [exec_dFlush h hkind, if_neg (ne_true_of_eq_false hdone)]
  case flushWaits =>
    intro q p d s h hkind hheld
    rw [exec_dFlush h hkind, if_pos hheld]
  case serve =>
    intro q p d s h hkind hmode hform hranges
    refine ⟨requestJoined (s.fetched d) q p d, ?_, rfl, ?_, ?_, ?_, rfl, rfl⟩
    · rw [exec_dServe_goodForm h hkind hmode hform, if_pos hranges]
    · rw [queue_requestJoined]
      rfl
    · rw [queue_requestJoined]
      exact List.length_append
    · rw [queue_requestJoined]
      rfl
  case serveForm => exact fun q p d s h hkind hbad => exec_dServe_badField h hkind hbad
  case serveRange =>
    intro q p d s h hkind hmode hform hranges
    rw [exec_dServe_goodForm h hkind hmode hform, if_neg (ne_true_of_eq_false hranges)]
  case reset =>
    intro q s hq
    refine ⟨_, exec_qReset hq s, rfl, ?_⟩
    rw [queue_setQueue_self]
    exact ⟨rfl, rfl, rfl, rfl, rfl, rfl, rfl, rfl⟩

end Sys2Proof.Proofs
end

