-- ==== Sys2Proof/Proofs/ServingFrame.lean ====
section
/-! SUPPORT. What Stationmaster keeps (12), which signals, faults of streams and completion records leave alone. -/

namespace Sys2Proof.Proofs

open Sys2Proof Sys2Proof.Machine Sys2Proof.Laws

/-! ### Interrupts, captures and messages -/

section
variable (s : State)

@[simp] theorem raise_serving (p v : Nat) : (s.raise p v).serving = s.serving := by
  obtain h | ⟨_, h⟩ | h := raise_cases s p v <;> rw [h] <;> rfl

@[simp] theorem raiseErr_serving (p : Nat) : (s.raiseErr p).serving = s.serving := raise_serving s _ _

@[simp] theorem sticky_serving (n : Nat) : (s.sticky n).serving = s.serving := by
  obtain h | h := sticky_cases s n
  · rw [h]
  · rw [h, raise_serving, raise_serving, setOd_serving]

@[simp] theorem capture_serving (e : Event) : (s.capture e).serving = s.serving := by
  unfold State.capture
  split
  · rfl
  · simp only [setOd_serving]

theorem sendHop_serving (p kind : Nat) (more : List (Nat × Nat × Nat)) : (s.sendHop p kind more).serving = s.serving := by
  unfold State.sendHop State.sendVia
  dsimp only
  split <;> rfl

theorem sendJobFault_serving (origin cause : Nat) : (s.sendJobFault origin cause).serving = s.serving := by
  unfold State.sendJobFault
  dsimp only
  split
  · exact sendHop_serving _ _ _ _
  · exact foldl_keeps State.serving (fun s p => sendHop_serving s p _ _) _ _

/-! ### Faults (R270) -/

theorem zeroCounters_serving (p : Nat) : (s.zeroCounters p).serving = s.serving := by
  unfold State.zeroCounters
  dsimp only
  split
  · rfl
  · refine ite_keeps State.serving rfl ?_
    refine foldl_keeps State.serving (fun s e => ?_) _ _
    exact ite_keeps State.serving rfl rfl

theorem clearVtime_serving : s.clearVtime.serving = s.serving := rfl

/-- The streams of a Platform stop, its counters return to zero, and its commands are abandoned. -/
theorem stopWork_serving (p st : Nat) : (((s.markStreams p st).zeroCounters p).abandon p).serving = s.serving :=
  zeroCounters_serving (s.markStreams p st) p

theorem faultPlatform_serving (p cause tcore slot cmd : Nat) :
    (s.faultPlatform p cause tcore slot cmd).serving = s.serving := by
  unfold State.faultPlatform
  dsimp only
  split
  · rfl
  · rw [raiseErr_serving, sticky_serving, count_serving, count_serving, clearVtime_serving]
    exact ite_keeps State.serving (stopWork_serving s p 4) (stopWork_serving s p 4)

theorem faultJob_serving (e : Event) : (s.faultJob e).serving = s.serving := by
  unfold State.faultJob State.faultJobAs
  dsimp only
  split
  · rfl
  · rw [if_neg Bool.false_ne_true, sendJobFault_serving, raiseErr_serving, sticky_serving]
    exact (stopWork_serving (s.capture e) 0 4).trans (capture_serving s e)

theorem faultStream_serving (c i cause : Nat) : (s.faultStream c i cause).serving = s.serving := by
  unfold State.faultStream State.faultOwner
  dsimp only
  split
  · rw [faultPlatform_serving, capture_serving, setStream_serving]
  · rw [faultJob_serving, setStream_serving]

/-! ### Counters and streams (R253 to R257) -/

theorem checkRange_serving (c k : Nat) : (s.checkRange c k).serving = s.serving :=
  foldl_keeps State.serving (fun s _ => ite_keeps State.serving (faultStream_serving s _ _ _) rfl) _ _

/-- A consume wait takes its amount, and its stream goes on. -/
theorem consume_serving (c k v i : Nat) (prev : Option Nat) :
    (((s.setCtr c k v).makeReady c i prev).checkRange c k).serving = s.serving :=
  checkRange_serving _ c k

theorem settle_serving (c k : Nat) : (s.settle c k).serving = s.serving := by
  unfold State.settle
  dsimp only
  refine (foldl_keeps State.serving (fun s i => ?_) _ _).trans ((foldl_keeps State.serving (fun s i => ?_) _ _).trans
    (checkRange_serving s c k))
  · exact ite_keeps State.serving (consume_serving s _ _ _ _ _) rfl
  · exact ite_keeps State.serving rfl rfl

@[simp] theorem signal_serving (c k n : Nat) : (s.signal c k n).serving = s.serving :=
  settle_serving _ c k

theorem reach_serving (c i : Nat) (prev : Option Nat) : (s.reach c i prev).serving = s.serving := by
  unfold State.reach
  dsimp only
  split
  · rfl
  split
  · rfl
  split
  · rfl
  split
  · rfl
  · refine ite_keeps State.serving (faultStream_serving s _ _ _) (ite_keeps State.serving ?_ rfl)
    exact ite_keeps State.serving (consume_serving s _ _ _ _ _) rfl

theorem advance_serving (c i eng : Nat) : (s.advance c i eng).serving = s.serving :=
  ite_keeps State.serving rfl (reach_serving _ c i _)

theorem post_serving (p tcore c : Nat) (w : CmdWord) : (s.post p tcore c w).serving = s.serving := by
  unfold State.post
  split
  · rfl
  split
  · rfl
  · exact ite_keeps State.serving (signal_serving s _ _ _) rfl

/-! ### Host memory and completion records (R304, R496, R498) -/

@[simp] theorem hostPut_serving (owner p a : Nat) (bs : List Byte) : (s.hostPut owner p a bs).serving = s.serving :=
  ite_keeps State.serving rfl (ite_keeps State.serving rfl rfl)

theorem writeRecord_serving (q p : Nat) (r : HeldRecord) : (s.writeRecord q p r).serving = s.serving := by
  unfold State.writeRecord
  extract_lets x pl value bits written taken completed allPaths signalled interrupted
  have hwritten : written.serving = s.serving := hostPut_serving s _ _ _ _
  have hcompleted : completed.serving = taken.serving := ite_keeps State.serving rfl rfl
  have hallPaths : allPaths.serving = completed.serving := ite_keeps State.serving rfl rfl
  have hsignalled : signalled.serving = allPaths.serving := by
    refine ite_keeps State.serving ?_ rfl
    split
    · exact signal_serving _ _ _ _
    · rfl
  have hinterrupted : interrupted.serving = signalled.serving := ite_keeps State.serving (raise_serving _ _ _) rfl
  have hserving : interrupted.serving = s.serving :=
    hinterrupted.trans (hsignalled.trans (hallPaths.trans (hcompleted.trans hwritten)))
  split
  · exact hserving
  · refine (ite_keeps State.serving ?_ rfl).trans hserving
    exact (advance_serving _ _ _ _).trans (post_serving _ _ _ _ _)

theorem drainOne_serving (q p : Nat) : (s.drainOne q p).serving = s.serving := by
  unfold State.drainOne
  split
  · rfl
  · exact ite_keeps State.serving rfl (writeRecord_serving _ q p _)

theorem drain_serving (q p n : Nat) : (s.drain q p n).serving = s.serving :=
  foldl_keeps State.serving (fun s _ => drainOne_serving s q p) _ _

@[simp] theorem pushRecord_serving (q p : Nat) (r : HeldRecord) : (s.pushRecord q p r).serving = s.serving := by
  unfold State.pushRecord
  dsimp only
  refine ite_keeps State.serving (ite_keeps State.serving rfl (raiseErr_serving _ p)) (ite_keeps State.serving rfl ?_)
  rw [drain_serving]
  exact ite_keeps State.serving rfl rfl

end

end Sys2Proof.Proofs
end

