-- ==== Sys2Proof/Proofs/RoundBoundaries.lean ====
section
/-! Round boundaries and finished summaries (12). -/

namespace Sys2Proof.Proofs

open Sys2Proof Sys2Proof.Machine Sys2Proof.Laws

/-! ### What is written of a request -/

section
variable (s : State)

@[simp] theorem writeEntry_serving (r : Request) : (s.writeEntry r).serving = s.serving := by
  unfold State.writeEntry
  dsimp only
  split
  · rw [put_serving, put_serving]
  · rw [put_serving, put_serving, put_serving]

@[simp] theorem serveRecord_serving (r : Request) (status : Nat) : (s.serveRecord r status).serving = s.serving :=
  pushRecord_serving s _ _ _

@[simp] theorem fillSlots_serving (sp : ServePlan) (r : Request) (boundT boundS : Nat) :
    (s.fillSlots sp r boundT boundS).serving = s.serving := by
  refine foldl_keeps State.serving (fun s q => ?_) _ _
  exact ite_keeps State.serving (put_serving _ _ _) rfl

theorem reloadLayer_serving (g : LayerGeo) (slots : List Nat) (bs : List Byte) :
    (s.reloadLayer g slots bs).serving = s.serving := by
  have hput (s : State) (a b : Nat) (x y : List Byte) : ((s.put a x).put b y).serving = s.serving := rfl
  unfold State.reloadLayer
  dsimp only
  split
  · exact foldl_keeps State.serving (fun s q => hput s _ _ _ _) _ _
  · exact (foldl_keeps State.serving (fun s j => hput s _ _ _ _) _ _).trans
      (foldl_keeps State.serving (fun s j => hput s _ _ _ _) _ _)

theorem reload_serving (sp : ServePlan) (r : Request) (a : Nat) : (s.reload sp r a).serving = s.serving :=
  List.foldlRecOn (motive := fun acc : State × Nat => acc.1.serving = s.serving) _ _ rfl fun acc h q _ =>
    (reloadLayer_serving acc.1 _ q.2 _).trans h

theorem copyPartial_serving (sp : ServePlan) (r : Request) (pre : PrefixEnt) :
    (s.copyPartial sp r pre).serving = s.serving := by
  unfold State.copyPartial
  refine (foldl_keeps State.serving (fun s i => ?_) _ _).trans (foldl_keeps State.serving (fun s i => ?_) _ _)
  all_goals
    refine ite_keeps State.serving rfl ?_
    rw [put_serving, put_serving]

theorem prepare_serving (p : Nat) (sp : ServePlan) (row : PlanRow) : (s.prepare p sp row).serving = s.serving := by
  unfold State.prepare
  split
  · rfl
  · rw [fillSlots_serving, put_serving]

/-! ### The steps of a boundary keep the round's number (R401) -/

theorem round_setRequest (r : Request) : (s.setRequest r).serving.round = s.serving.round := rfl

theorem round_endRequest (r : Request) (reason : Nat) : (s.endRequest r reason).serving.round = s.serving.round := by
  rw [State.endRequest, serveRecord_serving, round_setRequest]

theorem round_takeIn (sp : ServePlan) (r : Request) (a : Admit) :
    (s.takeIn sp r a).serving.round = s.serving.round := by
  unfold State.takeIn
  extract_lets pre again got r1 counted copied entered back
  have hcopied : copied.serving = s.serving := by
    refine Eq.trans ?_ (count_serving s Od.SERVE_ADMITTED 1)
    unfold copied
    clear_value pre again
    split
    · exact copyPartial_serving _ _ _ _
    · rfl
  split
  · have hentered : entered.serving.round = s.serving.round :=
      (congrArg Serving.round (writeEntry_serving _ r1)).trans
        ((round_setRequest _ r1).trans (congrArg Serving.round hcopied))
    split
    · rwa [serveRecord_serving]
    · exact hentered
  · extract_lets r2 reloaded
    rw [serveRecord_serving, writeEntry_serving, round_setRequest, reload_serving, hcopied]

theorem round_admitAll (sp : ServePlan) (out : List Nat) (held : Bool) (fuel : Nat) :
    (s.admitAll sp out held fuel).1.serving.round = s.serving.round := by
  induction fuel generalizing s out held with
  | zero => rfl
  | succ fuel ih =>
    rw [State.admitAll]
    dsimp only
    split
    · rfl
    split
    · rw [ih, round_endRequest]
    split
    · rw [ih, round_endRequest]
    split
    · exact ih _ _ _
    split
    · rw [ih, round_takeIn]
    · exact ih _ _ _

theorem round_admitPrefixes (sp : ServePlan) : (s.admitPrefixes sp).serving.round = s.serving.round := by
  refine foldl_keeps (fun s => s.serving.round) (fun s x => ?_) _ _
  exact ite_keeps (fun s => s.serving.round) rfl rfl

theorem round_releaseEnded : s.releaseEnded.serving.round = s.serving.round := by
  unfold State.releaseEnded
  dsimp only
  rw [foldl_keeps State.serving fun s (r : Request) => put_serving s _ _]

theorem round_planRound (p : Nat) (sp : ServePlan) : (s.planRound p sp).serving.round = s.serving.round := by
  unfold State.planRound
  extract_lets rows act c v ran v' counted prepared filled planned
  have hcounted : counted.serving.round = s.serving.round := rfl
  have hprepared : prepared.serving = counted.serving :=
    foldl_keeps State.serving (fun s row => prepare_serving s p sp row) _ _
  have hfilled : filled.serving = prepared.serving := by
    refine foldl_keeps State.serving (fun s x => ?_) _ _
    split
    · rfl
    · exact fillSlots_serving _ _ _ _ _
  have hround : filled.serving.round = s.serving.round := by rw [hfilled, hprepared, hcounted]
  split
  · exact hround
  · split
    · rw [signal_serving]
      exact hround
    · exact hround

/-- A boundary's plan raises the round's number by one. -/
theorem round_boundaryPlan (p : Nat) (sp : ServePlan) :
    (s.boundaryPlan p sp).serving.round = s.serving.round + 1 := by
  unfold State.boundaryPlan
  extract_lets a admitted planned written
  have ha : a.1.serving.round = s.serving.round :=
    (round_admitAll _ _ _ _ _).trans (round_admitPrefixes s sp)
  have hadmitted : admitted.serving = a.1.serving := ite_keeps State.serving rfl rfl
  have hplanned : planned.serving.round = admitted.serving.round :=
    (round_planRound _ p sp).trans (round_releaseEnded admitted)
  have hwritten : written.serving = planned.serving :=
    foldl_keeps State.serving (fun s r => writeEntry_serving s r) _ _
  change written.serving.round + 1 = s.serving.round + 1
  rw [hwritten, hplanned, hadmitted, ha]

end

/-! ### ROUND_BOUNDARY (R401, R408, R417, R468) -/

theorem serveCounts_serving (s : State) : s.serveCounts.serving = s.serving := by
  simp only [State.serveCounts, setOd_serving]

theorem st_quiesce (s : State) (p : Nat) : ((s.quiesce p).plat p).st = 0 := by
  have hclear (t : State) : t.clearVtime.plat p = t.plat p := rfl
  unfold State.quiesce
  extract_lets dropped x qs idle emptied kept unqueued exchange job ended disarmed unserved
  have hdisarmed : (disarmed.plat p).st = 0 := congrArg Platform.st (plat_setPlat_self ended p _)
  rw [hclear]
  exact ite_keeps (fun t => (t.plat p).st) hdisarmed hdisarmed

/-- The Platform that serves, and the state once the results and the records of its round have been applied. -/
abbrev servicePlatform (s : State) : Nat := s.odv Od.SERVICE_PLATFORM

abbrev resultsApplied (s : State) (sp : ServePlan) : State := s.boundaryResults (servicePlatform s) sp

abbrev nextPlanned (s : State) (sp : ServePlan) : State := (resultsApplied s sp).boundaryPlan (servicePlatform s) sp

section
variable {us : Nat} {s : State} {sp : ServePlan} (hus : us < 2 ^ 32) (hplan : s.servePlan = some sp)
include hus hplan

/-- Before its round has finished, and where no armed Platform serves, a boundary changes nothing. -/
theorem exec_roundBoundary_notDone
    (h : s.serveMode = false ∨ s.serviceUp (servicePlatform s) = false ∨ s.roundDone (servicePlatform s) sp = false) :
    exec (.roundBoundary us) s = .next s := by
  refine within_next_of_eq (decide_eq_true hus) ?_
  simp only [hplan]
  exact if_pos (by simpa [or_assoc] using h)

variable (hmode : s.serveMode = true) (hup : s.serviceUp (servicePlatform s) = true)
  (hdone : s.roundDone (servicePlatform s) sp = true)
include hmode hup hdone

/-- At the boundary of a finished round a waiting disarm ends the service; else the next round is planned, and a round that
ran something is counted. -/
theorem exec_roundBoundary_done : exec (.roundBoundary us) s = .next
    (if ((resultsApplied s sp).plat (servicePlatform s)).disarming = true then
      (resultsApplied s sp).serviceLeaves (servicePlatform s)
    else (if s.serving.plan ≠ [] ∨ s.serving.chunks ≠ [] then
        ((nextPlanned s sp).count Od.SERVE_ROUNDS 1).countMax Od.SERVE_ROUND_MAX_US us
      else nextPlanned s sp).serveCounts) := by
  have hran : (!s.serving.plan.isEmpty || !s.serving.chunks.isEmpty) = true ↔
      s.serving.plan ≠ [] ∨ s.serving.chunks ≠ [] := by simp
  refine within_next_of_eq (decide_eq_true hus) ?_
  simp only [hplan]
  refine (if_neg (by simp [hmode, hup, hdone])).trans ?_
  simp only [hran]

end

/-! ### SUMMARY_COMPLETE (R416, R429, R430) -/

/-- The words with an uncorrected error among the pages of a request. -/
abbrev pageErrors (s : State) (r : Request) : List Nat :=
  r.pages.flatMap fun (n : Nat) => badIn s.eccBad (s.pageAddr n) 65536 ++ badIn s.eccBad (s.scaleAddr n) 2048

/-- The bytes of a request's summary: those of its layers, then its token log. -/
abbrev summaryOf (s : State) (sp : ServePlan) (r : Request) : List Byte :=
  ((s.layerSlots sp r).flatMap fun (x : Bool × List Nat) => s.layerSummary (s.layerGeo sp r x.1) x.2) ++
    r.log.flatMap (leBytes 4)

/-- A request paused: it holds no pages, no slots and no place in the firmware area. -/
abbrev pausedRequest (r : Request) : Request := { r with state := 5, pages := [], slots := [], fw := 0 }

section
variable {e a n : Nat} {lossy : Bool} {r : Request} {sp : ServePlan} {s : State} (he : e < 16384)
  (hr : (s.serving.requests.find? fun x => x.entry = e && x.state = 4 && x.ended.isNone) = some r)
  (hplan : s.servePlan = some sp) (hsummary : r.summary = some (a, n, lossy))
include he hr hplan hsummary

theorem exec_summaryComplete_pauses (hclean : pageErrors s r = []) {u : State}
    (hu : u = ((if lossy then (s.put a (summaryOf s sp r)).count Od.SERVE_LOSSY_SUMMARIES 1
      else s.put a (summaryOf s sp r)).setRequest (pausedRequest r)).writeEntry (pausedRequest r)) :
    exec (.summaryComplete e) s = .next (if r.away then u else u.serveRecord (pausedRequest r) 0x10) := by
  refine within_next_of_eq (decide_eq_true he) ?_
  simp only [hr, hplan, hsummary, hclean, hu, summaryOf, pausedRequest]

/-- A page with an uncorrected error fails the request, and the error is captured. -/
theorem exec_summaryComplete_fails {w : Nat} {ws : List Nat} (hbad : pageErrors s r = w :: ws) :
    exec (.summaryComplete e) s = .next (((s.uncorrected w).1.capture (s.uncorrected w).2).setRequest
      { r with failed := true, state := 3, summary := none }) := by
  refine within_next_of_eq (decide_eq_true he) ?_
  simp only [hr, hplan, hsummary, hbad]

end

/-- Settles O59, from the spec lemma of each outcome of the two commands above, and the round's number, which no step of a
boundary but its last changes. -/
theorem roundsEndAtTheirBoundary : Obligations.RoundsEndAtTheirBoundary := by
  unfold Obligations.RoundsEndAtTheirBoundary
  refine ⟨?idle, ?ran, ?leaves, ?notDone, ?pauses, ?fails⟩
  case idle =>
    rintro us s _ sp hus hplan hmode hup hdone rfl hstays hrows hchunks
    refine ⟨?_, (congrArg Serving.round (serveCounts_serving _)).trans (round_boundaryPlan _ _ sp)⟩
    rw [exec_roundBoundary_done hus hplan hmode hup hdone, if_neg (ne_true_of_eq_false hstays),
      if_neg (not_or.mpr ⟨not_not_intro hrows, not_not_intro hchunks⟩)]
  case ran =>
    rintro us s _ sp hus hplan hmode hup hdone rfl hstays hran
    rw [exec_roundBoundary_done hus hplan hmode hup hdone, if_neg (ne_true_of_eq_false hstays), if_pos hran]
  case leaves =>
    rintro us s _ sp hus hplan hmode hup hdone rfl hleaves
    refine ⟨?_, st_quiesce _ _⟩
    rw [exec_roundBoundary_done hus hplan hmode hup hdone, if_pos hleaves]
  case notDone => exact fun us s sp hus hplan h => exec_roundBoundary_notDone hus hplan h
  case pauses =>
    rintro e a n lossy r _ sp s _ u he hr hplan hsummary hclean rfl rfl hu
    exact exec_summaryComplete_pauses he hr hplan hsummary hclean hu
  case fails =>
    exact fun e a n w ws lossy r sp s he hr hplan hsummary hbad =>
      exec_summaryComplete_fails he hr hplan hsummary hbad

end Sys2Proof.Proofs
end

