-- ==== Sys2Proof/Proofs/LinkGroups.lean ====
section
/-! Groups of a Linam port (10): a sealed group carries its trailer and its CRC beside its frames, and nine lanes with
skews bring it back frame by frame. -/

namespace Sys2Proof.Proofs

open Sys2Proof Sys2Proof.Machine Sys2Proof.Laws

/-! ### Trailer nibbles (R339) -/

/-- A frame with nibble `j` of a trailer in the low half of its control byte. -/
def withNibble (tr j : Nat) (f : Frame) : Frame :=
  { f with ctl := BitVec.ofNat 8 (f.ctl.toNat / 16 * 16 + bitsOf tr (4 * j) 4) }

theorem bitsOf_four_lt (w lo : Nat) : bitsOf w lo 4 < 16 := Nat.mod_lt _ (by decide)

theorem ctl_withNibble (tr j : Nat) (f : Frame) :
    (withNibble tr j f).ctl.toNat = f.ctl.toNat / 16 * 16 + bitsOf tr (4 * j) 4 := by
  have hctl : f.ctl.toNat < 256 := f.ctl.isLt
  have hnibble := bitsOf_four_lt tr (4 * j)
  rw [withNibble, BitVec.toNat_ofNat, Nat.mod_eq_of_lt (by omega)]

theorem ctl_withNibble_low (tr j : Nat) (f : Frame) : (withNibble tr j f).ctl.toNat % 16 = bitsOf tr (4 * j) 4 := by
  have hnibble := bitsOf_four_lt tr (4 * j)
  rw [ctl_withNibble]
  omega

theorem ctl_withNibble_high (tr j : Nat) (f : Frame) : (withNibble tr j f).ctl.toNat / 16 = f.ctl.toNat / 16 := by
  have hnibble := bitsOf_four_lt tr (4 * j)
  rw [ctl_withNibble]
  omega

theorem withNibble_withNibble (tr u j : Nat) (f : Frame) : withNibble u j (withNibble tr j f) = withNibble u j f :=
  congrArg (fun n => { f with ctl := BitVec.ofNat 8 (n * 16 + bitsOf u (4 * j) 4) : Frame }) (ctl_withNibble_high tr j f)

/-- Induction over a list from its front, one element joining at the end. -/
theorem list_induction_at_end {α : Type} {motive : List α → Prop} (nil : motive [])
    (append_one : ∀ l a, motive l → motive (l ++ [a])) (l : List α) : motive l := by
  rw [← List.reverse_reverse l]
  induction l.reverse with
  | nil => exact nil
  | cons a l ih =>
    rw [List.reverse_cons]
    exact append_one _ a ih

theorem withTrailer_append_one (fs : List Frame) (f : Frame) (tr : Nat) :
    withTrailer (fs ++ [f]) tr = withTrailer fs tr ++ [withNibble tr fs.length f] := by
  simp [withTrailer, withNibble, List.range_succ, List.zip_append]

theorem trailerOf_append_one (fs : List Frame) (f : Frame) :
    trailerOf (fs ++ [f]) = trailerOf fs + f.ctl.toNat % 16 * 2 ^ (4 * fs.length) := by
  simp [trailerOf, List.range_succ, List.zip_append]

@[simp] theorem withTrailer_length (fs : List Frame) (tr : Nat) : (withTrailer fs tr).length = fs.length := by
  simp [withTrailer]

/-- A second trailer takes the place of the first. -/
theorem withTrailer_withTrailer (fs : List Frame) (tr u : Nat) :
    withTrailer (withTrailer fs tr) u = withTrailer fs u := by
  induction fs using list_induction_at_end with
  | nil => rfl
  | append_one fs f ih =>
    simp only [withTrailer_append_one, ih, withTrailer_length, withNibble_withNibble]

/-- The trailer of a group is what stands in its nibbles, four bits for each frame. -/
theorem trailerOf_withTrailer (fs : List Frame) (tr : Nat) :
    trailerOf (withTrailer fs tr) = tr % 2 ^ (4 * fs.length) := by
  induction fs using list_induction_at_end with
  | nil => exact (Nat.mod_one tr).symm
  | append_one fs f ih =>
    rw [withTrailer_append_one, trailerOf_append_one, ih, ctl_withNibble_low, withTrailer_length, bitsOf_eq,
      List.length_append, Nat.mul_add, Nat.pow_add, Nat.mod_mul, Nat.mul_comm (2 ^ (4 * fs.length))]
    rfl

/-- A trailer leaves the flits, and the kind and the VC in the high half of each control byte. -/
theorem withTrailer_keeps (fs : List Frame) (tr : Nat) :
    (withTrailer fs tr).map (fun f => (f.ctl.toNat / 16, f.flit)) = fs.map fun f => (f.ctl.toNat / 16, f.flit) := by
  induction fs using list_induction_at_end with
  | nil => rfl
  | append_one fs f ih =>
    rw [withTrailer_append_one, List.map_append, List.map_append, ih, List.map_singleton, List.map_singleton,
      ctl_withNibble_high]
    rfl

/-! ### The CRC of a group (R339, R340) -/

theorem crc32Bit_lt {c : Nat} (h : c < 2 ^ 32) : crc32Bit c < 2 ^ 32 := by
  have hshift : c >>> 1 < 2 ^ 32 := Nat.lt_of_le_of_lt (Nat.shiftRight_le c 1) h
  unfold crc32Bit
  split
  · exact Nat.xor_lt_two_pow hshift (by decide)
  · exact hshift

theorem crc32Byte_lt {c : Nat} (h : c < 2 ^ 32) (b : Byte) : crc32Byte c b < 2 ^ 32 := by
  have hbyte : b.toNat < 2 ^ 32 := Nat.lt_trans b.isLt (by decide)
  unfold crc32Byte
  exact crc32Bit_lt (crc32Bit_lt (crc32Bit_lt (crc32Bit_lt (crc32Bit_lt (crc32Bit_lt (crc32Bit_lt (crc32Bit_lt
    (Nat.xor_lt_two_pow h hbyte))))))))

theorem crc32c_lt (bs : List Byte) : crc32c bs < 2 ^ 32 := by
  refine Nat.xor_lt_two_pow ?_ (by decide)
  exact List.foldlRecOn bs crc32Byte (motive := (· < 2 ^ 32)) (by decide) fun _ hc b _ => crc32Byte_lt hc b

/-- The CRC of a group takes the trailer below the CRC as it stands, and the CRC's own nibbles as zero. -/
theorem groupCrc_withTrailer (fs : List Frame) (tr : Nat) :
    groupCrc (withTrailer fs tr) =
      crc32c ((withTrailer fs (tr % 2 ^ (4 * fs.length) % 2 ^ 32)).flatMap fun (f : Frame) =>
        f.ctl :: leBytes 256 f.flit) := by
  rw [groupCrc, trailerOf_withTrailer, withTrailer_withTrailer]

section
variable {fs : List Frame} {tr : Nat} (hfs : fs.length = 16) (htr : tr < 2 ^ 32)

theorem sealGroup_eq : sealGroup fs tr = withTrailer fs (tr + groupCrc (withTrailer fs tr) * 2 ^ 32) :=
  withTrailer_withTrailer _ _ _

include hfs

theorem trailerOf_sealGroup :
    trailerOf (sealGroup fs tr) = (tr + groupCrc (withTrailer fs tr) * 2 ^ 32) % 2 ^ 64 := by
  rw [sealGroup_eq, trailerOf_withTrailer, hfs]

/-- The CRC sealed into a group is the one that a receiver computes over it. -/
theorem groupCrc_sealGroup : groupCrc (sealGroup fs tr) = groupCrc (withTrailer fs tr) := by
  rw [sealGroup_eq, groupCrc_withTrailer, groupCrc_withTrailer, hfs]
  congr 3
  omega

include htr

theorem trailerOf_sealGroup_low : bitsOf (trailerOf (sealGroup fs tr)) 0 32 = tr := by
  rw [trailerOf_sealGroup hfs, bitsOf_eq]
  omega

theorem trailerOf_sealGroup_crc : bitsOf (trailerOf (sealGroup fs tr)) 32 32 = groupCrc (sealGroup fs tr) := by
  have hcrc : groupCrc (withTrailer fs tr) < 2 ^ 32 := crc32c_lt _
  rw [groupCrc_sealGroup hfs, trailerOf_sealGroup hfs, bitsOf_eq]
  omega

end

/-! ### Frames on their lanes (R331) -/

/-- What nine lanes bring of a group, each delayed by its skew. -/
abbrev skewed (skews : List Nat) (lanes : List (List Frame)) : List (List Frame) :=
  (skews.zip lanes).map fun q => List.replicate q.1 idleFrame ++ q.2

theorem listGet_replicate_append {α : Type} (d a : α) (n : Nat) (l : List α) (i : Nat) :
    listGet d (List.replicate n a ++ l) (n + i) = listGet d l i := by
  induction n with
  | zero => rw [List.replicate_zero, List.nil_append, Nat.zero_add]
  | succ n ih => rw [List.replicate_succ, List.cons_append, Nat.add_right_comm, listGet, ih]

section
variable {map : Nat} (hinj : ∀ l, l < 8 → ∀ k, k < 8 → bitsOf map (4 * l) 4 = bitsOf map (4 * k) 4 → l = k)
include hinj

/-- A map that sends each logical lane to a physical lane of its own is undone by `laneOf`. -/
theorem laneOf_mapped {l : Nat} (hl : l < 8) : laneOf map (bitsOf map (4 * l) 4) = some l := by
  refine List.find?_range_eq_some.mpr ⟨decide_eq_true rfl, List.mem_range.mpr hl, fun k hk => ?_⟩
  have hne : bitsOf map (4 * k) 4 ≠ bitsOf map (4 * l) 4 := fun he =>
    Nat.ne_of_lt hk (hinj k (Nat.lt_trans hk hl) l hl he)
  simp [hne]

variable (hphys : ∀ l, l < 8 → bitsOf map (4 * l) 4 < 9)
include hphys

/-- A physical lane that carries a logical one holds its two frames behind as many idle ones as its skew. -/
theorem listGet_skewed_spread {skews : List Nat} (hskews : skews.length = 9) (fs : List Frame) {l : Nat} (hl : l < 8) :
    listGet [] (skewed skews (spread map fs)) (bitsOf map (4 * l) 4) =
      List.replicate (listGet 0 skews (bitsOf map (4 * l) 4)) idleFrame ++
        [listGet idleFrame fs l, listGet idleFrame fs (l + 8)] := by
  have hq := hphys l hl
  rw [listGet_of_lt [] (by simpa [spread, hskews] using hq), listGet_of_lt 0 (by omega)]
  simp [spread, laneOf_mapped hinj hl]

theorem deskew_skewed_spread {skews : List Nat} (hskews : skews.length = 9) {fs : List Frame} (hfs : fs.length = 16) :
    deskew map skews (skewed skews (spread map fs)) = fs := by
  refine List.ext_getElem (by simp [deskew, hfs]) fun i hi _ => ?_
  have hi : i < 16 := by simpa [deskew] using hi
  have hlane : i % 8 < 8 := Nat.mod_lt i (by decide)
  simp only [deskew, List.getElem_map, List.getElem_range, listGet_skewed_spread hinj hphys hskews fs hlane,
    listGet_replicate_append]
  rw [← listGet_of_lt idleFrame]
  obtain hhalf | hhalf : i / 8 = 0 ∨ i / 8 = 1 := by omega
  · rw [hhalf, listGet, show i % 8 = i by omega]
  · rw [hhalf, listGet, listGet, show i % 8 + 8 = i by omega]

end

/-- Settles O30: a trailer stands in its nibbles and nowhere else, so the CRC over a sealed group is the one sealed in;
and the receive map undoes the transmit map lane by lane. -/
theorem sealedGroupsKeepTheirFlitsAndCheck : Obligations.SealedGroupsKeepTheirFlitsAndCheck := by
  unfold Obligations.SealedGroupsKeepTheirFlitsAndCheck
  refine ⟨fun fs tr hfs htr => ⟨?length, trailerOf_sealGroup_low hfs htr, trailerOf_sealGroup_crc hfs htr, ?keeps⟩,
    fun map skews fs hfs hskews hphys hinj => deskew_skewed_spread hinj hphys hskews hfs⟩
  case length => rw [sealGroup_eq, withTrailer_length, hfs]
  case keeps => rw [sealGroup_eq, withTrailer_keeps]

end Sys2Proof.Proofs
end

