-- ==== Sys2Proof/Proofs/LinkMessages.lean ====
section
/-! Messages at their destination and on their way (10): stale ones, those for other packages, and `JOB_FAULT`. -/

namespace Sys2Proof.Proofs

open Sys2Proof Sys2Proof.Machine Sys2Proof.Laws

/-! ### Messages that are sent (R360) -/

/-- What queueing a message on a port leaves alone, sending one leaves alone. -/
theorem sendVia_keeps {β : Type} (proj : State → β)
    (h : ∀ s ids q v m, proj (State.sendOn { s with msgIds := ids } q v m) = proj s) (s : State) (mask kind d : Nat)
    (more : List (Nat × Nat × Nat)) (data : List Byte) (crc : Nat) :
    proj (s.sendVia mask kind d more data crc) = proj s := by
  unfold State.sendVia
  dsimp only
  split
  · rfl
  · exact h _ _ _ _ _

theorem ackMessage_keeps {β : Type} (proj : State → β)
    (h : ∀ s ids q v m, proj (State.sendOn { s with msgIds := ids } q v m) = proj s) (s : State) (m : Message) :
    proj (s.ackMessage m) = proj s :=
  sendVia_keeps proj h s _ _ _ _ _ _

@[simp] theorem sendHop_od (s : State) (p kind : Nat) (more : List (Nat × Nat × Nat)) :
    (s.sendHop p kind more).od = s.od :=
  sendVia_keeps State.od (fun _ _ _ _ _ => rfl) s _ _ _ _ _ _

/-! ### Stale messages (R364) -/

section
variable {s : State} {p v : Nat} {m : Message} (hhead : s.inHead p v = some m) (hepoch : m.epoch ≠ s.odv Od.POINTS_EPOCH)
include hhead hepoch

theorem takeMessage_stale {mine : Message → Bool} (hmine : (mine m && decide (m.dst = s.pkg)) = true)
    (k : State → Message → State) :
    s.takeMessage p v mine k = (s.dropHead p v).count Od.LINK_STALE_DROPS 1 := by
  obtain ⟨hmine, hdst⟩ := Bool.and_eq_true_iff.mp hmine
  rw [State.takeMessage, hhead]
  exact (if_neg (by simp [hmine, of_decide_eq_true hdst])).trans (if_pos (bne_iff_ne.mpr hepoch))

theorem exec_accum_stale (hp : p < 16) (hv : v = 1) (hdst : m.dst = s.pkg) :
    exec (.accum p) s = .next ((s.dropHead p 1).count Od.LINK_STALE_DROPS 1) := by
  subst hv
  refine within_next_of_eq (decide_eq_true hp) ?_
  rw [hhead]
  exact (if_neg (by simp [hdst])).trans (if_pos (bne_iff_ne.mpr hepoch))

theorem exec_linkMessageForward_stale (hp : p < 16) (hv : v < 4) (hdst : m.dst ≠ s.pkg) :
    exec (.linkMessageForward p v) s = .next ((s.dropHead p v).count Od.LINK_STALE_DROPS 1) := by
  refine within_next_of_eq (by simp [linkOk, hp, hv]) ?_
  rw [hhead]
  exact (if_neg hdst).trans (if_pos (bne_iff_ne.mpr hepoch))

/-- Every row that takes a message drops a stale one that is its own. -/
theorem exec_taker_stale {i : Instr} {mine : State → Message → Bool} (hi : takerOf i = some (p, v, mine)) (hp : p < 16)
    (hv : v < 4) (hmine : mine s m = true) : exec i s = .next ((s.dropHead p v).count Od.LINK_STALE_DROPS 1) := by
  cases i <;> simp only [takerOf, Option.some.injEq, Prod.mk.injEq, reduceCtorEq] at hi
  all_goals obtain ⟨rfl, rfl, rfl⟩ := hi
  case accum => exact exec_accum_stale hhead hepoch hp rfl (of_decide_eq_true hmine)
  case linkMessageForward => exact exec_linkMessageForward_stale hhead hepoch hp hv (bne_iff_ne.mp hmine)
  all_goals exact within_next_of_eq (decide_eq_true hp) (takeMessage_stale hhead hepoch hmine _)

end

theorem exec_barRelease_stale {ch q : Nat} {m : Message} {s : State} (hch : ch < 16) (hdue : (s.channel ch).due = [])
    (hport : s.releasePort ch = some (q, m)) (hepoch : m.epoch ≠ s.odv Od.POINTS_EPOCH) (ns : Nat) :
    exec (.barRelease ch ns) s = .next ((s.dropHead q 0).count Od.LINK_STALE_DROPS 1) := by
  refine within_next_of_eq (decide_eq_true hch) ?_
  rw [hdue]
  dsimp only
  rw [hport]
  exact if_pos (bne_iff_ne.mpr hepoch)

/-- Settles O25: each row that takes a message compares its epoch before anything of the row's own. -/
theorem staleMessagesAreDropped : Obligations.StaleMessagesAreDropped := by
  unfold Obligations.StaleMessagesAreDropped
  refine ⟨?taken, ?release⟩
  case taken =>
    exact fun i p v mine m s hi hp hv hhead hmine hepoch => exec_taker_stale hhead hepoch hi hp hv hmine
  case release =>
    exact fun ch q ns m s hch hdue hport hepoch => exec_barRelease_stale hch hdue hport hepoch ns

/-! ### Messages for other packages (R360, R361, R363) -/

/-- The Points let a message that came in on port `p` go on: its route is valid, it may make another hop, and it does not
turn upward again once it has come from a parent. -/
abbrev mayGoOn (s : State) (p : Nat) (m : Message) : Prop :=
  bitOf (s.pointsEntry m.dst) 21 = true ∧ 1 < m.ttl ∧
    (bitOf (s.odv Od.TREE_PARENT_MASK) p = false ∨ bitOf (s.pointsEntry m.dst) 20 = false)

section
variable {s : State} {p v : Nat} {m : Message} (hp : p < 16) (hv : v < 4) (hhead : s.inHead p v = some m)
include hp hv hhead

theorem exec_linkMessageForward_own (hdst : m.dst = s.pkg) : exec (.linkMessageForward p v) s = .next s := by
  refine within_next_of_eq (by simp [linkOk, hp, hv]) ?_
  rw [hhead]
  exact if_pos hdst

variable (hdst : m.dst ≠ s.pkg) (hepoch : m.epoch = s.odv Od.POINTS_EPOCH)
include hdst hepoch

theorem exec_linkMessageForward_refused (h : bitOf (s.pointsEntry m.dst) 21 = false ∨ m.ttl ≤ 1 ∨
      (bitOf (s.odv Od.TREE_PARENT_MASK) p = true ∧ bitOf (s.pointsEntry m.dst) 20 = true)) :
    exec (.linkMessageForward p v) s = .next ((s.dropHead p v).faultMessage
      { cause := 0x0505, island := 0x7000 + p, detail := p }) := by
  refine within_next_of_eq (by simp [linkOk, hp, hv]) ?_
  rw [hhead]
  refine (if_neg hdst).trans ((if_neg (by simp [hepoch])).trans (if_pos ?_))
  simpa [or_assoc] using h

variable (h : mayGoOn s p m)
include h

/-- A message that may go on leaves by the port that its route gives, and waits while none is `ACTIVE`. -/
theorem exec_linkMessageForward_goesOn :
    exec (.linkMessageForward p v) s = .next ((s.choosePort (bitsOf (s.pointsEntry m.dst) 0 16) m.msgId).elim s fun q =>
      (s.dropHead p v).sendOn q v { m with header := setBits m.header 44 4 (m.ttl - 1) }) := by
  obtain ⟨hvalid, httl, hturn⟩ := h
  refine within_next_of_eq (by simp [linkOk, hp, hv]) ?_
  rw [hhead]
  refine (if_neg hdst).trans ((if_neg (by simp [hepoch])).trans ((if_neg ?_).trans ?_))
  · obtain hturn | hturn := hturn <;> simp [hvalid, httl, hturn]
  · cases s.choosePort (bitsOf (s.pointsEntry m.dst) 0 16) m.msgId <;> rfl

end

/-! ### JOB_FAULT (R536, R538) -/

/-- The state in which the job has faulted here because another package reported a fault. -/
abbrev peerFaulted (s : State) (p : Nat) (m : Message) : State :=
  (s.dropHead p 0).faultJobAs { cause := causePeerFault, platform := 0, detail := bitsOf m.header 520 10 } true

/-- The body of a `JOB_FAULT` as it is passed on. -/
abbrev faultBody (m : Message) : List (Nat × Nat × Nat) :=
  [(512, 8, 3), (520, 10, bitsOf m.header 520 10), (544, 16, bitsOf m.header 544 16)]

section
variable {s : State} {p : Nat} {m : Message} (hm : s.Delivers p 0 m) (hkind : m.kind = 6) (hop : m.lcOp = 3)
include hm hkind hop

theorem exec_jobFault_down
    (h : bitOf ((peerFaulted s p m).odv Od.TREE_PARENT_MASK) p = true ∨ (peerFaulted s p m).upPort = none) :
    exec (.jobFault p) s = .next ((peerFaulted s p m).downPorts.foldl (fun s q => s.sendHop q 6 (faultBody m))
      (peerFaulted s p m)) := by
  refine within_next_of_eq (decide_eq_true hm.1) ((takeMessage_delivers _ _ hm (by simp [hkind, hop])).trans ?_)
  by_cases hparent : bitOf ((peerFaulted s p m).odv Od.TREE_PARENT_MASK) p = true
  · exact if_pos hparent
  · refine (if_neg hparent).trans ?_
    dsimp only
    rw [h.resolve_left hparent]

theorem exec_jobFault_up {q : Nat} (hparent : bitOf ((peerFaulted s p m).odv Od.TREE_PARENT_MASK) p = false)
    (hup : (peerFaulted s p m).upPort = some q) :
    exec (.jobFault p) s = .next ((peerFaulted s p m).sendHop q 6 (faultBody m)) := by
  refine within_next_of_eq (decide_eq_true hm.1) ((takeMessage_delivers _ _ hm (by simp [hkind, hop])).trans ?_)
  refine (if_neg (ne_true_of_eq_false hparent)).trans ?_
  dsimp only
  rw [hup]

end

/-- Settles O28, from the spec lemma of each outcome of the two commands above. -/
theorem messagesAreForwardedAndJobFaultsSpread : Obligations.MessagesAreForwardedAndJobFaultsSpread := by
  unfold Obligations.MessagesAreForwardedAndJobFaultsSpread
  refine ⟨?forwards, ?refused, ?waits, ?stale, ?own, ?down, ?up⟩
  case forwards =>
    intro p v q m s hp hv hhead hdst hepoch hvalid httl hturn hport
    have hexec := exec_linkMessageForward_goesOn hp hv hhead hdst hepoch ⟨hvalid, httl, hturn⟩
    rw [hport] at hexec
    exact ⟨_, hexec, rfl, rfl⟩
  case refused =>
    exact fun p v m s hp hv hhead hdst hepoch h => exec_linkMessageForward_refused hp hv hhead hdst hepoch h
  case waits =>
    intro p v m s hp hv hhead hdst hepoch hvalid httl hturn hport
    rw [exec_linkMessageForward_goesOn hp hv hhead hdst hepoch ⟨hvalid, httl, hturn⟩, hport]
    rfl
  case stale => exact fun p v m s hp hv hhead hdst hepoch => exec_linkMessageForward_stale hhead hepoch hp hv hdst
  case own => exact fun p v m s hp hv hhead hdst => exec_linkMessageForward_own hp hv hhead hdst
  case down => exact fun p m s hm hkind hop h => exec_jobFault_down hm hkind hop h
  case up => exact fun p q m s hm hkind hop hparent hup => exec_jobFault_up hm hkind hop hparent hup

end Sys2Proof.Proofs
end

