-- ==== Sys2Proof/Proofs/LinkPorts.lean ====
section
/-! Linam ports (10): groups in sequence, replays, lanes that fail, training, resets and the Points. -/

namespace Sys2Proof.Proofs

open Sys2Proof Sys2Proof.Machine Sys2Proof.Laws

/-! ### Groups that arrive (R340, R343, R345, R347) -/

/-- The group that port `p` gathers from what its nine lanes bring. -/
abbrev gatheredGroup (s : State) (p : Nat) (lanes : List (List Frame)) : List Frame :=
  deskew (s.odv (lpKey Od.LP_RX_LANE_MAP p)) (s.link p).skews lanes

/-- The port has taken a group's acknowledgement, credits and flits. -/
abbrev groupTaken (s : State) (p : Nat) (fs : List Frame) : State :=
  (s.setLink p ((s.link p).accept fs)).count Od.LINK_RX_BYTES 4096

/-- The port asks its peer for a replay. -/
abbrev nakSet (s : State) (p : Nat) : State := s.setLink p { s.link p with nakTx := true }

theorem linkActive_of_od {s t : State} (h : t.od = s.od) (p : Nat) : t.linkActive p = s.linkActive p := by
  simp only [State.linkActive, odv_of_od s t _ h]

section
variable {s : State} {p : Nat} {lanes : List (List Frame)} (hp : p < 16) (hlanes : lanes.length = 9)
  (hactive : s.linkActive p = true) (hruns : s.portParked p = false)
include hp hlanes hactive hruns

theorem exec_linkGroupReceive_discarded {ok : Bool} (h : (s.link p).accepts (gatheredGroup s p lanes) ok = false) :
    exec (.linkGroupReceive p lanes ok) s =
      .next ((nakSet (if ok then s else s.count Od.LINK_FEC_UNCORRECTABLE 1) p).sendGroup p) := by
  refine within_next_of_eq (by simp [linkOk, hp, hlanes]) ((if_neg (by simp [hactive, hruns])).trans
    ((if_pos (by simp [h])).trans ?_))
  cases ok <;> rfl

theorem exec_linkGroupReceive_accepted {ok : Bool} (h : (s.link p).accepts (gatheredGroup s p lanes) ok = true)
    {t : State} (ht : t = if (s.link p).again (gatheredGroup s p lanes) then (groupTaken s p (gatheredGroup s p lanes)).replay p
      else groupTaken s p (gatheredGroup s p lanes)) :
    exec (.linkGroupReceive p lanes ok) s = .next (if t.linkActive p then t.sendGroup p else t) := by
  obtain rfl : ok = true := by
    cases ok
    · simp [LinkPort.accepts] at h
    · rfl
  subst ht
  exact within_next_of_eq (by simp [linkOk, hp, hlanes]) ((if_neg (by simp [hactive, hruns])).trans
    (if_neg (by simp [h])))

end

/-- Settles O29, from the two spec lemmas above: a group is accepted, with or without a replay first, or discarded. -/
theorem groupsAreAcceptedInSequenceOnly : Obligations.GroupsAreAcceptedInSequenceOnly := by
  unfold Obligations.GroupsAreAcceptedInSequenceOnly
  refine ⟨?accepted, ?replayed, ?failed, ?uncorrectable, ?discarded⟩
  case accepted =>
    rintro p lanes _ ok s hp hlanes rfl hactive hruns haccepts hagain
    rw [exec_linkGroupReceive_accepted hp hlanes hactive hruns haccepts
      (if_neg (ne_true_of_eq_false hagain)).symm, if_pos]
    exact (linkActive_of_od rfl p).trans hactive
  case replayed =>
    rintro p lanes _ ok s hp hlanes rfl hactive hruns haccepts hagain hstays
    rw [exec_linkGroupReceive_accepted hp hlanes hactive hruns haccepts (if_pos hagain).symm, if_pos hstays]
  case failed =>
    rintro p lanes _ ok s hp hlanes rfl hactive hruns haccepts hagain hfails
    rw [exec_linkGroupReceive_accepted hp hlanes hactive hruns haccepts (if_pos hagain).symm,
      if_neg (ne_true_of_eq_false hfails)]
  case uncorrectable =>
    exact fun p lanes s hp hlanes hactive hruns => exec_linkGroupReceive_discarded hp hlanes hactive hruns rfl
  case discarded =>
    rintro p lanes _ s hp hlanes rfl hactive hruns hbad
    exact exec_linkGroupReceive_discarded hp hlanes hactive hruns hbad

/-! ### Replays (R347, R348) -/

theorem lpKey_ne {j k : Nat} (h : j % 256 ≠ k % 256) (p : Nat) : lpKey j p ≠ lpKey k p := by
  unfold lpKey
  omega

section
variable {s : State} {p : Nat} (hactive : s.linkActive p = true)
include hactive

/-- A deadline that runs out, with a group held and no substitution in progress, replays unless the limit is reached. -/
theorem exec_linkAckDeadline_late (hp : p < 16) {ns : Nat} (hruns : s.portParked p = false)
    (hrx : (s.link p).rxSub = none) (hlate : s.odv Od.LINK_ACK_DEADLINE ≤ ns) (hheld : (s.link p).retryBuf ≠ [])
    (htx : (s.link p).txSub = false) :
    exec (.linkAckDeadline p ns) s = .next (if s.odv Od.LINK_REPLAY_LIMIT ≤ (s.link p).replays then s.portLost p 5
      else (s.resendAll p { s.link p with replays := (s.link p).replays + 1 }).count Od.LINK_REPLAYS 1) :=
  within_next_of_eq (decide_eq_true hp) ((if_pos (by simp [hactive, hruns, hrx, htx, hlate])).trans
    ((if_neg (by simpa using hheld)).trans (if_neg (ne_true_of_eq_false htx))))

/-! ### Lanes that fail (R333 to R335) -/

theorem exec_laneSubTimeout_late (hp : p < 16) {ns : Nat} (hruns : s.portParked p = false)
    (hrx : (s.link p).rxSub ≠ none) (hlate : 2500 < ns) : exec (.laneSubTimeout p ns) s = .next (s.portLost p 5) :=
  within_next_of_eq (decide_eq_true hp) (if_pos (by
    simp [hactive, hruns, hlate, Option.isSome_iff_ne_none.mpr hrx]))

variable {lane ll : Nat} (hmapped : laneOf (s.odv (lpKey Od.LP_RX_LANE_MAP p)) lane = some ll)
include hmapped

theorem substitute_spare {q : Nat} (hfree : (s.link p).rxSpareUsed = false)
    (hspare : spareOf (s.odv (lpKey Od.LP_RX_LANE_MAP p)) (s.odv (lpKey Od.LP_FAILED_LANES p) / 65536) = some q) :
    s.substitute p lane = (((((s.setOd (lpKey Od.LP_RX_LANE_MAP p)
      (setBits (s.odv (lpKey Od.LP_RX_LANE_MAP p)) (4 * ll) 4 q)).setOd (lpKey Od.LP_FAILED_LANES p)
      (withBit (s.odv (lpKey Od.LP_FAILED_LANES p)) (16 + lane))).setLink p
      { s.link p with rxSub := some ll, rxSpareUsed := true }).count Od.LINK_LANE_SUBS 1).sticky 18).sendHop p 6
      [(512, 8, 1), (520, 4, ll), (524, 4, q)] := by
  simp only [State.substitute, hactive, hmapped, hfree, hspare, if_true, Bool.false_eq_true, if_false]

theorem substitute_noSpare (h : (s.link p).rxSpareUsed = true ∨
      spareOf (s.odv (lpKey Od.LP_RX_LANE_MAP p)) (s.odv (lpKey Od.LP_FAILED_LANES p) / 65536) = none) :
    s.substitute p lane = s.portLost p 5 := by
  have hnone : (if (s.link p).rxSpareUsed then none else
      spareOf (s.odv (lpKey Od.LP_RX_LANE_MAP p)) (s.odv (lpKey Od.LP_FAILED_LANES p) / 65536)) = none := by
    obtain hused | hspare := h
    · exact if_pos hused
    · rw [hspare, ite_self]
  simp only [State.substitute, hactive, hmapped, hnone, if_true]

end

theorem lane_inRange {p lane : Nat} (hp : p < 16) (hlane : lane < 9) : (linkOk p && lane < 9) = true := by
  simp [linkOk, hp, hlane]

theorem exec_laneLockLoss {p lane : Nat} (hp : p < 16) (hlane : lane < 9) (s : State) :
    exec (.laneLockLoss p lane) s = .next (s.substitute p lane) :=
  within_next _ _ (lane_inRange hp hlane)

theorem exec_laneSub_moves {s : State} {p : Nat} {m : Message} (hm : s.Delivers p 0 m) (hkind : m.kind = 6)
    (hop : m.lcOp = 1) (hll : bitsOf m.header 520 4 < 8) (hq : bitsOf m.header 524 4 < 9) :
    exec (.laneSub p) s = .next (((((s.dropHead p 0).setOd (lpKey Od.LP_TX_LANE_MAP p)
      (setBits (s.odv (lpKey Od.LP_TX_LANE_MAP p)) (4 * bitsOf m.header 520 4) 4 (bitsOf m.header 524 4))).setOd
      (lpKey Od.LP_FAILED_LANES p) (withBit (s.odv (lpKey Od.LP_FAILED_LANES p))
        (bitsOf (s.odv (lpKey Od.LP_TX_LANE_MAP p)) (4 * bitsOf m.header 520 4) 4))).resendAll p
      { (s.dropHead p 0).link p with txSpareUsed := true, txSub := true }).sticky 18) := by
  refine within_next_of_eq (decide_eq_true hm.1) ((takeMessage_delivers _ _ hm (by simp [hkind, hop])).trans
    ((if_neg (by simp [hll, hq])).trans ?_))
  dsimp only
  rw [odv_setOd_other _ _ _ _ (lpKey_ne (by decide) p)]
  rfl

/-- Settles O32, from the spec lemma of each outcome above. -/
theorem replayAndLaneSubstitution : Obligations.ReplayAndLaneSubstitution := by
  unfold Obligations.ReplayAndLaneSubstitution
  refine ⟨?replays, ?limit, ?spare, ?noSpare, ?window, ?timeout, ?transmitter⟩
  case replays =>
    intro p ns s hp hactive hruns hrx hlate hheld htx hlimit
    rw [exec_linkAckDeadline_late hactive hp hruns hrx hlate hheld htx, if_neg (Nat.not_le.mpr hlimit)]
  case limit =>
    intro p ns s hp hactive hruns hrx hlate hheld htx hlimit
    rw [exec_linkAckDeadline_late hactive hp hruns hrx hlate hheld htx, if_pos hlimit]
  case spare =>
    intro p lane ll q s hp hlane hactive hmapped hfree hspare
    rw [exec_laneLockLoss hp hlane, substitute_spare hactive hmapped hfree hspare]
  case noSpare =>
    intro p lane ll s hp hlane hactive hmapped hnone
    rw [exec_laneLockLoss hp hlane, substitute_noSpare hactive hmapped hnone]
  case window => exact fun p lane ratio s hp hlane => within_next _ _ (lane_inRange hp hlane)
  case timeout => exact fun p ns s hp hactive hruns hrx hlate => exec_laneSubTimeout_late hactive hp hruns hrx hlate
  case transmitter => exact fun p m s hm hkind hop hll hq => exec_laneSub_moves hm hkind hop hll hq

end Sys2Proof.Proofs
end

