-- ==== Sys2Proof/Proofs/LinkTraining.lean ====
section
/-! Linam ports that train, connect, fail and are reset, and the commit of the Points (10). -/

namespace Sys2Proof.Proofs

open Sys2Proof Sys2Proof.Machine Sys2Proof.Laws

/-! ### Entries and ports that a fault leaves alone (R270, R271, R338, R541) -/

/-- The entries that a fault writes: the first-error capture, the sticky log, the armed `SERVICE` Platform, and the state
of the buddy that a port led to. -/
def faultKeys : List Nat :=
  [Od.FE_VALID, Od.FE_CAUSE, Od.FE_ISLAND, Od.FE_PLATFORM, Od.FE_CORE, Od.FE_SLOT, Od.FE_CMD_INDEX, Od.FE_DETAIL,
    Od.FE_STEP, Od.FE_TIME_MS, Od.STICKY_LOG, Od.SERVICE_PLATFORM, Od.BUDDY_STATE]

theorem lpState_not_mem_faultKeys {p : Nat} (hp : p < 16) : lpKey Od.LP_STATE p ∉ faultKeys := by
  have hkeys : ∀ k ∈ faultKeys, k < Od.LP_STATE ∨ Od.LP_STATE + 256 * 16 ≤ k := by decide
  intro hmem
  have hrange := hkeys _ hmem
  unfold lpKey at hrange
  omega

/-- The value of one entry of the Object Dictionary, and every Linam port. -/
def entryAndLinks (k : Nat) (s : State) : Nat × Tab LinkPort := (s.odv k, s.links)

theorem entryAndLinks_of_same {s t : State} (ho : t.od = s.od) (hl : t.links = s.links) (k : Nat) :
    entryAndLinks k t = entryAndLinks k s :=
  Prod.ext (odv_of_od s t k ho) hl

theorem entryAndLinks_raise (k : Nat) (s : State) (p v : Nat) :
    entryAndLinks k (s.raise p v) = entryAndLinks k s := by
  obtain h | ⟨_, h⟩ | h := raise_cases s p v <;> rw [h] <;> exact entryAndLinks_of_same rfl rfl k

theorem entryAndLinks_count (k : Nat) (s : State) (j n : Nat) :
    entryAndLinks k (s.count j n) = entryAndLinks k s :=
  entryAndLinks_of_same rfl rfl k

theorem entryAndLinks_clearVtime (k : Nat) (s : State) : entryAndLinks k s.clearVtime = entryAndLinks k s :=
  entryAndLinks_of_same rfl rfl k

theorem zeroCounters_keeps {β : Type} (proj : State → β) (h : ∀ s cs, proj { s with cores := cs } = proj s) (s : State)
    (p : Nat) : proj (s.zeroCounters p) = proj s := by
  unfold State.zeroCounters
  dsimp only
  split
  · rfl
  · refine ite_keeps proj (h _ _) ?_
    exact foldl_keeps proj (fun s e => ite_keeps proj rfl (h _ _)) _ _

/-- The streams of a Platform stop, its counters return to zero, and its commands are abandoned. -/
theorem stopWork_od (s : State) (p st : Nat) : (((s.markStreams p st).zeroCounters p).abandon p).od = s.od :=
  zeroCounters_keeps State.od (fun _ _ => rfl) (s.markStreams p st) p

theorem stopWork_links (s : State) (p st : Nat) : (((s.markStreams p st).zeroCounters p).abandon p).links = s.links :=
  zeroCounters_keeps State.links (fun _ _ => rfl) (s.markStreams p st) p

section
variable {k : Nat} (hk : k ∉ faultKeys) (s : State)
include hk

theorem entryAndLinks_setOd {j : Nat} (hj : j ∈ faultKeys) (v : Nat) :
    entryAndLinks k (s.setOd j v) = entryAndLinks k s :=
  Prod.ext (odv_setOd_other _ _ _ _ (ne_of_mem_of_not_mem hj hk).symm) rfl

theorem entryAndLinks_sticky (n : Nat) : entryAndLinks k (s.sticky n) = entryAndLinks k s := by
  obtain h | h := sticky_cases s n
  · rw [h]
  · rw [h, entryAndLinks_raise, entryAndLinks_raise, entryAndLinks_setOd hk s (by decide)]

theorem entryAndLinks_capture (e : Event) : entryAndLinks k (s.capture e) = entryAndLinks k s := by
  refine ite_keeps (entryAndLinks k) rfl ?_
  repeat rw [entryAndLinks_setOd hk _ (by decide)]

theorem entryAndLinks_faultPlatform (p cause tcore slot cmd : Nat) :
    entryAndLinks k (s.faultPlatform p cause tcore slot cmd) = entryAndLinks k s := by
  unfold State.faultPlatform
  dsimp only
  split
  · rfl
  · rw [State.raiseErr, entryAndLinks_raise, entryAndLinks_sticky hk, entryAndLinks_count, entryAndLinks_count,
      entryAndLinks_clearVtime]
    refine (ite_keeps (entryAndLinks k) (entryAndLinks_setOd hk _ (by decide) _) rfl).trans ?_
    exact entryAndLinks_of_same (stopWork_od s p 4) (stopWork_links s p 4) k

/-- A job that faults here because another package reported it sends nothing. -/
theorem entryAndLinks_faultJobAs_peer (e : Event) : entryAndLinks k (s.faultJobAs e true) = entryAndLinks k s := by
  unfold State.faultJobAs
  dsimp only
  split
  · rfl
  · rw [if_pos rfl, State.raiseErr, entryAndLinks_raise, entryAndLinks_sticky hk]
    exact (entryAndLinks_of_same (stopWork_od (s.capture e) 0 4) (stopWork_links (s.capture e) 0 4) k).trans
      (entryAndLinks_capture hk s e)

theorem entryAndLinks_buddyLost (p : Nat) : entryAndLinks k (s.buddyLost p) = entryAndLinks k s :=
  ite_keeps (entryAndLinks k) (entryAndLinks_setOd hk s (by decide) 3) rfl

end

/-- A job that faults of itself then reports the fault over the tree. -/
theorem faultJob_cases (s : State) (e : Event) :
    s.faultJob e = s ∨ ∃ origin, s.faultJob e = (s.faultJobAs e true).sendJobFault origin e.cause := by
  by_cases ha : s.job.active = true
  · refine .inr ⟨(s.faultJobAs e true).pkg, ?_⟩
    simp only [State.faultJob, State.faultJobAs, ha]
    rfl
  · exact .inl (if_pos (by simp [ha]))

/-! ### Ports that fail or are reset (R51, R338) -/

theorem linkActive_of_choosePort {s : State} {mask k q : Nat} (h : s.choosePort mask k = some q) :
    s.linkActive q = true := by
  unfold State.choosePort at h
  dsimp only at h
  split at h
  · cases h
  · next hsome =>
    have hlt : k % ((maskPorts mask).filter s.linkActive).length < ((maskPorts mask).filter s.linkActive).length :=
      Nat.mod_lt _ (List.length_pos_iff.mpr (by simpa using hsome))
    rw [listGet_of_lt 0 hlt, Option.some.injEq] at h
    exact h ▸ (List.mem_filter.mp (List.getElem_mem hlt)).2

section
variable {s : State} {p : Nat} (hidle : s.linkActive p = false)
include hidle

/-- A message leaves by an `ACTIVE` port, so a port that is not `ACTIVE` is left as it is. -/
theorem link_sendHop_of_idle (q kind : Nat) (more : List (Nat × Nat × Nat)) :
    (s.sendHop q kind more).link p = s.link p := by
  unfold State.sendHop State.sendVia
  dsimp only
  split
  · rfl
  · next r hr =>
    have hne : p ≠ r := fun hpr => Bool.false_ne_true (hidle.symm.trans (hpr ▸ linkActive_of_choosePort hr))
    exact link_setLink_other _ _ _ _ hne

theorem link_sendHops_of_idle (kind : Nat) (more : List (Nat × Nat × Nat)) (qs : List Nat) :
    (qs.foldl (fun s q => s.sendHop q kind more) s).link p = s.link p := by
  induction qs generalizing s with
  | nil => rfl
  | cons q qs ih =>
    exact (ih ((linkActive_of_od (sendHop_od _ _ _ _) p).trans hidle)).trans (link_sendHop_of_idle hidle q kind more)

theorem link_sendJobFault_of_idle (origin cause : Nat) : (s.sendJobFault origin cause).link p = s.link p := by
  unfold State.sendJobFault
  dsimp only
  split
  · exact link_sendHop_of_idle hidle _ _ _
  · exact link_sendHops_of_idle hidle _ _ _

end

theorem sendJobFault_od (s : State) (origin cause : Nat) : (s.sendJobFault origin cause).od = s.od := by
  unfold State.sendJobFault
  dsimp only
  split
  · exact sendHop_od _ _ _ _
  · exact foldl_keeps State.od (fun s q => sendHop_od s q _ _) _ _

/-- A port and its state are the same in `t` as in `s`. -/
def SamePort (p : Nat) (s t : State) : Prop :=
  t.odv (lpKey Od.LP_STATE p) = s.odv (lpKey Od.LP_STATE p) ∧ t.link p = s.link p

theorem SamePort.trans {p : Nat} {s t u : State} (h : SamePort p s t) (h' : SamePort p t u) : SamePort p s u :=
  ⟨h'.1.trans h.1, h'.2.trans h.2⟩

theorem SamePort.linkActive {p : Nat} {s t : State} (h : SamePort p s t) : t.linkActive p = s.linkActive p :=
  congrArg (fun v => decide (v = 3)) h.1

theorem samePort_of_entryAndLinks {p : Nat} {s t : State}
    (h : entryAndLinks (lpKey Od.LP_STATE p) t = entryAndLinks (lpKey Od.LP_STATE p) s) : SamePort p s t := by
  obtain ⟨ho, hl⟩ := Prod.mk.inj h
  exact ⟨ho, congrArg (fun links : Tab LinkPort => tabGet LinkPort.empty links p) hl⟩

/-- A mask with one bit set names that port. -/
theorem maskPorts_two_pow : ∀ p, p < 16 → maskPorts (2 ^ p) = [p] := by decide +kernel

/-- Port `p` in state `st` with nothing left of what it held. -/
abbrev portEmptied (s : State) (p st : Nat) : State := (s.setLink p .empty).setOd (lpKey Od.LP_STATE p) st

section
variable {p : Nat} (hp : p < 16)
include hp

theorem samePort_faultJob {s : State} (hidle : s.linkActive p = false) (e : Event) : SamePort p s (s.faultJob e) := by
  have hpeer : SamePort p s (s.faultJobAs e true) :=
    samePort_of_entryAndLinks (entryAndLinks_faultJobAs_peer (lpState_not_mem_faultKeys hp) s e)
  have hidle' : (s.faultJobAs e true).linkActive p = false := hpeer.linkActive.trans hidle
  obtain h | ⟨origin, h⟩ := faultJob_cases s e <;> rw [h]
  · exact ⟨rfl, rfl⟩
  · exact hpeer.trans ⟨odv_of_od _ _ _ (sendJobFault_od _ _ _), link_sendJobFault_of_idle hidle' _ _⟩

/-- What a port's failure faults leaves the port itself alone once it is no longer `ACTIVE`. -/
theorem samePort_faultPort {s : State} (hidle : s.linkActive p = false) : SamePort p s (s.faultPort p) := by
  have hk := lpState_not_mem_faultKeys hp
  have hcapture : ∀ e, SamePort p s (s.capture e) := fun e => samePort_of_entryAndLinks (entryAndLinks_capture hk s e)
  unfold State.faultPort
  dsimp only
  split
  · exact hcapture _
  split
  · exact (hcapture _).trans (samePort_of_entryAndLinks
      (foldl_keeps _ (fun s q => entryAndLinks_faultPlatform hk s _ _ _ _ _) _ _))
  · exact (hcapture _).trans (samePort_faultJob hp ((hcapture _).linkActive.trans hidle) _)

theorem portLost_port (s : State) {st : Nat} (hst : st ≠ 3) :
    (s.portLost p st).link p = .empty ∧ (s.portLost p st).odv (lpKey Od.LP_STATE p) = st := by
  have hstate : (portEmptied s p st).odv (lpKey Od.LP_STATE p) = st := odv_setOd_self _ _ _
  have hbuddy : SamePort p (portEmptied s p st) ((portEmptied s p st).buddyLost p) :=
    samePort_of_entryAndLinks (entryAndLinks_buddyLost (lpState_not_mem_faultKeys hp) _ p)
  have hidle : ((portEmptied s p st).buddyLost p).linkActive p = false :=
    hbuddy.linkActive.trans (decide_eq_false (hstate.symm ▸ hst))
  obtain ⟨hentry, hlink⟩ := hbuddy.trans (samePort_faultPort hp hidle)
  exact ⟨hlink.trans (link_setLink_self s p _), hentry.trans hstate⟩

theorem exec_linkPortReset_one {v : Nat} {s : State} (hv : v = 2 ^ p) (hon : s.odv (lpKey Od.LP_STATE p) ≠ 0) :
    exec (.linkPortReset v) s = .next (s.portLost p 1) := by
  have hvalue : v < 65536 := hv ▸ Nat.pow_lt_pow_right (by decide) hp
  refine within_next_of_eq (decide_eq_true hvalue) ?_
  rw [State.resetPorts, hv, maskPorts_two_pow p hp,
    List.filter_cons_of_pos (p := fun p => s.odv (lpKey Od.LP_STATE p) != 0) (bne_iff_ne.mpr hon), List.filter_nil,
    List.foldl_cons, List.foldl_nil]

end

theorem exec_linamParkDeadline_late {isl ns : Nat} {s : State} (hok : islandOk isl = true) (hcode : islCode isl = 7)
    (hparked : (s.island isl).parked = true) (hlate : s.odv Od.BARRIER_TOKEN_DEADLINE < ns)
    (hon : s.odv (lpKey Od.LP_STATE (islInst isl)) ≠ 0) (hup : s.odv (lpKey Od.LP_STATE (islInst isl)) ≠ 5) :
    exec (.linamParkDeadline isl ns) s = .next (s.portLost (islInst isl) 5) :=
  within_next_of_eq (by simp [hok, hcode]) (if_pos (by simp [hparked, hlate, hon, hup]))

/-! ### Training (R335 to R337) -/

/-- The lanes of each direction that trained and are not recorded as failed. -/
abbrev txGoodLanes (s : State) (p tx : Nat) : List Nat := goodLanes tx (s.odv (lpKey Od.LP_FAILED_LANES p) % 65536)

abbrev rxGoodLanes (s : State) (p rx : Nat) : List Nat := goodLanes rx (s.odv (lpKey Od.LP_FAILED_LANES p) / 65536)

section
variable {s : State} {p : Nat} (hp : p < 16)
include hp

theorem exec_portTrainingStart {skews : List Nat} (hskews : skews.length = 9) (hrails : s.mainUp = true)
    (hruns : s.portParked p = false) (hon : s.odv (lpKey Od.LP_ENABLE p) ≠ 0) (hidle : s.linkActive p = false)
    (tx rx : Nat) :
    exec (.portTrainingStart p tx rx skews) s = .next
      (if (txGoodLanes s p tx).length < 8 ∨ (rxGoodLanes s p rx).length < 8 then s.setOd (lpKey Od.LP_STATE p) 1
      else (((s.setLink p { s.link p with skews := skews }).setOd (lpKey Od.LP_TX_LANE_MAP p)
        (laneMap (txGoodLanes s p tx))).setOd (lpKey Od.LP_RX_LANE_MAP p) (laneMap (rxGoodLanes s p rx))).setOd
        (lpKey Od.LP_STATE p) 2) := by
  refine within_next_of_eq (by simp [linkOk, hp, hskews]) ((if_neg (by simp [hrails, hruns, hon, hidle])).trans ?_)
  simp only [Bool.or_eq_true, decide_eq_true_eq]

theorem exec_portTrainingTimeout_late {ms : Nat} (htrains : s.odv (lpKey Od.LP_STATE p) = 2) (hlate : 1000 ≤ ms) :
    exec (.portTrainingTimeout p ms) s = .next (s.setOd (lpKey Od.LP_STATE p) 1) :=
  within_next_of_eq (decide_eq_true hp) (if_pos (by simp [htrains, hlate]))

theorem exec_portTrainingRetry_due {ms : Nat} (hrails : s.mainUp = true) (hruns : s.portParked p = false)
    (hdown : s.odv (lpKey Od.LP_STATE p) = 1) (hon : s.odv (lpKey Od.LP_ENABLE p) = 1) (hdue : 5000 ≤ ms) :
    exec (.portTrainingRetry p ms) s = .next ((s.setLink p .empty).setOd (lpKey Od.LP_STATE p) 2) :=
  within_next_of_eq (decide_eq_true hp) (if_pos (by simp [hrails, hruns, hdown, hon, hdue]))

end

/-! ### The handshake (R337) -/

theorem gather_keeps {β : Type} (proj : State → β) (hchannel : ∀ s n x, proj (State.setChannel s n x) = proj s)
    (hsend : ∀ s ids q v m, proj (State.sendOn { s with msgIds := ids } q v m) = proj s) (s : State) (p ch n : Nat) :
    proj (s.gather p ch n) = proj s := by
  unfold State.gather
  split
  · rfl
  · refine ite_keeps proj rfl (ite_keeps proj (hchannel _ _ _) ?_)
    split
    · rfl
    · exact (sendVia_keeps proj hsend _ _ _ _ _ _ _).trans (hchannel _ _ _)

/-- Gathering the barriers changes their channels and sends tokens, and nothing else. -/
theorem regather_keeps {β : Type} (proj : State → β) (hchannel : ∀ s n x, proj (State.setChannel s n x) = proj s)
    (hsend : ∀ s ids q v m, proj (State.sendOn { s with msgIds := ids } q v m) = proj s) (s : State) :
    proj s.regather = proj s := by
  refine foldl_keeps proj (fun s ch => ?_) _ _
  split
  · rfl
  · exact gather_keeps proj hchannel hsend _ _ _ _

/-- The two sequences of a port, the groups that it holds, and the credit limits of its VCs. -/
def sequencesAndLimits (p : Nat) (s : State) : Nat × Nat × List TxGroup × (Nat → Nat) :=
  ((s.link p).txSeq, (s.link p).rxNext, (s.link p).retryBuf, fun v => ((s.link p).vc v).limit)

theorem limit_sendOn (l : LinkPort) (v w : Nat) (m : Message) :
    (tabGet .empty (tabMod .empty l.vcs v fun c => { c with outbox := c.outbox ++ [m] }) w).limit = (l.vc w).limit := by
  by_cases h : w = v
  · rw [h, tabMod, tabGet_tabSet_self]
    rfl
  · rw [tabMod, tabGet_tabSet_other _ _ _ _ _ h]
    rfl

theorem sequencesAndLimits_sendOn (p : Nat) (s : State) (q v : Nat) (m : Message) :
    sequencesAndLimits p (s.sendOn q v m) = sequencesAndLimits p s := by
  by_cases h : p = q
  · subst h
    simp only [sequencesAndLimits, State.sendOn, link_setLink_self, LinkPort.vc, limit_sendOn]
  · simp only [sequencesAndLimits, State.sendOn, link_setLink_other _ _ _ _ h]

/-- A port as a handshake leaves it: nothing sent or received, its peer's buffers as credits. -/
def connectedPort (skews credits : List Nat) (rxSpareUsed txSpareUsed : Bool) : LinkPort :=
  { LinkPort.empty with
    vcs := ((List.range 4).zip credits).map fun q => (q.1, { LinkVc.empty with limit := q.2 })
    skews := skews, rxSpareUsed := rxSpareUsed, txSpareUsed := txSpareUsed }

theorem limit_connectedPort {credits : List Nat} (h : credits.length = 4) (skews : List Nat) (rx tx : Bool) {v : Nat}
    (hv : v < 4) : ((connectedPort skews credits rx tx).vc v).limit = listGet 0 credits v := by
  match credits, h with
  | [_, _, _, _], _ =>
    match v, hv with
    | 0, _ | 1, _ | 2, _ | 3, _ => rfl

/-- The state in which port `p` is `ACTIVE` toward a peer, with `l` as its port. -/
abbrev connected (s : State) (p who : Nat) (l : LinkPort) : State :=
  ((s.setOd (lpKey Od.LP_PEER p) who).setLink p l).setOd (lpKey Od.LP_STATE p) 3

theorem regather_od (s : State) : s.regather.od = s.od :=
  regather_keeps State.od (fun _ _ _ => rfl) (fun _ _ _ _ _ => rfl) s

theorem regather_mem (s : State) : s.regather.mem = s.mem :=
  regather_keeps State.mem (fun _ _ _ => rfl) (fun _ _ _ _ _ => rfl) s

/-- Barriers that go on when a port connects send their tokens, and leave its sequences and its credits. -/
theorem sequencesAndLimits_connected (s : State) (p who : Nat) (l : LinkPort) :
    sequencesAndLimits p (connected s p who l).regather =
      (l.txSeq, l.rxNext, l.retryBuf, fun v => (l.vc v).limit) := by
  have hlink : (connected s p who l).link p = l := link_setLink_self _ _ _
  rw [regather_keeps (sequencesAndLimits p) (fun _ _ _ => rfl) (fun _ _ _ _ _ => sequencesAndLimits_sendOn _ _ _ _ _),
    sequencesAndLimits, hlink]

section
variable {s : State} {p peer port epoch : Nat} {credits : List Nat} (hp : p < 16) (hpeer : peer < 65536)
  (hport : port < 16) (hepoch : epoch < 2 ^ 32) (hcredits : credits.length = 4)
  (htrains : s.odv (lpKey Od.LP_STATE p) = 2) (hruns : s.portParked p = false) (hskews : (s.link p).skews.length = 9)
include hp hpeer hport hepoch hcredits htrains hruns hskews

theorem exec_portHandshake_miscabled (hknown : s.odv (lpKey Od.LP_EXPECTED_PEER p) ≠ 0xFFFFFFFF)
    (hother : s.odv (lpKey Od.LP_EXPECTED_PEER p) ≠ peer + port * 65536) :
    exec (.portHandshake p peer port epoch credits) s =
      .next ((s.setOd (lpKey Od.LP_PEER p) (peer + port * 65536)).setOd (lpKey Od.LP_STATE p) 4) :=
  within_next_of_eq (by simpa [linkOk, hp, hpeer, hport, hcredits] using hepoch)
    ((if_neg (by simp [htrains, hruns, hskews])).trans (if_pos (by simp [hknown, hother])))

theorem exec_portHandshake_connects (hallowed : s.odv (lpKey Od.LP_EXPECTED_PEER p) = 0xFFFFFFFF ∨
      s.odv (lpKey Od.LP_EXPECTED_PEER p) = peer + port * 65536) :
    ∃ rx tx, exec (.portHandshake p peer port epoch credits) s =
      .next ((connected s p (peer + port * 65536)
        (connectedPort (s.link p).skews credits rx tx)).regather.sendGroup p) :=
  ⟨_, _, within_next_of_eq (by simpa [linkOk, hp, hpeer, hport, hcredits] using hepoch)
    ((if_neg (by simp [htrains, hruns, hskews])).trans
      (if_neg (by obtain h | h := hallowed <;> simp [h])))⟩

end

/-! ### The commit of the Points (R362, R366, R367) -/

theorem exec_pointsCommit_commits {v : Nat} {s : State} (hv : v < 2 ^ 32) (hidle : s.anyArmed = false)
    (hlawful : s.stagedOk = true) (hnew : v ≠ s.odv Od.POINTS_EPOCH) :
    exec (.pointsCommit v) s = .next ({ s with points := s.odv Od.POINTS_TABLE }.setOd Od.POINTS_EPOCH v) :=
  within_next_of_eq (decide_eq_true hv) ((if_pos (by simp [State.commitOk, hidle, hlawful])).trans (if_neg hnew))

theorem exec_pointsCommit_noEffect {v : Nat} {s : State} (hv : v < 2 ^ 32)
    (h : s.anyArmed = true ∨ s.stagedOk = false ∨ v = s.odv Od.POINTS_EPOCH) : exec (.pointsCommit v) s = .next s := by
  refine within_next_of_eq (decide_eq_true hv) ?_
  by_cases hok : s.commitOk = true
  · obtain ⟨hidle, hlawful⟩ : s.anyArmed = false ∧ s.stagedOk = true := by simpa [State.commitOk] using hok
    have hepoch : v = s.odv Od.POINTS_EPOCH := by simpa [hidle, hlawful] using h
    exact (if_pos hok).trans (if_pos hepoch)
  · exact if_neg hok

/-- Settles O33, from the spec lemma of each outcome above, what a failing port's faults leave of it, and what barriers
that go on leave of a port that connects. -/
theorem portsTrainAndPointsAreCommitted : Obligations.PortsTrainAndPointsAreCommitted := by
  unfold Obligations.PortsTrainAndPointsAreCommitted
  refine ⟨?trains, ?fewLanes, ?miscabled, ?connects, ?timeout, ?retry, ?resetOne, ?reset, ?parked, ?commits, ?noCommit⟩
  case trains =>
    intro p tx rx skews s hp hskews hrails hruns hon hidle htx hrx
    rw [exec_portTrainingStart hp hskews hrails hruns hon hidle,
      if_neg (not_or.mpr ⟨Nat.not_lt.mpr htx, Nat.not_lt.mpr hrx⟩)]
  case fewLanes =>
    intro p tx rx skews s hp hskews hrails hruns hon hidle hfew
    rw [exec_portTrainingStart hp hskews hrails hruns hon hidle, if_pos hfew]
  case miscabled =>
    exact fun p peer port epoch credits s hp hpeer hport hepoch hcredits htrains hruns hskews hknown hother =>
      exec_portHandshake_miscabled hp hpeer hport hepoch hcredits htrains hruns hskews hknown hother
  case connects =>
    intro p peer port epoch credits s hp hpeer hport hepoch hcredits htrains hruns hskews hallowed
    obtain ⟨rx, tx, hexec⟩ :=
      exec_portHandshake_connects hp hpeer hport hepoch hcredits htrains hruns hskews hallowed
    obtain ⟨htx, hrx, hheld, hlimits⟩ : _ ∧ _ ∧ _ ∧ _ := by
      simpa only [sequencesAndLimits, Prod.mk.injEq] using sequencesAndLimits_connected s p (peer + port * 65536)
        (connectedPort (s.link p).skews credits rx tx)
    refine ⟨_, hexec, ?_, ?_, htx, hrx, hheld, fun v hv => ?_, regather_mem _⟩
    · exact (linkActive_of_od (regather_od _) p).trans (decide_eq_true (odv_setOd_self _ _ _))
    · rw [odv_of_od _ _ _ (regather_od _), odv_setOd_other _ _ _ _ (lpKey_ne (by decide) p)]
      exact odv_setOd_self s _ _
    · exact (congrFun hlimits v).trans (limit_connectedPort hcredits _ _ _ hv)
  case timeout => exact fun p ms s hp htrains hlate => exec_portTrainingTimeout_late hp htrains hlate
  case retry =>
    exact fun p ms s hp hrails hruns hdown hon hdue => exec_portTrainingRetry_due hp hrails hruns hdown hon hdue
  case resetOne =>
    exact fun p v s hp hv hon => ⟨_, exec_linkPortReset_one hp hv hon, rfl, portLost_port hp s (by decide)⟩
  case reset => exact fun v s hv => within_next _ _ (decide_eq_true hv)
  case parked =>
    exact fun isl ns s hok hcode hparked hlate hon hup => exec_linamParkDeadline_late hok hcode hparked hlate hon hup
  case commits =>
    exact fun v s hv hidle hlawful hnew =>
      ⟨_, exec_pointsCommit_commits hv hidle hlawful hnew, rfl, odv_setOd_self _ _ _⟩
  case noCommit => exact fun v s hv h => exec_pointsCommit_noEffect hv h

end Sys2Proof.Proofs
end

