-- ==== Sys2Proof/Proofs/GradientExchange.lean ====
section
/-! The adders of the gradient reduction, the messages that they take, and the end of an exchange (11). -/

namespace Sys2Proof.Proofs

open Sys2Proof Sys2Proof.Machine Sys2Proof.Laws

/-! ### The adders (R356, R357) -/

/-- What the adders give for element `i` of an `ACCUM` message; with ACC_COPY the local value is not read. -/
def accumElem (s : State) (m : Message) (i : Nat) : Conv × Bool :=
  addElem (bitsOf m.header 288 8 = 1) (leNat ((m.data.drop (2 * i)).take 2))
    (if bitsOf m.header 288 8 = 1 then leNat (((s.load m.localAddr m.data.length).drop (2 * i)).take 2) else 0)

/-- The bytes that the adders write for an `ACCUM` message. -/
def accumBytes (s : State) (m : Message) : List Byte :=
  ((List.range (m.data.length / 2)).map (accumElem s m)).flatMap fun e => leBytes 2 e.1.bits

theorem applyAccum_eq (s : State) (m : Message) :
    ∃ tally, s.applyAccum m = (s.put m.dstAddr (accumBytes s m)).commit tally :=
  ⟨_, rfl⟩

theorem applyAccum_mem (s : State) (m : Message) : (s.applyAccum m).mem = (s.put m.dstAddr (accumBytes s m)).mem := by
  obtain ⟨tally, h⟩ := applyAccum_eq s m
  obtain ⟨_, _, _, hcommit⟩ := commit_eq (s.put m.dstAddr (accumBytes s m)) tally
  rw [h, hcommit]
  rfl

theorem applyAccum_hostMem (s : State) (m : Message) : (s.applyAccum m).hostMem = s.hostMem := by
  obtain ⟨tally, h⟩ := applyAccum_eq s m
  obtain ⟨_, _, _, hcommit⟩ := commit_eq (s.put m.dstAddr (accumBytes s m)) tally
  rw [h, hcommit]
  rfl

theorem leNat_leBytes_two_mod (x : Nat) : leNat (leBytes 2 x) = x % 65536 := by
  simp only [leBytes, leNat, BitVec.toNat_ofNat]
  omega

theorem flatMap_leBytes_two_length {α : Type} (f : α → Nat) (l : List α) :
    (l.flatMap fun a => leBytes 2 (f a)).length = 2 * l.length := by
  induction l with
  | nil => rfl
  | cons a l ih =>
    rw [List.flatMap_cons, List.length_append, ih, List.length_cons, leBytes, leBytes, leBytes]
    simp only [List.length_cons, List.length_nil]
    omega

/-- Two-byte words laid end to end are read back one by one. -/
theorem take_drop_flatMap_leBytes_two {α : Type} (f : α → Nat) {l : List α} {i : Nat} (hi : i < l.length) :
    ((l.flatMap fun a => leBytes 2 (f a)).drop (2 * i)).take 2 = leBytes 2 (f l[i]) := by
  induction l generalizing i with
  | nil => exact absurd hi (Nat.not_lt_zero i)
  | cons a l ih =>
    cases i with
    | zero => rfl
    | succ i => exact ih (Nat.lt_of_succ_lt_succ hi)

@[simp] theorem memBytes_length (m : List Host.Cell) (a n : Nat) : (memBytes m a n).length = n := by
  induction n generalizing a with
  | zero => rfl
  | succ n ih => rw [memBytes, List.length_cons, ih]

theorem getElem_memBytes (m : List Host.Cell) (a n : Nat) {i : Nat} (hi : i < (memBytes m a n).length) :
    (memBytes m a n)[i] = memGet m (a + i) := by
  induction n generalizing a i with
  | zero => exact absurd hi (Nat.not_lt_zero i)
  | succ n ih =>
    cases i with
    | zero => rfl
    | succ i =>
      have htail : (memBytes m (a + 1) n)[i]'(by simpa using hi) = memGet m (a + 1 + i) := ih (a + 1) _
      rw [Nat.add_assoc, Nat.add_comm 1] at htail
      exact htail

/-- A part of what memory holds is what it holds at the part. -/
theorem take_drop_memBytes (m : List Host.Cell) (a : Nat) {n i k : Nat} (h : i + k ≤ n) :
    ((memBytes m a n).drop i).take k = memBytes m (a + i) k := by
  refine List.ext_getElem (by simp; omega) fun j _ _ => ?_
  rw [List.getElem_take, List.getElem_drop, getElem_memBytes, getElem_memBytes, Nat.add_assoc]

/-- What has just been written is read back. -/
theorem memBytes_put {s : State} (hmem : Memory.wf s.mem = true) (a : Nat) (bs : List Byte) :
    memBytes (s.put a bs).mem a bs.length = bs := by
  refine List.ext_getElem (memBytes_length _ _ _) fun j _ hj => ?_
  rw [getElem_memBytes]
  exact byteAt_put hmem a bs hj

section
variable {s : State} {m : Message} (heven : m.data.length % 2 = 0)
include heven

theorem accumBytes_length : (accumBytes s m).length = m.data.length := by
  rw [accumBytes, flatMap_leBytes_two_length fun e : Conv × Bool => e.1.bits, List.length_map, List.length_range]
  omega

theorem sameOutside_applyAccum : s.SameOutside (s.applyAccum m) m.dstAddr m.data.length := by
  intro b hb
  rw [State.byteAt, applyAccum_mem]
  exact sameOutside_put s m.dstAddr (accumBytes s m) b (by rwa [accumBytes_length heven])

theorem memNat_applyAccum (hmem : Memory.wf s.mem = true) {i : Nat} (hi : i < m.data.length / 2) :
    memNat (s.applyAccum m).mem (m.dstAddr + 2 * i) 2 = (addElem (bitsOf m.header 288 8 = 1)
      (leNat ((m.data.drop (2 * i)).take 2))
      (if bitsOf m.header 288 8 = 1 then memNat s.mem (m.localAddr + 2 * i) 2 else 0)).1.bits % 65536 := by
  have hwritten : memBytes (s.applyAccum m).mem m.dstAddr m.data.length = accumBytes s m := by
    rw [applyAccum_mem, ← accumBytes_length heven, memBytes_put hmem]
  have hlocal : ((s.load m.localAddr m.data.length).drop (2 * i)).take 2 = memBytes s.mem (m.localAddr + 2 * i) 2 :=
    take_drop_memBytes _ _ (by omega)
  have hcount : i < ((List.range (m.data.length / 2)).map (accumElem s m)).length := by simpa using hi
  rw [memNat, ← take_drop_memBytes _ _ (show 2 * i + 2 ≤ m.data.length by omega), hwritten, accumBytes,
    take_drop_flatMap_leBytes_two (fun e : Conv × Bool => e.1.bits) hcount, leNat_leBytes_two_mod, List.getElem_map,
    List.getElem_range, accumElem, hlocal]
  rfl

end

/-! ### ACCUM (R355, R375 to R377) -/

/-- An `ACCUM` message of good form that reaches its package, whose bytes lie in a tier and outside what messages may not
write. -/
abbrev Placed (s : State) (m : Message) : Prop :=
  accumFormOk m = true ∧ s.inTier m.dstAddr m.data.length = true ∧ s.inTier m.localAddr m.data.length = true ∧
    s.inImage m.dstAddr m.data.length = false ∧ s.inReserve m.dstAddr m.data.length = false

section
variable {s : State} {p : Nat} {m : Message} (hcrc : crc64 m.data = m.crc) (hclean : s.Clean)
include hcrc hclean

theorem finishAccum_stripe (j : Nat) : s.finishAccum p m (some j) = s.takeStripe m j := by
  simp [State.finishAccum, hcrc, State.accumEcc, badIn_of_clean hclean]

theorem finishAccum_noStripe : s.finishAccum p m none = (s.applyAccum m).ackMessage m := by
  simp [State.finishAccum, hcrc, State.accumEcc, badIn_of_clean hclean]

end

section
variable {s : State} {p : Nat} {m : Message} (hm : s.Delivers p 1 m) (hplaced : Placed s m)
include hm hplaced

theorem exec_accum_noStripe (hstripe : s.stripeOf m = none) (hjob : s.job.active = true) :
    exec (.accum p) s = .next ((s.dropHead p 1).finishAccum p m none) := by
  obtain ⟨hp, hhead, hdst, hepoch⟩ := hm
  obtain ⟨hform, hdest, hlocal, himage, hreserve⟩ := hplaced
  have hjob : (s.dropHead p 1).job.active = true := hjob
  refine within_next_of_eq (decide_eq_true hp) ?_
  simp [hhead, hdst, hepoch, hform, hdest, hlocal, himage, hreserve, hstripe, hjob]

/-- A stripe that is held and whose bucket is open leaves its VC for the adders; nothing more happens to another. -/
theorem exec_accum_stripe {j : Nat} (hstripe : s.stripeOf m = some j) (hupdate : s.job.update = 0) :
    exec (.accum p) s = .next (if p ∉ (s.decideStripe p m j).red.holding ∨ (s.decideStripe p m j).bucketOpen j = false
      then s.decideStripe p m j else ((s.decideStripe p m j).unhold p).finishAccum p m (some j)) := by
  obtain ⟨hp, hhead, hdst, hepoch⟩ := hm
  obtain ⟨hform, hdest, hlocal, himage, hreserve⟩ := hplaced
  refine within_next_of_eq (decide_eq_true hp) ?_
  by_cases hheld : p ∈ (s.decideStripe p m j).red.holding <;>
    simp [hhead, hdst, hepoch, hform, hdest, hlocal, himage, hreserve, hstripe, hupdate, hheld]

end

/-- The state with another record of the exchange. -/
def withRed (s : State) (red : Exchange) : State := { s with red := red }

/-- A stripe may go to the adders exactly when no update runs and its bucket is filled. -/
theorem bucketOpen_withRed (s : State) (red : Exchange) (j : Nat) :
    (withRed s red).bucketOpen j = (decide (s.job.update = 0) && red.filled.contains (stripeBucket s.redDesc j)) := rfl

section
variable {s : State} {p j : Nat} {m : Message}

/-- A stripe that is held already or is admitted is held then, and nothing but the exchange's record of it changes. -/
theorem decideStripe_kept (h : p ∈ s.red.holding ∨ s.admits m j = true) :
    ∃ red : Exchange, s.decideStripe p m j = withRed s red ∧ p ∈ (withRed s red).red.holding ∧
      red.filled = s.red.filled := by
  by_cases hheld : p ∈ s.red.holding
  · exact ⟨s.red, if_pos (by simpa using hheld), hheld, rfl⟩
  · exact ⟨(s.admitAt p m j).red, (if_neg (by simpa using hheld)).trans (if_pos (h.resolve_left hheld)),
      List.mem_cons_self, rfl⟩

theorem decideStripe_discarded (hnew : p ∉ s.red.holding) (hrefused : s.admits m j = false) :
    s.decideStripe p m j = ((s.dropHead p 1).count Od.RED_DISCARDED 1).ackMessage m :=
  (if_neg (by simpa using hnew)).trans (if_neg (ne_true_of_eq_false hrefused))

variable (hm : s.Delivers p 1 m) (hplaced : Placed s m) (hstripe : s.stripeOf m = some j) (hupdate : s.job.update = 0)
include hm hplaced hstripe hupdate

theorem exec_accum_taken (hkept : p ∈ s.red.holding ∨ s.admits m j = true)
    (hfilled : stripeBucket s.redDesc j ∈ s.red.filled) (hcrc : crc64 m.data = m.crc) (hclean : s.Clean) :
    exec (.accum p) s = .next (((s.decideStripe p m j).unhold p).takeStripe m j) := by
  obtain ⟨red, hdecided, hheld, hsame⟩ := decideStripe_kept hkept
  have hopen : (withRed s red).bucketOpen j = true := by simpa [bucketOpen_withRed, hupdate, hsame] using hfilled
  rw [exec_accum_stripe hm hplaced hstripe hupdate, hdecided,
    if_neg (not_or.mpr ⟨not_not_intro hheld, ne_false_of_eq_true hopen⟩)]
  exact congrArg Host.Outcome.next (finishAccum_stripe (s := (withRed s red).unhold p) hcrc hclean j)

/-- An admitted stripe whose bucket is not filled is held at the front of its VC. -/
theorem exec_accum_waits (hadmits : s.admits m j = true) (hunfilled : stripeBucket s.redDesc j ∉ s.red.filled) :
    exec (.accum p) s = .next (s.decideStripe p m j) ∧ (s.decideStripe p m j).mem = s.mem ∧
      (s.decideStripe p m j).inHead p 1 = some m ∧ p ∈ (s.decideStripe p m j).red.holding := by
  obtain ⟨red, hdecided, hheld, hsame⟩ := decideStripe_kept (p := p) (.inr hadmits)
  have hclosed : (withRed s red).bucketOpen j = false := by simpa [bucketOpen_withRed, hupdate, hsame] using hunfilled
  rw [exec_accum_stripe hm hplaced hstripe hupdate, hdecided, if_pos (.inr hclosed)]
  exact ⟨rfl, rfl, hm.2.1, hheld⟩

theorem exec_accum_discarded (hnew : p ∉ s.red.holding) (hrefused : s.admits m j = false) :
    exec (.accum p) s = .next (((s.dropHead p 1).count Od.RED_DISCARDED 1).ackMessage m) := by
  have hred : (((s.dropHead p 1).count Od.RED_DISCARDED 1).ackMessage m).red = s.red :=
    ackMessage_keeps State.red (fun _ _ _ _ _ => rfl) _ m
  rw [exec_accum_stripe hm hplaced hstripe hupdate, decideStripe_discarded hnew hrefused,
    if_pos (.inl (by rwa [hred]))]

end

/-! ### EXCHANGE_COMPLETE (R378, R391, R392) -/

/-- The digest record of the exchange stands in its entry of the log, and the exchange is counted and complete. -/
abbrev recorded (s : State) : State :=
  { (s.setOd Od.RED_DIGEST_LOG (setBits (s.odv Od.RED_DIGEST_LOG) (512 * (s.red.step / rdInterval s.redDesc % 64)) 512
      s.digestRecord)).setOd Od.RED_EXCHANGES (s.odv Od.RED_EXCHANGES + 1) with
    red := { s.red with complete := true } }

theorem exec_exchangeComplete_done {s : State} (hdone : s.exchangeDone = true) (hclean : s.Clean) :
    exec .exchangeComplete s = .next (recorded s).regather := by
  refine within_next_of_eq (o := "") rfl ((if_neg (by simp [hdone])).trans ?_)
  rw [badIn_of_clean hclean]
  dsimp only
  rw [odv_setOd_other _ _ _ _ (by decide)]
  rfl

theorem exec_exchangeComplete_noEffect {s : State} (h : s.exchangeDone = false) :
    exec .exchangeComplete s = .next s :=
  within_next_of_eq (o := "") rfl (if_pos (by simp [h]))

theorem exchangeDone_recorded (s : State) : (recorded s).regather.exchangeDone = false := by
  have hred : (recorded s).regather.red = (recorded s).red :=
    regather_keeps State.red (fun _ _ _ => rfl) (fun _ _ _ _ _ => rfl) _
  simp [State.exchangeDone, hred]

/-- Settles O22, from the laws of the adders, the course of an `ACCUM` message by what becomes of its stripe, and the two
outcomes of EXCHANGE_COMPLETE. -/
theorem gradientsAreSummedAndExchanged : Obligations.GradientsAreSummedAndExchanged := by
  unfold Obligations.GradientsAreSummedAndExchanged
  refine ⟨?adders, ?taken, ?waits, ?discarded, ?noStripe, ?complete, ?notDone⟩
  case adders =>
    exact fun m s hmem heven => ⟨fun i hi => memNat_applyAccum heven hmem hi, sameOutside_applyAccum heven,
      applyAccum_hostMem s m⟩
  case taken =>
    exact fun p j m s hm hform hdest hlocal himage hreserve hstripe hupdate hkept hfilled hcrc hclean =>
      exec_accum_taken hm ⟨hform, hdest, hlocal, himage, hreserve⟩ hstripe hupdate hkept hfilled hcrc hclean
  case waits =>
    intro p j m s hm hform hdest hlocal himage hreserve hstripe hupdate _ hadmits hunfilled
    obtain ⟨hexec, hmem, hfront, hheld⟩ :=
      exec_accum_waits hm ⟨hform, hdest, hlocal, himage, hreserve⟩ hstripe hupdate hadmits hunfilled
    exact ⟨_, hexec, rfl, hmem, hfront, hheld⟩
  case discarded =>
    intro p j m s hm hform hdest hlocal himage hreserve hstripe hupdate hnew hrefused
    refine ⟨_, exec_accum_discarded hm ⟨hform, hdest, hlocal, himage, hreserve⟩ hstripe hupdate hnew hrefused, rfl,
      ackMessage_keeps State.mem (fun _ _ _ _ _ => rfl) _ m, ?_⟩
    rw [ackMessage_keeps (State.counted · Od.RED_DISCARDED) (fun _ _ _ _ _ => rfl), counted_count_self]
    rfl
  case noStripe =>
    intro p m s hm hform hdest hlocal himage hreserve hstripe hjob hcrc hclean
    rw [exec_accum_noStripe hm ⟨hform, hdest, hlocal, himage, hreserve⟩ hstripe hjob, finishAccum_noStripe hcrc]
    exact hclean
  case complete =>
    exact fun s hdone hclean => ⟨_, exec_exchangeComplete_done hdone hclean, rfl, exchangeDone_recorded s,
      regather_mem _⟩
  case notDone => exact fun s h => exec_exchangeComplete_noEffect h

end Sys2Proof.Proofs
end

