-- ==== Sys2Proof/Proofs/BucketFilling.lean ====
section
/-! Buckets that are filled: the conversion into the gradient image, and a ring of one package (11). -/

namespace Sys2Proof.Proofs

open Sys2Proof Sys2Proof.Machine Sys2Proof.Laws

/-! ### BUCKET_FILLED (R370, R372) -/

/-- A bucket that may fill is filled from those of the image's blocks that lie in it. -/
theorem exec_bucketFilled_fills {b : Nat} {img : Image} {s : State} (hb : b < 65536) (hfill : s.mayFill b = true)
    (himage : s.jobImage = some img) (hclean : s.Clean) :
    exec (.bucketFilled b) s = .next (s.fillBucket b (rdImage s.redDesc + b * rdPerBucket s.redDesc * stripeBytes)
      (bucketStripes s.redDesc b) ((s.gradBlocks img).filter fun q =>
        rdImage s.redDesc + b * rdPerBucket s.redDesc * stripeBytes ≤ q.2.2.2.2 &&
        q.2.2.2.2 < rdImage s.redDesc + b * rdPerBucket s.redDesc * stripeBytes +
          (bucketStripes s.redDesc b).length * stripeBytes)) := by
  refine within_next_of_eq (decide_eq_true hb) ((if_neg (by simp [hfill])).trans ?_)
  rw [himage]
  dsimp only
  rw [flatten_nil_of _ _ fun q => by simp [badIn_of_clean hclean]]

theorem exec_bucketFilled_noEffect {b : Nat} {s : State} (hb : b < 65536) (hfill : s.mayFill b = false) :
    exec (.bucketFilled b) s = .next s :=
  within_next_of_eq (decide_eq_true hb) (if_pos (by simp [hfill]))

/-! ### The stages of filling a bucket (R370, R371) -/

/-- The blocks of a bucket: of each its descriptors, number, index among those trained and address in the image. -/
abbrev Blocks : Type := List (Nat × Nat × Nat × Nat × Nat)

/-- Every block is converted to B16 at its address. -/
def blocksConverted (s : State) (blks : Blocks) : State :=
  blks.foldl (fun s q => s.convertBlock q.2.1 q.2.2.1 q.2.2.2.1 q.2.2.2.2) s

/-- Zeros in those of the `n` units of 32 KiB from `lo` on that no block covers. -/
def gapsZeroed (s : State) (lo n : Nat) (blks : Blocks) : State :=
  (List.range n).foldl (fun s i =>
    if blks.any fun q => q.2.2.2.2 ≤ lo + 32768 * i && lo + 32768 * i < q.2.2.2.2 + 32768 then s
    else s.put (lo + 32768 * i) (List.replicate 32768 0)) s

/-- The part of the gradient image from `lo` on is written. -/
def imageWritten (s : State) (lo n : Nat) (blks : Blocks) : State := gapsZeroed (blocksConverted s blks) lo n blks

/-- Bucket `b` is marked filled. -/
def bucketMarked (s : State) (b : Nat) : State := { s with red := { s.red with filled := s.red.filled ++ [b] } }

@[simp] theorem bucketMarked_ringSize (s : State) (b : Nat) : (bucketMarked s b).ringSize = s.ringSize := rfl

/-- The stripes `js` have their final values. -/
def stripesFinal (s : State) (js : List Nat) : State := { s with red := { s.red with finals := s.red.finals ++ js } }

/-- In a ring of one package a stripe's local value is its final one (R379). -/
def finalIfAlone (s : State) (js : List Nat) : State := if s.ringSize = 1 then stripesFinal s js else s

/-- In an exchange in progress the bucket is written and marked, and what is complete is staged before stripes are sent. -/
theorem fillBucket_eq {s : State} (hactive : s.red.active = true) (b lo : Nat) (js : List Nat) (blks : Blocks) :
    s.fillBucket b lo js blks =
      (finalIfAlone (bucketMarked (imageWritten s lo (32 * js.length) blks) b) js).stage.pump js := by
  have hbegun : (if s.red.active = true then s
      else { s with red := { s.red with active := true, step := s.odv Od.JOB_STEP } }) = s := if_pos hactive
  exact congrArg (fun u =>
    (finalIfAlone (bucketMarked (imageWritten u lo (32 * js.length) blks) b) js).stage.pump js) hbegun

/-! ### What writing the image leaves alone -/

/-- What is beside the counts of conversions, counting them keeps. -/
theorem commit_keeps {β : Type} (proj : State → β)
    (hcounts : ∀ s stats nonfinite step, proj (withGradCounts s stats nonfinite step) = proj s) (s : State) (t : Tally) :
    proj (s.commit t) = proj s := by
  obtain ⟨_, _, _, h⟩ := commit_eq s t
  rw [h, hcounts]

section
variable {β : Type} (proj : State → β) (hput : ∀ s a bs, proj (State.put s a bs) = proj s)
  (hcounts : ∀ s stats nonfinite step, proj (withGradCounts s stats nonfinite step) = proj s) (s : State)
include hput hcounts

theorem convertBlock_keeps (w n k dst : Nat) : proj (s.convertBlock w n k dst) = proj s :=
  (commit_keeps proj hcounts _ _).trans (hput s dst _)

theorem imageWritten_keeps (lo n : Nat) (blks : Blocks) : proj (imageWritten s lo n blks) = proj s :=
  (foldl_keeps proj (fun s _ => ite_keeps proj rfl (hput s _ _)) (List.range n) (blocksConverted s blks)).trans
    (foldl_keeps proj (fun s _ => convertBlock_keeps proj hput hcounts s _ _ _ _) blks s)

end

section
variable (s : State) (lo n : Nat) (blks : Blocks)

@[simp] theorem imageWritten_links : (imageWritten s lo n blks).links = s.links :=
  imageWritten_keeps State.links (fun _ _ _ => rfl) (fun _ _ _ _ => rfl) s lo n blks

@[simp] theorem imageWritten_msgIds : (imageWritten s lo n blks).msgIds = s.msgIds :=
  imageWritten_keeps State.msgIds (fun _ _ _ => rfl) (fun _ _ _ _ => rfl) s lo n blks

@[simp] theorem imageWritten_red : (imageWritten s lo n blks).red = s.red :=
  imageWritten_keeps State.red (fun _ _ _ => rfl) (fun _ _ _ _ => rfl) s lo n blks

@[simp] theorem imageWritten_ringSize : (imageWritten s lo n blks).ringSize = s.ringSize :=
  imageWritten_keeps State.ringSize (fun _ _ _ => rfl) (fun _ _ _ _ => rfl) s lo n blks

@[simp] theorem imageWritten_redDesc : (imageWritten s lo n blks).redDesc = s.redDesc :=
  imageWritten_keeps State.redDesc (fun _ _ _ => rfl) (fun _ _ _ _ => rfl) s lo n blks

end

/-! ### A ring of one package (R379) -/

theorem mem_staged_stage {s : State} {b : Nat} : b ∈ s.stage.red.staged ↔
    b < rdBuckets s.redDesc ∧ b ∈ s.red.filled ∧ ∀ j ∈ bucketStripes s.redDesc b, j ∈ s.red.finals := by
  simp [State.stage]

/-- A package alone in its ring sends no stripe. -/
theorem pump_of_ringSize_le_one {s : State} (hring : s.ringSize ≤ 1) (js : List Nat) : s.pump js = s := by
  induction js with
  | nil => rfl
  | cons j js ih =>
    have hnone : s.pumpStripe j = s := if_pos (by simp only [hring, decide_true, Bool.true_or])
    rw [State.pump, List.foldl_cons, hnone]
    exact ih

/-- Bucket `b` is filled, the stripes `js` are final, and every bucket that is complete is staged. -/
def filledAlone (s : State) (b : Nat) (js : List Nat) : State := (stripesFinal (bucketMarked s b) js).stage

section
variable (s : State) (b : Nat) (js : List Nat)

@[simp] theorem filledAlone_links : (filledAlone s b js).links = s.links := rfl
@[simp] theorem filledAlone_msgIds : (filledAlone s b js).msgIds = s.msgIds := rfl
@[simp] theorem filledAlone_ringSize : (filledAlone s b js).ringSize = s.ringSize := rfl
@[simp] theorem filledAlone_unacked : (filledAlone s b js).red.unacked = s.red.unacked := rfl
@[simp] theorem filledAlone_filled : (filledAlone s b js).red.filled = s.red.filled ++ [b] := rfl

/-- With every stripe of it final, the bucket is itself staged. -/
theorem mem_staged_filledAlone {js : List Nat} (hb : b < rdBuckets s.redDesc)
    (hjs : ∀ j ∈ bucketStripes s.redDesc b, j ∈ js) : b ∈ (filledAlone s b js).red.staged :=
  (mem_staged_stage (s := stripesFinal (bucketMarked s b) js)).mpr
    ⟨hb, List.mem_append_right _ List.mem_cons_self, fun j hj => List.mem_append_right _ (hjs j hj)⟩

end

/-- In a ring of one package a bucket's stripes are final once it is written, and nothing is sent. -/
theorem fillBucket_alone {s : State} (hring : s.ringSize = 1) (hactive : s.red.active = true) (b lo : Nat) (js : List Nat)
    (blks : Blocks) : s.fillBucket b lo js blks = filledAlone (imageWritten s lo (32 * js.length) blks) b js := by
  rw [fillBucket_eq hactive, finalIfAlone, if_pos (by simp [hring])]
  exact pump_of_ringSize_le_one (s := filledAlone _ b js) (by simp [hring]) js

/-- Settles O21, from the two outcomes of BUCKET_FILLED and what filling a bucket is in a ring of one package. -/
theorem bucketsAreFilledAndExchanged : Obligations.BucketsAreFilledAndExchanged := by
  unfold Obligations.BucketsAreFilledAndExchanged
  refine ⟨?fills, ?noEffect, ?alone⟩
  case fills => exact fun b img s hb hfill himage hclean => exec_bucketFilled_fills hb hfill himage hclean
  case noEffect => exact fun b s hb hfill => exec_bucketFilled_noEffect hb hfill
  case alone =>
    intro b lo blks s hring hactive hb
    rw [fillBucket_alone hring hactive]
    exact ⟨by simp, by simp, by simp, by simp, mem_staged_filledAlone _ _ (by simpa using hb) (by simp)⟩

end Sys2Proof.Proofs
end

