-- ==== Sys2Proof/Proofs/RingShadows.lean ====
section
/-! Late predecessors in the reduction ring, and the shadows that take their place (11). -/

namespace Sys2Proof.Proofs

open Sys2Proof Sys2Proof.Machine Sys2Proof.Laws

/-! ### The deadlines of a bucket (R385, R386, R389) -/

/-- Bucket `b` has missed its shadow deadline. -/
abbrev bucketMissed (s : State) (b : Nat) : State := { s with red := { s.red with missed := b :: s.red.missed } }

/-- `RING_SUBST` to the shadow of the predecessor: its position, the exchange and the first bucket. -/
abbrev substAsked (s : State) (b : Nat) : State :=
  s.sendTo 6 (s.shadowPkg s.predPos) [(512, 8, 2), (528, 16, s.predPos), (544, 64, s.red.step), (608, 16, b)] [] 0

section
variable {b : Nat} {s : State} (hb : b < 65536) (hruns : s.deadlineRuns b = true)
include hb hruns

/-- The first time that a running shadow deadline expires, the predecessor's shadow is asked, if it has one. -/
theorem exec_redShadowDeadline_expired {us : Nat} (hlate : s.odv Od.RED_SHADOW_DEADLINE ≤ us) (hfirst : b ∉ s.red.missed) :
    exec (.redShadowDeadline b us) s = .next
      (if s.shadowPkg s.predPos = 0xFFFF then
        { s with red := { s.red with missed := b :: s.red.missed, waited := true } }.count Od.RED_DEADLINE_MISSES 1
      else if s.red.substituted = true then bucketMissed s b
      else { substAsked (bucketMissed s b) b with
        red := { (substAsked (bucketMissed s b) b).red with substituted := true } }.count Od.RED_SUBSTITUTIONS 1) :=
  within_next_of_eq (decide_eq_true hb) (if_neg (by simp [hruns, hfirst, hlate]))

theorem exec_redHardTimeout_expired {ms : Nat} (hlate : s.odv Od.RED_HARD_TIMEOUT ≤ ms) :
    exec (.redHardTimeout b ms) s = .next
      (s.faultJob { cause := 0x0506, platform := 0, detail := s.predPos + b * 2 ^ 16 }) :=
  within_next_of_eq (decide_eq_true hb) (if_pos (by simp [hruns, hlate]))

end

/-! ### RING_SUBST (R386 to R388) -/

section
variable (s : State) (p v : Nat)

@[simp] theorem dropHead_red : (s.dropHead p v).red = s.red := rfl
@[simp] theorem dropHead_odv (k : Nat) : (s.dropHead p v).odv k = s.odv k := rfl
@[simp] theorem dropHead_isShadow : (s.dropHead p v).isShadow = s.isShadow := rfl

end

/-- `RING_SUBST` names another position than this package shadows, or an exchange that is not in progress here. -/
abbrev StraySubst (s : State) (m : Message) : Prop :=
  s.isShadow = false ∨ s.odv Od.RED_SHADOW_OF ≠ bitsOf m.header 528 16 ∨ s.red.active = false ∨
    s.red.step ≠ bitsOf m.header 544 64

/-- The shadow remembers from which bucket on it sends. -/
abbrev substituting (s : State) (b : Nat) : State := { s with red := { s.red with substFrom := some b } }

/-- A shadow that is asked to substitute sends what the stripes of bucket `b` onwards allow. -/
abbrev substStarted (s : State) (b : Nat) : State :=
  (substituting s b).pump ((List.range (rdStripes (substituting s b).redDesc)).filter fun j =>
    b ≤ stripeBucket (substituting s b).redDesc j)

/-- A `RING_SUBST` of the current epoch leaves its port, and is discarded or begins the substitution. -/
theorem exec_ringSubst {p : Nat} {m : Message} {s : State} (hm : s.Delivers p 0 m) (hkind : m.kind = 6) (hop : m.lcOp = 2) :
    exec (.ringSubst p) s = .next (if StraySubst s m then (s.dropHead p 0).count Od.RED_STRAY_SUBST 1
      else substStarted (s.dropHead p 0) (bitsOf m.header 608 16)) := by
  refine within_next_of_eq (decide_eq_true hm.1) ((takeMessage_delivers _ _ hm (by simp [hkind, hop])).trans ?_)
  refine ite_congr ?_ (fun _ => rfl) (fun _ => rfl)
  simp [StraySubst, or_assoc]

/-- Settles O23, from the outcomes of the two deadlines and of RING_SUBST. -/
theorem latePredecessorsAndShadows : Obligations.LatePredecessorsAndShadows := by
  unfold Obligations.LatePredecessorsAndShadows
  refine ⟨?noShadow, ?shadow, ?timeout, ?asked⟩
  case noShadow =>
    intro b us s hb hruns hlate hfirst hnone
    rw [exec_redShadowDeadline_expired hb hruns hlate hfirst, if_pos hnone]
  case shadow =>
    intro b us s hb hruns hlate hfirst hshadow hnew
    refine ⟨_, rfl, ?_⟩
    rw [exec_redShadowDeadline_expired hb hruns hlate hfirst, if_neg hshadow, if_neg (ne_true_of_eq_false hnew)]
    rfl
  case timeout => exact fun b ms s hb hruns hlate => exec_redHardTimeout_expired hb hruns hlate
  case asked =>
    intro p m s hm hkind hop hshadow hpos hactive hstep
    rw [exec_ringSubst hm hkind hop, if_neg (by simp [StraySubst, hshadow, hpos, hactive, hstep])]
    rfl

/-- Settles O24: a stray `RING_SUBST` leaves its port and is counted. -/
theorem straySubstitutionIsDiscarded : Obligations.StraySubstitutionIsDiscarded := by
  unfold Obligations.StraySubstitutionIsDiscarded
  intro p m s hm hkind hop hstray
  exact ⟨_, (exec_ringSubst hm hkind hop).trans (congrArg Host.Outcome.next (if_pos hstray)), rfl,
    counted_count_self _ _ _, rfl, rfl, rfl⟩

end Sys2Proof.Proofs
end

