-- ==== Sys2Proof/Proofs/EverySteps.lean ====
section
/-! What holds of every step (95): the queue of waiting commands is first in, first out, and both memories stay in canonical
form; a step on an empty queue; and what a byte of memory reads after a write (09). -/

namespace Sys2Proof.Proofs

open Sys2Proof Sys2Proof.Machine Sys2Proof.Laws

/-- Every command carries the queue and the canonical form of both memories on: the law of its meaning says so. -/
theorem exec_carries {s t : State} : ∀ {i : Instr}, exec i s = .next t → Carries s t
  | .sync _, h => execSync_carries _ t h (.rfl' s)
  | .tileOutputStat _ _, h => execTileOutputStat_carries _ _ t h (.rfl' s)
  | .tileInputStat _ _, h => execTileInputStat_carries _ _ t h (.rfl' s)
  | .tileElementwise _ _, h => execTileElementwise_carries _ _ t h (.rfl' s)
  | .move _, h => execMove_carries _ t h (.rfl' s)
  | .moveTranspose _, h => execMoveTranspose_carries _ t h (.rfl' s)
  | .moveRequant _, h => execMoveRequant_carries _ t h (.rfl' s)
  | .moveSpill _, h => execMoveSpill_carries _ t h (.rfl' s)
  | .moveFill _, h => execMoveFill_carries _ t h (.rfl' s)
  | .rowNormForward _, h => execRowNormForward_carries _ t h (.rfl' s)
  | .rowNormBackward _, h => execRowNormBackward_carries _ t h (.rfl' s)
  | .rowAttentionStatistics _, h => execRowAttentionStatistics_carries _ t h (.rfl' s)
  | .rowAttentionBackward _, h => execRowAttentionBackward_carries _ t h (.rfl' s)
  | .rowDropout _, h => execRowDropout_carries _ t h (.rfl' s)
  | .rowRowsum _, h => execRowRowsum_carries _ t h (.rfl' s)
  | .rowHiddenGradientSum _, h => execRowHiddenGradientSum_carries _ t h (.rfl' s)
  | .rowGainAccumulation _, h => execRowGainAccumulation_carries _ t h (.rfl' s)
  | .jctDistilStats _, h => execJctDistilStats_carries _ t h (.rfl' s)
  | .jctDistilEmit _, h => execJctDistilEmit_carries _ t h (.rfl' s)
  | .jctHintStats _, h => execJctHintStats_carries _ t h (.rfl' s)
  | .jctHintEmit _, h => execJctHintEmit_carries _ t h (.rfl' s)
  | .jctDraft _, h => execJctDraft_carries _ t h (.rfl' s)
  | .jctVerify _, h => execJctVerify_carries _ t h (.rfl' s)
  | .jctResidual _, h => execJctResidual_carries _ t h (.rfl' s)
  | .jctSlotGrant _ _, h => execJctSlotGrant_carries _ _ t h (.rfl' s)
  | .jctPartialMerge _ _, h => execJctPartialMerge_carries _ _ t h (.rfl' s)
  | .jctGradEmit _ _, h => execJctGradEmit_carries _ _ t h (.rfl' s)
  | .lossSpikeDetect, h => execLossSpikeDetect_carries t h (.rfl' s)
  | .barrier _, h => execBarrier_carries _ t h (.rfl' s)
  | .notify _, h => execNotify_carries _ t h (.rfl' s)
  | .rebase _, h => execRebase_carries _ t h (.rfl' s)
  | .stepEnd _, h => execStepEnd_carries _ t h (.rfl' s)
  | .streamEnd _, h => execStreamEnd_carries _ t h (.rfl' s)
  | .place _, h => execPlace_carries _ t h (.rfl' s)
  | .counterSignal _, h => execCounterSignal_carries _ t h (.rfl' s)
  | .sbSet _ _, h => execSbSet_carries _ _ t h (.rfl' s)
  | .syncHangReport _ _ _, h => execSyncHangReport_carries _ _ _ t h (.rfl' s)
  | .syncHang _ _ _, h => execSyncHang_carries _ _ _ t h (.rfl' s)
  | .barArrive _, h => execBarArrive_carries _ t h (.rfl' s)
  | .barRelease _ _, h => execBarRelease_carries _ _ t h (.rfl' s)
  | .barrierTokenDeadline _ _ _, h => execBarrierTokenDeadline_carries _ _ _ t h (.rfl' s)
  | .barrierTimeout _ _, h => execBarrierTimeout_carries _ _ t h (.rfl' s)
  | .roundhouseNormPass _ _ _, h => execRoundhouseNormPass_carries _ _ _ t h (.rfl' s)
  | .updateComplete _, h => execUpdateComplete_carries _ t h (.rfl' s)
  | .copyPass _, h => execCopyPass_carries _ t h (.rfl' s)
  | .ckptCodingComplete, h => execCkptCodingComplete_carries t h (.rfl' s)
  | .roundhouseDetectedError _ _, h => execRoundhouseDetectedError_carries _ _ t h (.rfl' s)
  | .updDigest _, h => execUpdDigest_carries _ t h (.rfl' s)
  | .bucketFilled _, h => execBucketFilled_carries _ t h (.rfl' s)
  | .accum _, h => execAccum_carries _ t h (.rfl' s)
  | .exchangeComplete, h => execExchangeComplete_carries t h (.rfl' s)
  | .redShadowDeadline _ _, h => execRedShadowDeadline_carries _ _ t h (.rfl' s)
  | .redHardTimeout _ _, h => execRedHardTimeout_carries _ _ t h (.rfl' s)
  | .ringSubst _, h => execRingSubst_carries _ t h (.rfl' s)
  | .moveWrite _, h => execMoveWrite_carries _ t h (.rfl' s)
  | .writeAck _, h => execWriteAck_carries _ t h (.rfl' s)
  | .linkMessageForward _ _, h => execLinkMessageForward_carries _ _ t h (.rfl' s)
  | .jobFault _, h => execJobFault_carries _ t h (.rfl' s)
  | .mgmt _, h => execMgmt_carries _ t h (.rfl' s)
  | .linkGroupReceive _ _ _, h => execLinkGroupReceive_carries _ _ _ t h (.rfl' s)
  | .linkAckDeadline _ _, h => execLinkAckDeadline_carries _ _ t h (.rfl' s)
  | .laneLockLoss _ _, h => execLaneLockLoss_carries _ _ t h (.rfl' s)
  | .laneSerWindow _ _ _, h => execLaneSerWindow_carries _ _ _ t h (.rfl' s)
  | .laneSub _, h => execLaneSub_carries _ t h (.rfl' s)
  | .laneSubTimeout _ _, h => execLaneSubTimeout_carries _ _ t h (.rfl' s)
  | .portTrainingStart _ _ _ _, h => execPortTrainingStart_carries _ _ _ _ t h (.rfl' s)
  | .portHandshake _ _ _ _ _, h => execPortHandshake_carries _ _ _ _ _ t h (.rfl' s)
  | .portTrainingTimeout _ _, h => execPortTrainingTimeout_carries _ _ t h (.rfl' s)
  | .portTrainingRetry _ _, h => execPortTrainingRetry_carries _ _ t h (.rfl' s)
  | .linkPortReset _, h => execLinkPortReset_carries _ t h (.rfl' s)
  | .pointsCommit _, h => execPointsCommit_carries _ t h (.rfl' s)
  | .queueDoorbell _ _ _ _ _, h => execQueueDoorbell_carries _ _ _ _ _ t h (.rfl' s)
  | .completionDoorbell _ _ _ _ _, h => execCompletionDoorbell_carries _ _ _ _ _ t h (.rfl' s)
  | .counterDoorbell _ _ _ _ _, h => execCounterDoorbell_carries _ _ _ _ _ t h (.rfl' s)
  | .dCopy _, h => execDCopy_carries _ t h (.rfl' s)
  | .dInline _, h => execDInline_carries _ t h (.rfl' s)
  | .dFence _, h => execDFence_carries _ t h (.rfl' s)
  | .dFlush _, h => execDFlush_carries _ t h (.rfl' s)
  | .dServe _, h => execDServe_carries _ t h (.rfl' s)
  | .qReset _, h => execQReset_carries _ t h (.rfl' s)
  | .ctxReset _, h => execCtxReset_carries _ t h (.rfl' s)
  | .epochArm _ _, h => execEpochArm_carries _ _ t h (.rfl' s)
  | .apertureRead _ _ _, h => execApertureRead_carries _ _ _ t h (.rfl' s)
  | .apertureWrite _ _ _, h => execApertureWrite_carries _ _ _ t h (.rfl' s)
  | .mbxGo _, h => execMbxGo_carries _ t h (.rfl' s)
  | .registerWrite _ _ _ _ _ _, h => execRegisterWrite_carries _ _ _ _ _ _ t h (.rfl' s)
  | .cxlMemRead _ _ _, h => execCxlMemRead_carries _ _ _ t h (.rfl' s)
  | .cxlMemWrite _ _ _, h => execCxlMemWrite_carries _ _ _ t h (.rfl' s)
  | .hdmDecoderCommit _ _ _ _, h => execHdmDecoderCommit_carries _ _ _ _ t h (.rfl' s)
  | .dataLinkDown _, h => execDataLinkDown_carries _ t h (.rfl' s)
  | .dataLinkUp _ _ _ _ _, h => execDataLinkUp_carries _ _ _ _ _ t h (.rfl' s)
  | .linkDownHold _ _, h => execLinkDownHold_carries _ _ t h (.rfl' s)
  | .portHotReset _, h => execPortHotReset_carries _ t h (.rfl' s)
  | .packageWarmReset _, h => execPackageWarmReset_carries _ t h (.rfl' s)
  | .flrPhysical _, h => execFlrPhysical_carries _ t h (.rfl' s)
  | .flrVirtual _ _, h => execFlrVirtual_carries _ _ t h (.rfl' s)
  | .vfEnableClear _ _, h => execVfEnableClear_carries _ _ t h (.rfl' s)
  | .pcArm _ _, h => execPcArm_carries _ _ t h (.rfl' s)
  | .pcSuspend _, h => execPcSuspend_carries _ t h (.rfl' s)
  | .suspendComplete _, h => execSuspendComplete_carries _ t h (.rfl' s)
  | .pcResume _, h => execPcResume_carries _ t h (.rfl' s)
  | .pcReset _, h => execPcReset_carries _ t h (.rfl' s)
  | .pcDisarm _, h => execPcDisarm_carries _ t h (.rfl' s)
  | .odRead _ _, h => execOdRead_carries _ _ t h (.rfl' s)
  | .odWrite _ _, h => execOdWrite_carries _ _ t h (.rfl' s)
  | .domainSegmentWrite _ _, h => execDomainSegmentWrite_carries _ _ t h (.rfl' s)
  | .discover _ _ _, h => execDiscover_carries _ _ _ t h (.rfl' s)
  | .mctp _ _, h => execMctp_carries _ _ t h (.rfl' s)
  | .secured _ _, h => execSecured_carries _ _ t h (.rfl' s)
  | .spdmChallenge _ _, h => execSpdmChallenge_carries _ _ t h (.rfl' s)
  | .spdmGetMeasurements _ _, h => execSpdmGetMeasurements_carries _ _ t h (.rfl' s)
  | .spdmKeyExchange _ _, h => execSpdmKeyExchange_carries _ _ t h (.rfl' s)
  | .rw2Write _ _, h => execRw2Write_carries _ _ t h (.rfl' s)
  | .authCancel _ _, h => execAuthCancel_carries _ _ t h (.rfl' s)
  | .stagedChangeExpiry _, h => execStagedChangeExpiry_carries _ t h (.rfl' s)
  | .keyEnrol _ _, h => execKeyEnrol_carries _ _ t h (.rfl' s)
  | .ownershipRelease _ _, h => execOwnershipRelease_carries _ _ t h (.rfl' s)
  | .debugUnlock _ _, h => execDebugUnlock_carries _ _ t h (.rfl' s)
  | .fwUpdate _ _, h => execFwUpdate_carries _ _ t h (.rfl' s)
  | .ttLoad _, h => execTtLoad_carries _ t h (.rfl' s)
  | .ttLoadComplete _, h => execTtLoadComplete_carries _ t h (.rfl' s)
  | .ckptRequest _, h => execCkptRequest_carries _ t h (.rfl' s)
  | .ckptDrained _, h => execCkptDrained_carries _ t h (.rfl' s)
  | .ckptRestore _, h => execCkptRestore_carries _ t h (.rfl' s)
  | .ckptServeNow _, h => execCkptServeNow_carries _ t h (.rfl' s)
  | .buddyPkg _ _, h => execBuddyPkg_carries _ _ t h (.rfl' s)
  | .buddySend _, h => execBuddySend_carries _ t h (.rfl' s)
  | .statsLatchNow _, h => execStatsLatchNow_carries _ t h (.rfl' s)
  | .stickyLogClear _, h => execStickyLogClear_carries _ t h (.rfl' s)
  | .feValidClear _, h => execFeValidClear_carries _ t h (.rfl' s)
  | .packageMode _, h => execPackageMode_carries _ t h (.rfl' s)
  | .powerProfile _, h => execPowerProfile_carries _ t h (.rfl' s)
  | .powerStateRun, h => execPowerStateRun_carries t h (.rfl' s)
  | .powerStateDoze, h => execPowerStateDoze_carries t h (.rfl' s)
  | .powerStateStandby, h => execPowerStateStandby_carries t h (.rfl' s)
  | .packageResetWarm _, h => execPackageResetWarm_carries _ t h (.rfl' s)
  | .packageResetCold _, h => execPackageResetCold_carries _ t h (.rfl' s)
  | .statsBoundary, h => execStatsBoundary_carries t h (.rfl' s)
  | .roundBoundary _, h => execRoundBoundary_carries _ t h (.rfl' s)
  | .summaryComplete _, h => execSummaryComplete_carries _ t h (.rfl' s)
  | .arrayDetectedError _ _ _ _ _ _, h => execArrayDetectedError_carries _ _ _ _ _ _ t h (.rfl' s)
  | .turntableDetectedError _ _ _, h => execTurntableDetectedError_carries _ _ _ t h (.rfl' s)
  | .islandLimitCheck _ _ _ _ _ _ _ _, h => execIslandLimitCheck_carries _ _ _ _ _ _ _ _ t h (.rfl' s)
  | .islandResume _ _ _ _ _ _, h => execIslandResume_carries _ _ _ _ _ _ t h (.rfl' s)
  | .islandParkLimit _ _, h => execIslandParkLimit_carries _ _ t h (.rfl' s)
  | .linamParkDeadline _ _, h => execLinamParkDeadline_carries _ _ t h (.rfl' s)
  | .controlWatchdog _ _, h => execControlWatchdog_carries _ _ t h (.rfl' s)
  | .controlMemory _, h => execControlMemory_carries _ t h (.rfl' s)
  | .controlDieReportTimeout _, h => execControlDieReportTimeout_carries _ t h (.rfl' s)
  | .vauxRise _ _, h => execVauxRise_carries _ _ t h (.rfl' s)
  | .packageReady _ _ _, h => execPackageReady_carries _ _ _ t h (.rfl' s)
  | .mainRailStartTimeout _, h => execMainRailStartTimeout_carries _ t h (.rfl' s)
  | .vinPgoodDrop _ _, h => execVinPgoodDrop_carries _ _ t h (.rfl' s)
  | .powerSample _ _, h => execPowerSample_carries _ _ t h (.rfl' s)
  | .supplyWarning _ _, h => execSupplyWarning_carries _ _ t h (.rfl' s)
  | .supplyRecovery _ _ _, h => execSupplyRecovery_carries _ _ _ t h (.rfl' s)
  | .thermalSample _ _, h => execThermalSample_carries _ _ t h (.rfl' s)
  | .thermalExit _ _ _, h => execThermalExit_carries _ _ _ t h (.rfl' s)
  | .thermalTripHoldoff _, h => execThermalTripHoldoff_carries _ t h (.rfl' s)
  | .railBelowReset _ _ _, h => execRailBelowReset_carries _ _ _ t h (.rfl' s)
  | .idleEntry _ _, h => execIdleEntry_carries _ _ t h (.rfl' s)
  | .idleExit _, h => execIdleExit_carries _ t h (.rfl' s)
  | .plcaTransmit, h => execPlcaTransmit_carries t h (.rfl' s)
  | .beaconLoss _, h => execBeaconLoss_carries _ t h (.rfl' s)
  | .plcaCollision, h => execPlcaCollision_carries t h (.rfl' s)
  | .fnSettingApply, h => execFnSettingApply_carries t h (.rfl' s)
  | .fnPortStart _, h => execFnPortStart_carries _ t h (.rfl' s)
  | .perstDeassert _, h => execPerstDeassert_carries _ t h (.rfl' s)
  | .vinPgoodAssert _ _ _, h => execVinPgoodAssert_carries _ _ _ t h (.rfl' s)
  | .beaconReturn, h => execBeaconReturn_carries t h (.rfl' s)
  | .plcaBeacon, h => execPlcaBeacon_carries t h (.rfl' s)
  | .neighbourDiscovery _, h => execNeighbourDiscovery_carries _ t h (.rfl' s)
  | .msixUnmask _ _, h => execMsixUnmask_carries _ _ t h (.rfl' s)

theorem carries_canonical {s t : State} (h : Carries s t) (hs : s.Canonical) : t.Canonical := ⟨h.mem hs.1, h.host hs.2⟩

theorem step_nil {s : State} (h : s.pending = []) : step s = .next (tick s) := by simp only [step, h]

theorem step_cons {s : State} {c : Instr} {rest : List Instr} (h : s.pending = c :: rest) :
    step s = exec c { s with pending := rest } := by simp only [step, h]

/-- A step carries the canonical form of both memories on; only the queue loses its front. -/
theorem step_canonical {s t : State} (hs : s.Canonical) (h : step s = .next t) : t.Canonical := by
  cases hp : s.pending with
  | nil =>
    obtain rfl : tick s = t := Host.Outcome.next.inj ((step_nil hp).symm.trans h)
    exact carries_canonical (tick_carries (.rfl' s)) hs
  | cons c rest =>
    exact carries_canonical (s := { s with pending := rest }) (exec_carries ((step_cons hp).symm.trans h)) hs

/-- Settles O4: each command, and the tick, carries the canonical form on. -/
theorem everyStepKeepsMemoryCanonical : Obligations.EveryStepKeepsMemoryCanonical := by
  unfold Obligations.EveryStepKeepsMemoryCanonical
  exact fun _ _ hs h => step_canonical hs h

/-- Settles O5: no command's meaning changes the queue. -/
theorem everyCommandKeepsTheQueue : Obligations.EveryCommandKeepsTheQueue := by
  unfold Obligations.EveryCommandKeepsTheQueue
  exact fun _ _ _ h => (exec_carries h).pending

/-- Settles O7, from what a byte of memory reads after a write and from `memPutAll_wf`. -/
theorem memoryReadsWhatWasWritten : Obligations.MemoryReadsWhatWasWritten := by
  unfold Obligations.MemoryReadsWhatWasWritten
  exact fun s a bs hm => ⟨fun _ hk => byteAt_put hm a bs hk, sameOutside_put s a bs, memPutAll_wf bs _ a hm⟩

/-- Settles O1: a step takes the front of the queue. -/
theorem stepRunsTheFrontCommand : Obligations.StepRunsTheFrontCommand := by
  unfold Obligations.StepRunsTheFrontCommand
  exact fun _ _ _ => step_cons rfl

theorem tick_of_unpowered {s : State} (h : s.power.vaux = false) : tick s = s := by simp only [tick, h]; rfl

/-- With VAUX present a tick is `passTime`, and with the main rails up also counts. -/
theorem tick_of_powered {s : State} (h : s.power.vaux = true) :
    tick s = s.passTime ∨ ∃ stats, tick s = { s.passTime with stats := stats } := by
  by_cases hup : s.passTime.mainUp = true
  · exact .inr ⟨_, by simp only [tick, h, hup]; rfl⟩
  · exact .inl (by simp only [tick, h, eq_false_of_ne_true hup]; rfl)

/-- Settles O2: the tick of a powered package is `passTime` and counts. -/
theorem emptyQueueLetsAMillisecondPass : Obligations.EmptyQueueLetsAMillisecondPass := by
  unfold Obligations.EmptyQueueLetsAMillisecondPass
  refine ⟨?powered, ?unpowered⟩
  case powered =>
    intro s hp hv
    refine ⟨tick s, step_nil hp, ?_⟩
    obtain ht | ⟨_, ht⟩ := tick_of_powered hv <;> rw [ht] <;> exact ⟨rfl, rfl, rfl, rfl, rfl, rfl, hp⟩
  case unpowered => exact fun s hp hv => (step_nil hp).trans (congrArg _ (tick_of_unpowered hv))

/-- Settles O3: at reset neither memory lists a byte. -/
theorem resetIsCanonical : Obligations.ResetIsCanonical := by
  unfold Obligations.ResetIsCanonical
  exact ⟨⟨rfl, rfl⟩, rfl, fun _ => ⟨rfl, rfl⟩⟩

end Sys2Proof.Proofs
end

