-- ==== Sys2Proof/Proofs/MessageFlits.lean ====
section
/-! A message and its flits (10): a header flit, the data in flits of 256 bytes, and a trailer flit that holds the CRC; what a
receiver rebuilds from them. -/

namespace Sys2Proof.Proofs

open Sys2Proof Sys2Proof.Machine Sys2Proof.Laws

/-! ### Bytes in flits -/

/-- The bytes of the number that some bytes hold are those bytes, then zeros. -/
theorem leBytes_leNat (n : Nat) (bs : List Byte) (h : bs.length ≤ n) :
    leBytes n (leNat bs) = bs ++ List.replicate (n - bs.length) 0 := by
  induction n generalizing bs with
  | zero => rw [List.length_eq_zero_iff.mp (Nat.le_zero.mp h)]; rfl
  | succ n ih =>
    cases bs with
    | nil =>
      have hrest := ih [] (Nat.zero_le n)
      rw [leNat, List.nil_append, List.length_nil, Nat.sub_zero] at hrest
      rw [leNat, leBytes, Nat.zero_div, hrest]
      rfl
    | cons b bs =>
      have hb : b.toNat < 256 := b.isLt
      have hlow : BitVec.ofNat 8 (b.toNat + 256 * leNat bs) = b := BitVec.eq_of_toNat_eq (by simp; omega)
      have hhigh : (b.toNat + 256 * leNat bs) / 256 = leNat bs := by omega
      rw [leNat, leBytes, hlow, hhigh, ih bs (Nat.le_of_succ_le_succ h), List.length_cons, Nat.add_sub_add_right]
      rfl

/-- Cut into flits and read back byte by byte, data come back, padded in the last flit. -/
theorem take_flatMap_chunks (f : Nat) (bs : List Byte) (h : bs.length < 256 * f) :
    ((chunks 256 f bs).flatMap fun d => leBytes 256 (leNat d)).take bs.length = bs := by
  induction f generalizing bs with
  | zero => omega
  | succ f ih =>
    cases hbs : bs with
    | nil => rfl
    | cons b rest =>
      rw [chunks.eq_3 _ _ _ (by simp), ← hbs, List.flatMap_cons]
      by_cases hfull : 256 ≤ bs.length
      · have hlen : (bs.take 256).length = 256 := List.length_take_of_le hfull
        rw [leBytes_leNat _ _ (Nat.le_of_eq hlen), hlen, Nat.sub_self, List.replicate_zero, List.append_nil,
          List.take_append, List.take_of_length_le (by omega), hlen, ← List.length_drop, ih _ (by simp; omega),
          List.take_append_drop]
      · have hall : bs.take 256 = bs := List.take_of_length_le (by omega)
        rw [hall, leBytes_leNat _ _ (by omega), List.append_assoc, List.take_left]

/-! ### The flits of a message -/

/-- The control byte of a flit of kind `k` on VC `v`, before its trailer nibble. -/
abbrev flitCtl (k v : Nat) : Byte := BitVec.ofNat 8 (k * 16 + v * 64)

theorem vcOfKind_lt (k : Nat) : vcOfKind k < 4 := by
  unfold vcOfKind
  split <;> [skip; split <;> [skip; split]] <;> decide

theorem flitCtl_kind {k : Nat} (hk : k < 4) (v : Nat) : bitsOf (flitCtl k v).toNat 4 2 = k := by
  rw [bitsOf_eq, BitVec.toNat_ofNat]
  omega

theorem flitCtl_vc {k v : Nat} (hk : k < 4) (hv : v < 4) : bitsOf (flitCtl k v).toNat 6 2 = v := by
  rw [bitsOf_eq, BitVec.toNat_ofNat]
  omega

def headFlit (m : Message) : Frame := { ctl := flitCtl 1 (vcOfKind m.kind), flit := m.header }
def dataFlit (m : Message) (d : List Byte) : Frame := { ctl := flitCtl 2 (vcOfKind m.kind), flit := leNat d }
def endFlit (m : Message) : Frame := { ctl := flitCtl 3 (vcOfKind m.kind), flit := m.crc }
def dataFlits (m : Message) : List Frame := (chunks 256 (m.data.length / 256 + 1) m.data).map (dataFlit m)

theorem headFlit_kind (m : Message) : bitsOf (headFlit m).ctl.toNat 4 2 = 1 := flitCtl_kind (by decide) _
theorem headFlit_vc (m : Message) : bitsOf (headFlit m).ctl.toNat 6 2 = vcOfKind m.kind :=
  flitCtl_vc (by decide) (vcOfKind_lt _)
theorem endFlit_kind (m : Message) : bitsOf (endFlit m).ctl.toNat 4 2 = 3 := flitCtl_kind (by decide) _
theorem dataFlits_kind {m : Message} {f : Frame} (hf : f ∈ dataFlits m) : bitsOf f.ctl.toNat 4 2 = 2 := by
  obtain ⟨d, -, rfl⟩ := List.mem_map.mp hf
  exact flitCtl_kind (by decide) _

theorem flits_of_data {m : Message} (h : kindHasData m.kind = true) :
    m.flits = headFlit m :: (dataFlits m ++ [endFlit m]) := by
  simp only [Message.flits, h]
  rfl

theorem flits_of_no_data {m : Message} (h : kindHasData m.kind = false) : m.flits = [headFlit m] := by
  simp only [Message.flits, h]
  rfl

theorem take_dataFlits (m : Message) :
    ((dataFlits m).flatMap fun f => leBytes 256 f.flit).take m.data.length = m.data := by
  rw [dataFlits, List.flatMap_map]
  exact take_flatMap_chunks _ _ (by omega)

/-! ### What a receiver makes of them -/

section
variable {m : Message} (hlow : 1 ≤ m.kind) (hhigh : m.kind ≤ 7) (hvc : m.vc = vcOfKind m.kind)
include hlow hhigh hvc

/-- A header flit in good order is taken, with the data and the CRC that its kind carries. -/
theorem messageOf_headFlit (rest : List Frame) : messageOf (headFlit m :: rest) = some (if kindHasData m.kind then
    { header := m.header, data := (rest.dropLast.flatMap fun f => leBytes 256 f.flit).take m.bytes,
      crc := bitsOf (listGet (headFlit m) rest (rest.length - 1)).flit 0 64 }
    else { header := m.header, data := [], crc := 0 }) := by
  have hgood : (!(1 ≤ m.kind && m.kind ≤ 7) || m.vc != vcOfKind m.kind ||
      bitsOf (headFlit m).ctl.toNat 6 2 != vcOfKind m.kind || bitsOf (headFlit m).ctl.toNat 4 2 != 1) = false := by
    simp [hlow, hhigh, hvc, headFlit_kind, headFlit_vc]
  exact (if_neg (ne_true_of_eq_false hgood)).trans (apply_ite some _ _ _).symm

theorem messageOf_flits_data (h : kindHasData m.kind = true) (hbytes : m.bytes = m.data.length) (hcrc : m.crc < 2 ^ 64) :
    messageOf m.flits = some m := by
  have hlast : listGet (headFlit m) (dataFlits m ++ [endFlit m]) (dataFlits m).length = endFlit m := by
    rw [listGet_of_lt _ (by simp), List.getElem_concat_length rfl]
  have hend : bitsOf (endFlit m).flit 0 64 = m.crc := by
    rw [bitsOf_eq, pow_zero, Nat.div_one]
    exact Nat.mod_eq_of_lt hcrc
  rw [flits_of_data h, messageOf_headFlit hlow hhigh hvc, if_pos h, List.dropLast_concat, List.length_append,
    List.length_singleton, Nat.add_sub_cancel, hlast, hend, hbytes, take_dataFlits]

theorem messageOf_flits_no_data (h : kindHasData m.kind = false) (hdata : m.data = []) (hcrc : m.crc = 0) :
    messageOf m.flits = some m := by
  obtain ⟨header, data, crc⟩ := m
  subst hdata hcrc
  rw [flits_of_no_data h, messageOf_headFlit hlow hhigh hvc, if_neg (ne_true_of_eq_false h)]

end

/-- Behind a header flit, a message of a kind with data ends with a trailer flit. -/
theorem messageEnds_headFlit {m : Message} (h : kindHasData m.kind = true) (rest : List Frame) :
    messageEnds (headFlit m :: rest) = rest.any fun f => bitsOf f.ctl.toNat 4 2 = 3 := by
  have hk : kindHasData (bitsOf (headFlit m).flit 0 8) = true := h
  simp [messageEnds, hk, headFlit_kind]

/-- The flits of a message end it, and no shorter part of them does. -/
theorem messageEnds_flits (m : Message) :
    messageEnds m.flits = true ∧ ∀ k, k < m.flits.length → messageEnds (m.flits.take k) = false := by
  cases h : kindHasData m.kind with
  | false =>
    rw [flits_of_no_data h]
    refine ⟨?_, fun k hk => ?_⟩
    · have hk : kindHasData (bitsOf (headFlit m).flit 0 8) = false := h
      simp [messageEnds, hk]
    · rw [Nat.lt_one_iff.mp hk]
      rfl
  | true =>
    rw [flits_of_data h]
    refine ⟨?_, fun k hk => ?_⟩
    · simp [messageEnds_headFlit h, endFlit_kind]
    · cases k with
      | zero => rfl
      | succ k =>
        have hk : k ≤ (dataFlits m).length := by simpa using hk
        rw [List.take_succ_cons, messageEnds_headFlit h, List.take_append_of_le_length hk, List.any_eq_false]
        intro f hf
        simp [dataFlits_kind (List.mem_of_mem_take hf)]

/-- Settles O31: a message with data is rebuilt from its three kinds of flits, one without from its header flit. -/
theorem messagesAreRebuiltFromTheirFlits : Obligations.MessagesAreRebuiltFromTheirFlits := by
  unfold Obligations.MessagesAreRebuiltFromTheirFlits
  intro m _ hlow hhigh hvc hbytes hdata hcrc hnoCrc
  refine ⟨?_, messageEnds_flits m⟩
  cases h : kindHasData m.kind with
  | true => exact messageOf_flits_data hlow hhigh hvc h (hbytes.resolve_right (by simp [h])) hcrc
  | false =>
    exact messageOf_flits_no_data hlow hhigh hvc h (hdata.resolve_left (by simp [h])) (hnoCrc.resolve_left (by simp [h]))

end Sys2Proof.Proofs
end

