-- ==== Sys2Proof/Proofs/TwoPartyChanges.lean ====
section
/-! Protection entries (17): a change by the second of two signatures, its staging, its withdrawal and its expiry, and the
release of ownership. -/

namespace Sys2Proof.Proofs

open Sys2Proof Sys2Proof.Machine Sys2Proof.Laws

/-- A staged change is discarded and `AUTH_NONCE` is drawn again. -/
abbrev unstaged (s : State) : State := (s.setStaged none).redraw

/-- The change that a valid first signature stages. -/
abbrev stagedBy (key : Nat) (value ao : List Byte) : StagedChange :=
  { index := keyIndex key, sub := keySub key, value := value, signer := aoSigner ao, nonce := aoNonce ao, ms := 600000 }

/-- The change staged in `s` is the one that `ao` signs, and the other party signed it first. -/
abbrev Seconds (s : State) (c : StagedChange) (key : Nat) (value ao : List Byte) : Prop :=
  s.security.staged = some c ∧ c.nonce = aoNonce ao ∧ c.index = keyIndex key ∧ c.sub = keySub key ∧ c.value = value ∧
    c.signer ≠ aoSigner ao ∧ s.aoValid key value ao = true

/-- Staging or discarding a change draws a nonce, and changes no other entry. -/
theorem odv_redraw_setStaged (s : State) (c : Option StagedChange) {k : Nat} (h : k ≠ Od.AUTH_NONCE) :
    (s.setStaged c).redraw.odv k = s.odv k := odv_setOd_other _ _ _ _ h

theorem rw2Close_owned {key : Nat} {bs : List Byte} {priv : Bool} {s : State} (ho : s.owned = true)
    (hlen : bs.length = odLen key + aoBytes) :
    s.rw2Close key bs priv = s.twoParty key (bs.take (odLen key)) (bs.drop (odLen key)) := by
  simp [State.rw2Close, ho, hlen]

theorem rw2Close_badLength {key : Nat} {bs : List Byte} {priv : Bool} {s : State} (ho : s.owned = true)
    (hlen : bs.length ≠ odLen key + aoBytes) : s.rw2Close key bs priv = (stLength, s) := by
  simp [State.rw2Close, ho, hlen, State.refused]

section
variable {s : State} {key : Nat} {value ao : List Byte} {c : StagedChange}

theorem twoParty_invalid (h : s.aoValid key value ao = false) : s.twoParty key value ao = s.authFails := by
  simp [State.twoParty, h]

variable (hvalid : s.aoValid key value ao = true)
include hvalid

theorem twoParty_stages (hs : s.security.staged = none) (hn : aoNonce ao = s.odv Od.AUTH_NONCE) (hk : key ≠ Od.AUTH_CANCEL) :
    s.twoParty key value ao = (stStaged, (s.setStaged (some (stagedBy key value ao))).redraw) := by
  simp [State.twoParty, hvalid, hs, hn, hk, stagedBy]

theorem twoParty_without_staged (hs : s.security.staged = none) (h : aoNonce ao ≠ s.odv Od.AUTH_NONCE ∨ key = Od.AUTH_CANCEL) :
    s.twoParty key value ao = s.authFails := by
  simp [State.twoParty, hvalid, hs, h]

variable (hs : s.security.staged = some c)
include hs

theorem twoParty_otherNonce (hn : aoNonce ao ≠ c.nonce) : s.twoParty key value ao =
    if aoNonce ao = s.odv Od.AUTH_NONCE then (stBusy, s) else s.authFails := by
  simp [State.twoParty, hvalid, hs, hn, State.refused]

variable (hn : aoNonce ao = c.nonce)
include hn

theorem twoParty_cancels (hk : key = Od.AUTH_CANCEL) :
    s.twoParty key value ao = if leNat value = 1 then (stOk, unstaged s) else (stRange, s) := by
  subst hk
  simp [State.twoParty, hvalid, hs, hn, State.refused]

theorem twoParty_unlike (hk : key ≠ Od.AUTH_CANCEL) (h : ¬ Seconds s c key value ao) : s.twoParty key value ao = s.authFails := by
  have hunlike : (c.index = keyIndex key && c.sub = keySub key && c.value = value && c.signer != aoSigner ao) = false := by
    simpa [Seconds, hs, hn, hvalid] using h
  simp only [State.twoParty, hvalid, hs, hn, if_neg hk, hunlike]
  rfl

theorem twoParty_applies (hk : key ≠ Od.AUTH_CANCEL) (h : Seconds s c key value ao) : s.twoParty key value ao =
    if (unstaged s).rw2Status key (leNat value) = stOk then (stOk, (unstaged s).rw2Apply key (leNat value))
    else ((unstaged s).rw2Status key (leNat value), unstaged s) := by
  obtain ⟨-, -, hindex, hsub, hvalue, hsigner, -⟩ := h
  have hlike : (c.index = keyIndex key && c.sub = keySub key && c.value = value && c.signer != aoSigner ao) = true := by
    simp [hindex, hsub, hvalue, hsigner]
  simp only [State.twoParty, hvalid, hs, hn, if_neg hk, hlike]
  rfl

end

/-- A write with an authorisation object changes no entry but `AUTH_NONCE`, or it is the second signature over the staged
change. -/
theorem twoParty_keeps_or_seconds (s : State) (key : Nat) (value ao : List Byte) {k : Nat} (hk : k ≠ Od.AUTH_NONCE) :
    (s.twoParty key value ao).2.odv k = s.odv k ∨ ∃ c, Seconds s c key value ao := by
  cases hvalid : s.aoValid key value ao with
  | false => exact .inl (by rw [twoParty_invalid hvalid]; rfl)
  | true =>
    cases hs : s.security.staged with
    | none =>
      by_cases h : aoNonce ao ≠ s.odv Od.AUTH_NONCE ∨ key = Od.AUTH_CANCEL
      · exact .inl (by rw [twoParty_without_staged hvalid hs h]; rfl)
      · obtain ⟨hn, hkey⟩ := not_or.mp h
        rw [twoParty_stages hvalid hs (not_not.mp hn) hkey]
        exact .inl (odv_redraw_setStaged _ _ hk)
    | some c =>
      by_cases hn : aoNonce ao = c.nonce
      · by_cases hcancel : key = Od.AUTH_CANCEL
        · rw [twoParty_cancels hvalid hs hn hcancel]
          split
          · exact .inl (odv_redraw_setStaged _ _ hk)
          · exact .inl rfl
        · by_cases h : Seconds s c key value ao
          · exact .inr ⟨c, h⟩
          · exact .inl (by rw [twoParty_unlike hvalid hs hn hcancel h]; rfl)
      · rw [twoParty_otherNonce hvalid hs hn]
        split <;> exact .inl rfl

/-- The release gives every protection entry its default, and the package has no owner. -/
theorem odv_releaseOwnership (s : State) {k : Nat} (h : k / 0x100000 = 8) : s.releaseOwnership.odv k = partDefault k := by
  have hne : k ≠ Od.OWNERSHIP_STATE := fun he => by rw [he] at h; exact absurd h (by decide)
  have hkept : ({ s with od := s.od.filter fun e => e.1 / 0x100000 != 8 } : State).odv k = partDefault k :=
    (odv_of_od_filter (p := fun k => k / 0x100000 != 8) rfl k).trans (if_neg (by simp [h]))
  exact (odv_setOd_other _ _ _ _ hne).trans hkept

theorem owned_releaseOwnership (s : State) : s.releaseOwnership.owned = false :=
  decide_eq_false (ne_of_eq_of_ne (odv_setOd_self _ _ _) (by decide))

theorem exec_stagedChangeExpiry_due {sec : Nat} {s : State} (hs : s.security.staged ≠ none) (hlate : 600 ≤ sec) :
    exec (.stagedChangeExpiry sec) s = .next ((unstaged s).count Od.AUTH_STAGED_EXPIRED 1) :=
  within_next_of_eq (o := "") rfl (if_pos (by simp [Option.isSome_iff_ne_none, hs, hlate]))

theorem exec_stagedChangeExpiry_noEffect {sec : Nat} {s : State} (h : s.security.staged = none ∨ sec < 600) :
    exec (.stagedChangeExpiry sec) s = .next s := by
  refine within_next_of_eq (o := "") rfl (if_neg ?_)
  obtain h | h := h <;> simp [h]

/-- Settles O57: the first clause from `twoParty_keeps_or_seconds`, the others from the outcome of each case. -/
theorem protectionChangesOnTwoSignaturesOnly : Obligations.ProtectionChangesOnTwoSignaturesOnly := by
  unfold Obligations.ProtectionChangesOnTwoSignaturesOnly
  refine ⟨?second, ?outcomes, fun k s h => ⟨odv_releaseOwnership s h, owned_releaseOwnership s⟩,
    fun _ _ hs hlate => exec_stagedChangeExpiry_due hs hlate, fun _ _ h => exec_stagedChangeExpiry_noEffect h⟩
  case second =>
    rintro key k bs priv s _ ho rfl hk
    have hne : k ≠ Od.AUTH_NONCE := fun he => by rw [he] at hk; exact absurd hk (by decide)
    by_cases hlen : bs.length = odLen key + aoBytes
    · rw [rw2Close_owned ho hlen]
      exact twoParty_keeps_or_seconds s key _ _ hne
    · rw [rw2Close_badLength ho hlen]
      exact .inl rfl
  case outcomes =>
    rintro key bs priv s _ ho hlen rfl
    rw [rw2Close_owned ho hlen]
    refine ⟨twoParty_invalid, ?stages, ?cancels, ?busy, ?applies⟩
    case stages =>
      intro hvalid hs hn hkey
      rw [twoParty_stages hvalid hs hn hkey]
      exact ⟨rfl, rfl, fun k hk => odv_redraw_setStaged _ _ hk⟩
    case cancels =>
      intro c hvalid hs hn hkey hone
      rw [twoParty_cancels hvalid hs hn hkey, if_pos hone]
      exact ⟨rfl, rfl, fun k hk => odv_redraw_setStaged _ _ hk⟩
    case busy =>
      intro c hvalid hs hn hnew
      rw [twoParty_otherNonce hvalid hs hn, if_pos hnew]
    case applies =>
      rintro c _ hvalid hs hn hkey hindex hsub hvalue hsigner rfl
      rw [twoParty_applies hvalid hs hn hkey ⟨hs, hn.symm, hindex, hsub, hvalue, hsigner, hvalid⟩, hvalue]
      exact ⟨fun hok => if_pos hok, fun hno => if_neg hno⟩

end Sys2Proof.Proofs
end

