-- ==== Sys2Proof/Proofs/DictionaryEntries.lean ====
section
/-! Requests for an entry of the Object Dictionary (15): what a `READ` gives, which `WRITE`s are refused, what one of a setting
changes, and the closed write of a protection entry. -/

namespace Sys2Proof.Proofs

open Sys2Proof Sys2Proof.Machine Sys2Proof.Laws

/-! ### Entries and their rows -/

/-- An entry with a subindex above 0 has a row of the table, which gives its type, length and access. -/
theorem exists_row_of_odInfo {key : Nat} {i : OdInfo} (h : odInfo key = some i) (hc : i.acc ≠ .const) :
    ∃ r ∈ odTable, r.covers key = true ∧ i = { ty := r.ty, len := r.len, acc := r.acc } := by
  unfold odInfo at h
  split at h
  · split at h
    · cases h
    · cases h
      exact absurd rfl hc
  · unfold odRow at h
    split at h
    · next r hr =>
      cases h
      exact ⟨r, List.mem_of_find?_eq_some hr, List.find?_some (p := fun r : OdRow => r.covers key) hr, rfl⟩
    · cases h

/-- The indices of the serving, barrier, ring and share-weight settings. -/
abbrev settingIndices : List Nat := [0x2110, 0x3400, 0x3500, 0x6000, 0x6010, 0x6020]

/-- A row of these indices describes neither a protection entry nor a DOMAIN value. -/
theorem odTable_settings : odTable.all (fun r => settingIndices.all fun ix =>
    !(r.ixLo ≤ ix && ix ≤ r.ixHi) || (r.acc != .rw2 && r.ty != .domain)) = true := by decide +kernel

theorem setting_is_plain {key : Nat} {i : OdInfo} (h : odInfo key = some i) (hc : i.acc ≠ .const)
    (hkey : keyIndex key ∈ settingIndices) : i.acc ≠ .rw2 ∧ i.ty ≠ .domain := by
  obtain ⟨r, hr, hcovers, rfl⟩ := exists_row_of_odInfo h hc
  have hrow := List.all_eq_true.mp (List.all_eq_true.mp odTable_settings r hr) _ hkey
  obtain ⟨⟨⟨hlo, hhi⟩, -⟩, -⟩ : ((r.ixLo ≤ keyIndex key ∧ keyIndex key ≤ r.ixHi) ∧ r.subLo ≤ key % 256) ∧ key % 256 ≤ r.subHi := by
    simpa [OdRow.covers, keyIndex] using hcovers
  simpa [hlo, hhi] using hrow

theorem acc_of_mayWrite {role : Role} {key : Nat} {acc : OdAccess} (h : role.mayWrite key acc = true)
    (hkey : keyIndex key ∈ settingIndices) : acc ≠ .const ∧ acc ≠ .ro := by
  have hne : ∀ k, keyIndex k ∉ settingIndices → key ≠ k := fun k hk he => hk (he ▸ hkey)
  have hreset : (key = Od.POWER_STATE_REQ || key = Od.PACKAGE_RESET || key = Od.LINK_PORT_RESET) = false := by
    simp [hne Od.POWER_STATE_REQ (by decide), hne Od.PACKAGE_RESET (by decide), hne Od.LINK_PORT_RESET (by decide)]
  constructor <;> rintro rfl <;> simp [Role.mayWrite, hreset] at h

/-! ### Reads (R509 to R512) -/

/-- A read changes nothing. -/
theorem serveRead_state (s : State) (bs : List Byte) : (s.serveRead bs).state = s := by
  unfold State.serveRead
  dsimp only
  split
  · rfl
  · next i _ =>
    refine (apply_ite Answer.state _ _ _).trans (ite_eq_iff'.mpr ⟨fun _ => rfl, fun _ => ?_⟩)
    refine (apply_ite Answer.state _ _ _).trans (ite_eq_iff'.mpr ⟨fun _ => rfl, fun _ => ?_⟩)
    exact (apply_ite Answer.state _ _ _).trans (ite_eq_iff'.mpr ⟨fun _ => rfl, fun _ => rfl⟩)

theorem serveRead_noEntry {bs : List Byte} (s : State) (h : odInfo (tpKey bs) = none) :
    s.serveRead bs = answerTo bs (stNoEntry, s) := by
  simp only [State.serveRead, h]
  rfl

section
variable {bs : List Byte} {i : OdInfo} {s : State} (hi : odInfo (tpKey bs) = some i) (hboot : s.power.boot = 1)
include hi hboot

theorem serveRead_value (hty : tpType bs = 0 ∨ tpType bs = i.ty.code) (hplain : i.ty ≠ .domain) (hoff : tpOffset bs = 0)
    (hlast : tpLast bs = false) : s.serveRead bs =
      { status := stOk, ty := i.ty.code, data := s.entryBytes (tpKey bs) i, state := s } := by
  have hrom : (s.power.boot = 2 && !romReads (tpKey bs)) = false := by simp [hboot]
  have htype : (tpType bs != 0 && tpType bs != i.ty.code) = false := by
    obtain h | h := hty <;> simp [h]
  have hrange : (i.ty != .domain && (tpOffset bs != 0 || tpLast bs)) = false := by simp [hoff, hlast]
  simp only [State.serveRead, hi, hrom, htype, hrange, if_neg hplain]
  rfl

/-! ### Writes (R511 to R514, R519) -/

variable {role : Role} {path : Nat}

theorem serveWrite_readOnly (hacc : i.acc = .const ∨ i.acc = .ro) : s.serveWrite role path bs = (stReadOnly, s) := by
  have hro : (i.acc = .const || i.acc = .ro) = true := by simpa using hacc
  simp [State.serveWrite, hi, hboot, hro, State.refused]

theorem serveWrite_rw2 (hmay : role.mayWrite (tpKey bs) i.acc = true) (hrw2 : i.acc = .rw2) (hty : tpType bs = i.ty.code) :
    s.serveWrite role path bs = s.writeSegment path (tpKey bs) (tpOffset bs) (tpData bs) (tpLast bs)
      fun s v => s.rw2Close (tpKey bs) v (role = .privileged) := by
  simp [State.serveWrite, hi, hboot, hrw2 ▸ hmay, hty, hrw2]

variable (hconst : i.acc ≠ .const) (hro : i.acc ≠ .ro)
include hconst hro

theorem serveWrite_denied (hmay : role.mayWrite (tpKey bs) i.acc = false) : s.serveWrite role path bs = (stDenied, s) := by
  simp [State.serveWrite, hi, hboot, hconst, hro, hmay, State.refused]

variable (hmay : role.mayWrite (tpKey bs) i.acc = true)
include hmay

theorem serveWrite_badType (hty : tpType bs ≠ i.ty.code) : s.serveWrite role path bs = (stType, s) := by
  simp [State.serveWrite, hi, hboot, hconst, hro, hmay, hty, State.refused]

/-- A write of an entry that is neither a protection entry nor a DOMAIN value is refused, or is `writeOd` of its value. -/
theorem serveWrite_plain (hrw2 : i.acc ≠ .rw2) (hplain : i.ty ≠ .domain) :
    (∃ st, st ≠ stOk ∧ s.serveWrite role path bs = (st, s)) ∨
      s.serveWrite role path bs = s.writeOd (tpKey bs) i (leNat (tpData bs)) := by
  by_cases hty : tpType bs = i.ty.code
  · by_cases hoff : (tpOffset bs != 0 || tpLast bs) = true
    · exact .inl ⟨stRange, by decide, by
        simp [State.serveWrite, hi, hboot, hconst, hro, hmay, hty, hrw2, hplain, hoff, State.refused]⟩
    · by_cases hlen : tpLen bs = i.len
      · exact .inr (by simp [State.serveWrite, hi, hboot, hconst, hro, hmay, hty, hrw2, hplain, hoff, hlen])
      · exact .inl ⟨stLength, by decide, by
          simp [State.serveWrite, hi, hboot, hconst, hro, hmay, hty, hrw2, hplain, hoff, hlen, State.refused]⟩
  · exact .inl ⟨stType, by decide, serveWrite_badType hi hboot hconst hro hmay hty⟩

end

/-- The entries whose write has an effect of its own. -/
abbrev actionKeys : List Nat := [Od.TT_LOAD, Od.UPD_DIGEST, Od.POINTS_COMMIT, Od.PACKAGE_MODE, Od.POWER_PROFILE,
  Od.POWER_STATE_REQ, Od.PACKAGE_RESET, Od.LINK_PORT_RESET, Od.BUDDY_PKG, Od.BUDDY_SEND, Od.CKPT_REQUEST, Od.CKPT_DRAINED,
  Od.CKPT_RESTORE, Od.CKPT_SERVE_NOW, Od.STATS_LATCH_NOW, Od.STICKY_LOG, Od.FE_VALID, Od.DDR5_RATE_LIMIT, Od.HP_CXL_ENABLE,
  Od.FN_ENABLE, Od.FN_PLCA_NODE_ID, Od.FN_PLCA_NODE_COUNT, Od.FN_PLCA_TO_TIMER, Od.TODP_UDP_PORT]

/-- The value of a setting is stored and has no other effect. -/
theorem applyEntry_setting {key : Nat} (hkey : keyIndex key ∈ settingIndices) (s : State) (v : Nat) :
    s.applyEntry key v = (stOk, s.setOd key v) := by
  have hport : keyIndex key / 16 ≠ 0x310 := by
    have hall : ∀ ix ∈ settingIndices, ix / 16 ≠ 0x310 := by decide
    exact hall _ hkey
  have hactions : ∀ k ∈ actionKeys, key ≠ k := by
    have hall : ∀ k ∈ actionKeys, keyIndex k ∉ settingIndices := by decide
    exact fun k hk he => hall k hk (he ▸ hkey)
  simp only [List.forall_mem_cons] at hactions
  simp [State.applyEntry, fnKeys, hactions, hport]

/-- A write of a setting is stored, or refused with nothing changed. -/
theorem writeOd_setting {key : Nat} (hkey : keyIndex key ∈ settingIndices) (s : State) (i : OdInfo) (v : Nat) :
    s.writeOd key i v = (stOk, s.setOd key v) ∨ ∃ st, st ≠ stOk ∧ s.writeOd key i v = (st, s) := by
  unfold State.writeOd
  dsimp only
  by_cases hst : s.valueStatus key i v = stOk
  · rw [if_neg (by simp [hst])]
    by_cases hbusy : s.closedNow key = true
    · exact .inr ⟨stBusy, by decide, if_pos hbusy⟩
    · rw [if_neg hbusy]
      by_cases hmain : (mainKeys.contains key && !s.power.ready) = true
      · exact .inr ⟨stUnavailable, by decide, if_pos hmain⟩
      · exact .inl ((if_neg hmain).trans (applyEntry_setting hkey s v))
  · exact .inr ⟨_, hst, if_pos (by simp [hst])⟩

/-! ### Protection entries (R519, R572) -/

/-- A protection entry may be written in every role: its rules decide. -/
theorem mayWrite_rw2 {key : Nat} {i : OdInfo} (h : odInfo key = some i) (hrw2 : i.acc = .rw2) (role : Role) :
    role.mayWrite key i.acc = true := by
  have hother : ∀ k ∈ [Od.POWER_STATE_REQ, Od.PACKAGE_RESET, Od.LINK_PORT_RESET], (odInfo k).any (fun i => i.acc = .rw2) = false := by
    decide +kernel
  have hne : ∀ k ∈ [Od.POWER_STATE_REQ, Od.PACKAGE_RESET, Od.LINK_PORT_RESET], key ≠ k := fun k hk he => by
    simpa [← he, h, hrw2] using hother k hk
  simp only [List.forall_mem_cons] at hne
  simp [Role.mayWrite, hne, hrw2]

/-- The last segment of a value closes it. -/
theorem writeSegment_closes {s : State} {path key offset : Nat} {bs old : List Byte} (close : State → List Byte → Wrote)
    (hg : s.segment path = some { path := path, key := key, data := old }) (hoff : offset = old.length) (hold : old ≠ [])
    (hbs : bs ≠ []) (hmax : (old ++ bs).length ≤ domainMax) :
    s.writeSegment path key offset bs true close = close (s.setSegment path none) (old ++ bs) := by
  subst hoff
  have hpos : old.length ≠ 0 := by simpa using hold
  have hroom : ¬ (bs.isEmpty || domainMax < (old ++ bs).length) = true := by simpa [hbs] using hmax
  simp only [State.writeSegment, if_neg hpos, hg, decide_true, Bool.and_self, if_true, if_neg hroom]

/-- Settles O55: reads and refusals from the order of `serveRead` and `serveWrite`, settings from `writeOd_setting`. -/
theorem readsAndWritesAnswerAsTheEntryAllows : Obligations.ReadsAndWritesAnswerAsTheEntryAllows := by
  unfold Obligations.ReadsAndWritesAnswerAsTheEntryAllows
  refine ⟨?value, ?noEntry, ?refused, ?setting, ?protection⟩
  case value => exact fun bs i s hi hboot hty hplain hoff hlast => serveRead_value hi hboot hty hplain hoff hlast
  case noEntry =>
    intro bs role path s h
    rw [serveRead_noEntry s h]
    refine ⟨rfl, rfl, ?_⟩
    simp only [State.serveWrite, h]
    rfl
  case refused =>
    exact fun bs role path i s hi hboot => ⟨serveWrite_readOnly hi hboot,
      fun hc hro hmay => serveWrite_denied hi hboot hc hro hmay,
      fun hc hro hmay hty => serveWrite_badType hi hboot hc hro hmay hty⟩
  case setting =>
    rintro bs role path i s _ hi hboot hmay hkey rfl
    obtain ⟨hc, hro⟩ := acc_of_mayWrite hmay hkey
    obtain ⟨hrw2, hplain⟩ := setting_is_plain hi hc hkey
    have hcases : s.serveWrite role path bs = (stOk, s.setOd (tpKey bs) (leNat (tpData bs))) ∨
        ∃ st, st ≠ stOk ∧ s.serveWrite role path bs = (st, s) := by
      obtain hrefused | hwrite := serveWrite_plain (path := path) hi hboot hc hro hmay hrw2 hplain
      · exact .inr hrefused
      · rw [hwrite]
        exact writeOd_setting hkey s i _
    obtain hw | ⟨st, hst, hw⟩ := hcases
    · rw [hw]
      exact ⟨fun _ => ⟨odv_setOd_self _ _ _, fun k hk => odv_setOd_other _ _ _ _ hk, fun _ => ⟨rfl, rfl⟩⟩,
        fun hno => absurd rfl hno⟩
    · rw [hw]
      exact ⟨fun hok => absurd hok hst, fun _ => rfl⟩
  case protection =>
    intro bs old role path i s hi hboot hrw2 hty hlast hg hoff hold hbs hmax
    have hmay := mayWrite_rw2 hi hrw2 role
    rw [serveWrite_rw2 hi hboot hmay hrw2 hty, hlast, writeSegment_closes _ hg hoff hold hbs hmax]

end Sys2Proof.Proofs
end

