-- ==== Sys2Proof/Proofs/ServedRequests.lean ====
section
/-! Requests on their paths (15): the mailbox, TODP and secured messages; and the enrolment of the keys (17). -/

namespace Sys2Proof.Proofs

open Sys2Proof Sys2Proof.Machine Sys2Proof.Laws

/-! ### Rows that serve a frame -/

section
variable {path : OdPath} {bs : List Byte} {s : State} (hr : s.Requested path bs)
include hr

/-- A frame that waits on its path is served there by the row of its kind. -/
theorem serveFrame_answered {mine : FrameKind → Bool} (hk : mine (frameKind path.isTodp bs) = true) :
    s.serveFrame path bs mine = s.answered path bs := by
  unfold State.serveFrame
  rw [if_neg (by simp [hk])]
  cases path with
  | mailbox p =>
    obtain ⟨-, hruns, hserving⟩ := hr
    exact if_pos (by simp [hruns, hserving])
  | todp addr udpPort => rfl

theorem serveEntry_answered {keys : List Nat} (hkey : tpKey bs ∈ keys)
    (hk : frameKind path.isTodp bs = .rw2 ∨ frameKind path.isTodp bs = .firmware) :
    s.serveEntry path bs keys = s.answered path bs :=
  (if_pos (List.contains_iff_mem.mpr hkey)).trans (serveFrame_answered hr (by simpa using hk))

theorem exec_keyEnrol_unowned (hkind : frameKind path.isTodp bs = .rw2) (hkey : tpKey bs = Od.OWNER_KEY ∨ tpKey bs = Od.OPERATOR_KEY)
    (ho : s.owned = false) : exec (.keyEnrol path bs) s = .next (s.answered path bs) :=
  within_next_of_eq hr.1 ((if_neg (ne_true_of_eq_false ho)).trans
    (serveEntry_answered hr (by simpa using hkey) (.inl hkind)))

end

/-! ### The mailbox (R534) -/

/-- What a port's mailbox shows. -/
def mailboxOf (h : HostPort) : Option (List Byte) × List Byte × Nat := (h.mbxServing, h.mbxResponse, h.mbxCtrl)

/-- Raising a vector leaves every mailbox as it is. -/
theorem mailboxOf_raise (s : State) (p v q : Nat) : mailboxOf ((s.raise p v).port q) = mailboxOf (s.port q) := by
  have hset : ∀ h : HostPort, mailboxOf h = mailboxOf (s.port p) → mailboxOf ((s.setPort p h).port q) = mailboxOf (s.port q) := by
    intro h hh
    by_cases hq : q = p
    · rw [hq, port_setPort_self, hh]
    · rw [port_setPort_other _ _ _ _ hq]
  unfold State.raise
  dsimp only
  split
  · split
    · rfl
    · exact hset _ rfl
  · split
    · rfl
    · split
      · rfl
      · exact hset _ rfl

/-- The state in which the mailbox of a port has answered, before its interrupt. -/
abbrev responded (s : State) (p : Nat) (resp : List Byte) : State :=
  (s.setPort p { s.port p with mbxResponse := resp, mbxServing := none, mbxCtrl := ((s.port p).mbxCtrl &&& 0x1F8) + 4 }).setOd
    Od.MBX_SERVED (s.odv Od.MBX_SERVED + 1)

theorem mailboxAnswer_eq {s : State} {p : Nat} {bs : List Byte} (h : (s.port p).mbxServing = some bs) (resp : List Byte) :
    s.mailboxAnswer p resp = responded s p resp ∨ ∃ v, s.mailboxAnswer p resp = (responded s p resp).raise p v := by
  rw [State.mailboxAnswer, if_neg (by simp [h])]
  by_cases hirq : bitOf (s.port p).mbxCtrl 3 = true
  · exact .inr ⟨_, if_pos hirq⟩
  · exact .inl (if_neg hirq)

/-- Answering ends the request, shows the response and sets `MBX_DONE`. -/
theorem mailboxOf_mailboxAnswer {s : State} {p : Nat} {bs : List Byte} (h : (s.port p).mbxServing = some bs) (resp : List Byte) :
    mailboxOf ((s.mailboxAnswer p resp).port p) = (none, resp, ((s.port p).mbxCtrl &&& 0x1F8) + 4) := by
  have hshown : mailboxOf ((responded s p resp).port p) = (none, resp, ((s.port p).mbxCtrl &&& 0x1F8) + 4) :=
    congrArg mailboxOf (port_setPort_self s p _)
  obtain hm | ⟨v, hm⟩ := mailboxAnswer_eq h resp
  · rw [hm, hshown]
  · rw [hm, mailboxOf_raise, hshown]

theorem odv_mailboxAnswer {s : State} {p : Nat} {bs : List Byte} (h : (s.port p).mbxServing = some bs) (resp : List Byte) (k : Nat) :
    (s.mailboxAnswer p resp).odv k = if k = Od.MBX_SERVED then s.odv Od.MBX_SERVED + 1 else s.odv k := by
  have hcounted : (responded s p resp).odv k = if k = Od.MBX_SERVED then s.odv Od.MBX_SERVED + 1 else s.odv k := by
    by_cases hk : k = Od.MBX_SERVED
    · rw [if_pos hk, hk]
      exact odv_setOd_self _ _ _
    · rw [if_neg hk]
      exact odv_setOd_other _ _ _ _ hk
  obtain hm | ⟨v, hm⟩ := mailboxAnswer_eq h resp
  · rw [hm, hcounted]
  · rw [hm, odv_raise, hcounted]

/-- `MBX_DONE` is set in the control word that an answer leaves. -/
theorem bitOf_done (ctrl : Nat) : bitOf ((ctrl &&& 0x1F8) + 4) 2 = true := by
  have hlow : (ctrl &&& 0x1F8) % 8 = 0 := by
    rw [show 8 = 2 ^ 3 from rfl, Nat.and_mod_two_pow]
    exact Nat.and_zero _
  rw [bitOf, Nat.testBit_eq_decide_div_mod_eq, decide_eq_true_eq]
  omega

theorem serveMailbox_eq {s : State} {p : Nat} {bs : List Byte} (h : resetWrite (s.mailboxRole bs) false bs = false) {a : Answer}
    (ha : a = s.serveOne (s.mailboxRole bs) (.mailbox p) bs) : s.serveMailbox p bs = a.state.mailboxAnswer p (a.frame bs) := by
  subst ha
  exact if_neg (by simp [h])

/-! ### TODP and secured messages (R531 to R533) -/

section
variable {a u : Nat} {bs : List Byte} {s : State} (hr : s.Requested (.todp a u) bs)
include hr

theorem todpFrame_new (hnew : s.keptResponse a (tpXid bs) = none) (serve : State → State) :
    s.todpFrame a u bs serve = serve (s.count Od.FN_FRAMES_RX 1) := by
  obtain ⟨-, hanswers, hport⟩ := hr
  have hkept : (s.count Od.FN_FRAMES_RX 1).keptResponse a (tpXid bs) = none := hnew
  rw [State.todpFrame, if_neg (by simp [hanswers])]
  exact (if_neg (by simp [hport])).trans (by rw [hkept])

theorem todpFrame_repeated {resp : List Byte} (hrepeat : s.keptResponse a (tpXid bs) = some resp) (serve : State → State) :
    s.todpFrame a u bs serve =
      ((s.count Od.FN_FRAMES_RX 1).fnQueue (.todp (.todp a u) resp) false).count Od.TODP_DUPLICATES 1 := by
  obtain ⟨-, hanswers, hport⟩ := hr
  have hkept : (s.count Od.FN_FRAMES_RX 1).keptResponse a (tpXid bs) = some resp := hrepeat
  rw [State.todpFrame, if_neg (by simp [hanswers])]
  exact (if_neg (by simp [hport])).trans (by rw [hkept])

theorem exec_discover_announces (hkind : frameKind true bs = .discover) (hnew : s.keptResponse a (tpXid bs) = none)
    (hboot : s.power.boot = 1) : exec (.discover a u bs) s = .next ((s.count Od.FN_FRAMES_RX 1).todpAnswer a u (tpXid bs) stOk
      ((s.count Od.FN_FRAMES_RX 1).announce bs) false) := by
  refine within_next_of_eq hr.1 ((if_neg (by simp [hkind])).trans ((todpFrame_new hr hnew _).trans (if_neg ?_)))
  rw [count_power, hboot]
  decide

theorem exec_secured_served (hkind : frameKind true bs = .secured) (hnew : s.keptResponse a (tpXid bs) = none)
    (hboot : s.power.boot = 1) :
    exec (.secured (.todp a u) bs) s = .next ((s.count Od.FN_FRAMES_RX 1).serveSecured a u bs) := by
  refine within_next_of_eq hr.1 ((if_neg (by simp [hkind])).trans ((todpFrame_new hr hnew _).trans (if_neg ?_)))
  rw [count_power, hboot]
  decide

end

/-- The session that opens a message is one of those open. -/
theorem mem_sessions_of_openSecured {s : State} {path : OdPath} {bs m : List Byte} {x : Session}
    (h : s.openSecured path bs = some (x, m)) : x ∈ s.security.sessions := by
  obtain ⟨y, hy, hopen⟩ := List.exists_of_findSome?_eq_some h
  split at hopen
  · obtain ⟨_, -, hpair⟩ := Option.map_eq_some_iff.mp hopen
    cases hpair
    exact hy
  · cases hopen

theorem serveSecured_unopened {t : State} {a u : Nat} {bs : List Byte} (h : t.openSecured (.todp a u) (tpData bs) = none) :
    t.serveSecured a u bs = t := by
  simp only [State.serveSecured, h]

/-- A `READ` inside a session is answered inside it. -/
theorem serveSecured_read {t : State} {a u : Nat} {bs m : List Byte} {x : Session} {r : Answer}
    (h : t.openSecured (.todp a u) (tpData bs) = some (x, m)) (hkind : frameKind true m = .read) (hr : r = t.serveRead m) :
    t.serveSecured a u bs = t.todpAnswer a u (tpXid bs) r.status
      (tpResponse bs stOk 0 (Config.securedSeal x.secret (tpResponse m r.status r.ty r.data))) false := by
  have hserve : ∀ role, t.serveOne role (.todp a u) m = r := fun role => by
    simp only [State.serveOne, OdPath.isTodp, hkind, hr]
  have hreset : ∀ role, resetWrite role true m = false := fun role => by simp [resetWrite, hkind]
  have hsettles : settlesWrite true m r.status = false := by simp [settlesWrite, hkind]
  have hstate : r.state = t := hr ▸ serveRead_state t m
  have hopen : t.security.sessions.contains x = true := List.contains_iff_mem.mpr (mem_sessions_of_openSecured h)
  simp only [State.serveSecured, h, hkind, reduceCtorEq, if_false, hserve, hreset, Bool.false_and, Bool.false_eq_true, hstate,
    hopen, if_true, hsettles]
  rfl

/-- Settles O54: each row serves the frames of its kind, and the answers are those of the mailbox and of TODP. -/
theorem requestsAreServedOnTheirPath : Obligations.RequestsAreServedOnTheirPath := by
  unfold Obligations.RequestsAreServedOnTheirPath
  refine ⟨?read, ?write, ?domain, ?mctp, ?rw2, ?cancel, ?enrol, ?release, ?debug, ?firmware, ?mailbox, ?todp, ?repeated,
    ?discover, ?secured⟩
  case read | write | domain => exact fun path bs s hr hk => within_next_of_eq hr.1 (serveFrame_answered hr (by simpa using hk))
  case mctp | rw2 => exact fun path bs s hr hk => within_next_of_eq hr.1 (serveFrame_answered hr (by simpa using hk))
  case enrol => exact fun path bs s hr hk hkey ho => exec_keyEnrol_unowned hr hk hkey ho
  case cancel | release | debug =>
    exact fun path bs s hr hk hkey => within_next_of_eq hr.1 (serveEntry_answered hr (by simp [hkey]) (.inl hk))
  case firmware =>
    exact fun path bs s hr hk hkey => within_next_of_eq hr.1 (serveEntry_answered hr (by simp [hkey]) (.inr hk))
  case mailbox =>
    intro p bs s a hr ha hreset hserving
    have hshown := mailboxOf_mailboxAnswer hserving (a.frame bs)
    simp only [mailboxOf, Prod.mk.injEq] at hshown
    obtain ⟨hended, hresponse, hctrl⟩ := hshown
    have hanswered : s.answered (.mailbox p) bs = a.state.mailboxAnswer p (a.frame bs) := serveMailbox_eq hreset ha
    rw [hanswered, odv_mailboxAnswer hserving, if_pos rfl, hctrl]
    exact ⟨hended, hresponse, bitOf_done _, rfl⟩
  case todp =>
    rintro a u bs s _ _ hr hnew rfl rfl
    exact todpFrame_new hr hnew _
  case repeated => exact fun a u bs r s hr hrepeat => todpFrame_repeated hr hrepeat _
  case discover => exact fun a u bs s hr hkind hnew hboot => exec_discover_announces hr hkind hnew hboot
  case secured =>
    rintro a u bs s _ hr hkind hnew hboot rfl
    exact ⟨exec_secured_served hr hkind hnew hboot, serveSecured_unopened, fun x m r => serveSecured_read⟩

/-! ### The keys (R4, R569) -/

/-- The other party's key. -/
abbrev otherKey (key : Nat) : Nat := if key = Od.OWNER_KEY then Od.OPERATOR_KEY else Od.OWNER_KEY

/-- A party's key is enrolled, and the second one makes the package owned. -/
def enrolled (s : State) (key v : Nat) : State :=
  if s.odv (otherKey key) = 0 then s.setOd key v else (s.setOd key v).setOd Od.OWNERSHIP_STATE 1

section
variable {key : Nat} {s : State}

theorem odv_enrolled_other (v : Nat) {k : Nat} (hk : k ≠ key) (hk' : k ≠ Od.OWNERSHIP_STATE) : (enrolled s key v).odv k = s.odv k := by
  unfold enrolled
  split
  · exact odv_setOd_other _ _ _ _ hk
  · rw [odv_setOd_other _ _ _ _ hk', odv_setOd_other _ _ _ _ hk]

theorem rw2Close_unowned (hkey : key = Od.OWNER_KEY ∨ key = Od.OPERATOR_KEY) (ho : s.owned = false) (bs : List Byte) (priv : Bool) :
    s.rw2Close key bs priv = s.enrol key bs priv :=
  (if_pos (by simp [ho])).trans (if_pos (by simpa using hkey))

variable (ho : s.owned = false) (hkey : key = Od.OWNER_KEY ∨ key = Od.OPERATOR_KEY)
include hkey

theorem odv_enrolled_key (v : Nat) : (enrolled s key v).odv key = v := by
  have hne : key ≠ Od.OWNERSHIP_STATE := by
    obtain rfl | rfl := hkey <;> decide
  unfold enrolled
  split
  · exact odv_setOd_self _ _ _
  · rw [odv_setOd_other _ _ _ _ hne, odv_setOd_self]

include ho

/-- The package is owned once both keys are enrolled. -/
theorem owned_enrolled (v : Nat) : (enrolled s key v).owned = true ↔ s.odv (otherKey key) ≠ 0 := by
  have hne : Od.OWNERSHIP_STATE ≠ key := by
    obtain rfl | rfl := hkey <;> decide
  by_cases hother : s.odv (otherKey key) = 0
  · have hsame : (enrolled s key v).owned = s.owned := by
      rw [enrolled, if_pos hother, State.owned, odv_setOd_other _ _ _ _ hne]
      rfl
    simp [hsame, ho, hother]
  · have hset : (enrolled s key v).owned = true := by
      rw [enrolled, if_neg hother]
      exact decide_eq_true (odv_setOd_self _ _ _)
    simp [hset, hother]

theorem rw2Close_enrols {bs : List Byte} (hnew : s.odv key = 0) (hlen : bs.length = 32) (hdiff : leNat bs ≠ s.odv (otherKey key)) :
    s.rw2Close key bs true = (stOk, enrolled s key (leNat bs)) := by
  rw [rw2Close_unowned hkey ho, State.enrol, if_neg (by simp [hnew])]
  exact (if_neg (by simp [hlen])).trans (if_neg hdiff)

theorem rw2Close_enrol_denied {priv : Bool} (h : s.odv key ≠ 0 ∨ priv = false) (bs : List Byte) :
    s.rw2Close key bs priv = (stDenied, s) := by
  rw [rw2Close_unowned hkey ho]
  exact if_pos (by obtain h | h := h <;> simp [h])

end

theorem rw2Close_unowned_denied {key : Nat} {s : State} (ho : s.owned = false) (h1 : key ≠ Od.OWNER_KEY)
    (h2 : key ≠ Od.OPERATOR_KEY) (bs : List Byte) (priv : Bool) : s.rw2Close key bs priv = (stDenied, s) :=
  (if_pos (by simp [ho])).trans (if_neg (by simp [h1, h2]))

/-- The two keys are protection entries of 32 octets. -/
theorem odInfo_key {key : Nat} (hkey : key = Od.OWNER_KEY ∨ key = Od.OPERATOR_KEY) :
    odInfo key = some { ty := .octets, len := 32, acc := .rw2 } := by
  obtain rfl | rfl := hkey <;> decide +kernel

/-- A value written in one segment is closed at once. -/
theorem writeSegment_whole (s : State) (path key : Nat) {bs : List Byte} (close : State → List Byte → Wrote) (hbs : bs ≠ [])
    (hmax : bs.length ≤ domainMax) : s.writeSegment path key 0 bs true close = close (s.setSegment path none) bs := by
  have hroom : ¬ (bs.isEmpty || domainMax < bs.length) = true := by simpa [hbs] using hmax
  simp only [State.writeSegment, if_true, List.nil_append, if_neg hroom]

/-- The state once the mailbox of port `p` has written the key that a frame names. -/
abbrev mailEnrolled (s : State) (p : Nat) (bs : List Byte) : State :=
  enrolled (s.setSegment p none) (tpKey bs) (leNat (tpData bs))

/-- Settles O56: the enrolment by the outcomes of `rw2Close`, and KEY_ENROL by the path of its frame. -/
theorem keysAreEnrolledOnceEach : Obligations.KeysAreEnrolledOnceEach := by
  unfold Obligations.KeysAreEnrolledOnceEach
  refine ⟨?enrols, fun key bs priv s ho hkey h => rw2Close_enrol_denied ho hkey h bs,
    fun key bs priv s ho h1 h2 => rw2Close_unowned_denied ho h1 h2 bs priv, ?mailbox⟩
  case enrols =>
    intro key bs s ho hkey hnew hlen hdiff
    exact ⟨_, rw2Close_enrols ho hkey hnew hlen hdiff, odv_enrolled_key hkey _, owned_enrolled ho hkey _,
      fun k hk hk' => odv_enrolled_other _ hk hk'⟩
  case mailbox =>
    rintro _ p bs s ho hkey hnew hr hkind rfl hrole hty hoff hlast hlen hdiff
    obtain ⟨-, hruns, hserving⟩ := id hr
    have hboot : s.power.boot = 1 := by
      have hfw : s.power.ready = true ∧ s.power.vaux = true ∧ s.power.boot = 1 := by
        simpa [State.mailboxRuns, State.fwRuns] using hruns
      exact hfw.2.2
    have hinfo := odInfo_key hkey
    have hdata : tpData bs ≠ [] := fun he => by simp [he] at hlen
    have hwrite : s.serveWrite .privileged p bs = (stOk, mailEnrolled s p bs) := by
      rw [serveWrite_rw2 hinfo hboot (mayWrite_rw2 hinfo rfl _) rfl hty, hoff, hlast,
        writeSegment_whole _ _ _ _ hdata (by rw [hlen]; decide)]
      exact rw2Close_enrols (s := s.setSegment p none) ho hkey hnew hlen hdiff
    have hserve : s.serveOne .privileged (.mailbox p) bs =
        answerTo bs (stOk, mailEnrolled s p bs) := by
      simp only [State.serveOne, OdPath.isTodp, hkind, OdPath.buffer, hwrite]
    have hport : ((mailEnrolled s p bs).port p).mbxServing = some bs := by
      unfold mailEnrolled enrolled
      split <;> exact hserving
    have hanswered : s.answered (.mailbox p) bs = (mailEnrolled s p bs).mailboxAnswer p
        ((answerTo bs (stOk, mailEnrolled s p bs)).frame bs) :=
      serveMailbox_eq (by simp [resetWrite, hkind]) (hrole ▸ hserve.symm)
    refine ⟨_, exec_keyEnrol_unowned hr hkind hkey ho, ?_⟩
    have hne : tpKey bs ≠ Od.MBX_SERVED := by
      obtain h | h := hkey <;> rw [h] <;> decide
    rw [hanswered, odv_mailboxAnswer hport, if_neg hne, State.owned, odv_mailboxAnswer hport, if_neg (by decide)]
    exact ⟨odv_enrolled_key hkey _, owned_enrolled (s := s.setSegment p none) ho hkey _⟩

end Sys2Proof.Proofs
end

