-- ==== Sys2Proof/Proofs/FaultsAndRepairs.lean ====
section
/-! What faults keep of the sticky log, and what the Depot's repairs leave alone of memory and power (16). -/

namespace Sys2Proof.Proofs

open Sys2Proof Sys2Proof.Machine Sys2Proof.Laws

/-! ### A bit of the sticky log, once set, stays through faults -/

/-- Bit `n` of the sticky log is set. -/
def Logged (n : Nat) (s : State) : Prop := bitOf (s.odv Od.STICKY_LOG) n = true

section
variable {n : Nat} {s : State} (h : Logged n s)
include h

theorem Logged.of_odv {t : State} (ht : t.odv Od.STICKY_LOG = s.odv Od.STICKY_LOG) : Logged n t := by rwa [Logged, ht]

theorem Logged.of_od {t : State} (ht : t.od = s.od) : Logged n t := h.of_odv (odv_of_od _ _ _ ht)

theorem Logged.setOd {k : Nat} (hk : Od.STICKY_LOG ≠ k) (v : Nat) : Logged n (s.setOd k v) := h.of_odv (odv_setOd_other _ _ _ _ hk)

theorem Logged.raise (p v : Nat) : Logged n (s.raise p v) := h.of_od (raise_od s p v)

theorem Logged.raiseErr (p : Nat) : Logged n (s.raiseErr p) := h.raise _ _

theorem Logged.count (k m : Nat) : Logged n (s.count k m) := h

theorem Logged.clearVtime : Logged n s.clearVtime := h

/-- Setting another bit clears none: the log without the new bit is the log before. -/
theorem Logged.sticky (m : Nat) : Logged n (s.sticky m) := by
  by_cases hset : bitOf (s.odv Od.STICKY_LOG) m = true
  · rwa [State.sticky, if_pos hset]
  · have hnew : (s.odv Od.STICKY_LOG + 2 ^ m).testBit m = true := by
      rw [Nat.add_comm, Nat.testBit_two_pow_add_eq]
      simpa [bitOf] using hset
    have hbefore := bitOf_sub_land (s.odv Od.STICKY_LOG + 2 ^ m) (2 ^ m) n
    rw [Nat.and_two_pow, hnew, Bool.toNat_true, one_mul, Nat.add_sub_cancel] at hbefore
    rw [State.sticky, if_neg hset, Logged, odv_raise, odv_raise, odv_setOd_self]
    exact (Bool.and_eq_true_iff.mp (hbefore.symm.trans h)).1

theorem Logged.capture (e : Event) : Logged n (s.capture e) := by
  unfold State.capture
  split
  · exact h
  · exact ((((((((((h.setOd (by decide) _).setOd (by decide) _).setOd (by decide) _).setOd (by decide) _).setOd
      (by decide) _).setOd (by decide) _).setOd (by decide) _).setOd (by decide) _).setOd (by decide) _).setOd (by decide) _)

theorem Logged.faultPlatform (p cause tcore slot cmd : Nat) : Logged n (s.faultPlatform p cause tcore slot cmd) := by
  unfold State.faultPlatform
  dsimp only
  split
  · exact h
  · have hstopped : ∀ x, Logged n ((((s.markStreams p 4).zeroCounters p).abandon p).setPlat p x) := fun x =>
      h.of_od (stopWork_od s p 4)
    refine Logged.raiseErr (Logged.sticky (Logged.count (Logged.count (Logged.clearVtime ?_) _ _) _ _) 12) p
    split
    · exact (hstopped _).setOd (by decide) _
    · exact hstopped _

theorem Logged.faultJob (e : Event) : Logged n (s.faultJob e) := by
  obtain hj | ⟨origin, hj⟩ := faultJob_cases s e
  · rwa [hj]
  · rw [hj]
    refine Logged.of_od ?_ (sendJobFault_od _ _ _)
    unfold State.faultJobAs
    dsimp only
    split
    · exact h
    · have hstopped := (h.capture e).of_od (stopWork_od (s.capture e) 0 4)
      rw [if_pos rfl]
      refine Logged.raiseErr (Logged.sticky (Logged.count ?_ _ _) 12) 0
      exact hstopped.of_od rfl

theorem Logged.faultAll (e : Event) : Logged n (s.faultAll e) := by
  unfold State.faultAll
  dsimp only
  split
  · split
    · exact h
    · exact List.foldlRecOn _ _ (h.capture e) fun _ ht x _ => ht.faultPlatform x.1 _ _ _ _
  · exact h.faultJob _

/-- The sticky log outlives the main rails: it is persistent. -/
theorem Logged.mainDown : Logged n s.mainDown := by
  refine h.of_odv ((odv_of_od_filter (t := s.mainDown)
    (p := fun k => keepOf k != .volatile || Machine.latched k || islandKeys.contains k) rfl Od.STICKY_LOG).trans (if_pos ?_))
  decide +kernel

end

/-! ### What repairs leave alone -/

/-- Device memory and the state of the supplies. -/
def memAndPower (s : State) : List Host.Cell × Power := (s.mem, s.power)

theorem memAndPower_setOd (s : State) (k v : Nat) : memAndPower (s.setOd k v) = memAndPower s := rfl
theorem memAndPower_setCore (s : State) (c : Nat) (x : CoreState) : memAndPower (s.setCore c x) = memAndPower s := rfl
theorem memAndPower_depot (s : State) (d : Depot) : memAndPower { s with depot := d } = memAndPower s := rfl
theorem memAndPower_mapCores (s : State) (f : CoreState → CoreState) : memAndPower (s.mapCores f) = memAndPower s := rfl
theorem memAndPower_freshCore (s : State) (c : Nat) : memAndPower (s.freshCore c) = memAndPower s := rfl

@[simp] theorem memAndPower_raise (s : State) (p v : Nat) : memAndPower (s.raise p v) = memAndPower s := by
  obtain h | ⟨_, h⟩ | h := raise_cases s p v <;> rw [h] <;> rfl

@[simp] theorem memAndPower_sticky (s : State) (n : Nat) : memAndPower (s.sticky n) = memAndPower s := by
  obtain h | h := sticky_cases s n
  · rw [h]
  · rw [h, memAndPower_raise, memAndPower_raise]
    rfl

@[simp] theorem memAndPower_record (s : State) (r : Repair) : memAndPower (s.record r) = memAndPower s := by
  unfold State.record
  dsimp only
  split
  · rfl
  · cases r <;> rfl

@[simp] theorem memAndPower_recordHbm (s : State) (st ch row : Nat) : memAndPower (s.recordHbm st ch row) = memAndPower s := by
  unfold State.recordHbm
  exact ite_keeps memAndPower ((memAndPower_record _ _).trans (memAndPower_record _ _)) (memAndPower_record _ _)

theorem memAndPower_recordCorrected (s : State) : memAndPower s.recordCorrected = memAndPower s := by
  refine foldl_keeps memAndPower (fun s e => ?_) _ s
  split
  · exact ite_keeps memAndPower (memAndPower_recordHbm _ _ _ _) rfl
  · exact ite_keeps memAndPower (memAndPower_record _ _) rfl
  · rfl

theorem memAndPower_substituteCore {s t : State} {c : Nat} (h : s.substituteCore c = some t) : memAndPower t = memAndPower s := by
  unfold State.substituteCore at h
  dsimp only at h
  split at h
  · cases h
    rfl
  · cases h

theorem memAndPower_setDark (s : State) (l : List (Nat × Bool)) : memAndPower (s.setDark l) = memAndPower s := by
  unfold State.setDark
  exact foldl_keeps memAndPower (fun s e => memAndPower_setOd s _ _) _ s

theorem memAndPower_substituteDie {s t : State} {d : Nat} (h : s.substituteDie d = some t) : memAndPower t = memAndPower s := by
  unfold State.substituteDie at h
  split at h
  · cases h
  · rw [← Option.some.inj h, memAndPower_depot, foldl_keeps memAndPower (fun s c => memAndPower_freshCore s _)]
    rw [memAndPower_setOd, memAndPower_setOd]
    exact ite_keeps memAndPower (v := memAndPower s) (memAndPower_setDark _ _) (memAndPower_setDark _ _)

theorem memAndPower_exhausted (s : State) (r : Repair) (cores dies : List Nat) :
    memAndPower (s.exhausted r cores dies) = memAndPower s := by
  unfold State.exhausted
  rw [memAndPower_depot, foldl_keeps memAndPower (fun s c => memAndPower_setCore s _ _), memAndPower_setOd, memAndPower_sticky,
    memAndPower_setOd]

theorem memAndPower_needDie (s : State) (d : Nat) : memAndPower (s.needDie d) = memAndPower s := by
  unfold State.needDie
  split
  · next h => exact memAndPower_substituteDie h
  · exact memAndPower_exhausted _ _ _ _

theorem memAndPower_needCore (s : State) (c : Nat) : memAndPower (s.needCore c) = memAndPower s := by
  unfold State.needCore
  split
  · next h => exact memAndPower_substituteCore h
  · split
    · next h => exact memAndPower_substituteDie h
    · exact memAndPower_exhausted _ _ _ _

theorem memAndPower_setSpares (s : State) (c a rows cols : Nat) : memAndPower (s.setSpares c a rows cols) = memAndPower s := by
  refine ite_keeps memAndPower ?_ ?_ <;> exact ite_keeps memAndPower rfl rfl

theorem memAndPower_hbmExhausted (s : State) : memAndPower s.hbmExhausted = memAndPower s := memAndPower_sticky _ 16

theorem memAndPower_applyRepair (s : State) (r : Repair) : memAndPower (s.applyRepair r) = memAndPower s := by
  cases r with
  | hbmRow | hbmChannel => exact ite_keeps memAndPower rfl (memAndPower_hbmExhausted s)
  | sramRow => exact ite_keeps memAndPower rfl (ite_keeps memAndPower (memAndPower_needCore _ _) (memAndPower_needDie _ _))
  | arrayRow | arrayCol => exact memAndPower_setSpares _ _ _ _ _
  | coreSlot c => exact memAndPower_needCore s c
  | matrixDie d => exact memAndPower_needDie s d
  | router => rfl

theorem memAndPower_applyWear (s : State) : memAndPower s.applyWear = memAndPower s := by
  refine ite_keeps memAndPower rfl (foldl_keeps memAndPower (fun s e => ite_keeps memAndPower rfl ?_) _ s)
  split
  · next h =>
    split at h
    · exact memAndPower_substituteCore h
    · exact memAndPower_substituteDie h
  · rfl

/-- Everything recorded is applied, and worn units are substituted. -/
abbrev repaired (s : State) : State :=
  let t := s.recordCorrected
  let u := t.mapCores fun c => { c with quarantined := false }
  let u := { u with depot := { u.depot with pending := [], quarantinedDies := [] } }
  let u := ((u.setOd Od.DEPOT_PENDING 0).setOd Od.HBM_RETIRE_PENDING 0).setOd Od.ARRAYS_REPAIR_EXHAUSTED 0
  ((List.range 7).foldl (fun (s : State) k =>
    (t.depot.pending.filter fun r => r.order = k).foldl (fun (s : State) r => s.applyRepair r) s) u).applyWear

theorem memAndPower_repaired (s : State) : memAndPower (repaired s) = memAndPower s := by
  rw [memAndPower_applyWear, foldl_keeps memAndPower fun s k => foldl_keeps memAndPower memAndPower_applyRepair _ s,
    memAndPower_setOd, memAndPower_setOd, memAndPower_setOd, memAndPower_depot, memAndPower_mapCores,
    memAndPower_recordCorrected]

/-- The Depot leaves the supplies alone. -/
theorem depotActs_power (s : State) : s.depotActs.power = s.power := congrArg Prod.snd (memAndPower_repaired s)

/-- The Depot takes bytes out of memory at most. -/
theorem depotActs_mem_of_nil {s : State} (h : s.mem = []) : s.depotActs.mem = [] := by
  have hmem : (repaired s).mem = [] := (congrArg Prod.fst (memAndPower_repaired s)).trans h
  unfold State.depotActs
  dsimp only
  split
  · exact (congrArg (List.filter _) hmem).trans rfl
  · exact hmem

end Sys2Proof.Proofs
end

