-- ==== Sys2Proof/Proofs/PowerMonitors.lean ====
section
/-! The power states that a request names, starts that fail, and the monitors of supplies, temperature and power (18). -/

namespace Sys2Proof.Proofs

open Sys2Proof Sys2Proof.Machine Sys2Proof.Laws

/-! ### The power state (R597, R598, R649) -/

theorem powerState_of_down {s : State} (h : s.power.mainEn = false) : s.powerState = 3 := if_pos (by simp [h])

/-- What `POWER_STATE` shows of the main rails and of Doze. -/
theorem powerState_cases (s : State) :
    (s.power.mainEn = false ∧ s.powerState = 3) ∨ (s.power.mainEn = true ∧ s.power.doze = true ∧ s.powerState = 2) ∨
      (s.power.mainEn = true ∧ s.power.doze = false ∧ (s.powerState = 0 ∨ s.powerState = 1)) := by
  unfold State.powerState
  cases s.power.mainEn <;> cases s.power.doze <;> cases s.allIdle <;> simp

section
variable {s : State} (hsettled : s.inTransition = false)
include hsettled

theorem powerRequest_run (h : s.powerState = 0 ∨ s.powerState = 1) : s.powerRequest 0 = (stOk, s) := by
  obtain ⟨-, hst⟩ | ⟨-, -, hst⟩ | ⟨hon, hdoze, -⟩ := powerState_cases s
  · omega
  · omega
  · simp [State.powerRequest, hon, hdoze, hsettled]

theorem powerRequest_doze (h : s.powerState = 2) : s.powerRequest 2 = (stOk, s) := by
  obtain ⟨-, hst⟩ | ⟨hon, hdoze, -⟩ | ⟨-, -, hst⟩ := powerState_cases s
  · omega
  · simp [State.powerRequest, hon, hdoze, hsettled]
  · omega

end

theorem powerRequest_standby {s : State} (h : s.powerState = 3) : s.powerRequest 3 = (stOk, s) := by
  obtain ⟨hoff, -⟩ | ⟨-, -, hst⟩ | ⟨-, -, hst⟩ := powerState_cases s
  · simp [State.powerRequest, hoff]
  · omega
  · omega

/-- A command that carries out a request which changes nothing changes nothing. -/
theorem next_of_request {s : State} {w : Wrote} (h : w = (stOk, s)) :
    (within true "" (if s.fwRuns then w.2 else s) : Out) = .next s := by
  rw [h]
  exact congrArg _ (ite_self s)

/-- Settles O52: the present state is what `powerState_cases` says, and the request finds it. -/
theorem namingThePresentPowerStateHasNoEffect : Obligations.NamingThePresentPowerStateHasNoEffect := by
  unfold Obligations.NamingThePresentPowerStateHasNoEffect
  refine ⟨fun s hs h => ?run, fun s hs h => ?doze, fun s _ h => ?standby⟩
  case run => exact ⟨powerRequest_run hs h, next_of_request (powerRequest_run hs h)⟩
  case doze => exact ⟨powerRequest_doze hs h, next_of_request (powerRequest_doze hs h)⟩
  case standby => exact ⟨powerRequest_standby h, next_of_request (powerRequest_standby h)⟩

/-! ### Starts that fail (R602) -/

theorem sticky_power (s : State) (n : Nat) : (s.sticky n).power = s.power := congrArg Prod.snd (memAndPower_sticky s n)

/-- A failed start leaves the package in Standby with `MAIN_RAIL_FAIL`. -/
theorem startFails_standby (s : State) :
    s.startFails.power.mainEn = false ∧ bitOf (s.startFails.odv Od.STICKY_LOG) 42 = true ∧ s.startFails.powerState = 3 := by
  have hoff : s.startFails.power.mainEn = false := congrArg Power.mainEn (sticky_power _ _)
  exact ⟨hoff, bitOf_sticky_self _ _, powerState_of_down hoff⟩

/-- Settles O51: both causes are a failed start. -/
theorem failedStartStaysInStandby : Obligations.FailedStartStaysInStandby := by
  unfold Obligations.FailedStartStaysInStandby
  refine ⟨fun ms s hon hwait hlate => ⟨_, ?timeout, startFails_standby s⟩,
    fun vin vddq vio s hon hwait hlow => ⟨_, ?low, startFails_standby s⟩⟩
  case timeout => exact within_next_of_eq (o := "") rfl (if_pos (by simp [hon, hwait, hlate]))
  case low =>
    refine within_next_of_eq (o := "") rfl ((if_neg (by simp [hon, hwait])).trans (if_pos ?_))
    simpa [or_assoc] using hlow

/-! ### Supplies (R592 to R596, R609) -/

/-- A supply below its warning level has been logged and counted. -/
abbrev supplyWarned (s : State) (x : Supply) : State := (s.sticky (warnBit x)).count Od.SUPPLY_WARNINGS 1

/-- A supply is held low. -/
abbrev heldLow (s : State) (x : Supply) : State := { s with power := { s.power with low := s.power.low ++ [x] } }

section
variable {x : Supply} {mv : Nat} {s : State} (hx : supplyOk x = true) (hwatched : s.watched x = true)
include hx hwatched

theorem exec_supplyWarning_below (hlow : mv < (s.levels x).1) : exec (.supplyWarning x mv) s = .next
    (if (supplyWarned s x).power.low.contains x then supplyWarned s x
      else heldLow (if placesUmber x then (supplyWarned s x).count Od.UMBER_SUPPLY_ENTRIES 1 else supplyWarned s x) x) :=
  within_next_of_eq hx (if_neg (by simp [hwatched, hlow]))

end

theorem exec_supplyRecovery_above {x : Supply} {mv us : Nat} {s : State} (hx : supplyOk x = true)
    (hhigh : (s.levels x).1 + (s.levels x).2.2 < mv) (hlong : s.odv Od.UMBER_RECOVERY_US ≤ us) :
    exec (.supplyRecovery x mv us) s = .next { s with power := { s.power with low := s.power.low.filter (· != x) } } :=
  within_next_of_eq hx (if_pos (by simp [hhigh, hlong]))

section
variable {mv : Nat} {s : State} (dies : DieReport)

theorem exec_railBelowReset_mainRail {n : Nat} (hn : n < 4) (hne : n ≠ 1) (hwatched : s.watched (.rail n) = true)
    (hlow : mv < (s.levels (.rail n)).2.1) :
    exec (.railBelowReset (.rail n) mv dies) s = .next ((s.withReport dies).sticky 37).coldReset :=
  within_next_of_eq (decide_eq_true hn) ((if_neg (by simp [hwatched, hlow])).trans (if_neg hne))

theorem exec_railBelowReset_regulator {i : Nat} (hi : islandOk i = true) (hwatched : s.watched (.regulator i) = true)
    (hlow : mv < (s.levels (.regulator i)).2.1) : exec (.railBelowReset (.regulator i) mv dies) s =
      .next ((((s.withReport dies).sticky 37).sticky 38).recordRegulator i).coldReset :=
  within_next_of_eq hi (if_neg (by simp [hwatched, hlow]))

/-- Unpowered once VAUX has fallen: a cold reset in which nothing is powered. -/
abbrev vauxLost (s : State) : State := { s.coldState with power := { s.coldState.power with vaux := false, low := [] } }

theorem exec_railBelowReset_vaux (hvaux : s.power.vaux = true) (hlow : mv < 2900) :
    exec (.railBelowReset (.rail 1) mv dies) s = .next (vauxLost ((s.withReport dies).sticky 37)) := by
  have hwatched : s.watched (.rail 1) = true := hvaux
  have hlevel : ¬ (s.levels (.rail 1)).2.1 ≤ mv := not_le.mpr hlow
  exact within_next_of_eq (o := "supply") rfl ((if_neg (by simp [hwatched, hlevel])).trans (if_pos rfl))

end

/-- A cold reset empties memory and turns the main rails off, and VAUX stays what it is. -/
theorem coldState_unpowered (s : State) : s.coldState.power.mainEn = false ∧ s.coldState.mem = [] :=
  ⟨congrArg Power.mainEn (depotActs_power _), depotActs_mem_of_nil rfl⟩

/-! ### Temperature (R592, R593, R599, R632) -/

/-- A sensor's report at or above 100 degrees, before its consequences. -/
abbrev hotReport (s : State) (i : Nat) (c : Int) : State :=
  (s.setIsland i { s.island i with celsius := some c, umberThermal := true }).sticky 39

/-- The island is warned of; a core island enters Umber, counted once. -/
abbrev heatWarned (s : State) (i : Nat) (c : Int) : State :=
  if islCode i = 0 && !(s.island i).umberThermal then (hotReport s i c).count Od.UMBER_THERMAL_ENTRIES 1 else hotReport s i c

/-- Everything running has faulted, and the trip is logged. -/
abbrev tripFaulted (s : State) (i : Nat) : State :=
  ((s.sticky 40).capture { cause := 0x0602, island := i }).faultAll { cause := 0x0602, island := i }

/-- The package has tripped: its main rails are off. -/
abbrev tripped (u : State) : State :=
  { (if u.power.mainEn then u.mainDown else u) with
    power := { (if u.power.mainEn then u.mainDown else u).power with trip := true } }

section
variable {i : Nat} {c : Int} {s : State} (hi : islandOk i = true) (hon : s.islandPowered i = true)
include hi hon

theorem exec_thermalSample_cool (hc : c < 100) :
    exec (.thermalSample i c) s = .next (s.setIsland i { s.island i with celsius := some c }) := by
  have hcool : decide (100 ≤ c) = false := by simpa using hc
  refine within_next_of_eq hi ((if_neg (by simp [hon])).trans ((if_pos hc).trans ?_))
  rw [hcool, Bool.or_false]

theorem exec_thermalSample_hot (hc : 100 ≤ c) : exec (.thermalSample i c) s = .next
    (if c < 115 then heatWarned s i c else tripped (tripFaulted (heatWarned s i c) i)) := by
  have hhot : decide (100 ≤ c) = true := decide_eq_true hc
  have hset : s.setIsland i { s.island i with celsius := some c, umberThermal := (s.island i).umberThermal || decide (100 ≤ c) } =
      s.setIsland i { s.island i with celsius := some c, umberThermal := true } := by rw [hhot, Bool.or_true]
  refine within_next_of_eq hi ((if_neg (by simp [hon])).trans ((if_neg (not_lt.mpr hc)).trans ?_))
  rw [hset]
  rfl

end

/-- The islands of a state. -/
theorem raise_islands (s : State) (p v : Nat) : (s.raise p v).islands = s.islands := by
  obtain h | ⟨_, h⟩ | h := raise_cases s p v <;> rw [h] <;> rfl

theorem sticky_islands (s : State) (n : Nat) : (s.sticky n).islands = s.islands := by
  obtain h | h := sticky_cases s n
  · rw [h]
  · rw [h, raise_islands, raise_islands]
    rfl

theorem island_hotReport (s : State) (i : Nat) (c : Int) :
    (hotReport s i c).island i = { s.island i with celsius := some c, umberThermal := true } :=
  (congrArg (fun t => tabGet Island.empty t i) (sticky_islands _ 39)).trans (island_setIsland_self _ _ _)

theorem heatWarned_of_hotReport {P : State → Prop} {s : State} {i : Nat} {c : Int} (h : P (hotReport s i c))
    (hcount : P ((hotReport s i c).count Od.UMBER_THERMAL_ENTRIES 1)) : P (heatWarned s i c) := by
  unfold heatWarned
  split <;> assumption

theorem counted_hotReport (s : State) (i : Nat) (c : Int) {k : Nat} (h : k ≠ Od.MSIX_SENT) :
    (hotReport s i c).counted k = s.counted k := (counted_sticky _ _ h).trans rfl

theorem counted_heatWarned (s : State) (i : Nat) (c : Int) : (heatWarned s i c).counted Od.UMBER_THERMAL_ENTRIES =
    s.counted Od.UMBER_THERMAL_ENTRIES + (if islCode i = 0 && !(s.island i).umberThermal then 1 else 0) := by
  unfold heatWarned
  split
  · rw [counted_count_self, counted_hotReport _ _ _ (by decide)]
  · rw [counted_hotReport _ _ _ (by decide), Nat.add_zero]

theorem tripped_mainEn (u : State) : (tripped u).power.mainEn = false := by
  by_cases h : u.power.mainEn = true
  · simp only [if_pos h]
    rfl
  · simp only [if_neg h]
    exact eq_false_of_ne_true h

/-- A package that has tripped refuses Run. -/
theorem powerRequest_run_tripped {s : State} (hoff : s.power.mainEn = false) (htrip : s.power.trip = true) :
    (s.powerRequest 0).1 = stUnavailable := by
  simp [State.powerRequest, hoff, htrip, State.refused]

theorem logged_tripped (s : State) (i : Nat) : Logged 40 (tripped (tripFaulted s i)) := by
  have hlogged : Logged 40 (tripFaulted s i) := Logged.faultAll (Logged.capture (bitOf_sticky_self s 40) _) _
  refine Logged.of_od (s := if (tripFaulted s i).power.mainEn then (tripFaulted s i).mainDown else tripFaulted s i) ?_ rfl
  split
  · exact hlogged.mainDown
  · exact hlogged

/-! ### The power monitor (R591) -/

/-- The powers that a sample leaves. -/
abbrev sampled (s : State) (avg share fast : Nat) : State :=
  { s with power := { s.power with throttle := share, fast := fast, samples := (s.power.samples + 1) % 100 } }.setOd
    Od.PACKAGE_POWER_W avg

/-- The share that the sustained limit throttles after a sample. -/
abbrev nextShare (s : State) (avg : Nat) : Nat :=
  if s.power.samples + 1 = 100 then throttleStep s.power.throttle avg s.powerLimit else s.power.throttle

section
variable {avg w : Nat} {s : State} (hon : s.power.mainEn = true) (hgood : s.power.vinGood = true)
include hon hgood

theorem exec_powerSample_fast (hw : 5 * s.powerLimit < 4 * w) : exec (.powerSample avg w) s = .next
    (((sampled s avg (nextShare s avg) 10).sticky 41).count Od.POWER_THROTTLE_US 1) := by
  refine within_next_of_eq (o := "") rfl ((if_neg (by simp [hon, hgood])).trans ?_)
  simp only [hw, decide_true, if_true]
  exact if_pos (by simp)

theorem exec_powerSample_calm (hw : 4 * w ≤ 5 * s.powerLimit) (hshare : s.power.throttle = 0) (havg : avg ≤ s.powerLimit)
    (hfast : s.power.fast ≤ 1) : exec (.powerSample avg w) s = .next (sampled s avg 0 0) := by
  have hnext : nextShare s avg = 0 := by
    have hstep : throttleStep 0 avg s.powerLimit = 0 := by simp [throttleStep, havg]
    rw [nextShare, hshare, hstep, ite_self]
  have hcool : decide (5 * s.powerLimit < 4 * w) = false := by simpa using hw
  have hend : s.power.fast - 1 = 0 := by omega
  refine within_next_of_eq (o := "") rfl ((if_neg (by simp [hon, hgood])).trans ?_)
  simp only [hcool, Bool.false_eq_true, if_false, hnext, hend]
  rfl

end

/-- Settles O49, from the outcome of each monitor's report. -/
theorem suppliesTemperatureAndPowerAreWatched : Obligations.SuppliesTemperatureAndPowerAreWatched := by
  unfold Obligations.SuppliesTemperatureAndPowerAreWatched
  refine ⟨?umber, ?low, ?again, fun x mv us s hx hhigh hlong => exec_supplyRecovery_above hx hhigh hlong, ?rail, ?regulator,
    ?vaux, fun i t s hi hon hc => exec_thermalSample_cool hi hon hc, ?warned, ?trip, ?exit, ?holdoff, ?fast, ?calm⟩
  case umber =>
    rintro x mv s _ hx hwatched hlow rfl hnew humber
    rw [exec_supplyWarning_below hx hwatched hlow, if_neg (ne_true_of_eq_false hnew), if_pos humber]
    rfl
  case low =>
    rintro x mv s _ hx hwatched hlow rfl hnew humber
    rw [exec_supplyWarning_below hx hwatched hlow, if_neg (ne_true_of_eq_false hnew), if_neg (ne_true_of_eq_false humber)]
  case again =>
    rintro x mv s _ hx hwatched hlow rfl hheld
    rw [exec_supplyWarning_below hx hwatched hlow, if_pos hheld]
  case rail =>
    intro n mv dies s hn hvaux hwatched hlow
    exact exec_railBelowReset_mainRail dies hn hvaux hwatched hlow
  case regulator =>
    exact fun i mv dies s hi hwatched hlow => exec_railBelowReset_regulator dies hi hwatched hlow
  case vaux =>
    intro mv dies s hvaux hlow
    obtain ⟨hoff, hmem⟩ := coldState_unpowered ((s.withReport dies).sticky 37)
    exact ⟨_, exec_railBelowReset_vaux dies hvaux hlow, rfl, hoff, hmem⟩
  case warned =>
    intro i c s hi hon hhot hbelow
    have hpower : (hotReport s i c).power = s.power := (sticky_power _ 39).trans rfl
    have hmem : (hotReport s i c).mem = s.mem := (sticky_mem _ 39).trans rfl
    have hlogged : Logged 39 (hotReport s i c) := bitOf_sticky_self _ 39
    refine ⟨heatWarned s i c, (exec_thermalSample_hot hi hon hhot).trans (congrArg _ (if_pos hbelow)), ?_, ?_,
      counted_heatWarned s i c, ?_, ?_⟩
    · exact heatWarned_of_hotReport (P := fun t => t.island i = _) (island_hotReport s i c) (island_hotReport s i c)
    · exact heatWarned_of_hotReport (P := Logged 39) hlogged (hlogged.count _ _)
    · exact heatWarned_of_hotReport (P := fun t => t.power = s.power) hpower hpower
    · exact heatWarned_of_hotReport (P := fun t => t.mem = s.mem) hmem hmem
  case trip =>
    rintro i c s _ hi hon hhot rfl
    refine ⟨_, (exec_thermalSample_hot hi hon (le_trans (by decide) hhot)).trans (congrArg _ (if_neg (not_lt.mpr hhot))), rfl,
      tripped_mainEn _, powerState_of_down (tripped_mainEn _), rfl, powerRequest_run_tripped (tripped_mainEn _) rfl, logged_tripped _ i⟩
  case exit =>
    exact fun i us c s hi hcool hlong => within_next_of_eq hi (if_pos (by simp [hcool, hlong]))
  case holdoff => exact fun sec s hlong => within_next_of_eq (o := "") rfl (if_pos hlong)
  case fast =>
    intro avg w s hon hgood hw
    refine ⟨_, exec_powerSample_fast hon hgood hw, ?_, bitOf_sticky_self _ 41, ?_, ?_, ?_⟩
    · exact congrArg Power.fast (sticky_power _ 41)
    · exact (odv_sticky_other _ _ (by decide)).trans (odv_setOd_self _ _ _)
    · rw [counted_count_self, counted_sticky _ _ (by decide)]
      rfl
    · exact sticky_mem _ 41
  case calm =>
    intro avg w s hon hgood hw hshare havg hfast
    rw [exec_powerSample_calm hon hgood hw hshare havg hfast, sampled, ← hshare]

end Sys2Proof.Proofs
end

