-- ==== Sys2Proof/Proofs/RegistersAndResets.lean ====
section
/-! Register writes of the host and the queue blocks (14), and the resets of functions and Platforms (13, 14). -/

namespace Sys2Proof.Proofs

open Sys2Proof Sys2Proof.Machine Sys2Proof.Laws

/-! ### Queue blocks (R488) -/

section
variable {q o size v : Nat} {s : State}

/-- While `Q_ENABLE` is 1 a write leaves the bases and the sizes of the block as they are. -/
theorem writeQueue_enabled (h : (s.queue q).enable = true) :
    ∃ e, (s.writeQueue q o size v).queue q = { s.queue q with enable := e } := by
  have same : ∃ e, s.queue q = { s.queue q with enable := e } := ⟨(s.queue q).enable, rfl⟩
  unfold State.writeQueue
  simp only [h, if_true]
  split
  · exact same
  · exact same
  · exact ⟨_, queue_setQueue_self _ _ _⟩
  · exact same

theorem writeQueue_descBase (h : (s.queue q).enable = false) (ho : o / 8 = 0) :
    s.writeQueue q o size v = s.setQueue q { s.queue q with descBase := mergeWord (s.queue q).descBase o size v } := by
  simp [State.writeQueue, ho, h]

theorem writeQueue_cplBase (h : (s.queue q).enable = false) (ho : o / 8 = 1) :
    s.writeQueue q o size v = s.setQueue q { s.queue q with cplBase := mergeWord (s.queue q).cplBase o size v } := by
  simp [State.writeQueue, ho, h]

theorem writeQueue_sizes {w : Nat} (h : (s.queue q).enable = false) (ho : o / 8 = 2)
    (hw : w = mergeWord (fields [(0, 5, (s.queue q).slotsLog2), (8, 5, (s.queue q).cplLog2), (16, 1, 0)]) o size v) :
    s.writeQueue q o size v = s.setQueue q { s.queue q with
      slotsLog2 := bitsOf w 0 5
      cplLog2 := bitsOf w 8 5
      enable := bitOf w 16 && (ringOk (s.queue q).descBase (bitsOf w 0 5) && ringOk (s.queue q).cplBase (bitsOf w 8 5)) } := by
  subst hw
  simp [State.writeQueue, ho, h]

end

/-- Settles O37: the block that a write leaves, for each of its words. -/
theorem queueRegistersTakeEffectWhileDisabled : Obligations.QueueRegistersTakeEffectWhileDisabled := by
  unfold Obligations.QueueRegistersTakeEffectWhileDisabled
  refine ⟨?enabled, ?descriptors, ?completions, ?sizes⟩
  case enabled =>
    intro q o size v s h
    obtain ⟨e, he⟩ := writeQueue_enabled (o := o) (size := size) (v := v) h
    rw [he]
    exact ⟨rfl, rfl, rfl, rfl⟩
  case descriptors =>
    intro q o size v s h ho
    rw [writeQueue_descBase h ho, queue_setQueue_self]
  case completions =>
    intro q o size v s h ho
    rw [writeQueue_cplBase h ho, queue_setQueue_self]
  case sizes =>
    intro q o size v w s h ho hw
    rw [writeQueue_sizes h ho hw, queue_setQueue_self]
    exact ⟨rfl, rfl, (Bool.and_assoc _ _ _).symm⟩

/-! ### Resets of a Platform (R471, R472, R608) -/

/-- What a reset of a Platform leaves as it is. -/
abbrev memoriesAndStats (s : State) : List Host.Cell × List Host.Cell × Tab Nat := (s.mem, s.hostMem, s.stats)

theorem quiesce_memoriesAndStats (s : State) (p : Nat) : memoriesAndStats (s.quiesce p) = memoriesAndStats s := by
  unfold State.quiesce
  extract_lets dropped x qs idle emptied kept unqueued exchange job ended disarmed unserved
  have hidle : memoriesAndStats idle = memoriesAndStats s :=
    zeroCounters_keeps memoriesAndStats (fun _ _ => rfl) dropped p
  have hdisarmed : memoriesAndStats disarmed = memoriesAndStats s := ite_keeps memoriesAndStats hidle hidle
  exact ite_keeps memoriesAndStats hdisarmed hdisarmed

/-- The configuration outlives a disarm. -/
theorem cfg_quiesce (s : State) (p : Nat) : ((s.quiesce p).plat p).cfg = (s.plat p).cfg := by
  have hclear (t : State) : t.clearVtime.plat p = t.plat p := rfl
  unfold State.quiesce
  extract_lets dropped x qs idle emptied kept unqueued exchange job ended disarmed unserved
  have hdisarmed : (disarmed.plat p).cfg = (s.plat p).cfg :=
    (congrArg Platform.cfg (plat_setPlat_self ended p _)).trans rfl
  rw [hclear]
  exact ite_keeps (fun t => (t.plat p).cfg) hdisarmed hdisarmed

theorem plat_clearQueues (s : State) (p : Nat) : (s.clearQueues p).plat p = { s.plat p with epoch := 0 } :=
  plat_setPlat_self _ p _

theorem resetCtx_disarmed {s : State} {p : Nat} (h : (s.plat p).st = 0) : s.resetCtx p = s := if_pos h

theorem resetCtx_armed {s : State} {p : Nat} (h : (s.plat p).st ≠ 0) :
    s.resetCtx p = ((s.quiesce p).clearQueues p).count Od.PLATFORM_RESETS 1 := if_neg h

theorem plat_resetDone (s : State) (p k n : Nat) : (((s.quiesce p).clearQueues p).count k n).plat p =
    { (s.quiesce p).plat p with epoch := 0 } :=
  plat_clearQueues (s.quiesce p) p

/-- Settles O42: the resets of a Platform are `resetCtx`, and those of functions reset the Platforms of the functions. -/
theorem functionResetsEndTheirPlatforms : Obligations.FunctionResetsEndTheirPlatforms := by
  unfold Obligations.FunctionResetsEndTheirPlatforms
  refine ⟨?armed, ?disarmed, ?physical, ?virtual, ?lowered⟩
  case armed =>
    intro p s hp hst
    have hreset := resetCtx_armed hst
    have hkept := quiesce_memoriesAndStats s p
    simp only [Prod.mk.injEq] at hkept
    obtain ⟨hmem, hhost, hstats⟩ := hkept
    refine ⟨_, within_next_of_eq (decide_eq_true hp) hreset, within_next_of_eq (decide_eq_true hp) hreset, rfl,
      ?_, ?_, ?_, hmem, hhost, ?_⟩
    · rw [plat_resetDone]
      exact st_quiesce s p
    · rw [plat_resetDone]
      exact cfg_quiesce s p
    · rw [plat_resetDone]
    · rw [counted_count_self, counted_of_stats (show ((s.quiesce p).clearQueues p).stats = s.stats from hstats)]
  case disarmed =>
    intro p s hp hst
    exact ⟨within_next_of_eq (decide_eq_true hp) (resetCtx_disarmed hst),
      within_next_of_eq (decide_eq_true hp) (resetCtx_disarmed hst)⟩
  case physical =>
    rintro port s _ hport hon rfl
    exact within_next_of_eq (decide_eq_true hport) (if_neg (by simp [hon]))
  case virtual =>
    rintro port vf s _ hport hvf hvf' hon rfl
    exact within_next_of_eq (by simp [portOk, hport, hvf, hvf']) (if_neg (by simp [hon]))
  case lowered =>
    rintro port n s _ hport hn rfl
    exact within_next_of_eq (function_inRange hport hn) rfl

/-! ### Register writes (R481, R483) -/

/-- An access of 4 or 8 aligned bytes passes the check of the form. -/
theorem wellSized {size offset : Nat} (hsize : size = 4 ∨ size = 8) (hal : offset % size = 0) :
    ¬(!((decide (size = 4) || decide (size = 8)) && decide (offset % size = 0))) = true := by
  have h : (decide (size = 4) || decide (size = 8)) = true := by simpa using hsize
  simp [h, hal]

section
variable {port vf bar offset size value : Nat} {s t : State} (hport : port < 2) (hvf : vf < 64)
include hport hvf

theorem registerWrite_malformed (h : (size ≠ 4 ∧ size ≠ 8) ∨ offset % size ≠ 0) :
    exec (.registerWrite port vf bar offset size value) s = .next s := by
  refine within_next_of_eq (function_inRange hport hvf) (if_pos ?_)
  rcases h with ⟨h4, h8⟩ | hal
  · simp [h4, h8]
  · simp [hal]

/-- A write of 4 or 8 aligned bytes to one of the two BARs of context pages reaches the page where it responds. -/
theorem registerWrite_page (hbar : (vf = 0 ∧ bar = 4) ∨ (vf ≠ 0 ∧ bar = 0)) (hsize : size = 4 ∨ size = 8)
    (hal : offset % size = 0) : exec (.registerWrite port vf bar offset size value) s = .next
      (if s.responds port vf (offset / 65536) then s.writePage (offset / 65536) (offset % 65536) size value else s) := by
  refine within_next_of_eq (function_inRange hport hvf) ?_
  rw [if_neg (wellSized hsize hal), if_neg (by simp; omega), if_pos (by simpa using hbar)]

/-- A write that no BAR takes changes nothing. -/
theorem registerWrite_noBar (h : ¬(vf = 0 ∧ bar = 0) ∧ ¬(vf = 0 ∧ bar = 4) ∧ ¬(vf ≠ 0 ∧ bar = 0)) :
    exec (.registerWrite port vf bar offset size value) s = .next s := by
  obtain ⟨hphys, hpages, hvirt⟩ := h
  refine within_next_of_eq (function_inRange hport hvf) (ite_eq_left_iff.mpr fun _ => ?_)
  rw [if_neg (by simpa using hphys), if_neg (by simp; omega)]

end

/-- The register of BAR0 of a physical function that a write of 4 or 8 aligned bytes reaches. -/
def bar0Write (s : State) (port offset size value : Nat) : State :=
  if offset / 8 = 8 then s.writeAp port offset size value
  else if 0x10000 ≤ offset && offset < 0x20000 then s.writeMailbox port (offset - 0x10000) size value
  else if 0x400000 ≤ offset && offset < 0x420000 && offset % 128 < 64 then
    s.writeCfg ((offset - 0x400000) / 128) (offset % 128) size value
  else if 0x500000 ≤ offset && offset < 0x540000 then s.writeQueue ((offset - 0x500000) / 64) (offset % 64) size value
  else s

section
variable {port offset size value : Nat} {s : State}

theorem registerWrite_bar0 (hport : port < 2) (hsize : size = 4 ∨ size = 8) (hal : offset % size = 0) :
    exec (.registerWrite port 0 0 offset size value) s = .next (bar0Write s port offset size value) :=
  within_next_of_eq (function_inRange hport (by decide)) ((if_neg (wellSized hsize hal)).trans (if_pos (by decide)))

theorem bar0Write_aperture (h : offset / 8 = 8) :
    bar0Write s port offset size value = s.writeAp port offset size value := if_pos h

theorem bar0Write_mailbox (hlo : 0x10000 ≤ offset) (hhi : offset < 0x20000) :
    bar0Write s port offset size value = s.writeMailbox port (offset - 0x10000) size value :=
  (if_neg (by omega)).trans (if_pos (by simp [hlo, hhi]))

theorem bar0Write_cfg {p o : Nat} (hp : p < 1024) (ho : o < 64) :
    bar0Write s port (0x400000 + 128 * p + o) size value = s.writeCfg p o size value := by
  have hblock : (0x400000 + 128 * p + o - 0x400000) / 128 = p := by omega
  have hword : (0x400000 + 128 * p + o) % 128 = o := by omega
  rw [bar0Write, if_neg (by omega), if_neg (by simp; omega), if_pos (by simp [hword, ho]; omega), hblock, hword]

theorem bar0Write_queue {q o : Nat} (hq : q < 4096) (ho : o < 64) :
    bar0Write s port (0x500000 + 64 * q + o) size value = s.writeQueue q o size value := by
  have hblock : (0x500000 + 64 * q + o - 0x500000) / 64 = q := by omega
  have hword : (0x500000 + 64 * q + o) % 64 = o := by omega
  rw [bar0Write, if_neg (by omega), if_neg (by simp; omega), if_neg (by simp; omega), if_pos (by simp; omega), hblock,
    hword]

theorem bar0Write_reserved (hap : offset / 8 ≠ 8) (h : offset < 0x10000 ∨ (0x20000 ≤ offset ∧ offset < 0x400000) ∨
    (0x400000 ≤ offset ∧ offset < 0x420000 ∧ 64 ≤ offset % 128) ∨ (0x420000 ≤ offset ∧ offset < 0x500000) ∨
    0x540000 ≤ offset) : bar0Write s port offset size value = s := by
  rw [bar0Write, if_neg hap, if_neg (by simp; omega), if_neg (by simp; omega), if_neg (by simp; omega)]

theorem writeCfg_disarmed {p o : Nat} (h : (s.plat p).st = 0) : s.writeCfg p o size value = s.setPlat p
    { s.plat p with cfg := setBits (s.plat p).cfg (8 * (o / 8 * 8)) 64 (mergeWord (bitsOf (s.plat p).cfg (8 * (o / 8 * 8)) 64)
      o size value &&& bitsOf cfgMask (8 * (o / 8 * 8)) 64) } :=
  if_neg (by simp [h])

theorem writeCfg_armed {p o : Nat} (h : (s.plat p).st ≠ 0) : s.writeCfg p o size value = s := if_pos (by simp [h])

end

/-- An offset past a block that is itself aligned is aligned as the offset in the block is. -/
theorem aligned_of_block {base o size : Nat} (hbase : base % 8 = 0) (hsize : size = 4 ∨ size = 8) (ho : o % size = 0) :
    (base + o) % size = 0 := by
  rcases hsize with rfl | rfl <;> omega

/-- Settles O44: `bar0Write` for BAR0 of a physical function, `registerWrite_page` for the context pages. -/
theorem registerWritesReachTheirRegister : Obligations.RegisterWritesReachTheirRegister := by
  unfold Obligations.RegisterWritesReachTheirRegister
  refine ⟨?malformed, ?aperture, ?mailbox, ?cfg, ?cfgArmed, ?queue, ?physicalPage, ?virtualPage, ?silentPage, ?noBar,
    ?reserved, ?busy, ?go⟩
  case malformed => exact fun port vf bar offset size value s hport hvf h => registerWrite_malformed hport hvf h
  case aperture =>
    intro port offset size value s hport hsize hal ho
    rw [registerWrite_bar0 hport hsize hal, bar0Write_aperture ho]
  case mailbox =>
    intro port offset size value s hport hsize hal hlo hhi
    rw [registerWrite_bar0 hport hsize hal, bar0Write_mailbox hlo hhi]
  case cfg =>
    intro port p o size value s hport hp ho hsize hal hst
    rw [registerWrite_bar0 hport hsize (aligned_of_block (by omega) hsize hal), bar0Write_cfg hp ho, writeCfg_disarmed hst]
  case cfgArmed =>
    intro port p o size value s hport hp ho hsize hal hst
    rw [registerWrite_bar0 hport hsize (aligned_of_block (by omega) hsize hal), bar0Write_cfg hp ho, writeCfg_armed hst]
  case queue =>
    intro port q o size value s hport hq ho hsize hal
    rw [registerWrite_bar0 hport hsize (aligned_of_block (by omega) hsize hal), bar0Write_queue hq ho]
  case physicalPage =>
    intro port p o size value s hport hp ho hsize hal
    have hpage : (65536 * p + o) / 65536 = p := by omega
    have hin : (65536 * p + o) % 65536 = o := by omega
    rw [registerWrite_page hport (by decide) (.inl ⟨rfl, rfl⟩) hsize (aligned_of_block (by omega) hsize hal), hpage, hin,
      if_pos (by simp [State.responds, hp])]
  case virtualPage =>
    intro port vf p o size value s hport hvf hvf' ho hsize hal hresp
    have hpage : (65536 * p + o) / 65536 = p := by omega
    have hin : (65536 * p + o) % 65536 = o := by omega
    rw [registerWrite_page hport hvf (.inr ⟨hvf', rfl⟩) hsize (aligned_of_block (by omega) hsize hal), hpage, hin,
      if_pos hresp]
  case silentPage =>
    intro port vf bar offset size value s hport hvf hbar hsilent
    by_cases h : (size = 4 ∨ size = 8) ∧ offset % size = 0
    · rw [registerWrite_page hport hvf hbar h.1 h.2, if_neg (by simp [hsilent])]
    · exact registerWrite_malformed hport hvf (by omega)
  case noBar => exact fun port vf bar offset size value s hport hvf h => registerWrite_noBar hport hvf h
  case reserved =>
    intro port offset size value s hport hap h
    by_cases hform : (size = 4 ∨ size = 8) ∧ offset % size = 0
    · rw [registerWrite_bar0 hport hform.1 hform.2, bar0Write_reserved hap h]
    · exact registerWrite_malformed hport (by decide) (by omega)
  case busy =>
    intro port s hport h
    refine within_next_of_eq (decide_eq_true hport) (if_pos ?_)
    simpa [Option.isSome_iff_ne_none] using h
  case go =>
    intro port s hport hruns hfree
    exact within_next_of_eq (decide_eq_true hport) (if_neg (by simp [hruns, hfree]))

end Sys2Proof.Proofs
end

