-- ==== Sys2Proof/Proofs/CheckpointsAndBuddies.lean ====
section
/-! Checkpoint requests, coding and restores, and the buddy's copy (16). -/

namespace Sys2Proof.Proofs

open Sys2Proof Sys2Proof.Machine Sys2Proof.Laws

/-! ### Requests and coding (R543, R548 to R552) -/

/-- Coding ends with the address of the drain area. -/
theorem finishCoding_coded (s : State) (w : Nat) (img : Image) : (s.finishCoding w img).ckpt.coding = none ∧
    (s.finishCoding w img).odv Od.CKPT_MANIFEST_ADDR = (s.finishCoding w img).ckptBase 2 := by
  unfold State.finishCoding
  extract_lets c k base has es r es' s' any aux coded slot c' c''
  have harea : c''.area = coded.ckpt.area := by
    simp only [c'']
    split <;> rfl
  refine ⟨rfl, (odv_setOd_self _ _ _).trans ?_⟩
  unfold State.ckptBase
  rw [odv_setOd_other _ _ _ _ (by decide), setOd_ckpt]
  simp only [State.odv, harea]

/-! ### Restores (R558, R125, R240) -/

theorem capture_mem (s : State) (e : Event) : (s.capture e).mem = s.mem := by
  unfold State.capture
  split
  · rfl
  · simp only [setOd_mem]

/-- The memory that holds after a restore found no slot. -/
theorem restoreMismatch_mem (s : State) (c : Ckpt) (e : Event) :
    ((({ s with ckpt := c } : State).sticky 21).capture e).mem = s.mem := by
  rw [capture_mem, sticky_mem]

section
variable {s : State} {w : Nat} (hw : w < 2 ^ 64)
include hw

theorem exec_ckptRestore_distil (hmode : s.serveMode = false) : exec (.ckptRestore w) s = .next (s.restoreCkpt w).2 :=
  within_next_of_eq (decide_eq_true hw) (congrArg Prod.snd (if_neg (by simp [hmode])))

theorem exec_ckptRestore_serve (hmode : s.serveMode = true) : exec (.ckptRestore w) s = .next (s.restoreServe w).2 :=
  within_next_of_eq (decide_eq_true hw) (congrArg Prod.snd (if_pos hmode))

end

section
variable {s u : State} {w k : Nat} {img : Image} (hfree : s.anyArmed = false) (himg : s.loaded = some img)
  (hu : u = { s with ckpt := { s.ckpt with area := reserveArea img.stateBytes } })
include hfree himg hu

/-- With nothing armed, the slot that names the step and checks is restored. -/
theorem restoreCkpt_slot (hslot : (u.restoreSlot w).filter (u.restoreChecks img) = some k) :
    ∃ t, t = ((((u.copyHome img k).loadAux img k w).regenerate img w).digestPass img w).setOd Od.RED_DIGEST_LOG 0 ∧
      (s.restoreCkpt w).2 = { t with ckpt := { t.ckpt with
        hasBase := false, request := none, copy := none, snapshot := none, coding := none, undrained := none } } := by
  subst hu
  refine ⟨_, rfl, ?_⟩
  unfold State.restoreCkpt
  rw [if_neg (by simp [hfree])]
  split
  case h_1 hnone => cases hnone.symm.trans himg
  case h_2 img' himg' =>
    obtain rfl : img' = img := Option.some.inj (himg'.symm.trans himg)
    dsimp only
    split
    case h_1 hnone => cases hnone.symm.trans hslot
    case h_2 k' hk =>
      obtain rfl : k' = k := Option.some.inj (hk.symm.trans hslot)
      rfl

/-- Without such a slot the mismatch is reported. -/
theorem restoreCkpt_noSlot (hslot : (u.restoreSlot w).filter (u.restoreChecks img) = none) :
    (s.restoreCkpt w).2 = (u.sticky 21).capture { cause := 0x0605 } := by
  subst hu
  unfold State.restoreCkpt
  rw [if_neg (by simp [hfree])]
  split
  case h_1 hnone => cases hnone.symm.trans himg
  case h_2 img' himg' =>
    obtain rfl : img' = img := Option.some.inj (himg'.symm.trans himg)
    dsimp only
    split
    case h_1 => rfl
    case h_2 k' hk => cases hk.symm.trans hslot

end

section
variable {s u : State} {w : Nat} (hu : u = { s with ckpt := { s.ckpt with area := s.odv Od.DDR5_RESERVE_SIZE / 4 } })
include hu

/-- The serving snapshot of a round that checks, and no word of which shows an error, is loaded. -/
theorem restoreServe_slot {k : Nat} (hslot : u.serveSlot w = some k)
    (hhead : bitsOf (u.mfAt (u.slotManifest k)) 4032 64 = crc64 (u.load (u.slotManifest k) 504))
    (haux : bitsOf (u.mfAt (u.slotManifest k)) 600 64 =
      crc64 (u.load (u.slotAux k) (mfAuxBytes (u.mfAt (u.slotManifest k)))))
    (hstep : bitsOf (u.mfAt (u.slotManifest k)) 8 8 = u.odv Od.STEPPING) (herrors : u.slotErrors k = []) :
    (s.restoreServe w).2 = u.loadServing k := by
  unfold State.restoreServe
  rw [← hu]
  simp only [hslot]
  exact congrArg Prod.snd (if_pos (by simp only [hhead, haux, hstep, herrors]; decide))

/-- Without a snapshot of the round the mismatch is reported. -/
theorem restoreServe_noSlot (hslot : u.serveSlot w = none) :
    (s.restoreServe w).2 = (u.sticky 21).capture { cause := 0x0605 } := by
  unfold State.restoreServe
  rw [← hu]
  simp only [hslot]
  rfl

end

/-- Settles O20, clause by clause from the writes of the checkpoint entries. -/
theorem checkpointsAreRequestedAndRestored : Obligations.CheckpointsAreRequestedAndRestored := by
  unfold Obligations.CheckpointsAreRequestedAndRestored
  refine ⟨?requested, ?refused, ?drained, ?notDrained, ?serveNow, ?coded, ?codeError, ?restored, ?mismatch, ?busy,
    ?served, ?unserved⟩
  case requested =>
    intro w s hw hactive hends hsteps hlast hreq hcopy hupdate hdecided
    refine within_next_of_eq (decide_eq_true hw) ?_
    have hinside : (s.job.steps != 0 && decide (s.job.steps ≤ w)) = false := by
      rcases hsteps with h | h <;> simp [h]
    simp [State.requestCkpt, hactive, hends, hinside, hlast, hreq, hcopy, hupdate, hdecided]
  case refused =>
    intro w s hw h
    refine within_next_of_eq (decide_eq_true hw) (congrArg Prod.snd (if_pos ?_))
    rcases h with h | h <;> simp [h]
  case drained =>
    intro w s hw hwaits hcoded
    exact within_next_of_eq (decide_eq_true hw) (congrArg Prod.snd (if_pos (by simp [hwaits, hcoded])))
  case notDrained =>
    intro w s hw hwaits
    exact within_next_of_eq (decide_eq_true hw) (congrArg Prod.snd (if_neg (by simp [hwaits])))
  case serveNow => exact fun s => within_next_of_eq (o := "value") (decide_eq_true (show 1 < 256 by decide)) rfl
  case coded =>
    intro w img s hcoding himg herrors
    refine ⟨_, within_next_of_eq (o := "") rfl ?_, rfl, finishCoding_coded s w img⟩
    simp only [hcoding, himg, herrors]
  case codeError =>
    intro w e es img s hcoding himg herrors
    refine within_next_of_eq (o := "") rfl ?_
    simp only [hcoding, himg, herrors]
  case restored =>
    intro w k img s u hw hmode hfree himg hu hslot hchecks
    obtain ⟨t, ht, hrestored⟩ := restoreCkpt_slot (w := w) (k := k) hfree himg hu (by simp [hslot, hchecks])
    exact ⟨t, ht, (exec_ckptRestore_distil hw hmode).trans (congrArg _ hrestored)⟩
  case mismatch =>
    rintro w img s _ hw hmode hfree himg rfl hnone
    exact ⟨_, (exec_ckptRestore_distil hw hmode).trans (congrArg _ (restoreCkpt_noSlot hfree himg rfl hnone)), rfl,
      restoreMismatch_mem s _ _⟩
  case busy =>
    intro w s hw hmode h
    refine (exec_ckptRestore_distil hw hmode).trans (congrArg _ ?_)
    unfold State.restoreCkpt
    cases harmed : s.anyArmed with
    | true => rfl
    | false => simp [h.resolve_left (by simp [harmed]), State.refused]
  case served =>
    rintro w k s _ hw hmode rfl hslot hhead haux hstep herrors
    exact (exec_ckptRestore_serve hw hmode).trans (congrArg _ (restoreServe_slot rfl hslot hhead haux hstep herrors))
  case unserved =>
    rintro w s _ hw hmode rfl hnone
    exact ⟨_, (exec_ckptRestore_serve hw hmode).trans (congrArg _ (restoreServe_noSlot rfl hnone)), rfl,
      restoreMismatch_mem s _ _⟩

/-! ### Buddies (R555 to R557, R567) -/

section
variable {s : State} {v feed : Nat}

/-- `BUDDY_OVERRIDE` waives the feed for a package that one of its eight entries names. -/
theorem waives_iff : ((List.range 8).any fun j => bitsOf (s.odv Od.BUDDY_OVERRIDE) (16 * j) 16 = v) = true ↔
    ∃ j, j < 8 ∧ bitsOf (s.odv Od.BUDDY_OVERRIDE) (16 * j) 16 = v := by
  simp [List.any_eq_true, List.mem_range]

theorem exec_buddyPkg (hv : v < 65536) (hfeed : feed < 2 ^ 64) :
    exec (.buddyPkg v feed) s = .next (s.setBuddy v feed).2 :=
  within_next _ _ (by simpa [hv] using hfeed)

section
variable (hfree : s.job.active = false) (hv : v < 1024) (hother : v ≠ s.pkg)
include hfree hv hother

/-- A package that may be a buddy is bound, refused or bound as one on the same feed by what is known of the feeds. -/
theorem setBuddy_other : s.setBuddy v feed =
    if s.odv Od.FEED_ID = 0 || feed = 0 then
      (stOk, (((s.setOd Od.BUDDY_PKG v).setOd Od.BUDDY_STATE 0).setOd Od.BUDDY_COLOCATED 1).sticky 20)
    else if s.odv Od.FEED_ID = feed &&
        !((List.range 8).any fun j => bitsOf (s.odv Od.BUDDY_OVERRIDE) (16 * j) 16 = v) then s.refused stDenied
    else (stOk, ((s.setOd Od.BUDDY_PKG v).setOd Od.BUDDY_STATE 0).setOd Od.BUDDY_COLOCATED 0) := by
  unfold State.setBuddy
  rw [if_neg (by simp [hfree]), if_neg (by omega), if_neg (by simp [hother]; omega)]

theorem setBuddy_unknownFeed (h : s.odv Od.FEED_ID = 0 ∨ feed = 0) : s.setBuddy v feed =
    (stOk, (((s.setOd Od.BUDDY_PKG v).setOd Od.BUDDY_STATE 0).setOd Od.BUDDY_COLOCATED 1).sticky 20) := by
  rw [setBuddy_other hfree hv hother, if_pos (by simpa using h)]

theorem setBuddy_apart (hmine : s.odv Od.FEED_ID ≠ 0) (hpeer : feed ≠ 0) (h : s.odv Od.FEED_ID ≠ feed ∨
    ∃ j, j < 8 ∧ bitsOf (s.odv Od.BUDDY_OVERRIDE) (16 * j) 16 = v) : s.setBuddy v feed =
    (stOk, ((s.setOd Od.BUDDY_PKG v).setOd Od.BUDDY_STATE 0).setOd Od.BUDDY_COLOCATED 0) := by
  rw [setBuddy_other hfree hv hother, if_neg (by simp [hmine, hpeer]), if_neg]
  rcases h with h | h
  · simp [h]
  · simp [waives_iff.mpr h]

theorem setBuddy_sameFeed (hmine : s.odv Od.FEED_ID ≠ 0) (hsame : s.odv Od.FEED_ID = feed)
    (h : ∀ j, j < 8 → bitsOf (s.odv Od.BUDDY_OVERRIDE) (16 * j) 16 ≠ v) : s.setBuddy v feed = s.refused stDenied := by
  have hnone : ((List.range 8).any fun j => bitsOf (s.odv Od.BUDDY_OVERRIDE) (16 * j) 16 = v) = false :=
    Bool.eq_false_iff.mpr fun hw => by
      obtain ⟨j, hj, hv⟩ := waives_iff.mp hw
      exact h j hj hv
  rw [setBuddy_other hfree hv hother, if_neg (by simp [hmine, ← hsame]), if_pos (by simp [hsame, hnone])]

end

/-- A write of `BUDDY_PKG` that binds no buddy and unbinds none changes nothing. -/
theorem setBuddy_refused (hv : v ≠ 65535) (h : s.job.active = true ∨ 1024 ≤ v ∨ v = s.pkg ∨
    (s.odv Od.FEED_ID ≠ 0 ∧ s.odv Od.FEED_ID = feed ∧ ∀ j, j < 8 → bitsOf (s.odv Od.BUDDY_OVERRIDE) (16 * j) 16 ≠ v)) :
    (s.setBuddy v feed).2 = s := by
  cases hactive : s.job.active with
  | true => exact congrArg Prod.snd (if_pos hactive)
  | false =>
    by_cases hrange : 1024 ≤ v ∨ v = s.pkg
    · unfold State.setBuddy
      rw [if_neg (by simp [hactive]), if_neg hv, if_pos (by simpa using hrange), State.refused]
    · obtain ⟨hlow, hother⟩ := not_or.mp hrange
      obtain ⟨hmine, hsame, hwaived⟩ : s.odv Od.FEED_ID ≠ 0 ∧ s.odv Od.FEED_ID = feed ∧
          ∀ j, j < 8 → bitsOf (s.odv Od.BUDDY_OVERRIDE) (16 * j) 16 ≠ v := by
        simpa [hactive, hlow, hother] using h
      rw [setBuddy_sameFeed hactive (by omega) hother hmine hsame hwaived, State.refused]

end

section
variable {s : State} {v : Nat}

theorem exec_buddySend_valid (hv : v < 1024) (hvalid : s.ckpt.buddy.valid = true) :
    exec (.buddySend v) s = .next (s.sendSlot v 3) := by
  refine within_next_of_eq (decide_eq_true (by omega)) ?_
  rw [State.buddySend, if_neg (by simp [hvalid]), if_neg (by omega)]

/-- A slot with an erroneous word is not sent: its first error faults what runs. -/
theorem sendSlot_erroneous {d k : Nat} (h : s.slotErrors k ≠ []) :
    s.sendSlot d k = s.faultRead (listGet 0 (s.slotErrors k) 0) := by
  obtain ⟨e, es, he⟩ := List.exists_cons_of_ne_nil h
  simp only [State.sendSlot, he]
  rfl

end

section
variable {s : State} {p : Nat} {m : Message} (h : s.Delivers p 3 m) (hkind : m.kind = 7)
include h hkind

/-- A piece of a copy is stored, and the copy is valid no longer. -/
theorem exec_mgmt_piece (hop : m.lcOp = 1) (harea : s.ckpt.area ≠ 0)
    (hfits : bitsOf m.header 576 64 + m.data.length ≤ s.ckpt.area)
    (htier : s.inTier (s.ckptBase 3 + bitsOf m.header 576 64) m.data.length = true) (hcrc : crc64 m.data = m.crc) :
    exec (.mgmt p) s = .next (({ s.dropHead p 3 with ckpt := { s.ckpt with buddy := .empty } } : State).put
      (s.ckptBase 3 + bitsOf m.header 576 64) m.data) := by
  have hstored : ((s.ckpt.area != 0 && decide (bitsOf m.header 576 64 + m.data.length ≤ s.ckpt.area)) &&
      s.inTier (s.ckptBase 3 + bitsOf m.header 576 64) m.data.length) = true := by
    simp [harea, hfits, htier]
  refine within_next_of_eq (decide_eq_true h.1) ((takeMessage_delivers _ _ h (by simp [hkind])).trans ?_)
  refine (if_neg (by simp [hop])).trans ((if_pos ?_).trans (if_neg (by simp [hop])))
  simp only [hop, hcrc]
  exact Bool.and_eq_true_iff.mpr ⟨hstored, by decide⟩

theorem exec_mgmt_acknowledged (hop : m.lcOp = 3) (hsrc : m.src = s.odv Od.BUDDY_PKG) :
    exec (.mgmt p) s = .next ((s.dropHead p 3).setOd Od.BUDDY_STATE 2) := by
  refine within_next_of_eq (decide_eq_true h.1) ((takeMessage_delivers _ _ h (by simp [hkind])).trans ?_)
  exact (if_pos hop).trans (if_pos hsrc)

end

/-- Settles O26: the pieces of a copy, the binding of the buddy and the copy that is sent back. -/
theorem buddyCopiesArriveAndAreSent : Obligations.BuddyCopiesArriveAndAreSent := by
  unfold Obligations.BuddyCopiesArriveAndAreSent
  refine ⟨?piece, ?held, ?unknownFeed, ?otherFeed, ?waived, ?refused, ?unbound, ?erroneous, ?sent, ?notSent⟩
  case piece =>
    intro p m s h hkind hop harea hfits htier hcrc
    exact ⟨_, exec_mgmt_piece h hkind hop harea hfits htier hcrc, rfl, rfl⟩
  case held => exact fun p m s h hkind hop hsrc => exec_mgmt_acknowledged h hkind hop hsrc
  case unknownFeed =>
    intro v feed s hv hfeed hfree hother hunknown
    rw [exec_buddyPkg (by omega) hfeed, setBuddy_unknownFeed hfree hv hother hunknown]
  case otherFeed =>
    intro v feed s hv hfeed hfree hother hmine hpeer hapart
    rw [exec_buddyPkg (by omega) hfeed, setBuddy_apart hfree hv hother hmine hpeer (.inl hapart)]
  case waived =>
    intro v feed s hv hfeed hfree hother hmine hsame hwaived
    rw [exec_buddyPkg (by omega) hfeed, setBuddy_apart hfree hv hother hmine (hsame ▸ hmine) (.inr hwaived)]
  case refused =>
    intro v feed s hv hfeed hbound h
    rw [exec_buddyPkg hv hfeed, setBuddy_refused hbound h]
  case unbound =>
    intro feed s hfeed hfree
    rw [exec_buddyPkg (by decide) hfeed, State.setBuddy, if_neg (by simp [hfree]), if_pos rfl]
  case erroneous =>
    intro v s hv hvalid herrors
    rw [exec_buddySend_valid hv hvalid, sendSlot_erroneous herrors]
  case sent => exact fun v s hv hvalid => exec_buddySend_valid hv hvalid
  case notSent =>
    intro v s hv h
    refine within_next_of_eq (decide_eq_true hv) ?_
    unfold State.buddySend
    cases hvalid : s.ckpt.buddy.valid with
    | false => rfl
    | true => rw [if_neg (by simp), if_pos (h.resolve_left (by simp [hvalid])), State.refused]

end Sys2Proof.Proofs
end

