-- ==== Sys2Proof/Proofs/FieldNetworkPort.lean ====
section
/-! The field-network port (15, R525 to R529) and attestation over SPDM (17, R585, R586). -/

namespace Sys2Proof.Proofs

open Sys2Proof Sys2Proof.Machine Sys2Proof.Laws

/-! ### Settings (R528, R529) -/

/-- What has no range to check completes. -/
theorem unchecked_next_of_eq {s t : State} (h : s = t) : within true "" s = .next t := within_next_of_eq rfl h

section
variable {s : State}

/-- A port that starts is where its settings put it, or finds its address taken. -/
theorem startState_eq (s : State) (dup : Bool) :
    (if s.fnSettings.enable && dup then 3 else fnStateOf s.fnSettings) =
      if s.odv Od.FN_ENABLE ≠ 1 then 0 else if dup then 3 else if s.odv Od.FN_PLCA_NODE_ID = 255 then 2 else 1 := by
  by_cases hon : s.odv Od.FN_ENABLE = 1
  · have henabled : s.fnSettings.enable = true := decide_eq_true hon
    rw [fnStateOf, if_neg (not_not.mpr hon), henabled]
    rfl
  · have hdisabled : s.fnSettings.enable = false := decide_eq_false hon
    rw [fnStateOf, if_pos hon, hdisabled]
    rfl

variable (hvaux : s.power.vaux = true) (hboot : s.power.boot ≠ 0)
include hvaux hboot

theorem exec_fnPortStart (dup : Bool) : exec (.fnPortStart dup) s = .next
    (({ s with fieldNet := { s.fnSettings with queue := [], attempts := 0 } } : State).setOd Od.FN_STATE
      (if s.fnSettings.enable && dup then 3 else fnStateOf s.fnSettings)) :=
  unchecked_next_of_eq (if_neg (by simp [hvaux, hboot]))

/-- The written settings come into force: the field network is theirs, and a disabled port is off. -/
theorem exec_fnSettingApply (hwritten : s.fieldNet.settled = false) (hsent : s.fieldNet.queue.any (·.settles) = false) :
    ∃ t queue attempts, exec .fnSettingApply s = .next t ∧
      t.fieldNet = { s.fnSettings with queue := queue, attempts := attempts } ∧
      (s.odv Od.FN_ENABLE ≠ 1 → t.odv Od.FN_STATE = 0) := by
  have hrun (t : State) : (if (!s.fnSettings.enable) = true then
        ({ s with fieldNet := { s.fnSettings with queue := [], attempts := 0 } } : State).setOd Od.FN_STATE 0
      else if s.odv Od.FN_STATE = 0 || s.odv Od.FN_STATE = 3 then { s with fieldNet := s.fnSettings }
      else ({ s with fieldNet := s.fnSettings } : State).setOd Od.FN_STATE (fnStateOf s.fnSettings)) = t →
      exec .fnSettingApply s = .next t := fun h =>
    unchecked_next_of_eq ((if_neg (by simp [hvaux, hboot, hwritten, hsent])).trans h)
  by_cases hon : s.odv Od.FN_ENABLE = 1
  · have henabled : s.fnSettings.enable = true := decide_eq_true hon
    by_cases hkept : (s.odv Od.FN_STATE = 0 || s.odv Od.FN_STATE = 3) = true
    · exact ⟨_, _, _, hrun _ ((if_neg (by simp [henabled])).trans (if_pos hkept)), rfl, fun h => absurd hon h⟩
    · exact ⟨_, _, _, hrun _ ((if_neg (by simp [henabled])).trans (if_neg hkept)), rfl, fun h => absurd hon h⟩
  · have hdisabled : s.fnSettings.enable = false := decide_eq_false hon
    exact ⟨_, _, _, hrun _ (if_pos (by simp [hdisabled])), rfl, fun _ => odv_setOd_self _ _ _⟩

end

/-! ### Transmit opportunities (R525 to R527) -/

theorem raise_fieldNet (s : State) (p v : Nat) : (s.raise p v).fieldNet = s.fieldNet := by
  obtain h | ⟨_, h⟩ | h := raise_cases s p v <;> rw [h] <;> rfl

theorem sticky_fieldNet (s : State) (n : Nat) : (s.sticky n).fieldNet = s.fieldNet := by
  obtain h | h := sticky_cases s n
  · rw [h]
  · rw [h, raise_fieldNet, raise_fieldNet]
    rfl

section
variable {s : State} {f : FnFrame} {rest : List FnFrame} (hup : s.fnUp = true) (hqueue : s.fieldNet.queue = f :: rest)
include hup hqueue

theorem exec_plcaTransmit : exec .plcaTransmit s = .next
    ((({ s with fieldNet := { s.fieldNet with queue := rest, attempts := 0 } } : State).emit f.out).count
      Od.FN_FRAMES_TX 1) := by
  refine unchecked_next_of_eq ?_
  simp only [hqueue]
  exact if_neg (by simp [hup])

/-- A collision is noted and counted; the frame is dropped once 16 attempts have failed. -/
theorem exec_plcaCollision {u : State} (hstate : s.odv Od.FN_STATE = 1)
    (hu : u = (s.sticky 11).count Od.FN_PLCA_COLLISIONS 1) : exec .plcaCollision s = .next
      (if 16 ≤ s.fieldNet.attempts + 1 then { u with fieldNet := { u.fieldNet with queue := rest, attempts := 0 } }
      else { u with fieldNet := { u.fieldNet with attempts := u.fieldNet.attempts + 1 } }) := by
  subst hu
  have hkept : ((s.sticky 11).count Od.FN_PLCA_COLLISIONS 1).fieldNet = s.fieldNet := sticky_fieldNet s 11
  refine unchecked_next_of_eq ?_
  simp only [hqueue]
  refine (if_neg (by simp [hup, hstate])).trans ?_
  simp only [hkept]

end

/-! ### SPDM (R585, R586) -/

/-- A response leaves the open sessions as they are. -/
theorem sessions_spdmSend (s : State) (path : OdPath) (resp : List Byte) :
    (s.spdmSend path resp).security.sessions = s.security.sessions := by
  cases path <;> rfl

/-- Settles O60: the rows of the port and of SPDM. -/
theorem fieldNetworkAndAttestation : Obligations.FieldNetworkAndAttestation := by
  unfold Obligations.FieldNetworkAndAttestation
  refine ⟨?starts, ?settles, ?notSent, ?lost, ?notLost, ?returns, ?transmits, ?collides, ?beacon, ?neighbour, ?spdm⟩
  case starts =>
    intro dup s hvaux hboot
    exact ⟨_, exec_fnPortStart hvaux hboot dup, (odv_setOd_self _ _ _).trans (startState_eq s dup), rfl⟩
  case settles =>
    intro s hvaux hboot hwritten hsent
    obtain ⟨t, queue, attempts, hrun, hfield, hoff⟩ := exec_fnSettingApply hvaux hboot hwritten hsent
    refine ⟨t, hrun, ?_, ?_, ?_, ?_, ?_, hoff⟩ <;> rw [hfield] <;> rfl
  case notSent => exact fun s h => unchecked_next_of_eq (if_pos (by simp only [h, Bool.or_true]))
  case lost =>
    intro us s hup hstate hnode hus
    exact unchecked_next_of_eq (if_pos (by simp [hup, hstate, hnode, hus]))
  case notLost =>
    intro us s h
    refine unchecked_next_of_eq (if_neg ?_)
    rcases h with h | h
    · simp [h]
    · simp [h]
  case returns => exact fun s hup hstate hnode => unchecked_next_of_eq (if_pos (by simp [hup, hstate, hnode]))
  case transmits => exact fun f rest s hup hqueue => exec_plcaTransmit hup hqueue
  case collides =>
    intro f rest s u hup hstate hqueue hu
    have hrun := exec_plcaCollision hup hqueue hstate hu
    exact ⟨fun h => hrun.trans (congrArg _ (if_neg (by omega))), fun h => hrun.trans (congrArg _ (if_pos (by omega)))⟩
  case beacon => exact fun s hup hstate hnode => unchecked_next_of_eq (if_pos (by simp [hup, hstate, hnode]))
  case neighbour => exact fun f s hup => unchecked_next_of_eq (if_pos hup)
  case spdm =>
    intro path rq s hpath hruns
    refine ⟨within_next_of_eq hpath (if_pos hruns), ?_, _, within_next_of_eq hpath (if_pos hruns), sessions_spdmSend _ path _⟩
    rintro _ rfl
    exact within_next_of_eq hpath (if_pos hruns)

end Sys2Proof.Proofs
end

