-- ==== Sys2Proof/Proofs/FaultFrame.lean ====
section
/-! SUPPORT. What interrupts, faults and signals leave alone, whatever one looks at (07, 08, 16): the frame is proved once,
for every view of the state that shows nothing they write. -/

namespace Sys2Proof.Proofs

open Sys2Proof Sys2Proof.Machine Sys2Proof.Laws

/-- A view of the state that shows nothing which a fault, a signal or a message that is sent writes. -/
structure FaultBlind {β : Type} (view : State → β) : Prop where
  entry : ∀ s k v, k ∈ faultKeys → view (State.setOd s k v) = view s
  counts : ∀ s x, view { s with stats := x } = view s
  ports : ∀ s x, view { s with ports := x } = view s
  outputs : ∀ s x, view { s with hostOut := x } = view s
  work : ∀ s w x y z, view { s with cores := w, moves := x, dies := y, channels := z } = view s
  plats : ∀ s x, view { s with plats := x } = view s
  exchange : ∀ s x y z, view { s with job := x, red := y, ckpt := z } = view s
  links : ∀ s x y, view { s with links := x, msgIds := y } = view s

namespace FaultBlind

variable {β : Type} {view : State → β} (h : FaultBlind view) (s : State)
include h

theorem cores (x : Tab CoreState) : view { s with cores := x } = view s := h.work s x s.moves s.dies s.channels

/-! ### Interrupts, the sticky log and first-error capture -/

theorem raise (p v : Nat) : view (s.raise p v) = view s := by
  obtain hr | ⟨_, hr⟩ | hr := raise_cases s p v <;> rw [hr]
  · exact h.ports s _
  · exact (h.counts _ _).trans (h.outputs s _)

theorem sticky (n : Nat) : view (s.sticky n) = view s := by
  obtain hs | hs := sticky_cases s n
  · rw [hs]
  · rw [hs, h.raise, h.raise, h.entry _ _ _ (by decide)]

theorem capture (e : Event) : view (s.capture e) = view s := by
  refine ite_keeps view rfl ?_
  repeat rw [h.entry _ _ _ (by decide)]

/-! ### Messages -/

theorem sendVia (mask kind d : Nat) (more : List (Nat × Nat × Nat)) (data : List Byte) (crc : Nat) :
    view (s.sendVia mask kind d more data crc) = view s :=
  sendVia_keeps view (fun s _ _ _ _ => h.links s _ _) s _ _ _ _ _ _

theorem sendJobFault (origin cause : Nat) : view (s.sendJobFault origin cause) = view s := by
  unfold State.sendJobFault
  dsimp only
  split
  · exact h.sendVia s _ _ _ _ _ _
  · exact foldl_keeps view (fun s q => h.sendVia s _ _ _ _ _ _) _ _

/-! ### Faults (R270, R271) -/

/-- The streams of a Platform stop, its counters return to zero, and its commands are abandoned. -/
theorem stopWork (p st : Nat) : view (((s.markStreams p st).zeroCounters p).abandon p) = view s := by
  have hzeroed : view ((s.markStreams p st).zeroCounters p) = view s :=
    (zeroCounters_keeps view h.cores _ p).trans (h.cores s _)
  exact (h.work ((s.markStreams p st).zeroCounters p) _ _ _ _).trans hzeroed

theorem clearVtime : view s.clearVtime = view s := h.work s _ s.moves _ s.channels

theorem faultPlatform (p cause tcore slot cmd : Nat) : view (s.faultPlatform p cause tcore slot cmd) = view s := by
  unfold State.faultPlatform
  dsimp only
  split
  · rfl
  · rw [State.raiseErr, h.raise, h.sticky]
    refine (h.counts _ _).trans ((h.counts _ _).trans ((h.clearVtime _).trans ?_))
    have hstopped : ∀ x, view ((((s.markStreams p 4).zeroCounters p).abandon p).setPlat p x) = view s := fun x =>
      (h.plats _ _).trans (h.stopWork s p 4)
    exact ite_keeps view ((h.entry _ _ _ (by decide)).trans (hstopped _)) (hstopped _)

theorem faultJob (e : Event) : view (s.faultJob e) = view s := by
  unfold State.faultJob State.faultJobAs
  dsimp only
  split
  · rfl
  · rw [if_neg Bool.false_ne_true, h.sendJobFault, State.raiseErr, h.raise, h.sticky]
    refine (h.counts _ _).trans ((h.exchange _ _ _ _).trans ((h.plats _ _).trans ?_))
    exact (h.stopWork (s.capture e) 0 4).trans (h.capture s e)

theorem faultOwner (p tcore : Nat) (e : Event) : view (s.faultOwner p tcore e) = view s :=
  ite_keeps view ((h.faultPlatform _ _ _ _ _ _).trans (h.capture s _)) (h.faultJob s _)

theorem faultStream (c i cause : Nat) : view (s.faultStream c i cause) = view s :=
  (h.faultOwner _ _ _ _).trans (h.cores s _)

/-- Everything running faults. -/
theorem faultAll (e : Event) : view (s.faultAll e) = view s := by
  unfold State.faultAll
  dsimp only
  refine ite_keeps view (ite_keeps view rfl ?_) (h.faultJob s _)
  exact (foldl_keeps view (fun s x => h.faultPlatform s _ _ _ _ _) _ _).trans (h.capture s e)

/-! ### Signals (R253 to R257) -/

theorem makeReady (c i : Nat) (prev : Option Nat) : view (s.makeReady c i prev) = view s := h.cores s _

theorem checkRange (c k : Nat) : view (s.checkRange c k) = view s :=
  foldl_keeps view (fun s _ => ite_keeps view (h.faultStream s _ _ _) rfl) _ _

theorem settle (c k : Nat) : view (s.settle c k) = view s := by
  unfold State.settle
  dsimp only
  refine (foldl_keeps view (fun s i => ?_) _ _).trans ((foldl_keeps view (fun s i => ?_) _ _).trans
    (h.checkRange s c k))
  · exact ite_keeps view ((h.checkRange _ _ _).trans ((h.makeReady _ _ _ _).trans (h.cores s _))) rfl
  · exact ite_keeps view (h.makeReady s _ _ _) rfl

theorem signal (c k n : Nat) : view (s.signal c k n) = view s :=
  (h.settle _ c k).trans ((h.counts _ _).trans (h.cores s _))

end FaultBlind

/-- Device memory and host memory. -/
def memories (s : State) : List Host.Cell × List Host.Cell := (s.mem, s.hostMem)

/-- No fault and no signal writes a memory. -/
theorem faultBlind_memories : FaultBlind memories where
  entry _ _ _ _ := rfl
  counts _ _ := rfl
  ports _ _ := rfl
  outputs _ _ := rfl
  work _ _ _ _ _ := rfl
  plats _ _ := rfl
  exchange _ _ _ _ := rfl
  links _ _ _ := rfl

/-- An entry that no fault writes keeps its value. -/
theorem faultBlind_odv {k : Nat} (hk : k ∉ faultKeys) : FaultBlind fun s => State.odv s k where
  entry s _ v hj := odv_setOd_other s _ _ v (ne_of_mem_of_not_mem hj hk).symm
  counts _ _ := rfl
  ports _ _ := rfl
  outputs _ _ := rfl
  work _ _ _ _ _ := rfl
  plats _ _ := rfl
  exchange _ _ _ _ := rfl
  links _ _ _ := rfl

end Sys2Proof.Proofs
end

