-- ==== Sys2Proof/Proofs/RemoteMoves.lean ====
section
/-! Remote moves at their destination, and their acknowledgement at the source (10). -/

namespace Sys2Proof.Proofs

open Sys2Proof Sys2Proof.Machine Sys2Proof.Laws

/-! ### Taking a message -/

section
variable (s : State) (p v a n : Nat)

@[simp] theorem dropHead_inTier : (s.dropHead p v).inTier a n = s.inTier a n := rfl
@[simp] theorem dropHead_linkProtected : (s.dropHead p v).linkProtected a n = s.linkProtected a n := rfl
@[simp] theorem dropHead_moves : (s.dropHead p v).moves = s.moves := rfl

end

/-- A message that is not the row's own stays where it is. -/
theorem takeMessage_of_not_mine {s : State} {p v : Nat} {m : Message} {mine : Message → Bool}
    (k : State → Message → State) (hhead : s.inHead p v = some m) (hmine : mine m = false) :
    s.takeMessage p v mine k = s := by
  rw [State.takeMessage, hhead]
  exact if_pos (by simp [hmine])

/-! ### MOVE_WRITE (R46, R350, R352, R353) -/

section
variable {p : Nat} {m : Message} {s : State} (hm : s.Delivers p 2 m)
include hm

/-- A write that a parked island stops waits at the front of its VC. -/
theorem exec_moveWrite_waits (hopen : s.writeOpen m = false) : exec (.moveWrite p) s = .next s :=
  within_next_of_eq (decide_eq_true hm.1) (takeMessage_of_not_mine _ hm.2.1 (by simp [hopen]))

variable (hkind : m.kind = 1) (hopen : s.writeOpen m = true)
include hkind hopen

theorem exec_moveWrite_invalid
    (hdst : 2 < regionOf m.dstAddr ∨ s.inTier m.dstAddr m.data.length = false ∨ skewOf m.dstAddr ≠ 0) :
    exec (.moveWrite p) s = .next ((s.dropHead p 2).faultMessage
      { cause := 0x0508, island := 0x7000 + p, detail := p }) := by
  refine within_next_of_eq (decide_eq_true hm.1) ((takeMessage_delivers _ _ hm (by simp [hkind, hopen])).trans (if_pos ?_))
  simpa [or_assoc] using hdst

variable (hregion : regionOf m.dstAddr ≤ 2) (htier : s.inTier m.dstAddr m.data.length = true)
  (hskew : skewOf m.dstAddr = 0)
include hregion htier hskew

theorem exec_moveWrite_protected (hprot : s.linkProtected m.dstAddr m.data.length = true) :
    exec (.moveWrite p) s = .next ((s.dropHead p 2).faultMessage
      { cause := 0x0503, island := 0x7000 + p, detail := p }) :=
  within_next_of_eq (decide_eq_true hm.1) ((takeMessage_delivers _ _ hm (by simp [hkind, hopen])).trans
    ((if_neg (by simp [hregion, htier, hskew])).trans (if_pos hprot)))

theorem exec_moveWrite_taken (hprot : s.linkProtected m.dstAddr m.data.length = false) (hcrc : crc64 m.data = m.crc)
    (hclean : s.Clean) : exec (.moveWrite p) s =
      .next ((((s.dropHead p 2).put m.dstAddr m.data).messageSignal m).ackMessage m) := by
  refine within_next_of_eq (decide_eq_true hm.1) ((takeMessage_delivers _ _ hm (by simp [hkind, hopen])).trans
    ((if_neg (by simp [hregion, htier, hskew])).trans ((if_neg (by simp [hprot])).trans ?_)))
  rw [badPartly_of_clean (s := s.dropHead p 2) hclean]
  exact if_neg (by simp [hcrc])

end

/-- The remote signal and the acknowledgement of a message leave both memories alone. -/
theorem memories_signalAndAck (s : State) (m : Message) : memories ((s.messageSignal m).ackMessage m) = memories s :=
  (faultBlind_memories.sendVia _ _ _ _ _ _ _).trans (ite_keeps memories (faultBlind_memories.signal s _ _ _) rfl)

/-! ### WRITE_ACK (R378) -/

section
variable {p : Nat} {m : Message} {s : State} (hm : s.Delivers p 0 m) (hkind : m.kind = 3)
include hm hkind

theorem exec_writeAck_stripe (hstripe : (m.src, m.ackMsg) ∈ s.red.unacked) : exec (.writeAck p) s = .next
    { s.dropHead p 0 with red := { s.red with unacked := s.red.unacked.erase (m.src, m.ackMsg) } } :=
  within_next_of_eq (decide_eq_true hm.1) ((takeMessage_delivers _ _ hm (by simp [hkind])).trans
    (if_pos (by simpa using hstripe)))

variable (hother : (m.src, m.ackMsg) ∉ s.red.unacked)
include hother

/-- An acknowledgement that names nothing outstanding is taken. -/
theorem exec_writeAck_stray (hnone : s.moves.find? (fun o => o.waiting.contains (m.src, m.ackMsg)) = none) :
    exec (.writeAck p) s = .next (s.dropHead p 0) := by
  refine within_next_of_eq (decide_eq_true hm.1) ((takeMessage_delivers _ _ hm (by simp [hkind])).trans
    ((if_neg (by simpa using hother)).trans ?_))
  rw [dropHead_moves, hnone]

variable {o : MoveOp} (hmove : s.moves.find? (fun o => o.waiting.contains (m.src, m.ackMsg)) = some o)
include hmove

/-- An acknowledgement of a MOVE shortens what the MOVE waits for, and completes it with the last. -/
theorem exec_writeAck_move : exec (.writeAck p) s = .next
    (if (o.waiting.erase (m.src, m.ackMsg)).isEmpty then { s.dropHead p 0 with moves := s.moves.erase o }.finish o.it
    else { s.dropHead p 0 with
      moves := s.moves.map fun q => if q = o then { o with waiting := o.waiting.erase (m.src, m.ackMsg) } else q }) := by
  refine within_next_of_eq (decide_eq_true hm.1) ((takeMessage_delivers _ _ hm (by simp [hkind])).trans
    ((if_neg (by simpa using hother)).trans ?_))
  rw [dropHead_moves, hmove]

end

/-- Settles O27, from the outcomes of the two rows; the write to memory is `put`, which the signal and the
acknowledgement keep. -/
theorem remoteMovesWriteSignalAndAreAcknowledged : Obligations.RemoteMovesWriteSignalAndAreAcknowledged := by
  unfold Obligations.RemoteMovesWriteSignalAndAreAcknowledged
  refine ⟨?taken, ?invalid, ?guarded, ?waits, ?stripe, ?last, ?several, ?stray⟩
  case taken =>
    intro p m s hwf hm hkind hopen hregion htier hskew hprot hcrc hclean
    have hkept := memories_signalAndAck ((s.dropHead p 2).put m.dstAddr m.data) m
    obtain ⟨hmem, hhost⟩ := Prod.mk.inj hkept
    refine ⟨_, exec_moveWrite_taken hm hkind hopen hregion htier hskew hprot hcrc hclean, rfl, fun k hk => ?_, fun b hb => ?_,
      hhost⟩
    · exact (congrArg (memGet · _) hmem).trans (byteAt_put (s := s.dropHead p 2) hwf _ _ hk)
    · exact (congrArg (memGet · _) hmem).trans (sameOutside_put (s.dropHead p 2) _ _ b hb)
  case invalid => exact fun p m s hm hkind hopen hdst => exec_moveWrite_invalid hm hkind hopen hdst
  case guarded =>
    exact fun p m s hm hkind hopen hregion htier hskew hprot =>
      exec_moveWrite_protected hm hkind hopen hregion htier hskew hprot
  case waits => exact fun p m s hm _ hopen => exec_moveWrite_waits hm hopen
  case stripe => exact fun p m s hm hkind hstripe => exec_writeAck_stripe hm hkind hstripe
  case last =>
    intro p m o s hm hkind hother hmove hlast
    exact (exec_writeAck_move hm hkind hother hmove).trans (congrArg _ (if_pos (by rw [hlast, List.isEmpty_nil])))
  case several =>
    intro p m o s hm hkind hother hmove hmore
    exact (exec_writeAck_move hm hkind hother hmove).trans (congrArg _ (if_neg (by simpa using hmore)))
  case stray => exact fun p m s hm hkind hother hnone => exec_writeAck_stray hm hkind hother hnone

end Sys2Proof.Proofs
end

