-- ==== Sys2Proof/Proofs/IslandParking.lean ====
section
/-! Islands out of limits: their parking, its report, their resumption and their idling (02, R44 to R51; 18, R597). -/

namespace Sys2Proof.Proofs

open Sys2Proof Sys2Proof.Machine Sys2Proof.Laws

/-! ### The report of a parking (R47) -/

/-- A running island is parked for a quantity, logged and counted. -/
abbrev parkLogged (s : State) (i q : Nat) : State :=
  (((s.setIsland i { s.island i with parked := true, cause := 2 ^ q }).sticky q).count Od.ISLAND_PARK_EVENTS 1).setOd
    Od.ISLAND_LAST_PARKED i

/-- A parking for temperature also counts toward the risk index. -/
abbrev parkCounted (s : State) (i q : Nat) : State :=
  if q = 2 then (parkLogged s i q).count riskThermal 1 else parkLogged s i q

theorem park_of_running {s : State} {i : Nat} (q : Nat) (h : (s.island i).parked = false) :
    s.park i q = (parkCounted s i q).capture { cause := 0x0606, island := i, detail := q } :=
  if_neg (by simp [h])

theorem odv_parkCounted (s : State) (i q : Nat) {k : Nat} (hlog : k ≠ Od.STICKY_LOG) (hlast : k ≠ Od.ISLAND_LAST_PARKED) :
    (parkCounted s i q).odv k = s.odv k := by
  have hlogged : (parkLogged s i q).odv k = s.odv k :=
    (odv_setOd_other _ _ _ _ hlast).trans (odv_sticky_other _ q hlog)
  exact ite_keeps (fun t => t.odv k) hlogged hlogged

theorem counted_parkCounted (s : State) (i q : Nat) :
    (parkCounted s i q).counted Od.ISLAND_PARK_EVENTS = s.counted Od.ISLAND_PARK_EVENTS + 1 := by
  have hlogged : (parkLogged s i q).counted Od.ISLAND_PARK_EVENTS = s.counted Od.ISLAND_PARK_EVENTS + 1 := by
    rw [counted_setOd, counted_count_self, counted_sticky _ _ (by decide)]
    rfl
  exact ite_keeps (fun t => t.counted Od.ISLAND_PARK_EVENTS) ((counted_count_other _ _ (by decide)).trans hlogged) hlogged

theorem logged_parkCounted (s : State) (i q : Nat) : Logged q (parkCounted s i q) := by
  have hsticky : Logged q ((s.setIsland i { s.island i with parked := true, cause := 2 ^ q }).sticky q) :=
    bitOf_sticky_self _ q
  have hlogged : Logged q (parkLogged s i q) := (hsticky.count _ _).setOd (by decide) _
  unfold parkCounted
  split
  · exact hlogged.count _ _
  · exact hlogged

/-! ### First-error capture (R541) -/

theorem counted_capture (s : State) (e : Event) (k : Nat) : (s.capture e).counted k = s.counted k := by
  unfold State.capture
  split
  · rfl
  · simp only [counted_setOd]

/-- The first event since the capture was cleared is held. -/
theorem capture_of_empty {s : State} (h : s.odv Od.FE_VALID ≠ 1) (e : Event) : (s.capture e).odv Od.FE_CAUSE = e.cause ∧
    (s.capture e).odv Od.FE_ISLAND = e.island ∧ (s.capture e).odv Od.FE_DETAIL = e.detail := by
  rw [State.capture, if_neg h]
  refine ⟨?cause, ?island, ?detail⟩ <;> simp (disch := decide) only [odv_setOd_other, odv_setOd_self]

/-- A later event changes nothing. -/
theorem capture_of_held {s : State} (h : s.odv Od.FE_VALID = 1) (e : Event) : s.capture e = s := if_pos h

/-- Settles O46: a parking is logged and counted, then offered to first-error capture. -/
theorem parkingIsReported : Obligations.ParkingIsReported := by
  unfold Obligations.ParkingIsReported
  intro i q s hq hrun
  have hvalid : (parkCounted s i q).odv Od.FE_VALID = s.odv Od.FE_VALID := odv_parkCounted s i q (by decide) (by decide)
  rw [park_of_running q hrun]
  refine ⟨(logged_parkCounted s i q).capture _, (counted_capture _ _ _).trans (counted_parkCounted s i q), fun hempty => ?_,
    fun hheld => ?_⟩
  · obtain ⟨hcause, hisland, hdetail⟩ := capture_of_empty (s := parkCounted s i q) (by rwa [hvalid])
      { cause := 0x0606, island := i, detail := q }
    refine ⟨hcause, hisland, ?_⟩
    rw [hdetail]
    exact (bitsOf_eq q 0 16).trans (by omega)
  · rw [capture_of_held (hvalid.trans hheld)]
    exact ⟨odv_parkCounted s i q (by decide) (by decide), odv_parkCounted s i q (by decide) (by decide),
      odv_parkCounted s i q (by decide) (by decide)⟩

/-! ### ISLAND_LIMIT_CHECK (R44, R45) -/

/-- A crossing's clocks lie further apart than 4:1: the island further below its set clock is parked. -/
abbrev clockChecked (s : State) (a b ca cb : Nat) : State :=
  if 4 * Nat.min ca cb < Nat.max ca cb then
    s.park (parkChoice a b (((s.setClock a : Int) - ca) * (s.setClock b : Int))
      (((s.setClock b : Int) - cb) * (s.setClock a : Int))) 0
  else s

/-- Supplies further apart than 150 mV in `t`: the island further from its set point, which `s` gives, is parked. -/
abbrev supplyChecked (s t : State) (a b va vb : Nat) : State :=
  if 150 < absDiff va vb then
    t.park (parkChoice a b (absDiff va (s.setPoint a) : Nat) (absDiff vb (s.setPoint b) : Nat)) 1
  else t

/-- Temperatures further apart than 35 degrees: the hotter island is parked. -/
abbrev heatChecked (t : State) (a b : Nat) (ta tb : Int) : State :=
  if 35 < (ta - tb).natAbs then t.park (parkChoice a b ta tb) 2 else t

section
variable {a b : Nat} {s : State} (ha : islandOk a = true) (hb : islandOk b = true) (hnear : s.neighbours a b = true)
  (hona : s.islandPowered a = true) (honb : s.islandPowered b = true)
include ha hb hnear hona honb

/-- The quantities of a crossing are checked in turn. -/
theorem exec_islandLimitCheck (ca cb va vb : Nat) (ta tb : Int) : exec (.islandLimitCheck a b ca cb va vb ta tb) s =
    .next (heatChecked (supplyChecked s (clockChecked s a b ca cb) a b va vb) a b ta tb) :=
  within_next_of_eq (by rw [ha, hb, Bool.and_self]) (if_neg (by simp [hnear, hona, honb]))

end

theorem parkChoice_first {a b : Nat} {x y : Int} (h : y < x) : parkChoice a b x y = a := if_pos h

theorem parkChoice_second {a b : Nat} {x y : Int} (h : x < y) : parkChoice a b x y = b :=
  (if_neg (not_lt.mpr h.le)).trans (if_pos h)

/-! ### ISLAND_RESUME (R48, R49) -/

/-- How long an island's crossings must have been back within their limits: longer where temperature parked it. -/
abbrev resumeUs (x : Island) : Nat := if bitOf x.cause 2 then 1000 else 50

/-- An island runs again. -/
abbrev islandResumed (s : State) (i : Nat) : State := s.setIsland i { s.island i with parked := false, cause := 0 }

section
variable {i us fast slow sd td : Nat} {s : State} (hi : islandOk i = true) (hparked : (s.island i).parked = true)
  (hlimit : bitOf (s.island i).cause 3 = false)
include hi

theorem exec_islandResume_early (h : us < resumeUs (s.island i) ∨ 38 * slow < 10 * fast ∨ 130 < sd ∨ 30 < td) :
    exec (.islandResume i us fast slow sd td) s = .next s := by
  refine within_next_of_eq hi (if_pos ?_)
  rcases h with h | h | h | h <;> simp [backWithin, h]

include hparked hlimit

theorem exec_islandResume_back (hback : backWithin fast slow sd td = true) (hlong : resumeUs (s.island i) ≤ us) :
    exec (.islandResume i us fast slow sd td) s =
      .next ((dieOfIsland i).elim (islandResumed s i) fun d => (islandResumed s i).jctSettle d) := by
  refine within_next_of_eq hi ((if_neg (by simp [hparked, hlimit, hback, hlong])).trans ?_)
  dsimp only
  cases dieOfIsland i <;> dsimp only [Option.elim]

end

/-! ### ISLAND_PARK_LIMIT (R50) -/

/-- What works on an island that stays parked has faulted. -/
abbrev parkFaulted (s : State) (i : Nat) : State :=
  (s.workOnIsland i).foldl (fun (s : State) p => s.faultOwner p 0 { cause := 0x0601, island := i }) s

/-- The island stays parked until the next warm reset. -/
abbrev parkedBeyond (s : State) (i : Nat) : State :=
  (parkFaulted s i).setIsland i { s.island i with cause := (s.island i).cause ||| beyondLimit }

section
variable {i ms : Nat} {s : State} (hi : islandOk i = true)
include hi

theorem exec_islandParkLimit_within (h : ms ≤ s.odv Od.ISLAND_PARK_LIMIT) : exec (.islandParkLimit i ms) s = .next s :=
  within_next_of_eq hi (if_pos (by simp [h]))

variable (hparked : (s.island i).parked = true) (hlimit : bitOf (s.island i).cause 3 = false)
  (hlong : s.odv Od.ISLAND_PARK_LIMIT < ms)
include hparked hlimit hlong

theorem exec_islandParkLimit_core (hcore : islCode i = 0) : exec (.islandParkLimit i ms) s = .next
    (((parkedBeyond s i).setCore (islInst i) { (parkedBeyond s i).core (islInst i) with quarantined := true }).record
      (.coreSlot (islInst i))) :=
  within_next_of_eq hi ((if_neg (by simp [hparked, hlimit, hlong])).trans (if_pos hcore))

theorem exec_islandParkLimit_other (hother : islCode i ≠ 0) :
    exec (.islandParkLimit i ms) s = .next (parkedBeyond s i) :=
  within_next_of_eq hi ((if_neg (by simp [hparked, hlimit, hlong])).trans (if_neg hother))

end

/-! ### IDLE_ENTRY and IDLE_EXIT (R597) -/

/-- A core island with a stream that is ready has queued work. -/
abbrev hasWork (s : State) (i : Nat) : Bool :=
  islCode i = 0 && (s.core (islInst i)).streams.any fun e => e.2.state = 1

section
variable {i : Nat} {s : State} (hi : islandOk i = true)
include hi

theorem exec_idleEntry {ns : Nat} : exec (.idleEntry i ns) s = .next
    (if s.islandPowered i && !hasWork s i && 1000 ≤ ns then s.setIsland i { s.island i with idle := true } else s) :=
  within_next_of_eq hi rfl

theorem exec_idleExit : exec (.idleExit i) s = .next (s.setIsland i { s.island i with idle := false }) :=
  within_next_of_eq hi rfl

end

theorem hasWork_of_noneReady {s : State} {i : Nat}
    (h : islCode i ≠ 0 ∨ (s.core (islInst i)).streams.all (fun e => e.2.state != 1) = true) : hasWork s i = false := by
  rcases h with h | h
  · simp [hasWork, h]
  · simp only [List.all_eq_true, bne_iff_ne] at h
    simp only [hasWork, Bool.and_eq_false_iff, List.any_eq_false, decide_eq_true_eq]
    exact .inr h

/-- Settles O47, from the outcome of each row on islands. -/
theorem islandsParkResumeAndIdle : Obligations.IslandsParkResumeAndIdle := by
  unfold Obligations.IslandsParkResumeAndIdle
  refine ⟨?inLimits, ?heat, ?supply, ?clock, ?resumes, ?resumesDie, ?early, ?limitOther, ?limitCore, ?inTime, ?idles, ?busy,
    ?wakes⟩
  case inLimits =>
    intro a b ca cb va vb ta tb s ha hb hnear hona honb hclock hsupply hheat
    rw [exec_islandLimitCheck ha hb hnear hona honb, clockChecked, if_neg (not_lt.mpr hclock), supplyChecked,
      if_neg (not_lt.mpr hsupply), heatChecked, if_neg (not_lt.mpr hheat)]
  case heat =>
    intro a b ca cb va vb ta tb s ha hb hnear hona honb hclock hsupply hheat
    refine ⟨?_, parkChoice_first, parkChoice_second⟩
    rw [exec_islandLimitCheck ha hb hnear hona honb, clockChecked, if_neg (not_lt.mpr hclock), supplyChecked,
      if_neg (not_lt.mpr hsupply), heatChecked, if_pos hheat]
  case supply =>
    intro a b ca cb va vb ta tb s ha hb hnear hona honb hclock hsupply hheat
    rw [exec_islandLimitCheck ha hb hnear hona honb, clockChecked, if_neg (not_lt.mpr hclock), supplyChecked,
      if_pos hsupply, heatChecked, if_neg (not_lt.mpr hheat)]
  case clock =>
    intro a b ca cb va vb ta tb s ha hb hnear hona honb hclock hsupply hheat
    rw [exec_islandLimitCheck ha hb hnear hona honb, clockChecked, if_pos hclock, supplyChecked,
      if_neg (not_lt.mpr hsupply), heatChecked, if_neg (not_lt.mpr hheat)]
  case resumes =>
    intro i us fast slow sd td s hi hparked hlimit hback hlong hdie
    rw [exec_islandResume_back hi hparked hlimit hback hlong, hdie, Option.elim_none]
  case resumesDie =>
    intro i us fast slow sd td d s hi hparked hlimit hback hlong hdie
    rw [exec_islandResume_back hi hparked hlimit hback hlong, hdie, Option.elim_some]
  case early => exact fun i us fast slow sd td s hi _ _ h => exec_islandResume_early hi h
  case limitOther =>
    exact fun i ms s hi hparked hlimit hlong _ hcore => exec_islandParkLimit_other hi hparked hlimit hlong hcore
  case limitCore =>
    rintro i ms s _ hi hparked hlimit hlong hcore rfl
    exact exec_islandParkLimit_core hi hparked hlimit hlong hcore
  case inTime => exact fun i ms s hi h => exec_islandParkLimit_within hi h
  case idles =>
    intro i ns s hi hon hlong hready
    exact (exec_idleEntry hi).trans (congrArg _ (if_pos (by simp [hon, hlong, hasWork_of_noneReady hready])))
  case busy =>
    intro i ns s hi h
    refine (exec_idleEntry hi).trans (congrArg _ (if_neg ?_))
    rcases h with h | h | ⟨hcore, hready⟩
    · simp [h]
    · simp [h]
    · have hwork : hasWork s i = true := by rw [hasWork, decide_eq_true hcore, hready, Bool.and_self]
      simp [hwork]
  case wakes => exact fun i s hi => exec_idleExit hi

end Sys2Proof.Proofs
end

