-- ==== Sys2Proof/Proofs/RepairFrame.lean ====
section
/-! SUPPORT. What the Depot's repairs leave alone, whatever one looks at (16), and device memory where nothing is to be
retired (R287). -/

namespace Sys2Proof.Proofs

open Sys2Proof Sys2Proof.Machine Sys2Proof.Laws

/-- A view of the state that shows nothing which the Depot writes: entries, counts, interrupts, cores, its own records, and
the memory that a retirement loses. -/
structure RepairBlind {β : Type} (view : State → β) : Prop where
  entries : ∀ s x, view { s with od := x } = view s
  counts : ∀ s x, view { s with stats := x } = view s
  ports : ∀ s x, view { s with ports := x } = view s
  outputs : ∀ s x, view { s with hostOut := x } = view s
  cores : ∀ s x, view { s with cores := x } = view s
  records : ∀ s x y z, view { s with depot := x, mem := y, eccBad := z } = view s

namespace RepairBlind

variable {β : Type} {view : State → β} (h : RepairBlind view) (s : State)
include h

theorem setOd (k v : Nat) : view (s.setOd k v) = view s := h.entries s _

theorem setCore (c : Nat) (x : CoreState) : view (s.setCore c x) = view s := h.cores s _

theorem depot (x : Depot) : view { s with depot := x } = view s := h.records s x s.mem s.eccBad

theorem raise (p v : Nat) : view (s.raise p v) = view s := by
  obtain hr | ⟨_, hr⟩ | hr := raise_cases s p v <;> rw [hr]
  · exact h.ports s _
  · exact (h.counts _ _).trans (h.outputs s _)

theorem sticky (n : Nat) : view (s.sticky n) = view s := by
  obtain hs | hs := sticky_cases s n
  · rw [hs]
  · rw [hs, h.raise, h.raise, h.setOd]

/-! ### Recording -/

theorem record (r : Repair) : view (s.record r) = view s := by
  have hlisted : view ({ s with depot := { s.depot with pending := s.depot.pending ++ [r] } }.count riskRepairs 1) = view s :=
    (h.counts _ _).trans (h.depot s _)
  refine ite_keeps view rfl ?_
  cases r <;> exact (h.setOd _ _ _).trans hlisted

theorem recordHbm (st ch row : Nat) : view (s.recordHbm st ch row) = view s :=
  ite_keeps view ((h.record _ _).trans (h.record _ _)) (h.record _ _)

theorem recordCorrected : view s.recordCorrected = view s := by
  refine foldl_keeps view (fun s e => ?_) _ s
  split
  · exact ite_keeps view (h.recordHbm _ _ _ _) rfl
  · exact ite_keeps view (h.record _ _) rfl
  · rfl

/-! ### Substitution -/

theorem freshCore (c : Nat) : view (s.freshCore c) = view s := (h.depot _ _).trans (h.setCore s _ _)

theorem substituteCore {t : State} {c : Nat} (hsub : s.substituteCore c = some t) : view t = view s := by
  unfold State.substituteCore at hsub
  dsimp only at hsub
  split at hsub
  · rw [← Option.some.inj hsub, h.freshCore, h.setOd, h.setOd]
  · cases hsub

theorem setDark (l : List (Nat × Bool)) : view (s.setDark l) = view s :=
  (h.setOd _ _ _).trans (foldl_keeps view (fun s _ => h.setOd s _ _) _ s)

theorem substituteDie {t : State} {d : Nat} (hsub : s.substituteDie d = some t) : view t = view s := by
  unfold State.substituteDie at hsub
  split at hsub
  · cases hsub
  · rw [← Option.some.inj hsub, h.depot, foldl_keeps view (fun s c => h.freshCore s _), h.setOd, h.setOd]
    have hdark : ∀ k v l, view ((s.setOd k v).setDark l) = view s := fun _ _ _ => (h.setDark _ _).trans (h.setOd s _ _)
    exact ite_keeps view (hdark _ _ _) ((h.setOd _ _ _).trans (hdark _ _ _))

theorem exhausted (r : Repair) (cores dies : List Nat) : view (s.exhausted r cores dies) = view s := by
  unfold State.exhausted
  rw [h.depot, foldl_keeps view (fun s c => h.setCore s _ _), h.setOd, h.sticky, h.setOd]

theorem needDie (d : Nat) : view (s.needDie d) = view s := by
  unfold State.needDie
  split
  · next hsub => exact h.substituteDie s hsub
  · exact h.exhausted s _ _ _

theorem needCore (c : Nat) : view (s.needCore c) = view s := by
  unfold State.needCore
  split
  · next hsub => exact h.substituteCore s hsub
  · split
    · next hsub => exact h.substituteDie s hsub
    · exact h.exhausted s _ _ _

/-! ### Repairs brought into use -/

theorem setSpares (c a rows cols : Nat) : view (s.setSpares c a rows cols) = view s := by
  refine (h.setCore _ _ _).trans ?_
  have hrows : ∀ (first : Bool) k n, view (if first then s.setOd k n else s) = view s := fun _ _ _ =>
    ite_keeps view (h.setOd s _ _) rfl
  exact ite_keeps view ((h.setOd _ _ _).trans (hrows _ _ _)) (hrows _ _ _)

theorem hbmExhausted : view s.hbmExhausted = view s := (h.depot _ _).trans ((h.sticky _ _).trans (h.setOd s _ _))

theorem applyRepair (r : Repair) : view (s.applyRepair r) = view s := by
  cases r with
  | hbmRow | hbmChannel => exact ite_keeps view ((h.setOd _ _ _).trans (h.depot s _)) (h.hbmExhausted s)
  | sramRow => exact ite_keeps view (h.depot s _) (ite_keeps view (h.needCore s _) (h.needDie s _))
  | arrayRow | arrayCol => exact (h.setSpares _ _ _ _ _).trans (h.depot s _)
  | coreSlot c => exact h.needCore s c
  | matrixDie d => exact h.needDie s d
  | router => exact h.depot s _

theorem applyWear : view s.applyWear = view s := by
  refine ite_keeps view rfl (foldl_keeps view (fun s e => ite_keeps view rfl ?_) _ s)
  split
  · next hsub =>
    split at hsub
    · exact h.substituteCore s hsub
    · exact h.substituteDie s hsub
  · rfl

theorem repaired : view (repaired s) = view s := by
  rw [h.applyWear, foldl_keeps view fun s k => foldl_keeps view h.applyRepair _ s, h.setOd, h.setOd, h.setOd, h.depot]
  exact (h.cores _ _).trans (h.recordCorrected s)

theorem depotActs : view s.depotActs = view s := (h.records _ _ _ _).trans (h.repaired s)

end RepairBlind

/-! ### Device memory where nothing is retired (R287) -/

/-- HBM rows and channels that retirement has brought into use. -/
def hbmRetired (s : State) : Nat := s.depot.applied.countP Repair.isHbm

/-- Forgetting repairs of other kinds leaves the retirements of HBM as they are. -/
theorem countP_isHbm_filter {p : Repair → Bool} (hp : ∀ r, r.isHbm = true → p r = true) (l : List Repair) :
    (l.filter p).countP Repair.isHbm = l.countP Repair.isHbm := by
  rw [List.countP_filter]
  refine List.countP_congr fun r _ => ?_
  simpa using hp r

theorem hbmRetired_freshCore (s : State) (c : Nat) : hbmRetired (s.freshCore c) = hbmRetired s := by
  refine countP_isHbm_filter (fun r hr => ?_) s.depot.applied
  cases r <;> simp_all [Repair.isHbm]

theorem hbmRetired_substituteCore {s t : State} {c : Nat} (h : s.substituteCore c = some t) : hbmRetired t = hbmRetired s := by
  unfold State.substituteCore at h
  dsimp only at h
  split at h
  · rw [← Option.some.inj h]
    exact hbmRetired_freshCore _ c
  · cases h

theorem hbmRetired_setOd (s : State) (k v : Nat) : hbmRetired (s.setOd k v) = hbmRetired s := rfl

theorem hbmRetired_setDark (s : State) (l : List (Nat × Bool)) : hbmRetired (s.setDark l) = hbmRetired s :=
  (hbmRetired_setOd _ _ _).trans (foldl_keeps hbmRetired (fun s _ => hbmRetired_setOd s _ _) _ s)

theorem hbmRetired_substituteDie {s t : State} {d : Nat} (h : s.substituteDie d = some t) : hbmRetired t = hbmRetired s := by
  unfold State.substituteDie at h
  split at h
  · cases h
  · rw [← Option.some.inj h, hbmRetired, countP_isHbm_filter (fun r hr => ?_), ← hbmRetired,
      foldl_keeps hbmRetired (fun s c => hbmRetired_freshCore s _), hbmRetired_setOd, hbmRetired_setOd]
    · exact ite_keeps hbmRetired (v := hbmRetired s) (hbmRetired_setDark _ _) (hbmRetired_setDark _ _)
    · cases r <;> simp_all [Repair.isHbm]

theorem hbmRetired_applyWear (s : State) : hbmRetired s.applyWear = hbmRetired s := by
  refine ite_keeps hbmRetired rfl (foldl_keeps hbmRetired (fun s e => ite_keeps hbmRetired rfl ?_) _ s)
  split
  · next hsub =>
    split at hsub
    · exact hbmRetired_substituteCore hsub
    · exact hbmRetired_substituteDie hsub
  · rfl

/-- Where no retirement is recorded or due, the Depot leaves device memory as it is. -/
theorem depotActs_mem_of_idle {s : State} (hpending : s.depot.pending = []) (hcorrected : s.depot.corrected = []) :
    s.depotActs.mem = s.mem := by
  have hrecord : s.recordCorrected = s := by rw [State.recordCorrected, hcorrected, List.foldl_nil]
  have hretired : hbmRetired (repaired s) = hbmRetired s.recordCorrected := by
    rw [hbmRetired_applyWear]
    simp only [hrecord, hpending, List.filter_nil, List.foldl_nil]
    exact foldl_keeps hbmRetired (fun _ _ => rfl) _ _
  have hkept : (hbmRetired (repaired s) != hbmRetired s.recordCorrected) = false := bne_eq_false_iff_eq.mpr hretired
  exact (if_neg (ne_true_of_eq_false hkept)).trans (congrArg Prod.fst (memAndPower_repaired s))

end Sys2Proof.Proofs
end

