-- ==== Sys2Proof/Proofs/PackageResets.lean ====
section
/-! Package resets and what they leave (02, R36 to R41; 18, R604 to R608). -/

namespace Sys2Proof.Proofs

open Sys2Proof Sys2Proof.Machine Sys2Proof.Laws

/-! ### The state that every reset leaves (R576, R608) -/

/-- The package is not Ready, nothing is armed, and no change is staged. -/
structure AtReset (s : State) : Prop where
  notReady : s.power.ready = false
  noPlats : s.plats = []
  noJob : s.job.active = false
  notStaged : s.security.staged = none

/-- The supplies, what is armed, and the staged change. -/
def controls (s : State) : Power × Tab Platform × Job × Security := (s.power, s.plats, s.job, s.security)

theorem repairBlind_controls : RepairBlind controls where
  entries _ _ := rfl
  counts _ _ := rfl
  ports _ _ := rfl
  outputs _ _ := rfl
  cores _ _ := rfl
  records _ _ _ _ := rfl

namespace AtReset

variable {s : State} (h : AtReset s)
include h

theorem of_controls {t : State} (ht : controls t = controls s) : AtReset t := by
  simp only [controls, Prod.mk.injEq] at ht
  obtain ⟨hpower, hplats, hjob, hsecurity⟩ := ht
  exact ⟨hpower ▸ h.notReady, hplats ▸ h.noPlats, hjob ▸ h.noJob, hsecurity ▸ h.notStaged⟩

theorem sticky (n : Nat) : AtReset (s.sticky n) := h.of_controls (repairBlind_controls.sticky s n)

theorem depotActs : AtReset s.depotActs := h.of_controls (repairBlind_controls.depotActs s)

theorem setOd (k v : Nat) : AtReset (s.setOd k v) := ⟨h.notReady, h.noPlats, h.noJob, h.notStaged⟩

theorem dropSecurity : AtReset s.dropSecurity := ⟨h.notReady, h.noPlats, h.noJob, rfl⟩

theorem noControlDie : AtReset s.noControlDie := ⟨rfl, rfl, rfl, h.notStaged⟩

theorem bootDie : AtReset s.bootDie := by
  unfold State.bootDie
  split
  · exact ⟨rfl, rfl, rfl, h.notStaged⟩
  · exact ⟨h.notReady, h.noPlats, h.noJob, h.notStaged⟩

theorem handOver (d : Nat) : AtReset (s.handOver d) := by
  have hleft : AtReset { (s.keepOd fun _ c => c != .warm).setOd Od.ACTIVE_CONTROL_DIE d with points := 0 } :=
    ⟨h.notReady, h.noPlats, h.noJob, h.notStaged⟩
  unfold State.handOver
  split
  · exact h.noControlDie
  · exact (hleft.sticky 5).dropSecurity.bootDie

theorem selfTest : AtReset s.selfTest := by
  have hstandby : AtReset { s with power := { s.power with standbyOn := true } } :=
    ⟨h.notReady, h.noPlats, h.noJob, h.notStaged⟩
  unfold State.selfTest
  dsimp only
  split
  · exact hstandby.noControlDie
  split
  · exact ⟨h.notReady, h.noPlats, h.noJob, h.notStaged⟩
  split
  · exact hstandby.handOver _
  · exact hstandby.bootDie

theorem mainUpStart : AtReset s.mainUpStart := ⟨h.notReady, h.noPlats, h.noJob, h.notStaged⟩

theorem autoRun : AtReset s.autoRun := by
  unfold State.autoRun
  split
  · exact h.mainUpStart
  · exact h

theorem reloadProtection : AtReset s.reloadProtection := by
  have hreloaded : AtReset { s with od := s.od.filter fun e => e.1 / 0x100000 != 8 } :=
    ⟨h.notReady, h.noPlats, h.noJob, h.notStaged⟩
  unfold State.reloadProtection
  split
  · exact h
  · exact (hreloaded.setOd _ _).sticky 4

end AtReset

theorem atReset_warmReset (s : State) : AtReset s.warmReset := by
  unfold State.warmReset
  exact (AtReset.depotActs ⟨rfl, rfl, rfl, rfl⟩).selfTest

theorem atReset_writtenWarm (s : State) : AtReset s.writtenWarm := by
  unfold State.writtenWarm
  dsimp only
  split
  · exact (atReset_warmReset s).mainUpStart
  · exact atReset_warmReset s

theorem atReset_coldState (s : State) : AtReset s.coldState := by
  unfold State.coldState
  exact AtReset.depotActs ⟨rfl, rfl, rfl, rfl⟩

theorem atReset_coldReset (s : State) : AtReset s.coldReset :=
  (atReset_coldState s).reloadProtection.selfTest.autoRun

/-! ### Device memory at a reset (R608) -/

theorem mainDown_mem (s : State) : s.mainDown.mem = [] := List.filter_eq_nil_iff.mpr fun _ _ => Bool.false_ne_true

/-- Start-up keeps device memory, or leaves the main rails down and memory empty. -/
def MemKeptOrLost (s t : State) : Prop := t.mem = s.mem ∨ (t.power.mainEn = false ∧ t.mem = [])

theorem memKeptOrLost_noControlDie (s : State) : MemKeptOrLost s s.noControlDie :=
  .inr ⟨rfl, mainDown_mem (s.setOd Od.ACTIVE_CONTROL_DIE 0xFF)⟩

theorem memKeptOrLost_bootDie (s : State) : MemKeptOrLost s s.bootDie := by
  unfold State.bootDie
  split
  · exact .inr ⟨rfl, mainDown_mem s⟩
  · exact .inl rfl

theorem memKeptOrLost_handOver (s : State) (d : Nat) : MemKeptOrLost s (s.handOver d) := by
  unfold State.handOver
  split
  · exact memKeptOrLost_noControlDie s
  · refine (memKeptOrLost_bootDie _).imp_left fun hkept => hkept.trans ?_
    exact (sticky_mem _ 5).trans rfl

theorem memKeptOrLost_selfTest (s : State) : MemKeptOrLost s s.selfTest := by
  unfold State.selfTest
  dsimp only
  split
  · exact memKeptOrLost_noControlDie { s with power := { s.power with standbyOn := true } }
  split
  · exact .inl rfl
  split
  · exact memKeptOrLost_handOver { s with power := { s.power with standbyOn := true } } _
  · exact memKeptOrLost_bootDie { s with power := { s.power with standbyOn := true } }

theorem reloadProtection_mem (s : State) : s.reloadProtection.mem = s.mem :=
  ite_keeps State.mem rfl (sticky_mem _ 4)

theorem coldReset_mem (s : State) : s.coldReset.mem = [] := by
  have hstart : s.coldState.reloadProtection.mem = [] := (reloadProtection_mem _).trans (coldState_unpowered s).2
  have htested : s.coldState.reloadProtection.selfTest.mem = [] :=
    (memKeptOrLost_selfTest _).elim (fun hkept => hkept.trans hstart) And.right
  exact ite_keeps State.mem htested htested

/-- A memory is a sparse table of its bytes. -/
theorem memGet_eq_tabGet (m : List Host.Cell) (a : Nat) : memGet m a = tabGet unwritten m a := by
  induction m with
  | nil => rfl
  | cons e m ih => simp only [memGet, tabGet, ih]

/-- Where nothing is retired and the main rails stay up, a warm reset keeps HBM and DDR5. -/
theorem warmReset_byteAt {s : State} (hpending : s.depot.pending = []) (hcorrected : s.depot.corrected = [])
    (hup : s.warmReset.power.mainEn = true) {a : Nat} (ha : a < 2 ^ 57) : s.warmReset.byteAt a = s.byteAt a := by
  have hregion : decide (a / 2 ^ 56 < 2) = true := decide_eq_true (by omega)
  have hkept : s.warmReset.mem = s.mem.filter fun c => decide (c.1 / 2 ^ 56 < 2) :=
    ((memKeptOrLost_selfTest _).resolve_right fun hlost => Bool.false_ne_true (hlost.1.symm.trans hup)).trans
      (depotActs_mem_of_idle hpending hcorrected)
  rw [State.byteAt, hkept, memGet_eq_tabGet, tabGet_filter_of_kept unwritten (p := fun a => decide (a / 2 ^ 56 < 2)) hregion,
    ← memGet_eq_tabGet, State.byteAt]

/-! ### The rows that reset the package -/

theorem fwRuns_of_managed {s : State} (hm : s.Managed) : s.fwRuns = true := by simp [State.fwRuns, hm.1, hm.2]

/-- Both PERST# are asserted. -/
abbrev perstAsserted (s : State) : State :=
  (s.setPort 0 { s.port 0 with perst := true }).setPort 1 { s.port 1 with perst := true }

section
variable (dies : DieReport) {s : State}

theorem exec_packageWarmReset (hup : s.power.mainEn = true) : exec (.packageWarmReset dies) s = .next
    { perstAsserted s with power := { s.power with warm := true, report := dies } }.warmReset :=
  within_next_of_eq (o := "") rfl (if_neg (by simp [hup]))

theorem exec_packageWarmReset_standby (hdown : s.power.mainEn = false) :
    exec (.packageWarmReset dies) s = .next (perstAsserted s) :=
  within_next_of_eq (o := "") rfl (if_pos (by simp [hdown]))

theorem exec_vinPgoodDrop_short {ns : Nat} (hshort : ns < 1000) : exec (.vinPgoodDrop ns dies) s = .next s :=
  within_next_of_eq (o := "") rfl (if_neg (by simp [hshort]))

theorem exec_controlWatchdog_early {ms : Nat} (hearly : ms < 500) : exec (.controlWatchdog ms dies) s = .next s :=
  within_next_of_eq (o := "") rfl (if_pos hearly)

section
variable (hm : s.Managed)
include hm

theorem exec_packageResetWarm : exec (.packageResetWarm dies) s = .next (s.withReport dies).writtenWarm :=
  within_next_of_eq (o := "") rfl ((if_pos (fwRuns_of_managed hm)).trans rfl)

theorem exec_packageResetCold : exec (.packageResetCold dies) s = .next (s.withReport dies).coldReset :=
  within_next_of_eq (o := "") rfl ((if_pos (fwRuns_of_managed hm)).trans rfl)

end

variable (hup : s.power.mainEn = true) (hgood : s.power.vinGood = true)
include hup hgood

theorem exec_vinPgoodDrop_long {ns : Nat} (hlong : 1000 ≤ ns) :
    exec (.vinPgoodDrop ns dies) s = .next ((s.withReport dies).sticky 37).coldReset :=
  within_next_of_eq (o := "") rfl (if_pos (by simp [hup, hgood, hlong]))

variable (hm : s.Managed)
include hm

/-- A control core that fails faults everything running and warm-resets the package. -/
theorem controlFails_resets (bit cause : Nat) : s.controlFails dies bit cause =
    (((s.withReport dies).sticky bit).faultAll { cause := cause, island := 0xB000 }).warmReset :=
  if_pos (by simp [fwRuns_of_managed hm, hup, hgood])

theorem exec_controlWatchdog_late {ms : Nat} (hlate : 500 ≤ ms) : exec (.controlWatchdog ms dies) s = .next
    (((s.withReport dies).sticky 3).faultAll { cause := 0x0602, island := 0xB000 }).warmReset :=
  within_next_of_eq (o := "") rfl ((if_neg (not_lt.mpr hlate)).trans (controlFails_resets dies hup hgood hm 3 _))

theorem exec_controlMemory : exec (.controlMemory dies) s = .next
    (((s.withReport dies).sticky 4).faultAll { cause := 0x0603, island := 0xB000 }).warmReset :=
  within_next_of_eq (o := "") rfl (controlFails_resets dies hup hgood hm 4 _)

end

/-- Settles O53: each row is a warm or a cold reset, and `AtReset` says what both leave. -/
theorem resetsKeepWhatTheySay : Obligations.ResetsKeepWhatTheySay := by
  unfold Obligations.ResetsKeepWhatTheySay
  refine ⟨?perst, ?perstStandby, ?written, ?memory, ?cold, ?vinLong, ?vinShort, ?watchdog, ?watchdogEarly, ?controlMemory⟩
  case perst =>
    rintro dies s _ hup rfl
    have hreset := atReset_warmReset { perstAsserted s with power := { s.power with warm := true, report := dies } }
    exact ⟨_, exec_packageWarmReset dies hup, rfl, hreset.notReady, hreset.noPlats, hreset.notStaged⟩
  case perstStandby => exact fun dies s hdown => exec_packageWarmReset_standby dies hdown
  case written =>
    intro dies s hm _
    have hreset := atReset_writtenWarm (s.withReport dies)
    exact ⟨_, exec_packageResetWarm dies hm, rfl, hreset.notReady, hreset.noPlats, hreset.notStaged⟩
  case memory => exact fun s hpending hcorrected hup a ha => warmReset_byteAt hpending hcorrected hup ha
  case cold =>
    intro dies s hm
    have hreset := atReset_coldReset (s.withReport dies)
    exact ⟨_, exec_packageResetCold dies hm, rfl, hreset.notReady, coldReset_mem _, hreset.noPlats, hreset.notStaged⟩
  case vinLong =>
    intro ns dies s hup hgood hlong
    have hreset := atReset_coldReset ((s.withReport dies).sticky 37)
    exact ⟨_, exec_vinPgoodDrop_long dies hup hgood hlong, rfl, hreset.notReady, coldReset_mem _, hreset.noPlats,
      hreset.notStaged⟩
  case vinShort => exact fun ns dies s hshort => exec_vinPgoodDrop_short dies hshort
  case watchdog =>
    intro ms dies s hm hup hgood hlate
    have hreset := atReset_warmReset (((s.withReport dies).sticky 3).faultAll { cause := 0x0602, island := 0xB000 })
    exact ⟨_, exec_controlWatchdog_late dies hup hgood hm hlate, rfl, hreset.notReady, hreset.noPlats, hreset.noJob⟩
  case watchdogEarly => exact fun ms dies s hearly => exec_controlWatchdog_early dies hearly
  case controlMemory =>
    intro dies s hm hup hgood
    have hreset := atReset_warmReset (((s.withReport dies).sticky 4).faultAll { cause := 0x0603, island := 0xB000 })
    exact ⟨_, exec_controlMemory dies hup hgood hm, rfl, hreset.notReady, hreset.noPlats, hreset.noJob⟩

end Sys2Proof.Proofs
end

