-- ==== Sys2Proof/Proofs/StartUp.lean ====
section
/-! Start-up of the package and the power states that it is asked for (02, R38 to R40; 18, R590, R598, R600 to R604). -/

namespace Sys2Proof.Proofs

open Sys2Proof Sys2Proof.Machine Sys2Proof.Laws

/-! ### VAUX and VIN_PGOOD (R600, R602) -/

theorem exec_vauxRise {mv : Nat} {s : State} (dies : DieReport) (hoff : s.power.vaux = false) (hhigh : 3150 < mv) :
    exec (.vauxRise mv dies) s = .next { s with power := { s.power with vaux := true, report := dies } }.coldReset :=
  within_next_of_eq (o := "") rfl (if_neg (by simp [hoff, hhigh]))

theorem exec_vauxRise_ignored {mv : Nat} {s : State} (dies : DieReport) (h : s.power.vaux = true ∨ mv ≤ 3150) :
    exec (.vauxRise mv dies) s = .next s :=
  within_next_of_eq (o := "") rfl (if_pos (by simpa using h))

theorem exec_vinPgoodAssert {vin vddq vio : Nat} {s : State} (hup : s.power.mainEn = true)
    (hwaits : s.power.vinGood = false) (hvin : 5700 ≤ vin) (hvddq : 1070 ≤ vddq) (hvio : 1740 ≤ vio) :
    exec (.vinPgoodAssert vin vddq vio) s = .next { s with power := { s.power with vinGood := true } } :=
  within_next_of_eq (o := "") rfl ((if_neg (by simp [hup, hwaits])).trans (if_neg (by simp [hvin, hvddq, hvio])))

/-! ### Control dies (R38 to R40) -/

section
variable {ms : Nat} {s : State} (hwaits : s.power.awaiting = true) (hlate : 2000 ≤ ms)
include hwaits hlate

theorem exec_controlDieReportTimeout_noneActive (hnone : s.odv Od.ACTIVE_CONTROL_DIE = 0xFF) :
    exec (.controlDieReportTimeout ms) s = .next s.fallBack :=
  within_next_of_eq (o := "") rfl ((if_neg (by simp [hwaits, hlate])).trans (if_pos hnone))

theorem exec_controlDieReportTimeout_active (hactive : s.odv Od.ACTIVE_CONTROL_DIE ≠ 0xFF) :
    exec (.controlDieReportTimeout ms) s = .next (s.handOver (1 - s.odv Od.ACTIVE_CONTROL_DIE)).autoRun :=
  within_next_of_eq (o := "") rfl ((if_neg (by simp [hwaits, hlate])).trans (if_neg hactive))

end

/-- An entry that is not volatile outlives the main rails. -/
theorem odv_mainDown {k : Nat} (hk : keepOf k ≠ .volatile) (s : State) : s.mainDown.odv k = s.odv k :=
  (odv_of_od_filter (t := s.mainDown) (p := fun k => keepOf k != .volatile || Machine.latched k || islandKeys.contains k)
    rfl k).trans (if_pos (by simp [hk]))

/-- Firmware that does not run asserts nothing. -/
theorem autoRun_of_unbooted {s : State} (h : s.power.boot ≠ 1) : s.autoRun = s := if_neg (by simp [h])

theorem noControlDie_unbooted (s : State) : s.noControlDie.power.boot ≠ 1 := by
  show (if s.power.report.mute.contains 0 then 0 else 2) ≠ 1
  split <;> decide

theorem noControlDie_activeDie (s : State) : s.noControlDie.odv Od.ACTIVE_CONTROL_DIE = 0xFF :=
  (odv_mainDown (by decide +kernel) (s.setOd Od.ACTIVE_CONTROL_DIE 0xFF)).trans (odv_setOd_self _ _ _)

/-- Where the other die is unfit, none becomes active, and the main rails stay down. -/
theorem handOver_autoRun_of_unfit {s : State} {d : Nat} (h : s.controlUnfit d = true) :
    (s.handOver d).autoRun = s.noControlDie :=
  (congrArg State.autoRun (if_pos h)).trans (autoRun_of_unbooted (noControlDie_unbooted s))

/-! ### PACKAGE_READY (R503, R603) -/

/-- Retry status ends on a port, which signals it where its link is up. -/
abbrev retryEnded (s : State) (q : Nat) : State :=
  if (s.port q).linkUp then (s.setPort q { s.port q with retry := false }).emit (.drs q)
  else s.setPort q { s.port q with retry := false }

/-- Ending retry status changes its port and sends a message, and nothing else. -/
theorem retryEnded_keeps {β : Type} (view : State → β) (hport : ∀ s p x, view (State.setPort s p x) = view s)
    (hemit : ∀ s o, view (State.emit s o) = view s) (s : State) (q : Nat) : view (retryEnded s q) = view s :=
  ite_keeps view ((hemit _ _).trans (hport _ _ _)) (hport _ _ _)

theorem retriesEnded_keeps {β : Type} (view : State → β) (hport : ∀ s p x, view (State.setPort s p x) = view s)
    (hemit : ∀ s o, view (State.emit s o) = view s) (s : State) : view (retryEnded (retryEnded s 0) 1) = view s :=
  (retryEnded_keeps view hport hemit _ 1).trans (retryEnded_keeps view hport hemit s 0)

theorem retryEnded_self (s : State) (q : Nat) : ((retryEnded s q).port q).retry = false := by
  have hended : ((s.setPort q { s.port q with retry := false }).port q).retry = false :=
    congrArg HostPort.retry (port_setPort_self s q _)
  exact ite_keeps (fun t => (t.port q).retry) hended hended

theorem retryEnded_other (s : State) {p q : Nat} (h : p ≠ q) : (retryEnded s q).port p = s.port p :=
  ite_keeps (fun t => t.port p) (port_setPort_other s q p _ h) (port_setPort_other s q p _ h)

/-- Training takes over the modules that the controllers found. -/
theorem trainDdr5_dimms (s : State) (ds : List Dimm) : (s.trainDdr5 ds).power.dimms = ds := by
  unfold State.trainDdr5
  dsimp only
  split <;> rfl

theorem trainDdr5_tierState (s : State) (ds : List Dimm) : (s.trainDdr5 ds).odv Od.DDR5_TIER_STATE = tierOf ds := by
  unfold State.trainDdr5
  dsimp only
  split
  · rw [odv_setOd_other _ _ _ _ (by decide), odv_setOd_other _ _ _ _ (by decide), odv_setOd_self]
  · rw [odv_setOd_self]

/-- Recording a repair writes the counts of what is recorded, and no other entry. -/
theorem odv_record (s : State) (r : Repair) {k : Nat} (hhbm : k ≠ Od.HBM_RETIRE_PENDING) (hdepot : k ≠ Od.DEPOT_PENDING) :
    (s.record r).odv k = s.odv k := by
  refine ite_keeps (fun t => t.odv k) rfl ?_
  cases r with
  | hbmRow | hbmChannel => exact odv_setOd_other _ _ _ _ hhbm
  | _ => exact odv_setOd_other _ _ _ _ hdepot

/-- The array lines that fail are mapped out, and the memories are trained. -/
abbrev startTrained (s : State) (ds : List Dimm) (lines : List FailedLine) : State :=
  (lines.foldl (fun (s : State) x => s.applySelfTest x) s).trainDdr5 ds

/-- A checkpoint slot stays valid where its manifest in memory is. -/
abbrev slotsChecked (s : State) : State :=
  { s with ckpt := { s.ckpt with
      a := s.slotStands 0 s.ckpt.a, b := s.slotStands 1 s.ckpt.b, buddy := s.slotStands 3 s.ckpt.buddy } }

/-- The channels that failed training are recorded for retirement. -/
abbrev channelsRecorded (s : State) (bad : List (Nat × Nat)) : State :=
  bad.foldl (fun (s : State) h => s.record (.hbmChannel h.1 h.2)) s

/-- The package once start-up is complete, before retry status ends. -/
abbrev startReady (s : State) (ds : List Dimm) (bad : List (Nat × Nat)) (lines : List FailedLine) : State :=
  { channelsRecorded (slotsChecked (startTrained s ds lines)) bad with
    power := { (channelsRecorded (slotsChecked (startTrained s ds lines)) bad).power with ready := true } }

theorem exec_packageReady {ds : List Dimm} {bad : List (Nat × Nat)} {lines : List FailedLine} {s : State}
    (hlines : ∀ x ∈ lines, x.core < 288 ∧ x.array < 4 ∧ x.line < 130) (hup : s.power.mainEn = true)
    (hgood : s.power.vinGood = true) (hboot : s.power.boot = 1) (htested : s.power.awaiting = false)
    (hfree : s.power.warm = false) (hstarts : s.power.ready = false) : exec (.packageReady ds bad lines) s =
      .next (retryEnded (retryEnded (startReady s ds bad lines) 0) 1) := by
  refine within_next_of_eq ?_ (if_neg (by simp [hup, hgood, hboot, htested, hfree, hstarts]))
  simpa [and_assoc] using hlines

theorem startReady_dimms (s : State) (ds : List Dimm) (bad : List (Nat × Nat)) (lines : List FailedLine) :
    (startReady s ds bad lines).power.dimms = ds := by
  have hrecorded : (channelsRecorded (slotsChecked (startTrained s ds lines)) bad).power =
      (slotsChecked (startTrained s ds lines)).power :=
    foldl_keeps State.power (fun s h => congrArg Prod.snd (memAndPower_record s _)) _ _
  exact (congrArg Power.dimms hrecorded).trans (trainDdr5_dimms _ ds)

theorem startReady_tierState (s : State) (ds : List Dimm) (bad : List (Nat × Nat)) (lines : List FailedLine) :
    (startReady s ds bad lines).odv Od.DDR5_TIER_STATE = tierOf ds := by
  have hrecorded : (channelsRecorded (slotsChecked (startTrained s ds lines)) bad).odv Od.DDR5_TIER_STATE =
      (slotsChecked (startTrained s ds lines)).odv Od.DDR5_TIER_STATE :=
    foldl_keeps (fun t => t.odv Od.DDR5_TIER_STATE) (fun s h => odv_record s _ (by decide) (by decide)) _ _
  exact hrecorded.trans (trainDdr5_tierState _ ds)

/-! ### Power states (R598 to R601) -/

theorem setPorts_power (s : State) (f : Nat → Nat) : (s.setPorts f).power = s.power :=
  foldl_keeps State.power (fun s p => setOd_power s (lpKey Od.LP_STATE p) (f p)) (List.range 16) s

theorem enterDoze_power (s : State) : s.enterDoze.power = { s.power with doze := true } :=
  congrArg (fun p : Power => { p with doze := true }) (setPorts_power _ _)

theorem leaveDoze_power (s : State) : s.leaveDoze.power = { s.power with doze := false } := setPorts_power _ _

theorem powerState_of_doze {s : State} (hup : s.power.mainEn = true) (hdoze : s.power.doze = true) : s.powerState = 2 := by
  simp [State.powerState, hup, hdoze]

/-- What works on the package faults, and the main rails go down. -/
abbrev standbyEntered (s : State) : State := (s.faultAll { cause := causeWatchdog }).mainDown

section
variable {s : State} (hm : s.Managed)
include hm

/-- A written power state is asked for while the firmware runs. -/
theorem exec_powerStateRun : exec .powerStateRun s = .next (s.powerRequest 0).2 :=
  within_next_of_eq (o := "") rfl (if_pos (fwRuns_of_managed hm))

theorem exec_powerStateDoze : exec .powerStateDoze s = .next (s.powerRequest 2).2 :=
  within_next_of_eq (o := "") rfl (if_pos (fwRuns_of_managed hm))

theorem exec_powerStateStandby : exec .powerStateStandby s = .next (s.powerRequest 3).2 :=
  within_next_of_eq (o := "") rfl (if_pos (fwRuns_of_managed hm))

theorem exec_powerProfile {v : Nat} (hv : v ≤ 2) : exec (.powerProfile v) s = .next (s.setOd Od.POWER_PROFILE v) :=
  within_next_of_eq (decide_eq_true (by omega))
    ((if_pos (fwRuns_of_managed hm)).trans (congrArg Prod.snd (if_pos hv : s.setProfile v = _)))

end

theorem exec_powerProfile_refused {v : Nat} {s : State} (hv : v < 256) (hbad : 2 < v) :
    exec (.powerProfile v) s = .next s := by
  have hrefused : (s.setProfile v).2 = s := congrArg Prod.snd (if_neg (not_le.mpr hbad) : s.setProfile v = _)
  exact within_next_of_eq (decide_eq_true hv) (ite_eq_right_iff.mpr fun _ => hrefused)

theorem powerRequest_run_standby {s : State} (hdown : s.power.mainEn = false) (htrip : s.power.trip = false) :
    s.powerRequest 0 = (stOk, s.mainDomainStart) := by
  simp [State.powerRequest, hdown, htrip]

section
variable {s : State} (hup : s.power.mainEn = true) (hready : s.power.ready = true)
include hup hready

theorem powerRequest_run_doze (hdoze : s.power.doze = true) : s.powerRequest 0 = (stOk, s.leaveDoze) := by
  simp [State.powerRequest, State.inTransition, hup, hready, hdoze]

theorem powerRequest_standby_up : s.powerRequest 3 = (stOk, standbyEntered s) := by
  simp [State.powerRequest, State.inTransition, hup, hready]

variable (hrun : s.power.doze = false)
include hrun

theorem powerRequest_doze_idle (hidle : s.anyArmed = false) : s.powerRequest 2 = (stOk, s.enterDoze) := by
  simp [State.powerRequest, State.inTransition, hup, hready, hrun, hidle]

theorem powerRequest_doze_armed (harmed : s.anyArmed = true) : (s.powerRequest 2).2 = s := by
  simp [State.powerRequest, State.inTransition, State.refused, hup, hready, hrun, harmed]

end

/-- Settles O50, from the outcome of each row of start-up and of each request. -/
theorem startUpAndPowerStates : Obligations.StartUpAndPowerStates := by
  unfold Obligations.StartUpAndPowerStates
  refine ⟨fun mv dies s hoff hhigh => exec_vauxRise dies hoff hhigh, fun mv dies s h => exec_vauxRise_ignored dies h,
    ?handsOver, ?fallsBack, ?monitors, ?ready, ?perst, ?runStandby, ?runDoze, ?doze, ?dozeArmed, ?standby, ?profile,
    ?profileRefused⟩
  case handsOver =>
    intro ms s hwaits hlate hactive
    refine ⟨exec_controlDieReportTimeout_active hwaits hlate hactive, fun hunfit => ?_⟩
    rw [handOver_autoRun_of_unfit hunfit]
    exact ⟨noControlDie_activeDie s, rfl⟩
  case fallsBack => exact fun ms s hwaits hlate hnone => exec_controlDieReportTimeout_noneActive hwaits hlate hnone
  case monitors => exact fun vin vddq vio s hup hwaits hvin hvddq hvio => exec_vinPgoodAssert hup hwaits hvin hvddq hvio
  case ready =>
    intro ds bad lines s hlines hup hgood hboot htested hfree hstarts
    have hpower := retriesEnded_keeps State.power setPort_power emit_power (startReady s ds bad lines)
    have hentries := retriesEnded_keeps State.od setPort_od emit_od (startReady s ds bad lines)
    refine ⟨_, exec_packageReady hlines hup hgood hboot htested hfree hstarts, ?_, ?_, ?_, ?_, retryEnded_self _ 1⟩
    · rw [hpower]
    · rw [hpower]
      exact startReady_dimms s ds bad lines
    · exact (odv_of_od _ _ _ hentries).trans (startReady_tierState s ds bad lines)
    · rw [retryEnded_other _ (by decide)]
      exact retryEnded_self _ 0
  case perst => exact fun port s hport => within_next_of_eq (decide_eq_true hport) rfl
  case runStandby =>
    intro s hm hdown htrip
    refine ⟨?_, rfl, rfl⟩
    rw [exec_powerStateRun hm, powerRequest_run_standby hdown htrip]
  case runDoze =>
    intro s hm hup hready hdoze
    refine ⟨?_, congrArg Power.doze (leaveDoze_power s)⟩
    rw [exec_powerStateRun hm, powerRequest_run_doze hup hready hdoze]
  case doze =>
    intro s hm hup hready hrun hidle
    refine ⟨?_, powerState_of_doze ((congrArg Power.mainEn (enterDoze_power s)).trans hup)
      (congrArg Power.doze (enterDoze_power s))⟩
    rw [exec_powerStateDoze hm, powerRequest_doze_idle hup hready hrun hidle]
  case dozeArmed =>
    intro s hm hup hready hrun harmed
    rw [exec_powerStateDoze hm, powerRequest_doze_armed hup hready hrun harmed]
  case standby =>
    intro s hm hup hready
    refine ⟨standbyEntered s, ?_, powerState_of_down rfl, mainDown_mem _, rfl, ?_⟩
    · rw [exec_powerStateStandby hm, powerRequest_standby_up hup hready]
    · exact (odv_mainDown (by decide +kernel) _).trans ((faultBlind_odv (by decide)).faultAll s _)
  case profile => exact fun v s hm hv => exec_powerProfile hm hv
  case profileRefused => exact fun v s hv hbad => exec_powerProfile_refused hv hbad

end Sys2Proof.Proofs
end
